-- ==== Sys2Proof/Word.lean ====
section
/-!
DEFINITION. The word types of the machine. A register is 64 bits (R39), a lane 32 bits (R165), a memory cell a byte (R6).
-/
namespace Sys2Proof

/-- One byte of memory. -/
abbrev Byte := BitVec 8
/-- One 32-bit lane of a vector register (R165). -/
abbrev Lane := BitVec 32
/-- A 64-bit scalar register (R39). -/
abbrev Word := BitVec 64
/-- The 512 bits of a vector register, lane 0 first (R165). -/
abbrev VReg := Vector Lane 16
/-- The 512 bytes of a tile register, byte 0 in the lowest bits (R15, R189). -/
abbrev Tile := BitVec 4096
/-- The 64 slots of an accumulator, slot 8 * i + j first to last (R157). -/
abbrev Acc := Vector Word 64

end Sys2Proof
end

