-- ==== Sys2Proof/Config.lean ====
section
/-!
DEFINITION. What is fixed for the machine: the module's figures (R12-R17, R27), the model's physical location map, and the free
values that the spec leaves open. A free value is a constant without a body; nothing can prove what it is.
-/
namespace Sys2Proof.Config

/-- Cores of a cluster (R14), clusters of a die (R13), dies of the module (R12). -/
abbrev coresPerCluster : Nat := 192
abbrev clustersPerDie : Nat := 112
abbrev dies : Nat := 48
abbrev clusters : Nat := 5376
/-- Cores of the module, present or absent (R16). -/
abbrev cores : Nat := 1032192

/-- Bytes of one scratchpad (R15) and of a cluster space (R14). -/
abbrev spadBytes : Nat := 0x20000
abbrev clusterBytes : Nat := 0x1800000

/-- DESIGN CHOICE (log 9): where the model places the spaces of R78 and R20 in its one list of cells. Device physical addresses
(R230) keep their own numbers below 2^47. -/
abbrev spadBase : Nat := 0x1000000000000
abbrev swBase : Nat := 0x2000000000000
abbrev nvmeBase : Nat := 0x100000000000000000
abbrev hostBase : Nat := 0x10000000000000000
abbrev peerBase : Nat := 0x20000000000000000

/-- Bytes of the steward window (R20). -/
abbrev swBytes : Nat := 0x40000000
/-- Virtual bases of the four untranslated ranges (R20, R230, R231, R363, R369). -/
abbrev swVa : Nat := 0x7FFFFFC0000000
abbrev aperVa : Nat := 0x7E000000000000
abbrev hostVa : Nat := 0x7D000000000000
abbrev peerVa : Nat := 0x7C000000000000

/-- DESIGN CHOICE (log 2): the fused speed code of a core that State.reset does not list, 1,000 MHz (the median of R27). -/
abbrev fusedCode : Byte := 9
/-- DESIGN CHOICE (log 3): the code address at which the fibres made by a start begin: DPA 0 of the device OS image (R80, R381). -/
abbrev bootPc : Word := 0x7E000000000000
/-- DESIGN CHOICE (log 3): the fibre index of every walker, so that the lowest free index of a fresh core is 0. -/
abbrev walkerIndex : Nat := 4094

/-- FREE VALUE (log 8): the n-th byte that the spec leaves open (a byte the host or a peer returns, a byte of an overlapping copy). -/
opaque freeByte : Nat → Byte
/-- FREE VALUE (log 8): the signature that R378 makes of a message with identity key n, which the spec does not give. -/
opaque freeSignature : Nat → List Byte → List Byte
/-- FREE VALUE (log 8): the SHA-512 of a firmware image followed by a configuration, a function that the spec names and does not give (R375). -/
opaque freeMeasure : List Byte → List Byte

/-- FREE VALUE (log 11): byte i of the payload of a Welt message of a kind, a window, an offset and its data, whose form the spec does not
give (R367). -/
opaque weltByte (kind win off : Nat) (data : List Byte) : Nat → Byte

/-- FREE VALUE (log 8): whether the host's own AER mask hides event k when it arises for the n-th time a value is drawn (R361). -/
opaque aerMasked : Nat → Nat → Bool

end Sys2Proof.Config
end

