-- ==== Sys2Proof/Syntax.lean ====
section
/-!
DEFINITION. The instructions and events of opcode_table.json as one inductive, Instr, and the types of their operands.
-/
namespace Sys2Proof

/-! ## Operands -/

/-- A scalar register or `z` (R38, R39). -/
inductive SReg where
  | la (k : Fin 4) | s (k : Fin 16) | x (k : Fin 64) | z
deriving DecidableEq, Repr

/-- The B position of a scalar instruction: a register, `z`, or IMM[47:0] (R35, R67). -/
inductive SrcB where
  | reg (r : SReg) | imm (i : BitVec 48)
deriving DecidableEq, Repr

/-- A vector operand of class V, S or I (R166). -/
inductive VSrc where
  | v (k : Fin 16) | s (r : SReg) | imm (i : BitVec 48)
deriving DecidableEq, Repr

/-- The C position of `vfma` and `vratom`: class V or S (R168). -/
inductive VSrcC where
  | v (k : Fin 16) | s (r : SReg)
deriving DecidableEq, Repr

/-- The condition codes of R42. -/
inductive Cond where
  | eq | ne | lt | ge | ltn | gen
deriving DecidableEq, Repr

/-- The condition codes of `vcmp` (R172). -/
inductive VCond where
  | eq | ne | lt | ge | gt | le | un
deriving DecidableEq, Repr

/-- The rounding modes of R43. -/
inductive RM where
  | rne | rtz | rdn | rup
deriving DecidableEq, Repr

/-- The scopes that an instruction can name, codes 1 to 5 of R41. -/
inductive Scope where
  | core | clu | die | mod | sys
deriving DecidableEq, Repr

/-- Lane kinds `.f`, `.i`, `.n` (R165). -/
inductive LKind where
  | f | i | n
deriving DecidableEq, Repr

/-- A format-M memory operand `[sgN + a + off]` (R37). -/
structure MemRef where
  sg  : Fin 8
  a   : SReg
  off : BitVec 48
deriving DecidableEq, Repr

/-- A memory operand in the layout of the counter instructions (R109). -/
structure CRef where
  sg  : Fin 8
  a   : SReg
  off : BitVec 24
deriving DecidableEq, Repr

/-- An increment or a threshold: register B, or the K field (R109). -/
inductive CArg where
  | reg (r : SReg) | imm (k : BitVec 21)
deriving DecidableEq, Repr

/-- `s12`-`s15` (isV false) or `v12`-`v15` (isV true); `p` is the position less 12 (R90). -/
structure StreamReg where
  isV : Bool
  p   : Fin 4
deriving DecidableEq, Repr

/-- The special registers that a chapter assigns a number (R64). -/
inductive Csr where
  | fibre | slot | core | clu | die | stage | speed | cyc | budget | tenant | queue | mode
  | gsize | grank | sstart | scount | geom
  | segBase (k : Fin 8) | segLimit (k : Fin 8) | segRights (k : Fin 8)
  | tshape (k : Fin 32) | tclaim | aclaim
  | ctx | fp | fdepth | fdlimit | rope
  | tcause | tpc | taddr | tvec | tstep
deriving DecidableEq, Repr

/-- Element formats of the narrow path, coded 0 to 3 (R154, R194). -/
inductive EFmt where
  | f4 | f6 | i4 | i8
deriving DecidableEq, Repr

/-- Operations of `vred` and `vscan` (R177, R178). -/
inductive RedOp where
  | fadd | fmax | fmin | iadd | imax | imin | nmax | nmin
deriving DecidableEq, Repr

/-- Operations of `vratom` (R179). -/
inductive AtomOp where
  | addi | addf | maxi | mini | maxn | minn | swap
deriving DecidableEq, Repr

/-- Conversions of `vcvt` (R174). -/
inductive CvtKind where
  | fi | fn | sif | nf
deriving DecidableEq, Repr

/-- Forms of `vpack` (R175). -/
inductive PackKind where
  | bf | bfl | bfh | h | hl | hh
deriving DecidableEq, Repr

/-- Fields that `fpos` reads (R271). -/
inductive PosKind where
  | next | len | first | cap | mark | parent | holds | info
deriving DecidableEq, Repr

/-! ## Operands of the events -/

/-- Who makes an add (R107). -/
structure Adder where
  kind  : Nat
  core  : Nat
  fibre : Nat
deriving DecidableEq, Repr

/-- A PCIe port or a Welt link (R353). -/
inductive LinkId where
  | port (p : Fin 8) | welt (w : Fin 16)
deriving DecidableEq, Repr

/-- An inbound request of a function or a peer: the link, the window, the offset, the length of a read or the bytes of a write, and
whether the payload is a poisoned TLP (R360, R361). -/
structure Inbound where
  link  : LinkId
  win   : Fin 64
  off   : Nat
  len   : Nat
  data  : Option (List Byte)
  toxic : Bool
  /-- An access to BAR0 at `off`, of the host endpoint (R358); else to window `win` of BAR2 or of the Welt link. -/
  bar0  : Bool := false
deriving DecidableEq, Repr

/-- A message of a Welt link (R367): a write, a counter add, a read request or a read reply. -/
inductive WeltMsg where
  | write (win : Fin 64) (off : Nat) (data : List Byte)
  | add (win : Fin 64) (off : Nat) (inc : Word)
  | read (win : Fin 64) (off : Nat) (len : Nat)
  | reply (data : List Byte)
deriving DecidableEq, Repr

/-- A received Welt flit (R367): its 248 guarded bytes, its CRC, and the message whose last flit it is. -/
structure Flit where
  bytes : List Byte
  crc   : Word
  done  : Option WeltMsg
deriving DecidableEq, Repr

/-- A TLB of R234 or R248. -/
inductive TlbId where
  | port (cluster : Nat) | die (d : Nat) | host (i : Nat)
deriving DecidableEq, Repr

/-- Where an error strikes (R144) and whether ECC can correct it; for the fetch path, a single parity failure (R32); a seam flit that a die
sends again (R145); of a store-buffer entry, the aligned word with that number; a block whose next NVMe command its controller fails (R204). -/
inductive ErrSite where
  | word (loc : Nat) (correctable : Bool)
  | reg (g k : Nat) (code : Nat) (correctable : Bool)
  | buffer (g i : Nat) (word : Fin 8) (correctable : Bool)
  | fetch (g k : Nat)
  | seam (die : Nat)
  | pcie (p : Fin 8)
  | nvme (block : Nat)
deriving DecidableEq, Repr

/-- What the outside supplies to a start (R376-R379): results of the checks and of the training that only the part can know. -/
structure StartInputs where
  imageGood  : Bool
  configGood : Bool
  trainGood  : Bool
  failed     : List Nat
  lifeCmd    : Bool
  /-- Ports and links whose training comes up, each with its WIDTH, RATE and PEER (R355). -/
  links      : List (LinkId × Nat × Nat × Nat) := []
  /-- The device OS of the firmware image, by location (R376). -/
  image      : List (Nat × List Byte) := []
  /-- The firmware image and the configuration as bytes, which step 2 measures (R375, R378). -/
  firmware   : List Byte := []
  config     : List Byte := []
  /-- The capacity of each CXL device found, with its port; those of one port in the order of its devices (R365). -/
  cxl        : List (Fin 8 × Nat) := []
deriving DecidableEq, Repr

/-- Every row of opcode_table.json: 182 instructions, then 75 events. An event names the object it happens to. -/
inductive Instr where
  -- Fibres and slots: scalar instructions (R67-R73)
  | add (d a : SReg) (b : SrcB) | sub (d a : SReg) (b : SrcB) | mul (d a : SReg) (b : SrcB) | mulh (d a : SReg) (b : SrcB)
  | mulhn (d a : SReg) (b : SrcB) | div (d a : SReg) (b : SrcB) | divn (d a : SReg) (b : SrcB) | rem (d a : SReg) (b : SrcB)
  | remn (d a : SReg) (b : SrcB) | and (d a : SReg) (b : SrcB) | or (d a : SReg) (b : SrcB) | xor (d a : SReg) (b : SrcB)
  | andn (d a : SReg) (b : SrcB) | shl (d a : SReg) (b : SrcB) | shr (d a : SReg) (b : SrcB) | sar (d a : SReg) (b : SrcB)
  | rol (d a : SReg) (b : SrcB) | min (d a : SReg) (b : SrcB) | max (d a : SReg) (b : SrcB) | minn (d a : SReg) (b : SrcB)
  | maxn (d a : SReg) (b : SrcB) | clz (d a : SReg) | ctz (d a : SReg) | popc (d a : SReg)
  | bext (d a : SReg) (b : SrcB) | bextS (d a : SReg) (b : SrcB) | bins (d a : SReg) (b : SrcB) (c : SReg)
  | sext (d a : SReg) (b : SrcB) | mov (d a : SReg) | sel (d a : SReg) (b : SrcB) (c : SReg)
  | cset (cc : Cond) (d a : SReg) (b : SrcB) | lea (k : Fin 7) (d a : SReg) (b : SrcB) (c : SReg) | li (d : SReg) (imm : Word)
  -- control (R74-R76)
  | csk (cc : Cond) (n : Fin 3) (a : SReg) (b : SrcB) | b (ti : Fin 5) (tl : BitVec 32)
  | bcc (cc : Cond) (a b : SReg) (ti : Fin 5) (tl : BitVec 32) | call (d : SReg) (ti : Fin 5) (tl : BitVec 32)
  | ret (a : SReg) | jr (d a : SReg) | loop (d a : SReg) (ti : Fin 5) (tl : BitVec 32)
  | nop | yield | halt
  -- special registers (R63)
  | csrr (d : SReg) (c : Csr) | csrw (c : Csr) (a : SReg) | csrx (d a : SReg) (c : Csr)
  -- traps (R146-R149)
  | trap (n : BitVec 16) | eret (a : SReg) | tret | sysc (n : BitVec 16)
  -- memory and segments (R84-R93)
  | ld (sz : Fin 7) (acq : Option Scope) (d : SReg) (m : MemRef) | st (sz : Fin 4) (m : MemRef) (c : SReg)
  | ldv (full : Bool) (acq : Option Scope) (d : Fin 16) (m : MemRef) | stv (full : Bool) (m : MemRef) (c : Fin 16)
  | ldvb (sz : Fin 3) (acq : Option Scope) (d : Fin 16) (m : MemRef)
  | sarm (out : Bool) (d : StreamReg) (m : MemRef) (dseg : Fin 8) | sdis (d : SReg) (c : StreamReg)
  | sseg (keep : BitVec 4) (t : Fin 8) (m : MemRef) (c : SReg) | segq (sz : Fin 9) (d : SReg) (m : MemRef)
  -- counters (R109-R115)
  | cadd (rel : Bool) (sc : Scope) (m : CRef) (i : CArg) | caddF (rel : Bool) (sc : Scope) (d : SReg) (m : CRef) (i : CArg)
  | cwait (acq : Bool) (sc : Scope) (d : SReg) (m : CRef) (t : CArg) | cread (acq : Bool) (sc : Scope) (d : SReg) (m : CRef)
  | cpoll (acq : Bool) (sc : Scope) (d : SReg) (m : CRef) (t : CArg) | cstrag (d : SReg) (m : CRef) | cstragT (d : SReg) (m : CRef)
  -- phases (R131), barriers (R351)
  | pub (sc : Scope) | acq (sc : Scope) | drain (mod : Bool) (d : SReg)
  -- kernels (R328), queues (R299)
  | spawn (d a : SReg) (b : SrcB) | reap (d a : SReg) | kwaitp (d : SReg) (b : SrcB) | khint | khintMv (d : SReg)
  | qpost (sys : Bool) (d a : SReg) (v : Fin 15) | pput (d a : SReg) (b : SrcB) | pget (d a : SReg) | pgetW (d a : SReg)
  -- groups (R314-R318)
  | take (d a : SReg) (b : SrcB) | gtileO (d a : SReg) (b : SrcB) | gtileA (d a : SReg) (b : SrcB) | gtileB (d a : SReg) (b : SrcB)
  | gtileMask (d : SReg) (b : SrcB) | gtileG (d : SReg) (b : SrcB) | lvpost (d a : SReg) | lvtake (d : SReg)
  -- vectors (R168)
  | vadd (k : LKind) (sat : Bool) (rm : RM) (d a : Fin 16) (b : VSrc) | vsub (k : LKind) (sat : Bool) (rm : RM) (d a : Fin 16) (b : VSrc)
  | vmul (k : LKind) (sat : Bool) (rm : RM) (d a : Fin 16) (b : VSrc) | vfma (k : LKind) (rm : RM) (d a : Fin 16) (b : VSrc) (c : VSrcC)
  | vmax (k : LKind) (d a : Fin 16) (b : VSrc) | vmin (k : LKind) (d a : Fin 16) (b : VSrc)
  | vabs (int sat : Bool) (d a : Fin 16) | vneg (int sat : Bool) (d a : Fin 16)
  | vrcp (rm : RM) (d a : Fin 16) | vrsq (rm : RM) (d a : Fin 16) | vexp2 (rm : RM) (d a : Fin 16) | vlog2 (rm : RM) (d a : Fin 16)
  | vcmp (k : LKind) (cc : VCond) (d : SReg) (a : Fin 16) (b : VSrc) | vsel (d a : Fin 16) (b : VSrc) (c : SReg)
  | vand (d a : Fin 16) (b : VSrc) | vor (d a : Fin 16) (b : VSrc) | vxor (d a : Fin 16) (b : VSrc)
  | vshl (d a : Fin 16) (b : VSrc) | vshr (d a : Fin 16) (b : VSrc) | vshrS (d a : Fin 16) (b : VSrc)
  | vcvt (k : CvtKind) (rm : RM) (d a : Fin 16) | vbcast (d : Fin 16) (b : SrcB) | vbcastL (k : Fin 16) (d a : Fin 16)
  | vperm (d a b : Fin 16) | vperm2 (d a b c : Fin 16) | vred (op : RedOp) (rm : RM) (d : SReg) (a : Fin 16)
  | vdot (rm : RM) (d : SReg) (a : Fin 16) (b : VSrc) | vins (k : Fin 16) (d : Fin 12) (b : SrcB)
  | vext (sx : Bool) (k : Fin 16) (d : SReg) (a : Fin 16)
  | vgath (sc : Fin 3) (d : Fin 12) (m : CRef) (b : Fin 16) | vscat (sc : Fin 3) (m : CRef) (b c : Fin 16)
  | vratom (op : AtomOp) (sc : Fin 3) (d : Option (Fin 12)) (m : CRef) (b : Fin 16) (c : VSrcC)
  | vscan (op : RedOp) (rm : RM) (d a : Fin 16) | vmov (d a : Fin 16) | vpack (k : PackKind) (d a b : Fin 16)
  -- tiles (R192-R199)
  | tset (d : Fin 32) (shape : BitVec 15) | tsetReg (d : Fin 32) (s : SReg) | tld (d : Fin 32) (m : CRef) (pitch : BitVec 21)
  | tst (m : CRef) (pitch : BitVec 21) (a : Fin 32) | tz (d : Fin 32)
  | mmn (fa fb : EFmt) (sp : Bool) (n : Fin 8) (a b m : Fin 32) | mmw (n : Fin 8) (a b : Fin 32)
  | aoutI (d : Fin 32) (n : Fin 8) | aoutF (d : Fin 32) (n : Fin 8) | az (n : Fin 8) | scacc (d a b : Fin 32)
  | qcvt (h32 : Bool) (f : EFmt) (d a b : Fin 32) (line : Fin 8) (pos : BitVec 7) (src : BitVec 6) (sb : Fin 16)
  | tmov (d a : Fin 32) | tmovTv (d : Fin 32) (v : Fin 16) (k : Fin 8) | tmovVt (v : Fin 16) (a : Fin 32) (k : Fin 8) | ttr (d a : Fin 32)
  -- engines (R209, R220)
  | ecopy (sc : Scope) (d : SReg) (m : CRef) (v : Fin 16) | ecopyMc (sc : Scope) (d : SReg) (m : CRef) (v : Fin 16)
  | ecopyDeal (sc : Scope) (d : SReg) (m : CRef) (v : Fin 16) | ecopyDec (sc : Scope) (d : SReg) (m : CRef) (v : Fin 16)
  | ecopyRed (sc : Scope) (d : SReg) (m : CRef) (v : Fin 16) | egath (sc : Scope) (d : SReg) (m : CRef) (v : Fin 16)
  | escat (sc : Scope) (d : SReg) (m : CRef) (v : Fin 16) | emigMv (sc : Scope) (d : SReg) (m : CRef) (v : Fin 16)
  | emigNvr (sc : Scope) (d : SReg) (m : CRef) (v : Fin 16) | emigNvw (sc : Scope) (d : SReg) (m : CRef) (v : Fin 16)
  | ecode (sc : Scope) (d : SReg) (m : CRef) (v : Fin 16) | epub (sc : Scope) (d : SReg) (m : CRef) (v : Fin 16)
  | equery (d : SReg) | equerySt (d : SReg) (m : CRef) (b : SReg)
  -- handles and pages (R226, R237)
  | halloc (kind : Fin 5) (d a : SReg) (b : SrcB) | hallocBufSh (d a : SReg) (b : SrcB) (c : SReg) | hfree (a : SReg)
  | hchk (d a : SReg) (b : SrcB) | tlbinvAll | tlbinvTen (a : SReg) | tlbinvVa (a b : SReg)
  | wmbx (d : Fin 12) | wfill (a b : SReg) | wfail (a b : SReg)
  -- contexts and frames (R266)
  | fpush (d : SReg) (b : SrcB) | fpushSpec (d : SReg) (b : SrcB) | fret (d a : SReg) (b : SrcB) | fshareJ (a : SReg) | fshareH (a : SReg)
  | frel (a : SReg) | farg (a : SReg) (b : SrcB) (c : SReg) | fpos (k : PosKind) (d a : SReg)
  | kvapp (d : SReg) (a b : Fin 15) (c : SReg) | kvappLn (d : SReg) (a b : Fin 15) (c : SReg) (ln : Fin 16)
  | atbeg (a : Fin 15) (b : SrcB) (n : Fin 4) | atstep (d : SReg) (n : Fin 4) | atend (d : Fin 15) (n : Fin 4) (h : Fin 2)
  | sctpin (d : SReg) (m : CRef) (b c : SReg) | sctevict (d : SReg) (m : CRef) (b : SReg)
  -- sampling (R288)
  | rngx (d a : SReg) (b : SrcB) | vtopk (k : Fin 8) (d : Fin 12) (a : Fin 16) (b : SrcB) (c : SReg)
  | vsamp (d : SReg) (a : Fin 16) (b : SrcB) (c : SReg) | vaccptP (n : Fin 16) (d : SReg) (a b c : Fin 16)
  | vaccptE (n : Fin 16) (d : SReg) (a b : Fin 16) | vaccptLn (d : Fin 12) (a : SReg)
  -- events of a core and its slots
  | fetchLineArrival (g k : Nat) | parityRefetch (g k : Nat) | replyCompletion (g k : Nat) | fibreBind (g k : Nat)
  | swapThreshold (g k : Nat) | budgetOverrun (g k : Nat) | preEmption (g k : Nat) | engineTrapDelivery (g k : Nat)
  | storeBufferDrain (g i : Nat) | counterAddAtHome (i : Nat) | wakeDelivery (i : Nat) | pollTest (g f : Nat)
  | deviceWaiterPoll (i : Nat) | streamRefill (g k : Nat) (p : Fin 4) | speedTableCurWrite (g : Nat) (code : Byte)
  | clockSwitchComplete (g : Nat)
  -- ports of the steward window
  | wakePort (g : Nat) (inc : Word) (who : Adder) | refusePort (g : Nat) (t : Word) | pop64 (tier : Fin 4) | push64 (tier : Fin 4) (frame : Word)
  | pop512 (tier : Fin 4) | push512 (tier : Fin 4) (frame : Word) | registerWrite (off : Nat) (data : List Byte)
  -- pages and engines
  | migRetranslate (i : Nat) | engineTakeCommand (i : Nat) | engineResume (i : Nat) | engineCommandRetire (i : Nat)
  | multicastRunAccepted (i k : Nat) | gatherRowAccepted (i : Nat) | evictionStart (n : Nat) | evictionComplete (n : Nat)
  -- queues
  | queueOpenPort (q : Word) | queueClosePort (q : Word) | queueNotifyWake (q : Nat) | queueSlotFreed (q : Nat) | queueUnbind (q : Nat)
  | unbindRetest (q : Nat) | recordRead (q : Nat) | kernelAdmission (k : Nat) | gateReached (k : Nat) | kernelPlacement (k : Nat)
  | populationComplete (k : Nat) | queueArbiter (g : Nat)
  -- groups, kernels, barriers
  | levelBalance (g : Nat) | coreMove (g : Nat) | kernelEndSweep (k : Nat) | killPort (k : Word) | proxyArrival (i : Nat)
  | drainHoldStart (k : Nat) (stage : Fin 8) (mod : Bool) | drainRelease (k : Nat) (stage : Fin 8) (mod : Bool) | samplerRequestStart (g : Nat)
  -- links
  | linkTrained (l : LinkId) (width rate peer : Nat) | linkTrainingFail (l : LinkId) | linkError (l : LinkId) | ctlTrain (l : LinkId)
  | ctlDisable (l : LinkId) | hostReset (p : Fin 8) | inboundScratchpadRequest (r : Inbound) | inboundCounterRead (r : Inbound)
  | inboundCounterWrite (r : Inbound) | counterWindowAddApply (l : LinkId) | inboundModuleRequest (r : Inbound)
  | weltFlitReceive (w : Fin 16) (f : Flit) | weltReplayTimeout (w : Fin 16)
  -- start, power and errors
  | thermalAlert (die : Nat) | thermalShutdown (die : Nat) | powerOn | restart (v : Word) | start (i : StartInputs) | attest
  | hostFunctionResetComplete (p : Fin 8) | msixVectorUnmask (v : Fin 64) | tlbEntryDrop (t : TlbId) (i : Nat) | softError (e : ErrSite)
  | recordWriteComplete (g f : Nat)
deriving DecidableEq, Repr

end Sys2Proof
end

