-- ==== Sys2Proof/WellFormed.lean ====
section
/-!
DEFINITION. The checks of an instruction's entry that its operand types do not make already: a term that fails one stands for no
word of the machine (R50) or, for an event, names no object of the module.
-/
namespace Sys2Proof

/-- A field whose entry admits "Scalar" but not `z` (R38). -/
def SReg.named : SReg → Bool
  | .z => false
  | _  => true

/-- A B field whose entry admits "Scalar or immediate" but not `z`. -/
def SrcB.named : SrcB → Bool
  | .reg r => r.named
  | .imm _ => true

/-- A rounding code is admitted with `.f` only, `.sat` with the integer kinds only (R168). -/
def kindOk (k : LKind) (sat : Bool) (rm : RM) : Bool :=
  match k with
  | .f => !sat
  | _  => rm == .rne

/-- `vred` and `vscan` take a rounding code for `.fadd` only (R168). -/
def redOk (op : RedOp) (rm : RM) : Bool := op == .fadd || rm == .rne

/-- Elements of a `qcvt` block (R199). -/
def blockLen (h32 : Bool) : Nat := if h32 then 32 else 16

def coreOk (g : Nat) : Bool := g < Config.cores
def slotOk (g k : Nat) : Bool := g < Config.cores && k < 16

/-- The well-formed instructions. -/
def wfInstr : Instr → Bool
  | .ret a | .jr _ a | .eret a | .hfree a | .tlbinvTen a | .lvpost _ a | .tsetReg _ a => a.named
  | .tlbinvVa a b | .wfill a b | .wfail a b => a.named && b.named
  | .halloc _ _ a b | .hchk _ a b => a.named && b.named
  | .hallocBufSh _ a b c => a.named && b.named && c.named
  | .spawn _ a _ => a.named
  | .sctpin _ _ b c => b.named && c.named
  | .sctevict _ _ b => b.named
  | .vadd k sat rm _ _ _ | .vsub k sat rm _ _ _ | .vmul k sat rm _ _ _ => kindOk k sat rm
  | .vfma k rm _ _ _ _ => kindOk k false rm
  | .vabs int sat _ _ | .vneg int sat _ _ => int || !sat
  | .vcmp k cc _ _ _ => cc != .un || k == .f
  | .vred op rm _ _ => redOk op rm
  | .vscan op rm _ _ => (op == .fadd || op == .fmax || op == .iadd || op == .imax) && redOk op rm
  | .vpack k _ _ b => k == .bf || k == .h || b == 0
  | .mmn _ _ sp _ _ tb md => if sp then tb != 31 else md == 0
  | .qcvt h32 _ _ _ _ _ pos src _ =>
      src.toNat % blockLen h32 == 0 && src.toNat + blockLen h32 ≤ 64 && pos.toNat % blockLen h32 == 0
  | .fetchLineArrival g k | .parityRefetch g k | .replyCompletion g k | .fibreBind g k | .swapThreshold g k
  | .budgetOverrun g k | .preEmption g k | .engineTrapDelivery g k | .streamRefill g k _ => slotOk g k
  | .storeBufferDrain g _ | .speedTableCurWrite g _ | .clockSwitchComplete g | .wakePort g _ _ | .refusePort g _
  | .queueArbiter g | .levelBalance g | .coreMove g | .samplerRequestStart g => coreOk g
  | .pollTest g f | .recordWriteComplete g f => coreOk g && f < 4096
  | .registerWrite off d => off + d.length ≤ Config.swBytes
  | .queueNotifyWake q | .queueSlotFreed q | .queueUnbind q | .unbindRetest q | .recordRead q => q < 65536
  | .kernelAdmission k | .gateReached k | .kernelPlacement k | .populationComplete k | .kernelEndSweep k
  | .drainHoldStart k _ _ | .drainRelease k _ _ => k < 8192
  | .evictionStart n | .evictionComplete n => n < 65536
  | .thermalAlert d => d < 52
  | .thermalShutdown d => d < 52
  | .tlbEntryDrop t _ => match t with
      | .port c => c < Config.clusters
      | .die d  => d < Config.dies
      | .host i => i < 4
  | .softError e => match e with
      | .word _ _ => true
      | .reg g k _ _ => slotOk g k
      | .buffer g _ _ _ => coreOk g
      | .fetch g k => slotOk g k
      | .seam d => d < Config.dies
      | .pcie _ => true
      | .nvme _ => true
  | _ => true

/-- An event of the table: a step that no instruction word encodes. -/
def isEvent : Instr → Bool
  | .fetchLineArrival .. | .parityRefetch .. | .replyCompletion .. | .fibreBind .. | .swapThreshold .. | .budgetOverrun ..
  | .preEmption .. | .engineTrapDelivery .. | .storeBufferDrain .. | .counterAddAtHome .. | .wakeDelivery .. | .pollTest ..
  | .deviceWaiterPoll .. | .streamRefill .. | .speedTableCurWrite .. | .clockSwitchComplete .. | .wakePort .. | .refusePort ..
  | .pop64 .. | .push64 .. | .pop512 .. | .push512 .. | .registerWrite .. | .migRetranslate .. | .engineTakeCommand ..
  | .engineResume .. | .engineCommandRetire .. | .multicastRunAccepted .. | .gatherRowAccepted .. | .evictionStart ..
  | .evictionComplete .. | .queueOpenPort .. | .queueClosePort .. | .queueNotifyWake .. | .queueSlotFreed .. | .queueUnbind ..
  | .unbindRetest .. | .recordRead .. | .kernelAdmission .. | .gateReached .. | .kernelPlacement .. | .populationComplete ..
  | .queueArbiter .. | .levelBalance .. | .coreMove .. | .kernelEndSweep .. | .killPort .. | .proxyArrival .. | .drainHoldStart ..
  | .drainRelease .. | .samplerRequestStart .. | .linkTrained .. | .linkTrainingFail .. | .linkError .. | .ctlTrain ..
  | .ctlDisable .. | .hostReset .. | .inboundScratchpadRequest .. | .inboundCounterRead .. | .inboundCounterWrite ..
  | .counterWindowAddApply .. | .inboundModuleRequest .. | .weltFlitReceive .. | .weltReplayTimeout .. | .thermalAlert ..
  | .thermalShutdown .. | .powerOn | .restart .. | .start .. | .attest | .hostFunctionResetComplete .. | .msixVectorUnmask ..
  | .tlbEntryDrop .. | .softError .. | .recordWriteComplete .. => true
  | _ => false

end Sys2Proof
end

