-- ==== Sys2Proof/Decode.lean ====
section
/-!
DEFINITION. The instruction words (R28-R50): a decoder, total on every 96-bit word and refusing what R50 calls no instruction, then
an encoder written from the same tables. Words are naturals below 2^96 here, so that a field is a quotient and a remainder.
-/
namespace Sys2Proof

/-! ## Fields -/

/-- Bits lo + len - 1 down to lo of w. -/
def fld (w lo len : Nat) : Nat := w / 2 ^ lo % 2 ^ len

/-- The fields of format A (R33). -/
structure FA where
  fn : Nat
  d : Nat
  a : Nat
  b : Nat
  c : Nat
  mod : Nat
  imm : Nat

/-- The fields of format J; zero fields are checked where it is read. -/
structure FJ where
  fn : Nat
  d : Nat
  a : Nat
  b : Nat
  z1 : Nat
  cc : Nat
  z2 : Nat
  ti : Nat
  tl : Nat

structure FM where
  fn : Nat
  d : Nat
  a : Nat
  sg : Nat
  sz : Nat
  c : Nat
  ord : Nat
  off : Nat

structure FT where
  fn : Nat
  td : Nat
  ta : Nat
  tb : Nat
  ac : Nat
  s : Nat
  z1 : Nat
  imm : Nat

def fieldsA (w : Nat) : FA := ⟨fld w 80 8, fld w 73 7, fld w 66 7, fld w 59 7, fld w 52 7, fld w 48 4, fld w 0 48⟩
def fieldsJ (w : Nat) : FJ := ⟨fld w 80 8, fld w 73 7, fld w 66 7, fld w 59 7, fld w 52 7, fld w 48 4, fld w 35 13, fld w 32 3, fld w 0 32⟩
def fieldsM (w : Nat) : FM := ⟨fld w 80 8, fld w 73 7, fld w 66 7, fld w 63 3, fld w 59 4, fld w 52 7, fld w 48 4, fld w 0 48⟩
def fieldsT (w : Nat) : FT := ⟨fld w 80 8, fld w 75 5, fld w 70 5, fld w 65 5, fld w 62 3, fld w 55 7, fld w 48 7, fld w 0 48⟩

/-! ## Operand specifiers (R38) -/

def sregOf (n : Nat) : Option SReg :=
  if n < 4 then some (.la (Fin.ofNat 4 n)) else if n = 4 then some .z
  else if 0x10 ≤ n ∧ n < 0x20 then some (.s (Fin.ofNat 16 (n - 0x10)))
  else if 0x40 ≤ n ∧ n < 0x80 then some (.x (Fin.ofNat 64 (n - 0x40))) else none

/-- A scalar register, `z` not admitted. -/
def namedOf (n : Nat) : Option SReg := if n = 4 then none else sregOf n

/-- B, with the immediate 0x05; without it IMM is reserved (R34, R35). -/
def srcBOf (b imm : Nat) : Option SrcB :=
  if b = 5 then some (.imm (BitVec.ofNat 48 imm)) else if imm = 0 then (sregOf b).map .reg else none

def namedBOf (b imm : Nat) : Option SrcB := if b = 4 then none else srcBOf b imm

def vregOf (n : Nat) : Option (Fin 16) := if 0x20 ≤ n ∧ n < 0x30 then some (Fin.ofNat 16 (n - 0x20)) else none
/-- `v0`-`v11`. -/
def v12Of (n : Nat) : Option (Fin 12) := if 0x20 ≤ n ∧ n < 0x2C then some (Fin.ofNat 12 (n - 0x20)) else none
/-- `v0`-`v14`. -/
def v15Of (n : Nat) : Option (Fin 15) := if 0x20 ≤ n ∧ n < 0x2F then some (Fin.ofNat 15 (n - 0x20)) else none

def vsrcOf (b imm : Nat) : Option VSrc :=
  if b = 5 then some (.imm (BitVec.ofNat 48 imm)) else if imm = 0 then
    match vregOf b with
    | some v => some (.v v)
    | none => (sregOf b).map .s
  else none

def vsrcCOf (c : Nat) : Option VSrcC :=
  match vregOf c with
  | some v => some (.v v)
  | none => (sregOf c).map .s

def streamOf (n : Nat) : Option StreamReg :=
  if 0x1C ≤ n ∧ n < 0x20 then some ⟨false, Fin.ofNat 4 (n - 0x1C)⟩
  else if 0x2C ≤ n ∧ n < 0x30 then some ⟨true, Fin.ofNat 4 (n - 0x2C)⟩ else none

def condOf : Nat → Option Cond
  | 0 => some .eq | 1 => some .ne | 2 => some .lt | 3 => some .ge | 4 => some .ltn | 5 => some .gen | _ => none
def vcondOf : Nat → Option VCond
  | 0 => some .eq | 1 => some .ne | 2 => some .lt | 3 => some .ge | 4 => some .gt | 5 => some .le | 6 => some .un | _ => none
def rmOf : Nat → Option RM
  | 0 => some .rne | 1 => some .rtz | 2 => some .rdn | 3 => some .rup | _ => none
def scopeOf : Nat → Option Scope
  | 1 => some .core | 2 => some .clu | 3 => some .die | 4 => some .mod | 5 => some .sys | _ => none
def kindOf : Nat → Option LKind
  | 0 => some .f | 1 => some .i | 2 => some .n | _ => none
def efmtOf : Nat → Option EFmt
  | 0 => some .f4 | 1 => some .f6 | 2 => some .i4 | 3 => some .i8 | _ => none
def redOf : Nat → Option RedOp
  | 0 => some .fadd | 1 => some .fmax | 2 => some .fmin | 3 => some .iadd | 4 => some .imax | 5 => some .imin
  | 6 => some .nmax | 7 => some .nmin | _ => none
def atomOf : Nat → Option AtomOp
  | 0 => some .addi | 1 => some .addf | 2 => some .maxi | 3 => some .mini | 4 => some .maxn | 5 => some .minn | 6 => some .swap | _ => none
def cvtOf : Nat → Option CvtKind
  | 1 => some .fi | 2 => some .fn | 3 => some .sif | 4 => some .nf | _ => none
def packOf : Nat → Option PackKind
  | 0 => some .bf | 1 => some .bfl | 2 => some .bfh | 3 => some .h | 4 => some .hl | 5 => some .hh | _ => none
def posOf : Nat → Option PosKind
  | 0 => some .next | 1 => some .len | 2 => some .first | 3 => some .cap | 4 => some .mark | 5 => some .parent | 6 => some .holds
  | 7 => some .info | _ => none

/-- The assigned CSR numbers (R64); any other makes the word no instruction (R63). -/
def csrOf (n : Nat) : Option Csr :=
  if 0x020 ≤ n ∧ n < 0x038 then
    let k := Fin.ofNat 8 ((n - 0x020) / 3)
    match (n - 0x020) % 3 with
    | 0 => some (.segBase k) | 1 => some (.segLimit k) | _ => some (.segRights k)
  else if 0x040 ≤ n ∧ n < 0x060 then some (.tshape (Fin.ofNat 32 (n - 0x040)))
  else match n with
    | 0x000 => some .fibre | 0x001 => some .slot | 0x002 => some .core | 0x003 => some .clu | 0x004 => some .die
    | 0x005 => some .stage | 0x006 => some .speed | 0x007 => some .cyc | 0x008 => some .budget | 0x009 => some .tenant
    | 0x00A => some .queue | 0x00B => some .mode | 0x010 => some .gsize | 0x011 => some .grank | 0x012 => some .sstart
    | 0x013 => some .scount | 0x014 => some .geom | 0x060 => some .tclaim | 0x061 => some .aclaim | 0x070 => some .ctx
    | 0x071 => some .fp | 0x072 => some .fdepth | 0x073 => some .fdlimit | 0x074 => some .rope | 0x080 => some .tcause
    | 0x081 => some .tpc | 0x082 => some .taddr | 0x083 => some .tvec | 0x084 => some .tstep | _ => none

/-- ORD of a load: 0, or an acquire at a scope from `.core` to `.sys` (R84). -/
def ordOf (n : Nat) : Option (Option Scope) :=
  if n = 0 then some none else if n % 2 = 1 then (scopeOf (n / 2)).map some else none

/-! ## Operand shapes shared by many opcodes -/

/-- SGN and OFF of R109, with bits 44:24 of IMM given apart. -/
def crefOf (a imm : Nat) : Option (CRef × Nat) :=
  (sregOf a).map fun r => (⟨Fin.ofNat 8 (imm / 2 ^ 45), r, BitVec.ofNat 24 imm⟩, fld imm 24 21)

/-- The same with bits 44:24 reserved. -/
def cref0Of (a imm : Nat) : Option CRef :=
  match crefOf a imm with
  | some (m, 0) => some m
  | _ => none

def mrefOf (f : FM) : Option MemRef := (sregOf f.a).map fun r => ⟨Fin.ofNat 8 f.sg, r, BitVec.ofNat 48 f.off⟩

def decDab (mk : SReg → SReg → SrcB → Instr) (f : FA) : Option Instr := do
  guard (f.fn = 0 ∧ f.c = 0 ∧ f.mod = 0)
  return mk (← sregOf f.d) (← sregOf f.a) (← srcBOf f.b f.imm)

def decDa (mk : SReg → SReg → Instr) (f : FA) : Option Instr := do
  guard (f.fn = 0 ∧ f.b = 0 ∧ f.c = 0 ∧ f.mod = 0 ∧ f.imm = 0)
  return mk (← sregOf f.d) (← sregOf f.a)

def decDabc (mk : SReg → SReg → SrcB → SReg → Instr) (f : FA) : Option Instr := do
  guard (f.fn = 0 ∧ f.mod = 0)
  return mk (← sregOf f.d) (← sregOf f.a) (← srcBOf f.b f.imm) (← sregOf f.c)

def decNone (i : Instr) (f : FA) : Option Instr := do
  guard (f.fn = 0 ∧ f.d = 0 ∧ f.a = 0 ∧ f.b = 0 ∧ f.c = 0 ∧ f.mod = 0 ∧ f.imm = 0)
  return i

/-- The counter instructions with an increment or threshold (R110); fn is what FN selects beside its immediate bit. -/
def decCtr (mk : Bool → Scope → CRef → CArg → Instr) (fn : Nat) (f : FA) : Option Instr := do
  guard (f.c = 0)
  let sc ← scopeOf (f.mod / 2)
  let (m, k) ← crefOf f.a f.imm
  if f.fn = fn then
    guard (k = 0)
    return mk (f.mod % 2 = 1) sc m (.reg (← sregOf f.b))
  else
    guard (f.fn = fn + 2 ∧ f.b = 0)
    return mk (f.mod % 2 = 1) sc m (.imm (BitVec.ofNat 21 k))

def decVdab (mk : LKind → Bool → RM → Fin 16 → Fin 16 → VSrc → Instr) (f : FA) : Option Instr := do
  guard (f.c = 0 ∧ f.fn < 8)
  let k ← kindOf (f.fn % 4)
  let sat := decide (f.fn / 4 = 1)
  let rm ← rmOf f.mod
  guard (kindOk k sat rm)
  return mk k sat rm (← vregOf f.d) (← vregOf f.a) (← vsrcOf f.b f.imm)

/-- Kind without saturation and without rounding. -/
def decVk (mk : LKind → Fin 16 → Fin 16 → VSrc → Instr) (f : FA) : Option Instr := do
  guard (f.c = 0 ∧ f.mod = 0)
  return mk (← kindOf f.fn) (← vregOf f.d) (← vregOf f.a) (← vsrcOf f.b f.imm)

def decVb (fn : Nat) (mk : Fin 16 → Fin 16 → VSrc → Instr) (f : FA) : Option Instr := do
  guard (f.fn = fn ∧ f.c = 0 ∧ f.mod = 0)
  return mk (← vregOf f.d) (← vregOf f.a) (← vsrcOf f.b f.imm)

def decVu (mk : Bool → Bool → Fin 16 → Fin 16 → Instr) (f : FA) : Option Instr := do
  guard (f.b = 0 ∧ f.c = 0 ∧ f.mod = 0 ∧ f.imm = 0 ∧ (f.fn = 0 ∨ f.fn = 1 ∨ f.fn = 5))
  return mk (f.fn ≠ 0) (f.fn = 5) (← vregOf f.d) (← vregOf f.a)

def decVrm (mk : RM → Fin 16 → Fin 16 → Instr) (f : FA) : Option Instr := do
  guard (f.fn = 0 ∧ f.b = 0 ∧ f.c = 0 ∧ f.imm = 0)
  return mk (← rmOf f.mod) (← vregOf f.d) (← vregOf f.a)

/-- An engine instruction (R209). -/
def decEng (mk : Scope → SReg → CRef → Fin 16 → Instr) (f : FA) : Option Instr := do
  guard (f.c = 0 ∧ f.mod % 2 = 0)
  return mk (← scopeOf (f.mod / 2)) (← sregOf f.d) (← cref0Of f.a f.imm) (← vregOf f.b)

/-! ## The formats -/

/-- Format A, by opcode (R48). -/
def decA (op : Nat) (f : FA) : Option Instr :=
  match op with
  | 0x01 => decDab .add f | 0x02 => decDab .sub f | 0x03 => decDab .mul f | 0x04 => decDab .mulh f | 0x05 => decDab .mulhn f
  | 0x06 => decDab .div f | 0x07 => decDab .divn f | 0x08 => decDab .rem f | 0x09 => decDab .remn f | 0x0A => decDab .and f
  | 0x0B => decDab .or f | 0x0C => decDab .xor f | 0x0D => decDab .andn f | 0x0E => decDab .shl f | 0x0F => decDab .shr f
  | 0x10 => decDab .sar f | 0x11 => decDab .rol f | 0x12 => decDab .min f | 0x13 => decDab .max f | 0x14 => decDab .minn f
  | 0x15 => decDab .maxn f | 0x16 => decDa .clz f | 0x17 => decDa .ctz f | 0x18 => decDa .popc f
  | 0x19 => if f.fn = 1 then decDab .bextS { f with fn := 0 } else decDab .bext f
  | 0x1A => decDabc .bins f | 0x1B => decDab .sext f | 0x1C => decDa .mov f | 0x1D => decDabc .sel f
  | 0x1E => do
      guard (f.fn = 0 ∧ f.c = 0)
      return .cset (← condOf f.mod) (← sregOf f.d) (← sregOf f.a) (← srcBOf f.b f.imm)
  | 0x1F => do
      guard (f.fn = 0 ∧ f.mod < 7)
      return .lea (Fin.ofNat 7 f.mod) (← sregOf f.d) (← sregOf f.a) (← srcBOf f.b f.imm) (← sregOf f.c)
  | 0x21 => do
      guard (f.d = 0 ∧ f.c = 0 ∧ f.mod = 0 ∧ f.fn % 4 ≠ 0)
      return .csk (← condOf (f.fn / 4)) (Fin.ofNat 3 (f.fn % 4 - 1)) (← sregOf f.a) (← srcBOf f.b f.imm)
  | 0x28 => decNone .nop f | 0x29 => decNone .yield f | 0x2A => decNone .halt f
  | 0x2B => do
      guard (f.fn = 0 ∧ f.a = 0 ∧ f.b = 0 ∧ f.c = 0 ∧ f.mod = 0)
      return .csrr (← sregOf f.d) (← csrOf f.imm)
  | 0x2C => do
      guard (f.fn = 0 ∧ f.d = 0 ∧ f.b = 0 ∧ f.c = 0 ∧ f.mod = 0)
      return .csrw (← csrOf f.imm) (← sregOf f.a)
  | 0x2D => do
      guard (f.fn = 0 ∧ f.b = 0 ∧ f.c = 0 ∧ f.mod = 0)
      return .csrx (← sregOf f.d) (← sregOf f.a) (← csrOf f.imm)
  | 0x2E => do
      guard (f.fn = 0 ∧ f.d = 0 ∧ f.a = 0 ∧ f.b = 0 ∧ f.c = 0 ∧ f.mod = 0 ∧ f.imm < 65536)
      return .trap (BitVec.ofNat 16 f.imm)
  | 0x2F => do
      guard (f.fn = 0 ∧ f.d = 0 ∧ f.b = 0 ∧ f.c = 0 ∧ f.mod = 0 ∧ f.imm = 0)
      return .eret (← namedOf f.a)
  | 0x40 => if f.fn % 2 = 0 then do guard (f.d = 4); decCtr .cadd 0 f
            else do let d ← sregOf f.d; decCtr (fun r sc m i => .caddF r sc d m i) 1 f
  | 0x41 => do let d ← sregOf f.d; decCtr (fun r sc m i => .cwait r sc d m i) 0 f
  | 0x42 => do
      guard (f.fn = 0 ∧ f.b = 0 ∧ f.c = 0)
      return .cread (f.mod % 2 = 1) (← scopeOf (f.mod / 2)) (← sregOf f.d) (← cref0Of f.a f.imm)
  | 0x43 => do let d ← sregOf f.d; decCtr (fun r sc m i => .cpoll r sc d m i) 0 f
  | 0x44 => do
      guard (f.fn < 2 ∧ f.b = 0 ∧ f.c = 0 ∧ f.mod = 0)
      let d ← sregOf f.d
      let m ← cref0Of f.a f.imm
      return if f.fn = 0 then .cstrag d m else .cstragT d m
  | 0x45 => do
      guard (f.fn = 0 ∧ f.d = 0 ∧ f.a = 0 ∧ f.b = 0 ∧ f.c = 0 ∧ f.imm = 0 ∧ f.mod % 2 = 0)
      return .pub (← scopeOf (f.mod / 2))
  | 0x46 => do
      guard (f.fn = 0 ∧ f.d = 0 ∧ f.a = 0 ∧ f.b = 0 ∧ f.c = 0 ∧ f.imm = 0 ∧ f.mod % 2 = 0)
      return .acq (← scopeOf (f.mod / 2))
  | 0x47 => do
      guard (f.fn = 0 ∧ f.a = 0 ∧ f.b = 0 ∧ f.c = 0 ∧ f.imm = 0 ∧ (f.mod = 4 ∨ f.mod = 8))
      return .drain (f.mod = 8) (← sregOf f.d)
  | 0x50 => decNone .tret f
  | 0x51 => do
      guard (f.fn = 0 ∧ f.d = 0 ∧ f.a = 0 ∧ f.b = 0 ∧ f.c = 0 ∧ f.mod = 0 ∧ f.imm < 65536)
      return .sysc (BitVec.ofNat 16 f.imm)
  | 0x52 => if f.a = 4 then none else decDab .spawn f
  | 0x53 => decDa .reap f
  | 0x54 => do
      guard (f.fn = 0 ∧ f.a = 0 ∧ f.c = 0 ∧ f.mod = 0)
      return .kwaitp (← sregOf f.d) (← srcBOf f.b f.imm)
  | 0x55 => if f.fn = 0 then decNone .khint f else do
      guard (f.fn = 1 ∧ f.a = 0 ∧ f.b = 0 ∧ f.c = 0 ∧ f.mod = 0 ∧ f.imm = 0)
      return .khintMv (← sregOf f.d)
  | 0x56 => do
      guard (f.fn = 0 ∧ f.c = 0 ∧ f.imm = 0 ∧ (f.mod = 8 ∨ f.mod = 10))
      return .qpost (f.mod = 10) (← sregOf f.d) (← sregOf f.a) (← v15Of f.b)
  | 0x57 => decDab .pput f
  | 0x58 => if f.fn = 1 then decDa .pgetW { f with fn := 0 } else decDa .pget f
  | 0x59 => decDab .take f
  | 0x5A => match f.fn with
      | 0 => decDab .gtileO f
      | 1 => decDab .gtileA { f with fn := 0 }
      | 2 => decDab .gtileB { f with fn := 0 }
      | 3 => do guard (f.a = 0 ∧ f.c = 0 ∧ f.mod = 0); return .gtileMask (← sregOf f.d) (← srcBOf f.b f.imm)
      | 4 => do guard (f.a = 0 ∧ f.c = 0 ∧ f.mod = 0); return .gtileG (← sregOf f.d) (← srcBOf f.b f.imm)
      | _ => none
  | 0x5B => if f.a = 4 then none else decDa .lvpost f
  | 0x5C => do
      guard (f.fn = 0 ∧ f.a = 0 ∧ f.b = 0 ∧ f.c = 0 ∧ f.mod = 0 ∧ f.imm = 0)
      return .lvtake (← sregOf f.d)
  | 0x60 => decVdab .vadd f | 0x61 => decVdab .vsub f | 0x62 => decVdab .vmul f
  | 0x63 => do
      let k ← kindOf f.fn
      let rm ← rmOf f.mod
      guard (kindOk k false rm)
      return .vfma k rm (← vregOf f.d) (← vregOf f.a) (← vsrcOf f.b f.imm) (← vsrcCOf f.c)
  | 0x64 => decVk .vmax f | 0x65 => decVk .vmin f
  | 0x66 => decVu .vabs f | 0x67 => decVu .vneg f
  | 0x68 => decVrm .vrcp f | 0x69 => decVrm .vrsq f | 0x6A => decVrm .vexp2 f | 0x6B => decVrm .vlog2 f
  | 0x6C => do
      let k ← kindOf f.fn
      let cc ← vcondOf f.mod
      guard (f.c = 0 ∧ (cc != .un || k == .f))
      return .vcmp k cc (← sregOf f.d) (← vregOf f.a) (← vsrcOf f.b f.imm)
  | 0x6D => do
      guard (f.fn = 0 ∧ f.mod = 0)
      return .vsel (← vregOf f.d) (← vregOf f.a) (← vsrcOf f.b f.imm) (← sregOf f.c)
  | 0x6E => decVb 0 .vand f | 0x6F => decVb 0 .vor f | 0x70 => decVb 0 .vxor f | 0x71 => decVb 0 .vshl f
  | 0x72 => if f.fn = 1 then decVb 1 .vshrS f else decVb 0 .vshr f
  | 0x73 => do
      guard (f.b = 0 ∧ f.c = 0 ∧ f.imm = 0)
      return .vcvt (← cvtOf f.fn) (← rmOf f.mod) (← vregOf f.d) (← vregOf f.a)
  | 0x74 => if f.fn = 0 then do
      guard (f.a = 0 ∧ f.c = 0 ∧ f.mod = 0)
      return .vbcast (← vregOf f.d) (← srcBOf f.b f.imm)
    else do
      guard (f.fn / 16 = 1 ∧ f.b = 0 ∧ f.c = 0 ∧ f.mod = 0 ∧ f.imm = 0)
      return .vbcastL (Fin.ofNat 16 (f.fn % 16)) (← vregOf f.d) (← vregOf f.a)
  | 0x75 => if f.fn = 0 then do
      guard (f.c = 0 ∧ f.mod = 0 ∧ f.imm = 0)
      return .vperm (← vregOf f.d) (← vregOf f.a) (← vregOf f.b)
    else do
      guard (f.fn = 1 ∧ f.mod = 0 ∧ f.imm = 0)
      return .vperm2 (← vregOf f.d) (← vregOf f.a) (← vregOf f.b) (← vregOf f.c)
  | 0x76 => do
      let op ← redOf f.fn
      let rm ← rmOf f.mod
      guard (f.b = 0 ∧ f.c = 0 ∧ f.imm = 0 ∧ redOk op rm)
      return .vred op rm (← sregOf f.d) (← vregOf f.a)
  | 0x77 => do
      guard (f.fn = 0 ∧ f.c = 0)
      return .vdot (← rmOf f.mod) (← sregOf f.d) (← vregOf f.a) (← vsrcOf f.b f.imm)
  | 0x78 => do
      guard (f.fn < 16 ∧ f.a = 0 ∧ f.c = 0 ∧ f.mod = 0)
      return .vins (Fin.ofNat 16 f.fn) (← v12Of f.d) (← srcBOf f.b f.imm)
  | 0x79 => do
      guard (f.fn < 32 ∧ f.b = 0 ∧ f.c = 0 ∧ f.mod = 0 ∧ f.imm = 0)
      return .vext (f.fn / 16 = 1) (Fin.ofNat 16 (f.fn % 16)) (← sregOf f.d) (← vregOf f.a)
  | 0x7A => do
      guard (f.fn < 3 ∧ f.c = 0 ∧ f.mod = 0)
      return .vgath (Fin.ofNat 3 f.fn) (← v12Of f.d) (← cref0Of f.a f.imm) (← vregOf f.b)
  | 0x7B => do
      guard (f.fn < 3 ∧ f.d = 0 ∧ f.mod = 0)
      return .vscat (Fin.ofNat 3 f.fn) (← cref0Of f.a f.imm) (← vregOf f.b) (← vregOf f.c)
  | 0x7C => do
      guard (f.fn < 32 ∧ f.fn % 4 < 3 ∧ f.mod = 0)
      let d ← if f.d = 4 then some none else (v12Of f.d).map some
      return .vratom (← atomOf (f.fn / 4)) (Fin.ofNat 3 (f.fn % 4)) d (← cref0Of f.a f.imm) (← vregOf f.b) (← vsrcCOf f.c)
  | 0x7D => do
      let op ← redOf f.fn
      let rm ← rmOf f.mod
      guard (f.b = 0 ∧ f.c = 0 ∧ f.imm = 0 ∧ redOk op rm ∧ (op = .fadd ∨ op = .fmax ∨ op = .iadd ∨ op = .imax))
      return .vscan op rm (← vregOf f.d) (← vregOf f.a)
  | 0x7E => do
      guard (f.fn = 0 ∧ f.b = 0 ∧ f.c = 0 ∧ f.mod = 0 ∧ f.imm = 0)
      return .vmov (← vregOf f.d) (← vregOf f.a)
  | 0x7F => do
      let k ← packOf f.fn
      guard (f.c = 0 ∧ f.mod = 0 ∧ f.imm = 0)
      if k = .bf ∨ k = .h then return .vpack k (← vregOf f.d) (← vregOf f.a) (← vregOf f.b)
      else do guard (f.b = 0); return .vpack k (← vregOf f.d) (← vregOf f.a) 0
  | 0x90 => match f.fn with
      | 0 => decEng .ecopy f | 1 => decEng .ecopyMc f | 2 => decEng .ecopyDeal f | 3 => decEng .ecopyDec f
      | 4 => decEng .ecopyRed f | _ => none
  | 0x91 => if f.fn = 0 then decEng .egath f else none
  | 0x92 => if f.fn = 0 then decEng .escat f else none
  | 0x93 => match f.fn with
      | 0 => decEng .emigMv f | 1 => decEng .emigNvr f | 2 => decEng .emigNvw f | _ => none
  | 0x94 => if f.fn = 0 then decEng .ecode f else none
  | 0x95 => if f.fn = 0 then decEng .epub f else none
  | 0x96 => if f.fn = 0 then do
      guard (f.a = 0 ∧ f.b = 0 ∧ f.c = 0 ∧ f.mod = 0 ∧ f.imm = 0)
      return .equery (← sregOf f.d)
    else do
      guard (f.fn = 1 ∧ f.c = 0 ∧ f.mod = 0)
      return .equerySt (← sregOf f.d) (← cref0Of f.a f.imm) (← sregOf f.b)
  | 0xA0 => do
      guard (f.mod = 0)
      let a ← namedOf f.a
      let b ← namedBOf f.b f.imm
      if f.fn < 5 then do guard (f.c = 0); return .halloc (Fin.ofNat 5 f.fn) (← sregOf f.d) a b
      else do guard (f.fn = 8); return .hallocBufSh (← sregOf f.d) a b (← namedOf f.c)
  | 0xA1 => do
      guard (f.fn = 0 ∧ f.d = 0 ∧ f.b = 0 ∧ f.c = 0 ∧ f.mod = 0 ∧ f.imm = 0)
      return .hfree (← namedOf f.a)
  | 0xA2 => do
      guard (f.fn = 0 ∧ f.c = 0 ∧ f.mod = 0)
      return .hchk (← sregOf f.d) (← namedOf f.a) (← namedBOf f.b f.imm)
  | 0xA3 => do
      guard (f.d = 0 ∧ f.c = 0 ∧ f.mod = 0 ∧ f.imm = 0)
      match f.fn with
      | 0 => do guard (f.a = 0 ∧ f.b = 0); return .tlbinvAll
      | 1 => do guard (f.b = 0); return .tlbinvTen (← namedOf f.a)
      | 2 => return .tlbinvVa (← namedOf f.a) (← namedOf f.b)
      | _ => none
  | 0xA4 => do
      guard (f.fn = 0 ∧ f.a = 0 ∧ f.b = 0 ∧ f.c = 0 ∧ f.mod = 0 ∧ f.imm = 0)
      return .wmbx (← v12Of f.d)
  | 0xA5 => do
      guard (f.fn = 0 ∧ f.d = 0 ∧ f.c = 0 ∧ f.mod = 0 ∧ f.imm = 0)
      return .wfill (← namedOf f.a) (← namedOf f.b)
  | 0xA6 => do
      guard (f.fn = 0 ∧ f.d = 0 ∧ f.c = 0 ∧ f.mod = 0 ∧ f.imm = 0)
      return .wfail (← namedOf f.a) (← namedOf f.b)
  | 0xB0 => do
      guard (f.fn < 2 ∧ f.a = 0 ∧ f.c = 0 ∧ f.mod = 0)
      let d ← sregOf f.d
      let b ← srcBOf f.b f.imm
      return if f.fn = 0 then .fpush d b else .fpushSpec d b
  | 0xB1 => decDab .fret f
  | 0xB2 => do
      guard (f.fn < 2 ∧ f.d = 0 ∧ f.b = 0 ∧ f.c = 0 ∧ f.mod = 0 ∧ f.imm = 0)
      let a ← sregOf f.a
      return if f.fn = 0 then .fshareJ a else .fshareH a
  | 0xB3 => do
      guard (f.fn = 0 ∧ f.d = 0 ∧ f.b = 0 ∧ f.c = 0 ∧ f.mod = 0 ∧ f.imm = 0)
      return .frel (← sregOf f.a)
  | 0xB4 => do
      guard (f.fn = 0 ∧ f.d = 0 ∧ f.mod = 0)
      return .farg (← sregOf f.a) (← srcBOf f.b f.imm) (← sregOf f.c)
  | 0xB5 => do
      guard (f.b = 0 ∧ f.c = 0 ∧ f.mod = 0 ∧ f.imm = 0)
      return .fpos (← posOf f.fn) (← sregOf f.d) (← sregOf f.a)
  | 0xB6 => do
      guard (f.fn < 2 ∧ f.mod = 0 ∧ f.imm < 16)
      let d ← sregOf f.d
      let a ← v15Of f.a
      let b ← v15Of f.b
      let c ← sregOf f.c
      if f.fn = 0 then do guard (f.imm = 0); return .kvapp d a b c else return .kvappLn d a b c (Fin.ofNat 16 f.imm)
  | 0xB7 => do
      guard (f.fn < 8 ∧ f.fn % 2 = 0 ∧ f.d = 0 ∧ f.c = 0 ∧ f.mod = 0)
      return .atbeg (← v15Of f.a) (← srcBOf f.b f.imm) (Fin.ofNat 4 (f.fn / 2))
  | 0xB8 => do
      guard (f.fn < 8 ∧ f.fn % 2 = 0 ∧ f.a = 0 ∧ f.b = 0 ∧ f.c = 0 ∧ f.mod = 0 ∧ f.imm = 0)
      return .atstep (← sregOf f.d) (Fin.ofNat 4 (f.fn / 2))
  | 0xB9 => do
      guard (f.fn < 16 ∧ f.fn % 2 = 0 ∧ f.a = 0 ∧ f.b = 0 ∧ f.c = 0 ∧ f.mod = 0 ∧ f.imm = 0)
      return .atend (← v15Of f.d) (Fin.ofNat 4 (f.fn % 8 / 2)) (Fin.ofNat 2 (f.fn / 8))
  | 0xBA => do
      guard (f.fn = 0 ∧ f.mod = 0)
      return .sctpin (← sregOf f.d) (← cref0Of f.a f.imm) (← namedOf f.b) (← namedOf f.c)
  | 0xBB => do
      guard (f.fn = 0 ∧ f.c = 0 ∧ f.mod = 0)
      return .sctevict (← sregOf f.d) (← cref0Of f.a f.imm) (← namedOf f.b)
  | 0xC0 => decDab .rngx f
  | 0xC1 => do
      guard (f.fn < 8 ∧ f.mod = 0)
      return .vtopk (Fin.ofNat 8 f.fn) (← v12Of f.d) (← vregOf f.a) (← srcBOf f.b f.imm) (← sregOf f.c)
  | 0xC2 => do
      guard (f.fn = 0 ∧ f.mod = 0)
      return .vsamp (← sregOf f.d) (← vregOf f.a) (← srcBOf f.b f.imm) (← sregOf f.c)
  | 0xC3 => do
      guard (f.mod = 0 ∧ f.imm = 0)
      if 1 ≤ f.fn ∧ f.fn ≤ 16 then
        return .vaccptP (Fin.ofNat 16 (f.fn - 1)) (← sregOf f.d) (← vregOf f.a) (← vregOf f.b) (← vregOf f.c)
      else if 0x21 ≤ f.fn ∧ f.fn ≤ 0x30 then do
        guard (f.c = 0)
        return .vaccptE (Fin.ofNat 16 (f.fn - 0x21)) (← sregOf f.d) (← vregOf f.a) (← vregOf f.b)
      else do
        guard (f.fn = 0x40 ∧ f.b = 0 ∧ f.c = 0)
        return .vaccptLn (← v12Of f.d) (← sregOf f.a)
  | _ => none

/-- Format J (R33, R36, R75). -/
def decJ (op : Nat) (f : FJ) : Option Instr := do
  guard (f.fn = 0 ∧ f.z1 = 0 ∧ f.z2 = 0 ∧ f.ti < 5)
  let ti := Fin.ofNat 5 f.ti
  let tl := BitVec.ofNat 32 f.tl
  match op with
  | 0x22 => do guard (f.d = 0 ∧ f.a = 0 ∧ f.b = 0 ∧ f.cc = 0); return .b ti tl
  | 0x23 => do guard (f.d = 0); return .bcc (← condOf f.cc) (← sregOf f.a) (← sregOf f.b) ti tl
  | 0x24 => do guard (f.a = 0 ∧ f.b = 0 ∧ f.cc = 0); return .call (← sregOf f.d) ti tl
  | 0x25 => do guard (f.d = 0 ∧ f.b = 0 ∧ f.cc = 0 ∧ f.ti = 0 ∧ f.tl = 0); return .ret (← namedOf f.a)
  | 0x26 => do guard (f.b = 0 ∧ f.cc = 0 ∧ f.ti = 0 ∧ f.tl = 0); return .jr (← sregOf f.d) (← namedOf f.a)
  | 0x27 => do guard (f.b = 0 ∧ f.cc = 0); return .loop (← sregOf f.d) (← sregOf f.a) ti tl
  | _ => none

/-- Format M (R37, R84-R93). -/
def decM (op : Nat) (f : FM) : Option Instr := do
  guard (f.fn = 0)
  match op with
  | 0x30 => do guard (f.c = 0 ∧ f.sz < 7); return .ld (Fin.ofNat 7 f.sz) (← ordOf f.ord) (← sregOf f.d) (← mrefOf f)
  | 0x31 => do guard (f.d = 0 ∧ f.ord = 0 ∧ f.sz < 8 ∧ f.sz % 2 = 0); return .st (Fin.ofNat 4 (f.sz / 2)) (← mrefOf f) (← sregOf f.c)
  | 0x32 => do guard (f.c = 0 ∧ (f.sz = 7 ∨ f.sz = 8)); return .ldv (f.sz = 8) (← ordOf f.ord) (← vregOf f.d) (← mrefOf f)
  | 0x33 => do guard (f.d = 0 ∧ f.ord = 0 ∧ (f.sz = 7 ∨ f.sz = 8)); return .stv (f.sz = 8) (← mrefOf f) (← vregOf f.c)
  | 0x34 => do
      guard (f.c = 0 ∧ (f.sz = 2 ∨ f.sz = 4 ∨ f.sz = 6))
      return .ldvb (Fin.ofNat 3 (f.sz / 2 - 1)) (← ordOf f.ord) (← vregOf f.d) (← mrefOf f)
  | 0x35 => do guard (f.c = 0 ∧ f.ord = 0); return .sarm (f.sz / 8 = 1) (← streamOf f.d) (← mrefOf f) (Fin.ofNat 8 (f.sz % 8))
  | 0x36 => do
      guard (f.a = 0 ∧ f.sg = 0 ∧ f.sz = 0 ∧ f.ord = 0 ∧ f.off = 0)
      return .sdis (← sregOf f.d) (← streamOf f.c)
  | 0x37 => do guard (f.d = 0 ∧ f.sz < 8); return .sseg (BitVec.ofNat 4 f.ord) (Fin.ofNat 8 f.sz) (← mrefOf f) (← sregOf f.c)
  | 0x38 => do guard (f.c = 0 ∧ f.ord = 0 ∧ f.sz < 9); return .segq (Fin.ofNat 9 f.sz) (← sregOf f.d) (← mrefOf f)
  | _ => none

/-- Format T (R192-R199). -/
def decT (op : Nat) (f : FT) : Option Instr := do
  guard (f.z1 = 0)
  let td := Fin.ofNat 32 f.td
  let ta := Fin.ofNat 32 f.ta
  let tb := Fin.ofNat 32 f.tb
  let ac := Fin.ofNat 8 f.ac
  match op with
  | 0x80 => do
      guard (f.ta = 0 ∧ f.tb = 0 ∧ f.ac = 0)
      if f.fn = 0 then do guard (f.s = 0 ∧ f.imm < 2 ^ 15); return .tset td (BitVec.ofNat 15 f.imm)
      else do guard (f.fn = 1 ∧ f.imm = 0); return .tsetReg td (← namedOf f.s)
  | 0x81 => do
      guard (f.fn = 0 ∧ f.ta = 0 ∧ f.tb = 0 ∧ f.ac = 0)
      let (m, k) ← crefOf f.s f.imm
      return .tld td m (BitVec.ofNat 21 k)
  | 0x82 => do
      guard (f.fn = 0 ∧ f.td = 0 ∧ f.tb = 0 ∧ f.ac = 0)
      let (m, k) ← crefOf f.s f.imm
      return .tst m (BitVec.ofNat 21 k) ta
  | 0x83 => do guard (f.fn = 0 ∧ f.ta = 0 ∧ f.tb = 0 ∧ f.ac = 0 ∧ f.s = 0 ∧ f.imm = 0); return .tz td
  | 0x84 => do
      let sp := decide (f.fn / 64 % 2 = 1)
      guard (f.fn < 128 ∧ f.s = 0 ∧ f.imm = 0 ∧ (if sp then f.tb ≠ 31 else f.td = 0))
      return .mmn (← efmtOf (f.fn % 8)) (← efmtOf (f.fn / 8 % 8)) sp ac ta tb td
  | 0x85 => do guard (f.fn = 0 ∧ f.td = 0 ∧ f.s = 0 ∧ f.imm = 0); return .mmw ac ta tb
  | 0x86 => do
      guard (f.fn < 2 ∧ f.ta = 0 ∧ f.tb = 0 ∧ f.s = 0 ∧ f.imm = 0)
      return if f.fn = 0 then .aoutI td ac else .aoutF td ac
  | 0x87 => do guard (f.fn = 0 ∧ f.td = 0 ∧ f.ta = 0 ∧ f.tb = 0 ∧ f.s = 0 ∧ f.imm = 0); return .az ac
  | 0x88 => do guard (f.fn = 0 ∧ f.ac = 0 ∧ f.s = 0 ∧ f.imm = 0); return .scacc td ta tb
  | 0x89 => do
      let h32 := decide (f.fn % 2 = 1)
      let src := fld f.imm 0 6
      let pos := fld f.imm 8 7
      guard (f.fn < 8 ∧ f.ac = 0 ∧ f.s = 0 ∧ f.imm < 2 ^ 24 ∧ fld f.imm 6 2 = 0 ∧ fld f.imm 15 1 = 0 ∧ fld f.imm 19 1 = 0)
      guard (src % blockLen h32 = 0 ∧ src + blockLen h32 ≤ 64 ∧ pos % blockLen h32 = 0)
      return .qcvt h32 (← efmtOf (f.fn / 2)) td ta tb (Fin.ofNat 8 (fld f.imm 16 3)) (BitVec.ofNat 7 pos) (BitVec.ofNat 6 src)
        (Fin.ofNat 16 (fld f.imm 20 4))
  | 0x8A => match f.fn with
      | 0 => do guard (f.tb = 0 ∧ f.ac = 0 ∧ f.s = 0 ∧ f.imm = 0); return .tmov td ta
      | 1 => do guard (f.ta = 0 ∧ f.tb = 0 ∧ f.ac = 0 ∧ f.imm < 8); return .tmovTv td (← vregOf f.s) (Fin.ofNat 8 f.imm)
      | 2 => do guard (f.td = 0 ∧ f.tb = 0 ∧ f.ac = 0 ∧ f.imm < 8); return .tmovVt (← vregOf f.s) ta (Fin.ofNat 8 f.imm)
      | _ => none
  | 0x8B => do guard (f.fn = 0 ∧ f.tb = 0 ∧ f.ac = 0 ∧ f.s = 0 ∧ f.imm = 0); return .ttr td ta
  | _ => none

/-- The instruction that a 96-bit word encodes, or none where R50 says it is not an instruction. -/
def decodeNat (w : Nat) : Option Instr :=
  let op := fld w 88 8
  if op = 0x20 then do
    guard (fld w 80 8 = 0 ∧ fld w 64 9 = 0)
    return .li (← sregOf (fld w 73 7)) (BitVec.ofNat 64 (fld w 0 64))
  else if 0x22 ≤ op ∧ op ≤ 0x27 then decJ op (fieldsJ w)
  else if 0x30 ≤ op ∧ op ≤ 0x38 then decM op (fieldsM w)
  else if 0x80 ≤ op ∧ op ≤ 0x8B then decT op (fieldsT w)
  else decA op (fieldsA w)

def decode (w : BitVec 96) : Option Instr := decodeNat w.toNat

/-- The host's reading of a table word: the word's bits are an instruction's, bit 0 first; a shorter word's upper bits are 0. -/
def decodeTableWord (nbits w : Nat) : Option Instr := decode (BitVec.ofNat 96 (w % 2 ^ nbits))

/-! ## Encoding, from the same tables -/

def SReg.code : SReg → Nat
  | .la k => k.val | .z => 4 | .s k => 0x10 + k.val | .x k => 0x40 + k.val
def SrcB.code : SrcB → Nat
  | .reg r => r.code | .imm _ => 5
def SrcB.bits : SrcB → Nat
  | .reg _ => 0 | .imm i => i.toNat
def VSrc.code : VSrc → Nat
  | .v k => 0x20 + k.val | .s r => r.code | .imm _ => 5
def VSrc.bits : VSrc → Nat
  | .imm i => i.toNat | _ => 0
def VSrcC.code : VSrcC → Nat
  | .v k => 0x20 + k.val | .s r => r.code
def vcode (k : Nat) : Nat := 0x20 + k
def StreamReg.code (r : StreamReg) : Nat := if r.isV then 0x2C + r.p.val else 0x1C + r.p.val
def Cond.code : Cond → Nat
  | .eq => 0 | .ne => 1 | .lt => 2 | .ge => 3 | .ltn => 4 | .gen => 5
def VCond.code : VCond → Nat
  | .eq => 0 | .ne => 1 | .lt => 2 | .ge => 3 | .gt => 4 | .le => 5 | .un => 6
def RM.code : RM → Nat
  | .rne => 0 | .rtz => 1 | .rdn => 2 | .rup => 3
def Scope.code : Scope → Nat
  | .core => 1 | .clu => 2 | .die => 3 | .mod => 4 | .sys => 5
def LKind.code : LKind → Nat
  | .f => 0 | .i => 1 | .n => 2
def EFmt.code : EFmt → Nat
  | .f4 => 0 | .f6 => 1 | .i4 => 2 | .i8 => 3
def RedOp.code : RedOp → Nat
  | .fadd => 0 | .fmax => 1 | .fmin => 2 | .iadd => 3 | .imax => 4 | .imin => 5 | .nmax => 6 | .nmin => 7
def AtomOp.code : AtomOp → Nat
  | .addi => 0 | .addf => 1 | .maxi => 2 | .mini => 3 | .maxn => 4 | .minn => 5 | .swap => 6
def CvtKind.code : CvtKind → Nat
  | .fi => 1 | .fn => 2 | .sif => 3 | .nf => 4
def PackKind.code : PackKind → Nat
  | .bf => 0 | .bfl => 1 | .bfh => 2 | .h => 3 | .hl => 4 | .hh => 5
def PosKind.code : PosKind → Nat
  | .next => 0 | .len => 1 | .first => 2 | .cap => 3 | .mark => 4 | .parent => 5 | .holds => 6 | .info => 7
def Csr.code : Csr → Nat
  | .fibre => 0x000 | .slot => 0x001 | .core => 0x002 | .clu => 0x003 | .die => 0x004 | .stage => 0x005 | .speed => 0x006
  | .cyc => 0x007 | .budget => 0x008 | .tenant => 0x009 | .queue => 0x00A | .mode => 0x00B | .gsize => 0x010 | .grank => 0x011
  | .sstart => 0x012 | .scount => 0x013 | .geom => 0x014 | .segBase k => 0x020 + 3 * k.val | .segLimit k => 0x021 + 3 * k.val
  | .segRights k => 0x022 + 3 * k.val | .tshape k => 0x040 + k.val | .tclaim => 0x060 | .aclaim => 0x061 | .ctx => 0x070
  | .fp => 0x071 | .fdepth => 0x072 | .fdlimit => 0x073 | .rope => 0x074 | .tcause => 0x080 | .tpc => 0x081 | .taddr => 0x082
  | .tvec => 0x083 | .tstep => 0x084
def ordCode : Option Scope → Nat
  | none => 0 | some s => 2 * s.code + 1
def CRef.bits (m : CRef) (k : Nat) : Nat := m.sg.val * 2 ^ 45 + k * 2 ^ 24 + m.off.toNat
def CArg.code : CArg → Nat
  | .reg r => r.code | .imm _ => 0
def CArg.bits : CArg → Nat
  | .reg _ => 0 | .imm k => k.toNat
def CArg.fn : CArg → Nat
  | .reg _ => 0 | .imm _ => 2
def b2n (b : Bool) : Nat := if b then 1 else 0

def wordA (op fn d a b c mod imm : Nat) : Nat :=
  op * 2 ^ 88 + fn * 2 ^ 80 + d * 2 ^ 73 + a * 2 ^ 66 + b * 2 ^ 59 + c * 2 ^ 52 + mod * 2 ^ 48 + imm
def wordJ (op d a b cc ti tl : Nat) : Nat :=
  op * 2 ^ 88 + d * 2 ^ 73 + a * 2 ^ 66 + b * 2 ^ 59 + cc * 2 ^ 48 + ti * 2 ^ 32 + tl
def wordM (op d : Nat) (m : MemRef) (sz c ord : Nat) : Nat :=
  op * 2 ^ 88 + d * 2 ^ 73 + m.a.code * 2 ^ 66 + m.sg.val * 2 ^ 63 + sz * 2 ^ 59 + c * 2 ^ 52 + ord * 2 ^ 48 + m.off.toNat
def wordT (op fn td ta tb ac s imm : Nat) : Nat :=
  op * 2 ^ 88 + fn * 2 ^ 80 + td * 2 ^ 75 + ta * 2 ^ 70 + tb * 2 ^ 65 + ac * 2 ^ 62 + s * 2 ^ 55 + imm

def wDab (op fn : Nat) (d a : SReg) (b : SrcB) : Nat := wordA op fn d.code a.code b.code 0 0 b.bits
def wDa (op fn : Nat) (d a : SReg) : Nat := wordA op fn d.code a.code 0 0 0 0
def wVb (op fn mod : Nat) (d a : Nat) (b : VSrc) : Nat := wordA op fn (vcode d) (vcode a) b.code 0 mod b.bits
def wVa (op fn mod : Nat) (d a : Nat) : Nat := wordA op fn (vcode d) (vcode a) 0 0 mod 0
def wCtr (op fn d : Nat) (o : Bool) (sc : Scope) (m : CRef) (i : CArg) : Nat :=
  wordA op (fn + i.fn) d m.a.code i.code 0 (2 * sc.code + b2n o) (m.bits i.bits)
def wEng (op fn : Nat) (sc : Scope) (d : SReg) (m : CRef) (v : Nat) : Nat :=
  wordA op fn d.code m.a.code (vcode v) 0 (2 * sc.code) (m.bits 0)

/-- The 96-bit word of a well-formed instruction (R33-R48); an event has none. -/
def encodeNat : Instr → Option Nat
  | .add d a b => wDab 0x01 0 d a b | .sub d a b => wDab 0x02 0 d a b | .mul d a b => wDab 0x03 0 d a b
  | .mulh d a b => wDab 0x04 0 d a b | .mulhn d a b => wDab 0x05 0 d a b | .div d a b => wDab 0x06 0 d a b
  | .divn d a b => wDab 0x07 0 d a b | .rem d a b => wDab 0x08 0 d a b | .remn d a b => wDab 0x09 0 d a b
  | .and d a b => wDab 0x0A 0 d a b | .or d a b => wDab 0x0B 0 d a b | .xor d a b => wDab 0x0C 0 d a b
  | .andn d a b => wDab 0x0D 0 d a b | .shl d a b => wDab 0x0E 0 d a b | .shr d a b => wDab 0x0F 0 d a b
  | .sar d a b => wDab 0x10 0 d a b | .rol d a b => wDab 0x11 0 d a b | .min d a b => wDab 0x12 0 d a b
  | .max d a b => wDab 0x13 0 d a b | .minn d a b => wDab 0x14 0 d a b | .maxn d a b => wDab 0x15 0 d a b
  | .clz d a => wDa 0x16 0 d a | .ctz d a => wDa 0x17 0 d a | .popc d a => wDa 0x18 0 d a
  | .bext d a b => wDab 0x19 0 d a b | .bextS d a b => wDab 0x19 1 d a b
  | .bins d a b c => wordA 0x1A 0 d.code a.code b.code c.code 0 b.bits | .sext d a b => wDab 0x1B 0 d a b
  | .mov d a => wDa 0x1C 0 d a | .sel d a b c => wordA 0x1D 0 d.code a.code b.code c.code 0 b.bits
  | .cset cc d a b => wordA 0x1E 0 d.code a.code b.code 0 cc.code b.bits
  | .lea k d a b c => wordA 0x1F 0 d.code a.code b.code c.code k.val b.bits
  | .li d imm => some (0x20 * 2 ^ 88 + d.code * 2 ^ 73 + imm.toNat)
  | .csk cc n a b => wordA 0x21 (4 * cc.code + n.val + 1) 0 a.code b.code 0 0 b.bits
  | .b ti tl => wordJ 0x22 0 0 0 0 ti.val tl.toNat | .bcc cc a b ti tl => wordJ 0x23 0 a.code b.code cc.code ti.val tl.toNat
  | .call d ti tl => wordJ 0x24 d.code 0 0 0 ti.val tl.toNat | .ret a => wordJ 0x25 0 a.code 0 0 0 0
  | .jr d a => wordJ 0x26 d.code a.code 0 0 0 0 | .loop d a ti tl => wordJ 0x27 d.code a.code 0 0 ti.val tl.toNat
  | .nop => wordA 0x28 0 0 0 0 0 0 0 | .yield => wordA 0x29 0 0 0 0 0 0 0 | .halt => wordA 0x2A 0 0 0 0 0 0 0
  | .csrr d c => wordA 0x2B 0 d.code 0 0 0 0 c.code | .csrw c a => wordA 0x2C 0 0 a.code 0 0 0 c.code
  | .csrx d a c => wordA 0x2D 0 d.code a.code 0 0 0 c.code
  | .trap n => wordA 0x2E 0 0 0 0 0 0 n.toNat | .eret a => wordA 0x2F 0 0 a.code 0 0 0 0
  | .tret => wordA 0x50 0 0 0 0 0 0 0 | .sysc n => wordA 0x51 0 0 0 0 0 0 n.toNat
  | .ld sz o d m => wordM 0x30 d.code m sz.val 0 (ordCode o) | .st sz m c => wordM 0x31 0 m (2 * sz.val) c.code 0
  | .ldv full o d m => wordM 0x32 (vcode d.val) m (7 + b2n full) 0 (ordCode o) | .stv full m c => wordM 0x33 0 m (7 + b2n full) (vcode c.val) 0
  | .ldvb sz o d m => wordM 0x34 (vcode d.val) m (2 * sz.val + 2) 0 (ordCode o)
  | .sarm out d m g => wordM 0x35 d.code m (8 * b2n out + g.val) 0 0 | .sdis d c => wordM 0x36 d.code ⟨0, .la 0, 0⟩ 0 c.code 0
  | .sseg keep t m c => wordM 0x37 0 m t.val c.code keep.toNat | .segq sz d m => wordM 0x38 d.code m sz.val 0 0
  | .cadd r sc m i => wCtr 0x40 0 4 r sc m i | .caddF r sc d m i => wCtr 0x40 1 d.code r sc m i
  | .cwait r sc d m i => wCtr 0x41 0 d.code r sc m i | .cread r sc d m => wordA 0x42 0 d.code m.a.code 0 0 (2 * sc.code + b2n r) (m.bits 0)
  | .cpoll r sc d m i => wCtr 0x43 0 d.code r sc m i | .cstrag d m => wordA 0x44 0 d.code m.a.code 0 0 0 (m.bits 0)
  | .cstragT d m => wordA 0x44 1 d.code m.a.code 0 0 0 (m.bits 0)
  | .pub sc => wordA 0x45 0 0 0 0 0 (2 * sc.code) 0 | .acq sc => wordA 0x46 0 0 0 0 0 (2 * sc.code) 0
  | .drain md d => wordA 0x47 0 d.code 0 0 0 (4 + 4 * b2n md) 0
  | .spawn d a b => wDab 0x52 0 d a b | .reap d a => wDa 0x53 0 d a | .kwaitp d b => wordA 0x54 0 d.code 0 b.code 0 0 b.bits
  | .khint => wordA 0x55 0 0 0 0 0 0 0 | .khintMv d => wordA 0x55 1 d.code 0 0 0 0 0
  | .qpost sys d a v => wordA 0x56 0 d.code a.code (vcode v.val) 0 (8 + 2 * b2n sys) 0
  | .pput d a b => wDab 0x57 0 d a b | .pget d a => wDa 0x58 0 d a | .pgetW d a => wDa 0x58 1 d a
  | .take d a b => wDab 0x59 0 d a b | .gtileO d a b => wDab 0x5A 0 d a b | .gtileA d a b => wDab 0x5A 1 d a b
  | .gtileB d a b => wDab 0x5A 2 d a b | .gtileMask d b => wordA 0x5A 3 d.code 0 b.code 0 0 b.bits
  | .gtileG d b => wordA 0x5A 4 d.code 0 b.code 0 0 b.bits | .lvpost d a => wDa 0x5B 0 d a | .lvtake d => wordA 0x5C 0 d.code 0 0 0 0 0
  | .vadd k s rm d a b => wVb 0x60 (k.code + 4 * b2n s) rm.code d.val a.val b
  | .vsub k s rm d a b => wVb 0x61 (k.code + 4 * b2n s) rm.code d.val a.val b
  | .vmul k s rm d a b => wVb 0x62 (k.code + 4 * b2n s) rm.code d.val a.val b
  | .vfma k rm d a b c => wordA 0x63 k.code (vcode d.val) (vcode a.val) b.code c.code rm.code b.bits
  | .vmax k d a b => wVb 0x64 k.code 0 d.val a.val b | .vmin k d a b => wVb 0x65 k.code 0 d.val a.val b
  | .vabs i s d a => wVa 0x66 (b2n i + 4 * b2n s) 0 d.val a.val | .vneg i s d a => wVa 0x67 (b2n i + 4 * b2n s) 0 d.val a.val
  | .vrcp rm d a => wVa 0x68 0 rm.code d.val a.val | .vrsq rm d a => wVa 0x69 0 rm.code d.val a.val
  | .vexp2 rm d a => wVa 0x6A 0 rm.code d.val a.val | .vlog2 rm d a => wVa 0x6B 0 rm.code d.val a.val
  | .vcmp k cc d a b => wordA 0x6C k.code d.code (vcode a.val) b.code 0 cc.code b.bits
  | .vsel d a b c => wordA 0x6D 0 (vcode d.val) (vcode a.val) b.code c.code 0 b.bits
  | .vand d a b => wVb 0x6E 0 0 d.val a.val b | .vor d a b => wVb 0x6F 0 0 d.val a.val b | .vxor d a b => wVb 0x70 0 0 d.val a.val b
  | .vshl d a b => wVb 0x71 0 0 d.val a.val b | .vshr d a b => wVb 0x72 0 0 d.val a.val b | .vshrS d a b => wVb 0x72 1 0 d.val a.val b
  | .vcvt k rm d a => wVa 0x73 k.code rm.code d.val a.val | .vbcast d b => wordA 0x74 0 (vcode d.val) 0 b.code 0 0 b.bits
  | .vbcastL k d a => wVa 0x74 (0x10 + k.val) 0 d.val a.val
  | .vperm d a b => wordA 0x75 0 (vcode d.val) (vcode a.val) (vcode b.val) 0 0 0
  | .vperm2 d a b c => wordA 0x75 1 (vcode d.val) (vcode a.val) (vcode b.val) (vcode c.val) 0 0
  | .vred op rm d a => wordA 0x76 op.code d.code (vcode a.val) 0 0 rm.code 0
  | .vdot rm d a b => wordA 0x77 0 d.code (vcode a.val) b.code 0 rm.code b.bits
  | .vins k d b => wordA 0x78 k.val (vcode d.val) 0 b.code 0 0 b.bits
  | .vext sx k d a => wordA 0x79 (k.val + 16 * b2n sx) d.code (vcode a.val) 0 0 0 0
  | .vgath sc d m b => wordA 0x7A sc.val (vcode d.val) m.a.code (vcode b.val) 0 0 (m.bits 0)
  | .vscat sc m b c => wordA 0x7B sc.val 0 m.a.code (vcode b.val) (vcode c.val) 0 (m.bits 0)
  | .vratom op sc d m b c => wordA 0x7C (4 * op.code + sc.val) (match d with | none => 4 | some k => vcode k.val) m.a.code (vcode b.val) c.code 0 (m.bits 0)
  | .vscan op rm d a => wVa 0x7D op.code rm.code d.val a.val | .vmov d a => wVa 0x7E 0 0 d.val a.val
  | .vpack k d a b => wordA 0x7F k.code (vcode d.val) (vcode a.val) (if k = .bf ∨ k = .h then vcode b.val else 0) 0 0 0
  | .tset d sh => wordT 0x80 0 d.val 0 0 0 0 sh.toNat | .tsetReg d s => wordT 0x80 1 d.val 0 0 0 s.code 0
  | .tld d m p => wordT 0x81 0 d.val 0 0 0 m.a.code (m.bits p.toNat) | .tst m p a => wordT 0x82 0 0 a.val 0 0 m.a.code (m.bits p.toNat)
  | .tz d => wordT 0x83 0 d.val 0 0 0 0 0
  | .mmn fa fb sp n a b m => wordT 0x84 (fa.code + 8 * fb.code + 64 * b2n sp) m.val a.val b.val n.val 0 0
  | .mmw n a b => wordT 0x85 0 0 a.val b.val n.val 0 0 | .aoutI d n => wordT 0x86 0 d.val 0 0 n.val 0 0
  | .aoutF d n => wordT 0x86 1 d.val 0 0 n.val 0 0 | .az n => wordT 0x87 0 0 0 0 n.val 0 0 | .scacc d a b => wordT 0x88 0 d.val a.val b.val 0 0 0
  | .qcvt h f d a b l p s sb => wordT 0x89 (b2n h + 2 * f.code) d.val a.val b.val 0 0 (s.toNat + p.toNat * 2 ^ 8 + l.val * 2 ^ 16 + sb.val * 2 ^ 20)
  | .tmov d a => wordT 0x8A 0 d.val a.val 0 0 0 0 | .tmovTv d v k => wordT 0x8A 1 d.val 0 0 0 (vcode v.val) k.val
  | .tmovVt v a k => wordT 0x8A 2 0 a.val 0 0 (vcode v.val) k.val | .ttr d a => wordT 0x8B 0 d.val a.val 0 0 0 0
  | .ecopy sc d m v => wEng 0x90 0 sc d m v.val | .ecopyMc sc d m v => wEng 0x90 1 sc d m v.val | .ecopyDeal sc d m v => wEng 0x90 2 sc d m v.val
  | .ecopyDec sc d m v => wEng 0x90 3 sc d m v.val | .ecopyRed sc d m v => wEng 0x90 4 sc d m v.val | .egath sc d m v => wEng 0x91 0 sc d m v.val
  | .escat sc d m v => wEng 0x92 0 sc d m v.val | .emigMv sc d m v => wEng 0x93 0 sc d m v.val | .emigNvr sc d m v => wEng 0x93 1 sc d m v.val
  | .emigNvw sc d m v => wEng 0x93 2 sc d m v.val | .ecode sc d m v => wEng 0x94 0 sc d m v.val | .epub sc d m v => wEng 0x95 0 sc d m v.val
  | .equery d => wordA 0x96 0 d.code 0 0 0 0 0 | .equerySt d m b => wordA 0x96 1 d.code m.a.code b.code 0 0 (m.bits 0)
  | .halloc k d a b => wordA 0xA0 k.val d.code a.code b.code 0 0 b.bits | .hallocBufSh d a b c => wordA 0xA0 8 d.code a.code b.code c.code 0 b.bits
  | .hfree a => wordA 0xA1 0 0 a.code 0 0 0 0 | .hchk d a b => wDab 0xA2 0 d a b
  | .tlbinvAll => wordA 0xA3 0 0 0 0 0 0 0 | .tlbinvTen a => wordA 0xA3 1 0 a.code 0 0 0 0 | .tlbinvVa a b => wordA 0xA3 2 0 a.code b.code 0 0 0
  | .wmbx d => wordA 0xA4 0 (vcode d.val) 0 0 0 0 0 | .wfill a b => wordA 0xA5 0 0 a.code b.code 0 0 0 | .wfail a b => wordA 0xA6 0 0 a.code b.code 0 0 0
  | .fpush d b => wordA 0xB0 0 d.code 0 b.code 0 0 b.bits | .fpushSpec d b => wordA 0xB0 1 d.code 0 b.code 0 0 b.bits | .fret d a b => wDab 0xB1 0 d a b
  | .fshareJ a => wordA 0xB2 0 0 a.code 0 0 0 0 | .fshareH a => wordA 0xB2 1 0 a.code 0 0 0 0 | .frel a => wordA 0xB3 0 0 a.code 0 0 0 0
  | .farg a b c => wordA 0xB4 0 0 a.code b.code c.code 0 b.bits | .fpos k d a => wDa 0xB5 k.code d a
  | .kvapp d a b c => wordA 0xB6 0 d.code (vcode a.val) (vcode b.val) c.code 0 0
  | .kvappLn d a b c ln => wordA 0xB6 1 d.code (vcode a.val) (vcode b.val) c.code 0 ln.val
  | .atbeg a b n => wordA 0xB7 (2 * n.val) 0 (vcode a.val) b.code 0 0 b.bits | .atstep d n => wordA 0xB8 (2 * n.val) d.code 0 0 0 0 0
  | .atend d n h => wordA 0xB9 (8 * h.val + 2 * n.val) (vcode d.val) 0 0 0 0 0
  | .sctpin d m b c => wordA 0xBA 0 d.code m.a.code b.code c.code 0 (m.bits 0) | .sctevict d m b => wordA 0xBB 0 d.code m.a.code b.code 0 0 (m.bits 0)
  | .rngx d a b => wDab 0xC0 0 d a b | .vtopk k d a b c => wordA 0xC1 k.val (vcode d.val) (vcode a.val) b.code c.code 0 b.bits
  | .vsamp d a b c => wordA 0xC2 0 d.code (vcode a.val) b.code c.code 0 b.bits
  | .vaccptP n d a b c => wordA 0xC3 (n.val + 1) d.code (vcode a.val) (vcode b.val) (vcode c.val) 0 0
  | .vaccptE n d a b => wordA 0xC3 (0x21 + n.val) d.code (vcode a.val) (vcode b.val) 0 0 0
  | .vaccptLn d a => wordA 0xC3 0x40 (vcode d.val) a.code 0 0 0 0
  | _ => none

def encode (i : Instr) : Option (BitVec 96) := (encodeNat i).map (BitVec.ofNat 96)

end Sys2Proof
end

