-- ==== Sys2Proof/Machine/Bits.lean ====
section
/-!
DEFINITION. Bit fields, sign extension and byte order (R6, R10), and small list functions that the tables of the state use.
-/
namespace Sys2Proof.Machine

/-- `sext(v, n)` of R10: the low n bits of v as two's complement. -/
def sextNat (n v : Nat) : Int :=
  let m := v % 2 ^ n
  if n ≠ 0 ∧ 2 ^ (n - 1) ≤ m then (m : Int) - 2 ^ n else m

/-- The 64-bit value of an integer, modulo 2^64. -/
def wrap64 (x : Int) : Word := BitVec.ofInt 64 x
def w64 (n : Nat) : Word := BitVec.ofNat 64 n
/-- 2^64 - 1, the answer that many entries give for "none". -/
def allOnes : Word := 0xFFFFFFFFFFFFFFFF
def boolWord (b : Bool) : Word := if b then 1 else 0

/-- Bits lo + len - 1 to lo of a word. -/
def bitsOf (w : Word) (lo len : Nat) : Nat := w.toNat / 2 ^ lo % 2 ^ len

/-- The n low bytes of v, lowest address first (R6). -/
def bytesOf : Nat → Nat → List Byte
  | 0, _ => []
  | n + 1, v => BitVec.ofNat 8 v :: bytesOf n (v / 256)

/-- The natural value of bytes in little-endian order (R6). -/
def natOf : List Byte → Nat
  | [] => 0
  | b :: bs => b.toNat + 256 * natOf bs

/-- n divided by d, rounded up. -/
def ceilDiv (n d : Nat) : Nat := (n + d - 1) / d

/-- A value in a list of numbered entries. -/
def look {α : Type} (l : List (Nat × α)) (k : Nat) : Option α :=
  match l with
  | [] => none
  | (i, a) :: r => if i = k then some a else look r k

/-- Put entry k, in the order of the numbers. -/
def place {α : Type} (l : List (Nat × α)) (k : Nat) (a : α) : List (Nat × α) :=
  match l with
  | [] => [(k, a)]
  | (i, b) :: r => if k < i then (k, a) :: (i, b) :: r else if k = i then (k, a) :: r else (i, b) :: place r k a

/-- Remove entry k. -/
def strike {α : Type} (l : List (Nat × α)) (k : Nat) : List (Nat × α) := l.filter fun e => e.1 != k

/-- Element n, or a default beyond the end. -/
def nth {α : Type} (l : List α) (n : Nat) (d : α) : α := (l[n]?).getD d

/-- The list with element n replaced. -/
def setNth {α : Type} (l : List α) (n : Nat) (a : α) : List α := l.set n a

/-- Insert before the first element that is not ahead of a. -/
def insertBy {α : Type} (le : α → α → Bool) (a : α) : List α → List α
  | [] => [a]
  | b :: r => if le a b then a :: b :: r else b :: insertBy le a r

/-- The list in the order le; equal elements keep their places. -/
def sortBy {α : Type} (le : α → α → Bool) (l : List α) : List α := l.foldr (insertBy le) []

/-- The vector whose element k is f k. -/
def vecOf {α : Type} {n : Nat} (f : Fin n → α) : Vector α n := ⟨((List.finRange n).map f).toArray, by simp⟩

/-- f of every element. -/
def mapVec {α β : Type} {n : Nat} (f : α → β) (v : Vector α n) : Vector β n := ⟨(v.toList.map f).toArray, by simp⟩

/-- The least n below k for which p holds. -/
def leastBelow (k : Nat) (p : Nat → Bool) : Option Nat := (List.range k).find? p

end Sys2Proof.Machine
end

