-- ==== Sys2Proof/Machine/State.lean ====
section
/-!
DEFINITION. The state of the module as plain data: a table that most cores, kernels and links leave untouched is a list of the entries
that differ from their reset value. Steward-window tables (R20) and every record in memory are bytes of `mem`.
-/
namespace Sys2Proof.Machine

/-- Why the machine stops. No instruction of the spec stops the module (R2); the one fault guards the model's own schedule. -/
inductive Fault where
  /-- Raised by `step` when the schedule names a core that the module does not have (R16). Safe: the hardware has no such core. -/
  | noSuchCore
deriving DecidableEq, Repr

/-- Why an instruction has no meaning here. -/
inductive Refusal where
  /-- Raised by `exec` for an instruction that the model does not give a meaning yet. Safe: nothing can be proved of it. -/
  | notModelled (mnemonic : String)
deriving DecidableEq, Repr

/-! ## A fibre -/

/-- A segment register (R77): base, limit, class, and STR, CTR, EXE, WR, RD in bits 4 to 0. -/
structure Seg where
  base   : Word := 0
  limit  : BitVec 48 := 0
  cls    : BitVec 2 := 0
  rights : BitVec 5 := 0
deriving DecidableEq, Repr

/-- A pattern record as read (R89). -/
structure Pattern where
  esize : Nat
  c0 : Nat
  c1 : Nat
  c2 : Nat
  s0 : Int
  s1 : Int
  s2 : Int
  base : Word
deriving DecidableEq, Repr

/-- One refilled element (R92): its bytes, and the first of them that lies in a poisoned word. -/
structure Refill where
  bytes : List Byte
  toxic : Option Nat
deriving DecidableEq, Repr

/-- A stream position (R94), with the record as read and the elements refilled and not popped. `pat` is none where the record read at a
bind breaks R89. -/
structure Stream where
  armed : Bool := false
  isV   : Bool := false
  out   : Bool := false
  dseg  : Fin 8 := 0
  pseg  : Fin 8 := 0
  index : BitVec 48 := 0
  poff  : BitVec 48 := 0
  pat   : Option Pattern := none
  /-- The record is to be read again, after a bind (R94). -/
  again : Bool := false
  buf   : List Refill := []
  /-- The element at which a refill stopped; only its pop goes on (R92). -/
  halt  : Option Nat := none
deriving DecidableEq, Repr

/-- How a wake completes the instruction that waits (R103, R241, R333, R351). -/
inductive Wake where
  | value (v : Word) | poison | replay
deriving DecidableEq, Repr

/-- What a publish covers when it begins (R120, R124): the store-buffer entries opened before it, and the requests that the memory ports have
accepted before it, each by number. -/
structure Bound where
  entries : Nat
  taken   : Nat
deriving DecidableEq, Repr

/-- Why a fibre is out of the rotation (R55) with its instruction to issue again once the reply has come. -/
inductive Wait where
  /-- A TLB miss posted to the mailbox (R234). -/
  | miss
  /-- A fetch whose line has not arrived (R55): the line of `Fib.want`, or of the pc, after a TLB miss. -/
  | fetch
  /-- What the publish of the instruction at a scope covers is not accepted yet (R120, R131). -/
  | publish (sc : Nat) (upto : Bound)
  /-- Held while a page moves (R240, reason 5). -/
  | move (va : Word)
  /-- Room or a turn to come free: a held link, mailbox, ring, ticket, empty mailbox of `wmbx`. -/
  | room
  /-- The line is fetched again after a parity failure (R32). -/
  | refetch
deriving DecidableEq, Repr

/-- What a sleeping fibre sleeps on (R60). -/
inductive Sleep where
  | counter | pipe | drain (mod : Bool)
deriving DecidableEq, Repr

inductive Status where
  | run | waiting (w : Wait) | sleeping (w : Sleep) (since : Nat)
deriving DecidableEq, Repr

/-- A trap to be delivered (R133). -/
structure Trap where
  cause : Nat
  tpc   : Word
  taddr : Word
deriving DecidableEq, Repr

/-- The context of a fibre in a slot (R39, R57, R58, R64). -/
structure Fib where
  pc : Word := 0
  la : Vector Word 4 := Vector.replicate 4 0
  s  : Vector Word 16 := Vector.replicate 16 0
  x  : Vector Word 64 := Vector.replicate 64 0
  v  : Vector VReg 16 := Vector.replicate 16 (Vector.replicate 16 0)
  seg : Vector Seg 8 := Vector.replicate 8 {}
  tvec : Word := 0
  tpc : Word := 0
  taddr : Word := 0
  tcause : BitVec 8 := 0
  step : BitVec 8 := 0
  hstep : BitVec 8 := 0
  ctx : Word := 0
  rope : Word := 0
  fp : BitVec 7 := 0
  fdepth : BitVec 6 := 0
  fdlimit : BitVec 6 := 0
  budget : BitVec 48 := 0xFFFFFFFFFFFF
  /-- The budget has counted down to 0 and its trap is still to be raised (R66). -/
  due : Bool := false
  fibre : BitVec 32 := 0
  stage : BitVec 3 := 0
  queue : BitVec 12 := 0
  tenant : BitVec 12 := 0
  steward : Bool := false
  tclaim : BitVec 32 := 0
  aclaim : BitVec 8 := 0
  sat : BitVec 8 := 0
  tshape : Vector (BitVec 15) 32 := Vector.replicate 32 0
  streams : Vector Stream 4 := Vector.replicate 4 {}
  waddr : Word := 0
  wthr : Word := 0
  /-- A pending cause 0x0F and the address of its command record (R138). -/
  pend : Option Word := none
  /-- The same codes, of registers with a single-bit error that no read has corrected yet (R144). -/
  flips   : List Nat := []
  /-- Operand specifiers of poisoned registers; 0x100 + k for tile k, 0x200 + n for accumulator n (R144). -/
  poison : List Nat := []
  status : Status := .run
  /-- The answer with which the instruction at the pc completes when it issues again. -/
  wake : Option Wake := none
  /-- A refused fault that is to be delivered (R241). -/
  delivery : Option Trap := none
  /-- The trap registers of a trap are written, and the handler's line is awaited (R135). -/
  entering : Bool := false
  /-- The fibre has not issued yet: its entry address is still to be checked (R397). -/
  entry : Bool := false
  /-- The instruction at the pc has issued and waits for a reply or for room (R61, R66, R141). -/
  issued : Bool := false
  /-- The line of the instruction at the pc has failed its parity once and is fetched again (R32). -/
  failed : Bool := false
  /-- What the issue in progress found of `issued` and `failed`. -/
  reissue : Bool × Bool := (false, false)
  /-- The target whose line a control transfer waits for (R55, R397). -/
  want : Option Word := none
  /-- The publish of the instruction has begun: what it covers (R120). -/
  pubTo : Option Bound := none
  /-- The `qpost` at the pc has read this value of NOTIFY and stored its record (R299, R300). -/
  post : Option Word := none
deriving DecidableEq, Repr

/-! ## A core -/

/-- A hardware slot (R52, R54, R305). `ctx` is the bound fibre's context but for the slot in focus, whose context is `State.fib`. -/
structure Slot where
  bound : Bool := false
  ctx   : Fib := {}
  /-- First cycle in which the slot may issue again (R54). -/
  next  : Nat := 0
  owner : BitVec 12 := 0
  /-- The slot has been handed to its owner (R306). -/
  given : Bool := false
  /-- The queue that the arbiter has given the slot to, while a fibre is still bound (R306). -/
  taker : Option (BitVec 12) := none
  /-- The instruction of the slot is at the matrix unit up to this cycle (R191). -/
  busy  : Nat := 0
  /-- A single parity failure strikes the next instruction fetched (R32). -/
  fetchErr : Bool := false
deriving DecidableEq, Repr

/-- STATE of a fibre (R58); a fibre that the table does not list is free. -/
inductive FState where
  | ready | bound | swapped | faulted | done
deriving DecidableEq, Repr

/-- Who may bind the fibre (R52). -/
inductive Role where
  | control | user | request | walker
deriving DecidableEq, Repr

/-- What the device knows of a fibre beside its record. -/
structure FibreInfo where
  state : FState
  role  : Role
  /-- Kernel table entry, none for a fibre of the device OS. -/
  kern  : Option Nat := none
  /-- Fibre-record handle (R57) and the location of the record. -/
  hand  : Word := 0
  loc   : Nat := 0
  /-- The record is being written; this state follows (R59, R61). -/
  writing : Bool := false
  /-- The wake that fired while the fibre was off its slot (R103). -/
  wake  : Option Wake := none
  /-- Ticket and the `%taddr` of the fault that the fibre waits on (R241). -/
  ticket : Option (Nat × Word) := none
  due   : Bool := false
  pend  : Option Word := none
  entry : Bool := false
  drain : Option Bool := none
  /-- A `sysc` whose service entry is posted once the record is written (R148). -/
  call : Option Word := none
  /-- Cycle of its core at the last write of its record (R330). -/
  wrote : Nat := 0
  /-- Cycle of its core in which pre-emption or the swap threshold last took it off its slot (R61). -/
  left  : Option Nat := none
deriving DecidableEq, Repr

/-- One store in the buffer: offset in the block, bytes, storing fibre (R81, R107), whether the whole access was 8 bytes aligned to 8, so
that it acts on a port (R401), and the admission number of the fibre's kernel (R349). -/
structure SbWrite where
  off   : Nat
  bytes : List Byte
  who   : Adder
  act   : Bool := false
  life  : Option Nat := none
deriving DecidableEq, Repr

/-- A store-buffer entry: one aligned 64-byte block (R81), in the order of opening, closed by a publish (R120); poisoned words by offset
(R144). -/
structure SbEntry where
  block  : Nat
  serial : Nat := 0
  closed : Bool := false
  writes : List SbWrite := []
  toxic  : List Nat := []
deriving DecidableEq, Repr

/-- A store that a memory port has accepted and not passed on (R116-R118): at the cluster port of the storing core, or beyond it at the die
port. `serial` is the number of the buffer entry it left, `num` its own in the order of acceptance at the cluster ports; `toxic` poisons the
word (R144). -/
structure PortReq where
  atDie  : Bool := false
  core   : Nat
  serial : Nat
  loc    : Nat
  bytes  : List Byte
  who    : Adder
  act    : Bool := false
  toxic  : Bool := false
  life   : Option Nat := none
  num    : Nat := 0
deriving DecidableEq, Repr

/-- A line in the fetch buffer of a core (R54): tenant and code address of the line, and the location it came from. -/
structure FetchLine where
  tenant : BitVec 12
  va     : Word
  loc    : Nat
deriving DecidableEq, Repr

/-- A line of the read cache (R121). -/
structure CLine where
  block : Nat
  bytes : List Byte
  toxic : List Nat
deriving DecidableEq, Repr

/-- What the device asks for a translation for: an access of a fibre or a command, the ring entry of a queue, the fibre tables or the
population of a launch by its number, an eviction, a request of a link by its number (R248, R254, R327, R399). -/
inductive Purpose where
  | access | ring (q : Nat) | tables (launch : Nat) | populate (launch : Nat) | evict (entry : Nat) | inbound (l : LinkId) (n : Nat)
deriving DecidableEq, Repr

/-- A miss-mailbox entry (R235). `fresh` says that `wmbx` has not taken it. -/
structure Miss where
  va     : Word
  at_    : Nat
  tenant : BitVec 12
  tag    : Nat
  rq     : Nat
  who    : Nat
  code   : Word := 0
  epoch  : Nat := 0
  fresh  : Bool := true
  src    : Purpose := .access
  /-- The engine command that asks (R206). -/
  cmd    : Option Nat := none
deriving DecidableEq, Repr

/-- A proxying entry of the core's proxy table with what the device copied when it armed it (R346). -/
structure Proxy where
  entry : Nat
  arr   : Nat
  inc   : Word
  last  : Nat
  step  : Word
  base  : Word
  pg    : Nat
  fibre : Nat
  kern  : Option Nat
deriving DecidableEq, Repr

/-- A counter add on its way to its home (R96, R115). -/
structure CtrMsg where
  src : Nat
  loc : Nat
  inc : Word
  who : Adder
deriving DecidableEq, Repr

/-- What an instruction takes its turn for: the chain of a header (R202), or a counter home (R96); while the operand that names it is still to be
popped, any. -/
inductive TurnKey where
  | chain (header : Nat) | home (core : Nat) | anyChain | anyHome
deriving DecidableEq, Repr

/-- What stands in a core's order of issue: an instruction of a fibre that waits, or an add that has been posted behind one (R96, R202). -/
inductive Waiting where
  | instr (key : TurnKey) (f : Nat) | add (m : CtrMsg)
deriving DecidableEq, Repr

structure Core where
  cyc   : Nat := 0
  rot   : BitVec 4 := 15
  slots : Vector Slot 16 := Vector.replicate 16 {}
  ready : List Nat := []
  /-- Fibres with WOKEN = 1 in the order in which their wakes fired (R60). -/
  woken : List Nat := []
  fibres : List (Nat × FibreInfo) := []
  sb    : List SbEntry := []
  /-- How many store-buffer entries the core has opened. -/
  sbSeq : Nat := 0
  lines : List FetchLine := []
  cache : List CLine := []
  mailbox : List Miss := []
  faultSeq : Nat := 0
  tickets : List Nat := []
  refused : List Nat := []
  /-- Engine and counter instructions that wait, and adds posted behind them, in the order of issue (R96, R202). -/
  waitq : List Waiting := []
  tiles : Vector Tile 32 := Vector.replicate 32 0
  accs  : Vector Acc 8 := Vector.replicate 8 (Vector.replicate 64 0)
  /-- The matrix unit is taken up to this cycle (R191). -/
  matrix : Nat := 0
  level : List Word := []
  /-- How many of its oldest entries the list keeps from a group that the core has left (R317). -/
  kept  : Nat := 0
  /-- Kernels resident on the core (R325). -/
  kernels : List Nat := []
  /-- Credit C_q of each contending queue as a fraction (R306). -/
  credit : List (Nat × (Int × Nat)) := []
  /-- Marked to move: kernel and new stage (R334). -/
  mark  : Option (Nat × Nat) := none
  /-- Request in progress on slot 14 and whether its logit fibre runs (R285). -/
  request : Option (Nat × Bool) := none
  /-- The records reserved for request fibres: kernel, handle and location (R282, R331). -/
  reqRec : List (Nat × Word × Nat) := []
  proxies : List Proxy := []
  /-- Cycle of the last LEVEL_BALANCE (R316). -/
  balanced : Nat := 0
  /-- Cycle of the last rotation boundary at which the arbiter acted (R306). -/
  arbiter : Nat := 0
deriving DecidableEq, Repr

/-! ## Counters -/

/-- Who waits at a counter home (R100, R102): a fibre by `cwait` or for its fault, a fibre by `pget.w` (R333), the queue scheduler, a
gate, an entry of the notify table, a proxy. -/
inductive Waiter where
  | fibre (g f : Nat) | getter (g f : Nat) | notify (q : Nat) | gate (k : Nat) | irq (v : Nat) | proxy (g i : Nat)
deriving DecidableEq, Repr

/-- An enrolment, or a poll (R101) when `poll` holds. -/
structure Enrol where
  who  : Waiter
  loc  : Nat
  thr  : Word
  poll : Bool := false
deriving DecidableEq, Repr

/-- A straggler record (R108); the list is kept in the order of the last change. -/
structure Strag where
  loc    : Nat
  start  : Nat
  fresh  : Bool := false
  valid  : Bool := false
  who    : Adder := ⟨0, 0, 0⟩
  thr    : Word := 0
  spread : Nat := 0
deriving DecidableEq, Repr

/-- A counter add of the device on behalf of core g that is a release at scope sc: it is made when what `upto` covers is
accepted at that scope (R120, R241, R285, R347); an add that reaches no counter is dropped (log 76). `ends` says that the core's request
fibre is freed next and HEAD added to (R285, R331). -/
structure Release where
  g    : Nat
  sc   : Nat
  upto : Bound
  loc  : Option Nat
  inc  : Word
  who  : Adder
  ends : Bool := false
deriving DecidableEq, Repr

/-! ## Pages and engines -/

/-- A TLB entry (R234). -/
structure TlbEntry where
  tlb    : TlbId
  tenant : BitVec 12
  page   : Nat
  blk    : Bool
  leaf   : Word
deriving DecidableEq, Repr

/-- An accepted leaf that no later lookup serves, since the access needs D and the leaf lacks it: the access that asked proceeds by it
(R239). -/
structure Grant where
  g    : Nat
  miss : Miss
  leaf : Word
deriving DecidableEq, Repr

/-- An engine command in flight (R202-R208). The record's bytes stand in the ring entry at `ring`. -/
structure Cmd where
  id     : Nat
  g      : Nat
  f      : Nat
  tenant : BitVec 12
  steward : Bool
  header : Nat
  ring   : Nat
  ticket : Nat
  kern   : Option Nat
  /-- Admission number of the issuer's kernel, which tells it from a later one in its table entry. -/
  life   : Nat := 0
  /-- Engine of the cluster that serves the chain (R200). -/
  eng    : Nat := 0
  bytes  : List Byte
  seglo  : Nat := 0
  seghi  : Nat := 0
  hdrseg : Nat := 0
  state  : Nat := 0
  code   : Nat := 0
  phase  : Bool := false
  done   : Nat := 0
  park   : Option Nat := none
  /-- A tier move has set MIG of the page at DONE (R247). -/
  marked : Bool := false
  /-- Receivers that have taken the run at DONE (R213). -/
  served : List Nat := []
  /-- Bases of a handle-class source, and of the current and the shadow buffer of a handle-class destination, each resolved once (R128). -/
  srcBase : Nat := 0
  dstBase : Nat := 0
  shdBase : Nat := 0
  /-- The code table that a decode read when it started, and whether it is poison (R144, R215). -/
  table  : Option (List Byte × Bool) := none
  /-- The issuing fibre has been freed. -/
  orphan : Bool := false
  /-- A link has gone down with bytes of the command uncovered: DONE at the last covered point (R370). -/
  lost   : Option Nat := none
  /-- Bytes that a decode or a commit has made and that no link has had room for yet, by location, with the DONE and the failure code that
  it ends with (R215, R216, R368). -/
  left   : List (Nat × List (Byte × Bool)) := []
  goal   : Nat := 0
  fin    : Nat := 0
  /-- All its bytes have left, and ACKs are waited for (R370). -/
  sent   : Bool := false
deriving DecidableEq, Repr

/-- An eviction accepted (R254), in the order of acceptance of its cluster. -/
structure Evict where
  entry  : Nat
  g      : Nat
  f      : Nat
  tenant : BitVec 12
  ctr    : Nat
  busy   : Bool := false
  park   : Option Nat := none
deriving DecidableEq, Repr

/-! ## Kernels -/

/-- A group (R308-R313): its members in rank order with their shares. -/
structure Group where
  stage   : Nat
  members : List Nat
  shares  : List (Nat × Nat)
  m       : Nat
  n       : Nat
  home    : Nat
deriving DecidableEq, Repr

/-- What the device keeps of a kernel beside its table entry. -/
structure Kern where
  id     : Nat
  queue  : Nat
  prio   : Nat
  groups : List Group := []
  /-- The segment set that population read (R327). -/
  segs   : Vector Seg 8 := Vector.replicate 8 {}
  /-- Speed snapshot of admission (R311): CUR where it differed from FUSED. -/
  snap   : List (Nat × Byte) := []
  /-- CHAND of the queue's record before this one (R323), 0 for none. -/
  prev   : Nat := 0
  /-- Number of the launch in the order of reading, and that of its queue's launch before it (R323). -/
  num    : Nat := 0
  pred   : Option Nat := none
  sent   : Nat := 0
  rcvd   : Nat := 0
  admitted : Nat := 0
  killed : Bool := false
  /-- Core and ticket on which population waits (R327). -/
  park   : Option (Nat × Nat) := none
deriving DecidableEq, Repr

/-- A queue that the scheduler knows open (R303). -/
structure Queue where
  q     : Nat
  close : Bool := false
  idle  : Nat := 0
  prev  : Nat := 0
  /-- Number of the queue's last launch read. -/
  last  : Option Nat := none
deriving DecidableEq, Repr

/-! ## Links -/

/-- An inbound request as judged by the window descriptor that stood when it reached the ordering point (R359, R360). `kind` is that of the
window: 1 scratchpad, 2 counter, 3 module; 4 for BAR0 (R358); 0 for a read that is refused. `addr` is a location, for kind 3 a module virtual
address, for kind 4 an offset. -/
structure Request where
  kind   : Nat
  addr   : Nat
  tenant : BitVec 12 := 0
  len    : Nat
  data   : Option (List Byte) := none
  toxic  : Bool := false
  /-- Number of the request at its link. -/
  num    : Nat := 0
  /-- Where its bytes lie, once that is known (R248). -/
  spans  : List (Nat × Nat) := []
deriving DecidableEq, Repr

/-- A data flit that no ACK covers yet: its SEQ and payload, how often it has been replayed (R368), and the engine command whose bytes it
carries, with DONE before them (R370). -/
structure SentFlit where
  seq   : Nat
  bytes : List Byte
  times : Nat := 0
  cmd   : Option (Nat × Nat) := none
deriving DecidableEq, Repr

/-- A link: its status word (R354) and what its ordering point and link layer hold (R355, R362, R367, R368). -/
structure Link where
  id     : LinkId
  state  : BitVec 3 := 0
  role   : BitVec 3 := 0
  width  : Nat := 0
  rate   : Nat := 0
  peer   : Nat := 0
  tries  : Nat := 0
  rxSeq  : Nat := 0
  txSeq  : Nat := 0
  replay : List SentFlit := []
  /-- The flits of a message longer than the replay buffer that have yet to leave. -/
  backlog : List SentFlit := []
  /-- Posted writes at the ordering point in the order of arrival: data writes that wait, counter-window writes held, and what follows
  them (R362). -/
  posted : List Request := []
  /-- Reads that wait, each with how many entries of `posted` are ahead of it (R362). -/
  reads  : List (Nat × Request) := []
  /-- How many requests the link has taken in. -/
  taken  : Nat := 0
deriving DecidableEq, Repr

/-- A frame pool (R246): the ranges of index of the frames never taken, each from its first up to its end, and frames returned. -/
structure Pool where
  fresh : List (Nat × Nat) := []
  back  : List Nat := []
deriving DecidableEq, Repr

/-- What has left the module through a link: a store, an interrupt, a reply, a flit of 256 bytes, a read, the poison of n bytes of a store,
and an error that AER reports (R130, R144, R361, R364, R367). -/
inductive Out where
  | store (l : LinkId) (addr : Nat) (data : List Byte) | msix (v : Nat) | reply (l : LinkId) (data : List Byte) (toxic ok : Bool)
  | flit (w : Nat) (bytes : List Byte) | ask (l : LinkId) (addr n : Nat) | poison (l : LinkId) (addr n : Nat) | aer (l : LinkId) (k : Nat)
deriving DecidableEq, Repr

/-- One turn of the schedule: a core's next issue, an event of the table, cycles of a core that pass without issue, what the read cache of
a core takes in or drops (R121), the eldest request that the memory port of a cluster or of a die passes on (R118), and a line that
leaves the fetch buffer of a core. DESIGN CHOICE (log 1). -/
inductive Turn where
  | issue (g : Nat) | event (i : Instr) | tick (g n : Nat) | cacheFill (g block : Nat) | cacheDrop (g block : Nat)
  | forward (die : Bool) (n : Nat) | lineDrop (g i : Nat)
deriving DecidableEq, Repr

/-- A result of a pair member held until the pair commits (R46). -/
inductive Result where
  | scalar (d : SReg) (v : Word) | vector (d : Fin 16) (v : VReg)
deriving DecidableEq, Repr

/-- What a control instruction does after its results are written; a trap at another instruction's address (R74, R147). -/
inductive Flow where
  | seq | jump (a : Word) | raise (t : Trap) (unbacked : Bool) | sysc (n : Word) | yield | halt
deriving DecidableEq, Repr

/-- How an instruction leaves the rotation without completing: a TLB miss to post, room to wait for, the line of a target, the end of its
publish, or a sleep with its enrolment and whether a `pget.w` sleeps; `turn` is such a leave that keeps its place in the order of issue. -/
inductive Leave where
  | miss (m : Miss) | room | fetch (a : Word) | publish (sc : Nat) (upto : Bound) | sleep (w : Sleep) (at_ : Option (Nat × Word)) (waddr : Word)
  | turn (k : TurnKey) (l : Leave)
deriving DecidableEq, Repr

/-- How a member of a pair stopped (R47): a trap with its `%taddr` and whether it counts as an access to an unbacked DPA, or a leave. -/
inductive PairStop where
  | trap (cause : Nat) (taddr : Word) (unbacked : Bool) | leave (l : Leave)
deriving DecidableEq, Repr

/-- The pair in progress: which member executes, the results held, the flow of the second member, and how a member stopped. -/
structure Pairing where
  second  : Bool := false
  results : List Result := []
  flow    : Flow := .seq
  stop    : Option PairStop := none
  /-- The member that stopped keeps what it did outside its fibre's context. -/
  kept    : Bool := false
deriving DecidableEq, Repr

structure State where
  /-- The context of the fibre in the slot `focus` (core, slot). -/
  fib   : Fib := {}
  focus : Nat × Fin 16 := (0, 0)
  pair  : Option Pairing := none
  turns : List Turn := []
  /-- How many free values have been drawn (log 8). -/
  free  : Nat := 0
  cores : List (Nat × Core) := []
  mem   : List Host.Cell := []
  /-- Locations, multiples of 8, of poisoned words (R82, R144). -/
  poison : List Nat := []
  /-- Words that hold a single-bit error which no read has met yet (R82). -/
  latent : List Nat := []
  /-- Stores accepted at the memory ports of clusters and dies, in the order of acceptance (R116-R118). -/
  ports : List PortReq := []
  /-- How many stores the memory ports of clusters have accepted. -/
  accepts : Nat := 0
  /-- Releases of the device that wait for their publish (R241, R285, R347). -/
  rels  : List Release := []
  /-- Speed table where it differs: FUSED, CUR, and the code of a core whose clock has yet to switch (R20, R21). -/
  fused : List (Nat × Byte) := []
  cur   : List (Nat × Byte) := []
  clock : List (Nat × Byte) := []
  enrol : List Enrol := []
  strag : List Strag := []
  msgs  : List CtrMsg := []
  wakes : List (Nat × Nat × Wake) := []
  /-- Device waiters whose wake is to be acted on, with the value (R102). -/
  fired : List (Waiter × Option Word) := []
  tlbs  : List TlbEntry := []
  grants : List Grant := []
  /-- Requests of engines and of the host that wait until the move of their page switches it (R240, R247). -/
  moving : List (Nat × Miss) := []
  epoch : Nat := 0
  /-- Each invalidation's epoch, tenant and page range, none for all (R244). -/
  invs  : List (Nat × Option (BitVec 12 × Option Nat)) := []
  lastHandle : Nat := 0
  /-- The 64 KiB pools of tiers 0 to 3, then the 512 MiB pools. -/
  pools : Vector Pool 8 := Vector.replicate 8 {}
  cmds  : List Cmd := []
  nextCmd : Nat := 0
  /-- Code tables by cluster and slot (R215): tenant, bytes, and whether the table is poison (R144). -/
  tables : List ((Nat × Nat) × BitVec 12 × List Byte × Bool) := []
  /-- Chains by header with the number of their last command taken, of those taken so far (R200). -/
  taken  : List (Nat × Nat) := []
  takes  : Nat := 0
  evicts : List Evict := []
  /-- Guarded granules of pinned images (R253). -/
  guards : List Nat := []
  /-- Blocks whose next NVMe command fails (R204). -/
  badBlocks : List Nat := []
  /-- Requests of the device that a walker refused (R399). -/
  hostFails : List Purpose := []
  kerns : List Kern := []
  queues : List Queue := []
  hslots : List (Nat × Nat) := []
  pending : List Nat := []
  doneSeq : Nat := 0
  admitSeq : Nat := 0
  /-- How many launches have been read. -/
  launches : Nat := 0
  /-- Draining cores in the order in which their idle bits rose, by kernel, stage and scope, and the holds in progress (R350). -/
  rises : List ((Nat × Nat × Bool) × Nat) := []
  holds : List (Nat × Nat × Bool) := []
  links : List Link := []
  mask64 : List Nat := List.range 64
  pend64 : List Nat := []
  /-- Bytes of the MSI-X table that differ from 0: 16 a vector, the message's address and data in the first 12 (R358). -/
  msix  : List Host.Cell := []
  out   : List Out := []
  /-- Provisioned configuration and fuses (R26, R371, R375, R378, R379). -/
  mask  : List Nat := []
  modid : BitVec 16 := 0
  selfHosted : Bool := false
  life  : BitVec 3 := 2
  roles : List (Fin 8 × BitVec 3) := []
  /-- Welt links that the configuration gives ROLE 4. -/
  welts : List (Fin 16) := []
  hwalk : List Nat := []
  nveng : List (Fin 8 × Nat) := []
  /-- The CXL devices that the last start found, each with its port and its bytes, in port order and then in device order (R365). -/
  cxl   : List (Fin 8 × Nat) := []
  swapNs : Nat := 0
  swapBlocks : Nat := 0
  /-- Configuration store: CUR of each core that failed its self-test (R377), trained (R376). -/
  held  : List Nat := []
  trained : Bool := true
  /-- The owner key that provisioning recorded, named by the identity key of that time (R379). -/
  owner : Option Nat := some 0
  power : Bool := true
  /-- Which identity key the free value of R378 is taken with (R379). -/
  images : Nat := 0
  /-- The firmware image and the configuration that step 2 of the last start has measured (R375, R378). -/
  measured : List Byte := []
  /-- STATUS of the start block (R375): STEP, COLD, FAIL. -/
  sstep : Nat := 9
  cold  : Bool := true
  failed : Bool := false
deriving DecidableEq, Repr

/-! ## Reset -/

/-- The walker fibre of core g (R52, R376), in slot 15, in steward mode. -/
def walkerFib (g : Nat) : Fib := { pc := Config.bootPc, fibre := BitVec.ofNat 32 (g * 4096 + Config.walkerIndex), steward := true }

/-- A core after a start (R376): its walker is bound, and nothing else. -/
def freshCore (g : Nat) : Core :=
  { slots := (Vector.replicate 16 ({} : Slot)).set 15 { bound := true, ctx := walkerFib g }
    fibres := [(Config.walkerIndex, { state := .bound, role := .walker, loc := 0x100000000 + 4096 * g })] }

/-- The first fibre of the device OS on core g (R376): index 0, in slot 0, in steward mode. -/
def bootFib (g : Nat) : Fib := { pc := Config.bootPc, fibre := BitVec.ofNat 32 (g * 4096), steward := true }

/-- The core on which the device OS begins. -/
def bootCore (g : Nat) : Core :=
  { freshCore g with
    slots := (freshCore g).slots.set 0 { bound := true }
    fibres := [(0, { state := .bound, role := .control, loc := 0xF0000000 }),
      (Config.walkerIndex, { state := .bound, role := .walker, loc := 0x100000000 + 4096 * g })] }

/-- The steward mask of the spec's examples: cluster 1 of each die (R340, R373). DESIGN CHOICE (log 7). -/
def exampleMask : List Nat := (List.range 48).map fun d => d * 112 + 1

/-- Module core number of the lowest core of the lowest steward cluster of `exampleMask`. -/
abbrev bootG : Nat := 192

/-- The pools after step 7 (R381): 512 MiB frames of the four tiers but the first 16 of HBM4; the 64 KiB pools empty. `cxl` are the ranges of
frames that CXL memory backs. -/
def freshPools (cxl : List (Nat × Nat)) (swapBlocks : Nat) : Vector Pool 8 :=
  ((((Vector.replicate 8 ({} : Pool)).set 4 { fresh := [(16, 3072)] }).set 5 { fresh := [(0, 8192)] }).set 6
    { fresh := cxl.filter fun p => p.1 < p.2 }).set 7 { fresh := [(0, swapBlocks / 131072)].filter fun p => p.1 < p.2 }

/-- The machine right after a successful cold start (R376), with the device OS's first fibre about to issue. -/
def State.reset : State :=
  { fib := bootFib bootG
    focus := (bootG, 0)
    cores := [(bootG, bootCore bootG)]
    mask := exampleMask
    roles := [(0, 1), (2, 2), (4, 3)]
    welts := [0]
    hwalk := [bootG, bootG, bootG, bootG]
    nveng := [(4, 1)]
    swapBlocks := 2 ^ 30
    pools := freshPools [] (2 ^ 30)
    links := [{ id := .port 0, state := 4, role := 1 }, { id := .port 2, state := 4, role := 2 }, { id := .port 4, state := 4, role := 3 },
      { id := .welt 0, state := 4, role := 4 }] }

end Sys2Proof.Machine
end

