-- ==== Sys2Proof/Machine/Mem.lean ====
section
/-!
DEFINITION. Memory as cells, the locations of the address spaces (R6, R14, R20, R78, R230), cores and the speed table (R16-R24), poison
(R82), and the error counters (R145, R373).
-/
namespace Sys2Proof.Machine

/-! ## Cells -/

/-- What a byte that nothing has written reads as: the wipe of R380. -/
def blankByte : Byte := 0

def cellGet (m : List Host.Cell) (a : Nat) : Byte := (look m a).getD blankByte
def cellPut (m : List Host.Cell) (a : Nat) (v : Byte) : List Host.Cell := if v = blankByte then strike m a else place m a v

/-- The canonical form: addresses strictly rising, and no cell that reads as blank. -/
def memWf : List Host.Cell → Bool
  | [] => true
  | [(_, v)] => v != blankByte
  | (a, v) :: (b, w) :: r => a < b && v != blankByte && memWf ((b, w) :: r)

def byteAt (s : State) (a : Nat) : Byte := cellGet s.mem a
def setByte (s : State) (a : Nat) (v : Byte) : State := { s with mem := cellPut s.mem a v }

/-- The n bytes from location a. -/
def readBytes (s : State) (a : Nat) : Nat → List Byte
  | 0 => []
  | n + 1 => byteAt s a :: readBytes s (a + 1) n

def writeBytes (s : State) (a : Nat) : List Byte → State
  | [] => s
  | b :: bs => writeBytes (setByte s a b) (a + 1) bs

def readNat (s : State) (a n : Nat) : Nat := natOf (readBytes s a n)
def writeNat (s : State) (a n v : Nat) : State := writeBytes s a (bytesOf n v)
def readWord (s : State) (a : Nat) : Word := BitVec.ofNat 64 (readNat s a 8)
def writeWord (s : State) (a : Nat) (v : Word) : State := writeNat s a 8 v.toNat

/-! ## Locations -/

/-- Location of offset off of the scratchpad of core g. -/
def spadLoc (g off : Nat) : Nat := Config.spadBase + g * Config.spadBytes + off
/-- Location of a cluster-space address of cluster d * 112 + c (R14). -/
def clusterLoc (cl addr : Nat) : Nat := Config.spadBase + cl * Config.clusterBytes + addr
def swLoc (off : Nat) : Nat := Config.swBase + off
def isSpad (a : Nat) : Bool := Config.spadBase ≤ a && a < Config.spadBase + Config.cores * Config.spadBytes
def isSw (a : Nat) : Bool := Config.swBase ≤ a && a < Config.swBase + Config.swBytes
def isDpa (a : Nat) : Bool := a < 0x800000000000
/-- The core whose scratchpad holds a location (R95, R117). -/
def homeOf (a : Nat) : Nat := (a - Config.spadBase) / Config.spadBytes
def clusterOf (g : Nat) : Nat := g / 192
def dieOf (g : Nat) : Nat := g / 21504
/-- The cluster of column 0 of the mesh is wide (R13). -/
def isWide (cl : Nat) : Bool := cl % 112 % 8 == 0

/-- Tiers of a DPA (R230); none: unbacked. -/
def dpaTier (a : Nat) : Option Nat :=
  if a < 0x018000000000 then some 0
  else if 0x040000000000 ≤ a ∧ a < 0x080000000000 then some 1
  else if 0x400000000000 ≤ a ∧ a < 0x800000000000 then some 2
  else none

/-- The ranges of the CXL devices found, from byte b of the pool upward: each aligned to 512 MiB, and 64 TiB in all (R365). -/
def cxlFrom : Nat → List (Fin 8 × Nat) → List (Nat × Nat × Fin 8)
  | _, [] => []
  | b, (p, n) :: r =>
    let m := min n (2 ^ 46 - b)
    (b, b + m, p) :: cxlFrom (ceilDiv (b + m) (2 ^ 29) * 2 ^ 29) r
def cxlRanges (s : State) : List (Nat × Nat × Fin 8) := cxlFrom 0 s.cxl
/-- The 512 MiB frames that lie whole in CXL memory, by index. -/
def cxlFrames (s : State) : List (Nat × Nat) := (cxlRanges s).map fun e => (e.1 / 2 ^ 29, e.2.1 / 2 ^ 29)
/-- The port behind which the CXL memory of a location lies (R365). -/
def cxlPort (s : State) (a : Nat) : Option (Fin 8) :=
  ((cxlRanges s).find? fun e => 0x400000000000 + e.1 ≤ a && a < 0x400000000000 + e.2.1).map (·.2.2)

/-- A DPA that memory backs: CXL memory only as far as it is mapped (R230, R365). -/
def backed (s : State) (a : Nat) : Bool :=
  match dpaTier a with
  | some 2 => (cxlPort s a).isSome
  | some _ => true
  | none => false

/-! ## Cores -/

def getCore (s : State) (g : Nat) : Core := (look s.cores g).getD (freshCore g)
def setCore (s : State) (g : Nat) (c : Core) : State := { s with cores := place s.cores g c }

def fusedOf (s : State) (g : Nat) : Byte := (look s.fused g).getD Config.fusedCode
def curOf (s : State) (g : Nat) : Byte := (look s.cur g).getD (fusedOf s g)
/-- The code at which the core runs now, `%speed` (R21). -/
def speedOf (s : State) (g : Nat) : Byte := (look s.clock g).getD (curOf s g)
/-- Not absent (R24). -/
def present (s : State) (g : Nat) : Bool := g < Config.cores && curOf s g != 0
/-- The clock of a code in MHz (R19). -/
def mhz (code : Nat) : Nat := 800 + 25 * (code - 1)
def isStewardCluster (s : State) (cl : Nat) : Bool := s.mask.contains cl

/-- `%cyc` of a core. -/
def cycOf (s : State) (g : Nat) : Nat := (getCore s g).cyc

def fibreInfo (s : State) (g f : Nat) : Option FibreInfo := look (getCore s g).fibres f
def setFibreInfo (s : State) (g f : Nat) (i : FibreInfo) : State :=
  let c := getCore s g
  setCore s g { c with fibres := place c.fibres f i }

/-- The slot that holds fibre f of core g. -/
def slotOfFibre (s : State) (g f : Nat) : Option (Fin 16) :=
  (List.finRange 16).find? fun k =>
    let sl := (getCore s g).slots[k]
    sl.bound && (if s.focus = (g, k) then s.fib.fibre.toNat else sl.ctx.fibre.toNat) % 4096 == f

/-- The context in slot k of core g (State.fib when the slot is in focus). -/
def getCtx (s : State) (g : Nat) (k : Fin 16) : Fib := if s.focus = (g, k) then s.fib else (getCore s g).slots[k].ctx
def setCtx (s : State) (g : Nat) (k : Fin 16) (f : Fib) : State :=
  if s.focus = (g, k) then { s with fib := f }
  else
    let c := getCore s g
    setCore s g { c with slots := c.slots.set k { c.slots[k] with ctx := f } }

/-- Bring slot k of core g into focus: `State.fib` becomes its context. -/
def setFocus (s : State) (g : Nat) (k : Fin 16) : State :=
  if s.focus = (g, k) then s
  else
    let c0 := getCore s s.focus.1
    let s1 := setCore s s.focus.1 { c0 with slots := c0.slots.set s.focus.2 { c0.slots[s.focus.2] with ctx := s.fib } }
    let c1 := getCore s1 g
    { setCore s1 g { c1 with slots := c1.slots.set k { c1.slots[k] with ctx := {} } } with focus := (g, k), fib := c1.slots[k].ctx }

/-! ## Poison -/

def wordOf (a : Nat) : Nat := a / 8 * 8
def isToxic (s : State) (a : Nat) : Bool := s.poison.contains (wordOf a)
def setToxic (s : State) (a : Nat) : State := if isToxic s a then s else { s with poison := s.poison ++ [wordOf a] }
def clearToxic (s : State) (a : Nat) : State := { s with poison := s.poison.filter (· != wordOf a) }

/-- The word at w lies whole in the n bytes from location a. -/
def coversWord (a n w : Nat) : Bool := a ≤ w && w + 8 ≤ a + n

/-- A store at its serialiser: the bytes land, a word wholly covered is cleared of poison and of a single-bit error, and a poisoned word
that the store covers in part stays poisoned and keeps its bytes (R82). -/
def storeBytes (s : State) (a : Nat) (bs : List Byte) : State :=
  writeBytes { s with poison := s.poison.filter (fun w => !coversWord a bs.length w)
                      latent := s.latent.filter (fun w => !coversWord a bs.length w) } a bs

/-- First offset below n at which a poisoned word lies, from location a. -/
def toxicIn (s : State) (a n : Nat) : Option Nat :=
  if s.poison.isEmpty then none else leastBelow n fun i => isToxic s (a + i)

/-! ## Error counters -/

/-- Add n to a saturating 64-bit counter at a location. -/
def bumpAt (s : State) (a n : Nat) : State := writeNat s a 8 (min (readNat s a 8 + n) (2 ^ 64 - 1))
/-- Counter off of compute die d (R145). -/
def bumpDie (s : State) (d off n : Nat) : State := bumpAt s (swLoc (0x200000 + 256 * d + off)) n
/-- Counter off of I/O die i (R373). -/
def bumpIo (s : State) (i off n : Nat) : State := bumpAt s (swLoc (0x203000 + 256 * i + off)) n

/-- The I/O die that attaches the LPDDR6 quarter of a DPA, and the die of an HBM4 stack: interleaved at 4 KiB (R12). Which quarter or
stack a block lies in is open: block k of 4 KiB lies in quarter k mod 4, or in stack k mod 32, two stacks to a die in die order. DESIGN
CHOICE (log 69). -/
def lpddrDie (a : Nat) : Nat := a / 4096 % 4
def hbmDie (a : Nat) : Nat :=
  let d := a / 4096 % 32 / 2
  if d < 8 then d else d + 32

/-- A stack or quarter counts an error of its memory at location a: corrected or poisoned (R145, R373). -/
def countMemError (s : State) (a : Nat) (poisoned : Bool) : State :=
  if isSpad a then bumpDie s (dieOf (homeOf a)) (if poisoned then 0x08 else 0x00) 1
  else match dpaTier a with
    | some 0 => bumpDie s (hbmDie a) (if poisoned then 0x40 else 0x38) 1
    | some 1 => bumpIo s (lpddrDie a) (if poisoned then 0x08 else 0x00) 1
    | _ => s

/-- The device reads the words that p picks: the single-bit errors in them are corrected and counted (R82). -/
def correctWords (s : State) (p : Nat → Bool) : State :=
  let hit := s.latent.filter p
  if hit.isEmpty then s else
    hit.foldl (fun t w => countMemError t w false) { s with latent := s.latent.filter fun w => !hit.contains w }
/-- The word at w and the n bytes from location a share a byte. -/
def meetsWord (a n w : Nat) : Bool := a < w + 8 && w < a + n && 0 < n
/-- The device reads n bytes of a scratchpad from location a. -/
def correctRead (s : State) (a n : Nat) : State := correctWords s (meetsWord a n)

/-! ## References -/

/-- A counter reference (R296): the location it names, when it is valid; its reserved bits are ignored (R7). -/
def counterRef (s : State) (r : Word) : Option Nat :=
  let cl := bitsOf r 25 13
  let addr := bitsOf r 0 25
  if bitsOf r 47 1 = 1 ∧ cl < Config.clusters ∧ addr % 8 = 0 ∧ addr < Config.clusterBytes
      ∧ isStewardCluster s cl = false ∧ present s (cl * 192 + addr / Config.spadBytes) = true then
    some (clusterLoc cl addr)
  else none

/-- The next free value (log 8), a byte. -/
def freshByte (s : State) : Byte × State := (Config.freeByte s.free, { s with free := s.free + 1 })
def freshBytes (s : State) : Nat → List Byte × State
  | 0 => ([], s)
  | n + 1 =>
    let r := freshBytes { s with free := s.free + 1 } n
    (Config.freeByte s.free :: r.1, r.2)

end Sys2Proof.Machine
end

