-- ==== Sys2Proof/Machine/Home.lean ====
section
/-!
DEFINITION. Counter homes (R95-R108): values and thresholds, the waiter table and polls, wakes, straggler records, adds and plain
stores at the home, and the interrupts of the notify table (R364).
-/
namespace Sys2Proof.Machine

/-! ## Links, as far as the notify table needs them -/

def getLink (s : State) (id : LinkId) : Link := (s.links.find? fun l => l.id == id).getD { id := id }
def setLink (s : State) (l : Link) : State := { s with links := s.links.filter (fun k => k.id != l.id) ++ [l] }
def linkUp (s : State) (id : LinkId) : Bool := (getLink s id).state == 2
/-- The port whose role is host endpoint (R18). -/
def hostPort (s : State) : Option (Fin 8) := (s.roles.find? fun r => r.2 == 1).map (·.1)
def hostUp (s : State) : Bool := match hostPort s with
  | some p => linkUp s (.port p)
  | none => false

/-- Send n MSI-X messages of vector v, or set its pending bit when it is masked or the port is not up (R364). -/
def sendMsix (s : State) (v n : Nat) : State :=
  if s.mask64.contains v || !hostUp s then (if s.pend64.contains v then s else { s with pend64 := s.pend64 ++ [v] })
  else { s with out := s.out ++ List.replicate n (.msix v) }

/-! ## Values -/

/-- R99. -/
def reached (v t : Word) : Bool := (v - t).toNat < 2 ^ 63

/-! ## Straggler records (R108) -/

def stragOf (s : State) (a : Nat) : Option Strag := s.strag.find? fun r => r.loc == a

/-- Keep at most 16 records of one home, dropping the one whose last change is oldest. -/
def trimStrag (l : List Strag) (g : Nat) : List Strag :=
  let mine := l.filter fun r => homeOf r.loc == g
  if mine.length > 16 then
    match mine with
    | r :: _ => l.filter fun x => x.loc != r.loc
    | [] => l
  else l

/-- A waiter enrols on word a: allocate a record if there is none. -/
def allocStrag (s : State) (a : Nat) : State :=
  match stragOf s a with
  | some _ => s
  | none => { s with strag := trimStrag (s.strag ++ [{ loc := a, start := cycOf s (homeOf a) }]) (homeOf a) }

/-- The first add after a completion sets START, which is a change of the record. -/
def startStrag (s : State) (a : Nat) : State :=
  match stragOf s a with
  | some r => if r.fresh then
      { s with strag := s.strag.filter (fun x => x.loc != a) ++ [{ r with fresh := false, start := cycOf s (homeOf a) }] } else s
  | none => s

/-- A completion: the record takes the adder, the threshold and the spread, and becomes the latest changed. -/
def completeStrag (s : State) (a : Nat) (who : Adder) (thr : Word) : State :=
  match stragOf s a with
  | none => s
  | some r => { s with strag := s.strag.filter (fun x => x.loc != a) ++
      [{ r with valid := true, fresh := true, who := who, thr := thr, spread := min (cycOf s (homeOf a) - r.start) (2 ^ 28 - 1) }] }

/-! ## Waiters -/

/-- Entries of a home's waiter table in use (R100). -/
def tableUse (s : State) (g : Nat) : Nat := (s.enrol.filter fun e => !e.poll && homeOf e.loc == g).length

/-- Enrol a waiter, or make it poll when the table of 64 is full (R100, R101). A fibre's and a device waiter's enrolment allocates the
word's straggler record; a poll does not. -/
def enrolWaiter (s : State) (who : Waiter) (a : Nat) (thr : Word) : State :=
  if tableUse s (homeOf a) < 64 then allocStrag { s with enrol := s.enrol ++ [{ who := who, loc := a, thr := thr }] } a
  else { s with enrol := s.enrol ++ [{ who := who, loc := a, thr := thr, poll := true }] }

def removeWaiter (s : State) (who : Waiter) : State := { s with enrol := s.enrol.filter fun e => e.who != who }

/-- Offset of entry v of the notify table (R364). -/
def irqLoc (v : Nat) : Nat := swLoc (0x17001000 + 32 * v)

/-- The notify table's entry v finds its counter at x: one interrupt for each STEP reached; then it waits for the next (R364). -/
def fireIrq (s : State) (v : Nat) (x : Word) : State :=
  let next := readWord s (irqLoc v + 8)
  let step := (readWord s (irqLoc v + 16)).toNat
  let n := if step = 0 then 1 else (x - next).toNat / step + 1
  let s1 := writeWord s (irqLoc v + 8) (next + w64 (n * step))
  let s2 := sendMsix s1 v n
  match counterRef s2 (readWord s2 (irqLoc v)) with
  | some a => if step = 0 then s2 else enrolWaiter s2 (.irq v) a (next + w64 (n * step))
  | none => s2

/-- Send the wake of one waiter: with the value, or without one when the word is poisoned (R100, R102, R106). -/
def wakeOne (s : State) (e : Enrol) (v : Option Word) : State :=
  match e.who with
  | .fibre g f =>
      let faulted := match fibreInfo s g f with
        | some i => i.ticket.isSome
        | none => false
      { s with wakes := s.wakes ++ [(g, f, if faulted then .replay else match v with
        | some x => .value x
        | none => .poison)] }
  | .getter g f => { s with wakes := s.wakes ++ [(g, f, match v with
        | some x => .value x
        | none => .poison)] }
  | .irq n => match v with
      | some x => fireIrq s n x
      | none => enrolWaiter s e.who e.loc e.thr
  | .notify _ | .gate _ | .proxy _ _ => { s with fired := s.fired ++ [(e.who, v)] }

def isGetter : Waiter → Bool
  | .getter _ _ => true
  | _ => false

/-- After an event leaves v in word a: wake the enrolled waiters whose threshold is reached, in order; a completion is recorded (R100,
R108). -/
def testWaiters (s : State) (a : Nat) (v : Word) (who : Adder) : State :=
  let hit := fun (e : Enrol) => e.loc == a && !e.poll && !isGetter e.who && reached v e.thr
  match s.enrol.filter hit with
  | [] => s
  | e :: es =>
      let s1 := completeStrag { s with enrol := s.enrol.filter fun x => !hit x } a who e.thr
      (e :: es).foldl (fun t x => wakeOne t x (some v)) s1

/-- A word is the wake counter of some core (R241). -/
def isWakeCtr (a : Nat) : Bool := isSpad a && (a - Config.spadBase) % Config.spadBytes == 0x1FFF0

/-- An event finds word a poisoned: every waiter on it wakes without a value (R106); a core's wake counter is rewritten with the fault
sequence number instead and its waiters go on (R396). -/
def poisonEvent (s : State) (a : Nat) : State :=
  let on := s.enrol.filter fun e => e.loc == a
  let s0 := { s with enrol := s.enrol.filter fun e => e.loc != a }
  if isWakeCtr a then
    let g := homeOf a
    let seq := w64 (getCore s g).faultSeq
    let s1 := bumpDie (writeWord (clearToxic s0 a) a seq) (dieOf g) 0x08 1
    on.foldl (fun t e => wakeOne t e (some seq)) s1
  else on.foldl (fun t e => wakeOne t e none) s0

/-- The straggler mark, the new value, the waiters (R108, R98, R100). -/
def setCounter (s : State) (a : Nat) (v : Word) (who : Adder) : State := testWaiters (writeWord (startStrag s a) a v) a v who

/-- A posted add at the home (R98, R106, R111). -/
def addAt (s0 : State) (a : Nat) (inc : Word) (who : Adder) : State :=
  let s := correctRead s0 a 8
  if isToxic s a then bumpDie (poisonEvent s a) (dieOf (homeOf a)) 0x30 1
  else setCounter s a (readWord s a + inc) who

/-- A read or a test of the device finds word a: its value, or none when it is poisoned, which wakes its waiters (R106). -/
def readCounter (s0 : State) (a : Nat) : Option Word × State :=
  let s := correctRead s0 a 8
  if isToxic s a then (none, poisonEvent s a) else (some (readWord s a), s)

/-- Close every entry of the store buffer of core g (R120). -/
def closeEntries (s : State) (g : Nat) : State :=
  let c := getCore s g
  if c.sb.isEmpty then s else setCore s g { c with sb := c.sb.map fun e => { e with closed := true } }

/-- A release add of the device on behalf of core g begins: the buffer's entries are closed, and the add waits for them at scope sc (R120). -/
def beginRelease (s : State) (g sc : Nat) (loc : Option Nat) (inc : Word) (who : Adder) (ends : Bool) : State :=
  let t := closeEntries s g
  { t with rels := t.rels ++ [{ g := g, sc := sc, upto := ⟨(getCore s g).sbSeq, s.accepts⟩, loc := loc, inc := inc, who := who, ends := ends }] }

/-- Words of 8 bytes that n bytes from location a touch. -/
def wordsOf (a n : Nat) : List Nat :=
  if n = 0 then [] else (List.range ((a + n - 1) / 8 - a / 8 + 1)).map fun i => wordOf a + 8 * i

/-- A store leaves word w poisoned: its waiters wake, and a wake counter is rewritten whether or not one waits (R105, R106, R396). -/
def leftToxic (s : State) (w : Nat) : State := if isWakeCtr w || s.enrol.any (fun e => e.loc == w) then poisonEvent s w else s

/-- The home reads a word to test those who wait at it (R82, R100). -/
def seeWaited (s : State) (w : Nat) : State := if s.enrol.any (fun e => e.loc == w) then correctRead s w 8 else s

/-- A plain store, an engine's or a window's write arrives at the serialiser of location a; a word with waiters takes it as an event in
counter order (R96, R105, R117). -/
def storeAt (s : State) (a : Nat) (bs : List Byte) (who : Adder) : State :=
  let s1 := storeBytes s a bs
  if isSpad a then
    (wordsOf a bs.length).foldl (fun t w =>
      if isToxic t w then leftToxic t w
      else testWaiters (seeWaited t w) w (readWord t w) who) s1
  else s1

/-- Write n bytes as poison (R82, R361). -/
def poisonRange (s : State) (a n : Nat) : State :=
  let s1 := (wordsOf a n).foldl setToxic s
  if isSpad a then (wordsOf a n).foldl leftToxic s1 else s1

/-- Posted adds of core g to home h that are still on their way, applied in order (R96: one core's counter instructions on one home
take their places in the order of issue). -/
def flushMsgs (s : State) (g h : Nat) : State :=
  let mine := s.msgs.filter fun m => m.src == g && homeOf m.loc == h
  mine.foldl (fun t m => addAt t m.loc m.inc m.who) { s with msgs := s.msgs.filter fun m => !(m.src == g && homeOf m.loc == h) }

end Sys2Proof.Machine
end

