-- ==== Sys2Proof/Machine/Flits.lean ====
section
/-!
DEFINITION. What leaves over a Welt link (R367, R368): the check word, flits, messages and the replay buffer that keeps their flits.
-/
namespace Sys2Proof.Machine

/-! ## Flits (R367) -/

/-- CRC-64 with the ECMA-182 polynomial, most significant bit first, from 0 (log 11). -/
def crcBit (c : Word) : Word := if c.msb then (c <<< 1) ^^^ 0x42F0E1EBA9EA3693 else c <<< 1
def crcByte (c : Word) (b : Byte) : Word :=
  let x := c ^^^ (b.zeroExtend 64 <<< 56)
  crcBit (crcBit (crcBit (crcBit (crcBit (crcBit (crcBit (crcBit x)))))))
def crc64 (l : List Byte) : Word := l.foldl crcByte 0

/-- A flit of 256 bytes: SEQ, ACK, TYPE, seven zero bytes, the payload, and the CRC over them. -/
def flitBytes (seq ack kind : Nat) (payload : List Byte) : List Byte :=
  let b := bytesOf 4 seq ++ bytesOf 4 ack ++ bytesOf 8 kind ++ payload
  b ++ bytesOf 8 (crc64 b).toNat

/-- The ACK that a link sends: the highest SEQ received in order. -/
def ackOf (l : Link) : Nat := (l.rxSeq + 2 ^ 32 - 1) % 2 ^ 32
/-- A data flit as it leaves, now or in a replay. -/
def outFlit (l : Link) (w : Fin 16) (f : SentFlit) : Out := .flit w.val (flitBytes f.seq (ackOf l) 1 f.bytes)

/-! ## Messages (R367, R368) -/

/-- A message with n data bytes takes whole flits of 232 payload bytes (log 11). -/
def flitsOf (n : Nat) : Nat := max 1 (ceilDiv n 232)

/-- A message leaves in data flits, which the replay buffer keeps; none while the buffer lacks room, an earlier one is still leaving, or the
link retrains. Of one longer than the buffer as many flits leave as it holds, and the rest follow. What the payload holds is free (log 11):
kind 0 a write, 1 a write of poison, 2 a read request, 3 a reply, 4 one with poison, 5 one that refuses. -/
def sendMsg (s : State) (w : Fin 16) (kind win off : Nat) (d : List Byte) (o : Out) : Option State :=
  let l := getLink s (.welt w)
  let n := flitsOf d.length
  if l.state = 3 ∨ l.backlog ≠ [] ∨ l.replay.length + min n 2048 > 2048 then none else
  let fs : List SentFlit := (List.range n).map fun i =>
    { seq := (l.txSeq + i) % 2 ^ 32, bytes := (List.range 232).map fun j => Config.weltByte kind win off d (232 * i + j) }
  let now := fs.take (2048 - l.replay.length)
  some { setLink s { l with txSeq := (l.txSeq + n) % 2 ^ 32, replay := l.replay ++ now, backlog := fs.drop now.length } with
         out := s.out ++ [o] ++ now.map (outFlit l w) }

/-- The flits that wait for room follow as far as the replay buffer takes them (R368). -/
def sendBacklog (s : State) (w : Fin 16) : State :=
  let l := getLink s (.welt w)
  let now := l.backlog.take (2048 - l.replay.length)
  if now.isEmpty then s else
  { setLink s { l with replay := l.replay ++ now, backlog := l.backlog.drop now.length } with out := s.out ++ now.map (outFlit l w) }

/-- How many of n bytes at offset `addr` of the link's aperture one message takes: no more than `most`, in one window. -/
def weltCut (most addr n : Nat) : Nat := min (min n most) (2 ^ 32 - addr % 2 ^ 32)

/-- A write leaves over a Welt link in messages of at most 4,096 bytes, each in one window; all of them, or none. -/
def sendWrites (kind : Nat) (w : Fin 16) : Nat → Nat → List Byte → State → Option State
  | 0, _, _, s => some s
  | fuel + 1, addr, d, s =>
    if d.isEmpty then some s else
    let n := weltCut 4096 addr d.length
    let o := if kind = 1 then Out.poison (.welt w) addr n else .store (.welt w) addr (d.take n)
    (sendMsg s w kind (addr / 2 ^ 32) (addr % 2 ^ 32) (d.take n) o).bind (sendWrites kind w fuel (addr + n) (d.drop n))
def sendWelt (s : State) (w : Fin 16) (addr : Nat) (d : List Byte) : Option State := sendWrites 0 w (d.length / 4096 + 2) addr d s

/-- A read leaves as a request to each window that it touches. -/
def sendReads (w : Fin 16) : Nat → Nat → Nat → State → Option State
  | 0, _, _, s => some s
  | fuel + 1, addr, n, s =>
    if n = 0 then some s else
    let m := weltCut n addr n
    (sendMsg s w 2 (addr / 2 ^ 32) (addr % 2 ^ 32) (bytesOf 8 m) (.ask (.welt w) addr m)).bind (sendReads w fuel (addr + m) (n - m))

end Sys2Proof.Machine
end

