-- ==== Sys2Proof/Machine/Frames.lean ====
section
/-!
DEFINITION. The frame area of a pinned context (R249-R259): headers, frame records, holds, freeing, and the stream-context table (R252).
-/
namespace Sys2Proof.Machine

/-- Location of the stream-context entry of handle h (R252). -/
def sctLoc (h : Word) : Nat := swLoc (0x14000000 + 64 * (bitsOf h 24 20 % 65536))
def sctState (s : State) (h : Word) : Nat := readNat s (sctLoc h + 0x0E) 1
def sctHandle (s : State) (h : Word) : Word := readWord s (sctLoc h)
/-- Location of the pinned image that entry h names. -/
def sctBase (s : State) (h : Word) : Nat :=
  clusterLoc (readNat s (sctLoc h + 0x0C) 2 % 8192) (readNat s (sctLoc h + 0x08) 4 % 2 ^ 25)

/-- Location of the frame area of context h, when it is pinned and neither cooling nor evicting (R254). -/
def pinnedAt (s : State) (h : Word) : Option Nat :=
  if h ≠ 0 ∧ sctState s h = 1 ∧ sctHandle s h = h then some (sctBase s h) else none

/-- Location of frame record n of the frame area at base. -/
def frameLoc (base n : Nat) : Nat := base + 128 * n

def frParent (s : State) (b n : Nat) : Nat := readNat s (frameLoc b n) 1
def frLive (s : State) (b n : Nat) : Bool := readNat s (frameLoc b n + 1) 1 == 1
def frFlags (s : State) (b n : Nat) : Nat := readNat s (frameLoc b n + 2) 1
def frDepth (s : State) (b n : Nat) : Nat := readNat s (frameLoc b n + 3) 1
def fr24 (s : State) (b n off : Nat) : Nat := readNat s (frameLoc b n + off) 3
def frFirst (s : State) (b n : Nat) : Nat := fr24 s b n 0x04
def frLen (s : State) (b n : Nat) : Nat := fr24 s b n 0x08
def frCap (s : State) (b n : Nat) : Nat := fr24 s b n 0x0C
def frMark (s : State) (b n : Nat) : Nat := fr24 s b n 0x10
def frSlot0 (s : State) (b n : Nat) : Nat := fr24 s b n 0x14
def frKvh (s : State) (b n : Nat) : Word := readWord s (frameLoc b n + 0x18)
def frLaneh (s : State) (b n : Nat) : Word := readWord s (frameLoc b n + 0x20)
def frHolds (s : State) (b n : Nat) : Word := readWord s (frameLoc b n + 0x28)
def frRels (s : State) (b n : Nat) : Word := readWord s (frameLoc b n + 0x30)
def frNarg (s : State) (b n : Nat) : Nat := readNat s (frameLoc b n + 0x3C) 1
def frKeep (s : State) (b n : Nat) : Nat := readNat s (frameLoc b n + 0x3E) 2
/-- Argument span k of frame n: frame, start, length. -/
def frArg (s : State) (b n k : Nat) : Nat × Nat × Nat :=
  let w := readWord s (frameLoc b n + 0x40 + 8 * k)
  (bitsOf w 0 7, bitsOf w 8 24, bitsOf w 32 24)

/-- Header fields (R250). -/
def hdRoot (s : State) (b : Nat) : Nat := readNat s (b + 0x18) 1
def hdSct (s : State) (b : Nat) : Word := readWord s b
def hdKvh (s : State) (b : Nat) : Word := readWord s (b + 8)
def hdLaneh (s : State) (b : Nat) : Word := readWord s (b + 16)

/-- Take a hold on frame n (R257). -/
def takeHold (s : State) (b n : Nat) (who : Adder) : State := addAt s (frameLoc b n + 0x28) 1 who

/-- Release one hold on each frame of the list in turn; a frame whose last hold goes is freed before the next (R257, R259). -/
def releaseAll (who : Adder) (b : Nat) : Nat → List Nat → State → State
  | 0, _, s => s
  | _, [], s => s
  | fuel + 1, n :: ns, s =>
    let last := frRels s b n + 1 == frHolds s b n
    let s1 := addAt s (frameLoc b n + 0x30) 1 who
    if last then
      let args := (List.range (min (frNarg s b n) 4)).map fun k => (frArg s b n k).1
      let up := if frParent s b n = 0 then [] else [frParent s b n]
      releaseAll who b fuel (args ++ up ++ ns) (writeBytes s1 (frameLoc b n) (List.replicate 128 0))
    else releaseAll who b fuel ns s1

/-- The frames whose records the same releases read, in order. -/
def releaseReads (who : Adder) (b : Nat) : Nat → List Nat → State → List Nat
  | 0, _, _ => []
  | _, [], _ => []
  | fuel + 1, n :: ns, s =>
    let last := frRels s b n + 1 == frHolds s b n
    let s1 := addAt s (frameLoc b n + 0x30) 1 who
    if last then
      let args := (List.range (min (frNarg s b n) 4)).map fun k => (frArg s b n k).1
      let up := if frParent s b n = 0 then [] else [frParent s b n]
      n :: releaseReads who b fuel (args ++ up ++ ns) (writeBytes s1 (frameLoc b n) (List.replicate 128 0))
    else n :: releaseReads who b fuel ns s1

def releaseHold (s : State) (b n : Nat) (who : Adder) : State := releaseAll who b 1024 [n] s

/-- The frames of a stack from frame n to its root. -/
def stackOf (s : State) (b : Nat) : Nat → Nat → List Nat
  | 0, _ => []
  | fuel + 1, n => if n = 0 then [] else n :: stackOf s b fuel (frParent s b n)

/-- Release the stack holds of a fibre that ends: each frame from its `%fp` to its root (R330). -/
def releaseStack (s : State) (b fp : Nat) (who : Adder) : State :=
  (stackOf s b 64 fp).foldl (fun t n => releaseHold t b n who) s

end Sys2Proof.Machine
end

