-- ==== Sys2Proof/Machine/Fibre.lean ====
section
/-!
DEFINITION. Fibre records and the scheduler's work on them (R52-R62): writing and reading a record, unbinding, enlisting, binding, wakes,
freeing; handles and frames as far as records need them (R224, R246).
-/
namespace Sys2Proof.Machine

/-! ## Handle table and frame pools -/

def handleLoc (n : Nat) : Nat := swLoc (0x10000000 + 32 * n)
def hState (s : State) (n : Nat) : Nat := readNat s (handleLoc n + 0x17) 1
def hLive (s : State) (n : Nat) : Bool := hState s n ≥ 128
def hKind (s : State) (n : Nat) : Nat := hState s n % 8
def hGen (s : State) (n : Nat) : Nat := readNat s (handleLoc n + 0x16) 1
def hTenant (s : State) (n : Nat) : Nat := readNat s (handleLoc n + 0x14) 2 % 4096
def hBound (s : State) (n : Nat) : Nat := readNat s (handleLoc n + 0x10) 4 % 2 ^ 24
def hCur (s : State) (n : Nat) : Word := readWord s (handleLoc n)
def hShd (s : State) (n : Nat) : Word := readWord s (handleLoc n + 8)

/-- The first free entry that follows n cyclically over 1 to 1,048,575 (R224). -/
def nextFree (s : State) : Nat → Nat → Option Nat
  | 0, _ => none
  | fuel + 1, n =>
    let m := if n + 1 ≥ 1048576 then 1 else n + 1
    if hLive s m then nextFree s fuel m else some m

/-- Allocate a handle-table entry as one event (R224, R227); the zero handle when none is free. -/
def allocHandle (s : State) (kind : Nat) (cur shd : Word) (bound tenant owner : Nat) : Word × State :=
  match nextFree s 1048575 s.lastHandle with
  | none => (0, s)
  | some n =>
    let gen := hGen s n
    let b := bytesOf 8 cur.toNat ++ bytesOf 8 shd.toNat ++ bytesOf 4 bound ++ bytesOf 2 tenant ++ bytesOf 1 gen ++ bytesOf 1 (128 + kind)
      ++ bytesOf 4 owner
    (w64 (tenant * 2 ^ 52 + gen * 2 ^ 44 + n * 2 ^ 24 + bound), { storeBytes s (handleLoc n) b with lastHandle := n })

/-- `hfree` of entry n: LIVE := 0, GEN + 1 (R224). -/
def freeHandle (s : State) (n : Nat) : State :=
  writeNat (writeNat s (handleLoc n + 0x16) 1 ((hGen s n + 1) % 256)) (handleLoc n + 0x17) 1 (hState s n % 128)

/-- DPA of 64 KiB or 512 MiB frame i of a tier: of tier 3, the slot times 65,536 (R230, R246). -/
def frameDpa (tier i : Nat) (big : Bool) : Nat :=
  (if tier = 0 then 0 else if tier = 1 then 0x040000000000 else if tier = 2 then 0x400000000000 else 0) + i * (if big then 2 ^ 29 else 2 ^ 16)

/-- Pool of a tier: 64 KiB frames, or 512 MiB frames. -/
def poolIdx (tier : Fin 4) (big : Bool) : Fin 8 := if big then ⟨4 + tier.val, by omega⟩ else ⟨tier.val, by omega⟩

def popFrame (s : State) (tier : Fin 4) (big : Bool) : Option Nat × State :=
  let p := s.pools[poolIdx tier big]
  match p.back with
  | f :: r => (some f, { s with pools := s.pools.set (poolIdx tier big) { p with back := r } })
  | [] => match p.fresh with
      | (lo, hi) :: r =>
        (some (frameDpa tier lo big), { s with pools := s.pools.set (poolIdx tier big) { p with fresh := if lo + 1 < hi then (lo + 1, hi) :: r else r } })
      | [] => (none, s)

def pushFrame (s : State) (tier : Fin 4) (big : Bool) (frame : Nat) : State :=
  let p := s.pools[poolIdx tier big]
  { s with pools := s.pools.set (poolIdx tier big) { p with back := frame :: p.back } }

def poolCount (s : State) (tier : Fin 4) (big : Bool) : Nat :=
  let p := s.pools[poolIdx tier big]
  p.fresh.foldl (fun n e => n + (e.2 - e.1)) p.back.length

/-! ## The record (R57, R58, R94, R186) -/

def stateCode : FState → Nat
  | .ready => 1 | .bound => 2 | .swapped => 5 | .faulted => 6 | .done => 7

def segBytes (g : Seg) : List Byte :=
  bytesOf 8 g.base.toNat ++ bytesOf 6 g.limit.toNat ++ bytesOf 2 (g.cls.toNat * 2 ^ 14 + g.rights.toNat)

def streamBytes (r : Stream) : List Byte :=
  if r.armed then
    bytesOf 8 (2 ^ 63 + (if r.isV then 2 ^ 62 else 0) + (if r.out then 2 ^ 61 else 0) + r.dseg.val * 2 ^ 58 + r.pseg.val * 2 ^ 55 + r.index.toNat)
      ++ bytesOf 8 r.poff.toNat
  else List.replicate 16 0

def laneBytes (v : VReg) : List Byte := v.toList.flatMap fun l => bytesOf 4 l.toNat

/-- Registers of a claim mask in ascending number. -/
def claimed (n mask : Nat) : List Nat := (List.range n).filter fun k => mask / 2 ^ k % 2 == 1

def identWord (f : Fib) (st : Nat) : Nat :=
  st * 2 ^ 28 + (if f.steward then 2 ^ 27 else 0) + f.stage.toNat * 2 ^ 24 + f.queue.toNat * 2 ^ 12 + f.tenant.toNat

def claimWord (f : Fib) (woken : Bool) : Nat :=
  (if f.pend.isSome then 2 ^ 29 else 0) + (if woken then 2 ^ 28 else 0) + f.tcause.toNat * 2 ^ 20 + f.fdlimit.toNat * 2 ^ 14
    + f.fdepth.toNat * 2 ^ 8 + f.aclaim.toNat

/-- The record of a context, STATE given, with the tiles and accumulators of its core. -/
def recordBytes (c : Core) (f : Fib) (st : Nat) : List Byte :=
  bytesOf 8 f.pc.toNat ++ bytesOf 8 f.waddr.toNat ++ bytesOf 8 f.wthr.toNat ++ bytesOf 8 f.tvec.toNat ++ bytesOf 8 f.tpc.toNat
    ++ bytesOf 8 f.taddr.toNat ++ bytesOf 8 f.ctx.toNat ++ bytesOf 8 f.fp.toNat ++ bytesOf 8 f.rope.toNat
    ++ bytesOf 8 ((f.hstep.toNat * 256 + f.step.toNat) * 2 ^ 48 + f.budget.toNat)
    ++ bytesOf 4 f.fibre.toNat ++ bytesOf 4 f.tclaim.toNat ++ bytesOf 4 (identWord f st) ++ bytesOf 4 (claimWord f false)
    ++ (List.finRange 32).flatMap (fun k => bytesOf 2 (f.tshape[k].toNat + if k.val < 8 ∧ f.sat.toNat / 2 ^ k.val % 2 = 1 then 2 ^ 15 else 0))
    ++ f.streams.toList.flatMap streamBytes ++ f.seg.toList.flatMap segBytes
    ++ f.la.toList.flatMap (fun w => bytesOf 8 w.toNat) ++ f.s.toList.flatMap (fun w => bytesOf 8 w.toNat)
    ++ f.x.toList.flatMap (fun w => bytesOf 8 w.toNat) ++ f.v.toList.flatMap laneBytes
    ++ (claimed 32 f.tclaim.toNat).flatMap (fun k => bytesOf 512 (c.tiles[Fin.ofNat 32 k]).toNat)
    ++ (claimed 8 f.aclaim.toNat).flatMap (fun n => (c.accs[Fin.ofNat 8 n]).toList.flatMap fun w => bytesOf 8 w.toNat)

/-- Where the record of f holds a register, for poison: specifier, or 0x100 + tile, or 0x200 + accumulator. -/
def recordSpan (f : Fib) (code : Nat) : Nat × Nat :=
  if code < 4 then (0x160 + 8 * code, 8) else if code < 0x20 then (0x180 + 8 * (code - 0x10), 8)
  else if code < 0x30 then (0x400 + 64 * (code - 0x20), 64) else if code < 0x80 then (0x200 + 8 * (code - 0x40), 8)
  else
    let t := claimed 32 f.tclaim.toNat
    if code < 0x200 then (0x800 + 512 * (t.findIdx (· == code - 0x100)), 512)
    else (0x800 + 512 * (t.length + (claimed 8 f.aclaim.toNat).findIdx (· == code - 0x200)), 512)

/-- Write the record of context f at loc; poisoned registers leave poisoned words (R57, R59, R144). -/
def writeRecord (s : State) (c : Core) (f : Fib) (loc st : Nat) : State :=
  let s1 := storeBytes s loc (recordBytes c f st)
  f.poison.foldl (fun t code =>
    let sp := recordSpan f code
    (List.range (sp.2 / 8)).foldl (fun u i => setToxic u (loc + sp.1 + 8 * i)) t) s1

/-- Write STATE of a record, and WOKEN. -/
def writeState (s : State) (loc st : Nat) : State :=
  writeNat s (loc + 0x5B) 1 (readNat s (loc + 0x5B) 1 % 16 + st * 16)
def writeWoken (s : State) (loc : Nat) (w : Bool) : State :=
  let v := readNat s (loc + 0x5C) 4
  writeNat s (loc + 0x5C) 4 (v - (if v / 2 ^ 28 % 2 = 1 then 2 ^ 28 else 0) + if w then 2 ^ 28 else 0)

def segFrom (b : List Byte) : Seg :=
  let r := natOf (b.drop 14 |>.take 2)
  { base := w64 (natOf (b.take 8)), limit := BitVec.ofNat 48 (natOf (b.drop 8 |>.take 6)), cls := BitVec.ofNat 2 (r / 2 ^ 14), rights := BitVec.ofNat 5 r }

def streamFrom (b : List Byte) : Stream :=
  let w := natOf (b.take 8)
  let o := natOf (b.drop 8 |>.take 8)
  if w / 2 ^ 63 % 2 = 1 then
    { armed := true, isV := w / 2 ^ 62 % 2 = 1, out := w / 2 ^ 61 % 2 = 1, dseg := Fin.ofNat 8 (w / 2 ^ 58), pseg := Fin.ofNat 8 (w / 2 ^ 55)
      index := BitVec.ofNat 48 w, poff := BitVec.ofNat 48 o, again := true }
  else {}

def vregFrom (b : List Byte) : VReg := vecOf fun k : Fin 16 => BitVec.ofNat 32 (natOf (b.drop (4 * k.val) |>.take 4))

/-- The context that a record holds (R57). A first parity failure (R32) has no field there and is forgotten. DESIGN CHOICE (log 102). -/
def recordFib (s : State) (loc : Nat) : Fib :=
  let b := readBytes s loc 2048
  let w := fun o n => natOf (b.drop o |>.take n)
  let id := w 0x58 4
  let cl := w 0x5C 4
  { pc := w64 (w 0 8), waddr := w64 (w 8 8), wthr := w64 (w 0x10 8), tvec := w64 (w 0x18 8), tpc := w64 (w 0x20 8), taddr := w64 (w 0x28 8)
    ctx := w64 (w 0x30 8), fp := BitVec.ofNat 7 (w 0x38 8), rope := w64 (w 0x40 8) &&& 0xE000FFFFFFFFFFFF, budget := BitVec.ofNat 48 (w 0x48 6)
    step := BitVec.ofNat 8 (w 0x4E 1), hstep := BitVec.ofNat 8 (w 0x4F 1), fibre := BitVec.ofNat 32 (w 0x50 4)
    tclaim := BitVec.ofNat 32 (w 0x54 4), tenant := BitVec.ofNat 12 id, queue := BitVec.ofNat 12 (id / 2 ^ 12), stage := BitVec.ofNat 3 (id / 2 ^ 24)
    steward := id / 2 ^ 27 % 2 = 1, aclaim := BitVec.ofNat 8 cl, fdepth := BitVec.ofNat 6 (cl / 2 ^ 8), fdlimit := BitVec.ofNat 6 (cl / 2 ^ 14)
    tcause := BitVec.ofNat 8 (cl / 2 ^ 20), pend := if cl / 2 ^ 29 % 2 = 1 then some 0 else none
    tshape := vecOf fun k : Fin 32 => BitVec.ofNat 15 (w (0x60 + 2 * k.val) 2)
    sat := BitVec.ofNat 8 ((List.range 8).foldl (fun a k => a + w (0x60 + 2 * k) 2 / 2 ^ 15 * 2 ^ k) 0)
    streams := vecOf fun k : Fin 4 => streamFrom (b.drop (0xA0 + 16 * k.val) |>.take 16)
    seg := vecOf fun k : Fin 8 => segFrom (b.drop (0xE0 + 16 * k.val) |>.take 16)
    la := vecOf fun k : Fin 4 => w64 (w (0x160 + 8 * k.val) 8)
    s := vecOf fun k : Fin 16 => w64 (w (0x180 + 8 * k.val) 8)
    x := vecOf fun k : Fin 64 => w64 (w (0x200 + 8 * k.val) 8)
    v := vecOf fun k : Fin 16 => vregFrom (b.drop (0x400 + 64 * k.val) |>.take 64) }

/-- Bytes of a record with the claims of f. -/
def recordLen (f : Fib) : Nat := 2048 + 512 * ((claimed 32 f.tclaim.toNat).length + (claimed 8 f.aclaim.toNat).length)

/-- Load the claimed tiles and accumulators of a record into the core (R186). -/
def loadClaims (s : State) (loc : Nat) (f : Fib) (c : Core) : Core :=
  let ts := claimed 32 f.tclaim.toNat
  let c1 := (List.range ts.length).foldl (fun (k : Core) i =>
    { k with tiles := k.tiles.set (Fin.ofNat 32 (nth ts i 0)) (BitVec.ofNat 4096 (readNat s (loc + 2048 + 512 * i) 512)) }) c
  let ns := claimed 8 f.aclaim.toNat
  (List.range ns.length).foldl (fun (k : Core) i =>
    let base := loc + 2048 + 512 * (ts.length + i)
    { k with accs := k.accs.set (Fin.ofNat 8 (nth ns i 0)) (vecOf fun j : Fin 64 => readWord s (base + 8 * j.val)) }) c1

/-! ## Enlist, unbind, bind -/

/-- Enlist (R60): the ready list, or, when it is full, swapped with WOKEN. -/
def enlist (s : State) (g f : Nat) : State :=
  match fibreInfo s g f with
  | none => s
  | some i =>
    let c := getCore s g
    if c.ready.length < 256 then
      writeState (setCore s g { c with ready := c.ready ++ [f], fibres := place c.fibres f { i with state := .ready } }) i.loc 1
    else writeWoken (writeState (setCore s g { c with woken := if c.woken.contains f then c.woken else c.woken ++ [f]
                                                      fibres := place c.fibres f { i with state := .swapped } }) i.loc 5) i.loc true

/-- A ready-list entry freed: the fibre whose wake fired first is enlisted (R60). -/
def refillReady (s : State) (g : Nat) : State :=
  let c := getCore s g
  match c.woken with
  | f :: r =>
    if c.ready.length < 256 then
      match fibreInfo s g f with
      | some i => enlist (writeWoken (setCore s g { c with woken := r }) i.loc false) g f
      | none => setCore s g { c with woken := r }
    else s
  | [] => s

/-- What the device keeps of a context beside its record when it leaves its slot. -/
def infoOf (i : FibreInfo) (f : Fib) (st : FState) (n : Nat) : FibreInfo :=
  { i with state := st, due := f.due, pend := f.pend, entry := f.entry, wrote := n, wake := f.wake
           drain := match f.status with
             | .sleeping (.drain m) _ => some m
             | _ => none }

/-- A slot that a fibre leaves; a queue that has taken it now owns it (R306). -/
def emptySlot (sl : Slot) : Slot :=
  { sl with bound := false, ctx := {}, owner := sl.taker.getD sl.owner, given := sl.given || sl.taker.isSome, taker := none }

/-- The context as its record is to hold it: the value of a wake that its instruction has yet to take stands in WTHR (R103). -/
def restFib (f : Fib) : Fib := match f.wake with
  | some (.value v) => { f with wthr := v }
  | _ => f

/-- Take the fibre out of slot k of core g into state st (R59): the whole record is written, which reads and so corrects every register
(R144); for ready and swapped, STATE follows at RECORD_WRITE_COMPLETE. -/
def unbind (s : State) (g : Nat) (k : Fin 16) (st : FState) : State :=
  let f := restFib (getCtx s g k)
  let c := getCore s g
  let idx := f.fibre.toNat % 4096
  match fibreInfo s g idx with
  | none => setCore s g { c with slots := c.slots.set k (emptySlot c.slots[k]) }
  | some i =>
    let whole := st == .faulted || st == .done
    let old := readNat s (i.loc + 0x5B) 1 / 16
    let s1 := writeRecord (if f.flips.isEmpty then s else bumpDie s (dieOf g) 0x10 f.flips.length) c f i.loc (if whole then stateCode st else old)
    setCore s1 g { c with slots := c.slots.set k (emptySlot c.slots[k])
                          fibres := place c.fibres idx { infoOf i f st c.cyc with writing := !whole } }

/-- The scheduler takes the fibre out of slot k in state st: by pre-emption, or at the swap threshold (R61, R62). -/
def takeOff (s : State) (g : Nat) (k : Fin 16) (st : FState) : State :=
  let f := (getCtx s g k).fibre.toNat % 4096
  let t := unbind s g k st
  match fibreInfo t g f with
  | some i => setFibreInfo t g f { i with left := some (cycOf s g) }
  | none => t

/-- The wake counter of a core, its fault counter (R241, R137). -/
def wakeCtr (g : Nat) : Nat := spadLoc g 0x1FFF0
def faultCtr (g : Nat) : Nat := spadLoc g 0x1FFF8

/-- Fibre f of core g as an adder (R107). -/
def fibreAdder (g f : Nat) : Adder := ⟨0, g, f⟩

/-- A wake reaches fibre f of core g (R61, R103): in its slot it completes its instruction; off its slot it is enlisted, once its record
is written. -/
def deliverWake (s : State) (g f : Nat) (w : Wake) : State :=
  match slotOfFibre s g f with
  | some k =>
    let x := getCtx s g k
    match x.status with
    | .sleeping _ _ => setCtx s g k { x with status := .run, wake := some w }
    | _ => s
  | none =>
    match fibreInfo s g f with
    | none => s
    | some i =>
      if i.state == .swapped && i.wake.isNone then
        let s1 := match w with
          | .value v => writeWord s (i.loc + 0x10) v
          | _ => s
        let s2 := setFibreInfo s1 g f { i with wake := some w, drain := none }
        if i.writing then s2 else enlist s2 g f
      else s

/-! ## Kernel table, as far as binding needs it (R321) -/

def kernLoc (k : Nat) : Nat := swLoc (0x16000000 + 256 * k)
def kernState (s : State) (k : Nat) : Nat := readNat s (kernLoc k + 0x80) 1
def kernFlags (s : State) (k : Nat) : Nat := readNat s (kernLoc k + 0x3A) 2
def kernSamp (s : State) (k : Nat) : Bool := kernFlags s k / 16 % 2 == 1
def kernFpol (s : State) (k : Nat) : Bool := kernFlags s k / 8 % 2 == 1
def kernOf (s : State) (k : Nat) : Option Kern := s.kerns.find? fun x => x.id == k
/-- Replace the kernel in place; the list keeps the order of reading (R323). -/
def setKern (s : State) (x : Kern) : State := { s with kerns := s.kerns.map fun y => if y.id == x.id then x else y }

/-- The role admits the fibre to slot k (R52). -/
def roleFits (s : State) (g : Nat) (k : Fin 16) (i : FibreInfo) : Bool :=
  let samp := (getCore s g).kernels.any fun n => kernSamp s n
  match i.role with
  | .control => k == 0
  | .user => 1 ≤ k.val && (k.val ≤ 13 || (k.val == 14 && !samp))
  | .request => k == 14
  | .walker => k == 15

/-- Registers claimed by the fibres bound on core g, but slot k's (R184). -/
def claimsBut (s : State) (g : Nat) (k : Fin 16) : Nat × Nat :=
  (List.finRange 16).foldl (fun (a : Nat × Nat) j =>
    if j ≠ k ∧ (getCore s g).slots[j].bound = true then (a.1 ||| (getCtx s g j).tclaim.toNat, a.2 ||| (getCtx s g j).aclaim.toNat) else a) (0, 0)

/-- The ready fibre may bind to slot k (R53, R184, R306, R322, R338): role, the slot handed to its queue, its kernel running and not killed,
no claim taken. The fibres of the device OS have no queue; the owner test leaves them out. DESIGN CHOICE (log 74). -/
def mayBind (s : State) (g : Nat) (k : Fin 16) (f : Nat) : Bool :=
  match fibreInfo s g f with
  | none => false
  | some i =>
    let tc := readNat s (i.loc + 0x54) 4
    let ac := readNat s (i.loc + 0x5C) 1
    let busy := claimsBut s g k
    let q := readNat s (i.loc + 0x58) 4 / 2 ^ 12 % 4096
    i.state == .ready && roleFits s g k i && (i.kern.isNone || ((getCore s g).slots[k].given && (getCore s g).slots[k].owner.toNat == q)) && tc &&& busy.1 == 0 && ac &&& busy.2 == 0
      && (match i.kern with
          | none => true
          | some n => (kernState s n == 5 || kernState s n == 6) && !(match kernOf s n with
              | some x => x.killed
              | none => false))

/-- The eldest ready fibre that slot k admits. -/
def eldest (s : State) (g : Nat) (k : Fin 16) : Option Nat := (getCore s g).ready.find? fun f => mayBind s g k f

/-- What the fibre's wake makes of its context at the bind (R103, R241): a swapped `cwait` completes with WTHR, a refused fault is to be
delivered, another replays. A budget trap still due stays due while the record's BUDGET is the 0 that the count left; a steward who writes
another value takes it back (R59, R66). A PEND for which the device holds no command is delivered with `%taddr` 0. DESIGN CHOICE (log 94). -/
def resumeFib (c : Core) (i : FibreInfo) (f : Fib) : Fib :=
  let f1 := { f with due := i.due && f.budget == 0, pend := if f.pend.isSome then (match i.pend with
      | some a => some a
      | none => some 0) else none, entry := i.entry }
  match i.ticket, i.wake with
  | some (t, ta), _ => if c.refused.contains t then { f1 with delivery := some ⟨8, f1.pc, ta⟩ } else f1
  | none, some (.value _) => { f1 with wake := some (.value f1.wthr) }
  | none, some w => { f1 with wake := some w }
  | none, none => match i.drain with
      | some m => { f1 with status := .sleeping (.drain m) c.cyc }
      | none => f1

/-- Bind the fibre to the slot (R59, R60), in the mode that R52 gives the slot. The record is not written, so its STATE stays that of the
last write: code 2 of R58 is written nowhere. DEDUCED (log 75). A record that reads as poison is for `bindOrFault` (R144). -/
def bindFibre (s : State) (g : Nat) (k : Fin 16) (f : Nat) : State :=
  match fibreInfo s g f with
  | none => s
  | some i =>
    let c := getCore s g
    let x := recordFib s i.loc
    let c1 := loadClaims s i.loc x c
    let t := match i.ticket with
      | some (n, _) => c.refused.filter (· != n)
      | none => c.refused
    let y := resumeFib c i { x with steward := isStewardCluster s (clusterOf g) || k == 15 }
    let inFocus := s.focus == (g, k)
    let sl := { c1.slots[k] with bound := true, ctx := if inFocus then {} else y }
    let s1 := setCore s g { c1 with ready := c1.ready.filter (· != f), refused := t, slots := c1.slots.set k sl
                                    fibres := place c1.fibres f { i with state := .bound, wake := none, ticket := none, drain := none } }
    refillReady (if inFocus then { s1 with fib := y } else s1) g

/-- The record of f, with its claims, reads without poison. -/
def recordClean (s : State) (g f : Nat) : Bool :=
  match fibreInfo s g f with
  | none => true
  | some i => (toxicIn s i.loc (recordLen (recordFib s i.loc))).isNone

/-! ## Between instructions -/

/-- The wake completes the instruction that slept. -/
def completing (f : Fib) : Bool := match f.wake with
  | some (.value _) | some .poison => true
  | _ => false

/-- The fibre is between instructions: its next issue is a new one's, neither a wait that completes, nor an instruction that has issued, nor a
trap of one that is being taken. -/
def betweenInstrs (f : Fib) : Bool := !f.issued && !completing f && f.delivery.isNone && !f.entering

/-- The instruction of slot k is still at the matrix unit (R191, R142). -/
def busySlot (s : State) (g : Nat) (k : Fin 16) : Bool := cycOf s g < (getCore s g).slots[k].busy

/-- The budget of a draining fibre has run out: the trap ends its drain (R352). -/
def drainEnds (f : Fib) : Bool := f.due && match f.status with
  | .sleeping (.drain _) _ => true
  | _ => false

/-! ## Free -/

/-- Free fibre f of core g with everything `reap` gives back (R330): enrolment, stack holds, claims, record; the answer is hd. `keep`
keeps the record of request fibres as its ending wrote it (R331); `who` makes the releases. -/
def freeFibre (s : State) (g f : Nat) (keep : Bool) (who : Adder) : Bool × State :=
  match fibreInfo s g f with
  | none => (false, s)
  | some i =>
    let s0 := removeWaiter (removeWaiter s (.fibre g f)) (.getter g f)
    let s0 := { s0 with wakes := s0.wakes.filter fun w => !(w.1 == g && w.2.1 == f) }
    let ctx := readWord s (i.loc + 0x30)
    let fp := readNat s (i.loc + 0x38) 1 % 128
    let r := match pinnedAt s0 ctx with
      | some b => (false, releaseStack s0 b fp who)
      | none => (true, s0)
    let c := getCore r.2 g
    let r2 := { r.2 with cmds := r.2.cmds.map fun d => if d.g == g && d.f == f then { d with orphan := true } else d }
    let s1 := setCore r2 g { c with fibres := strike c.fibres f, ready := c.ready.filter (· != f), woken := c.woken.filter (· != f) }
    let s2 := if keep then s1 else writeState s1 i.loc 0
    let s3 := if keep ∨ i.hand = 0 then s2 else pushFrame (freeHandle s2 (bitsOf i.hand 24 20)) 1 false i.loc
    let s4 := match i.kern with
      | some k => writeNat s3 (kernLoc k + 0x84) 4 (readNat s3 (kernLoc k + 0x84) 4 - 1)
      | none => s3
    (r.1, refillReady s4 g)

end Sys2Proof.Machine
end

