-- ==== Sys2Proof/Machine/Xlate.lean ====
section
/-!
DEFINITION. Translation (R231-R235, R248): TLB lookups and fills, the miss mailbox, and requests that the device makes for itself.
-/
namespace Sys2Proof.Machine

/-- Access types of R235. -/
abbrev accLoad : Nat := 0
abbrev accStore : Nat := 1
abbrev accFetch : Nat := 2
abbrev accEngRead : Nat := 3
abbrev accEngWrite : Nat := 4
abbrev accHostRead : Nat := 5
abbrev accHostWrite : Nat := 6
/-- The device's own name for a lane of `vratom`, which reads and stores (R180): a store to translation, and in its miss. -/
abbrev accUpdate : Nat := 7
def walkKind (k : Nat) : Nat := if k = accUpdate then accStore else k

def accWrites (k : Nat) : Bool := k == 1 || k == 4 || k == 6
/-- Rights of an outbound host window that an access needs: bit 0 read, bit 1 write (R363). -/
def accNeeds (k : Nat) : Nat := if k = accUpdate then 3 else if accWrites k then 2 else 1

def leafV (l : Word) : Bool := l.getLsbD 63
def leafBlk (l : Word) : Bool := l.getLsbD 62
def leafTier (l : Word) : Nat := bitsOf l 60 2
def leafD (l : Word) : Bool := l.getLsbD 58
def leafWr (l : Word) : Bool := l.getLsbD 57
def leafEx (l : Word) : Bool := l.getLsbD 56
def leafMig (l : Word) : Bool := l.getLsbD 54
/-- DPA that a leaf gives va (R231, R232). -/
def leafDpa (l va : Word) : Nat :=
  let f := bitsOf l 16 31 * 65536
  if leafBlk l then f / 2 ^ 29 * 2 ^ 29 + va.toNat % 2 ^ 29 else f + va.toNat % 65536

/-- The entry serves the access: a store that meets D = 0, or an entry without the right the access needs, is a miss (R234). -/
def leafServes (l : Word) (kind : Nat) : Bool :=
  if accWrites kind then leafWr l && leafD l else if kind = accFetch then leafEx l else true

def covers (e : TlbEntry) (tenant : BitVec 12) (va : Word) : Bool :=
  e.tenant == tenant && (if e.blk then va.toNat % 2 ^ 55 / 2 ^ 29 == e.page else va.toNat % 2 ^ 55 / 65536 == e.page)

def tlbFind (s : State) (t : TlbId) (tenant : BitVec 12) (va : Word) : Option TlbEntry :=
  s.tlbs.find? fun e => e.tlb == t && covers e tenant va

def tlbSize : TlbId → Nat
  | .port _ => 64 | .die _ => 4096 | .host _ => 1024

/-- Fill one TLB; a full one drops the entry it has held longest (R234 leaves the choice to the implementation). -/
def tlbFill (s : State) (t : TlbId) (tenant : BitVec 12) (va leaf : Word) : State :=
  let others := s.tlbs.filter fun e => !(e.tlb == t && covers e tenant va)
  let mine := others.filter fun e => e.tlb == t
  let kept := if mine.length < tlbSize t then others else
    match mine with
    | o :: _ => others.filter fun e => e != o
    | [] => others
  let blk := leafBlk leaf
  { s with tlbs := kept ++ [{ tlb := t, tenant := tenant, page := va.toNat % 2 ^ 55 / (if blk then 2 ^ 29 else 65536), blk := blk, leaf := leaf }] }

/-- Look a VA up for core g: port TLB, then die TLB, whose hit fills the port TLB (R234). -/
def lookupVa (s : State) (g : Nat) (tenant : BitVec 12) (kind : Nat) (va : Word) : Option Nat × State :=
  match tlbFind s (.port (clusterOf g)) tenant va with
  | some e => if leafServes e.leaf kind then (some (leafDpa e.leaf va), s) else (none, s)
  | none =>
    match tlbFind s (.die (dieOf g)) tenant va with
    | some e => if leafServes e.leaf kind then (some (leafDpa e.leaf va), tlbFill s (.port (clusterOf g)) tenant va e.leaf) else (none, s)
    | none => (none, s)

/-- Look a VA up in the host TLB of I/O die i (R248, R399). -/
def lookupHost (s : State) (i : Nat) (tenant : BitVec 12) (kind : Nat) (va : Word) : Option Nat :=
  match tlbFind s (.host i) tenant va with
  | some e => if leafServes e.leaf kind then some (leafDpa e.leaf va) else none
  | none => none

/-- The lowest mailbox entry number not in use (R235). DESIGN CHOICE (log 112). -/
def freeTag (c : Core) : Option Nat := leastBelow 32 fun t => !(c.mailbox.any fun m => m.tag == t)

/-- Both ask for the same translation on behalf of the same requester. -/
def sameAsk (e m : Miss) : Bool := e.rq == m.rq && e.who == m.who && e.va == m.va && e.at_ == m.at_ && e.src == m.src && e.cmd == m.cmd

/-- The leaf granted to the access m of core g (R239). -/
def grantFor (s : State) (g : Nat) (m : Miss) : Option Word := (s.grants.find? fun e => e.g == g && sameAsk e.miss m).map (·.leaf)
/-- A grant as an entry that an invalidation may cover (R244). -/
def grantEntry (e : Grant) : TlbEntry :=
  let blk := leafBlk e.leaf
  { tlb := .host 0, tenant := e.miss.tenant, page := e.miss.va.toNat % 2 ^ 55 / (if blk then 2 ^ 29 else 65536), blk := blk, leaf := e.leaf }
/-- The access has used its grant. -/
def useGrant (s : State) (g : Nat) (m : Miss) : State :=
  { s with grants := s.grants.eraseP fun e => e.g == g && sameAsk e.miss m }
/-- The requester of purpose src, or command c, needs its grants no longer. -/
def dropGrants (s : State) (src : Purpose) (cmd : Option Nat) : State :=
  if s.grants.isEmpty then s else { s with grants := s.grants.filter fun e => !(e.miss.rq != 0 && e.miss.src == src && e.miss.cmd == cmd) }

/-- Post a request to the mailbox of core g; none when it is full. One request is posted once, and none that waits for the move of its page
(R240). -/
def postMiss (s : State) (g : Nat) (m : Miss) : Option State :=
  let c := getCore s g
  if c.mailbox.any (fun e => sameAsk e m) || s.moving.any (fun e => e.1 == g && sameAsk e.2 m) then some s
  else match freeTag c with
    | none => none
    | some t => some (setCore s g { c with mailbox := c.mailbox ++ [{ m with tag := t, epoch := s.epoch }] })

/-! ## Ranges that no table translates -/

/-- Translation without a table for the apertures that the device itself may reach: the physical aperture and the steward window. -/
def bareLoc (va : Nat) : Option Nat :=
  if Config.swVa ≤ va ∧ va < 2 ^ 55 then some (swLoc (va - Config.swVa))
  else if Config.aperVa ≤ va ∧ va < Config.aperVa + 2 ^ 47 then some (va - Config.aperVa)
  else none

/-- A host- or peer-aperture address (R363, R369). -/
def inHost (va : Nat) : Bool := Config.hostVa ≤ va && va < Config.hostVa + 2 ^ 44
def inPeer (va : Nat) : Bool := Config.peerVa ≤ va && va < Config.peerVa + 2 ^ 42
def inAperture (va : Nat) : Bool := inPeer va || inHost va
/-- The four ranges that no table translates (R231). -/
def untranslated (va : Nat) : Bool := inAperture va || (bareLoc va).isSome

/-! ## Locations beyond the module -/

def isHostLoc (a : Nat) : Bool := Config.hostBase ≤ a && a < Config.peerBase
def isPeerLoc (a : Nat) : Bool := Config.peerBase ≤ a && a < Config.peerBase + 2 ^ 42
/-- The link that carries a host, peer or CXL location (R363, R365, R369); the host's only where a port is host endpoint. -/
def linkOfLoc (s : State) (a : Nat) : Option LinkId :=
  if isHostLoc a then (hostPort s).map .port
  else if isPeerLoc a then some (.welt (Fin.ofNat 16 ((a - Config.peerBase) / 2 ^ 38)))
  else if isDpa a && a ≥ 0x400000000000 then (cxlPort s a).map .port
  else none
/-- State of that link: 2 where none is needed, and 0 where the host has none. -/
def linkStateOf (s : State) (a : Nat) : Nat := match linkOfLoc s a with
  | some id => (getLink s id).state.toNat
  | none => if isHostLoc a then 0 else 2

/-- Link and address of a peer location in the aperture of its link (R369). -/
def weltOf (a : Nat) : Fin 16 := Fin.ofNat 16 ((a - Config.peerBase) / 2 ^ 38)
def weltAddr (a : Nat) : Nat := (a - Config.peerBase) % 2 ^ 38

/-- A location beyond the module. -/
def isFar (a : Nat) : Bool := isHostLoc a || isPeerLoc a
/-- A read there of up to a window finds no room at its Welt link (R368). -/
def lacksRoom (s : State) (a : Nat) : Bool := isPeerLoc a && (
  let l := getLink s (.welt (weltOf a))
  !l.backlog.isEmpty || l.replay.length + 2 > 2048)
/-- A read at location a is held: its link retrains (R355), or has no room. -/
def pathHeld (s : State) (a : Nat) : Bool := linkStateOf s a == 3 || lacksRoom s a

/-- A read of n bytes beyond the module leaves by its link (R363, R369); none while the link has no room. -/
def askFar (s : State) (a n : Nat) : Option State :=
  if isPeerLoc a then sendReads (weltOf a) (n / 2 ^ 32 + 2) (weltAddr a) n s
  else some { s with out := s.out ++ [.ask (.port ((hostPort s).getD 0)) (a - Config.hostBase) n] }
/-- The bytes that come back, which are free (log 8). -/
def farRead (s : State) (a n : Nat) : Option (List Byte × State) := (askFar s a n).map fun t => freshBytes t n

/-! ## Outbound apertures (R363, R369) -/

/-- The checks of R363 for n bytes at va of the host aperture, by an access that needs these rights. -/
def hostAperture (s : State) (va n needs : Nat) (user : Bool) (tenant : BitVec 12) : Option Nat :=
  let k := (va - Config.hostVa) / 2 ^ 40
  let o := (va - Config.hostVa) % 2 ^ 40
  let d := swLoc (0x17030000 + 32 * k)
  let rights := readNat s (d + 0x12) 1
  if readNat s (d + 0x13) 1 = 1 ∧ o + n ≤ readNat s (d + 8) 8 ∧ rights &&& needs = needs
      ∧ (user = false ∨ BitVec.ofNat 12 (readNat s (d + 0x10) 2) = tenant) then some (readNat s d 8 + o)
  else none

/-- The peer grant of link w for a tenant (R369). -/
def peerGrant (s : State) (w : Nat) (tenant : BitVec 12) : Bool :=
  bitsOf (readWord s (swLoc (0x17031000 + 512 * w + 8 * (tenant.toNat / 64)))) (tenant.toNat % 64) 1 == 1

/-- Link of a peer address, when its local checks pass (R369). -/
def peerAperture (s : State) (va : Nat) (user : Bool) (tenant : BitVec 12) : Option (Fin 16) :=
  let w := Fin.ofNat 16 ((va - Config.peerVa) / 2 ^ 38)
  if (getLink s (.welt w)).role = 4 ∧ (user = false ∨ peerGrant s w.val tenant = true) then some w else none

/-- Where the host or peer aperture takes n bytes at va, once its own checks pass (R363, R369). -/
def apertureLoc (s : State) (va n needs : Nat) (user : Bool) (tenant : BitVec 12) : Option Nat :=
  if inHost va then (hostAperture s va n needs user tenant).map fun h => Config.hostBase + h
  else (peerAperture s va user tenant).map fun _ => Config.peerBase + (va - Config.peerVa)

/-- The CXL port of a location is up; true of every other location (R365). -/
def pathUp (s : State) (a : Nat) : Bool :=
  if isDpa a && a ≥ 0x400000000000 then match cxlPort s a with
    | some p => linkUp s (.port p)
    | none => true
  else true

/-! ## Requests of the device (R248, R327, R399) -/

/-- The host walker core of I/O die i (R248, R375). -/
def hostWalker (s : State) (i : Nat) : Nat := nth s.hwalk i 0

/-- Up to n bytes of one page for an access of the device: the location; none after a refusal; or not yet, the miss posted. -/
inductive Ask where
  | got (loc : Nat) | refused | notYet (s : State)

/-- An access of the device through the mailbox of core g: an aperture by its own checks, the physical aperture and the steward window as they
stand, else what the TLB `found`, a leaf granted for the access, or a miss (R231, R239). -/
def askVia (s : State) (g : Nat) (m : Miss) (n : Nat) (found : Option Nat) : Ask :=
  let va := m.va.toNat
  if inAperture va then match apertureLoc s va n (accNeeds m.at_) true m.tenant with
    | some a => .got a
    | none => .refused
  else match bareLoc va with
    | some a => .got a
    | none => match found, grantFor s g m with
        | some a, _ => .got a
        | none, some l => .got (leafDpa l m.va)
        | none, none => if s.hostFails.contains m.src then .refused else .notYet ((postMiss s g m).getD s)

/-- A read or write of the device or the host through the host TLB of I/O die i for purpose src (R248, R399). -/
def askHost (s : State) (i : Nat) (tenant : BitVec 12) (kind : Nat) (src : Purpose) (port : Nat) (va : Word) (n : Nat) : Ask :=
  askVia s (hostWalker s i) { va := va, at_ := kind, tenant := tenant, tag := 0, rq := 2, who := port, src := src } n (lookupHost s i tenant kind va)

/-- The same for the engine complex of core g's cluster on behalf of purpose src (R254, R327). -/
def askEngine (s : State) (g : Nat) (tenant : BitVec 12) (kind : Nat) (src : Purpose) (who : Nat) (va : Word) (n : Nat) : Ask :=
  askVia s g { va := va, at_ := kind, tenant := tenant, tag := 0, rq := 1, who := who, src := src } n (lookupVa s g tenant kind va).1

/-- The locations of n bytes from va page by page. -/
inductive Spans where
  | ok (l : List (Nat × Nat)) | refused | notYet (s : State)

def spansVia (ask : Word → Nat → Ask) : Nat → Nat → Nat → Spans
  | 0, _, _ => .ok []
  | fuel + 1, va, n =>
    if n = 0 then .ok [] else
    let m := Nat.min n (65536 - va % 65536)
    match ask (w64 va) m with
    | .refused => .refused
    | .notYet t => .notYet t
    | .got a => match spansVia ask fuel (va + m) (n - m) with
        | .ok l => .ok ((a, m) :: l)
        | r => r

/-- n bytes that the device reads at one location, within one page, each with its poison: an unbacked DPA and a link that is not up give
poison (R230, R365), the first counted at a die (R145); the host or a peer is asked, and what it returns is free (log 8). Who reads has
found that no link holds the read (`pathHeld`). -/
def devRead (s : State) (die a n : Nat) : List (Byte × Bool) × State :=
  if isDpa a && !backed s a then (List.replicate n (0, true), bumpDie s die 0x58 1)
  else if linkStateOf s a ≠ 2 then (List.replicate n (0, true), s)
  else if isFar a then
    let r := (farRead s a n).getD (List.replicate n 0, s)
    (r.1.map fun b => (b, false), r.2)
  else ((List.range n).map fun i => (byteAt s (a + i), isToxic s (a + i)), correctRead s a n)

/-- The words that take a byte of poison among bytes from location a. -/
def toxicWords (a : Nat) (l : List (Byte × Bool)) : List Nat :=
  (((List.range l.length).filter fun i => (nth l i (0, false)).2).map fun i => wordOf (a + i)).eraseDups

/-! ## Guards -/

/-- Guarded bytes (R253, R332): the frame-area granule of a pinned image, and the pipe area of a home core. -/
def pipeHomes (s : State) : List Nat := s.kerns.flatMap fun k => (k.groups.filter fun x => x.stage != 0).map fun x => x.home
def guarded (s : State) (a : Nat) : Bool :=
  isSpad a && (s.guards.contains (a / 16384 * 16384)
    || (let o := (a - Config.spadBase) % Config.spadBytes
        ((0x1C000 ≤ o && o < 0x1E000) || (0x1FFD0 ≤ o && o < 0x1FFE0)) && (pipeHomes s).contains (homeOf a)))
/-- Some byte of the n from location a is guarded. -/
def guardedIn (s : State) (a n : Nat) : Bool :=
  if s.guards.isEmpty && s.kerns.isEmpty then false
  else if n = 0 then false
  else guarded s a || guarded s (a + n - 1) || (List.range (n / 8)).any fun i => guarded s (a + 8 * i)
/-- The fibre in focus must not reach the counter word at location a, by whatever means (R253, R332). -/
def userGuarded (s : State) (a : Nat) : Bool := !s.fib.steward && guardedIn s a 8

end Sys2Proof.Machine
end

