-- ==== Sys2Proof/Machine/Code.lean ====
section
/-!
DEFINITION. Code addresses, the fetch grant, the fetch buffer, and whether the next instruction of a fibre can reach issue (R28, R54, R55, R80).
-/
namespace Sys2Proof.Machine

/-- Index of the fibre on its core. -/
def fibIndex (f : Fib) : Nat := f.fibre.toNat % 4096

/-- A valid code address (R28). -/
def codeOk (a : Word) : Bool := let o := a.toNat % 64; o == 0 || o == 12 || o == 24 || o == 36 || o == 48
/-- The next instruction in sequence (R28). -/
def nextPc (a : Word) : Word := if a.toNat % 64 = 48 then a + 16 else a + 12
def lineOf (a : Word) : Word := a - w64 (a.toNat % 64)
def instrNo (a : Word) : Nat := a.toNat % 64 / 12

/-- A field of the launch record in entry k of the kernel table (R321). -/
def lrecNat (s : State) (k o n : Nat) : Nat := readNat s (kernLoc k + o) n

/-- The code range of a fibre of core g (R80): base and bytes. -/
def codeRange (s : State) (g : Nat) (f : Fib) : Nat × Nat :=
  match (fibreInfo s g (fibIndex f)).bind (·.kern) with
  | some k => (lrecNat s k 0 8, 64 * lrecNat s k 0x78 8)
  | none => (Config.aperVa, 2 ^ 33)

/-- The grant of R80 for the line at p. -/
def granted (s : State) (g : Nat) (f : Fib) (p : Nat) : Bool :=
  let r := codeRange s g f
  (r.1 ≤ p && p + 64 ≤ r.1 + r.2)
    || f.seg.toList.any fun x => x.cls == 2 && x.rights.getLsbD 2 && x.base.toNat ≤ p && p + 64 ≤ x.base.toNat + x.limit.toNat

/-- What the read of the line at location a meets: nothing that stops it; a fault, and whether it counts as an access to an unbacked DPA; or a
link that retrains and holds it (R355). Unbacked or poisoned code traps with 0x10 (R397), and so does code behind a link that is down. -/
inductive LineGate where
  | clear | bad (cause : Nat) (unbacked : Bool) | held

def lineGate (s : State) (a : Nat) : LineGate :=
  if isDpa a && !backed s a then .bad 0x10 true
  else match linkStateOf s a with
    | 3 => .held
    | 2 => if (toxicIn s a 64).isSome then .bad 0x10 false else .clear
    | _ => .bad 0x10 false

/-- The line at code address p in the fetch buffer of core g. -/
def bufferedAt (s : State) (g : Nat) (f : Fib) (p : Word) : Option Nat :=
  ((getCore s g).lines.find? fun l => l.tenant == f.tenant && l.va == p).map (·.loc)

/-- The fetch of the line at code address p meets a fault as soon as it is made (R397). -/
def fetchFaults (s : State) (g : Nat) (f : Fib) (p : Word) : Bool :=
  let gate := fun a => match lineGate s a with
    | .bad _ _ => true
    | _ => false
  if Config.aperVa ≤ p.toNat ∧ p.toNat < Config.aperVa + 2 ^ 47 then gate (p.toNat - Config.aperVa)
  else untranslated p.toNat || (lookupVa s g f.tenant accFetch p).1.any gate

/-- The next instruction of fibre f can reach issue (R54): its line is in the fetch buffer, or what it meets instead is a fault; a trap that is
to be delivered needs no line. -/
def lineReady (s : State) (g : Nat) (f : Fib) : Bool :=
  let p := lineOf f.pc
  f.delivery.isSome || f.entering || !codeOk f.pc || !granted s g f p.toNat || (bufferedAt s g f p).isSome || fetchFaults s g f p

/-- The instruction in slot k has issued and is not complete: it waits, goes on after its reply, takes its wake, or is at the matrix unit; or the
line of the next has not arrived (R55, R61, R191). -/
def unfinished (s : State) (g : Nat) (k : Fin 16) : Bool :=
  busySlot s g k || match (getCtx s g k).status with
    | .waiting _ => true
    | .sleeping _ _ => false
    | .run => !betweenInstrs (getCtx s g k) || !lineReady s g (getCtx s g k)

end Sys2Proof.Machine
end

