-- ==== Sys2Proof/Machine/Kern.lean ====
section
/-!
DEFINITION. Kernels and groups (R297, R308-R313, R321-R338): launch records, shares, placement, population, moves, sweeps, completion.
-/
namespace Sys2Proof.Machine

/-! ## Launch records (R297) -/

def recNat (b : List Byte) (o n : Nat) : Nat := natOf (b.drop o |>.take n)
/-- Bits of a field of a record: from bit lo, len bits, of the n bytes at o. -/
def recBits (b : List Byte) (o n lo len : Nat) : Nat := recNat b o n / 2 ^ lo % 2 ^ len

/-- Stage entry s: M, N, ENTL, KIND (wide), UNIT (whole clusters), COUNT. -/
structure StageEntry where
  m : Nat
  n : Nat
  entl : Nat
  wide : Bool
  whole : Bool
  count : Nat
deriving DecidableEq, Repr

def stageOf (b : List Byte) (k : Nat) : StageEntry :=
  let w := recNat b (0x48 + 6 * k) 6
  ⟨w / 2 ^ 36 % 4096, w / 2 ^ 24 % 4096, w / 2 ^ 16 % 256, w / 2 ^ 15 % 2 == 1, w / 2 ^ 14 % 2 == 1, w % 8192⟩

def stageCount (b : List Byte) : Nat := recBits b 0x3A 2 5 3 + 1

def stageOk (e : StageEntry) : Bool :=
  1 ≤ e.m && 1 ≤ e.n && 1 ≤ e.count && (if e.whole then e.count ≤ 5376 else e.count ≤ 192)

/-- The record satisfies R297; its reserved fields are ignored (R7, log 78). -/
def recordOk (b : List Byte) : Bool :=
  let nst := stageCount b
  recNat b 0 8 < 2 ^ 55 && recNat b 0 8 % 64 == 0 && recNat b 0x18 8 % 128 == 0 && recNat b 0x18 8 < 2 ^ 55
    && recNat b 0x3C 2 < 4096 && recNat b 0x3E 1 < 64
    && recNat b 0x40 8 < 2 ^ 48 && 1 ≤ recNat b 0x78 8 && recNat b 0x78 8 < 2 ^ 20
    && (List.range 8).all fun k => if k < nst then stageOk (stageOf b k) else recNat b (0x48 + 6 * k) 6 == 0

/-- A reference of a record with V = 1 is valid; with V = 0 there is nothing to be valid. -/
def refValid (s : State) (r : Nat) : Bool := r / 2 ^ 47 % 2 == 0 || (counterRef s (w64 r)).isSome

/-! ## The kernel table (R321) -/

def lrec (s : State) (k : Nat) : List Byte := readBytes s (kernLoc k) 128
def setKernState (s : State) (k v : Nat) : State := writeNat s (kernLoc k + 0x80) 1 v
def kernTenant (s : State) (k : Nat) : BitVec 12 := BitVec.ofNat 12 (lrecNat s k 0x3C 2)
def kernHint (s : State) (k : Nat) : Bool := readNat s (kernLoc k + 0xA8) 1 % 2 == 1
def kernSms (s : State) (k : Nat) : Bool := kernFlags s k / 4 % 2 == 1
def addNfib (s : State) (k n : Nat) : State := writeNat s (kernLoc k + 0x84) 4 (readNat s (kernLoc k + 0x84) 4 + n)

/-- The device's adds: the queue scheduler, the kernel-end tree, the thermal monitor (R107). -/
def schedAdder : Adder := ⟨2, 0, 0⟩
def treeAdder : Adder := ⟨3, 0, 0⟩

/-- Add to a reference of a launch record when it names a counter (R301, R337); an add to a guarded word is dropped, which no program reaches by
its launch either (R2, R253). DESIGN CHOICE (log 76). -/
def addRef (s : State) (r : Nat) (inc : Word) (who : Adder) : State :=
  match counterRef s (w64 r) with
  | some a => if guardedIn s a 8 then s else addAt s a inc who
  | none => s

/-- Kernel k waits on its gate no longer: its waiter and its wake on the way go (R307, R338). -/
def dropGate (s : State) (k : Nat) : State :=
  let t := removeWaiter s (.gate k)
  { t with fired := t.fired.filter fun e => e.1 != .gate k }

/-- Refuse kernel k (R301, R322): CDONE gains 1 + 2^48; with CDONE invalid the launch is dropped and counted. -/
def refuseKernel (s : State) (k : Nat) : State :=
  let cd := lrecNat s k 0x28 6
  let s1 := setKernState { s with kerns := s.kerns.filter fun x => x.id != k } k 8
  let s1 := { s1 with doneSeq := s1.doneSeq + 1 }
  if cd / 2 ^ 47 % 2 = 1 ∧ (counterRef s (w64 cd)).isNone then bumpIo s1 0 0x48 1 else addRef s1 cd (w64 (1 + 2 ^ 48)) schedAdder

/-! ## Shares (R312) -/

/-- count_i for the clocks f of the ranks and T tiles: quotients, then the remainder tiles by largest remainder, ties to lower rank. -/
def shareCounts (t : Nat) (f : List Nat) : List Nat :=
  let tot := f.foldl (· + ·) 0
  if tot = 0 then f.map fun _ => 0 else
  let q := f.map fun x => t * x / tot
  let r := f.map fun x => t * x % tot
  let left := t - q.foldl (· + ·) 0
  (List.range f.length).map fun i =>
    let ri := nth r i 0
    let before := ((List.range f.length).filter fun j => nth r j 0 > ri || (nth r j 0 == ri && j < i)).length
    nth q i 0 + if before < left then 1 else 0

/-- Shares as (start, count). -/
def sharesFrom : Nat → List Nat → List (Nat × Nat)
  | _, [] => []
  | a, c :: cs => (a, c) :: sharesFrom (a + c) cs

/-- The snapshot code of core g (R311). -/
def snapCode (s : State) (k : Kern) (g : Nat) : Nat := ((look k.snap g).getD (fusedOf s g)).toNat

def sharesOf (s : State) (k : Kern) (members : List Nat) (t : Nat) : List (Nat × Nat) :=
  sharesFrom 0 (shareCounts t (members.map fun g => mhz (snapCode s k g)))

/-! ## Placement (R308, R325) -/

def clusterCores (cl : Nat) : List Nat := (List.range 192).map fun c => cl * 192 + c
def userCluster (s : State) (wide : Bool) (cl : Nat) : Bool := !isStewardCluster s cl && isWide cl == wide
def unheld (s : State) (g : Nat) : Bool := (getCore s g).kernels.isEmpty
/-- A core that a kernel of priority 0 may share: held by one kernel of lower priority (R325). -/
def sharable (s : State) (g : Nat) : Bool :=
  match (getCore s g).kernels with
  | [j] => match kernOf s j with
      | some x => x.prio != 0
      | none => false
  | _ => false

/-- The cores of a cluster for a UNIT 0 stage of n cores, with `taken` given to earlier stages: unheld cores first, then, if sharing, held
ones; at least one core must be unheld. -/
def pickCores (s : State) (share : Bool) (taken : List Nat) (n cl : Nat) : Option (List Nat) :=
  let here := (clusterCores cl).filter fun g => present s g && !taken.contains g
  let free := here.filter fun g => unheld s g
  let extra := if share then here.filter fun g => sharable s g else []
  let pick := (free.take n) ++ (extra.take (n - free.length))
  if pick.length = n ∧ free ≠ [] then some (sortBy (· ≤ ·) pick) else none

/-- One stage: the cluster of an earlier stage of its kind with room, else the lowest-numbered; or whole clusters. -/
def placeStage (s : State) (share : Bool) (done : List (StageEntry × List Nat)) (e : StageEntry) : Option (List Nat) :=
  let taken := done.flatMap (·.2)
  if e.whole then
    let ok := fun cl => userCluster s e.wide cl &&
      (clusterCores cl).all fun g => !taken.contains g && (unheld s g || (share && sharable s g)) || !present s g
    let cls := ((List.range Config.clusters).filter ok).take e.count
    let ms := (cls.flatMap clusterCores).filter fun g => present s g
    if cls.length = e.count ∧ ms.any (fun g => unheld s g) = true then some ms else none
  else
    let earlier := (done.filter fun d => d.1.wide == e.wide && !d.1.whole).filterMap fun d => d.2.head?.map clusterOf
    match earlier.findSome? (pickCores s share taken e.count) with
    | some l => some l
    | none => (List.range Config.clusters).findSome? fun cl =>
        if userCluster s e.wide cl then pickCores s share taken e.count cl else none

/-- All stages in stage order, or none. -/
def placeAll (s : State) (share : Bool) : List StageEntry → List (StageEntry × List Nat) → Option (List (StageEntry × List Nat))
  | [], done => some done
  | e :: es, done => match placeStage s share done e with
      | some l => placeAll s share es (done ++ [(e, l)])
      | none => none

def kernStages (s : State) (k : Nat) : List StageEntry :=
  let b := lrec s k
  (List.range (stageCount b)).map fun i => stageOf b i

def findPlacement (s : State) (x : Kern) : Option (List (StageEntry × List Nat)) :=
  match placeAll s false (kernStages s x.id) [] with
  | some p => some p
  | none => if x.prio = 0 then placeAll s true (kernStages s x.id) [] else none

/-- The group of one stage (R308, R311, R313). -/
def formGroup (s : State) (x : Kern) (i : Nat) (e : StageEntry) (ms : List Nat) : Group :=
  { stage := i, members := ms, shares := sharesOf s x ms (e.m * e.n), m := e.m, n := e.n
    home := (ms.find? fun g => unheld s g).getD (ms.headD 0) }

/-- The pool and pipe words of a home core set to 0; every member's levelling list emptied; the cores held (R311, R313, R332). -/
def formOn (s : State) (k : Nat) (grp : Group) : State :=
  let s1 := grp.members.foldl (fun t g =>
    let c := getCore t g
    setCore t g { c with level := [], kept := 0, kernels := c.kernels ++ [k] }) s
  let s2 := writeWord (clearToxic s1 (spadLoc grp.home 0x1FFE8)) (spadLoc grp.home 0x1FFE8) 0
  if grp.stage = 0 then s2 else
    let s3 := writeWord (clearToxic s2 (spadLoc grp.home 0x1FFD0)) (spadLoc grp.home 0x1FFD0) 0
    writeWord (clearToxic s3 (spadLoc grp.home 0x1FFD8)) (spadLoc grp.home 0x1FFD8) 0

/-- Give slot k to queue h: at once, or when its fibre has been unbound (R306). -/
def ownSlot (sl : Slot) (h : BitVec 12) : Slot :=
  if sl.bound then { sl with taker := some h } else { sl with owner := h, given := true, taker := none }

/-- Owners of slots 0 and 14 of a core that kernel x takes (R305, R325). Where two launches that sample share the core, slot 14 stays with the
request in progress, and each request gives it to its own queue. DESIGN CHOICE (log 89). -/
def takeSlots (s : State) (x : Kern) (g : Nat) : State :=
  let c := getCore s g
  let q := BitVec.ofNat 12 (lrecNat s x.id 0x82 2)
  let sl := if c.kernels.length ≤ 1 ∨ x.prio = 0 then c.slots.set 0 (ownSlot c.slots[0] q) else c.slots
  let sl := if kernSamp s x.id && c.request.isNone then sl.set 14 (ownSlot sl[14] q) else sl
  setCore s g { c with slots := sl }

/-- KERNEL_PLACEMENT's effect: groups formed, cores held, state resident (R311, R322). -/
def placeKernel (s : State) (x : Kern) (p : List (StageEntry × List Nat)) : State :=
  let groups := (List.range p.length).filterMap fun i => (p[i]?).map fun e => formGroup s x i e.1 e.2
  let s1 := groups.foldl (fun t grp => formOn t x.id grp) s
  let s2 := (groups.flatMap (·.members)).foldl (fun t g => takeSlots t x g) s1
  setKernState (setKern s2 { x with groups := groups }) x.id 4

def kernCores (x : Kern) : List Nat := x.groups.flatMap (·.members)
def groupOf (s : State) (g : Nat) (k stage : Nat) : Option Group :=
  match kernOf s k with
  | some x => x.groups.find? fun r => r.stage == stage && r.members.contains g
  | none => none

/-! ## Creating fibres (R58, R327, R329) -/

/-- The lowest free fibre index of core g; 4,095 is kept for request fibres where a resident launch samples (R327, R329). -/
def freeIndex (s : State) (g : Nat) : Option Nat :=
  let c := getCore s g
  leastBelow (if c.kernels.any fun k => kernSamp s k then 4095 else 4096) fun i => (look c.fibres i).isNone

/-- A record handle of kind 4 and bound 1 over a 64 KiB frame of the LPDDR6 pool (R327). The device keeps the record's place and does not read
CUR of the handle anew. DESIGN CHOICE (log 93). -/
def allocRecord (s : State) (tenant owner : Nat) : Option (Word × Nat × State) :=
  match popFrame s 1 false with
  | (none, _) => none
  | (some f, s1) =>
    match allocHandle s1 4 (w64 (Config.aperVa + f)) 0 1 tenant owner with
    | (0, _) => none
    | (h, s2) => some (h, f, s2)

/-- Create fibre n of core g with the context x (R58): its record is written, and it is enlisted. -/
def createFibre (s : State) (g n : Nat) (x : Fib) (info : FibreInfo) : State :=
  let y := { x with fibre := BitVec.ofNat 32 (g * 4096 + n) }
  let s1 := writeRecord s (getCore s g) y info.loc 1
  let s2 := setFibreInfo s1 g n { info with state := .swapped, entry := true }
  let s3 := match info.kern with
    | some k => addNfib s2 k 1
    | none => s2
  enlist s3 g n

/-- The context that kernel k gives its fibres of a stage (R58, R297, R326). -/
def launchFib (s : State) (k stage : Nat) (pc : Word) (segs : Vector Seg 8) (x0 x1 : Word) : Fib :=
  let f : Fib := { pc := pc, seg := segs, ctx := w64 (lrecNat s k 0x10 8), budget := BitVec.ofNat 48 (lrecNat s k 0x40 6)
                   stage := BitVec.ofNat 3 stage, queue := BitVec.ofNat 12 (lrecNat s k 0x82 2), tenant := kernTenant s k
                   fdlimit := BitVec.ofNat 6 (lrecNat s k 0x3E 1) }
  { f with x := (f.x.set 0 x0).set 1 x1 }

/-! ## Population (R326, R327) -/

/-- What the device reads: the value, a refusal, or not yet. -/
inductive Got (α : Type) where
  | bytes (b : α) (s : State) | refused (s : State) | notYet (s : State)

/-- Read n bytes at va page by page through `ask`, each byte with its poison (R144); an unbacked DPA is counted at a die. -/
def readVia (ask : State → Word → Nat → Ask) (die : Nat) : Nat → State → Nat → Nat → Got (List (Byte × Bool))
  | 0, s, _, _ => .bytes [] s
  | fuel + 1, s, va, n =>
    if n = 0 then .bytes [] s else
    let m := min n (65536 - va % 65536)
    match ask s (w64 va) m with
    | .refused => .refused s
    | .notYet t => .notYet t
    | .got a =>
      if pathHeld s a then .notYet s else
      let r := devRead s die a m
      match readVia ask die fuel r.2 (va + m) (n - m) with
      | .bytes b t => .bytes (r.1 ++ b) t
      | g => g

/-- The same for a record or a table, which poison makes unreadable. DESIGN CHOICE (log 80). -/
def readClean (ask : State → Word → Nat → Ask) (die : Nat) (s : State) (va n : Nat) : Got (List Byte) :=
  match readVia ask die (n / 65536 + 2) s va n with
  | .bytes b t => if b.any (·.2) then .refused t else .bytes (b.map (·.1)) t
  | .refused t => .refused t
  | .notYet t => .notYet t

/-- What waits for a translation or a link keeps of t nothing but its request: it reads, and counts, anew (R230). -/
def onlyAsked (s t : State) : State := { s with cores := t.cores }

/-- Pages that n bytes touch, at most. -/
def pagesOf (n : Nat) : Nat := n / 65536 + 2

def segSetFrom (b : List Byte) : Vector Seg 8 := vecOf fun k : Fin 8 => segFrom (b.drop (16 * k.val) |>.take 16)

/-- Fibre table of a stage is well formed (R326): COUNT 1 to 7, entries at and above COUNT zero, the line word. -/
def fibreTableOk (b : List Byte) : Bool :=
  let n := recNat b 0 4
  1 ≤ n && n ≤ 7 && (List.range 7).all (fun i => i < n || recNat b (4 + 8 * i) 8 == 0) && recNat b 0x3C 4 == 0x4000

/-- A fill that is not made (R327): its range passes the class or covers an absent core. -/
def badFill (s : State) (cl : Nat) (g : Seg) : Bool :=
  let b := g.base.toNat
  let e := b + g.limit.toNat
  if g.cls = 0 then e > Config.spadBytes
  else e > Config.clusterBytes || (List.range 192).any fun c =>
    c * Config.spadBytes < e && b < (c + 1) * Config.spadBytes && !present s (cl * 192 + c)

/-- The address of the fibre table of stage e: ENTRY + 64 × ENTL. -/
def tableVa (s : State) (k : Nat) (e : StageEntry) : Nat := lrecNat s k 0 8 + 64 * e.entl

def readTables (ask : State → Word → Nat → Ask) (k : Nat) : List StageEntry → State → List (List Byte) → Got (List (List Byte))
  | [], s, acc => .bytes acc s
  | e :: es, s, acc => match readClean ask 0 s (tableVa s k e) 64 with
      | .bytes b t => readTables ask k es t (acc ++ [b])
      | .refused t => .refused t
      | .notYet t => .notYet t

/-- What population needs on one core: its segments, the images of the segments that it fills, and its stage's fibre table. -/
structure CoreFill where
  g      : Nat
  stage  : Nat
  segs   : Vector Seg 8
  images : List (Option (List (Byte × Bool)))
  table  : List Byte

/-- Core g fills segment i of its kernel: a local segment on every held core, a cluster segment once in each cluster (R327). -/
def fillsHere (x : Kern) (g : Nat) (seg : Seg) (addr : Nat) : Bool :=
  addr != 0 && seg.limit != 0 && (seg.cls == 0 || (seg.cls == 1 && (kernCores x).find? (fun c => clusterOf c == clusterOf g) == some g))

def readImages (ask : State → Word → Nat → Ask) (x : Kern) (g : Nat) (segs : Vector Seg 8) (addrs : List Nat) :
    Nat → State → List (Option (List (Byte × Bool))) → Got (List (Option (List (Byte × Bool))))
  | 0, s, acc => .bytes acc s
  | k + 1, s, acc =>
    let i := 8 - (k + 1)
    let seg := segs[Fin.ofNat 8 i]
    if fillsHere x g seg (nth addrs i 0) = false then readImages ask x g segs addrs k s (acc ++ [none]) else
    match readVia ask (dieOf g) (pagesOf seg.limit.toNat) s (nth addrs i 0) seg.limit.toNat with
    | .bytes b t => readImages ask x g segs addrs k t (acc ++ [some b])
    | .refused t => .refused t
    | .notYet t => .notYet t

/-- What the engine complex of a core's cluster asks for the population of kernel x there, with RQ 1 and WHO 0, which R235
gives for commands alone (DESIGN CHOICE, log 88), and how its stage's table is read (R327). -/
def popAsk (x : Kern) (g : Nat) (s : State) (va : Word) (n : Nat) : Ask := askEngine s g (kernTenant s x.id) accEngRead (.populate x.num) 0 va n
def stageTable (s : State) (x : Kern) (st g : Nat) : Got (List Byte) :=
  readClean (popAsk x g) (dieOf g) s (tableVa s x.id (stageOf (lrec s x.id) st)) 64

/-- Read what population needs on core g of stage st; a fill that is not made refuses it. -/
def gatherCore (s : State) (x : Kern) (g st : Nat) : Got CoreFill :=
  match readClean (popAsk x g) (dieOf g) s (lrecNat s x.id 0x18 8) 192 with
  | .refused t => .refused t
  | .notYet t => .notYet t
  | .bytes b s1 =>
    let segs := segSetFrom b
    let addrs := (List.range 8).map fun i => recNat b (128 + 8 * i) 8
    match stageTable s1 x st g with
    | .refused t => .refused t
    | .notYet t => .notYet t
    | .bytes tab s2 =>
      if (List.finRange 8).any fun i => fillsHere x g segs[i] (nth addrs i.val 0) && badFill s2 (clusterOf g) segs[i] then .refused s2
      else match readImages (popAsk x g) x g segs addrs 8 s2 [] with
        | .refused t => .refused t
        | .notYet t => .notYet t
        | .bytes imgs s3 => .bytes ⟨g, st, segs, imgs, tab⟩ s3

/-- The same on every held core, each through its own engine complex, mailbox and walker. -/
def gatherPop (x : Kern) : List (Nat × Nat) → State → List CoreFill → Got (List CoreFill)
  | [], s, acc => .bytes acc s
  | (g, st) :: r, s, acc => match gatherCore s x g st with
      | .bytes f t => gatherPop x r t (acc ++ [f])
      | .refused t => .refused t
      | .notYet t => .notYet t

/-- The held cores with their stages. -/
def popCores (x : Kern) : List (Nat × Nat) := x.groups.flatMap fun r => r.members.map fun g => (g, r.stage)

/-- Identity of the device's own fills and stores: KIND 1. DESIGN CHOICE (log 104). -/
def fillAdder (g : Nat) : Adder := ⟨1, g, 0⟩

/-- Write the bytes of an image at location a of a scratchpad; poison is copied as poison and counted (R144). -/
def fillAt (s : State) (g a : Nat) (b : List (Byte × Bool)) : State :=
  (toxicWords a b).foldl (fun t w => bumpDie (poisonRange t w 8) (dieOf g) 0x48 1) (storeAt s a (b.map (·.1)) (fillAdder g))

/-- Where a local or cluster segment of core g begins. -/
def nearSpot (g : Nat) (seg : Seg) : Nat := if seg.cls = 0 then spadLoc g seg.base.toNat else clusterLoc (clusterOf g) seg.base.toNat

/-- The fills of one core; one whose range covers a guarded byte is dropped, and population goes on (R2, R253). DESIGN CHOICE (log 76). -/
def fillCore (s : State) (f : CoreFill) : State :=
  (List.finRange 8).foldl (fun t i => match nth f.images i.val none with
    | none => t
    | some b =>
      let a := nearSpot f.g f.segs[i]
      if guardedIn t a b.length then t else fillAt t f.g a b) s

/-- The fibres of one core of a group, entry 0 first; none when a handle or a frame is lacking (R327). -/
def createSet (segs : Vector Seg 8) (tab : List Byte) (k g stage : Nat) : Nat → State → Option State
  | 0, s => some s
  | n + 1, s =>
    let cnt := min (recNat tab 0 4) 7
    let i := cnt - (n + 1)
    match freeIndex s g, allocRecord s (kernTenant s k).toNat 0 with
    | some idx, some (h, loc, s1) =>
      let pc := w64 (recNat tab (4 + 8 * i) 8)
      createSet segs tab k g stage n (createFibre s1 g idx (launchFib s1 k stage pc segs (w64 (lrecNat s1 k 0x08 8)) (w64 i))
        { state := .ready, role := if i = 0 then .control else .user, kern := some k, hand := h, loc := loc })
    | _, _ => none

/-- Reserve the record of request fibres on a core of a launch with sampling (R282, R297). -/
def reserveRecord (s : State) (k g : Nat) : Option State :=
  if kernSamp s k then
    match allocRecord s (kernTenant s k).toNat 0 with
    | some (h, loc, s1) => some (setCore s1 g { getCore s1 g with reqRec := (getCore s1 g).reqRec ++ [(k, h, loc)] })
    | none => none
  else some s

/-- The record reserved on core g for the requests of kernel k. -/
def reservedOf (s : State) (k g : Nat) : Option (Word × Nat) := look (getCore s g).reqRec k

/-- Give the reserved record of kernel k back. -/
def returnRecord (k : Nat) (s : State) (g : Nat) : State :=
  match reservedOf s k g with
  | some (h, loc) =>
    let s1 := pushFrame (freeHandle s (bitsOf h 24 20)) 1 false loc
    setCore s1 g { getCore s1 g with reqRec := strike (getCore s1 g).reqRec k }
  | none => s

/-- The fibres of every held core (R327). -/
def createAll (k : Nat) : List CoreFill → State → Option State
  | [], s => some s
  | f :: r, s =>
    match (createSet f.segs f.table k f.g f.stage (min (recNat f.table 0 4) 7) s).bind fun s1 => reserveRecord s1 k f.g with
    | some s1 => createAll k r s1
    | none => none

/-- Every fibre of kernel k on core g. -/
def kernFibres (s : State) (g k : Nat) : List Nat := ((getCore s g).fibres.filter fun e => e.2.kern == some k).map (·.1)

/-- Take a bound fibre out of its slot without writing its record. -/
def dropSlot (s : State) (g f : Nat) : State :=
  match slotOfFibre s g f with
  | some k =>
    let c := getCore s g
    setCore s g { c with slots := c.slots.set k (emptySlot c.slots[k]) }
  | none => s

/-- End a bound fibre as done: its record is written whole (R59, R338). -/
def endFibre (s : State) (g f : Nat) : State :=
  match slotOfFibre s g f with
  | some k => unbind s g k .done
  | none => s

/-- Fibre f of core g is a request fibre. -/
def isRequest (s : State) (g f : Nat) : Bool := match fibreInfo s g f with
  | some i => i.role == .request
  | none => false

/-- Free a fibre as `reap` does; a request fibre keeps its reserved record, and its request is over (R331, R338). -/
def freeEnded (s : State) (g f : Nat) : State :=
  let t := endFibre s g f
  let u := (freeFibre t g f (isRequest t g f) (fibreAdder g f)).2
  if isRequest t g f then setCore u g { getCore u g with request := none } else u

/-- Free every fibre of kernel k on core g (R337). -/
def freeAllOn (s : State) (k g : Nat) : State := (kernFibres s g k).foldl (fun t f => freeEnded t g f) s

/-! ## Proxies that a kernel leaves (R347) -/

def proxyLoc (g i : Nat) : Nat := spadLoc g (0x1E000 + 64 * i)
/-- The proxying entry is spent: its waiter and its wake on the way go, and no add is made. -/
def endProxy (s : State) (g : Nat) (p : Proxy) : State :=
  let s0 := removeWaiter s (.proxy g p.entry)
  let s1 := { s0 with fired := s0.fired.filter fun e => e.1 != .proxy g p.entry }
  let s2 := storeAt s1 (proxyLoc g p.entry + 0x28) [2] (fillAdder g)
  setCore s2 g { getCore s2 g with proxies := (getCore s2 g).proxies.filter fun q => q.entry != p.entry }
/-- Every proxying entry of kernel k on core g is spent. -/
def endProxies (s : State) (k g : Nat) : State := ((getCore s g).proxies.filter fun p => p.kern == some k).foldl (fun t p => endProxy t g p) s

/-- Kernel k leaves core g: its mark and its hold go, and the slots of its queue are free again (R305, R335). -/
def leaveCore (s : State) (x : Kern) (g : Nat) : State :=
  let c := getCore s g
  let q := BitVec.ofNat 12 (lrecNat s x.id 0x82 2)
  let left := c.kernels.filter (· != x.id)
  let kept := left.any fun j => lrecNat s j 0x82 2 == lrecNat s x.id 0x82 2
  setCore s g { c with kernels := left, mark := c.mark.filter fun m => m.1 != x.id
                       slots := if kept then c.slots else mapVec (fun sl => if sl.owner == q then { sl with given := false } else sl) c.slots }

/-- Release the cores of a kernel and forget its groups, marks and proxies (R337, R347); a kernel that shared a core has its control slot
again (R305). -/
def releaseCores (s : State) (x : Kern) : State :=
  let s1 := (kernCores x).foldl (fun t g => leaveCore (endProxies t x.id g) x g) s
  let s1 := if kernSamp s1 x.id then (kernCores x).foldl (returnRecord x.id) s1 else s1
  let s1 := (kernCores x).foldl (fun t g => match (getCore t g).kernels with
    | [j] => match kernOf t j with
        | some y => takeSlots t y g
        | none => t
    | _ => t) s1
  { s1 with kerns := s1.kerns.filter (fun y => y.id != x.id), doneSeq := s1.doneSeq + 1
            rises := s1.rises.filter (fun r => r.1.1 != x.id), holds := s1.holds.filter fun h => h.1 != x.id
            queues := s1.queues.map fun q => if q.q == x.queue then { q with idle := s1.doneSeq + 1 } else q }

/-- Kernel k becomes complete (R337); killed, CDONE gains 1 + 2^48 (R338). -/
def completeKernel (s : State) (x : Kern) (killed : Bool) : State :=
  let s1 := (kernCores x).eraseDups.foldl (fun t g => freeAllOn t x.id g) s
  let s2 := writeNat s1 (kernLoc x.id + 0x84) 4 0
  let s3 := setKernState (releaseCores s2 x) x.id 7
  addRef s3 (lrecNat s3 x.id 0x28 6) (if killed then w64 (1 + 2 ^ 48) else 1) treeAdder

/-- Population fails (R322, R327): fibres freed, cores released, CDONE add of a refusal. -/
def failPopulation (s : State) (x : Kern) : State :=
  let s1 := (kernCores x).eraseDups.foldl (fun t g => freeAllOn t x.id g) s
  refuseKernel (releaseCores s1 x) x.id

/-! ## Kernel end (R336) and kill (R338) -/

def sampQuiet (s : State) (g : Nat) : Bool := readWord s (spadLoc g 0x1FF00) == readWord s (spadLoc g 0x1FF08)

/-- Every fibre of kernel k on core g is done: a marked core can move (R335). -/
def moveReady (s : State) (g k : Nat) : Bool := (getCore s g).fibres.all fun e => e.2.kern != some k || e.2.state == .done
/-- A move of core g for kernel k is in progress: nothing but its own steps is left to come. -/
def moveInProgress (s : State) (g k : Nat) : Bool := (getCore s g).mark.any (fun m => m.1 == k) && moveReady s g k

/-- Core g is quiet for kernel k (R336). -/
def quietCore (s : State) (k g : Nat) : Bool :=
  let c := getCore s g
  (c.fibres.all fun e => e.2.kern != some k || e.2.state == .done || (e.2.state == .faulted && kernFpol s k)) && c.level.isEmpty
    && (!kernSamp s k || sampQuiet s g) && !moveInProgress s g k

def quietKernel (s : State) (x : Kern) : Bool := (kernCores x).all (fun g => quietCore s x.id g) && x.sent == x.rcvd

/-- An instruction of the kernel's fibres has issued and is not complete: the kill waits for it (R338). -/
def hasReply (s : State) (x : Kern) : Bool :=
  (kernCores x).any fun g => (kernFibres s g x.id).any fun f => (slotOfFibre s g f).any fun k => unfinished s g k

/-- Stop fibre f of core g of a killed kernel: one whose instruction is not complete goes on until it is (R61, R338); another ends at once, with
no wait and no wake left. -/
def stopFibre (s : State) (g f : Nat) : State :=
  let quiet := removeWaiter (removeWaiter s (.fibre g f)) (.getter g f)
  match slotOfFibre s g f with
  | some j => if unfinished s g j then s else unbind quiet g j .done
  | none => match fibreInfo s g f with
      | some i =>
        let t := setFibreInfo quiet g f { i with state := .done, wake := none }
        let c := getCore t g
        refillReady (setCore t g { c with ready := c.ready.filter (· != f), woken := c.woken.filter (· != f) }) g
      | none => s

/-- The kernel is killed on core g while a reply is outstanding: its proxies are spent and its mark is cancelled (R335, R347). -/
def stopOn (s : State) (k g : Nat) : State :=
  let t := endProxies s k g
  let u := setCore t g { getCore t g with mark := (getCore t g).mark.filter fun m => m.1 != k }
  (kernFibres u g k).foldl (fun t f => stopFibre t g f) u

/-- Kill: a kernel that is not on its cores yet is refused; of one that is, KILL is set, fibres that sleep, run or are swapped stop at once, and
the kernel completes once no reply is outstanding. An entry that is free, complete or refused is left as it is. -/
def killKernel (s : State) (k : Nat) : State :=
  match kernOf s k with
  | none => s
  | some x =>
    let st := kernState s k
    let s1 := writeNat s (kernLoc k + 0xA8) 1 (readNat s (kernLoc k + 0xA8) 1 ||| 2)
    if st = 1 ∨ st = 2 ∨ st = 3 then refuseKernel (dropGate s1 k) k
    else if st = 4 ∨ st = 5 ∨ st = 6 then
      if hasReply s1 x then (kernCores x).foldl (fun t g => stopOn t k g) (setKern s1 { x with killed := true })
      else completeKernel s1 x true
    else s

/-! ## Occupancy (R334, R335) -/

def pipeCount (s : State) (home : Nat) : Nat := (readWord s (spadLoc home 0x1FFD0) - readWord s (spadLoc home 0x1FFD8)).toNat

/-- The highest-ranked unmarked core of a group, when the group has two or more. -/
def topUnmarked (s : State) (grp : Group) : Option Nat :=
  if grp.members.length < 2 then none else grp.members.reverse.find? fun g => (getCore s g).mark.isNone

/-- Stages a and b may exchange cores: same kind, UNIT 0, one cluster. -/
def movable (s : State) (k : Nat) (a b : Group) : Bool :=
  let e := stageOf (lrec s k) a.stage
  let f := stageOf (lrec s k) b.stage
  e.wide == f.wide && !e.whole && !f.whole && a.members.head?.map clusterOf == b.members.head?.map clusterOf

/-- One iteration boundary of kernel k: ITER + 1, then each pipe in ascending order (R334). -/
def boundary (s : State) (k : Nat) : State :=
  let s1 := writeNat s (kernLoc k + 0xA0) 8 (readNat s (kernLoc k + 0xA0) 8 + 1)
  match kernOf s1 k with
  | none => s1
  | some x => (List.range (x.groups.length - 1)).foldl (fun t i =>
      match x.groups[i]?, x.groups[i + 1]? with
      | some a, some b =>
        if movable t k a b = false then t else
        let o := pipeCount t b.home
        let mark := fun (src : Group) (dst : Nat) => match topUnmarked t src with
          | some g => setCore t g { getCore t g with mark := some (k, dst) }
          | none => t
        if o ≥ 768 ∧ a.members.length ≥ 2 then mark a (i + 1) else if o ≤ 256 ∧ b.members.length ≥ 2 then mark b i else t
      | _, _ => t) s1

/-- The pool of stage 0 goes from old to new: every boundary k × T0 that it first reaches now (R334). -/
def boundaries (s : State) (k old new_ : Nat) : State :=
  match kernOf s k with
  | none => s
  | some x =>
    match x.groups with
    | a :: _ :: _ =>
      let t0 := a.m * a.n
      if t0 = 0 then s else (List.range (new_ / t0 - old / t0)).foldl (fun t _ => boundary t k) s
    | _ => s

/-- Regroup a stage with new members: shares from the admission snapshot (R311). -/
def regroup (s : State) (x : Kern) (grp : Group) (ms : List Nat) : Group :=
  { grp with members := ms, shares := sharesOf s x ms (grp.m * grp.n) }

end Sys2Proof.Machine
end

