-- ==== Sys2Proof/Machine/Queue.lean ====
section
/-!
DEFINITION. The queue scheduler (R295-R307, R323, R324): descriptors, hardware queue slots, reading records, admission, the core arbiter.
-/
namespace Sys2Proof.Machine

def qLoc (q : Nat) : Nat := swLoc (0x15000000 + 64 * q)
def qState (s : State) (q : Nat) : Nat := readNat s (qLoc q + 0x0B) 1
def setQState (s : State) (q v : Nat) : State := writeNat s (qLoc q + 0x0B) 1 v
def qPrio (s : State) (q : Nat) : Nat := readNat s (qLoc q + 0x0A) 1
def qTenant (s : State) (q : Nat) : BitVec 12 := BitVec.ofNat 12 (readNat s (qLoc q + 0x0C) 2)
def qSeen (s : State) (q : Nat) : Word := readWord s (qLoc q + 0x20)
def qRing (s : State) (q : Nat) : Nat := readNat s (qLoc q) 8
def qLog (s : State) (q : Nat) : Nat := readNat s (qLoc q + 0x08) 1
def qNotify (s : State) (q : Nat) : Option Nat := counterRef s (readWord s (qLoc q + 0x10))
def qTaken (s : State) (q : Nat) : Option Nat := counterRef s (readWord s (qLoc q + 0x18))
def notifyVal (s : State) (q : Nat) : Word := match qNotify s q with
  | some a => readWord s a
  | none => qSeen s q
def queueOf (s : State) (q : Nat) : Queue := (s.queues.find? fun x => x.q == q).getD { q := q }
def setQueue (s : State) (x : Queue) : State := { s with queues := s.queues.filter (fun y => y.q != x.q) ++ [x] }

/-- The descriptor passes the checks of an open (R296). -/
def descOk (s : State) (q : Nat) : Bool :=
  qRing s q % 128 == 0 && qRing s q < 2 ^ 55 && 1 ≤ qLog s q && qLog s q ≤ 12 && qPrio s q ≤ 3 && readNat s (qLoc q + 0x0C) 2 < 4096
    && (readBytes s (qLoc q + 0x28) 24).all (· == 0) && (qNotify s q).isSome && (qTaken s q).isSome

/-- Hardware queue slot h has the status st and queue q (R302). -/
def setSlotWord (s : State) (h st q : Nat) : State := writeWord s (swLoc (0x15800000 + 8 * h)) (w64 (st * 2 ^ 61 + q))
def slotOfQueue (s : State) (q : Nat) : Option Nat := (s.hslots.find? fun e => e.2 == q).map (·.1)

/-- Test NOTIFY against SEEN + 1 and enrol the scheduler's waiter where it is not reached, as one event (R303); a poisoned word has no value,
so that its waiters wake (R106) and this one enrols (R102). -/
def watchNotify (s : State) (q : Nat) : State := match qNotify s q with
  | none => s
  | some a =>
    match readCounter s a with
    | (some v, t) => if reached v (qSeen s q + 1) then { t with fired := t.fired ++ [(.notify q, some v)] } else enrolWaiter t (.notify q) a (qSeen s q + 1)
    | (none, t) => enrolWaiter t (.notify q) a (qSeen s q + 1)

/-- The scheduler tests NOTIFY against SEEN + 1: a poisoned word is not reached, and its waiters wake (R102, R106). -/
def testNotify (s : State) (q : Nat) : Bool × State := match qNotify s q with
  | none => (false, s)
  | some a => match readCounter s a with
      | (some v, t) => (reached v (qSeen s q + 1), t)
      | (none, t) => (false, t)

/-- A queue has an open launch: its record is read and it is not yet complete or refused. -/
def hasLaunch (s : State) (q : Nat) : Bool := s.kerns.any fun k => k.queue == q
/-- R302. -/
def queueIdle (s : State) (q : Nat) : Bool := !hasLaunch s q && notifyVal s q == qSeen s q

/-- The value of NOTIFY that an open store copies to SEEN (R303). A poisoned word wakes its waiters (R106) and has no value: SEEN takes a free
value. DESIGN CHOICE (log 85). -/
def seenAtOpen (s : State) (q : Nat) : Word × State := match qNotify s q with
  | none => (qSeen s q, s)
  | some a => match readCounter s a with
      | (some v, t) => (v, t)
      | (none, t) => let f := freshBytes t 8
                     (w64 (natOf f.1), f.2)

/-- Open store (R296, R303). -/
def openQueue (s : State) (q : Word) : State :=
  let n := q.toNat
  if n < 65536 ∧ qState s n = 0 ∧ descOk s n = true then
    let v := seenAtOpen s n
    let s1 := writeWord (setQState v.2 n 1) (qLoc n + 0x20) v.1
    watchNotify (setQueue s1 { q := n }) n
  else s

/-- Close store (R296, R303): a dormant or pending queue closes; a bound one closes when it is next idle. -/
def closeQueue (s : State) (q : Word) : State :=
  let n := q.toNat
  if n ≥ 65536 then s
  else if qState s n = 1 ∨ qState s n = 2 then
    { setQState (removeWaiter s (.notify n)) n 0 with pending := s.pending.filter (· != n), fired := s.fired.filter fun e => e.1 != .notify n }
  else if qState s n = 3 ∨ qState s n = 4 then setQueue s { queueOf s n with close := true }
  else s

def freeSlotNo (s : State) : Option Nat := leastBelow 4096 fun h => (look s.hslots h).isNone

/-- Bind queue q to slot h. -/
def bindQueue (s : State) (q h : Nat) : State :=
  let s1 := setSlotWord (setQState s q 3) h 1 q
  { writeNat s1 (qLoc q + 0x0E) 2 h with hslots := place s.hslots h q, pending := s.pending.filter (· != q) }

/-- Choose queue q's unbind (R303). -/
def startUnbind (s : State) (q : Nat) : State := match slotOfQueue s q with
  | some h => setSlotWord (setQState s q 4) h 2 q
  | none => s

/-- The re-test at the home of NOTIFY (R303, R304). -/
def retestQueue (s : State) (q : Nat) : State :=
  match slotOfQueue s q with
  | none => s
  | some h =>
    let r := testNotify s q
    if r.1 then setSlotWord (setQState r.2 q 3) h 1 q
    else
      let s1 := { setSlotWord r.2 h 0 0 with hslots := strike r.2.hslots h }
      if (queueOf s q).close then { setQState s1 q 0 with queues := s1.queues.filter fun x => x.q != q }
      else watchNotify (setQState s1 q 1) q

/-- The pending list by PRIO of the queue, then in the order of waking (R303). -/
def enqueuePending (s : State) (q : Nat) : State :=
  let before := s.pending.filter fun r => qPrio s r ≤ qPrio s q
  let after := s.pending.filter fun r => qPrio s r > qPrio s q
  setQState { s with pending := before ++ [q] ++ after } q 2

/-- The idle bound queue whose last launch completed earliest. -/
def oldestIdle (s : State) : Option Nat :=
  let c := (s.hslots.map (·.2)).filter fun q => qState s q == 3 && queueIdle s q
  c.foldl (fun b q => match b with
    | none => some q
    | some r => if (queueOf s q).idle < (queueOf s r).idle then some q else some r) none

/-- The dormant queue's waiter is woken (R303). -/
def wakeQueue (s : State) (q : Nat) : State :=
  if qState s q ≠ 1 then s else
  match freeSlotNo s with
  | some h => bindQueue s q h
  | none => match oldestIdle s with
      | some r =>
        let s1 := retestQueue (startUnbind s r) r
        match freeSlotNo s1 with
        | some h => bindQueue s1 q h
        | none => enqueuePending s1 q
      | none => enqueuePending s q

/-- The lowest kernel-table entry free for reuse (R321). -/
def freeKern (s : State) : Option Nat := leastBelow 8192 fun k => kernState s k == 0 || kernState s k == 7 || kernState s k == 8

/-- SEEN + 1, then TAKEN + 1 as a release with KIND 2 (R301). -/
def takenOne (s : State) (q : Nat) : State :=
  let s1 := writeWord s (qLoc q + 0x20) (qSeen s q + 1)
  match qTaken s1 q with
  | some a => addAt s1 a 1 schedAdder
  | none => s1

/-- Write the kernel-table entry of a record just read (R321, R322). -/
def postKernel (s : State) (k q h : Nat) (b : List Byte) : State :=
  let prio := max (recBits b 0x3A 2 8 2) (qPrio s q)
  let s1 := writeBytes s (kernLoc k) (b ++ bytesOf 1 1 ++ bytesOf 1 prio ++ bytesOf 2 h ++ List.replicate 124 0)
  let old := (queueOf s q).prev
  let me : Kern := { id := k, queue := q, prio := prio, prev := old, num := s.launches, pred := (queueOf s q).last }
  setQueue { s1 with kerns := s1.kerns ++ [me], launches := s.launches + 1 } { queueOf s1 q with prev := recBits b 0x2E 6 0 38 + recBits b 0x2E 6 47 1 * 2 ^ 47, last := some s.launches }

/-- A read that the device makes at the host TLB of I/O die 0 (R399). -/
def ask0 (tenant : BitVec 12) (src : Purpose) (s : State) (va : Word) (n : Nat) : Ask := askHost s 0 tenant accHostRead src 0 va n
/-- The refused read of purpose src has been acted on. -/
def dropFail (s : State) (src : Purpose) : State := { s with hostFails := s.hostFails.filter (· != src) }

/-- The scheduler reads the next record of a bound queue (R301, R399); none while NOTIFY is poisoned (R102). -/
def readRecord (s0 : State) (q : Nat) : State :=
  match slotOfQueue s0 q, freeKern s0 with
  | some h, some k =>
    if qState s0 q ≠ 3 then s0 else
    let r := testNotify s0 q
    let s := r.2
    if r.1 = false then s else
    match readClean (ask0 (qTenant s q) (.ring q)) 0 s (qRing s q + 128 * ((qSeen s q).toNat % 2 ^ qLog s q)) 128 with
    | .bytes b t => takenOne (postKernel t k q h b) q
    | .refused t => bumpIo (takenOne (dropFail t (.ring q)) q) 0 0x48 1
    | .notYet t => onlyAsked s t
  | _, _ => s0

/-- The launch of the same queue read just before kernel x, if still in the table (R323). -/
def predecessor (s : State) (x : Kern) : Option Kern := x.pred.bind fun n => s.kerns.find? fun y => y.num == n

/-- Its turn has come (R323): the predecessor is complete or refused, or running with SMS or HINT. -/
def itsTurn (s : State) (x : Kern) : Bool := match predecessor s x with
  | none => true
  | some y => kernState s y.id == 5 && (kernSms s y.id || kernHint s y.id)

/-- A user cluster of the kind has COUNT present cores (R324). -/
def clusterHas (s : State) (wide : Bool) (n : Nat) : Bool :=
  (List.range Config.clusters).any fun cl => userCluster s wide cl && n ≤ ((clusterCores cl).filter fun g => present s g).length
def clustersOfKind (s : State) (wide : Bool) : Nat := ((List.range Config.clusters).filter fun cl => userCluster s wide cl).length

/-- The stage can never be placed (R324). -/
def stageBad (s : State) (e : StageEntry) : Bool := if e.whole then e.count > clustersOfKind s e.wide else !clusterHas s e.wide e.count

/-- The record fails R324, apart from the fibre tables. -/
def admitBad (s : State) (k : Nat) : Bool :=
  !recordOk (lrec s k) || (kernStages s k).any (fun e => stageBad s e) || !refValid s (lrecNat s k 0x28 6) || !refValid s (lrecNat s k 0x2E 6)
    || !refValid s (lrecNat s k 0x34 6)

/-- To admitted: the snapshot, and PHAND from the predecessor's CHAND (R311, R323). -/
def admitNow (s : State) (x : Kern) : State :=
  let s1 := writeNat (setKernState s x.id 3) (kernLoc x.id + 0x88) 8 x.prev
  setKern { s1 with admitSeq := s1.admitSeq + 1 } { x with snap := s.cur, admitted := s.admitSeq }

/-- KERNEL_ADMISSION (R322-R324). -/
def admitKernel (s : State) (k : Nat) : State :=
  match kernOf s k with
  | none => s
  | some x =>
    if kernState s k ≠ 1 ∨ itsTurn s x = false then s
    else if admitBad s k then refuseKernel s k
    else
      match readTables (ask0 (kernTenant s k) (.tables x.num)) k (kernStages s k) s [] with
      | .notYet t => onlyAsked s t
      | .refused t => refuseKernel (dropFail t (.tables x.num)) k
      | .bytes tabs u =>
        if tabs.any (fun b => !fibreTableOk b) then refuseKernel u k
        else match counterRef u (w64 (lrecNat u k 0x34 6)) with
          | some a =>
            let thr := w64 (lrecNat u k 0x20 8)
            match readCounter u a with
            | (none, t) => refuseKernel t k
            | (some v, t) => if reached v thr then admitNow t x else enrolWaiter (setKernState t k 2) (.gate k) a thr
          | none => admitNow u x

/-- GATE_REACHED (R307). -/
def gateKernel (s : State) (k : Nat) : State :=
  match kernOf s k, s.fired.find? (fun e => e.1 == .gate k) with
  | some x, some (_, v) =>
    let s1 := { s with fired := s.fired.filter fun e => e.1 != .gate k }
    if kernState s k ≠ 2 then s1
    else match v with
      | some _ => admitNow s1 x
      | none => refuseKernel s1 k
  | _, _ => s

/-- Admitted kernels in the order in which they are tried (R325). -/
def tryOrder (s : State) : List Kern :=
  sortBy (fun a b => a.prio < b.prio || (a.prio == b.prio && a.admitted ≤ b.admitted)) (s.kerns.filter fun x => kernState s x.id == 3)

/-- KERNEL_PLACEMENT: k is placed when every kernel tried before it cannot be (R325). -/
def placeKernelEvent (s : State) (k : Nat) : State :=
  match (tryOrder s).find? fun x => (findPlacement s x).isSome with
  | some x => if x.id = k then (match findPlacement s x with
      | some p => placeKernel s x p
      | none => s) else s
  | none => s

/-- POPULATION_COMPLETE (R327): the fills and the fibres, once every page they need is there; or failure. -/
def populate (s : State) (k : Nat) : State :=
  match kernOf s k with
  | none => s
  | some x =>
    if kernState s k ≠ 4 then s else
    match x.park with
    | some (g, t) =>
      if reached (readWord s (wakeCtr g)) (w64 t) then
        let c := getCore s g
        if c.refused.contains t then failPopulation (setCore s g { c with refused := c.refused.filter (· != t) }) x
        else setKern s { x with park := none }
      else s
    | none =>
      match gatherPop x (popCores x) s [] with
      | .refused t => failPopulation t x
      | .notYet t => onlyAsked s t
      | .bytes fills t =>
        let s1 := fills.foldl fillCore t
        match createAll k fills s1, fills with
        | some s2, f :: _ => setKern (setKernState s2 k 5) { x with segs := f.segs }
        | some s2, [] => setKernState s2 k 5
        | none, _ => failPopulation s1 x

/-! ## The arbiter (R305, R306) -/

/-- Slots that the arbiter hands out on core g. -/
def userSlots (s : State) (g : Nat) : List (Fin 16) :=
  (List.finRange 16).filter fun k => (1 ≤ k.val && k.val ≤ 13) || (k.val == 14 && !((getCore s g).kernels.any fun n => kernSamp s n))

/-- Hardware queue slot of a fibre's queue. -/
def fibreQueue (s : State) (g f : Nat) : Nat := match slotOfFibre s g f with
  | some k => (getCtx s g k).queue.toNat
  | none => match fibreInfo s g f with
      | some i => readNat s (i.loc + 0x58) 4 / 2 ^ 12 % 4096
      | none => 0

/-- Demand of queue h on core g: its ready and bound fibres for user slots (R305). -/
def demand (s : State) (g h : Nat) : Nat :=
  min (((getCore s g).fibres.filter fun e => e.2.role == .user && e.2.kern.isSome && (e.2.state == .ready || e.2.state == .bound)
    && fibreQueue s g e.1 == h).length) (userSlots s g).length

/-- User slots of core g that queue h holds: those handed to it (R306). -/
def slotHeld (s : State) (g h : Nat) : Nat :=
  ((userSlots s g).filter fun k => (getCore s g).slots[k].given && (getCore s g).slots[k].owner.toNat == h).length

/-- Queues with demand on core g, ascending. -/
def contenders (s : State) (g : Nat) : List Nat :=
  sortBy (· ≤ ·) (((getCore s g).fibres.filter fun e =>
    e.2.role == .user && e.2.kern.isSome && (e.2.state == .ready || e.2.state == .bound)).map fun e => fibreQueue s g e.1).eraseDups

/-- Priority in force and weight of the queue bound to hardware slot h, on core g. -/
def hPrio (s : State) (g h : Nat) : Nat := match (getCore s g).kernels.find? fun k => readNat s (kernLoc k + 0x82) 2 == h with
  | some k => readNat s (kernLoc k + 0x81) 1
  | none => 3
def hWeight (s : State) (h : Nat) : Nat := match look s.hslots h with
  | some q => readNat s (qLoc q + 0x09) 1
  | none => 0

/-- Credits as fractions: comparison and clamping to -16 to 16. -/
def fracLe (a b : Int × Nat) : Bool := a.1 * b.2 ≤ b.1 * a.2
def fracLt (a b : Int × Nat) : Bool := a.1 * b.2 < b.1 * a.2
def fracAdd (a b : Int × Nat) : Int × Nat :=
  let n := a.1 * b.2 + b.1 * a.2
  let d := a.2 * b.2
  let k := Nat.gcd n.natAbs d
  if k = 0 then (0, 1) else (n / k, d / k)
def fracClamp (a : Int × Nat) : Int × Nat := if fracLt a (-16, 1) then (-16, 1) else if fracLt (16, 1) a then (16, 1) else a
def creditOf (c : Core) (h : Nat) : Int × Nat := (look c.credit h).getD (0, 1)

def setOwner (s : State) (g : Nat) (k : Fin 16) (h : Nat) : State :=
  let c := getCore s g
  setCore s g { c with slots := c.slots.set k (ownSlot c.slots[k] (BitVec.ofNat 12 h)) }

/-- The queue that owns slot k, or has taken it. -/
def willOwn (s : State) (g : Nat) (k : Fin 16) : Option Nat :=
  let sl := (getCore s g).slots[k]
  (sl.taker.orElse fun _ => if sl.given then some sl.owner else none).map (·.toNat)

/-- The greatest credit among the queues, ties to the lower slot. -/
def topCredit (c : Core) (l : List Nat) : Option Nat :=
  l.foldl (fun b h => match b with
    | none => some h
    | some r => if fracLt (creditOf c r) (creditOf c h) then some h else some r) none

/-- A slot of core g that the arbiter may hand out: no fibre is bound to it, and its owner has no demand left for it. -/
def isFreeSlot (s : State) (g : Nat) (qs : List Nat) (k : Fin 16) : Bool :=
  let sl := (getCore s g).slots[k]
  !sl.bound && !(sl.given && qs.contains sl.owner.toNat && slotHeld s g sl.owner.toNat ≤ demand s g sl.owner.toNat)

/-- Queue h takes slots of the list that p picks, up to its demand. -/
def takeSome (g h : Nat) (p : State → Fin 16 → Bool) (s : State) (ks : List (Fin 16)) : State :=
  ks.foldl (fun u k =>
    if ((userSlots u g).filter fun j => willOwn u g j == some h).length < demand u g h ∧ willOwn u g k ≠ some h ∧ p u k = true then setOwner u g k h else u) s

/-- Queues of priority 0 take free user slots, and then slots held by lower priorities, up to their demand. -/
def takeUrgent (s : State) (g : Nat) (qs : List Nat) : State :=
  let top := qs.filter fun h => hPrio s g h == 0
  top.foldl (fun t h =>
    takeSome g h (fun u k => !isFreeSlot u g qs k && !(willOwn u g k).any top.contains)
      (takeSome g h (fun u k => isFreeSlot u g qs k) t (userSlots t g)) (userSlots t g)) s

/-- Slots that queues of priority 0 have, up to their demand: of one that it owns beyond that, a queue leaves the rest (R306). -/
def urgentSlots (s : State) (g : Nat) (qs : List Nat) : Nat :=
  (qs.filter fun h => hPrio s g h == 0).foldl (fun n h =>
    n + min ((userSlots s g).filter fun k => willOwn s g k == some h).length (demand s g h)) 0

/-- Hand out the free slots one at a time. -/
def handOut (s : State) (g : Nat) (qs : List Nat) : State :=
  (userSlots s g).foldl (fun t k =>
    if isFreeSlot t g qs k = false then t else
    let want := qs.filter fun h => hPrio t g h != 0 && slotHeld t g h < demand t g h
    match topCredit (getCore t g) (want.filter fun h => hWeight t h != 0) with
    | some h => setOwner t g k h
    | none => match want.filter fun h => hWeight t h == 0 with
        | h :: _ => setOwner t g k h
        | [] => t) s

/-- At most one held slot changes owner: none where the queue with the least negative credit holds no slot. -/
def moveOne (s : State) (g : Nat) (qs : List Nat) : State :=
  let c := getCore s g
  let low := qs.filter fun h => hPrio s g h != 0 && hWeight s h != 0
  let to_ := topCredit c (low.filter fun h => fracLe (1, 1) (creditOf c h) && slotHeld s g h < demand s g h)
  let neg := low.filter fun h => fracLt (creditOf c h) (0, 1)
  let from_ := neg.foldl (fun b h => match b with
    | none => some h
    | some r => if fracLt (creditOf c h) (creditOf c r) then some h else some r) none
  match to_, from_ with
  | some h, some r => match ((userSlots s g).reverse.find? fun k => c.slots[k].given && c.slots[k].owner.toNat == r && c.slots[k].taker.isNone) with
      | some k => setOwner s g k h
      | none => s
  | _, _ => s

/-- QUEUE_ARBITER: a rotation boundary of core g, a cycle in which the rotation pointer is 0 (R306). -/
def arbitrate (s0 : State) (g : Nat) : State :=
  if (getCore s0 g).rot ≠ 0 ∨ (getCore s0 g).arbiter = cycOf s0 g then s0 else
  let s := setCore s0 g { getCore s0 g with arbiter := cycOf s0 g }
  let qs := contenders s g
  let s1 := takeUrgent s g qs
  let low := qs.filter fun h => hPrio s1 g h != 0 && hWeight s1 h != 0
  let u := (userSlots s1 g).length - urgentSlots s1 g qs
  let e := fun h => hWeight s1 h * 2 ^ (3 - hPrio s1 g h)
  let tot := low.foldl (fun a h => a + e h) 0
  let c := getCore s1 g
  let cr := if tot = 0 then c.credit.filter (fun x => qs.contains x.1) else
    low.map fun h => (h, fracClamp (fracAdd (creditOf c h) ((u * e h : Int) - (slotHeld s1 g h * tot : Int), tot)))
  let s2 := setCore s1 g { c with credit := cr }
  moveOne (handOut s2 g qs) g qs

end Sys2Proof.Machine
end

