-- ==== Sys2Proof/Machine/Links.lean ====
section
/-!
DEFINITION. Links (R353-R373): state changes and the link-event counter, inbound windows and the ordering point, the Welt link layer, the
outbound apertures, resets of the host function.
-/
namespace Sys2Proof.Machine

/-- Location of a link record (R353). -/
def linkLoc : LinkId → Nat
  | .port p => swLoc (0x17000000 + 64 * p.val)
  | .welt w => swLoc (0x17000200 + 64 * w.val)
def linkDie : LinkId → Nat
  | .port p => p.val / 2
  | .welt w => w.val / 4
def linkAdder : LinkId → Adder
  | .port p => ⟨4, p.val, 0⟩
  | .welt w => ⟨5, w.val, 0⟩

/-- The status word (R354). -/
def statusWord (l : Link) : Word :=
  w64 (l.state.toNat * 2 ^ 61 + l.role.toNat * 2 ^ 58 + l.width % 64 * 2 ^ 52 + l.rate % 16 * 2 ^ 48 + l.peer % 65536 * 2 ^ 32)

/-- The add of R356. -/
def levtAdd (s : State) (id : LinkId) : State :=
  match counterRef s (readWord s (linkLoc id + 8)) with
  | some a => addAt s a 1 (linkAdder id)
  | none => s

/-- Enter a state: WIDTH and RATE are 0 while the link is not up (R354); the link-event counter is added to (R356). -/
def changeLink (s : State) (l : Link) (st : BitVec 3) : State :=
  levtAdd (setLink s (if st = 2 then { l with state := st } else { l with state := st, width := 0, rate := 0 })) l.id

/-- A command in flight with uncovered flits on a link that goes down is lost from the first of them on (R370). -/
def loseCmd (d : Cmd) (l : List SentFlit) : Cmd :=
  if d.state ≠ 1 ∧ d.state ≠ 2 then d else
  l.foldl (fun e f => match f.cmd with
    | some (i, n) => if i = e.id then { e with lost := some (min n (e.lost.getD n)) } else e
    | none => e) d

/-- The link goes down: sequence numbers start at 0 again, and commands in flight on it are lost (R370). -/
def dropLink (s : State) (l : Link) (st : BitVec 3) : State :=
  changeLink { s with cmds := s.cmds.map fun d => loseCmd d l.replay } { l with rxSeq := 0, txSeq := 0, replay := [], backlog := [], tries := 0 } st

/-- Unmasked pending vectors send their messages when the host port can carry them (R364). -/
def flushMsix (s : State) : State :=
  if hostUp s then
    let go := s.pend64.filter fun v => !s.mask64.contains v
    { s with pend64 := s.pend64.filter (fun v => s.mask64.contains v), out := s.out ++ go.map .msix }
  else s

/-- LINK_TRAINING_FAIL (R355): the third failed attempt of a retraining takes the link down (R370). -/
def failTraining (s : State) (id : LinkId) : State :=
  let l := getLink s id
  if l.state = 1 then dropLink s l 4
  else if l.state = 3 then (if l.tries + 1 ≥ 3 then dropLink s l 4 else setLink s { l with tries := l.tries + 1 })
  else s

/-- LINK_ERROR: up to retraining (R355). -/
def retrainLink (s : State) (id : LinkId) : State :=
  let l := getLink s id
  if l.state = 2 then changeLink s { l with tries := 0 } 3 else s

/-- A steward store of v to CTL (R353, R355). -/
def ctlStore (s : State) (id : LinkId) (v : Nat) : State :=
  let l := getLink s id
  let s1 := writeNat s (linkLoc id + 0x18) 8 (v % 4)
  if v / 2 % 2 = 1 then (if l.state = 0 then s1 else dropLink s1 l 0)
  else if v % 2 = 1 ∧ l.state = 4 then changeLink (writeNat s1 (linkLoc id + 0x18) 8 0) l 1
  else s1

/-! ## Inbound windows (R358-R362) -/

/-- Location of descriptor n of a link's window table (R359). -/
def winLoc (id : LinkId) (n : Fin 64) : Nat := match id with
  | .port p => swLoc (0x17020000 + 2048 * p.val + 32 * n.val)
  | .welt w => swLoc (0x17024000 + 2048 * w.val + 32 * n.val)
def winKind (s : State) (r : Inbound) : Nat :=
  let k := readNat s (winLoc r.link r.win + 0x14) 1
  if k > 3 then 0 else k
def winTenant (s : State) (r : Inbound) : BitVec 12 := BitVec.ofNat 12 (readNat s (winLoc r.link r.win + 0x12) 2)
def winClu (s : State) (r : Inbound) : Nat := readNat s (winLoc r.link r.win + 0x10) 2 % 8192
def reqLen (r : Inbound) : Nat := match r.data with
  | some d => d.length
  | none => r.len
/-- The link serves inbound requests: up, as host endpoint or as a Welt link. -/
def servesInbound (s : State) (id : LinkId) : Bool :=
  let l := getLink s id
  l.state == 2 && (l.role == 1 || l.role == 4)

/-- The window is open, wide enough, and gives the right (R360). -/
def winAdmits (s : State) (r : Inbound) : Bool :=
  let rights := readNat s (winLoc r.link r.win + 0x15) 1
  winKind s r != 0 && r.off + reqLen r ≤ readNat s (winLoc r.link r.win + 8) 8
    && (match r.data with
        | some _ => rights / 2 % 2 == 1
        | none => rights % 2 == 1)

def countRefused (s : State) (id : LinkId) : State := bumpIo s (linkDie id) 0x30 1

/-- Event k of a port reaches the host by AER, unless the host's mask hides it (R361): 0 a poisoned TLP that writes, 1 poison in a
counter-window write, 2 a read that meets poison. The host holds the mask: it is free (log 8). -/
def reportAer (s : State) (id : LinkId) (k : Nat) : State := match id with
  | .port _ => if Config.aerMasked s.free k then s else { s with out := s.out ++ [.aer id k] }
  | .welt _ => s

/-- Cluster-space address and location of a kind 1 or 2 request. -/
def winAddr (s : State) (r : Inbound) : Nat := readNat s (winLoc r.link r.win) 8 % 2 ^ 25 + r.off
def granuleGuarded (s : State) (a : Nat) : Bool := s.guards.contains (a / 16384 * 16384)

/-- Kind 1's own refusals (R360). -/
def spadAdmits (s : State) (r : Inbound) : Bool :=
  let a := winAddr s r
  let n := reqLen r
  let cl := winClu s r
  cl < Config.clusters && a + n ≤ Config.clusterBytes
    && (List.range (n / Config.spadBytes + 2)).all (fun i =>
      let c := a / Config.spadBytes + i
      c * Config.spadBytes ≥ a + n || present s (cl * 192 + c))
    && !guardedIn s (clusterLoc cl a) n

/-- Kind 2's own refusals (R360). BASE + o need not be a multiple of 8: the counter word is the one in which it lies. DESIGN CHOICE (log 29). -/
def counterAdmits (s : State) (r : Inbound) : Bool :=
  let a := winAddr s r
  let cl := winClu s r
  reqLen r == 8 && r.off % 8 == 0 && a < Config.clusterBytes && cl < Config.clusters
    && present s (cl * 192 + a / Config.spadBytes) && !granuleGuarded s (clusterLoc cl a)
    && (match r.data with
        | some d => natOf d < 2 ^ 63
        | none => true)

/-- Module virtual address of a kind 3 request; one that meets an untranslated range is refused (log 10). -/
def winVa (s : State) (r : Inbound) : Nat := readNat s (winLoc r.link r.win) 8 + r.off
def moduleAdmits (s : State) (r : Inbound) : Bool :=
  let va := winVa s r
  va + reqLen r ≤ 2 ^ 55 && !untranslated va && !untranslated (va + reqLen r - 1)

/-- The request as its window's descriptor judges it when it reaches the ordering point (R359, R360); none where it is refused. -/
def judge (s : State) (r : Inbound) : Option Request :=
  let base : Request := { kind := winKind s r, addr := 0, tenant := winTenant s r, len := reqLen r, data := r.data, toxic := r.toxic }
  if r.bar0 then some { base with kind := 4, addr := r.off }
  else if winAdmits s r = false then none
  else if winKind s r = 1 then
    (if spadAdmits s r then some { base with addr := clusterLoc (winClu s r) (winAddr s r)
                                             spans := [(clusterLoc (winClu s r) (winAddr s r), reqLen r)] } else none)
  else if winKind s r = 2 then
    (if counterAdmits s r then some { base with addr := wordOf (clusterLoc (winClu s r) (winAddr s r)) } else none)
  else if moduleAdmits s r then some { base with addr := winVa s r } else none

/-- WHO of a host request: the PCIe port, or the Welt link, for which R235 names no number. DESIGN CHOICE (log 88). -/
def linkWho : LinkId → Nat
  | .port p => p.val
  | .welt w => w.val

/-! ## Replies (R360, R361) -/

/-- A read completes: the bytes, poisoned or not, or as an Unsupported Request (R360, R361). None while its link retrains or lacks room, which
holds the reply (R355, R368); a link that is down takes none. -/
def sendReply (s : State) (id : LinkId) (b : List Byte) (toxic ok : Bool) : Option State :=
  let t := if toxic then reportAer s id 2 else s
  match (getLink s id).state, id with
  | 3, _ => none
  | 2, .port _ => some { t with out := t.out ++ [.reply id b toxic ok] }
  | 2, .welt w => sendMsg t w (if ok = false then 5 else if toxic then 4 else 3) 0 0 b (.reply id b toxic ok)
  | _, _ => some s

/-! ## BAR0 (R358) -/

/-- Cores whose CUR is nonzero: all but those that the tables list with 0. -/
def presentCount (s : State) : Nat :=
  let zero := (s.cur.filter fun e => e.2 == 0).map (·.1) ++ ((s.fused.filter fun e => e.2 == 0).map (·.1)).filter fun g => (look s.cur g).isNone
  Config.cores - zero.eraseDups.length

/-- STATUS of the start block (R375). -/
def startStatus (s : State) : Word :=
  w64 (s.sstep * 2 ^ 60 + (if s.cold then 2 ^ 59 else 0) + (if s.failed then 2 ^ 58 else 0)
    + (if s.sstep ≥ 3 ∧ presentCount s < 1000000 then 2 ^ 57 else 0) + (if s.sstep ≥ 3 then s.held.length % 2 ^ 20 else 0) * 2 ^ 32)

/-- Byte o of BAR0 of port p: the status word, the start block's STATUS, the MSI-X table and the pending-bit array, in the layout that PCIe
gives those two. PRESUMED (log 81). -/
def bar0Byte (s : State) (p : Fin 8) (o : Nat) : Byte :=
  if o < 8 then nth (bytesOf 8 (statusWord (getLink s (.port p))).toNat) o 0
  else if o < 16 then nth (bytesOf 8 (startStatus s).toNat) (o - 8) 0
  else if 0x10000 ≤ o ∧ o < 0x10400 then
    (let k := o % 16
     if k < 12 then cellGet s.msix (o - 0x10000) else if k = 12 ∧ s.mask64.contains ((o - 0x10000) / 16) = true then 1 else 0)
  else if 0x11000 ≤ o ∧ o < 0x11008 then
    BitVec.ofNat 8 ((List.range 8).foldl (fun a b => a + if s.pend64.contains (8 * (o - 0x11000) + b) then 2 ^ b else 0) 0)
  else 0

/-- The host writes byte o of BAR0: an address or data byte of the MSI-X table, or a vector's mask bit; every other write is ignored. -/
def bar0Store (s : State) (o : Nat) (b : Byte) : State :=
  if o < 0x10000 ∨ 0x10400 ≤ o then s else
  let v := (o - 0x10000) / 16
  if o % 16 < 12 then { s with msix := cellPut s.msix (o - 0x10000) b }
  else if o % 16 = 12 then
    (if b.getLsbD 0 then (if s.mask64.contains v then s else { s with mask64 := s.mask64 ++ [v] })
     else flushMsix { s with mask64 := s.mask64.filter (· != v) })
  else s
def bar0Stores (s : State) (o : Nat) : List Byte → State
  | [] => s
  | b :: bs => bar0Stores (bar0Store s o b) (o + 1) bs

/-! ## The ordering point (R129, R362) -/

/-- What becomes of a request whose turn it is: done, or it waits for a translation, a link or room. -/
inductive Landed where
  | done (s : State) | notYet (s : State)

/-- Where the bytes of a request lie; those of a module window are asked for. -/
def requestSpans (s : State) (id : LinkId) (r : Request) : Spans :=
  if r.kind ≠ 3 then .ok r.spans
  else spansVia (askHost s (linkDie id) r.tenant (if r.data.isSome then accHostWrite else accHostRead) (.inbound id r.num) (linkWho id))
    (r.len / 65536 + 2) r.addr r.len

/-- The host walker has refused request n of a link, or it is over: what was kept for it goes. -/
def forget (s : State) (id : LinkId) (n : Nat) : State :=
  let src := Purpose.inbound id n
  dropGrants (if s.hostFails.contains src then { s with hostFails := s.hostFails.filter (· != src) } else s) src none

/-- Write one span of a data write: an unbacked DPA is counted as refused (R230), a CXL port that is not up as a dropped store (R365). -/
def landSpan (s : State) (id : LinkId) (toxic : Bool) (a : Nat) (d : List Byte) : State :=
  if isDpa a ∧ backed s a = false then countRefused s id
  else if pathUp s a = false then bumpIo s (match cxlPort s a with
    | some p => linkDie (.port p)
    | none => 0) 0x40 1
  else if toxic then poisonRange s a d.length else storeAt s a d (linkAdder id)

def landSpans (s : State) (id : LinkId) (toxic : Bool) : List (Nat × Nat) → List Byte → State
  | [], _ => s
  | (a, n) :: rest, d => landSpans (landSpan s id toxic a (d.take n)) id toxic rest (d.drop n)

/-- A data write whose turn it is lands; one that meets a retraining link is held (R355) and translates anew at each try, so that no
translation outlives a `tlbinv` in it (R243). -/
def landWrite (s : State) (id : LinkId) (r : Request) (d : List Byte) : Landed :=
  if r.kind = 4 then .done (bar0Stores s r.addr d) else
  match requestSpans s id r with
  | .refused => .done (countRefused (forget s id r.num) id)
  | .notYet t => .notYet t
  | .ok l =>
    if l.any fun p => linkStateOf s p.1 == 3 then .notYet s
    else .done (landSpans (if r.toxic then reportAer (forget s id r.num) id 0 else forget s id r.num) id r.toxic l d)

/-- The spans of a read: the bytes with their poison. An unbacked DPA is counted as refused (R230). -/
def readSpans (id : LinkId) : List (Nat × Nat) → State → List (Byte × Bool) × State
  | [], s => ([], s)
  | (a, n) :: r, s =>
    let x := if isDpa a && !backed s a then (List.replicate n (0, true), countRefused s id) else devRead s 0 a n
    let y := readSpans id r x.2
    (x.1 ++ y.1, y.2)

/-- A reply that finds room ends its read. -/
def replied (s : State) (r : Option State) : Landed := match r with
  | some t => .done t
  | none => .notYet s

/-- A read whose turn it is completes. -/
def landRead (s : State) (id : LinkId) (r : Request) : Landed :=
  if r.kind = 0 then replied s (sendReply s id [] false false)
  else if r.kind = 4 then
    (match id with
     | .port p => replied s (sendReply s id ((List.range r.len).map fun i => bar0Byte s p (r.addr + i)) false true)
     | .welt _ => .done s)
  else if r.kind = 2 then
    (match readCounter s r.addr with
     | (some v, t) => replied s (sendReply t id (bytesOf 8 v.toNat) false true)
     | (none, t) => replied s (sendReply t id (readBytes t r.addr 8) true true))
  else match requestSpans s id r with
    | .refused => replied s (sendReply (countRefused (forget s id r.num) id) id [] false false)
    | .notYet t => .notYet t
    | .ok l =>
      if l.any fun p => pathHeld s p.1 then .notYet s else
      let x := readSpans id l (forget s id r.num)
      replied s (sendReply x.2 id (x.1.map (·.1)) (x.1.any (·.2)) true)

/-- The eldest posted write of a link leaves the ordering point. -/
def popPosted (s : State) (id : LinkId) : State :=
  let l := getLink s id
  setLink s { l with posted := l.posted.tail, reads := l.reads.map fun r => (r.1 - 1, r.2) }

/-- Posted writes of a link leave in the order of arrival, as far as none waits; a counter-window write waits for its own event (R362). -/
def pumpPosted : Nat → State → LinkId → State
  | 0, s, _ => s
  | fuel + 1, s, id =>
    match (getLink s id).posted with
    | [] => s
    | r :: _ =>
      match r.kind, r.data with
      | 2, _ => s
      | _, none => s
      | _, some d => match landWrite s id r d with
          | .notYet t => t
          | .done t => pumpPosted fuel (popPosted t id) id

/-- Reads that no posted write is ahead of complete, each when it can (R362). -/
def pumpReads : Nat → State → LinkId → State
  | 0, s, _ => s
  | fuel + 1, s, id =>
    match (getLink s id).reads with
    | [] => s
    | (ahead, r) :: rest =>
      let s1 := setLink s { getLink s id with reads := rest }
      let keep := fun t : State => setLink t { getLink t id with reads := (getLink t id).reads ++ [(ahead, r)] }
      if ahead ≠ 0 then pumpReads fuel (keep s1) id
      else match landRead s1 id r with
        | .done t => pumpReads fuel t id
        | .notYet t => pumpReads fuel (keep t) id

def pumpLink (s : State) (id : LinkId) : State :=
  let t := pumpPosted (getLink s id).posted.length s id
  pumpReads (getLink t id).reads.length t id
def pumpAll (s : State) : State := (s.links.map (·.id)).foldl pumpLink s

/-- A request reaches the ordering point: refused and counted, or taken in behind what has arrived before it (R359, R360). Poison in a
counter-window write discards the add (R361). -/
def arrive (s : State) (r : Inbound) : State :=
  let l := getLink s r.link
  match judge s r, r.data with
  | none, some _ => countRefused s r.link
  | none, none => setLink (countRefused s r.link) { getLink (countRefused s r.link) r.link with
      reads := l.reads ++ [(l.posted.length, { kind := 0, addr := 0, len := 0 })] }
  | some q, some _ =>
    if q.kind = 2 ∧ r.toxic = true then reportAer (countRefused s r.link) r.link 1
    else setLink s { l with posted := l.posted ++ [{ q with num := l.taken }], taken := l.taken + 1 }
  | some q, none => setLink s { l with reads := l.reads ++ [(l.posted.length, { q with num := l.taken })], taken := l.taken + 1 }

/-- An inbound request of a link that serves them; BAR0 is the host endpoint's (R358). -/
def takeIn (s : State) (r : Inbound) : State :=
  if servesInbound s r.link && (!r.bar0 || (getLink s r.link).role == 1) then pumpLink (arrive s r) r.link else s

/-- INBOUND_SCRATCHPAD_REQUEST: also a request to a closed window, and one to BAR0. -/
def inboundSpad (s : State) (r : Inbound) : State := if r.bar0 || winKind s r ≤ 1 then takeIn s r else s
/-- INBOUND_MODULE_REQUEST. -/
def inboundModule (s : State) (r : Inbound) : State := if !r.bar0 && winKind s r == 3 then takeIn s r else s
/-- INBOUND_COUNTER_READ. -/
def inboundCounterRead (s : State) (r : Inbound) : State :=
  if !r.bar0 && winKind s r == 2 && r.data.isNone then takeIn s r else s
/-- INBOUND_COUNTER_WRITE: refused, or held under R362. -/
def inboundCounterWrite (s : State) (r : Inbound) : State :=
  if !r.bar0 && winKind s r == 2 && r.data.isSome then takeIn s r else s

/-- COUNTER_WINDOW_ADD_APPLY: a counter-window write with no posted write ahead of it becomes an add, and what followed it goes on (R362). -/
def applyHeld (s0 : State) (id : LinkId) : State :=
  let s := pumpLink s0 id
  match (getLink s id).posted with
  | r :: _ => match r.kind, r.data with
      | 2, some d => pumpLink (addAt (popPosted s id) r.addr (w64 (natOf d)) (linkAdder id)) id
      | _, _ => s
  | [] => s

/-- LINK_TRAINED (R355): what the link held goes on. -/
def trainLink (s : State) (id : LinkId) (width rate peer : Nat) : State :=
  let l := getLink s id
  if l.state = 1 ∨ l.state = 3 then
    let welt := l.role = 4
    let up := { l with width := width, rate := if welt then 0 else rate, peer := if welt then peer else 0, tries := 0
                       replay := l.replay.map fun f => { f with times := 0 } }
    pumpAll (flushMsix (changeLink s up 2))
  else s

/-! ## Welt links (R367, R368) -/

/-- The message of a flit is applied through this module's windows of the link. -/
def applyMsg (s : State) (w : Fin 16) : WeltMsg → State
  | .write n o d => takeIn s { link := .welt w, win := n, off := o, len := d.length, data := some d, toxic := false }
  | .add n o i => takeIn s { link := .welt w, win := n, off := o, len := 8, data := some (bytesOf 8 i.toNat), toxic := false }
  | .read n o k => takeIn s { link := .welt w, win := n, off := o, len := k, data := none, toxic := false }
  | .reply _ => s

/-- An ACK covers the flits up to it. -/
def coverAck (l : Link) (ack : Nat) : Link := { l with replay := l.replay.filter fun f => (ack + 2 ^ 32 - f.seq) % 2 ^ 32 ≥ 2 ^ 31 }

/-- WELT_FLIT_RECEIVE: an idle flit and an accepted data flit bring their ACK; every other flit is discarded and counted. -/
def receiveFlit (s : State) (w : Fin 16) (f : Flit) : State :=
  let id := LinkId.welt w
  let l := getLink s id
  if l.state ≠ 2 ∨ l.role ≠ 4 then s
  else if f.bytes.length ≠ 248 ∨ crc64 f.bytes ≠ f.crc then bumpIo s (linkDie id) 0x28 1
  else
    let k := coverAck l (natOf (f.bytes.drop 4 |>.take 4))
    let kind := natOf (f.bytes.drop 8 |>.take 1)
    if kind = 0 then sendBacklog (setLink s k) w
    else if kind = 1 ∧ natOf (f.bytes.take 4) = k.rxSeq then
      let s1 := sendBacklog (setLink s { k with rxSeq := (k.rxSeq + 1) % 2 ^ 32 }) w
      match f.done with
      | some m => applyMsg s1 w m
      | none => s1
    else bumpIo s (linkDie id) 0x28 1

/-- WELT_REPLAY_TIMEOUT: replay from the oldest uncovered flit; the sixteenth replay of a flit sends the link to retraining. -/
def replayWelt (s : State) (w : Fin 16) : State :=
  let id := LinkId.welt w
  let l := getLink s id
  if l.state ≠ 2 ∨ l.role ≠ 4 ∨ l.replay.isEmpty = true then s else
  let n := l.replay.length
  let s1 := bumpAt (bumpIo s (linkDie id) 0x20 n) (linkLoc id + 0x10) n
  let again := l.replay.map fun f => { f with times := f.times + 1 }
  let s2 := { setLink s1 { l with replay := again } with out := s1.out ++ l.replay.map (outFlit l w) }
  if again.any fun f => f.times ≥ 16 then retrainLink s2 id else s2

/-! ## Resets of the host function (R372) -/

/-- What a start or a reset is to begin with (R374); several triggers make one start. -/
def trigger (s : State) (cold : Bool) : State :=
  let inProgress := decide (s.sstep < 9) && !s.failed
  { s with sstep := 0, failed := false, cold := cold || (inProgress && s.cold) }

/-- A posted write that a reset of the host function completes whole: it has passed R360, so that its bytes have their places (R372). -/
def accepted (s : State) (id : LinkId) (r : Request) : Bool := r.kind == 1 || r.kind == 4 || (r.kind == 3 && match requestSpans s id r with
  | .ok _ => true
  | _ => false)

/-- HOST_RESET: a hot reset or a Function Level Reset of the host endpoint. -/
def hostReset (s : State) (p : Fin 8) : State :=
  let id := LinkId.port p
  let l := getLink s id
  if l.state ≠ 2 ∨ l.role ≠ 1 then s
  else if !s.selfHosted then trigger s false
  else
    let lost := l.posted.filter fun r => !accepted s id r
    let ended := lost ++ l.reads.map (·.2)
    let s0 := ended.foldl (fun t r => forget t id r.num) s
    let s1 := bumpIo (setLink s0 { l with posted := l.posted.filter (accepted s id), reads := [] }) (linkDie id) 0x38 lost.length
    let s2 := (List.finRange 64).foldl (fun t n => writeNat t (winLoc id n + 0x14) 1 0) (pumpLink s1 id)
    let s3 := (List.range 16).foldl (fun t k => writeNat t (swLoc (0x17030000 + 32 * k) + 0x13) 1 0) s2
    let s4 := { s3 with mask64 := List.range 64, tlbs := s3.tlbs.filter (fun e => e.tlb != .host (linkDie id)) }
    changeLink s4 (getLink s4 id) 5

/-- HOST_FUNCTION_RESET_COMPLETE (R355). -/
def hostResetDone (s : State) (p : Fin 8) : State :=
  let l := getLink s (.port p)
  if l.state = 5 then changeLink s l 1 else s

/-- MSIX_VECTOR_UNMASK (R364). -/
def unmaskVector (s : State) (v : Nat) : State := flushMsix { s with mask64 := s.mask64.filter (· != v) }

end Sys2Proof.Machine
end

