-- ==== Sys2Proof/Machine/Start.lean ====
section
/-!
DEFINITION. Starting the module (R374-R382): triggers, the start block, the steps of a start, attestation, thermal events.
-/
namespace Sys2Proof.Machine

/-- Fibres run: the part is powered and the last start has ended at step 9. -/
def running (s : State) : Bool := s.power && s.sstep == 9

/-! ## The start block (R375, R400) -/

/-- Step 7 of the last start was reached. -/
def reached7 (s : State) : Bool := s.sstep ≥ 7 || (s.failed && s.sstep == 6)

def identWordOf (s : State) : Word :=
  if reached7 s then w64 (s.modid.toNat + (if s.selfHosted then 2 ^ 16 else 0) + s.life.toNat * 2 ^ 17) else 0

/-- MEAS, which step 2 fills. -/
def measOf (s : State) : List Byte :=
  if s.sstep ≥ 2 ∨ (s.failed = true ∧ s.sstep = 1) then (List.range 64).map fun i => nth (Config.freeMeasure s.measured) i 0
  else List.replicate 64 0

/-- Byte o of the start block's device fields. -/
def startByte (s : State) (o : Nat) : Byte :=
  if o < 8 then nth (bytesOf 8 (startStatus s).toNat) o 0
  else if 0x18 ≤ o ∧ o < 0x20 then nth (bytesOf 8 (identWordOf s).toNat) (o - 0x18) 0
  else if 0x40 ≤ o ∧ o < 0x80 then nth (measOf s) (o - 0x40) 0
  else if reached7 s = false then 0
  else if 0x100 ≤ o ∧ o < 0x3A0 then
    BitVec.ofNat 8 ((List.range 8).foldl (fun a b => a + if s.mask.contains (8 * (o - 0x100) + b) then 2 ^ b else 0) 0)
  else if 0x3A0 ≤ o ∧ o < 0x3B0 then nth (bytesOf 4 (nth s.hwalk ((o - 0x3A0) / 4) 0)) (o % 4) 0
  else if 0x3B0 ≤ o ∧ o < 0x3D0 then
    match s.nveng.find? fun e => e.1.val == (o - 0x3B0) / 4 with
    | some e => nth (bytesOf 4 (2 ^ 31 + e.2)) (o % 4) 0
    | none => 0
  else 0

/-- ATTEST: the signature of MEAS and NONCE replaces SIG (R378). -/
def signReport (s : State) : State :=
  let msg := measOf s ++ readBytes s (swLoc 0x18000020) 32
  writeBytes s (swLoc 0x18000080) ((List.range 64).map fun i => nth (Config.freeSignature s.images msg) i 0)

/-- RESTART: a store of v (R374). -/
def restartStore (s : State) (v : Word) : State := if v = 1 then trigger s false else if v = 2 then trigger s true else s

/-- THERMAL_ALERT (R382). -/
def thermalAlert (s : State) (die : Nat) : State :=
  match counterRef s (readWord s (swLoc 0x18000010)) with
  | some a => addAt s a 1 ⟨6, die, 0⟩
  | none => s

/-! ## The steps (R376) -/

/-- Step 1: what is in flight on the cores and engines is discarded, and SIG reads zero until the next attestation (R400). -/
def startStep1 (s : State) : State :=
  { writeBytes s (swLoc 0x18000080) (List.replicate 64 0) with
    cores := s.cores.map fun e => (e.1, { e.2 with sb := [], cache := [], lines := [], mailbox := [], waitq := [] })
    ports := [], rels := [], tlbs := [], grants := [], moving := [], cmds := [], evicts := [], tables := [], pair := none }

/-- The cores whose FUSED is nonzero and that failed the self-test (R377). -/
def heldCores (s : State) (l : List Nat) : List Nat := (l.filter fun g => g < Config.cores && fusedOf s g != 0).eraseDups

/-- Step 3: the verified table, or a warm start's copy of it. -/
def startStep3 (s : State) (i : StartInputs) : State :=
  let h := if s.cold then heldCores s i.failed else s.held
  { s with held := h, cur := h.map (fun g => (g, (0 : Byte))), clock := [] }

/-- What the wipe keeps: error counters over a warm start, and NVMe unless the life-cycle state changes (R379, R380). Of the start block's
device fields SIG alone is kept in cells, and R400 has made it zero. -/
def survives (s : State) (change : Bool) (a : Nat) : Bool :=
  (Config.nvmeBase ≤ a && !change)
    || (!s.cold && swLoc 0x200000 ≤ a && a < swLoc 0x203400)

/-- Step 5: the wipe (R380). -/
def startStep5 (s : State) (change : Bool) : State :=
    { mem := s.mem.filter fun c => survives s change c.1
      poison := s.poison.filter fun a => Config.nvmeBase ≤ a && !change
      badBlocks := if change then [] else s.badBlocks, turns := s.turns, owner := s.owner
      fused := s.fused, cur := s.cur, mask := s.mask, modid := s.modid, selfHosted := s.selfHosted, life := s.life, roles := s.roles
      welts := s.welts, hwalk := s.hwalk, nveng := s.nveng, cxl := s.cxl, swapNs := s.swapNs, swapBlocks := s.swapBlocks, held := s.held
      trained := true, power := s.power, images := s.images, measured := s.measured, cold := s.cold, free := s.free, focus := s.focus, out := s.out }

/-- The life-cycle state changes once the wipe, with what the configuration store and NVMe hold, and the re-keying are complete; the owner key
is recorded or erased (R379). The change is followed by a cold start (R374). -/
def changeLife (s : State) : State :=
  let t := startStep5 s true
  trigger { t with life := (if s.life = 3 then 0 else s.life + 1), images := s.images + 1, held := [], cur := [], trained := false
                   owner := if s.life = 0 then some (s.images + 1) else if s.life = 2 then none else s.owner } true

/-- A port or link of the configuration trains in its role: it comes up, or is down (R355). -/
def trainedAs (i : StartInputs) (id : LinkId) (role : BitVec 3) : Link :=
  match i.links.find? fun e => e.1 == id with
  | some (_, width, rate, peer) => { id := id, state := 2, role := role, width := width, rate := if role = 4 then 0 else rate, peer := if role = 4 then peer else 0 }
  | none => { id := id, state := 4, role := role }

/-- Step 6: every port and link of the configuration is given its role and trains (R355, R376). -/
def startStep6 (s : State) (i : StartInputs) : State :=
  { s with links := (s.roles.filter fun r => r.2 != 0).map (fun r => trainedAs i (.port r.1) r.2) ++ s.welts.map fun w => trainedAs i (.welt w) 4 }

/-- A cluster of the mask that has a present core (R26). -/
def maskGood (s : State) : Bool := s.mask.any fun cl => (clusterCores cl).any fun g => present s g

/-- The lowest present core of the lowest steward cluster that has one. -/
def firstCore (s : State) : Nat :=
  (((List.range Config.clusters).filter fun cl => s.mask.contains cl).findSome? fun cl => (clusterCores cl).find? fun g => present s g).getD 0

/-- A part of the image lies where the device OS belongs: in a steward cluster (R376), or in the frames of R381. DESIGN CHOICE (log 3). -/
def osPlace (s : State) (a n : Nat) : Bool :=
  a + n ≤ 0x200000000
    || (isSpad a && a + n ≤ clusterLoc (clusterOf (homeOf a) + 1) 0 && s.mask.contains (clusterOf (homeOf a)))
/-- The image of the device OS is loaded. -/
def loadImage (s : State) (image : List (Nat × List Byte)) : State :=
  (image.filter fun e => osPlace s e.1 e.2.length).foldl (fun t e => writeBytes t e.1 e.2) s

/-- The capacity that step 7 finds: of devices behind CXL root ports that step 6 has brought up, in port order and then in device order
(R365). -/
def foundCxl (s : State) (i : StartInputs) : List (Fin 8 × Nat) :=
  (List.finRange 8).flatMap fun p => if linkUp s (.port p) && (getLink s (.port p)).role == 2 then i.cxl.filter (·.1 == p) else []

/-- Steps 7 to 9: the CXL ranges, the frame pools, the walkers, the device OS and its first fibre (R365, R376, R381). -/
def startStep9 (s0 : State) (i : StartInputs) : State :=
  let s := { loadImage s0 i.image with cxl := foundCxl s0 i }
  let g := firstCore s
  { s with pools := freshPools (cxlFrames s) s.swapBlocks, cores := [(g, bootCore g)], focus := (g, 0), fib := bootFib g, sstep := 9 }

/-- A start that stops at step n + 1: one port is brought up as host endpoint with every window closed, every other stays disabled (R376); a
warm start that fails is followed by a cold one (R374). -/
def failStart (s : State) (n : Nat) (authentic : Bool) : State :=
  let p := if authentic then (match hostPort s with
    | some p => p
    | none => 0) else 0
  let shut := (List.finRange 64).foldl (fun t i => writeNat t (winLoc (.port p) i + 0x14) 1 0) s
  let s1 := { shut with sstep := n, failed := true, links := [{ id := .port p, state := 1, role := 1 }] }
  if s.cold then s1 else trigger { s1 with sstep := 9 } true

/-- The key is held that the configuration's signature is checked with: the owner key, or in manufacturing state the Dravium key (R378); of a
returned module, whose owner key is erased, the spec names none. DESIGN CHOICE (log 91). -/
def keyHeld (s : State) : Bool := s.life == 0 || s.life == 3 || s.owner.isSome

/-- START: the steps of the start that a trigger has asked for (R376). -/
def performStart (s : State) (i : StartInputs) : State :=
  if s.power = false ∨ s.sstep = 9 ∨ s.failed = true then s else
  let s1 := { startStep1 s with measured := i.firmware ++ i.config }
  if !(i.imageGood && i.configGood && keyHeld s) then failStart s1 1 false else
  let s3 := startStep3 s1 i
  if !i.trainGood then failStart s3 3 true else
  if s.cold && i.lifeCmd then changeLife s3 else
  let s6 := startStep6 (startStep5 s3 false) i
  if maskGood s6 then startStep9 s6 i else failStart s6 6 true

/-- POWER_ON: power-on triggers a cold start (R374). -/
def powerUp (s : State) : State := { trigger { s with sstep := 9 } true with power := true }
/-- THERMAL_SHUTDOWN: the device removes power (R382). -/
def powerDown (s : State) : State := { s with power := false }

end Sys2Proof.Machine
end

