-- ==== Sys2Proof/Machine/Ports.lean ====
section
/-!
DEFINITION. Loads and stores of the steward window (R20): its ports (R401), its read-only words (R8), the speed table (R21), the error
counters (R145), and the words that the device computes.
-/
namespace Sys2Proof.Machine

/-- What a byte of the steward window is. -/
inductive SwKind where
  | plain | readOnly | port | cur | errors | ctl (l : LinkId) | hole
deriving DecidableEq, Repr

def inRange (o lo hi : Nat) : Bool := lo ≤ o && o < hi

/-- The link of a link record. -/
def linkOfRecord (n : Nat) : LinkId := if n < 8 then .port (Fin.ofNat 8 n) else .welt (Fin.ofNat 16 (n - 8))

def swKind (o : Nat) : SwKind :=
  if o < 2064384 then (if o % 2 = 0 then .cur else .readOnly)
  else if inRange o 0x200000 0x203400 then .errors
  else if inRange o 0x10000000 0x12008000 then .plain
  else if inRange o 0x12010000 0x12010100 then (if o % 64 < 32 then .port else .readOnly)
  else if inRange o 0x13000000 0x13C00000 then (if inRange (o % 0x40000) 0x10 0x18 then .readOnly else if o % 0x40000 < 0x20040 then .plain else .hole)
  else if inRange o 0x14000000 0x14400000 then .plain
  else if inRange o 0x15000000 0x15400000 then
    (let k := o % 64; if k = 0x0B ∨ inRange k 0x0E 0x10 = true ∨ inRange k 0x20 0x28 = true then .readOnly else .plain)
  else if inRange o 0x15800000 0x15808000 then .readOnly
  else if inRange o 0x15808000 0x15808010 then .port
  else if inRange o 0x16000000 0x16200000 then .readOnly
  else if inRange o 0x16200000 0x16200008 then .port
  else if inRange o 0x17000000 0x17000600 then
    (let k := o % 64; if inRange k 8 16 then .plain else if inRange k 0x18 0x20 then .ctl (linkOfRecord ((o - 0x17000000) / 64)) else .readOnly)
  else if inRange o 0x17001000 0x17001800 then .plain
  else if inRange o 0x17010000 0x17011000 then .plain
  else if inRange o 0x17020000 0x1702C000 then .plain
  else if inRange o 0x17030000 0x17030200 then .plain
  else if inRange o 0x17031000 0x17033000 then .plain
  else if inRange o 0x18000000 0x180003D0 then
    (let k := o - 0x18000000
     if inRange k 0x08 0x10 = true ∨ inRange k 0xC0 0xC8 = true then .port
     else if inRange k 0x10 0x18 = true ∨ inRange k 0x20 0x40 = true then .plain else .readOnly)
  else if inRange o 0x30000000 0x307E0000 || inRange o 0x30800000 0x30FE0000 then .port
  else .hole

/-! ## Stores -/

/-- SPEED_TABLE_CUR_WRITE: a steward write of CUR (R21). The core runs at its old code until its clock has switched. -/
def speedWrite (s : State) (g : Nat) (code : Byte) : State :=
  if present s g = true ∧ code ≠ 0 ∧ code ≤ fusedOf s g ∧ code ≤ 17 then
    { s with cur := place s.cur g code, clock := match look s.clock g with
        | some _ => s.clock
        | none => place s.clock g (curOf s g) }
  else s

/-- CLOCK_SWITCH_COMPLETE (R21). -/
def clockSwitch (s : State) (g : Nat) : State := { s with clock := strike s.clock g }

/-- WAKE_PORT: a store of inc to the wake port of core g is an add, a release at `.mod` of the core that stores (R241). -/
def wakeStore (s : State) (g : Nat) (inc : Word) (who : Adder) : State :=
  if present s g = true ∧ inc.toNat < 2 ^ 63 then
    if who.kind = 0 then beginRelease s who.core 4 (some (wakeCtr g)) inc who false else addAt s (wakeCtr g) inc who
  else s

/-- Tickets of core g not reached yet (R241): a ticket retires when the wake counter reaches it. DESIGN CHOICE (log 113). -/
def outstanding (s : State) (g : Nat) : List Nat := (getCore s g).tickets.filter fun t => !reached (readWord s (wakeCtr g)) (w64 t)

/-- REFUSE_PORT: a store of t to the refuse port of core g (R241). -/
def refuseStore (s : State) (g : Nat) (t : Word) : State :=
  let c := getCore s g
  if (outstanding s g).contains t.toNat && !c.refused.contains t.toNat then setCore s g { c with refused := c.refused ++ [t.toNat] } else s

/-- KILL_PORT (R338). -/
def killStore (s : State) (k : Word) : State := if k.toNat < 8192 then killKernel s k.toNat else s

/-- A store of v to the port at offset o, 8 bytes aligned to 8 (R401). -/
def portStore (s : State) (o : Nat) (v : Word) (who : Adder) : State :=
  if inRange o 0x12010000 0x12010100 then
    let tier := Fin.ofNat 4 ((o - 0x12010000) / 64)
    if o % 64 = 8 then pushFrame s tier false v.toNat else if o % 64 = 0x18 then pushFrame s tier true v.toNat else s
  else if o = 0x15808000 then openQueue s v
  else if o = 0x15808008 then closeQueue s v
  else if o = 0x16200000 then killStore s v
  else if o = 0x18000008 then restartStore s v
  else if o = 0x180000C0 then signReport s
  else if inRange o 0x30000000 0x307E0000 then wakeStore s ((o - 0x30000000) / 8) v who
  else refuseStore s ((o - 0x30800000) / 8) v

/-- A steward store to entry v of the notify table starts a new test against the stored NEXT (R364). -/
def startIrq (s : State) (v : Nat) : State :=
  let s1 := removeWaiter s (.irq v)
  match counterRef s1 (readWord s1 (irqLoc v)) with
  | none => s1
  | some a =>
    match readCounter s1 a with
    | (some x, t) => if reached x (readWord t (irqLoc v + 8)) then fireIrq t v x else enrolWaiter t (.irq v) a (readWord t (irqLoc v + 8))
    | (none, t) => enrolWaiter t (.irq v) a (readWord t (irqLoc v + 8))

/-- One byte of a store that is no port access. -/
def swStoreByte (s : State) (o : Nat) (b : Byte) : State :=
  match swKind o with
  | .plain => setByte s (swLoc o) b
  | .cur => speedWrite s (o / 2) b
  | .errors => writeWord s (swLoc (o / 8 * 8)) 0
  | .ctl l => if o % 8 = 0 then ctlStore s l b.toNat else s
  | .readOnly | .port | .hole => s

def swStoreBytes (s : State) (o : Nat) : List Byte → State
  | [] => s
  | b :: bs => swStoreBytes (swStoreByte s o b) (o + 1) bs

/-- Notify entries that n bytes at o touch. -/
def irqsOf (o n : Nat) : List Nat :=
  (List.range 64).filter fun v => o < 0x17001000 + 32 * (v + 1) && 0x17001000 + 32 * v < o + n

/-- A store of bytes at offset o of the steward window reaches its serialiser; `act` says that they are the whole access, so that 8 aligned
bytes act on a port (R401). -/
def swStore (s : State) (o : Nat) (bs : List Byte) (who : Adder) (act : Bool) : State :=
  if act = true ∧ bs.length = 8 ∧ o % 8 = 0 ∧ swKind o = .port then portStore s o (w64 (natOf bs)) who
  else
    let s0 := if s.poison.isEmpty then s else
      { s with poison := s.poison.filter fun w => !(swLoc o ≤ w && w + 8 ≤ swLoc o + bs.length) }
    let s1 := swStoreBytes s0 o bs
    if inRange o (0x17001000 - 64) 0x17001800 then (irqsOf o bs.length).foldl startIrq s1 else s1

/-! ## Loads -/

/-- Byte of the pool control block of a tier (R246). -/
def poolByte (s : State) (o : Nat) : Byte :=
  let tier := Fin.ofNat 4 ((o - 0x12010000) / 64)
  let k := o % 64
  if inRange k 0x20 0x28 then nth (bytesOf 8 (poolCount s tier false)) (k - 0x20) 0
  else if inRange k 0x28 0x30 then nth (bytesOf 8 (poolCount s tier true)) (k - 0x28) 0
  else if k = 0x30 ∧ tier = 3 then BitVec.ofNat 8 s.swapNs
  else 0

/-- What byte o of the steward window reads as, apart from a pop and a hole. -/
def swByte (s : State) (o : Nat) : Byte :=
  match swKind o with
  | .cur => curOf s (o / 2)
  | .port => 0
  | .plain | .errors | .ctl _ => byteAt s (swLoc o)
  | .hole => 0
  | .readOnly =>
    if o < 2064384 then fusedOf s (o / 2)
    else if inRange o 0x12010000 0x12010100 then poolByte s o
    else if inRange o 0x17000000 0x17000600 ∧ o % 64 < 8 then
      nth (bytesOf 8 (statusWord (getLink s (linkOfRecord ((o - 0x17000000) / 64)))).toNat) (o % 64) 0
    else if inRange o 0x18000000 0x180003D0 ∧ inRange o 0x18000080 0x180000C0 = false then startByte s (o - 0x18000000)
    else byteAt s (swLoc o)

/-- The n bytes from offset o; a byte of a hole is a free value (log 12). -/
def swBytes (s : State) (o : Nat) : Nat → List Byte × State
  | 0 => ([], s)
  | n + 1 =>
    let h := if swKind o = .hole then freshByte s else (swByte s o, s)
    let r := swBytes h.2 (o + 1) n
    (h.1 :: r.1, r.2)

/-- A load of n bytes at offset o: an 8-byte load of POP64 or POP512 takes a frame (R246, R401), where those are the whole access. A wider load
that covers one takes none and reads zero there, as a narrower one does. DESIGN CHOICE (log 70). -/
def swLoad (s : State) (o n : Nat) (whole : Bool) : List Byte × State :=
  if whole = true ∧ n = 8 ∧ inRange o 0x12010000 0x12010100 = true ∧ (o % 64 = 0 ∨ o % 64 = 0x10) then
    let r := popFrame s (Fin.ofNat 4 ((o - 0x12010000) / 64)) (o % 64 == 0x10)
    (bytesOf 8 (r.1.getD (2 ^ 64 - 1)), r.2)
  else swBytes s o n

/-- REGISTER_WRITE: a steward write to words that have no row of their own (R8). -/
def registerStore (s : State) (o : Nat) (bs : List Byte) : State :=
  if bs.length = 8 ∧ swKind o = .port then s else swStore s o bs ⟨0, 0, 0⟩ true

end Sys2Proof.Machine
end

