-- ==== Sys2Proof/Machine/Buffer.lean ====
section
/-!
DEFINITION. The store buffer and the read cache of a core, and the memory ports of clusters and dies (R81, R116-R122): entering, draining
and passing on stores, publishing, acquiring, and what a byte reads as to the core.
-/
namespace Sys2Proof.Machine

/-! ## The memory ports (R116-R118) -/

/-- A store to a link that is not up is dropped and counted (R363, R365, R369, R373): by the I/O die of the link, by the first where the
host has none. DESIGN CHOICE (log 90). -/
def countDropped (s : State) (a : Nat) : State :=
  bumpIo s (match linkOfLoc s a with
    | some id => linkDie id
    | none => 0) 0x40 1

/-- A store reaches its serialiser or its ordering point; none while a retraining link holds it (R355). -/
def landStore (s : State) (a : Nat) (bs : List Byte) (who : Adder) (act : Bool) : Option State :=
  match linkStateOf s a with
  | 3 => none
  | 2 =>
    if isSw a then some (swStore s (a - Config.swBase) bs who act)
    else if isHostLoc a then some { s with out := s.out ++ [.store (.port ((hostPort s).getD 0)) (a - Config.hostBase) bs] }
    else if isPeerLoc a then sendWelt s (weltOf a) (weltAddr a) bs
    else some (storeAt s a bs who)
  | _ => some (countDropped s a)

/-- The n bytes at location a become poison; beyond a link, poison leaves through it (R144). None while the link has no room. -/
def spoil (s : State) (a n : Nat) : Option State :=
  if isHostLoc a then some { s with out := s.out ++ [.poison (.port ((hostPort s).getD 0)) (a - Config.hostBase) n] }
  else if isPeerLoc a then sendWrites 1 (weltOf a) (n / 4096 + 2) (weltAddr a) (List.replicate n 0) s
  else some (poisonRange s a n)

/-- A request leaves the die port for its serialiser or its ordering point; none while that holds it. -/
def landReq (s : State) (q : PortReq) : Option State :=
  if q.toxic then (match linkStateOf s q.loc with
    | 3 => none
    | 2 => spoil s q.loc 8
    | _ => some (countDropped s q.loc)) else landStore s q.loc q.bytes q.who q.act

/-- A location of core g's own cluster space: its serialiser is its point of coherence for every scope (R116). -/
def nearHome (g a : Nat) : Bool := isSpad a && clusterOf (homeOf a) == clusterOf g

/-- A store reaches the serialiser of a scratchpad. -/
def landSpad (s : State) (q : PortReq) : State := if q.toxic then poisonRange s q.loc 8 else storeAt s q.loc q.bytes q.who

/-- A store leaves the buffer: its own cluster's serialiser takes it, or the cluster memory port accepts it. -/
def acceptReq (s : State) (q : PortReq) : State :=
  if nearHome q.core q.loc then landSpad s q
  else { s with ports := s.ports ++ [{ q with num := s.accepts }], accepts := s.accepts + 1 }

def atCluPort (cl : Nat) (q : PortReq) : Bool := !q.atDie && clusterOf q.core == cl
def atDiePort (d : Nat) (q : PortReq) : Bool := q.atDie && dieOf q.core == d

/-- The cluster port passes its eldest request on (R118): to the serialiser of a scratchpad of the same die (R116), else to the die port. -/
def forwardClu (s : State) (cl : Nat) : State :=
  match s.ports.find? (atCluPort cl), s.ports.findIdx? (atCluPort cl) with
  | some q, some i =>
    if isSpad q.loc && dieOf (homeOf q.loc) == dieOf q.core then landSpad { s with ports := s.ports.eraseIdx i } q
    else { s with ports := s.ports.eraseIdx i ++ [{ q with atDie := true }] }
  | _, _ => s

/-- The die port passes its eldest request on (R118); none when it has none, or when the request is held. -/
def forwardDie (s : State) (d : Nat) : Option State :=
  match s.ports.find? (atDiePort d), s.ports.findIdx? (atDiePort d) with
  | some q, some i => landReq { s with ports := s.ports.eraseIdx i } q
  | _, _ => none

/-- A cluster port passes on its requests up to the last that p picks. -/
def pushClu (p : PortReq → Bool) : Nat → State → Nat → State
  | 0, s, _ => s
  | fuel + 1, s, cl => if s.ports.any fun q => atCluPort cl q && p q then pushClu p fuel (forwardClu s cl) cl else s
/-- A die port does the same, as far as none is held. -/
def pushDie (p : PortReq → Bool) : Nat → State → Nat → State
  | 0, s, _ => s
  | fuel + 1, s, d =>
    if s.ports.any fun q => atDiePort d q && p q then
      match forwardDie s d with
      | some t => pushDie p fuel t d
      | none => s
    else s

/-- The requests that p picks go as far as they can along the path of core g: to the die port, or beyond. -/
def pushReqs (p : PortReq → Bool) (beyond : Bool) (s : State) (g : Nat) : State :=
  let s1 := pushClu p s.ports.length s (clusterOf g)
  if beyond then pushDie p s1.ports.length s1 (dieOf g) else s1

/-- A location whose requests from core g pass no die port (R116). -/
def nearDie (g a : Nat) : Bool := isSpad a && dieOf (homeOf a) == dieOf g
/-- What an access by core g's cluster to location a would follow through the ports goes ahead of it (R118): those of the cluster's port, and
beyond the die those of the die's. -/
def clearPath (s : State) (g a : Nat) : State :=
  if s.ports.isEmpty || nearHome g a then s else pushReqs (fun q => clusterOf q.core == clusterOf g || q.atDie) (!nearDie g a) s g
/-- Nothing is left ahead of that access. -/
def pathClear (s : State) (g a : Nat) : Bool :=
  s.ports.isEmpty || nearHome g a || !s.ports.any fun q => atCluPort (clusterOf g) q || (!nearDie g a && atDiePort (dieOf g) q)

/-! ## Draining (R119) -/

/-- The requests that an entry of core g makes, in the order of its stores; its poisoned words stay poison (R144). -/
def entryReqs (g : Nat) (e : SbEntry) : List PortReq :=
  (e.writes.map fun w => { core := g, serial := e.serial, loc := e.block + w.off, bytes := w.bytes, who := w.who, act := w.act, life := w.life })
    ++ e.toxic.map fun o => { core := g, serial := e.serial, loc := e.block + o, bytes := List.replicate 8 0, who := ⟨0, g, 0⟩, toxic := true }

/-- Entry i of the buffer of core g leaves: its stores are accepted in the order in which they entered; the core's cached line of the
block goes, so that no later load goes backward (R121). -/
def drainEntry (s : State) (g i : Nat) : State :=
  let c := getCore s g
  match c.sb[i]? with
  | none => s
  | some e =>
    (entryReqs g e).foldl acceptReq (setCore s g { c with sb := c.sb.eraseIdx i, cache := c.cache.filter fun l => l.block != e.block })

/-- Drain the entries that p picks, oldest first. -/
def drainWhere (p : SbEntry → Bool) : Nat → State → Nat → State
  | 0, s, _ => s
  | fuel + 1, s, g => match (getCore s g).sb.findIdx? p with
    | none => s
    | some i => drainWhere p fuel (drainEntry s g i) g

def drainBlocks (s : State) (g : Nat) (blocks : List Nat) : State :=
  drainWhere (fun e => blocks.contains e.block) (getCore s g).sb.length s g

/-- STORE_BUFFER_DRAIN: entry i leaves, unless an older entry of its block is still there, since the stores of a core to one location
keep their order. -/
def drainEvent (s : State) (g i : Nat) : State :=
  let sb := (getCore s g).sb
  match sb[i]? with
  | none => s
  | some e => if (sb.take i).any (fun f => f.block == e.block) then s else drainEntry s g i

/-! ## Entering (R81, R86) -/

/-- The words of a block that n bytes at off cover whole. -/
def wholeWords (off n : Nat) : List Nat := ((List.range 8).map (8 * ·)).filter fun o => off ≤ o && o + 8 ≤ off + n

/-- A store within one block merges into the open entry of the block, or opens one. -/
def sbMerge (c : Core) (block : Nat) (w : SbWrite) : Core :=
  if c.sb.any (fun e => e.block == block && !e.closed) then
    { c with sb := c.sb.map fun e => if e.block == block && !e.closed then
      { e with writes := e.writes ++ [w], toxic := e.toxic.filter fun o => !(wholeWords w.off w.bytes.length).contains o } else e }
  else { c with sb := c.sb ++ [{ block := block, serial := c.sbSeq, writes := [w] }], sbSeq := c.sbSeq + 1 }

/-- A store within one block enters the buffer; a full buffer makes its oldest entry leave (R119). -/
def sbEnter (s : State) (g block : Nat) (w : SbWrite) : State :=
  let c := getCore s g
  let t := if c.sb.any (fun e => e.block == block && !e.closed) || c.sb.length < 32 then s else drainEntry s g 0
  setCore t g (sbMerge (getCore t g) block w)

/-- A store of bytes at location a, split at blocks. -/
def sbStore (life : Option Nat) : Nat → State → Nat → Nat → List Byte → Adder → Bool → State
  | 0, s, _, _, _, _, _ => s
  | fuel + 1, s, g, a, bs, who, act =>
    if bs.isEmpty then s else
    let n := min bs.length (64 - a % 64)
    sbStore life fuel (sbEnter s g (a / 64 * 64) { off := a % 64, bytes := bs.take n, who := who, act := act, life := life }) g (a + n) (bs.drop n) who act

/-- Admission number of the kernel whose fibre stores. -/
def makerLife (s : State) (g : Nat) (who : Adder) : Option Nat :=
  if who.kind = 0 then (((fibreInfo s g who.fibre).bind (·.kern)).bind (kernOf s)).map (·.admitted) else none

/-- A store of core g enters the buffer; `act` says that the bytes are the whole access (R401). -/
def storeIn (s : State) (g a : Nat) (bs : List Byte) (who : Adder) (act : Bool) : State :=
  sbStore (makerLife s g who) (bs.length / 64 + 2) s g a bs who (act && bs.length == 8 && a % 8 == 0)

/-! ## Publish and acquire (R116, R120, R122) -/

/-- Scope codes 1 to 5. -/
def scopeCode : Scope → Nat
  | .core => 1 | .clu => 2 | .die => 3 | .mod => 4 | .sys => 5

/-- The locations that a scope of core g covers (R116); those of the steward window from `.mod` up. DESIGN CHOICE (log 106). -/
def scopeCovers (sc g a : Nat) : Bool :=
  if sc ≥ 4 then true
  else isSpad a && (if sc = 1 then homeOf a == g else if sc = 2 then clusterOf (homeOf a) == clusterOf g else sc == 3 && dieOf (homeOf a) == dieOf g)

/-- A request that a publish of core g at scope sc waits for (R116, R120, R124): the core's own, or one that a port on its path had accepted
when the publish began. The die port is the point of `.die`; `.mod` has no point for a location of the host or of a peer. DEDUCED (log 71). -/
def awaited (g sc : Nat) (upto : Bound) (q : PortReq) : Bool :=
  ((q.core == g && q.serial < upto.entries) || ((atCluPort (clusterOf g) q || atDiePort (dieOf g) q) && q.num < upto.taken))
    && sc ≥ 3 && (if sc = 3 then !q.atDie else sc ≥ 5 || !isFar q.loc)

/-- Everything that the publish covers is accepted. -/
def published (s : State) (g sc : Nat) (upto : Bound) : Bool :=
  !((getCore s g).sb.any fun e => e.serial < upto.entries) && !s.ports.any (awaited g sc upto)

/-- The publish goes as far as it can: the entries leave, and the ports pass on what it waits for (R118, R120). Scope `.core` has the buffer
itself for its point. -/
def pushPublish (s : State) (g sc : Nat) (upto : Bound) : State :=
  if sc ≤ 1 then s else
  let s1 := drainWhere (fun e => e.serial < upto.entries) (getCore s g).sb.length s g
  if sc = 2 then s1 else pushReqs (awaited g sc upto) (sc != 3) s1 g

/-- A publish begins (R120): every entry of the buffer is closed; what it covers. -/
def beginPublish (s : State) (g : Nat) : Bound × State := (⟨(getCore s g).sbSeq, s.accepts⟩, closeEntries s g)

/-- The publish is complete. -/
def publishDone (s : State) (g sc : Nat) (upto : Bound) : Bool := sc ≤ 1 || published s g sc upto

/-- The add of a release is made; after the add at DONE the request fibre is freed, and the add at HEAD begins (R285, R331). -/
def makeRelease (s : State) (r : Release) : State :=
  let t := match r.loc with
    | some a => addAt s a r.inc r.who
    | none => s
  if r.ends then
    let u := (freeFibre t r.g 4095 true r.who).2
    beginRelease (setCore u r.g { getCore u r.g with request := none }) r.g r.sc (some (spadLoc r.g 0x1FF08)) 1 r.who false
  else t

/-- Where the add of a release goes, behind what the ports on its path have accepted (R118); its own core where it goes nowhere. -/
def releaseAim (r : Release) : Nat := r.loc.getD (spadLoc r.g 0)

/-- A release of the device is made once its publish is complete and no earlier one of its core waits. -/
def runRelease (s : State) (r : Release) : State :=
  if s.rels.any (fun q => q.g == r.g) then { s with rels := s.rels ++ [r] } else
  let t := clearPath (pushPublish s r.g r.sc r.upto) r.g (releaseAim r)
  if publishDone t r.g r.sc r.upto && pathClear t r.g (releaseAim r) then makeRelease t r else { t with rels := t.rels ++ [r] }

/-- The releases of the device that are in progress go on; those that begin meanwhile follow. -/
def runReleases (s : State) : State :=
  let pass := fun t : State => if t.rels.isEmpty then t else t.rels.foldl runRelease { t with rels := [] }
  pass (pass s)

def dropRefills (f : Fib) : Fib := { f with streams := mapVec (fun r => { r with buf := [] }) f.streams }

/-- A line of the handle table: the first access after any acquire resolves the entry anew (R128). -/
def handleLine (a : Nat) : Bool := swLoc 0x10000000 ≤ a && a < swLoc 0x12000000

/-- An acquire at scope sc of core g (R122, R128). -/
def acquire (s : State) (g sc : Nat) : State :=
  let c := getCore s g
  let s1 := setCore s g { c with cache := c.cache.filter (fun l => !(scopeCovers sc g l.block || handleLine l.block))
                                 slots := mapVec (fun k => { k with ctx := dropRefills k.ctx }) c.slots }
  if s.focus.1 = g then { s1 with fib := dropRefills s1.fib } else s1

/-! ## Reading (R81, R121) -/

/-- The latest store in the buffer to the byte at location a; newer entries and newer writes come later. -/
def entryByte (e : SbEntry) (o : Nat) : Option (Byte × Bool) :=
  match e.writes.reverse.find? fun w => w.off ≤ o && o < w.off + w.bytes.length with
  | some w => some (nth w.bytes (o - w.off) 0, e.toxic.contains (o / 8 * 8))
  | none => if e.toxic.contains (o / 8 * 8) then some (0, true) else none

def sbByte (sb : List SbEntry) (a : Nat) : Option (Byte × Bool) :=
  (sb.reverse.filter fun e => e.block == a / 64 * 64).findSome? fun e => entryByte e (a % 64)

/-- Some store in the buffer has replaced the whole word at w, poison and all (R82). -/
def sbWhole (sb : List SbEntry) (w : Nat) : Bool :=
  sb.any fun e => e.block == w / 64 * 64 && e.writes.any fun x => x.off ≤ w % 64 && w % 64 + 8 ≤ x.off + x.bytes.length

/-- The byte at location a after the request. -/
def reqByte (a : Nat) (r : Byte × Bool) (q : PortReq) : Byte × Bool :=
  if q.loc ≤ a ∧ a < q.loc + q.bytes.length then
    (if q.toxic then (r.1, true) else (nth q.bytes (a - q.loc) 0, r.2 && !coversWord q.loc q.bytes.length (wordOf a)))
  else r

/-- The requests that core g sees beyond its buffer, in location order (R117): those accepted at its die's port, then at its cluster's. -/
def seenReqs (s : State) (g : Nat) : List PortReq :=
  if s.ports.isEmpty then [] else s.ports.filter (atDiePort (dieOf g)) ++ s.ports.filter (atCluPort (clusterOf g))

/-- A byte of a location with what the ports hold for it, over what the serialiser holds; a port of the steward window shows no store. -/
def seenByte (s : State) (g a : Nat) (base : Byte × Bool) : Byte × Bool :=
  if isSw a && swKind (a - Config.swBase) != .plain then base else (seenReqs s g).foldl (reqByte a) base

/-- What the serialiser of a location holds. -/
def homeByte (s : State) (a : Nat) : Byte × Bool := (if isSw a then swByte s (a - Config.swBase) else byteAt s a, isToxic s a)

/-- A byte as core g reads it: its store buffer, its read cache unless the load bypasses it or the byte is its own, the ports, and `base`
for what lies beyond them. A byte of a narrow store to a poisoned word is a byte of a poisoned word (R82). -/
def coreByteOver (s : State) (g : Nat) (bypass : Bool) (a : Nat) (base : Byte × Bool) : Byte × Bool :=
  let c := getCore s g
  let here := seenByte s g a base
  let below :=
    if bypass || (isSpad a && homeOf a == g) then here
    else match c.cache.find? fun l => l.block == a / 64 * 64 with
      | some l => (nth l.bytes (a % 64) 0, l.toxic.contains (a % 64 / 8 * 8))
      | none => here
  match sbByte c.sb a with
  | some r => (r.1, r.2 || (below.2 && !sbWhole c.sb (a / 8 * 8)))
  | none => below

def coreByte (s : State) (g : Nat) (bypass : Bool) (a : Nat) : Byte × Bool := coreByteOver s g bypass a (homeByte s a)

/-- The bytes of a host or peer location as core g reads them, over the bytes that come back (R81). -/
def farBytes (s : State) (g a : Nat) : List Byte → List Byte
  | [] => []
  | b :: bs => (coreByteOver s g true a (b, false)).1 :: farBytes s g (a + 1) bs

def coreBytes (s : State) (g : Nat) (bypass : Bool) (a : Nat) : Nat → List (Byte × Bool)
  | 0 => []
  | n + 1 => coreByte s g bypass a :: coreBytes s g bypass (a + 1) n

/-- Core g takes the byte at location a from its read cache (R121). -/
def fromCache (s : State) (g : Nat) (bypass : Bool) (a : Nat) : Bool :=
  !(bypass || (isSpad a && homeOf a == g)) && (getCore s g).cache.any fun l => l.block == a / 64 * 64
/-- A load of n bytes at location a by core g reads their words where they lie, but for those of a line in the read cache (R82, R121). -/
def correctLoad (s : State) (g : Nat) (bypass : Bool) (a n : Nat) : State :=
  correctWords s fun w => meetsWord a n w && !fromCache s g bypass w

/-- The store buffer or one line of the read cache answers a load of n bytes at location a by core g: no request leaves it (R81, R121). -/
def answered (s : State) (g : Nat) (bypass : Bool) (a n : Nat) : Bool :=
  (fromCache s g bypass a && fromCache s g bypass (a + n - 1)) || (List.range n).all fun i => (sbByte (getCore s g).sb (a + i)).isSome

/-- The bytes that the device reads as a load by core g. -/
def coreNat (s : State) (g a n : Nat) : Nat := natOf ((coreBytes s g false a n).map (·.1))

/-- The cached lines that a bypassing load of n bytes at a reads past (R121: no load goes backward). -/
def dropLines (s : State) (g a n : Nat) : State :=
  let c := getCore s g
  if c.cache.isEmpty then s else setCore s g { c with cache := c.cache.filter fun l => !(l.block < a + n && a < l.block + 64) }

/-- A block that the read cache may hold: another core's data, memory, or entries of the handle table (R121, R128). -/
def cacheable (s : State) (g b : Nat) : Bool :=
  (isSpad b && homeOf b != g) || (isDpa b && backed s b && pathUp s b) || inRange b (swLoc 0x10000000) (swLoc 0x12000000)

/-- The read cache takes in a block as the core sees it beyond its buffer, which reads the block where it lies (R82), or drops one (R121). -/
def fillLine (s0 : State) (g block : Nat) : State :=
  let b := block / 64 * 64
  let s := clearPath s0 g b
  let c := getCore s g
  if cacheable s g b && pathClear s g b then
    let now := fun o => seenByte s g (b + o) (homeByte s (b + o))
    let line : CLine := { block := b, bytes := (List.range 64).map fun o => (now o).1
                          toxic := ((List.range 8).map (8 * ·)).filter fun o => (now o).2 }
    correctRead (setCore s g { c with cache := c.cache.filter (fun l => l.block != b) ++ [line] }) b 64
  else s
def dropCache (s : State) (g : Nat) : State :=
  let c := getCore s g
  setCore s g { c with cache := [] }
def dropLine (s : State) (g block : Nat) : State :=
  let c := getCore s g
  setCore s g { c with cache := c.cache.filter fun l => l.block != block / 64 * 64 }

end Sys2Proof.Machine
end

