-- ==== Sys2Proof/Machine/Finish.lean ====
section
/-!
DEFINITION. How a fibre ends: proxy arrival (R345-R347), the end of a request (R140, R285, R331), a fault (R137), and a fibre that stops
in its slot.
-/
namespace Sys2Proof.Machine

/-! ## Proxies -/

/-- Write PG and PST of an entry, after the core's own stores to the entry (R81, R345). -/
def setProxyState (s : State) (g i : Nat) (pg : Option Nat) (pst : Nat) : State :=
  let s1 := drainBlocks s g [proxyLoc g i]
  let s2 := match pg with
    | some n => storeAt s1 (proxyLoc g i + 0x20) (bytesOf 8 n) (fillAdder g)
    | none => s1
  storeAt s2 (proxyLoc g i + 0x28) (bytesOf 1 pst) (fillAdder g)

/-- Where a record holds the register with a specifier: `s` and `x` only. -/
def gregOffset (spec : Nat) : Option Nat :=
  if 0x10 ≤ spec ∧ spec < 0x20 then some (0x180 + 8 * (spec - 0x10))
  else if 0x40 ≤ spec ∧ spec < 0x80 then some (0x200 + 8 * (spec - 0x40)) else none

/-- Arm entry i of core g for fibre f of kernel k, whose record stands at loc (R346). -/
def armProxy (s0 : State) (g i f : Nat) (k : Option Nat) (loc : Nat) : State :=
  let p := proxyLoc g i
  let s := correctRead s0 p 0x29
  let w := fun o n => coreNat s g (p + o) n
  let fib := w 0 4
  if fib / 2 ^ 31 % 2 = 0 ∨ fib % 4096 ≠ f ∨ w 0x28 1 ≠ 0 then s else
  let arr := w 4 4 % 2 ^ 25
  let inc := w 8 4
  let last := w 0x0C 4
  let a := clusterLoc (clusterOf g) arr
  match gregOffset (fib / 2 ^ 16 % 128) with
  | none => setProxyState s g i none 3
  | some o =>
    if arr % 8 ≠ 0 ∨ arr ≥ Config.clusterBytes ∨ present s (homeOf a) = false ∨ inc = 0 ∨ inc ≥ 2 ^ 31 ∨ last = 0 ∨ w 0x10 8 < inc then
      setProxyState s g i none 3
    else
      let n := readNat s (loc + o) 8
      if n ≥ last then setProxyState s g i none 2
      else
        let s1 := setProxyState s g i (some (n + 1)) 1
        setCore s1 g { getCore s1 g with proxies := (getCore s1 g).proxies ++
          [{ entry := i, arr := a, inc := w64 inc, last := last, step := w64 (w 0x10 8), base := w64 (w 0x18 8), pg := n + 1, fibre := f, kern := k }] }

def armProxies (s : State) (g f : Nat) (k : Option Nat) (loc : Nat) : State :=
  (List.range 16).foldl (fun t i => armProxy t g i f k loc) s

def replaceProxy (s : State) (g : Nat) (p : Proxy) : State :=
  let c := getCore s g
  setCore s g { c with proxies := c.proxies.map fun q => if q.entry == p.entry then p else q }
/-- The entry is spent: its waiter and its wake on the way go. -/
def spendProxy (s : State) (g : Nat) (p : Proxy) (pg : Option Nat) : State :=
  let s0 := removeWaiter s (.proxy g p.entry)
  let s1 := setProxyState { s0 with fired := s0.fired.filter fun e => e.1 != .proxy g p.entry } g p.entry pg 2
  setCore s1 g { getCore s1 g with proxies := (getCore s1 g).proxies.filter fun q => q.entry != p.entry }

/-- Where a proxy adds: its ARR, or nowhere while that lies in a guarded granule or pipe area (R2, R253). DESIGN CHOICE (log 76). -/
def arrPlace (s : State) (a : Nat) : Option Nat := if guardedIn s a 8 then none else some a

/-- The proxy owes its generation no longer: the add, and PG + 1 (R347). -/
def passProxy (s : State) (g : Nat) (p : Proxy) : State :=
  let s0 := removeWaiter { s with fired := s.fired.filter fun e => e.1 != .proxy g p.entry } (.proxy g p.entry)
  let s1 := beginRelease s0 g 2 (arrPlace s0 p.arr) p.inc (fibreAdder g p.fibre) false
  let q := { p with pg := p.pg + 1 }
  if q.pg > q.last then spendProxy s1 g q (some q.pg) else setProxyState (replaceProxy s1 g q) g q.entry (some q.pg) 1

/-- The threshold at which the proxy adds (R347). -/
def proxyThr (p : Proxy) : Word := p.base + p.step * w64 (p.pg - 1)

/-- PROXY_ARRIVAL of entry i mod 16 of core i div 16 (R347): a wake acts by the value it brought, whatever the word holds since (R105); one
without a value, or a word found poisoned, spends the entry. -/
def proxyArrive (s : State) (i : Nat) : State :=
  let g := i / 16
  match (getCore s g).proxies.find? fun p => p.entry == i % 16 with
  | none => s
  | some p =>
    match s.fired.find? fun e => e.1 == .proxy g p.entry with
    | some (_, none) => spendProxy s g p none
    | some (_, some _) => passProxy s g p
    | none =>
      let u := clearPath s g p.arr
      if !pathClear u g p.arr then s else
      match readCounter u p.arr with
        | (none, t) => spendProxy t g p none
        | (some x, t) =>
          if reached x (proxyThr p) then passProxy t g p
          else if t.enrol.any fun e => e.who == .proxy g p.entry then t
          else enrolWaiter t (.proxy g p.entry) p.arr (proxyThr p)

/-! ## Requests (R283-R286) -/

/-- The sampler block of a core: ring, LOG2SIZE, SCOPE (R283). -/
def sampRing (s : State) (g : Nat) : Nat := readNat s (spadLoc g 0x1FF10) 4
def sampLog (s : State) (g : Nat) : Nat := readNat s (spadLoc g 0x1FF14) 1
def sampScope (s : State) (g : Nat) : Nat := readNat s (spadLoc g 0x1FF15) 1
/-- Cluster-space address of the record of request n. -/
def reqAddr (s : State) (g n : Nat) : Nat := sampRing s g + 64 * (n % 2 ^ sampLog s g)
def reqLoc (s : State) (g n : Nat) : Nat := clusterLoc (clusterOf g) (reqAddr s g n)

/-- A place that the device writes for a request: aligned, in the cluster space, in a present core, and not guarded (R2, R253). Where the
record or DONE names another, the write is dropped and the request goes on. DESIGN CHOICE (log 76). -/
def reqPlace (s : State) (g addr : Nat) : Option Nat :=
  let a := clusterLoc (clusterOf g) addr
  if addr % 8 = 0 ∧ addr < Config.clusterBytes ∧ present s (homeOf a) = true ∧ guardedIn s a 8 = false then some a else none

/-- A field of the record of request n as a load by the core reads it; a record that meets a guarded byte reads as 0 (R253, log 76). -/
def reqNat (s : State) (g n o l : Nat) : Nat := if guardedIn s (reqLoc s g n) 64 then 0 else coreNat s g (reqLoc s g n + o) l

/-- STATUS of request n, through the store buffer of the core; the place is read from the sampler block (R82). -/
def putStatus (s0 : State) (g n st cause : Nat) : State :=
  let s := correctRead s0 (spadLoc g 0x1FF10) 8
  match reqPlace s g (reqAddr s g n + 0x28) with
  | some a => storeIn s g a (bytesOf 8 (st * 2 ^ 61 + cause)) (fibreAdder g 4095) true
  | none => s

/-- Finish request n with f (R285): STATUS, then the add at DONE; the fibre is freed and HEAD added to once that add is made (R331). -/
def finishRequest (s : State) (g n st cause f : Nat) : State :=
  let s1 := putStatus (correctLoad s g false (reqLoc s g n + 0x18) 8) g n st cause
  let done := reqNat s1 g n 0x18 4 % 2 ^ 25
  let inc := reqNat s1 g n 0x1C 4
  runReleases (beginRelease s1 g (sampScope s1 g) (reqPlace s1 g done) (w64 (inc + f * 2 ^ 48)) (fibreAdder g 4095) true)

/-- A request fibre raises a cause: it ends under R140; its record holds the cause and STATE 7, or 6 for a refused page fault. -/
def failRequest (s : State) (g : Nat) (k : Fin 16) (cause : Nat) : State :=
  let x := getCtx s g k
  let s1 := setCtx s g k { x with tcause := BitVec.ofNat 8 cause }
  let s2 := unbind s1 g k (if cause = 8 then .faulted else .done)
  match (getCore s2 g).request with
  | some (n, _) => finishRequest s2 g n (if cause = 8 then 5 else 4) cause 1
  | none => s2

/-- A request fibre halts: the logit fibre goes on as the sampler fibre; the sampler fibre ends its request (R285, R286). -/
def haltRequest (s : State) (g : Nat) (k : Fin 16) : State :=
  match (getCore s g).request with
  | none => unbind s g k .done
  | some (n, true) =>
    let entry := w64 (reqNat s g n 0 8)
    let s1 := setCtx s g k { getCtx s g k with pc := entry, entry := true }
    let s2 := putStatus (unbind (correctLoad s1 g false (reqLoc s g n) 8) g k .swapped) g n 2 0
    match fibreInfo s2 g 4095 with
    | some i => enlist (setFibreInfo (setCore s2 g { getCore s2 g with request := some (n, false) }) g 4095 { i with writing := false }) g 4095
    | none => s2
  | some (n, false) => finishRequest (unbind s g k .done) g n 3 0 0

/-! ## Faults and ends -/

/-- The fibre in slot k becomes faulted: its record is written, proxies are armed under FPOL = 1, and the core's fault counter is added
to (R135, R137, R346). -/
def faultFibre (s : State) (g : Nat) (k : Fin 16) : State :=
  let f := (getCtx s g k).fibre.toNat % 4096
  let s1 := unbind s g k .faulted
  let s2 := match fibreInfo s1 g f with
    | some i => match i.kern with
        | some n => if kernFpol s1 n then armProxies s1 g f (some n) i.loc else s1
        | none => s1
    | none => s1
  addAt (closeEntries s2 g) (faultCtr g) 1 (fibreAdder g f)

/-- Bind a ready fibre; a record that reads as poison makes the fibre faulted with cause 0x10 and `%taddr` 0 instead (R144), doubled where a
handler was active (R135), or ends its request (R140). `%tpc` stays as the record has it. DESIGN CHOICE (log 105). -/
def bindOrFault (s : State) (g : Nat) (k : Fin 16) (f : Nat) : State :=
  if recordClean s g f then bindFibre s g k f
  else match fibreInfo s g f with
    | none => s
    | some i =>
      let c := getCore s g
      let st : FState := if i.role = .request then .done else .faulted
      let s1 := setCore s g { c with ready := c.ready.filter (· != f)
                                     fibres := place c.fibres f { i with state := st, wake := none, ticket := none, wrote := c.cyc } }
      let cl := readNat s1 (i.loc + 0x5C) 4
      let cause := if cl / 2 ^ 20 % 256 = 0 ∨ i.role = .request then 0x10 else 0x90
      let s2 := writeNat s1 (i.loc + 0x5C) 4 (cl - cl / 2 ^ 20 % 256 * 2 ^ 20 + cause * 2 ^ 20)
      let s3 := writeState (writeWord s2 (i.loc + 0x28) 0) i.loc (stateCode st)
      let s4 := refillReady s3 g
      match i.role, (getCore s4 g).request with
      | .request, some (n, _) => finishRequest s4 g n 4 0x10 1
      | _, _ =>
        let s5 := match i.kern with
          | some n => if kernFpol s4 n then armProxies s4 g f (some n) i.loc else s4
          | none => s4
        addAt (closeEntries s5 g) (faultCtr g) 1 (fibreAdder g f)

/-- The fibre in slot k halts (R76). -/
def haltFibre (s : State) (g : Nat) (k : Fin 16) : State :=
  if isRequest s g ((getCtx s g k).fibre.toNat % 4096) then haltRequest s g k else unbind s g k .done

/-- The fibre in slot k of core g belongs to a killed kernel and is at an instruction boundary: it issues no other (R338). -/
def toEnd (s : State) (g : Nat) (k : Fin 16) : Bool :=
  (((fibreInfo s g ((getCtx s g k).fibre.toNat % 4096)).bind (·.kern)).bind (kernOf s)).any (·.killed) && !unfinished s g k

/-- The fibres of a killed kernel whose instructions have completed end (R338). -/
def stopKilled (s : State) (x : Kern) : State :=
  (kernCores x).eraseDups.foldl (fun t g => (kernFibres t g x.id).foldl (fun u f =>
    if (fibreInfo u g f).any (fun i => i.state != .done) then stopFibre u g f else u) t) s

/-- Some fibre of the kernel is still bound. -/
def anyBound (s : State) (x : Kern) : Bool :=
  (kernCores x).any fun g => (kernFibres s g x.id).any fun f => (slotOfFibre s g f).isSome

/-- Killed kernels none of whose fibres is bound any longer complete (R338). -/
def finishKilled (s : State) : State :=
  if s.kerns.any (·.killed) then
    let t := (s.kerns.filter (·.killed)).foldl stopKilled s
    (t.kerns.filter fun x => x.killed && !anyBound t x).foldl (fun u x => completeKernel u x true) t
  else s

end Sys2Proof.Machine
end

