-- ==== Sys2Proof/Machine/Ops.lean ====
section
/-!
DEFINITION. The operations that the instructions share: stopping, fetching a line (R28-R31, R80, R397), taking a trap (R133-R137),
segment accesses (R77-R82, R225, R230), stream registers (R89-R94), registers (R38-R40), and completing an instruction.
-/
namespace Sys2Proof.Machine

/-- How an instruction ends without completing: a precise trap, or it leaves the rotation. What it keeps of its own effects is given
where its entry lets it keep any (R139); otherwise the state is that at issue (R132). -/
inductive Stop where
  | trap (cause : Nat) (taddr : Word) (unbacked : Bool) (keep : Option State)
  | leave (l : Leave) (keep : Option State)

/-- An instruction's own effect: a function of the state that may stop. -/
abbrev M := StateT State (Except Stop)

def fail {α : Type} (cause : Nat) (taddr : Word) : M α := fun _ => .error (.trap cause taddr false none)
/-- Cause 0x10 for an access to an unbacked DPA, which is counted (R230). -/
def failUnbacked {α : Type} (taddr : Word) : M α := fun _ => .error (.trap 0x10 taddr true none)
def leaveFor {α : Type} (l : Leave) : M α := fun _ => .error (.leave l none)

def theFib : M Fib := fun s => .ok (s.fib, s)
def theCore : M Nat := fun s => .ok (s.focus.1, s)
def theSlot : M (Fin 16) := fun s => .ok (s.focus.2, s)
def modFib (f : Fib → Fib) : M Unit := fun s => .ok ((), { s with fib := f s.fib })
/-- Trap or leave, keeping what the device has done outside the fibre's own context, whose state is that at issue. -/
def failKeeping {α : Type} (f : Fib) (cause : Nat) (taddr : Word) : M α := fun s => .error (.trap cause taddr false (some { s with fib := f }))
def leaveKeeping {α : Type} (f : Fib) (l : Leave) : M α := fun s => .error (.leave l (some { s with fib := f }))
/-- A total change of the state. -/
def change (f : State → State) : M Unit := fun s => .ok ((), f s)
/-- A change that may find no room; the instruction then waits for it. -/
def changeOrWait (f : State → Option State) : M Unit := fun s => match f s with
  | some t => .ok ((), t)
  | none => .error (.leave .room none)

/-- The fibre in focus as an adder (R107). -/
def selfAdder (s : State) : Adder := fibreAdder s.focus.1 (fibIndex s.fib)

/-! ## Code (R28-R31, R80) -/

/-- What the fetch of a line finds: its location and line word; a fault and whether it counts as an access to an unbacked DPA; a TLB miss;
or nothing yet. -/
inductive LineRes where
  | line (loc word : Nat) | bad (cause : Nat) (unbacked : Bool) | miss (m : Miss) | absent

/-- The natural value of n bytes of memory as core g sees them beyond its buffer. -/
def seenNat (s : State) (g a n : Nat) : Nat :=
  if s.ports.isEmpty then readNat s a n else natOf ((List.range n).map fun i => (seenByte s g (a + i) (homeByte s (a + i))).1)

/-- The line at location a. -/
def lineAt (s : State) (g a : Nat) : LineRes := match lineGate s a with
  | .held => .absent
  | .bad c u => .bad c u
  | .clear => .line a (seenNat s g (a + 60) 4)

/-- Fetch the line at code address p for fibre f of core g (R397): grant, translation, read. A miss asks for the address `asked`. -/
def fetchLine (s : State) (g : Nat) (f : Fib) (p asked : Word) : LineRes × State :=
  if !granted s g f p.toNat then (.bad 6 false, s)
  else if Config.aperVa ≤ p.toNat ∧ p.toNat < Config.aperVa + 2 ^ 47 then (lineAt s g (p.toNat - Config.aperVa), s)
  else if untranslated p.toNat then (.bad 6 false, s)
  else match lookupVa s g f.tenant accFetch p with
    | (some a, t) => (lineAt t g a, t)
    | (none, t) => (.miss { va := asked, at_ := accFetch, tenant := f.tenant, tag := 0, rq := 0, who := fibIndex f }, t)

/-- The line at code address p as fibre f of core g finds it at issue (R54, R55, R80): in the fetch buffer, or the fault that its fetch
meets; otherwise it is absent. The buffer holds lines, not copies of their bytes. DESIGN CHOICE (log 77). -/
def lookLine (s : State) (g : Nat) (f : Fib) (p : Word) : LineRes :=
  if !granted s g f p.toNat then .bad 6 false
  else match bufferedAt s g f p with
    | some loc => .line loc (seenNat s g (loc + 60) 4)
    | none => match (fetchLine s g f p p).1 with
        | .bad c u => .bad c u
        | _ => .absent

/-- Put a line into the fetch buffer of core g. -/
def addLine (s : State) (g : Nat) (tenant : BitVec 12) (p : Word) (loc : Nat) : State :=
  let c := getCore s g
  let l : FetchLine := ⟨tenant, p, loc⟩
  if c.lines.contains l then s else setCore s g { c with lines := c.lines.filter (fun x => !(x.tenant == tenant && x.va == p)) ++ [l] }
/-- Discard the line of code address p from the fetch buffer of core g. -/
def discardLine (s : State) (g : Nat) (p : Word) : State :=
  let c := getCore s g
  setCore s g { c with lines := c.lines.filter fun x => x.va != p }

/-- The lowest defect of a line word (R31). -/
def lineDefect (w : Nat) : Option Nat :=
  let pairs := w / 2 ^ 5 % 16
  if w / 2 ^ 16 ≠ 0 then some 1
  else if w / 2 ^ 14 % 4 ≠ 0 then some 2
  else if pairs &&& (pairs / 2) ≠ 0 then some 3
  else if (w % 32 / 2) &&& pairs ≠ 0 then some 4
  else none
def targetBit (w i : Nat) : Bool := w / 2 ^ i % 2 == 1
def pairBit (w i : Nat) : Bool := i < 4 && w / 2 ^ (5 + i) % 2 == 1

/-- The 96 bits of instruction i of the line at location loc. -/
def instrBits (s : State) (loc i : Nat) : BitVec 96 := BitVec.ofNat 96 (seenNat s s.focus.1 (loc + 12 * i) 12)

def onesOf : Nat → Nat → Nat
  | 0, _ => 0
  | n + 1, w => w % 2 + onesOf n (w / 2)

/-- The parity of instruction i is good (R32). -/
def parityGood (s : State) (loc word i : Nat) : Bool := (onesOf 96 (instrBits s loc i).toNat + word / 2 ^ (9 + i) % 2) % 2 == 0

/-- What the steps of R397 find for an entry at a. -/
inductive Entry where
  | fine | bad (cause : Nat) (unbacked : Bool) (taddr : Word) | absent

/-- The steps of R397; `strict` takes a defect of the line word as a failure of its own (R135, R397 step 3). -/
def enterAt (s : State) (a : Word) (strict : Bool) : Entry :=
  if !codeOk a then .bad 2 false a else
  match lookLine s s.focus.1 s.fib (lineOf a) with
  | .bad c u => .bad c u a
  | .line _ w => match lineDefect w with
      | some r => if strict then .bad 3 false (lineOf a + w64 r) else .fine
      | none => if targetBit w (instrNo a) then .fine else .bad 2 false a
  | _ => .absent

/-- A control transfer checks its target before it writes anything (R30); a target whose line is not in the fetch buffer takes the slot out
of the rotation until it is (R75). -/
def enterTarget (a : Word) : M Unit := fun s => match enterAt s a false with
  | .fine => .ok ((), s)
  | .bad c u ta => .error (.trap c ta u none)
  | .absent => .error (.leave (.fetch a) none)

/-- Address of what follows the instruction, or its pair when it is the second member. -/
def successor : M Word := fun s => .ok (if s.pair.isSome then nextPc (nextPc s.fib.pc) else nextPc s.fib.pc, s)

/-! ## Leaving the rotation, and traps -/

/-- The entry of the order of issue is an instruction of fibre f. -/
def Waiting.isOf (f : Nat) : Waiting → Bool
  | .instr _ n => n == f
  | .add _ => false
/-- The entry concerns what key names. -/
def Waiting.meets (k : TurnKey) : Waiting → Bool
  | .add m => k == .home (homeOf m.loc)
  | .instr j _ => j == k || match k, j with
      | .chain _, .anyChain | .home _, .anyHome => true
      | _, _ => false
/-- The entry is an add, or an instruction that still waits in its slot. -/
def Waiting.live (s : State) (g : Nat) : Waiting → Bool
  | .add _ => true
  | .instr _ f => match slotOfFibre s g f with
      | some k => (getCtx s g k).issued
      | none => false

/-- What fibre f of core g would take its turn for was asked for by an earlier instruction, or add, that still waits (R96, R202). -/
def othersAhead (s : State) (g : Nat) (k : TurnKey) (f : Nat) : Bool :=
  ((getCore s g).waitq.takeWhile fun w => !w.isOf f).any fun w => w.meets k && w.live s g
/-- The instruction of the fibre in focus takes its place in the order of issue, or keeps the one it has. -/
def enterTurn (s : State) (k : TurnKey) : State :=
  let c := getCore s s.focus.1
  let f := fibIndex s.fib
  setCore s s.focus.1 { c with waitq := if c.waitq.any (·.isOf f) then c.waitq.map fun w => if w.isOf f then .instr k f else w else c.waitq ++ [.instr k f] }
/-- Fibre f of core g has no instruction left that waits for its turn. -/
def dropTurn (s : State) (g f : Nat) : State :=
  let c := getCore s g
  if c.waitq.any (·.isOf f) then setCore s g { c with waitq := c.waitq.filter fun w => !w.isOf f } else s

/-- Leave the rotation (R55, R60). An instruction that has issued and waits is not divided by what comes to its fibre meanwhile (R61). -/
def applyLeave (s : State) : Leave → State
  | .miss m => match postMiss s s.focus.1 m with
      | some t => { t with fib := { t.fib with status := .waiting .miss, issued := true } }
      | none => { s with fib := { s.fib with status := .waiting .room, issued := true } }
  | .room => { s with fib := { s.fib with status := .waiting .room, issued := true } }
  | .fetch a => { s with fib := { s.fib with status := .waiting .fetch, want := some a, issued := true } }
  | .publish sc b => { s with fib := { s.fib with status := .waiting (.publish sc b), pubTo := some b, issued := true } }
  | .sleep w en waddr =>
    let f := fibIndex s.fib
    let s1 := match en with
      | some (loc, thr) => enrolWaiter { s with fib := { s.fib with waddr := waddr, wthr := thr } }
          (if w = Sleep.pipe then .getter s.focus.1 f else .fibre s.focus.1 f) loc thr
      | none => s
    { s1 with fib := { s1.fib with status := .sleeping w (cycOf s s.focus.1) } }
  | .turn k l => applyLeave (enterTurn s k) l

/-- An instruction that keeps its place in the order of issue while it waits, whatever it waits for (R96, R202); one that sleeps has been to
its home. -/
def inTurn {α : Type} (key : State → TurnKey) (m : M α) : M α := fun s => match m s with
  | .error (.leave (.sleep w e a) keep) => .error (.leave (.sleep w e a) keep)
  | .error (.leave l keep) => .error (.leave (.turn (key s) l) keep)
  | r => r
/-- The instruction waits while others are ahead of it. -/
def needTurn (k : TurnKey) : M Unit := fun s =>
  if othersAhead s s.focus.1 k (fibIndex s.fib) then .error (.leave .room none) else .ok ((), s)

/-- Enter the handler at `%tvec`, the trap registers being written (R135): where its line is not in the fetch buffer, the fibre waits for it
and the entry is checked then, with the pc as it was; an entry that fails leaves the fibre faulted. -/
def enterHandler (s : State) : State :=
  let f := { s.fib with entering := false, want := none }
  match enterAt s f.tvec true with
  | .fine => { s with fib := { f with pc := f.tvec } }
  | .absent => { s with fib := { f with entering := true, status := .waiting .fetch, want := some f.tvec } }
  | .bad c u ta =>
    let t := if u then bumpDie s (dieOf s.focus.1) 0x58 1 else s
    faultFibre { t with fib := { f with tcause := BitVec.ofNat 8 (0x80 + c), tpc := f.tvec, taddr := ta } } s.focus.1 s.focus.2

/-- Take a trap (R135, R137, R140): the one description of exception entry. The trap registers are written; the handler is entered at
`%tvec` when no handler is active and one is set; otherwise the fibre becomes faulted. -/
def raiseTrap (s : State) (t : Trap) (unbacked : Bool) : State :=
  let g := s.focus.1
  let s0 := if unbacked then bumpDie s (dieOf g) 0x58 1 else s
  let f := { s0.fib with wake := none, delivery := none, entering := false, status := .run, issued := false, failed := false, want := none, pubTo := none, post := none }
  if isRequest s0 g (fibIndex f) then failRequest { s0 with fib := f } g s.focus.2 t.cause
  else
    let double := f.tcause != 0
    let s1 := { s0 with fib := { f with tcause := BitVec.ofNat 8 ((if double then 0x80 else 0) + t.cause), tpc := t.tpc, taddr := t.taddr } }
    if double || f.tvec == 0 then faultFibre s1 g s.focus.2 else enterHandler s1

/-- Leave the active handler (R149): the check of the return address comes before anything is written. -/
def leaveHandler (addr : M Word) (clear : Bool) : M Flow := do
  let f ← theFib
  if f.tcause = 0 then fail 5 0
  else
    let a ← addr
    enterTarget a
    modFib fun x => { x with tcause := 0, step := if clear then 0 else x.step }
    pure (.jump a)

/-- The wake that completes the instruction, taken once. -/
def takeWake : M (Option Wake) := fun s => .ok (s.fib.wake, { s with fib := { s.fib with wake := none } })

/-! ## Segment accesses (R78, R79, R95, R225, R230, R253) -/

abbrev rightRd : Nat := 1
abbrev rightWr : Nat := 2
abbrev rightCtr : Nat := 8
abbrev rightStr : Nat := 16

/-- Class address of offset o, and capacity of the class (R78). -/
def classAddr (g : Seg) (o : Word) : Nat := if g.cls = 3 then o.toNat else g.base.toNat + o.toNat
def classCap (g : Seg) : Nat :=
  if g.cls = 0 then Config.spadBytes else if g.cls = 1 then Config.clusterBytes else if g.cls = 2 then 2 ^ 55 else bitsOf g.base 0 24 * 65536
def hasRights (g : Seg) (need : Nat) : Bool := g.rights.toNat &&& need == need

/-- Location of a local or cluster class address of core g. -/
def nearLoc (g : Nat) (seg : Seg) (addr : Nat) : Nat := if seg.cls = 0 then spadLoc g addr else clusterLoc (clusterOf g) addr

/-- Some core that n bytes of cluster-space address addr lie in is absent, or the core of addr itself. -/
def absentIn (s : State) (g addr n : Nat) : Bool :=
  (List.range (n / Config.spadBytes + 2)).any fun i =>
    let c := addr / Config.spadBytes + i
    (i == 0 || c * Config.spadBytes < addr + n) && !(c < 192 && present s (clusterOf g * 192 + c))

/-- n bytes from va begin or end in a range that user mode must not reach (R20, R230). -/
def meetsBare (va n : Nat) : Bool := (bareLoc va).isSome || (bareLoc (va + n - 1)).isSome

/-- The checks of R79 that the segment and the range alone decide: none, or the cause and `%taddr`. -/
def rangeBad (s : State) (seg : Seg) (o : Word) (n align need : Nat) : Option (Nat × Word) :=
  let g := s.focus.1
  let addr := classAddr seg o
  if !hasRights seg need then some (6, o)
  else if o.toNat + n > seg.limit.toNat then some (6, o)
  else if addr + n > classCap seg then some (6, o)
  else if addr % align ≠ 0 then some (7, o)
  else if seg.cls = 1 ∧ absentIn s g addr n = true then some (6, o)
  else none

/-- The checks of R79 up to translation, and the guard of R253 on user accesses: none, or the cause and `%taddr`. -/
def segFault (s : State) (seg : Seg) (o : Word) (n align need : Nat) : Option (Nat × Word) :=
  let g := s.focus.1
  let addr := classAddr seg o
  match rangeBad s seg o n align need with
  | some f => some f
  | none =>
  if seg.cls.toNat < 2 ∧ s.fib.steward = false ∧ guardedIn s (nearLoc g seg addr) n = true then some (6, o)
  else if seg.cls = 2 ∧ s.fib.steward = false ∧ meetsBare addr n = true then some (5, w64 addr)
  else none

/-- A handle-table entry as core g reads it (R225). -/
def entryBytes (s : State) (g n : Nat) : List Byte := (coreBytes s g false (handleLoc n) 32).map (·.1)

/-- The checks of R225, reasons 1 to 7, on handle h: `kinds` admits the entry's kind and `fits` its bound. 0 when all pass. -/
def handleReason (s : State) (h : Word) (kinds : Nat → Bool) (fits : Nat → Bool) : Nat :=
  let n := bitsOf h 24 20
  let b := entryBytes s s.focus.1 n
  let st := recNat b 0x17 1
  let bound := recNat b 0x10 4 % 2 ^ 24
  let ten := recNat b 0x14 2 % 4096
  if n = 0 then 1
  else if st < 128 then 2
  else if recNat b 0x16 1 ≠ bitsOf h 44 8 then 3
  else if ten ≠ bitsOf h 52 12 ∨ (s.fib.steward = false ∧ ten ≠ s.fib.tenant.toNat) then 4
  else if bound ≠ bitsOf h 0 24 then 5
  else if !kinds (st % 8) then 6
  else if !fits bound then 7
  else 0

/-- CUR and SHD of the entry that handle h names. -/
def handleCur (s : State) (h : Word) : Nat := recNat (entryBytes s s.focus.1 (bitsOf h 24 20)) 0 8
def handleShd (s : State) (h : Word) : Nat := recNat (entryBytes s s.focus.1 (bitsOf h 24 20)) 8 8

/-- `%taddr` of cause 0x0D. -/
def handleAddr (reason : Nat) (o : Nat) : Word := w64 (reason * 2 ^ 56 + o % 2 ^ 56)

/-- What translation makes of a piece of an access within one page: a location, a fault, or a miss. -/
inductive PieceRes where
  | got (loc : Nat) (s : State) | bad (cause : Nat) (taddr : Word) | miss (m : Miss)

/-- The n bytes at va, within one page, of an access at offset o (R79, R230, R363, R369). -/
def pieceAt (s : State) (va n : Nat) (o : Word) (kind : Nat) : PieceRes :=
  let user := !s.fib.steward
  if Config.hostVa ≤ va ∧ va < Config.hostVa + 2 ^ 44 then
    match hostAperture s va n (accNeeds kind) user s.fib.tenant with
    | some h => .got (Config.hostBase + h) s
    | none => .bad 6 o
  else if Config.peerVa ≤ va ∧ va < Config.peerVa + 2 ^ 42 then
    match peerAperture s va user s.fib.tenant with
    | some _ => .got (Config.peerBase + (va - Config.peerVa)) s
    | none => .bad 6 o
  else match bareLoc va with
    | some a => if user then .bad 5 (w64 va) else .got a s
    | none => match lookupVa s s.focus.1 s.fib.tenant (walkKind kind) (w64 va) with
        | (some a, t) => .got a t
        | (none, _) =>
          let m : Miss := { va := w64 va, at_ := walkKind kind, tenant := s.fib.tenant, tag := 0, rq := 0, who := fibIndex s.fib }
          match grantFor s s.focus.1 m with
          | some l => .got (leafDpa l (w64 va)) (useGrant s s.focus.1 m)
          | none => .miss m

/-- The pieces of n bytes at va within pages. -/
def pagePieces : Nat → Nat → Nat → List (Nat × Nat)
  | 0, _, _ => []
  | fuel + 1, va, n =>
    if n = 0 then [] else
    let m := Nat.min n (65536 - va % 65536)
    (va, m) :: pagePieces fuel (va + m) (n - m)

/-- Locations of the pieces of an access at offset o, in ascending order; the first that has none decides. -/
def translatePieces (o : Word) (kind : Nat) : List (Nat × Nat) → M (List (Nat × Nat))
  | [] => pure []
  | (va, n) :: rest => fun s => match pieceAt s va n o kind with
      | .bad c a => .error (.trap c a false none)
      | .miss m => .error (.leave (.miss m) none)
      | .got a t => match translatePieces o kind rest t with
          | .ok (l, u) => .ok ((a, n) :: l, u)
          | .error e => .error e

/-- Locations of n bytes at module virtual address va, for an access at offset o: cut at pages. -/
def translate (va n : Nat) (o : Word) (kind : Nat) : M (List (Nat × Nat)) := translatePieces o kind (pagePieces (n / 65536 + 2) va n)

/-- The accesses of the core's cluster that are ahead in its ports go before this one to location a (R118); it waits while a link holds them. -/
def needPath (a : Nat) : M Unit := fun s =>
  let t := clearPath s s.focus.1 a
  if pathClear t s.focus.1 a then .ok ((), t) else .error (.leave .room none)
/-- A load of n bytes at location a that no buffer or cache of its core answers goes out behind them. -/
def needRead (bypass : Bool) (a n : Nat) : M Unit := fun s => if answered s s.focus.1 bypass a n then .ok ((), s) else needPath a s

/-- Resolve an access of n bytes at offset o of segment sg: the checks of R79, the handle (R225), translation. -/
def resolve (sg : Fin 8) (o : Word) (n align need kind : Nat) : M (List (Nat × Nat)) := do
  let s ← get
  let seg := s.fib.seg[sg]
  match segFault s seg o n align need with
  | some (c, a) => fail c a
  | none =>
    let addr := classAddr seg o
    if seg.cls.toNat < 2 then pure [(nearLoc s.focus.1 seg addr, n)]
    else if seg.cls = 2 then translate addr n o kind
    else
      let r := handleReason s seg.base (· == 0) fun b => addr + n ≤ b * 65536
      if r ≠ 0 then fail 0x0D (handleAddr r o.toNat)
      else
        needRead false (handleLoc (bitsOf seg.base 24 20)) 32
        translate (handleCur s seg.base + addr) n o kind

/-- A host, peer or CXL location whose link is not up reads as poison and traps; a retraining link holds the access (R355, R363, R365). -/
def needLink (a : Nat) (taddr : Word) : M Unit := fun s => match linkStateOf s a with
  | 2 => .ok ((), s)
  | 3 => .error (.leave .room none)
  | _ => .error (.trap 0x10 taddr false none)

/-- Read n bytes beyond the module; the instruction waits while their link has no room. -/
def farLoad (a n : Nat) : M (List Byte) := fun s => match farRead s a n with
  | some r => .ok r
  | none => .error (.leave .room none)

/-- A load of n bytes of the steward window as core g sees them, its own buffered stores to plain bytes first (R20, R81); `whole` says that
they are the whole access (R401). -/
def loadSw (a n : Nat) (whole : Bool) : M (List Byte) := do
  needPath a
  let s ← get
  let r := swLoad s (a - Config.swBase) n whole
  let sb := (getCore s s.focus.1).sb
  set r.2
  pure ((List.range n).map fun j => match sbByte sb (a + j), swKind (a - Config.swBase + j) with
    | some b, .plain => b.1
    | _, _ => nth r.1 j 0)

/-- Load the n bytes at one location (R81, R82, R121): i is their place in the access at offset o. -/
def loadSpan (a n : Nat) (o : Word) (i : Nat) (bypass whole : Bool) : M (List Byte) := do
  let s ← get
  let ta := o + w64 i
  if isDpa a && !backed s a then failUnbacked ta
  else
    needLink a ta
    needRead bypass a n
    let s ← get
    if isFar a then
      let b ← farLoad a n
      pure (farBytes s s.focus.1 a b)
    else
      let raw := coreBytes s s.focus.1 bypass a n
      match raw.findIdx? (·.2) with
      | some j => fail 0x10 (ta + w64 j)
      | none =>
        if isSw a then loadSw a n whole
        else
          change fun t => correctLoad t t.focus.1 bypass a n
          if bypass then change fun t => dropLines t t.focus.1 a n
          pure (raw.map (·.1))

def loadSpans (o : Word) (bypass whole : Bool) : Nat → List (Nat × Nat) → M (List Byte)
  | _, [] => pure []
  | i, (a, n) :: rest => do
    let b ← loadSpan a n o i bypass whole
    let bs ← loadSpans o bypass whole (i + n) rest
    pure (b ++ bs)

/-- Load the bytes at the locations of one access at offset o; only an access that lies in one piece can act on a port (R401). -/
def loadAll (o : Word) (bypass : Bool) (l : List (Nat × Nat)) : M (List Byte) := loadSpans o bypass (l.length == 1) 0 l

/-- A load of n bytes at offset o of segment sg. -/
def loadSeg (sg : Fin 8) (o : Word) (n align : Nat) (bypass : Bool) : M (List Byte) := do
  let l ← resolve sg o n align rightRd accLoad
  loadAll o bypass l

/-- A store enters the store buffer (R86); one to an unbacked DPA traps before it does (R230). -/
def storeSpans (o : Word) (whole : Bool) : Nat → List (Nat × Nat) → List Byte → M Unit
  | _, [], _ => pure ()
  | i, (a, n) :: rest, bs => do
    let s ← get
    if isDpa a && !backed s a then failUnbacked (o + w64 i)
    else
      change fun t => storeIn t t.focus.1 a (bs.take n) (selfAdder t) whole
      storeSpans o whole (i + n) rest (bs.drop n)

/-- Store bytes at the locations of one access at offset o; only an access that lies in one piece can act on a port (R401). -/
def storeAll (o : Word) (l : List (Nat × Nat)) (bs : List Byte) : M Unit := storeSpans o (l.length == 1) 0 l bs

def storeSeg (sg : Fin 8) (o : Word) (align : Nat) (bs : List Byte) : M Unit := do
  let l ← resolve sg o bs.length align rightWr accStore
  storeAll o l bs

/-- Effective offset of a memory operand (R37). -/
def effOffset (a : Word) (off : BitVec 48) : Word := a + off.signExtend 64

/-! ## Streams (R89-R94) -/

/-- Bytes of a size code (R84). -/
def sizeBytes (c : Nat) : Nat := match c with
  | 0 | 1 => 1 | 2 | 3 => 2 | 4 | 5 => 4 | 6 => 8 | 7 => 32 | _ => 64
/-- A loaded scalar of a size code (R85). -/
def extendSize (c : Nat) (m : Nat) : Word :=
  if c = 1 ∨ c = 3 ∨ c = 5 then wrap64 (sextNat (8 * sizeBytes c) m) else w64 m

/-- The pattern of a record, when it keeps R89 and suits the register kind. Its reserved bytes are ignored (R7, log 78). -/
def patternOf (b : List Byte) (isV : Bool) : Option Pattern :=
  let w := recNat b
  let np := w 1 1
  let c := fun k => w (8 + 16 * k) 8
  let st := fun k => sextNat 64 (w (16 + 16 * k) 8)
  let used := (List.range 3).all fun k => if k < np then 1 ≤ c k && c k < 2 ^ 32 else c k == 0 && st k == 0
  let cnt := fun k => if k < np then c k else 1
  if w 0 1 ≤ 8 ∧ 1 ≤ np ∧ np ≤ 3 ∧ used = true ∧ cnt 0 * cnt 1 * cnt 2 ≤ 2 ^ 48 - 1 ∧ (w 0 1 ≥ 7 ↔ isV = true) then
    some { esize := w 0 1, c0 := cnt 0, c1 := cnt 1, c2 := cnt 2, s0 := st 0, s1 := st 1, s2 := st 2, base := w64 (w 0x38 8) }
  else none

def Pattern.total (p : Pattern) : Nat := p.c0 * p.c1 * p.c2
/-- off(j) of R89. -/
def Pattern.off (p : Pattern) (j : Nat) : Word :=
  p.base + wrap64 ((j % p.c0 : Nat) * p.s0 + (j / p.c0 % p.c1 : Nat) * p.s1 + (j / (p.c0 * p.c1) : Nat) * p.s2)

def setStream (p : Fin 4) (r : Stream) : M Unit := modFib fun f => { f with streams := f.streams.set p r }

/-- The pattern that position p follows: after a bind the record is read again (R94); one that breaks R89 traps with POFF. -/
def streamPattern (p : Fin 4) : M Pattern := do
  let f ← theFib
  let r := f.streams[p]
  let po := r.poff.zeroExtend 64
  if r.again then
    let b ← loadSeg r.pseg po 64 64 false
    setStream p { r with again := false, pat := patternOf b r.isV }
    match patternOf b r.isV with
    | some q => pure q
    | none => fail 6 po
  else match r.pat with
    | some q => pure q
    | none => fail 6 po

/-- Pop the next element: none when INDEX = N (R91). A pop is a demand access: its handle and translation are tested at the pop, refilled or
not (R90, R91). -/
def popStream (p : Fin 4) : M (Option (Pattern × List Byte)) := do
  let q ← streamPattern p
  let f ← theFib
  let r := f.streams[p]
  if r.index.toNat ≥ q.total then pure none
  else
    let o := q.off r.index.toNat
    match r.buf with
    | e :: rest =>
      let _ ← resolve r.dseg o (sizeBytes q.esize) (sizeBytes q.esize) rightRd accLoad
      match e.toxic with
      | some i => fail 0x10 (o + w64 i)
      | none =>
        setStream p { r with index := r.index + 1, buf := rest }
        pure (some (q, e.bytes))
    | [] =>
      let b ← loadSeg r.dseg o (sizeBytes q.esize) (sizeBytes q.esize) false
      modFib fun x => { x with streams := x.streams.set p { x.streams[p] with index := r.index + 1 } }
      pure (some (q, b))

/-- Push a value onto output position p (R91): the first bytes of bs; at INDEX = N it is discarded. -/
def pushStream (p : Fin 4) (bs : List Byte) : M Unit := do
  let q ← streamPattern p
  let f ← theFib
  let r := f.streams[p]
  if r.index.toNat ≥ q.total then pure ()
  else
    storeSeg r.dseg (q.off r.index.toNat) (sizeBytes q.esize) (bs.take (sizeBytes q.esize))
    modFib fun x => { x with streams := x.streams.set p { x.streams[p] with index := r.index + 1 } }

/-- The armed position that a register names, if any. -/
def armedS (f : Fib) : SReg → Option (Fin 4)
  | .s k => if k.val ≥ 12 then (let p := Fin.ofNat 4 (k.val - 12); if f.streams[p].armed && !f.streams[p].isV then some p else none) else none
  | _ => none
def armedV (f : Fib) (k : Fin 16) : Option (Fin 4) :=
  if k.val ≥ 12 then (let p := Fin.ofNat 4 (k.val - 12); if f.streams[p].armed && f.streams[p].isV then some p else none) else none

/-! ## Registers (R38-R40, R91, R144) -/

/-- Operand specifier of a register (R38). -/
def specOf : SReg → Nat
  | .la k => k.val | .z => 4 | .s k => 0x10 + k.val | .x k => 0x40 + k.val
def regVal (f : Fib) : SReg → Word
  | .la k => f.la[k] | .z => 0 | .s k => f.s[k] | .x k => f.x[k]
def poisonCode (spec : Nat) : Word := w64 (2 ^ 63 + spec)

/-- A register is written whole: its poison and its single-bit error go (R144). -/
def cleanReg (f : Fib) (code : Nat) : Fib :=
  if f.poison.isEmpty && f.flips.isEmpty then f else { f with poison := f.poison.filter (· != code), flips := f.flips.filter (· != code) }
/-- A register is read: its single-bit error is corrected and counted (R144). -/
def correctReg (s : State) (code : Nat) : State :=
  if s.fib.flips.contains code then bumpDie { s with fib := { s.fib with flips := s.fib.flips.filter (· != code) } } (dieOf s.focus.1) 0x10 1 else s
/-- A register file's read of a register: poison traps with its code (R144). -/
def seeReg (code : Nat) (taddr : Word) : M Unit := fun s =>
  if s.fib.poison.contains code then .error (.trap 0x10 taddr false none) else .ok ((), correctReg s code)

/-- Read a scalar operand: a poisoned register traps; an armed input stream pops; an armed output stream reads zero. -/
def rd (r : SReg) : M Word := do
  let f ← theFib
  match armedS f r with
  | some p =>
    if f.streams[p].out then pure 0
    else match ← popStream p with
      | some (q, b) => pure (extendSize q.esize (natOf b))
      | none => pure 0
  | none => do
    seeReg (specOf r) (poisonCode (specOf r))
    pure (regVal f r)

/-- The lanes that the bytes of a vector load fill (R85). -/
def lanesOf (b : List Byte) : VReg := vecOf fun k : Fin 16 => BitVec.ofNat 32 (natOf ((b.drop (4 * k.val)).take 4))
def zeroV : VReg := Vector.replicate 16 0

def rdV (k : Fin 16) : M VReg := do
  let f ← theFib
  match armedV f k with
  | some p =>
    if f.streams[p].out then pure zeroV
    else match ← popStream p with
      | some (_, b) => pure (lanesOf b)
      | none => pure zeroV
  | none => do
    seeReg (0x20 + k.val) (poisonCode (0x20 + k.val))
    pure f.v[k]

/-- Put a value into a register, as a plain register. -/
def putReg (f : Fib) (r : SReg) (v : Word) : Fib :=
  let g := cleanReg f (specOf r)
  match r with
  | .la k => { g with la := g.la.set k v }
  | .s k => { g with s := g.s.set k v }
  | .x k => { g with x := g.x.set k v }
  | .z => g

/-- The codes of a list after a push into the last-result file. -/
def pushCodes (l : List Nat) : List Nat := (l.filter fun c => c ≥ 4) ++ ((l.filter fun c => c < 3).map (· + 1))
/-- Push a result into the last-result file (R40); poison and single-bit errors move with the values. -/
def pushLa (f : Fib) (v : Word) : Fib :=
  let g := if f.poison.isEmpty && f.flips.isEmpty then f else { f with poison := pushCodes f.poison, flips := pushCodes f.flips }
  { g with la := (((g.la.set 3 g.la[2]).set 2 g.la[1]).set 1 g.la[0]).set 0 v }

/-- Write a named scalar destination (R40, R91). -/
def writeS (d : SReg) (v : Word) : M Unit := do
  let f ← theFib
  match armedS f d with
  | some p => if f.streams[p].out then pushStream p (bytesOf 8 v.toNat) else pure ()
  | none => modFib fun x => putReg x d v

def writeV (d : Fin 16) (v : VReg) : M Unit := do
  let f ← theFib
  match armedV f d with
  | some p => if f.streams[p].out then pushStream p (laneBytes v) else pure ()
  | none => modFib fun x => { cleanReg x (0x20 + d.val) with v := x.v.set d v }

def holdResult (r : Result) : M Unit := fun s => match s.pair with
  | some p => .ok ((), { s with pair := some { p with results := p.results ++ [r] } })
  | none => .ok ((), s)

/-- Meet now what a write would meet later: its faults and its waits. -/
def tryOut (m : M Unit) : M Unit := fun s => match m s with
  | .ok _ => .ok ((), s)
  | .error (.trap c a u _) => .error (.trap c a u none)
  | .error (.leave l _) => .error (.leave l none)

/-- A scalar result: it is pushed, and the named destination is written; in a pair both wait for the commit, and a push to a stream is
tested at its member's turn (R40, R46, R47). -/
def result (d : SReg) (v : Word) : M Unit := do
  let s ← get
  if s.pair.isSome then
    tryOut (writeS d v)
    holdResult (.scalar d v)
  else
    modFib fun f => pushLa f v
    writeS d v

/-- A vector result. -/
def resultV (d : Fin 16) (v : VReg) : M Unit := do
  let s ← get
  if s.pair.isSome then
    tryOut (writeV d v)
    holdResult (.vector d v)
  else writeV d v

/-- Commit the results of a pair (R46): pushes first, then the named destinations. -/
def commitPushes : List Result → M Unit
  | [] => pure ()
  | .scalar _ v :: r => do
    modFib fun f => pushLa f v
    commitPushes r
  | .vector _ _ :: r => commitPushes r
def commitNames : List Result → M Unit
  | [] => pure ()
  | .scalar d v :: r => do
    writeS d v
    commitNames r
  | .vector d v :: r => do
    writeV d v
    commitNames r
def commitResults (l : List Result) : M Unit := do
  commitPushes l
  commitNames l

/-! ## Completing -/

/-- After a bind the device reads the pattern record of each armed stream again (R94); one that it cannot read yet is read at the next
occasion. -/
def rereadStream (s : State) (p : Fin 4) : State :=
  let r := s.fib.streams[p]
  if r.armed && r.again then
    match loadSeg r.pseg (r.poff.zeroExtend 64) 64 64 false s with
    | .ok (b, t) => { t with fib := { t.fib with streams := t.fib.streams.set p { r with again := false, pat := patternOf b r.isV } } }
    | .error _ => s
  else s
def rereadStreams (s : State) : State := (List.finRange 4).foldl rereadStream s

/-- Act on slot k of core g as the slot in focus. -/
def atSlot (s : State) (g : Nat) (k : Fin 16) (f : State → State) : State := setFocus (f (setFocus s g k)) s.focus.1 s.focus.2

/-- Bind a ready fibre (R59, R94, R144). -/
def bindReady (s : State) (g : Nat) (k : Fin 16) (f : Nat) : State := atSlot (bindOrFault s g k f) g k rereadStreams

/-- `yield` (R76): the fibre goes to the tail of the ready list, and the eldest that the slot admits binds; a slot that a queue has taken
goes to that queue (R306). -/
def yieldSlot (s : State) (g : Nat) (k : Fin 16) : State :=
  if (eldest s g k).isNone then s else
  let me := fibIndex s.fib
  let s1 := unbind s g k .ready
  match fibreInfo s1 g me with
  | none => s1
  | some i =>
    let c := getCore s1 g
    let s2 := writeState (setCore s1 g { c with ready := c.ready ++ [me], fibres := place c.fibres me { i with writing := false } }) i.loc 1
    match eldest s2 g k with
    | some f => bindReady s2 g k f
    | none =>
      let d := getCore s2 g
      if d.ready.length ≤ 256 then s2 else enlist (setCore s2 g { d with ready := d.ready.filter (· != me) }) g me

/-- Post the service entry of a `sysc` (R148). -/
def postService (s : State) (g f : Nat) (tenant : BitVec 12) (n : Word) : Option State :=
  postMiss s g { va := 0, at_ := 7, tenant := tenant, tag := 0, rq := 3, who := f, code := n }

/-- `sysc` (R148): the fibre is swapped out, and its service entry follows its record. The walker is never swapped out (R52): its entry is
posted at once, and it goes on. -/
def syscSlot (s : State) (g : Nat) (k : Fin 16) (n : Word) : State :=
  let f := fibIndex s.fib
  if k = 15 then (postService s g f s.fib.tenant n).getD s else
  let s1 := unbind s g k .swapped
  match fibreInfo s1 g f with
  | some i => setFibreInfo s1 g f { i with call := some n }
  | none => s1

/-- Go on after the results are written; `next` is the successor. -/
def applyFlow (s : State) (fl : Flow) (next : Word) : State :=
  let g := s.focus.1
  let k := s.focus.2
  match fl with
  | .seq => { s with fib := { s.fib with pc := next } }
  | .jump a => { s with fib := { s.fib with pc := a } }
  | .raise t u => raiseTrap { s with fib := { s.fib with pc := t.tpc } } t u
  | .halt => haltFibre { s with fib := { s.fib with pc := next } } g k
  | .sysc n => syscSlot { s with fib := { s.fib with pc := next } } g k n
  | .yield => yieldSlot { s with fib := { s.fib with pc := next } } g k

/-- Run an instruction's effect (R132): a trap or a leave undoes it, but for what it keeps. In a pair the outcome waits for the commit. -/
def perform (m : M Flow) (s : State) : Host.Outcome State Fault Refusal :=
  match m s with
  | .ok (fl, t) => match t.pair with
      | none => .next (applyFlow t fl (nextPc t.fib.pc))
      | some p => .next { t with pair := some { p with flow := fl } }
  | .error (.trap c a u keep) => match s.pair with
      | none => .next (raiseTrap (keep.getD s) ⟨c, s.fib.pc, a⟩ u)
      | some p => .next { keep.getD s with pair := some { p with stop := some (.trap c a u), kept := keep.isSome } }
  | .error (.leave l keep) => match s.pair with
      | none => .next (applyLeave (keep.getD s) l)
      | some p => .next { keep.getD s with pair := some { p with stop := some (.leave l), kept := keep.isSome } }

/-- An instruction that goes on in sequence. -/
def inSequence (m : M Unit) : M Flow := do
  m
  pure .seq
def performSeq (m : M Unit) (s : State) : Host.Outcome State Fault Refusal := perform (inSequence m) s

/-- The publish of the instruction in focus begins, or goes on, and goes as far as it can: what it covers. -/
def publishFrom (s : State) (sc : Nat) : Bound × State :=
  let b := match s.fib.pubTo with
    | some n => (n, s)
    | none => beginPublish s s.focus.1
  (b.1, pushPublish b.2 s.focus.1 sc b.1)

/-- The publish of an instruction at a scope (R111, R120, R131), before any other effect of it; f is the fibre's context at issue. What it
closed stays closed while it waits. -/
def release (f : Fib) (sc : Nat) : M Unit := fun s =>
  let t := publishFrom s sc
  if publishDone t.2 s.focus.1 sc t.1 then .ok ((), { t.2 with fib := { t.2.fib with pubTo := none } })
  else .error (.leave (.publish sc t.1) (some { t.2 with fib := f }))

end Sys2Proof.Machine
end

