-- ==== Sys2Proof/Machine/Flags.lean ====
section
/-!
DEFINITION. The conditions (R42, R172). The machine has no flag register: a condition is computed from two operands where it is used.
-/
namespace Sys2Proof.Machine

/-- R42. -/
def condHolds (c : Cond) (a b : Word) : Bool := match c with
  | .eq => a == b
  | .ne => a != b
  | .lt => a.slt b
  | .ge => !a.slt b
  | .ltn => a.ult b
  | .gen => !a.ult b

end Sys2Proof.Machine
end

