-- ==== Sys2Proof/Machine/Operands.lean ====
section
/-!
DEFINITION. Reading the operand forms (R35, R37, R109, R166) and the operand reads that several families share.
-/
namespace Sys2Proof.Machine

/-- An immediate as a 64-bit value (R35). -/
def immVal (i : BitVec 48) : Word := i.signExtend 64

def rdB : SrcB → M Word
  | .reg r => rd r
  | .imm i => pure (immVal i)

/-- A register or the K field of a counter instruction (R109). -/
def rdArg : CArg → M Word
  | .reg r => rd r
  | .imm k => pure (k.zeroExtend 64)

/-- Effective offset of a format-M operand (R37). -/
def rdMem (m : MemRef) : M Word := do
  let a ← rd m.a
  pure (effOffset a m.off)

/-- Effective offset of an operand in the layout of the counter instructions (R109). -/
def rdRef (m : CRef) : M Word := do
  let a ← rd m.a
  pure (a + m.off.signExtend 64)

/-- A scalar operand whose poison the instruction tests only after other checks (R190), and that test. -/
def rdRaw (r : SReg) : M Word := do
  let f ← theFib
  match armedS f r with
  | some _ => rd r
  | none => pure (regVal f r)
def needClean (r : SReg) : M Unit := do
  let f ← theFib
  if (armedS f r).isNone then seeReg (specOf r) (poisonCode (specOf r)) else pure ()
def rdRefRaw (m : CRef) : M Word := do
  let a ← rdRaw m.a
  pure (a + m.off.signExtend 64)

/-- The pops of an operand whose value a completing wait no longer needs (R91, R103). -/
def repop (r : SReg) : M Unit := do
  let f ← theFib
  match armedS f r with
  | some _ => do
    let _ ← rd r
    pure ()
  | none => pure ()
def repopArg : CArg → M Unit
  | .reg r => repop r
  | .imm _ => pure ()

/-- All lanes alike. -/
def splat (l : Lane) : VReg := Vector.replicate 16 l

/-- A vector operand of class V, S or I (R166): a scalar or an immediate stands in every lane with its low 32 bits. -/
def rdVSrc : VSrc → M VReg
  | .v k => rdV k
  | .s r => do
    let w ← rd r
    pure (splat (w.setWidth 32))
  | .imm i => pure (splat ((immVal i).setWidth 32))

def rdVSrcC : VSrcC → M VReg
  | .v k => rdV k
  | .s r => do
    let w ← rd r
    pure (splat (w.setWidth 32))

end Sys2Proof.Machine
end

