-- ==== Sys2Proof/Machine/Counters.lean ====
section
/-!
DEFINITION. The counter instructions (R95-R115).
-/
namespace Sys2Proof.Machine

/-- The check of a counter operand at offset o (R109): the location of the word. -/
def counterWord (sg : Fin 8) (o : Word) : M Nat := do
  let s ← get
  let g := s.fib.seg[sg]
  match segFault s g o 8 8 rightCtr with
  | some (c, a) => if c = 5 then fail 6 o else fail c a
  | none => if g.cls.toNat ≥ 2 then fail 6 o else pure (nearLoc s.focus.1 g (classAddr g o))

/-- Entries of the buffer that leave so that the n bytes at location a are drained (R97): their block's, up to the last that holds one. -/
def coveringCount (sb : List SbEntry) (a n : Nat) : Nat :=
  let mine := sb.filter fun e => e.block == a / 64 * 64
  let last := mine.reverse.findIdx fun e => e.writes.any fun w => w.off < a % 64 + n && a % 64 < w.off + w.bytes.length
  mine.length - last

def drainBytes (a n : Nat) : M Unit := change fun s =>
  let g := s.focus.1
  drainWhere (fun e => e.block == a / 64 * 64) (coveringCount (getCore s g).sb a n) s g
def drainWord (a : Nat) : M Unit := drainBytes a 8

/-- The core's earlier adds to the home of a word are applied before the next event of the core on that home (R96), and the home reads the
word. -/
def afterOwn (a : Nat) : M Unit := change fun s => correctRead (flushMsgs s s.focus.1 (homeOf a)) a 8
/-- A counter instruction comes to the home of a word after those of its core that issued before it (R96). -/
def comeAfterOwn (a : Nat) : M Unit := do
  needTurn (.home (homeOf a))
  afterOwn a
/-- What a counter instruction takes its turn for. -/
def counterKey (m : CRef) (s : State) : TurnKey := match (do
    let o ← rdRef m
    counterWord m.sg o : M Nat) s with
  | .ok (a, _) => .home (homeOf a)
  | .error _ => .anyHome

/-- The same for a home that may lie beyond the core's cluster: a request to it follows what the ports on its path have accepted (R118). -/
def comeToHome (a : Nat) : M Unit := do
  needPath a
  comeAfterOwn a

/-- An instruction's event finds the word poisoned: the waiters on it are woken, and it traps (R106). The fibre's context is f, as at
issue. -/
def failPoisoned {α : Type} (f : Fib) (a : Nat) (taddr : Word) : M α := do
  change fun s => poisonEvent s a
  failKeeping f 0x10 taddr

def isToxicM (a : Nat) : M Bool := fun s => .ok (isToxic s a, s)

def releaseAt (f : Fib) (rel : Bool) (sc : Scope) : M Unit := if rel then release f (scopeCode sc) else pure ()
def acquireAt (acq : Bool) (sc : Scope) : M Unit := if acq then change fun s => acquire s s.focus.1 (scopeCode sc) else pure ()

/-- The checks of `cadd` and the release (R111): location and increment. The word is checked before b is taken. -/
def caddStart (f : Fib) (rel : Bool) (sc : Scope) (m : CRef) (i : CArg) : M (Word × Nat × Word) := do
  let o ← rdRef m
  let a ← counterWord m.sg o
  let n ← rdArg i
  if n.toNat ≥ 2 ^ 63 then fail 0x0B o
  else
    drainWord a
    releaseAt f rel sc
    pure (o, a, n)

/-- An add is sent; behind what its core still holds for the home, it takes its place there (R96). -/
def postMsg (s : State) (m : CtrMsg) : State :=
  let f := fibIndex s.fib
  if othersAhead s s.focus.1 (.home (homeOf m.loc)) f then
    let c := getCore s s.focus.1
    setCore s s.focus.1 { c with waitq := if c.waitq.any (·.isOf f) then c.waitq.map fun w => if w.isOf f then .add m else w else c.waitq ++ [.add m] }
  else { s with msgs := s.msgs ++ [m] }
/-- Post an add (R115). -/
def postAdd (a : Nat) (n : Word) : M Unit := change fun s => postMsg s { src := s.focus.1, loc := a, inc := n, who := selfAdder s }

/-- `cadd` (R111): the add is posted. -/
def execCadd (rel : Bool) (sc : Scope) (m : CRef) (i : CArg) (s : State) : Host.Outcome State Fault Refusal :=
  performSeq (inTurn (counterKey m) do
    let r ← caddStart s.fib rel sc m i
    postAdd r.2.1 r.2.2) s

/-- `cadd.f` (R111). -/
def execCaddF (rel : Bool) (sc : Scope) (d : SReg) (m : CRef) (i : CArg) (s : State) : Host.Outcome State Fault Refusal :=
  performSeq (inTurn (counterKey m) do
    let (o, a, n) ← caddStart s.fib rel sc m i
    comeAfterOwn a
    if ← isToxicM a then failPoisoned s.fib a o
    else
      let t ← get
      change fun t => setCounter t a (readWord t a + n) (selfAdder t)
      result d (readWord t a)) s

/-- WADDR of a counter at location a for a fibre of core g: a cluster-space address, or for another cluster a reference (R296). DESIGN
CHOICE (log 13): R57 does not say which address. -/
def waitWord (g a : Nat) : Word :=
  let cl := clusterOf (homeOf a)
  w64 ((if cl = clusterOf g then 0 else 2 ^ 47 + cl * 2 ^ 25) + (a - clusterLoc cl 0))
/-- The location that WADDR names, its bits 2:0 ignored (R241). -/
def waitLoc (g : Nat) (w : Word) : Nat := clusterLoc (if bitsOf w 47 1 = 1 then bitsOf w 25 13 else clusterOf g) (bitsOf w 0 25 / 8 * 8)

/-- A test that is not reached: the fibre sleeps, enrolled or polling (R100, R101). Its operands are popped when it completes. -/
def sleepOn (f : Fib) (w : Sleep) (a : Nat) (t : Word) : M Unit := do
  let s ← get
  leaveKeeping f (.sleep w (some (a, t)) (waitWord s.focus.1 a))

/-- `cwait` (R112); a wake completes it (R103). -/
def execCwait (acq : Bool) (sc : Scope) (d : SReg) (m : CRef) (t : CArg) (s : State) : Host.Outcome State Fault Refusal :=
  performSeq (inTurn (counterKey m) do
    match ← takeWake with
    | some (.value v) =>
      repop m.a
      repopArg t
      acquireAt acq sc
      result d v
    | some .poison =>
      let o ← rdRef m
      fail 0x10 o
    | _ =>
      let o ← rdRef m
      let a ← counterWord m.sg o
      let thr ← rdArg t
      drainWord a
      comeAfterOwn a
      if ← isToxicM a then failPoisoned s.fib a o
      else
        let u ← get
        let v := readWord u a
        if reached v thr then
          acquireAt acq sc
          result d v
        else sleepOn s.fib .counter a thr) s

/-- The value at the home of word a (R113). -/
def counterRead (f : Fib) (a : Nat) (o : Word) : M Word := do
  drainWord a
  comeAfterOwn a
  if ← isToxicM a then failPoisoned f a o
  else
    let u ← get
    pure (readWord u a)

/-- `cread` (R113). -/
def execCread (acq : Bool) (sc : Scope) (d : SReg) (m : CRef) (s : State) : Host.Outcome State Fault Refusal :=
  performSeq (inTurn (counterKey m) do
    let o ← rdRef m
    let a ← counterWord m.sg o
    let v ← counterRead s.fib a o
    acquireAt acq sc
    result d v) s

/-- `cpoll` (R113). -/
def execCpoll (acq : Bool) (sc : Scope) (d : SReg) (m : CRef) (t : CArg) (s : State) : Host.Outcome State Fault Refusal :=
  performSeq (inTurn (counterKey m) do
    let o ← rdRef m
    let a ← counterWord m.sg o
    let thr ← rdArg t
    let v ← counterRead s.fib a o
    acquireAt acq sc
    result d (boolWord (reached v thr))) s

/-- The word that `cstrag` returns (R114). -/
def stragWord (r : Strag) : Word :=
  if r.valid then w64 (2 ^ 63 + r.who.kind % 8 * 2 ^ 60 + r.who.core % 2 ^ 20 * 2 ^ 40 + r.who.fibre % 4096 * 2 ^ 28 + r.spread % 2 ^ 28) else 0

/-- The straggler record of a counter operand. -/
def stragRead (m : CRef) : M (Option Strag) := do
  let o ← rdRef m
  let a ← counterWord m.sg o
  drainWord a
  comeAfterOwn a
  let u ← get
  pure (stragOf u a)

/-- `cstrag` (R114). -/
def execCstrag (d : SReg) (m : CRef) (s : State) : Host.Outcome State Fault Refusal :=
  performSeq (inTurn (counterKey m) do
    let r ← stragRead m
    result d (match r with
      | some x => stragWord x
      | none => 0)) s

/-- `cstrag.t` (R114). -/
def execCstragT (d : SReg) (m : CRef) (s : State) : Host.Outcome State Fault Refusal :=
  performSeq (inTurn (counterKey m) do
    let r ← stragRead m
    result d (match r with
      | some x => if x.valid then x.thr else 0
      | none => 0)) s

end Sys2Proof.Machine
end

