-- ==== Sys2Proof/Machine/Float.lean ====
section
/-!
DEFINITION. Binary32 and BF16 arithmetic (R43, R151-R153): exact values, one rounding, and the correctly rounded functions of R171.
-/
namespace Sys2Proof.Machine

/-- What 32 bits stand for: a finite value is plus or minus m times 2^e. -/
inductive FVal where
  | nan | inf (neg : Bool) | fin (neg : Bool) (m : Nat) (e : Int)
deriving DecidableEq, Repr

/-- The canonical quiet NaN (R152). -/
def qnan : Lane := 0x7FC00000
def infOf (neg : Bool) : Lane := if neg then 0xFF800000 else 0x7F800000
def zeroOf (neg : Bool) : Lane := if neg then 0x80000000 else 0
def maxFinite (neg : Bool) : Lane := if neg then 0xFF7FFFFF else 0x7F7FFFFF

def f32Val (x : Lane) : FVal :=
  let neg := x.msb
  let ex : Nat := x.toNat / 2 ^ 23 % 256
  let mt : Nat := x.toNat % 2 ^ 23
  if ex = 255 then (if mt = 0 then .inf neg else .nan) else if ex = 0 then .fin neg mt (-149) else .fin neg (mt + 2 ^ 23) ((ex : Int) - 150)

def isNan (x : Lane) : Bool := f32Val x == .nan

/-- What follows the kept bits, against half a unit: the remainder of m over 2^k, and whether more lies below. -/
def roundsUp (rm : RM) (neg : Bool) (odd : Bool) (r half : Nat) (more : Bool) : Bool := match rm with
  | .rne => r > half || (r == half && (more || odd))
  | .rtz => false
  | .rdn => neg && (r != 0 || more)
  | .rup => !neg && (r != 0 || more)

/-- Round the magnitude m times 2^e, or one strictly between it and (m + 1) times 2^e when `more` holds, to binary32 (R43). With `more`,
m has at least 26 bits or lies below the subnormal quantum. -/
def roundMag (rm : RM) (neg : Bool) (m : Nat) (e : Int) (more : Bool) : Lane :=
  if m = 0 ∧ more = false then zeroOf neg else
  let q : Int := max ((Nat.log2 m : Int) + e - 23) (-149)
  let k := (q - e).toNat
  let sig := if q ≤ e then m * 2 ^ (e - q).toNat else m / 2 ^ k
  let r := if q ≤ e then 0 else m % 2 ^ k
  let half := if q ≤ e then 1 else 2 ^ (k - 1)
  let up := roundsUp rm neg (sig % 2 == 1) r half more
  let bits := (q + 149).toNat * 2 ^ 23 + sig + if up then 1 else 0
  if bits ≥ 255 * 2 ^ 23 then
    (match rm with
     | .rne => infOf neg
     | .rtz => maxFinite neg
     | .rdn => if neg then infOf neg else maxFinite neg
     | .rup => if neg then maxFinite neg else infOf neg)
  else BitVec.ofNat 32 (bits + if neg then 2 ^ 31 else 0)

/-- Round the exact value n times 2^e; an exact zero has the sign given. -/
def roundInt (rm : RM) (n : Int) (e : Int) (zeroNeg : Bool) : Lane :=
  if n = 0 then zeroOf zeroNeg else roundMag rm (decide (n < 0)) n.natAbs e false

/-- Signed integer of a finite value at the exponent low. -/
def atExp (neg : Bool) (m : Nat) (e low : Int) : Int :=
  let v : Int := m * 2 ^ (e - low).toNat
  if neg then -v else v

/-- Sign of an exact zero sum of terms of signs s and t (R151). -/
def zeroSign (rm : RM) (s t : Bool) : Bool := if s = t then s else rm == .rdn

def addVal (rm : RM) : FVal → FVal → Lane
  | .nan, _ | _, .nan => qnan
  | .inf s, .inf t => if s = t then infOf s else qnan
  | .inf s, _ => infOf s
  | _, .inf t => infOf t
  | .fin s m e, .fin t n d =>
    let low := min e d
    roundInt rm (atExp s m e low + atExp t n d low) low (zeroSign rm s t)

/-- The exact product. -/
def mulVal : FVal → FVal → FVal
  | .nan, _ | _, .nan => .nan
  | .inf s, .inf t => .inf (s != t)
  | .inf s, .fin t n _ => if n = 0 then .nan else .inf (s != t)
  | .fin s m _, .inf t => if m = 0 then .nan else .inf (s != t)
  | .fin s m e, .fin t n d => .fin (s != t) (m * n) (e + d)

def roundVal (rm : RM) : FVal → Lane
  | .nan => qnan
  | .inf s => infOf s
  | .fin s m e => roundMag rm s m e false

def negF (x : Lane) : Lane := x ^^^ 0x80000000
def f32Add (rm : RM) (x y : Lane) : Lane := addVal rm (f32Val x) (f32Val y)
def f32Sub (rm : RM) (x y : Lane) : Lane := addVal rm (f32Val x) (f32Val (negF y))
def f32Mul (rm : RM) (x y : Lane) : Lane := roundVal rm (mulVal (f32Val x) (f32Val y))
/-- R170: one rounding. -/
def f32Fma (rm : RM) (x y z : Lane) : Lane := addVal rm (mulVal (f32Val x) (f32Val y)) (f32Val z)

/-- Order of values that are no NaN; `tie` puts -0 below +0. -/
def f32Key (tie : Bool) (x : Lane) : Int :=
  let m : Int := x.toNat % 2 ^ 31
  if x.msb then (if tie then -m - 1 else -m) else m

/-- R169. -/
def f32Max (x y : Lane) : Lane := if isNan x || isNan y then qnan else if f32Key true x ≥ f32Key true y then x else y
def f32Min (x y : Lane) : Lane := if isNan x || isNan y then qnan else if f32Key true x ≤ f32Key true y then x else y

/-! ## Conversions (R153, R174) -/

/-- Narrowing to BF16, to nearest with ties to even. -/
def toBf16 (x : Lane) : Nat :=
  if isNan x then 0x7FC0 else
  let u := x.toNat
  if u % 2 ^ 31 = 0x7F800000 then u / 65536 else (u + 0x7FFF + u / 65536 % 2) / 65536
def fromBf16 (h : Nat) : Lane := BitVec.ofNat 32 (h * 65536)

/-- A finite value rounded to an integer. -/
def toInteger (rm : RM) (neg : Bool) (m : Nat) (e : Int) : Int :=
  let mag : Nat := if 0 ≤ e then m * 2 ^ e.toNat else
    let k := (-e).toNat
    m / 2 ^ k + if roundsUp rm neg (m / 2 ^ k % 2 == 1) (m % 2 ^ k) (2 ^ (k - 1)) false then 1 else 0
  if neg then -(mag : Int) else mag

def clampInt (lo hi v : Int) : Int := if v < lo then lo else if v > hi then hi else v

/-- Rounded to an integer, then clamped; a NaN gives 0. -/
def f32ToInt (rm : RM) (lo hi : Int) (x : Lane) : Lane := match f32Val x with
  | .nan => 0
  | .inf neg => BitVec.ofInt 32 (if neg then lo else hi)
  | .fin neg m e => BitVec.ofInt 32 (clampInt lo hi (toInteger rm neg m e))
def intToF32 (rm : RM) (v : Int) : Lane := roundInt rm v 0 false

/-! ## The functions of R171 -/

/-- Greatest r with r times r at most n, below 2^k. -/
def rootBits (n : Nat) : Nat → Nat → Nat
  | 0, r => r
  | k + 1, r => rootBits n k (if (r + 2 ^ k) * (r + 2 ^ k) ≤ n then r + 2 ^ k else r)

/-- 1 / x: the quotient of 2^64 by m, 40 bits or more. -/
def f32Rcp (rm : RM) (x : Lane) : Lane := match f32Val x with
  | .nan => qnan
  | .inf neg => zeroOf neg
  | .fin neg m e => if m = 0 then infOf neg else roundMag rm neg (2 ^ 64 / m) (-64 - e) (2 ^ 64 % m != 0)

/-- 1 / sqrt x, with the exponent made even. -/
def f32Rsq (rm : RM) (x : Lane) : Lane := match f32Val x with
  | .nan => qnan
  | .inf neg => if neg then qnan else 0
  | .fin neg m e =>
    if m = 0 then infOf neg
    else if neg then qnan
    else
      let odd := e % 2 != 0
      let n := if odd then 2 * m else m
      let d := if odd then e - 1 else e
      let r := rootBits (2 ^ 128 / n) 65 0
      roundMag rm false r (-64 - d / 2) (r * r * n != 2 ^ 128)

/-- The natural logarithm of 2 times 2^256, rounded down. -/
def ln2Bits : Nat := 0xb17217f7d1cf79abc9e3b39803f2f6af40f343267298b62d8a0d175b8baafa2b

/-- The series of e^t, t over 2^256, rounded down term by term: term k over the sum so far. -/
def expSeries (t : Nat) : Nat → Nat → Nat → Nat → Nat
  | 0, _, _, sum => sum
  | fuel + 1, k, term, sum =>
    let next := term * t / 2 ^ 256 / k
    expSeries t fuel (k + 1) next (sum + next)

/-- 2^f times 2^256 for f = F / 2^256 below 1. -/
def exp2Frac (f : Nat) : Nat := expSeries (f * ln2Bits / 2 ^ 256) 64 1 (2 ^ 256) (2 ^ 256)

/-- 2^x: exact at integers; elsewhere irrational, so that more always lies below the bits computed. -/
def f32Exp2 (rm : RM) (x : Lane) : Lane := match f32Val x with
  | .nan => qnan
  | .inf neg => if neg then 0 else infOf false
  | .fin neg m e =>
    let v := atExp neg m e (-256)
    let n := v / 2 ^ 256
    let f := (v % 2 ^ 256).toNat
    if n ≥ 200 then roundMag rm false 1 200 false
    else if n < -200 then roundMag rm false 1 (-200) true
    else if f = 0 then roundMag rm false 1 n false
    else roundMag rm false (exp2Frac f) (n - 256) true

/-- The bits of log2 y for y over 2^256 in [1, 2), by squaring. -/
def log2Bits : Nat → Nat → Nat → Nat
  | 0, _, acc => acc
  | fuel + 1, y, acc =>
    let z := y * y / 2 ^ 256
    if z ≥ 2 ^ 257 then log2Bits fuel (z / 2) (2 * acc + 1) else log2Bits fuel z (2 * acc)

/-- log2 x: exact at powers of two; elsewhere irrational. -/
def f32Log2 (rm : RM) (x : Lane) : Lane := match f32Val x with
  | .nan => qnan
  | .inf neg => if neg then qnan else infOf false
  | .fin neg m e =>
    if m = 0 then infOf true
    else if neg then qnan
    else
      let l := Nat.log2 m
      let n : Int := l + e
      if m = 2 ^ l then roundInt rm n 0 false
      else
        let v := n * 2 ^ 128 + log2Bits 128 (m * 2 ^ 256 / 2 ^ l) 0
        if 0 ≤ v then roundMag rm false v.toNat (-128) true else roundMag rm true (-v - 1).toNat (-128) true

end Sys2Proof.Machine
end

