-- ==== Sys2Proof/Machine/Vectors.lean ====
section
/-!
DEFINITION. The vector instructions of class V (R165-R178).
-/
namespace Sys2Proof.Machine

/-! ## Lanes -/

def lanes1 (f : Lane → Lane) (a : VReg) : VReg := vecOf fun i => f a[i]
def lanes2 (f : Lane → Lane → Lane) (a b : VReg) : VReg := vecOf fun i => f a[i] b[i]
def lanes3 (f : Lane → Lane → Lane → Lane) (a b e : VReg) : VReg := vecOf fun i => f a[i] b[i] e[i]

/-- A lane as `.i` or `.n` reads it (R165). -/
def laneInt (k : LKind) (x : Lane) : Int := if k = .n then x.toNat else x.toInt
/-- An exact integer result, clamped with `.sat` to the kind's range (R169). -/
def laneOf (k : LKind) (sat : Bool) (t : Int) : Lane :=
  BitVec.ofInt 32 (if sat then (if k = .n then clampInt 0 (2 ^ 32 - 1) t else clampInt (-2 ^ 31) (2 ^ 31 - 1) t) else t)

/-- R169. -/
def laneAdd (k : LKind) (sat : Bool) (rm : RM) (x y : Lane) : Lane := if k = .f then f32Add rm x y else laneOf k sat (laneInt k x + laneInt k y)
def laneSub (k : LKind) (sat : Bool) (rm : RM) (x y : Lane) : Lane := if k = .f then f32Sub rm x y else laneOf k sat (laneInt k x - laneInt k y)
def laneMul (k : LKind) (sat : Bool) (rm : RM) (x y : Lane) : Lane := if k = .f then f32Mul rm x y else laneOf k sat (laneInt k x * laneInt k y)
def laneFma (k : LKind) (rm : RM) (x y z : Lane) : Lane := if k = .f then f32Fma rm x y z else laneOf k false (laneInt k x * laneInt k y + laneInt k z)
def laneMax (k : LKind) (x y : Lane) : Lane := if k = .f then f32Max x y else if laneInt k x > laneInt k y then x else y
def laneMin (k : LKind) (x y : Lane) : Lane := if k = .f then f32Min x y else if laneInt k x < laneInt k y then x else y

/-- R171. -/
def laneAbs (int sat : Bool) (x : Lane) : Lane := if int then laneOf .i sat x.toInt.natAbs else x &&& 0x7FFFFFFF
def laneNeg (int sat : Bool) (x : Lane) : Lane := if int then laneOf .i sat (-x.toInt) else negF x

/-- R172: equal, less, and unordered. -/
def laneCmp (k : LKind) (cc : VCond) (x y : Lane) : Bool :=
  let nan := k == .f && (isNan x || isNan y)
  let u := if k = .f then f32Key false x else laneInt k x
  let w := if k = .f then f32Key false y else laneInt k y
  match cc with
  | .eq => !nan && u == w
  | .ne => nan || u != w
  | .lt => !nan && u < w
  | .ge => !nan && u ≥ w
  | .gt => !nan && u > w
  | .le => !nan && u ≤ w
  | .un => nan

/-- R173. -/
def laneShl (x n : Lane) : Lane := if n.toNat ≥ 32 then 0 else BitVec.ofNat 32 (x.toNat * 2 ^ n.toNat)
def laneShr (x n : Lane) : Lane := if n.toNat ≥ 32 then 0 else BitVec.ofNat 32 (x.toNat / 2 ^ n.toNat)
def laneShrS (x n : Lane) : Lane := BitVec.ofInt 32 (x.toInt / 2 ^ min n.toNat 31)

/-- R174. -/
def laneCvt (k : CvtKind) (rm : RM) (x : Lane) : Lane := match k with
  | .fi => f32ToInt rm (-2 ^ 31) (2 ^ 31 - 1) x
  | .fn => f32ToInt rm 0 (2 ^ 32 - 1) x
  | .sif => intToF32 rm x.toInt
  | .nf => intToF32 rm x.toNat

/-- Element j of a register of 32 elements of 16 bits (R175). -/
def halfOf (a : VReg) (j : Nat) : Nat := a[Fin.ofNat 16 (j / 2)].toNat / 2 ^ (16 * (j % 2)) % 65536
/-- Thirty-two elements as a register. -/
def fromHalves (f : Nat → Nat) : VReg := vecOf fun i : Fin 16 => BitVec.ofNat 32 (f (2 * i.val) % 65536 + 65536 * (f (2 * i.val + 1) % 65536))
/-- Lane j of a, or j - 16 of b. -/
def lanePair (a b : VReg) (j : Nat) : Lane := if j < 16 then a[Fin.ofNat 16 j] else b[Fin.ofNat 16 (j - 16)]
def sat16 (x : Lane) : Nat := (BitVec.ofInt 16 (clampInt (-32768) 32767 x.toInt)).toNat

/-- R175. -/
def packLanes (k : PackKind) (a b : VReg) : VReg := match k with
  | .bf => fromHalves fun j => toBf16 (lanePair a b j)
  | .bfl => vecOf fun i : Fin 16 => fromBf16 (halfOf a i.val)
  | .bfh => vecOf fun i : Fin 16 => fromBf16 (halfOf a (16 + i.val))
  | .h => fromHalves fun j => sat16 (lanePair a b j)
  | .hl => vecOf fun i : Fin 16 => BitVec.ofInt 32 (sextNat 16 (halfOf a i.val))
  | .hh => vecOf fun i : Fin 16 => BitVec.ofInt 32 (sextNat 16 (halfOf a (16 + i.val)))

/-- The operations of reductions and scans (R177). -/
def redApply (op : RedOp) (rm : RM) (x y : Lane) : Lane := match op with
  | .fadd => f32Add rm x y
  | .fmax => f32Max x y
  | .fmin => f32Min x y
  | .iadd => x + y
  | .imax => laneMax .i x y
  | .imin => laneMin .i x y
  | .nmax => laneMax .n x y
  | .nmin => laneMin .n x y

/-- One level of the tree: t_i with t_(i + h), h the half of the length. -/
def foldHalf (op : Lane → Lane → Lane) (l : List Lane) : List Lane :=
  let h := l.length / 2
  List.zipWith op (l.take h) (l.drop h)
/-- The fixed tree of R177. -/
def treeOf (op : Lane → Lane → Lane) (a : VReg) : Lane :=
  (foldHalf op (foldHalf op (foldHalf op (foldHalf op a.toList)))).headD 0

def signedRed : RedOp → Bool
  | .iadd | .imax | .imin => true
  | _ => false
def extendLane (signed : Bool) (x : Lane) : Word := if signed then x.signExtend 64 else x.zeroExtend 64

/-- The inclusive prefix of R178. -/
def scanList (op : Lane → Lane → Lane) (s : Lane) : List Lane → List Lane
  | [] => []
  | x :: r => op s x :: scanList op (op s x) r
def scanLanes (op : Lane → Lane → Lane) (a : VReg) : VReg :=
  let l := a.toList
  let out := l.headD 0 :: scanList op (l.headD 0) l.tail
  vecOf fun i : Fin 16 => nth out i.val 0

/-! ## Shapes of operands -/

def vec1 (f : Lane → Lane) (d a : Fin 16) : M Unit := do
  let x ← rdV a
  resultV d (lanes1 f x)

def vec2 (f : Lane → Lane → Lane) (d a : Fin 16) (b : VSrc) : M Unit := do
  let x ← rdV a
  let y ← rdVSrc b
  resultV d (lanes2 f x y)

/-! ## Meanings -/

/-- `vadd` (R169). -/
def execVadd (k : LKind) (sat : Bool) (rm : RM) (d a : Fin 16) (b : VSrc) (s : State) : Host.Outcome State Fault Refusal :=
  performSeq (vec2 (laneAdd k sat rm) d a b) s
/-- `vsub` (R169). -/
def execVsub (k : LKind) (sat : Bool) (rm : RM) (d a : Fin 16) (b : VSrc) (s : State) : Host.Outcome State Fault Refusal :=
  performSeq (vec2 (laneSub k sat rm) d a b) s
/-- `vmul` (R169). -/
def execVmul (k : LKind) (sat : Bool) (rm : RM) (d a : Fin 16) (b : VSrc) (s : State) : Host.Outcome State Fault Refusal :=
  performSeq (vec2 (laneMul k sat rm) d a b) s
/-- `vfma` (R170). -/
def execVfma (k : LKind) (rm : RM) (d a : Fin 16) (b : VSrc) (c : VSrcC) (s : State) : Host.Outcome State Fault Refusal :=
  performSeq (do
    let x ← rdV a
    let y ← rdVSrc b
    let z ← rdVSrcC c
    resultV d (lanes3 (laneFma k rm) x y z)) s
/-- `vmax` (R169). -/
def execVmax (k : LKind) (d a : Fin 16) (b : VSrc) (s : State) : Host.Outcome State Fault Refusal := performSeq (vec2 (laneMax k) d a b) s
/-- `vmin` (R169). -/
def execVmin (k : LKind) (d a : Fin 16) (b : VSrc) (s : State) : Host.Outcome State Fault Refusal := performSeq (vec2 (laneMin k) d a b) s
/-- `vabs` (R171). -/
def execVabs (int sat : Bool) (d a : Fin 16) (s : State) : Host.Outcome State Fault Refusal := performSeq (vec1 (laneAbs int sat) d a) s
/-- `vneg` (R171). -/
def execVneg (int sat : Bool) (d a : Fin 16) (s : State) : Host.Outcome State Fault Refusal := performSeq (vec1 (laneNeg int sat) d a) s
/-- `vrcp` (R171). -/
def execVrcp (rm : RM) (d a : Fin 16) (s : State) : Host.Outcome State Fault Refusal := performSeq (vec1 (f32Rcp rm) d a) s
/-- `vrsq` (R171). -/
def execVrsq (rm : RM) (d a : Fin 16) (s : State) : Host.Outcome State Fault Refusal := performSeq (vec1 (f32Rsq rm) d a) s
/-- `vexp2` (R171). -/
def execVexp2 (rm : RM) (d a : Fin 16) (s : State) : Host.Outcome State Fault Refusal := performSeq (vec1 (f32Exp2 rm) d a) s
/-- `vlog2` (R171). -/
def execVlog2 (rm : RM) (d a : Fin 16) (s : State) : Host.Outcome State Fault Refusal := performSeq (vec1 (f32Log2 rm) d a) s

/-- The bits in which a condition holds (R172). -/
def cmpMask (k : LKind) (cc : VCond) (x y : VReg) : Word :=
  w64 ((List.finRange 16).foldl (fun a i => a + if laneCmp k cc x[i] y[i] then 2 ^ i.val else 0) 0)
/-- `vcmp` (R172). -/
def execVcmp (k : LKind) (cc : VCond) (d : SReg) (a : Fin 16) (b : VSrc) (s : State) : Host.Outcome State Fault Refusal :=
  performSeq (do
    let x ← rdV a
    let y ← rdVSrc b
    result d (cmpMask k cc x y)) s
/-- `vsel` (R173). -/
def execVsel (d a : Fin 16) (b : VSrc) (c : SReg) (s : State) : Host.Outcome State Fault Refusal :=
  performSeq (do
    let x ← rdV a
    let y ← rdVSrc b
    let z ← rd c
    resultV d (vecOf fun i : Fin 16 => if z.getLsbD i.val then x[i] else y[i])) s
/-- `vand` (R173). -/
def execVand (d a : Fin 16) (b : VSrc) (s : State) : Host.Outcome State Fault Refusal := performSeq (vec2 (· &&& ·) d a b) s
/-- `vor` (R173). -/
def execVor (d a : Fin 16) (b : VSrc) (s : State) : Host.Outcome State Fault Refusal := performSeq (vec2 (· ||| ·) d a b) s
/-- `vxor` (R173). -/
def execVxor (d a : Fin 16) (b : VSrc) (s : State) : Host.Outcome State Fault Refusal := performSeq (vec2 (· ^^^ ·) d a b) s
/-- `vshl` (R173). -/
def execVshl (d a : Fin 16) (b : VSrc) (s : State) : Host.Outcome State Fault Refusal := performSeq (vec2 laneShl d a b) s
/-- `vshr` (R173). -/
def execVshr (d a : Fin 16) (b : VSrc) (s : State) : Host.Outcome State Fault Refusal := performSeq (vec2 laneShr d a b) s
/-- `vshr.s` (R173). -/
def execVshrS (d a : Fin 16) (b : VSrc) (s : State) : Host.Outcome State Fault Refusal := performSeq (vec2 laneShrS d a b) s
/-- `vcvt` (R174). -/
def execVcvt (k : CvtKind) (rm : RM) (d a : Fin 16) (s : State) : Host.Outcome State Fault Refusal := performSeq (vec1 (laneCvt k rm) d a) s
/-- `vbcast` (R176). -/
def execVbcast (d : Fin 16) (b : SrcB) (s : State) : Host.Outcome State Fault Refusal :=
  performSeq (do
    let x ← rdB b
    resultV d (splat (x.setWidth 32))) s
/-- `vbcast.l` (R176). -/
def execVbcastL (k d a : Fin 16) (s : State) : Host.Outcome State Fault Refusal :=
  performSeq (do
    let x ← rdV a
    resultV d (splat x[k])) s
/-- `vperm` (R176). -/
def execVperm (d a b : Fin 16) (s : State) : Host.Outcome State Fault Refusal :=
  performSeq (do
    let x ← rdV a
    let y ← rdV b
    resultV d (vecOf fun i : Fin 16 => x[Fin.ofNat 16 y[i].toNat])) s
/-- `vperm.2` (R176). -/
def execVperm2 (d a b c : Fin 16) (s : State) : Host.Outcome State Fault Refusal :=
  performSeq (do
    let x ← rdV a
    let y ← rdV b
    let z ← rdV c
    resultV d (vecOf fun i : Fin 16 => lanePair x z (y[i].toNat % 32))) s
/-- `vred` (R177). -/
def execVred (op : RedOp) (rm : RM) (d : SReg) (a : Fin 16) (s : State) : Host.Outcome State Fault Refusal :=
  performSeq (do
    let x ← rdV a
    result d (extendLane (signedRed op) (treeOf (redApply op rm) x))) s
/-- `vdot` (R177). -/
def execVdot (rm : RM) (d : SReg) (a : Fin 16) (b : VSrc) (s : State) : Host.Outcome State Fault Refusal :=
  performSeq (do
    let x ← rdV a
    let y ← rdVSrc b
    result d (extendLane false (treeOf (f32Add rm) (lanes2 (f32Mul rm) x y)))) s

/-- `v0` to `v11` as a register number. -/
def lowV (d : Fin 12) : Fin 16 := ⟨d.val, by omega⟩
/-- `vins` (R176). -/
def execVins (k : Fin 16) (d : Fin 12) (b : SrcB) (s : State) : Host.Outcome State Fault Refusal :=
  performSeq (do
    let x ← rdB b
    let old ← rdV (lowV d)
    resultV (lowV d) (old.set k (x.setWidth 32))) s
/-- `vext` (R176). -/
def execVext (sx : Bool) (k : Fin 16) (d : SReg) (a : Fin 16) (s : State) : Host.Outcome State Fault Refusal :=
  performSeq (do
    let x ← rdV a
    result d (extendLane sx x[k])) s
/-- `vscan` (R178). -/
def execVscan (op : RedOp) (rm : RM) (d a : Fin 16) (s : State) : Host.Outcome State Fault Refusal :=
  performSeq (do
    let x ← rdV a
    resultV d (scanLanes (redApply op rm) x)) s
/-- `vmov` (R176). -/
def execVmov (d a : Fin 16) (s : State) : Host.Outcome State Fault Refusal := performSeq (vec1 id d a) s
/-- `vpack` (R175); b is read by the forms that have it. -/
def execVpack (k : PackKind) (d a b : Fin 16) (s : State) : Host.Outcome State Fault Refusal :=
  performSeq (do
    let x ← rdV a
    let y ← if k = .bf ∨ k = .h then rdV b else pure zeroV
    resultV d (packLanes k x y)) s

end Sys2Proof.Machine
end

