-- ==== Sys2Proof/Machine/Atomics.lean ====
section
/-!
DEFINITION. Gathers, scatters and vector atomics (R179-R183), lane by lane with their progress (R139).
-/
namespace Sys2Proof.Machine

/-- The progress field of an instruction that issues now (R139). -/
def progressOf (f : Fib) : Nat := if f.tcause = 0 then f.step.toNat else f.hstep.toNat
def setProgress (f : Fib) (n : Nat) : Fib := if f.tcause = 0 then { f with step := BitVec.ofNat 8 n } else { f with hstep := BitVec.ofNat 8 n }

/-- Lane i of an element-wise instruction: a stop keeps what lower lanes did, with the progress at i; the pops are undone (R91, R180). -/
def keepingProgress (f0 : Fib) (i : Nat) (act : M Unit) : M Unit := fun s =>
  let kept := fun t : State => { t with fib := { setProgress s.fib i with streams := f0.streams } }
  match act s with
  | .ok r => .ok r
  | .error (.trap c a u k) => .error (.trap c a u (some (kept (k.getD s))))
  | .error (.leave l k) => .error (.leave l (some (kept (k.getD s))))

/-- The active lanes from the progress on, in ascending order (R180). -/
def eachLane (f0 : Fib) (base : Word) (idx : VReg) (sc : Fin 3) (act : Fin 16 → Word → M Unit) : List (Fin 16) → M Unit
  | [] => modFib fun f => setProgress f 0
  | i :: rest => do
    if idx[i] = 0xFFFFFFFF then pure ()
    else keepingProgress f0 i.val (act i (base + w64 (idx[i].toNat * 2 ^ sc.val)))
    eachLane f0 base idx sc act rest

def lanesFrom (n : Nat) : List (Fin 16) := (List.finRange 16).filter fun i => n ≤ i.val
/-- Every lane of the instruction is active: it writes the destination whole, also where it was resumed (R144). -/
def wholeLanes (idx : VReg) : Bool := idx.toList.all (· != 0xFFFFFFFF)
def clearVPoison (whole : Bool) (d : Fin 16) : M Unit :=
  if whole then modFib fun f => cleanReg f (0x20 + d.val) else pure ()

def setLane (d : Fin 12) (i : Fin 16) (x : Lane) : M Unit := modFib fun f => { f with v := f.v.set (lowV d) (f.v[lowV d].set i x) }

/-- `vgath` (R181). -/
def execVgath (sc : Fin 3) (d : Fin 12) (m : CRef) (b : Fin 16) (s : State) : Host.Outcome State Fault Refusal :=
  performSeq (do
    let base ← rdRef m
    let idx ← rdV b
    eachLane s.fib base idx sc (fun i o => do
      let x ← loadSeg m.sg o 4 4 false
      setLane d i (BitVec.ofNat 32 (natOf x))) (lanesFrom (progressOf s.fib))
    clearVPoison (wholeLanes idx) (lowV d)) s

/-- `vscat` (R182). -/
def execVscat (sc : Fin 3) (m : CRef) (b c : Fin 16) (s : State) : Host.Outcome State Fault Refusal :=
  performSeq (do
    let base ← rdRef m
    let idx ← rdV b
    let x ← rdV c
    eachLane s.fib base idx sc (fun i o => storeSeg m.sg o 4 (bytesOf 4 x[i].toNat)) (lanesFrom (progressOf s.fib))) s

/-- R183. -/
def atomApply (op : AtomOp) (old x : Lane) : Lane := match op with
  | .addi => old + x
  | .addf => f32Add .rne old x
  | .maxi => laneMax .i old x
  | .mini => laneMin .i old x
  | .maxn => laneMax .n old x
  | .minn => laneMin .n old x
  | .swap => x

/-- A lane on a counter word re-tests its waiters and makes no completion (R183). -/
def retestQuiet (s : State) (a : Nat) : State :=
  let v := readWord s a
  let hit := fun (e : Enrol) => e.loc == a && !e.poll && !isGetter e.who && reached v e.thr
  (s.enrol.filter hit).foldl (fun t e => wakeOne t e (some v)) { s with enrol := s.enrol.filter fun e => !hit e }

/-- The 4 bytes at a location of any space, as the serialiser holds them; beyond the module a lane is a read and then a store. DESIGN CHOICE
(log 107). -/
def atomRead (a : Nat) : M Lane := do
  let s ← get
  if isFar a then
    let b ← farLoad a 4
    pure (BitVec.ofNat 32 (natOf b))
  else if isSw a then
    let r := swLoad s (a - Config.swBase) 4 true
    set r.2
    pure (BitVec.ofNat 32 (natOf r.1))
  else pure (BitVec.ofNat 32 (readNat s a 4))

def atomWrite (a : Nat) (x : Lane) : M Unit := changeOrWait fun s =>
  if isSpad a then some (retestQuiet (writeBytes s a (bytesOf 4 x.toNat)) (wordOf a)) else landStore s a (bytesOf 4 x.toNat) (selfAdder s) false

/-- One lane of `vratom` at location a: the old value. -/
def atomLane (op : AtomOp) (a : Nat) (o : Word) (x : Lane) : M Lane := do
  let s ← get
  if isDpa a && !backed s a then failUnbacked o
  else
    needLink a o
    drainBytes a 4
    if isSpad a then change fun t => correctRead t a 4 else needPath a
    if ← isToxicM a then failPoisoned s.fib (wordOf a) o
    else
      let old ← atomRead a
      atomWrite a (atomApply op old x)
      change fun t => dropLines t t.focus.1 a 4
      pure old

/-- `vratom` (R183). -/
def execVratom (op : AtomOp) (sc : Fin 3) (d : Option (Fin 12)) (m : CRef) (b : Fin 16) (c : VSrcC) (s : State) : Host.Outcome State Fault Refusal :=
  performSeq (do
    let base ← rdRef m
    let idx ← rdV b
    let x ← rdVSrcC c
    eachLane s.fib base idx sc (fun i o => do
      match ← resolve m.sg o 4 4 (rightRd + rightWr) accUpdate with
      | [(a, _)] =>
        let old ← atomLane op a o x[i]
        match d with
        | some k => setLane k i old
        | none => pure ()
      | _ => pure ()) (lanesFrom (progressOf s.fib))
    match d with
    | some k => clearVPoison (wholeLanes idx) (lowV k)
    | none => pure ()) s

end Sys2Proof.Machine
end

