-- ==== Sys2Proof/Machine/Engine.lean ====
section
/-!
DEFINITION. Placing an engine command (R200-R211): the chain header, the record and its checks, the wait for room, the ring entry.
-/
namespace Sys2Proof.Machine

/-! ## Records (R203) -/

/-- A record of an engine instruction as the program supplies it. -/
structure EngRec where
  flags : Nat
  cls   : Nat
  len   : Nat
  src   : Nat
  sx    : Nat
  dst   : Nat
  dx    : Nat
  pat   : Nat
  ctr   : Nat
  inc   : Nat
deriving DecidableEq, Repr

def engRecOf (b : List Byte) : EngRec :=
  ⟨recNat b 1 1, recNat b 2 1, recNat b 4 4, recNat b 8 8, recNat b 0x10 8, recNat b 0x18 8, recNat b 0x20 8, recNat b 0x28 8, recNat b 0x30 4,
    recNat b 0x34 4⟩

def EngRec.shd (r : EngRec) : Bool := r.flags % 2 == 1
def EngRec.norcv (r : EngRec) : Bool := r.flags / 2 % 2 == 1
def EngRec.sseg (r : EngRec) : Fin 8 := Fin.ofNat 8 (r.flags / 4)
def EngRec.dseg (r : EngRec) : Fin 8 := Fin.ofNat 8 (r.flags / 32)

/-- Kinds that name a source segment, and kinds that name a destination segment (R211). -/
def usesSrc (kind : Nat) : Bool := kind != 9 && kind != 12
def usesDst (kind : Nat) : Bool := !(kind == 8 || kind == 10 || kind == 11)

/-- CTR keeps R203. -/
def ctrOk (s : State) (c : Nat) : Bool :=
  let g := s.focus.1 / 192 * 192 + c / Config.spadBytes
  c % 8 == 0 && c < Config.clusterBytes && present s g && !guarded s (clusterLoc (clusterOf s.focus.1) c)

/-- LEN lies in the range of its unit (R211). -/
def lenOk (kind len : Nat) : Bool :=
  if kind = 12 then len == 0
  else if kind = 11 then len == 128
  else len != 0 && (if kind = 5 then len % 4 == 0 else if kind = 8 then len % 65536 == 0 else if kind = 9 ∨ kind = 10 then len % 4096 == 0 else true)

/-- A deal's pattern: block bytes, first core, count, stride (R214). -/
def dealOf (pat : Nat) : Nat × Nat × Nat × Nat := (64 * (pat % 65536), pat / 2 ^ 16 % 256, pat / 2 ^ 24 % 256, pat / 2 ^ 32 % 256)

def dealOk (r : EngRec) : Bool :=
  let (b, f, c, st) := dealOf r.pat
  r.pat < 2 ^ 40 && 64 ≤ b && b ≤ 64 * 2048 && 1 ≤ c && c ≤ 192 && 1 ≤ st && st ≤ 191 && f + (c - 1) * st ≤ 191
    && r.dst % 2 ^ 17 + b * ceilDiv (ceilDiv r.len b) c ≤ Config.spadBytes

/-- The packed destination of a multicast or a deal: offset in bits 16:0, receiver counter in bits 48:32. -/
def runDstOk (r : EngRec) : Bool :=
  r.dst / 2 ^ 17 % 2 ^ 15 == 0 && r.dst < 2 ^ 49 && r.dst / 2 ^ 32 % 8 == 0 && (!r.norcv || r.dst / 2 ^ 32 == 0)

def rowOk (r : EngRec) : Bool := r.sx % 4 == 0 && 4 ≤ r.sx && r.sx ≤ 65536
def listOk (r : EngRec) : Bool := r.pat < 2 ^ 24 && r.dx < 2 ^ 24 && r.dx % 8 == 0 && (!r.norcv || r.dx == 0)

/-- The kind's own fields, by the kind's row of R211; a field that the kind does not use is zero. -/
def fieldsOk (s : State) (kind : Nat) (r : EngRec) : Bool :=
  let sc := s.fib.seg[r.sseg].cls.toNat
  let dc := s.fib.seg[r.dseg].cls.toNat
  match kind with
  | 1 => r.sx == 0 && r.dx == 0 && r.pat == 0
  | 2 => sc != 3 && dc == 1 && runDstOk r && r.dst % 2 ^ 17 + r.len ≤ Config.spadBytes
  | 3 => dc == 1 && r.sx == 0 && r.dx == 0 && runDstOk r && dealOk r
  | 4 => r.sx == 0 && r.dx == 0 && r.pat < 2 ^ 36
  | 5 => r.sx == 0 && r.dx == 0 && r.pat % 2 ^ 24 ≤ 1 && r.pat < 2 ^ 48 && (!r.shd || r.pat < 2 ^ 24)
  | 6 => sc == 1 && dc ≤ 1 && rowOk r && listOk r
  | 7 => dc == 1 && sc ≤ 1 && rowOk r && listOk r
  | 8 => sc == 2 && r.sx == 0 && r.dst == 0 && r.dx == 0 && r.pat ≤ 3
  | 9 => dc ≥ 2 && r.sx < 256 && r.dx == 0 && r.pat == 0
  | 10 => sc ≥ 2 && r.dx < 256 && r.sx == 0 && r.pat == 0
  | 11 => r.sx == 0 && r.dst == 0 && r.dx == 0 && r.pat < 16
  | _ => dc == 3 && r.src == 0 && r.sx == 0 && r.dst == 0 && r.dx == 0 && r.pat == 0

/-- The record keeps R203 and the row of its kind. -/
def engRecOk (s : State) (kind : Nat) (r : EngRec) : Bool :=
  r.cls == 0 && (usesSrc kind || r.sseg == 0) && (usesDst kind || r.dseg == 0)
    && (!r.shd || ((kind == 1 || kind == 4 || kind == 5) && s.fib.seg[r.dseg].cls == 3))
    && (!r.norcv || kind == 2 || kind == 3 || kind == 6 || kind == 7)
    && ctrOk s r.ctr && lenOk kind r.len && fieldsOk s kind r

/-! ## Ranges (R211) -/

/-- One range to be checked: segment, offset, bytes, alignment, rights. -/
structure EngRange where
  seg   : Seg
  off   : Word
  len   : Nat
  align : Nat
  need  : Nat

/-- Receivers of a multicast or deal of cluster-core numbers 0 to 191, with the bytes each takes. -/
def receiversOf (kind : Nat) (r : EngRec) : List (Nat × Nat) :=
  if kind = 2 then ((List.range 192).filter fun k => (r.sx + r.dx * 2 ^ 64 + r.pat * 2 ^ 128) / 2 ^ k % 2 == 1).map fun k => (k, r.len)
  else
    let (b, f, c, st) := dealOf r.pat
    let nb := ceilDiv r.len b
    (List.range (min c nb)).map fun j =>
      let mine := (nb - 1 - j) / c + 1
      let last := j + (mine - 1) * c
      (f + j * st, (mine - 1) * b + if last = nb - 1 then r.len - last * b else b)

/-- Offset in a cluster segment of cluster-space address a. -/
def offsetOf (g : Seg) (a : Nat) : Word := w64 a - g.base

def engRanges (s : State) (kind : Nat) (r : EngRec) (hdr : Seg) : List EngRange :=
  let sg := s.fib.seg[r.sseg]
  let dg := s.fib.seg[r.dseg]
  let base := s.focus.1 / 192 * 192
  let src := fun n al need => EngRange.mk sg (w64 r.src) n al need
  let dst := fun n al => EngRange.mk dg (w64 r.dst) n al rightWr
  let list := [EngRange.mk hdr (w64 r.pat) (4 * r.len) 4 rightRd]
    ++ if r.norcv then [] else [EngRange.mk hdr (w64 r.dx) 1536 8 rightWr]
  match kind with
  | 1 => [src r.len 1 rightRd, dst r.len 1]
  | 2 | 3 => src r.len 1 rightRd :: ((receiversOf kind r).filter fun k => present s (base + k.1)).map fun k =>
      EngRange.mk dg (offsetOf dg (131072 * k.1 + r.dst % 2 ^ 17)) k.2 1 rightWr
  | 4 => [src (r.pat % 2 ^ 32) 1 rightRd, dst r.len 1]
  | 5 => [src r.len 4 rightRd, dst r.len 4] ++ if r.shd then [] else [EngRange.mk hdr (w64 (r.pat / 2 ^ 24)) r.len 64 (rightRd + rightWr)]
  | 6 => [src 0 4 rightRd, dst (r.len * r.sx) 4] ++ list
  | 7 => [src (r.len * r.sx) 4 rightRd, dst 0 4] ++ list
  | 8 => [src r.len 65536 (rightRd + rightWr)]
  | 9 => [dst r.len 4096]
  | 10 => [src r.len 4096 rightRd]
  | 11 => [src 128 1 rightRd]
  | _ => [dst 0 1]

/-- A receiver counter of a multicast or a deal lies in a guarded granule or pipe area, which user mode reaches by no means (R253, R332). -/
def guardedReceiver (s : State) (kind : Nat) (r : EngRec) : Bool :=
  (kind == 2 || kind == 3) && !r.norcv && !s.fib.steward
    && (receiversOf kind r).any fun k => guardedIn s (spadLoc (s.focus.1 / 192 * 192 + k.1) (r.dst / 2 ^ 32 % 2 ^ 17)) 8

/-- The first failure among the ranges: R79, and the checks of an aperture that is not translated (R363, R369). -/
def rangeFault (s : State) (e : EngRange) : Option (Nat × Word) :=
  match segFault s e.seg e.off e.len e.align e.need with
  | some f => some f
  | none =>
    let va := classAddr e.seg e.off
    let user := !s.fib.steward
    if e.seg.cls ≠ 2 ∨ e.len = 0 then none
    else if Config.hostVa ≤ va ∧ va < Config.hostVa + 2 ^ 44 then
      if (hostAperture s va e.len (e.need % 4) user s.fib.tenant).isNone then some (6, e.off) else none
    else if Config.peerVa ≤ va ∧ va < Config.peerVa + 2 ^ 42 then
      if (peerAperture s va user s.fib.tenant).isNone then some (6, e.off) else none
    else none

/-! ## The header (R201) -/

/-- A chain header: location, ring location, entries, and its segment. -/
structure Chain where
  loc  : Nat
  ring : Nat
  log  : Nat
  eng  : Nat
  tail : Word
  seq  : Word
deriving DecidableEq, Repr

/-- The header keeps R201, and user mode's ring lies in no guarded granule or pipe area (R2, R253, R332). Its reserved bytes are ignored (R7,
log 78). -/
def headerOk (s : State) (b : List Byte) : Bool :=
  let ring := recNat b 0x10 4
  let lg := recNat b 0x14 1
  let lo := s.focus.1 % 192 * Config.spadBytes
  ring < 2 ^ 25 && ring % 64 == 0 && 1 ≤ lg && lg ≤ 7 && recNat b 0x15 1 ≤ 9 && lo ≤ ring
    && ring + 64 * 2 ^ lg ≤ lo + Config.spadBytes
    && (s.fib.steward || !guardedIn s (clusterLoc (clusterOf s.focus.1) ring) (64 * 2 ^ lg))

/-- The engine serves the kind (R209). -/
def serves (eng kind : Nat) : Bool :=
  kind == 12 || (if eng < 8 then kind ≤ 5 || kind == 11 else if eng = 8 then kind == 6 || kind == 7 else 8 ≤ kind && kind ≤ 10)

/-- Check and read the header at offset h of segment sg (R210). -/
def readHeader (sg : Fin 8) (h : Word) : M Chain := do
  let l ← resolve sg h 64 64 (rightRd + rightWr + rightCtr) accStore
  let s ← get
  match l with
  | [(a, _)] =>
    if isSpad a = false ∨ homeOf a ≠ s.focus.1 then fail 6 h
    else
      let raw := coreBytes s s.focus.1 false a 64
      match raw.findIdx? (·.2) with
      | some j => fail 0x10 (h + w64 j)
      | none =>
        change fun t => correctRead t a 64
        let b := raw.map (·.1)
        if headerOk s b = false then fail 6 h
        else pure { loc := a, ring := clusterLoc (clusterOf s.focus.1) (recNat b 0x10 4), log := recNat b 0x14 1, eng := recNat b 0x15 1
                    tail := w64 (recNat b 0 8), seq := w64 (recNat b 8 8) }
  | _ => fail 6 h

/-! ## Placement (R202, R210) -/

def inFlight (s : State) (g : Nat) : Nat := (s.cmds.filter fun d => d.g == g).length

/-- The record as the instruction writes it, but for STATUS: KIND, CLS, SCOPE, class addresses or handle and offset. -/
def fillRecord (s : State) (kind sc : Nat) (r : EngRec) (t : Word) : List Byte :=
  let sg := s.fib.seg[r.sseg]
  let dg := s.fib.seg[r.dseg]
  let sc3 := usesSrc kind && sg.cls == 3
  let dc3 := usesDst kind && dg.cls == 3
  let src := if !usesSrc kind then r.src else if sc3 then sg.base.toNat else classAddr sg (w64 r.src)
  let dst := if !usesDst kind || kind == 2 || kind == 3 then r.dst else if dc3 then dg.base.toNat else classAddr dg (w64 r.dst)
  let cls := (if usesSrc kind then sg.cls.toNat else 0) + 4 * (if usesDst kind then dg.cls.toNat else 0)
  bytesOf 1 kind ++ bytesOf 1 r.flags ++ bytesOf 1 cls ++ bytesOf 1 sc ++ bytesOf 4 r.len ++ bytesOf 8 src ++ bytesOf 8 (if sc3 then r.src else r.sx)
    ++ bytesOf 8 dst ++ bytesOf 8 (if dc3 then r.dst else r.dx) ++ bytesOf 8 r.pat ++ bytesOf 4 r.ctr ++ bytesOf 4 r.inc
    ++ bytesOf 8 (t.toNat % 2 ^ 23 * 2 ^ 32)

/-- The command that the engine takes over. -/
def newCommand (s : State) (kind : Nat) (r : EngRec) (c : Chain) (hdr : Seg) (b : List Byte) : Cmd :=
  let tab := if kind = 7 then s.fib.seg[r.dseg] else s.fib.seg[r.sseg]
  let k := (fibreInfo s s.focus.1 (fibIndex s.fib)).bind (·.kern)
  { id := s.nextCmd, g := s.focus.1, f := fibIndex s.fib, tenant := s.fib.tenant, steward := s.fib.steward, header := c.loc
    ring := c.ring + 64 * (c.tail.toNat % 2 ^ c.log), ticket := c.tail.toNat % 2 ^ 23, kern := k
    life := match k.bind (kernOf s) with
      | some x => x.admitted
      | none => 0
    eng := c.eng, bytes := b, seglo := tab.base.toNat
    seghi := tab.base.toNat + tab.limit.toNat, hdrseg := nearLoc s.focus.1 hdr (classAddr hdr 0) }

/-- The kernel of a command, while it is the one that issued it. -/
def cmdKern (s : State) (d : Cmd) : Option Kern := (d.kern.bind (kernOf s)).filter fun x => x.admitted == d.life

/-- A command of a kernel is placed; a command is retired (R336). -/
def countSent (s : State) (d : Cmd) : State := match cmdKern s d with
  | some x => setKern s { x with sent := x.sent + 1 }
  | none => s
def countRcvd (s : State) (d : Cmd) : State := match cmdKern s d with
  | some x => setKern s { x with rcvd := x.rcvd + 1 }
  | none => s

/-- The ring entry, which no earlier store of the core follows, the command, the TAIL add. -/
def placeCommand (d : Cmd) (who : Adder) (s : State) : State :=
  let s1 := drainBlocks (storeIn s d.g d.ring d.bytes who false) d.g [d.ring / 64 * 64]
  addAt (countSent { s1 with cmds := s1.cmds ++ [d], nextCmd := s1.nextCmd + 1 } d) d.header 1 who

/-- What an engine instruction takes its turn for: the chain that its header names (R202). -/
def chainKey (m : CRef) (s : State) : TurnKey := match (do
    let h ← rdRef m
    readHeader m.sg h : M Chain) s with
  | .ok (c, _) => .chain c.loc
  | .error _ => .anyChain

/-- The scope at which an engine instruction publishes: the engine reads beyond the store buffer, so that the buffer drains at `.core` too
(R127). DEDUCED (log 86). -/
def placeScope (sc : Scope) : Nat := max 2 (scopeCode sc)

/-- The effect that the engine instructions share (R210): place a command of a kind at a scope. f is the fibre's context at issue. -/
def placeEngine (f : Fib) (kind : Nat) (sc : Scope) (d : SReg) (m : CRef) (v : Fin 16) : M Unit := inTurn (chainKey m) do
  let h ← rdRef m
  let c ← readHeader m.sg h
  if serves c.eng kind = false then fail 6 h
  else
    let lanes ← rdV v
    let s ← get
    let r := engRecOf (laneBytes lanes)
    let hdr := s.fib.seg[m.sg]
    if engRecOk s kind r = false then fail 6 h
    else match (engRanges s kind r hdr).findSome? (rangeFault s) with
      | some (cause, a) => fail cause a
      | none =>
        if guardedReceiver s kind r then fail 6 h
        else if (c.tail - c.seq).toNat ≥ 2 ^ c.log ∨ inFlight s s.focus.1 ≥ 128 then leaveFor .room
        else
          needTurn (.chain c.loc)
          release f (placeScope sc)
          afterOwn c.loc
          change fun t => placeCommand (newCommand t kind r c hdr (fillRecord t kind (scopeCode sc) r c.tail)) (selfAdder t) t
          result d c.tail

/-- `equery.st` (R220): the status word of ticket b. -/
def queryStatus (m : CRef) (b : SReg) : M Word := do
  let h ← rdRef m
  let c ← readHeader m.sg h
  let t ← rd b
  let s ← get
  let a := c.ring + 64 * (t.toNat % 2 ^ c.log) + 0x38
  let raw := coreBytes s s.focus.1 false a 8
  change fun t => correctRead t a 8
  let st := w64 (natOf (raw.map (·.1)))
  if raw.any (·.2) then fail 0x10 h
  else if bitsOf st 32 23 ≠ t.toNat % 2 ^ 23 ∨ c.tail.toNat ≤ t.toNat then pure allOnes
  else pure st

end Sys2Proof.Machine
end

