-- ==== Sys2Proof/Machine/EngineWork.lean ====
section
/-!
DEFINITION. What an engine does with a command (R204-R208, R212-R219, R247, R366): status, endpoints, each kind's work, parking, retiring.
-/
namespace Sys2Proof.Machine

/-! ## Commands -/

def cmdKind (d : Cmd) : Nat := recNat d.bytes 0 1
def cmdShd (d : Cmd) : Bool := recNat d.bytes 1 1 % 2 == 1
def cmdNorcv (d : Cmd) : Bool := recNat d.bytes 1 1 / 2 % 2 == 1
def cmdSrcCls (d : Cmd) : Nat := recNat d.bytes 2 1 % 4
def cmdDstCls (d : Cmd) : Nat := recNat d.bytes 2 1 / 4 % 4
def cmdLen (d : Cmd) : Nat := recNat d.bytes 4 4
def cmdSrc (d : Cmd) : Nat := recNat d.bytes 8 8
def cmdSx (d : Cmd) : Nat := recNat d.bytes 0x10 8
def cmdDst (d : Cmd) : Nat := recNat d.bytes 0x18 8
def cmdDx (d : Cmd) : Nat := recNat d.bytes 0x20 8
def cmdPat (d : Cmd) : Nat := recNat d.bytes 0x28 8
def cmdCtr (d : Cmd) : Nat := recNat d.bytes 0x30 4
def cmdInc (d : Cmd) : Nat := recNat d.bytes 0x34 4
def cmdRec (d : Cmd) : EngRec := engRecOf d.bytes

def cmdAdder (d : Cmd) : Adder := ⟨1, d.g, d.f⟩
def cmdCluster (d : Cmd) : Nat := clusterOf d.g
/-- Cluster-space address of the ring entry (R138, R235). -/
def cmdAddr (d : Cmd) : Nat := d.ring - clusterLoc (cmdCluster d) 0

def findCmd (s : State) (i : Nat) : Option Cmd := s.cmds.find? fun d => d.id == i
def setCmd (s : State) (d : Cmd) : State := { s with cmds := s.cmds.map fun e => if e.id == d.id then d else e }

/-- The status word (R204). -/
def cmdStatus (d : Cmd) : Nat :=
  d.state * 2 ^ 61 + d.code * 2 ^ 56 + (if d.phase then 2 ^ 55 else 0) + d.ticket * 2 ^ 32 + d.done % 2 ^ 32

/-- First byte of the command that has left over a Welt link and that no ACK covers (R368). -/
def uncovered (s : State) (d : Cmd) : Option Nat :=
  s.links.foldl (fun m l => l.replay.foldl (fun m f => match f.cmd with
    | some (i, n) => if i = d.id then some (min n (m.getD n)) else m
    | none => m) m) none

/-- The command's new state, with its status word in the ring entry; DONE is as far as writes are accepted (R208). -/
def putCmd (s : State) (d : Cmd) : State :=
  storeAt (setCmd (dropGrants s .access (some d.id)) d) (d.ring + 0x38)
    (bytesOf 8 (cmdStatus { d with done := min d.done ((uncovered s d).getD d.done) })) (cmdAdder d)

/-- Cause 0x0F becomes pending at the issuing fibre (R138): off its slot, its record's PEND says whether one is pending, which a steward may have
changed (R58, R59). -/
def raisePend (s : State) (d : Cmd) : State :=
  if d.orphan then s else
  let a := w64 (cmdAddr d)
  match slotOfFibre s d.g d.f with
  | some k => let x := getCtx s d.g k
              if x.pend.isSome then s else setCtx s d.g k { x with pend := some a }
  | none => match fibreInfo s d.g d.f with
      | none => s
      | some i =>
        let w := readNat s (i.loc + 0x5C) 4
        if i.state = .done ∨ w / 2 ^ 29 % 2 = 1 then s
        else
          writeNat (setFibreInfo s d.g d.f { i with pend := some a }) (i.loc + 0x5C) 4 (w - w / 2 ^ 29 % 2 * 2 ^ 29 + 2 ^ 29)

/-- The command fails with a code (R206, R207). -/
def failCmd (s : State) (d : Cmd) (code : Nat) : State := raisePend (putCmd s { d with state := 4, code := code }) d
def doneCmd (s : State) (d : Cmd) : State := putCmd s { d with state := 3 }
/-- All bytes of the command have left: it is done, once an ACK has covered those that crossed a Welt link (R208, R370). -/
def finishCmd (s : State) (d : Cmd) : State := if uncovered s d = none then doneCmd s { d with sent := false } else putCmd s { d with sent := true }

/-- The command is the oldest of its chain in flight (R205). -/
def firstOfChain (s : State) (d : Cmd) : Bool :=
  match s.cmds.find? fun e => e.header == d.header with
  | some e => e.id == d.id
  | none => false

/-! ## Endpoints -/

/-- Where a byte of an endpoint lies, with how many bytes follow it there; a failure code; or not yet: a translation, a mailbox entry or a
link is waited for. -/
inductive Spot where
  | at_ (loc n : Nat) (s : State) | bad (code : Nat) | later (s : State)

/-- What the command posts for a translation (R206, R235). -/
def cmdMiss (d : Cmd) (va kind : Nat) : Miss :=
  { va := w64 va, at_ := kind, tenant := d.tenant, tag := 0, rq := 1, who := cmdAddr d, cmd := some d.id }

/-- A module virtual address of the command, for the n bytes that are in its page, or in its window beyond the module. A user's
command that a handle leads to the steward window or the physical aperture takes CODE 2. DESIGN CHOICE (log 110). -/
def spotAsk (s : State) (d : Cmd) (va kind n : Nat) : Spot :=
  let user := !d.steward
  if Config.hostVa ≤ va ∧ va < Config.hostVa + 2 ^ 44 then
    match (match hostPort s with
      | some p => (getLink s (.port p)).state
      | none => 0), hostAperture s va n (accNeeds kind) user d.tenant with
    | 3, _ => .later s
    | 2, some h => .at_ (Config.hostBase + h) n s
    | _, _ => .bad 9
  else if Config.peerVa ≤ va ∧ va < Config.peerVa + 2 ^ 42 then
    match peerAperture s va user d.tenant with
    | some w => match (getLink s (.welt w)).state with
        | 3 => .later s
        | 2 => let a := Config.peerBase + (va - Config.peerVa)
               if kind = accEngRead ∧ lacksRoom s a = true then .later s else .at_ a n s
        | _ => .bad 9
    | none => .bad 9
  else match bareLoc va with
    | some a => if user then .bad 2 else if linkStateOf s a = 3 then .later s else .at_ a n s
    | none => match lookupVa s d.g d.tenant kind (w64 va) with
        | (some a, t) => if linkStateOf t a = 3 then .later t else .at_ a n t
        | (none, t) => match grantFor t d.g (cmdMiss d va kind) with
            | some l => let a := leafDpa l (w64 va)
                        if linkStateOf t a = 3 then .later t else .at_ a n t
            | none => .later ((postMiss t d.g (cmdMiss d va kind)).getD t)

/-- What the ports of the cluster hold goes ahead of an access f of the engine beyond the die (R118); f waits while a link holds that. -/
def behindPorts (s : State) (d : Cmd) (f : State → State) : State :=
  let t := clearPath s d.g Config.swBase
  if pathClear t d.g Config.swBase then f t else t

/-- The same, once what the ports of the cluster hold has gone ahead (R118). -/
def spotVa (s : State) (d : Cmd) (va kind n : Nat) : Spot :=
  match spotAsk s d va kind (if inAperture va then min n (2 ^ 32 - va % 2 ^ 32) else min n (65536 - va % 65536)) with
  | .at_ a m t => let u := clearPath t d.g a
                  if pathClear u d.g a then .at_ a m u else .later u
  | r => r

/-- The checks of R225 for the command's tenant, as the engine reads the entry. -/
def cmdHandleOk (s : State) (d : Cmd) (h : Nat) (last : Nat) : Bool :=
  let n := h / 2 ^ 24 % 2 ^ 20
  n != 0 && hLive s n && hGen s n == h / 2 ^ 44 % 256 && hTenant s n == h / 2 ^ 52 && (d.steward || hTenant s n == d.tenant.toNat)
    && hBound s n == h % 2 ^ 24 && hKind s n == 0 && last ≤ hBound s n * 65536

/-- An endpoint: class, class address or handle, offset of a handle, shadow, and the base that the handle resolved to. -/
structure Endpoint where
  cls  : Nat
  addr : Nat
  off  : Nat
  shd  : Bool
  base : Nat
  kind : Nat

def srcEnd (d : Cmd) : Endpoint := ⟨cmdSrcCls d, cmdSrc d, cmdSx d, false, d.srcBase, accEngRead⟩
def dstEnd (d : Cmd) : Endpoint := ⟨cmdDstCls d, cmdDst d, cmdDx d, cmdShd d, if cmdShd d then d.shdBase else d.dstBase, accEngWrite⟩

/-- Resolve the handles of a command, once for all its bytes (R128). -/
def resolveBases (s : State) (d : Cmd) : Cmd :=
  let entry := fun h : Nat => h / 2 ^ 24 % 2 ^ 20
  { d with srcBase := (hCur s (entry (cmdSrc d))).toNat, dstBase := (hCur s (entry (cmdDst d))).toNat, shdBase := (hShd s (entry (cmdDst d))).toNat }

/-- Byte i of an endpoint, and up to n bytes from it. -/
def spot (s : State) (d : Cmd) (e : Endpoint) (i n : Nat) : Spot :=
  if e.cls = 0 then .at_ (spadLoc d.g (e.addr + i)) n s
  else if e.cls = 1 then .at_ (clusterLoc (cmdCluster d) (e.addr + i)) n s
  else if e.cls = 2 then spotVa s d (e.addr + i) e.kind n
  else if cmdHandleOk s d e.addr (e.off + i + n) = false then .bad 2
  else if e.shd ∧ e.base = 0 then .bad 5
  else spotVa s d (e.base + e.off + i) e.kind n

/-- The locations of n bytes of an endpoint from byte i. -/
inductive EngSpans where
  | ok (l : List (Nat × Nat)) (s : State) | bad (code : Nat) | later (s : State)

def engSpans (d : Cmd) (e : Endpoint) : Nat → State → Nat → Nat → EngSpans
  | 0, s, _, _ => .ok [] s
  | fuel + 1, s, i, n =>
    if n = 0 then .ok [] s else
    match spot s d e i n with
    | .bad c => .bad c
    | .later t => .later t
    | .at_ a m t => match engSpans d e fuel t (i + m) (n - m) with
        | .ok l u => .ok ((a, m) :: l) u
        | r => r

def spansOf (s : State) (d : Cmd) (e : Endpoint) (i n : Nat) : EngSpans := engSpans d e (n / 65536 + 2) s i n

/-! ## Reading and writing at the serialisers (R127, R144, R230) -/

/-- n bytes at one location, each with its poison. -/
def engRead (s : State) (d : Cmd) (a n : Nat) : List (Byte × Bool) × State :=
  if isSw a then
    let r := swBytes s (a - Config.swBase) n
    (r.1.map fun b => (b, false), r.2)
  else devRead s (dieOf d.g) a n

/-- Write bytes at one location. An engine's access to a port of the steward window does not act on it, whatever its length: R401 names
stores, loads and accesses alone. DESIGN CHOICE (log 92). A word that takes a byte of poison is poison, and is counted (R144). None while the write finds no room at
its link: then nothing is written, and the command goes on later (R208). -/
def devWrite (s : State) (die a : Nat) (l : List (Byte × Bool)) (who : Adder) : Option State :=
  if isDpa a && !backed s a then some (bumpDie s die 0x58 1)
  else (landStore s a (l.map (·.1)) who false).bind fun s1 =>
    if isSw a || linkStateOf s a ≠ 2 then some s1
    else (toxicWords a l).foldl (fun t w => t.bind fun u => (spoil u w 8).map fun v => bumpDie v die 0x48 1) (some s1)
/-- The flits that a peer write of the command takes carry its bytes from n on (R370). -/
def tagFlits (s t : State) (d : Cmd) (n a : Nat) : State :=
  let id := LinkId.welt (weltOf a)
  let l := getLink t id
  let k := (getLink s id).replay.length
  setLink t { l with replay := l.replay.take k ++ (l.replay.drop k).map fun f => { f with cmd := some (d.id, n) } }
/-- The command writes its bytes from n on at one location. -/
def engWrite (s : State) (d : Cmd) (n a : Nat) (l : List (Byte × Bool)) : Option State :=
  (devWrite s (dieOf d.g) a l (cmdAdder d)).map fun t => if isPeerLoc a then tagFlits s t d n a else t

def cmdReads (d : Cmd) : List (Nat × Nat) → State → List (Byte × Bool) × State
  | [], s => ([], s)
  | (a, n) :: r, s =>
    let x := engRead s d a n
    let y := cmdReads d r x.2
    (x.1 ++ y.1, y.2)
/-- Go on with what a write gave; a write that found no room leaves the state as it was, to be made again. -/
def orWait (s : State) (r : Option State) (go : State → State) : State := match r with
  | some t => go t
  | none => s

/-- A link is retraining at some span: the command waits. -/
def spansHeld (s : State) (l : List (Nat × Nat)) : Bool := l.any fun p => linkStateOf s p.1 == 3

/-- Bytes by location, in parts of at most 4,096. -/
def partsAt : Nat → Nat → List (Byte × Bool) → List (Nat × List (Byte × Bool))
  | 0, _, _ => []
  | fuel + 1, a, l => if l.isEmpty then [] else (a, l.take 4096) :: partsAt fuel (a + 4096) (l.drop 4096)
def partsOf : List (Nat × Nat) → List (Byte × Bool) → List (Nat × List (Byte × Bool))
  | [], _ => []
  | (a, n) :: r, l => partsAt (n / 4096 + 1) a (l.take n) ++ partsOf r (l.drop n)

/-- Write parts from byte n on as far as the links have room: what is left. -/
def writeParts (d : Cmd) : List (Nat × List (Byte × Bool)) → Nat → State → List (Nat × List (Byte × Bool)) × State
  | [], _, s => ([], s)
  | (a, l) :: r, n, s => match engWrite s d n a l with
      | some t => writeParts d r (n + l.length) t
      | none => ((a, l) :: r, s)

/-- The link of a location beyond the module is down. -/
def farDown (s : State) (a : Nat) : Bool := isFar a && linkStateOf s a != 2 && linkStateOf s a != 3

/-- The parts that are left go on; then the command ends as it was to (R215, R216). A link that has gone down fails it (R370). -/
def writeLeft (s : State) (d : Cmd) : State :=
  let n := d.left.foldl (fun m p => m - p.2.length) d.goal
  if d.left.any fun p => farDown s p.1 then failCmd s { d with done := n } 9 else
  match writeParts d d.left n s with
  | ([], t) => if d.fin ≠ 0 then failCmd t { d with left := [], done := d.goal } d.fin else finishCmd t { d with left := [], done := d.goal }
  | (l, t) => putCmd t { d with left := l }

/-! ## Plain copy (R212) -/

/-- The bytes of an endpoint on one scale, to compare two of them. -/
def linearOf (d : Cmd) (e : Endpoint) : Nat :=
  if e.cls = 0 then spadLoc d.g e.addr else if e.cls = 1 then clusterLoc (cmdCluster d) e.addr
  else 2 ^ 80 + (if e.cls = 2 then e.addr else e.base + e.off)
/-- Source and destination overlap: what the destination receives is not defined. -/
def overlaps (d : Cmd) : Bool :=
  let a := linearOf d (srcEnd d)
  let b := linearOf d (dstEnd d)
  a < b + cmdLen d && b < a + cmdLen d

/-- DONE advances to n; at LEN the command is done. -/
def advanceTo (s : State) (d : Cmd) (n : Nat) : State :=
  if n ≥ cmdLen d then finishCmd s { d with done := n } else putCmd s { d with done := n }

/-- A piece of at most 4,096 bytes from one place to another. -/
def copyPiece (s : State) (d : Cmd) : State :=
  let n := min 4096 (cmdLen d - d.done)
  match spot s d (srcEnd d) d.done n with
  | .bad c => failCmd s d c
  | .later t => t
  | .at_ a n1 s1 => match spot s1 d (dstEnd d) d.done n1 with
      | .bad c => failCmd s1 d c
      | .later t => t
      | .at_ b n2 s2 =>
        let r := engRead s2 d a n2
        let w := if overlaps d then (let f := freshBytes r.2 n2; (f.1.map fun x => (x, false), f.2)) else r
        orWait s2 (engWrite w.2 d d.done b w.1) fun u => advanceTo u d (d.done + n2)

/-! ## Multicast and deal (R213, R214) -/

/-- Bytes of the run at DONE, its receivers, and where it lands in a receiver's scratchpad. -/
def runOf (d : Cmd) : Nat × List Nat × Nat :=
  let r := cmdRec d
  if cmdKind d = 2 then (min 4096 (r.len - d.done), (receiversOf 2 r).map (·.1), r.dst % 2 ^ 17 + d.done)
  else
    let (b, f, c, st) := dealOf r.pat
    let j := d.done / b
    (min 4096 (min (r.len - d.done) ((j + 1) * b - d.done)), [f + j % c * st], r.dst % 2 ^ 17 + j / c * b + d.done % b)

def presentIn (s : State) (d : Cmd) (k : Nat) : Bool := k < 192 && present s (cmdCluster d * 192 + k)

/-- Core k of the cluster takes the command's runs: it is present, and under a multicast its resident launch is the issuer's (R319). -/
def receives (s : State) (d : Cmd) (k : Nat) : Bool :=
  presentIn s d k && (cmdKind d != 2 || (let ks := (getCore s (cmdCluster d * 192 + k)).kernels
    match d.kern with
    | some n => ks.contains n && (cmdKern s d).isSome
    | none => ks.isEmpty))

/-- Runs whose receivers have all taken them, or take none, are passed. -/
def passRuns : Nat → State → Cmd → Cmd
  | 0, _, d => d
  | fuel + 1, s, d =>
    if d.done ≥ cmdLen d then d else
    let r := runOf d
    if r.2.1.any fun k => receives s d k && !d.served.contains k then d
    else passRuns fuel s { d with done := d.done + r.1, served := [] }
def settleRuns (s : State) (d : Cmd) : State :=
  let e := passRuns (cmdLen d / 64 + 2) s d
  if e.done ≥ cmdLen e then doneCmd s e else putCmd s e

/-- MULTICAST_RUN_ACCEPTED: receiver k accepts the run at DONE, and its counter gains the run's bytes. -/
def runAccepted (s : State) (d : Cmd) (k : Nat) : State :=
  let (n, ks, o) := runOf d
  if ks.contains k = false ∨ receives s d k = false ∨ d.served.contains k = true then s else
  match spansOf s d (srcEnd d) d.done n with
  | .bad c => failCmd s d c
  | .later t => t
  | .ok l t =>
    if spansHeld t l then t else
    let r := cmdReads d l t
    let g := cmdCluster d * 192 + k
    orWait t (engWrite r.2 d d.done (spadLoc g o) r.1) fun s1 =>
      let s2 := if cmdNorcv d then s1 else addAt s1 (spadLoc g (cmdDst d / 2 ^ 32 % 2 ^ 17)) (w64 n) (cmdAdder d)
      settleRuns s2 { d with served := d.served ++ [k] }

/-! ## Code tables and decode (R215) -/

def codeLen (t : List Byte) (sym : Nat) : Nat := (nth t (sym / 2) 0).toNat / (if sym % 2 = 0 then 1 else 16) % 16
def symsOf (t : List Byte) (n : Nat) : List Nat := (List.range 256).filter fun x => codeLen t x == n
/-- first_n. -/
def firstCode (t : List Byte) : Nat → Nat
  | 0 => 0
  | n + 1 => (firstCode t n + (if n = 0 then 0 else (symsOf t n).length)) * 2
def tableOk (t : List Byte) : Bool :=
  ((List.range 256).any fun x => codeLen t x != 0)
    && ((List.range 15).foldl (fun a n => a + (symsOf t (n + 1)).length * 2 ^ (15 - (n + 1))) 0) ≤ 2 ^ 15
/-- The symbol of length n with code v. -/
def symbolOf (t : List Byte) (v n : Nat) : Option Nat :=
  if firstCode t n ≤ v then (symsOf t n)[v - firstCode t n]? else none

/-- Decode bits until `left` bytes are out: the bytes, and whether the stream failed. A poisoned source byte makes poison of what is left. -/
def decodeBits (t : List Byte) : List (Bool × Bool) → Nat → Nat → Nat → List (Byte × Bool) × Bool
  | _, 0, _, _ => ([], false)
  | [], _, _, _ => ([], true)
  | (b, tox) :: bs, left + 1, v, n =>
    if tox then (List.replicate (left + 1) (0, true), false) else
    let w := v * 2 + if b then 1 else 0
    match symbolOf t w (n + 1) with
    | some x =>
      let r := decodeBits t bs left 0 0
      ((BitVec.ofNat 8 x, false) :: r.1, r.2)
    | none => if n + 1 = 15 then ([], true) else decodeBits t bs (left + 1) w (n + 1)

def bitStream (l : List (Byte × Bool)) : List (Bool × Bool) := l.flatMap fun p => (List.range 8).map fun i => (p.1.getLsbD i, p.2)

/-- Decode a whole stream by the table read at the start, once every translation is there. A poisoned table makes poison (R144). -/
def decodeAll (s : State) (d : Cmd) : State :=
  match d.table with
  | none => failCmd s d 4
  | some (t, bad) =>
    match spansOf s d (srcEnd d) 0 (cmdPat d % 2 ^ 32) with
    | .bad c => failCmd s d c
    | .later u => u
    | .ok src s1 => match spansOf s1 d (dstEnd d) 0 (cmdLen d) with
        | .bad c => failCmd s1 d c
        | .later u => u
        | .ok dst s2 =>
          if spansHeld s2 src || spansHeld s2 dst then s2 else
          let r := cmdReads d src s2
          let o := if bad then (List.replicate (cmdLen d) (0, true), false) else decodeBits t (bitStream r.1) (cmdLen d) 0 0
          let cut := o.1.length
          writeLeft r.2 { d with left := partsOf dst o.1, goal := cut, fin := if o.2 then 3 else 0 }

/-- The code table that a decode finds when it starts: one of its tenant in its slot (R215). -/
def startTable (s : State) (d : Cmd) : Option (List Byte × Bool) :=
  match s.tables.find? fun e => e.1 == (cmdCluster d, cmdPat d / 2 ^ 32 % 16) with
  | some (_, ten, t, bad) => if ten = d.tenant then some (t, bad) else none
  | none => none

/-- `ecode`'s command (R215); a poisoned table is copied as poison and counted (R144). -/
def loadTable (s : State) (d : Cmd) : State :=
  match spansOf s d (srcEnd d) 0 128 with
  | .bad c => failCmd s d c
  | .later t => t
  | .ok l t =>
    if spansHeld t l then t else
    let r := cmdReads d l t
    let b := r.1.map (·.1)
    let bad := (toxicWords 0 r.1).length
    if bad = 0 ∧ tableOk b = false then failCmd r.2 d 4
    else
      let key := (cmdCluster d, cmdPat d % 16)
      let s1 := if bad = 0 then r.2 else bumpDie r.2 (dieOf d.g) 0x48 bad
      doneCmd { s1 with tables := (s1.tables.filter fun e => e.1 != key) ++ [(key, d.tenant, b, bad != 0)] } { d with done := 128 }

/-! ## Reduce-add (R216) -/

def sum4 (fl : Bool) : List (Byte × Bool) → List (Byte × Bool) → List (Byte × Bool)
  | a :: b :: c :: e :: as, w :: x :: y :: z :: bs =>
    let l := BitVec.ofNat 32 (natOf [a.1, b.1, c.1, e.1])
    let r := BitVec.ofNat 32 (natOf [w.1, x.1, y.1, z.1])
    let t := a.2 || b.2 || c.2 || e.2 || w.2 || x.2 || y.2 || z.2
    (bytesOf 4 (if fl then f32Add .rne l r else l + r).toNat).map (fun v => (v, t)) ++ sum4 fl as bs
  | _, _ => []

/-- The staging area, or the shadow (R216). -/
def stageEnd (d : Cmd) : Endpoint :=
  if cmdShd d then { dstEnd d with shd := true, base := d.shdBase }
  else ⟨1, d.hdrseg - clusterLoc (cmdCluster d) 0 + cmdPat d / 2 ^ 24 % 2 ^ 24, 0, false, 0, accEngWrite⟩
def currentEnd (d : Cmd) (kind : Nat) : Endpoint := { dstEnd d with shd := false, base := d.dstBase, kind := kind }

/-- Phase 0: a piece of the sums is staged. -/
def reducePiece (s : State) (d : Cmd) : State :=
  let n := min 4096 (cmdLen d - d.done)
  match spot s d (srcEnd d) d.done n with
  | .bad c => failCmd s d c
  | .later t => t
  | .at_ a n1 s1 => match spot s1 d (currentEnd d accEngRead) d.done n1 with
      | .bad c => failCmd s1 d c
      | .later t => t
      | .at_ b n2 s2 => match spot s2 d (stageEnd d) d.done n2 with
          | .bad c => failCmd s2 d c
          | .later t => t
          | .at_ w n3 s3 =>
            let x := engRead s3 d a n3
            let y := engRead x.2 d b n3
            let m := d.done + n3
            orWait s3 (engWrite y.2 d d.done w (sum4 (cmdPat d % 2 == 1) y.1 x.1)) fun s4 =>
              if m < cmdLen d then putCmd s4 { d with done := m }
              else if cmdShd d then finishCmd s4 { d with done := m }
              else putCmd s4 { d with done := m, phase := true }

/-- Phase 1: the commit. -/
def reduceCommit (s : State) (d : Cmd) : State :=
  match spansOf s d (currentEnd d accEngWrite) 0 (cmdLen d) with
  | .bad c => failCmd s d c
  | .later t => t
  | .ok l t => match spansOf t d (stageEnd d) 0 (cmdLen d) with
      | .ok st u =>
        if spansHeld u l then u else
        let r := cmdReads d st u
        writeLeft r.2 { d with left := partsOf l r.1, goal := cmdLen d }
      | _ => t

/-! ## Gather and scatter (R217) -/

/-- The index of row i, and its poison. -/
def indexLoc (d : Cmd) (i : Nat) : Nat := d.hdrseg + cmdPat d % 2 ^ 24 + 4 * i
def rowIndex (s : State) (d : Cmd) (i : Nat) : Nat × Bool := (readNat s (indexLoc d i) 4, isToxic s (indexLoc d i))

/-- Inactive rows move nothing. -/
def passRows : Nat → State → Cmd → Cmd
  | 0, _, d => d
  | fuel + 1, s, d =>
    if d.done ≥ cmdLen d then d else
    let x := rowIndex s d d.done
    if x.1 = 0xFFFFFFFF ∧ x.2 = false then passRows fuel s { d with done := d.done + 1 } else d
def settleRows (s0 : State) (d : Cmd) : State :=
  let e := passRows (cmdLen d) s0 d
  let s := correctRead s0 (indexLoc d d.done) (4 * (min (e.done + 1) (cmdLen d) - d.done))
  if e.done ≥ cmdLen e then doneCmd s e else putCmd s e

/-- The row of the other side at list place i. -/
def nearRow (d : Cmd) (i : Nat) : Nat :=
  let e := if cmdKind d = 6 then dstEnd d else srcEnd d
  let a := e.addr + i * (cmdSx d % 2 ^ 17)
  if e.cls = 0 then spadLoc d.g a else clusterLoc (cmdCluster d) a

/-- GATHER_ROW_ACCEPTED: the next row of the list moves, and its owner's counter gains 1. Rows of different owners keep the order of the list
too, which R217 leaves open. DESIGN CHOICE (log 96). -/
def rowAccepted (s0 : State) (d : Cmd) : State :=
  let s := correctRead s0 (indexLoc d d.done) 4
  let row := cmdSx d % 2 ^ 17
  let (ix, tox) := rowIndex s d d.done
  let gather := cmdKind d == 6
  let next := { d with done := d.done + 1 }
  if ix = 0xFFFFFFFF ∧ tox = false then settleRows s0 d
  else if tox then
    settleRows (if gather then (engWrite s d d.done (nearRow d d.done) (List.replicate row (0, true))).getD s else bumpDie s (dieOf d.g) 0x48 1) next
  else
    let a := (if gather then cmdSrc d else cmdDst d) + ix * row
    let owner := a / Config.spadBytes
    let last := (a + row - 1) / Config.spadBytes
    if a < d.seglo ∨ a + row > d.seghi ∨ a + row > Config.clusterBytes ∨ presentIn s d owner = false ∨ presentIn s d last = false
        ∨ (d.steward = false ∧ guardedIn s (clusterLoc (cmdCluster d) a) row = true) then failCmd s d 6
    else
      let t := clusterLoc (cmdCluster d) a
      let r := engRead s d (if gather then t else nearRow d d.done) row
      let s1 := (engWrite r.2 d d.done (if gather then nearRow d d.done else t) r.1).getD r.2
      let s2 := if cmdNorcv d then s1 else addAt s1 (d.hdrseg + cmdDx d % 2 ^ 24 + 8 * owner) 1 (cmdAdder d)
      settleRows s2 next

/-! ## Invalidation, as far as a tier move needs it (R243, R244) -/

/-- Location of the page or block of a TLB entry, and its bytes. -/
def entryPage (e : TlbEntry) : Nat × Nat := if e.blk then (leafDpa e.leaf 0, 2 ^ 29) else (leafDpa e.leaf 0, 65536)

/-- The stores to the pages that some store buffer still holds leave it. -/
def drainPages (pages : List (Nat × Nat)) (gs : List Nat) (s : State) : State :=
  gs.foldl (fun t g => drainWhere (fun e => pages.any fun p => p.1 ≤ e.block && e.block < p.1 + p.2) (getCore t g).sb.length t g) s
/-- A request to one of the pages. -/
def inPages (pages : List (Nat × Nat)) (q : PortReq) : Bool := pages.any fun p => p.1 < q.loc + q.bytes.length && q.loc < p.1 + p.2
/-- The requests to the pages at every port are accepted at their serialisers; none while one is held. -/
def pushPages (pages : List (Nat × Nat)) (s : State) : Option State :=
  let t := ((s.ports.filter (inPages pages)).map (·.core)).foldl (fun u g => pushReqs (inPages pages) true u g) s
  if t.ports.any (inPages pages) then none else some t

/-- Advance the epoch, remove the entries that p picks from every TLB, and the lines of their pages from every read cache and every fetch
buffer; the accesses that used them are accepted. None while a link holds one. -/
def invalidate (s : State) (what : Option (BitVec 12 × Option Nat)) (p : TlbEntry → Bool) : Option State :=
  let gone := (s.tlbs.filter p ++ (s.grants.map grantEntry).filter p).map entryPage
  let keep := fun (l : CLine) => !gone.any fun e => e.1 < l.block + 64 && l.block < e.1 + e.2
  let stay := fun (l : FetchLine) => !gone.any fun e => e.1 ≤ l.loc && l.loc < e.1 + e.2
  let s1 : State :=
    { s with epoch := s.epoch + 1, invs := s.invs ++ [(s.epoch + 1, what)], tlbs := s.tlbs.filter (fun e => !p e), grants := s.grants.filter fun e => !p (grantEntry e)
             cores := if gone.isEmpty then s.cores else s.cores.map fun c => (c.1, { c.2 with cache := c.2.cache.filter keep, lines := c.2.lines.filter stay }) }
  if gone.isEmpty then some s1 else pushPages gone (drainPages gone (s1.cores.map (·.1)) s1)
def invalidateVa (s : State) (tenant : BitVec 12) (va : Nat) : Option State :=
  invalidate s (some (tenant, some va)) fun e => covers e tenant (w64 va)

/-! ## NVMe (R366) -/

/-- A namespace-table entry: NSID, port, tenant, blocks, when valid. -/
def namespaceOf (s : State) (n : Nat) : Option (Nat × Fin 8 × Nat × Nat) :=
  let a := swLoc (0x17010000 + 16 * n)
  if readNat s (a + 5) 1 = 1 then some (readNat s a 4, Fin.ofNat 8 (readNat s (a + 4) 1), readNat s (a + 6) 2 % 4096, readNat s (a + 8) 8) else none
/-- Location of a logical block (log 9). -/
def nvmeLoc (port : Fin 8) (nsid lba : Nat) : Nat := Config.nvmeBase + (port.val * 2 ^ 32 + nsid) * 2 ^ 80 + lba * 4096

/-- State of the port as an NVMe root port. -/
def nvmeState (s : State) (p : Fin 8) : Nat :=
  let l := getLink s (.port p)
  if l.role = 3 then l.state.toNat else 0

/-- The location of a block range of a namespace for a tenant, when the checks of R366 pass; `any` leaves the tenant out, as for swap. -/
inductive Blocks where
  | at_ (loc : Nat) | bad (code : Nat) | held
/-- The migration engine of cluster cl has the port's I/O queue pair: the start configuration assigns it (R366). A command of another engine
fails as one that the controller turns away. DESIGN CHOICE (log 82). -/
def servesPort (s : State) (cl : Nat) (p : Fin 8) : Bool := s.nveng.contains (p, cl)
def blocksAt (s : State) (cl ns lba n : Nat) (tenant : Option Nat) : Blocks :=
  match namespaceOf s ns with
  | none => .bad 8
  | some (nsid, p, ten, cap) =>
    if (match tenant with
        | some t => t != ten
        | none => false) || lba + n > cap || !servesPort s cl p then .bad 8
    else match nvmeState s p with
      | 2 => .at_ (nvmeLoc p nsid lba)
      | 3 => .held
      | _ => .bad 9

/-- The controller reports an error for a block of the range: the command fails, and the error has been met (R204). -/
def nvmeError (s : State) (a n : Nat) : Option State :=
  match s.badBlocks.find? fun b => a ≤ b && b < a + n with
  | some b => some { s with badBlocks := s.badBlocks.erase b }
  | none => none

/-- One block of an NVMe read or write. -/
def nvmePiece (s : State) (d : Cmd) : State :=
  let rdNv := cmdKind d == 9
  let ns := (if rdNv then cmdSx d else cmdDx d) % 256
  let lba := if rdNv then cmdSrc d else cmdDst d
  match blocksAt s (cmdCluster d) ns lba (cmdLen d / 4096) (some d.tenant.toNat) with
  | .bad c => failCmd s d c
  | .held => s
  | .at_ base => match spot s d (if rdNv then dstEnd d else srcEnd d) d.done 4096 with
      | .bad c => failCmd s d c
      | .later t => t
      | .at_ a _ t => match nvmeError t (base + d.done) 4096 with
          | some u => failCmd u d 8
          | none =>
            let r := engRead t d (if rdNv then base + d.done else a) 4096
            orWait t (engWrite r.2 d d.done (if rdNv then a else base + d.done) r.1) fun u => advanceTo u d (d.done + 4096)

/-! ## Tier moves (R218, R247) -/

/-- A present table of the walk: the DPA that a pointer entry names; its leaf and reserved fields must be zero (R232). -/
def pointerOf (w : Word) : Option Nat := if leafV w && bitsOf w 47 16 == 0 then some (bitsOf w 16 31 * 65536) else none
/-- A well-formed leaf of either presence: mapped in tiers 0 to 2, or in tier 3 with V = 0 (R232). -/
def isLeaf (w : Word) : Bool :=
  bitsOf w 47 7 == 0 && (leafV w != (leafTier w == 3)) && (!leafBlk w || leafTier w == 3 || bitsOf w 16 13 == 0)

/-- The leaf of va: its location, value and bytes mapped (R231). -/
def walkLeaf (s : State) (tenant : BitVec 12) (va : Nat) : Option (Nat × Word × Nat) :=
  let root := readWord s (swLoc (0x12000000 + 8 * tenant.toNat))
  if leafV root = false then none else
  match pointerOf (readWord s (bitsOf root 16 31 * 65536 + 8 * (va / 2 ^ 42 % 8192))) with
  | none => none
  | some l2 =>
    let a2 := l2 + 8 * (va / 2 ^ 29 % 8192)
    let w2 := readWord s a2
    if leafBlk w2 then (if isLeaf w2 then some (a2, w2, 2 ^ 29) else none)
    else match pointerOf w2 with
      | none => none
      | some l3 =>
        let a3 := l3 + 8 * (va / 65536 % 8192)
        let w3 := readWord s a3
        if isLeaf w3 && !leafBlk w3 then some (a3, w3, 65536) else none

/-- Copy n bytes between locations, poison and all (R208, R230); a CXL port that is not up reads as poison and drops the write (R365). -/
def moveRange (s : State) (g a b n : Nat) : State :=
  let dead := (isDpa a && !backed s a) || !pathUp s a
  let from_ := s.mem.filter fun c => a ≤ c.1 && c.1 < a + n
  let tox := if dead then (List.range (n / 8)).map fun i => a + 8 * i else s.poison.filter fun w => a ≤ w && w < a + n
  let s1 := if isDpa b && !backed s b then bumpDie s (dieOf g) 0x58 1
    else if !pathUp s b then countDropped s b else
    let s0 : State := { s with mem := s.mem.filter (fun c => !(b ≤ c.1 && c.1 < b + n)), poison := s.poison.filter fun w => !(b ≤ w && w < b + n) }
    let s2 := if dead then s0 else from_.foldl (fun t c => setByte t (b + (c.1 - a)) c.2) s0
    bumpDie (tox.foldl (fun t w => setToxic t (b + (w - a))) s2) (dieOf g) 0x48 tox.length
  if isDpa a && !backed s a then bumpDie s1 (dieOf g) 0x58 1 else s1

/-- Where a page of a tier lies: its frame, or its swap blocks. -/
def tierPlace (s : State) (cl tier frame n : Nat) : Blocks :=
  if tier = 3 then blocksAt s cl s.swapNs (frame / 4096) (n / 4096) none
  else match linkStateOf s frame with
    | 3 => .held
    | _ => .at_ frame

def setMig (w : Word) (b : Bool) : Word := if b then w ||| 0x40000000000000 else w &&& ~~~(0x40000000000000 : Word)

/-- The leaf of a page that has moved: V, TIER, MIG and FRAME are new, and the rest is kept (R247). -/
def movedLeaf (w : Word) (tier frame : Nat) : Word :=
  let rest := w &&& ~~~(0xB0407FFFFFFF0000 : Word)
  rest ||| w64 ((if tier = 3 then 0 else 2 ^ 63) + tier * 2 ^ 60 + frame / 65536 * 65536 % 2 ^ 47)

/-- One step of the page at DONE: the mark, then the move itself. A leaf that another move has marked is waited for. DESIGN CHOICE (log 98). A
range in an aperture is walked like any other. DESIGN CHOICE (log 111). -/
def tierPiece (s : State) (d : Cmd) : State :=
  let va := cmdSrc d + d.done
  let target := cmdPat d % 4
  match walkLeaf s d.tenant va with
  | none => (postMiss s d.g (cmdMiss d va accEngWrite)).getD s
  | some (la, w, n) =>
    if n = 2 ^ 29 ∧ (va % 2 ^ 29 ≠ 0 ∨ d.done + n > cmdLen d) then failCmd s d 7
    else if d.marked = false then
      if leafTier w = target then advanceTo s d (d.done + n)
      else if leafMig w then s
      else match invalidateVa (storeAt s la (bytesOf 8 (setMig w true).toNat) (cmdAdder d)) d.tenant va with
        | some t => putCmd t { d with marked := true }
        | none => s
    else
      let big := n == 2 ^ 29
      let frame := bitsOf w 16 31 * 65536
      let clear := storeAt s la (bytesOf 8 (setMig w false).toNat) (cmdAdder d)
      let off := { d with marked := false }
      match popFrame s (Fin.ofNat 4 target) big with
      | (none, _) => failCmd clear off 7
      | (some f, s1) => match tierPlace s1 (cmdCluster d) (leafTier w) frame n, tierPlace s1 (cmdCluster d) target f n with
          | .held, _ => s
          | _, .held => s
          | .bad c, _ => failCmd clear off c
          | _, .bad c => failCmd clear off c
          | .at_ a, .at_ b => match (nvmeError s (if leafTier w = 3 then a else b) n).filter fun _ => leafTier w == 3 || target == 3 with
            | some _ => failCmd { clear with badBlocks := s.badBlocks.filter fun x => !(a ≤ x && x < a + n) && !(b ≤ x && x < b + n) } off 8
            | none =>
            let s2 := storeAt (moveRange s1 d.g a b n) la (bytesOf 8 (movedLeaf w target f).toNat) (cmdAdder d)
            advanceTo (pushFrame s2 (Fin.ofNat 4 (leafTier w)) big frame) off (d.done + n)

/-! ## Publish (R219) -/

def publishHandle (s : State) (d : Cmd) : State :=
  let h := cmdDst d
  let n := h / 2 ^ 24 % 2 ^ 20
  if cmdHandleOk s d h 0 = false then failCmd s d 2
  else if hShd s n = 0 then failCmd s d 5
  else
    let cur := hCur s n
    let shd := hShd s n
    doneCmd (writeWord (writeWord s (handleLoc n) shd) (handleLoc n + 8) cur) d

/-! ## Serving (R205-R208) -/

/-- A piece of the work of an active command; runs and rows that move are events of their own, and those that move nothing are passed (R319). A command whose link has gone down fails (R370). -/
def workCmd (s : State) (d : Cmd) : State :=
  match d.lost with
  | some n => failCmd s { d with done := n } 9
  | none => if d.sent then finishCmd s d else if d.left ≠ [] then writeLeft s d else match cmdKind d with
  | 1 => copyPiece s d
  | 2 | 3 => settleRuns s d
  | 4 => decodeAll s d
  | 5 => if d.phase then reduceCommit s d else reducePiece s d
  | 8 => behindPorts s d fun t => tierPiece t d
  | 9 | 10 => behindPorts s d fun t => nvmePiece t d
  | 11 => loadTable s d
  | 12 => behindPorts s d fun t => publishHandle t d
  | _ => settleRows s d

/-- Some endpoint of the command is named by a handle, whose entry its engine reads when it starts (R128). -/
def usesHandle (d : Cmd) : Bool := cmdSrcCls d == 3 || cmdDstCls d == 3

/-- Number of the last command that the chain's engine took from it, 0 for none. -/
def lastTaken (s : State) (header : Nat) : Nat := (look s.taken header).getD 0
/-- The engine of a pending command comes to its chain: no other chain of the engine that holds a pending command has waited longer (R200). -/
def chainsTurn (s : State) (d : Cmd) : Bool :=
  s.cmds.all fun e => !(cmdCluster e == cmdCluster d && e.eng == d.eng && e.state == 0 && firstOfChain s e) || lastTaken s d.header ≤ lastTaken s e.header

/-- The command as its engine starts it: what it reads once, at its start. -/
def startCmd (s : State) (d : Cmd) : Cmd := { resolveBases s d with state := 1, table := if cmdKind d = 4 then startTable s d else none }

/-- ENGINE_TAKE_COMMAND: the engine takes a pending command, or goes on with an active one. -/
def takeCommand (s : State) (i : Nat) : State :=
  match findCmd s i with
  | none => s
  | some d =>
    if d.state = 0 ∧ firstOfChain s d = true ∧ chainsTurn s d = true then
      let begin_ := fun t : State =>
        let e := startCmd t d
        workCmd (putCmd { t with taken := place t.taken d.header (t.takes + 1), takes := t.takes + 1 } e) e
      if usesHandle d then behindPorts s d begin_ else begin_ s
    else if d.state = 1 then workCmd s d
    else s

def multicastEvent (s : State) (i k : Nat) : State := match findCmd s i with
  | some d => if d.state = 1 ∧ (cmdKind d = 2 ∨ cmdKind d = 3) then runAccepted s d k else s
  | none => s
def gatherEvent (s : State) (i : Nat) : State := match findCmd s i with
  | some d => if d.state = 1 ∧ (cmdKind d = 6 ∨ cmdKind d = 7) then rowAccepted s d else s
  | none => s

/-- Park command i on ticket t, when it is active (R206, R240). -/
def parkCmd (s : State) (i : Option Nat) (t : Nat) : State :=
  match i.bind (findCmd s) with
  | some d => if d.state = 1 then putCmd s { d with state := 2, park := some t } else s
  | none => s

/-- ENGINE_RESUME: the ticket is reached; a refused one fails the command (R241). -/
def resumeCmd (s : State) (i : Nat) : State :=
  match findCmd s i with
  | none => s
  | some d => match d.park with
      | none => s
      | some t =>
        if reached (readWord s (wakeCtr d.g)) (w64 t) = false then s else
        let c := getCore s d.g
        let e := { d with park := none }
        if c.refused.contains t then failCmd (setCore s d.g { c with refused := c.refused.filter (· != t) }) e 1
        else putCmd s { e with state := 1, done := if cmdKind d = 4 ∨ (cmdKind d = 5 ∧ d.phase = false) then 0 else d.done }

/-- ENGINE_COMMAND_RETIRE: the completion add, then the SEQ add (R207). -/
def retireCmd (s : State) (i : Nat) : State :=
  match findCmd s i with
  | none => s
  | some d =>
    if d.state ≠ 3 ∧ d.state ≠ 4 then s else
    let s1 := addAt s (clusterLoc (cmdCluster d) (cmdCtr d)) (w64 (cmdInc d + if d.state = 4 then 2 ^ 48 else 0)) (cmdAdder d)
    let s2 := addAt s1 (d.header + 8) 1 (cmdAdder d)
    countRcvd { s2 with cmds := s2.cmds.filter fun e => e.id != i } d

end Sys2Proof.Machine
end

