-- ==== Sys2Proof/Machine/FrameOps.lean ====
section
/-!
DEFINITION. The frame instructions (R256-R274): checks, the token store, pushing, joining, returning, appending.
-/
namespace Sys2Proof.Machine

/-- Stack fault n (R265). -/
def stackFault {α : Type} (n : Nat) : M α := do
  let f ← theFib
  fail 0x0C (w64 (n + f.fp.toNat * 256))

/-- The checks that a frame instruction begins with (R267): location of the frame area of `%ctx`. -/
def needContext : M Nat := do
  let s ← get
  if handleReason s s.fib.ctx (· == 3) (fun _ => true) ≠ 0 then stackFault 7
  else match pinnedAt s s.fib.ctx with
    | some b => pure b
    | none => stackFault 7

/-- `%taddr` of cause 0x10 at offset o of an object: 0x20 frame area, 0x21 KV object, 0x22 lane object (R267). -/
def objAddr (code o : Nat) : Word := w64 (code * 2 ^ 56 + o % 2 ^ 56)

/-- Record n of the frame area is read: a poisoned word of it traps (R267). -/
def readRecordOf (b n : Nat) : M Unit := do
  change fun t => correctRead t (frameLoc b n) 128
  let s ← get
  match toxicIn s (frameLoc b n) 128 with
  | some i => fail 0x10 (objAddr 0x20 (128 * n + i))
  | none => pure ()

def readRecords (b : Nat) : List Nat → M Unit
  | [] => pure ()
  | n :: r => do
    readRecordOf b n
    readRecords b r

/-- Record n is that of a live frame. -/
def liveFrame (b n : Nat) : M Bool := do
  if n = 0 ∨ n > 127 then pure false
  else
    readRecordOf b n
    let s ← get
    pure (frLive s b n)

/-- The current frame; an empty stack raises stack fault 4. -/
def topFrame (b : Nat) : M Nat := do
  let f ← theFib
  if f.fdepth = 0 then stackFault 4
  else
    readRecordOf b f.fp.toNat
    pure f.fp.toNat

/-- A hold on frame n (R257), and fields of its record. -/
def holdFrame (b n : Nat) : M Unit := change fun s => takeHold s b n (selfAdder s)
/-- Release a hold on frame n; the records that this reads and frees must be free of poison first (R259, R267). -/
def dropFrame (b n : Nat) : M Unit := do
  let s ← get
  readRecords b (releaseReads (selfAdder s) b 1024 [n] s)
  change fun t => releaseHold t b n (selfAdder t)
def setField (b n off len v : Nat) : M Unit := change fun s => storeAt s (frameLoc b n + off) (bytesOf len v) (selfAdder s)
def setTop (n depth : Nat) : M Unit := modFib fun f => { f with fp := BitVec.ofNat 7 n, fdepth := BitVec.ofNat 6 depth }

/-! ## The token store (R251) -/

/-- A KV or lane object as a frame's handle names it. -/
structure Tokens where
  code  : Nat
  base  : Nat
  slots : Nat

/-- G, and the offsets of the tag, the key and element d of the value of a slot. -/
def tagBytes (slots : Nat) : Nat := 65536 * ceilDiv (8 * slots) 65536
def keyOffset (slots s : Nat) : Nat := tagBytes slots + 4096 * (s / 16) + 128 * (s % 16)
def valueOffset (slots s d : Nat) : Nat := tagBytes slots + 4096 * (s / 16) + 2048 + 32 * d + 2 * (s % 16)

/-- KVH for slots below n, and LANEH: a handle that fails its check raises stack fault 7. -/
def kvTokens (h : Word) (n : Nat) : M Tokens := do
  let s ← get
  if handleReason s h (· == 1) (fun b => n ≤ b) ≠ 0 then stackFault 7
  else pure ⟨0x21, handleCur s h, bitsOf h 0 24⟩
def laneTokens (h : Word) (n : Nat) : M Tokens := do
  let s ← get
  if handleReason s h (· == 2) (fun b => 64 * n ≤ b * 65536) ≠ 0 then stackFault 7
  else pure ⟨0x22, handleCur s h, bitsOf h 0 24⟩

/-- Bytes of an object at one location, as the home reads them at the serialiser (R262), after what its cluster's port holds (R118). -/
def tokenSpan (x : Tokens) (o a n : Nat) : M (List Byte) := do
  needPath a
  let s ← get
  if isDpa a && !backed s a then failUnbacked (objAddr x.code o)
  else
    needLink a (objAddr x.code o)
    match toxicIn s a n with
    | some i => fail 0x10 (objAddr x.code ((o + i) / 8 * 8))
    | none =>
      if isFar a then farLoad a n
      else if isSw a then
        let r := swBytes s (a - Config.swBase) n
        set r.2
        pure r.1
      else
        change fun t => correctRead t a n
        pure (readBytes s a n)

def tokenSpans (x : Tokens) : Nat → List (Nat × Nat) → M (List Byte)
  | _, [] => pure []
  | o, (a, n) :: r => do
    let b ← tokenSpan x o a n
    let bs ← tokenSpans x (o + n) r
    pure (b ++ bs)

/-- Read n bytes at offset o of an object. -/
def tokenRead (x : Tokens) (o n : Nat) : M (List Byte) := do
  let l ← translate (x.base + o) n (w64 o) accLoad
  tokenSpans x o l

def tokenStores (x : Tokens) : Nat → List (Nat × Nat) → List Byte → M Unit
  | _, [], _ => pure ()
  | o, (a, n) :: r, bs => do
    needPath a
    let s ← get
    if isDpa a && !backed s a then failUnbacked (objAddr x.code o)
    else
      changeOrWait fun t => landStore t a (bs.take n) (selfAdder t) false
      tokenStores x (o + n) r (bs.drop n)

def tokenWrite (x : Tokens) (o : Nat) (bs : List Byte) : M Unit := do
  let l ← translate (x.base + o) bs.length (w64 o) accStore
  tokenStores x o l bs

/-- The 64 elements of a value. -/
def readValue (x : Tokens) (s : Nat) : List Nat → M (List (List Byte))
  | [] => pure []
  | d :: r => do
    let b ← tokenRead x (valueOffset x.slots s d) 2
    let bs ← readValue x s r
    pure (b :: bs)
def writeValue (x : Tokens) (s : Nat) : Nat → List (List Byte) → M Unit
  | _, [] => pure ()
  | d, b :: r => do
    tokenWrite x (valueOffset x.slots s d) b
    writeValue x s (d + 1) r

/-- Bytes in pairs, an element each. -/
def pairsOf : List Byte → List (List Byte)
  | a :: b :: r => [a, b] :: pairsOf r
  | _ => []

/-- Tag of a slot. -/
def tagWord (token pos : Nat) : List Byte := bytesOf 8 (2 ^ 63 + token * 2 ^ 32 + pos)

/-- The 128 bytes of a register pair: 64 elements in the order of R175. -/
def rdPair (k : Fin 15) : M (List Byte) := do
  let lo ← rdV (Fin.castLE (by omega) k)
  let hi ← rdV ⟨k.val + 1, by omega⟩
  pure (laneBytes lo ++ laneBytes hi)

/-! ## fpush (R258, R268) -/

def capRound (cap : Nat) : Nat := ceilDiv cap 16 * 16
/-- Slots that the live frames occupy: first and length. -/
def liveSlots (s : State) (b : Nat) : List (Nat × Nat) :=
  (((List.range 127).map (· + 1)).filter fun n => frLive s b n).map fun n => (frSlot0 s b n, capRound (frCap s b n))
def clearOf (l : List (Nat × Nat)) (a n : Nat) : Bool := l.all fun e => e.2 == 0 || a + n ≤ e.1 || e.1 + e.2 ≤ a
/-- The lowest slot range of R258: it begins at 0 or where a live frame ends. -/
def slotChoice (l : List (Nat × Nat)) (n slots : Nat) : Option Nat :=
  ((0 :: l.map fun e => capRound (e.1 + e.2)).filter fun a => clearOf l a n && a + n ≤ slots).foldl (fun r a => match r with
    | some b => some (min a b)
    | none => some a) none
def freeFrame (s : State) (b : Nat) : Option Nat := (leastBelow 127 fun i => !frLive s b (i + 1)).map (· + 1)

/-- Record of a pushed frame. -/
def frameBytes (parent flags depth first cap mark slot : Nat) (kvh laneh : Word) (owner : Nat) : List Byte :=
  bytesOf 1 parent ++ bytesOf 1 1 ++ bytesOf 1 flags ++ bytesOf 1 depth ++ bytesOf 4 first ++ bytesOf 4 0 ++ bytesOf 4 cap ++ bytesOf 4 mark
    ++ bytesOf 4 slot ++ bytesOf 8 kvh.toNat ++ bytesOf 8 laneh.toNat ++ bytesOf 8 1 ++ bytesOf 8 0 ++ bytesOf 4 owner ++ List.replicate 68 0

def pushForm (spec : Bool) (d : SReg) (b : SrcB) : M Unit := do
  let area ← needContext
  let cap ← rdB b
  let f ← theFib
  if f.fdepth = 0 then stackFault 4
  else if f.fdepth ≥ f.fdlimit then stackFault 1
  else if cap.toNat = 0 ∨ cap.toNat ≥ 2 ^ 24 then stackFault 3
  else
    let p := f.fp.toNat
    readRecordOf area p
    readRecords area (List.range 128)
    let s ← get
    let kvh := hdKvh s area
    let laneh := hdLaneh s area
    match freeFrame s area, slotChoice (liveSlots s area) (capRound cap.toNat) (bitsOf kvh 0 24) with
    | some n, some slot =>
      let first := frFirst s area p + frLen s area p
      if first ≥ 2 ^ 24 then stackFault 2
      else
        let _ ← kvTokens kvh 0
        let _ ← if laneh = 0 then pure ⟨0, 0, 0⟩ else laneTokens laneh 0
        change fun t => storeAt t (frameLoc area n) (frameBytes p (if spec then 1 else 0) (f.fdepth.toNat + 1) first cap.toNat
          (frLen s area p) slot kvh laneh f.fibre.toNat) (selfAdder t)
        holdFrame area p
        setTop n (f.fdepth.toNat + 1)
        result d (w64 n)
    | _, _ => stackFault 3

/-- `fpush` (R268). -/
def execFpush (d : SReg) (b : SrcB) (s : State) : Host.Outcome State Fault Refusal := performSeq (pushForm false d b) s
/-- `fpush.spec` (R268). -/
def execFpushSpec (d : SReg) (b : SrcB) (s : State) : Host.Outcome State Fault Refusal := performSeq (pushForm true d b) s

/-! ## Joining and keeping (R269), spans (R270), fields (R271) -/

/-- `fshare.j`. -/
def execFshareJ (a : SReg) (s : State) : Host.Outcome State Fault Refusal :=
  performSeq (do
    let area ← needContext
    let x ← rd a
    readRecordOf area 0
    let f ← theFib
    let t ← get
    let n := if x = 0 then hdRoot t area else x.toNat
    if ← liveFrame area n then
      if frParent t area n ≠ f.fp.toNat then stackFault 4
      else if f.fdepth ≥ f.fdlimit then stackFault 1
      else
        holdFrame area n
        if n ≠ hdRoot t area then setField area n 2 1 (frFlags t area n ||| 2)
        setTop n (f.fdepth.toNat + 1)
    else stackFault 5) s

/-- The frame that a names: `z` names the current one. -/
def namedFrame (f : Fib) (x : Word) : Nat := if x = 0 then f.fp.toNat else x.toNat

/-- `fshare.h`. -/
def execFshareH (a : SReg) (s : State) : Host.Outcome State Fault Refusal :=
  performSeq (do
    let area ← needContext
    let x ← rd a
    let n := namedFrame s.fib x
    if ← liveFrame area n then
      let t ← get
      holdFrame area n
      setField area n 0x3E 2 (frKeep t area n + 1)
    else stackFault 5) s

/-- `frel`. -/
def execFrel (a : SReg) (s : State) : Host.Outcome State Fault Refusal :=
  performSeq (do
    let area ← needContext
    let x ← rd a
    let n := namedFrame s.fib x
    if ← liveFrame area n then
      let t ← get
      if frKeep t area n = 0 then stackFault 5
      else
        setField area n 0x3E 2 (frKeep t area n - 1)
        dropFrame area n
    else stackFault 5) s

/-- `farg` (R270). -/
def execFarg (a : SReg) (b : SrcB) (c : SReg) (s : State) : Host.Outcome State Fault Refusal :=
  performSeq (do
    let area ← needContext
    let x ← rd a
    let start ← rdB b
    let len ← rd c
    let n := namedFrame s.fib x
    let f ← topFrame area
    let t ← get
    let k := frNarg t area f
    if k ≥ 4 then stackFault 3
    else if frLen t area f ≠ 0 ∨ n = f then stackFault 5
    else if ← liveFrame area n then
      if len = 0 ∨ start.toNat + len.toNat > frLen t area n then stackFault 6
      else
        setField area f (0x40 + 8 * k) 8 (n + start.toNat * 2 ^ 8 + len.toNat * 2 ^ 32)
        setField area f 0x3C 1 (k + 1)
        holdFrame area n
    else stackFault 5) s

/-- Field of a live frame (R271). -/
def posField (s : State) (b n : Nat) : PosKind → Word
  | .next => w64 (frFirst s b n + frLen s b n)
  | .len => w64 (frLen s b n)
  | .first => w64 (frFirst s b n)
  | .cap => w64 (frCap s b n)
  | .mark => w64 (frMark s b n)
  | .parent => w64 (frParent s b n)
  | .holds => frHolds s b n - frRels s b n
  | .info => w64 (1 + frFlags s b n * 2 ^ 8 + frDepth s b n * 2 ^ 16 + frNarg s b n * 2 ^ 24 + frKeep s b n * 2 ^ 32)

/-- `fpos` (R271). -/
def execFpos (k : PosKind) (d a : SReg) (s : State) : Host.Outcome State Fault Refusal :=
  performSeq (do
    let area ← needContext
    let x ← rd a
    let n := namedFrame s.fib x
    if ← liveFrame area n then
      let t ← get
      result d (posField t area n k)
    else result d 0) s

/-! ## kvapp (R272) -/

/-- Translate what token t of a store is made of: its key and value block, its tag (R267, R273). -/
def reachToken (x : Tokens) (kind t : Nat) : M Unit := do
  let _ ← translate (x.base + keyOffset x.slots t) 128 (w64 (keyOffset x.slots t)) kind
  let _ ← translate (x.base + 8 * t) 8 (w64 (8 * t)) kind
def reachRow (x : Tokens) (kind t : Nat) : M Unit := do
  let _ ← translate (x.base + 64 * t) 64 (w64 (64 * t)) kind

/-- The append: `row` is the lane row of `.ln`. -/
def appendToken (area : Nat) (d : SReg) (key value : List Byte) (token : Word) (row : Option (List Byte)) : M Unit := do
  let f ← topFrame area
  let s ← get
  let len := frLen s area f
  let pos := frFirst s area f + len
  if len = frCap s area f then stackFault 3
  else if pos ≥ 2 ^ 24 then stackFault 2
  else if token.toNat ≥ 2 ^ 24 then stackFault 6
  else if row.isSome = true ∧ frLaneh s area f = 0 then stackFault 7
  else
    let slot := frSlot0 s area f + len
    let kv ← kvTokens (frKvh s area f) (slot + 1)
    match row with
    | some r => do
      let ln ← laneTokens (frLaneh s area f) (slot + 1)
      reachRow ln accStore slot
      reachToken kv accStore slot
      tokenWrite ln (64 * slot) r
    | none => reachToken kv accStore slot
    tokenWrite kv (keyOffset kv.slots slot) key
    writeValue kv slot 0 (pairsOf value)
    tokenWrite kv (8 * slot) (tagWord token.toNat pos)
    setField area f 8 4 (len + 1)
    result d (w64 pos)

/-- `kvapp`. -/
def execKvapp (d : SReg) (a b : Fin 15) (c : SReg) (s : State) : Host.Outcome State Fault Refusal :=
  performSeq (do
    let area ← needContext
    let key ← rdPair a
    let value ← rdPair b
    let token ← rd c
    appendToken area d key value token none) s

/-- `kvapp.ln`. -/
def execKvappLn (d : SReg) (a b : Fin 15) (c : SReg) (ln : Fin 16) (s : State) : Host.Outcome State Fault Refusal :=
  performSeq (do
    let area ← needContext
    let key ← rdPair a
    let value ← rdPair b
    let token ← rd c
    let row ← rdV ln
    appendToken area d key value token (some (laneBytes row))) s

/-! ## fret (R273, R274) -/

/-- Tokens from slot t of one store to slot u of another, positions from pos, with their lane rows where both frames have them. -/
def moveTokens (src dst : Tokens) (lanes : Option (Tokens × Tokens)) : Nat → Nat → Nat → Nat → M Unit
  | 0, _, _, _ => pure ()
  | n + 1, t, u, pos => do
    let key ← tokenRead src (keyOffset src.slots t) 128
    let value ← readValue src t (List.range 64)
    let tag ← tokenRead src (8 * t) 8
    tokenWrite dst (keyOffset dst.slots u) key
    writeValue dst u 0 value
    match lanes with
    | some (x, y) => do
      let r ← tokenRead x (64 * t) 64
      tokenWrite y (64 * u) r
    | none => pure ()
    tokenWrite dst (8 * u) (tagWord (natOf tag / 2 ^ 32 % 2 ^ 24) pos)
    moveTokens src dst lanes n (t + 1) (u + 1) (pos + 1)

/-- Every page of the tokens to be read and written is translated before the first is moved (R273). -/
def reachTokens (src dst : Tokens) (lanes : Option (Tokens × Tokens)) : Nat → Nat → Nat → M Unit
  | 0, _, _ => pure ()
  | n + 1, t, u => do
    reachToken src accLoad t
    reachToken dst accStore u
    match lanes with
    | some (x, y) => do
      reachRow x accLoad t
      reachRow y accStore u
    | none => pure ()
    reachTokens src dst lanes n (t + 1) (u + 1)

/-- The lane objects of both frames, when both have one. -/
def lanePieces (hc hp : Word) (n m : Nat) : M (Option (Tokens × Tokens)) := do
  if hc = 0 ∨ hp = 0 then pure none
  else
    let x ← laneTokens hc n
    let y ← laneTokens hp m
    pure (some (x, y))

/-- `fret`. -/
def execFret (d a : SReg) (b : SrcB) (s : State) : Host.Outcome State Fault Refusal :=
  performSeq (do
    let area ← needContext
    let start ← rd a
    let n ← rdB b
    let f ← theFib
    if f.fdepth.toNat < 2 then stackFault 4
    else
      let c := f.fp.toNat
      readRecordOf area c
      let t ← get
      let p := frParent t area c
      readRecordOf area p
      let len := frLen t area p
      let k := n.toNat
      if k > 1024 ∨ start.toNat + k > frLen t area c then stackFault 6
      else if len + k > frCap t area p then stackFault 3
      else if k > 0 ∧ frFirst t area p + len + k > 2 ^ 24 then stackFault 2
      else
        let from_ := frSlot0 t area c + start.toNat
        let to_ := frSlot0 t area p + len
        if k ≠ 0 then
          let src ← kvTokens (frKvh t area c) (from_ + k)
          let dst ← kvTokens (frKvh t area p) (to_ + k)
          let lanes ← lanePieces (frLaneh t area c) (frLaneh t area p) (from_ + k) (to_ + k)
          reachTokens src dst lanes k from_ to_
          moveTokens src dst lanes k from_ to_ (frFirst t area p + len)
        setField area p 8 4 (len + k)
        dropFrame area c
        setTop p (f.fdepth.toNat - 1)
        result d (w64 (len + k))) s

end Sys2Proof.Machine
end

