-- ==== Sys2Proof/Machine/Special.lean ====
section
/-!
DEFINITION. The special registers (R63-R66, R77, R134, R185, R188, R309): reading and writing each, under its access code (R8).
-/
namespace Sys2Proof.Machine

/-! ## Groups -/

/-- Kernel of the fibre in focus. -/
def myKern (s : State) : Option Nat := (fibreInfo s s.focus.1 (fibIndex s.fib)).bind (·.kern)
/-- The group to which the fibre in focus belongs (R308). -/
def myGroup (s : State) : Option Group := (myKern s).bind fun k => groupOf s s.focus.1 k s.fib.stage.toNat
def rankOf (r : Group) (g : Nat) : Nat := r.members.findIdx (· == g)
def shareOf (s : State) (r : Group) : Nat × Nat := nth r.shares (rankOf r s.focus.1) (0, 0)

/-- A register of R309; 0 for a fibre of no group (R310). -/
def groupReg (s : State) (f : Group → Nat) : Word := match myGroup s with
  | some r => w64 (f r)
  | none => 0

/-! ## Shapes and claims -/

/-- A shape value that R188 admits. -/
def shapeOk (v : Nat) : Bool :=
  let kind := v / 2 ^ 11 % 16
  let fmt := v / 2 ^ 8 % 8
  let rows := v / 8 % 8
  let cols := v % 8
  v < 2 ^ 15 && kind ≤ 8 && v / 64 % 4 == 0 && fmt ≤ 3 && (fmt == 0 || kind == 1 || kind == 2 || kind == 7) && (kind != 7 || fmt == 0 || fmt == 3)
    && (cols == 7 || !(kind == 1 || kind == 3 || kind == 7)) && (rows == 7 || !(kind == 2 || kind == 4))
    && (kind != 8 || (rows == 7 && cols == 7)) && (kind != 0 || v == 0)

/-- `%taddr` of cause 0x09 (R187). -/
def tileAddr (reason code : Nat) : Word := w64 (reason * 256 + code)

def hasTile (f : Fib) (k : Fin 32) : Bool := f.tclaim.getLsbD k.val
def hasAcc (f : Fib) (n : Fin 8) : Bool := f.aclaim.getLsbD n.val

/-- Zero the tiles of a mask of the fibre in focus: contents, shapes, poison. -/
def clearTiles (s : State) (mask : Nat) : State :=
  let g := s.focus.1
  let on := fun k : Nat => mask / 2 ^ k % 2 == 1
  let c := getCore s g
  setCore { s with fib := { s.fib with tshape := vecOf fun k => if on k.val then 0 else s.fib.tshape[k]
                                       poison := s.fib.poison.filter fun p => !(0x100 ≤ p && p < 0x120 && on (p - 0x100))
                                       flips := s.fib.flips.filter fun p => !(0x100 ≤ p && p < 0x120 && on (p - 0x100)) } } g
    { c with tiles := vecOf fun k => if on k.val then 0 else c.tiles[k] }

def clearAccs (s : State) (mask : Nat) : State :=
  let g := s.focus.1
  let on := fun n : Nat => mask / 2 ^ n % 2 == 1
  let c := getCore s g
  setCore { s with fib := { s.fib with poison := s.fib.poison.filter fun p => !(0x200 ≤ p && p < 0x208 && on (p - 0x200))
                                       flips := s.fib.flips.filter fun p => !(0x200 ≤ p && p < 0x208 && on (p - 0x200)) } } g
    { c with accs := vecOf fun n => if on n.val then Vector.replicate 64 0 else c.accs[n] }

/-- Write `%tclaim` (R185). -/
def writeTclaim (v : Word) : M Unit := do
  let s ← get
  let old := s.fib.tclaim.toNat
  let mask := v.toNat % 2 ^ 32
  let new := mask &&& (old ^^^ (2 ^ 32 - 1))
  let gone := old &&& (mask ^^^ (2 ^ 32 - 1))
  let busy := (claimsBut s s.focus.1 s.focus.2).1
  match leastBelow 32 fun k => (new &&& busy) / 2 ^ k % 2 == 1 with
  | some k => fail 9 (tileAddr 2 k)
  | none =>
    change fun t => clearTiles t (new ||| gone)
    modFib fun f => { f with tclaim := BitVec.ofNat 32 mask }

/-- Write `%aclaim` with its SAT bits (R185). -/
def writeAclaim (v : Word) : M Unit := do
  let s ← get
  let old := s.fib.aclaim.toNat
  let mask := v.toNat % 2 ^ 8
  let new := mask &&& (old ^^^ 255)
  let gone := old &&& (mask ^^^ 255)
  let busy := (claimsBut s s.focus.1 s.focus.2).2
  match leastBelow 8 fun n => (new &&& busy) / 2 ^ n % 2 == 1 with
  | some n => fail 9 (tileAddr 2 (0x40 + n))
  | none =>
    change fun t => clearAccs t (new ||| gone)
    modFib fun f => { f with aclaim := BitVec.ofNat 8 mask, sat := BitVec.ofNat 8 (v.toNat / 256 &&& mask) }

/-- Write a shape register: the claim, then the value (R187, R188). -/
def writeShape (k : Fin 32) (v : Nat) : M Unit := do
  let f ← theFib
  if hasTile f k = false then fail 9 (tileAddr 1 k.val)
  else if shapeOk v = false then fail 9 (tileAddr 5 k.val)
  else modFib fun x => { x with tshape := x.tshape.set k (BitVec.ofNat 15 v) }

/-! ## Streams that a segment carries -/

/-- The register of position p, `v` or `s`, is ordinary and reads zero (R93). -/
def zeroStreamReg (f : Fib) (isV : Bool) (p : Fin 4) : Fib :=
  let n : Fin 16 := ⟨12 + p.val, by omega⟩
  if isV then { cleanReg f (0x2C + p.val) with v := f.v.set n (Vector.replicate 16 0) }
  else { cleanReg f (0x1C + p.val) with s := f.s.set n 0 }

/-- Disarm a position (R93): its register is ordinary again and reads zero. -/
def disarm (f : Fib) (p : Fin 4) : Fib :=
  let r := f.streams[p]
  if r.armed = false then f else zeroStreamReg { f with streams := f.streams.set p {} } r.isV p

/-- What `sdis` does to position p: after it the register that it names reads zero, armed before or not (R93; DEDUCED, log 51). -/
def disarmNamed (f : Fib) (c : StreamReg) : Fib := zeroStreamReg (disarm f c.p) c.isV c.p

/-- Disarm every stream that uses segment k as data or pattern segment (R87). -/
def disarmSeg (f : Fib) (k : Fin 8) : Fib :=
  (List.finRange 4).foldl (fun x p => if x.streams[p].dseg = k ∨ x.streams[p].pseg = k then disarm x p else x) f

def setSeg (k : Fin 8) (u : Seg → Seg) : M Unit := modFib fun f => disarmSeg { f with seg := f.seg.set k (u f.seg[k]) } k

/-! ## Access -/

/-- Access code: read only (RO), steward write (SW), or RW. -/
inductive CsrAccess where
  | ro | sw | rw
deriving DecidableEq, Repr

def csrAccess : Csr → CsrAccess
  | .fibre | .slot | .core | .clu | .die | .stage | .speed | .cyc | .tenant | .queue | .mode | .gsize | .grank | .sstart | .scount | .geom
  | .fp | .fdepth => .ro
  | .budget | .segBase _ | .segLimit _ | .segRights _ | .ctx | .fdlimit | .tcause | .tpc | .taddr | .tstep => .sw
  | .tshape _ | .tclaim | .aclaim | .rope | .tvec => .rw

/-- The value at issue. -/
def csrRead (s : State) : Csr → Word
  | .fibre => s.fib.fibre.zeroExtend 64
  | .slot => w64 s.focus.2.val
  | .core => w64 (s.focus.1 % 192)
  | .clu => w64 (clusterOf s.focus.1 % 112)
  | .die => w64 (dieOf s.focus.1)
  | .stage => s.fib.stage.zeroExtend 64
  | .speed => w64 (speedOf s s.focus.1).toNat
  | .cyc => w64 (cycOf s s.focus.1)
  | .budget => s.fib.budget.zeroExtend 64
  | .tenant => s.fib.tenant.zeroExtend 64
  | .queue => s.fib.queue.zeroExtend 64
  | .mode => boolWord s.fib.steward
  | .gsize => groupReg s fun r => r.members.length
  | .grank => groupReg s fun r => rankOf r s.focus.1
  | .sstart => groupReg s fun r => (shareOf s r).1
  | .scount => groupReg s fun r => (shareOf s r).2
  | .geom => groupReg s fun r => r.m * 4096 + r.n
  | .segBase k => s.fib.seg[k].base
  | .segLimit k => s.fib.seg[k].limit.zeroExtend 64
  | .segRights k => w64 (s.fib.seg[k].cls.toNat * 2 ^ 14 + s.fib.seg[k].rights.toNat)
  | .tshape k => if hasTile s.fib k then s.fib.tshape[k].zeroExtend 64 else 0
  | .tclaim => s.fib.tclaim.zeroExtend 64
  | .aclaim => w64 (s.fib.sat.toNat * 256 + s.fib.aclaim.toNat)
  | .ctx => s.fib.ctx
  | .fp => s.fib.fp.zeroExtend 64
  | .fdepth => s.fib.fdepth.zeroExtend 64
  | .fdlimit => s.fib.fdlimit.zeroExtend 64
  | .rope => s.fib.rope
  | .tcause => s.fib.tcause.zeroExtend 64
  | .tpc => s.fib.tpc
  | .taddr => s.fib.taddr
  | .tvec => s.fib.tvec
  | .tstep => w64 (s.fib.hstep.toNat * 256 + s.fib.step.toNat)

/-- `%rope` without its reserved bits (R7, R264). -/
def ropeWord (v : Word) : Word := v &&& 0xE000FFFFFFFFFFFF

/-- The write itself; a register that is RO ignores it. -/
def csrStore (c : Csr) (v : Word) : M Unit := match c with
  | .budget => modFib fun f => { f with budget := v.setWidth 48, due := false }
  | .segBase k => setSeg k fun g => { g with base := v }
  | .segLimit k => setSeg k fun g => { g with limit := v.setWidth 48 }
  | .segRights k => setSeg k fun g => { g with cls := BitVec.ofNat 2 (bitsOf v 14 2), rights := v.setWidth 5 }
  | .tshape k => writeShape k v.toNat
  | .tclaim => writeTclaim v
  | .aclaim => writeAclaim v
  | .ctx => modFib fun f => { f with ctx := v }
  | .fdlimit => modFib fun f => { f with fdlimit := v.setWidth 6 }
  | .rope => modFib fun f => { f with rope := ropeWord v }
  | .tcause => modFib fun f => { f with tcause := v.setWidth 8 }
  | .tpc => modFib fun f => { f with tpc := v }
  | .taddr => modFib fun f => { f with taddr := v }
  | .tvec => modFib fun f => { f with tvec := v }
  | .tstep => modFib fun f => { f with step := v.setWidth 8, hstep := BitVec.ofNat 8 (bitsOf v 8 8) }
  | _ => pure ()

/-- The access check of a write (R8): cause 0x05 with the CSR number. -/
def mayWrite (c : Csr) : M Unit := do
  let f ← theFib
  if f.steward = false ∧ csrAccess c ≠ .rw then fail 5 (w64 c.code) else pure ()

/-- `csrr` (R63). -/
def execCsrr (d : SReg) (c : Csr) (s : State) : Host.Outcome State Fault Refusal :=
  performSeq (do
    let t ← get
    result d (csrRead t c)) s

/-- `csrw` (R63). -/
def execCsrw (c : Csr) (a : SReg) (s : State) : Host.Outcome State Fault Refusal :=
  performSeq (do
    mayWrite c
    let v ← rd a
    csrStore c v) s

/-- `csrx` (R63). -/
def execCsrx (d a : SReg) (c : Csr) (s : State) : Host.Outcome State Fault Refusal :=
  performSeq (do
    mayWrite c
    let t ← get
    let v ← rd a
    csrStore c v
    result d (csrRead t c)) s

end Sys2Proof.Machine
end

