-- ==== Sys2Proof/Machine/Tiles.lean ====
section
/-!
DEFINITION. Tile registers: checks (R190), setting, moving, loading and storing tiles (R189, R192, R193).
-/
namespace Sys2Proof.Machine

/-! ## Contents -/

/-- The n bytes of a tile from byte o as a number. -/
def tileNat (t : Tile) (o n : Nat) : Nat := t.toNat / 2 ^ (8 * o) % 2 ^ (8 * n)
/-- The tile with the len bits from bit lo replaced. -/
def tilePut (t : Tile) (lo len v : Nat) : Tile :=
  BitVec.ofNat 4096 (t.toNat - t.toNat / 2 ^ lo % 2 ^ len * 2 ^ lo + v % 2 ^ len * 2 ^ lo)
/-- Element (i, j) of an `i32` or `f32` tile. -/
def tileElem (t : Tile) (i j : Nat) : Lane := BitVec.ofNat 32 (tileNat t (32 * i + 4 * j) 4)
/-- A tile of 64 elements, bytes 256 to 511 zero. -/
def tileFrom (f : Nat → Nat → Lane) : Tile :=
  BitVec.ofNat 4096 (natOf ((List.range 8).flatMap fun i => (List.range 8).flatMap fun j => bytesOf 4 (f i j).toNat))

def shKind (v : BitVec 15) : Nat := v.toNat / 2 ^ 11
def shFmt (v : BitVec 15) : Nat := v.toNat / 2 ^ 8 % 8
def shRows (v : BitVec 15) : Nat := v.toNat / 8 % 8
def shCols (v : BitVec 15) : Nat := v.toNat % 8

/-- Lines of a shape (R189): how many are valid, the tile offset of the next, the length of one. A kind that R188 does not name, which only a
record can hold, has none. DESIGN CHOICE (log 95). -/
def tileLines (v : BitVec 15) : Nat × Nat × Nat := match shKind v with
  | 1 | 3 => (shRows v + 1, 48, 48)
  | 2 | 4 => (shCols v + 1, 48, 48)
  | 5 | 6 => (shRows v + 1, 32, 4 * (shCols v + 1))
  | 7 => (shRows v + 1, 24, if shFmt v = 0 then 24 else 12)
  | 8 => (1, 0, 16)
  | _ => (0, 0, 0)

/-! ## Checks (R190) -/

def needTile (k : Fin 32) : M Unit := do
  let f ← theFib
  if hasTile f k then pure () else fail 9 (tileAddr 1 k.val)
def needAcc (n : Fin 8) : M Unit := do
  let f ← theFib
  if hasAcc f n then pure () else fail 9 (tileAddr 1 (0x40 + n.val))
/-- The tile's shape passes p; else reason 3. -/
def needShape (k : Fin 32) (p : BitVec 15 → Bool) : M Unit := do
  let f ← theFib
  if p f.tshape[k] then pure () else fail 9 (tileAddr 3 k.val)
def isKind (kind : Nat) (v : BitVec 15) : Bool := shKind v == kind

/-- Read a tile, an accumulator: poison traps (R144). -/
def rdTile (k : Fin 32) : M Tile := do
  seeReg (0x100 + k.val) (w64 (2 ^ 62 + k.val))
  let s ← get
  pure (getCore s s.focus.1).tiles[k]
def rdAcc (n : Fin 8) : M Acc := do
  seeReg (0x200 + n.val) (w64 (2 ^ 62 + 0x100 + n.val))
  let s ← get
  pure (getCore s s.focus.1).accs[n]

/-- Write a tile, whole or in part; a whole write clears its poison. -/
def wrTile (whole : Bool) (k : Fin 32) (t : Tile) : M Unit := change fun s =>
  let c := getCore s s.focus.1
  setCore { s with fib := if whole then cleanReg s.fib (0x100 + k.val) else s.fib } s.focus.1
    { c with tiles := c.tiles.set k t }
def wrAcc (whole : Bool) (n : Fin 8) (a : Acc) : M Unit := change fun s =>
  let c := getCore s s.focus.1
  setCore { s with fib := if whole then cleanReg s.fib (0x200 + n.val) else s.fib } s.focus.1
    { c with accs := c.accs.set n a }
def wrShape (k : Fin 32) (v : BitVec 15) : M Unit := modFib fun f => { f with tshape := f.tshape.set k v }

/-- The contents of a tile that is not read as an operand. -/
def oldTile (k : Fin 32) : M Tile := fun s => .ok ((getCore s s.focus.1).tiles[k], s)

/-! ## Setting, clearing and moving (R192) -/

/-- `tset` with an immediate. -/
def execTset (d : Fin 32) (shape : BitVec 15) (s : State) : Host.Outcome State Fault Refusal := performSeq (writeShape d shape.toNat) s

/-- `tset` with a register. -/
def execTsetReg (d : Fin 32) (a : SReg) (s : State) : Host.Outcome State Fault Refusal :=
  performSeq (do
    needTile d
    let v ← rd a
    writeShape d (v.toNat % 2 ^ 15)) s

/-- `tz`. -/
def execTz (d : Fin 32) (s : State) : Host.Outcome State Fault Refusal :=
  performSeq (do
    needTile d
    wrTile true d 0) s

/-- `az`. -/
def execAz (n : Fin 8) (s : State) : Host.Outcome State Fault Refusal :=
  performSeq (do
    needAcc n
    wrAcc true n (Vector.replicate 64 0)) s

/-- `tmov`. -/
def execTmov (d a : Fin 32) (s : State) : Host.Outcome State Fault Refusal :=
  performSeq (do
    needTile d
    needTile a
    let t ← rdTile a
    let f ← theFib
    wrTile true d t
    wrShape d f.tshape[a]) s

/-- `tmov.tv`. -/
def execTmovTv (d : Fin 32) (v : Fin 16) (k : Fin 8) (s : State) : Host.Outcome State Fault Refusal :=
  performSeq (do
    needTile d
    let x ← rdV v
    let t ← oldTile d
    wrTile false d (tilePut t (512 * k.val) 512 (natOf (laneBytes x)))) s

/-- `tmov.vt`. -/
def execTmovVt (v : Fin 16) (a : Fin 32) (k : Fin 8) (s : State) : Host.Outcome State Fault Refusal :=
  performSeq (do
    needTile a
    let t ← rdTile a
    resultV v (vecOf fun l : Fin 16 => BitVec.ofNat 32 (tileNat t (64 * k.val + 4 * l.val) 4))) s

/-- A shape with ROWS and COLS exchanged. -/
def swapShape (v : BitVec 15) : BitVec 15 := BitVec.ofNat 15 (v.toNat / 64 * 64 + shCols v * 8 + shRows v)

/-- `ttr`. -/
def execTtr (d a : Fin 32) (s : State) : Host.Outcome State Fault Refusal :=
  performSeq (do
    needTile d
    needTile a
    needShape a fun v => isKind 5 v || isKind 6 v
    let t ← rdTile a
    let f ← theFib
    wrTile true d (tileFrom fun i j => tileElem t j i)
    wrShape d (swapShape f.tshape[a])) s

/-! ## Loading and storing (R193) -/

/-- The checks of an access that come before translation: R79, then the handle. -/
def checkOnly (sg : Fin 8) (o : Word) (n align need : Nat) : M Unit := do
  let s ← get
  let seg := s.fib.seg[sg]
  match segFault s seg o n align need with
  | some (c, a) => fail c a
  | none =>
    if seg.cls = 3 then
      let r := handleReason s seg.base (· == 0) fun b => classAddr seg o + n ≤ b * 65536
      if r ≠ 0 then fail 0x0D (handleAddr r o.toNat) else pure ()
    else pure ()

/-- Offsets of the valid lines: o + l * PITCH. -/
def lineOffs (o : Word) (pitch : BitVec 21) (n : Nat) : List Word := (List.range n).map fun l => o + w64 (l * pitch.toNat)

def checkLines (sg : Fin 8) (n align need : Nat) : List Word → M Unit
  | [] => pure ()
  | p :: ps => do
    checkOnly sg p n align need
    checkLines sg n align need ps

/-- Resolve every line: its offset with its locations. -/
def resolveLines (sg : Fin 8) (n align need kind : Nat) : List Word → M (List (Word × List (Nat × Nat)))
  | [] => pure []
  | p :: ps => do
    let l ← resolve sg p n align need kind
    let r ← resolveLines sg n align need kind ps
    pure ((p, l) :: r)

def loadLines : List (Word × List (Nat × Nat)) → M (List (List Byte))
  | [] => pure []
  | (p, l) :: r => do
    let b ← loadAll p false l
    let bs ← loadLines r
    pure (b :: bs)

/-- The lines at their tile offsets, all other bytes zero. -/
def fillTile (step : Nat) : Nat → List (List Byte) → Tile
  | _, [] => 0
  | l, b :: bs => tilePut (fillTile step (l + 1) bs) (8 * step * l) (8 * b.length) (natOf b)

def lineAlign (v : BitVec 15) : Nat := if isKind 5 v || isKind 6 v then 4 else 1

/-- `tld`: the lines are read in one step (R193). DESIGN CHOICE (log 109). -/
def execTld (d : Fin 32) (m : CRef) (pitch : BitVec 21) (s : State) : Host.Outcome State Fault Refusal :=
  performSeq (do
    needTile d
    needShape d (!isKind 0 ·)
    let o ← rdRefRaw m
    let f ← theFib
    let v := f.tshape[d]
    let (n, step, len) := tileLines v
    let offs := lineOffs o pitch n
    checkLines m.sg len (lineAlign v) rightRd offs
    let ls ← resolveLines m.sg len (lineAlign v) rightRd accLoad offs
    needClean m.a
    let bs ← loadLines ls
    wrTile true d (fillTile step 0 bs)) s

/-- Enter the lines of a tile into the store buffer. -/
def storeLines (t : Tile) (step len : Nat) : Nat → List (Word × List (Nat × Nat)) → M Unit
  | _, [] => pure ()
  | l, (p, sp) :: r => do
    storeAll p sp (bytesOf len (tileNat t (step * l) len))
    storeLines t step len (l + 1) r

/-- `tst`. -/
def execTst (m : CRef) (pitch : BitVec 21) (a : Fin 32) (s : State) : Host.Outcome State Fault Refusal :=
  performSeq (do
    needTile a
    needShape a (!isKind 0 ·)
    let o ← rdRefRaw m
    let f ← theFib
    let v := f.tshape[a]
    let (n, step, len) := tileLines v
    let offs := lineOffs o pitch n
    checkLines m.sg len (lineAlign v) rightWr offs
    let ls ← resolveLines m.sg len (lineAlign v) rightWr accStore offs
    needClean m.a
    let t ← rdTile a
    storeLines t step len 0 ls) s

end Sys2Proof.Machine
end

