-- ==== Sys2Proof/Machine/Trig.lean ====
section
/-!
DEFINITION. The exact sums, the exponential, the sine and the cosine of R275 and R278, each correctly rounded.
-/
namespace Sys2Proof.Machine

def isInfOf (neg : Bool) : FVal → Bool
  | .inf s => s == neg
  | _ => false
def signOf : FVal → Bool
  | .nan => false
  | .inf s => s
  | .fin s _ _ => s
def expOf : FVal → Int
  | .fin _ _ e => e
  | _ => 0
def atLow (low : Int) : FVal → Int
  | .fin s m e => atExp s m e low
  | _ => 0

/-- 2^sh times the exact sum of terms, rounded once to nearest even; an exact zero is -0 only when every term is negative. -/
def sumRne (terms : List FVal) (sh : Int) : Lane :=
  if terms.contains .nan || (terms.any (isInfOf true) && terms.any (isInfOf false)) then qnan
  else if terms.any (isInfOf true) then infOf true
  else if terms.any (isInfOf false) then infOf false
  else
    let low := (terms.map expOf).foldl min 0
    roundInt .rne ((terms.map (atLow low)).foldl (· + ·) 0) (low + sh) (terms.all signOf)

def prodF (x y : Lane) : FVal := mulVal (f32Val x) (f32Val y)

/-- e^x for the exact value x = n times 2^e: 1 at 0, elsewhere irrational (R278). -/
def expExact (n : Int) (e : Int) : Lane :=
  if n = 0 then 0x3F800000 else
  let v : Int := if e ≥ -256 then n * 2 ^ (e + 256).toNat else n / 2 ^ (-256 - e).toNat
  if v ≥ 2 ^ 263 then roundMag .rne false 1 200 false
  else if v < -2 ^ 263 then roundMag .rne false 1 (-200) true
  else
    let k := v / ln2Bits
    roundMag .rne false (expSeries (v - k * ln2Bits).toNat 64 1 (2 ^ 256) (2 ^ 256)) (k - 256) true

/-- rnexp of the exact difference of two values (R278): a is finite or minus infinity, b is neither a NaN nor plus infinity. -/
def rnexpDiff (a b : Lane) : Lane := match f32Val a, f32Val b with
  | .fin s m e, .fin t n d => expExact (atExp s m e (min e d) - atExp t n d (min e d)) (min e d)
  | _, _ => 0

/-- Half of pi times 2^400, rounded down. -/
def halfPi : Int := 0x1921fb54442d18469898cc51701b839a252049c1114cf98e804177d4c76273644a29410f31c6809bbdf2a33679a7486366056

/-- The Taylor series of sine (n = 1, term = r) or cosine (n = 0, term = 1) of r over 2^400. -/
def trigSeries (r2 : Int) : Nat → Nat → Int → Int → Int
  | 0, _, _, sum => sum
  | fuel + 1, n, term, sum =>
    let next := -(term * r2 / 2 ^ 400) / ((n + 1) * (n + 2) : Nat)
    trigSeries r2 fuel (n + 2) next (sum + next)

/-- rne32(cos ang) and rne32(sin ang) (R275): the argument is reduced by multiples of half pi. -/
def cosSin (ang : Lane) : Lane × Lane := match f32Val ang with
  | .fin neg m e =>
    if m = 0 then (0x3F800000, ang) else
    let x := atExp neg m e (-400)
    let q := (x + halfPi / 2) / halfPi
    let r := x - q * halfPi
    let r2 := r * r / 2 ^ 400
    let sr := trigSeries r2 50 1 r r
    let cr := trigSeries r2 50 0 (2 ^ 400) (2 ^ 400)
    let out := fun (v : Int) => roundInt .rne v (-400) false
    match (q % 4).toNat with
    | 0 => (out cr, out sr)
    | 1 => (out (-sr), out cr)
    | 2 => (out (-cr), out (-sr))
    | _ => (out sr, out (-cr))
  | _ => (qnan, qnan)

/-- Elements 2i and 2i + 1 turned by ang. -/
def turnPair (x y ang : Lane) : List Lane :=
  let t := cosSin ang
  [sumRne [prodF x t.1, prodF y (negF t.2)] 0, sumRne [prodF x t.2, prodF y t.1] 0]

/-- Rotation of a vector at position p with the frequencies; without any, the vector itself (R275). -/
def rotate (p : Nat) : List Lane → List Lane → List Lane
  | x :: y :: r, f :: fs => turnPair x y (f32Mul .rne (roundMag .rne false p 0 false) f) ++ rotate p r fs
  | l, _ => l

/-- o / l, with l no zero (R279). -/
def divRne (o l : Lane) : Lane := match f32Val o, f32Val l with
  | .nan, _ | _, .nan => qnan
  | .inf _, .inf _ => qnan
  | .inf s, .fin t _ _ => infOf (s != t)
  | .fin s _ _, .inf t => zeroOf (s != t)
  | .fin s m e, .fin t n d => if m = 0 then zeroOf (s != t) else roundMag .rne (s != t) (m * 2 ^ 64 / n) (e - d - 64) (m * 2 ^ 64 % n != 0)

end Sys2Proof.Machine
end

