-- ==== Sys2Proof/Machine/Attention.lean ====
section
/-!
DEFINITION. Attention (R275-R279).
-/
namespace Sys2Proof.Machine

/-! ## The state in an accumulator pair (R276) -/

/-- acN and acN + 1 of operand n. -/
def accLo (n : Fin 4) : Fin 8 := ⟨2 * n.val, by omega⟩
def accHi (n : Fin 4) : Fin 8 := ⟨2 * n.val + 1, by omega⟩

/-- The claims of the pair, then the context (R267). -/
def needAttention (n : Fin 4) : M Nat := do
  needAcc (accLo n)
  needAcc (accHi n)
  needContext

def slotHi (w : Word) : Lane := BitVec.ofNat 32 (w.toNat / 2 ^ 32)
def slotLo (w : Word) : Lane := w.setWidth 32
def slotWord (hi lo : Lane) : Word := w64 (hi.toNat * 2 ^ 32 + lo.toNat)

/-- The run in slot 1: PHASE, LIMIT, INDEX, FRAME. -/
structure Run where
  phase : Nat
  limit : Nat
  index : Nat
  frame : Nat
deriving DecidableEq, Repr

def runFrom (w : Word) : Run := ⟨bitsOf w 56 3, bitsOf w 32 24, bitsOf w 8 24, bitsOf w 0 7⟩
def runWord (r : Run) : Word := w64 (r.phase * 2 ^ 56 + r.limit * 2 ^ 32 + r.index * 2 ^ 8 + r.frame)

def accValid (b : Acc) : Bool := b[2].getLsbD 63
def accRope (b : Acc) : Bool := b[2].getLsbD 55
def accOwn (b : Acc) : Nat := bitsOf b[2] 48 7
def accFreqs (b : Acc) : List Lane := if accRope b then (List.finRange 32).map fun i => slotLo b[(⟨32 + i.val, by omega⟩ : Fin 64)] else []

/-- Read the pair; VALID = 0 traps with reason 3 (R278, R279). -/
def rdState (n : Fin 4) : M (Acc × Acc) := do
  let a ← rdAcc (accLo n)
  let b ← rdAcc (accHi n)
  if accValid b then pure (a, b) else fail 9 (tileAddr 3 (0x40 + 2 * n.val))

/-- The elements of a row of BF16 values, widened. -/
def widenRow (b : List Byte) : List Lane := (pairsOf b).map fun e => fromBf16 (natOf e)

/-! ## atbeg (R277) -/

/-- The frequencies that `%rope` names; none when it is 0 (R275). -/
def readFreqs : M (List Lane) := do
  let f ← theFib
  if f.rope = 0 then pure []
  else
    let b ← loadSeg (Fin.ofNat 8 (bitsOf f.rope 61 3)) (w64 (bitsOf f.rope 0 48)) 128 4 false
    pure ((List.range 32).map fun i => BitVec.ofNat 32 (recNat b (4 * i) 4))

/-- The pair at the start. -/
def beginLo (q : List Lane) : Acc := vecOf fun d : Fin 64 => slotWord (nth q d.val 0) 0
def beginHi (fp len first qp : Nat) (freqs : List Lane) : Acc := vecOf fun i : Fin 64 =>
  if i.val = 0 then slotWord 0 0xFF800000
  else if i.val = 1 then runWord ⟨0, if qp < first then 0 else min len (qp - first + 1), 0, fp⟩
  else if i.val = 2 then w64 (2 ^ 63 + (if freqs.isEmpty then 0 else 2 ^ 55) + fp * 2 ^ 48 + len * 2 ^ 24 + qp)
  else if i.val < 32 then 0
  else slotWord 0 (nth freqs (i.val - 32) 0)

/-- `atbeg`. -/
def execAtbeg (a : Fin 15) (b : SrcB) (n : Fin 4) (s : State) : Host.Outcome State Fault Refusal :=
  performSeq (do
    let area ← needAttention n
    let q ← rdPair a
    let qp ← rdB b
    let f ← topFrame area
    if qp.toNat ≥ 2 ^ 24 then stackFault 2
    else
      let freqs ← readFreqs
      let t ← get
      wrAcc true (accLo n) (beginLo (rotate qp.toNat (widenRow q) freqs))
      wrAcc true (accHi n) (beginHi f (frLen t area f) (frFirst t area f) qp.toNat freqs)) s

/-! ## atstep (R278) -/

/-- One move to the next phase or ancestor; at PHASE 6 INDEX is 0. DESIGN CHOICE (log 100). -/
def nextRun (s : State) (b own : Nat) (r : Run) : Run :=
  if r.phase < 4 then
    let k := r.phase + 1
    if r.phase < frNarg s b own then
      let g := frArg s b own r.phase
      ⟨k, g.2.1 + g.2.2, g.2.1, g.1⟩
    else ⟨k, 0, 0, r.frame⟩
  else
    let done := if r.phase = 4 then own else r.frame
    let up := frParent s b done
    if up = 0 then ⟨6, frMark s b done, 0, 0⟩ else ⟨5, frMark s b done, 0, up⟩

/-- Record that the move reads. -/
def runReads (own : Nat) (r : Run) : Nat := if r.phase ≤ 4 then own else r.frame

/-- Advance until a run holds keys or the phases end. -/
def advanceRun (b own : Nat) : Nat → Run → M Run
  | 0, r => pure r
  | fuel + 1, r =>
    if r.index = r.limit ∧ r.phase < 6 then do
      readRecordOf b (runReads own r)
      let s ← get
      advanceRun b own fuel (nextRun s b own r)
    else pure r

/-- Keys and values of n slots from slot t: each key widened and rotated at its tag position. -/
def readKeys (x : Tokens) (freqs : List Lane) : Nat → Nat → M (List (List Lane × List Lane))
  | 0, _ => pure []
  | n + 1, t => do
    let k ← tokenRead x (keyOffset x.slots t) 128
    let tag ← tokenRead x (8 * t) 8
    let v ← readValue x t (List.range 64)
    let r ← readKeys x freqs n (t + 1)
    pure ((rotate (natOf tag % 2 ^ 24) (widenRow k) freqs, v.map fun e => fromBf16 (natOf e)) :: r)

/-- s_j: an eighth of the exact product sum. -/
def scoreOf (q k : List Lane) : Lane := sumRne (List.zipWith prodF q k) (-3)
def weightOf (x mn : Lane) : Lane := if x = 0xFF800000 then 0 else rnexpDiff x mn

/-- The pair after a run of keys: m, l and o. -/
def foldKeys (q o : List Lane) (m l : Lane) (ks : List (List Lane × List Lane)) : Lane × Lane × List Lane :=
  let ss := ks.map fun k => scoreOf q k.1
  let mn := ss.foldl f32Max m
  if isNan m || ss.any isNan || mn == infOf false then (qnan, qnan, o.map fun _ => qnan)
  else
    let alpha := weightOf m mn
    let ps := ss.map fun x => weightOf x mn
    let l1 := sumRne (prodF alpha l :: ps.map f32Val) 0
    (mn, l1, (List.range 64).map fun d =>
      sumRne (prodF alpha (nth o d 0) :: List.zipWith (fun p (k : List Lane × List Lane) => prodF p (nth k.2 d 0)) ps ks) 0)

/-- Slot 0 of acN + 1, and o in acN, put back. -/
def putSums (a b : Acc) (r : Lane × Lane × List Lane) (run : Run) : Acc × Acc :=
  (vecOf fun d : Fin 64 => slotWord (slotHi a[d]) (nth r.2.2 d.val 0), (b.set 0 (slotWord r.2.1 r.1)).set 1 (runWord run))

/-- `atstep`. -/
def execAtstep (d : SReg) (n : Fin 4) (s : State) : Host.Outcome State Fault Refusal :=
  performSeq (do
    let area ← needAttention n
    let (a, b) ← rdState n
    let run ← advanceRun area (accOwn b) 256 (runFrom b[1])
    if run.phase ≥ 6 then
      wrAcc true (accHi n) (b.set 1 (runWord run))
      result d 0
    else
      let e := min run.limit (16 * (run.index / 16 + 1))
      readRecordOf area run.frame
      let t ← get
      let slot := frSlot0 t area run.frame
      let x ← kvTokens (frKvh t area run.frame) (slot + e)
      let ks ← readKeys x (accFreqs b) (e - run.index) (slot + run.index)
      let q := a.toList.map slotHi
      let r := foldKeys q (a.toList.map slotLo) (slotLo b[0]) (slotHi b[0]) ks
      let p := putSums a b r ⟨run.phase, run.limit, e, run.frame⟩
      wrAcc true (accLo n) p.1
      wrAcc true (accHi n) p.2
      result d (w64 (e - run.index))) s

/-! ## atend (R279) -/

/-- `atend`. -/
def execAtend (d : Fin 15) (n : Fin 4) (h : Fin 2) (s : State) : Host.Outcome State Fault Refusal :=
  performSeq (do
    let _ ← needAttention n
    let (a, b) ← rdState n
    let l := slotHi b[0]
    let out := fun i : Nat => if l.toNat % 2 ^ 31 = 0 then (0 : Lane) else divRne (slotLo a[Fin.ofNat 64 (32 * h.val + i)]) l
    resultV (Fin.castLE (by omega) d) (vecOf fun i : Fin 16 => out i.val)
    resultV ⟨d.val + 1, by omega⟩ (vecOf fun i : Fin 16 => out (16 + i.val))) s

end Sys2Proof.Machine
end

