-- ==== Sys2Proof/Machine/Drains.lean ====
section
/-!
DEFINITION. Phase drains (R349-R352): idle cores, the order in which their idle bits rose, holds and release; and what the device keeps up
to date after every step.
-/
namespace Sys2Proof.Machine

/-- A fibre drains: in its slot or off it; the scope. -/
def drainingIn (s : State) (g : Nat) (e : Nat × FibreInfo) : Option Bool :=
  match slotOfFibre s g e.1 with
  | some k => match (getCtx s g k).status with
      | .sleeping (.drain m) _ => some m
      | _ => none
  | none => e.2.drain

/-- Core g is idle for a drain of kernel k (R349): no store of a fibre of k, freed since or not, is in the buffer, nor on its way to its
serialiser, which it reaches before the core is idle (R351). -/
def drainIdle (s : State) (k g : Nat) : Bool :=
  let c := getCore s g
  let life := (kernOf s k).map (·.admitted)
  let mine := c.fibres.filter fun e => e.2.kern == some k
  mine.all (fun e => e.2.state == .done || (drainingIn s g e).isSome || (e.2.state == .faulted && kernFpol s k))
    && !c.sb.any (fun b => b.writes.any fun w => w.life.isSome && w.life == life)
    && !s.ports.any (fun q => q.core == g && q.life.isSome && q.life == life && !isFar q.loc)
    && !s.cmds.any (fun d => d.g == g && d.kern == some k && (cmdKern s d).isSome) && c.level.isEmpty && (!kernSamp s k || sampQuiet s g)

def drainCores (s : State) (k stage : Nat) : List Nat := match kernOf s k with
  | some x => match x.groups.find? fun r => r.stage == stage with
      | some r => r.members.filter fun g => present s g
      | none => []
  | none => []

/-- Some fibre of the group drains. -/
def anyDrain (s : State) (k stage : Nat) : Bool :=
  (drainCores s k stage).any fun g => (getCore s g).fibres.any fun e => e.2.kern == some k && (drainingIn s g e).isSome

/-- Clusters of a group, or the whole group as one, by scope. -/
def drainSets (s : State) (k stage : Nat) (mod : Bool) : List (List Nat) :=
  let gs := drainCores s k stage
  if mod then [gs] else (gs.map clusterOf).eraseDups.map fun cl => gs.filter fun g => clusterOf g == cl

/-- The idle-AND of some set of participants is true. -/
def idleAnd (s : State) (k : Nat) (gs : List Nat) : Bool := !gs.isEmpty && gs.all fun g => drainIdle s k g

/-- The rises of one group brought up to date: cores idle no longer go, and cores newly idle follow in ascending order. -/
def updateRises (s : State) (k stage : Nat) : State :=
  let key := (k, stage, true)
  let old := (s.rises.filter fun r => r.1 == key).map (·.2)
  let idle := (drainCores s k stage).filter fun g => drainIdle s k g
  let now := (old.filter fun g => idle.contains g) ++ sortBy (· ≤ ·) (idle.filter fun g => !old.contains g)
  { s with rises := (s.rises.filter fun r => r.1 != key) ++ now.map fun g => (key, g)
           holds := s.holds.filter fun h => !(h.1 == k && h.2.1 == stage) || (drainSets s k stage h.2.2).any fun gs => idleAnd s k gs }

/-- The control fibre of kernel k on core g is ready. -/
def controlReady (s : State) (g k : Nat) : Bool := (getCore s g).fibres.any fun e => e.2.role == .control && e.2.kern == some k && e.2.state == .ready

/-- Slot 0 of a core that two kernels share is the queue's of the kernel of priority 0 whenever its control fibre is ready, and else the
other's, once that one's is ready and the slot is free (R305, R325). -/
def shareControl (s : State) (g : Nat) : State :=
  let c := getCore s g
  let give := fun (k : Nat) =>
    let q := BitVec.ofNat 12 (lrecNat s k 0x82 2)
    if c.slots[0].taker.getD c.slots[0].owner = q then s else setCore s g { c with slots := c.slots.set 0 (ownSlot c.slots[0] q) }
  match c.kernels with
  | [a, b] =>
    let top := if (kernOf s a).any (·.prio == 0) then a else b
    let low := if top = a then b else a
    if controlReady s g top then give top
    else if !c.slots[0].bound && controlReady s g low then give low else s
  | _ => s

/-- Adds that core g has posted behind instructions that wait no longer are sent, in order (R96). -/
def sendHeld : Nat → State → Nat → State
  | 0, s, _ => s
  | fuel + 1, s, g =>
    let q := (getCore s g).waitq
    let free := fun (i : Nat) => match q[i]? with
      | some (.add m) => !(q.take i).any fun w => w.meets (.home (homeOf m.loc)) && w.live s g
      | _ => false
    match (List.range q.length).find? free with
    | none => s
    | some i => match q[i]? with
        | some (.add m) => sendHeld fuel { setCore s g { getCore s g with waitq := q.eraseIdx i } with msgs := s.msgs ++ [m] } g
        | _ => s
def sendAllHeld (s : State) : State :=
  s.cores.foldl (fun t c => if c.2.waitq.isEmpty then t else sendHeld c.2.waitq.length t c.1) s

/-- What the device keeps up to date after a step: its releases (R120), the adds that wait their turn (R96), the control slots of shared cores
(R325), the idle bits (R350), and killed kernels (R338). -/
def settle (s0 : State) : State :=
  let s := sendAllHeld (if s0.rels.isEmpty then s0 else runReleases s0)
  if s.kerns.isEmpty then s else
  let t := s.kerns.foldl (fun t x => (kernCores x).foldl shareControl t) s
  finishKilled (t.kerns.foldl (fun t x => x.groups.foldl (fun u r => updateRises u x.id r.stage) t) t)

/-- DRAIN_HOLD_START. -/
def holdStart (s : State) (k stage : Nat) (mod : Bool) : State :=
  if anyDrain s k stage && (drainSets s k stage mod).any (fun gs => idleAnd s k gs) && !s.holds.contains (k, stage, mod) then
    { s with holds := s.holds ++ [(k, stage, mod)] }
  else s

/-- Release the draining fibres of one participant set at a scope: each completes with g (R350, R351). -/
def releaseSet (s : State) (k : Nat) (mod : Bool) (gs : List Nat) (g : Nat) : State :=
  gs.foldl (fun t c => ((getCore t c).fibres.filter fun e => e.2.kern == some k && drainingIn t c e == some mod).foldl
    (fun u e => deliverWake u c e.1 (.value (w64 g))) t) s

/-- A count or a wake is still on its way to a participant: it comes within the hold (R350). -/
def inFlightTo (s : State) (gs : List Nat) : Bool := s.msgs.any (fun m => gs.contains (homeOf m.loc)) || s.wakes.any fun w => gs.contains w.1

/-- DRAIN_RELEASE: the hold completes (R350). -/
def drainRelease (s : State) (k stage : Nat) (mod : Bool) : State :=
  if s.holds.contains (k, stage, mod) && !inFlightTo s (drainCores s k stage) then
    let order := (s.rises.filter fun r => r.1 == (k, stage, true)).map (·.2)
    let s1 := (drainSets s k stage mod).foldl (fun t gs => if idleAnd s k gs then releaseSet t k mod gs ((order.filter fun g => gs.contains g).getLastD 0) else t) s
    { s1 with holds := s1.holds.filter (· != (k, stage, mod)) }
  else s

end Sys2Proof.Machine
end

