-- ==== Sys2Proof/Machine/Pages.lean ====
section
/-!
DEFINITION. The walker's instructions (R236-R244), tickets and the fault queue (R241, R242), and MIG_RETRANSLATE (R240).
-/
namespace Sys2Proof.Machine

/-- The walker instructions execute only in steward mode (R49). -/
def needSteward : M Unit := do
  let f ← theFib
  if f.steward then pure () else fail 5 0
/-- `wmbx`, `wfill` and `wfail` are legal only in slot 15 (R237). -/
def needWalker : M Unit := do
  needSteward
  let k ← theSlot
  if k = 15 then pure () else fail 5 0

/-! ## Invalidation -/

def invalidateM (what : Option (BitVec 12 × Option Nat)) (p : TlbEntry → Bool) : M Unit := changeOrWait fun s => invalidate s what p

/-- `tlbinv.all` (R243, R244). -/
def execTlbinvAll (s : State) : Host.Outcome State Fault Refusal :=
  performSeq (do
    needSteward
    invalidateM none fun _ => true) s

/-- `tlbinv.ten` (R243, R244). -/
def execTlbinvTen (a : SReg) (s : State) : Host.Outcome State Fault Refusal :=
  performSeq (do
    needSteward
    let x ← rd a
    if x.toNat ≥ 4096 then fail 6 x
    else invalidateM (some (x.setWidth 12, none)) fun e => e.tenant == x.setWidth 12) s

/-- `tlbinv.va` (R243, R244). -/
def execTlbinvVa (a b : SReg) (s : State) : Host.Outcome State Fault Refusal :=
  performSeq (do
    needSteward
    let x ← rd a
    let y ← rd b
    if x.toNat ≥ 4096 then fail 6 x
    else if y.toNat ≥ 2 ^ 55 then fail 6 y
    else invalidateM (some (x.setWidth 12, some y.toNat)) fun e => covers e (x.setWidth 12) y) s

/-! ## The mailbox -/

/-- A mailbox entry as `wmbx` delivers it (R235). -/
def missBytes (m : Miss) : List Byte :=
  bytesOf 8 (m.va.toNat % 2 ^ 55 + m.at_ * 2 ^ 60) ++ bytesOf 2 m.tenant.toNat ++ bytesOf 1 m.tag ++ bytesOf 1 m.rq ++ bytesOf 4 m.who
    ++ bytesOf 8 m.code.toNat ++ bytesOf 8 m.epoch

/-- `wmbx` (R238). -/
def execWmbx (d : Fin 12) (s : State) : Host.Outcome State Fault Refusal :=
  performSeq (do
    needWalker
    let t ← get
    let c := getCore t t.focus.1
    match c.mailbox.find? (·.fresh) with
    | none => leaveFor .room
    | some m =>
      change fun u => acquire u u.focus.1 4
      change fun u =>
        let k := getCore u u.focus.1
        setCore u u.focus.1 { k with mailbox := k.mailbox.map fun e => if e.tag == m.tag then { e with fresh := false } else e }
      writeV (Fin.castLE (by omega) d) (lanesOf (missBytes m ++ List.replicate 32 0))) s

/-- The entry with a TAG. -/
def mailEntry (s : State) (tag : Nat) : Option Miss := (getCore s s.focus.1).mailbox.find? fun m => m.tag == tag

def freeEntry (s : State) (g tag : Nat) : State :=
  let c := getCore s g
  setCore s g { c with mailbox := c.mailbox.filter fun m => m.tag != tag }

/-- The leaf lacks a right that the access needs (R239). -/
def leafLacks (l : Word) (kind : Nat) : Bool := (accWrites kind && !leafWr l) || (kind == accFetch && !leafEx l)

/-- A `tlbinv` that covers the entry's VA began after it was posted (R244). -/
def overtaken (s : State) (m : Miss) (blk : Bool) : Bool :=
  s.invs.any fun i => m.epoch < i.1 && match i.2 with
    | none => true
    | some (t, none) => t == m.tenant
    | some (t, some va) => t == m.tenant && (if blk then va / 2 ^ 29 == m.va.toNat / 2 ^ 29 else va / 65536 == m.va.toNat / 65536)

/-- I/O die of a host requester. -/
def hostDieOf (m : Miss) : Nat :=
  match m.src with
  | .inbound id _ => linkDie id
  | _ => 0

/-- Install a leaf for the requester, whose access proceeds (R239): a write that the entry would not serve, since its D is 0, is granted the
leaf. -/
def installLeaf (s : State) (g : Nat) (m : Miss) (l : Word) : State :=
  let t := if m.rq = 2 then tlbFill s (.host (hostDieOf m)) m.tenant m.va l
    else tlbFill (tlbFill s (.die (dieOf g)) m.tenant m.va l) (.port (clusterOf g)) m.tenant m.va l
  if leafServes l m.at_ then t else { t with grants := t.grants ++ [{ g := g, miss := { m with tag := 0 }, leaf := l }] }

/-- `wfill` (R239); cause 0x06 of a bad leaf has operand a in `%taddr`. DESIGN CHOICE (log 97). -/
def execWfill (a b : SReg) (s : State) : Host.Outcome State Fault Refusal :=
  performSeq (do
    needWalker
    let x ← rd a
    let l ← rd b
    let t ← get
    let g := t.focus.1
    match if x.toNat < 32 then mailEntry t x.toNat else none with
    | none => fail 6 x
    | some m =>
      if leafV l = false ∨ leafTier l = 3 ∨ leafMig l = true ∨ leafLacks l m.at_ = true then fail 6 x
      else change fun u =>
        let u1 := freeEntry u g m.tag
        if overtaken u m (leafBlk l) then pumpAll u1 else pumpAll (installLeaf u1 g m l)) s

/-! ## Tickets and the fault queue -/

def faultQ (die : Nat) : Nat := swLoc (0x13000000 + 0x40000 * die)

/-- Post a record to the fault queue of a die (R242); none while the queue is full. -/
def postFault (s : State) (g : Nat) (m : Miss) (reason ticket : Nat) (who : Adder) : Option State :=
  let q := faultQ (dieOf g)
  let put := readWord s (q + 0x10)
  if (put - readWord s (q + 8)).toNat ≥ 4096 then none
  else
    let b := missBytes m
    let r := b.take 10 ++ bytesOf 1 reason ++ (b.drop 11).take 13 ++ bytesOf 8 ticket
    let s1 := writeBytes s (q + 0x40 + 32 * (put.toNat % 4096)) r
    let s2 := writeWord s1 (q + 0x10) (put + 1)
    let bell := readWord s2 q
    let core := bitsOf bell 0 20
    some (if core < Config.cores then addAt s2 (spadLoc core (bitsOf bell 20 17 / 8 * 8)) 1 who else s2)

/-- A ticket of core g (R241); none while 64 are outstanding. -/
def takeTicket (s : State) (g : Nat) : Option (Nat × State) :=
  let live := outstanding s g
  if live.length ≥ 64 then none
  else
    let c := getCore s g
    let t := c.faultSeq + 1
    some (t, setCore s g { c with faultSeq := t, tickets := live ++ [t] })

/-- Fibre f of core g waits on its core's wake counter for a ticket (R241). -/
def awaitTicket (s0 : State) (g f ticket : Nat) : State :=
  let s := correctRead s0 (wakeCtr g) 8
  if isToxic s (wakeCtr g) then poisonEvent { s with enrol := s.enrol ++ [{ who := .fibre g f, loc := wakeCtr g, thr := w64 ticket }] } (wakeCtr g)
  else if reached (readWord s (wakeCtr g)) (w64 ticket) then { s with wakes := s.wakes ++ [(g, f, .replay)] }
  else enrolWaiter s (.fibre g f) (wakeCtr g) (w64 ticket)

/-- WADDR of a core's wake counter. -/
def wakeAddr (g : Nat) : Word := waitWord g (wakeCtr g)

/-- The context of a faulting fibre that is swapped with a ticket (R240); a fault on the line of a handler that is being entered leaves it at
the handler, whose entry is still to be checked (R135, R397). -/
def faultedFib (f : Fib) (g ticket : Nat) : Fib :=
  let x := { f with waddr := wakeAddr g, wthr := w64 ticket, status := .run }
  if f.entering then { x with pc := f.tvec, entry := true, entering := false } else x

/-- The faulting fibre becomes swapped with a ticket (R240); the walker, which is never swapped, goes on (R52). DEDUCED (log 87). -/
def swapOnTicket (s : State) (g f ticket : Nat) (va : Word) : State :=
  if f = Config.walkerIndex then s else
  let s1 := match slotOfFibre s g f with
    | some k => unbind (setCtx s g k (faultedFib (getCtx s g k) g ticket)) g k .swapped
    | none => match fibreInfo s g f with
        | some i => writeWord (writeWord s (i.loc + 8) (wakeAddr g)) (i.loc + 0x10) (w64 ticket)
        | none => s
  match fibreInfo s1 g f with
  | some i => awaitTicket (setFibreInfo s1 g f { i with ticket := some (ticket, va) }) g f ticket
  | none => s1

/-- Reason 5: the requester is held until the page has moved (R240, R247): a fibre in its slot, an engine or the host by its request. -/
def holdOnMove (s : State) (g : Nat) (m : Miss) : State :=
  if m.rq ≠ 0 then { s with moving := s.moving ++ [(g, m)] } else
  match slotOfFibre s g m.who with
  | some k => match (getCtx s g k).status with
      | .waiting _ => setCtx s g k { getCtx s g k with status := .waiting (.move m.va) }
      | _ => s
  | none => s

/-- Park what the device does for itself, or a command, on a ticket (R206, R240, R327). -/
def parkOn (s : State) (g : Nat) (m : Miss) (ticket : Nat) : State :=
  match m.src with
  | .evict n => { s with evicts := s.evicts.map fun e => if e.entry == n then { e with park := some ticket } else e }
  | .populate n => { s with kerns := s.kerns.map fun x => if x.num == n then { x with park := some (g, ticket) } else x }
  | _ => parkCmd s m.cmd ticket

/-- The effect of `wfail` with a reason other than a move's (R240): none while a ticket or a record of the queue is lacking. -/
def failEntry (s : State) (g : Nat) (m : Miss) (reason : Nat) (who : Adder) : Option State :=
  let s0 := freeEntry s g m.tag
  if m.rq = 2 then
    match postFault s0 g m reason 0 who with
    | some s1 => some (pumpAll { s1 with hostFails := if s1.hostFails.contains m.src then s1.hostFails else s1.hostFails ++ [m.src] })
    | none => none
  else match takeTicket s0 g with
    | none => none
    | some (t, s1) =>
      let s2 := if m.rq = 1 then parkOn s1 g m t
        else swapOnTicket s1 g m.who t (w64 (m.va.toNat % 2 ^ 55 + (if m.rq = 3 then 0 else reason) * 2 ^ 60))
      postFault s2 g m (if m.rq = 3 then 0 else reason) t who

/-- `wfail` (R240); cause 0x06 has operand a in `%taddr`. DESIGN CHOICE (log 97). -/
def execWfail (a b : SReg) (s : State) : Host.Outcome State Fault Refusal :=
  performSeq (do
    needWalker
    let x ← rd a
    let y ← rd b
    let reason := bitsOf y 0 4
    let t ← get
    let g := t.focus.1
    match mailEntry t (bitsOf x 0 5) with
    | none => fail 6 x
    | some m =>
      if reason ≥ 6 then fail 6 x
      else if reason = 5 ∧ m.rq ≠ 3 then change fun u => holdOnMove (freeEntry u g m.tag) g m
      else changeOrWait fun u => failEntry u g m reason (selfAdder u)) s

/-! ## Events -/

/-- The page of va is still being moved. -/
def pageMoving (s : State) (tenant : BitVec 12) (va : Word) : Bool := match walkLeaf s tenant va.toNat with
  | some (_, w, _) => leafMig w
  | none => false

/-- Fibre slot i mod 16 of core i div 16, held while its page moves, translates again once the page has switched; the engine and host
requests held so go on as well (R240, R247). -/
def retranslate (s0 : State) (i : Nat) : State :=
  let s := pumpAll { s0 with moving := s0.moving.filter fun e => pageMoving s0 e.2.tenant e.2.va }
  let g := i / 16
  let k := Fin.ofNat 16 i
  let x := getCtx s g k
  match x.status with
  | .waiting (.move va) => if (getCore s g).slots[k].bound = true ∧ pageMoving s x.tenant va = false then setCtx s g k { x with status := .run } else s
  | _ => s

/-- MIG_RETRANSLATE (R240, R247). -/
def execMigRetranslate (i : Nat) (s : State) : Host.Outcome State Fault Refusal := .next (retranslate s i)

end Sys2Proof.Machine
end

