-- ==== Sys2Proof/Machine/Contexts.lean ====
section
/-!
DEFINITION. Pinning and evicting contexts (R249-R255, R280, R281).
-/
namespace Sys2Proof.Machine

/-- Location of byte i of a list of spans. -/
def locIn : List (Nat × Nat) → Nat → Nat
  | [], _ => 0
  | (a, n) :: r, i => if i < n then a + i else locIn r (i - n)

/-- The bytes of an image in module memory, each with its poison. -/
def readImage (die : Nat) : List (Nat × Nat) → State → List (Byte × Bool) × State
  | [], s => ([], s)
  | (a, n) :: r, s =>
    let x := devRead s die a n
    let y := readImage die r x.2
    (x.1 ++ y.1, y.2)

/-- Write the bytes of an image to module memory; none while a link has no room. -/
def writeImage (die : Nat) (who : Adder) : List (Nat × Nat) → List (Byte × Bool) → State → Option State
  | [], _, s => some s
  | (a, n) :: r, l, s => match devWrite s die a (l.take n) who with
      | some t => writeImage die who r (l.drop n) t
      | none => none

/-- The header and the root record of an image are those of handle h (R280). -/
def headerValid (b : List Byte) (h : Word) : Bool :=
  let root := recNat b 0x18 1
  w64 (recNat b 0 8) == h && 1 ≤ root && root ≤ 127 && recNat b (128 * root + 1) 1 == 1

/-- Granules that a frame area at location a lies in. -/
def granulesOf (a : Nat) : List Nat := ([a / 16384 * 16384, (a + 16383) / 16384 * 16384]).eraseDups

/-- Every span of the image is in memory that backs it and whose link is up (R230, R365). -/
def needImage : List (Nat × Nat) → Nat → M Unit
  | [], _ => pure ()
  | (a, n) :: r, o => do
    let s ← get
    if isDpa a && !backed s a then failUnbacked (objAddr 0x20 o)
    else
      needLink a (objAddr 0x20 o)
      needImage r (o + n)

/-- Fill the entry of handle h as pinned (R252). -/
def fillEntry (s : State) (h : Word) (base clu rsize : Nat) : State :=
  writeBytes s (sctLoc h) (bytesOf 8 h.toNat ++ bytesOf 4 base ++ bytesOf 2 clu ++ [1, 0] ++ bytesOf 4 rsize)

/-- The first word of the header and of the root record that is poisoned in the image (R267). -/
def imagePoison (l : List (Byte × Bool)) : Option Nat :=
  let root := (nth l 0x18 (0, false)).1.toNat
  ([0, 8, 0x10, 0x18] ++ if root ≤ 127 then [128 * root] else []).find? fun o => (l.drop o |>.take 8).any (·.2)

def readObject (l : List (Nat × Nat)) : M (List (Byte × Bool)) := fun s =>
  if l.any fun p => pathHeld s p.1 then .error (.leave .room none) else .ok (readImage (dieOf s.focus.1) l s)

/-- The requests of the device for the spans go behind what the ports of its cluster hold (R118). -/
def needPathAll : List (Nat × Nat) → M Unit
  | [] => pure ()
  | (a, _) :: r => do
    needPath a
    needPathAll r

/-- `sctpin` (R280). The range is aligned as the granule that the frame area occupies (R253); DEDUCED (log 79). Cause 0x0D of
the handle has 0 in bits 55:0 of `%taddr`. DESIGN CHOICE (log 99). -/
def execSctpin (d : SReg) (m : CRef) (b c : SReg) (s : State) : Host.Outcome State Fault Refusal :=
  performSeq (do
    let o ← rdRef m
    let h ← rd b
    let rs ← rd c
    let t ← get
    let g := t.fib.seg[m.sg]
    let n := 16384 + rs.toNat
    if g.cls ≠ 1 then fail 6 o
    else match rangeBad t g o n 16384 rightWr with
      | some (cause, a) => fail cause a
      | none =>
        let addr := classAddr g o
        if o.toNat % 16384 ≠ 0 ∨ addr % 131072 > 0x18000 ∨ rs.toNat % 64 ≠ 0 ∨ rs.toNat > 2097152 then fail 6 o
        else
          let r := handleReason t h (· == 3) fun bd => n ≤ bd * 65536
          if r ≠ 0 then fail 0x0D (handleAddr r 0)
          else if sctState t h ≠ 0 then result d (if sctHandle t h = h then 2 else 1)
          else
            let l ← translate (handleCur t h) n 0 accLoad
            needImage l 0
            needPathAll l
            let img ← readObject l
            match imagePoison img with
            | some i => fail 0x10 (objAddr 0x20 i)
            | none =>
            if headerValid (img.map (·.1)) h = false then result d 3
            else
              let u ← get
              let at_ := clusterLoc (clusterOf u.focus.1) addr
              change fun w => fillEntry { fillAt w w.focus.1 at_ img with guards := w.guards ++ granulesOf at_ } h addr (clusterOf w.focus.1) rs.toNat
              result d 0) s

/-! ## Eviction -/

/-- Accept the eviction of handle h (R254, R281). -/
def acceptEvict (s : State) (h : Word) (ctr : Nat) : State :=
  let cl := clusterOf (homeOf ctr)
  let s1 := writeNat (writeNat s (sctLoc h + 0x0E) 1 2) (sctLoc h + 0x18) 8 (cl * 2 ^ 25 + (ctr - clusterLoc cl 0))
  { s1 with evicts := s1.evicts ++ [{ entry := bitsOf h 24 20 % 65536, g := s.focus.1, f := fibIndex s.fib, tenant := s.fib.tenant, ctr := ctr }] }

/-- `sctevict` (R281); cause 0x0D as in `sctpin` (log 99). -/
def execSctevict (d : SReg) (m : CRef) (b : SReg) (s : State) : Host.Outcome State Fault Refusal :=
  performSeq (do
    let o ← rdRef m
    let h ← rd b
    let a ← counterWord m.sg o
    let t ← get
    let r := handleReason t h (· == 3) fun _ => true
    if r ≠ 0 then fail 0x0D (handleAddr r 0)
    else
      release s.fib 4
      let u ← get
      if sctHandle u h ≠ h ∨ sctState u h = 0 ∨ sctState u h > 3 then result d 1
      else if sctState u h ≠ 1 then result d 2
      else
        change fun w => acceptEvict w h a
        result d 0) s

/-- Location and handle of stream-context entry n. -/
def entryLoc (n : Nat) : Nat := swLoc (0x14000000 + 64 * n)
def entryHandle (s : State) (n : Nat) : Word := readWord s (entryLoc n)
def entryClu (s : State) (n : Nat) : Nat := readNat s (entryLoc n + 0x0C) 2 % 8192
def entryArea (s : State) (n : Nat) : Nat := clusterLoc (entryClu s n) (readNat s (entryLoc n + 0x08) 4 % 2 ^ 25)
def entrySize (s : State) (n : Nat) : Nat := 16384 + readNat s (entryLoc n + 0x10) 4

/-- EVICTION_START: a cooling entry begins to be evicted when it is the first of its cluster (R254, R255). -/
def startEvict (s : State) (n : Nat) : State :=
  match s.evicts.find? fun e => entryClu s e.entry == entryClu s n with
  | none => s
  | some e =>
    if e.entry = n ∧ e.busy = false then
      writeNat { s with evicts := s.evicts.map fun x => if x.entry == n then { x with busy := true } else x } (entryLoc n + 0x0E) 1 3
    else s

/-- The completion add of an eviction (R254, R281). -/
def evictAdd (s : State) (e : Evict) (inc : Nat) : State := addAt { s with evicts := s.evicts.filter fun x => x.entry != e.entry } e.ctr (w64 inc) ⟨1, e.g, e.f⟩

/-- The image is written: the frame area is zeroed and loses its guard, and the entry is evicted. It waits while a link has no room. -/
def endEvict (s : State) (e : Evict) (l : List (Nat × Nat)) : State :=
  let a := entryArea s e.entry
  let die := dieOf e.g
  let x := devRead (dropGrants s (.evict e.entry) none) die a (entrySize s e.entry)
  match writeImage die ⟨1, e.g, e.f⟩ l x.1 x.2 with
  | none => s
  | some t =>
    let s1 := storeBytes t a (List.replicate 16384 0)
    let s2 := writeNat (writeWord s1 (entryLoc e.entry) 0) (entryLoc e.entry + 0x0E) 1 0
    evictAdd { s2 with guards := (granulesOf a).foldl (fun l g => l.erase g) s2.guards } e 1

/-- The eviction is given up: the image stays pinned (R254). -/
def keepImage (s : State) (e : Evict) : State := evictAdd (writeNat s (entryLoc e.entry + 0x0E) 1 1) e (1 + 2 ^ 48)

/-- EVICTION_COMPLETE: the write of the image, once its pages translate, behind what the ports of its cluster hold (R118); parked on a fault
until the steward's wake, and given up where the steward refuses (R254). -/
def completeEvict (s : State) (n : Nat) : State :=
  match s.evicts.find? fun e => e.entry == n && e.busy with
  | none => s
  | some e =>
    let go := fun t : State =>
      match spansVia (askEngine t e.g e.tenant accEngWrite (.evict n) 0) (entrySize t n / 65536 + 2)
          (hCur t (bitsOf (entryHandle t n) 24 20)).toNat (entrySize t n) with
      | .ok l =>
        let u := clearPath t e.g Config.swBase
        if l.any (fun p => linkStateOf t p.1 == 3) || !pathClear u e.g Config.swBase then t else endEvict u e l
      | .notYet u => u
      | .refused => keepImage t e
    match e.park with
    | none => go s
    | some t =>
      if reached (readWord s (wakeCtr e.g)) (w64 t) = false then s else
      let c := getCore s e.g
      let s1 := { s with evicts := s.evicts.map fun x => if x.entry == n then { x with park := none } else x }
      if c.refused.contains t then
        keepImage (setCore s1 e.g { c with refused := c.refused.filter (· != t) }) e
      else go s1

/-- EVICTION_START (R254). -/
def execEvictionStart (n : Nat) (s : State) : Host.Outcome State Fault Refusal := .next (startEvict s n)
/-- EVICTION_COMPLETE (R254). -/
def execEvictionComplete (n : Nat) (s : State) : Host.Outcome State Fault Refusal := .next (completeEvict s n)

end Sys2Proof.Machine
end

