-- ==== Sys2Proof/Machine/Control.lean ====
section
/-!
DEFINITION. The control instructions (R74-R76) and the trap instructions (R146-R149).
-/
namespace Sys2Proof.Machine

/-- Target of a format-J transfer (R75). -/
def targetOf (ti : Fin 5) (tl : BitVec 32) : M Word := fun s =>
  .ok (lineOf s.fib.pc + wrap64 (64 * tl.toInt) + w64 (12 * ti.val), s)

/-- A taken transfer to a target that passes R30. -/
def goTo (a : Word) : M Flow := do
  enterTarget a
  pure (.jump a)

/-- Count a parity failure of an annulled instruction, read twice (R32, R74). -/
def countAnnulled (loc word i : Nat) : M Unit := change fun s =>
  if parityGood s loc word i then s else bumpDie (bumpDie s (dieOf s.focus.1) 0x20 1) (dieOf s.focus.1) 0x28 1

/-- Step over n instructions from a (R74): a new line's word is checked, each instruction is decoded. -/
def annul : Nat → Word → M Flow
  | 0, a => pure (.jump a)
  | n + 1, a => do
    let s ← get
    match lookLine s s.focus.1 s.fib (lineOf a) with
    | .bad c u => pure (.raise ⟨c, a, a⟩ u)
    | .absent | .miss _ => leaveFor (.fetch a)
    | .line loc w =>
      match (if instrNo a = 0 then lineDefect w else none) with
      | some r => pure (.raise ⟨3, a, lineOf a + w64 r⟩ false)
      | none =>
        countAnnulled loc w (instrNo a)
        match decode (instrBits s loc (instrNo a)) with
        | none => pure (.raise ⟨1, a, 0⟩ false)
        | some _ => annul n (nextPc a)

/-- `csk` (R74). -/
def execCsk (cc : Cond) (n : Fin 3) (a : SReg) (b : SrcB) (s : State) : Host.Outcome State Fault Refusal :=
  perform (do
    let x ← rd a
    let y ← rdB b
    if condHolds cc x y then
      let p ← successor
      annul (n.val + 1) p
    else pure .seq) s

/-- `b` (R75). -/
def execB (ti : Fin 5) (tl : BitVec 32) (s : State) : Host.Outcome State Fault Refusal :=
  perform (do
    let t ← targetOf ti tl
    goTo t) s

/-- `bcc` (R75). -/
def execBcc (cc : Cond) (a b : SReg) (ti : Fin 5) (tl : BitVec 32) (s : State) : Host.Outcome State Fault Refusal :=
  perform (do
    let x ← rd a
    let y ← rd b
    let t ← targetOf ti tl
    if condHolds cc x y then goTo t else pure .seq) s

/-- `call` (R75). -/
def execCall (d : SReg) (ti : Fin 5) (tl : BitVec 32) (s : State) : Host.Outcome State Fault Refusal :=
  perform (do
    let link ← successor
    let t ← targetOf ti tl
    result d link
    goTo t) s

/-- `ret` (R75). -/
def execRet (a : SReg) (s : State) : Host.Outcome State Fault Refusal :=
  perform (do
    let x ← rd a
    goTo x) s

/-- `jr` (R75). -/
def execJr (d a : SReg) (s : State) : Host.Outcome State Fault Refusal :=
  perform (do
    let x ← rd a
    let link ← successor
    result d link
    goTo x) s

/-- `loop` (R75). -/
def execLoop (d a : SReg) (ti : Fin 5) (tl : BitVec 32) (s : State) : Host.Outcome State Fault Refusal :=
  perform (do
    let x ← rd a
    let t ← targetOf ti tl
    let n := x - 1
    result d n
    if n ≠ 0 then goTo t else pure .seq) s

/-- `nop` (R76). -/
def execNop (s : State) : Host.Outcome State Fault Refusal := performSeq (pure ()) s

/-- `yield` (R76): what it does follows its completion, at the successor. -/
def execYield (s : State) : Host.Outcome State Fault Refusal := perform (pure .yield) s

/-- `halt` (R76). -/
def execHalt (s : State) : Host.Outcome State Fault Refusal := perform (pure .halt) s

/-- `eret` (R76, R149). -/
def execEret (a : SReg) (s : State) : Host.Outcome State Fault Refusal := perform (leaveHandler (rd a) true) s

/-- `tret` (R149). -/
def execTret (s : State) : Host.Outcome State Fault Refusal :=
  perform (leaveHandler (do
    let f ← theFib
    pure f.tpc) false) s

/-- `trap n` (R147). -/
def execTrap (n : BitVec 16) (s : State) : Host.Outcome State Fault Refusal :=
  perform (do
    let p ← successor
    pure (.raise ⟨0x11, p, n.zeroExtend 64⟩ false)) s

/-- The mailbox has room for the service entry of a `sysc`. -/
def needMailbox : M Unit := fun s => match freeTag (getCore s s.focus.1) with
  | some _ => .ok ((), s)
  | none => .error (.leave .room none)

/-- `sysc n` (R148). -/
def execSysc (n : BitVec 16) (s : State) : Host.Outcome State Fault Refusal :=
  perform (do
    needMailbox
    pure (.sysc (n.zeroExtend 64))) s

end Sys2Proof.Machine
end

