-- ==== Sys2Proof/Machine/KernelOps.lean ====
section
/-!
DEFINITION. The instructions of kernels, pipes and queues (R299, R328-R333, R339, R340).
-/
namespace Sys2Proof.Machine

/-- `spawn` and `reap` execute only in slot 0 (R49). -/
def needControl : M Unit := do
  let k ← theSlot
  if k = 0 then pure () else fail 5 0

/-! ## spawn and reap -/

/-- The context of a spawned fibre (R329). A fibre of no kernel gives its own identity and no budget (log 14). -/
def spawnFib (s : State) (k : Option Nat) (pc x0 : Word) : Fib :=
  let me := s.fib
  let base := match k with
    | some n => launchFib s n me.stage.toNat pc me.seg x0 (me.fibre.zeroExtend 64)
    | none =>
      let f : Fib := { pc := pc, seg := me.seg, stage := me.stage, queue := me.queue, tenant := me.tenant, steward := me.steward }
      { f with x := (f.x.set 0 x0).set 1 (me.fibre.zeroExtend 64) }
  { base with ctx := me.ctx, rope := me.rope }

/-- Create the fibre, or none where an index, a handle or a frame is lacking. -/
def spawnOn (s : State) (pc x0 : Word) : Option (Nat × State) :=
  let g := s.focus.1
  let k := myKern s
  match freeIndex s g, allocRecord s s.fib.tenant.toNat s.fib.fibre.toNat with
  | some n, some (h, loc, s1) =>
    some (n, createFibre s1 g n (spawnFib s1 k pc x0) { state := .ready, role := .user, kern := k, hand := h, loc := loc })
  | _, _ => none

/-- `spawn` (R329). -/
def execSpawn (d a : SReg) (b : SrcB) (s : State) : Host.Outcome State Fault Refusal :=
  performSeq (do
    needControl
    let pc ← rd a
    let x0 ← rdB b
    let t ← get
    match spawnOn t pc x0 with
    | some (n, u) => do
      set u
      result d (w64 (t.focus.1 * 4096 + n))
    | none => result d allOnes) s

/-- The fibre may be reaped by the fibre in focus (R52, R330, R331). -/
def reapable (s : State) (i : Nat) (x : FibreInfo) : Bool :=
  (x.state == .done || x.state == .faulted) && x.role != .request && x.role != .walker && x.kern == myKern s && i != fibIndex s.fib

/-- The fibre that a selects. -/
def reapChoice (s : State) (a : Word) : Option (Nat × FibreInfo) :=
  let fs := (getCore s s.focus.1).fibres.filter fun e => reapable s e.1 e.2
  if a = allOnes then fs.foldl (fun b e => match b with
    | none => some e
    | some r => if e.2.wrote < r.2.wrote then some e else some r) none
  else fs.find? fun e => e.1 == a.toNat

/-- `reap` (R330). -/
def execReap (d a : SReg) (s : State) : Host.Outcome State Fault Refusal :=
  performSeq (do
    needControl
    let x ← rd a
    let t ← get
    match reapChoice t x with
    | none => result d allOnes
    | some (f, i) => do
      let cause := readNat t (i.loc + 0x5C) 4 / 2 ^ 20 % 256
      let r := freeFibre t t.focus.1 f false (selfAdder t)
      set r.2
      result d (w64 (f + stateCode i.state * 2 ^ 12 + cause * 2 ^ 16 + if r.1 then 2 ^ 24 else 0))) s

/-! ## Successors -/

/-- PHAND of the issuing fibre's kernel; 0 for a fibre of no kernel. -/
def phandOf (s : State) : Word := match myKern s with
  | some k => readWord s (kernLoc k + 0x88)
  | none => 0

/-- What `kwaitp` takes its turn for. -/
def phandKey (s : State) : TurnKey := ((counterRef s (phandOf s)).map fun a => TurnKey.home (homeOf a)).getD .anyHome

/-- `kwaitp` (R340). A user fibre reaches no guarded word through it (R253, R332). -/
def execKwaitp (d : SReg) (b : SrcB) (s : State) : Host.Outcome State Fault Refusal :=
  performSeq (inTurn (phandKey) do
    let p := phandOf s
    match ← takeWake with
    | some (.value v) =>
      match b with
      | .reg r => repop r
      | .imm _ => pure ()
      acquireAt true .mod
      result d v
    | some .poison => fail 0x10 p
    | _ =>
      let thr ← rdB b
      if bitsOf p 47 1 = 0 then
        acquireAt true .mod
        result d 0
      else match counterRef s p with
        | none => fail 6 p
        | some a =>
          if userGuarded s a then fail 6 p
          else
          drainWord a
          comeToHome a
          if ← isToxicM a then failPoisoned s.fib a p
          else
            let u ← get
            let v := readWord u a
            if reached v thr then
              acquireAt true .mod
              result d v
            else sleepOn s.fib .counter a thr) s

/-- `khint` (R339). -/
def execKhint (s : State) : Host.Outcome State Fault Refusal :=
  performSeq (change fun t => match myKern t with
    | some k => writeNat t (kernLoc k + 0xA8) 1 (readNat t (kernLoc k + 0xA8) 1 ||| 1)
    | none => t) s

/-- `khint.mv` (R335). -/
def execKhintMv (d : SReg) (s : State) : Host.Outcome State Fault Refusal :=
  performSeq (do
    let t ← get
    result d (boolWord (match (getCore t t.focus.1).mark with
      | some (k, _) => myKern t == some k
      | none => false))) s

/-! ## Posting (R299) -/

/-- A counter reference's value at its home, for `qpost`: poison traps with the queue number. -/
def postValue (f : Fib) (a : Nat) (q : Word) : M Word := do
  drainWord a
  comeToHome a
  if ← isToxicM a then failPoisoned f a q
  else
    let s ← get
    pure (readWord s a)

/-- `%taddr` of a cause 0x06 of `qpost`. -/
def postAddr (n : Nat) (q : Word) : Word := w64 (n * 2 ^ 56) + q

/-- The record is stored: the publish begins, and the slot leaves the rotation until the add is sent (R299). Other events come between, so that
two posts can overlap (R300). f is the fibre's context at issue, n the value of NOTIFY read. -/
def leavePost (f : Fib) (sc : Nat) (n : Word) : M Unit := fun s =>
  let b := beginPublish s s.focus.1
  let t := pushPublish b.2 s.focus.1 sc b.1
  .error (.leave (.publish sc b.1) (some { t with fib := { f with post := some n } }))

/-- The pops of a vector operand whose value is needed no longer. -/
def repopV (k : Fin 16) : M Unit := do
  let f ← theFib
  match armedV f k with
  | some _ => do
    let _ ← rdV k
    pure ()
  | none => pure ()

/-- The rest of a `qpost` that has read n of NOTIFY: once its publish is complete, the add at NOTIFY, and the result n. -/
def completePost (sys : Bool) (d a : SReg) (v : Fin 15) (f : Fib) (n : Word) : M Unit := do
  let q ← rdRaw a
  repopV (Fin.castLE (by omega) v)
  repopV ⟨v.val + 1, by omega⟩
  release f (if sys then 5 else 4)
  let u ← get
  match qNotify u q.toNat with
  | some na =>
    if userGuarded u na then fail 6 (postAddr 4 q)
    else
      comeToHome na
      change fun w => addAt w na 1 (selfAdder w)
  | none => pure ()
  modFib fun x => { x with post := none }
  result d n

/-- What `qpost` takes its turn for: the home of NOTIFY. -/
def postKey (a : SReg) (s : State) : TurnKey := match rd a s with
  | .ok (q, _) => ((qNotify s q.toNat).map fun n => TurnKey.home (homeOf n)).getD .anyHome
  | .error _ => .anyHome

/-- `qpost` (R299). A guarded NOTIFY or TAKEN is to a user fibre as one that is not valid (R332). DESIGN CHOICE (log 101). -/
def execQpost (sys : Bool) (d a : SReg) (v : Fin 15) (s : State) : Host.Outcome State Fault Refusal :=
  performSeq (inTurn (postKey a) do
    match s.fib.post with
    | some x => completePost sys d a v s.fib x
    | none =>
    let q ← rd a
    let t ← get
    let n := q.toNat
    if n ≥ 65536 then fail 6 (postAddr 1 q)
    else if qState t n = 0 then fail 6 (postAddr 2 q)
    else if t.fib.steward = false ∧ qTenant t n ≠ t.fib.tenant then fail 5 q
    else
      let lo ← rdV (Fin.castLE (by omega) v)
      let hi ← rdV ⟨v.val + 1, by omega⟩
      let b := laneBytes lo ++ laneBytes hi
      if recordOk b = false ∨ recNat b 0x3C 2 ≠ (qTenant t n).toNat then fail 6 (postAddr 3 q)
      else match qNotify t n, qTaken t n with
        | some na, some ta =>
          if userGuarded t na || userGuarded t ta then fail 6 (postAddr 4 q)
          else
          let x ← postValue s.fib na q
          let k ← postValue s.fib ta q
          if (x - k).toNat ≥ 2 ^ qLog t n then result d allOnes
          else
            let va := qRing t n + 128 * (x.toNat % 2 ^ qLog t n)
            let l ← translate va 128 (w64 va) accStore
            storeAll (w64 va) l b
            leavePost s.fib (if sys then 5 else 4) x
        | _, _ => fail 6 (postAddr 4 q)) s

/-! ## Pipes (R332, R333) -/

def pipePut (h : Nat) : Nat := spadLoc h 0x1FFD0
def pipeGot (h : Nat) : Nat := spadLoc h 0x1FFD8
def pipeEntry (h : Nat) (n : Word) : Nat := spadLoc h (0x1C000 + 8 * (n.toNat % 1024))

/-- Home core of pipe a of the issuing fibre's kernel. -/
def pipeHome (s : State) (a : Word) : Option Nat := ((myKern s).bind (kernOf s)).bind fun x => (x.groups[a.toNat + 1]?).map (·.home)

/-- What an instruction on pipe a takes its turn for: the pipe's home. -/
def pipeKey (a : SReg) (s : State) : TurnKey := match rd a s with
  | .ok (p, _) => ((pipeHome s p).map TurnKey.home).getD .anyHome
  | .error _ => .anyHome

/-- PUT, GOT or the ring entry concerned is poisoned: no entry is concerned in a put to a full pipe, nor in a get from an empty one. -/
def pipeToxic (s : State) (h : Nat) (put : Bool) : Bool :=
  let n := (readWord s (pipePut h) - readWord s (pipeGot h)).toNat
  isToxic s (pipePut h) || isToxic s (pipeGot h)
    || (n != (if put then 1024 else 0) && isToxic s (pipeEntry h (readWord s (if put then pipePut h else pipeGot h))))

/-- The home reads PUT and GOT of a pipe (R82, R333). -/
def seenPipe (s : State) (h : Nat) : State := correctRead s (pipePut h) 16

/-- Take the oldest entry: none when the pipe is empty. -/
def pipeTake (s : State) (h : Nat) : Option (Word × State) :=
  let got := readWord s (pipeGot h)
  if readWord s (pipePut h) = got then none
  else some (readWord s (pipeEntry h got), writeWord (correctRead s (pipeEntry h got) 8) (pipeGot h) (got + 1))

/-- Hand entries to the enrolled getters in the order of their enrolment, one each. -/
def pipeHand : Nat → State → Nat → State
  | 0, s, _ => s
  | fuel + 1, s, h =>
    match s.enrol.find? fun e => e.loc == pipePut h && isGetter e.who && !e.poll with
    | none => s
    | some e => match pipeTake s h with
        | none => s
        | some (v, t) => pipeHand fuel (wakeOne { t with enrol := t.enrol.filter fun x => x.who != e.who } e (some v)) h

/-- An event finds the pipe poisoned: the getters wake and trap (R106, R333). -/
def poisonPipe (s : State) (h : Nat) : State := poisonEvent s (pipePut h)

/-- A put at the home: the result. -/
def pipeAppend (s : State) (h : Nat) (b : Word) : Word × State :=
  let put := readWord s (pipePut h)
  let n := put - readWord s (pipeGot h)
  if n.toNat = 1024 then (allOnes, s)
  else
    let s1 := writeWord (writeWord s (pipeEntry h put) b) (pipePut h) (put + 1)
    (n + 1, pipeHand 64 s1 h)

/-- The message counts of R336 for the issuing fibre's kernel. -/
def countMessage (s : State) : State := match (myKern s).bind (kernOf s) with
  | some x => setKern s { x with sent := x.sent + 1, rcvd := x.rcvd + 1 }
  | none => s

/-- `pput` (R333). -/
def execPput (d a : SReg) (b : SrcB) (s : State) : Host.Outcome State Fault Refusal :=
  performSeq (inTurn (pipeKey a) do
    let p ← rd a
    let v ← rdB b
    let t ← get
    match pipeHome t p with
    | none => fail 6 p
    | some h =>
      if v = allOnes then fail 0x0B 0
      else
        release s.fib 4
        change countMessage
        comeToHome (pipePut h)
        change fun w => seenPipe w h
        let u ← get
        if pipeToxic u h true then
          change fun w => poisonPipe w h
          failKeeping s.fib 0x10 p
        else
          let r := pipeAppend u h v
          set r.2
          result d r.1) s

/-- The checks that both forms of `pget` begin with: the pipe's home and what it gives. -/
def pipeGet (f : Fib) (p : Word) : M (Nat × Option Word) := do
  let t ← get
  match pipeHome t p with
  | none => fail 6 p
  | some h =>
    comeToHome (pipePut h)
    change fun w => seenPipe w h
    let u ← get
    if pipeToxic u h false then
      change fun w => poisonPipe w h
      failKeeping f 0x10 p
    else match pipeTake u h with
      | some (v, w) => do
        set w
        acquireAt true .mod
        pure (h, some v)
      | none => pure (h, none)

/-- `pget` (R333). -/
def execPget (d a : SReg) (s : State) : Host.Outcome State Fault Refusal :=
  performSeq (inTurn (pipeKey a) do
    let p ← rd a
    let r ← pipeGet s.fib p
    result d (r.2.getD allOnes)) s

/-- `pget.w` (R333). -/
def execPgetW (d a : SReg) (s : State) : Host.Outcome State Fault Refusal :=
  performSeq (inTurn (pipeKey a) do
    match ← takeWake with
    | some (.value v) =>
      repop a
      acquireAt true .mod
      result d v
    | some .poison =>
      let p ← rd a
      fail 0x10 p
    | _ =>
      let p ← rd a
      let r ← pipeGet s.fib p
      match r.2 with
      | some v => result d v
      | none => sleepOn s.fib .pipe (pipePut r.1) 0) s

end Sys2Proof.Machine
end

