-- ==== Sys2Proof/Machine/CoreEvents.lean ====
section
/-!
DEFINITION. The events of a core and its slots (R21, R32, R54-R66, R92, R101-R103, R111, R119, R138, R141, R144, R234).
-/
namespace Sys2Proof.Machine

/-- The fibre in slot k of core g rejoins the rotation. -/
def rejoin (s : State) (g : Nat) (k : Fin 16) : State := setCtx s g k { getCtx s g k with status := .run, want := none }

/-- A translation for the fibre in slot k is still in the mailbox. -/
def missOut (s : State) (g : Nat) (k : Fin 16) : Bool := (getCore s g).mailbox.any fun m => m.rq == 0 && m.who == fibIndex (getCtx s g k)

def slotBound (s : State) (g : Nat) (k : Fin 16) : Bool := (getCore s g).slots[k].bound

/-! ## Fetch and replies -/

/-- The fetch that the fibre in slot k waits for goes on (R397): the line comes into the fetch buffer behind what the ports on its path hold
(R118), its miss is posted, or its fault is met when the instruction reaches issue. -/
def bringLine (s : State) (g : Nat) (k : Fin 16) : State :=
  let f := getCtx s g k
  let asked := f.want.getD f.pc
  match fetchLine s g f (lineOf asked) asked with
  | (.line loc _, t) =>
    let u := clearPath t g loc
    if pathClear u g loc then rejoin (addLine u g f.tenant (lineOf asked) loc) g k else s
  | (.bad _ _, t) => rejoin t g k
  | (.miss m, t) => match postMiss t g m with
      | some u => setCtx u g k { f with status := .waiting .fetch }
      | none => s
  | (.absent, _) => s

/-- FETCH_LINE_ARRIVAL (R55) for a slot whose next line, or whose target's line, is absent. -/
def lineArrives (s : State) (g : Nat) (k : Fin 16) : State :=
  if slotBound s g k = false then s else
  let f := getCtx s g k
  match f.status with
  | .waiting .fetch => if missOut s g k then s else bringLine s g k
  | .run => if lineReady s g f then s else bringLine s g k
  | _ => s
def execFetchLineArrival (g k : Nat) (s : State) : Host.Outcome State Fault Refusal := .next (lineArrives s g (Fin.ofNat 16 k))

def setFetchErr (s : State) (g : Nat) (k : Fin 16) (b : Bool) : State :=
  let c := getCore s g
  if c.slots[k].fetchErr = b then s else setCore s g { c with slots := c.slots.set k { c.slots[k] with fetchErr := b } }

/-- The instruction at the pc of the fibre in focus, or the second of its pair, whose parity is bad in the line at loc. -/
def badInstr (s : State) (loc w : Nat) : Option Word :=
  let i := instrNo s.fib.pc
  if (getCore s s.focus.1).slots[s.focus.2].fetchErr || !parityGood s loc w i then some s.fib.pc
  else if pairBit w i && !parityGood s loc w (i + 1) then some (nextPc s.fib.pc) else none

/-- The refetched instruction at a fails its parity again: it traps with 0x04 at the instruction, or at its pair's first (R32, R47). -/
def failTwice (s : State) (a : Word) : State :=
  raiseTrap (bumpDie (setFetchErr s s.focus.1 s.focus.2 false) (dieOf s.focus.1) 0x28 1) ⟨4, s.fib.pc, a⟩ false

/-- PARITY_REFETCH (R32): the line is refetched behind what the ports on its path hold (R118), and tested; one that cannot be fetched yet is
tested when the instruction reaches issue. -/
def refetched (s : State) : State :=
  let g := s.focus.1
  let k := s.focus.2
  if s.fib.status ≠ .waiting .refetch then s else
  let p := lineOf s.fib.pc
  match (fetchLine s g s.fib p s.fib.pc).1 with
  | .line loc w =>
    let u := clearPath s g loc
    if !pathClear u g loc then s else
    let t := addLine u g s.fib.tenant p loc
    match badInstr t loc w with
    | none => rejoin { t with fib := { t.fib with failed := false } } g k
    | some a => failTwice t a
  | _ => rejoin s g k
def execParityRefetch (g k : Nat) (s : State) : Host.Outcome State Fault Refusal :=
  .next (if slotBound s g (Fin.ofNat 16 k) then atSlot s g (Fin.ofNat 16 k) refetched else s)

/-- REPLY_COMPLETION (R60): the instruction that waited issues again; one that waits for its publish, once that is complete (R131). -/
def replyArrives (s : State) (g : Nat) (k : Fin 16) : State :=
  if slotBound s g k = false then s else
  match (getCtx s g k).status with
  | .waiting .miss => if missOut s g k then s else rejoin s g k
  | .waiting .room => rejoin s g k
  | .waiting (.publish sc b) => let t := pushPublish s g sc b
                                if publishDone t g sc b then rejoin t g k else t
  | _ => s
def execReplyCompletion (g k : Nat) (s : State) : Host.Outcome State Fault Refusal := .next (replyArrives s g (Fin.ofNat 16 k))

/-! ## The scheduler -/

/-- FIBRE_BIND (R53, R60): the eldest ready fibre that the free slot admits. -/
def bindEvent (s : State) (g : Nat) (k : Fin 16) : State :=
  if slotBound s g k || !present s g then s else
  match eldest s g k with
  | some f => bindReady s g k f
  | none => s
def execFibreBind (g k : Nat) (s : State) : Host.Outcome State Fault Refusal := .next (bindEvent s g (Fin.ofNat 16 k))

/-- SWAP_THRESHOLD (R62). -/
def swapOut (s : State) (g : Nat) (k : Fin 16) : State :=
  if slotBound s g k = false then s else
  match (getCtx s g k).status with
  | .sleeping _ since => if cycOf s g ≥ since + 16384 ∧ (eldest s g k).isSome = true then takeOff s g k .swapped else s
  | _ => s
def execSwapThreshold (g k : Nat) (s : State) : Host.Outcome State Fault Refusal := .next (swapOut s g (Fin.ofNat 16 k))

/-- The next issue of the fibre in slot k is a new instruction's, which has reached issue: its line is there, and the matrix unit has done
the one before (R55, R61, R191). -/
def issuesAnew (s : State) (g : Nat) (k : Fin 16) : Bool :=
  let f := getCtx s g k
  slotBound s g k && ((f.status == .run && lineReady s g f && !busySlot s g k) || drainEnds f) && betweenInstrs f

/-- BUDGET_OVERRUN (R66): cause 0x0E before the next instruction. -/
def execBudgetOverrun (g k : Nat) (s : State) : Host.Outcome State Fault Refusal :=
  let j := Fin.ofNat 16 k
  .next (if issuesAnew s g j && (getCtx s g j).due then
    atSlot s g j fun t => raiseTrap { t with fib := { t.fib with due := false } } ⟨0x0E, t.fib.pc, 0⟩ false else s)

/-- ENGINE_TRAP_DELIVERY (R138): cause 0x0F, when no handler is active and no budget trap comes first. -/
def deliverPend (s : State) : State := match s.fib.pend with
  | some a => if s.fib.tcause = 0 then raiseTrap { s with fib := { s.fib with pend := none } } ⟨0x0F, s.fib.pc, a⟩ false else s
  | none => s
def execEngineTrapDelivery (g k : Nat) (s : State) : Host.Outcome State Fault Refusal :=
  let j := Fin.ofNat 16 k
  .next (if issuesAnew s g j && !(getCtx s g j).due then atSlot s g j deliverPend else s)

/-- PRE_EMPTION (R141): the fibre of a slot that the arbiter has taken is unbound, ready, or swapped when it sleeps; one whose instruction has
issued and is not complete, or whose next line has not arrived, is not (R61). -/
def preempt (s : State) (g : Nat) (k : Fin 16) : State :=
  if slotBound s g k = false ∨ (getCore s g).slots[k].taker.isNone = true then s else
  match (getCtx s g k).status with
  | .run => if unfinished s g k then s else takeOff s g k .ready
  | .sleeping _ _ => takeOff s g k .swapped
  | .waiting _ => s
def execPreEmption (g k : Nat) (s : State) : Host.Outcome State Fault Refusal := .next (preempt s g (Fin.ofNat 16 k))

/-- RECORD_WRITE_COMPLETE (R59-R61): STATE is written last; a fibre that is ready, or whose wake arrived meanwhile, is enlisted; the service
entry of a `sysc` follows, once the mailbox has room (R148). -/
def recordWritten (s : State) (g f : Nat) : State :=
  match fibreInfo s g f with
  | none => s
  | some i =>
    if i.writing = false ∨ (i.state ≠ .ready ∧ i.state ≠ .swapped) then s else
    let s1 := setFibreInfo (writeState s i.loc 5) g f { i with writing := false, state := .swapped, call := none }
    match i.call with
    | some n => (postService s1 g f (BitVec.ofNat 12 (readNat s (i.loc + 0x58) 4)) n).getD s
    | none => if i.state = .ready ∨ i.wake.isSome = true then enlist s1 g f else s1
def execRecordWriteComplete (g f : Nat) (s : State) : Host.Outcome State Fault Refusal := .next (recordWritten s g f)

/-! ## Stores, counters, wakes -/

/-- STORE_BUFFER_DRAIN (R119) of entry i of core g. -/
def execStoreBufferDrain (g i : Nat) (s : State) : Host.Outcome State Fault Refusal := .next (drainEvent s g i)

/-- COUNTER_ADD_AT_HOME (R111): message i arrives, after the earlier ones of its core to the same home (R96). -/
def addArrives (s : State) (i : Nat) : State := match s.msgs[i]? with
  | none => s
  | some m =>
    if (s.msgs.take i).any (fun e => e.src == m.src && homeOf e.loc == homeOf m.loc) then s
    else addAt { s with msgs := s.msgs.eraseIdx i } m.loc m.inc m.who
def execCounterAddAtHome (i : Nat) (s : State) : Host.Outcome State Fault Refusal := .next (addArrives s i)

/-- The fibre left its slot in this cycle of its core, by pre-emption or swap, which come after a wake in one cycle (R61). -/
def justLeft (s : State) (g f : Nat) : Bool := match fibreInfo s g f with
  | some i => i.left == some (cycOf s g)
  | none => false

/-- WAKE_DELIVERY (R61, R103) of wake i. -/
def wakeArrives (s : State) (i : Nat) : State := match s.wakes[i]? with
  | none => s
  | some (g, f, w) => if justLeft s g f then s else deliverWake { s with wakes := s.wakes.eraseIdx i } g f w
def execWakeDelivery (i : Nat) (s : State) : Host.Outcome State Fault Refusal := .next (wakeArrives s i)

def isFibreWaiter (g f : Nat) : Waiter → Bool
  | .fibre h e => h == g && e == f
  | .getter h e => h == g && e == f
  | _ => false
def isDevice : Waiter → Bool
  | .fibre _ _ | .getter _ _ => false
  | _ => true

/-- Word and threshold that a poll takes: of a swapped fibre, from its record (R101). -/
def pollTarget (s : State) (e : Enrol) : Nat × Word := match e.who with
  | .fibre g f => match slotOfFibre s g f, fibreInfo s g f with
      | none, some i => (waitLoc g (readWord s (i.loc + 8)), readWord s (i.loc + 0x10))
      | _, _ => (e.loc, e.thr)
  | _ => (e.loc, e.thr)

/-- The fibre or the device waiter of a poll gets its wake. -/
def wakePoll (s : State) (e : Enrol) (v : Option Word) : State := wakeOne { s with enrol := s.enrol.filter fun x => x != e } e v

/-- The core that a poll comes from (R101): a fibre's or a proxy's; other waiters are no core's. -/
def pollCore : Waiter → Option Nat
  | .fibre g _ | .getter g _ | .proxy g _ => some g
  | _ => none
/-- A test f of a poll at location a, behind what the ports on its path hold (R118). -/
def pollFrom (s : State) (who : Waiter) (a : Nat) (f : State → State) : State := match pollCore who with
  | none => f s
  | some g =>
    let t := clearPath s g a
    if pathClear t g a then f t else s

/-- A poll's test at the home. -/
def pollHome (e : Enrol) (s0 : State) : State :=
  let s := if isGetter e.who then seenPipe s0 (homeOf e.loc) else s0
  if isGetter e.who then
    let h := homeOf e.loc
    if pipeToxic s h false then poisonPipe s h
    else match pipeTake s h with
      | some (v, t) => wakePoll t e (some v)
      | none => s
  else
    let (a, thr) := pollTarget s e
    match readCounter { s with enrol := s.enrol.map fun x => if x == e then { e with loc := a } else x } a with
    | (none, t) => t
    | (some v, t) => if reached v thr then wakePoll t { e with loc := a } (some v) else t
def pollOnce (s : State) (e : Enrol) : State := pollFrom s e.who (pollTarget s e).1 (pollHome e)

/-- POLL_TEST of fibre f of core g (R101). -/
def execPollTest (g f : Nat) (s : State) : Host.Outcome State Fault Refusal :=
  .next (match s.enrol.find? fun e => e.poll && isFibreWaiter g f e.who with
    | some e => pollOnce s e
    | none => s)

/-- DEVICE_WAITER_POLL of enrolment i (R102). -/
def execDeviceWaiterPoll (i : Nat) (s : State) : Host.Outcome State Fault Refusal :=
  .next (match s.enrol[i]? with
    | some e => if e.poll && isDevice e.who then pollOnce s e else s
    | none => s)

/-! ## Streams -/

/-- Bytes of a refill at spans of memory; none where a refill stops (R92). -/
def refillSpans (s : State) : List (Nat × Nat) → Option (List (Byte × Bool) × State)
  | [] => some ([], s)
  | (a, n) :: r =>
    if isSw a || (isDpa a && !backed s a) || linkStateOf s a != 2 then none
    else
      (if isFar a then (farRead s a n).map fun f => ((farBytes s s.focus.1 a f.1).map fun b => (b, false), f.2)
       else some (coreBytes s s.focus.1 false a n, correctLoad s s.focus.1 false a n)).bind fun here =>
        (refillSpans here.2 r).map fun (bs, t) => (here.1 ++ bs, t)

/-- A refill's requests go behind what the ports on their path hold (R118); while a link holds that, it is not made. -/
def spansPath (s : State) (l : List (Nat × Nat)) : State :=
  l.foldl (fun t p => if answered t t.focus.1 false p.1 p.2 then t else clearPath t t.focus.1 p.1) s
def spansClear (s : State) (l : List (Nat × Nat)) : Bool :=
  let t := spansPath s l
  l.all fun p => answered t t.focus.1 false p.1 p.2 || pathClear t t.focus.1 p.1

/-- One more element of position p of the fibre in focus is refilled, up to 128 bytes ahead (R92); where the refill stops, no other follows
before the pop of that element. -/
def refillNext (p : Fin 4) (s0 : State) : State :=
  let s := rereadStreams s0
  let r := s.fib.streams[p]
  match r.pat with
  | none => s
  | some q =>
    let n := sizeBytes q.esize
    let j := r.index.toNat + r.buf.length
    if r.armed = false ∨ r.out = true ∨ r.again = true ∨ j ≥ q.total ∨ (r.buf.length + 1) * n > 128 ∨ r.halt.any (r.index.toNat ≤ ·) = true then s
    else
      let stop := { s with fib := { s.fib with streams := s.fib.streams.set p { r with halt := some j } } }
      match resolve r.dseg (q.off j) n n rightRd accLoad s with
      | .error _ => stop
      | .ok (l, t) => if !spansClear t l then s else match refillSpans (spansPath t l) l with
          | none => stop
          | some (bs, u) =>
            let e : Refill := { bytes := bs.map (·.1), toxic := bs.findIdx? (·.2) }
            { u with fib := { u.fib with streams := u.fib.streams.set p { r with buf := r.buf ++ [e] } } }
def execStreamRefill (g k : Nat) (p : Fin 4) (s : State) : Host.Outcome State Fault Refusal :=
  .next (if slotBound s g (Fin.ofNat 16 k) then atSlot s g (Fin.ofNat 16 k) (refillNext p) else s)

/-! ## Clocks, TLBs, soft errors -/

/-- SPEED_TABLE_CUR_WRITE (R21). -/
def execSpeedTableCurWrite (g : Nat) (code : Byte) (s : State) : Host.Outcome State Fault Refusal := .next (speedWrite s g code)
/-- CLOCK_SWITCH_COMPLETE (R21). -/
def execClockSwitchComplete (g : Nat) (s : State) : Host.Outcome State Fault Refusal := .next (clockSwitch s g)

/-- TLB_ENTRY_DROP (R234): entry i of a TLB. -/
def dropEntry (s : State) (t : TlbId) (i : Nat) : State := match (s.tlbs.filter fun e => e.tlb == t)[i]? with
  | some e => { s with tlbs := s.tlbs.filter fun x => x != e }
  | none => s
def execTlbEntryDrop (t : TlbId) (i : Nat) (s : State) : Host.Outcome State Fault Refusal := .next (dropEntry s t i)

/-- A register of a bound fibre that an error can strike: `z` is none, and a tile or an accumulator must be claimed. -/
def strikable (f : Fib) (code : Nat) : Bool :=
  code < 4 || (0x10 ≤ code && code < 0x30) || (0x40 ≤ code && code < 0x80) || (0x100 ≤ code && code < 0x120 && f.tclaim.getLsbD (code - 0x100))
    || (0x200 ≤ code && code < 0x208 && f.aclaim.getLsbD (code - 0x200))

/-- SOFT_ERROR (R82, R144, R145, R204, R353, R373). A single-bit error of a scratchpad word or of a register stays until
that is read. -/
def softError (s : State) : ErrSite → State
  | .word a ok =>
    if isSpad a && ok then
      (if isToxic s a || s.latent.contains (wordOf a) then s else { s with latent := s.latent ++ [wordOf a] })
    else if isSpad a || (isDpa a && backed s a) then
      countMemError (if ok then s else setToxic { s with latent := s.latent.filter (· != wordOf a) } a) a (!ok)
    else s
  | .reg g k code ok =>
    let j := Fin.ofNat 16 k
    let f := getCtx s g j
    if slotBound s g j = false ∨ strikable f code = false then s
    else if ok then
      (if f.poison.contains code || f.flips.contains code then s else setCtx s g j { f with flips := f.flips ++ [code] })
    else bumpDie (setCtx s g j { f with flips := f.flips.filter (· != code), poison := if f.poison.contains code then f.poison else f.poison ++ [code] }) (dieOf g) 0x18 1
  | .buffer g i w ok =>
    let c := getCore s g
    match c.sb[i]? with
    | none => s
    | some e =>
      let o := 8 * w.val
      if !e.writes.any fun x => x.off < o + 8 && o < x.off + x.bytes.length then s
      else if ok then bumpDie s (dieOf g) 0x10 1
      else bumpDie (setCore s g { c with sb := c.sb.set i { e with toxic := (e.toxic ++ [o]).eraseDups } }) (dieOf g) 0x18 1
  | .fetch g k =>
    let j := Fin.ofNat 16 k
    let c := getCore s g
    setCore s g { c with slots := c.slots.set j { c.slots[j] with fetchErr := true } }
  | .pcie p => bumpAt (bumpIo s (p.val / 2) (0x10 + 8 * (p.val % 2)) 1) (linkLoc (.port p) + 0x10) 1
  | .seam d => if d < Config.dies then bumpDie s d 0x50 1 else s
  | .nvme b => if s.badBlocks.contains b then s else { s with badBlocks := s.badBlocks ++ [b] }
def execSoftError (e : ErrSite) (s : State) : Host.Outcome State Fault Refusal := .next (softError s e)

end Sys2Proof.Machine
end

