-- ==== Sys2Proof/Machine/Engines.lean ====
section
/-!
DEFINITION. The engine instructions (R209, R210, R220) and the engine events (R205-R208, R213, R217).
-/
namespace Sys2Proof.Machine

/-- `ecopy` (R210, R212). -/
def execEcopy (sc : Scope) (d : SReg) (m : CRef) (v : Fin 16) (s : State) : Host.Outcome State Fault Refusal :=
  performSeq (placeEngine s.fib 1 sc d m v) s

/-- `ecopy.mc` (R210, R213). -/
def execEcopyMc (sc : Scope) (d : SReg) (m : CRef) (v : Fin 16) (s : State) : Host.Outcome State Fault Refusal :=
  performSeq (placeEngine s.fib 2 sc d m v) s

/-- `ecopy.deal` (R210, R214). -/
def execEcopyDeal (sc : Scope) (d : SReg) (m : CRef) (v : Fin 16) (s : State) : Host.Outcome State Fault Refusal :=
  performSeq (placeEngine s.fib 3 sc d m v) s

/-- `ecopy.dec` (R210, R215). -/
def execEcopyDec (sc : Scope) (d : SReg) (m : CRef) (v : Fin 16) (s : State) : Host.Outcome State Fault Refusal :=
  performSeq (placeEngine s.fib 4 sc d m v) s

/-- `ecopy.red` (R210, R216). -/
def execEcopyRed (sc : Scope) (d : SReg) (m : CRef) (v : Fin 16) (s : State) : Host.Outcome State Fault Refusal :=
  performSeq (placeEngine s.fib 5 sc d m v) s

/-- `egath` (R210, R217). -/
def execEgath (sc : Scope) (d : SReg) (m : CRef) (v : Fin 16) (s : State) : Host.Outcome State Fault Refusal :=
  performSeq (placeEngine s.fib 6 sc d m v) s

/-- `escat` (R210, R217). -/
def execEscat (sc : Scope) (d : SReg) (m : CRef) (v : Fin 16) (s : State) : Host.Outcome State Fault Refusal :=
  performSeq (placeEngine s.fib 7 sc d m v) s

/-- `emig.mv` (R210, R218). -/
def execEmigMv (sc : Scope) (d : SReg) (m : CRef) (v : Fin 16) (s : State) : Host.Outcome State Fault Refusal :=
  performSeq (placeEngine s.fib 8 sc d m v) s

/-- `emig.nvr` (R210, R218). -/
def execEmigNvr (sc : Scope) (d : SReg) (m : CRef) (v : Fin 16) (s : State) : Host.Outcome State Fault Refusal :=
  performSeq (placeEngine s.fib 9 sc d m v) s

/-- `emig.nvw` (R210, R218). -/
def execEmigNvw (sc : Scope) (d : SReg) (m : CRef) (v : Fin 16) (s : State) : Host.Outcome State Fault Refusal :=
  performSeq (placeEngine s.fib 10 sc d m v) s

/-- `ecode` (R210, R215). -/
def execEcode (sc : Scope) (d : SReg) (m : CRef) (v : Fin 16) (s : State) : Host.Outcome State Fault Refusal :=
  performSeq (placeEngine s.fib 11 sc d m v) s

/-- `epub` (R210, R219). -/
def execEpub (sc : Scope) (d : SReg) (m : CRef) (v : Fin 16) (s : State) : Host.Outcome State Fault Refusal :=
  performSeq (placeEngine s.fib 12 sc d m v) s

/-- `equery` (R220). -/
def execEquery (d : SReg) (s : State) : Host.Outcome State Fault Refusal :=
  performSeq (do
    let t ← get
    result d (w64 (inFlight t t.focus.1))) s

/-- `equery.st` (R220). -/
def execEquerySt (d : SReg) (m : CRef) (b : SReg) (s : State) : Host.Outcome State Fault Refusal :=
  performSeq (do
    let w ← queryStatus m b
    result d w) s

/-! ## Events -/

/-- ENGINE_TAKE_COMMAND (R205, R206). -/
def execEngineTakeCommand (i : Nat) (s : State) : Host.Outcome State Fault Refusal := .next (takeCommand s i)
/-- ENGINE_RESUME (R206, R208, R241). -/
def execEngineResume (i : Nat) (s : State) : Host.Outcome State Fault Refusal := .next (resumeCmd s i)
/-- ENGINE_COMMAND_RETIRE (R206, R207). -/
def execEngineCommandRetire (i : Nat) (s : State) : Host.Outcome State Fault Refusal := .next (retireCmd s i)
/-- MULTICAST_RUN_ACCEPTED (R213, R214). -/
def execMulticastRunAccepted (i k : Nat) (s : State) : Host.Outcome State Fault Refusal := .next (multicastEvent s i k)
/-- GATHER_ROW_ACCEPTED (R217). -/
def execGatherRowAccepted (i : Nat) (s : State) : Host.Outcome State Fault Refusal := .next (gatherEvent s i)

end Sys2Proof.Machine
end

