-- ==== Sys2Proof/Machine/Groups.lean ====
section
/-!
DEFINITION. The group instructions (R314, R315, R318) and the events of load levelling and of moves between stages (R316, R335).
-/
namespace Sys2Proof.Machine

/-- The group of the issuing fibre; one of no group traps (R310). -/
def needGroup : M Group := fun s => match myGroup s with
  | some r => .ok (r, s)
  | none => .error (.trap 5 0 false none)

/-- Location of a group's stage pool (R313). -/
def poolLoc (r : Group) : Nat := spadLoc r.home 0x1FFE8

/-- Hand out n indices at the home (R314); stage 0's pool marks the iteration boundaries of its kernel (R334). -/
def takePool (s : State) (r : Group) (n : Word) (who : Adder) : State :=
  let old := readWord s (poolLoc r)
  let s1 := setCounter s (poolLoc r) (old + n) who
  match myKern s with
  | some k => if r.stage = 0 then boundaries s1 k old.toNat (old + n).toNat else s1
  | none => s1

/-- What `take` takes its turn for: the pool's home. -/
def poolKey (s : State) : TurnKey := ((myGroup s).map fun r => TurnKey.home (homeOf (poolLoc r))).getD .anyHome

/-- `take` (R314). -/
def execTake (d a : SReg) (b : SrcB) (s : State) : Host.Outcome State Fault Refusal :=
  performSeq (inTurn (poolKey) do
    let lim ← rd a
    let n ← rdB b
    let r ← needGroup
    if n = 0 ∨ n.toNat > 4096 then fail 0x0B n
    else
      comeToHome (poolLoc r)
      if ← isToxicM (poolLoc r) then failPoisoned s.fib (poolLoc r) 0
      else
        let t ← get
        let old := readWord t (poolLoc r)
        change fun u => takePool u r n (selfAdder u)
        result d (if old.ult lim then old else allOnes)) s

/-! ## Tile coordinates (R318) -/

/-- The result of `.o`, `.a` and `.b` for tile t and extents b. -/
def tileResult (r : Option Group) (t b : Word) (colsFull rowsFull : Bool) : Word :=
  let mt := match r with
    | some x => x.m
    | none => 0
  let nt := match r with
    | some x => x.n
    | none => 0
  if t.toNat ≥ mt * nt then allOnes
  else
    let m := t.toNat / nt
    let n := t.toNat % nt
    let mr := if bitsOf b 0 24 = 0 then 8 * mt else bitsOf b 0 24
    let nc := if bitsOf b 24 24 = 0 then 8 * nt else bitsOf b 24 24
    let vr := min 8 (mr - 8 * m)
    let vc := min 8 (nc - 8 * n)
    if vr = 0 ∨ vc = 0 then allOnes
    else w64 (m * 2 ^ 36 + n * 2 ^ 24 + (if rowsFull then 7 else vr - 1) * 8 + if colsFull then 7 else vc - 1)

def gtileForm (d a : SReg) (b : SrcB) (colsFull rowsFull : Bool) : M Unit := do
  let t ← rd a
  let e ← rdB b
  let s ← get
  result d (tileResult (myGroup s) t e colsFull rowsFull)

/-- `gtile.o` (R318). -/
def execGtileO (d a : SReg) (b : SrcB) (s : State) : Host.Outcome State Fault Refusal := performSeq (gtileForm d a b false false) s
/-- `gtile.a` (R318). -/
def execGtileA (d a : SReg) (b : SrcB) (s : State) : Host.Outcome State Fault Refusal := performSeq (gtileForm d a b true false) s
/-- `gtile.b` (R318). -/
def execGtileB (d a : SReg) (b : SrcB) (s : State) : Host.Outcome State Fault Refusal := performSeq (gtileForm d a b false true) s

/-- Word n of the member mask in core g's cluster. -/
def maskWord (r : Group) (g n : Nat) : Word :=
  if n > 2 then 0 else w64 ((r.members.filter fun c => clusterOf c == clusterOf g && c % 192 / 64 == n).foldl (fun a c => a + 2 ^ (c % 64)) 0)

/-- `gtile.mask` (R318). -/
def execGtileMask (d : SReg) (b : SrcB) (s : State) : Host.Outcome State Fault Refusal :=
  performSeq (do
    let n ← rdB b
    let t ← get
    result d (match myGroup t with
      | some r => maskWord r t.focus.1 n.toNat
      | none => 0)) s

/-- `gtile.g` (R318). -/
def execGtileG (d : SReg) (b : SrcB) (s : State) : Host.Outcome State Fault Refusal :=
  performSeq (do
    let n ← rdB b
    let t ← get
    result d (match (myGroup t).bind (fun r => r.members[n.toNat]?) with
      | some g => w64 g
      | none => allOnes)) s

/-! ## Load levelling (R315) -/

/-- `lvpost` (R315). -/
def execLvpost (d a : SReg) (s : State) : Host.Outcome State Fault Refusal :=
  performSeq (do
    let _ ← needGroup
    let e ← rd a
    if e = allOnes then fail 0x0B 0
    else
      release s.fib 2
      let t ← get
      let c := getCore t t.focus.1
      if c.level.length ≥ 64 then result d allOnes
      else
        change fun u => setCore u u.focus.1 { getCore u u.focus.1 with level := c.level ++ [e] }
        result d (w64 (c.level.length + 1))) s

/-- `lvtake` (R315). -/
def execLvtake (d : SReg) (s : State) : Host.Outcome State Fault Refusal :=
  performSeq (do
    let _ ← needGroup
    let t ← get
    let c := getCore t t.focus.1
    match c.level with
    | [] => result d allOnes
    | e :: r =>
      change fun u => setCore u u.focus.1 { getCore u u.focus.1 with level := r, kept := c.kept - 1 }
      acquireAt true .clu
      result d e) s

/-! ## Events -/

/-- Neighbours of core c in its row and column of a 16-wide grid, of the same group. -/
def neighbours (s : State) (c : Nat) : List Nat :=
  let i := c % 192
  let base := c - i
  let near := ([i - 16, i - 1, i + 1, i + 16].eraseDups).filter fun j =>
    j < 192 && ((j + 1 == i && i % 16 != 0) || (i + 1 == j && j % 16 != 0) || j + 16 == i || i + 16 == j)
  (near.map (base + ·)).filter fun g => s.kerns.any fun x => x.groups.any fun r => r.members.contains c && r.members.contains g

/-- The neighbour with the shortest list, ties to the lower number. -/
def shortest (s : State) : List Nat → Option Nat
  | [] => none
  | g :: r => match shortest s r with
      | none => some g
      | some h => if (getCore s g).level.length ≤ (getCore s h).level.length then some g else some h

/-- Core c is at a balancing cycle and has not balanced in it. -/
def balanceDue (s : State) (c : Nat) : Bool := cycOf s c % 4096 == 0 && (getCore s c).balanced != cycOf s c

/-- Core c balances in this cycle and in no other way (R316). -/
def markBalanced (s : State) (c : Nat) : State := setCore s c { getCore s c with balanced := cycOf s c }

/-- The newest entries of core c go to the tail of core j's list, but none that c keeps from an earlier group (R316, R317). -/
def moveEntries (s : State) (c j : Nat) : State :=
  let l := (getCore s c).level
  let lj := (getCore s j).level
  let n := min (min ((l.length - lj.length) / 2) (64 - lj.length)) (l.length - (getCore s c).kept)
  if n = 0 then s
  else
    let s1 := setCore s c { getCore s c with level := l.take (l.length - n) }
    setCore s1 j { getCore s1 j with level := lj ++ l.drop (l.length - n) }

/-- The move of core c, which is marked. A move into a list falls after a move out of it in the same cycle (R315): where the target's own move
is due, it comes first, with those that it waits for in turn, and c looks again; entries that have come to c meanwhile end its turn. -/
def balanceChain : Nat → State → Nat → State
  | 0, s, _ => s
  | fuel + 1, s, c =>
    match shortest s (neighbours s c) with
    | none => s
    | some j =>
      if balanceDue s j then
        let t := balanceChain fuel (markBalanced s j) j
        if (getCore t c).level.length = (getCore s c).level.length then balanceChain fuel t c else t
      else moveEntries s c j

/-- LEVEL_BALANCE of core c, once at a cycle that is a multiple of 4,096 (R316); a cluster has 192 cores. -/
def levelBalance (s : State) (c : Nat) : State := if balanceDue s c then balanceChain 400 (markBalanced s c) c else s

/-- LEVEL_BALANCE (R316). -/
def execLevelBalance (g : Nat) (s : State) : Host.Outcome State Fault Refusal := .next (levelBalance s g)

/-- Members after core g has gone from stage a to stage b. -/
def movedMembers (r : Group) (g b : Nat) : List Nat :=
  if r.stage = b then sortBy (· ≤ ·) (r.members ++ [g]) else r.members.filter (· != g)

/-- CORE_MOVE: a marked core whose fibres have all ended goes to its new stage (R335): free, regroup, create. Where the new stage's table is
refused or poisoned the core stays marked, and each try at the table is an access of its own, counted as such (R230; log 60). -/
def coreMove (s : State) (g : Nat) : State :=
  match (getCore s g).mark with
  | none => s
  | some (k, dst) => match kernOf s k with
      | none => s
      | some x =>
        if moveReady s g k = false then s else
        match stageTable s x dst g with
        | .bytes tab u =>
          let s1 := freeAllOn u k g
          let grps := x.groups.map fun r => if r.stage = dst ∨ r.members.contains g = true then regroup s1 x r (movedMembers r g dst) else r
          let s2 := setKern (setCore s1 g { getCore s1 g with mark := none, kept := (getCore s1 g).level.length }) { x with groups := grps }
          (createSet x.segs tab k g dst (min (recNat tab 0 4) 7) s2).getD s2
        | .notYet t => onlyAsked s t
        | .refused t => t

/-- CORE_MOVE (R335). -/
def execCoreMove (g : Nat) (s : State) : Host.Outcome State Fault Refusal := .next (coreMove s g)

end Sys2Proof.Machine
end

