-- ==== Sys2Proof/Machine/Handles.lean ====
section
/-!
DEFINITION. The handle instructions (R224-R229).
-/
namespace Sys2Proof.Machine

/-- What the home of entry n answers must follow the core's own stores to it, and no line of the read cache stands before it. -/
def atTable (n : Nat) : M Unit := do
  drainBytes (handleLoc n) 32
  needPath (handleLoc n)
  change fun s => dropLines s s.focus.1 (handleLoc n) 32

/-- A base that R227 admits. -/
def baseOk (a : Word) : Bool := a.toNat % 65536 == 0 && a.toNat < 2 ^ 55

/-- `halloc` (R227): the entry is allocated at the table as one event. -/
def allocate (kind : Nat) (d a : SReg) (b : SrcB) (c : Option SReg) : M Unit := do
  let f ← theFib
  if kind ≥ 3 ∧ f.steward = false then fail 5 0
  else
    let cur ← rd a
    let bound ← rdB b
    let shd ← match c with
      | some r => rd r
      | none => pure 0
    if baseOk cur = false then fail 0x0D (handleAddr 8 cur.toNat)
    else if bound = 0 ∨ bound.toNat ≥ 2 ^ 24 then fail 0x0D (handleAddr 8 bound.toNat)
    else if c.isSome = true ∧ (shd = 0 ∨ baseOk shd = false) then fail 0x0D (handleAddr 8 shd.toNat)
    else
      let s ← get
      match nextFree s 1048575 s.lastHandle with
      | some n => atTable n
      | none => pure ()
      let t ← get
      let r := allocHandle t kind cur shd bound.toNat t.fib.tenant.toNat t.fib.fibre.toNat
      set r.2
      result d r.1

/-- `halloc.kind` (R226, R227). -/
def execHalloc (kind : Fin 5) (d a : SReg) (b : SrcB) (s : State) : Host.Outcome State Fault Refusal :=
  performSeq (allocate kind.val d a b none) s

/-- `halloc.buf.sh` (R226, R227). -/
def execHallocBufSh (d a : SReg) (b : SrcB) (c : SReg) (s : State) : Host.Outcome State Fault Refusal :=
  performSeq (allocate 0 d a b (some c)) s

/-- `hfree` (R228). -/
def execHfree (a : SReg) (s : State) : Host.Outcome State Fault Refusal :=
  performSeq (do
    let h ← rd a
    let n := bitsOf h 24 20
    atTable n
    let t ← get
    let r := handleReason t h (fun _ => true) fun _ => true
    if r ≠ 0 then fail 0x0D (handleAddr r 0)
    else change fun u => freeHandle u n) s

/-- The word of `hchk` (R229): b bytes from offset 0, or b tokens of a KV entry. -/
def checkWord (s : State) (h b : Word) : Word :=
  let e := entryBytes s s.focus.1 (bitsOf h 24 20)
  let kind := recNat e 0x17 1 % 8
  let r := handleReason s h (fun _ => true) fun bound => if kind = 1 then b.toNat ≤ bound else b.toNat ≤ bound * 65536
  w64 (r * 2 ^ 56 + if r = 1 then 0 else kind * 2 ^ 53 + recNat e 0x10 4 % 2 ^ 24)

/-- `hchk` (R229). -/
def execHchk (d a : SReg) (b : SrcB) (s : State) : Host.Outcome State Fault Refusal :=
  performSeq (do
    let h ← rd a
    let n ← rdB b
    needRead false (handleLoc (bitsOf h 24 20)) 32
    let t ← get
    result d (checkWord t h n)) s

end Sys2Proof.Machine
end

