-- ==== Sys2Proof/Machine/KernelEvents.lean ====
section
/-!
DEFINITION. The events of running kernels: sweeps, kills, proxies, drains, and sampler requests (R285-R287, R336, R338, R347, R350).
-/
namespace Sys2Proof.Machine

/-- KERNEL_END_SWEEP (R322, R336). -/
def sweep (s : State) (k : Nat) : State :=
  match kernOf s k with
  | none => s
  | some x =>
    let st := kernState s k
    if st ≠ 5 ∧ st ≠ 6 then s else
    let same := readNat s (kernLoc k + 0x90) 8 == x.sent && readNat s (kernLoc k + 0x98) 8 == x.rcvd
    let s1 := writeNat (writeNat s (kernLoc k + 0x90) 8 x.sent) (kernLoc k + 0x98) 8 x.rcvd
    if quietKernel s x then
      if st = 5 then setKernState s1 k 6
      else if same then completeKernel s1 x false else setKernState s1 k 5
    else setKernState s1 k 5
def execKernelEndSweep (k : Nat) (s : State) : Host.Outcome State Fault Refusal := .next (sweep s k)

/-- KILL_PORT (R338). -/
def execKillPort (k : Word) (s : State) : Host.Outcome State Fault Refusal := .next (killStore s k)
/-- PROXY_ARRIVAL (R347) of entry i mod 16 of core i div 16. -/
def execProxyArrival (i : Nat) (s : State) : Host.Outcome State Fault Refusal := .next (proxyArrive s i)
/-- DRAIN_HOLD_START (R350). -/
def execDrainHoldStart (k : Nat) (stage : Fin 8) (mod : Bool) (s : State) : Host.Outcome State Fault Refusal := .next (holdStart s k stage mod)
/-- DRAIN_RELEASE (R350). -/
def execDrainRelease (k : Nat) (stage : Fin 8) (mod : Bool) (s : State) : Host.Outcome State Fault Refusal := .next (drainRelease s k stage mod)

/-! ## Sampler requests -/

/-- The sampler block keeps R283, and no byte of its ring is guarded (R253, log 76). -/
def sampBlockOk (s : State) (g : Nat) : Bool :=
  let a := sampRing s g
  a % 64 == 0 && 1 ≤ sampLog s g && sampLog s g ≤ 7 && 1 ≤ sampScope s g && sampScope s g ≤ 5
    && a + 64 * 2 ^ sampLog s g ≤ Config.clusterBytes && !guardedIn s (clusterLoc (clusterOf g) a) (64 * 2 ^ sampLog s g)
    && (List.range (128 * 64 / Config.spadBytes + 2)).all fun i =>
      let c := a / Config.spadBytes + i
      c * Config.spadBytes ≥ a + 64 * 2 ^ sampLog s g || present s (clusterOf g * 192 + c)

/-- The budget of a request in cycles of core g (R287). -/
def requestBudget (s : State) (g ns : Nat) : Nat :=
  if ns = 0xFFFFFFFFFFFF then ns else min (ns * mhz (curOf s g).toNat / 1000) (2 ^ 48 - 2)

/-- The kernel with sampling that holds core g; of two, the one of priority 0. DESIGN CHOICE (log 89). -/
def sampKernel (s : State) (g : Nat) : Option Kern :=
  let xs := ((getCore s g).kernels.filter fun k => kernSamp s k && (kernState s k == 5 || kernState s k == 6)).filterMap fun k =>
    (kernOf s k).filter fun x => !x.killed
  (xs.find? fun x => x.prio == 0).orElse fun _ => xs.head?

/-- Create the fibre of request n (R285, R286). -/
def startRequest (s0 : State) (g n : Nat) (x : Kern) (h : Word) (loc : Nat) : State :=
  let a := reqLoc s0 g n
  let s := correctRead (correctLoad (acquire s0 g (sampScope s0 g)) g false a 0x28) (spadLoc g 0x1FF00) 0x18
  let w := fun o l => coreNat s g (a + o) l
  let logit := w 8 8 != 0
  let st := match x.groups.find? fun r => r.members.contains g with
    | some r => r.stage
    | none => 0
  let b := requestBudget s g (w 0x10 6)
  let f := launchFib s x.id st (w64 (if logit then w 8 8 else w 0 8)) x.segs (w64 (w 0x20 8)) (w64 n)
  let y := { f with x := f.x.set 2 (w64 (reqAddr s g n)), budget := BitVec.ofNat 48 b }
  let c := getCore s g
  let s1 := setCore s g { c with request := some (n, logit), slots := c.slots.set 14 (ownSlot c.slots[14] (BitVec.ofNat 12 (lrecNat s x.id 0x82 2))) }
  putStatus (createFibre s1 g 4095 y { state := .ready, role := .request, kern := some x.id, hand := h, loc := loc, due := b == 0 }) g n
    (if logit then 1 else 2) 0

/-- SAMPLER_REQUEST_START of core g (R285). -/
def samplerStart (s : State) (g : Nat) : State :=
  let c := getCore s g
  let n := readWord s (spadLoc g 0x1FF08)
  match (sampKernel s g).bind (fun x => (reservedOf s x.id g).map fun r => (x, r)), c.request with
  | some (x, h, loc), none =>
    if (look c.fibres 4095).isNone && !s.rels.any (fun r => r.g == g && r.who == fibreAdder g 4095) && sampBlockOk s g && !isToxic s (spadLoc g 0x1FF00) && reached (readWord s (spadLoc g 0x1FF00)) (n + 1) then startRequest s g n.toNat x h loc else s
  | _, _ => s
def execSamplerRequestStart (g : Nat) (s : State) : Host.Outcome State Fault Refusal := .next (samplerStart s g)

end Sys2Proof.Machine
end

