-- ==== Sys2Proof/Machine/LinkEvents.lean ====
section
/-!
DEFINITION. The events of ports and Welt links (R355-R372).
-/
namespace Sys2Proof.Machine

/-- LINK_TRAINED (R355). -/
def execLinkTrained (l : LinkId) (width rate peer : Nat) (s : State) : Host.Outcome State Fault Refusal := .next (trainLink s l width rate peer)
/-- LINK_TRAINING_FAIL (R355). -/
def execLinkTrainingFail (l : LinkId) (s : State) : Host.Outcome State Fault Refusal := .next (failTraining s l)
/-- LINK_ERROR (R355). -/
def execLinkError (l : LinkId) (s : State) : Host.Outcome State Fault Refusal := .next (retrainLink s l)
/-- CTL_TRAIN (R353, R355). -/
def execCtlTrain (l : LinkId) (s : State) : Host.Outcome State Fault Refusal := .next (ctlStore s l 1)
/-- CTL_DISABLE (R353, R355). -/
def execCtlDisable (l : LinkId) (s : State) : Host.Outcome State Fault Refusal := .next (ctlStore s l 2)
/-- HOST_RESET (R372). -/
def execHostReset (p : Fin 8) (s : State) : Host.Outcome State Fault Refusal := .next (hostReset s p)
/-- HOST_FUNCTION_RESET_COMPLETE (R355). -/
def execHostFunctionResetComplete (p : Fin 8) (s : State) : Host.Outcome State Fault Refusal := .next (hostResetDone s p)
/-- INBOUND_SCRATCHPAD_REQUEST (R360). -/
def execInboundScratchpadRequest (r : Inbound) (s : State) : Host.Outcome State Fault Refusal := .next (inboundSpad s r)
/-- INBOUND_COUNTER_READ (R360). -/
def execInboundCounterRead (r : Inbound) (s : State) : Host.Outcome State Fault Refusal := .next (inboundCounterRead s r)
/-- INBOUND_COUNTER_WRITE (R360, R362). -/
def execInboundCounterWrite (r : Inbound) (s : State) : Host.Outcome State Fault Refusal := .next (inboundCounterWrite s r)
/-- COUNTER_WINDOW_ADD_APPLY (R362). -/
def execCounterWindowAddApply (l : LinkId) (s : State) : Host.Outcome State Fault Refusal := .next (applyHeld s l)
/-- INBOUND_MODULE_REQUEST (R360). -/
def execInboundModuleRequest (r : Inbound) (s : State) : Host.Outcome State Fault Refusal := .next (inboundModule s r)
/-- WELT_FLIT_RECEIVE (R368). -/
def execWeltFlitReceive (w : Fin 16) (f : Flit) (s : State) : Host.Outcome State Fault Refusal := .next (receiveFlit s w f)
/-- WELT_REPLAY_TIMEOUT (R368). -/
def execWeltReplayTimeout (w : Fin 16) (s : State) : Host.Outcome State Fault Refusal := .next (replayWelt s w)
/-- MSIX_VECTOR_UNMASK (R364). -/
def execMsixVectorUnmask (v : Fin 64) (s : State) : Host.Outcome State Fault Refusal := .next (unmaskVector s v.val)

end Sys2Proof.Machine
end

