-- ==== Sys2Proof/Machine/Matmul.lean ====
section
/-!
DEFINITION. Matrix products (R154-R160, R162, R194-R196), conversion, scaling and quantisation (R159, R161, R163, R164, R197-R199).
-/
namespace Sys2Proof.Machine

/-! ## Narrow elements (R154, R155) -/

def efmtBits : EFmt → Nat
  | .f4 | .i4 => 4
  | .f6 => 6
  | .i8 => 8
def efmtCode : EFmt → Nat
  | .f4 => 0 | .f6 => 1 | .i4 => 2 | .i8 => 3
/-- Elements of a line of 48 bytes. -/
def perLine (f : EFmt) : Nat := 384 / efmtBits f

/-- Grid magnitude of a sign-less F4 or F6 code with b mantissa bits. -/
def gridMag (b c : Nat) : Nat := if c / 2 ^ b = 0 then c else (2 ^ b + c % 2 ^ b) * 2 ^ (c / 2 ^ b - 1)
def gridVal (f : EFmt) (c : Nat) : Int := match f with
  | .f4 => if c / 8 % 2 = 1 then -(gridMag 1 (c % 8) : Int) else gridMag 1 (c % 8)
  | .f6 => if c / 32 % 2 = 1 then -(gridMag 3 (c % 32) : Int) else gridMag 3 (c % 32)
  | .i4 => sextNat 4 c
  | .i8 => sextNat 8 c

/-- Grid value of element e of a line, the line as a number. -/
def gridElem (f : EFmt) (line e : Nat) : Int := gridVal f (line / 2 ^ (efmtBits f * e) % 2 ^ efmtBits f)

/-! ## Residue elements (R157-R159) -/

def residueWord (c47 c48 c49 : Nat) : Word := w64 (c49 * 2 ^ 22 + c47 * 2 ^ 11 + c48)
def ch2047 (w : Word) : Nat := bitsOf w 11 11 % 2047
def ch2048 (w : Word) : Nat := bitsOf w 0 11
def ch2049 (w : Word) : Nat := bitsOf w 22 12 % 2049

/-- Add an exact sum to the channels. -/
def residueAdd (w : Word) (s : Int) : Word :=
  residueWord (((ch2047 w : Int) + s) % 2047).toNat (((ch2048 w : Int) + s) % 2048).toNat (((ch2049 w : Int) + s) % 2049).toNat

/-- The represented value (R159). -/
def residueVal (w : Word) : Int :=
  let u := (ch2047 w * (1024 * 2048 * 2049) + ch2048 w * (2047 * 2047 * 2049) + ch2049 w * (1025 * 2047 * 2048)) % 8589932544
  if u < 4294966272 then u else (u : Int) - 8589932544

/-! ## `mmn` (R194, R195) -/

/-- Products of an admitted combination. -/
def mmnCount (fa fb : EFmt) (sp : Bool) : Option Nat := match fa, fb with
  | .f4, .f4 => some 96
  | .f6, .f6 => if sp then none else some 64
  | .i4, .i4 => if sp then none else some 96
  | .i8, .i8 => some 48
  | .f4, .f6 | .f6, .f4 => if sp then none else some 64
  | _, _ => none

def lineNat (t : Tile) (step l len : Nat) : Nat := tileNat t (step * l) len

/-- The exact sum of one output element: lines of A, B, B of the next tile, and the metadata. -/
def mmnSum (fa fb : EFmt) (sp : Bool) (n la lb lb2 lm : Nat) : Int :=
  (List.range n).foldl (fun s e =>
    let p := if sp then 4 * (e / 2) + lm / 2 ^ (2 * e) % 4 else e
    let kb := perLine fb
    s + gridElem fa la e * (if p < kb then gridElem fb lb p else gridElem fb lb2 (p - kb))) 0

def metaLen (fa : EFmt) : Nat := if fa = .f4 then 24 else 12

/-- The tile after t. -/
def nextTile (t : Fin 32) : Fin 32 := t + 1

def needKind (wide : Bool) : M Unit := do
  let g ← theCore
  if isWide (clusterOf g) = wide then pure () else fail 0x0A 0

/-- The accumulator with each element inside the edges replaced. -/
def accInside (rows cols : Nat) (acc : Acc) (f : Nat → Nat → Word → Word) : Acc :=
  vecOf fun k : Fin 64 => if k.val / 8 ≤ rows ∧ k.val % 8 ≤ cols then f (k.val / 8) (k.val % 8) acc[k] else acc[k]

/-- The matrix unit of the core takes the instruction when it is free, and completes it n cycles later; until then the slot is out of the
rotation (R191). -/
def atMatrixUnit (n : Nat) : M Unit := change fun s =>
  let g := s.focus.1
  let k := s.focus.2
  let c := getCore s g
  let done := max c.cyc c.matrix + n
  setCore s g { c with matrix := done, slots := c.slots.set k { c.slots[k] with next := max c.slots[k].next done, busy := done } }

/-- `mmn`. -/
def execMmn (fa fb : EFmt) (sp : Bool) (n : Fin 8) (a b m : Fin 32) (s : State) : Host.Outcome State Fault Refusal :=
  performSeq (do
    let fits := fun (kind : Nat) (f : EFmt) (v : BitVec 15) => isKind kind v && shFmt v == efmtCode f
    needKind false
    if sp then needTile m else pure ()
    needTile a
    needTile b
    if sp then needTile (nextTile b) else pure ()
    needAcc n
    if sp then needShape m (fits 7 fa) else pure ()
    needShape a (fits 1 fa)
    needShape b (fits 2 fb)
    if sp then needShape (nextTile b) (fits 2 fb) else pure ()
    match mmnCount fa fb sp with
    | none => fail 9 (tileAddr 4 (0x40 + n.val))
    | some cnt =>
      let tm ← if sp then rdTile m else pure 0
      let ta ← rdTile a
      let tb ← rdTile b
      let tb2 ← if sp then rdTile (nextTile b) else pure 0
      let acc ← rdAcc n
      let f ← theFib
      atMatrixUnit 16
      wrAcc false n (accInside (shRows f.tshape[a]) (shCols f.tshape[b]) acc fun i j w =>
        residueAdd w (mmnSum fa fb sp cnt (lineNat ta 48 i 48) (lineNat tb 48 j 48) (lineNat tb2 48 j 48) (lineNat tm 24 i (metaLen fa))))) s

/-! ## `mmw` (R162, R196) -/

/-- A value as the wide path reads it: subnormals are zeros. -/
def wideVal (x : Lane) : FVal := match f32Val x with
  | .fin neg m e => if m < 2 ^ 23 then .fin neg 0 e else .fin neg m e
  | v => v

def isInfVal (neg : Bool) : FVal → Bool
  | .inf s => s == neg
  | _ => false
/-- A finite value over 2^300, and whether it is -0. -/
def wideInt : FVal → Int
  | .fin neg m e => atExp neg m e (-300)
  | _ => 0
def isNegZero : FVal → Bool
  | .fin neg m _ => neg && m == 0
  | _ => false

/-- R162: c and the products in any order, one rounding, no subnormal result. -/
def wideSum (terms : List FVal) : Lane :=
  if terms.contains .nan || (terms.any (isInfVal true) && terms.any (isInfVal false)) then qnan
  else if terms.any (isInfVal true) then infOf true
  else if terms.any (isInfVal false) then infOf false
  else
    let s := (terms.map wideInt).foldl (· + ·) 0
    if s = 0 then zeroOf (terms.all isNegZero)
    else
      let y := roundInt .rne s (-300) false
      if y.toNat % 2 ^ 31 < 2 ^ 23 then zeroOf (decide (s < 0)) else y

/-- One output element of `mmw`, lines of BF16 as numbers. -/
def mmwElem (c : Lane) (la lb : Nat) : Lane :=
  let el := fun (l k : Nat) => wideVal (fromBf16 (l / 2 ^ (16 * k) % 65536))
  wideSum (wideVal c :: (List.range 24).map fun k => mulVal (el la k) (el lb k))

/-- `mmw`. -/
def execMmw (n : Fin 8) (a b : Fin 32) (s : State) : Host.Outcome State Fault Refusal :=
  performSeq (do
    needKind true
    needTile a
    needTile b
    needAcc n
    needShape a (isKind 3)
    needShape b (isKind 4)
    let ta ← rdTile a
    let tb ← rdTile b
    let acc ← rdAcc n
    let f ← theFib
    atMatrixUnit 8
    wrAcc false n (accInside (shRows f.tshape[a]) (shCols f.tshape[b]) acc fun i j w =>
      (mmwElem (w.setWidth 32) (lineNat ta 48 i 48) (lineNat tb 48 j 48)).zeroExtend 64)) s

/-! ## Conversion and scaling (R197, R198) -/

def accElem (a : Acc) (i j : Nat) : Word := a[Fin.ofNat 64 (8 * i + j)]
def sat32 (v : Int) : Int := clampInt (-2 ^ 31) (2 ^ 31 - 1) v

/-- `aout.i`; like every `aout`, `scacc` and `qcvt` it is complete in its issue (R191). DESIGN CHOICE (log 108). -/
def execAoutI (d : Fin 32) (n : Fin 8) (s : State) : Host.Outcome State Fault Refusal :=
  performSeq (do
    needTile d
    needAcc n
    let acc ← rdAcc n
    wrTile true d (tileFrom fun i j => BitVec.ofInt 32 (sat32 (residueVal (accElem acc i j))))
    wrShape d 0x283F
    if acc.toList.any (fun w => sat32 (residueVal w) != residueVal w) then modFib fun f => { f with sat := f.sat ||| BitVec.ofNat 8 (2 ^ n.val) } else pure ()) s

/-- `aout.f`. -/
def execAoutF (d : Fin 32) (n : Fin 8) (s : State) : Host.Outcome State Fault Refusal :=
  performSeq (do
    needTile d
    needAcc n
    let acc ← rdAcc n
    wrTile true d (tileFrom fun i j => (accElem acc i j).setWidth 32)
    wrShape d 0x303F) s

/-- R161; a zero result has the sign that IEEE 754 gives the sum with a positive zero for q = 0. DEDUCED (log 54). -/
def scaleApply (t q : Lane) (row col : Nat) : Lane :=
  if row = 255 ∨ col = 255 ∨ isNan t = true then qnan
  else addVal .rne (f32Val t) (.fin q.msb q.toInt.natAbs ((row : Int) + col - 254))

/-- `scacc`. -/
def execScacc (d a b : Fin 32) (s : State) : Host.Outcome State Fault Refusal :=
  performSeq (do
    needTile d
    needTile a
    needTile b
    needShape d (isKind 6)
    needShape a (isKind 5)
    needShape b (isKind 8)
    let td ← rdTile d
    let ta ← rdTile a
    let tb ← rdTile b
    let f ← theFib
    let rows := shRows f.tshape[d]
    let cols := shCols f.tshape[d]
    let low := tileFrom fun i j => if i ≤ rows ∧ j ≤ cols then
      scaleApply (tileElem td i j) (tileElem ta i j) (tileNat tb i 1) (tileNat tb (8 + j) 1) else tileElem td i j
    wrTile false d (BitVec.ofNat 4096 (td.toNat / 2 ^ 2048 * 2 ^ 2048) ||| low)) s

/-! ## `qcvt` (R163, R164, R199) -/

/-- One stage of the transform at distance h. -/
def hadStage (h : Nat) (z : List Lane) : List Lane :=
  (List.range z.length).map fun i =>
    if i / h % 2 = 0 then f32Add .rne (nth z i 0) (nth z (i + h) 0) else f32Sub .rne (nth z (i - h) 0) (nth z i 0)
def hadamard : Nat → Nat → List Lane → List Lane
  | 0, _, z => z
  | k + 1, h, z => hadamard k (2 * h) (hadStage h z)

def emaxOf : EFmt → Nat
  | .f4 | .f6 | .i4 => 2
  | .i8 => 6
/-- Mantissa bits of F4 and F6. -/
def mantBits : EFmt → Nat
  | .f4 => 1
  | _ => 3

/-- The magnitude code, below 2^k, whose grid value is nearest to m times 2^e, ties to an even code. -/
def nearestCode (b k m : Nat) (e : Int) : Nat :=
  let dist := fun c => ((m * 2 ^ e.toNat : Int) - (gridMag b c * 2 ^ (-e).toNat : Int)).natAbs
  (List.range (2 ^ k)).foldl (fun best c => if dist c < dist best ∨ (dist c = dist best ∧ c % 2 = 0) then c else best) 0

/-- The code of z / 2^s. -/
def quantCode (f : EFmt) (s : Int) (z : Lane) : Nat := match f32Val z with
  | .fin neg m e => match f with
      | .i4 => (clampInt (-8) 7 (toInteger .rne neg m (e - s)) % 16).toNat
      | .i8 => (clampInt (-128) 127 (toInteger .rne neg m (e - s)) % 256).toNat
      | _ =>
        let b := mantBits f
        let c := nearestCode b (b + 2) m (e - s + b)
        c + if neg ∧ c ≠ 0 then 2 ^ (b + 2) else 0
  | _ => 0

/-- The scale and the codes of a block (R164). -/
def quantBlock (f : EFmt) (z : List Lane) : Nat × List Nat :=
  if z.any (fun x => x.toNat % 2 ^ 31 ≥ 0x7F800000) then (255, z.map fun _ => 0) else
  let mx := z.foldl (fun a x => max a (x.toNat % 2 ^ 31)) 0
  if mx = 0 then (0, z.map fun _ => 0) else
  let lg : Int := match f32Val (BitVec.ofNat 32 mx) with
    | .fin _ m e => (Nat.log2 m : Int) + e
    | _ => 0
  let e := (clampInt 0 254 (lg - emaxOf f + 127)).toNat
  (e, z.map (quantCode f ((e : Int) - 127)))

/-- Put codes of w bits from bit position lo of a tile. -/
def putCodes (w : Nat) : Nat → List Nat → Tile → Tile
  | _, [], t => t
  | lo, c :: cs, t => putCodes w (lo + w) cs (tilePut t lo w c)

/-- `qcvt`. -/
def execQcvt (h32 : Bool) (f : EFmt) (d a b : Fin 32) (line : Fin 8) (pos : BitVec 7) (src : BitVec 6) (sb : Fin 16) (s : State) :
    Host.Outcome State Fault Refusal :=
  performSeq (do
    let n := if h32 then 32 else 16
    needTile d
    needTile a
    needTile b
    needShape d fun v => (isKind 1 v || isKind 2 v) && shFmt v == efmtCode f
    needShape a (isKind 6)
    needShape b (isKind 8)
    if pos.toNat + n > perLine f then fail 9 (tileAddr 4 d.val)
    else
      let ta ← rdTile a
      let x := (List.range n).map fun k => BitVec.ofNat 32 (tileNat ta (4 * (src.toNat + k)) 4)
      let q := quantBlock f (hadamard (if h32 then 5 else 4) 1 x)
      let td ← oldTile d
      wrTile false d (putCodes (efmtBits f) (384 * line.val + efmtBits f * pos.toNat) q.2 td)
      let tb ← oldTile b
      wrTile false b (tilePut tb (8 * sb.val) 8 q.1)) s

end Sys2Proof.Machine
end

