-- ==== Sys2Proof/Machine/Memory.lean ====
section
/-!
DEFINITION. Loads and stores (R84-R86), narrowing and querying segments (R87, R88), arming and disarming streams (R90, R93).
-/
namespace Sys2Proof.Machine

/-- The acquire of a load with an ORD (R85). -/
def acquireOrd (acq : Option Scope) : M Unit := match acq with
  | some sc => change fun s => acquire s s.focus.1 (scopeCode sc)
  | none => pure ()

/-- The bytes of a load instruction: size and alignment n. -/
def loadOp (acq : Option Scope) (m : MemRef) (n : Nat) : M (List Byte) := do
  let o ← rdMem m
  acquireOrd acq
  loadSeg m.sg o n n acq.isSome

/-- `ld` (R84, R85). -/
def execLd (sz : Fin 7) (acq : Option Scope) (d : SReg) (m : MemRef) (s : State) : Host.Outcome State Fault Refusal :=
  performSeq (do
    let b ← loadOp acq m (sizeBytes sz.val)
    result d (extendSize sz.val (natOf b))) s

/-- `ldv` (R84, R85). -/
def execLdv (full : Bool) (acq : Option Scope) (d : Fin 16) (m : MemRef) (s : State) : Host.Outcome State Fault Refusal :=
  performSeq (do
    let b ← loadOp acq m (if full then 64 else 32)
    resultV d (lanesOf b)) s

/-- The lanes of `ldvb` (R85): a widened BF16, a lane, or two lanes in turn. -/
def broadcastBytes (sz : Fin 3) (b : List Byte) : VReg :=
  let m := natOf b
  vecOf fun k : Fin 16 => BitVec.ofNat 32 (if sz = 0 then m * 65536 else if sz = 1 then m else if k.val % 2 = 0 then m else m / 2 ^ 32)

/-- `ldvb` (R84, R85). -/
def execLdvb (sz : Fin 3) (acq : Option Scope) (d : Fin 16) (m : MemRef) (s : State) : Host.Outcome State Fault Refusal :=
  performSeq (do
    let b ← loadOp acq m (2 ^ (sz.val + 1))
    resultV d (broadcastBytes sz b)) s

/-- `st` (R84, R86). -/
def execSt (sz : Fin 4) (m : MemRef) (c : SReg) (s : State) : Host.Outcome State Fault Refusal :=
  performSeq (do
    let o ← rdMem m
    let v ← rd c
    storeSeg m.sg o (2 ^ sz.val) (bytesOf (2 ^ sz.val) v.toNat)) s

/-- `stv` (R84, R86). -/
def execStv (full : Bool) (m : MemRef) (c : Fin 16) (s : State) : Host.Outcome State Fault Refusal :=
  performSeq (do
    let o ← rdMem m
    let v ← rdV c
    let n := if full then 64 else 32
    storeSeg m.sg o n ((laneBytes v).take n)) s

/-! ## Segments -/

/-- The rights that `sseg` keeps (R87): RD, WR, CTR, STR of bits 0 to 3; EXE goes. -/
def keptRights (keep : BitVec 4) : BitVec 5 :=
  BitVec.ofNat 5 (keep.toNat % 4 + keep.toNat / 4 * 8)

/-- `sseg` (R87). -/
def execSseg (keep : BitVec 4) (t : Fin 8) (m : MemRef) (c : SReg) (s : State) : Host.Outcome State Fault Refusal :=
  performSeq (do
    let o ← rdMem m
    let n ← rd c
    let f ← theFib
    let src := f.seg[m.sg]
    if o.toNat + n.toNat > src.limit.toNat then fail 6 o
    else if src.cls = 3 ∧ o ≠ 0 then fail 6 o
    else setSeg t fun _ => { base := if src.cls = 3 then src.base else src.base + o, limit := n.setWidth 48, cls := src.cls
                             rights := src.rights &&& keptRights keep }) s

/-- The report of `segq` (R88). -/
def segReport (g : Seg) (o : Word) (n : Nat) : Word :=
  let addr := classAddr g o
  w64 ((if o.toNat + n ≤ g.limit.toNat ∧ addr + n ≤ classCap g then 2 ^ 63 else 0) + (if addr % n = 0 then 2 ^ 62 else 0) + g.rights.toNat * 2 ^ 57
    + g.cls.toNat * 2 ^ 55 + addr % 2 ^ 55)

/-- `segq` (R88). -/
def execSegq (sz : Fin 9) (d : SReg) (m : MemRef) (s : State) : Host.Outcome State Fault Refusal :=
  performSeq (do
    let o ← rdMem m
    let f ← theFib
    result d (segReport f.seg[m.sg] o (sizeBytes sz.val))) s

/-! ## Streams -/

/-- The failure of element j that arming tests: cause 0x06 or 0x07 of R79, and for the host and the peer aperture the 0x06 of R363 and
R369, which stands in place of translation there. -/
def elementFault (s : State) (g : Seg) (p : Pattern) (need j : Nat) : Option (Nat × Word) :=
  let n := sizeBytes p.esize
  let o := p.off j
  match segFault s g o n n need with
  | some (5, _) => none
  | some r => some r
  | none =>
    if g.cls = 2 ∧ inAperture (classAddr g o) = true then match pieceAt s (classAddr g o) n o (if need = rightWr then accStore else accLoad) with
      | .bad 6 a => some (6, a)
      | _ => none
    else none

/-- The least failing element from j on. -/
def failingFrom (s : State) (g : Seg) (p : Pattern) (need : Nat) : Nat → Nat → Option (Nat × Word)
  | 0, _ => none
  | fuel + 1, j => match elementFault s g p need j with
    | some r => some r
    | none => failingFrom s g p need fuel (j + 1)

/-- Least and greatest offset of a pattern as integers, before reduction. -/
def patternLow (p : Pattern) : Int := (p.base.toNat : Int) + min 0 ((p.c0 - 1 : Nat) * p.s0) + min 0 ((p.c1 - 1 : Nat) * p.s1) + min 0 ((p.c2 - 1 : Nat) * p.s2)
def patternHigh (p : Pattern) : Int := (p.base.toNat : Int) + max 0 ((p.c0 - 1 : Nat) * p.s0) + max 0 ((p.c1 - 1 : Nat) * p.s1) + max 0 ((p.c2 - 1 : Nat) * p.s2)

/-- Every element passes, shown by the least and the greatest offset, the strides, and the whole range between. -/
def plainlyFine (s : State) (g : Seg) (p : Pattern) : Bool :=
  let n := sizeBytes p.esize
  let lo := patternLow p
  let hi := patternHigh p + n
  let even := fun (c : Nat) (d : Int) => c == 1 || d % (n : Int) == 0
  let first := w64 lo.toNat
  let addr := classAddr g first
  let len := (hi - lo).toNat
  0 ≤ lo && hi ≤ g.limit.toNat && addr + len ≤ classCap g && addr % n == 0 && even p.c0 p.s0 && even p.c1 p.s1 && even p.c2 p.s2
    && (g.cls != 2 || addr + len ≤ Config.peerVa) && !(g.cls == 1 && absentIn s s.focus.1 addr len) && (g.cls.toNat ≥ 2 || s.fib.steward || !guardedIn s (nearLoc s.focus.1 g addr) len)

/-- The first check of R90 on the elements that fails. -/
def armFault (s : State) (g : Seg) (p : Pattern) (need : Nat) : Option (Nat × Word) :=
  if plainlyFine s g p then none else failingFrom s g p need p.total 0

/-- `sarm` (R90). The core's read cache is emptied, so that no pop returns a value older than the `sarm` (R92). -/
def execSarm (out : Bool) (d : StreamReg) (m : MemRef) (dseg : Fin 8) (s : State) : Host.Outcome State Fault Refusal :=
  performSeq (do
    let po ← rdMem m
    let b ← loadSeg m.sg po 64 64 false
    match patternOf b d.isV with
    | none => fail 6 po
    | some p =>
      let t ← get
      let g := t.fib.seg[dseg]
      let need := if out then rightWr else rightRd
      if hasRights g rightStr = false ∨ hasRights g need = false then fail 6 po
      else match armFault t g p need with
        | some (c, a) => fail c a
        | none =>
          change fun u => dropCache u u.focus.1
          modFib fun f => disarm f d.p
          setStream d.p { armed := true, isV := d.isV, out := out, dseg := dseg, pseg := m.sg, poff := po.setWidth 48, pat := some p }) s

/-- `sdis` (R93): c names the position, whichever of its registers is armed. -/
def execSdis (d : SReg) (c : StreamReg) (s : State) : Host.Outcome State Fault Refusal :=
  performSeq (do
    let f ← theFib
    let r := f.streams[c.p]
    modFib fun x => disarmNamed x c
    result d (if r.armed then r.index.zeroExtend 64 else 0)) s

end Sys2Proof.Machine
end

