-- ==== Sys2Proof/Machine/Phases.lean ====
section
/-!
DEFINITION. Publish and acquire (R131), and phase drains (R351).
-/
namespace Sys2Proof.Machine

/-- `pub` (R120, R131). -/
def execPub (sc : Scope) (s : State) : Host.Outcome State Fault Refusal :=
  performSeq (release s.fib (scopeCode sc)) s

/-- `acq` (R122, R131). -/
def execAcq (sc : Scope) (s : State) : Host.Outcome State Fault Refusal :=
  performSeq (change fun t => acquire t t.focus.1 (scopeCode sc)) s

/-- `drain` (R351): the release that ends it completes the instruction with the core's number. -/
def execDrain (mod : Bool) (d : SReg) (s : State) : Host.Outcome State Fault Refusal :=
  performSeq (do
    let sc := if mod then 4 else 2
    match ← takeWake with
    | some (.value v) =>
      change fun t => acquire t t.focus.1 sc
      result d v
    | _ =>
      let t ← get
      if (myGroup t).isNone then fail 5 0
      else
        release s.fib sc
        leaveKeeping s.fib (.sleep (.drain mod) none s.fib.waddr)) s

end Sys2Proof.Machine
end

