-- ==== Sys2Proof/Machine/PortEvents.lean ====
section
/-!
DEFINITION. The events at the ports and registers of the steward window (R8, R241, R246, R401).
-/
namespace Sys2Proof.Machine

/-- WAKE_PORT (R241): a store of inc to the wake port of core g. -/
def execWakePort (g : Nat) (inc : Word) (who : Adder) (s : State) : Host.Outcome State Fault Refusal := .next (wakeStore s g inc who)
/-- REFUSE_PORT (R241): a store of t to the refuse port of core g. -/
def execRefusePort (g : Nat) (t : Word) (s : State) : Host.Outcome State Fault Refusal := .next (refuseStore s g t)

/-- Offset of a word of a tier's pool control block (R246). -/
def poolWord (tier : Fin 4) (off : Nat) : Nat := 0x12010000 + 64 * tier.val + off

/-- POP64 (R246): a load of the port takes a frame. -/
def execPop64 (tier : Fin 4) (s : State) : Host.Outcome State Fault Refusal := .next (swLoad s (poolWord tier 0) 8 true).2
/-- PUSH64 (R246): a store of frame to the port. -/
def execPush64 (tier : Fin 4) (frame : Word) (s : State) : Host.Outcome State Fault Refusal := .next (portStore s (poolWord tier 8) frame ⟨0, 0, 0⟩)
/-- POP512 (R246). -/
def execPop512 (tier : Fin 4) (s : State) : Host.Outcome State Fault Refusal := .next (swLoad s (poolWord tier 0x10) 8 true).2
/-- PUSH512 (R246). -/
def execPush512 (tier : Fin 4) (frame : Word) (s : State) : Host.Outcome State Fault Refusal := .next (portStore s (poolWord tier 0x18) frame ⟨0, 0, 0⟩)

/-- REGISTER_WRITE (R8) of the bytes at an offset of the steward window. -/
def execRegisterWrite (off : Nat) (data : List Byte) (s : State) : Host.Outcome State Fault Refusal := .next (registerStore s off data)

end Sys2Proof.Machine
end

