-- ==== Sys2Proof/Machine/QueueEvents.lean ====
section
/-!
DEFINITION. The events of queues and of a kernel's way to its cores (R296, R301-R307, R322-R327).
-/
namespace Sys2Proof.Machine

/-- QUEUE_OPEN_PORT (R296). -/
def execQueueOpenPort (q : Word) (s : State) : Host.Outcome State Fault Refusal := .next (openQueue s q)
/-- QUEUE_CLOSE_PORT (R296). -/
def execQueueClosePort (q : Word) (s : State) : Host.Outcome State Fault Refusal := .next (closeQueue s q)

/-- QUEUE_NOTIFY_WAKE (R303): the waiter's wake is acted on; without a value the waiter tests and enrols again (R102). -/
def notifyWakes (s : State) (q : Nat) : State :=
  match s.fired.find? fun e => e.1 == .notify q with
  | none => s
  | some (_, v) =>
    let s1 := { s with fired := s.fired.filter fun e => e.1 != .notify q }
    match v with
    | some _ => wakeQueue s1 q
    | none => if qState s1 q = 1 then watchNotify s1 q else s1
def execQueueNotifyWake (q : Nat) (s : State) : Host.Outcome State Fault Refusal := .next (notifyWakes s q)

/-- QUEUE_SLOT_FREED (R303): the first pending queue binds the lowest free slot. -/
def slotFreed (s : State) (q : Nat) : State :=
  match s.pending, freeSlotNo s with
  | p :: _, some h => if p = q then bindQueue s q h else s
  | _, _ => s
def execQueueSlotFreed (q : Nat) (s : State) : Host.Outcome State Fault Refusal := .next (slotFreed s q)

/-- QUEUE_UNBIND (R303): an idle bound queue whose slot a pending queue needs, or whose close was asked for. -/
def chooseUnbind (s : State) (q : Nat) : State :=
  if qState s q = 3 ∧ queueIdle s q = true ∧ ((queueOf s q).close = true ∨ (s.pending ≠ [] ∧ (freeSlotNo s).isNone = true ∧ oldestIdle s = some q)) then
    startUnbind s q
  else s
def execQueueUnbind (q : Nat) (s : State) : Host.Outcome State Fault Refusal := .next (chooseUnbind s q)

/-- UNBIND_RETEST (R303). -/
def execUnbindRetest (q : Nat) (s : State) : Host.Outcome State Fault Refusal := .next (if qState s q = 4 then retestQueue s q else s)
/-- RECORD_READ (R301). -/
def execRecordRead (q : Nat) (s : State) : Host.Outcome State Fault Refusal := .next (readRecord s q)
/-- KERNEL_ADMISSION (R322). -/
def execKernelAdmission (k : Nat) (s : State) : Host.Outcome State Fault Refusal := .next (admitKernel s k)
/-- GATE_REACHED (R307). -/
def execGateReached (k : Nat) (s : State) : Host.Outcome State Fault Refusal := .next (gateKernel s k)
/-- KERNEL_PLACEMENT (R325). -/
def execKernelPlacement (k : Nat) (s : State) : Host.Outcome State Fault Refusal := .next (placeKernelEvent s k)
/-- POPULATION_COMPLETE (R327). -/
def execPopulationComplete (k : Nat) (s : State) : Host.Outcome State Fault Refusal := .next (populate s k)
/-- QUEUE_ARBITER (R306). -/
def execQueueArbiter (g : Nat) (s : State) : Host.Outcome State Fault Refusal := .next (arbitrate s g)

end Sys2Proof.Machine
end

