-- ==== Sys2Proof/Machine/Sampling.lean ====
section
/-!
DEFINITION. The sampling instructions (R288-R293).
-/
namespace Sys2Proof.Machine

/-- The generator of R289. -/
def rngMix (a b : Word) : Word :=
  let x := a ^^^ ((b + 1) * 0x9E3779B97F4A7C15)
  let y := (x ^^^ (x >>> 30)) * 0xBF58476D1CE4E5B9
  let z := (y ^^^ (y >>> 27)) * 0x94D049BB133111EB
  z ^^^ (z >>> 31)

/-- `rngx` (R289). -/
def execRngx (d a : SReg) (b : SrcB) (s : State) : Host.Outcome State Fault Refusal :=
  performSeq (do
    let x ← rd a
    let y ← rdB b
    result d (rngMix x y)) s

/-! ## vtopk (R290) -/

def noId : Lane := 0xFFFFFFFF

/-- A candidate is kept: its id is not empty and its value no NaN. -/
def kept (e : Lane × Lane) : Bool := e.2 != noId && !isNan e.1
/-- e ranks before f: by value descending, zeros equal, then by id ascending. -/
def ranksBefore (e f : Lane × Lane) : Bool :=
  let x := f32Key false e.1
  let y := f32Key false f.1
  x > y || (x == y && e.2.toNat < f.2.toNat)
/-- Put a candidate into its rank. -/
def insertRank (e : Lane × Lane) : List (Lane × Lane) → List (Lane × Lane)
  | [] => [e]
  | f :: r => if ranksBefore e f then e :: f :: r else f :: insertRank e r

/-- The merged list. -/
def topMerge (k : Nat) (old new : VReg) (base : Lane) (cnt : Nat) : VReg :=
  let had := (((List.finRange 8).filter fun j => j.val < k).map fun j => (old[(⟨j.val, by omega⟩ : Fin 16)], old[(⟨8 + j.val, by omega⟩ : Fin 16)])).filter kept
  let more := (((List.finRange 16).filter fun i => i.val < cnt).map fun i => (new[i], base + BitVec.ofNat 32 i.val)).filter kept
  let l := (had ++ more).foldl (fun l e => insertRank e l) []
  let top := l.take k
  vecOf fun i : Fin 16 => if i.val < 8 then (nth top i.val (0xFF800000, noId)).1 else (nth top (i.val - 8) (0xFF800000, noId)).2

/-- `vtopk` (R290). -/
def execVtopk (k : Fin 8) (d : Fin 12) (a : Fin 16) (b : SrcB) (c : SReg) (s : State) : Host.Outcome State Fault Refusal :=
  performSeq (do
    let new ← rdV a
    let base ← rdB b
    let n ← rd c
    let old ← rdV (Fin.castLE (by omega) d)
    resultV (Fin.castLE (by omega) d) (topMerge (k.val + 1) old new (base.setWidth 32) (min n.toNat 16))) s

/-! ## vsamp (R291) -/

/-- e^x of a binary32 value, rounded once. -/
def rnexp (x : Lane) : Lane := match f32Val x with
  | .nan => qnan
  | .inf neg => if neg then 0 else infOf false
  | .fin neg m e => expExact (atExp neg m e e) e

def ltF (x y : Lane) : Bool := !isNan x && !isNan y && f32Key false x < f32Key false y
def isZeroF (x : Lane) : Bool := x.toNat % 2 ^ 31 == 0
def isInfF (x : Lane) : Bool := x.toNat % 2 ^ 31 == 0x7F800000

/-- p_j and cum_j in order, from the sum s. -/
def cumulate (v0 t : Lane) : List Lane → Lane → List (Lane × Lane)
  | [], _ => []
  | v :: r, s =>
    let p := rnexp (divRne (f32Sub .rne v v0) t)
    let s1 := f32Add .rne s p
    (p, s1) :: cumulate v0 t r s1

/-- Index of the token drawn. -/
def drawIndex (l : List (Lane × Lane)) (u : Lane) : Nat := match l.findIdx? fun e => ltF u e.2 with
  | some j => j
  | none => ((List.range l.length).filter fun j => !isZeroF (nth l j (0, 0)).1).getLastD 0

/-- The token of R291. -/
def sampleToken (a : VReg) (t : Lane) (c : Word) : Lane :=
  let ids := (List.finRange 8).map fun j => a[(⟨8 + j.val, by omega⟩ : Fin 16)]
  let vals := (List.finRange 8).map fun j => a[(⟨j.val, by omega⟩ : Fin 16)]
  let n := (ids.takeWhile (· != noId)).length
  let v0 := nth vals 0 0
  if n = 0 then noId
  else if isNan t || isInfF t || !ltF 0 t || isInfF v0 then nth ids 0 0
  else
    let l := cumulate v0 t (vals.take n) 0
    let total := (l.map (·.2)).getLastD 0
    let u := roundVal .rne (mulVal (.fin false (bitsOf c 40 24) (-24)) (f32Val total))
    nth ids (drawIndex l u) 0

/-- `vsamp` (R291). -/
def execVsamp (d : SReg) (a : Fin 16) (b : SrcB) (c : SReg) (s : State) : Host.Outcome State Fault Refusal :=
  performSeq (do
    let l ← rdV a
    let t ← rdB b
    let w ← rd c
    result d ((sampleToken l (t.setWidth 32) w).zeroExtend 64)) s

/-! ## vaccpt (R292, R293) -/

/-- Exact order of two values; false for a NaN. -/
def ltVal : FVal → FVal → Bool
  | .nan, _ | _, .nan => false
  | .inf s, .inf t => s && !t
  | .inf s, _ => s
  | _, .inf t => !t
  | .fin s m e, .fin t n d => atExp s m e (min e d) < atExp t n d (min e d)

/-- How many of the first n lanes pass in a row. -/
def leading (n : Nat) (ok : Fin 16 → Bool) : Nat := (((List.finRange 16).take n).takeWhile ok).length

/-- `vaccpt.p` with n + 1 drafts. -/
def execVaccptP (n : Fin 16) (d : SReg) (a b c : Fin 16) (s : State) : Host.Outcome State Fault Refusal :=
  performSeq (do
    let p ← rdV a
    let q ← rdV b
    let u ← rdV c
    result d (w64 (leading (n.val + 1) fun i => ltVal (prodF u[i] q[i]) (f32Val p[i])))) s

/-- `vaccpt.e` with n + 1 drafts. -/
def execVaccptE (n : Fin 16) (d : SReg) (a b : Fin 16) (s : State) : Host.Outcome State Fault Refusal :=
  performSeq (do
    let p ← rdV a
    let q ← rdV b
    result d (w64 (leading (n.val + 1) fun i => p[i] == q[i]))) s

/-- `vaccpt.ln` (R293). -/
def execVaccptLn (d : Fin 12) (a : SReg) (s : State) : Host.Outcome State Fault Refusal :=
  performSeq (do
    let area ← needContext
    let i ← rd a
    let f ← topFrame area
    let t ← get
    if i.toNat ≥ frLen t area f then stackFault 6
    else if frLaneh t area f = 0 then stackFault 7
    else
      let slot := frSlot0 t area f + i.toNat
      let x ← laneTokens (frLaneh t area f) (slot + 1)
      let b ← tokenRead x (64 * slot) 64
      resultV (Fin.castLE (by omega) d) (lanesOf b)) s

end Sys2Proof.Machine
end

