-- ==== Sys2Proof/Machine/Scalar.lean ====
section
/-!
DEFINITION. The scalar instructions (R67-R73).
-/
namespace Sys2Proof.Machine

/-! ## The functions f -/

/-- R68: the high half of the signed and of the natural product. -/
def mulhWord (a b : Word) : Word := wrap64 (a.toInt * b.toInt / 2 ^ 64)
def mulhnWord (a b : Word) : Word := w64 (a.toNat * b.toNat / 2 ^ 64)

/-- R69: towards zero; by 0, quotient 0 and remainder a. -/
def divWord (a b : Word) : Word := if b = 0 then 0 else wrap64 (Int.tdiv a.toInt b.toInt)
def remWord (a b : Word) : Word := if b = 0 then a else wrap64 (a.toInt - b.toInt * Int.tdiv a.toInt b.toInt)
def divnWord (a b : Word) : Word := w64 (a.toNat / b.toNat)
def remnWord (a b : Word) : Word := w64 (a.toNat % b.toNat)

/-- R70. -/
def shlWord (a b : Word) : Word := if b.toNat ≥ 64 then 0 else w64 (a.toNat * 2 ^ b.toNat)
def shrWord (a b : Word) : Word := if b.toNat ≥ 64 then 0 else w64 (a.toNat / 2 ^ b.toNat)
def sarWord (a b : Word) : Word := wrap64 (a.toInt / 2 ^ min b.toNat 63)
def rolWord (a b : Word) : Word :=
  let n := b.toNat % 64
  w64 (a.toNat * 2 ^ n + a.toNat / 2 ^ (64 - n))

/-- R68. -/
def minWord (a b : Word) : Word := if a.toInt < b.toInt then a else b
def maxWord (a b : Word) : Word := if a.toInt > b.toInt then a else b
def minnWord (a b : Word) : Word := if a.toNat < b.toNat then a else b
def maxnWord (a b : Word) : Word := if a.toNat > b.toNat then a else b
def clzWord (a : Word) : Word := if a = 0 then 64 else w64 (63 - Nat.log2 a.toNat)
def ctzWord (a : Word) : Word := w64 ((leastBelow 64 fun i => a.getLsbD i).getD 64)
def popcWord (a : Word) : Word := w64 ((List.range 64).countP fun i => a.getLsbD i)

/-- R71. -/
def fieldPos (b : Word) : Nat := bitsOf b 0 6
def fieldLen (b : Word) : Nat := min (bitsOf b 8 7) 64
def bextWord (a b : Word) : Word := w64 (a.toNat / 2 ^ fieldPos b % 2 ^ fieldLen b)
def bextsWord (a b : Word) : Word := wrap64 (sextNat (fieldLen b) (a.toNat / 2 ^ fieldPos b))
def binsWord (a b c : Word) : Word :=
  let mask := w64 ((2 ^ fieldLen b - 1) * 2 ^ fieldPos b)
  (a &&& ~~~mask) ||| (w64 (c.toNat * 2 ^ fieldPos b) &&& mask)
def sextWord (a b : Word) : Word := if b.toNat = 0 ∨ b.toNat ≥ 64 then a else wrap64 (sextNat b.toNat a.toNat)

/-! ## Shapes of operands -/

def scalar1 (f : Word → Word) (d a : SReg) : M Unit := do
  let x ← rd a
  result d (f x)

def scalar2 (f : Word → Word → Word) (d a : SReg) (b : SrcB) : M Unit := do
  let x ← rd a
  let y ← rdB b
  result d (f x y)

def scalar3 (f : Word → Word → Word → Word) (d a : SReg) (b : SrcB) (c : SReg) : M Unit := do
  let x ← rd a
  let y ← rdB b
  let z ← rd c
  result d (f x y z)

/-! ## Meanings -/

/-- `add` (R68). -/
def execAdd (d a : SReg) (b : SrcB) (s : State) : Host.Outcome State Fault Refusal := performSeq (scalar2 (· + ·) d a b) s
/-- `sub` (R68). -/
def execSub (d a : SReg) (b : SrcB) (s : State) : Host.Outcome State Fault Refusal := performSeq (scalar2 (· - ·) d a b) s
/-- `mul` (R68). -/
def execMul (d a : SReg) (b : SrcB) (s : State) : Host.Outcome State Fault Refusal := performSeq (scalar2 (· * ·) d a b) s
/-- `mulh` (R68). -/
def execMulh (d a : SReg) (b : SrcB) (s : State) : Host.Outcome State Fault Refusal := performSeq (scalar2 mulhWord d a b) s
/-- `mulhn` (R68). -/
def execMulhn (d a : SReg) (b : SrcB) (s : State) : Host.Outcome State Fault Refusal := performSeq (scalar2 mulhnWord d a b) s
/-- `div` (R69). -/
def execDiv (d a : SReg) (b : SrcB) (s : State) : Host.Outcome State Fault Refusal := performSeq (scalar2 divWord d a b) s
/-- `divn` (R69). -/
def execDivn (d a : SReg) (b : SrcB) (s : State) : Host.Outcome State Fault Refusal := performSeq (scalar2 divnWord d a b) s
/-- `rem` (R69). -/
def execRem (d a : SReg) (b : SrcB) (s : State) : Host.Outcome State Fault Refusal := performSeq (scalar2 remWord d a b) s
/-- `remn` (R69). -/
def execRemn (d a : SReg) (b : SrcB) (s : State) : Host.Outcome State Fault Refusal := performSeq (scalar2 remnWord d a b) s
/-- `and` (R68). -/
def execAnd (d a : SReg) (b : SrcB) (s : State) : Host.Outcome State Fault Refusal := performSeq (scalar2 (· &&& ·) d a b) s
/-- `or` (R68). -/
def execOr (d a : SReg) (b : SrcB) (s : State) : Host.Outcome State Fault Refusal := performSeq (scalar2 (· ||| ·) d a b) s
/-- `xor` (R68). -/
def execXor (d a : SReg) (b : SrcB) (s : State) : Host.Outcome State Fault Refusal := performSeq (scalar2 (· ^^^ ·) d a b) s
/-- `andn` (R68). -/
def execAndn (d a : SReg) (b : SrcB) (s : State) : Host.Outcome State Fault Refusal := performSeq (scalar2 (fun x y => x &&& ~~~y) d a b) s
/-- `shl` (R70). -/
def execShl (d a : SReg) (b : SrcB) (s : State) : Host.Outcome State Fault Refusal := performSeq (scalar2 shlWord d a b) s
/-- `shr` (R70). -/
def execShr (d a : SReg) (b : SrcB) (s : State) : Host.Outcome State Fault Refusal := performSeq (scalar2 shrWord d a b) s
/-- `sar` (R70). -/
def execSar (d a : SReg) (b : SrcB) (s : State) : Host.Outcome State Fault Refusal := performSeq (scalar2 sarWord d a b) s
/-- `rol` (R70). -/
def execRol (d a : SReg) (b : SrcB) (s : State) : Host.Outcome State Fault Refusal := performSeq (scalar2 rolWord d a b) s
/-- `min` (R68). -/
def execMin (d a : SReg) (b : SrcB) (s : State) : Host.Outcome State Fault Refusal := performSeq (scalar2 minWord d a b) s
/-- `max` (R68). -/
def execMax (d a : SReg) (b : SrcB) (s : State) : Host.Outcome State Fault Refusal := performSeq (scalar2 maxWord d a b) s
/-- `minn` (R68). -/
def execMinn (d a : SReg) (b : SrcB) (s : State) : Host.Outcome State Fault Refusal := performSeq (scalar2 minnWord d a b) s
/-- `maxn` (R68). -/
def execMaxn (d a : SReg) (b : SrcB) (s : State) : Host.Outcome State Fault Refusal := performSeq (scalar2 maxnWord d a b) s
/-- `clz` (R68). -/
def execClz (d a : SReg) (s : State) : Host.Outcome State Fault Refusal := performSeq (scalar1 clzWord d a) s
/-- `ctz` (R68). -/
def execCtz (d a : SReg) (s : State) : Host.Outcome State Fault Refusal := performSeq (scalar1 ctzWord d a) s
/-- `popc` (R68). -/
def execPopc (d a : SReg) (s : State) : Host.Outcome State Fault Refusal := performSeq (scalar1 popcWord d a) s
/-- `mov` (R68). -/
def execMov (d a : SReg) (s : State) : Host.Outcome State Fault Refusal := performSeq (scalar1 id d a) s
/-- `bext` (R71). -/
def execBext (d a : SReg) (b : SrcB) (s : State) : Host.Outcome State Fault Refusal := performSeq (scalar2 bextWord d a b) s
/-- `bext.s` (R71). -/
def execBextS (d a : SReg) (b : SrcB) (s : State) : Host.Outcome State Fault Refusal := performSeq (scalar2 bextsWord d a b) s
/-- `sext` (R71). -/
def execSext (d a : SReg) (b : SrcB) (s : State) : Host.Outcome State Fault Refusal := performSeq (scalar2 sextWord d a b) s
/-- `bins` (R71). -/
def execBins (d a : SReg) (b : SrcB) (c : SReg) (s : State) : Host.Outcome State Fault Refusal := performSeq (scalar3 binsWord d a b c) s
/-- `sel` (R72). -/
def execSel (d a : SReg) (b : SrcB) (c : SReg) (s : State) : Host.Outcome State Fault Refusal := performSeq (scalar3 (fun x y z => if z ≠ 0 then x else y) d a b c) s
/-- `cset` (R72). -/
def execCset (cc : Cond) (d a : SReg) (b : SrcB) (s : State) : Host.Outcome State Fault Refusal :=
  performSeq (scalar2 (fun x y => boolWord (condHolds cc x y)) d a b) s
/-- `lea.sK` (R72). -/
def execLea (k : Fin 7) (d a : SReg) (b : SrcB) (c : SReg) (s : State) : Host.Outcome State Fault Refusal :=
  performSeq (scalar3 (fun x y z => x + y + w64 (z.toNat * 2 ^ k.val)) d a b c) s
/-- `li` (R73). -/
def execLi (d : SReg) (imm : Word) (s : State) : Host.Outcome State Fault Refusal := performSeq (result d imm) s

end Sys2Proof.Machine
end

