-- ==== Sys2Proof/Machine/StartEvents.lean ====
section
/-!
DEFINITION. The events of power, of starts and of attestation (R374-R382).
-/
namespace Sys2Proof.Machine

/-- THERMAL_ALERT (R382). -/
def execThermalAlert (die : Nat) (s : State) : Host.Outcome State Fault Refusal := .next (thermalAlert s die)
/-- THERMAL_SHUTDOWN (R382). -/
def execThermalShutdown (_die : Nat) (s : State) : Host.Outcome State Fault Refusal := .next (powerDown s)
/-- POWER_ON (R374): a part that has no power gets it. -/
def execPowerOn (s : State) : Host.Outcome State Fault Refusal := .next (if s.power then s else powerUp s)
/-- RESTART (R374): a store of v. -/
def execRestart (v : Word) (s : State) : Host.Outcome State Fault Refusal := .next (restartStore s v)
/-- START (R376). -/
def execStart (i : StartInputs) (s : State) : Host.Outcome State Fault Refusal := .next (performStart s i)
/-- ATTEST (R378). -/
def execAttest (s : State) : Host.Outcome State Fault Refusal := .next (signReport s)

end Sys2Proof.Machine
end

