-- ==== Sys2Proof/Machine/Dispatch.lean ====
section
/-!
DEFINITION. One arm per row of opcode_table.json: the direct call of its meaning.
-/
namespace Sys2Proof.Machine

def exec (i : Instr) (s : State) : Host.Outcome State Fault Refusal :=
  match i with
  | .add a b c => Sys2Proof.Machine.execAdd a b c s
  | .sub a b c => Sys2Proof.Machine.execSub a b c s
  | .mul a b c => Sys2Proof.Machine.execMul a b c s
  | .mulh a b c => Sys2Proof.Machine.execMulh a b c s
  | .mulhn a b c => Sys2Proof.Machine.execMulhn a b c s
  | .div a b c => Sys2Proof.Machine.execDiv a b c s
  | .divn a b c => Sys2Proof.Machine.execDivn a b c s
  | .rem a b c => Sys2Proof.Machine.execRem a b c s
  | .remn a b c => Sys2Proof.Machine.execRemn a b c s
  | .and a b c => Sys2Proof.Machine.execAnd a b c s
  | .or a b c => Sys2Proof.Machine.execOr a b c s
  | .xor a b c => Sys2Proof.Machine.execXor a b c s
  | .andn a b c => Sys2Proof.Machine.execAndn a b c s
  | .shl a b c => Sys2Proof.Machine.execShl a b c s
  | .shr a b c => Sys2Proof.Machine.execShr a b c s
  | .sar a b c => Sys2Proof.Machine.execSar a b c s
  | .rol a b c => Sys2Proof.Machine.execRol a b c s
  | .min a b c => Sys2Proof.Machine.execMin a b c s
  | .max a b c => Sys2Proof.Machine.execMax a b c s
  | .minn a b c => Sys2Proof.Machine.execMinn a b c s
  | .maxn a b c => Sys2Proof.Machine.execMaxn a b c s
  | .clz a b => Sys2Proof.Machine.execClz a b s
  | .ctz a b => Sys2Proof.Machine.execCtz a b s
  | .popc a b => Sys2Proof.Machine.execPopc a b s
  | .bext a b c => Sys2Proof.Machine.execBext a b c s
  | .bextS a b c => Sys2Proof.Machine.execBextS a b c s
  | .bins a b c d => Sys2Proof.Machine.execBins a b c d s
  | .sext a b c => Sys2Proof.Machine.execSext a b c s
  | .mov a b => Sys2Proof.Machine.execMov a b s
  | .sel a b c d => Sys2Proof.Machine.execSel a b c d s
  | .cset a b c d => Sys2Proof.Machine.execCset a b c d s
  | .lea a b c d e => Sys2Proof.Machine.execLea a b c d e s
  | .li a b => Sys2Proof.Machine.execLi a b s
  | .csk a b c d => Sys2Proof.Machine.execCsk a b c d s
  | .b a b => Sys2Proof.Machine.execB a b s
  | .bcc a b c d e => Sys2Proof.Machine.execBcc a b c d e s
  | .call a b c => Sys2Proof.Machine.execCall a b c s
  | .ret a => Sys2Proof.Machine.execRet a s
  | .jr a b => Sys2Proof.Machine.execJr a b s
  | .loop a b c d => Sys2Proof.Machine.execLoop a b c d s
  | .nop => Sys2Proof.Machine.execNop s
  | .yield => Sys2Proof.Machine.execYield s
  | .halt => Sys2Proof.Machine.execHalt s
  | .csrr a b => Sys2Proof.Machine.execCsrr a b s
  | .csrw a b => Sys2Proof.Machine.execCsrw a b s
  | .csrx a b c => Sys2Proof.Machine.execCsrx a b c s
  | .trap a => Sys2Proof.Machine.execTrap a s
  | .eret a => Sys2Proof.Machine.execEret a s
  | .tret => Sys2Proof.Machine.execTret s
  | .sysc a => Sys2Proof.Machine.execSysc a s
  | .ld a b c d => Sys2Proof.Machine.execLd a b c d s
  | .st a b c => Sys2Proof.Machine.execSt a b c s
  | .ldv a b c d => Sys2Proof.Machine.execLdv a b c d s
  | .stv a b c => Sys2Proof.Machine.execStv a b c s
  | .ldvb a b c d => Sys2Proof.Machine.execLdvb a b c d s
  | .sarm a b c d => Sys2Proof.Machine.execSarm a b c d s
  | .sdis a b => Sys2Proof.Machine.execSdis a b s
  | .sseg a b c d => Sys2Proof.Machine.execSseg a b c d s
  | .segq a b c => Sys2Proof.Machine.execSegq a b c s
  | .cadd a b c d => Sys2Proof.Machine.execCadd a b c d s
  | .caddF a b c d e => Sys2Proof.Machine.execCaddF a b c d e s
  | .cwait a b c d e => Sys2Proof.Machine.execCwait a b c d e s
  | .cread a b c d => Sys2Proof.Machine.execCread a b c d s
  | .cpoll a b c d e => Sys2Proof.Machine.execCpoll a b c d e s
  | .cstrag a b => Sys2Proof.Machine.execCstrag a b s
  | .cstragT a b => Sys2Proof.Machine.execCstragT a b s
  | .pub a => Sys2Proof.Machine.execPub a s
  | .acq a => Sys2Proof.Machine.execAcq a s
  | .drain a b => Sys2Proof.Machine.execDrain a b s
  | .spawn a b c => Sys2Proof.Machine.execSpawn a b c s
  | .reap a b => Sys2Proof.Machine.execReap a b s
  | .kwaitp a b => Sys2Proof.Machine.execKwaitp a b s
  | .khint => Sys2Proof.Machine.execKhint s
  | .khintMv a => Sys2Proof.Machine.execKhintMv a s
  | .qpost a b c d => Sys2Proof.Machine.execQpost a b c d s
  | .pput a b c => Sys2Proof.Machine.execPput a b c s
  | .pget a b => Sys2Proof.Machine.execPget a b s
  | .pgetW a b => Sys2Proof.Machine.execPgetW a b s
  | .take a b c => Sys2Proof.Machine.execTake a b c s
  | .gtileO a b c => Sys2Proof.Machine.execGtileO a b c s
  | .gtileA a b c => Sys2Proof.Machine.execGtileA a b c s
  | .gtileB a b c => Sys2Proof.Machine.execGtileB a b c s
  | .gtileMask a b => Sys2Proof.Machine.execGtileMask a b s
  | .gtileG a b => Sys2Proof.Machine.execGtileG a b s
  | .lvpost a b => Sys2Proof.Machine.execLvpost a b s
  | .lvtake a => Sys2Proof.Machine.execLvtake a s
  | .vadd a b c d e f => Sys2Proof.Machine.execVadd a b c d e f s
  | .vsub a b c d e f => Sys2Proof.Machine.execVsub a b c d e f s
  | .vmul a b c d e f => Sys2Proof.Machine.execVmul a b c d e f s
  | .vfma a b c d e f => Sys2Proof.Machine.execVfma a b c d e f s
  | .vmax a b c d => Sys2Proof.Machine.execVmax a b c d s
  | .vmin a b c d => Sys2Proof.Machine.execVmin a b c d s
  | .vabs a b c d => Sys2Proof.Machine.execVabs a b c d s
  | .vneg a b c d => Sys2Proof.Machine.execVneg a b c d s
  | .vrcp a b c => Sys2Proof.Machine.execVrcp a b c s
  | .vrsq a b c => Sys2Proof.Machine.execVrsq a b c s
  | .vexp2 a b c => Sys2Proof.Machine.execVexp2 a b c s
  | .vlog2 a b c => Sys2Proof.Machine.execVlog2 a b c s
  | .vcmp a b c d e => Sys2Proof.Machine.execVcmp a b c d e s
  | .vsel a b c d => Sys2Proof.Machine.execVsel a b c d s
  | .vand a b c => Sys2Proof.Machine.execVand a b c s
  | .vor a b c => Sys2Proof.Machine.execVor a b c s
  | .vxor a b c => Sys2Proof.Machine.execVxor a b c s
  | .vshl a b c => Sys2Proof.Machine.execVshl a b c s
  | .vshr a b c => Sys2Proof.Machine.execVshr a b c s
  | .vshrS a b c => Sys2Proof.Machine.execVshrS a b c s
  | .vcvt a b c d => Sys2Proof.Machine.execVcvt a b c d s
  | .vbcast a b => Sys2Proof.Machine.execVbcast a b s
  | .vbcastL a b c => Sys2Proof.Machine.execVbcastL a b c s
  | .vperm a b c => Sys2Proof.Machine.execVperm a b c s
  | .vperm2 a b c d => Sys2Proof.Machine.execVperm2 a b c d s
  | .vred a b c d => Sys2Proof.Machine.execVred a b c d s
  | .vdot a b c d => Sys2Proof.Machine.execVdot a b c d s
  | .vins a b c => Sys2Proof.Machine.execVins a b c s
  | .vext a b c d => Sys2Proof.Machine.execVext a b c d s
  | .vgath a b c d => Sys2Proof.Machine.execVgath a b c d s
  | .vscat a b c d => Sys2Proof.Machine.execVscat a b c d s
  | .vratom a b c d e f => Sys2Proof.Machine.execVratom a b c d e f s
  | .vscan a b c d => Sys2Proof.Machine.execVscan a b c d s
  | .vmov a b => Sys2Proof.Machine.execVmov a b s
  | .vpack a b c d => Sys2Proof.Machine.execVpack a b c d s
  | .tset a b => Sys2Proof.Machine.execTset a b s
  | .tsetReg a b => Sys2Proof.Machine.execTsetReg a b s
  | .tld a b c => Sys2Proof.Machine.execTld a b c s
  | .tst a b c => Sys2Proof.Machine.execTst a b c s
  | .tz a => Sys2Proof.Machine.execTz a s
  | .mmn a b c d e f g => Sys2Proof.Machine.execMmn a b c d e f g s
  | .mmw a b c => Sys2Proof.Machine.execMmw a b c s
  | .aoutI a b => Sys2Proof.Machine.execAoutI a b s
  | .aoutF a b => Sys2Proof.Machine.execAoutF a b s
  | .az a => Sys2Proof.Machine.execAz a s
  | .scacc a b c => Sys2Proof.Machine.execScacc a b c s
  | .qcvt a b c d e f g h j => Sys2Proof.Machine.execQcvt a b c d e f g h j s
  | .tmov a b => Sys2Proof.Machine.execTmov a b s
  | .tmovTv a b c => Sys2Proof.Machine.execTmovTv a b c s
  | .tmovVt a b c => Sys2Proof.Machine.execTmovVt a b c s
  | .ttr a b => Sys2Proof.Machine.execTtr a b s
  | .ecopy a b c d => Sys2Proof.Machine.execEcopy a b c d s
  | .ecopyMc a b c d => Sys2Proof.Machine.execEcopyMc a b c d s
  | .ecopyDeal a b c d => Sys2Proof.Machine.execEcopyDeal a b c d s
  | .ecopyDec a b c d => Sys2Proof.Machine.execEcopyDec a b c d s
  | .ecopyRed a b c d => Sys2Proof.Machine.execEcopyRed a b c d s
  | .egath a b c d => Sys2Proof.Machine.execEgath a b c d s
  | .escat a b c d => Sys2Proof.Machine.execEscat a b c d s
  | .emigMv a b c d => Sys2Proof.Machine.execEmigMv a b c d s
  | .emigNvr a b c d => Sys2Proof.Machine.execEmigNvr a b c d s
  | .emigNvw a b c d => Sys2Proof.Machine.execEmigNvw a b c d s
  | .ecode a b c d => Sys2Proof.Machine.execEcode a b c d s
  | .epub a b c d => Sys2Proof.Machine.execEpub a b c d s
  | .equery a => Sys2Proof.Machine.execEquery a s
  | .equerySt a b c => Sys2Proof.Machine.execEquerySt a b c s
  | .halloc a b c d => Sys2Proof.Machine.execHalloc a b c d s
  | .hallocBufSh a b c d => Sys2Proof.Machine.execHallocBufSh a b c d s
  | .hfree a => Sys2Proof.Machine.execHfree a s
  | .hchk a b c => Sys2Proof.Machine.execHchk a b c s
  | .tlbinvAll => Sys2Proof.Machine.execTlbinvAll s
  | .tlbinvTen a => Sys2Proof.Machine.execTlbinvTen a s
  | .tlbinvVa a b => Sys2Proof.Machine.execTlbinvVa a b s
  | .wmbx a => Sys2Proof.Machine.execWmbx a s
  | .wfill a b => Sys2Proof.Machine.execWfill a b s
  | .wfail a b => Sys2Proof.Machine.execWfail a b s
  | .fpush a b => Sys2Proof.Machine.execFpush a b s
  | .fpushSpec a b => Sys2Proof.Machine.execFpushSpec a b s
  | .fret a b c => Sys2Proof.Machine.execFret a b c s
  | .fshareJ a => Sys2Proof.Machine.execFshareJ a s
  | .fshareH a => Sys2Proof.Machine.execFshareH a s
  | .frel a => Sys2Proof.Machine.execFrel a s
  | .farg a b c => Sys2Proof.Machine.execFarg a b c s
  | .fpos a b c => Sys2Proof.Machine.execFpos a b c s
  | .kvapp a b c d => Sys2Proof.Machine.execKvapp a b c d s
  | .kvappLn a b c d e => Sys2Proof.Machine.execKvappLn a b c d e s
  | .atbeg a b c => Sys2Proof.Machine.execAtbeg a b c s
  | .atstep a b => Sys2Proof.Machine.execAtstep a b s
  | .atend a b c => Sys2Proof.Machine.execAtend a b c s
  | .sctpin a b c d => Sys2Proof.Machine.execSctpin a b c d s
  | .sctevict a b c => Sys2Proof.Machine.execSctevict a b c s
  | .rngx a b c => Sys2Proof.Machine.execRngx a b c s
  | .vtopk a b c d e => Sys2Proof.Machine.execVtopk a b c d e s
  | .vsamp a b c d => Sys2Proof.Machine.execVsamp a b c d s
  | .vaccptP a b c d e => Sys2Proof.Machine.execVaccptP a b c d e s
  | .vaccptE a b c d => Sys2Proof.Machine.execVaccptE a b c d s
  | .vaccptLn a b => Sys2Proof.Machine.execVaccptLn a b s
  | .fetchLineArrival a b => Sys2Proof.Machine.execFetchLineArrival a b s
  | .parityRefetch a b => Sys2Proof.Machine.execParityRefetch a b s
  | .replyCompletion a b => Sys2Proof.Machine.execReplyCompletion a b s
  | .fibreBind a b => Sys2Proof.Machine.execFibreBind a b s
  | .swapThreshold a b => Sys2Proof.Machine.execSwapThreshold a b s
  | .budgetOverrun a b => Sys2Proof.Machine.execBudgetOverrun a b s
  | .preEmption a b => Sys2Proof.Machine.execPreEmption a b s
  | .engineTrapDelivery a b => Sys2Proof.Machine.execEngineTrapDelivery a b s
  | .storeBufferDrain a b => Sys2Proof.Machine.execStoreBufferDrain a b s
  | .counterAddAtHome a => Sys2Proof.Machine.execCounterAddAtHome a s
  | .wakeDelivery a => Sys2Proof.Machine.execWakeDelivery a s
  | .pollTest a b => Sys2Proof.Machine.execPollTest a b s
  | .deviceWaiterPoll a => Sys2Proof.Machine.execDeviceWaiterPoll a s
  | .streamRefill a b c => Sys2Proof.Machine.execStreamRefill a b c s
  | .speedTableCurWrite a b => Sys2Proof.Machine.execSpeedTableCurWrite a b s
  | .clockSwitchComplete a => Sys2Proof.Machine.execClockSwitchComplete a s
  | .wakePort a b c => Sys2Proof.Machine.execWakePort a b c s
  | .refusePort a b => Sys2Proof.Machine.execRefusePort a b s
  | .pop64 a => Sys2Proof.Machine.execPop64 a s
  | .push64 a b => Sys2Proof.Machine.execPush64 a b s
  | .pop512 a => Sys2Proof.Machine.execPop512 a s
  | .push512 a b => Sys2Proof.Machine.execPush512 a b s
  | .registerWrite a b => Sys2Proof.Machine.execRegisterWrite a b s
  | .migRetranslate a => Sys2Proof.Machine.execMigRetranslate a s
  | .engineTakeCommand a => Sys2Proof.Machine.execEngineTakeCommand a s
  | .engineResume a => Sys2Proof.Machine.execEngineResume a s
  | .engineCommandRetire a => Sys2Proof.Machine.execEngineCommandRetire a s
  | .multicastRunAccepted a b => Sys2Proof.Machine.execMulticastRunAccepted a b s
  | .gatherRowAccepted a => Sys2Proof.Machine.execGatherRowAccepted a s
  | .evictionStart a => Sys2Proof.Machine.execEvictionStart a s
  | .evictionComplete a => Sys2Proof.Machine.execEvictionComplete a s
  | .queueOpenPort a => Sys2Proof.Machine.execQueueOpenPort a s
  | .queueClosePort a => Sys2Proof.Machine.execQueueClosePort a s
  | .queueNotifyWake a => Sys2Proof.Machine.execQueueNotifyWake a s
  | .queueSlotFreed a => Sys2Proof.Machine.execQueueSlotFreed a s
  | .queueUnbind a => Sys2Proof.Machine.execQueueUnbind a s
  | .unbindRetest a => Sys2Proof.Machine.execUnbindRetest a s
  | .recordRead a => Sys2Proof.Machine.execRecordRead a s
  | .kernelAdmission a => Sys2Proof.Machine.execKernelAdmission a s
  | .gateReached a => Sys2Proof.Machine.execGateReached a s
  | .kernelPlacement a => Sys2Proof.Machine.execKernelPlacement a s
  | .populationComplete a => Sys2Proof.Machine.execPopulationComplete a s
  | .queueArbiter a => Sys2Proof.Machine.execQueueArbiter a s
  | .levelBalance a => Sys2Proof.Machine.execLevelBalance a s
  | .coreMove a => Sys2Proof.Machine.execCoreMove a s
  | .kernelEndSweep a => Sys2Proof.Machine.execKernelEndSweep a s
  | .killPort a => Sys2Proof.Machine.execKillPort a s
  | .proxyArrival a => Sys2Proof.Machine.execProxyArrival a s
  | .drainHoldStart a b c => Sys2Proof.Machine.execDrainHoldStart a b c s
  | .drainRelease a b c => Sys2Proof.Machine.execDrainRelease a b c s
  | .samplerRequestStart a => Sys2Proof.Machine.execSamplerRequestStart a s
  | .linkTrained a b c d => Sys2Proof.Machine.execLinkTrained a b c d s
  | .linkTrainingFail a => Sys2Proof.Machine.execLinkTrainingFail a s
  | .linkError a => Sys2Proof.Machine.execLinkError a s
  | .ctlTrain a => Sys2Proof.Machine.execCtlTrain a s
  | .ctlDisable a => Sys2Proof.Machine.execCtlDisable a s
  | .hostReset a => Sys2Proof.Machine.execHostReset a s
  | .inboundScratchpadRequest a => Sys2Proof.Machine.execInboundScratchpadRequest a s
  | .inboundCounterRead a => Sys2Proof.Machine.execInboundCounterRead a s
  | .inboundCounterWrite a => Sys2Proof.Machine.execInboundCounterWrite a s
  | .counterWindowAddApply a => Sys2Proof.Machine.execCounterWindowAddApply a s
  | .inboundModuleRequest a => Sys2Proof.Machine.execInboundModuleRequest a s
  | .weltFlitReceive a b => Sys2Proof.Machine.execWeltFlitReceive a b s
  | .weltReplayTimeout a => Sys2Proof.Machine.execWeltReplayTimeout a s
  | .thermalAlert a => Sys2Proof.Machine.execThermalAlert a s
  | .thermalShutdown a => Sys2Proof.Machine.execThermalShutdown a s
  | .powerOn => Sys2Proof.Machine.execPowerOn s
  | .restart a => Sys2Proof.Machine.execRestart a s
  | .start a => Sys2Proof.Machine.execStart a s
  | .attest => Sys2Proof.Machine.execAttest s
  | .hostFunctionResetComplete a => Sys2Proof.Machine.execHostFunctionResetComplete a s
  | .msixVectorUnmask a => Sys2Proof.Machine.execMsixVectorUnmask a s
  | .tlbEntryDrop a b => Sys2Proof.Machine.execTlbEntryDrop a b s
  | .softError a => Sys2Proof.Machine.execSoftError a s
  | .recordWriteComplete a b => Sys2Proof.Machine.execRecordWriteComplete a b s

end Sys2Proof.Machine
end

