-- ==== Sys2Proof/Machine/Issue.lean ====
section
/-!
DEFINITION. Issue (R51, R54): the rotation, what comes before an instruction, fetching and decoding it, and pairs (R45-R47).
-/
namespace Sys2Proof.Machine

/-! ## Pair classes (R45, R48) -/

inductive PairClass where
  | s | v | m | c | x
deriving DecidableEq, Repr

def pairClass : Instr → PairClass
  | .add .. | .sub .. | .mul .. | .mulh .. | .mulhn .. | .div .. | .divn .. | .rem .. | .remn .. | .and .. | .or .. | .xor .. | .andn ..
  | .shl .. | .shr .. | .sar .. | .rol .. | .min .. | .max .. | .minn .. | .maxn .. | .clz .. | .ctz .. | .popc .. | .bext .. | .bextS ..
  | .bins .. | .sext .. | .mov .. | .sel .. | .cset .. | .lea .. | .li .. | .nop | .csrr .. | .segq .. | .gtileO .. | .gtileA ..
  | .gtileB .. | .gtileMask .. | .gtileG .. | .rngx .. => .s
  | .csk .. | .b .. | .bcc .. | .call .. | .ret .. | .jr .. | .loop .. | .yield | .halt | .trap .. | .eret .. | .tret | .sysc .. => .c
  | .ld .. | .st .. | .ldv .. | .stv .. | .ldvb .. | .cadd .. | .caddF .. | .cwait .. | .cread .. | .cpoll .. | .cstrag .. | .cstragT ..
  | .kwaitp .. | .pput .. | .pget .. | .pgetW .. | .take .. | .lvpost .. | .lvtake .. => .m
  | .vadd .. | .vsub .. | .vmul .. | .vfma .. | .vmax .. | .vmin .. | .vabs .. | .vneg .. | .vrcp .. | .vrsq .. | .vexp2 .. | .vlog2 ..
  | .vcmp .. | .vsel .. | .vand .. | .vor .. | .vxor .. | .vshl .. | .vshr .. | .vshrS .. | .vcvt .. | .vbcast .. | .vbcastL .. | .vperm ..
  | .vperm2 .. | .vred .. | .vdot .. | .vins .. | .vext .. | .vscan .. | .vmov .. | .vpack .. => .v
  | _ => .x

/-- The named destination of an instruction that may stand in a pair, as an operand specifier; `z` names none. -/
def destOf : Instr → Option Nat
  | .add d .. | .sub d .. | .mul d .. | .mulh d .. | .mulhn d .. | .div d .. | .divn d .. | .rem d .. | .remn d .. | .and d .. | .or d ..
  | .xor d .. | .andn d .. | .shl d .. | .shr d .. | .sar d .. | .rol d .. | .min d .. | .max d .. | .minn d .. | .maxn d .. | .clz d ..
  | .ctz d .. | .popc d .. | .bext d .. | .bextS d .. | .bins d .. | .sext d .. | .mov d .. | .sel d .. | .cset _ d .. | .lea _ d ..
  | .li d .. | .csrr d .. | .segq _ d .. | .gtileO d .. | .gtileA d .. | .gtileB d .. | .gtileMask d .. | .gtileG d .. | .rngx d ..
  | .call d .. | .jr d .. | .loop d .. | .ld _ _ d _ | .caddF _ _ d .. | .cwait _ _ d .. | .cread _ _ d .. | .cpoll _ _ d ..
  | .cstrag d .. | .cstragT d .. | .kwaitp d .. | .pput d .. | .pget d .. | .pgetW d .. | .take d .. | .lvpost d .. | .lvtake d
  | .vcmp _ _ d .. | .vred _ _ d _ | .vdot _ d .. | .vext _ _ d _ => if d = .z then none else some (specOf d)
  | .ldv _ _ d _ | .ldvb _ _ d _ | .vadd _ _ _ d .. | .vsub _ _ _ d .. | .vmul _ _ _ d .. | .vfma _ _ d .. | .vmax _ d .. | .vmin _ d ..
  | .vabs _ _ d _ | .vneg _ _ d _ | .vrcp _ d _ | .vrsq _ d _ | .vexp2 _ d _ | .vlog2 _ d _ | .vsel d .. | .vand d .. | .vor d ..
  | .vxor d .. | .vshl d .. | .vshr d .. | .vshrS d .. | .vcvt _ _ d _ | .vbcast d _ | .vbcastL _ d _ | .vperm d .. | .vperm2 d ..
  | .vscan _ _ d _ | .vmov d _ | .vpack _ d .. => some (0x20 + d.val)
  | .vins _ d _ => some (0x20 + d.val)
  | _ => none

/-- The pair rules (R45): the reason of R47, or none. A pair that breaks both kinds of rule is reported under 5. DESIGN CHOICE (log 72). -/
def pairFault (i j : Instr) : Option Nat :=
  let a := pairClass i
  let b := pairClass j
  if a = .x ∨ b = .x ∨ a = .c ∨ (a = .v ∧ b = .v) ∨ (a = .m ∧ b = .m) then some 5
  else match destOf i, destOf j with
    | some m, some n => if m = n then some 6 else none
    | _, _ => none

/-! ## The rotation (R54) -/

/-- n cycles of core g pass: the pointer turns, and the budgets of its bound fibres count down (R65, R66). -/
def countDown (n : Nat) (f : Fib) : Fib :=
  if f.budget = 0xFFFFFFFFFFFF ∨ f.budget = 0 then f
  else if f.budget.toNat ≤ n then { f with budget := 0, due := true } else { f with budget := f.budget - BitVec.ofNat 48 n }

def passPlain (s : State) (g n : Nat) : State :=
  let c := getCore s g
  let s1 := setCore s g { c with cyc := c.cyc + n, rot := c.rot + BitVec.ofNat 4 n
                                 slots := mapVec (fun k => if k.bound then { k with ctx := countDown n k.ctx } else k) c.slots }
  if s.focus.1 = g ∧ c.slots[s.focus.2].bound = true then { s1 with fib := countDown n s1.fib } else s1

/-- What the units of core g do at the end of a cycle at the latest: the arbiter where the pointer is 0, the balancing at a multiple of 4,096
(R306, R316). -/
def closeCycle (s : State) (g : Nat) : State :=
  let t := if (getCore s g).rot = 0 then arbitrate s g else s
  if balanceDue t g then levelBalance t g else t

/-- Cycles up to the next one at whose end a unit of core g acts. -/
def toBoundary (s : State) (g : Nat) : Nat := min ((16 - (getCore s g).rot.toNat) % 16) ((4096 - cycOf s g % 4096) % 4096)

/-- n cycles of a core that a kernel holds pass, from one cycle in which a unit acts to the next. -/
def passHeld (g : Nat) : Nat → State → Nat → State
  | 0, s, n => passPlain s g n
  | fuel + 1, s, n =>
    let m := min n (toBoundary s g)
    let t := passPlain s g m
    if n ≤ m then t else passHeld g fuel (passPlain (closeCycle t g) g 1) (n - m - 1)

/-- n cycles of core g pass. -/
def passCycles (s : State) (g n : Nat) : State := if (getCore s g).kernels.isEmpty then passPlain s g n else passHeld g (n + 1) s n

/-- Slot k of core g may issue, apart from the spacing of 8 cycles (R54): bound, neither waiting nor sleeping, its line present. -/
def mayIssue (s : State) (g : Nat) (k : Fin 16) : Bool :=
  let f := getCtx s g k
  (getCore s g).slots[k].bound && ((f.status == .run && lineReady s g f) || drainEnds f)

/-- First cycle in which slot k may issue. -/
def firstCycle (s : State) (g : Nat) (k : Fin 16) : Nat := max ((getCore s g).cyc + 1) (getCore s g).slots[k].next

/-- Cycle and slot of the next issue of core g. -/
def nextIssue (s : State) (g : Nat) : Option (Nat × Fin 16) :=
  let ks := (List.finRange 16).filter fun k => mayIssue s g k
  match ks.map (firstCycle s g) with
  | [] => none
  | t :: ts =>
    let c := ts.foldl Nat.min t
    let ptr := ((getCore s g).rot.toNat + (c - (getCore s g).cyc)) % 16
    ((List.range 16).find? fun i => ks.any fun k => k.val == (ptr + i) % 16 && firstCycle s g k ≤ c).map fun i => (c, Fin.ofNat 16 ((ptr + i) % 16))

/-! ## Fetch and decode (R31, R32, R50) -/

/-- A trap at the instruction at the pc. -/
def trapHere (s : State) (cause : Nat) (taddr : Word) (unbacked : Bool) : State := raiseTrap s ⟨cause, s.fib.pc, taddr⟩ unbacked

/-! ## Execution -/

/-- What a stop of a pair does (R47): the state is that at its issue, s, but for what the stopping member keeps. -/
def stopPair (s t : State) (kept : Bool) (x : PairStop) : State :=
  let base := if kept then { t with fib := s.fib, pair := none } else s
  match x with
  | .trap c a u => trapHere base c a u
  | .leave l => applyLeave base l

/-- Commit a pair whose members have both completed (R46). -/
def commitPair (s t : State) (p : Pairing) : State :=
  match commitResults p.results { t with pair := none } with
  | .ok (_, u) => applyFlow u p.flow (nextPc (nextPc u.fib.pc))
  | .error (.trap c a b _) => trapHere s c a b
  | .error (.leave l _) => applyLeave s l

/-- What the stops of the two members come to (R47): within a step every check of the first member precedes the second's, and the first is
not sent before the second's checks pass (R46); so a first member that only sleeps lets the second's stop decide. -/
def isSleep : PairStop → Bool
  | .leave (.sleep _ _ _) => true
  | _ => false

/-- Execute a pair: the first member, then the second (R46, R47). -/
def execPair (i j : Instr) (s : State) : Host.Outcome State Fault Refusal :=
  match exec i { s with pair := some {} } with
  | .next s1 =>
    let p1 := s1.pair.getD {}
    match p1.stop.filter fun x => !isSleep x with
    | some x => .next (stopPair s s1 p1.kept x)
    | none =>
      let base := if p1.stop.isSome then { s with pair := some { second := true } } else { s1 with pair := some { p1 with second := true } }
      match exec j base with
      | .next s2 =>
        let p2 := s2.pair.getD {}
        match p2.stop, p1.stop with
        | some x, _ => .next (stopPair s s2 p2.kept x)
        | none, some x => .next (stopPair s s1 p1.kept x)
        | none, none => .next (commitPair s s2 p2)
      | r => r
  | r => r

/-- A parity failure at issue (R32): the first discards the line, which is fetched again. -/
def failParity (s : State) (a : Word) : State :=
  let g := s.focus.1
  if s.fib.reissue.2 then failTwice s a else
  bumpDie (setFetchErr (discardLine { s with fib := { s.fib with status := .waiting .refetch, issued := s.fib.reissue.1, failed := true } }
    g (lineOf s.fib.pc)) g s.focus.2 false) (dieOf g) 0x20 1

/-- Issue from the line at loc: parity, decoding, the pair rules, execution (R51). A pair whose members both fail counts one failure. DESIGN
CHOICE (log 73). -/
def issueLine (s : State) (loc word : Nat) : Host.Outcome State Fault Refusal :=
  let i := instrNo s.fib.pc
  let paired := pairBit word i
  match badInstr s loc word with
  | some a => .next (failParity s a)
  | none => match decode (instrBits s loc i) with
    | none => .next (trapHere s 1 0 false)
    | some a =>
      if paired = false then exec a s
      else match decode (instrBits s loc (i + 1)) with
        | none => .next (trapHere s 1 0 false)
        | some b => match pairFault a b with
            | some r => .next (trapHere s 3 (lineOf s.fib.pc + w64 r) false)
            | none => execPair a b s

/-- Issue the instruction at the pc from its line (R31, R80, R397). A pc that is no code address traps with cause 0x02. DESIGN CHOICE (log 103). -/
def fetchIssue (s : State) : Host.Outcome State Fault Refusal :=
  let pc := s.fib.pc
  if codeOk pc = false then .next (trapHere s 2 pc false)
  else match lookLine s s.focus.1 s.fib (lineOf pc) with
    | .bad c u => .next (trapHere s c pc u)
    | .line loc w => match lineDefect w with
        | some r => .next (trapHere s 3 (lineOf pc + w64 r) false)
        | none => issueLine s loc w
    | _ => .next s

/-- The entry check of a fibre's first issue (R397), then the issue. -/
def entryIssue (s : State) : Host.Outcome State Fault Refusal :=
  if s.fib.entry then
    match enterAt s s.fib.pc true with
    | .fine => fetchIssue { s with fib := { s.fib with entry := false } }
    | .bad c u ta => .next (trapHere { s with fib := { s.fib with entry := false } } c ta u)
    | .absent => .next s
  else fetchIssue s

/-- The context with which the instruction at the pc issues: the marks of an issue that waited go. -/
def issueContext (f : Fib) : Fib :=
  { f with wake := if completing f then f.wake else none, pubTo := if f.issued then f.pubTo else none, post := if f.issued then f.post else none
           issued := false, want := none, failed := false, reissue := (f.issued, f.failed) }

/-- A new instruction begins, or one that waited goes on: the place of an earlier one in the order of issue goes (R96, R202), the marks of an
issue that waited go, and the pattern records of a bind are read (R94). -/
def beginIssue (s : State) : State :=
  rereadStreams { (if s.fib.issued then s else dropTurn s s.focus.1 (fibIndex s.fib)) with fib := issueContext s.fib }

/-- What comes before the instruction: the entry of a handler whose line has come (R135), a refused fault (R241), the budget (R66), a pending
engine trap (R138), the pattern records of a bind (R94), the entry check (R397). -/
def issueFib (s : State) : Host.Outcome State Fault Refusal :=
  let f := s.fib
  if f.entering then .next (enterHandler s) else
  match f.delivery with
  | some t => .next (raiseTrap s t false)
  | none =>
    if betweenInstrs f && f.due then .next (raiseTrap { s with fib := { f with due := false } } ⟨0x0E, f.pc, 0⟩ false)
    else match betweenInstrs f && f.tcause == 0, f.pend with
      | true, some a => .next (raiseTrap { s with fib := { f with pend := none } } ⟨0x0F, f.pc, a⟩ false)
      | _, _ => entryIssue (beginIssue s)

def afterEvent : Host.Outcome State Fault Refusal → Host.Outcome State Fault Refusal
  | .next t => .next (settle t)
  | r => r

/-- The next issue of core g (R54); a core that is absent or has nothing to issue does nothing. -/
def issueCore (s : State) (g : Nat) : Host.Outcome State Fault Refusal :=
  if running s = false ∨ present s g = false then .next s
  else match nextIssue s g with
    | none => .next s
    | some (c, k) =>
      let s1 := passCycles s g (c - cycOf s g)
      let d := getCore s1 g
      let s2 := setCore s1 g { d with slots := d.slots.set k { d.slots[k] with next := c + 8 } }
      afterEvent (if toEnd s2 g k then .next s2 else issueFib (setFocus s2 g k))

end Sys2Proof.Machine
end

