-- ==== Sys2Proof/Machine/Step.lean ====
section
/-!
DEFINITION. One step of the module: the next turn of the schedule, or the next issue of the core in focus (log 1).
-/
namespace Sys2Proof.Machine

/-- Cycles of core g pass without issue: as many of n as come before the next issue of an eligible slot (R54, R56). -/
def passIdle (s : State) (g n : Nat) : State := match nextIssue s g with
  | some (c, _) => if present s g ∧ running s = true then passCycles s g (min n (c - cycOf s g - 1)) else passCycles s g n
  | none => passCycles s g n

/-- Line i of the fetch buffer of core g leaves it, unless it keeps a slot eligible (R56). -/
def dropFetchLine (s : State) (g i : Nat) : State :=
  let c := getCore s g
  match c.lines[i]? with
  | none => s
  | some l =>
    if (List.finRange 16).any fun k => c.slots[k].bound && (getCtx s g k).tenant == l.tenant && lineOf (getCtx s g k).pc == l.va then s
    else setCore s g { c with lines := c.lines.eraseIdx i }

/-- A memory port passes its eldest request on (R118). -/
def forwardTurn (s : State) (die : Bool) (n : Nat) : State := if die then (forwardDie s n).getD s else forwardClu s n

/-- What a turn does. One that names an event whose condition fails changes nothing (R9). -/
def turnOf (s : State) : Turn → Host.Outcome State Fault Refusal
  | .issue g => if g < Config.cores then issueCore s g else .fault .noSuchCore
  | .event i => if isEvent i && wfInstr i then afterEvent (exec i s) else .next s
  | .tick g n => if g < Config.cores then .next (passIdle s g n) else .fault .noSuchCore
  | .cacheFill g b => if g < Config.cores then .next (fillLine s g b) else .fault .noSuchCore
  | .cacheDrop g b => if g < Config.cores then .next (dropLine s g b) else .fault .noSuchCore
  | .forward die n => .next (settle (forwardTurn s die n))
  | .lineDrop g i => if g < Config.cores then .next (dropFetchLine s g i) else .fault .noSuchCore

/-- Run one turn: without power nothing happens but POWER_ON (R382). -/
def runTurn (s : State) (t : Turn) : Host.Outcome State Fault Refusal := if s.power || t == .event .powerOn then turnOf s t else .next s

def step (s : State) : Host.Outcome State Fault Refusal :=
  match s.turns with
  | [] => issueCore s s.focus.1
  | t :: r => runTurn { s with turns := r } t

/-- Location at which the instruction at the pc lies, when it can be fetched. -/
def State.fetchLoc (s : State) : Nat := match (fetchLine s s.focus.1 s.fib (lineOf s.fib.pc) s.fib.pc).1 with
  | .line loc _ => loc
  | _ => (lineOf s.fib.pc).toNat % 2 ^ 47

/-- s with an instruction word at the pc: its 96 bits are stored there, and a line word of class code with its parity bit and its
TARGET bit; the line is in the fetch buffer. -/
def State.withFetchWord (s : State) (_nbits w : Nat) : State :=
  let i := instrNo s.fib.pc
  let loc := s.fetchLoc
  let s1 := writeNat { s with turns := [] } (loc + 12 * i) 12 w
  addLine (writeNat s1 (loc + 60) 4 ((onesOf 96 (w % 2 ^ 96) % 2) * 2 ^ (9 + i) + 2 ^ i)) s.focus.1 s.fib.tenant (lineOf s.fib.pc) loc

end Sys2Proof.Machine
end

