-- ==== Sys2Proof/Safety.lean ====
section
/-!
DEFINITION. What counts as a safe run, and the words in which the statements speak of one instruction: which operands are ordinary, what
they hold, and the state after an instruction that completes.
-/
namespace Sys2Proof.Safety
open Sys2Proof.Machine

/-! ## Runs -/

/-- A step ends in a next state. -/
def goesOn (s : State) : Prop := ∃ t, step s = .next t

/-- Memory is in its canonical form. -/
def Inv (s : State) : Prop := memWf s.mem = true

/-- n steps from s all end in a next state that keeps Inv. -/
def runsSafely : Nat → State → Prop
  | 0, s => Inv s
  | n + 1, s => Inv s ∧ ∃ t, step s = .next t ∧ runsSafely n t

/-! ## Operands -/

/-- The register holds no poison, and no single-bit error that its read would correct and count (R144). -/
def soundReg (f : Fib) (code : Nat) : Bool := !f.poison.contains code && !f.flips.contains code
/-- The register is no armed stream (R90) and is sound. -/
def plainS (f : Fib) (r : SReg) : Bool := armedS f r == none && soundReg f (specOf r)
def plainB (f : Fib) : SrcB → Bool
  | .reg r => plainS f r
  | .imm _ => true
def plainArg (f : Fib) : CArg → Bool
  | .reg r => plainS f r
  | .imm _ => true
def plainV (f : Fib) (k : Fin 16) : Bool := armedV f k == none && soundReg f (0x20 + k.val)
def plainVS (f : Fib) : VSrc → Bool
  | .v k => plainV f k
  | .s r => plainS f r
  | .imm _ => true
def plainVC (f : Fib) : VSrcC → Bool
  | .v k => plainV f k
  | .s r => plainS f r

/-- The destination is no armed stream. -/
def openS (f : Fib) (r : SReg) : Bool := armedS f r == none
def openV (f : Fib) (k : Fin 16) : Bool := armedV f k == none

/-- The value of an operand that reads as an ordinary register; an immediate is sign-extended from 48 bits (R35). -/
def valB (f : Fib) : SrcB → Word
  | .reg r => regVal f r
  | .imm i => i.signExtend 64
def valArg (f : Fib) : CArg → Word
  | .reg r => regVal f r
  | .imm k => k.zeroExtend 64
/-- Lane k of a vector operand: the lane itself, or the low 32 bits of the scalar or immediate (R166). -/
def laneVS (f : Fib) (o : VSrc) (k : Fin 16) : Lane := match o with
  | .v j => f.v[j][k]
  | .s r => (regVal f r).setWidth 32
  | .imm i => (i.signExtend 64).setWidth 32
def laneVC (f : Fib) (o : VSrcC) (k : Fin 16) : Lane := match o with
  | .v j => f.v[j][k]
  | .s r => (regVal f r).setWidth 32
/-- Effective offsets (R37, R109). -/
def offM (f : Fib) (m : MemRef) : Word := regVal f m.a + m.off.signExtend 64
def offC (f : Fib) (m : CRef) : Word := regVal f m.a + m.off.signExtend 64

/-- The instruction is encoded under opcode op with function code fn in FN (R33, R48). -/
def standsUnder (i : Instr) (op fn : Nat) : Prop :=
  ∃ w : BitVec 96, encode i = some w ∧ (w.extractLsb' 88 8).toNat = op ∧ (w.extractLsb' 80 8).toNat = fn

/-! ## After an instruction -/

/-- The instruction completes without a result. -/
def goOn (s : State) : State := { s with fib := { s.fib with pc := nextPc s.fib.pc } }

/-- The instruction completes with the scalar result v: it is pushed, the named destination is written (R40), and nothing else but the pc
changes. -/
def doneS (s : State) (d : SReg) (v : Word) : State := { s with fib := { putReg (pushLa s.fib v) d v with pc := nextPc s.fib.pc } }

/-- A vector register written, its poison and its single-bit error gone. -/
def putV (f : Fib) (d : Fin 16) (v : VReg) : Fib := { cleanReg f (0x20 + d.val) with v := f.v.set d v }

/-- The instruction completes with the vector result v. -/
def doneV (s : State) (d : Fin 16) (v : VReg) : State := { s with fib := { putV s.fib d v with pc := nextPc s.fib.pc } }

/-- The instruction traps at its own address (R132, R135). -/
def trapsWith (s : State) (cause : Nat) (taddr : Word) : State := raiseTrap s ⟨cause, s.fib.pc, taddr⟩ false

/-- Target of a format-J transfer (R36). -/
def jumpTarget (s : State) (ti : Fin 5) (tl : BitVec 32) : Word := lineOf s.fib.pc + BitVec.ofInt 64 (64 * tl.toInt) + BitVec.ofNat 64 (12 * ti.val)

/-! ## Memory -/

/-- The state after the acquire of a load with an ORD (R85, R122). -/
def acquired (s : State) : Option Scope → State
  | some sc => acquire s s.focus.1 (scopeCode sc)
  | none => s
/-- The state in which a load of n bytes at a reads them: one that the core's own buffer and read cache do not answer goes out behind what
the ports on its path have accepted (R118). -/
def askedIn (s : State) (a n : Nat) (bypass : Bool) : State :=
  if answered s s.focus.1 bypass a n then s else clearPath s s.focus.1 a
/-- No link holds what is ahead of it. -/
def pathOpen (s : State) (a n : Nat) (bypass : Bool) : Bool :=
  answered s s.focus.1 bypass a n || pathClear (clearPath s s.focus.1 a) s.focus.1 a
/-- The n bytes at location a as the core in focus reads them (R81, R121). -/
def visible (s : State) (a n : Nat) (bypass : Bool) : List Byte :=
  let t := askedIn s a n bypass
  (coreBytes t t.focus.1 bypass a n).map (·.1)
/-- The n bytes at a are memory of the module, backed and behind a link that is up, outside the steward window, and not poisoned, and the load
is held up nowhere. -/
def readable (s : State) (a n : Nat) (bypass : Bool) : Bool :=
  (!isDpa a || backed s a) && linkStateOf s a == 2 && !isHostLoc a && !isPeerLoc a && !isSw a && pathOpen s a n bypass
    && (let t := askedIn s a n bypass
        (coreBytes t t.focus.1 bypass a n).all fun b => !b.2)
/-- What a load of n bytes at a does beside answering: it goes out behind what is ahead of it (R118), single-bit errors of the words that it
reads at their home are corrected and counted (R82), and a load that bypasses the read cache drops the lines that it reads past (R121). -/
def readPast (s : State) (a n : Nat) (acq : Option Scope) : State :=
  let t := askedIn s a n acq.isSome
  let u := correctLoad t t.focus.1 acq.isSome a n
  if acq.isSome then dropLines u u.focus.1 a n else u
/-- A store at location a finds its DPA backed. -/
def storable (s : State) (a : Nat) : Bool := !isDpa a || backed s a
/-- The bytes of an access within one block stand in the buffer of the core in focus, in the open entry of their block (R81); where that
needs an entry and none is free, the oldest has left (R119). An aligned 8-byte access can act on a port (R401). -/
def buffered (s : State) (a : Nat) (bs : List Byte) : State :=
  let g := s.focus.1
  let c := getCore s g
  let t := if c.sb.any (fun e => e.block == a / 64 * 64 && !e.closed) || c.sb.length < 32 then s else drainEntry s g 0
  setCore t g (sbMerge (getCore t g) (a / 64 * 64)
    { off := a % 64, bytes := bs, who := selfAdder s, act := bs.length == 8 && a % 8 == 0, life := makerLife s g (selfAdder s) })
/-- The scalar register and the vector register of stream position p. -/
def streamSReg (p : Fin 4) : SReg := .s ⟨12 + p.val, by omega⟩
def streamVReg (p : Fin 4) : Fin 16 := ⟨12 + p.val, by omega⟩

/-- No store in the buffer of the core in focus holds a byte of the word at a (R97). -/
def unbuffered (s : State) (a : Nat) : Bool := coveringCount (getCore s s.focus.1).sb a 8 == 0
/-- The state after a publish at a scope that completes (R120, R131); none while it waits. -/
def publishes (s : State) (sc : Nat) : Option State :=
  let t := publishFrom s sc
  if publishDone t.2 s.focus.1 sc t.1 then some { t.2 with fib := { t.2.fib with pubTo := none } } else none
/-- The state after the release of an instruction that makes one (R111). -/
def released (s : State) (rel : Bool) (sc : Scope) : Option State := if rel then publishes s (scopeCode sc) else some s
def acquiredIf (s : State) (acq : Bool) (sc : Scope) : State := if acq then acquire s s.focus.1 (scopeCode sc) else s

/-- The state in which the home of counter word a answers the core in focus: what the core's ports have accepted goes first where the home
lies beyond its cluster (R118), then the core's earlier adds to the home (R96), and the home reads the word (R82); none while a link holds
the path, or an instruction of the core that issued earlier has yet to reach that home (R96). -/
def atHome (s : State) (a : Nat) : Option State :=
  let t := clearPath s s.focus.1 a
  if pathClear t s.focus.1 a && !othersAhead t t.focus.1 (.home (homeOf a)) (fibIndex t.fib) then
    some (correctRead (flushMsgs t t.focus.1 (homeOf a)) a 8)
  else none
/-- The instruction leaves the rotation for l, and keeps its place in the order of issue of its core for what k names (R96, R202). -/
def waitsFor (s : State) (k : TurnKey) (l : Leave) : State := applyLeave (enterTurn s k) l
/-- It waits for room on its path to counter word a, or for its turn there, and begins anew. -/
def waitsForRoom (s : State) (a : Nat) : State := waitsFor s (.home (homeOf a)) .room

/-! ## Lanes -/

/-- A lane as kind `.n` or `.i` reads it (R165). -/
def kindInt (k : LKind) (x : Lane) : Int := if k = .n then (x.toNat : Int) else x.toInt
/-- An exact integer reduced modulo 2^32, or clamped to the range of the kind (R169). -/
def kindResult (k : LKind) (sat : Bool) (t : Int) : Lane :=
  if sat then BitVec.ofInt 32 (max (if k = .n then 0 else -2 ^ 31) (min (if k = .n then 2 ^ 32 - 1 else 2 ^ 31 - 1) t)) else BitVec.ofInt 32 t
/-- The tree of R177, written out: lanes i and i + 8, then i and i + 4, i and i + 2, and the two that are left. -/
def tree16 (op : Lane → Lane → Lane) (x : Fin 16 → Lane) : Lane :=
  op (op (op (op (x 0) (x 8)) (op (x 4) (x 12))) (op (op (x 2) (x 10)) (op (x 6) (x 14))))
    (op (op (op (x 1) (x 9)) (op (x 5) (x 13))) (op (op (x 3) (x 11)) (op (x 7) (x 15))))
/-- The inclusive prefix of R178. -/
def prefixOf (op : Lane → Lane → Lane) (x : Fin 16 → Lane) : Nat → Lane
  | 0 => x 0
  | n + 1 => op (prefixOf op x n) (x (Fin.ofNat 16 (n + 1)))
/-- Element j of a register of 32 elements of 16 bits (R175). -/
def half (x : Fin 16 → Lane) (j : Nat) : BitVec 16 := (x (Fin.ofNat 16 (j / 2))).extractLsb' (16 * (j % 2)) 16
/-- An i32 clamped to 16 bits. -/
def clamp16 (x : Lane) : BitVec 16 := BitVec.ofInt 16 (max (-32768) (min 32767 x.toInt))
/-- Lane i of `vpack` (R175). -/
def packLane (k : PackKind) (x y : Fin 16 → Lane) (i : Fin 16) : Lane :=
  let src := fun j : Nat => if j < 16 then x (Fin.ofNat 16 j) else y (Fin.ofNat 16 (j - 16))
  match k with
  | .bf => (BitVec.ofNat 16 (toBf16 (src (2 * i.val + 1)))) ++ (BitVec.ofNat 16 (toBf16 (src (2 * i.val))))
  | .bfl => half x i.val ++ (0 : BitVec 16)
  | .bfh => half x (16 + i.val) ++ (0 : BitVec 16)
  | .h => clamp16 (src (2 * i.val + 1)) ++ clamp16 (src (2 * i.val))
  | .hl => (half x i.val).signExtend 32
  | .hh => (half x (16 + i.val)).signExtend 32
/-- Offset of lane i of a gather, a scatter or an atomic (R180). -/
def laneOff (s : State) (m : CRef) (sc : Fin 3) (b i : Fin 16) : Word := offC s.fib m + BitVec.ofNat 64 (s.fib.v[b][i].toNat * 2 ^ sc.val)

/-- The lanes below n that are active take their effect in ascending order, each in the state that the one before it has left (R180); none
where one of them stops. -/
def lanesRun (act : Fin 16 → Bool) (f : Fin 16 → State → Option State) : Nat → State → Option State
  | 0, s => some s
  | n + 1, s => (lanesRun act f n s).bind fun u => if act (Fin.ofNat 16 n) then f (Fin.ofNat 16 n) u else some u
/-- The store of lane i of `vscat` (R182), and lane i of `vratom`, with the old value in lane i of d (R183). -/
def scatLane (s : State) (sc : Fin 3) (m : CRef) (b c i : Fin 16) (u : State) : Option State :=
  match storeSeg m.sg (laneOff s m sc b i) 4 (bytesOf 4 s.fib.v[c][i].toNat) u with
  | .ok (_, t) => some t
  | .error _ => none
def ratomLane (s : State) (op : AtomOp) (sc : Fin 3) (d : Option (Fin 12)) (m : CRef) (b : Fin 16) (c : VSrcC) (i : Fin 16) (u : State) : Option State :=
  match resolve m.sg (laneOff s m sc b i) 4 4 (rightRd + rightWr) accUpdate u with
  | .ok ([(a, _)], w) => match atomLane op a (laneOff s m sc b i) (laneVC s.fib c i) w with
      | .ok (old, t) => some (match d with
          | some k => { t with fib := { t.fib with v := t.fib.v.set (lowV k) (t.fib.v[lowV k].set i old) } }
          | none => t)
      | .error _ => none
  | _ => none
/-- The state that an element-wise instruction keeps when lane k stops in state t (R139): what the lanes below did, the progress at k, and no pop
(R91). -/
def stoppedAt (s t : State) (k : Fin 16) (keep : Option State) : State :=
  { keep.getD t with fib := { setProgress t.fib k.val with streams := s.fib.streams } }

/-! ## Issue -/

/-- The 105 reserved majors of R48. -/
def reservedMajor (op : Nat) : Bool :=
  op == 0 || (0x39 ≤ op && op ≤ 0x3F) || (0x48 ≤ op && op ≤ 0x4F) || (0x5D ≤ op && op ≤ 0x5F) || (0x8C ≤ op && op ≤ 0x8F)
    || (0x97 ≤ op && op ≤ 0x9F) || (0xA7 ≤ op && op ≤ 0xAF) || (0xBC ≤ op && op ≤ 0xBF) || 0xC4 ≤ op

/-- Slot k of the core in focus is named in cycle c: the cycles before it have passed (R54, R65, R66), and its next issue is 8 cycles away. -/
def named (s : State) (c : Nat) (k : Fin 16) : State :=
  let g := s.focus.1
  let p := passCycles s g (c - cycOf s g)
  let d := getCore p g
  setCore p g { d with slots := d.slots.set k { d.slots[k] with next := c + 8 } }
/-- It issues: its context is in focus. -/
def issuing (s : State) (c : Nat) (k : Fin 16) : State := setFocus (named s c k) s.focus.1 k
/-- The slot's fibre belongs to a killed kernel and is at an instruction boundary (R338). -/
def atEnd (s : State) (c : Nat) (k : Fin 16) : Bool := toEnd (named s c k) s.focus.1 k

/-- Nothing comes before the instruction at the pc: no trap to deliver, no wake to take, no budget or engine trap, no entry check. -/
def calm (f : Fib) : Bool := f.delivery == none && !f.entering && f.wake == none && !f.due && f.pend == none && !f.entry

/-- The state in which the instruction at the pc executes: the marks of an issue that waited are gone, a new instruction holds no place in the
order of issue yet, and the pattern records of a bind are read (R94). -/
def atIssue (u : State) : State := beginIssue u

/-- The line at the pc is in the fetch buffer with a line word of class code without defects (R31, R54), and no parity failure is pending in
the slot (R32). -/
def fetches (t : State) (loc w : Nat) : Prop :=
  t.fib.entry = false ∧ codeOk t.fib.pc = true ∧ lookLine t t.focus.1 t.fib (lineOf t.fib.pc) = .line loc w ∧ lineDefect w = none
    ∧ (getCore t t.focus.1).slots[t.focus.2].fetchErr = false

/-- The rotation gives the next issue of the core in focus to slot k in cycle c (R54), with no turn of the schedule before it. -/
def issuesNext (s : State) (c : Nat) (k : Fin 16) : Prop :=
  s.turns = [] ∧ running s = true ∧ present s s.focus.1 = true ∧ nextIssue s s.focus.1 = some (c, k)

/-- What taking a trap writes before the handler is looked for (R135). -/
def trapRegs (s : State) (t : Trap) : State :=
  { s with fib := { s.fib with wake := none, delivery := none, entering := false, status := .run, issued := false, failed := false, want := none
                               pubTo := none, post := none
                               tcause := BitVec.ofNat 8 (t.cause + if s.fib.tcause = 0 then 0 else 0x80), tpc := t.tpc, taddr := t.taddr } }

/-- Fibre n of core g, whose record lies as i says, is faulted in r (R135, R137): slot k holds no fibre, the device knows the fibre as faulted,
its record holds STATE 6, the pc of s and the trap registers, and the fault counter of the core stands one above its value in s. -/
def leftFaulted (s r : State) (g : Nat) (k : Fin 16) (n : Nat) (i : FibreInfo) (cause : Nat) (tpc taddr : Word) : Prop :=
  (getCore r g).slots[k].bound = false
    ∧ (∃ j, fibreInfo r g n = some j ∧ j.state = .faulted ∧ j.loc = i.loc)
    ∧ readNat r (i.loc + 0x5B) 1 / 16 = 6 ∧ readNat r (i.loc + 0x5C) 4 / 2 ^ 20 % 256 = cause % 256
    ∧ readWord r i.loc = s.fib.pc ∧ readWord r (i.loc + 0x20) = tpc ∧ readWord r (i.loc + 0x28) = taddr
    ∧ readWord r (faultCtr g) = readWord s (faultCtr g) + 1
/-- The fibre in focus is no request fibre, its record lies below the scratchpads, and the fault counter of its core is not poisoned. -/
def mayFault (s : State) (i : FibreInfo) : Prop :=
  s.focus.1 < Config.cores ∧ isRequest s s.focus.1 (fibIndex s.fib) = false ∧ fibreInfo s s.focus.1 (fibIndex s.fib) = some i
    ∧ i.loc + 65536 ≤ Config.spadBase ∧ isToxic s (faultCtr s.focus.1) = false

/-! ## Tiles -/

/-- A tile, an accumulator of the core in focus. -/
def tileOf (s : State) (k : Fin 32) : Tile := (getCore s s.focus.1).tiles[k]
def accOf (s : State) (n : Fin 8) : Acc := (getCore s s.focus.1).accs[n]
/-- Claimed by the fibre and sound (R144, R190). -/
def goodTile (s : State) (k : Fin 32) : Bool := hasTile s.fib k && soundReg s.fib (0x100 + k.val)
def goodAcc (s : State) (n : Fin 8) : Bool := hasAcc s.fib n && soundReg s.fib (0x200 + n.val)
/-- The tile written in part; written whole, its poison gone; the same of an accumulator. -/
def putTile (s : State) (k : Fin 32) (t : Tile) : State :=
  let c := getCore s s.focus.1
  setCore s s.focus.1 { c with tiles := c.tiles.set k t }
def newTile (s : State) (k : Fin 32) (t : Tile) : State :=
  putTile { s with fib := cleanReg s.fib (0x100 + k.val) } k t
def putAcc (s : State) (n : Fin 8) (a : Acc) : State :=
  let c := getCore s s.focus.1
  setCore s s.focus.1 { c with accs := c.accs.set n a }
def newAcc (s : State) (n : Fin 8) (a : Acc) : State :=
  putAcc { s with fib := cleanReg s.fib (0x200 + n.val) } n a
def setShape (s : State) (k : Fin 32) (v : BitVec 15) : State := { s with fib := { s.fib with tshape := s.fib.tshape.set k v } }
/-- The matrix unit of the core takes an instruction when it is free and completes it n cycles later; until then the slot is out of the
rotation (R191). -/
def throughMatrix (s : State) (n : Nat) : State :=
  let c := getCore s s.focus.1
  let k := s.focus.2
  let done := max c.cyc c.matrix + n
  setCore s s.focus.1 { c with matrix := done, slots := c.slots.set k { c.slots[k] with next := max c.slots[k].next done, busy := done } }
/-- Byte i and word j of a tile; line l of 48 bytes as a number. -/
def tileByte (t : Tile) (i : Nat) : Byte := t.extractLsb' (8 * i) 8
def tileWord (t : Tile) (j : Nat) : Lane := t.extractLsb' (32 * j) 32
def tileLine (t : Tile) (l : Nat) : Nat := (t.extractLsb' (384 * l) 384).toNat
/-- The claims of the tiles named, the lowest traps with reason 1 (R190): `%taddr` of a tile that is not claimed. -/
def unclaimed (k : Nat) : Word := BitVec.ofNat 64 (0x100 + k)

/-! ## Engines -/

/-- The engine instruction of KIND k + 1 (R203, R209). -/
def engineInstr (k : Fin 12) (sc : Scope) (d : SReg) (m : CRef) (v : Fin 16) : Instr := match k with
  | 0 => .ecopy sc d m v | 1 => .ecopyMc sc d m v | 2 => .ecopyDeal sc d m v | 3 => .ecopyDec sc d m v | 4 => .ecopyRed sc d m v
  | 5 => .egath sc d m v | 6 => .escat sc d m v | 7 => .emigMv sc d m v | 8 => .emigNvr sc d m v | 9 => .emigNvw sc d m v
  | 10 => .ecode sc d m v | 11 => .epub sc d m v
/-- ENG and KIND agree (R209). -/
def engineServes (eng kind : Nat) : Prop :=
  kind = 12 ∨ (eng < 8 ∧ (kind ≤ 5 ∨ kind = 11)) ∨ (eng = 8 ∧ (kind = 6 ∨ kind = 7)) ∨ (8 < eng ∧ 8 ≤ kind ∧ kind ≤ 10)
/-- A field of a record of bytes. -/
def fieldAt (b : List Byte) (o n : Nat) : Nat := natOf ((b.drop o).take n)
/-- The record that a vector register holds (R203). -/
def recordIn (s : State) (v : Fin 16) : List Byte := laneBytes s.fib.v[v]
/-- The status word of a command in its ring entry (R204). -/
def statusWord (d : Cmd) (state code done : Nat) : Nat := state * 2 ^ 61 + code * 2 ^ 56 + (if d.phase then 2 ^ 55 else 0) + d.ticket * 2 ^ 32 + done % 2 ^ 32
/-- The state after the fibre in focus has placed a command (R127, R210): the ring entry is stored and leaves the buffer, the command is in
flight and counted, TAIL is one more. -/
def placed (s : State) (d : Cmd) : State :=
  let u := drainBlocks (storeIn s d.g d.ring d.bytes (selfAdder s) false) d.g [d.ring / 64 * 64]
  addAt (countSent { u with cmds := u.cmds ++ [d], nextCmd := u.nextCmd + 1 } d) d.header 1 (selfAdder s)
/-- The command replaced by one with another state, and the status word stored (R204, R206), with DONE as far as no byte waits for an ACK of a
Welt link (R208, R370); what was granted to its accesses is gone. -/
def commandNow (s : State) (d : Cmd) : State :=
  storeAt { dropGrants s .access (some d.id) with cmds := s.cmds.map fun e => if e.id = d.id then d else e } (d.ring + 0x38)
    (bytesOf 8 (statusWord d d.state d.code (min d.done ((uncovered s d).getD d.done)))) ⟨1, d.g, d.f⟩

/-- The engine has taken a command of the chain (R200). -/
def takenFrom (s : State) (header : Nat) : State := { s with taken := place s.taken header (s.takes + 1), takes := s.takes + 1 }

/-! ## Handles -/

/-- No store of the core in focus waits for the table entry at a, no memory port holds a request, and its read cache is empty. -/
def unhindered (s : State) (a : Nat) : Bool :=
  coveringCount (getCore s s.focus.1).sb a 32 == 0 && s.ports.isEmpty && (getCore s s.focus.1).cache.isEmpty
/-- Index that follows n by j + 1, cyclically over 1 to 1,048,575 (R224). -/
def after (n j : Nat) : Nat := (n + j) % 1048575 + 1
/-- The first free entry after the one allocated last. -/
def chosenEntry (s : State) (n : Nat) : Prop :=
  ∃ j, j < 1048575 ∧ n = after s.lastHandle j ∧ hLive s n = false ∧ ∀ i, i < j → hLive s (after s.lastHandle i) = true
def noFreeEntry (s : State) : Prop := ∀ j, j < 1048575 → hLive s (after s.lastHandle j) = true
/-- The reason of a check that fails, and a 56-bit value (R225). -/
def reasonWord (r v : Nat) : Word := BitVec.ofNat 64 (r * 2 ^ 56 + v % 2 ^ 56)
/-- The fields of a table entry as the core in focus reads them (R223). -/
def entryField (s : State) (n o k : Nat) : Nat := natOf (((coreBytes s s.focus.1 false (handleLoc n) 32).map (·.1)).drop o |>.take k)

/-! ## Contexts and frames -/

/-- No word of the records that a byte can name is poisoned, or holds a single-bit error that a read would correct (R82, R267). -/
def recordsClean (s : State) (b : Nat) : Prop :=
  (∀ i, i < 32768 → isToxic s (b + i) = false) ∧ ∀ w ∈ s.latent, w + 8 ≤ b ∨ b + 32768 ≤ w
/-- `%ctx` passes its check and is pinned with its frame area at b, whose records are clean (R267). -/
def inContext (s : State) (b : Nat) : Prop :=
  handleReason s s.fib.ctx (· == 3) (fun _ => true) = 0 ∧ pinnedAt s s.fib.ctx = some b ∧ recordsClean s b
/-- Stack fault n (R265). -/
def stackTrap (s : State) (n : Nat) : State := trapsWith s 0x0C (BitVec.ofNat 64 (n + s.fib.fp.toNat * 256))
/-- A frame id that names a live record of the area at b. -/
def isFrame (s : State) (b n : Nat) : Prop := 1 ≤ n ∧ n ≤ 127 ∧ readNat s (b + 128 * n + 1) 1 = 1
/-- A field of a frame record stored (R269-R272). -/
def recordPut (s : State) (b n off len v : Nat) : State := storeAt s (b + 128 * n + off) (bytesOf len v) (selfAdder s)
/-- One more hold on a frame (R257). -/
def held (s : State) (b n : Nat) : State := addAt s (b + 128 * n + 0x28) 1 (selfAdder s)
/-- `%fp` and `%fdepth` set. -/
def onFrame (s : State) (n depth : Nat) : State := { s with fib := { s.fib with fp := BitVec.ofNat 7 n, fdepth := BitVec.ofNat 6 depth } }
/-- The slots a to a + n - 1 lie below the bound and meet the slots of no live frame; one of capacity 0 has none (R258). -/
def slotsFree (s : State) (b a n bound : Nat) : Prop :=
  a + n ≤ bound ∧ ∀ k, isFrame s b k → frCap s b k = 0 ∨ a + n ≤ frSlot0 s b k ∨ frSlot0 s b k + (frCap s b k + 15) / 16 * 16 ≤ a
/-- Frame m, the lowest free id, and the lowest slots that fit are there for a push of `cap` tokens, and the objects of the context pass their
checks (R258, R268). -/
def pushable (s : State) (b m slot cap : Nat) : Prop :=
  let n := (cap + 15) / 16 * 16
  let bound := (hdKvh s b).toNat % 2 ^ 24
  1 ≤ m ∧ m ≤ 127 ∧ ¬ isFrame s b m ∧ (∀ k, 1 ≤ k → k < m → isFrame s b k) ∧ slot % 16 = 0 ∧ slotsFree s b slot n bound
    ∧ ∀ k, k < slot → k % 16 = 0 → ¬ slotsFree s b k n bound
def pushObjects (s : State) (b : Nat) : Prop :=
  handleReason s (hdKvh s b) (· == 1) (fun _ => true) = 0
    ∧ (hdLaneh s b = 0 ∨ handleReason s (hdLaneh s b) (· == 2) (fun _ => true) = 0)
/-- The KV object and the lane object that a handle names (R251). -/
def kvOf (s : State) (h : Word) : Tokens := ⟨0x21, handleCur s h, h.toNat % 2 ^ 24⟩
def laneOf (s : State) (h : Word) : Tokens := ⟨0x22, handleCur s h, h.toNat % 2 ^ 24⟩
/-- One advance of R278 from run r, whose keys are done: to an argument span of the own frame, over one that it has not, to the parent of the
own frame, from ancestor to ancestor, and at frame 0 to PHASE 6. INDEX at PHASE 6 is the model's choice (log 100). -/
def advancesTo (s : State) (b own : Nat) (r t : Run) : Prop :=
  let done := if r.phase = 4 then own else r.frame
  let up := frParent s b done
  (r.phase < 4 ∧ r.phase < frNarg s b own ∧ t.phase = r.phase + 1
      ∧ ∃ g start len, frArg s b own r.phase = (g, start, len) ∧ t.frame = g ∧ t.index = start ∧ t.limit = start + len)
  ∨ (r.phase < 4 ∧ frNarg s b own ≤ r.phase ∧ t = ⟨r.phase + 1, 0, 0, r.frame⟩)
  ∨ (4 ≤ r.phase ∧ up ≠ 0 ∧ t.phase = 5 ∧ t.frame = up ∧ t.index = 0 ∧ t.limit = frMark s b done)
  ∨ (4 ≤ r.phase ∧ up = 0 ∧ t.phase = 6 ∧ t.frame = 0 ∧ t.index = 0 ∧ t.limit = frMark s b done)
/-- n advances lead from run r to run t, which holds keys or ends the phases. -/
def advancesIn (s : State) (b own : Nat) : Nat → Run → Run → Prop
  | 0, r, t => t = r ∧ (r.index ≠ r.limit ∨ 6 ≤ r.phase)
  | n + 1, r, t => r.index = r.limit ∧ r.phase < 6 ∧ ∃ u, advancesTo s b own r u ∧ advancesIn s b own n u t
/-- The 128 bytes of a pair of vector registers. -/
def pairBytes (s : State) (k : Fin 15) : List Byte := laneBytes s.fib.v[k.val] ++ laneBytes s.fib.v[k.val + 1]
def plainPair (s : State) (k : Fin 15) : Bool := plainV s.fib (Fin.castLE (by omega) k) && plainV s.fib ⟨k.val + 1, by omega⟩

end Sys2Proof.Safety
end

