-- ==== Sys2Proof/Certificates/Slice0/Obligations.lean ====
section
/-!
DEFINITION. The statements for the provers. A statement about an instruction gives the whole next state, so that what it does not name is
unchanged: every register, every special register, every byte of memory.
-/
section Claims
open Sys2Proof Sys2Proof.Machine Sys2Proof.Safety

/-! ## Words and instructions (R28-R50) -/

/-- R33-R38, R48, R50: the decoder gives back every well-formed instruction, with every operand at every value, from the word that the
encoder makes of it. -/
def Obligations.DecodeOfEncode : Prop :=
  ∀ i : Instr, wfInstr i = true → isEvent i = false → (encode i).bind decode = some i

/-- R33-R38, R50: a word that decodes stands for a well-formed instruction, no event, and has no bit to spare: encoding what it decodes to
gives the word back. R48, R50: a word whose OP is a reserved major is no instruction, and every other major is that of some instruction. -/
def Obligations.DecodedWords : Prop :=
  (∀ (w : BitVec 96) (i : Instr), decode w = some i → encode i = some w ∧ wfInstr i = true ∧ isEvent i = false)
  ∧ ((∀ w : BitVec 96, reservedMajor (w.extractLsb' 88 8).toNat = true → decode w = none)
       ∧ ∀ op : BitVec 8, reservedMajor op.toNat = false → ∃ (w : BitVec 96) (i : Instr), w.extractLsb' 88 8 = op ∧ decode w = some i)

/-- Words that the spec itself writes out, or whose fields it writes out, and what they stand for (R74, R168 and the examples of the
chapters). -/
def Obligations.WordsOfTheSpec : Prop :=
  decode 0x200086000000000000000028 = some (.li (.x 3) 40)
    ∧ decode 0x01008B0E2000000000000000 = some (.add (.x 5) (.x 3) (.reg (.x 4)))
    ∧ decode 0x02008D0C2800000000000001 = some (.sub (.x 6) (.x 3) (.imm 1))
    ∧ decode 0x280000000000000000000000 = some .nop
    ∧ decode 0x220000000000000000000000 = some (.b 0 0)
    ∧ decode 0x211101325800000000000000 = some (.csk .ltn 0 (.x 12) (.reg (.x 11)))
    ∧ decode 0x7700A0851000000000000000 = some (.vdot .rne (.x 16) 1 (.v 2))
    ∧ decode 0xB00088002800000000000010 = some (.fpush (.x 4) (.imm 16))
    ∧ decode 0xB001B4002800000000000010 = some (.fpushSpec (.x 26) (.imm 16))
    ∧ decode 0xC10040B42DF0000000000000 = some (.vtopk 0 0 13 (.imm 0) (.x 31))
    ∧ decode 0 = none ∧ decode (BitVec.allOnes 96) = none

/-! ## Issue (R45-R51, R54) -/

/-- R28, R31, R51, R54: with nothing before it, a step issues from the slot that the rotation names; where the fetched line has no defect
and the word at the pc has good parity, stands outside a pair and decodes to i, the step is exactly `exec` of i in the state in which that
slot issues (`atIssue`: the marks of an issue that waited are gone, and the pattern records of a bind are read, R94). What the step adds: the
cycles that pass, the slot's spacing of 8 cycles, and afterwards the wakes that settle and the end of the fibres of a killed kernel
(`afterEvent`). R338: a fibre of a killed kernel at an instruction boundary executes nothing more. -/
def Obligations.StepRunsDecoded : Prop :=
  (∀ (s t : State) (c : Nat) (k : Fin 16) (loc w : Nat) (i : Instr),
    issuesNext s c k → atEnd s c k = false → calm (issuing s c k).fib = true → t = atIssue (issuing s c k) → fetches t loc w →
    pairBit w (instrNo t.fib.pc) = false → parityGood t loc w (instrNo t.fib.pc) = true →
    decode (instrBits t loc (instrNo t.fib.pc)) = some i → step s = afterEvent (exec i t))
  ∧ ∀ (s : State) (c : Nat) (k : Fin 16), issuesNext s c k → atEnd s c k = true → step s = afterEvent (.next (named s c k))

/-- R45-R47: where the line word marks the instruction and the next as a pair, both have good parity and decode, and the pair keeps R45,
the step executes both members as one unit. R46: two moves that form a pair both read before either writes, the first member's result is pushed before the second's, and then the
named destinations are written; the pc moves past both. -/
def Obligations.Pairs : Prop :=
  (∀ (s t : State) (c : Nat) (k : Fin 16) (loc w : Nat) (i j : Instr),
     issuesNext s c k → atEnd s c k = false → calm (issuing s c k).fib = true → t = atIssue (issuing s c k) → fetches t loc w → pairBit w (instrNo t.fib.pc) = true →
     parityGood t loc w (instrNo t.fib.pc) = true → parityGood t loc w (instrNo t.fib.pc + 1) = true →
     decode (instrBits t loc (instrNo t.fib.pc)) = some i → decode (instrBits t loc (instrNo t.fib.pc + 1)) = some j → pairFault i j = none →
     step s = afterEvent (execPair i j t))
  ∧ (∀ (s : State) (d a e b : SReg), s.pair = none → plainS s.fib a = true → plainS s.fib b = true → openS s.fib d = true → openS s.fib e = true →
       execPair (.mov d a) (.mov e b) s = .next { s with fib :=
         { putReg (putReg (pushLa (pushLa s.fib (regVal s.fib a)) (regVal s.fib b)) d (regVal s.fib a)) e (regVal s.fib b) with
           pc := nextPc (nextPc s.fib.pc) } })

/-- A turn of the schedule that names an event runs exactly that event; a term that names no event, or no object of the module, changes
nothing but the schedule (R9), and without power nothing happens but POWER_ON (R382). The schedule is the model's own (log 1). -/
def Obligations.StepRunsEvent : Prop :=
  ∀ (s : State) (i : Instr) (r : List Turn), s.turns = .event i :: r →
    (s.power = true ∨ i = .powerOn →
      step s = if isEvent i && wfInstr i then afterEvent (exec i { s with turns := r }) else .next { s with turns := r })
    ∧ (s.power = false → i ≠ .powerOn → step s = .next { s with turns := r })

/-! ## Traps (R132-R149) -/

/-- R50, R133, R144: a word that is no instruction traps with cause 0x01, `%tpc` its address and `%taddr` 0; an instruction that reads a
poisoned scalar register traps with cause 0x10, `%taddr` 2^63 plus the operand specifier. -/
def Obligations.NoInstructionAndPoisonTrap : Prop :=
  (∀ (s : State) (loc w : Nat), pairBit w (instrNo s.fib.pc) = false → (getCore s s.focus.1).slots[s.focus.2].fetchErr = false →
      parityGood s loc w (instrNo s.fib.pc) = true → decode (instrBits s loc (instrNo s.fib.pc)) = none →
      issueLine s loc w = .next (trapsWith s 1 0))
    ∧ ∀ (s : State) (d a : SReg) (b : SrcB), s.pair = none → armedS s.fib a = none → s.fib.poison.contains (specOf a) = true →
      exec (.add d a b) s = .next (trapsWith s 0x10 (BitVec.ofNat 64 (2 ^ 63 + specOf a)))
        ∧ exec (.mov d a) s = .next (trapsWith s 0x10 (BitVec.ofNat 64 (2 ^ 63 + specOf a)))
        ∧ exec (.ret a) s = .next (trapsWith s 0x10 (BitVec.ofNat 64 (2 ^ 63 + specOf a)))

/-- R135: a trap that is taken with no handler active and `%tvec` set, writes `%tcause`, `%tpc` and `%taddr` and enters the handler where its
entry passes the steps of R397; where its line is not in the fetch buffer, the fibre waits for it with its pc as it was, and the handler is
checked and begins once it has come; nothing else changes. R135, R137: a trap in a fibre without a handler, or while a handler is active (bit 7 of `%tcause` then reads 1), leaves the fibre
faulted: its slot holds no fibre, the device knows it as faulted, its record holds STATE 6, the pc as it was and the trap registers, and the fault counter of
the core has gained 1. R135, R397: a handler whose entry fails leaves the fibre faulted with the cause of that failure, bit 7 set, and
`%tpc` the handler's address. -/
def Obligations.TrapIsTaken : Prop :=
  (∀ (s : State) (t : Trap), isRequest s s.focus.1 (fibIndex s.fib) = false → s.fib.tcause = 0 → s.fib.tvec ≠ 0 →
     let u := trapRegs s t
     (enterAt u s.fib.tvec true = .fine → raiseTrap s t false = { u with fib := { u.fib with pc := s.fib.tvec } })
       ∧ (enterAt u s.fib.tvec true = .absent → raiseTrap s t false =
           { u with fib := { u.fib with entering := true, status := .waiting .fetch, want := some s.fib.tvec } }))
  ∧ (∀ s : State, s.fib.entering = true →
     let u := { s with fib := { s.fib with entering := false, want := none } }
     (enterAt u s.fib.tvec true = .fine → issueFib s = .next { u with fib := { u.fib with pc := s.fib.tvec } })
       ∧ ∀ (i : FibreInfo) (c : Nat) (un : Bool) (a : Word), mayFault s i → enterAt u s.fib.tvec true = .bad c un a →
         ∃ r, issueFib s = .next r ∧ leftFaulted s r s.focus.1 s.focus.2 (fibIndex s.fib) i (0x80 + c) s.fib.tvec a)
  ∧ (∀ (s : State) (t : Trap) (i : FibreInfo), mayFault s i → (s.fib.tvec = 0 ∨ s.fib.tcause ≠ 0) →
       leftFaulted s (raiseTrap s t false) s.focus.1 s.focus.2 (fibIndex s.fib) i (t.cause + if s.fib.tcause = 0 then 0 else 0x80) t.tpc t.taddr)
  ∧ ∀ (s : State) (t : Trap) (i : FibreInfo) (c : Nat) (un : Bool) (a : Word), mayFault s i → s.fib.tcause = 0 → s.fib.tvec ≠ 0 →
       enterAt (trapRegs s t) s.fib.tvec true = .bad c un a →
       leftFaulted s (raiseTrap s t false) s.focus.1 s.focus.2 (fibIndex s.fib) i (0x80 + c) s.fib.tvec a

/-- R76, R149: `tret` resumes at `%tpc`, and `eret` at its operand with STEP cleared; both clear `%tcause` and change nothing else. With
no handler active both trap with cause 0x05. -/
def Obligations.ReturnFromHandler : Prop :=
  (∀ s : State, s.pair = none → s.fib.tcause ≠ 0 → enterAt s s.fib.tpc false = .fine →
      exec .tret s = .next { s with fib := { s.fib with tcause := 0, pc := s.fib.tpc } })
    ∧ (∀ (s : State) (a : SReg), s.pair = none → s.fib.tcause ≠ 0 → plainS s.fib a = true → enterAt s (regVal s.fib a) false = .fine →
      exec (.eret a) s = .next { s with fib := { s.fib with tcause := 0, step := 0, pc := regVal s.fib a } })
    ∧ ∀ (s : State) (a : SReg), s.pair = none → s.fib.tcause = 0 →
      exec .tret s = .next (trapsWith s 5 0) ∧ exec (.eret a) s = .next (trapsWith s 5 0)

/-! ## Registers and scalar instructions (R38-R43, R67-R73) -/

/-- R40: after a result v with destination d, `la0` to `la3` hold v and the three results before it, unless d names one of them; the
register that d names holds v; every other register keeps its value, and `z` reads 0. R144: the named register, written whole, is left
without poison and without a single-bit error. -/
def Obligations.PushAndNamedDestination : Prop :=
  ∀ (f : Fib) (d : SReg) (v : Word),
    let g := putReg (pushLa f v) d v
    (∀ r : SReg, r = d → r ≠ .z → regVal g r = v)
      ∧ (SReg.la 0 ≠ d → regVal g (.la 0) = v) ∧ (SReg.la 1 ≠ d → regVal g (.la 1) = regVal f (.la 0))
      ∧ (SReg.la 2 ≠ d → regVal g (.la 2) = regVal f (.la 1)) ∧ (SReg.la 3 ≠ d → regVal g (.la 3) = regVal f (.la 2))
      ∧ (∀ k : Fin 16, SReg.s k ≠ d → regVal g (.s k) = regVal f (.s k)) ∧ (∀ k : Fin 64, SReg.x k ≠ d → regVal g (.x k) = regVal f (.x k))
      ∧ regVal g .z = 0
      ∧ soundReg g (specOf d) = true ∧ (f.poison = [] → f.flips = [] → g.poison = [] ∧ g.flips = [])
      ∧ g = { f with la := g.la, s := g.s, x := g.x, poison := g.poison, flips := g.flips }

/-- R42: the six condition codes on two 64-bit operands; the codes from 6 on stand for no condition. -/
def Obligations.ConditionCodes : Prop :=
  (∀ a b : Word,
    (∃ c, condOf 0 = some c ∧ (condHolds c a b = true ↔ a.toNat = b.toNat)) ∧ (∃ c, condOf 1 = some c ∧ (condHolds c a b = true ↔ a.toNat ≠ b.toNat))
      ∧ (∃ c, condOf 2 = some c ∧ (condHolds c a b = true ↔ a.toInt < b.toInt)) ∧ (∃ c, condOf 3 = some c ∧ (condHolds c a b = true ↔ a.toInt ≥ b.toInt))
      ∧ (∃ c, condOf 4 = some c ∧ (condHolds c a b = true ↔ a.toNat < b.toNat))
      ∧ (∃ c, condOf 5 = some c ∧ (condHolds c a b = true ↔ a.toNat ≥ b.toNat)))
    ∧ ∀ n : Nat, 6 ≤ n → condOf n = none

/-- R68: the two-source instructions of R68, with the value of each. They complete, push and write the result, and change nothing else (R40).
R68, R72, R73: the one-source instructions, `li`, `sel`, `cset` and `lea`. -/
def Obligations.ScalarInstructions : Prop :=
  (∀ (s : State) (d a : SReg) (b : SrcB), s.pair = none → plainS s.fib a = true → plainB s.fib b = true → openS s.fib d = true →
     let x := regVal s.fib a
     let y := valB s.fib b
     exec (.add d a b) s = .next (doneS s d (BitVec.ofNat 64 (x.toNat + y.toNat)))
       ∧ exec (.sub d a b) s = .next (doneS s d (BitVec.ofInt 64 ((x.toNat : Int) - y.toNat)))
       ∧ exec (.mul d a b) s = .next (doneS s d (BitVec.ofNat 64 (x.toNat * y.toNat)))
       ∧ exec (.mulh d a b) s = .next (doneS s d (BitVec.ofInt 64 (Int.fdiv (x.toInt * y.toInt) (2 ^ 64))))
       ∧ exec (.mulhn d a b) s = .next (doneS s d (BitVec.ofNat 64 (x.toNat * y.toNat / 2 ^ 64)))
       ∧ exec (.and d a b) s = .next (doneS s d (x &&& y))
       ∧ exec (.or d a b) s = .next (doneS s d (x ||| y))
       ∧ exec (.xor d a b) s = .next (doneS s d (x ^^^ y))
       ∧ exec (.andn d a b) s = .next (doneS s d (x &&& ~~~y))
       ∧ exec (.min d a b) s = .next (doneS s d (if x.toInt < y.toInt then x else y))
       ∧ exec (.max d a b) s = .next (doneS s d (if x.toInt > y.toInt then x else y))
       ∧ exec (.minn d a b) s = .next (doneS s d (if x.toNat < y.toNat then x else y))
       ∧ exec (.maxn d a b) s = .next (doneS s d (if x.toNat > y.toNat then x else y)))
  ∧ ((∀ (s : State) (d a : SReg), s.pair = none → plainS s.fib a = true → openS s.fib d = true →
       let x := regVal s.fib a
       exec (.clz d a) s = .next (doneS s d (BitVec.ofNat 64 ((List.range 64).takeWhile fun k => !x.getLsbD (63 - k)).length))
         ∧ exec (.ctz d a) s = .next (doneS s d (BitVec.ofNat 64 ((List.range 64).takeWhile fun k => !x.getLsbD k).length))
         ∧ exec (.popc d a) s = .next (doneS s d (BitVec.ofNat 64 ((List.range 64).filter fun k => x.getLsbD k).length))
         ∧ exec (.mov d a) s = .next (doneS s d x))
       ∧ (∀ (s : State) (d a c : SReg) (b : SrcB) (cc : Cond) (k : Fin 7), s.pair = none → plainS s.fib a = true → plainB s.fib b = true →
         plainS s.fib c = true → openS s.fib d = true →
         exec (.sel d a b c) s = .next (doneS s d (if regVal s.fib c ≠ 0 then regVal s.fib a else valB s.fib b))
           ∧ exec (.cset cc d a b) s = .next (doneS s d (if condHolds cc (regVal s.fib a) (valB s.fib b) then 1 else 0))
           ∧ exec (.lea k d a b c) s = .next (doneS s d
               (BitVec.ofNat 64 ((regVal s.fib a).toNat + (valB s.fib b).toNat + (regVal s.fib c).toNat * 2 ^ k.val))))
       ∧ ∀ (s : State) (d : SReg) (imm : Word), s.pair = none → openS s.fib d = true → exec (.li d imm) s = .next (doneS s d imm))

/-- R69: quotient and remainder towards zero; a division by 0 gives 0 and a; -2^63 by -1 gives -2^63 and 0; no trap in any case.
R70: shifts by 64 and more, the arithmetic shift, and the rotation. Each stands under the opcode that its rule gives. -/
def Obligations.DivisionAndShifts : Prop :=
  (∀ (s : State) (d a : SReg) (b : SrcB), s.pair = none → plainS s.fib a = true → plainB s.fib b = true → openS s.fib d = true →
     let x := regVal s.fib a
     let y := valB s.fib b
     exec (.div d a b) s = .next (doneS s d (if y = 0 then 0 else if x.toInt = -2 ^ 63 ∧ y.toInt = -1 then BitVec.ofInt 64 (-2 ^ 63)
           else BitVec.ofInt 64 (Int.tdiv x.toInt y.toInt)))
       ∧ exec (.rem d a b) s = .next (doneS s d (if y = 0 then x else if x.toInt = -2 ^ 63 ∧ y.toInt = -1 then 0
           else BitVec.ofInt 64 (x.toInt - y.toInt * Int.tdiv x.toInt y.toInt)))
       ∧ exec (.divn d a b) s = .next (doneS s d (if y = 0 then 0 else BitVec.ofNat 64 (x.toNat / y.toNat)))
       ∧ exec (.remn d a b) s = .next (doneS s d (if y = 0 then x else BitVec.ofNat 64 (x.toNat - y.toNat * (x.toNat / y.toNat)))))
  ∧ (∀ (s : State) (d a : SReg) (b : SrcB), s.pair = none → plainS s.fib a = true → plainB s.fib b = true → openS s.fib d = true →
       let x := regVal s.fib a
       let y := valB s.fib b
       exec (.shl d a b) s = .next (doneS s d (if y.toNat ≥ 64 then 0 else x <<< y.toNat))
         ∧ exec (.shr d a b) s = .next (doneS s d (if y.toNat ≥ 64 then 0 else x >>> y.toNat))
         ∧ exec (.sar d a b) s = .next (doneS s d (BitVec.sshiftRight x (Nat.min y.toNat 63)))
         ∧ exec (.rol d a b) s = .next (doneS s d (BitVec.rotateLeft x (y.toNat % 64))))
  ∧ ∀ (d a : SReg) (b : SrcB), standsUnder (.div d a b) 0x06 0 ∧ standsUnder (.divn d a b) 0x07 0 ∧ standsUnder (.rem d a b) 0x08 0
    ∧ standsUnder (.remn d a b) 0x09 0 ∧ standsUnder (.shl d a b) 0x0E 0 ∧ standsUnder (.shr d a b) 0x0F 0 ∧ standsUnder (.sar d a b) 0x10 0
    ∧ standsUnder (.rol d a b) 0x11 0

/-- R71: `bext`, `bext.s`, `bins` and `sext`, bit by bit: p is b[5:0] and l is b[14:8], at most 64. Each stands under the
opcode and function code that R71 gives. -/
def Obligations.FieldInstructions : Prop :=
  (∀ (s : State) (d a : SReg) (b : SrcB), s.pair = none → plainS s.fib a = true → plainB s.fib b = true → openS s.fib d = true →
    let x := regVal s.fib a
    let y := valB s.fib b
    let p := (y.extractLsb' 0 6).toNat
    let l := Nat.min (y.extractLsb' 8 7).toNat 64
    (∃ v, exec (.bext d a b) s = .next (doneS s d v) ∧ ∀ k < 64, v.getLsbD k = (decide (k < l) && x.getLsbD (p + k)))
      ∧ (∃ v, exec (.bextS d a b) s = .next (doneS s d v)
          ∧ ∀ k < 64, v.getLsbD k = if k < l then x.getLsbD (p + k) else decide (0 < l) && x.getLsbD (p + l - 1))
      ∧ ∃ v, exec (.sext d a b) s = .next (doneS s d v)
          ∧ ∀ k < 64, v.getLsbD k = if y.toNat = 0 ∨ 64 ≤ y.toNat ∨ k < y.toNat then x.getLsbD k else x.getLsbD (y.toNat - 1))
    ∧ (∀ (d a c : SReg) (b : SrcB), standsUnder (.bext d a b) 0x19 0 ∧ standsUnder (.bextS d a b) 0x19 1 ∧ standsUnder (.bins d a b c) 0x1A 0
      ∧ standsUnder (.sext d a b) 0x1B 0)
    ∧ ∀ (s : State) (d a c : SReg) (b : SrcB), s.pair = none → plainS s.fib a = true → plainB s.fib b = true → plainS s.fib c = true →
      openS s.fib d = true →
      let p := ((valB s.fib b).extractLsb' 0 6).toNat
      let l := Nat.min ((valB s.fib b).extractLsb' 8 7).toNat 64
      ∃ v, exec (.bins d a b c) s = .next (doneS s d v)
        ∧ ∀ k < 64, v.getLsbD k = if p ≤ k ∧ k < p + l then (regVal s.fib c).getLsbD (k - p) else (regVal s.fib a).getLsbD k

/-! ## Control (R74-R76) and special registers (R63-R66) -/

/-- R30, R36, R75: `b`, `bcc`, `call`, `ret`, `jr` and `loop` whose target passes R397, `bcc` and
`loop` that are not taken, and `ret` and `jr` to an address that is no code address, which trap with cause 0x02 and write nothing. A `b` to a line that is not in the fetch buffer leaves the rotation until it is (R55). -/
def Obligations.Transfers : Prop :=
  (∀ (s : State) (ti : Fin 5) (tl : BitVec 32), s.pair = none → enterAt s (jumpTarget s ti tl) false = .fine →
      exec (.b ti tl) s = .next { s with fib := { s.fib with pc := jumpTarget s ti tl } })
    ∧ (∀ (s : State) (ti : Fin 5) (tl : BitVec 32), s.pair = none → enterAt s (jumpTarget s ti tl) false = .absent →
      exec (.b ti tl) s = .next { s with fib := { s.fib with status := .waiting .fetch, want := some (jumpTarget s ti tl), issued := true } })
    ∧ (∀ (s : State) (ti : Fin 5) (tl : BitVec 32) (cc : Cond) (a b : SReg), s.pair = none → plainS s.fib a = true → plainS s.fib b = true →
      (condHolds cc (regVal s.fib a) (regVal s.fib b) = true → enterAt s (jumpTarget s ti tl) false = .fine →
        exec (.bcc cc a b ti tl) s = .next { s with fib := { s.fib with pc := jumpTarget s ti tl } })
      ∧ (condHolds cc (regVal s.fib a) (regVal s.fib b) = false → exec (.bcc cc a b ti tl) s = .next (goOn s)))
    ∧ (∀ (s : State) (ti : Fin 5) (tl : BitVec 32) (d : SReg), s.pair = none → openS s.fib d = true →
      enterAt s (jumpTarget s ti tl) false = .fine →
      exec (.call d ti tl) s = .next { s with fib := { putReg (pushLa s.fib (nextPc s.fib.pc)) d (nextPc s.fib.pc) with pc := jumpTarget s ti tl } })
    ∧ (∀ (s : State) (a : SReg), s.pair = none → plainS s.fib a = true → enterAt s (regVal s.fib a) false = .fine →
      exec (.ret a) s = .next { s with fib := { s.fib with pc := regVal s.fib a } })
    ∧ (∀ (s : State) (d a : SReg), s.pair = none → plainS s.fib a = true → openS s.fib d = true → enterAt s (regVal s.fib a) false = .fine →
      exec (.jr d a) s = .next { s with fib := { putReg (pushLa s.fib (nextPc s.fib.pc)) d (nextPc s.fib.pc) with pc := regVal s.fib a } })
    ∧ ∀ (s : State) (ti : Fin 5) (tl : BitVec 32) (d a : SReg), s.pair = none → plainS s.fib a = true → openS s.fib d = true →
      (regVal s.fib a ≠ 1 → enterAt s (jumpTarget s ti tl) false = .fine →
        exec (.loop d a ti tl) s =
          .next { s with fib := { putReg (pushLa s.fib (regVal s.fib a - 1)) d (regVal s.fib a - 1) with pc := jumpTarget s ti tl } })
      ∧ (regVal s.fib a = 1 → exec (.loop d a ti tl) s = .next (doneS s d 0))
      ∧ (codeOk (regVal s.fib a) = false →
        exec (.ret a) s = .next (trapsWith s 2 (regVal s.fib a)) ∧ exec (.jr d a) s = .next (trapsWith s 2 (regVal s.fib a)))

/-- R74: `csk` whose condition fails goes on; one whose condition holds annuls n instructions: here the first of them, in a line that
the fetch buffer holds, decodes and has good parity, and the pc moves past it. R76, R147, R148: `nop` goes on; `yield` goes on where no ready fibre fits
the slot; `halt` ends the fibre at the successor; `trap n` raises cause 0x11 with `%tpc` the successor and `%taddr` n; `sysc n`, with room
in the mailbox, takes the fibre of a slot but the walker's to the swapped state at the successor, with a service entry of n to be posted
once its record is written. Model's choice, log 87: `sysc` in the walker's slot posts its entry and goes on; R148 swaps the fibre of every
`sysc`, and R52 says only that a walker is never swapped. -/
def Obligations.SkipsAndOtherControl : Prop :=
  (∀ (s : State) (cc : Cond) (n : Fin 3) (a : SReg) (b : SrcB), s.pair = none → plainS s.fib a = true → plainB s.fib b = true →
      condHolds cc (regVal s.fib a) (valB s.fib b) = false → exec (.csk cc n a b) s = .next (goOn s))
    ∧ (∀ (s : State) (cc : Cond) (a : SReg) (b : SrcB) (loc w : Nat), s.pair = none → plainS s.fib a = true → plainB s.fib b = true →
      condHolds cc (regVal s.fib a) (valB s.fib b) = true → lookLine s s.focus.1 s.fib (lineOf (nextPc s.fib.pc)) = .line loc w →
      (instrNo (nextPc s.fib.pc) = 0 → lineDefect w = none) → parityGood s loc w (instrNo (nextPc s.fib.pc)) = true →
      (decode (instrBits s loc (instrNo (nextPc s.fib.pc)))).isSome = true →
      exec (.csk cc 0 a b) s = .next { s with fib := { s.fib with pc := nextPc (nextPc s.fib.pc) } })
    ∧ ∀ (s : State) (n : BitVec 16), s.pair = none →
      exec .nop s = .next (goOn s)
        ∧ (eldest (goOn s) s.focus.1 s.focus.2 = none → exec .yield s = .next (goOn s))
        ∧ exec .halt s = .next (haltFibre (goOn s) s.focus.1 s.focus.2)
        ∧ exec (.trap n) s = .next (raiseTrap (goOn s) ⟨0x11, nextPc s.fib.pc, n.zeroExtend 64⟩ false)
        ∧ ((freeTag (getCore s s.focus.1)).isSome = true →
        (s.focus.2 ≠ 15 → ∀ i : FibreInfo, fibreInfo (unbind (goOn s) s.focus.1 s.focus.2 .swapped) s.focus.1 (fibIndex s.fib) = some i →
          exec (.sysc n) s = .next (setFibreInfo (unbind (goOn s) s.focus.1 s.focus.2 .swapped) s.focus.1 (fibIndex s.fib)
            { i with call := some (n.zeroExtend 64) }))
        ∧ (s.focus.2 = 15 → ∀ t : State, postMiss (goOn s) s.focus.1
          { va := 0, at_ := 7, tenant := s.fib.tenant, tag := 0, rq := 3, who := fibIndex s.fib, code := n.zeroExtend 64 } = some t →
          exec (.sysc n) s = .next t))

/-- R63: `csrr` of every special register, in both modes, pushes and writes its value at issue; what the register reads is `csrRead`. R8, R63, R64, R134: writes of the trap registers, `%ctx`, `%fdlimit`, `%rope` and `%budget`: in steward mode each takes the bits it
has; `%tvec` and `%rope` take them in user mode too; a write to a register that is RO is ignored; `csrx` returns the value from before. In user
mode a write to a register whose access is not RW traps with cause 0x05 and the CSR number, and `csrx` then neither reads nor writes. -/
def Obligations.SpecialRegisters : Prop :=
  (∀ (s : State) (d : SReg) (c : Csr), s.pair = none → openS s.fib d = true → exec (.csrr d c) s = .next (doneS s d (csrRead s c)))
  ∧ ((∀ (s : State) (d a : SReg), s.pair = none → plainS s.fib a = true → openS s.fib d = true →
       let v := regVal s.fib a
       (exec (.csrw .tvec a) s = .next (goOn { s with fib := { s.fib with tvec := v } }))
         ∧ (exec (.csrx d a .tvec) s = .next (doneS { s with fib := { s.fib with tvec := v } } d s.fib.tvec))
         ∧ (exec (.csrw .rope a) s = .next (goOn { s with fib := { s.fib with rope := v &&& 0xE000FFFFFFFFFFFF } }))
         ∧ (s.fib.steward = true →
           exec (.csrw .tcause a) s = .next (goOn { s with fib := { s.fib with tcause := v.setWidth 8 } })
             ∧ exec (.csrw .tpc a) s = .next (goOn { s with fib := { s.fib with tpc := v } })
             ∧ exec (.csrw .taddr a) s = .next (goOn { s with fib := { s.fib with taddr := v } })
             ∧ exec (.csrw .tstep a) s = .next (goOn { s with fib := { s.fib with step := v.setWidth 8, hstep := (v >>> 8).setWidth 8 } })
             ∧ exec (.csrw .ctx a) s = .next (goOn { s with fib := { s.fib with ctx := v } })
             ∧ exec (.csrw .fdlimit a) s = .next (goOn { s with fib := { s.fib with fdlimit := v.setWidth 6 } })
             ∧ exec (.csrw .budget a) s = .next (goOn { s with fib := { s.fib with budget := v.setWidth 48, due := false } })
             ∧ exec (.csrx d a .ctx) s = .next (doneS { s with fib := { s.fib with ctx := v } } d s.fib.ctx)
             ∧ ∀ c : Csr, csrAccess c = .ro → exec (.csrw c a) s = .next (goOn s)))
       ∧ ∀ (s : State) (d a : SReg) (c : Csr), s.pair = none → s.fib.steward = false →
         (∀ k, c ≠ .tshape k) → c ≠ .tclaim → c ≠ .aclaim → c ≠ .rope → c ≠ .tvec →
         exec (.csrw c a) s = .next (trapsWith s 5 (BitVec.ofNat 64 c.code)) ∧ exec (.csrx d a c) s = .next (trapsWith s 5 (BitVec.ofNat 64 c.code)))


/-! ## Segments, loads, stores, streams (R77-R94) -/

/-- R78, R79: an access of n bytes, aligned to n, through a segment of local or cluster class passes the checks in the order of R79, each
with its cause and `%taddr`; one that passes reaches the bytes of the scratchpad that R78 names. The last test is that of guarded granules
(R253, R332). -/
def Obligations.SegmentChecks : Prop :=
  ∀ (s : State) (sg : Fin 8) (o : Word) (e : Fin 7) (need kind : Nat),
    let n := 2 ^ e.val
    let g := s.fib.seg[sg]
    let addr := g.base.toNat + o.toNat
    let cap := if g.cls = 0 then 131072 else 25165824
    let loc := if g.cls = 0 then spadLoc s.focus.1 addr else clusterLoc (s.focus.1 / 192) addr
    g.cls = 0 ∨ g.cls = 1 →
    resolve sg o n n need kind s =
      if g.rights.toNat &&& need ≠ need then .error (.trap 6 o false none)
      else if o.toNat + n > g.limit.toNat then .error (.trap 6 o false none)
      else if addr + n > cap then .error (.trap 6 o false none)
      else if addr % n ≠ 0 then .error (.trap 7 o false none)
      else if g.cls = 1 ∧ present s (s.focus.1 / 192 * 192 + addr / 131072) = false then .error (.trap 6 o false none)
      else if s.fib.steward = false ∧ guardedIn s loc n = true then .error (.trap 6 o false none)
      else .ok ([(loc, n)], s)

/-- R84, R85: `ld`, `ldv` and `ldvb` whose access resolves to the n bytes at location a, readable there, complete with the value of R85, m
being those bytes in little-endian order. A load with an acquire takes it first and reads past the read cache. -/
def Obligations.Loads : Prop :=
  (∀ (s t : State) (sz : Fin 7) (acq : Option Scope) (d : SReg) (m : MemRef) (a : Nat), s.pair = none → plainS s.fib m.a = true →
      openS s.fib d = true →
      let n := sizeBytes sz.val
      resolve m.sg (offM s.fib m) n n rightRd accLoad (acquired s acq) = .ok ([(a, n)], t) → readable t a n acq.isSome = true →
      let v := natOf (visible t a n acq.isSome)
      exec (.ld sz acq d m) s = .next (doneS (readPast t a n acq) d
        (if sz = 1 ∨ sz = 3 ∨ sz = 5 then (BitVec.ofNat (8 * n) v).signExtend 64 else BitVec.ofNat 64 v)))
    ∧ (∀ (s t : State) (full : Bool) (acq : Option Scope) (d : Fin 16) (m : MemRef) (a : Nat), s.pair = none → plainS s.fib m.a = true →
      openV s.fib d = true →
      let n := if full then 64 else 32
      resolve m.sg (offM s.fib m) n n rightRd accLoad (acquired s acq) = .ok ([(a, n)], t) → readable t a n acq.isSome = true →
      let bs := visible t a n acq.isSome
      exec (.ldv full acq d m) s = .next (doneV (readPast t a n acq) d
        (vecOf fun k : Fin 16 => if k.val < n / 4 then BitVec.ofNat 32 (natOf ((bs.drop (4 * k.val)).take 4)) else 0)))
    ∧ ∀ (s t : State) (sz : Fin 3) (acq : Option Scope) (d : Fin 16) (m : MemRef) (a : Nat), s.pair = none → plainS s.fib m.a = true →
      openV s.fib d = true →
      let n := 2 ^ (sz.val + 1)
      resolve m.sg (offM s.fib m) n n rightRd accLoad (acquired s acq) = .ok ([(a, n)], t) → readable t a n acq.isSome = true →
      let v := natOf (visible t a n acq.isSome)
      exec (.ldvb sz acq d m) s = .next (doneV (readPast t a n acq) d (vecOf fun k : Fin 16 =>
        if sz = 0 then BitVec.ofNat 32 (v * 2 ^ 16) else if sz = 1 then BitVec.ofNat 32 v
        else if k.val % 2 = 0 then BitVec.ofNat 32 v else BitVec.ofNat 32 (v / 2 ^ 32)))

/-- R81, R86, R119: `st` and `stv` whose access resolves to location a enter their bytes in the store buffer, in the open entry of the block
or a new one; where the buffer has no room for that, its oldest entry leaves first (the model's choice, log 31: R119 leaves the order open); nothing else changes. R81: once a store within one block has entered a buffer with room for it, with no closed entry of that block there, a load by any slot of the core
reads the stored bytes, and every byte outside them, but for the registers of the steward window, as before. -/
def Obligations.StoresAndReadBack : Prop :=
  ((∀ (s t : State) (sz : Fin 4) (m : MemRef) (c : SReg) (a : Nat), s.pair = none → plainS s.fib m.a = true → plainS s.fib c = true →
       let n := 2 ^ sz.val
       resolve m.sg (offM s.fib m) n n rightWr accStore s = .ok ([(a, n)], t) → a % n = 0 → storable t a = true →
       exec (.st sz m c) s = .next (goOn (buffered t a (bytesOf n (regVal s.fib c).toNat))))
     ∧ ∀ (s t : State) (full : Bool) (m : MemRef) (c : Fin 16) (a : Nat), s.pair = none → plainS s.fib m.a = true → plainV s.fib c = true →
       let n := if full then 64 else 32
       resolve m.sg (offM s.fib m) n n rightWr accStore s = .ok ([(a, n)], t) → a % n = 0 → storable t a = true →
       exec (.stv full m c) s = .next (goOn (buffered t a ((laneBytes s.fib.v[c]).take n))))
  ∧ (∀ (s : State) (a : Nat) (bs : List Byte) (bypass : Bool), a % 64 + bs.length ≤ 64 →
       ((getCore s s.focus.1).sb.any (fun e => e.block == a / 64 * 64 && !e.closed) = true ∨ (getCore s s.focus.1).sb.length < 32) →
       (∀ e ∈ (getCore s s.focus.1).sb, e.block = a / 64 * 64 → e.closed = false) →
       (∀ i, (h : i < bs.length) → (coreByte (buffered s a bs) s.focus.1 bypass (a + i)).1 = bs[i])
         ∧ ∀ b, b < a ∨ a + bs.length ≤ b → isSw b = false → coreByte (buffered s a bs) s.focus.1 bypass b = coreByte s s.focus.1 bypass b)

/-- R87: `sseg` derives segment t: it never widens it and never grants EXE, and it disarms the streams that use t; out of range, or of the
handle class with an offset, it traps with cause 0x06 and `%taddr` the offset. R88: `segq` reports INLIM, ALIGN, the rights, the class and
the class address modulo 2^55, without a check. -/
def Obligations.DeriveAndQuerySegment : Prop :=
  (∀ (s : State) (keep : BitVec 4) (t : Fin 8) (m : MemRef) (c : SReg), s.pair = none → plainS s.fib m.a = true → plainS s.fib c = true →
    let o := offM s.fib m
    let n := regVal s.fib c
    let src := s.fib.seg[m.sg]
    (o.toNat + n.toNat > src.limit.toNat ∨ (src.cls = 3 ∧ o ≠ 0) → exec (.sseg keep t m c) s = .next (trapsWith s 6 o))
      ∧ (o.toNat + n.toNat ≤ src.limit.toNat → (src.cls = 3 → o = 0) →
        ∃ new : Seg, new.base = src.base + o ∧ new.limit.toNat = n.toNat ∧ new.cls = src.cls
          ∧ new.rights.getLsbD 0 = (src.rights.getLsbD 0 && keep.getLsbD 0) ∧ new.rights.getLsbD 1 = (src.rights.getLsbD 1 && keep.getLsbD 1)
          ∧ new.rights.getLsbD 2 = false ∧ new.rights.getLsbD 3 = (src.rights.getLsbD 3 && keep.getLsbD 2)
          ∧ new.rights.getLsbD 4 = (src.rights.getLsbD 4 && keep.getLsbD 3)
          ∧ exec (.sseg keep t m c) s = .next (goOn { s with fib := disarmSeg { s.fib with seg := s.fib.seg.set t new } t })))
    ∧ ∀ (s : State) (sz : Fin 9) (d : SReg) (m : MemRef), s.pair = none → plainS s.fib m.a = true → openS s.fib d = true →
      let n := sizeBytes sz.val
      let g := s.fib.seg[m.sg]
      let o := (offM s.fib m).toNat
      let addr := if g.cls = 3 then o else g.base.toNat + o
      let cap := if g.cls = 0 then 131072 else if g.cls = 1 then 25165824 else if g.cls = 2 then 2 ^ 55 else g.base.toNat % 2 ^ 24 * 65536
      ∃ v : Word, exec (.segq sz d m) s = .next (doneS s d v) ∧ v.getLsbD 63 = decide (o + n ≤ g.limit.toNat ∧ addr + n ≤ cap)
        ∧ v.getLsbD 62 = decide (addr % n = 0) ∧ v.extractLsb' 57 5 = g.rights ∧ v.extractLsb' 55 2 = g.cls
        ∧ (v.extractLsb' 0 55).toNat = addr % 2 ^ 55

/-- R90, R93: `sarm` whose record reads as b and keeps R89, whose data segment has the rights and whose elements all pass, arms position p
at INDEX 0, and no line that the read cache held before is left to a refill (R92); `sdis` disarms position p, leaves the register it names reading zero and answers INDEX, or 0 where no stream is armed (that it
reads zero in the second case too is the model's reading, log 51). -/
def Obligations.ArmAndDisarm : Prop :=
  (∀ (s t : State) (out : Bool) (d : StreamReg) (m : MemRef) (dseg : Fin 8) (b : List Byte) (q : Pattern), s.pair = none →
      plainS s.fib m.a = true → loadSeg m.sg (offM s.fib m) 64 64 false s = .ok (b, t) → patternOf b d.isV = some q →
      hasRights t.fib.seg[dseg] rightStr = true → hasRights t.fib.seg[dseg] (if out then rightWr else rightRd) = true →
      armFault t t.fib.seg[dseg] q (if out then rightWr else rightRd) = none → t.pair = none →
      let r : Stream := { armed := true, isV := d.isV, out := out, dseg := dseg, pseg := m.sg, index := 0
                          poff := (offM s.fib m).setWidth 48, pat := some q }
      exec (.sarm out d m dseg) s = .next (goOn { dropCache t t.focus.1 with
        fib := { disarm t.fib d.p with streams := (disarm t.fib d.p).streams.set d.p r } }))
    ∧ ∀ (s : State) (d : SReg) (c : StreamReg), s.pair = none → openS (disarmNamed s.fib c) d = true →
      exec (.sdis d c) s = .next (doneS { s with fib := disarmNamed s.fib c } d
        (if s.fib.streams[c.p].armed then s.fib.streams[c.p].index.zeroExtend 64 else 0))

/-- R91: reading the register of an armed input stream pops its next element: here one that a refill has brought, whose handle and translation pass at the pop (t), extended as `ld`
extends it; at INDEX = N it reads zero and pops nothing; an armed output stream reads zero. Written as a destination, here of `mov` and `vmov`, an armed
input stream keeps its register and its place, while a scalar result is pushed all the same; an armed output stream stores the value, reduced
to ESIZE bytes, at off(INDEX) and increments INDEX, and at INDEX = N the value is discarded. -/
def Obligations.StreamPops : Prop :=
  (∀ (s : State) (p : Fin 4) (q : Pattern), s.pair = none → s.fib.streams[p].again = false → s.fib.streams[p].pat = some q →
    let r := s.fib.streams[p]
    let z := sizeBytes q.esize
    let stored := fun (t : State) (loc : Nat) (bs : List Byte) =>
      let u := buffered t loc (bs.take z)
      { u with fib := { u.fib with streams := u.fib.streams.set p { u.fib.streams[p] with index := r.index + 1 } } }
    (∀ a : SReg, plainS s.fib a = true → armedS s.fib (streamSReg p) = some p →
      let v := regVal s.fib a
      let u := { s with fib := pushLa s.fib v }
      ((r.out = false ∨ r.index.toNat ≥ q.c0 * q.c1 * q.c2) → exec (.mov (streamSReg p) a) s = .next (goOn u))
      ∧ ∀ (t : State) (loc : Nat), r.out = true → r.index.toNat < q.c0 * q.c1 * q.c2 →
        resolve r.dseg (q.off r.index.toNat) z z rightWr accStore u = .ok ([(loc, z)], t) → loc % z = 0 → storable t loc = true → z ≤ 8 →
        exec (.mov (streamSReg p) a) s = .next (goOn (stored t loc (bytesOf 8 v.toNat))))
    ∧ ∀ a : Fin 16, plainV s.fib a = true → armedV s.fib (streamVReg p) = some p →
      ((r.out = false ∨ r.index.toNat ≥ q.c0 * q.c1 * q.c2) → exec (.vmov (streamVReg p) a) s = .next (goOn s))
      ∧ ∀ (t : State) (loc : Nat), r.out = true → r.index.toNat < q.c0 * q.c1 * q.c2 →
        resolve r.dseg (q.off r.index.toNat) z z rightWr accStore s = .ok ([(loc, z)], t) → loc % z = 0 → storable t loc = true →
        exec (.vmov (streamVReg p) a) s = .next (goOn (stored t loc (laneBytes s.fib.v[a]))))
  ∧ ∀ (s : State) (d : SReg) (p : Fin 4) (q : Pattern), s.pair = none → openS s.fib d = true → armedS s.fib (streamSReg p) = some p →
    s.fib.streams[p].again = false → s.fib.streams[p].pat = some q →
    (s.fib.streams[p].out = true → exec (.mov d (streamSReg p)) s = .next (doneS s d 0))
      ∧ (s.fib.streams[p].out = false → s.fib.streams[p].index.toNat ≥ q.c0 * q.c1 * q.c2 → exec (.mov d (streamSReg p)) s = .next (doneS s d 0))
      ∧ ∀ (e : Refill) (r : List Refill) (t : State) (l : List (Nat × Nat)), s.fib.streams[p].out = false → s.fib.streams[p].index.toNat < q.c0 * q.c1 * q.c2 →
        s.fib.streams[p].buf = e :: r → e.toxic = none →
        resolve s.fib.streams[p].dseg (q.off s.fib.streams[p].index.toNat) (sizeBytes q.esize) (sizeBytes q.esize) rightRd accLoad s = .ok (l, t) →
        let x : Stream := { s.fib.streams[p] with index := s.fib.streams[p].index + 1, buf := r }
        exec (.mov d (streamSReg p)) s = .next (doneS { t with fib := { s.fib with streams := s.fib.streams.set p x } } d
          (extendSize q.esize (natOf e.bytes)))

/-! ## Counters (R95-R115), publish, acquire, drain (R116-R131, R351) -/

/-- R95, R98, R111: `cadd` and `cadd.f` on the counter word at location a, with no buffered store to it: an increment of 2^63 or more traps
with cause 0x0B; else, after the release that `.rel` asks for (t), `cadd` posts the add and completes, and `cadd.f` adds at the home after
the core's earlier adds to it (u) and completes with the old value. R96: the instructions of a core reach a home in their order of issue: one
whose release waits, or that finds an earlier one still waiting, keeps its place, the add of `cadd` behind what is ahead of it. R98, R99, R105, R108: an add at the home of a word that is not poisoned, with no waiter, no straggler record and no
single-bit error in it, leaves the sum modulo
2^64 in the word and changes nothing else; and a value has reached a threshold when it is fewer than 2^63 ahead of it, modulo 2^64. -/
def Obligations.CounterAddsAndTest : Prop :=
  (∀ (s : State) (rel : Bool) (sc : Scope) (d : SReg) (m : CRef) (i : CArg) (a : Nat), s.pair = none → plainS s.fib m.a = true →
     plainArg s.fib i = true → counterWord m.sg (offC s.fib m) s = .ok (a, s) → unbuffered s a = true →
     let n := valArg s.fib i
     let k := TurnKey.home (homeOf a)
     let ahead := fun t : State => othersAhead t t.focus.1 k (fibIndex t.fib)
     let m' := fun t : State => ({ src := t.focus.1, loc := a, inc := n, who := selfAdder t } : CtrMsg)
     (n.toNat ≥ 2 ^ 63 →
       exec (.cadd rel sc m i) s = .next (trapsWith s 0x0B (offC s.fib m)) ∧ exec (.caddF rel sc d m i) s = .next (trapsWith s 0x0B (offC s.fib m)))
     ∧ (n.toNat < 2 ^ 63 → released s rel sc = none →
       let w := publishFrom s (scopeCode sc)
       exec (.cadd rel sc m i) s = .next (waitsFor { w.2 with fib := s.fib } k (.publish (scopeCode sc) w.1))
         ∧ exec (.caddF rel sc d m i) s = .next (waitsFor { w.2 with fib := s.fib } k (.publish (scopeCode sc) w.1)))
     ∧ (∀ t : State, n.toNat < 2 ^ 63 → released s rel sc = some t → t.pair = none → ahead t = true →
       let c := getCore t t.focus.1
       exec (.caddF rel sc d m i) s = .next (waitsFor s k .room)
         ∧ (c.waitq.any (·.isOf (fibIndex t.fib)) = false → exec (.cadd rel sc m i) s = .next (goOn (setCore t t.focus.1 { c with waitq := c.waitq ++ [.add (m' t)] })))
         ∧ (c.waitq.any (·.isOf (fibIndex t.fib)) = true → exec (.cadd rel sc m i) s = .next (goOn (setCore t t.focus.1 { c with
             waitq := c.waitq.map fun w => if w.isOf (fibIndex t.fib) then .add (m' t) else w }))))
     ∧ ∀ t u w : State, n.toNat < 2 ^ 63 → released s rel sc = some t → t.pair = none → ahead t = false →
       u = correctRead (flushMsgs t t.focus.1 (homeOf a)) a 8 → w = setCounter u a (readWord u a + n) (selfAdder u) → w.pair = none → openS w.fib d = true →
       exec (.cadd rel sc m i) s = .next (goOn { t with msgs := t.msgs ++ [m' t] })
         ∧ (isToxic u a = false → exec (.caddF rel sc d m i) s = .next (doneS w d (readWord u a))))
  ∧ ((∀ (s : State) (a : Nat) (inc : Word) (who : Adder), isToxic s a = false → (∀ e ∈ s.enrol, e.loc ≠ a) → (∀ r ∈ s.strag, r.loc ≠ a) →
         (∀ w ∈ s.latent, w + 8 ≤ a ∨ a + 8 ≤ w) →
         addAt s a inc who = writeWord s a (BitVec.ofNat 64 ((readWord s a).toNat + inc.toNat)))
       ∧ ∀ v t : Word, reached v t = true ↔ ((v.toNat : Int) - t.toNat) % 2 ^ 64 < 2 ^ 63)

/-- R99, R100, R103, R112-R114: `cwait`, `cread`, `cpoll`, `cstrag` and `cstrag.t` on the counter word at location a, after the core's
earlier adds to its home (u): a reached `cwait` completes with the value, one that is not sleeps enrolled with its threshold, and one that
a wake has answered completes with the wake's value; the others complete with what they read. R96: while an instruction of the core that
issued earlier has yet to reach that home, each waits and keeps its place. The WADDR that the sleeping state holds is the model's reading, log 13. -/
def Obligations.CounterWaitsAndReads : Prop :=
  (∀ (s u : State) (acq : Bool) (sc : Scope) (d : SReg) (m : CRef) (t : CArg) (a : Nat), s.pair = none → s.fib.wake = none →
      plainS s.fib m.a = true → plainArg s.fib t = true → counterWord m.sg (offC s.fib m) s = .ok (a, s) → unbuffered s a = true →
      othersAhead s s.focus.1 (.home (homeOf a)) (fibIndex s.fib) = false →
      u = correctRead (flushMsgs s s.focus.1 (homeOf a)) a 8 → isToxic u a = false → u.pair = none → openS (acquiredIf u acq sc).fib d = true →
      let v := readWord u a
      (reached v (valArg s.fib t) = true → exec (.cwait acq sc d m t) s = .next (doneS (acquiredIf u acq sc) d v))
        ∧ (reached v (valArg s.fib t) = false → exec (.cwait acq sc d m t) s =
            .next (applyLeave { u with fib := s.fib } (.sleep .counter (some (a, valArg s.fib t)) (waitWord u.focus.1 a))))
        ∧ exec (.cread acq sc d m) s = .next (doneS (acquiredIf u acq sc) d v)
        ∧ exec (.cpoll acq sc d m t) s = .next (doneS (acquiredIf u acq sc) d (if reached v (valArg s.fib t) then 1 else 0))
        ∧ (openS u.fib d = true →
            exec (.cstrag d m) s = .next (doneS u d (match stragOf u a with
                | some r => stragWord r
                | none => 0))
              ∧ exec (.cstragT d m) s = .next (doneS u d (match stragOf u a with
                | some r => if r.valid then r.thr else 0
                | none => 0))))
    ∧ (∀ (s : State) (acq : Bool) (sc : Scope) (d : SReg) (m : CRef) (t : CArg) (a : Nat), s.pair = none → s.fib.wake = none →
      plainS s.fib m.a = true → plainArg s.fib t = true → counterWord m.sg (offC s.fib m) s = .ok (a, s) → unbuffered s a = true →
      othersAhead s s.focus.1 (.home (homeOf a)) (fibIndex s.fib) = true →
      ∀ i ∈ ([.cwait acq sc d m t, .cread acq sc d m, .cpoll acq sc d m t, .cstrag d m, .cstragT d m] : List Instr), exec i s = .next (waitsForRoom s a))
    ∧ ∀ (s : State) (acq : Bool) (sc : Scope) (d : SReg) (m : CRef) (t : CArg) (v : Word), s.pair = none → s.fib.wake = some (.value v) →
      armedS s.fib m.a = none → (∀ r, t = .reg r → armedS s.fib r = none) → openS s.fib d = true →
      exec (.cwait acq sc d m t) s = .next (doneS (acquiredIf { s with fib := { s.fib with wake := none } } acq sc) d v)

/-- R120, R122, R131, R351: `pub` completes once the publish of its scope has (t), and waits with what it closed while it has not; `acq` completes with the acquire, after which no cached
line that the scope covers is left, nor one of the handle table (R128); `drain` of a fibre of no group traps with cause 0x05, that of a member publishes and sleeps, and the
release of the phase completes it with the number it carries, after an acquire. The WADDR that the sleeping state holds is the model's
reading, log 13. -/
def Obligations.PublishAcquireDrain : Prop :=
  (∀ (s t : State) (sc : Scope), s.pair = none →
      (released s true sc = some t → t.pair = none → exec (.pub sc) s = .next (goOn t))
        ∧ (released s true sc = none →
          let w := publishFrom s (scopeCode sc)
          exec (.pub sc) s = .next { w.2 with fib := { s.fib with status := .waiting (.publish (scopeCode sc) w.1), pubTo := some w.1, issued := true } }))
    ∧ (∀ (s : State) (sc : Scope), s.pair = none → exec (.acq sc) s = .next (goOn (acquire s s.focus.1 (scopeCode sc)))
        ∧ ∀ l ∈ (getCore (acquire s s.focus.1 (scopeCode sc)) s.focus.1).cache, scopeCovers (scopeCode sc) s.focus.1 l.block = false
          ∧ handleLine l.block = false)
    ∧ (∀ (s : State) (mod : Bool) (d : SReg), s.pair = none → s.fib.wake = none → myGroup s = none →
        exec (.drain mod d) s = .next (trapsWith s 5 0))
    ∧ (∀ (s u : State) (mod : Bool) (d : SReg), s.pair = none → s.fib.wake = none → (myGroup s).isSome = true →
        released s true (if mod then .mod else .clu) = some u →
        exec (.drain mod d) s = .next (applyLeave { u with fib := s.fib } (.sleep (.drain mod) none s.fib.waddr)))
    ∧ ∀ (s : State) (mod : Bool) (d : SReg) (v : Word), s.pair = none → s.fib.wake = some (.value v) → openS s.fib d = true →
        exec (.drain mod d) s =
          .next (doneS (acquire { s with fib := { s.fib with wake := none } } s.focus.1 (if mod then 4 else 2)) d v)

/-! ## Vectors (R165-R183) -/

/-- R166, R169, R172, R173: the two-source instructions of class V, lane by lane: kinds `.i` and `.n` exactly, then modulo 2^32 or clamped;
`vcmp` as a mask of 16 bits. They complete, write d (or push and write it), and change nothing else. -/
def Obligations.VectorTwoSource : Prop :=
  ∀ (s : State) (k : LKind) (sat : Bool) (rm : RM) (d a : Fin 16) (b : VSrc), s.pair = none → plainV s.fib a = true →
    plainVS s.fib b = true → openV s.fib d = true →
    let x := fun i : Fin 16 => s.fib.v[a][i]
    let y := fun i : Fin 16 => laneVS s.fib b i
    exec (.vadd k sat rm d a b) s = .next (doneV s d (vecOf fun i =>
        if k = .f then f32Add rm (x i) (y i) else kindResult k sat (kindInt k (x i) + kindInt k (y i))))
      ∧ exec (.vsub k sat rm d a b) s = .next (doneV s d (vecOf fun i =>
        if k = .f then f32Sub rm (x i) (y i) else kindResult k sat (kindInt k (x i) - kindInt k (y i))))
      ∧ exec (.vmul k sat rm d a b) s = .next (doneV s d (vecOf fun i =>
        if k = .f then f32Mul rm (x i) (y i) else kindResult k sat (kindInt k (x i) * kindInt k (y i))))
      ∧ exec (.vmax k d a b) s = .next (doneV s d (vecOf fun i =>
        if k = .f then f32Max (x i) (y i) else if kindInt k (x i) < kindInt k (y i) then y i else x i))
      ∧ exec (.vmin k d a b) s = .next (doneV s d (vecOf fun i =>
        if k = .f then f32Min (x i) (y i) else if kindInt k (x i) > kindInt k (y i) then y i else x i))
      ∧ exec (.vand d a b) s = .next (doneV s d (vecOf fun i => x i &&& y i))
      ∧ exec (.vor d a b) s = .next (doneV s d (vecOf fun i => x i ||| y i))
      ∧ exec (.vxor d a b) s = .next (doneV s d (vecOf fun i => x i ^^^ y i))
      ∧ exec (.vshl d a b) s = .next (doneV s d (vecOf fun i => if (y i).toNat ≥ 32 then 0 else x i <<< (y i).toNat))
      ∧ exec (.vshr d a b) s = .next (doneV s d (vecOf fun i => if (y i).toNat ≥ 32 then 0 else x i >>> (y i).toNat))
      ∧ exec (.vshrS d a b) s = .next (doneV s d (vecOf fun i => BitVec.sshiftRight (x i) (Nat.min (y i).toNat 31)))
      ∧ ∀ (cc : VCond) (e : SReg), openS s.fib e = true → ∃ v : Word, exec (.vcmp k cc e a b) s = .next (doneS s e v)
        ∧ (∀ i : Fin 16, v.getLsbD i.val = laneCmp k cc (x i) (y i)) ∧ ∀ j, 16 ≤ j → v.getLsbD j = false

/-- R170, R171, R173-R178: the other instructions of class V. Lane movement, packing and integer forms are written out; the binary32
functions are those of the model's Float. -/
def Obligations.VectorOthers : Prop :=
  (∀ (s : State) (d a : Fin 16) (rm : RM) (int sat : Bool) (kind : CvtKind) (j : Fin 16), s.pair = none → plainV s.fib a = true →
    openV s.fib d = true →
    let x := fun i : Fin 16 => s.fib.v[a][i]
    exec (.vabs int sat d a) s = .next (doneV s d (vecOf fun i =>
        if int then kindResult .i sat (if (x i).toInt < 0 then -(x i).toInt else (x i).toInt) else x i &&& 0x7FFFFFFF))
      ∧ exec (.vneg int sat d a) s = .next (doneV s d (vecOf fun i => if int then kindResult .i sat (-(x i).toInt) else x i ^^^ 0x80000000))
      ∧ exec (.vrcp rm d a) s = .next (doneV s d (vecOf fun i => f32Rcp rm (x i)))
      ∧ exec (.vrsq rm d a) s = .next (doneV s d (vecOf fun i => f32Rsq rm (x i)))
      ∧ exec (.vexp2 rm d a) s = .next (doneV s d (vecOf fun i => f32Exp2 rm (x i)))
      ∧ exec (.vlog2 rm d a) s = .next (doneV s d (vecOf fun i => f32Log2 rm (x i)))
      ∧ exec (.vcvt kind rm d a) s = .next (doneV s d (vecOf fun i => laneCvt kind rm (x i)))
      ∧ exec (.vbcastL j d a) s = .next (doneV s d (vecOf fun _ => x j))
      ∧ exec (.vmov d a) s = .next (doneV s d s.fib.v[a])
      ∧ ∀ op : RedOp, exec (.vscan op rm d a) s = .next (doneV s d (vecOf fun i => prefixOf (redApply op rm) x i.val)))
    ∧ (∀ (s : State) (d : SReg) (a : Fin 16) (b : VSrc) (op : RedOp) (rm : RM) (sx : Bool) (j : Fin 16), s.pair = none →
      plainV s.fib a = true → openS s.fib d = true →
      let x := fun i : Fin 16 => s.fib.v[a][i]
      exec (.vred op rm d a) s = .next (doneS s d (if signedRed op then (tree16 (redApply op rm) x).signExtend 64
          else (tree16 (redApply op rm) x).zeroExtend 64))
        ∧ exec (.vext sx j d a) s = .next (doneS s d (if sx then (x j).signExtend 64 else (x j).zeroExtend 64))
        ∧ (plainVS s.fib b = true →
          exec (.vdot rm d a b) s =
            .next (doneS s d ((tree16 (f32Add rm) fun i => f32Mul rm (x i) (laneVS s.fib b i)).zeroExtend 64))))
    ∧ (∀ (s : State) (d a b c : Fin 16) (o : VSrc) (z : VSrcC) (r : SReg) (k : LKind) (rm : RM) (pk : PackKind), s.pair = none →
      plainV s.fib a = true → plainV s.fib b = true → plainV s.fib c = true → plainVS s.fib o = true → plainVC s.fib z = true →
      plainS s.fib r = true → openV s.fib d = true →
      let x := fun i : Fin 16 => s.fib.v[a][i]
      let y := fun i : Fin 16 => s.fib.v[b][i]
      let w := fun i : Fin 16 => s.fib.v[c][i]
      exec (.vfma k rm d a o z) s = .next (doneV s d (vecOf fun i =>
          if k = .f then f32Fma rm (x i) (laneVS s.fib o i) (laneVC s.fib z i)
          else BitVec.ofInt 32 (kindInt k (x i) * kindInt k (laneVS s.fib o i) + kindInt k (laneVC s.fib z i))))
        ∧ exec (.vsel d a o r) s = .next (doneV s d (vecOf fun i => if (regVal s.fib r).getLsbD i.val then x i else laneVS s.fib o i))
        ∧ exec (.vperm d a b) s = .next (doneV s d (vecOf fun i => x (Fin.ofNat 16 (y i).toNat)))
        ∧ exec (.vperm2 d a b c) s = .next (doneV s d (vecOf fun i =>
          if (y i).toNat % 32 < 16 then x (Fin.ofNat 16 ((y i).toNat % 32)) else w (Fin.ofNat 16 ((y i).toNat % 32 - 16))))
        ∧ exec (.vpack pk d a b) s = .next (doneV s d (vecOf fun i => packLane pk x y i)))
    ∧ ∀ (s : State) (d : Fin 16) (e : Fin 12) (j : Fin 16) (b : SrcB), s.pair = none → plainB s.fib b = true →
      (openV s.fib d = true → exec (.vbcast d b) s = .next (doneV s d (vecOf fun _ => (valB s.fib b).setWidth 32)))
        ∧ (soundReg s.fib (0x20 + e.val) = true → exec (.vins j e b) s = .next (doneV s (lowV e)
          (vecOf fun i => if i = j then (valB s.fib b).setWidth 32 else s.fib.v[lowV e][i])))

/-- R139, R179-R183: the lanes that are active, from the one that the progress field names, take their effect in ascending order, and the
progress is then 0. `vgath`, where each lane reads its four bytes without changing the state, sets those lanes of d and keeps the others; `vscat` stores
each lane, and `vratom` exchanges it with its location. A lane of `vscat` or `vratom` that traps, or leaves the rotation on a miss, ends the
instruction: every lane below it has taken its whole effect, none from it upward any, and the progress field holds it. -/
def Obligations.VectorMemory : Prop :=
  (∀ (s : State) (sc : Fin 3) (d : Fin 12) (m : CRef) (b : Fin 16) (x : Fin 16 → List Byte), s.pair = none → plainS s.fib m.a = true →
      plainV s.fib b = true →
      (∀ i : Fin 16, progressOf s.fib ≤ i.val → s.fib.v[b][i] ≠ 0xFFFFFFFF → ∀ v : Vector VReg 16,
        loadSeg m.sg (laneOff s m sc b i) 4 4 false { s with fib := { s.fib with v := v } } = .ok (x i, { s with fib := { s.fib with v := v } })) →
      let v := vecOf fun i : Fin 16 => if s.fib.v[b][i] = 0xFFFFFFFF ∨ i.val < progressOf s.fib then s.fib.v[lowV d][i] else BitVec.ofNat 32 (natOf (x i))
      ∃ t, exec (.vgath sc d m b) s = .next t ∧ t.fib.v = s.fib.v.set (lowV d) v ∧ t.fib.pc = nextPc s.fib.pc ∧ progressOf t.fib = 0
        ∧ t.fib = { s.fib with v := t.fib.v, pc := t.fib.pc, step := t.fib.step, hstep := t.fib.hstep, poison := t.fib.poison, flips := t.fib.flips }
        ∧ t = { s with fib := t.fib })
    ∧ ∀ (s : State) (sc : Fin 3) (m : CRef) (b : Fin 16), s.pair = none → plainS s.fib m.a = true → plainV s.fib b = true →
      let act := fun i : Fin 16 => decide (progressOf s.fib ≤ i.val) && s.fib.v[b][i] != 0xFFFFFFFF
      (∀ (c : Fin 16), plainV s.fib c = true →
        (∀ t : State, lanesRun act (scatLane s sc m b c) 16 s = some t → t.pair = none →
          exec (.vscat sc m b c) s = .next (goOn { t with fib := setProgress t.fib 0 }))
        ∧ ∀ (k : Fin 16) (t : State), act k = true → lanesRun act (scatLane s sc m b c) k.val s = some t →
          (∀ cause ta un keep, storeSeg m.sg (laneOff s m sc b k) 4 (bytesOf 4 s.fib.v[c][k].toNat) t = .error (.trap cause ta un keep) →
            exec (.vscat sc m b c) s = .next (raiseTrap (stoppedAt s t k keep) ⟨cause, s.fib.pc, ta⟩ un))
          ∧ ∀ l keep, storeSeg m.sg (laneOff s m sc b k) 4 (bytesOf 4 s.fib.v[c][k].toNat) t = .error (.leave l keep) →
            exec (.vscat sc m b c) s = .next (applyLeave (stoppedAt s t k keep) l))
      ∧ ∀ (op : AtomOp) (d : Option (Fin 12)) (c : VSrcC), plainVC s.fib c = true →
        (∀ t : State, lanesRun act (ratomLane s op sc d m b c) 16 s = some t → t.pair = none →
          let f := setProgress t.fib 0
          (d = none → exec (.vratom op sc d m b c) s = .next (goOn { t with fib := f }))
          ∧ ∀ e, d = some e → exec (.vratom op sc d m b c) s =
              .next (goOn { t with fib := if ∀ i : Fin 16, s.fib.v[b][i] ≠ 0xFFFFFFFF then cleanReg f (0x20 + e.val) else f }))
        ∧ ∀ (k : Fin 16) (t : State), act k = true → lanesRun act (ratomLane s op sc d m b c) k.val s = some t →
          let o := laneOff s m sc b k
          let stops := fun x : Stop => resolve m.sg o 4 4 (rightRd + rightWr) accUpdate t = .error x
            ∨ ∃ a w, resolve m.sg o 4 4 (rightRd + rightWr) accUpdate t = .ok ([(a, 4)], w) ∧ atomLane op a o (laneVC s.fib c k) w = .error x
          (∀ cause ta un keep, stops (.trap cause ta un keep) →
            exec (.vratom op sc d m b c) s = .next (raiseTrap (stoppedAt s t k keep) ⟨cause, s.fib.pc, ta⟩ un))
          ∧ ∀ l keep, stops (.leave l keep) → exec (.vratom op sc d m b c) s = .next (applyLeave (stoppedAt s t k keep) l)

/-! ## Tiles (R184-R199) -/

/-- R190, R192: `tset`, `tz`, `az`, `tmov`, `tmov.tv`, `tmov.vt`, `ttr`. A tile or accumulator that the fibre does not claim traps with
cause 0x09, reason 1; an invalid shape value with reason 5; a `ttr` of a tile that is not `i32` or `f32` with reason 3. -/
def Obligations.TilesSetAndMove : Prop :=
  ∀ (s : State) (d a : Fin 32) (n k : Fin 8) (r : SReg) (v : Fin 16) (i : BitVec 15), s.pair = none →
    (hasTile s.fib d = false →
      exec (.tset d i) s = .next (trapsWith s 9 (unclaimed d.val)) ∧ exec (.tsetReg d r) s = .next (trapsWith s 9 (unclaimed d.val))
        ∧ exec (.tz d) s = .next (trapsWith s 9 (unclaimed d.val)) ∧ exec (.tmov d a) s = .next (trapsWith s 9 (unclaimed d.val))
        ∧ exec (.tmovTv d v k) s = .next (trapsWith s 9 (unclaimed d.val)) ∧ exec (.ttr d a) s = .next (trapsWith s 9 (unclaimed d.val)))
    ∧ (hasAcc s.fib n = false → exec (.az n) s = .next (trapsWith s 9 (unclaimed (0x40 + n.val))))
    ∧ (hasTile s.fib a = false → exec (.tmovVt v a k) s = .next (trapsWith s 9 (unclaimed a.val)))
    ∧ (hasTile s.fib d = true →
      (shapeOk i.toNat = false → exec (.tset d i) s = .next (trapsWith s 9 (BitVec.ofNat 64 (0x500 + d.val))))
        ∧ (shapeOk i.toNat = true → exec (.tset d i) s = .next (goOn (setShape s d i)))
        ∧ (plainS s.fib r = true → shapeOk ((regVal s.fib r).toNat % 32768) = true →
          exec (.tsetReg d r) s = .next (goOn (setShape s d ((regVal s.fib r).setWidth 15))))
        ∧ exec (.tz d) s = .next (goOn (newTile s d 0))
        ∧ (plainV s.fib v = true → ∃ x : Tile, exec (.tmovTv d v k) s = .next (goOn (putTile s d x))
          ∧ ∀ j : Fin 128, tileWord x j.val =
            if j.val / 16 = k.val then s.fib.v[v][Fin.ofNat 16 (j.val % 16)] else tileWord (tileOf s d) j.val)
        ∧ (goodTile s a = true → exec (.tmov d a) s = .next (goOn (setShape (newTile s d (tileOf s a)) d s.fib.tshape[a])))
        ∧ (hasTile s.fib a = true → shKind s.fib.tshape[a] ≠ 5 → shKind s.fib.tshape[a] ≠ 6 →
          exec (.ttr d a) s = .next (trapsWith s 9 (BitVec.ofNat 64 (0x300 + a.val))))
        ∧ (goodTile s a = true → shKind s.fib.tshape[a] = 5 ∨ shKind s.fib.tshape[a] = 6 →
          ∃ (x : Tile) (w : BitVec 15), exec (.ttr d a) s = .next (goOn (setShape (newTile s d x) d w))
            ∧ (∀ i j : Fin 8, tileWord x (8 * j.val + i.val) = tileWord (tileOf s a) (8 * i.val + j.val))
            ∧ (∀ j : Fin 64, tileWord x (64 + j.val) = 0)
            ∧ shKind w = shKind s.fib.tshape[a] ∧ shFmt w = shFmt s.fib.tshape[a] ∧ shRows w = shCols s.fib.tshape[a]
            ∧ shCols w = shRows s.fib.tshape[a]))
    ∧ (hasAcc s.fib n = true → exec (.az n) s = .next (goOn (newAcc s n (vecOf fun _ => 0))))
    ∧ (goodTile s a = true → openV s.fib v = true →
      exec (.tmovVt v a k) s = .next (doneV s v (vecOf fun l : Fin 16 => tileWord (tileOf s a) (16 * k.val + l.val))))

/-- R189, R193: `tld` of a claimed tile whose valid lines (n of them, len bytes each) resolve and read without a change of state puts line l
at its tile offset, every other byte zero, and leaves the shape; `tst` enters its lines into the store buffer, the lowest first. A tile
that has no shape traps with reason 3. -/
def Obligations.TileLoadStore : Prop :=
  ∀ (s : State) (d : Fin 32) (m : CRef) (pitch : BitVec 21) (loc : Nat → Nat), s.pair = none → plainS s.fib m.a = true → hasTile s.fib d = true →
    let sh := s.fib.tshape[d]
    let n := (tileLines sh).1
    let step := (tileLines sh).2.1
    let len := (tileLines sh).2.2
    let off := fun l : Nat => offC s.fib m + BitVec.ofNat 64 (l * pitch.toNat)
    let al := if shKind sh = 5 ∨ shKind sh = 6 then 4 else 1
    (shKind sh = 0 → exec (.tld d m pitch) s = .next (trapsWith s 9 (BitVec.ofNat 64 (0x300 + d.val)))
        ∧ exec (.tst m pitch d) s = .next (trapsWith s 9 (BitVec.ofNat 64 (0x300 + d.val))))
      ∧ (1 ≤ shKind sh → shKind sh ≤ 8 →
          (∀ l, l < n → resolve m.sg (off l) len al rightRd accLoad s = .ok ([(loc l, len)], s) ∧ readable s (loc l) len false = true
            ∧ readPast s (loc l) len none = s) →
          ∃ x : Tile, exec (.tld d m pitch) s = .next (goOn (newTile s d x))
            ∧ (∀ l i, l < n → i < len → tileByte x (step * l + i) = nth (visible s (loc l) len false) i 0)
            ∧ ∀ j, (∀ l, l < n → j < step * l ∨ step * l + len ≤ j) → tileByte x j = 0)
      ∧ (soundReg s.fib (0x100 + d.val) = true → 1 ≤ shKind sh → shKind sh ≤ 8 → (getCore s s.focus.1).sb.length + n ≤ 32 →
          (∀ l, l < n → resolve m.sg (off l) len al rightWr accStore s = .ok ([(loc l, len)], s) ∧ storable s (loc l) = true
            ∧ loc l % 64 + len ≤ 64) →
          exec (.tst m pitch d) s = .next (goOn ((List.range n).foldl (fun u l =>
            buffered u (loc l) ((List.range len).map fun i => tileByte (tileOf s d) (step * l + i))) s)))

/-- R154, R155, R157, R158, R194, R195: `mmn` on a core of a narrow cluster adds, inside the edges, the exact sum of the products to each
channel of the element, and leaves every other element; on a wide cluster it traps with cause 0x0A, and a combination that is not admitted
with reason 4. R196: `mmw` likewise on a wide cluster, by R162. -/
def Obligations.MatrixProducts : Prop :=
  ∀ (s : State) (fa fb : EFmt) (sp : Bool) (n : Fin 8) (a b m : Fin 32), s.pair = none →
    let wide := s.focus.1 / 192 % 112 % 8 = 0
    let rows := shRows s.fib.tshape[a]
    let cols := shCols s.fib.tshape[b]
    let fits := fun (k : Fin 32) (kind : Nat) (f : EFmt) => shKind s.fib.tshape[k] = kind ∧ shFmt s.fib.tshape[k] = efmtCode f
    (wide → exec (.mmn fa fb sp n a b m) s = .next (trapsWith s 0x0A 0)) ∧ (¬ wide → exec (.mmw n a b) s = .next (trapsWith s 0x0A 0))
    ∧ (¬ wide → goodTile s a = true → goodTile s b = true → goodAcc s n = true → fits a 1 fa → fits b 2 fb →
      (sp = true → goodTile s m = true ∧ goodTile s (b + 1) = true ∧ fits m 7 fa ∧ fits (b + 1) 2 fb) →
      (mmnCount fa fb sp = none → exec (.mmn fa fb sp n a b m) s = .next (trapsWith s 9 (BitVec.ofNat 64 (0x440 + n.val))))
      ∧ ∀ cnt, mmnCount fa fb sp = some cnt → ∃ w : Acc, exec (.mmn fa fb sp n a b m) s = .next (goOn (putAcc (throughMatrix s 16) n w))
        ∧ ∀ i j : Fin 8,
          let old := (accOf s n)[Fin.ofNat 64 (8 * i.val + j.val)]
          let new := w[Fin.ofNat 64 (8 * i.val + j.val)]
          let sum : Int := ((List.range cnt).map fun e : Nat =>
            let p := if sp then 4 * (e / 2) + ((tileOf s m).extractLsb' (192 * i.val + 2 * e) 2).toNat else e
            gridElem fa (tileLine (tileOf s a) i.val) e * if p < perLine fb then gridElem fb (tileLine (tileOf s b) j.val) p
              else gridElem fb (tileLine (tileOf s (b + 1)) j.val) (p - perLine fb)).sum
          (¬ (i.val ≤ rows ∧ j.val ≤ cols) → new = old)
            ∧ (i.val ≤ rows → j.val ≤ cols →
              ((new.extractLsb' 11 11).toNat : Int) = ((old.extractLsb' 11 11).toNat + sum) % 2047
                ∧ ((new.extractLsb' 0 11).toNat : Int) = ((old.extractLsb' 0 11).toNat + sum) % 2048
                ∧ ((new.extractLsb' 22 12).toNat : Int) = ((old.extractLsb' 22 12).toNat + sum) % 2049 ∧ new.toNat < 2 ^ 34))
    ∧ (wide → goodTile s a = true → goodTile s b = true → goodAcc s n = true → shKind s.fib.tshape[a] = 3 → shKind s.fib.tshape[b] = 4 →
      ∃ w : Acc, exec (.mmw n a b) s = .next (goOn (putAcc (throughMatrix s 8) n w)) ∧ ∀ i j : Fin 8,
        let old := (accOf s n)[Fin.ofNat 64 (8 * i.val + j.val)]
        w[Fin.ofNat 64 (8 * i.val + j.val)] = if i.val ≤ rows ∧ j.val ≤ cols then
          (mmwElem (old.setWidth 32) (tileLine (tileOf s a) i.val) (tileLine (tileOf s b) j.val)).zeroExtend 64 else old)

/-- R159, R197: `aout.i` gives every element the integer whose channels the accumulator holds, clamped to 32 bits, and sets the SAT flag
where a value was clamped; `aout.f` gives the low 32 bits of every slot. Shape values 0x283F and 0x303F, bytes 256 to 511 zero. R161, R198,
R199: `scacc` scales inside the edges; `qcvt` writes the codes of one block into its line and the scale byte, and nothing else. -/
def Obligations.ConversionAndQuantisation : Prop :=
  (∀ (s : State) (d : Fin 32) (n : Fin 8), s.pair = none → hasTile s.fib d = true → goodAcc s n = true →
    (∃ (x : Tile) (v : Fin 64 → Int), (∀ k : Fin 64, let w := (accOf s n)[k]
          v k < 4294966272 ∧ -4294966272 ≤ v k ∧ v k % 2047 = (w.extractLsb' 11 11).toNat % 2047
            ∧ v k % 2048 = (w.extractLsb' 0 11).toNat ∧ v k % 2049 = (w.extractLsb' 22 12).toNat % 2049
            ∧ tileWord x k.val = BitVec.ofInt 32 (max (-2147483648) (min 2147483647 (v k))))
        ∧ (∀ j : Fin 64, tileWord x (64 + j.val) = 0)
        ∧ ∃ f : BitVec 8, (∀ i : Fin 8, f.getLsbD i.val = (s.fib.sat.getLsbD i.val
            || (i == n && (List.finRange 64).any fun k => decide (v k < -2147483648 ∨ 2147483647 < v k))))
          ∧ let t := setShape (newTile s d x) d 0x283F
            exec (.aoutI d n) s = .next (goOn { t with fib := { t.fib with sat := f } }))
      ∧ ∃ x : Tile, (∀ k : Fin 64, tileWord x k.val = (accOf s n)[k].setWidth 32) ∧ (∀ j : Fin 64, tileWord x (64 + j.val) = 0)
        ∧ exec (.aoutF d n) s = .next (goOn (setShape (newTile s d x) d 0x303F)))
    ∧ (∀ (s : State) (d a b : Fin 32), s.pair = none → goodTile s d = true → goodTile s a = true → goodTile s b = true →
      shKind s.fib.tshape[d] = 6 → shKind s.fib.tshape[a] = 5 → shKind s.fib.tshape[b] = 8 →
      ∃ x : Tile, exec (.scacc d a b) s = .next (goOn (putTile s d x)) ∧ (∀ j : Fin 64, tileWord x (64 + j.val) = tileWord (tileOf s d) (64 + j.val))
        ∧ ∀ i j : Fin 8, let k := 8 * i.val + j.val
          tileWord x k = if i.val ≤ shRows s.fib.tshape[d] ∧ j.val ≤ shCols s.fib.tshape[d] then
            scaleApply (tileWord (tileOf s d) k) (tileWord (tileOf s a) k) (tileByte (tileOf s b) i.val).toNat
              (tileByte (tileOf s b) (8 + j.val)).toNat else tileWord (tileOf s d) k)
    ∧ ∀ (s : State) (h32 : Bool) (f : EFmt) (d a b : Fin 32) (line : Fin 8) (pos : BitVec 7) (src : BitVec 6) (sb : Fin 16),
      s.pair = none → hasTile s.fib d = true → goodTile s a = true → hasTile s.fib b = true →
      shKind s.fib.tshape[d] = 1 ∨ shKind s.fib.tshape[d] = 2 → shFmt s.fib.tshape[d] = efmtCode f → shKind s.fib.tshape[a] = 6 →
      shKind s.fib.tshape[b] = 8 →
      let n := if h32 then 32 else 16
      let w := efmtBits f
      (pos.toNat + n > perLine f → exec (.qcvt h32 f d a b line pos src sb) s = .next (trapsWith s 9 (BitVec.ofNat 64 (0x400 + d.val))))
        ∧ (src.toNat + n ≤ 64 → pos.toNat + n ≤ perLine f →
          let q := quantBlock f (hadamard (if h32 then 5 else 4) 1 ((List.range n).map fun k => tileWord (tileOf s a) (src.toNat + k)))
          let first := 384 * line.val + w * pos.toNat
          ∃ x y : Tile, exec (.qcvt h32 f d a b line pos src sb) s = .next (goOn (putTile (putTile s d x) b y))
            ∧ (∀ k, k < n → (x.extractLsb' (first + w * k) w).toNat = nth q.2 k 0)
            ∧ (∀ i, i < first ∨ first + w * n ≤ i → x.getLsbD i = (tileOf s d).getLsbD i)
            ∧ (tileByte y sb.val).toNat = q.1 ∧ ∀ i, i < 512 → i ≠ sb.val → tileByte y i = tileByte (tileOf s b) i)

/-! ## Engines (R200-R220) -/

/-- R202, R209, R210: the twelve engine instructions. A header outside the core's own scratchpad, an engine that does not serve the kind, or
a record that breaks R203 or R211 (log 38: a nonzero CLS breaks R203, the model's reading), or whose receiver counter user mode must not reach
(R332), traps with cause 0x06 and `%taddr` h; the first range that fails R79 or its aperture's checks traps as they say; a full
ring, 128 commands of the core in flight, or an earlier instruction that waits for the chain keeps the slot out of the rotation, in turn;
else, once the release of the scope is made (at `.core` too the buffer is emptied: the model's choice, log 86), the instruction places one
command whose record holds what R203 says, and completes with the ticket; until then it waits in its turn with what it closed. R220: `equery` answers how many commands of the core are in flight; `equery.st` the status word of the ring entry of the ticket, or all
ones where the entry holds another ticket or the ticket is not yet placed. -/
def Obligations.EngineInstructions : Prop :=
  (∀ (s : State) (k : Fin 12) (sc : Scope) (d : SReg) (m : CRef) (v : Fin 16), s.pair = none → plainS s.fib m.a = true →
     (∀ (a : Nat) (t : State), resolve m.sg (offC s.fib m) 64 64 (rightRd + rightWr + rightCtr) accStore s = .ok ([(a, 64)], t) →
       isSpad a = false ∨ homeOf a ≠ t.focus.1 → exec (engineInstr k sc d m v) s = .next (trapsWith s 6 (offC s.fib m)))
     ∧ ∀ c : Chain, readHeader m.sg (offC s.fib m) s = .ok (c, s) → plainV s.fib v = true →
       let kind := k.val + 1
       let b := recordIn s v
       let r := engRecOf b
       (¬ engineServes c.eng kind → exec (engineInstr k sc d m v) s = .next (trapsWith s 6 (offC s.fib m)))
       ∧ (engineServes c.eng kind →
         (fieldAt b 2 1 ≠ 0 ∨ fieldAt b 0x30 4 % 8 ≠ 0 ∨ fieldAt b 0x30 4 ≥ 25165824 →
           exec (engineInstr k sc d m v) s = .next (trapsWith s 6 (offC s.fib m)))
         ∧ (engRecOk s kind r = false → exec (engineInstr k sc d m v) s = .next (trapsWith s 6 (offC s.fib m)))
         ∧ (engRecOk s kind r = true → ∀ (cause : Nat) (a : Word), (engRanges s kind r s.fib.seg[m.sg]).findSome? (rangeFault s) = some (cause, a) →
           exec (engineInstr k sc d m v) s = .next (trapsWith s cause a))
         ∧ (engRecOk s kind r = true → (∀ e ∈ engRanges s kind r s.fib.seg[m.sg], rangeFault s e = none) →
           (guardedReceiver s kind r = true → exec (engineInstr k sc d m v) s = .next (trapsWith s 6 (offC s.fib m)))
           ∧ (guardedReceiver s kind r = false →
             let full := (c.tail - c.seq).toNat ≥ 2 ^ c.log ∨ (s.cmds.filter fun e => e.g == s.focus.1).length ≥ 128
               ∨ othersAhead s s.focus.1 (.chain c.loc) (fibIndex s.fib) = true
             (full → exec (engineInstr k sc d m v) s = .next (waitsFor s (.chain c.loc) .room))
             ∧ (¬ full → publishes s (max 2 (scopeCode sc)) = none →
               let w := publishFrom s (max 2 (scopeCode sc))
               exec (engineInstr k sc d m v) s =
                 .next (waitsFor { w.2 with fib := s.fib } (.chain c.loc) (.publish (max 2 (scopeCode sc)) w.1)))
             ∧ (¬ full → ∀ t, publishes s (max 2 (scopeCode sc)) = some t →
               let w := correctRead (flushMsgs t t.focus.1 (homeOf c.loc)) c.loc 8
               ∃ x : Cmd, x.g = w.focus.1 ∧ x.f = w.fib.fibre.toNat % 4096 ∧ x.tenant = w.fib.tenant ∧ x.steward = w.fib.steward
                 ∧ x.header = c.loc ∧ x.ring = c.ring + 64 * (c.tail.toNat % 2 ^ c.log) ∧ x.ticket = c.tail.toNat % 2 ^ 23 ∧ x.eng = c.eng
                 ∧ x.state = 0 ∧ x.done = 0
                 ∧ fieldAt x.bytes 0 1 = kind ∧ fieldAt x.bytes 1 1 = fieldAt b 1 1 ∧ fieldAt x.bytes 3 1 = scopeCode sc
                 ∧ fieldAt x.bytes 4 4 = fieldAt b 4 4 ∧ fieldAt x.bytes 0x28 8 = fieldAt b 0x28 8 ∧ fieldAt x.bytes 0x30 4 = fieldAt b 0x30 4
                 ∧ fieldAt x.bytes 0x34 4 = fieldAt b 0x34 4 ∧ fieldAt x.bytes 0x38 8 = c.tail.toNat % 2 ^ 23 * 2 ^ 32
                 ∧ let u := placed w x
                   (u.pair = none → openS u.fib d = true → exec (engineInstr k sc d m v) s = .next (doneS u d c.tail)))))))
  ∧ ((∀ (s : State) (d : SReg), s.pair = none → openS s.fib d = true →
       exec (.equery d) s = .next (doneS s d (BitVec.ofNat 64 (s.cmds.countP fun e => e.g == s.focus.1))))
     ∧ ∀ (s : State) (d b : SReg) (m : CRef) (c : Chain), s.pair = none → plainS s.fib m.a = true → plainS s.fib b = true →
       openS s.fib d = true → readHeader m.sg (offC s.fib m) s = .ok (c, s) →
       let t := (regVal s.fib b).toNat
       let a := c.ring + 64 * (t % 2 ^ c.log) + 0x38
       (coreBytes s s.focus.1 false a 8).all (fun x => !x.2) = true →
       let w := BitVec.ofNat 64 (natOf ((coreBytes s s.focus.1 false a 8).map (·.1)))
       exec (.equerySt d m b) s = .next (doneS (correctRead s a 8) d (if (w.extractLsb' 32 23).toNat = t % 2 ^ 23 ∧ t < c.tail.toNat then w else BitVec.allOnes 64)))

/-- R200, R205-R208, R213, R217, R219: the engine events. A command is taken only when it is the oldest of its chain and its engine comes to
the chain, and is then active, one with a handle once what its cluster's ports hold has gone ahead (R118); an active one goes on with its work; a publish exchanges CUR and
SHD; a plain copy of at most 4,096 bytes within scratchpads moves them (the size of a piece is the model's, log 41); a receiver accepts a run
once, and a run that no receiver takes any more is passed (R319); a row out of range fails with CODE 6 (log 39), and an inactive one moves
nothing; R370: a command whose link has gone down fails with CODE 9 at the last covered point, and one whose bytes have all left is done when
none waits for an ACK; a parked command resumes when its
ticket is reached, or fails with CODE 1 when the steward refused it, which its fibre learns (R138); a finished command makes its completion add, then its SEQ add, and is
gone. An event whose condition fails changes nothing. -/
def Obligations.EngineEvents : Prop :=
  (∀ (s : State) (i k : Nat), s.cmds.find? (fun e => e.id == i) = none →
      exec (.engineTakeCommand i) s = .next s ∧ exec (.engineResume i) s = .next s ∧ exec (.engineCommandRetire i) s = .next s
        ∧ exec (.multicastRunAccepted i k) s = .next s ∧ exec (.gatherRowAccepted i) s = .next s)
  ∧ ∀ (s : State) (i k : Nat) (d : Cmd), s.cmds.find? (fun e => e.id == i) = some d →
    (d.state = 0 → (∃ e, s.cmds.find? (fun e => e.header == d.header) = some e ∧ e.id ≠ i) → exec (.engineTakeCommand i) s = .next s)
    ∧ (d.state = 0 → chainsTurn s d = false → exec (.engineTakeCommand i) s = .next s)
    ∧ (d.state = 0 → s.cmds.find? (fun e => e.header == d.header) = some d → chainsTurn s d = true →
        let p := if usesHandle d then clearPath s d.g Config.swBase else s
        let go := usesHandle d = false ∨ pathClear p d.g Config.swBase = true
        let e := startCmd p d
        let t := commandNow (takenFrom p d.header) e
        (¬ go → exec (.engineTakeCommand i) s = .next p)
        ∧ (go → e.state = 1 ∧ exec (.engineTakeCommand i) s = .next (workCmd t e)))
    ∧ (d.state = 1 → exec (.engineTakeCommand i) s = .next (workCmd s d))
    ∧ (d.state = 1 → ∀ n, d.lost = some n → exec (.engineTakeCommand i) s =
        .next (raisePend (commandNow s { d with state := 4, code := 9, done := n }) { d with done := n }))
    ∧ (d.state = 1 → d.lost = none → d.sent = true → exec (.engineTakeCommand i) s =
        .next (commandNow s (if uncovered s d = none then { d with state := 3, sent := false } else d)))
    ∧ (d.state = 0 → s.cmds.find? (fun e => e.header == d.header) = some d → chainsTurn s d = true → d.lost = none → d.sent = false →
        d.left = [] → fieldAt d.bytes 0 1 = 12 →
        let n := fieldAt d.bytes 0x18 8 / 2 ^ 24 % 2 ^ 20
        let p := if usesHandle d then clearPath s d.g Config.swBase else s
        let e := startCmd p d
        let t := clearPath (commandNow (takenFrom p d.header) e) d.g Config.swBase
        (usesHandle d = false ∨ pathClear p d.g Config.swBase = true) → pathClear t d.g Config.swBase = true → cmdHandleOk t d (fieldAt d.bytes 0x18 8) 0 = true → hShd t n ≠ 0 →
        exec (.engineTakeCommand i) s =
          .next (commandNow (writeWord (writeWord t (handleLoc n) (hShd t n)) (handleLoc n + 8) (hCur t n)) { e with state := 3 }))
    ∧ (d.state = 1 → d.lost = none → d.sent = false → d.left = [] → uncovered s d = none → fieldAt d.bytes 0 1 = 1 → fieldAt d.bytes 2 1 = 5 → 0 < fieldAt d.bytes 4 4 → fieldAt d.bytes 4 4 ≤ 4096 → d.done = 0 →
        let n := fieldAt d.bytes 4 4
        let a := clusterLoc (d.g / 192) (fieldAt d.bytes 8 8)
        let b := clusterLoc (d.g / 192) (fieldAt d.bytes 0x18 8)
        isSpad a = true → isSpad (a + n) = true → isSpad b = true → isSpad (b + n) = true → a + n ≤ b ∨ b + n ≤ a →
        (∀ j, j < n → isToxic s (a + j) = false) →
        exec (.engineTakeCommand i) s = .next (commandNow (storeAt (correctRead s a n) b (readBytes s a n) ⟨1, d.g, d.f⟩) { d with state := 3, done := n }))
    ∧ (d.state ≠ 1 → exec (.multicastRunAccepted i k) s = .next s ∧ exec (.gatherRowAccepted i) s = .next s)
    ∧ (d.state = 1 → fieldAt d.bytes 0 1 = 2 → k ∈ d.served → exec (.multicastRunAccepted i k) s = .next s)
    ∧ (d.state = 1 → fieldAt d.bytes 0 1 = 2 → receives s d k = false → exec (.multicastRunAccepted i k) s = .next s)
    ∧ (d.state = 1 → fieldAt d.bytes 0 1 = 2 → fieldAt d.bytes 2 1 = 5 → d.done = 0 → 0 < fieldAt d.bytes 4 4 → fieldAt d.bytes 4 4 ≤ 4096 →
        let n := fieldAt d.bytes 4 4
        let ks := (receiversOf 2 (engRecOf d.bytes)).map (·.1)
        let a := clusterLoc (d.g / 192) (fieldAt d.bytes 8 8)
        let g := d.g / 192 * 192 + k
        isSpad a = true → isSpad (a + n) = true → (∀ j, j < n → isToxic s (a + j) = false) →
        k ∈ ks → k ∉ d.served → receives s d k = true → (∀ j ∈ ks, j ≠ k → j ∈ d.served ∨ receives s d j = false) →
        let s1 := storeAt (correctRead s a n) (spadLoc g (fieldAt d.bytes 0x18 8 % 2 ^ 17)) (readBytes s a n) ⟨1, d.g, d.f⟩
        let s2 := if fieldAt d.bytes 1 1 / 2 % 2 = 1 then s1
          else addAt s1 (spadLoc g (fieldAt d.bytes 0x18 8 / 2 ^ 32 % 2 ^ 17)) (BitVec.ofNat 64 n) ⟨1, d.g, d.f⟩
        exec (.multicastRunAccepted i k) s = .next (commandNow s2 { d with state := 3, done := n, served := [] }))
    ∧ (d.state = 1 → d.lost = none → d.sent = false → d.left = [] → fieldAt d.bytes 0 1 = 2 → d.done = 0 → 0 < fieldAt d.bytes 4 4 →
        fieldAt d.bytes 4 4 ≤ 4096 → (∀ j ∈ (receiversOf 2 (engRecOf d.bytes)).map (·.1), j ∈ d.served ∨ receives s d j = false) →
        exec (.engineTakeCommand i) s = .next (commandNow s { d with state := 3, done := fieldAt d.bytes 4 4, served := [] }))
    ∧ (d.state = 1 → d.lost = none → d.sent = false → d.left = [] → fieldAt d.bytes 0 1 = 6 ∨ fieldAt d.bytes 0 1 = 7 →
        d.done + 1 = fieldAt d.bytes 4 4 →
        let w := d.hdrseg + fieldAt d.bytes 0x28 8 % 2 ^ 24 + 4 * d.done
        readNat s w 4 = 0xFFFFFFFF → isToxic s w = false →
        exec (.engineTakeCommand i) s = .next (commandNow (correctRead s w 4) { d with state := 3, done := d.done + 1 }))
    ∧ (d.state = 1 → fieldAt d.bytes 0 1 = 6 → d.done + 1 = fieldAt d.bytes 4 4 → fieldAt d.bytes 2 1 / 4 = 0 →
        let row := fieldAt d.bytes 0x10 8 % 2 ^ 17
        let w := d.hdrseg + fieldAt d.bytes 0x28 8 % 2 ^ 24 + 4 * d.done
        (∀ x ∈ s.latent, x + 8 ≤ w ∨ w + 4 ≤ x) → readNat s w 4 ≠ 0xFFFFFFFF →
        let a := fieldAt d.bytes 8 8 + readNat s w 4 * row
        let from_ := clusterLoc (d.g / 192) a
        let dest := spadLoc d.g (fieldAt d.bytes 0x18 8 + d.done * row)
        isToxic s w = false → d.steward = true → isSpad from_ = true → isSpad (from_ + row) = true → isSpad dest = true →
        (∀ j, j < row → isToxic s (from_ + j) = false) →
        (a < d.seglo ∨ a + row > d.seghi ∨ a + row > 25165824 →
          exec (.gatherRowAccepted i) s = .next (raisePend (commandNow s { d with state := 4, code := 6 }) d))
        ∧ (d.seglo ≤ a → a + row ≤ d.seghi → a + row ≤ 25165824 → present s (d.g / 192 * 192 + a / 131072) = true →
          present s (d.g / 192 * 192 + (a + row - 1) / 131072) = true →
          let s1 := storeAt (correctRead s from_ row) dest (readBytes s from_ row) ⟨1, d.g, d.f⟩
          let s2 := if fieldAt d.bytes 1 1 / 2 % 2 = 1 then s1
            else addAt s1 (d.hdrseg + fieldAt d.bytes 0x20 8 % 2 ^ 24 + 8 * (a / 131072)) 1 ⟨1, d.g, d.f⟩
          exec (.gatherRowAccepted i) s = .next (commandNow s2 { d with state := 3, done := d.done + 1 })))
    ∧ (d.park = none → exec (.engineResume i) s = .next s)
    ∧ (∀ t, d.park = some t →
        (reached (readWord s (wakeCtr d.g)) (BitVec.ofNat 64 t) = false → exec (.engineResume i) s = .next s)
          ∧ (reached (readWord s (wakeCtr d.g)) (BitVec.ofNat 64 t) = true → (getCore s d.g).refused.contains t = false →
            exec (.engineResume i) s = .next (commandNow s { d with park := none, state := 1
                                                                    done := if fieldAt d.bytes 0 1 = 4 ∨ (fieldAt d.bytes 0 1 = 5 ∧ d.phase = false) then 0 else d.done }))
          ∧ (reached (readWord s (wakeCtr d.g)) (BitVec.ofNat 64 t) = true → (getCore s d.g).refused.contains t = true →
            let c := getCore s d.g
            let e := { d with park := none }
            exec (.engineResume i) s = .next (raisePend (commandNow (setCore s d.g { c with refused := c.refused.filter (· != t) })
              { e with state := 4, code := 1 }) e)))
    ∧ (d.state < 3 → exec (.engineCommandRetire i) s = .next s)
    ∧ (d.state = 3 ∨ d.state = 4 →
        let s1 := addAt s (clusterLoc (d.g / 192) (fieldAt d.bytes 0x30 4)) (BitVec.ofNat 64 (fieldAt d.bytes 0x34 4 + if d.state = 4 then 2 ^ 48 else 0)) ⟨1, d.g, d.f⟩
        let s2 := addAt s1 (d.header + 8) 1 ⟨1, d.g, d.f⟩
        exec (.engineCommandRetire i) s = .next (countRcvd { s2 with cmds := s2.cmds.filter fun e => e.id != i } d))

/-! ## Handles (R224-R229), translation and the walker (R231-R248) -/

/-- R225: the checks of a handle in their order, and what an access through a segment of the handle class does when one fails. R224, R227, R228, R229: `halloc` and `halloc.buf.sh` allocate the first free entry after the last one and answer its handle, or 0 when
none is free; kinds 3 and 4 are the steward's, and an operand that R227 does not admit traps with reason 8. `hfree` frees an entry that
passes the checks and advances its generation. `hchk` answers the first failing reason, the kind and the bound. -/
def Obligations.Handles : Prop :=
  ((∀ (s : State) (h : Word) (kinds fits : Nat → Bool),
     let n := h.toNat / 2 ^ 24 % 2 ^ 20
     let st := entryField s n 0x17 1
     let bound := entryField s n 0x10 4 % 2 ^ 24
     let ten := entryField s n 0x14 2 % 4096
     let r := handleReason s h kinds fits
     let named := n ≠ 0 ∧ 128 ≤ st ∧ entryField s n 0x16 1 = h.toNat / 2 ^ 44 % 256 ∧ ten = h.toNat / 2 ^ 52
       ∧ (s.fib.steward = true ∨ ten = s.fib.tenant.toNat)
     (r = 1 ↔ n = 0) ∧ (r = 2 ↔ n ≠ 0 ∧ st < 128) ∧ (r = 3 ↔ n ≠ 0 ∧ 128 ≤ st ∧ entryField s n 0x16 1 ≠ h.toNat / 2 ^ 44 % 256)
       ∧ (r = 4 ↔ n ≠ 0 ∧ 128 ≤ st ∧ entryField s n 0x16 1 = h.toNat / 2 ^ 44 % 256
           ∧ (ten ≠ h.toNat / 2 ^ 52 ∨ (s.fib.steward = false ∧ ten ≠ s.fib.tenant.toNat)))
       ∧ (r = 5 ↔ named ∧ bound ≠ h.toNat % 2 ^ 24)
       ∧ (r = 6 ↔ named ∧ bound = h.toNat % 2 ^ 24 ∧ kinds (st % 8) = false)
       ∧ (r = 7 ↔ named ∧ bound = h.toNat % 2 ^ 24 ∧ kinds (st % 8) = true ∧ fits bound = false)
       ∧ (r = 0 ↔ named ∧ bound = h.toNat % 2 ^ 24 ∧ kinds (st % 8) = true ∧ fits bound = true)
       ∧ r < 8)
   ∧ ∀ (s : State) (sg : Fin 8) (o : Word) (e : Fin 7) (need kind : Nat),
     let g := s.fib.seg[sg]
     let n := 2 ^ e.val
     let r := handleReason s g.base (fun k => k == 0) fun b => decide (o.toNat + n ≤ b * 65536)
     g.cls = 3 → g.rights.toNat &&& need = need → o.toNat + n ≤ g.limit.toNat → o.toNat + n ≤ g.base.toNat % 2 ^ 24 * 65536 → o.toNat % n = 0 →
       r ≠ 0 → resolve sg o n n need kind s = .error (.trap 0x0D (reasonWord r o.toNat) false none))
  ∧ ((∀ (s : State) (kind : Fin 5) (d a c : SReg) (b : SrcB), s.pair = none → plainS s.fib a = true → plainB s.fib b = true →
       plainS s.fib c = true → openS s.fib d = true →
       let cur := regVal s.fib a
       let bound := valB s.fib b
       let shd := regVal s.fib c
       (3 ≤ kind.val → s.fib.steward = false → exec (.halloc kind d a b) s = .next (trapsWith s 5 0))
       ∧ (kind.val < 3 ∨ s.fib.steward = true →
         (¬ (cur.toNat % 65536 = 0 ∧ cur.toNat < 2 ^ 55) → exec (.halloc kind d a b) s = .next (trapsWith s 0x0D (reasonWord 8 cur.toNat))
           ∧ exec (.hallocBufSh d a b c) s = .next (trapsWith s 0x0D (reasonWord 8 cur.toNat)))
         ∧ (cur.toNat % 65536 = 0 → cur.toNat < 2 ^ 55 →
           (bound = 0 ∨ 2 ^ 24 ≤ bound.toNat → exec (.halloc kind d a b) s = .next (trapsWith s 0x0D (reasonWord 8 bound.toNat))
             ∧ exec (.hallocBufSh d a b c) s = .next (trapsWith s 0x0D (reasonWord 8 bound.toNat)))
           ∧ (0 < bound.toNat → bound.toNat < 2 ^ 24 →
             (¬ (shd ≠ 0 ∧ shd.toNat % 65536 = 0 ∧ shd.toNat < 2 ^ 55) →
               exec (.hallocBufSh d a b c) s = .next (trapsWith s 0x0D (reasonWord 8 shd.toNat)))
             ∧ (s.lastHandle ≤ 1048575 → noFreeEntry s → exec (.halloc kind d a b) s = .next (doneS s d 0))
             ∧ ∀ n, s.lastHandle ≤ 1048575 → chosenEntry s n → unhindered s (handleLoc n) = true →
               let gen := readNat s (handleLoc n + 0x16) 1
               let entry := fun (k : Nat) (sh : Word) => bytesOf 8 cur.toNat ++ bytesOf 8 sh.toNat ++ bytesOf 4 bound.toNat
                 ++ bytesOf 2 s.fib.tenant.toNat ++ bytesOf 1 gen ++ bytesOf 1 (128 + k) ++ bytesOf 4 s.fib.fibre.toNat
               let h := BitVec.ofNat 64 (s.fib.tenant.toNat * 2 ^ 52 + gen * 2 ^ 44 + n * 2 ^ 24 + bound.toNat)
               exec (.halloc kind d a b) s = .next (doneS { storeBytes s (handleLoc n) (entry kind.val 0) with lastHandle := n } d h)
               ∧ (shd ≠ 0 → shd.toNat % 65536 = 0 → shd.toNat < 2 ^ 55 →
                 exec (.hallocBufSh d a b c) s = .next (doneS { storeBytes s (handleLoc n) (entry 0 shd) with lastHandle := n } d h))))))
     ∧ ∀ (s : State) (d a : SReg) (b : SrcB), s.pair = none → plainS s.fib a = true →
       let h := regVal s.fib a
       let n := h.toNat / 2 ^ 24 % 2 ^ 20
       (unhindered s (handleLoc n) = true →
         (handleReason s h (fun _ => true) (fun _ => true) ≠ 0 → exec (.hfree a) s =
           .next (trapsWith s 0x0D (reasonWord (handleReason s h (fun _ => true) fun _ => true) 0)))
         ∧ (handleReason s h (fun _ => true) (fun _ => true) = 0 → exec (.hfree a) s =
           .next (goOn (writeNat (writeNat s (handleLoc n + 0x16) 1 ((readNat s (handleLoc n + 0x16) 1 + 1) % 256)) (handleLoc n + 0x17) 1
             (readNat s (handleLoc n + 0x17) 1 % 128)))))
       ∧ (plainB s.fib b = true → pathOpen s (handleLoc n) 32 false = true →
         let t := askedIn s (handleLoc n) 32 false
         t.pair = none → openS t.fib d = true → ∃ v : Word, exec (.hchk d a b) s = .next (doneS t d v)
         ∧ (v.extractLsb' 56 8).toNat = handleReason t h (fun _ => true) (fun bound =>
             decide ((valB s.fib b).toNat ≤ if entryField t n 0x17 1 % 8 = 1 then bound else bound * 65536))
         ∧ (n = 0 → v.extractLsb' 0 56 = 0) ∧ (n ≠ 0 → (v.extractLsb' 53 3).toNat = entryField t n 0x17 1 % 8 ∧ v.extractLsb' 24 29 = 0
           ∧ (v.extractLsb' 0 24).toNat = entryField t n 0x10 4 % 2 ^ 24)))

/-- R237, R243, R244: the three `tlbinv` trap in user mode; an operand with bits above those used traps and removes nothing; else, with no
store held in a buffer or at a port, every TLB loses the entries named and the grants of the same pages go, no line of their pages is left in
a read cache or a fetch buffer, and the epoch has advanced. -/
def Obligations.Invalidation : Prop :=
  ∀ (s : State) (a b : SReg), s.pair = none → plainS s.fib a = true → plainS s.fib b = true →
    let x := regVal s.fib a
    let y := regVal s.fib b
    let gone := fun (p : TlbEntry → Bool) (t : State) => t.tlbs = s.tlbs.filter (fun e => !p e) ∧ t.epoch = s.epoch + 1
      ∧ (∀ c ∈ t.cores, ∀ l ∈ c.2.cache, ∀ e ∈ s.tlbs, p e = true →
          l.block + 64 ≤ leafDpa e.leaf 0 ∨ leafDpa e.leaf 0 + (if e.blk then 2 ^ 29 else 65536) ≤ l.block)
      ∧ (∀ c ∈ t.cores, ∀ l ∈ c.2.lines, ∀ e ∈ s.tlbs, p e = true →
          l.loc < leafDpa e.leaf 0 ∨ leafDpa e.leaf 0 + (if e.blk then 2 ^ 29 else 65536) ≤ l.loc)
      ∧ t.grants = s.grants.filter (fun e => !p (grantEntry e))
      ∧ t = { s with tlbs := t.tlbs, grants := t.grants, epoch := t.epoch, invs := t.invs, cores := t.cores }
    (s.fib.steward = false → exec .tlbinvAll s = .next (trapsWith s 5 0) ∧ exec (.tlbinvTen a) s = .next (trapsWith s 5 0)
      ∧ exec (.tlbinvVa a b) s = .next (trapsWith s 5 0))
    ∧ (s.fib.steward = true →
      (4096 ≤ x.toNat → exec (.tlbinvTen a) s = .next (trapsWith s 6 x) ∧ exec (.tlbinvVa a b) s = .next (trapsWith s 6 x))
      ∧ (x.toNat < 4096 → 2 ^ 55 ≤ y.toNat → exec (.tlbinvVa a b) s = .next (trapsWith s 6 y))
      ∧ ((∀ c ∈ s.cores, c.2.sb = []) → s.ports = [] →
        (∃ t, gone (fun _ => true) t ∧ exec .tlbinvAll s = .next (goOn t))
        ∧ (x.toNat < 4096 → ∃ t, gone (fun e => e.tenant.toNat == x.toNat) t ∧ exec (.tlbinvTen a) s = .next (goOn t))
        ∧ (x.toNat < 4096 → y.toNat < 2 ^ 55 → ∃ t, exec (.tlbinvVa a b) s = .next (goOn t) ∧ gone (fun e => e.tenant.toNat == x.toNat
          && (if e.blk then y.toNat / 2 ^ 29 == e.page else y.toNat / 65536 == e.page)) t)))

/-- R237-R242, R247: `wmbx`, `wfill`, `wfail` outside slot 15 or in user mode trap with cause 0x05. `wmbx` takes the oldest entry, with an
acquire at `.mod`, or waits; `wfill` of a leaf that R239 admits installs it, unless a `tlbinv` overtook the entry, and frees the entry;
`wfail` takes a ticket and posts a fault record, but for reason 5, which holds the requester until its page has moved; operand a in `%taddr`
of a bad leaf or reason is the model's choice (log 97). MIG_RETRANSLATE lets a fibre go on whose page no longer moves. -/
def Obligations.WalkerInstructions : Prop :=
  (∀ (s : State) (d : Fin 12) (a b : SReg), s.pair = none → plainS s.fib a = true → plainS s.fib b = true → openV s.fib (lowV d) = true →
    let g := s.focus.1
    let x := regVal s.fib a
    let l := regVal s.fib b
    (s.fib.steward = false ∨ s.focus.2 ≠ 15 → exec (.wmbx d) s = .next (trapsWith s 5 0) ∧ exec (.wfill a b) s = .next (trapsWith s 5 0)
      ∧ exec (.wfail a b) s = .next (trapsWith s 5 0))
    ∧ (s.fib.steward = true → s.focus.2 = 15 →
      ((∀ m ∈ (getCore s g).mailbox, m.fresh = false) → exec (.wmbx d) s = .next (applyLeave s .room))
      ∧ (∀ m, (getCore s g).mailbox.find? (fun m => m.fresh) = some m →
        let u := acquire s g 4
        let c := getCore u g
        let v : Fin 16 → Lane := fun i => match i with
          | 0 => BitVec.ofNat 32 (m.va.toNat % 2 ^ 55 + m.at_ * 2 ^ 60)
          | 1 => BitVec.ofNat 32 ((m.va.toNat % 2 ^ 55 + m.at_ * 2 ^ 60) / 2 ^ 32)
          | 2 => BitVec.ofNat 32 (m.tenant.toNat + m.tag % 256 * 2 ^ 16 + m.rq * 2 ^ 24)
          | 3 => BitVec.ofNat 32 m.who
          | 4 => m.code.setWidth 32 | 5 => m.code.extractLsb' 32 32
          | 6 => BitVec.ofNat 32 m.epoch | 7 => BitVec.ofNat 32 (m.epoch / 2 ^ 32)
          | _ => 0
        exec (.wmbx d) s = .next (doneV (setCore u g { c with mailbox := c.mailbox.map fun e =>
          if e.tag = m.tag then { e with fresh := false } else e }) (lowV d) (vecOf v)))
      ∧ (32 ≤ x.toNat ∨ (∀ m ∈ (getCore s g).mailbox, m.tag ≠ x.toNat) → exec (.wfill a b) s = .next (trapsWith s 6 x))
      ∧ ((∀ m ∈ (getCore s g).mailbox, m.tag ≠ x.toNat % 32) → exec (.wfail a b) s = .next (trapsWith s 6 x))
      ∧ ∀ m, (getCore s g).mailbox.find? (fun m => m.tag == x.toNat % 32) = some m →
        let c := getCore s g
        let freed := setCore s g { c with mailbox := c.mailbox.filter fun e => e.tag != m.tag }
        let bad := l.getLsbD 63 = false ∨ l.extractLsb' 60 2 = 3 ∨ l.getLsbD 54 = true
          ∨ ((m.at_ = 1 ∨ m.at_ = 4 ∨ m.at_ = 6) ∧ l.getLsbD 57 = false) ∨ (m.at_ = 2 ∧ l.getLsbD 56 = false)
        (x.toNat < 32 → bad → exec (.wfill a b) s = .next (trapsWith s 6 x))
        ∧ (x.toNat < 32 → ¬ bad → overtaken s m (l.getLsbD 62) = true → (pumpAll freed).pair = none → exec (.wfill a b) s = .next (goOn (pumpAll freed)))
        ∧ (x.toNat < 32 → ¬ bad → overtaken s m (l.getLsbD 62) = false → (pumpAll (installLeaf freed g m l)).pair = none →
          exec (.wfill a b) s = .next (goOn (pumpAll (installLeaf freed g m l)))
          ∧ (m.rq ≠ 2 → ∃ e, tlbFind (installLeaf freed g m l) (.port (g / 192)) m.tenant m.va = some e ∧ e.leaf = l)
          ∧ (m.rq = 2 → ∃ e, tlbFind (installLeaf freed g m l) (.host (hostDieOf m)) m.tenant m.va = some e ∧ e.leaf = l))
        ∧ (6 ≤ l.toNat % 16 → exec (.wfail a b) s = .next (trapsWith s 6 x))
        ∧ (l.toNat % 16 = 5 → m.rq ≠ 3 → m.rq ≠ 0 → exec (.wfail a b) s = .next (goOn { freed with moving := s.moving ++ [(g, m)] }))
        ∧ (l.toNat % 16 = 5 → m.rq = 0 → slotOfFibre s g m.who = none → exec (.wfail a b) s = .next (goOn freed))
        ∧ (∀ k w, l.toNat % 16 = 5 → m.rq = 0 → slotOfFibre s g m.who = some k → (getCtx s g k).status = .waiting w →
          exec (.wfail a b) s = .next (goOn (setCtx freed g k { getCtx s g k with status := .waiting (.move m.va) })))
        ∧ ∀ u, l.toNat % 16 < 5 → failEntry s g m (l.toNat % 16) (selfAdder s) = some u → u.pair = none → exec (.wfail a b) s = .next (goOn u)))
  ∧ (∀ (s : State) (g : Nat), (outstanding s g).length < 64 → ∃ u, takeTicket s g = some ((getCore s g).faultSeq + 1, u)
      ∧ (getCore u g).faultSeq = (getCore s g).faultSeq + 1 ∧ (getCore s g).faultSeq + 1 ∈ (getCore u g).tickets)
  ∧ ∀ (s : State) (g : Nat) (k : Fin 16) (va : Word), 
    let u := pumpAll { s with moving := s.moving.filter fun e => pageMoving s e.2.tenant e.2.va }
    (getCtx u g k).status = .waiting (.move va) →
    let x := getCtx u g k
    (∀ l w n, walkLeaf u x.tenant va.toNat = some (l, w, n) → w.getLsbD 54 = true → exec (.migRetranslate (16 * g + k.val)) s = .next u)
    ∧ ((getCore u g).slots[k].bound = true → (∀ l w n, walkLeaf u x.tenant va.toNat = some (l, w, n) → w.getLsbD 54 = false) →
      exec (.migRetranslate (16 * g + k.val)) s = .next (setCtx u g k { x with status := .run }))

/-! ## Kernels, pipes, queues, groups (R299, R314-R318, R328-R340) -/

/-- R49, R329, R330, R335, R339, R340: `spawn` and `reap` outside slot 0 trap with cause 0x05. `spawn` creates a fibre at the least index
free and answers its `%fibre`, or all ones where an index, a handle or a frame is lacking; the context it gives is that of R329. `reap`
answers index, state, cause and hd of the fibre it frees, or all ones. `khint` sets HINT, `khint.mv` tells whether the core is marked for
the issuer's kernel, `kwaitp` waits on the counter that PHAND names, once the accesses ahead of it on the way to the home have gone and in its
turn (R96); a user fibre that meets a guarded word there traps with cause 0x06, PHAND in `%taddr` being the model's choice (log 101). The
WADDR that the sleeping state holds is the model's reading, log 13. -/
def Obligations.KernelInstructions : Prop :=
  (∀ (s : State) (d a : SReg) (b : SrcB), s.pair = none → plainS s.fib a = true → plainB s.fib b = true → openS s.fib d = true →
    let g := s.focus.1
    let x := regVal s.fib a
    (s.focus.2 ≠ 0 → exec (.spawn d a b) s = .next (trapsWith s 5 0) ∧ exec (.reap d a) s = .next (trapsWith s 5 0))
    ∧ (s.focus.2 = 0 →
      (spawnOn s x (valB s.fib b) = none → exec (.spawn d a b) s = .next (doneS s d (BitVec.allOnes 64)))
      ∧ (∀ n u, spawnOn s x (valB s.fib b) = some (n, u) → u.pair = none → openS u.fib d = true →
        exec (.spawn d a b) s = .next (doneS u d (BitVec.ofNat 64 (g * 4096 + n)))
          ∧ fibreInfo s g n = none ∧ n < 4096 ∧ ∀ i, i < n → (fibreInfo s g i).isSome = true)
      ∧ (reapChoice s x = none → exec (.reap d a) s = .next (doneS s d (BitVec.allOnes 64)))
      ∧ ∀ f i hd u, reapChoice s x = some (f, i) → freeFibre s g f false (selfAdder s) = (hd, u) → u.pair = none → openS u.fib d = true →
        exec (.reap d a) s = .next (doneS u d (BitVec.ofNat 64 (f + (if i.state = .done then 7 else 6) * 2 ^ 12
          + readNat s (i.loc + 0x5C) 4 / 2 ^ 20 % 256 * 2 ^ 16 + if hd then 2 ^ 24 else 0)))
          ∧ (i.state = .done ∨ i.state = .faulted) ∧ i.kern = myKern s ∧ f ≠ s.fib.fibre.toNat % 4096))
  ∧ (∀ (s : State) (k : Nat) (pc x0 : Word), let f := spawnFib s (some k) pc x0
      f.pc = pc ∧ f.x[0] = x0 ∧ f.x[1] = s.fib.fibre.zeroExtend 64 ∧ f.seg = s.fib.seg ∧ f.ctx = s.fib.ctx ∧ f.rope = s.fib.rope
        ∧ f.budget.toNat = readNat s (kernLoc k + 0x40) 6 % 2 ^ 48 ∧ f.fdlimit.toNat = readNat s (kernLoc k + 0x3E) 1 % 64)
  ∧ (∀ (s : State) (d : SReg), s.pair = none →
    (myKern s = none → exec .khint s = .next (goOn s))
      ∧ (∀ k, myKern s = some k → exec .khint s = .next (goOn (writeNat s (kernLoc k + 0xA8) 1 (readNat s (kernLoc k + 0xA8) 1 ||| 1))))
      ∧ (openS s.fib d = true → exec (.khintMv d) s =
        .next (doneS s d (if (getCore s s.focus.1).mark.any (fun m => myKern s == some m.1) then 1 else 0))))
  ∧ ∀ (s : State) (d : SReg) (b : SrcB) (a : Nat), s.pair = none → s.fib.wake = none → plainB s.fib b = true → openS s.fib d = true →
    (((phandOf s).getLsbD 47 = false) → exec (.kwaitp d b) s = .next (doneS (acquire s s.focus.1 4) d 0))
    ∧ ((phandOf s).getLsbD 47 = true → counterRef s (phandOf s) = none → exec (.kwaitp d b) s = .next (trapsWith s 6 (phandOf s)))
    ∧ ((phandOf s).getLsbD 47 = true → counterRef s (phandOf s) = some a → userGuarded s a = true →
      exec (.kwaitp d b) s = .next (trapsWith s 6 (phandOf s)))
    ∧ ((phandOf s).getLsbD 47 = true → counterRef s (phandOf s) = some a → userGuarded s a = false → unbuffered s a = true →
      (atHome s a = none → exec (.kwaitp d b) s = .next (waitsForRoom s a))
      ∧ ∀ u, atHome s a = some u → isToxic u a = false → u.pair = none → openS u.fib d = true →
        (reached (readWord u a) (valB s.fib b) = true → exec (.kwaitp d b) s = .next (doneS (acquire u u.focus.1 4) d (readWord u a)))
          ∧ (reached (readWord u a) (valB s.fib b) = false → exec (.kwaitp d b) s =
            .next (applyLeave { u with fib := s.fib } (.sleep .counter (some (a, valB s.fib b)) (waitWord u.focus.1 a)))))

/-- R332, R333: `pput`, `pget` and `pget.w` on a pipe whose words hold no poison, u being the state after the publish of a put at `.mod` (and
its message counted), after the accesses ahead of it on the way and the core's earlier adds to the home, and after the home has read PUT and
GOT. While they are held up, or an earlier instruction of the core has yet to reach that home, or its publish waits, an instruction waits and
keeps its place (R96). The WADDR that the sleeping state holds is the model's reading, log 13. A pipe the kernel does not have traps with cause 0x06, a put of all
ones with cause 0x0B; a full pipe takes nothing, an empty one gives nothing, and `pget.w` sleeps on it. -/
def Obligations.Pipes : Prop :=
  ∀ (s : State) (d a : SReg) (b : SrcB), s.pair = none → s.fib.wake = none → plainS s.fib a = true → plainB s.fib b = true →
    let p := regVal s.fib a
    let v := valB s.fib b
    (pipeHome s p = none → exec (.pput d a b) s = .next (trapsWith s 6 p) ∧ exec (.pget d a) s = .next (trapsWith s 6 p)
      ∧ exec (.pgetW d a) s = .next (trapsWith s 6 p))
    ∧ ∀ h, pipeHome s p = some h →
      (v = BitVec.allOnes 64 → exec (.pput d a b) s = .next (trapsWith s 0x0B 0))
      ∧ (v ≠ BitVec.allOnes 64 → released s true .mod = none →
        exec (.pput d a b) s = .next (waitsFor { (publishFrom s 4).2 with fib := s.fib } (.home h) (.publish 4 (publishFrom s 4).1)))
      ∧ (∀ t, v ≠ BitVec.allOnes 64 → released s true .mod = some t →
        (atHome (countMessage t) (spadLoc h 0x1FFD0) = none → exec (.pput d a b) s = .next (waitsFor s (.home h) .room))
        ∧ ∀ y u, atHome (countMessage t) (spadLoc h 0x1FFD0) = some y → u = seenPipe y h → pipeToxic u h true = false →
          (∀ e ∈ u.enrol, e.loc ≠ spadLoc h 0x1FFD0) → u.pair = none → openS u.fib d = true →
          let put := readWord u (spadLoc h 0x1FFD0)
          let n := put - readWord u (spadLoc h 0x1FFD8)
          exec (.pput d a b) s = .next (if n.toNat = 1024 then doneS u d (BitVec.allOnes 64)
            else doneS (writeWord (writeWord u (spadLoc h (0x1C000 + 8 * (put.toNat % 1024))) v) (spadLoc h 0x1FFD0) (put + 1)) d (n + 1)))
      ∧ (atHome s (spadLoc h 0x1FFD0) = none → exec (.pget d a) s = .next (waitsFor s (.home h) .room)
          ∧ exec (.pgetW d a) s = .next (waitsFor s (.home h) .room))
      ∧ ∀ y u, atHome s (spadLoc h 0x1FFD0) = some y → u = seenPipe y h → pipeToxic u h false = false → u.pair = none → openS u.fib d = true →
          let got := readWord u (spadLoc h 0x1FFD8)
          let at_ := spadLoc h (0x1C000 + 8 * (got.toNat % 1024))
          let w := acquire (writeWord (correctRead u at_ 8) (spadLoc h 0x1FFD8) (got + 1)) u.focus.1 4
          let e := readWord u at_
          (readWord u (spadLoc h 0x1FFD0) = got → exec (.pget d a) s = .next (doneS u d (BitVec.allOnes 64))
            ∧ exec (.pgetW d a) s = .next (applyLeave { u with fib := s.fib } (.sleep .pipe (some (spadLoc h 0x1FFD0, 0)) (waitWord u.focus.1 (spadLoc h 0x1FFD0)))))
          ∧ (readWord u (spadLoc h 0x1FFD0) ≠ got → exec (.pget d a) s = .next (doneS w d e) ∧ exec (.pgetW d a) s = .next (doneS w d e))

/-- R299, R300: `qpost` of a queue that is not there, is not open, belongs to another tenant, or of a record that breaks R297 traps as R299
says; a full ring gives all ones and writes nothing; else the record is stored at its ring entry and the publish of its scope begins, with
the value read kept; once the publish is complete NOTIFY gains 1 and the instruction completes with that value, whatever other posts came
between. Where the counters are read they are unpoisoned and no store waits for them; s1 and s2 are the states in which their homes
answer; where one does not answer, or the publish waits, the instruction keeps its turn for the home of NOTIFY (R96). A user fibre whose queue names a
guarded counter traps with cause 0x06; reason 4 in `%taddr` there is the model's choice (log 101). -/
def Obligations.QueuePost : Prop :=
  (∀ (s : State) (sys : Bool) (d a : SReg) (v : Fin 15), s.pair = none → s.fib.post = none → plainS s.fib a = true →
    let q := (regVal s.fib a).toNat
    let e := qLoc q
    let word := fun r : Nat => BitVec.ofNat 64 (r * 2 ^ 56) + regVal s.fib a
    (65536 ≤ q → exec (.qpost sys d a v) s = .next (trapsWith s 6 (word 1)))
    ∧ (q < 65536 → readNat s (e + 0x0B) 1 = 0 → exec (.qpost sys d a v) s = .next (trapsWith s 6 (word 2)))
    ∧ (q < 65536 → readNat s (e + 0x0B) 1 ≠ 0 →
      (s.fib.steward = false → readNat s (e + 0x0C) 2 % 4096 ≠ s.fib.tenant.toNat → exec (.qpost sys d a v) s = .next (trapsWith s 5 (word 0)))
      ∧ (s.fib.steward = true ∨ readNat s (e + 0x0C) 2 % 4096 = s.fib.tenant.toNat → plainV s.fib (Fin.castLE (by omega) v) = true →
        plainV s.fib ⟨v.val + 1, by omega⟩ = true →
        let r := laneBytes s.fib.v[v.val] ++ laneBytes s.fib.v[v.val + 1]
        (recordOk r = false ∨ fieldAt r 0x3C 2 ≠ readNat s (e + 0x0C) 2 % 4096 → exec (.qpost sys d a v) s = .next (trapsWith s 6 (word 3)))
        ∧ (recordOk r = true → fieldAt r 0x3C 2 = readNat s (e + 0x0C) 2 % 4096 →
          (qNotify s q = none ∨ qTaken s q = none → exec (.qpost sys d a v) s = .next (trapsWith s 6 (word 4)))
          ∧ (∀ na ta, qNotify s q = some na → qTaken s q = some ta → (userGuarded s na || userGuarded s ta) = true →
            exec (.qpost sys d a v) s = .next (trapsWith s 6 (word 4)))
          ∧ (∀ na ta, qNotify s q = some na → qTaken s q = some ta → (userGuarded s na || userGuarded s ta) = false →
            unbuffered s na = true → atHome s na = none → exec (.qpost sys d a v) s = .next (waitsForRoom s na))
          ∧ ∀ na ta s1 s2 t loc, qNotify s q = some na → qTaken s q = some ta → (userGuarded s na || userGuarded s ta) = false → unbuffered s na = true → atHome s na = some s1 →
            isToxic s1 na = false → unbuffered s1 ta = true → atHome s1 ta = some s2 → isToxic s2 ta = false →
            let n := readWord s1 na
            let size := 2 ^ readNat s (e + 8) 1
            let va := readNat s e 8 + 128 * (n.toNat % size)
            (size ≤ (n - readWord s2 ta).toNat → s2.pair = none → openS s2.fib d = true →
              exec (.qpost sys d a v) s = .next (doneS s2 d (BitVec.allOnes 64)))
            ∧ ((n - readWord s2 ta).toNat < size → translate va 128 (BitVec.ofNat 64 va) accStore s2 = .ok ([(loc, 128)], t) →
              storable t loc = true →
              let sc := if sys then 5 else 4
              let u := storeIn t t.focus.1 loc r (selfAdder t) true
              let p := beginPublish u u.focus.1
              let w := pushPublish p.2 u.focus.1 sc p.1
              exec (.qpost sys d a v) s =
                .next (waitsFor { w with fib := { s.fib with post := some n } } (.home (homeOf na)) (.publish sc p.1)))))))
  ∧ ∀ (s : State) (sys : Bool) (d a : SReg) (v : Fin 15) (n : Word), s.pair = none → s.fib.post = some n → plainS s.fib a = true →
    plainV s.fib (Fin.castLE (by omega) v) = true → plainV s.fib ⟨v.val + 1, by omega⟩ = true →
    let sc : Scope := if sys then .sys else .mod
    let k := ((qNotify s (regVal s.fib a).toNat).map fun x => TurnKey.home (homeOf x)).getD .anyHome
    (∀ t, released s true sc = some t → qNotify t (regVal s.fib a).toNat = none → t.pair = none → openS t.fib d = true →
      exec (.qpost sys d a v) s = .next (doneS { t with fib := { t.fib with post := none } } d n))
    ∧ (∀ t na, released s true sc = some t → qNotify t (regVal s.fib a).toNat = some na →
      (userGuarded t na = true → exec (.qpost sys d a v) s = .next (trapsWith s 6 (BitVec.ofNat 64 (4 * 2 ^ 56) + regVal s.fib a)))
      ∧ (userGuarded t na = false → atHome t na = none → exec (.qpost sys d a v) s = .next (waitsFor s k .room)))
    ∧ (∀ t na y, released s true sc = some t → qNotify t (regVal s.fib a).toNat = some na → userGuarded t na = false → atHome t na = some y →
      let w := addAt y na 1 (selfAdder y)
      let x := { w with fib := { w.fib with post := none } }
      x.pair = none → openS x.fib d = true → exec (.qpost sys d a v) s = .next (doneS x d n))
    ∧ (released s true sc = none →
      let w := publishFrom s (scopeCode sc)
      exec (.qpost sys d a v) s = .next (waitsFor { w.2 with fib := s.fib } k (.publish (scopeCode sc) w.1)))

/-- R310, R314, R315, R318: `take`, `lvpost` and `lvtake` of a fibre of no group trap with cause 0x05. `take` of 0 or more than 4,096 traps
with cause 0x0B; else it gives the pool's value if below the limit, and advances the pool. `lvpost` appends to a list of at most 64,
`lvtake` takes the head. The forms of `gtile`. -/
def Obligations.GroupInstructions : Prop :=
  (∀ (s : State) (d a : SReg) (b : SrcB), s.pair = none → plainS s.fib a = true → plainB s.fib b = true → myGroup s = none →
    exec (.take d a b) s = .next (trapsWith s 5 0) ∧ exec (.lvpost d a) s = .next (trapsWith s 5 0) ∧ exec (.lvtake d) s = .next (trapsWith s 5 0))
  ∧ (∀ (s : State) (d a : SReg) (b : SrcB) (r : Group), s.pair = none → plainS s.fib a = true → plainB s.fib b = true → myGroup s = some r →
    let n := valB s.fib b
    let pool := spadLoc r.home 0x1FFE8
    (n = 0 ∨ 4096 < n.toNat → exec (.take d a b) s = .next (trapsWith s 0x0B n))
    ∧ (0 < n.toNat → n.toNat ≤ 4096 → atHome s pool = none → exec (.take d a b) s = .next (waitsForRoom s pool))
    ∧ (∀ u, 0 < n.toNat → n.toNat ≤ 4096 → atHome s pool = some u → isToxic u pool = false →
      let w := takePool u r n (selfAdder u)
      w.pair = none → openS w.fib d = true →
      exec (.take d a b) s = .next (doneS w d (if (readWord u pool).toNat < (regVal s.fib a).toNat then readWord u pool else BitVec.allOnes 64))))
  ∧ (∀ (s t : State) (d a : SReg) (r : Group), s.pair = none → plainS s.fib a = true → openS s.fib d = true → myGroup s = some r →
    let e := regVal s.fib a
    let c := getCore s s.focus.1
    (e = BitVec.allOnes 64 → exec (.lvpost d a) s = .next (trapsWith s 0x0B 0))
    ∧ (e ≠ BitVec.allOnes 64 → released s true .clu = some t → t.pair = none → openS t.fib d = true →
      let k := getCore t t.focus.1
      exec (.lvpost d a) s = .next (if 64 ≤ k.level.length then doneS t d (BitVec.allOnes 64)
        else doneS (setCore t t.focus.1 { k with level := k.level ++ [e] }) d (BitVec.ofNat 64 (k.level.length + 1))))
    ∧ (c.level = [] → exec (.lvtake d) s = .next (doneS s d (BitVec.allOnes 64)))
    ∧ ∀ x l, c.level = x :: l → exec (.lvtake d) s = .next (doneS (acquire (setCore s s.focus.1 { c with level := l, kept := c.kept - 1 }) s.focus.1 2) d x))
  ∧ ∀ (s : State) (d a : SReg) (b : SrcB), s.pair = none → plainS s.fib a = true → plainB s.fib b = true → openS s.fib d = true →
    let t := (regVal s.fib a).toNat
    let e := valB s.fib b
    let mt := ((myGroup s).map (·.m)).getD 0
    let nt := ((myGroup s).map (·.n)).getD 0
    let m := t / nt
    let n := t % nt
    let mr := if (e.extractLsb' 0 24).toNat = 0 then 8 * mt else (e.extractLsb' 0 24).toNat
    let nc := if (e.extractLsb' 24 24).toNat = 0 then 8 * nt else (e.extractLsb' 24 24).toNat
    let out := mt * nt ≤ t ∨ mr ≤ 8 * m ∨ nc ≤ 8 * n
    let res := fun rows cols : Nat => if out then BitVec.allOnes 64 else BitVec.ofNat 64 (m * 2 ^ 36 + n * 2 ^ 24 + rows * 2 ^ 3 + cols)
    let rows := Nat.min 8 (mr - 8 * m) - 1
    let cols := Nat.min 8 (nc - 8 * n) - 1
    exec (.gtileO d a b) s = .next (doneS s d (res rows cols)) ∧ exec (.gtileA d a b) s = .next (doneS s d (res rows 7))
      ∧ exec (.gtileB d a b) s = .next (doneS s d (res 7 cols))
      ∧ exec (.gtileG d b) s = .next (doneS s d (match ((myGroup s).map (·.members)).getD [] |>.drop e.toNat with
          | g :: _ => BitVec.ofNat 64 g
          | [] => BitVec.allOnes 64))
      ∧ ((∀ r, myGroup s = some r → r.members.Nodup) → ∃ w : Word, exec (.gtileMask d b) s = .next (doneS s d w)
        ∧ ∀ k : Fin 64, w.getLsbD k.val = true ↔ (e.toNat ≤ 2 ∧ ∃ r, myGroup s = some r
          ∧ s.focus.1 / 192 * 192 + 64 * e.toNat + k.val ∈ r.members))

/-! ## Contexts, frames, attention (R249-R281) -/

/-- R265, R267: without a pinned context of the fibre's own every frame instruction raises stack fault 7; with an empty stack `fpush`,
`farg`, `kvapp`, `vaccpt.ln` raise stack fault 4, as does `fret` below depth 2. R257, R258, R268-R274: `fpush` and `fpush.spec` at the depth limit, with a
capacity of 0, with no frame id or no fitting slots free, or pushing the lowest free id with the lowest slots that fit; `fret` at depth 1,
of no token, or of tokens whose pages are translated before the first token moves (`reachTokens`, `moveTokens`); `fshare.j`, `fshare.h`, `frel`, `farg` and the eight forms of `fpos`. -/
def Obligations.Frames : Prop :=
  ((∀ (s : State) (d a c : SReg) (b : SrcB) (v w : Fin 15) (l : Fin 16) (e : Fin 12) (k : PosKind), s.pair = none →
     handleReason s s.fib.ctx (· == 3) (fun _ => true) ≠ 0 ∨ pinnedAt s s.fib.ctx = none →
     exec (.fpush d b) s = .next (stackTrap s 7) ∧ exec (.fpushSpec d b) s = .next (stackTrap s 7) ∧ exec (.fret d a b) s = .next (stackTrap s 7)
       ∧ exec (.fshareJ a) s = .next (stackTrap s 7) ∧ exec (.fshareH a) s = .next (stackTrap s 7) ∧ exec (.frel a) s = .next (stackTrap s 7)
       ∧ exec (.farg a b c) s = .next (stackTrap s 7) ∧ exec (.fpos k d a) s = .next (stackTrap s 7)
       ∧ exec (.kvapp d v w c) s = .next (stackTrap s 7) ∧ exec (.kvappLn d v w c l) s = .next (stackTrap s 7)
       ∧ exec (.vaccptLn e a) s = .next (stackTrap s 7))
   ∧ ∀ (s : State) (area : Nat) (d a c : SReg) (b : SrcB) (v w : Fin 15) (e : Fin 12), s.pair = none → inContext s area →
     plainS s.fib a = true → plainS s.fib c = true → plainB s.fib b = true → plainPair s v = true → plainPair s w = true → s.fib.fdepth = 0 →
     exec (.fpush d b) s = .next (stackTrap s 4) ∧ exec (.fpushSpec d b) s = .next (stackTrap s 4) ∧ exec (.fret d a b) s = .next (stackTrap s 4)
       ∧ exec (.farg a b c) s = .next (stackTrap s 4) ∧ exec (.kvapp d v w c) s = .next (stackTrap s 4)
       ∧ exec (.vaccptLn e a) s = .next (stackTrap s 4))
  ∧ (∀ (s : State) (area : Nat) (d a c : SReg) (b : SrcB), s.pair = none → inContext s area → plainS s.fib a = true → plainS s.fib c = true →
       plainB s.fib b = true → openS s.fib d = true →
       let f := s.fib.fp.toNat
       let depth := s.fib.fdepth.toNat
       let x := (regVal s.fib a).toNat
       let y := (valB s.fib b).toNat
       let z := (regVal s.fib c).toNat
       let n := if x = 0 then f else x
       let j := if x = 0 then hdRoot s area else x
       (0 < depth → s.fib.fdlimit.toNat ≤ depth → exec (.fpush d b) s = .next (stackTrap s 1) ∧ exec (.fpushSpec d b) s = .next (stackTrap s 1))
       ∧ (0 < depth → depth < s.fib.fdlimit.toNat → y = 0 ∨ 2 ^ 24 ≤ y →
           exec (.fpush d b) s = .next (stackTrap s 3) ∧ exec (.fpushSpec d b) s = .next (stackTrap s 3))
       ∧ (0 < depth → depth < s.fib.fdlimit.toNat → 0 < y → y < 2 ^ 24 →
           ((∀ m, 1 ≤ m → m ≤ 127 → isFrame s area m) →
             exec (.fpush d b) s = .next (stackTrap s 3) ∧ exec (.fpushSpec d b) s = .next (stackTrap s 3))
           ∧ ((∃ m, 1 ≤ m ∧ m ≤ 127 ∧ ¬ isFrame s area m) →
               (∀ slot, slot % 16 = 0 → ¬ slotsFree s area slot ((y + 15) / 16 * 16) ((hdKvh s area).toNat % 2 ^ 24)) →
             exec (.fpush d b) s = .next (stackTrap s 3) ∧ exec (.fpushSpec d b) s = .next (stackTrap s 3))
           ∧ ∀ m slot : Nat, pushable s area m slot y →
             (2 ^ 24 ≤ frFirst s area f + frLen s area f →
               exec (.fpush d b) s = .next (stackTrap s 2) ∧ exec (.fpushSpec d b) s = .next (stackTrap s 2))
             ∧ (frFirst s area f + frLen s area f < 2 ^ 24 →
               (¬ pushObjects s area → exec (.fpush d b) s = .next (stackTrap s 7) ∧ exec (.fpushSpec d b) s = .next (stackTrap s 7))
               ∧ (pushObjects s area →
                 let rec_ := fun flags : Nat => frameBytes f flags (depth + 1) (frFirst s area f + frLen s area f) y (frLen s area f) slot
                   (hdKvh s area) (hdLaneh s area) s.fib.fibre.toNat
                 let t := fun flags : Nat => held (storeAt s (area + 128 * m) (rec_ flags) (selfAdder s)) area f
                 exec (.fpush d b) s = .next (doneS (onFrame (t 0) m (depth + 1)) d (BitVec.ofNat 64 m))
                   ∧ exec (.fpushSpec d b) s = .next (doneS (onFrame (t 1) m (depth + 1)) d (BitVec.ofNat 64 m)))))
       ∧ (depth = 1 → exec (.fret d a b) s = .next (stackTrap s 4))
       ∧ (2 ≤ depth → let p := frParent s area f
           let len := frLen s area p
           (1024 < y ∨ frLen s area f < x + y → exec (.fret d a b) s = .next (stackTrap s 6))
           ∧ (y ≤ 1024 → x + y ≤ frLen s area f → frCap s area p < len + y → exec (.fret d a b) s = .next (stackTrap s 3))
           ∧ (0 < y → y ≤ 1024 → x + y ≤ frLen s area f → len + y ≤ frCap s area p → 2 ^ 24 < frFirst s area p + len + y →
             exec (.fret d a b) s = .next (stackTrap s 2))
           ∧ (y = 0 → x ≤ frLen s area f → len ≤ frCap s area p →
             let t := recordPut s area p 8 4 len
             exec (.fret d a b) s = .next (doneS (onFrame (releaseHold t area f (selfAdder t)) p (depth - 1)) d (BitVec.ofNat 64 len)))
           ∧ ∀ u v : State, 0 < y → y ≤ 1024 → x + y ≤ frLen s area f → len + y ≤ frCap s area p → frFirst s area p + len + y ≤ 2 ^ 24 →
             let src := frSlot0 s area f + x
             let dst := frSlot0 s area p + len
             let lf := frLaneh s area f
             let lp := frLaneh s area p
             handleReason s (frKvh s area f) (· == 1) (fun bound => decide (src + y ≤ bound)) = 0 →
             handleReason s (frKvh s area p) (· == 1) (fun bound => decide (dst + y ≤ bound)) = 0 →
             lf = 0 ∨ lp = 0 ∨ (handleReason s lf (· == 2) (fun bound => decide (64 * (src + y) ≤ bound * 65536)) = 0
               ∧ handleReason s lp (· == 2) (fun bound => decide (64 * (dst + y) ≤ bound * 65536)) = 0) →
             let lanes := if lf = 0 ∨ lp = 0 then none else some (laneOf s lf, laneOf s lp)
             reachTokens (kvOf s (frKvh s area f)) (kvOf s (frKvh s area p)) lanes y src dst s = .ok ((), v) →
             moveTokens (kvOf s (frKvh s area f)) (kvOf s (frKvh s area p)) lanes y src dst (frFirst s area p + len) v = .ok ((), u) →
             recordsClean u area → u.pair = none → openS u.fib d = true →
             let t := recordPut u area p 8 4 (len + y)
             exec (.fret d a b) s = .next (doneS (onFrame (releaseHold t area f (selfAdder t)) p (depth - 1)) d (BitVec.ofNat 64 (len + y))))
       ∧ (¬ isFrame s area j → exec (.fshareJ a) s = .next (stackTrap s 5))
       ∧ (isFrame s area j → frParent s area j ≠ f → exec (.fshareJ a) s = .next (stackTrap s 4))
       ∧ (isFrame s area j → frParent s area j = f → s.fib.fdlimit.toNat ≤ depth → exec (.fshareJ a) s = .next (stackTrap s 1))
       ∧ (isFrame s area j → frParent s area j = f → depth < s.fib.fdlimit.toNat → exec (.fshareJ a) s = .next (goOn (onFrame
               (if j ≠ hdRoot s area then recordPut (held s area j) area j 2 1 (frFlags s area j ||| 2) else held s area j) j (depth + 1))))
       ∧ (¬ isFrame s area n → exec (.fshareH a) s = .next (stackTrap s 5) ∧ exec (.frel a) s = .next (stackTrap s 5)
           ∧ ∀ k, exec (.fpos k d a) s = .next (doneS s d 0))
       ∧ (isFrame s area n → exec (.fshareH a) s = .next (goOn (recordPut (held s area n) area n 0x3E 2 (frKeep s area n + 1)))
           ∧ (frKeep s area n = 0 → exec (.frel a) s = .next (stackTrap s 5))
           ∧ (frKeep s area n ≠ 0 → let t := recordPut s area n 0x3E 2 (frKeep s area n - 1)
               exec (.frel a) s = .next (goOn (releaseHold t area n (selfAdder t))))
           ∧ exec (.fpos .next d a) s = .next (doneS s d (BitVec.ofNat 64 (frFirst s area n + frLen s area n)))
           ∧ exec (.fpos .len d a) s = .next (doneS s d (BitVec.ofNat 64 (frLen s area n)))
           ∧ exec (.fpos .first d a) s = .next (doneS s d (BitVec.ofNat 64 (frFirst s area n)))
           ∧ exec (.fpos .cap d a) s = .next (doneS s d (BitVec.ofNat 64 (frCap s area n)))
           ∧ exec (.fpos .mark d a) s = .next (doneS s d (BitVec.ofNat 64 (frMark s area n)))
           ∧ exec (.fpos .parent d a) s = .next (doneS s d (BitVec.ofNat 64 (frParent s area n)))
           ∧ exec (.fpos .holds d a) s = .next (doneS s d (frHolds s area n - frRels s area n))
           ∧ exec (.fpos .info d a) s = .next (doneS s d (BitVec.ofNat 64 (1 + frFlags s area n * 2 ^ 8 + frDepth s area n * 2 ^ 16
             + frNarg s area n * 2 ^ 24 + frKeep s area n * 2 ^ 32))))
       ∧ (0 < depth → let k := frNarg s area f
           (4 ≤ k → exec (.farg a b c) s = .next (stackTrap s 3))
           ∧ (k < 4 → frLen s area f ≠ 0 ∨ n = f ∨ ¬ isFrame s area n → exec (.farg a b c) s = .next (stackTrap s 5))
           ∧ (k < 4 → frLen s area f = 0 → n ≠ f → isFrame s area n →
             (z = 0 ∨ frLen s area n < y + z → exec (.farg a b c) s = .next (stackTrap s 6))
             ∧ (0 < z → y + z ≤ frLen s area n → exec (.farg a b c) s = .next (goOn (held
                 (recordPut (recordPut s area f (0x40 + 8 * k) 8 (n + y * 2 ^ 8 + z * 2 ^ 32)) area f 0x3C 1 (k + 1)) area n))))))

/-- R265-R274: where the stack and the frames allow it, each frame instruction goes on to the next instruction, with `%fp` and `%fdepth` as its
rule says: a push makes the new frame the top of a stack one deeper, `fret` makes the parent the top of a stack one less deep, `fshare.j`
makes the joined frame the top; `fshare.h`, `frel` and `farg` leave both as they are; and `fpos` leaves all of memory too. -/
def Obligations.FrameInstructionsComplete : Prop :=
  ∀ (s : State) (area : Nat) (d a c : SReg) (b : SrcB), s.pair = none → inContext s area → plainS s.fib a = true → plainS s.fib c = true →
    plainB s.fib b = true → openS s.fib d = true →
    let f := s.fib.fp.toNat
    let x := (regVal s.fib a).toNat
    let y := (valB s.fib b).toNat
    let z := (regVal s.fib c).toNat
    let n := if x = 0 then f else x
    let j := if x = 0 then hdRoot s area else x
    let goesTo := fun (i : Instr) (fp : BitVec 7) (depth : BitVec 6) =>
      ∃ t, exec i s = .next t ∧ t.fib.pc = nextPc s.fib.pc ∧ t.fib.fp = fp ∧ t.fib.fdepth = depth
    let stays := fun i : Instr => goesTo i s.fib.fp s.fib.fdepth
    (∀ m slot : Nat, s.fib.fdepth ≠ 0 → s.fib.fdepth < s.fib.fdlimit → 0 < y → y < 2 ^ 24 → pushable s area m slot y → pushObjects s area →
      frFirst s area f + frLen s area f < 2 ^ 24 →
      goesTo (.fpush d b) (BitVec.ofNat 7 m) (s.fib.fdepth + 1) ∧ goesTo (.fpushSpec d b) (BitVec.ofNat 7 m) (s.fib.fdepth + 1))
    ∧ (let p := frParent s area f
      2 ≤ s.fib.fdepth.toNat → y = 0 → x ≤ frLen s area f → frLen s area p ≤ frCap s area p →
      goesTo (.fret d a b) (BitVec.ofNat 7 p) (s.fib.fdepth - 1))
    ∧ (isFrame s area j → frParent s area j = f → s.fib.fdepth < s.fib.fdlimit → goesTo (.fshareJ a) (BitVec.ofNat 7 j) (s.fib.fdepth + 1))
    ∧ (isFrame s area n → stays (.fshareH a) ∧ (frKeep s area n ≠ 0 → stays (.frel a)))
    ∧ (s.fib.fdepth ≠ 0 → frNarg s area f < 4 → frLen s area f = 0 → n ≠ f → isFrame s area n → 0 < z → y + z ≤ frLen s area n →
      stays (.farg a b c))
    ∧ ∀ k, ∃ t, exec (.fpos k d a) s = .next t ∧ t.fib.pc = nextPc s.fib.pc ∧ t.fib.fp = s.fib.fp ∧ t.fib.fdepth = s.fib.fdepth ∧ t.mem = s.mem

/-- R262, R272: `kvapp` and `kvapp.ln` on a full frame, on a token of 24 bits or more, or, for `.ln`, on a frame without a lane object raise
their stack faults; else every page of the token is translated before the first write (`reachRow`, `reachToken`, R267), and where those
translations and the writes of the token store go through, the key, the value and the tag are written at the slot's places, the frame is one
token longer, and the result is the token's position. -/
def Obligations.AppendTokens : Prop :=
  ∀ (s : State) (area : Nat) (d c : SReg) (a b : Fin 15) (l : Fin 16), s.pair = none → inContext s area → plainS s.fib c = true →
    plainPair s a = true → plainPair s b = true → plainV s.fib l = true → s.fib.fdepth ≠ 0 →
    let f := s.fib.fp.toNat
    let tok := (regVal s.fib c).toNat
    let len := frLen s area f
    let pos := frFirst s area f + len
    let slot := frSlot0 s area f + len
    let h := frKvh s area f
    let kv := kvOf s h
    (len = frCap s area f → exec (.kvapp d a b c) s = .next (stackTrap s 3) ∧ exec (.kvappLn d a b c l) s = .next (stackTrap s 3))
    ∧ (len ≠ frCap s area f → 2 ^ 24 ≤ pos → exec (.kvapp d a b c) s = .next (stackTrap s 2) ∧ exec (.kvappLn d a b c l) s = .next (stackTrap s 2))
    ∧ (len ≠ frCap s area f → pos < 2 ^ 24 → 2 ^ 24 ≤ tok → exec (.kvapp d a b c) s = .next (stackTrap s 6)
        ∧ exec (.kvappLn d a b c l) s = .next (stackTrap s 6))
    ∧ (len ≠ frCap s area f → pos < 2 ^ 24 → tok < 2 ^ 24 → frLaneh s area f = 0 → exec (.kvappLn d a b c l) s = .next (stackTrap s 7))
    ∧ (len ≠ frCap s area f → pos < 2 ^ 24 → tok < 2 ^ 24 → handleReason s h (· == 1) (fun bound => decide (slot + 1 ≤ bound)) = 0 →
      let g := 65536 * ((8 * kv.slots + 65535) / 65536)
      let write := fun (s0 s3 : State) => ∃ s1 s2 : State,
        tokenWrite kv (g + 4096 * (slot / 16) + 128 * (slot % 16)) (pairBytes s a) s0 = .ok ((), s1)
          ∧ writeValue kv slot 0 (pairsOf (pairBytes s b)) s1 = .ok ((), s2)
          ∧ tokenWrite kv (8 * slot) (bytesOf 8 (2 ^ 63 + tok * 2 ^ 32 + pos)) s2 = .ok ((), s3)
      let last := fun u : State => recordPut u area f 8 4 (len + 1)
      (∀ v u, reachToken kv accStore slot s = .ok ((), v) → write v u → (last u).pair = none → openS (last u).fib d = true →
          exec (.kvapp d a b c) s = .next (doneS (last u) d (BitVec.ofNat 64 pos)))
        ∧ ∀ w v s0 u, frLaneh s area f ≠ 0 →
          handleReason s (frLaneh s area f) (· == 2) (fun bound => decide (64 * (slot + 1) ≤ bound * 65536)) = 0 →
          reachRow (laneOf s (frLaneh s area f)) accStore slot s = .ok ((), w) → reachToken kv accStore slot w = .ok ((), v) →
          tokenWrite (laneOf s (frLaneh s area f)) (64 * slot) (laneBytes s.fib.v[l]) v = .ok ((), s0) →
          write s0 u → (last u).pair = none → openS (last u).fib d = true →
          exec (.kvappLn d a b c l) s = .next (doneS (last u) d (BitVec.ofNat 64 pos)))

/-- R276-R279: `atbeg`, `atstep` and `atend` on a pair of accumulators that the fibre does not claim trap with cause 0x09, reason 1, and the
latter two on a pair whose VALID is 0 with reason 3. `atbeg` without frequencies sets up the state; `atstep` first advances while
the keys of a run are done, through arguments and ancestors; at the end of all runs it answers 0, and within a run takes the keys up to the next multiple of 16; `atend` divides. INDEX 0 at
the end of all runs is the model's choice (log 100). -/
def Obligations.Attention : Prop :=
  (∀ (s : State) (a d : Fin 15) (b : SrcB) (r : SReg) (n : Fin 4) (h : Fin 2), s.pair = none → hasAcc s.fib (accLo n) = false →
    let t := trapsWith s 9 (BitVec.ofNat 64 (0x140 + 2 * n.val))
    exec (.atbeg a b n) s = .next t ∧ exec (.atstep r n) s = .next t ∧ exec (.atend d n h) s = .next t)
  ∧ ∀ (s : State) (area : Nat) (a d : Fin 15) (b : SrcB) (r : SReg) (n : Fin 4) (h : Fin 2), s.pair = none → inContext s area →
    goodAcc s (accLo n) = true → goodAcc s (accHi n) = true → plainPair s a = true → plainB s.fib b = true → openS s.fib r = true →
    let f := s.fib.fp.toNat
    let lo := accOf s (accLo n)
    let hi := accOf s (accHi n)
    let put := fun (x y : Acc) => newAcc (newAcc s (accLo n) x) (accHi n) y
    let qp := (valB s.fib b).toNat
    let q := fun i : Nat => ((pairBytes s a).drop (2 * i)).take 2
    (s.fib.fdepth = 0 → exec (.atbeg a b n) s = .next (stackTrap s 4))
    ∧ (s.fib.fdepth ≠ 0 → 2 ^ 24 ≤ qp → exec (.atbeg a b n) s = .next (stackTrap s 2))
    ∧ (s.fib.fdepth ≠ 0 → qp < 2 ^ 24 → s.fib.rope = 0 → ∃ x y : Acc, exec (.atbeg a b n) s = .next (goOn (put x y))
        ∧ (∀ i : Fin 64, x[i] = BitVec.ofNat 64 (natOf (q i.val) * 2 ^ 48))
        ∧ y[0] = 0xFF800000
        ∧ y[1] = BitVec.ofNat 64 ((if qp < frFirst s area f then 0 else Nat.min (frLen s area f) (qp - frFirst s area f + 1)) * 2 ^ 32 + f)
        ∧ y[2] = BitVec.ofNat 64 (2 ^ 63 + f * 2 ^ 48 + frLen s area f * 2 ^ 24 + qp) ∧ ∀ i : Fin 64, 3 ≤ i.val → y[i] = 0)
    ∧ (hi[2].getLsbD 63 = false → exec (.atstep r n) s = .next (trapsWith s 9 (BitVec.ofNat 64 (0x340 + 2 * n.val)))
        ∧ exec (.atend d n h) s = .next (trapsWith s 9 (BitVec.ofNat 64 (0x340 + 2 * n.val))))
    ∧ (hi[2].getLsbD 63 = true →
      (∀ (moves : Nat) (run : Run), moves ≤ 256 → advancesIn s area (hi[2].extractLsb' 48 7).toNat moves (runFrom hi[1]) run →
      let slot := frSlot0 s area run.frame
      let kvh := frKvh s area run.frame
      let e := Nat.min run.limit (16 * (run.index / 16 + 1))
      (6 ≤ run.phase → exec (.atstep r n) s = .next (doneS (newAcc s (accHi n) (hi.set 1 (runWord run))) r 0))
      ∧ (run.phase < 6 → run.index < run.limit → handleReason s kvh (· == 1) (fun bound => decide (slot + e ≤ bound)) = 0 →
        ∀ ks, readKeys (kvOf s kvh) (accFreqs hi) (e - run.index) (slot + run.index) s = .ok (ks, s) →
          let p := putSums lo hi (foldKeys (lo.toList.map slotHi) (lo.toList.map slotLo) (slotLo hi[0]) (slotHi hi[0]) ks)
            ⟨run.phase, run.limit, e, run.frame⟩
          exec (.atstep r n) s = .next (doneS (put p.1 p.2) r (BitVec.ofNat 64 (e - run.index)))))
      ∧ (openV s.fib (Fin.castLE (by omega) d) = true → openV s.fib ⟨d.val + 1, by omega⟩ = true →
        let out := fun i : Nat => if (slotHi hi[0]).toNat % 2 ^ 31 = 0 then (0 : Lane) else divRne (slotLo lo[Fin.ofNat 64 (32 * h.val + i)]) (slotHi hi[0])
        let g := putV (putV s.fib (Fin.castLE (by omega) d) (vecOf fun i : Fin 16 => out i.val)) ⟨d.val + 1, by omega⟩
          (vecOf fun i : Fin 16 => out (16 + i.val))
        exec (.atend d n h) s = .next (goOn { s with fib := g })))

/-- R280, R281: `sctpin` through a segment that is not of the cluster class traps with cause 0x06; an entry in use answers 2 or 1, an image
that is not that of the handle 3; else the image is copied, its granules are guarded and the entry is pinned, with the answer 0. `sctevict`
answers 1 where the entry is not that of the handle, 2 where it is cooling or evicting, and else makes it cooling. Bits 55:0 of `%taddr` of
the handle's trap are 0 by the model's choice (log 99). -/
def Obligations.PinAndEvict : Prop :=
  (∀ (s : State) (d b c : SReg) (m : CRef), s.pair = none → plainS s.fib m.a = true → plainS s.fib b = true → plainS s.fib c = true →
    openS s.fib d = true →
    let g := s.fib.seg[m.sg]
    let o := offC s.fib m
    let h := regVal s.fib b
    let rs := (regVal s.fib c).toNat
    let addr := g.base.toNat + o.toNat
    let at_ := clusterLoc (s.focus.1 / 192) addr
    (g.cls ≠ 1 → exec (.sctpin d m b c) s = .next (trapsWith s 6 o))
    ∧ (g.cls = 1 → rangeBad s g o (16384 + rs) 16384 rightWr = none →
      (o.toNat % 16384 ≠ 0 ∨ 0x18000 < addr % 131072 ∨ rs % 64 ≠ 0 ∨ 2097152 < rs → exec (.sctpin d m b c) s = .next (trapsWith s 6 o))
      ∧ (o.toNat % 16384 = 0 → addr % 131072 ≤ 0x18000 → rs % 64 = 0 → rs ≤ 2097152 →
        let r := handleReason s h (· == 3) fun bound => decide (16384 + rs ≤ bound * 65536)
        (r ≠ 0 → exec (.sctpin d m b c) s = .next (trapsWith s 0x0D (reasonWord r 0)))
        ∧ (r = 0 → sctState s h ≠ 0 → exec (.sctpin d m b c) s = .next (doneS s d (if sctHandle s h = h then 2 else 1)))
        ∧ ∀ l, r = 0 → sctState s h = 0 → translate (handleCur s h) (16384 + rs) 0 accLoad s = .ok (l, s) →
          (∀ p ∈ l, isDpa p.1 = true ∧ backed s p.1 = true ∧ linkStateOf s p.1 = 2) → s.poison = [] → s.latent = [] → s.ports = [] →
          let img := l.flatMap fun p => readBytes s p.1 p.2
          let root := fieldAt img 0x18 1
          let good := fieldAt img 0 8 = h.toNat ∧ 1 ≤ root ∧ root ≤ 127 ∧ fieldAt img (128 * root + 1) 1 = 1
          (¬ good → exec (.sctpin d m b c) s = .next (doneS s d 3))
          ∧ (good → let t := storeAt s at_ img ⟨1, s.focus.1, 0⟩
            let u := writeBytes { t with guards := s.guards ++ granulesOf at_ } (sctLoc h)
              (bytesOf 8 h.toNat ++ bytesOf 4 addr ++ bytesOf 2 (s.focus.1 / 192) ++ [1, 0] ++ bytesOf 4 rs)
            u.pair = none → openS u.fib d = true → exec (.sctpin d m b c) s = .next (doneS u d 0)))))
  ∧ ∀ (s t : State) (d b : SReg) (m : CRef) (a : Nat), s.pair = none → plainS s.fib m.a = true → plainS s.fib b = true →
    counterWord m.sg (offC s.fib m) s = .ok (a, s) →
    let h := regVal s.fib b
    let r := handleReason s h (· == 3) fun _ => true
    (r ≠ 0 → exec (.sctevict d m b) s = .next (trapsWith s 0x0D (reasonWord r 0)))
    ∧ (r = 0 → released s true .mod = some t → t.pair = none → openS t.fib d = true →
      (sctHandle t h ≠ h ∨ sctState t h = 0 ∨ 3 < sctState t h → exec (.sctevict d m b) s = .next (doneS t d 1))
      ∧ (sctHandle t h = h → sctState t h = 2 ∨ sctState t h = 3 → exec (.sctevict d m b) s = .next (doneS t d 2))
      ∧ (sctHandle t h = h → sctState t h = 1 →
        let cl := homeOf a / 192
        let u := writeNat (writeNat t (sctLoc h + 0x0E) 1 2) (sctLoc h + 0x18) 8 (cl * 2 ^ 25 + (a - clusterLoc cl 0))
        let e : Evict := { entry := h.toNat / 2 ^ 24 % 2 ^ 20 % 65536, g := t.focus.1, f := t.fib.fibre.toNat % 4096, tenant := t.fib.tenant, ctr := a }
        exec (.sctevict d m b) s = .next (doneS { u with evicts := u.evicts ++ [e] } d 0)))

/-! ## Sampling (R288-R293) -/

/-- R289, R292: `rngx` mixes its key and counter as R289 says; `vaccpt.p` and `vaccpt.e` answer the number of leading lanes that pass. R290, R291, R293: `vtopk` keeps the K best of the kept entries and the new candidates, by value descending, -0 equal to +0, then by id;
`vsamp` is greedy or draws the first token whose cumulative weight exceeds the scaled random word; `vaccpt.ln` reads the lane row of a
token of the current frame. -/
def Obligations.Sampling : Prop :=
  ((∀ (s : State) (d a : SReg) (b : SrcB), s.pair = none → plainS s.fib a = true → plainB s.fib b = true → openS s.fib d = true →
     let x := ((regVal s.fib a).toNat ^^^ (((valB s.fib b).toNat + 1) * 0x9E3779B97F4A7C15 % 2 ^ 64)) % 2 ^ 64
     let y := (x ^^^ (x / 2 ^ 30)) * 0xBF58476D1CE4E5B9 % 2 ^ 64
     let z := (y ^^^ (y / 2 ^ 27)) * 0x94D049BB133111EB % 2 ^ 64
     exec (.rngx d a b) s = .next (doneS s d (BitVec.ofNat 64 (z ^^^ (z / 2 ^ 31)))))
   ∧ ∀ (s : State) (n : Fin 16) (d : SReg) (a b c : Fin 16), s.pair = none → plainV s.fib a = true → plainV s.fib b = true →
     plainV s.fib c = true → openS s.fib d = true →
     let counts := fun (m : Nat) (ok : Fin 16 → Prop) => m ≤ n.val + 1 ∧ (∀ i : Fin 16, i.val < m → ok i) ∧ ∀ i : Fin 16, i.val = m → m ≤ n.val → ¬ ok i
     (∃ m, exec (.vaccptP n d a b c) s = .next (doneS s d (BitVec.ofNat 64 m))
         ∧ counts m fun i => ltVal (prodF s.fib.v[c][i] s.fib.v[b][i]) (f32Val s.fib.v[a][i]) = true)
       ∧ ∃ m, exec (.vaccptE n d a b) s = .next (doneS s d (BitVec.ofNat 64 m)) ∧ counts m fun i => s.fib.v[a][i] = s.fib.v[b][i])
  ∧ ((∀ (s : State) (k : Fin 8) (d : Fin 12) (a : Fin 16) (b : SrcB) (c : SReg), s.pair = none → plainV s.fib a = true → plainB s.fib b = true →
       plainS s.fib c = true → plainV s.fib (lowV d) = true →
       let old := s.fib.v[lowV d]
       let new := s.fib.v[a]
       let base := (valB s.fib b).toNat
       let good := fun e : Lane × Lane => e.2 ≠ 0xFFFFFFFF ∧ isNan e.1 = false
       let cand := (((List.range (k.val + 1)).map fun j => (old[Fin.ofNat 16 j], old[Fin.ofNat 16 (8 + j)]))
         ++ (List.range (Nat.min (regVal s.fib c).toNat 16)).map fun i => (new[Fin.ofNat 16 i], BitVec.ofNat 32 (base + i))).filter fun e => decide (good e)
       ∃ (l : List (Lane × Lane)) (v : VReg), l.Perm cand
         ∧ l.Pairwise (fun e f => f32Key false f.1 < f32Key false e.1 ∨ (f32Key false f.1 = f32Key false e.1 ∧ e.2.toNat ≤ f.2.toNat))
         ∧ (∀ j : Fin 8, (v[j.val], v[8 + j.val]) = if j.val < k.val + 1 then nth l j.val (0xFF800000, 0xFFFFFFFF) else (0xFF800000, 0xFFFFFFFF))
         ∧ exec (.vtopk k d a b c) s = .next (doneV s (lowV d) v))
     ∧ (∀ (s : State) (d : SReg) (a : Fin 16) (b : SrcB) (c : SReg), s.pair = none → plainV s.fib a = true → plainB s.fib b = true →
       plainS s.fib c = true → openS s.fib d = true →
       let val := fun j : Nat => s.fib.v[a][Fin.ofNat 16 j]
       let id := fun j : Nat => s.fib.v[a][Fin.ofNat 16 (8 + j)]
       let t : Lane := (valB s.fib b).setWidth 32
       let draws := fun r : Lane => exec (.vsamp d a b c) s = .next (doneS s d (r.zeroExtend 64))
       (id 0 = 0xFFFFFFFF → draws 0xFFFFFFFF)
       ∧ (id 0 ≠ 0xFFFFFFFF → isNan t = true ∨ t = 0x7F800000 ∨ t.msb = true ∨ t = 0 ∨ val 0 = 0x7F800000 ∨ val 0 = 0xFF800000 → draws (id 0))
       ∧ ∀ n, n ≤ 8 → 0 < n → (∀ j, j < n → id j ≠ 0xFFFFFFFF) → (n < 8 → id n = 0xFFFFFFFF) → isNan t = false → t ≠ 0x7F800000 → t.msb = false →
         t ≠ 0 → val 0 ≠ 0x7F800000 → val 0 ≠ 0xFF800000 →
         let p := fun j : Nat => rnexp (divRne (f32Sub .rne (val j) (val 0)) t)
         ∀ cum : Nat → Lane, cum 0 = f32Add .rne 0 (p 0) → (∀ j, cum (j + 1) = f32Add .rne (cum j) (p (j + 1))) →
           let u := roundVal .rne (mulVal (.fin false ((regVal s.fib c).extractLsb' 40 24).toNat (-24)) (f32Val (cum (n - 1))))
           (∀ j, j < n → ltF u (cum j) = true → (∀ i, i < j → ltF u (cum i) = false) → draws (id j))
           ∧ ∀ j, j < n → (∀ i, i < n → ltF u (cum i) = false) → (p j).toNat % 2 ^ 31 ≠ 0 → (∀ i, j < i → i < n → (p i).toNat % 2 ^ 31 = 0) →
             draws (id j))
     ∧ ∀ (s : State) (area : Nat) (d : Fin 12) (a : SReg), s.pair = none → inContext s area → plainS s.fib a = true → s.fib.fdepth ≠ 0 →
       openV s.fib (lowV d) = true →
       let f := s.fib.fp.toNat
       let i := (regVal s.fib a).toNat
       let slot := frSlot0 s area f + i
       let h := frLaneh s area f
       (frLen s area f ≤ i → exec (.vaccptLn d a) s = .next (stackTrap s 6))
       ∧ (i < frLen s area f → h = 0 → exec (.vaccptLn d a) s = .next (stackTrap s 7))
       ∧ ∀ bs, i < frLen s area f → h ≠ 0 → handleReason s h (· == 2) (fun bound => decide (64 * (slot + 1) ≤ bound * 65536)) = 0 →
         tokenRead ⟨0x22, handleCur s h, h.toNat % 2 ^ 24⟩ (64 * slot) 64 s = .ok (bs, s) →
         exec (.vaccptLn d a) s = .next (doneV s (lowV d) (vecOf fun k : Fin 16 => BitVec.ofNat 32 (natOf ((bs.drop (4 * k.val)).take 4)))))


/-! ## Events (R9): each happens as its rule says where its condition holds, and where it fails nothing changes -/

/-- FETCH_LINE_ARRIVAL brings the line that a slot lacks into the fetch buffer, behind what the ports on its path have accepted (R118), or posts
the miss that its fetch meets; REPLY_COMPLETION
brings a waiting fibre back into the rotation once its translation, its room or its publish is there (R54, R55, R60, R131, R397);
FIBRE_BIND binds the eldest ready fibre that the free slot admits and reads its pattern records (R53, R60, R94); SWAP_THRESHOLD takes out a
fibre that has slept 16,384 cycles while another could bind (R62); PRE_EMPTION takes out the fibre of a slot that the arbiter has taken,
unless an instruction of it has issued and is not complete, its next line has not arrived or the matrix unit still works for it (R55, R61,
R141, R191); RECORD_WRITE_COMPLETE writes STATE last, then posts the service entry
of a `sysc`, or enlists a fibre that is ready or whose wake has come (R59-R61, R148); PARITY_REFETCH, BUDGET_OVERRUN and
ENGINE_TRAP_DELIVERY (R32, R47, R66, R138, R352). -/
def Obligations.SlotEvents : Prop :=
  (∀ (s : State) (g f : Nat) (k : Fin 16),
    let x := getCtx s g k
    let on := (getCore s g).slots[k].bound = true
    let asked := ∃ m ∈ (getCore s g).mailbox, m.rq = 0 ∧ m.who = fibIndex x
    let back := fun u : State => setCtx u g k { getCtx u g k with status := .run, want := none }
    let wanted := x.want.getD x.pc
    (on → (x.status = .waiting .fetch ∧ ¬ asked) ∨ (x.status = .run ∧ lineReady s g x = false) →
      (∀ loc w t, fetchLine s g x (lineOf wanted) wanted = (.line loc w, t) →
        let u := clearPath t g loc
        (pathClear u g loc = true → exec (.fetchLineArrival g k.val) s = .next (back (addLine u g x.tenant (lineOf wanted) loc)))
          ∧ (pathClear u g loc = false → exec (.fetchLineArrival g k.val) s = .next s))
      ∧ ∀ m t u, fetchLine s g x (lineOf wanted) wanted = (.miss m, t) → postMiss t g m = some u →
        exec (.fetchLineArrival g k.val) s = .next (setCtx u g k { x with status := .waiting .fetch }))
    ∧ (on → x.status = .run → lineReady s g x = true → exec (.fetchLineArrival g k.val) s = .next s)
    ∧ (on → x.status = .waiting .room ∨ (x.status = .waiting .miss ∧ ¬ asked) → exec (.replyCompletion g k.val) s = .next (back s))
    ∧ (∀ sc b, on → x.status = .waiting (.publish sc b) → let t := pushPublish s g sc b
        exec (.replyCompletion g k.val) s = .next (if publishDone t g sc b then back t else t))
    ∧ ((¬ on ∨ asked) → x.status = .waiting .fetch → exec (.fetchLineArrival g k.val) s = .next s)
    ∧ ((¬ on ∨ asked) → x.status = .waiting .miss → exec (.replyCompletion g k.val) s = .next s)
    ∧ (on → exec (.fibreBind g k.val) s = .next s)
    ∧ (∀ a b, ¬ on → present s g = true → (getCore s g).ready = a ++ f :: b → mayBind s g k f = true → (∀ e ∈ a, mayBind s g k e = false) →
        recordClean s g f = true → exec (.fibreBind g k.val) s = .next (atSlot (bindFibre s g k f) g k rereadStreams))
    ∧ (∀ w since, on → x.status = .sleeping w since →
        ((∃ f ∈ (getCore s g).ready, mayBind s g k f = true) → since + 16384 ≤ cycOf s g →
          exec (.swapThreshold g k.val) s = .next (takeOff s g k .swapped))
        ∧ (cycOf s g < since + 16384 ∨ (∀ f ∈ (getCore s g).ready, mayBind s g k f = false) → exec (.swapThreshold g k.val) s = .next s)
        ∧ ((getCore s g).slots[k].taker ≠ none → exec (.preEmption g k.val) s = .next (takeOff s g k .swapped)))
    ∧ (on → x.status = .run → (getCore s g).slots[k].taker ≠ none → betweenInstrs x = true → lineReady s g x = true →
        (getCore s g).slots[k].busy ≤ cycOf s g → exec (.preEmption g k.val) s = .next (takeOff s g k .ready))
    ∧ ((getCore s g).slots[k].taker = none ∨ (∃ w, x.status = .waiting w)
        ∨ (x.status = .run ∧ (betweenInstrs x = false ∨ lineReady s g x = false ∨ cycOf s g < (getCore s g).slots[k].busy)) →
        exec (.preEmption g k.val) s = .next s)
    ∧ (∀ i, fibreInfo s g f = some i →
        let t := setFibreInfo (writeState s i.loc 5) g f { i with writing := false, state := .swapped, call := none }
        (i.writing = false → exec (.recordWriteComplete g f) s = .next s)
        ∧ (i.writing = true → i.state = .ready ∨ i.state = .swapped →
          (∀ n, i.call = some n → exec (.recordWriteComplete g f) s =
            .next ((postService t g f (BitVec.ofNat 12 (readNat s (i.loc + 0x58) 4)) n).getD s))
          ∧ (i.call = none → i.state = .ready ∨ i.wake ≠ none → exec (.recordWriteComplete g f) s = .next (enlist t g f))
          ∧ (i.call = none → i.state ≠ .ready → i.wake = none → exec (.recordWriteComplete g f) s = .next t)))
    ∧ (x.status = .run → lineReady s g x = false ∨ cycOf s g < (getCore s g).slots[k].busy ∨ betweenInstrs x = false →
        exec (.budgetOverrun g k.val) s = .next s ∧ exec (.engineTrapDelivery g k.val) s = .next s)
    ∧ (on → (x.status = .run ∧ lineReady s g x = true ∧ (getCore s g).slots[k].busy ≤ cycOf s g) ∨ drainEnds x = true → x.delivery = none →
        betweenInstrs x = true →
        (x.due = true → exec (.budgetOverrun g k.val) s
          = .next (atSlot s g k fun t => trapsWith { t with fib := { t.fib with due := false } } 0x0E 0))
        ∧ (x.due = false → exec (.budgetOverrun g k.val) s = .next s
          ∧ ∀ a, (setFocus s g k).fib.pend = some a → (setFocus s g k).fib.tcause = 0 → exec (.engineTrapDelivery g k.val) s
            = .next (atSlot s g k fun t => trapsWith { t with fib := { t.fib with pend := none } } 0x0F a))))
  ∧ ∀ (s t : State) (loc w : Nat) (u : State) (g : Nat) (k : Fin 16),
    let i := instrNo t.fib.pc
    let brought := fun x : State => addLine (clearPath x g loc) g x.fib.tenant (lineOf x.fib.pc) loc
    let v := brought t
    t = setFocus s g k → (getCore s g).slots[k].bound = true → t.fib.status = .waiting .refetch →
      fetchLine t g t.fib (lineOf t.fib.pc) t.fib.pc = (.line loc w, u) →
      (pathClear (clearPath t g loc) g loc = false → exec (.parityRefetch g k.val) s = .next (atSlot s g k fun x => x))
      ∧ (pathClear (clearPath t g loc) g loc = true → (getCore v g).slots[k].fetchErr = false →
      (parityGood v loc w i = true → (pairBit w i = true → parityGood v loc w (i + 1) = true) →
        exec (.parityRefetch g k.val) s = .next (atSlot s g k fun x => let y := brought x
          { y with fib := { y.fib with status := .run, want := none, failed := false } }))
      ∧ (parityGood v loc w i = false →
        exec (.parityRefetch g k.val) s = .next (atSlot s g k fun x => trapsWith (bumpDie (brought x) (dieOf g) 0x28 1) 4 x.fib.pc))
      ∧ (parityGood v loc w i = true → pairBit w i = true → parityGood v loc w (i + 1) = false →
        exec (.parityRefetch g k.val) s = .next (atSlot s g k fun x => trapsWith (bumpDie (brought x) (dieOf g) 0x28 1) 4 (nextPc x.fib.pc))))

/-- The store buffer gives up an entry in the order of its stores, to the serialiser of its own cluster or to the cluster's memory port
(R116, R118, R119); a posted add arrives after the earlier ones of its core to one
home, and a wake completes the sleeper (R96, R98, R103, R111); polls (R101, R102), a fibre's and a proxy's behind what the ports on their path
have accepted (R118); a stream refills an element, or stops at it (R92); a TLB drops an entry
(R234); soft errors (R82, R144); the speed table (R21). That a draining entry takes the core's cached line of its block with it is the model's
choice, log 31; that a single-bit error is counted and gone only once its word or register is read, and which reads those are, is log 59. -/
def Obligations.CoreEvents : Prop :=
  (∀ (s : State) (g i : Nat) (e : SbEntry), (getCore s g).sb[i]? = some e →
    let c := getCore s g
    let gone := setCore s g { c with sb := c.sb.eraseIdx i, cache := c.cache.filter fun l => l.block != e.block }
    ((∃ f ∈ c.sb.take i, f.block = e.block) → exec (.storeBufferDrain g i) s = .next s)
    ∧ ((∀ f ∈ c.sb.take i, f.block ≠ e.block) → e.toxic = [] →
        ((∀ w ∈ e.writes, nearHome g (e.block + w.off) = true) →
          exec (.storeBufferDrain g i) s = .next (e.writes.foldl (fun u w => storeAt u (e.block + w.off) w.bytes w.who) gone))
        ∧ ((∀ w ∈ e.writes, nearHome g (e.block + w.off) = false) → exec (.storeBufferDrain g i) s =
          .next { gone with accepts := s.accepts + e.writes.length, ports := s.ports ++ e.writes.mapIdx fun n w =>
            { core := g, serial := e.serial, loc := e.block + w.off, bytes := w.bytes, who := w.who, act := w.act, life := w.life
              num := s.accepts + n } })))
  ∧ (∀ (s : State) (i : Nat) (m : CtrMsg), s.msgs[i]? = some m →
    let u := correctRead { s with msgs := s.msgs.eraseIdx i } m.loc 8
    ((∃ e ∈ s.msgs.take i, e.src = m.src ∧ homeOf e.loc = homeOf m.loc) → exec (.counterAddAtHome i) s = .next s)
    ∧ ((∀ e ∈ s.msgs.take i, e.src = m.src → homeOf e.loc ≠ homeOf m.loc) → isToxic u m.loc = false →
        exec (.counterAddAtHome i) s = .next (setCounter u m.loc (readWord u m.loc + m.inc) m.who)))
  ∧ (∀ (s : State) (i g f : Nat) (w : Wake), s.wakes[i]? = some (g, f, w) →
    let u := { s with wakes := s.wakes.eraseIdx i }
    (justLeft s g f = true → exec (.wakeDelivery i) s = .next s)
    ∧ (∀ k z n, justLeft s g f = false → slotOfFibre s g f = some k → (getCtx s g k).status = .sleeping z n →
      exec (.wakeDelivery i) s = .next (setCtx u g k { getCtx s g k with status := .run, wake := some w }))
    ∧ ∀ x v, justLeft s g f = false → slotOfFibre s g f = none → fibreInfo s g f = some x → x.state = .swapped → x.wake = none → w = .value v →
      let t := setFibreInfo (writeWord u (x.loc + 0x10) v) g f { x with wake := some w, drain := none }
      exec (.wakeDelivery i) s = .next (if x.writing then t else enlist t g f))
  ∧ (∀ (s : State) (g f i : Nat) (e : Enrol) (k : Fin 16), e.poll = true → isToxic s e.loc = false → s.latent = [] →
    let v := readWord s e.loc
    let left := s.enrol.filter fun x => x != e
    (∀ h, (e.who = .fibre g f ∧ h = exec (.pollTest g f) s ∧ s.enrol.find? (fun x => x.poll && isFibreWaiter g f x.who) = some e
          ∧ slotOfFibre s g f = some k)
        ∨ (e.who = .proxy g f ∧ h = exec (.deviceWaiterPoll i) s ∧ s.enrol[i]? = some e) →
      let t := clearPath s g e.loc
      let u := readWord t e.loc
      (pathClear t g e.loc = false → h = .next s)
      ∧ (pathClear t g e.loc = true → isToxic t e.loc = false → t.latent = [] →
        (e.who = .fibre g f → slotOfFibre t g f = some k ∧ ∀ x, fibreInfo t g f = some x → x.ticket = none) →
        let left := t.enrol.filter fun x => x != e
        (reached u e.thr = true → (e.who = .fibre g f → h = .next { t with enrol := left, wakes := t.wakes ++ [(g, f, .value u)] })
          ∧ (e.who = .proxy g f → h = .next { t with enrol := left, fired := t.fired ++ [(e.who, some u)] }))
        ∧ (reached u e.thr = false → h = .next t)))
    ∧ (s.enrol[i]? = some e → e.who = .notify g ∨ e.who = .gate g →
      (reached v e.thr = true → exec (.deviceWaiterPoll i) s = .next { s with enrol := left, fired := s.fired ++ [(e.who, some v)] })
      ∧ (reached v e.thr = false → exec (.deviceWaiterPoll i) s = .next s)))
  ∧ (∀ (s t : State) (g : Nat) (k : Fin 16) (p : Fin 4) (q : Pattern) (a : Nat),
    let r := t.fib.streams[p]
    let z := sizeBytes q.esize
    let j := r.index.toNat + r.buf.length
    t = setFocus s g k → (getCore s g).slots[k].bound = true → r.pat = some q → rereadStreams t = t →
      let stopped := ∃ n, r.halt = some n ∧ r.index.toNat ≤ n
      (r.armed = false ∨ r.out = true ∨ r.again = true ∨ q.total ≤ j ∨ 128 < (r.buf.length + 1) * z ∨ stopped → refillNext p t = t)
      ∧ (r.armed = true → r.out = false → r.again = false → j < q.total → (r.buf.length + 1) * z ≤ 128 → ¬ stopped →
        (∀ e, resolve r.dseg (q.off j) z z rightRd accLoad t = .error e → exec (.streamRefill g k.val p) s =
          .next (atSlot s g k fun v => { v with fib := { v.fib with streams := v.fib.streams.set p { r with halt := some j } } }))
        ∧ (resolve r.dseg (q.off j) z z rightRd accLoad t = .ok ([(a, z)], t) → readable t a z false = true →
          let r' := { r with buf := r.buf ++ [{ bytes := visible t a z false, toxic := none }] }
          exec (.streamRefill g k.val p) s = .next (atSlot s g k fun v =>
            let u := readPast v a z none
            { u with fib := { u.fib with streams := u.fib.streams.set p r' } }))))
  ∧ (∀ (s : State) (t : TlbId) (i : Nat),
    (∀ e, (s.tlbs.filter fun e => e.tlb == t)[i]? = some e → exec (.tlbEntryDrop t i) s = .next { s with tlbs := s.tlbs.filter fun x => x != e })
    ∧ ((s.tlbs.filter fun e => e.tlb == t)[i]? = none → exec (.tlbEntryDrop t i) s = .next s))
  ∧ (∀ (s : State) (a g code : Nat) (k : Fin 16),
    let f := getCtx s g k
    (isSpad a = true →
      (isToxic s a = false → wordOf a ∉ s.latent → exec (.softError (.word a true)) s = .next { s with latent := s.latent ++ [wordOf a] }
        ∧ ∀ n, 0 < n → n ≤ 8 → s.latent = [] → correctRead { s with latent := [wordOf a] } (wordOf a) n = bumpDie s (dieOf (homeOf (wordOf a))) 0 1)
      ∧ exec (.softError (.word a false)) s =
        .next (bumpDie (setToxic { s with latent := s.latent.filter (· != wordOf a) } a) (dieOf (homeOf a)) 8 1))
    ∧ ((getCore s g).slots[k].bound = true → 0x40 ≤ code → code < 0x80 → f.poison.contains code = false →
      (f.flips.contains code = false → exec (.softError (.reg g k.val code true)) s = .next (setCtx s g k { f with flips := f.flips ++ [code] }))
      ∧ exec (.softError (.reg g k.val code false)) s = .next (bumpDie
          (setCtx s g k { f with flips := f.flips.filter (· != code), poison := f.poison ++ [code] }) (dieOf g) 0x18 1)))
  ∧ (∀ (s : State) (d a : SReg), s.pair = none → armedS s.fib a = none → openS s.fib d = true → s.fib.poison.contains (specOf a) = false →
    s.fib.flips.contains (specOf a) = true →
      let t := bumpDie { s with fib := { s.fib with flips := s.fib.flips.filter (· != specOf a) } } (dieOf s.focus.1) 0x10 1
      exec (.mov d a) s = .next (doneS t d (regVal s.fib a)))
  ∧ ∀ (s : State) (g : Nat) (c : Byte),
    (present s g = true → c ≠ 0 → c ≤ fusedOf s g → c ≤ 17 → ∃ t, exec (.speedTableCurWrite g c) s = .next t
      ∧ curOf t g = c ∧ speedOf t g = speedOf s g ∧ (∀ h, h ≠ g → curOf t h = curOf s h ∧ speedOf t h = speedOf s h)
      ∧ t = { s with cur := t.cur, clock := t.clock })
    ∧ (present s g = false ∨ c = 0 ∨ fusedOf s g < c ∨ 17 < c → exec (.speedTableCurWrite g c) s = .next s)
    ∧ ∃ t, exec (.clockSwitchComplete g) s = .next t ∧ speedOf t g = curOf s g ∧ (∀ h, h ≠ g → speedOf t h = speedOf s h)
      ∧ t = { s with clock := t.clock }

/-- The ports of the steward window: wake, as a release of the core that stores, and refuse (R241), the frame pools (R246), and plain words of the window (R8); an eviction begins
in the order of acceptance and ends with its image written and its frame area zeroed (R254, R255). That the frame returned last is the next
that a pool gives, before those never given, lowest first, is the model's choice, log 20; that a store to a hole changes nothing is log 12; that
the image is written at the handle's current base, with no check of its generation, is the model's choice, log 53. -/
def Obligations.PortEvents : Prop :=
  (∀ (s : State) (g : Nat) (v : Word) (who : Adder),
    (present s g = true → v.toNat < 2 ^ 63 →
      (who.kind ≠ 0 → let u := correctRead s (wakeCtr g) 8
        isToxic u (wakeCtr g) = false → exec (.wakePort g v who) s = .next (setCounter u (wakeCtr g) (readWord u (wakeCtr g) + v) who))
      ∧ (who.kind = 0 → let t := closeEntries s who.core
        let r : Release := { g := who.core, sc := 4, upto := ⟨(getCore s who.core).sbSeq, s.accepts⟩, loc := some (wakeCtr g), inc := v, who := who }
        exec (.wakePort g v who) s = .next { t with rels := s.rels ++ [r] }
          ∧ (s.ports = [] → (getCore s who.core).sb = [] → s.rels = [] → runRelease s r = addAt s (wakeCtr g) v who)))
    ∧ (present s g = false ∨ 2 ^ 63 ≤ v.toNat → exec (.wakePort g v who) s = .next s)
    ∧ (v.toNat ∈ (getCore s g).tickets → reached (readWord s (wakeCtr g)) v = false → v.toNat ∉ (getCore s g).refused →
      exec (.refusePort g v) s = .next (setCore s g { getCore s g with refused := (getCore s g).refused ++ [v.toNat] }))
    ∧ (v.toNat ∉ (getCore s g).tickets ∨ reached (readWord s (wakeCtr g)) v = true → exec (.refusePort g v) s = .next s))
  ∧ (∀ (s : State) (tier : Fin 4) (frame : Word) (big : Bool),
    let b : Fin 8 := Fin.ofNat 8 (tier.val + if big then 4 else 0)
    let p := s.pools[b]
    let pop := exec (if big then .pop512 tier else .pop64 tier) s
    exec (if big then .push512 tier frame else .push64 tier frame) s
        = .next { s with pools := s.pools.set b { p with back := frame.toNat :: p.back } }
      ∧ (∀ f r, p.back = f :: r → pop = .next { s with pools := s.pools.set b { p with back := r } })
      ∧ (∀ lo hi r, p.back = [] → p.fresh = (lo, hi) :: r →
          pop = .next { s with pools := s.pools.set b { p with fresh := if lo + 1 < hi then (lo + 1, hi) :: r else r } })
      ∧ (p.back = [] → p.fresh = [] → pop = .next s))
  ∧ (∀ (s : State) (off : Nat) (b : Byte),
    (swKind off = .plain → (∀ v < 64, off < 0x17001000 + 32 * v ∨ 0x17001000 + 32 * v + 32 ≤ off) →
      ∃ t, exec (.registerWrite off [b]) s = .next t ∧ byteAt t (swLoc off) = b ∧ (∀ a, a ≠ swLoc off → byteAt t a = byteAt s a)
        ∧ t = { s with mem := t.mem })
    ∧ (swKind off = .readOnly ∨ swKind off = .hole → s.poison = [] →
      (∀ v < 64, off < 0x17001000 + 32 * v ∨ 0x17001000 + 32 * v + 32 ≤ off) → exec (.registerWrite off [b]) s = .next s))
  ∧ (∀ (s : State) (n : Nat) (e : Evict), s.evicts.find? (fun x => entryClu s x.entry == entryClu s n) = some e →
    (e.entry = n → e.busy = false → exec (.evictionStart n) s = .next (writeNat
      { s with evicts := s.evicts.map fun x => if x.entry = n then { x with busy := true } else x } (entryLoc n + 0x0E) 1 3))
    ∧ (e.entry ≠ n ∨ e.busy = true → exec (.evictionStart n) s = .next s))
  ∧ ∀ (s : State) (n : Nat) (e : Evict) (l : List (Nat × Nat)), s.evicts.find? (fun x => x.entry == n && x.busy) = some e → e.park = none →
    spansVia (askEngine s e.g e.tenant accEngWrite (.evict n) 0) (entrySize s n / 65536 + 2)
      (hCur s (bitsOf (entryHandle s n) 24 20)).toNat (entrySize s n) = .ok l → (∀ p ∈ l, linkStateOf s p.1 ≠ 3) →
    let u := clearPath s e.g Config.swBase
    let a := entryArea u n
    let die := e.g / 21504
    let img := devRead (dropGrants u (.evict n) none) die a (entrySize u n)
    (pathClear u e.g Config.swBase = false → exec (.evictionComplete n) s = .next s) ∧ (pathClear u e.g Config.swBase = true →
    (writeImage die ⟨1, e.g, e.f⟩ l img.1 img.2 = none → exec (.evictionComplete n) s = .next u)
    ∧ ∀ t, writeImage die ⟨1, e.g, e.f⟩ l img.1 img.2 = some t →
      let done := storeBytes t a (List.replicate 16384 0)
      let free := writeNat (writeWord done (entryLoc n) 0) (entryLoc n + 0x0E) 1 0
      exec (.evictionComplete n) s = .next (addAt { free with guards := (granulesOf a).foldl (fun l g => l.erase g) free.guards
                                                              evicts := free.evicts.filter fun x => x.entry != n } e.ctr 1 ⟨1, e.g, e.f⟩))

/-- R296, R301-R304: the states of a queue. An open store makes a closed queue with a good descriptor dormant, SEEN takes the value of
NOTIFY, and the scheduler enrols; a close store closes a dormant or pending queue at once, and a bound one when it is next idle. A wake
binds the queue to the least free slot, or puts it on the pending list; a freed slot goes to the first pending queue; the re-test of an
unbind. A bound queue whose NOTIFY has moved on gives its next record to the least free entry of the kernel table, and TAKEN gains 1; a read that is refused drops the
record and is counted. While NOTIFY is poisoned it is not reached, and its waiters wake (R102); what SEEN becomes of a poisoned NOTIFY at an
open is a free value, log 85. That one event unbinds the oldest idle queue, re-tests it and binds the woken one is the model's reading, log 24. -/
def Obligations.QueueEvents : Prop :=
  (∀ (s : State) (q : Word),
    let n := q.toNat
    (65536 ≤ n → exec (.queueOpenPort q) s = .next s ∧ exec (.queueClosePort q) s = .next s)
    ∧ (n < 65536 →
      (qState s n = 0 → descOk s n = true → exec (.queueOpenPort q) s =
        .next (watchNotify (setQueue (writeWord (setQState (seenAtOpen s n).2 n 1) (qLoc n + 0x20) (seenAtOpen s n).1) { q := n }) n))
      ∧ (∀ a, qNotify s n = some a → s.latent = [] → isToxic s a = false → seenAtOpen s n = (readWord s a, s))
      ∧ (qState s n ≠ 0 ∨ descOk s n = false → exec (.queueOpenPort q) s = .next s)
      ∧ (qState s n = 1 ∨ qState s n = 2 → exec (.queueClosePort q) s =
        .next { setQState { s with enrol := s.enrol.filter fun e => e.who != .notify n } n 0 with
                pending := s.pending.filter fun p => p != n, fired := s.fired.filter fun e => e.1 != .notify n })
      ∧ (qState s n = 3 ∨ qState s n = 4 → exec (.queueClosePort q) s = .next (setQueue s { queueOf s n with close := true }))
      ∧ (qState s n = 0 → exec (.queueClosePort q) s = .next s)))
  ∧ (∀ (s : State) (q h : Nat) (v : Word), s.fired.find? (fun e => e.1 == .notify q) = some (.notify q, some v) → qState s q = 1 →
    let t := { s with fired := s.fired.filter fun e => e.1 != .notify q }
    (freeSlotNo s = some h → exec (.queueNotifyWake q) s = .next (bindQueue t q h))
    ∧ (∀ r, freeSlotNo s = none → oldestIdle t = some r →
        let u := retestQueue (startUnbind t r) r
        (freeSlotNo u = some h → exec (.queueNotifyWake q) s = .next (bindQueue u q h))
        ∧ (freeSlotNo u = none → exec (.queueNotifyWake q) s = .next (enqueuePending u q)))
    ∧ (freeSlotNo s = none → oldestIdle t = none →
        exec (.queueNotifyWake q) s = .next (enqueuePending t q)))
  ∧ (∀ (s : State) (q : Nat), s.fired.find? (fun e => e.1 == .notify q) = some (.notify q, none) → qState s q = 1 →
    exec (.queueNotifyWake q) s = .next (watchNotify { s with fired := s.fired.filter fun e => e.1 != .notify q } q))
  ∧ (∀ (s : State) (q h : Nat) (r : List Nat),
    (s.pending = q :: r → freeSlotNo s = some h → exec (.queueSlotFreed q) s = .next (bindQueue s q h))
    ∧ (s.pending = [] ∨ freeSlotNo s = none → exec (.queueSlotFreed q) s = .next s))
  ∧ (∀ (s : State) (q h : Nat), slotOfQueue s q = some h →
    (qState s q = 3 → queueIdle s q = true → (queueOf s q).close = true ∨ (s.pending ≠ [] ∧ freeSlotNo s = none ∧ oldestIdle s = some q) →
      exec (.queueUnbind q) s = .next (setSlotWord (setQState s q 4) h 2 q))
    ∧ (qState s q ≠ 3 ∨ queueIdle s q = false ∨ ((queueOf s q).close = false ∧ s.pending = []) → exec (.queueUnbind q) s = .next s)
    ∧ (qState s q ≠ 4 → exec (.unbindRetest q) s = .next s)
    ∧ (qState s q = 4 → (testNotify s q).1 = true → exec (.unbindRetest q) s = .next (setSlotWord (setQState (testNotify s q).2 q 3) h 1 q))
    ∧ (qState s q = 4 → (testNotify s q).1 = false →
      let u := (testNotify s q).2
      let t := { setSlotWord u h 0 0 with hslots := strike u.hslots h }
      ((queueOf s q).close = false → exec (.unbindRetest q) s = .next (watchNotify (setQState t q 1) q))
      ∧ ((queueOf s q).close = true → exec (.unbindRetest q) s = .next { setQState t q 0 with queues := t.queues.filter fun x => x.q != q })))
  ∧ (∀ (s : State) (q a : Nat), qNotify s q = some a → s.latent = [] →
    (isToxic s a = false → testNotify s q = (reached (readWord s a) (qSeen s q + 1), s))
    ∧ (isToxic s a = true → testNotify s q = (false, poisonEvent s a)))
  ∧ ∀ (s : State) (q h k : Nat) (b : List Byte), slotOfQueue s q = some h →
    let u := (testNotify s q).2
    let record := readClean (ask0 (qTenant u q) (.ring q)) 0 u (qRing u q + 128 * ((qSeen u q).toNat % 2 ^ qLog u q)) 128
    (qState s q = 3 → (testNotify s q).1 = true → freeKern s = some k →
      (∀ t, record = .bytes b t → exec (.recordRead q) s = .next (takenOne (postKernel t k q h b) q))
      ∧ (∀ t, record = .notYet t → exec (.recordRead q) s = .next { u with cores := t.cores })
      ∧ (∀ t, record = .refused t → exec (.recordRead q) s = .next (bumpIo (takenOne (dropFail t (.ring q)) q) 0 0x48 1)))
    ∧ (qState s q = 3 → (testNotify s q).1 = false → freeKern s = some k → exec (.recordRead q) s = .next u)
    ∧ (qState s q ≠ 3 ∨ freeKern s = none → exec (.recordRead q) s = .next s)

/-- R307, R322-R327: a kernel whose turn has come is refused when its record, a stage or a reference breaks R324, else admitted, or gated
until its gate is reached; it is placed when no kernel tried before it can be; its population fills the segments and creates the fibres,
or fails; its sweeps (R336); a kill, which a free, complete or refused entry ignores (R338). -/
def Obligations.KernelEvents : Prop :=
  (∀ (s : State) (k : Nat) (x : Kern), kernOf s k = some x →
    let tables := readTables (ask0 (kernTenant s k) (.tables x.num)) k (kernStages s k) s []
    (kernState s k ≠ 1 ∨ itsTurn s x = false → exec (.kernelAdmission k) s = .next s)
    ∧ (kernState s k = 1 → itsTurn s x = true →
      (admitBad s k = true → exec (.kernelAdmission k) s = .next (refuseKernel s k))
      ∧ (∀ u, admitBad s k = false → tables = .refused u → exec (.kernelAdmission k) s = .next (refuseKernel (dropFail u (.tables x.num)) k))
      ∧ (∀ u, admitBad s k = false → tables = .notYet u → exec (.kernelAdmission k) s = .next { s with cores := u.cores })
      ∧ ∀ tabs u, admitBad s k = false → tables = .bytes tabs u →
        let gate := counterRef u (w64 (lrecNat u k 0x34 6))
        let thr := w64 (lrecNat u k 0x20 8)
        ((∃ tab ∈ tabs, fibreTableOk tab = false) → exec (.kernelAdmission k) s = .next (refuseKernel u k))
        ∧ ((∀ tab ∈ tabs, fibreTableOk tab = true) →
          (gate = none → exec (.kernelAdmission k) s = .next (admitNow u x))
          ∧ ∀ a, gate = some a → u.latent = [] →
            (isToxic u a = true → exec (.kernelAdmission k) s = .next (refuseKernel (poisonEvent u a) k))
            ∧ (isToxic u a = false → exec (.kernelAdmission k) s = .next
              (if reached (readWord u a) thr then admitNow u x else enrolWaiter (setKernState u k 2) (.gate k) a thr))))
    ∧ (∀ v, s.fired.find? (fun e => e.1 == .gate k) = some (.gate k, v) → kernState s k ≠ 2 →
      exec (.gateReached k) s = .next { s with fired := s.fired.filter fun e => e.1 != .gate k })
    ∧ (∀ v, s.fired.find? (fun e => e.1 == .gate k) = some (.gate k, v) → kernState s k = 2 →
      let t := { s with fired := s.fired.filter fun e => e.1 != .gate k }
      exec (.gateReached k) s = .next (if v = none then refuseKernel t k else admitNow t x))
    ∧ (s.fired.find? (fun e => e.1 == .gate k) = none → exec (.gateReached k) s = .next s)
    ∧ (∀ a b p, tryOrder s = a ++ x :: b → (∀ y ∈ a, findPlacement s y = none) → findPlacement s x = some p →
      exec (.kernelPlacement k) s = .next (placeKernel s x p))
    ∧ ((∀ y ∈ tryOrder s, findPlacement s y = none) → exec (.kernelPlacement k) s = .next s)
    ∧ (kernState s k ≠ 4 → exec (.populationComplete k) s = .next s)
    ∧ (kernState s k = 4 → x.park = none →
      (∀ t, gatherPop x (popCores x) s [] = .refused t → exec (.populationComplete k) s = .next (failPopulation t x))
      ∧ (∀ t, gatherPop x (popCores x) s [] = .notYet t → exec (.populationComplete k) s = .next { s with cores := t.cores })
      ∧ ∀ fill fills t, gatherPop x (popCores x) s [] = .bytes (fill :: fills) t →
        let t1 := (fill :: fills).foldl fillCore t
        let made := createAll k (fill :: fills) t1
        (∀ u, made = some u → exec (.populationComplete k) s = .next (setKern (setKernState u k 5) { x with segs := fill.segs }))
        ∧ (made = none → exec (.populationComplete k) s = .next (failPopulation t1 x)))
    ∧ (let quiet := quietKernel s x
       let same := readNat s (kernLoc k + 0x90) 8 = x.sent ∧ readNat s (kernLoc k + 0x98) 8 = x.rcvd
       let t := writeNat (writeNat s (kernLoc k + 0x90) 8 x.sent) (kernLoc k + 0x98) 8 x.rcvd
       (kernState s k ≠ 5 → kernState s k ≠ 6 → exec (.kernelEndSweep k) s = .next s)
       ∧ (kernState s k = 5 → exec (.kernelEndSweep k) s = .next (setKernState t k (if quiet then 6 else 5)))
       ∧ (kernState s k = 6 → quiet = true → same → exec (.kernelEndSweep k) s = .next (completeKernel t x false))
       ∧ (kernState s k = 6 → quiet = false ∨ ¬ same → exec (.kernelEndSweep k) s = .next (setKernState t k 5)))
    ∧ (k < 8192 →
      let t := writeNat s (kernLoc k + 0xA8) 1 (readNat s (kernLoc k + 0xA8) 1 ||| 2)
      (1 ≤ kernState s k → kernState s k ≤ 3 → exec (.killPort (BitVec.ofNat 64 k)) s = .next (refuseKernel (dropGate t k) k))
      ∧ (kernState s k = 0 ∨ 7 ≤ kernState s k → exec (.killPort (BitVec.ofNat 64 k)) s = .next s)
      ∧ (4 ≤ kernState s k → kernState s k ≤ 6 → hasReply t x = false → exec (.killPort (BitVec.ofNat 64 k)) s = .next (completeKernel t x true))
      ∧ (4 ≤ kernState s k → kernState s k ≤ 6 → hasReply t x = true → exec (.killPort (BitVec.ofNat 64 k)) s =
        .next ((kernCores x).foldl (fun u g => stopOn u k g) (setKern t { x with killed := true })))))
  ∧ ∀ (s : State) (v : Word), 8192 ≤ v.toNat ∨ kernOf s v.toNat = none → exec (.killPort v) s = .next s

/-- R306: the arbiter acts once at a rotation boundary, in which no bound slot changes its owner and no slot its fibre. R316: at a cycle that
is a multiple of 4,096 the newest entries of a list, but none that is kept from an earlier group (R317), move to the shortest neighbour; a
neighbour whose own move is due makes it first: the arbiter's and the levelling's once a cycle, and that order, are the model's reading, log 58.
R335: a marked core whose fibres are done goes to its
new stage once the stage's fibre table is read; a table that cannot be read leaves it marked, with what the refused read counted (R230). R347: a proxy that a wake has told the value, or that finds the threshold reached, adds for its fibre, and else waits, its test behind what the ports on its path have accepted (R118);
that it adds
nowhere while ARR lies in a guarded place (`arrPlace`) is the model's choice, log 76. R350: holds of a drain, and the release of the
whole group with the core whose idle bit rose last; the order in which several rise at once is the model's reading, log 57. R285: a request that TAIL gives starts. -/
def Obligations.GroupEvents : Prop :=
  (∀ (s : State) (g : Nat),
    ((getCore s g).rot ≠ 0 ∨ (getCore s g).arbiter = cycOf s g → exec (.queueArbiter g) s = .next s)
    ∧ ((getCore s g).rot = 0 → (getCore s g).arbiter ≠ cycOf s g → ∃ t, exec (.queueArbiter g) s = .next t
      ∧ t = { s with cores := t.cores } ∧ (∀ h, h ≠ g → getCore t h = getCore s h) ∧ (getCore t g).arbiter = cycOf s g
      ∧ (∀ k : Fin 16, (getCore t g).slots[k].bound = (getCore s g).slots[k].bound ∧ (getCore t g).slots[k].ctx = (getCore s g).slots[k].ctx
        ∧ ((getCore s g).slots[k].bound = true → (getCore t g).slots[k].owner = (getCore s g).slots[k].owner))
      ∧ (getCore t g).slots[(0 : Fin 16)] = (getCore s g).slots[(0 : Fin 16)] ∧ (getCore t g).slots[(15 : Fin 16)] = (getCore s g).slots[(15 : Fin 16)])
    ∧ (cycOf s g % 4096 ≠ 0 ∨ (getCore s g).balanced = cycOf s g → exec (.levelBalance g) s = .next s)
    ∧ (cycOf s g % 4096 = 0 → (getCore s g).balanced ≠ cycOf s g → (∀ i ∈ neighbours s g, balanceDue s i = false) →
      ∀ j, shortest s (neighbours s g) = some j →
      let l := (getCore s g).level
      let m := (getCore s j).level
      let n := min (min ((l.length - m.length) / 2) (64 - m.length)) (l.length - (getCore s g).kept)
      ∃ t, exec (.levelBalance g) s = .next t ∧ (getCore t g).level = l.take (l.length - n) ∧ (getCore t j).level = m ++ l.drop (l.length - n)
        ∧ (getCore t g).balanced = cycOf s g
        ∧ (∀ h, h ≠ g → h ≠ j → getCore t h = getCore s h) ∧ t = { s with cores := t.cores })
    ∧ (∀ j k, balanceDue s g = true → shortest s (neighbours s g) = some j → balanceDue s j = true → j ≠ g →
      shortest s (neighbours s j) = some k → k = g ∨ balanceDue s k = false →
      let t := moveEntries (markBalanced (markBalanced s g) j) j k
      ((getCore t g).level.length ≠ (getCore s g).level.length → exec (.levelBalance g) s = .next t)
      ∧ ∀ i, (getCore t g).level.length = (getCore s g).level.length → shortest t (neighbours t g) = some i → balanceDue t i = false →
        exec (.levelBalance g) s = .next (moveEntries t g i))
    ∧ ((getCore s g).mark = none → exec (.coreMove g) s = .next s)
    ∧ (∀ k dst x, (getCore s g).mark = some (k, dst) → kernOf s k = some x →
      (moveReady s g k = false → exec (.coreMove g) s = .next s)
      ∧ (∀ t, moveReady s g k = true → stageTable s x dst g = .notYet t → exec (.coreMove g) s = .next { s with cores := t.cores })
      ∧ (∀ t, moveReady s g k = true → stageTable s x dst g = .refused t → exec (.coreMove g) s = .next t)
      ∧ ∀ tab s1, moveReady s g k = true → stageTable s x dst g = .bytes tab s1 →
        let t := freeAllOn s1 k g
        let grps := x.groups.map fun r => if r.stage = dst ∨ r.members.contains g = true then regroup t x r (movedMembers r g dst) else r
        let u := setKern (setCore t g { getCore t g with mark := none, kept := (getCore t g).level.length }) { x with groups := grps }
        ∀ v, createSet x.segs tab k g dst (min (recNat tab 0 4) 7) u = some v → exec (.coreMove g) s = .next v))
  ∧ (∀ (s : State) (g e : Nat) (p : Proxy), e < 16 → (getCore s g).proxies.find? (fun p => p.entry == e) = some p →
    let thr := p.base + p.step * w64 (p.pg - 1)
    let q := { p with pg := p.pg + 1 }
    let woken := s.fired.find? fun f => f.1 == .proxy g e
    let passedIn := fun u : State =>
      let s1 := removeWaiter { u with fired := u.fired.filter fun f => f.1 != .proxy g e } (.proxy g e)
      let t := beginRelease s1 g 2 (arrPlace s1 p.arr) p.inc (fibreAdder g p.fibre) false
      if p.last < p.pg + 1 then spendProxy t g q (some q.pg) else setProxyState (replaceProxy t g q) g e (some q.pg) 1
    (∀ w, woken = some (w, none) → exec (.proxyArrival (16 * g + e)) s = .next (spendProxy s g p none))
    ∧ (∀ w v, woken = some (w, some v) → exec (.proxyArrival (16 * g + e)) s = .next (passedIn s))
    ∧ (woken = none → let u := clearPath s g p.arr
      (pathClear u g p.arr = false → exec (.proxyArrival (16 * g + e)) s = .next s)
      ∧ (pathClear u g p.arr = true → u.latent = [] →
        (isToxic u p.arr = true → exec (.proxyArrival (16 * g + e)) s = .next (spendProxy (poisonEvent u p.arr) g p none))
        ∧ (isToxic u p.arr = false → reached (readWord u p.arr) thr = true → exec (.proxyArrival (16 * g + e)) s = .next (passedIn u))
        ∧ (isToxic u p.arr = false → reached (readWord u p.arr) thr = false → exec (.proxyArrival (16 * g + e)) s =
          .next (if u.enrol.any (fun x => x.who == .proxy g e) then u else enrolWaiter u (.proxy g e) p.arr thr)))))
  ∧ (∀ (s : State) (k : Nat) (stage : Fin 8) (mod : Bool),
    (anyDrain s k stage = true → (∃ gs ∈ drainSets s k stage mod, idleAnd s k gs = true) → s.holds.contains (k, stage.val, mod) = false →
      exec (.drainHoldStart k stage mod) s = .next { s with holds := s.holds ++ [(k, stage.val, mod)] })
    ∧ (anyDrain s k stage = false ∨ (∀ gs ∈ drainSets s k stage mod, idleAnd s k gs = false) → exec (.drainHoldStart k stage mod) s = .next s)
    ∧ (s.holds.contains (k, stage.val, mod) = false → exec (.drainRelease k stage mod) s = .next s)
    ∧ (inFlightTo s (drainCores s k stage) = true → exec (.drainRelease k stage mod) s = .next s)
    ∧ (∀ gs, s.holds.contains (k, stage.val, mod) = true → inFlightTo s (drainCores s k stage) = false → drainSets s k stage mod = [gs] →
      idleAnd s k gs = true →
      let order := ((s.rises.filter fun r => r.1 == (k, stage.val, true)).map (·.2)).filter fun g => gs.contains g
      let t := releaseSet s k mod gs (order.getLastD 0)
      exec (.drainRelease k stage mod) s = .next { t with holds := t.holds.filter fun h => h != (k, stage.val, mod) }))
  ∧ ∀ (s : State) (g : Nat) (x : Kern) (h : Word) (loc : Nat),
    let n := readWord s (spadLoc g 0x1FF08)
    let go := reached (readWord s (spadLoc g 0x1FF00)) (n + 1)
    let free := look (getCore s g).fibres 4095 = none ∧ ∀ r ∈ s.rels, r.g ≠ g ∨ r.who ≠ fibreAdder g 4095
    (sampKernel s g = some x → reservedOf s x.id g = some (h, loc) → (getCore s g).request = none → free → sampBlockOk s g = true →
      isToxic s (spadLoc g 0x1FF00) = false → go = true → exec (.samplerRequestStart g) s = .next (startRequest s g n.toNat x h loc))
    ∧ (sampKernel s g = none ∨ (getCore s g).request ≠ none ∨ ¬ free ∨ go = false → exec (.samplerRequestStart g) s = .next s)

/-- R353-R356, R364, R370, R372: the states of a link. Training done, training failed, an error, the two bits of CTL, a reset of the host
function and its end: WIDTH and RATE are 0 but in state up, and every change adds 1 to the link-event counter (`levtAdd`). A link that goes
down loses the commands whose flits it still holds (R370, `loseCmd`). A reset of the host function drops and counts the posted writes that
have not been accepted, ends its reads, closes the windows and masks the vectors. A request to
reset the host function of a module that is not self-hosted triggers a warm start. Pending interrupts leave once unmasked; that they stay
pending while the host port is not up is the model's reading, log 22, and the masks of the MSI-X table after a reset are PCIe's, log 81. -/
def Obligations.LinkStates : Prop :=
  (∀ (s : State) (id : LinkId) (width rate peer : Nat),
    let l := getLink s id
    let ctl := fun v : Nat => writeNat s (linkLoc id + 0x18) 8 v
    let into := fun (u : State) (k : Link) (st : BitVec 3) => levtAdd (setLink u { k with state := st, width := 0, rate := 0 }) id
    let lose := fun u : State => { u with cmds := u.cmds.map fun d => loseCmd d l.replay }
    let fresh := { l with rxSeq := 0, txSeq := 0, replay := [], backlog := [], tries := 0 }
    let up := { l with state := 2, width := width, tries := 0, replay := l.replay.map fun f => { f with times := 0 }
                       rate := if l.role = 4 then 0 else rate, peer := if l.role = 4 then peer else 0 }
    (l.state = 1 ∨ l.state = 3 → exec (.linkTrained id width rate peer) s = .next (pumpAll (flushMsix (levtAdd (setLink s up) id))))
    ∧ (l.state ≠ 1 → l.state ≠ 3 → exec (.linkTrained id width rate peer) s = .next s ∧ exec (.linkTrainingFail id) s = .next s)
    ∧ (l.state = 1 ∨ (l.state = 3 ∧ 2 ≤ l.tries) → exec (.linkTrainingFail id) s = .next (into (lose s) fresh 4))
    ∧ (l.state = 3 → l.tries < 2 → exec (.linkTrainingFail id) s = .next (setLink s { l with tries := l.tries + 1 }))
    ∧ (l.state = 2 → exec (.linkError id) s = .next (into s { l with tries := 0 } 3))
    ∧ (l.state ≠ 2 → exec (.linkError id) s = .next s)
    ∧ (l.state = 4 → exec (.ctlTrain id) s = .next (into (writeNat (ctl 1) (linkLoc id + 0x18) 8 0) l 1))
    ∧ (l.state ≠ 4 → exec (.ctlTrain id) s = .next (ctl 1))
    ∧ (l.state ≠ 0 → exec (.ctlDisable id) s = .next (into (lose (ctl 2)) fresh 0))
    ∧ (l.state = 0 → exec (.ctlDisable id) s = .next (ctl 2)))
  ∧ (∀ (s : State) (p : Fin 8),
    let id := LinkId.port p
    let l := getLink s id
    (l.state ≠ 2 ∨ l.role ≠ 1 → exec (.hostReset p) s = .next s)
    ∧ (l.state = 2 → l.role = 1 → s.selfHosted = false →
      exec (.hostReset p) s = .next { s with sstep := 0, failed := false, cold := decide (s.sstep < 9) && !s.failed && s.cold })
    ∧ (l.state = 2 → l.role = 1 → s.selfHosted = true → counterRef s (readWord s (linkLoc id + 8)) = none →
      (∀ r ∈ l.posted, accepted s id r = false) →
      ∃ t, exec (.hostReset p) s = .next t ∧ (getLink t id).state = 5 ∧ (getLink t id).posted = [] ∧ (getLink t id).reads = []
        ∧ readWord t (swLoc (0x203000 + 256 * linkDie id + 0x38)) = readWord (bumpIo s (linkDie id) 0x38 l.posted.length) (swLoc (0x203000 + 256 * linkDie id + 0x38))
        ∧ t.mask64 = List.range 64 ∧ (∀ n : Fin 64, byteAt t (winLoc id n + 0x14) = 0) ∧ (∀ k, k < 16 → byteAt t (swLoc (0x17030000 + 32 * k) + 0x13) = 0)
        ∧ (∀ e ∈ t.tlbs, e.tlb ≠ .host (linkDie id)) ∧ t.cores = s.cores ∧ t.fib = s.fib ∧ t.out = s.out)
    ∧ (l.state = 5 → exec (.hostFunctionResetComplete p) s = .next (levtAdd (setLink s { l with state := 1, width := 0, rate := 0 }) id))
    ∧ (l.state ≠ 5 → exec (.hostFunctionResetComplete p) s = .next s))
  ∧ ∀ (s : State) (v : Fin 64),
    let m := s.mask64.filter fun n => n != v.val
    (hostUp s = true → exec (.msixVectorUnmask v) s = .next { s with mask64 := m, pend64 := s.pend64.filter (m.contains ·)
                                                                     out := s.out ++ (s.pend64.filter fun n => !m.contains n).map .msix })
    ∧ (hostUp s = false → exec (.msixVectorUnmask v) s = .next { s with mask64 := m })

/-- R358-R362, R367, R368: a request at a link that serves none changes nothing. With no other request of the link waiting: a request that
its window does not admit is refused and counted, and a read answered so; a scratchpad write lands whole and a read is answered with its
poison; a counter write is held and becomes an add in its turn; a module write within one page lands where its translation is; BAR0 answers
reads, and takes writes of the MSI-X table. A data write behind a held counter write waits (R129). A flit with the next number and a good CRC
is taken, and its message goes to its window; another is discarded, counted, and brings no ACK; a replay sends every flit that is not covered
again; flits that wait for room in the replay buffer follow as the ACKs cover earlier ones, and a reply finds an empty buffer with room whatever
its length. That the check word begins from 0 and that the last flit of a message carries it are the model's choices, log 11; so is the aligned word
that a misaligned counter-window address means, log 29. -/
def Obligations.LinkRequests : Prop :=
  (∀ (s : State) (r : Inbound), servesInbound s r.link = false → exec (.inboundScratchpadRequest r) s = .next s
    ∧ exec (.inboundCounterRead r) s = .next s ∧ exec (.inboundCounterWrite r) s = .next s ∧ exec (.inboundModuleRequest r) s = .next s)
  ∧ (∀ (s : State) (r : Inbound), servesInbound s r.link = true →
    let id := r.link
    let l := getLink s id
    let next := { l with taken := l.taken + 1 }
    let a := clusterLoc (winClu s r) (winAddr s r)
    let q : Request := { kind := winKind s r, addr := 0, tenant := winTenant s r, len := reqLen r, data := r.data, toxic := r.toxic, num := l.taken }
    let q1 := { q with addr := a, spans := [(a, reqLen r)] }
    let q2 := { q with addr := wordOf a }
    let q3 := { q with addr := winVa s r }
    let q4 := { q with kind := 4, addr := r.off }
    let refused := bumpIo s (linkDie id) 0x30 1
    let arrived := fun x : Request => setLink s { next with posted := l.posted ++ [x] }
    let alone := l.posted = [] ∧ l.reads = []
    (r.bar0 = false → winKind s r = 1 →
      (alone → winAdmits s r = false ∨ spadAdmits s r = false →
        (∀ d, r.data = some d → exec (.inboundScratchpadRequest r) s = .next refused)
        ∧ ∀ t, r.data = none → sendReply (setLink refused l) id [] false false = some t → exec (.inboundScratchpadRequest r) s = .next t)
      ∧ (winAdmits s r = true → spadAdmits s r = true → 0 < reqLen r →
        (∀ d, alone → r.data = some d →
          let u := forget (arrived q1) id l.taken
          exec (.inboundScratchpadRequest r) s =
            .next (setLink (if r.toxic then poisonRange (reportAer u id 0) a d.length else storeAt u a d (linkAdder id)) next))
        ∧ (alone → r.data = none →
          let u := forget (setLink s next) id l.taken
          let reply := sendReply (correctRead u a r.len) id (readBytes u a r.len) ((List.range r.len).any fun i => isToxic u (a + i)) true
          (∀ t, reply = some t → exec (.inboundScratchpadRequest r) s = .next t)
          ∧ (reply = none → exec (.inboundScratchpadRequest r) s = .next (setLink s { next with reads := [(0, q1)] })))
        ∧ ∀ d x rest, r.data = some d → l.posted = x :: rest → x.kind = 2 → l.reads = [] →
          exec (.inboundScratchpadRequest r) s = .next (arrived q1)))
    ∧ (r.bar0 = false → winKind s r = 0 → alone →
      (∀ d, r.data = some d → exec (.inboundScratchpadRequest r) s = .next refused)
      ∧ ∀ t, r.data = none → sendReply (setLink refused l) id [] false false = some t → exec (.inboundScratchpadRequest r) s = .next t)
    ∧ (r.bar0 = false → winKind s r = 2 → alone →
      let ok := winAdmits s r = true ∧ counterAdmits s r = true
      let u := setLink s next
      (r.data = none →
        (∀ t, ¬ ok → sendReply (setLink refused l) id [] false false = some t → exec (.inboundCounterRead r) s = .next t)
        ∧ (∀ t, ok → s.latent = [] → isToxic s (wordOf a) = false → sendReply u id (bytesOf 8 (readWord s (wordOf a)).toNat) false true = some t →
          exec (.inboundCounterRead r) s = .next t)
        ∧ (∀ t, ok → s.latent = [] → isToxic s (wordOf a) = true →
          sendReply (poisonEvent u (wordOf a)) id (readBytes (poisonEvent u (wordOf a)) (wordOf a) 8) true true = some t →
          exec (.inboundCounterRead r) s = .next t))
      ∧ ∀ d, r.data = some d →
        (¬ ok → exec (.inboundCounterWrite r) s = .next refused)
        ∧ (ok → r.toxic = true → exec (.inboundCounterWrite r) s = .next (reportAer refused id 1))
        ∧ (ok → r.toxic = false → exec (.inboundCounterWrite r) s = .next (arrived q2)))
    ∧ (∀ x d rest, l.posted = x :: rest → x.kind = 2 → x.data = some d → l.reads = [] →
      let u := addAt (setLink s { l with posted := rest }) x.addr (w64 (natOf d)) (linkAdder id)
      exec (.counterWindowAddApply id) s = .next (pumpLink u id) ∧ (rest = [] → exec (.counterWindowAddApply id) s = .next u))
    ∧ (alone → exec (.counterWindowAddApply id) s = .next s)
    ∧ (r.bar0 = false → winKind s r = 3 → alone → ∀ d, r.data = some d →
      let va := winVa s r
      let v := arrived q3
      let found := askHost v (linkDie id) (winTenant s r) accHostWrite (.inbound id l.taken) (linkWho id) (w64 va) d.length
      (winAdmits s r = false ∨ moduleAdmits s r = false → exec (.inboundModuleRequest r) s = .next refused)
      ∧ (winAdmits s r = true → moduleAdmits s r = true → 0 < d.length → va % 65536 + d.length ≤ 65536 →
        (found = .refused → exec (.inboundModuleRequest r) s = .next (setLink (bumpIo (forget v id l.taken) (linkDie id) 0x30 1) next))
        ∧ ∀ b, found = .got b → (isDpa b = true → backed s b = true) → linkStateOf s b = 2 → pathUp s b = true → r.toxic = false →
          exec (.inboundModuleRequest r) s = .next (setLink (storeAt (forget v id l.taken) b d (linkAdder id)) next)))
    ∧ (r.bar0 = true →
      exec (.inboundCounterRead r) s = .next s ∧ exec (.inboundCounterWrite r) s = .next s ∧ exec (.inboundModuleRequest r) s = .next s
      ∧ (l.role ≠ 1 → exec (.inboundScratchpadRequest r) s = .next s)
      ∧ (l.role = 1 → alone → ∀ p, id = .port p →
        (∀ d, r.data = some d → exec (.inboundScratchpadRequest r) s = .next (setLink (bar0Stores (arrived q4) r.off d) next))
        ∧ (r.data = none → exec (.inboundScratchpadRequest r) s =
          .next { setLink s next with out := s.out ++ [.reply id ((List.range r.len).map fun i => bar0Byte (setLink s next) p (r.off + i)) false true] }))))
  ∧ ∀ (s : State) (w : Fin 16) (f : Flit),
    let id := LinkId.welt w
    let l := getLink s id
    let k := coverAck l (natOf ((f.bytes.drop 4).take 4))
    let on := fun c : Link =>
      let now := c.backlog.take (2048 - c.replay.length)
      { setLink s { c with replay := c.replay ++ now, backlog := c.backlog.drop now.length } with out := s.out ++ now.map (outFlit c w) }
    (l.state = 2 → l.replay = [] → l.backlog = [] → ∀ b toxic ok, sendReply s id b toxic ok ≠ none)
    ∧ (l.state ≠ 2 ∨ l.role ≠ 4 → exec (.weltFlitReceive w f) s = .next s ∧ exec (.weltReplayTimeout w) s = .next s)
    ∧ (l.state = 2 → l.role = 4 →
      (f.bytes.length = 248 → crc64 f.bytes = f.crc → natOf ((f.bytes.drop 8).take 1) = 0 → exec (.weltFlitReceive w f) s = .next (on k))
      ∧ (f.bytes.length ≠ 248 ∨ crc64 f.bytes ≠ f.crc → exec (.weltFlitReceive w f) s = .next (bumpIo s (linkDie id) 0x28 1))
      ∧ (f.bytes.length = 248 → crc64 f.bytes = f.crc → natOf ((f.bytes.drop 8).take 1) = 1 →
        (natOf (f.bytes.take 4) = k.rxSeq →
          let t := on { k with rxSeq := (k.rxSeq + 1) % 2 ^ 32 }
          (f.done = none → exec (.weltFlitReceive w f) s = .next t) ∧ ∀ m, f.done = some m → exec (.weltFlitReceive w f) s = .next (applyMsg t w m))
        ∧ (natOf (f.bytes.take 4) ≠ k.rxSeq → exec (.weltFlitReceive w f) s = .next (bumpIo s (linkDie id) 0x28 1)))
      ∧ (2 ≤ natOf ((f.bytes.drop 8).take 1) → exec (.weltFlitReceive w f) s = .next (bumpIo s (linkDie id) 0x28 1))
      ∧ (l.replay = [] → exec (.weltReplayTimeout w) s = .next s)
      ∧ (l.replay ≠ [] →
        let n := l.replay.length
        let t := bumpAt (bumpIo s (linkDie id) 0x20 n) (linkLoc id + 0x10) n
        let again := l.replay.map fun f => { f with times := f.times + 1 }
        let sent := fun f : SentFlit => Out.flit w.val (flitBytes f.seq ((l.rxSeq + 2 ^ 32 - 1) % 2 ^ 32) 1 f.bytes)
        let u := { setLink t { l with replay := again } with out := s.out ++ l.replay.map sent }
        exec (.weltReplayTimeout w) s = .next (if again.any fun f => 16 ≤ f.times then retrainLink u id else u)))

/-- R374-R382: power on and off; a store to RESTART triggers a start, and a store of another value does nothing; an attestation signs
MEAS and NONCE (the signature is a free value, log 8); a thermal alert adds to its counter. START runs the steps of R376: with good inputs
the first fibre of the device OS stands on the lowest present core of the lowest steward cluster that has one, every walker is bound, and
nothing of what ran before is left but the memory that survives and the image; the capacity found is that of the devices behind CXL root ports
that came up, in port order (R365), and its frames are in the pools; MEAS is the measurement of the firmware and the configuration that the
start brings, of authentic and other ones alike (R375; the digest is a free value, log 8); an image or a configuration that does not verify stops a cold
start at step 1, a failed warm start triggers a cold one, and a change of the life-cycle state wipes, takes a new key and triggers a cold start
(R379). Model's choices: that a warm start triggers the cold one, or a change its start, in the same event, and that a link that is not named
ends step 6 down, log 34; the lowest steward cluster that has a present core, log 35; where the first fibre and the walkers begin and their
registers, logs 3 and 4; which key a returned module is checked with, log 91. -/
def Obligations.StartEvents : Prop :=
  (∀ (s : State) (v : Word) (die : Nat),
    (s.power = true → exec .powerOn s = .next s)
    ∧ (s.power = false → exec .powerOn s = .next { s with power := true, sstep := 0, failed := false, cold := true })
    ∧ exec (.thermalShutdown die) s = .next { s with power := false }
    ∧ (∀ a, counterRef s (readWord s (swLoc 0x18000010)) = some a → exec (.thermalAlert die) s = .next (addAt s a 1 ⟨6, die, 0⟩))
    ∧ (counterRef s (readWord s (swLoc 0x18000010)) = none → exec (.thermalAlert die) s = .next s)
    ∧ exec (.restart 1) s = .next { s with sstep := 0, failed := false, cold := decide (s.sstep < 9) && !s.failed && s.cold }
    ∧ exec (.restart 2) s = .next { s with sstep := 0, failed := false, cold := true }
    ∧ (v ≠ 1 → v ≠ 2 → exec (.restart v) s = .next s)
    ∧ exec .attest s = .next (writeBytes s (swLoc 0x18000080)
        ((List.range 64).map fun i => nth (Config.freeSignature s.images (measOf s ++ readBytes s (swLoc 0x18000020) 32)) i 0)))
  ∧ ∀ (s : State) (i : StartInputs),
    let held := if s.cold then heldCores s i.failed else s.held
    let meas := (List.range 64).map fun n => nth (Config.freeMeasure (i.firmware ++ i.config)) n 0
    let there := fun g : Nat => g < Config.cores ∧ fusedOf s g ≠ 0 ∧ g ∉ held
    (s.power = false ∨ s.sstep = 9 ∨ s.failed = true → exec (.start i) s = .next s)
    ∧ (s.power = true → s.sstep ≠ 9 → s.failed = false →
      ((i.imageGood && i.configGood && keyHeld s) = false → s.cold = true → ∃ t, exec (.start i) s = .next t ∧ t.sstep = 1 ∧ t.failed = true
        ∧ measOf t = meas ∧ t.links = [{ id := .port 0, state := 1, role := 1 }] ∧ running t = false
        ∧ ∀ a, byteAt t a = if (swLoc 0x18000080 ≤ a ∧ a < swLoc 0x180000C0) ∨ ∃ n : Fin 64, a = winLoc (.port 0) n + 0x14 then 0 else byteAt s a)
      ∧ ((i.imageGood && i.configGood && keyHeld s) = false → s.cold = false → ∃ t, exec (.start i) s = .next t ∧ t.sstep = 0 ∧ t.failed = false ∧ t.cold = true)
      ∧ (i.imageGood = true → i.configGood = true → keyHeld s = true → i.trainGood = false → s.cold = true → ∃ t, exec (.start i) s = .next t
        ∧ t.sstep = 3 ∧ t.failed = true ∧ running t = false ∧ measOf t = meas)
      ∧ (i.imageGood = true → i.configGood = true → keyHeld s = true → i.trainGood = true → s.cold = true → i.lifeCmd = true →
        ∃ t, exec (.start i) s = .next t ∧ t.sstep = 0 ∧ t.failed = false ∧ t.cold = true ∧ t.life = (if s.life = 3 then 0 else s.life + 1)
          ∧ t.images = s.images + 1 ∧ t.held = [] ∧ t.trained = false ∧ t.mem = [] ∧ t.poison = [] ∧ t.badBlocks = []
          ∧ t.owner = if s.life = 0 then some (s.images + 1) else if s.life = 2 then none else s.owner)
      ∧ (∀ g, i.imageGood = true → i.configGood = true → keyHeld s = true → i.trainGood = true → (s.cold && i.lifeCmd) = false → there g →
        clusterOf g ∈ s.mask →
        (∀ h, h < g → clusterOf h ∈ s.mask → ¬ there h) →
        ∃ t, exec (.start i) s = .next t ∧ t.sstep = 9 ∧ t.failed = false ∧ running t = true ∧ t.focus = (g, 0) ∧ t.fib = bootFib g
          ∧ t.cores = [(g, bootCore g)] ∧ t.held = held ∧ (∀ h, present t h = true ↔ there h) ∧ t.pools = freshPools (cxlFrames t) s.swapBlocks
          ∧ (∀ p n, (p, n) ∈ t.cxl ↔ (p, n) ∈ i.cxl ∧ (getLink t (.port p)).state = 2 ∧ (getLink t (.port p)).role = 2)
          ∧ t.cxl.Pairwise (fun x y => x.1 ≤ y.1) ∧ measOf t = meas
          ∧ t.tlbs = [] ∧ t.cmds = [] ∧ t.enrol = [] ∧ t.kerns = [] ∧ t.queues = [] ∧ t.pair = none
          ∧ (∀ a, a ∈ t.poison ↔ a ∈ s.poison ∧ Config.nvmeBase ≤ a)
          ∧ (i.image = [] → ∀ c, c ∈ t.mem ↔ c ∈ s.mem ∧ survives s false c.1)
          ∧ (∀ a b, i.image = [(a, b)] → osPlace s a b.length = true → readBytes t a b.length = b)
          ∧ t.links.map (·.id) = (s.roles.filter fun r => r.2 != 0).map (fun r => .port r.1) ++ s.welts.map .welt
          ∧ ∀ l ∈ t.links, l.posted = [] ∧ l.reads = [] ∧ l.replay = [] ∧ l.txSeq = 0 ∧ l.rxSeq = 0
            ∧ ((∀ e ∈ i.links, e.1 ≠ l.id) → l.state = 4 ∧ l.width = 0 ∧ l.rate = 0)
            ∧ ((∃ e ∈ i.links, e.1 = l.id) → l.state = 2 ∧ ∃ e ∈ i.links, e.1 = l.id ∧ l.width = e.2.1)))

/-! ## Reset and the invariant of memory -/

/-- R376: the machine right after a successful cold start. The start has ended at step 9 and fibres run; on the lowest core of the lowest
steward cluster, which is present, the device OS's first fibre stands in slot 0 and the walker in slot 15, in steward mode, `%tvec` 0, no
trap active; no TLB entry, no store, no counter, no kernel; WIDTH and RATE of every link are 0 (R354); and memory, which lists nothing, is in
its canonical form. Model's choices: the steward mask (log 7), the budget of all ones (log 4), that no link has come up, so that each is down
(log 34) and no CXL memory was found (log 7), and that memory reads 0 everywhere (log 16). -/
def Obligations.ResetState : Prop :=
  running State.reset = true ∧ present State.reset State.reset.focus.1 = true ∧ isStewardCluster State.reset (clusterOf State.reset.focus.1) = true
    ∧ State.reset.focus = (192, 0) ∧ State.reset.fib.steward = true ∧ State.reset.fib.tvec = 0 ∧ State.reset.fib.tcause = 0
    ∧ State.reset.fib.budget = BitVec.allOnes 48 ∧ (getCore State.reset 192).slots[(0 : Fin 16)].bound = true
    ∧ (∀ g, (getCore State.reset g).slots[(15 : Fin 16)].bound = true ∧ (getCore State.reset g).slots[(15 : Fin 16)].ctx.steward = true
      ∧ (getCore State.reset g).sb = [] ∧ (getCore State.reset g).ready = [] ∧ (getCore State.reset g).cache = [])
    ∧ State.reset.tlbs = [] ∧ State.reset.poison = [] ∧ State.reset.enrol = [] ∧ State.reset.kerns = [] ∧ State.reset.turns = []
    ∧ State.reset.cxl = [] ∧ State.reset.pools = freshPools (cxlFrames State.reset) State.reset.swapBlocks
    ∧ (∀ l ∈ State.reset.links, l.state = 4 ∧ l.width = 0 ∧ l.rate = 0 ∧ l.tries = 0)
    ∧ (∀ a, byteAt State.reset a = 0) ∧ Inv State.reset

/-- In every state whose memory is in canonical form, every step that goes on, whatever instruction or event it runs and whatever trap it
takes, leaves memory in canonical form: strictly rising addresses, and no byte listed that an unlisted address reads as. -/
def Obligations.StepKeepsMemory : Prop := ∀ s t : State, Inv s → step s = .next t → Inv t

/-- The module never stops (R2): a step ends in a next state, unless the schedule names a core that the module does not have. -/
def Obligations.StepGoesOn : Prop :=
  ∀ s : State, (∀ g ∈ s.turns.head?.toList.filterMap (fun t => match t with
      | .issue g => some g
      | .tick g _ => some g
      | .cacheFill g _ => some g
      | .cacheDrop g _ => some g
      | .lineDrop g _ => some g
      | .forward _ _ => none
      | .event _ => none), g < Config.cores) → goesOn s

end Claims
end

