-- ==== Sys2Proof/Laws/State.lean ====
section
/-!
SUPPORT. The record updates of the state, field by field: what `setByte`, `writeBytes`, `setCore` leave alone.
-/
namespace Sys2Proof.Machine

/-! ## A byte of memory -/

@[simp] theorem setByte_mem (s : State) (a : Nat) (v : Byte) : (setByte s a v).mem = cellPut s.mem a v := rfl
@[simp] theorem setByte_fib (s : State) (a : Nat) (v : Byte) : (setByte s a v).fib = s.fib := rfl
@[simp] theorem setByte_focus (s : State) (a : Nat) (v : Byte) : (setByte s a v).focus = s.focus := rfl
@[simp] theorem setByte_pair (s : State) (a : Nat) (v : Byte) : (setByte s a v).pair = s.pair := rfl
@[simp] theorem setByte_turns (s : State) (a : Nat) (v : Byte) : (setByte s a v).turns = s.turns := rfl
@[simp] theorem setByte_free (s : State) (a : Nat) (v : Byte) : (setByte s a v).free = s.free := rfl
@[simp] theorem setByte_cores (s : State) (a : Nat) (v : Byte) : (setByte s a v).cores = s.cores := rfl
@[simp] theorem setByte_poison (s : State) (a : Nat) (v : Byte) : (setByte s a v).poison = s.poison := rfl
@[simp] theorem setByte_latent (s : State) (a : Nat) (v : Byte) : (setByte s a v).latent = s.latent := rfl
@[simp] theorem setByte_ports (s : State) (a : Nat) (v : Byte) : (setByte s a v).ports = s.ports := rfl
@[simp] theorem setByte_accepts (s : State) (a : Nat) (v : Byte) : (setByte s a v).accepts = s.accepts := rfl
@[simp] theorem setByte_rels (s : State) (a : Nat) (v : Byte) : (setByte s a v).rels = s.rels := rfl
@[simp] theorem setByte_fused (s : State) (a : Nat) (v : Byte) : (setByte s a v).fused = s.fused := rfl
@[simp] theorem setByte_cur (s : State) (a : Nat) (v : Byte) : (setByte s a v).cur = s.cur := rfl
@[simp] theorem setByte_clock (s : State) (a : Nat) (v : Byte) : (setByte s a v).clock = s.clock := rfl
@[simp] theorem setByte_enrol (s : State) (a : Nat) (v : Byte) : (setByte s a v).enrol = s.enrol := rfl
@[simp] theorem setByte_strag (s : State) (a : Nat) (v : Byte) : (setByte s a v).strag = s.strag := rfl
@[simp] theorem setByte_msgs (s : State) (a : Nat) (v : Byte) : (setByte s a v).msgs = s.msgs := rfl
@[simp] theorem setByte_wakes (s : State) (a : Nat) (v : Byte) : (setByte s a v).wakes = s.wakes := rfl
@[simp] theorem setByte_fired (s : State) (a : Nat) (v : Byte) : (setByte s a v).fired = s.fired := rfl
@[simp] theorem setByte_tlbs (s : State) (a : Nat) (v : Byte) : (setByte s a v).tlbs = s.tlbs := rfl
@[simp] theorem setByte_grants (s : State) (a : Nat) (v : Byte) : (setByte s a v).grants = s.grants := rfl
@[simp] theorem setByte_moving (s : State) (a : Nat) (v : Byte) : (setByte s a v).moving = s.moving := rfl
@[simp] theorem setByte_epoch (s : State) (a : Nat) (v : Byte) : (setByte s a v).epoch = s.epoch := rfl
@[simp] theorem setByte_invs (s : State) (a : Nat) (v : Byte) : (setByte s a v).invs = s.invs := rfl
@[simp] theorem setByte_lastHandle (s : State) (a : Nat) (v : Byte) : (setByte s a v).lastHandle = s.lastHandle := rfl
@[simp] theorem setByte_pools (s : State) (a : Nat) (v : Byte) : (setByte s a v).pools = s.pools := rfl
@[simp] theorem setByte_cmds (s : State) (a : Nat) (v : Byte) : (setByte s a v).cmds = s.cmds := rfl
@[simp] theorem setByte_nextCmd (s : State) (a : Nat) (v : Byte) : (setByte s a v).nextCmd = s.nextCmd := rfl
@[simp] theorem setByte_tables (s : State) (a : Nat) (v : Byte) : (setByte s a v).tables = s.tables := rfl
@[simp] theorem setByte_taken (s : State) (a : Nat) (v : Byte) : (setByte s a v).taken = s.taken := rfl
@[simp] theorem setByte_takes (s : State) (a : Nat) (v : Byte) : (setByte s a v).takes = s.takes := rfl
@[simp] theorem setByte_evicts (s : State) (a : Nat) (v : Byte) : (setByte s a v).evicts = s.evicts := rfl
@[simp] theorem setByte_guards (s : State) (a : Nat) (v : Byte) : (setByte s a v).guards = s.guards := rfl
@[simp] theorem setByte_badBlocks (s : State) (a : Nat) (v : Byte) : (setByte s a v).badBlocks = s.badBlocks := rfl
@[simp] theorem setByte_hostFails (s : State) (a : Nat) (v : Byte) : (setByte s a v).hostFails = s.hostFails := rfl
@[simp] theorem setByte_kerns (s : State) (a : Nat) (v : Byte) : (setByte s a v).kerns = s.kerns := rfl
@[simp] theorem setByte_queues (s : State) (a : Nat) (v : Byte) : (setByte s a v).queues = s.queues := rfl
@[simp] theorem setByte_hslots (s : State) (a : Nat) (v : Byte) : (setByte s a v).hslots = s.hslots := rfl
@[simp] theorem setByte_pending (s : State) (a : Nat) (v : Byte) : (setByte s a v).pending = s.pending := rfl
@[simp] theorem setByte_doneSeq (s : State) (a : Nat) (v : Byte) : (setByte s a v).doneSeq = s.doneSeq := rfl
@[simp] theorem setByte_admitSeq (s : State) (a : Nat) (v : Byte) : (setByte s a v).admitSeq = s.admitSeq := rfl
@[simp] theorem setByte_launches (s : State) (a : Nat) (v : Byte) : (setByte s a v).launches = s.launches := rfl
@[simp] theorem setByte_rises (s : State) (a : Nat) (v : Byte) : (setByte s a v).rises = s.rises := rfl
@[simp] theorem setByte_holds (s : State) (a : Nat) (v : Byte) : (setByte s a v).holds = s.holds := rfl
@[simp] theorem setByte_links (s : State) (a : Nat) (v : Byte) : (setByte s a v).links = s.links := rfl
@[simp] theorem setByte_mask64 (s : State) (a : Nat) (v : Byte) : (setByte s a v).mask64 = s.mask64 := rfl
@[simp] theorem setByte_pend64 (s : State) (a : Nat) (v : Byte) : (setByte s a v).pend64 = s.pend64 := rfl
@[simp] theorem setByte_msix (s : State) (a : Nat) (v : Byte) : (setByte s a v).msix = s.msix := rfl
@[simp] theorem setByte_out (s : State) (a : Nat) (v : Byte) : (setByte s a v).out = s.out := rfl
@[simp] theorem setByte_mask (s : State) (a : Nat) (v : Byte) : (setByte s a v).mask = s.mask := rfl
@[simp] theorem setByte_modid (s : State) (a : Nat) (v : Byte) : (setByte s a v).modid = s.modid := rfl
@[simp] theorem setByte_selfHosted (s : State) (a : Nat) (v : Byte) : (setByte s a v).selfHosted = s.selfHosted := rfl
@[simp] theorem setByte_life (s : State) (a : Nat) (v : Byte) : (setByte s a v).life = s.life := rfl
@[simp] theorem setByte_roles (s : State) (a : Nat) (v : Byte) : (setByte s a v).roles = s.roles := rfl
@[simp] theorem setByte_welts (s : State) (a : Nat) (v : Byte) : (setByte s a v).welts = s.welts := rfl
@[simp] theorem setByte_hwalk (s : State) (a : Nat) (v : Byte) : (setByte s a v).hwalk = s.hwalk := rfl
@[simp] theorem setByte_nveng (s : State) (a : Nat) (v : Byte) : (setByte s a v).nveng = s.nveng := rfl
@[simp] theorem setByte_cxl (s : State) (a : Nat) (v : Byte) : (setByte s a v).cxl = s.cxl := rfl
@[simp] theorem setByte_swapNs (s : State) (a : Nat) (v : Byte) : (setByte s a v).swapNs = s.swapNs := rfl
@[simp] theorem setByte_swapBlocks (s : State) (a : Nat) (v : Byte) : (setByte s a v).swapBlocks = s.swapBlocks := rfl
@[simp] theorem setByte_held (s : State) (a : Nat) (v : Byte) : (setByte s a v).held = s.held := rfl
@[simp] theorem setByte_trained (s : State) (a : Nat) (v : Byte) : (setByte s a v).trained = s.trained := rfl
@[simp] theorem setByte_owner (s : State) (a : Nat) (v : Byte) : (setByte s a v).owner = s.owner := rfl
@[simp] theorem setByte_power (s : State) (a : Nat) (v : Byte) : (setByte s a v).power = s.power := rfl
@[simp] theorem setByte_images (s : State) (a : Nat) (v : Byte) : (setByte s a v).images = s.images := rfl
@[simp] theorem setByte_measured (s : State) (a : Nat) (v : Byte) : (setByte s a v).measured = s.measured := rfl
@[simp] theorem setByte_sstep (s : State) (a : Nat) (v : Byte) : (setByte s a v).sstep = s.sstep := rfl
@[simp] theorem setByte_cold (s : State) (a : Nat) (v : Byte) : (setByte s a v).cold = s.cold := rfl
@[simp] theorem setByte_failed (s : State) (a : Nat) (v : Byte) : (setByte s a v).failed = s.failed := rfl

/-! ## The bytes of a list -/

/-- Writing bytes is a change of `mem` alone. -/
theorem writeBytes_eq (s : State) (a : Nat) (l : List Byte) : writeBytes s a l = { s with mem := (writeBytes s a l).mem } := by
  induction l generalizing s a with
  | nil => rfl
  | cons b r ih => simpa [writeBytes] using ih (setByte s a b) (a + 1)

@[simp] theorem writeBytes_fib (s : State) (a : Nat) (l : List Byte) : (writeBytes s a l).fib = s.fib := by rw [writeBytes_eq]
@[simp] theorem writeBytes_focus (s : State) (a : Nat) (l : List Byte) : (writeBytes s a l).focus = s.focus := by rw [writeBytes_eq]
@[simp] theorem writeBytes_pair (s : State) (a : Nat) (l : List Byte) : (writeBytes s a l).pair = s.pair := by rw [writeBytes_eq]
@[simp] theorem writeBytes_turns (s : State) (a : Nat) (l : List Byte) : (writeBytes s a l).turns = s.turns := by rw [writeBytes_eq]
@[simp] theorem writeBytes_free (s : State) (a : Nat) (l : List Byte) : (writeBytes s a l).free = s.free := by rw [writeBytes_eq]
@[simp] theorem writeBytes_cores (s : State) (a : Nat) (l : List Byte) : (writeBytes s a l).cores = s.cores := by rw [writeBytes_eq]
@[simp] theorem writeBytes_poison (s : State) (a : Nat) (l : List Byte) : (writeBytes s a l).poison = s.poison := by rw [writeBytes_eq]
@[simp] theorem writeBytes_latent (s : State) (a : Nat) (l : List Byte) : (writeBytes s a l).latent = s.latent := by rw [writeBytes_eq]
@[simp] theorem writeBytes_ports (s : State) (a : Nat) (l : List Byte) : (writeBytes s a l).ports = s.ports := by rw [writeBytes_eq]
@[simp] theorem writeBytes_accepts (s : State) (a : Nat) (l : List Byte) : (writeBytes s a l).accepts = s.accepts := by rw [writeBytes_eq]
@[simp] theorem writeBytes_rels (s : State) (a : Nat) (l : List Byte) : (writeBytes s a l).rels = s.rels := by rw [writeBytes_eq]
@[simp] theorem writeBytes_fused (s : State) (a : Nat) (l : List Byte) : (writeBytes s a l).fused = s.fused := by rw [writeBytes_eq]
@[simp] theorem writeBytes_cur (s : State) (a : Nat) (l : List Byte) : (writeBytes s a l).cur = s.cur := by rw [writeBytes_eq]
@[simp] theorem writeBytes_clock (s : State) (a : Nat) (l : List Byte) : (writeBytes s a l).clock = s.clock := by rw [writeBytes_eq]
@[simp] theorem writeBytes_enrol (s : State) (a : Nat) (l : List Byte) : (writeBytes s a l).enrol = s.enrol := by rw [writeBytes_eq]
@[simp] theorem writeBytes_strag (s : State) (a : Nat) (l : List Byte) : (writeBytes s a l).strag = s.strag := by rw [writeBytes_eq]
@[simp] theorem writeBytes_msgs (s : State) (a : Nat) (l : List Byte) : (writeBytes s a l).msgs = s.msgs := by rw [writeBytes_eq]
@[simp] theorem writeBytes_wakes (s : State) (a : Nat) (l : List Byte) : (writeBytes s a l).wakes = s.wakes := by rw [writeBytes_eq]
@[simp] theorem writeBytes_fired (s : State) (a : Nat) (l : List Byte) : (writeBytes s a l).fired = s.fired := by rw [writeBytes_eq]
@[simp] theorem writeBytes_tlbs (s : State) (a : Nat) (l : List Byte) : (writeBytes s a l).tlbs = s.tlbs := by rw [writeBytes_eq]
@[simp] theorem writeBytes_grants (s : State) (a : Nat) (l : List Byte) : (writeBytes s a l).grants = s.grants := by rw [writeBytes_eq]
@[simp] theorem writeBytes_moving (s : State) (a : Nat) (l : List Byte) : (writeBytes s a l).moving = s.moving := by rw [writeBytes_eq]
@[simp] theorem writeBytes_epoch (s : State) (a : Nat) (l : List Byte) : (writeBytes s a l).epoch = s.epoch := by rw [writeBytes_eq]
@[simp] theorem writeBytes_invs (s : State) (a : Nat) (l : List Byte) : (writeBytes s a l).invs = s.invs := by rw [writeBytes_eq]
@[simp] theorem writeBytes_lastHandle (s : State) (a : Nat) (l : List Byte) : (writeBytes s a l).lastHandle = s.lastHandle := by rw [writeBytes_eq]
@[simp] theorem writeBytes_pools (s : State) (a : Nat) (l : List Byte) : (writeBytes s a l).pools = s.pools := by rw [writeBytes_eq]
@[simp] theorem writeBytes_cmds (s : State) (a : Nat) (l : List Byte) : (writeBytes s a l).cmds = s.cmds := by rw [writeBytes_eq]
@[simp] theorem writeBytes_nextCmd (s : State) (a : Nat) (l : List Byte) : (writeBytes s a l).nextCmd = s.nextCmd := by rw [writeBytes_eq]
@[simp] theorem writeBytes_tables (s : State) (a : Nat) (l : List Byte) : (writeBytes s a l).tables = s.tables := by rw [writeBytes_eq]
@[simp] theorem writeBytes_taken (s : State) (a : Nat) (l : List Byte) : (writeBytes s a l).taken = s.taken := by rw [writeBytes_eq]
@[simp] theorem writeBytes_takes (s : State) (a : Nat) (l : List Byte) : (writeBytes s a l).takes = s.takes := by rw [writeBytes_eq]
@[simp] theorem writeBytes_evicts (s : State) (a : Nat) (l : List Byte) : (writeBytes s a l).evicts = s.evicts := by rw [writeBytes_eq]
@[simp] theorem writeBytes_guards (s : State) (a : Nat) (l : List Byte) : (writeBytes s a l).guards = s.guards := by rw [writeBytes_eq]
@[simp] theorem writeBytes_badBlocks (s : State) (a : Nat) (l : List Byte) : (writeBytes s a l).badBlocks = s.badBlocks := by rw [writeBytes_eq]
@[simp] theorem writeBytes_hostFails (s : State) (a : Nat) (l : List Byte) : (writeBytes s a l).hostFails = s.hostFails := by rw [writeBytes_eq]
@[simp] theorem writeBytes_kerns (s : State) (a : Nat) (l : List Byte) : (writeBytes s a l).kerns = s.kerns := by rw [writeBytes_eq]
@[simp] theorem writeBytes_queues (s : State) (a : Nat) (l : List Byte) : (writeBytes s a l).queues = s.queues := by rw [writeBytes_eq]
@[simp] theorem writeBytes_hslots (s : State) (a : Nat) (l : List Byte) : (writeBytes s a l).hslots = s.hslots := by rw [writeBytes_eq]
@[simp] theorem writeBytes_pending (s : State) (a : Nat) (l : List Byte) : (writeBytes s a l).pending = s.pending := by rw [writeBytes_eq]
@[simp] theorem writeBytes_doneSeq (s : State) (a : Nat) (l : List Byte) : (writeBytes s a l).doneSeq = s.doneSeq := by rw [writeBytes_eq]
@[simp] theorem writeBytes_admitSeq (s : State) (a : Nat) (l : List Byte) : (writeBytes s a l).admitSeq = s.admitSeq := by rw [writeBytes_eq]
@[simp] theorem writeBytes_launches (s : State) (a : Nat) (l : List Byte) : (writeBytes s a l).launches = s.launches := by rw [writeBytes_eq]
@[simp] theorem writeBytes_rises (s : State) (a : Nat) (l : List Byte) : (writeBytes s a l).rises = s.rises := by rw [writeBytes_eq]
@[simp] theorem writeBytes_holds (s : State) (a : Nat) (l : List Byte) : (writeBytes s a l).holds = s.holds := by rw [writeBytes_eq]
@[simp] theorem writeBytes_links (s : State) (a : Nat) (l : List Byte) : (writeBytes s a l).links = s.links := by rw [writeBytes_eq]
@[simp] theorem writeBytes_mask64 (s : State) (a : Nat) (l : List Byte) : (writeBytes s a l).mask64 = s.mask64 := by rw [writeBytes_eq]
@[simp] theorem writeBytes_pend64 (s : State) (a : Nat) (l : List Byte) : (writeBytes s a l).pend64 = s.pend64 := by rw [writeBytes_eq]
@[simp] theorem writeBytes_msix (s : State) (a : Nat) (l : List Byte) : (writeBytes s a l).msix = s.msix := by rw [writeBytes_eq]
@[simp] theorem writeBytes_out (s : State) (a : Nat) (l : List Byte) : (writeBytes s a l).out = s.out := by rw [writeBytes_eq]
@[simp] theorem writeBytes_mask (s : State) (a : Nat) (l : List Byte) : (writeBytes s a l).mask = s.mask := by rw [writeBytes_eq]
@[simp] theorem writeBytes_modid (s : State) (a : Nat) (l : List Byte) : (writeBytes s a l).modid = s.modid := by rw [writeBytes_eq]
@[simp] theorem writeBytes_selfHosted (s : State) (a : Nat) (l : List Byte) : (writeBytes s a l).selfHosted = s.selfHosted := by rw [writeBytes_eq]
@[simp] theorem writeBytes_life (s : State) (a : Nat) (l : List Byte) : (writeBytes s a l).life = s.life := by rw [writeBytes_eq]
@[simp] theorem writeBytes_roles (s : State) (a : Nat) (l : List Byte) : (writeBytes s a l).roles = s.roles := by rw [writeBytes_eq]
@[simp] theorem writeBytes_welts (s : State) (a : Nat) (l : List Byte) : (writeBytes s a l).welts = s.welts := by rw [writeBytes_eq]
@[simp] theorem writeBytes_hwalk (s : State) (a : Nat) (l : List Byte) : (writeBytes s a l).hwalk = s.hwalk := by rw [writeBytes_eq]
@[simp] theorem writeBytes_nveng (s : State) (a : Nat) (l : List Byte) : (writeBytes s a l).nveng = s.nveng := by rw [writeBytes_eq]
@[simp] theorem writeBytes_cxl (s : State) (a : Nat) (l : List Byte) : (writeBytes s a l).cxl = s.cxl := by rw [writeBytes_eq]
@[simp] theorem writeBytes_swapNs (s : State) (a : Nat) (l : List Byte) : (writeBytes s a l).swapNs = s.swapNs := by rw [writeBytes_eq]
@[simp] theorem writeBytes_swapBlocks (s : State) (a : Nat) (l : List Byte) : (writeBytes s a l).swapBlocks = s.swapBlocks := by rw [writeBytes_eq]
@[simp] theorem writeBytes_held (s : State) (a : Nat) (l : List Byte) : (writeBytes s a l).held = s.held := by rw [writeBytes_eq]
@[simp] theorem writeBytes_trained (s : State) (a : Nat) (l : List Byte) : (writeBytes s a l).trained = s.trained := by rw [writeBytes_eq]
@[simp] theorem writeBytes_owner (s : State) (a : Nat) (l : List Byte) : (writeBytes s a l).owner = s.owner := by rw [writeBytes_eq]
@[simp] theorem writeBytes_power (s : State) (a : Nat) (l : List Byte) : (writeBytes s a l).power = s.power := by rw [writeBytes_eq]
@[simp] theorem writeBytes_images (s : State) (a : Nat) (l : List Byte) : (writeBytes s a l).images = s.images := by rw [writeBytes_eq]
@[simp] theorem writeBytes_measured (s : State) (a : Nat) (l : List Byte) : (writeBytes s a l).measured = s.measured := by rw [writeBytes_eq]
@[simp] theorem writeBytes_sstep (s : State) (a : Nat) (l : List Byte) : (writeBytes s a l).sstep = s.sstep := by rw [writeBytes_eq]
@[simp] theorem writeBytes_cold (s : State) (a : Nat) (l : List Byte) : (writeBytes s a l).cold = s.cold := by rw [writeBytes_eq]
@[simp] theorem writeBytes_failed (s : State) (a : Nat) (l : List Byte) : (writeBytes s a l).failed = s.failed := by rw [writeBytes_eq]

/-! ## The table of cores -/

@[simp] theorem setCore_cores (s : State) (g : Nat) (c : Core) : (setCore s g c).cores = place s.cores g c := rfl
@[simp] theorem setCore_fib (s : State) (g : Nat) (c : Core) : (setCore s g c).fib = s.fib := rfl
@[simp] theorem setCore_focus (s : State) (g : Nat) (c : Core) : (setCore s g c).focus = s.focus := rfl
@[simp] theorem setCore_pair (s : State) (g : Nat) (c : Core) : (setCore s g c).pair = s.pair := rfl
@[simp] theorem setCore_turns (s : State) (g : Nat) (c : Core) : (setCore s g c).turns = s.turns := rfl
@[simp] theorem setCore_free (s : State) (g : Nat) (c : Core) : (setCore s g c).free = s.free := rfl
@[simp] theorem setCore_mem (s : State) (g : Nat) (c : Core) : (setCore s g c).mem = s.mem := rfl
@[simp] theorem setCore_poison (s : State) (g : Nat) (c : Core) : (setCore s g c).poison = s.poison := rfl
@[simp] theorem setCore_latent (s : State) (g : Nat) (c : Core) : (setCore s g c).latent = s.latent := rfl
@[simp] theorem setCore_ports (s : State) (g : Nat) (c : Core) : (setCore s g c).ports = s.ports := rfl
@[simp] theorem setCore_accepts (s : State) (g : Nat) (c : Core) : (setCore s g c).accepts = s.accepts := rfl
@[simp] theorem setCore_rels (s : State) (g : Nat) (c : Core) : (setCore s g c).rels = s.rels := rfl
@[simp] theorem setCore_fused (s : State) (g : Nat) (c : Core) : (setCore s g c).fused = s.fused := rfl
@[simp] theorem setCore_cur (s : State) (g : Nat) (c : Core) : (setCore s g c).cur = s.cur := rfl
@[simp] theorem setCore_clock (s : State) (g : Nat) (c : Core) : (setCore s g c).clock = s.clock := rfl
@[simp] theorem setCore_enrol (s : State) (g : Nat) (c : Core) : (setCore s g c).enrol = s.enrol := rfl
@[simp] theorem setCore_strag (s : State) (g : Nat) (c : Core) : (setCore s g c).strag = s.strag := rfl
@[simp] theorem setCore_msgs (s : State) (g : Nat) (c : Core) : (setCore s g c).msgs = s.msgs := rfl
@[simp] theorem setCore_wakes (s : State) (g : Nat) (c : Core) : (setCore s g c).wakes = s.wakes := rfl
@[simp] theorem setCore_fired (s : State) (g : Nat) (c : Core) : (setCore s g c).fired = s.fired := rfl
@[simp] theorem setCore_tlbs (s : State) (g : Nat) (c : Core) : (setCore s g c).tlbs = s.tlbs := rfl
@[simp] theorem setCore_grants (s : State) (g : Nat) (c : Core) : (setCore s g c).grants = s.grants := rfl
@[simp] theorem setCore_moving (s : State) (g : Nat) (c : Core) : (setCore s g c).moving = s.moving := rfl
@[simp] theorem setCore_epoch (s : State) (g : Nat) (c : Core) : (setCore s g c).epoch = s.epoch := rfl
@[simp] theorem setCore_invs (s : State) (g : Nat) (c : Core) : (setCore s g c).invs = s.invs := rfl
@[simp] theorem setCore_lastHandle (s : State) (g : Nat) (c : Core) : (setCore s g c).lastHandle = s.lastHandle := rfl
@[simp] theorem setCore_pools (s : State) (g : Nat) (c : Core) : (setCore s g c).pools = s.pools := rfl
@[simp] theorem setCore_cmds (s : State) (g : Nat) (c : Core) : (setCore s g c).cmds = s.cmds := rfl
@[simp] theorem setCore_nextCmd (s : State) (g : Nat) (c : Core) : (setCore s g c).nextCmd = s.nextCmd := rfl
@[simp] theorem setCore_tables (s : State) (g : Nat) (c : Core) : (setCore s g c).tables = s.tables := rfl
@[simp] theorem setCore_taken (s : State) (g : Nat) (c : Core) : (setCore s g c).taken = s.taken := rfl
@[simp] theorem setCore_takes (s : State) (g : Nat) (c : Core) : (setCore s g c).takes = s.takes := rfl
@[simp] theorem setCore_evicts (s : State) (g : Nat) (c : Core) : (setCore s g c).evicts = s.evicts := rfl
@[simp] theorem setCore_guards (s : State) (g : Nat) (c : Core) : (setCore s g c).guards = s.guards := rfl
@[simp] theorem setCore_badBlocks (s : State) (g : Nat) (c : Core) : (setCore s g c).badBlocks = s.badBlocks := rfl
@[simp] theorem setCore_hostFails (s : State) (g : Nat) (c : Core) : (setCore s g c).hostFails = s.hostFails := rfl
@[simp] theorem setCore_kerns (s : State) (g : Nat) (c : Core) : (setCore s g c).kerns = s.kerns := rfl
@[simp] theorem setCore_queues (s : State) (g : Nat) (c : Core) : (setCore s g c).queues = s.queues := rfl
@[simp] theorem setCore_hslots (s : State) (g : Nat) (c : Core) : (setCore s g c).hslots = s.hslots := rfl
@[simp] theorem setCore_pending (s : State) (g : Nat) (c : Core) : (setCore s g c).pending = s.pending := rfl
@[simp] theorem setCore_doneSeq (s : State) (g : Nat) (c : Core) : (setCore s g c).doneSeq = s.doneSeq := rfl
@[simp] theorem setCore_admitSeq (s : State) (g : Nat) (c : Core) : (setCore s g c).admitSeq = s.admitSeq := rfl
@[simp] theorem setCore_launches (s : State) (g : Nat) (c : Core) : (setCore s g c).launches = s.launches := rfl
@[simp] theorem setCore_rises (s : State) (g : Nat) (c : Core) : (setCore s g c).rises = s.rises := rfl
@[simp] theorem setCore_holds (s : State) (g : Nat) (c : Core) : (setCore s g c).holds = s.holds := rfl
@[simp] theorem setCore_links (s : State) (g : Nat) (c : Core) : (setCore s g c).links = s.links := rfl
@[simp] theorem setCore_mask64 (s : State) (g : Nat) (c : Core) : (setCore s g c).mask64 = s.mask64 := rfl
@[simp] theorem setCore_pend64 (s : State) (g : Nat) (c : Core) : (setCore s g c).pend64 = s.pend64 := rfl
@[simp] theorem setCore_msix (s : State) (g : Nat) (c : Core) : (setCore s g c).msix = s.msix := rfl
@[simp] theorem setCore_out (s : State) (g : Nat) (c : Core) : (setCore s g c).out = s.out := rfl
@[simp] theorem setCore_mask (s : State) (g : Nat) (c : Core) : (setCore s g c).mask = s.mask := rfl
@[simp] theorem setCore_modid (s : State) (g : Nat) (c : Core) : (setCore s g c).modid = s.modid := rfl
@[simp] theorem setCore_selfHosted (s : State) (g : Nat) (c : Core) : (setCore s g c).selfHosted = s.selfHosted := rfl
@[simp] theorem setCore_life (s : State) (g : Nat) (c : Core) : (setCore s g c).life = s.life := rfl
@[simp] theorem setCore_roles (s : State) (g : Nat) (c : Core) : (setCore s g c).roles = s.roles := rfl
@[simp] theorem setCore_welts (s : State) (g : Nat) (c : Core) : (setCore s g c).welts = s.welts := rfl
@[simp] theorem setCore_hwalk (s : State) (g : Nat) (c : Core) : (setCore s g c).hwalk = s.hwalk := rfl
@[simp] theorem setCore_nveng (s : State) (g : Nat) (c : Core) : (setCore s g c).nveng = s.nveng := rfl
@[simp] theorem setCore_cxl (s : State) (g : Nat) (c : Core) : (setCore s g c).cxl = s.cxl := rfl
@[simp] theorem setCore_swapNs (s : State) (g : Nat) (c : Core) : (setCore s g c).swapNs = s.swapNs := rfl
@[simp] theorem setCore_swapBlocks (s : State) (g : Nat) (c : Core) : (setCore s g c).swapBlocks = s.swapBlocks := rfl
@[simp] theorem setCore_held (s : State) (g : Nat) (c : Core) : (setCore s g c).held = s.held := rfl
@[simp] theorem setCore_trained (s : State) (g : Nat) (c : Core) : (setCore s g c).trained = s.trained := rfl
@[simp] theorem setCore_owner (s : State) (g : Nat) (c : Core) : (setCore s g c).owner = s.owner := rfl
@[simp] theorem setCore_power (s : State) (g : Nat) (c : Core) : (setCore s g c).power = s.power := rfl
@[simp] theorem setCore_images (s : State) (g : Nat) (c : Core) : (setCore s g c).images = s.images := rfl
@[simp] theorem setCore_measured (s : State) (g : Nat) (c : Core) : (setCore s g c).measured = s.measured := rfl
@[simp] theorem setCore_sstep (s : State) (g : Nat) (c : Core) : (setCore s g c).sstep = s.sstep := rfl
@[simp] theorem setCore_cold (s : State) (g : Nat) (c : Core) : (setCore s g c).cold = s.cold := rfl
@[simp] theorem setCore_failed (s : State) (g : Nat) (c : Core) : (setCore s g c).failed = s.failed := rfl

end Sys2Proof.Machine
end

