-- ==== Sys2Proof/Laws/Home.lean ====
section
/-!
SUPPORT. What an event at a counter home can change: memory, poison, waiters, straggler records, wakes and interrupts, and nothing else.
-/
namespace Sys2Proof.Machine

/-- A state with all that a counter home keeps left out; t agrees with s in the rest. -/
def besideHome (s : State) : State := { s with mem := [], poison := [], latent := [], enrol := [], strag := [], wakes := [], fired := [], pend64 := [], out := [] }
def HomeOnly (s t : State) : Prop := besideHome t = besideHome s

theorem HomeOnly.refl (s : State) : HomeOnly s s := rfl
theorem HomeOnly.trans {s t u : State} (h : HomeOnly s t) (k : HomeOnly t u) : HomeOnly s u := Eq.trans k h
theorem HomeOnly.foldl {α : Type} {f : State → α → State} (h : ∀ s a, HomeOnly s (f s a)) : ∀ (l : List α) (s : State), HomeOnly s (l.foldl f s)
  | [], s => HomeOnly.refl s
  | a :: l, s => (h s a).trans (HomeOnly.foldl h l (f s a))

theorem HomeOnly.fib {s t : State} (h : HomeOnly s t) : t.fib = s.fib := by
  unfold HomeOnly at h; have k : (besideHome t).fib = (besideHome s).fib := by rw [h]
  exact k
theorem HomeOnly.focus {s t : State} (h : HomeOnly s t) : t.focus = s.focus := by
  unfold HomeOnly at h; have k : (besideHome t).focus = (besideHome s).focus := by rw [h]
  exact k
theorem HomeOnly.pair {s t : State} (h : HomeOnly s t) : t.pair = s.pair := by
  unfold HomeOnly at h; have k : (besideHome t).pair = (besideHome s).pair := by rw [h]
  exact k
theorem HomeOnly.turns {s t : State} (h : HomeOnly s t) : t.turns = s.turns := by
  unfold HomeOnly at h; have k : (besideHome t).turns = (besideHome s).turns := by rw [h]
  exact k
theorem HomeOnly.cores {s t : State} (h : HomeOnly s t) : t.cores = s.cores := by
  unfold HomeOnly at h; have k : (besideHome t).cores = (besideHome s).cores := by rw [h]
  exact k

theorem writeBytes_home (s : State) (a : Nat) (l : List Byte) : HomeOnly s (writeBytes s a l) := by
  unfold HomeOnly; rw [writeBytes_eq]; rfl
theorem writeWord_home (s : State) (a : Nat) (v : Word) : HomeOnly s (writeWord s a v) := writeBytes_home s a _
theorem bumpDie_home (s : State) (d off n : Nat) : HomeOnly s (bumpDie s d off n) := writeBytes_home s _ _
theorem bumpIo_home (s : State) (i off n : Nat) : HomeOnly s (bumpIo s i off n) := writeBytes_home s _ _
theorem clearToxic_home (s : State) (a : Nat) : HomeOnly s (clearToxic s a) := rfl
theorem setToxic_home (s : State) (a : Nat) : HomeOnly s (setToxic s a) := by unfold setToxic; split <;> rfl
theorem storeBytes_home (s : State) (a : Nat) (l : List Byte) : HomeOnly s (storeBytes s a l) :=
  HomeOnly.trans (t := { s with poison := _, latent := _ }) rfl (writeBytes_home _ _ _)
theorem countMemError_home (s : State) (a : Nat) (b : Bool) : HomeOnly s (countMemError s a b) := by
  unfold countMemError; split
  · exact bumpDie_home _ _ _ _
  · split
    · exact bumpDie_home _ _ _ _
    · exact bumpIo_home _ _ _ _
    · rfl
/-- A read of the device corrects and counts single-bit errors at most (R82). -/
theorem correctWords_home (s : State) (p : Nat → Bool) : HomeOnly s (correctWords s p) := by
  unfold correctWords; dsimp only; split
  · rfl
  · exact HomeOnly.trans (t := { s with latent := _ }) rfl (HomeOnly.foldl (fun t w => countMemError_home t w false) _ _)
theorem correctRead_home (s : State) (a n : Nat) : HomeOnly s (correctRead s a n) := correctWords_home s _
theorem seeWaited_home (s : State) (w : Nat) : HomeOnly s (seeWaited s w) := by
  unfold seeWaited; split
  · exact correctRead_home _ _ _
  · rfl

theorem sendMsix_home (s : State) (v n : Nat) : HomeOnly s (sendMsix s v n) := by
  unfold sendMsix; split
  · split <;> rfl
  · rfl
theorem allocStrag_home (s : State) (a : Nat) : HomeOnly s (allocStrag s a) := by unfold allocStrag; split <;> rfl
theorem startStrag_home (s : State) (a : Nat) : HomeOnly s (startStrag s a) := by
  unfold startStrag; split
  · split <;> rfl
  · rfl
theorem completeStrag_home (s : State) (a : Nat) (w : Adder) (v : Word) : HomeOnly s (completeStrag s a w v) := by
  unfold completeStrag; split <;> rfl
theorem enrolWaiter_home (s : State) (w : Waiter) (a : Nat) (v : Word) : HomeOnly s (enrolWaiter s w a v) := by
  unfold enrolWaiter; split
  · exact HomeOnly.trans (t := { s with enrol := _ }) rfl (allocStrag_home _ _)
  · rfl

theorem fireIrq_home (s : State) (v : Nat) (x : Word) : HomeOnly s (fireIrq s v x) := by
  unfold fireIrq
  have h : ∀ n u, HomeOnly s (sendMsix (writeWord s (irqLoc v + 8) u) v n) := fun n u => (writeWord_home s _ u).trans (sendMsix_home _ _ _)
  dsimp only
  split
  · split
    · exact h _ _
    · exact (h _ _).trans (enrolWaiter_home _ _ _ _)
  · exact h _ _

theorem wakeOne_home (s : State) (e : Enrol) (v : Option Word) : HomeOnly s (wakeOne s e v) := by
  unfold wakeOne; split
  · rfl
  · rfl
  · split
    · exact fireIrq_home _ _ _
    · exact enrolWaiter_home _ _ _ _
  all_goals rfl

theorem testWaiters_home (s : State) (a : Nat) (v : Word) (w : Adder) : HomeOnly s (testWaiters s a v w) := by
  unfold testWaiters; dsimp only; split
  · rfl
  · refine HomeOnly.trans ?_ (HomeOnly.foldl (fun t e => wakeOne_home t e (some v)) _ _)
    exact HomeOnly.trans (t := { s with enrol := _ }) rfl (completeStrag_home _ _ _ _)

theorem poisonEvent_home (s : State) (a : Nat) : HomeOnly s (poisonEvent s a) := by
  unfold poisonEvent; dsimp only; split
  · refine HomeOnly.trans ?_ (HomeOnly.foldl (fun t e => wakeOne_home t e _) _ _)
    exact HomeOnly.trans (t := clearToxic { s with enrol := _ } a) rfl ((writeWord_home _ _ _).trans (bumpDie_home _ _ _ _))
  · exact HomeOnly.trans (t := { s with enrol := _ }) rfl (HomeOnly.foldl (fun t e => wakeOne_home t e _) _ _)

theorem setCounter_home (s : State) (a : Nat) (v : Word) (w : Adder) : HomeOnly s (setCounter s a v w) :=
  ((startStrag_home s a).trans (writeWord_home _ _ _)).trans (testWaiters_home _ _ _ _)

/-- A posted add at its home. -/
theorem addAt_home (s : State) (a : Nat) (v : Word) (w : Adder) : HomeOnly s (addAt s a v w) := by
  unfold addAt; dsimp only; split
  · exact (correctRead_home s a 8).trans ((poisonEvent_home _ a).trans (bumpDie_home _ _ _ _))
  · exact (correctRead_home s a 8).trans (setCounter_home _ _ _ _)

/-- A store at its serialiser. -/
theorem storeAt_home (s : State) (a : Nat) (l : List Byte) (w : Adder) : HomeOnly s (storeAt s a l w) := by
  unfold storeAt; dsimp only; split
  · refine (storeBytes_home s a l).trans (HomeOnly.foldl (fun t x => ?_) _ _)
    split
    · unfold leftToxic; split
      · exact poisonEvent_home _ _
      · rfl
    · exact (seeWaited_home _ _).trans (testWaiters_home _ _ _ _)
  · exact storeBytes_home s a l

@[simp] theorem addAt_fib (s : State) (a : Nat) (v : Word) (w : Adder) : (addAt s a v w).fib = s.fib := (addAt_home s a v w).fib
@[simp] theorem addAt_focus (s : State) (a : Nat) (v : Word) (w : Adder) : (addAt s a v w).focus = s.focus := (addAt_home s a v w).focus
@[simp] theorem addAt_pair (s : State) (a : Nat) (v : Word) (w : Adder) : (addAt s a v w).pair = s.pair := (addAt_home s a v w).pair
@[simp] theorem addAt_cores (s : State) (a : Nat) (v : Word) (w : Adder) : (addAt s a v w).cores = s.cores := (addAt_home s a v w).cores
@[simp] theorem storeAt_fib (s : State) (a : Nat) (l : List Byte) (w : Adder) : (storeAt s a l w).fib = s.fib := (storeAt_home s a l w).fib
@[simp] theorem storeAt_focus (s : State) (a : Nat) (l : List Byte) (w : Adder) : (storeAt s a l w).focus = s.focus := (storeAt_home s a l w).focus
@[simp] theorem storeAt_pair (s : State) (a : Nat) (l : List Byte) (w : Adder) : (storeAt s a l w).pair = s.pair := (storeAt_home s a l w).pair
@[simp] theorem storeAt_cores (s : State) (a : Nat) (l : List Byte) (w : Adder) : (storeAt s a l w).cores = s.cores := (storeAt_home s a l w).cores

/-- The posted adds of a core to one home, applied: nothing but the home's state and the list of adds changes. -/
theorem flushMsgs_home (s : State) (g h : Nat) : HomeOnly { s with msgs := (flushMsgs s g h).msgs } (flushMsgs s g h) := by
  have k : HomeOnly { s with msgs := s.msgs.filter fun m => !(m.src == g && homeOf m.loc == h) } (flushMsgs s g h) := by
    unfold flushMsgs; exact HomeOnly.foldl (fun t (m : CtrMsg) => addAt_home t m.loc m.inc m.who) _ _
  have m : (besideHome (flushMsgs s g h)).msgs = s.msgs.filter fun m => !(m.src == g && homeOf m.loc == h) := by
    unfold HomeOnly at k; rw [k]; rfl
  have m' : (flushMsgs s g h).msgs = s.msgs.filter fun m => !(m.src == g && homeOf m.loc == h) := m
  rw [m']; exact k

@[simp] theorem flushMsgs_fib (s : State) (g h : Nat) : (flushMsgs s g h).fib = s.fib := (flushMsgs_home s g h).fib
@[simp] theorem flushMsgs_focus (s : State) (g h : Nat) : (flushMsgs s g h).focus = s.focus := (flushMsgs_home s g h).focus
@[simp] theorem flushMsgs_pair (s : State) (g h : Nat) : (flushMsgs s g h).pair = s.pair := (flushMsgs_home s g h).pair
@[simp] theorem flushMsgs_cores (s : State) (g h : Nat) : (flushMsgs s g h).cores = s.cores := (flushMsgs_home s g h).cores

end Sys2Proof.Machine
end

