-- ==== Sys2Proof/Laws/Run.lean ====
section
/-!
SUPPORT. How an effect runs: one equation per building block of `M`, the reads of registers that are plain, and the writes to them.
-/
namespace Sys2Proof.Machine

/-! ## The monad -/

@[simp] theorem run_pure {α : Type} (a : α) (s : State) : (pure a : M α) s = .ok (a, s) := rfl

theorem run_bind {α β : Type} (m : M α) (f : α → M β) (s : State) :
    (m >>= f) s = match m s with
      | .ok (a, t) => f a t
      | .error e => .error e := by
  show (StateT.bind m f) s = _
  unfold StateT.bind
  cases m s <;> rfl

/-- An effect goes on with what its first part has returned. -/
theorem run_bind_ok {α β : Type} {m : M α} {f : α → M β} {s t : State} {a : α} (h : m s = .ok (a, t)) : (m >>= f) s = f a t := by
  rw [run_bind, h]

theorem run_bind_error {α β : Type} {m : M α} {f : α → M β} {s : State} {e : Stop} (h : m s = .error e) : (m >>= f) s = .error e := by
  rw [run_bind, h]

@[simp] theorem run_get (s : State) : (get : M State) s = .ok (s, s) := rfl
@[simp] theorem run_set (s t : State) : (set t : M PUnit) s = .ok (PUnit.unit, t) := rfl
@[simp] theorem run_theFib (s : State) : theFib s = .ok (s.fib, s) := rfl
@[simp] theorem run_theCore (s : State) : theCore s = .ok (s.focus.1, s) := rfl
@[simp] theorem run_theSlot (s : State) : theSlot s = .ok (s.focus.2, s) := rfl
@[simp] theorem run_modFib (f : Fib → Fib) (s : State) : modFib f s = .ok ((), { s with fib := f s.fib }) := rfl
@[simp] theorem run_change (f : State → State) (s : State) : change f s = .ok ((), f s) := rfl
@[simp] theorem run_fail {α : Type} (c : Nat) (a : Word) (s : State) : (fail c a : M α) s = .error (.trap c a false none) := rfl
@[simp] theorem run_takeWake (s : State) : takeWake s = .ok (s.fib.wake, { s with fib := { s.fib with wake := none } }) := rfl

/-! ## How an instruction ends -/

/-- An effect that completes goes on as its flow says. -/
theorem perform_ok {m : M Flow} {s t : State} {fl : Flow} (h : m s = .ok (fl, t)) (hp : t.pair = none) :
    perform m s = .next (applyFlow t fl (nextPc t.fib.pc)) := by simp [perform, h, hp]

theorem performSeq_ok {m : M Unit} {s t : State} (h : m s = .ok ((), t)) (hp : t.pair = none) :
    performSeq m s = .next { t with fib := { t.fib with pc := nextPc t.fib.pc } } := by
  have : inSequence m s = .ok (.seq, t) := by rw [inSequence, run_bind_ok h]; rfl
  rw [performSeq, perform_ok this hp]; rfl

/-- A precise trap leaves the state as it was at issue (R132) and is taken. -/
theorem perform_trap {m : M Flow} {s : State} {c : Nat} {a : Word} {u : Bool} (h : m s = .error (.trap c a u none)) (hp : s.pair = none) :
    perform m s = .next (raiseTrap s ⟨c, s.fib.pc, a⟩ u) := by simp [perform, h, hp]

theorem performSeq_trap {m : M Unit} {s : State} {c : Nat} {a : Word} {u : Bool} (h : m s = .error (.trap c a u none)) (hp : s.pair = none) :
    performSeq m s = .next (raiseTrap s ⟨c, s.fib.pc, a⟩ u) := by
  rw [performSeq, perform_trap _ hp]; rw [inSequence, run_bind_error h]

/-! ## Registers -/

theorem seeReg_poisoned {s : State} {code : Nat} (a : Word) (hp : s.fib.poison.contains code = true) :
    seeReg code a s = .error (.trap 0x10 a false none) := by simp only [seeReg, hp, if_true]

/-- Reading a register that holds no poison corrects its single-bit error, and does nothing else (R144). -/
theorem seeReg_ok {s : State} {code : Nat} (a : Word) (hp : s.fib.poison.contains code = false) :
    seeReg code a s = .ok ((), correctReg s code) := by simp only [seeReg, hp]; rfl

theorem correctReg_none {s : State} {code : Nat} (hf : s.fib.flips.contains code = false) : correctReg s code = s := by
  simp only [correctReg, hf]; rfl

theorem seeReg_sound {s : State} {code : Nat} (a : Word) (hp : s.fib.poison.contains code = false) (hf : s.fib.flips.contains code = false) :
    seeReg code a s = .ok ((), s) := by rw [seeReg_ok a hp, correctReg_none hf]

/-- A plain, unpoisoned register reads as its value; its single-bit error is corrected and counted. -/
theorem rd_corrects {s : State} {r : SReg} (ha : armedS s.fib r = none) (hp : s.fib.poison.contains (specOf r) = false) :
    rd r s = .ok (regVal s.fib r, correctReg s (specOf r)) := by
  simp only [rd, run_bind, run_theFib, ha, seeReg_ok _ hp]; rfl

theorem rd_plain {s : State} {r : SReg} (ha : armedS s.fib r = none) (hp : s.fib.poison.contains (specOf r) = false)
    (hf : s.fib.flips.contains (specOf r) = false) : rd r s = .ok (regVal s.fib r, s) := by
  rw [rd_corrects ha hp, correctReg_none hf]

theorem rd_poisoned {s : State} {r : SReg} (ha : armedS s.fib r = none) (hp : s.fib.poison.contains (specOf r) = true) :
    rd r s = .error (.trap 0x10 (poisonCode (specOf r)) false none) := by
  simp only [rd, run_bind, run_theFib, ha, seeReg_poisoned _ hp]

theorem rdV_plain {s : State} {k : Fin 16} (ha : armedV s.fib k = none) (hp : s.fib.poison.contains (0x20 + k.val) = false)
    (hf : s.fib.flips.contains (0x20 + k.val) = false) : rdV k s = .ok (s.fib.v[k], s) := by
  simp only [rdV, run_bind, run_theFib, ha, seeReg_sound _ hp hf]; rfl

/-- `z` reads 0 in every state (R38). -/
theorem rd_z {s : State} (hp : s.fib.poison.contains 4 = false) (hf : s.fib.flips.contains 4 = false) : rd .z s = .ok (0, s) := rd_plain rfl hp hf

theorem writeS_plain {s : State} {d : SReg} (v : Word) (ha : armedS s.fib d = none) :
    writeS d v s = .ok ((), { s with fib := putReg s.fib d v }) := by
  simp only [writeS, run_bind, run_theFib, ha]; rfl

theorem writeV_plain {s : State} {d : Fin 16} (v : VReg) (ha : armedV s.fib d = none) :
    writeV d v s = .ok ((), { s with fib := { cleanReg s.fib (0x20 + d.val) with v := s.fib.v.set d v } }) := by
  simp only [writeV, run_bind, run_theFib, ha]; rfl

/-! ## Pushing and writing, field by field -/

@[simp] theorem cleanReg_pc (f : Fib) (n : Nat) : (cleanReg f n).pc = f.pc := by unfold cleanReg; split <;> rfl
@[simp] theorem cleanReg_s (f : Fib) (n : Nat) : (cleanReg f n).s = f.s := by unfold cleanReg; split <;> rfl
@[simp] theorem cleanReg_x (f : Fib) (n : Nat) : (cleanReg f n).x = f.x := by unfold cleanReg; split <;> rfl
@[simp] theorem cleanReg_la (f : Fib) (n : Nat) : (cleanReg f n).la = f.la := by unfold cleanReg; split <;> rfl
@[simp] theorem cleanReg_v (f : Fib) (n : Nat) : (cleanReg f n).v = f.v := by unfold cleanReg; split <;> rfl
@[simp] theorem cleanReg_streams (f : Fib) (n : Nat) : (cleanReg f n).streams = f.streams := by unfold cleanReg; split <;> rfl
@[simp] theorem cleanReg_none (f : Fib) (n : Nat) (hp : f.poison = []) (hf : f.flips = []) : cleanReg f n = f := by simp [cleanReg, hp, hf]

@[simp] theorem pushLa_streams (f : Fib) (v : Word) : (pushLa f v).streams = f.streams := by unfold pushLa; split <;> rfl
@[simp] theorem pushLa_pc (f : Fib) (v : Word) : (pushLa f v).pc = f.pc := by unfold pushLa; split <;> rfl
@[simp] theorem pushLa_s (f : Fib) (v : Word) : (pushLa f v).s = f.s := by unfold pushLa; split <;> rfl
@[simp] theorem pushLa_x (f : Fib) (v : Word) : (pushLa f v).x = f.x := by unfold pushLa; split <;> rfl
@[simp] theorem pushLa_v (f : Fib) (v : Word) : (pushLa f v).v = f.v := by unfold pushLa; split <;> rfl
@[simp] theorem putReg_pc (f : Fib) (r : SReg) (v : Word) : (putReg f r v).pc = f.pc := by cases r <;> simp [putReg]
@[simp] theorem putReg_streams (f : Fib) (r : SReg) (v : Word) : (putReg f r v).streams = f.streams := by cases r <;> simp [putReg]
@[simp] theorem putReg_v (f : Fib) (r : SReg) (v : Word) : (putReg f r v).v = f.v := by cases r <;> simp [putReg]
@[simp] theorem putReg_z (f : Fib) (v : Word) (hp : f.poison = []) (hf : f.flips = []) : putReg f .z v = f := by simp [putReg, hp, hf]
@[simp] theorem armedS_pushLa (f : Fib) (v : Word) (r : SReg) : armedS (pushLa f v) r = armedS f r := by simp [armedS]

/-- A scalar result outside a pair: the push, then the named destination (R40). -/
theorem result_plain {s : State} {d : SReg} (v : Word) (hp : s.pair = none) (ha : armedS s.fib d = none) :
    result d v s = .ok ((), { s with fib := putReg (pushLa s.fib v) d v }) := by
  have h1 : modFib (fun f => pushLa f v) s = .ok ((), { s with fib := pushLa s.fib v }) := rfl
  have h2 : armedS ({ s with fib := pushLa s.fib v } : State).fib d = none := by simpa using ha
  rw [result, run_bind_ok (run_get s)]
  rw [if_neg (by simp [hp]), run_bind_ok h1, writeS_plain v h2]

theorem resultV_plain {s : State} {d : Fin 16} (v : VReg) (hp : s.pair = none) (ha : armedV s.fib d = none) :
    resultV d v s = .ok ((), { s with fib := { cleanReg s.fib (0x20 + d.val) with v := s.fib.v.set d v } }) := by
  rw [resultV, run_bind_ok (run_get s)]
  rw [if_neg (by simp [hp]), writeV_plain v ha]

end Sys2Proof.Machine
end

