-- ==== Sys2Proof/Laws/Operands.lean ====
section
/-!
SUPPORT. Reading ordinary operands and completing an instruction, in the words of Safety: one equation per operand form and per shape.
-/
namespace Sys2Proof.Machine
open Sys2Proof.Safety

theorem rd_of_plain {s : State} {r : SReg} (h : plainS s.fib r = true) : rd r s = .ok (regVal s.fib r, s) := by
  simp only [plainS, soundReg, Bool.and_eq_true, beq_iff_eq, Bool.not_eq_true'] at h
  exact rd_plain h.1 h.2.1 h.2.2

theorem rdB_of_plain {s : State} {b : SrcB} (h : plainB s.fib b = true) : rdB b s = .ok (valB s.fib b, s) := by
  cases b with
  | reg r => exact rd_of_plain h
  | imm i => rfl

theorem rdArg_of_plain {s : State} {b : CArg} (h : plainArg s.fib b = true) : rdArg b s = .ok (valArg s.fib b, s) := by
  cases b with
  | reg r => exact rd_of_plain h
  | imm i => rfl

theorem rdV_of_plain {s : State} {k : Fin 16} (h : plainV s.fib k = true) : rdV k s = .ok (s.fib.v[k], s) := by
  simp only [plainV, soundReg, Bool.and_eq_true, beq_iff_eq, Bool.not_eq_true'] at h
  exact rdV_plain h.1 h.2.1 h.2.2

theorem rdMem_of_plain {s : State} {m : MemRef} (h : plainS s.fib m.a = true) : rdMem m s = .ok (offM s.fib m, s) := by
  rw [rdMem, run_bind_ok (rd_of_plain h)]; rfl

theorem rdRef_of_plain {s : State} {m : CRef} (h : plainS s.fib m.a = true) : rdRef m s = .ok (offC s.fib m, s) := by
  rw [rdRef, run_bind_ok (rd_of_plain h)]; rfl

@[simp] theorem vecOf_get {α : Type} {n : Nat} (f : Fin n → α) (k : Nat) (h : k < n) : (vecOf f)[k] = f ⟨k, h⟩ := by
  simp [vecOf]

/-- Two vectors are equal lane by lane. -/
theorem vreg_ext {a b : VReg} (h : ∀ k : Fin 16, a[k] = b[k]) : a = b := by
  apply Vector.ext
  intro i hi
  exact h ⟨i, hi⟩

theorem rdVSrc_of_plain {s : State} {o : VSrc} (h : plainVS s.fib o = true) : rdVSrc o s = .ok (vecOf (laneVS s.fib o), s) := by
  cases o with
  | v k => rw [rdVSrc, rdV_of_plain h]; congr 2; exact vreg_ext fun i => by simp [laneVS]
  | s r => rw [rdVSrc, run_bind_ok (rd_of_plain h), run_pure]; rfl
  | imm i => rfl

theorem rdVSrcC_of_plain {s : State} {o : VSrcC} (h : plainVC s.fib o = true) : rdVSrcC o s = .ok (vecOf (laneVC s.fib o), s) := by
  cases o with
  | v k => rw [rdVSrcC, rdV_of_plain h]; congr 2; exact vreg_ext fun i => by simp [laneVC]
  | s r => rw [rdVSrcC, run_bind_ok (rd_of_plain h), run_pure]; rfl

/-! ## Completing -/

/-- An effect that ends in a scalar result leaves the state of `doneS`. -/
theorem done_of_result {m : M Unit} {s u : State} {d : SReg} {v : Word} (hm : m s = result d v u) (hp : u.pair = none)
    (hd : openS u.fib d = true) : performSeq m s = .next (doneS u d v) := by
  have hd' : armedS u.fib d = none := by simpa [openS] using hd
  rw [result_plain v hp hd'] at hm
  rw [performSeq_ok hm hp]
  simp [doneS]

theorem done_of_resultV {m : M Unit} {s u : State} {d : Fin 16} {v : VReg} (hm : m s = resultV d v u) (hp : u.pair = none)
    (hd : openV u.fib d = true) : performSeq m s = .next (doneV u d v) := by
  have hd' : armedV u.fib d = none := by simpa [openV] using hd
  rw [resultV_plain v hp hd'] at hm
  rw [performSeq_ok hm hp]
  simp [doneV, putV]

/-- An effect without a result. -/
theorem done_of_unit {m : M Unit} {s u : State} (hm : m s = .ok ((), u)) (hp : u.pair = none) : performSeq m s = .next (goOn u) := performSeq_ok hm hp

end Sys2Proof.Machine
end

