-- ==== Sys2Proof/Laws/Access.lean ====
section
/-!
SUPPORT. What fetching a line, entering a target, translating and resolving an address can do to the state: they fill a TLB or use a grant,
and change nothing else; and the loads of readable bytes.
-/
namespace Sys2Proof.Machine

/-- t is s but for its TLB entries and grants. -/
def onlyTlbs (s t : State) : Prop := t = { s with tlbs := t.tlbs, grants := t.grants }

theorem onlyTlbs_refl (s : State) : onlyTlbs s s := rfl
theorem onlyTlbs_trans {s t u : State} (h : onlyTlbs s t) (k : onlyTlbs t u) : onlyTlbs s u := by
  unfold onlyTlbs at *; rw [k, h]
theorem onlyTlbs_fib {s t : State} (h : onlyTlbs s t) : t.fib = s.fib := by rw [h]
theorem onlyTlbs_pair {s t : State} (h : onlyTlbs s t) : t.pair = s.pair := by rw [h]
theorem onlyTlbs_focus {s t : State} (h : onlyTlbs s t) : t.focus = s.focus := by rw [h]
theorem onlyTlbs_mem {s t : State} (h : onlyTlbs s t) : t.mem = s.mem := by rw [h]

/-- A TLB lookup fills the port TLB at most (R234). -/
theorem lookupVa_tlbs (s : State) (g : Nat) (n : BitVec 12) (k : Nat) (va : Word) : onlyTlbs s (lookupVa s g n k va).2 := by
  unfold lookupVa
  split
  · split <;> rfl
  · split
    · split <;> rfl
    · rfl

theorem fetchLine_tlbs (s : State) (g : Nat) (f : Fib) (p q : Word) : onlyTlbs s (fetchLine s g f p q).2 := by
  unfold fetchLine
  split
  · rfl
  · split
    · rfl
    · split
      · rfl
      · have h := lookupVa_tlbs s g f.tenant accFetch p
        split <;> next heq => rw [heq] at h; exact h

/-- A target that passes R397 lets the control instruction go on; the check changes nothing. -/
theorem enterTarget_fine {s : State} {a : Word} (h : enterAt s a false = .fine) : enterTarget a s = .ok ((), s) := by
  simp [enterTarget, h]

/-- A piece of an access that finds its location fills a TLB or uses a grant. -/
theorem pieceAt_tlbs {s t : State} {va n k a : Nat} {o : Word} (h : pieceAt s va n o k = .got a t) : onlyTlbs s t := by
  unfold pieceAt at h
  extract_lets at h
  split at h
  · split at h
    · exact (PieceRes.got.inj h).2 ▸ rfl
    · cases h
  · split at h
    · split at h
      · exact (PieceRes.got.inj h).2 ▸ rfl
      · cases h
    · split at h
      · split at h
        · cases h
        · exact (PieceRes.got.inj h).2 ▸ rfl
      · have hl := lookupVa_tlbs s s.focus.1 s.fib.tenant (walkKind k) (w64 va)
        split at h
        · next heq => rw [heq] at hl; exact (PieceRes.got.inj h).2 ▸ hl
        · split at h
          · exact (PieceRes.got.inj h).2 ▸ rfl
          · cases h

theorem translatePieces_tlbs {o : Word} {k : Nat} : ∀ {l : List (Nat × Nat)} {s t : State} {r : List (Nat × Nat)},
    translatePieces o k l s = .ok (r, t) → onlyTlbs s t
  | [], s, t, r, h => by cases h; rfl
  | (va, n) :: rest, s, t, r, h => by
    rw [translatePieces] at h
    simp only at h
    split at h
    · cases h
    · cases h
    · next heq =>
      split at h
      · next heq2 => cases h; exact onlyTlbs_trans (pieceAt_tlbs heq) (translatePieces_tlbs heq2)
      · cases h

/-- A translation that answers fills a TLB or uses grants at most. -/
theorem translate_tlbs {s t : State} {va n k : Nat} {o : Word} {l : List (Nat × Nat)} (h : translate va n o k s = .ok (l, t)) : onlyTlbs s t :=
  translatePieces_tlbs h

/-- With no request in a port a read waits behind nothing. -/
theorem needRead_empty {s : State} (b : Bool) (a n : Nat) (hp : s.ports = []) : needRead b a n s = .ok ((), s) := by
  unfold needRead
  split
  · rfl
  · simp [needPath, clearPath, pathClear, hp]

/-- Resolving an access does no more than its translation, where no port holds a request. -/
theorem resolve_tlbs {s t : State} {sg : Fin 8} {o : Word} {n al need k : Nat} {l : List (Nat × Nat)} (hp : s.ports = [])
    (h : resolve sg o n al need k s = .ok (l, t)) : onlyTlbs s t := by
  rw [resolve, run_bind_ok (run_get s)] at h
  cases hf : segFault s s.fib.seg[sg] o n al need with
  | some e => simp only [hf] at h; cases h
  | none =>
    simp only [hf] at h
    split at h
    · cases h; rfl
    · split at h
      · exact translate_tlbs h
      · split at h
        · cases h
        · rw [run_bind_ok (needRead_empty _ _ _ hp)] at h
          exact translate_tlbs h

/-- An access through a segment of local or cluster class that passes the checks of R79 is at one location, and changes nothing. -/
theorem resolve_near {s : State} {sg : Fin 8} {o : Word} {n al need k : Nat} (hc : s.fib.seg[sg].cls.toNat < 2)
    (hf : segFault s s.fib.seg[sg] o n al need = none) :
    resolve sg o n al need k s = .ok ([(nearLoc s.focus.1 s.fib.seg[sg] (classAddr s.fib.seg[sg] o), n)], s) := by
  rw [resolve, run_bind_ok (run_get s)]
  simp only [hf]
  rw [if_pos hc]
  rfl

/-! ## Loads and stores at one location (R81, R82, R86) -/

open Sys2Proof.Safety

/-- A read that the path lets out finds the state of `askedIn`. -/
theorem needRead_open {s : State} {b : Bool} {a n : Nat} (h : pathOpen s a n b = true) : needRead b a n s = .ok ((), askedIn s a n b) := by
  unfold needRead askedIn
  split
  · rfl
  · next hn =>
    have : pathClear (clearPath s s.focus.1 a) s.focus.1 a = true := by simpa [pathOpen, hn] using h
    simp [needPath, this]

/-- With no request at a port and no single-bit error, an ordinary load leaves the state as it is. -/
theorem readPast_quiet {s : State} (a n : Nat) (hp : s.ports = []) (hl : s.latent = []) : readPast s a n none = s := by
  have ha : askedIn s a n false = s := by simp [askedIn, clearPath, hp]
  simp [readPast, ha, correctLoad, correctWords, hl]

/-- A load of readable bytes answers them, and leaves what `readPast` says. -/
theorem loadSpan_readable {s : State} {a n : Nat} (o : Word) (i : Nat) (whole : Bool) {acq : Option Scope} (h : readable s a n acq.isSome = true) :
    loadSpan a n o i acq.isSome whole s = .ok (visible s a n acq.isSome, readPast s a n acq) := by
  simp only [readable, Bool.and_eq_true, Bool.not_eq_true', beq_iff_eq, Bool.or_eq_true] at h
  obtain ⟨⟨⟨⟨⟨⟨h1, h2⟩, h3⟩, h4⟩, h5⟩, hp⟩, h6⟩ := h
  have e1 : (isDpa a && !backed s a) = false := by rcases h1 with h | h <;> simp [h]
  rw [loadSpan, run_bind_ok (run_get s)]
  simp only [e1, Bool.false_eq_true, if_false]
  rw [run_bind_ok (show needLink a (o + w64 i) s = .ok ((), s) by simp [needLink, h2]), run_bind_ok (needRead_open hp)]
  rw [run_bind_ok (run_get _)]
  have e2 : (coreBytes (askedIn s a n acq.isSome) (askedIn s a n acq.isSome).focus.1 acq.isSome a n).findIdx? (·.2) = none := by
    rw [List.findIdx?_eq_none_iff]
    intro x hx
    simpa using List.all_eq_true.1 h6 x hx
  simp only [isFar, h3, h4, h5, e2, Bool.or_false, Bool.false_eq_true, if_false]
  cases acq <;> rfl

/-- A load whose access resolves to one readable location. -/
theorem loadSeg_readable {s t : State} {sg : Fin 8} {o : Word} {n al a : Nat} {acq : Option Scope}
    (hr : resolve sg o n al rightRd accLoad s = .ok ([(a, n)], t)) (h : readable t a n acq.isSome = true) :
    loadSeg sg o n al acq.isSome s = .ok (visible t a n acq.isSome, readPast t a n acq) := by
  rw [loadSeg, run_bind_ok hr, loadAll, loadSpans, run_bind_ok (loadSpan_readable o 0 _ h), loadSpans, run_bind_ok (run_pure _ _)]
  simp

end Sys2Proof.Machine
end

