-- ==== Sys2Proof/Laws/Encoding.lean ====
section
/-!
SUPPORT. The fields of a word that is built from fields in range are those fields, and each operand decoder gives back the operand whose
code it is given.
-/
namespace Sys2Proof

/-! ## Words and fields -/

theorem fieldsA_wordA {op fn d a b c mod imm : Nat} (h1 : fn < 2 ^ 8) (h2 : d < 2 ^ 7) (h3 : a < 2 ^ 7) (h4 : b < 2 ^ 7)
    (h5 : c < 2 ^ 7) (h6 : mod < 2 ^ 4) (h7 : imm < 2 ^ 48) : fieldsA (wordA op fn d a b c mod imm) = ⟨fn, d, a, b, c, mod, imm⟩ := by
  simp only [fieldsA, wordA, fld, FA.mk.injEq]
  omega

theorem fieldsJ_wordJ {op d a b cc ti tl : Nat} (h2 : d < 2 ^ 7) (h3 : a < 2 ^ 7) (h4 : b < 2 ^ 7) (h5 : cc < 2 ^ 4) (h6 : ti < 2 ^ 3)
    (h7 : tl < 2 ^ 32) : fieldsJ (wordJ op d a b cc ti tl) = ⟨0, d, a, b, 0, cc, 0, ti, tl⟩ := by
  simp only [fieldsJ, wordJ, fld, FJ.mk.injEq]
  omega

theorem fieldsT_wordT {op fn td ta tb ac s imm : Nat} (h1 : fn < 2 ^ 8) (h2 : td < 2 ^ 5) (h3 : ta < 2 ^ 5) (h4 : tb < 2 ^ 5)
    (h5 : ac < 2 ^ 3) (h6 : s < 2 ^ 7) (h7 : imm < 2 ^ 48) : fieldsT (wordT op fn td ta tb ac s imm) = ⟨fn, td, ta, tb, ac, s, 0, imm⟩ := by
  simp only [fieldsT, wordT, fld, FT.mk.injEq]
  omega

theorem SReg.code_lt (r : SReg) : r.code < 2 ^ 7 := by cases r <;> simp [SReg.code] <;> omega

theorem fieldsM_wordM {op d sz c ord : Nat} {m : MemRef} (h2 : d < 2 ^ 7) (h4 : sz < 2 ^ 4) (h5 : c < 2 ^ 7) (h6 : ord < 2 ^ 4) :
    fieldsM (wordM op d m sz c ord) = ⟨0, d, m.a.code, m.sg.val, sz, c, ord, m.off.toNat⟩ := by
  have := m.a.code_lt
  have := m.sg.isLt
  have := m.off.isLt
  simp only [fieldsM, wordM, fld, FM.mk.injEq]
  omega

theorem opcode_wordA {op fn d a b c mod imm : Nat} (h0 : op < 2 ^ 8) (h1 : fn < 2 ^ 8) (h2 : d < 2 ^ 7) (h3 : a < 2 ^ 7) (h4 : b < 2 ^ 7)
    (h5 : c < 2 ^ 7) (h6 : mod < 2 ^ 4) (h7 : imm < 2 ^ 48) : fld (wordA op fn d a b c mod imm) 88 8 = op := by
  simp only [wordA, fld]
  omega

/-! ## Operands -/

@[simp] theorem sregOf_code (r : SReg) : sregOf r.code = some r := by
  cases r with
  | z => rfl
  | la k => revert k; decide
  | s k => revert k; decide
  | x k => revert k; decide

theorem namedOf_code {r : SReg} (h : r.named = true) : namedOf r.code = some r := by
  cases r with
  | z => simp [SReg.named] at h
  | la k => rw [namedOf, sregOf_code, if_neg]; simp [SReg.code]; omega
  | s k => rw [namedOf, sregOf_code, if_neg]; simp [SReg.code]; omega
  | x k => rw [namedOf, sregOf_code, if_neg]; simp [SReg.code]; omega

@[simp] theorem srcBOf_code (b : SrcB) : srcBOf b.code b.bits = some b := by
  cases b with
  | imm i => simp [srcBOf, SrcB.code, SrcB.bits]
  | reg r =>
    have h : r.code ≠ 5 := by cases r <;> simp [SReg.code] <;> omega
    simp [srcBOf, SrcB.code, SrcB.bits, h]

@[simp] theorem vregOf_code (k : Fin 16) : vregOf (vcode k.val) = some k := by revert k; decide
@[simp] theorem v12Of_code (k : Fin 12) : v12Of (vcode k.val) = some k := by revert k; decide
@[simp] theorem v15Of_code (k : Fin 15) : v15Of (vcode k.val) = some k := by revert k; decide
@[simp] theorem condOf_code (c : Cond) : condOf c.code = some c := by cases c <;> rfl
@[simp] theorem vcondOf_code (c : VCond) : vcondOf c.code = some c := by cases c <;> rfl
@[simp] theorem rmOf_code (c : RM) : rmOf c.code = some c := by cases c <;> rfl
@[simp] theorem scopeOf_code (c : Scope) : scopeOf c.code = some c := by cases c <;> rfl
@[simp] theorem kindOf_code (c : LKind) : kindOf c.code = some c := by cases c <;> rfl
@[simp] theorem efmtOf_code (c : EFmt) : efmtOf c.code = some c := by cases c <;> rfl
@[simp] theorem redOf_code (c : RedOp) : redOf c.code = some c := by cases c <;> rfl
@[simp] theorem atomOf_code (c : AtomOp) : atomOf c.code = some c := by cases c <;> rfl
@[simp] theorem cvtOf_code (c : CvtKind) : cvtOf c.code = some c := by cases c <;> rfl
@[simp] theorem packOf_code (c : PackKind) : packOf c.code = some c := by cases c <;> rfl
@[simp] theorem posOf_code (c : PosKind) : posOf c.code = some c := by cases c <;> rfl
@[simp] theorem ordOf_code (o : Option Scope) : ordOf (ordCode o) = some o := by rcases o with _ | (_ | _ | _ | _ | _) <;> rfl
@[simp] theorem csrOf_code (c : Csr) : csrOf c.code = some c := by
  cases c with
  | segBase k => revert k; decide
  | segLimit k => revert k; decide
  | segRights k => revert k; decide
  | tshape k => revert k; decide
  | _ => rfl

theorem SrcB.code_lt (b : SrcB) : b.code < 2 ^ 7 := by
  cases b with
  | reg r => exact r.code_lt
  | imm i => simp [SrcB.code]
theorem SrcB.bits_lt (b : SrcB) : b.bits < 2 ^ 48 := by
  cases b with
  | reg r => simp [SrcB.bits]
  | imm i => exact i.isLt
theorem vcode_lt {k : Nat} (h : k < 16) : vcode k < 2 ^ 7 := by unfold vcode; omega
theorem CRef.bits_lt (m : CRef) {k : Nat} (h : k < 2 ^ 21) : m.bits k < 2 ^ 48 := by
  have := m.sg.isLt
  have := m.off.isLt
  unfold CRef.bits
  omega

/-! ## Decoding a word that is built from its fields -/

/-- The majors whose words have format A. -/
def majorA (op : Nat) : Bool :=
  op < 256 && op != 0x20 && !(0x22 ≤ op && op ≤ 0x27) && !(0x30 ≤ op && op ≤ 0x38) && !(0x80 ≤ op && op ≤ 0x8B)

theorem decode_wordA {op fn d a b c mod imm : Nat} (ho : majorA op = true) (h1 : fn < 2 ^ 8) (h2 : d < 2 ^ 7) (h3 : a < 2 ^ 7)
    (h4 : b < 2 ^ 7) (h5 : c < 2 ^ 7) (h6 : mod < 2 ^ 4) (h7 : imm < 2 ^ 48) :
    decode (BitVec.ofNat 96 (wordA op fn d a b c mod imm)) = decA op ⟨fn, d, a, b, c, mod, imm⟩ := by
  simp only [majorA, Bool.and_eq_true, decide_eq_true_eq, bne_iff_ne, ne_eq, Bool.not_eq_true', Bool.and_eq_false_iff, decide_eq_false_iff_not] at ho
  have hw : wordA op fn d a b c mod imm < 2 ^ 96 := by unfold wordA; omega
  have hop : fld (wordA op fn d a b c mod imm) 88 8 = op := opcode_wordA (by omega) h1 h2 h3 h4 h5 h6 h7
  have n1 : ¬ op = 0x20 := by omega
  have n2 : ¬ (0x22 ≤ op ∧ op ≤ 0x27) := by omega
  have n3 : ¬ (0x30 ≤ op ∧ op ≤ 0x38) := by omega
  have n4 : ¬ (0x80 ≤ op ∧ op ≤ 0x8B) := by omega
  simp only [decode, BitVec.toNat_ofNat, Nat.mod_eq_of_lt hw, decodeNat, hop, fieldsA_wordA h1 h2 h3 h4 h5 h6 h7, n1, n2, n3, n4, if_false]

theorem decode_wordJ {op d a b cc ti tl : Nat} (ho : 0x22 ≤ op ∧ op ≤ 0x27) (h2 : d < 2 ^ 7) (h3 : a < 2 ^ 7) (h4 : b < 2 ^ 7)
    (h5 : cc < 2 ^ 4) (h6 : ti < 2 ^ 3) (h7 : tl < 2 ^ 32) :
    decode (BitVec.ofNat 96 (wordJ op d a b cc ti tl)) = decJ op ⟨0, d, a, b, 0, cc, 0, ti, tl⟩ := by
  have hw : wordJ op d a b cc ti tl < 2 ^ 96 := by unfold wordJ; omega
  have hop : fld (wordJ op d a b cc ti tl) 88 8 = op := by unfold wordJ fld; omega
  have n1 : ¬ op = 0x20 := by omega
  simp only [decode, BitVec.toNat_ofNat, Nat.mod_eq_of_lt hw, decodeNat, hop, fieldsJ_wordJ h2 h3 h4 h5 h6 h7, n1, ho, if_false, and_self, if_true]

theorem decode_wordM {op d sz c ord : Nat} {m : MemRef} (ho : 0x30 ≤ op ∧ op ≤ 0x38) (h2 : d < 2 ^ 7) (h4 : sz < 2 ^ 4) (h5 : c < 2 ^ 7)
    (h6 : ord < 2 ^ 4) : decode (BitVec.ofNat 96 (wordM op d m sz c ord)) = decM op ⟨0, d, m.a.code, m.sg.val, sz, c, ord, m.off.toNat⟩ := by
  have := m.a.code_lt
  have := m.sg.isLt
  have := m.off.isLt
  have hw : wordM op d m sz c ord < 2 ^ 96 := by unfold wordM; omega
  have hop : fld (wordM op d m sz c ord) 88 8 = op := by unfold wordM fld; omega
  have n1 : ¬ op = 0x20 := by omega
  have n2 : ¬ (0x22 ≤ op ∧ op ≤ 0x27) := by omega
  simp only [decode, BitVec.toNat_ofNat, Nat.mod_eq_of_lt hw, decodeNat, hop, fieldsM_wordM h2 h4 h5 h6, n1, n2, ho, if_false, and_self, if_true]

theorem decode_wordT {op fn td ta tb ac s imm : Nat} (ho : 0x80 ≤ op ∧ op ≤ 0x8B) (h1 : fn < 2 ^ 8) (h2 : td < 2 ^ 5) (h3 : ta < 2 ^ 5)
    (h4 : tb < 2 ^ 5) (h5 : ac < 2 ^ 3) (h6 : s < 2 ^ 7) (h7 : imm < 2 ^ 48) :
    decode (BitVec.ofNat 96 (wordT op fn td ta tb ac s imm)) = decT op ⟨fn, td, ta, tb, ac, s, 0, imm⟩ := by
  have hw : wordT op fn td ta tb ac s imm < 2 ^ 96 := by unfold wordT; omega
  have hop : fld (wordT op fn td ta tb ac s imm) 88 8 = op := by unfold wordT fld; omega
  have n1 : ¬ op = 0x20 := by omega
  have n2 : ¬ (0x22 ≤ op ∧ op ≤ 0x27) := by omega
  have n3 : ¬ (0x30 ≤ op ∧ op ≤ 0x38) := by omega
  simp only [decode, BitVec.toNat_ofNat, Nat.mod_eq_of_lt hw, decodeNat, hop, fieldsT_wordT h1 h2 h3 h4 h5 h6 h7, n1, n2, n3, ho, if_false,
    and_self, if_true]

/-- What encodes to w decodes as w does. -/
theorem bind_decode {i : Instr} {w : Nat} (h : encodeNat i = some w) : (encode i).bind decode = decode (BitVec.ofNat 96 w) := by
  rw [encode, h, Option.map_some, Option.bind_some]

end Sys2Proof
end

