-- ==== Sys2Proof/Laws/Flits.lean ====
section
/-!
SUPPORT. What a message over a Welt link can change: the link and what has left the module, and nothing else.
-/
namespace Sys2Proof.Machine

/-- t agrees with s but for the links and what has left the module. -/
def LinksOnly (s t : State) : Prop := t = { s with links := t.links, out := t.out }

theorem LinksOnly.refl (s : State) : LinksOnly s s := rfl
theorem LinksOnly.trans {s t u : State} (h : LinksOnly s t) (k : LinksOnly t u) : LinksOnly s u := by
  unfold LinksOnly at *; rw [k, h]
theorem LinksOnly.mem {s t : State} (h : LinksOnly s t) : t.mem = s.mem := by rw [h]
theorem LinksOnly.cores {s t : State} (h : LinksOnly s t) : t.cores = s.cores := by rw [h]
theorem LinksOnly.fib {s t : State} (h : LinksOnly s t) : t.fib = s.fib := by rw [h]
theorem LinksOnly.cmds {s t : State} (h : LinksOnly s t) : t.cmds = s.cmds := by rw [h]

/-- A message that leaves goes through a link that does not retrain, on which no other is leaving, and which has room for its flits or, for
a longer one, an empty buffer. -/
theorem sendMsg_links {s t : State} {w : Fin 16} {kind win off : Nat} {d : List Byte} {o : Out} (h : sendMsg s w kind win off d o = some t) :
    LinksOnly s t ∧ (getLink s (.welt w)).state ≠ 3 ∧ (getLink s (.welt w)).backlog = []
      ∧ (getLink s (.welt w)).replay.length + min (flitsOf d.length) 2048 ≤ 2048 := by
  unfold sendMsg at h
  dsimp only at h
  split at h
  · cases h
  · rename_i hr
    cases h
    exact ⟨rfl, fun e => hr (.inl e), Classical.byContradiction fun e => hr (.inr (.inl e)), by omega⟩

theorem sendBacklog_links (s : State) (w : Fin 16) : LinksOnly s (sendBacklog s w) := by
  unfold sendBacklog; dsimp only; split <;> rfl

theorem sendWrites_links {kind : Nat} {w : Fin 16} : ∀ {fuel addr : Nat} {d : List Byte} {s t : State},
    sendWrites kind w fuel addr d s = some t → LinksOnly s t
  | 0, _, _, _, _, h => by cases h; exact .refl _
  | fuel + 1, addr, d, s, t, h => by
    unfold sendWrites at h
    split at h
    · cases h; exact .refl _
    · obtain ⟨u, hu, ht⟩ := Option.bind_eq_some_iff.mp h
      exact (sendMsg_links hu).1.trans (sendWrites_links ht)

theorem sendWelt_links {s t : State} {w : Fin 16} {addr : Nat} {d : List Byte} (h : sendWelt s w addr d = some t) : LinksOnly s t :=
  sendWrites_links h

theorem sendReads_links {w : Fin 16} : ∀ {fuel addr n : Nat} {s t : State}, sendReads w fuel addr n s = some t → LinksOnly s t
  | 0, _, _, _, _, h => by cases h; exact .refl _
  | fuel + 1, addr, n, s, t, h => by
    unfold sendReads at h
    split at h
    · cases h; exact .refl _
    · obtain ⟨u, hu, ht⟩ := Option.bind_eq_some_iff.mp h
      exact (sendMsg_links hu).1.trans (sendReads_links ht)

end Sys2Proof.Machine
end

