-- ==== Sys2Proof/Laws/Memory.lean ====
section
/-!
SUPPORT. The list of cells: a read after a write, a write leaves every other byte alone, and every memory operation keeps the canonical
form (`memWf`).
-/
namespace Sys2Proof.Machine

/-! ## Tables -/

@[simp] theorem look_place_same {α : Type} (l : List (Nat × α)) (k : Nat) (a : α) : look (place l k a) k = some a := by
  induction l with
  | nil => simp [place, look]
  | cons e r ih =>
    obtain ⟨i, b⟩ := e
    simp only [place]
    split
    · simp [look]
    · split
      · simp [look]
      · next h => simp [look, Ne.symm h, ih]

theorem look_place_ne {α : Type} (l : List (Nat × α)) {k j : Nat} (a : α) (h : j ≠ k) : look (place l k a) j = look l j := by
  induction l with
  | nil => simp [place, look, Ne.symm h]
  | cons e r ih =>
    obtain ⟨i, b⟩ := e
    simp only [place]
    split
    · simp [look, Ne.symm h]
    · split
      · next h1 => subst h1; simp [look, Ne.symm h]
      · simp [look, ih]

@[simp] theorem look_strike_same {α : Type} (l : List (Nat × α)) (k : Nat) : look (strike l k) k = none := by
  induction l with
  | nil => simp [strike, look]
  | cons e r ih =>
    obtain ⟨i, b⟩ := e
    by_cases h : i = k <;> simp_all [strike, look]

theorem look_strike_ne {α : Type} (l : List (Nat × α)) {k j : Nat} (h : j ≠ k) : look (strike l k) j = look l j := by
  induction l with
  | nil => simp [strike, look]
  | cons e r ih =>
    obtain ⟨i, b⟩ := e
    by_cases h1 : i = k
    · subst h1; simpa [strike, look, List.filter_cons, Ne.symm h] using ih
    · simp only [strike] at ih; simp [strike, look, h1, ih]

/-! ## Cells -/

@[simp] theorem cellGet_put_same (m : List Host.Cell) (a : Nat) (v : Byte) : cellGet (cellPut m a v) a = v := by
  unfold cellGet cellPut; split <;> simp_all

theorem cellGet_put_ne (m : List Host.Cell) {a b : Nat} (v : Byte) (h : b ≠ a) : cellGet (cellPut m a v) b = cellGet m b := by
  unfold cellGet cellPut; split
  · rw [look_strike_ne _ h]
  · rw [look_place_ne _ _ h]

/-- The canonical form, as a chain of addresses and a condition on each cell. -/
theorem memWf_iff (m : List Host.Cell) : memWf m = true ↔ m.Pairwise (fun x y => x.1 < y.1) ∧ ∀ c ∈ m, c.2 ≠ blankByte := by
  induction m with
  | nil => simp [memWf]
  | cons e r ih =>
    cases r with
    | nil => obtain ⟨a, v⟩ := e; simp [memWf]
    | cons f t =>
      obtain ⟨a, v⟩ := e
      obtain ⟨b, w⟩ := f
      simp only [memWf, Bool.and_eq_true, decide_eq_true_eq, bne_iff_ne, ne_eq] at ih ⊢
      rw [ih]
      simp only [List.pairwise_cons, List.mem_cons, forall_eq_or_imp]
      constructor
      · rintro ⟨⟨h1, h2⟩, ⟨h3, h4⟩, h5, h6⟩
        exact ⟨⟨⟨h1, fun c hc => Nat.lt_trans h1 (h3 c hc)⟩, h3, h4⟩, h2, h5, h6⟩
      · rintro ⟨⟨⟨h1, _⟩, h3, h4⟩, h2, h5, h6⟩
        exact ⟨⟨h1, h2⟩, ⟨h3, h4⟩, h5, h6⟩

/-- Leaving cells out keeps the canonical form. -/
theorem memWf_filter {m : List Host.Cell} (p : Host.Cell → Bool) (h : memWf m = true) : memWf (m.filter p) = true := by
  rw [memWf_iff] at *
  exact ⟨h.1.filter p, fun c hc => h.2 c (List.mem_of_mem_filter hc)⟩

theorem mem_place {α : Type} {l : List (Nat × α)} {k : Nat} {a : α} {e : Nat × α} (h : e ∈ place l k a) : e = (k, a) ∨ e ∈ l := by
  induction l with
  | nil => simpa [place] using h
  | cons f r ih =>
    obtain ⟨i, b⟩ := f
    simp only [place] at h
    split at h
    · simpa using h
    · split at h
      · simp only [List.mem_cons] at h ⊢; tauto
      · simp only [List.mem_cons] at h ⊢; rcases h with h | h
        · tauto
        · have := ih h; tauto

theorem pairwise_place {α : Type} {l : List (Nat × α)} (k : Nat) (a : α) (h : l.Pairwise (fun x y => x.1 < y.1)) :
    (place l k a).Pairwise (fun x y => x.1 < y.1) := by
  induction l with
  | nil => simp [place]
  | cons f r ih =>
    obtain ⟨i, b⟩ := f
    have h0 := List.pairwise_cons.1 h
    simp only [place]
    split
    · next h1 =>
      refine List.pairwise_cons.2 ⟨fun c hc => ?_, h⟩
      rcases List.mem_cons.1 hc with rfl | hc
      · exact h1
      · exact Nat.lt_trans h1 (h0.1 c hc)
    · split
      · next h2 => subst h2; exact List.pairwise_cons.2 ⟨h0.1, h0.2⟩
      · next h1 h2 =>
        refine List.pairwise_cons.2 ⟨fun c hc => ?_, ih h0.2⟩
        rcases mem_place hc with rfl | hc
        · show i < k; omega
        · exact h0.1 c hc

/-- A write keeps the canonical form. -/
theorem memWf_cellPut {m : List Host.Cell} (a : Nat) (v : Byte) (h : memWf m = true) : memWf (cellPut m a v) = true := by
  unfold cellPut
  split
  · exact memWf_filter _ h
  · next hv =>
    rw [memWf_iff] at *
    refine ⟨pairwise_place a v h.1, fun c hc => ?_⟩
    rcases mem_place hc with rfl | hc
    · exact hv
    · exact h.2 c hc

/-! ## Bytes of the state -/

theorem setByte_memWf {s : State} (a : Nat) (v : Byte) (h : memWf s.mem = true) : memWf (setByte s a v).mem = true := memWf_cellPut a v h

theorem writeBytes_memWf {s : State} (a : Nat) (l : List Byte) (h : memWf s.mem = true) : memWf (writeBytes s a l).mem = true := by
  induction l generalizing s a with
  | nil => exact h
  | cons b r ih => exact ih (a + 1) (setByte_memWf a b h)

theorem writeNat_memWf {s : State} (a n v : Nat) (h : memWf s.mem = true) : memWf (writeNat s a n v).mem = true := writeBytes_memWf a _ h
theorem writeWord_memWf {s : State} (a : Nat) (v : Word) (h : memWf s.mem = true) : memWf (writeWord s a v).mem = true := writeBytes_memWf a _ h

/-- The memory of the reset state is in canonical form. -/
theorem reset_memWf : memWf State.reset.mem = true := rfl

@[simp] theorem byteAt_setByte_same (s : State) (a : Nat) (v : Byte) : byteAt (setByte s a v) a = v := cellGet_put_same s.mem a v
theorem byteAt_setByte_ne (s : State) {a b : Nat} (v : Byte) (h : b ≠ a) : byteAt (setByte s a v) b = byteAt s b := cellGet_put_ne s.mem v h

/-- A write leaves every byte outside it alone. -/
theorem byteAt_writeBytes_out (s : State) {a b : Nat} (l : List Byte) (h : b < a ∨ a + l.length ≤ b) : byteAt (writeBytes s a l) b = byteAt s b := by
  induction l generalizing s a with
  | nil => rfl
  | cons v r ih =>
    simp only [List.length_cons] at h
    rw [writeBytes, ih (setByte s a v) (by omega), byteAt_setByte_ne s v (by omega)]

/-- A byte inside a write reads as what was written. -/
theorem byteAt_writeBytes_in (s : State) (a i : Nat) (l : List Byte) (h : i < l.length) : byteAt (writeBytes s a l) (a + i) = l[i] := by
  induction l generalizing s a i with
  | nil => simp at h
  | cons v r ih =>
    cases i with
    | zero => rw [Nat.add_zero, writeBytes, byteAt_writeBytes_out _ _ (Or.inl (by omega)), byteAt_setByte_same]; rfl
    | succ j =>
      have := ih (setByte s a v) (a + 1) j (by simpa using h)
      rw [writeBytes, show a + (j + 1) = a + 1 + j by omega, this]; rfl

@[simp] theorem readBytes_length (s : State) (a n : Nat) : (readBytes s a n).length = n := by
  induction n generalizing a with
  | zero => rfl
  | succ n ih => simp [readBytes, ih]

theorem readBytes_congr {s t : State} (a n : Nat) (h : ∀ b, a ≤ b → b < a + n → byteAt s b = byteAt t b) : readBytes s a n = readBytes t a n := by
  induction n generalizing a with
  | zero => rfl
  | succ n ih =>
    rw [readBytes, readBytes, h a (by omega) (by omega), ih (a + 1) fun b h1 h2 => h b (by omega) (by omega)]

/-- Read after write. -/
theorem readBytes_writeBytes (s : State) (a : Nat) (l : List Byte) : readBytes (writeBytes s a l) a l.length = l := by
  induction l generalizing s a with
  | nil => rfl
  | cons v r ih =>
    rw [List.length_cons, readBytes, writeBytes, ih, byteAt_writeBytes_out _ _ (Or.inl (by omega)), byteAt_setByte_same]

theorem readBytes_writeBytes_out (s : State) {a b n : Nat} (l : List Byte) (h : b + n ≤ a ∨ a + l.length ≤ b) :
    readBytes (writeBytes s a l) b n = readBytes s b n :=
  readBytes_congr b n fun c h1 h2 => byteAt_writeBytes_out s l (by omega)

/-! ## Byte order -/

@[simp] theorem bytesOf_length (n v : Nat) : (bytesOf n v).length = n := by
  induction n generalizing v with
  | zero => rfl
  | succ n ih => simp [bytesOf, ih]

/-- The bytes of a number, read back, are the number modulo their width (R6). -/
theorem natOf_bytesOf (n v : Nat) : natOf (bytesOf n v) = v % 256 ^ n := by
  induction n generalizing v with
  | zero => simp [bytesOf, natOf, Nat.mod_one]
  | succ n ih =>
    have h : v % (256 * 256 ^ n) = v % 256 + 256 * (v / 256 % 256 ^ n) := Nat.mod_mul
    rw [bytesOf, natOf, ih, BitVec.toNat_ofNat, Nat.pow_succ' (n := n), h]

theorem natOf_lt (l : List Byte) : natOf l < 256 ^ l.length := by
  induction l with
  | nil => simp [natOf]
  | cons b r ih =>
    have := b.isLt
    rw [natOf, List.length_cons, Nat.pow_succ]
    omega

theorem readNat_writeNat (s : State) (a n v : Nat) : readNat (writeNat s a n v) a n = v % 256 ^ n := by
  have := readBytes_writeBytes s a (bytesOf n v)
  rw [bytesOf_length] at this
  rw [readNat, writeNat, this, natOf_bytesOf]

@[simp] theorem readWord_writeWord (s : State) (a : Nat) (v : Word) : readWord (writeWord s a v) a = v := by
  rw [readWord, writeWord, readNat_writeNat, Nat.mod_eq_of_lt (by simpa using v.isLt)]
  simp

/-! ## Cores -/

@[simp] theorem getCore_setCore_same (s : State) (g : Nat) (c : Core) : getCore (setCore s g c) g = c := by simp [getCore]
theorem getCore_setCore_ne (s : State) {g h : Nat} (c : Core) (hn : h ≠ g) : getCore (setCore s g c) h = getCore s h := by
  unfold getCore; rw [setCore_cores, look_place_ne _ _ hn]

end Sys2Proof.Machine
end

