-- ==== Sys2Proof/Tests/Slice0.lean ====
section
/-!
SUPPORT. Small tests: a word of every instruction decoded, terms that the checks refuse, and for every statement with hypotheses a state
and operands that meet them. Expected results come from the spec's tables and examples, or are worked by hand from its rules.
-/
namespace Sys2Proof.Tests
open Sys2Proof.Machine Sys2Proof.Safety
set_option Elab.async false

/-! ## Decoding: words made up from the encoding tables, field by field -/

/-- R67, R68. -/
theorem test_decode_arithmetic :
    decode 0x0100027C2000000000000000 = some (.add (.la 1) (.s 15) (.reg .z))
    ∧ decode 0x020009FC2800FFFFFFFFFFFF = some (.sub .z (.x 63) (.imm (-1)))
    ∧ decode 0x0300830A1800000000000000 = some (.mul (.x 1) (.x 2) (.reg (.x 3)))
    ∧ decode 0x040021081800000000000000 = some (.mulh (.s 0) (.x 2) (.reg (.la 3)))
    ∧ decode 0x05008200280000000000000A = some (.mulhn (.x 1) (.la 0) (.imm 10))
    ∧ decode 0x0600830A1800000000000000 = some (.div (.x 1) (.x 2) (.reg (.x 3)))
    ∧ decode 0x070089163000000000000000 = some (.divn (.x 4) (.x 5) (.reg (.x 6)))
    ∧ decode 0x08008F224800000000000000 = some (.rem (.x 7) (.x 8) (.reg (.x 9)))
    ∧ decode 0x0900952C2800000000000007 = some (.remn (.x 10) (.x 11) (.imm 7))
    ∧ decode 0x1200830A1800000000000000 = some (.min (.x 1) (.x 2) (.reg (.x 3)))
    ∧ decode 0x1300830A1800000000000000 = some (.max (.x 1) (.x 2) (.reg (.x 3)))
    ∧ decode 0x1400830A1800000000000000 = some (.minn (.x 1) (.x 2) (.reg (.x 3)))
    ∧ decode 0x1500830A1800000000000000 = some (.maxn (.x 1) (.x 2) (.reg (.x 3))) := by
  decide

/-- R67, R68, R70. -/
theorem test_decode_logic :
    decode 0x0A0083089800000000000000 = some (.and (.x 1) (.x 2) (.reg (.s 3)))
    ∧ decode 0x0B0083089800000000000000 = some (.or (.x 1) (.x 2) (.reg (.s 3)))
    ∧ decode 0x0C0083089800000000000000 = some (.xor (.x 1) (.x 2) (.reg (.s 3)))
    ∧ decode 0x0D0083089800000000000000 = some (.andn (.x 1) (.x 2) (.reg (.s 3)))
    ∧ decode 0x0E008308280000000000003F = some (.shl (.x 1) (.x 2) (.imm 63))
    ∧ decode 0x0F0083082800000000000040 = some (.shr (.x 1) (.x 2) (.imm 64))
    ∧ decode 0x1000830A4800000000000000 = some (.sar (.x 1) (.x 2) (.reg (.x 9)))
    ∧ decode 0x1100830A4800000000000000 = some (.rol (.x 1) (.x 2) (.reg (.x 9)))
    ∧ decode 0x160083080000000000000000 = some (.clz (.x 1) (.x 2))
    ∧ decode 0x170087100000000000000000 = some (.ctz (.x 3) (.x 4))
    ∧ decode 0x18008A100000000000000000 = some (.popc (.x 5) .z) := by
  decide

/-- R67, R71-R73. -/
theorem test_decode_fields :
    decode 0x190083082800000000000804 = some (.bext (.x 1) (.x 2) (.imm 0x0804))
    ∧ decode 0x190183082800000000000804 = some (.bextS (.x 1) (.x 2) (.imm 0x0804))
    ∧ decode 0x1A00830A1C40000000000000 = some (.bins (.x 1) (.x 2) (.reg (.x 3)) (.x 4))
    ∧ decode 0x1B0083082800000000000008 = some (.sext (.x 1) (.x 2) (.imm 8))
    ∧ decode 0x1C0083080000000000000000 = some (.mov (.x 1) (.x 2))
    ∧ decode 0x1D00830A1C40000000000000 = some (.sel (.x 1) (.x 2) (.reg (.x 3)) (.x 4))
    ∧ decode 0x1E00830A1805000000000000 = some (.cset .gen (.x 1) (.x 2) (.reg (.x 3)))
    ∧ decode 0x1F00830A1C46000000000000 = some (.lea 6 (.x 1) (.x 2) (.reg (.x 3)) (.x 4))
    ∧ decode 0x20008600FFFFFFFFFFFFFFFE = some (.li (.x 3) 0xFFFFFFFFFFFFFFFE) := by
  decide

/-- R74-R76. -/
theorem test_decode_control :
    decode 0x211301061000000000000000 = some (.csk .ltn 2 (.x 1) (.reg (.x 2)))
    ∧ decode 0x2200000000000004FFFFFFFF = some (.b 4 0xFFFFFFFF)
    ∧ decode 0x230001042003000300000002 = some (.bcc .ge (.x 1) .z 3 2)
    ∧ decode 0x240082000000000200000001 = some (.call (.x 1) 2 1)
    ∧ decode 0x250001040000000000000000 = some (.ret (.x 1))
    ∧ decode 0x2600091C0000000000000000 = some (.jr .z (.x 7))
    ∧ decode 0x2700224400000001FFFFFFFE = some (.loop (.s 1) (.s 1) 1 0xFFFFFFFE)
    ∧ decode 0x280000000000000000000000 = some .nop
    ∧ decode 0x290000000000000000000000 = some .yield
    ∧ decode 0x2A0000000000000000000000 = some .halt
    ∧ decode 0x2F0001240000000000000000 = some (.eret (.x 9))
    ∧ decode 0x2E0000000000000000000007 = some (.trap 7)
    ∧ decode 0x500000000000000000000000 = some .tret
    ∧ decode 0x510000000000000000000007 = some (.sysc 7) := by
  decide

/-- R63, R64. -/
theorem test_decode_special :
    decode 0x2B0082000000000000000007 = some (.csrr (.x 1) .cyc)
    ∧ decode 0x2C0001080000000000000083 = some (.csrw .tvec (.x 2))
    ∧ decode 0x2D0083080000000000000020 = some (.csrx (.x 1) (.x 2) (.segBase 0))
    ∧ decode 0x2B008200000000000000005F = some (.csrr (.x 1) (.tshape 31))
    ∧ decode 0x2B0082000000000000000073 = some (.csrr (.x 1) .fdlimit) := by
  decide

/-- R84, R87, R88, R90, R93. -/
theorem test_decode_memory :
    decode 0x3000830D3000FFFFFFFFFFF8 = some (.ld 6 none (.x 1) ⟨2, .x 3, 0xFFFFFFFFFFF8⟩)
    ∧ decode 0x3000830D080B000000000008 = some (.ld 1 (some .sys) (.x 1) ⟨2, .x 3, 8⟩)
    ∧ decode 0x31000013B450000000000010 = some (.st 3 ⟨7, .z, 16⟩ (.x 5))
    ∧ decode 0x32005F08C003000000000040 = some (.ldv true (some .core) 15 ⟨1, .x 2, 64⟩)
    ∧ decode 0x33000108BA30000000000040 = some (.stv false ⟨1, .x 2, 64⟩ 3)
    ∧ decode 0x340043089000000000000002 = some (.ldvb 0 none 1 ⟨1, .x 2, 2⟩)
    ∧ decode 0x35005F08E800000000000040 = some (.sarm true ⟨true, 3⟩ ⟨1, .x 2, 64⟩ 5)
    ∧ decode 0x3600820001C0000000000000 = some (.sdis (.x 1) ⟨false, 0⟩)
    ∧ decode 0x37000108B443000000000020 = some (.sseg 3 6 ⟨1, .x 2, 32⟩ (.x 4))
    ∧ decode 0x38008308C000000000000020 = some (.segq 8 (.x 1) ⟨1, .x 2, 32⟩) := by
  decide

/-- R109, R110. -/
theorem test_decode_counters :
    decode 0x400209080005200001FFFFF0 = some (.cadd true .clu ⟨1, .x 2, 0xFFFFF0⟩ (.imm 1))
    ∧ decode 0x4000090A1802200000000008 = some (.cadd false .core ⟨1, .x 2, 8⟩ (.reg (.x 3)))
    ∧ decode 0x4001830A180A200000000008 = some (.caddF false .sys (.x 1) ⟨1, .x 2, 8⟩ (.reg (.x 3)))
    ∧ decode 0x410282100007FFFFFF000008 = some (.cwait true .die (.x 1) ⟨7, .z, 8⟩ (.imm 0x1FFFFF))
    ∧ decode 0x420083080009200000000008 = some (.cread true .mod (.x 1) ⟨1, .x 2, 8⟩)
    ∧ decode 0x4300090A1804200000000008 = some (.cpoll false .clu .z ⟨1, .x 2, 8⟩ (.reg (.x 3)))
    ∧ decode 0x440083080000200000000008 = some (.cstrag (.x 1) ⟨1, .x 2, 8⟩)
    ∧ decode 0x440183080000200000000008 = some (.cstragT (.x 1) ⟨1, .x 2, 8⟩) := by
  decide

/-- R131, R299, R328, R351; the words of R131 and R351 are the spec's own. -/
theorem test_decode_phases :
    decode 0x450000000004000000000000 = some (.pub .clu)
    ∧ decode 0x46000000000A000000000000 = some (.acq .sys)
    ∧ decode 0x47008A000008000000000000 = some (.drain true (.x 5))
    ∧ decode 0x47008A000004000000000000 = some (.drain false (.x 5))
    ∧ decode 0x520083082800000000000003 = some (.spawn (.x 1) (.x 2) (.imm 3))
    ∧ decode 0x530082100000000000000000 = some (.reap (.x 1) .z)
    ∧ decode 0x540008002800000000000001 = some (.kwaitp .z (.imm 1))
    ∧ decode 0x550000000000000000000000 = some .khint
    ∧ decode 0x550182000000000000000000 = some (.khintMv (.x 1))
    ∧ decode 0x56008B191008000000000000 = some (.qpost false (.x 5) (.x 6) 2)
    ∧ decode 0x5700830A1800000000000000 = some (.pput (.x 1) (.x 2) (.reg (.x 3)))
    ∧ decode 0x580083080000000000000000 = some (.pget (.x 1) (.x 2))
    ∧ decode 0x580183080000000000000000 = some (.pgetW (.x 1) (.x 2)) := by
  decide

/-- R314, R315, R318; the words of `take` and `gtile.mask` are the spec's own. -/
theorem test_decode_groups :
    decode 0x59008B182800000000000001 = some (.take (.x 5) (.x 6) (.imm 1))
    ∧ decode 0x5A00830A1800000000000000 = some (.gtileO (.x 1) (.x 2) (.reg (.x 3)))
    ∧ decode 0x5A01830A1800000000000000 = some (.gtileA (.x 1) (.x 2) (.reg (.x 3)))
    ∧ decode 0x5A02830A1800000000000000 = some (.gtileB (.x 1) (.x 2) (.reg (.x 3)))
    ∧ decode 0x5A0392002800000000000000 = some (.gtileMask (.x 9) (.imm 0))
    ∧ decode 0x5A0492020800000000000000 = some (.gtileG (.x 9) (.reg (.x 1)))
    ∧ decode 0x5B0083080000000000000000 = some (.lvpost (.x 1) (.x 2))
    ∧ decode 0x5C0082000000000000000000 = some (.lvtake (.x 1)) := by
  decide

/-- R168. -/
theorem test_decode_vector_arithmetic :
    decode 0x600042891803000000000000 = some (.vadd .f false .rup 1 2 (.v 3))
    ∧ decode 0x6105428A1800000000000000 = some (.vsub .i true .rne 1 2 (.s (.x 3)))
    ∧ decode 0x620642882800000000000009 = some (.vmul .n true .rne 1 2 (.imm 9))
    ∧ decode 0x630042891C41000000000000 = some (.vfma .f .rtz 1 2 (.v 3) (.s (.x 4)))
    ∧ decode 0x640242891800000000000000 = some (.vmax .n 1 2 (.v 3))
    ∧ decode 0x650142891800000000000000 = some (.vmin .i 1 2 (.v 3))
    ∧ decode 0x660542880000000000000000 = some (.vabs true true 1 2)
    ∧ decode 0x670042880000000000000000 = some (.vneg false false 1 2)
    ∧ decode 0x680042880002000000000000 = some (.vrcp .rdn 1 2)
    ∧ decode 0x690042880000000000000000 = some (.vrsq .rne 1 2)
    ∧ decode 0x6A0042880000000000000000 = some (.vexp2 .rne 1 2)
    ∧ decode 0x6B0042880000000000000000 = some (.vlog2 .rne 1 2)
    ∧ decode 0x6C0082891806000000000000 = some (.vcmp .f .un (.x 1) 2 (.v 3))
    ∧ decode 0x6C0282891804000000000000 = some (.vcmp .n .gt (.x 1) 2 (.v 3))
    ∧ decode 0x760782880000000000000000 = some (.vred .nmin .rne (.x 1) 2)
    ∧ decode 0x770082891801000000000000 = some (.vdot .rtz (.x 1) 2 (.v 3))
    ∧ decode 0x7D0442880000000000000000 = some (.vscan .imax .rne 1 2)
    ∧ decode 0x730342880003000000000000 = some (.vcvt .sif .rup 1 2) := by
  decide

/-- R168, R175. -/
theorem test_decode_vector_logic :
    decode 0x6D0042891C40000000000000 = some (.vsel 1 2 (.v 3) (.x 4))
    ∧ decode 0x6E0042891800000000000000 = some (.vand 1 2 (.v 3))
    ∧ decode 0x6F0042891800000000000000 = some (.vor 1 2 (.v 3))
    ∧ decode 0x700042891800000000000000 = some (.vxor 1 2 (.v 3))
    ∧ decode 0x710042891800000000000000 = some (.vshl 1 2 (.v 3))
    ∧ decode 0x720042891800000000000000 = some (.vshr 1 2 (.v 3))
    ∧ decode 0x720142891800000000000000 = some (.vshrS 1 2 (.v 3))
    ∧ decode 0x740042002000000000000000 = some (.vbcast 1 (.reg .z))
    ∧ decode 0x741F42880000000000000000 = some (.vbcastL 15 1 2)
    ∧ decode 0x750042891800000000000000 = some (.vperm 1 2 3)
    ∧ decode 0x750142891A40000000000000 = some (.vperm2 1 2 3 4)
    ∧ decode 0x780F56021800000000000000 = some (.vins 15 11 (.reg (.x 3)))
    ∧ decode 0x791382880000000000000000 = some (.vext true 3 (.x 1) 2)
    ∧ decode 0x7E0042880000000000000000 = some (.vmov 1 2)
    ∧ decode 0x7F0342891800000000000000 = some (.vpack .h 1 2 3)
    ∧ decode 0x7F0242880000000000000000 = some (.vpack .bfh 1 2 0) := by
  decide

/-- R179. -/
theorem test_decode_vector_memory :
    decode 0x7A0257091800200000000008 = some (.vgath 2 11 ⟨1, .x 2, 8⟩ 3)
    ∧ decode 0x7B0101091A40200000000008 = some (.vscat 1 ⟨1, .x 2, 8⟩ 3 4)
    ∧ decode 0x7C1809091C40200000000008 = some (.vratom .swap 0 none ⟨1, .x 2, 8⟩ 3 (.s (.x 4)))
    ∧ decode 0x7C064B091A40200000000008 = some (.vratom .addf 2 (some 5) ⟨1, .x 2, 8⟩ 3 (.v 4)) := by
  decide

/-- R192-R199. -/
theorem test_decode_tiles :
    decode 0x800018000000000000003007 = some (.tset 3 0x3007)
    ∧ decode 0x800118002080000000000000 = some (.tsetReg 3 (.x 1))
    ∧ decode 0x810008003600000020000110 = some (.tld 1 ⟨0, .x 44, 0x110⟩ 32)
    ∧ decode 0x820007C021003FFFFF000008 = some (.tst ⟨1, .x 2, 8⟩ 0x1FFFFF 31)
    ∧ decode 0x830020000000000000000000 = some (.tz 4)
    ∧ decode 0x841B00020000000000000000 = some (.mmn .i8 .i8 false 0 0 1 0)
    ∧ decode 0x84404887C000000000000000 = some (.mmn .f4 .f4 true 7 2 3 9)
    ∧ decode 0x85000087C000000000000000 = some (.mmw 7 2 3)
    ∧ decode 0x860028018000000000000000 = some (.aoutI 5 6)
    ∧ decode 0x860128018000000000000000 = some (.aoutF 5 6)
    ∧ decode 0x87000001C000000000000000 = some (.az 7)
    ∧ decode 0x880008860000000000000000 = some (.scacc 1 2 3)
    ∧ decode 0x890508860000000000952020 = some (.qcvt true .i4 1 2 3 5 32 32 9)
    ∧ decode 0x8A0008800000000000000000 = some (.tmov 1 2)
    ∧ decode 0x8A0108001780000000000007 = some (.tmovTv 1 15 7)
    ∧ decode 0x8A0200401780000000000007 = some (.tmovVt 15 1 7)
    ∧ decode 0x8B0008800000000000000000 = some (.ttr 1 2) := by
  decide

/-- R209, R220; the word of `ecopy.clu` is the spec's own. -/
theorem test_decode_engines :
    decode 0x90008A112004200000000000 = some (.ecopy .clu (.x 5) ⟨1, .z, 0⟩ 4)
    ∧ decode 0x90018A112004200000000000 = some (.ecopyMc .clu (.x 5) ⟨1, .z, 0⟩ 4)
    ∧ decode 0x90028A112004200000000000 = some (.ecopyDeal .clu (.x 5) ⟨1, .z, 0⟩ 4)
    ∧ decode 0x90038A112004200000000000 = some (.ecopyDec .clu (.x 5) ⟨1, .z, 0⟩ 4)
    ∧ decode 0x90048A112004200000000000 = some (.ecopyRed .clu (.x 5) ⟨1, .z, 0⟩ 4)
    ∧ decode 0x91008A112004200000000000 = some (.egath .clu (.x 5) ⟨1, .z, 0⟩ 4)
    ∧ decode 0x92008A112004200000000000 = some (.escat .clu (.x 5) ⟨1, .z, 0⟩ 4)
    ∧ decode 0x93008A112004200000000000 = some (.emigMv .clu (.x 5) ⟨1, .z, 0⟩ 4)
    ∧ decode 0x93018A112004200000000000 = some (.emigNvr .clu (.x 5) ⟨1, .z, 0⟩ 4)
    ∧ decode 0x93028A112004200000000000 = some (.emigNvw .clu (.x 5) ⟨1, .z, 0⟩ 4)
    ∧ decode 0x94008A112004200000000000 = some (.ecode .clu (.x 5) ⟨1, .z, 0⟩ 4)
    ∧ decode 0x95000905780AE00000FFFFC0 = some (.epub .sys .z ⟨7, .x 1, 0xFFFFC0⟩ 15)
    ∧ decode 0x960082000000000000000000 = some (.equery (.x 1))
    ∧ decode 0x9601830A1800200000000008 = some (.equerySt (.x 1) ⟨1, .x 2, 8⟩ (.x 3)) := by
  decide

/-- R226, R237; the word of `halloc.buf` is the spec's own. -/
theorem test_decode_handles :
    decode 0xA0008B182800000000000010 = some (.halloc 0 (.x 5) (.x 6) (.imm 16))
    ∧ decode 0xA004830A1800000000000000 = some (.halloc 4 (.x 1) (.x 2) (.reg (.x 3)))
    ∧ decode 0xA00883082C40000000000003 = some (.hallocBufSh (.x 1) (.x 2) (.imm 3) (.x 4))
    ∧ decode 0xA10001040000000000000000 = some (.hfree (.x 1))
    ∧ decode 0xA200830A1800000000000000 = some (.hchk (.x 1) (.x 2) (.reg (.x 3)))
    ∧ decode 0xA30000000000000000000000 = some .tlbinvAll
    ∧ decode 0xA30101040000000000000000 = some (.tlbinvTen (.x 1))
    ∧ decode 0xA30201061000000000000000 = some (.tlbinvVa (.x 1) (.x 2))
    ∧ decode 0xA40056000000000000000000 = some (.wmbx 11)
    ∧ decode 0xA50001061000000000000000 = some (.wfill (.x 1) (.x 2))
    ∧ decode 0xA60001061000000000000000 = some (.wfail (.x 1) (.x 2)) := by
  decide

/-- R266; the word of `fpush` is the spec's own. -/
theorem test_decode_frames :
    decode 0xB00088002800000000000010 = some (.fpush (.x 4) (.imm 16))
    ∧ decode 0xB00188002000000000000000 = some (.fpushSpec (.x 4) (.reg .z))
    ∧ decode 0xB10083082800000000000003 = some (.fret (.x 1) (.x 2) (.imm 3))
    ∧ decode 0xB20001040000000000000000 = some (.fshareJ (.x 1))
    ∧ decode 0xB20101040000000000000000 = some (.fshareH (.x 1))
    ∧ decode 0xB30000100000000000000000 = some (.frel .z)
    ∧ decode 0xB40001042C30000000000002 = some (.farg (.x 1) (.imm 2) (.x 3))
    ∧ decode 0xB50783080000000000000000 = some (.fpos .info (.x 1) (.x 2))
    ∧ decode 0xB50583080000000000000000 = some (.fpos .parent (.x 1) (.x 2))
    ∧ decode 0xB60082892430000000000000 = some (.kvapp (.x 1) 2 4 (.x 3))
    ∧ decode 0xB6018289243000000000000D = some (.kvappLn (.x 1) 2 4 (.x 3) 13)
    ∧ decode 0xB70600B82800000000000005 = some (.atbeg 14 (.imm 5) 3)
    ∧ decode 0xB80482000000000000000000 = some (.atstep (.x 1) 2)
    ∧ decode 0xB90E5C000000000000000000 = some (.atend 14 3 1)
    ∧ decode 0xBA00830A1C40200000000008 = some (.sctpin (.x 1) ⟨1, .x 2, 8⟩ (.x 3) (.x 4))
    ∧ decode 0xBB00830A1800200000000008 = some (.sctevict (.x 1) ⟨1, .x 2, 8⟩ (.x 3)) := by
  decide

/-- R288; the word of `vtopk.k1` is the spec's own. -/
theorem test_decode_sampling :
    decode 0xC000830A1800000000000000 = some (.rngx (.x 1) (.x 2) (.reg (.x 3)))
    ∧ decode 0xC10040B42DF0000000000000 = some (.vtopk 0 0 13 (.imm 0) (.x 31))
    ∧ decode 0xC200828A1C40000000000000 = some (.vsamp (.x 1) 2 (.reg (.x 3)) (.x 4))
    ∧ decode 0xC31082891A40000000000000 = some (.vaccptP 15 (.x 1) 2 3 4)
    ∧ decode 0xC32182891800000000000000 = some (.vaccptE 0 (.x 1) 2 3)
    ∧ decode 0xC34057080000000000000000 = some (.vaccptLn 11 (.x 2)) := by
  decide

/-- R50: a condition, a scope, a size, a rounding, a field, an operand or a major that no entry admits. -/
theorem test_decode_refused :
    -- `pub` with an order bit (R131)
    decode 0x450000000005000000000000 = none
    -- `csk` with n = 0
    ∧ decode 0x210001061000000000000000 = none
    -- `csk` with condition 6
    ∧ decode 0x211901061000000000000000 = none
    -- `b` with TI 5
    ∧ decode 0x220000000000000500000000 = none
    -- `ld` with ORD 1
    ∧ decode 0x30008308B001000000000008 = none
    -- `st.i8`, SZ 1
    ∧ decode 0x310001088C30000000000008 = none
    -- `cadd.fib`
    ∧ decode 0x4000090A1800200000000008 = none
    -- `vadd.f.sat`
    ∧ decode 0x600442891800000000000000 = none
    -- `vadd.i` with a rounding code
    ∧ decode 0x600142891801000000000000 = none
    -- `mmn.f4.f4.sp` with TB 31
    ∧ decode 0x844048BFC000000000000000 = none
    -- `qcvt.h16` with src 8
    ∧ decode 0x890008860000000000000008 = none
    -- 0x05 in A of `mov`
    ∧ decode 0x1C0082140000000000000000 = none
    -- a reserved specifier, 0x3F in B of `add`
    ∧ decode 0x01008309F800000000000000 = none
    -- `ret z`
    ∧ decode 0x250000100000000000000000 = none
    -- a reserved major
    ∧ decode 0x390000000000000000000000 = none
    -- `nop` with D = x0
    ∧ decode 0x280080000000000000000000 = none
    -- `add` with a nonzero immediate beside a register
    ∧ decode 0x0100830A1800000000000001 = none
    -- `vins` into v12
    ∧ decode 0x780058021800000000000000 = none
    -- `csrr` of an unassigned number
    ∧ decode 0x2B0082000000000000000015 = none := by
  decide

/-! ## Well-formedness: a term that each check refuses -/

theorem test_ill_formed_instructions :
    wfInstr (.ret .z) = false ∧ wfInstr (.jr (.x 1) .z) = false ∧ wfInstr (.eret .z) = false ∧ wfInstr (.hfree .z) = false
    ∧ wfInstr (.tlbinvTen .z) = false ∧ wfInstr (.lvpost (.x 1) .z) = false ∧ wfInstr (.tsetReg 0 .z) = false
    ∧ wfInstr (.tlbinvVa (.x 1) .z) = false ∧ wfInstr (.wfill .z (.x 1)) = false ∧ wfInstr (.wfail (.x 1) .z) = false
    ∧ wfInstr (.halloc 0 (.x 1) (.x 2) (.reg .z)) = false ∧ wfInstr (.hchk (.x 1) .z (.imm 1)) = false
    ∧ wfInstr (.hallocBufSh (.x 1) (.x 2) (.imm 1) .z) = false ∧ wfInstr (.spawn (.x 1) .z (.imm 0)) = false
    ∧ wfInstr (.sctpin (.x 1) ⟨0, .z, 0⟩ (.x 1) .z) = false ∧ wfInstr (.sctevict (.x 1) ⟨0, .z, 0⟩ .z) = false := by
  decide

theorem test_ill_formed_modes :
    wfInstr (.vadd .f true .rne 0 0 (.v 0)) = false ∧ wfInstr (.vsub .i false .rtz 0 0 (.v 0)) = false ∧ wfInstr (.vmul .n true .rup 0 0 (.v 0)) = false
    ∧ wfInstr (.vfma .i .rdn 0 0 (.v 0) (.v 0)) = false ∧ wfInstr (.vabs false true 0 0) = false ∧ wfInstr (.vneg false true 0 0) = false
    ∧ wfInstr (.vcmp .i .un (.x 0) 0 (.v 0)) = false ∧ wfInstr (.vred .iadd .rtz (.x 0) 0) = false ∧ wfInstr (.vscan .nmax .rne 0 0) = false
    ∧ wfInstr (.vscan .imax .rup 0 0) = false ∧ wfInstr (.vpack .bfl 0 0 1) = false ∧ wfInstr (.mmn .f4 .f4 true 0 0 31 0) = false
    ∧ wfInstr (.mmn .f4 .f4 false 0 0 0 1) = false ∧ wfInstr (.qcvt false .f4 0 0 0 0 0 8 0) = false
    ∧ wfInstr (.qcvt true .f4 0 0 0 0 0 48 0) = false ∧ wfInstr (.qcvt true .f4 0 0 0 0 16 0 0) = false := by
  decide

theorem test_ill_formed_events :
    wfInstr (.fetchLineArrival 0 16) = false ∧ wfInstr (.preEmption Config.cores 0) = false ∧ wfInstr (.storeBufferDrain Config.cores 0) = false
    ∧ wfInstr (.pollTest 0 4096) = false ∧ wfInstr (.recordWriteComplete Config.cores 0) = false ∧ wfInstr (.registerWrite Config.swBytes [0]) = false
    ∧ wfInstr (.queueUnbind 65536) = false ∧ wfInstr (.kernelAdmission 8192) = false ∧ wfInstr (.drainRelease 8192 0 true) = false
    ∧ wfInstr (.evictionStart 65536) = false ∧ wfInstr (.thermalAlert 52) = false ∧ wfInstr (.tlbEntryDrop (.port Config.clusters) 0) = false
    ∧ wfInstr (.tlbEntryDrop (.die Config.dies) 0) = false ∧ wfInstr (.tlbEntryDrop (.host 4) 0) = false
    ∧ wfInstr (.softError (.reg 0 16 0x40 true)) = false ∧ wfInstr (.softError (.buffer Config.cores 0 0 true)) = false
    ∧ wfInstr (.softError (.fetch 0 16)) = false ∧ wfInstr (.softError (.word 0 true)) = true := by
  decide

/-! ## Small states -/

/-- Reset, with sg0 over the core's scratchpad and sg1 over the cluster's, every right given; in steward mode. -/
def s0 : State := { State.reset with fib := { State.reset.fib with
  seg := (State.reset.fib.seg.set 0 { base := 0, limit := 131072, cls := 0, rights := 31 }).set 1 { base := 0, limit := 25165824, cls := 1, rights := 31 } } }
def onFib (f : Fib → Fib) (s : State) : State := { s with fib := f s.fib }
def onCore (f : Core → Core) (s : State) : State := setCore s s.focus.1 (f (getCore s s.focus.1))
def onSlot (k : Fin 16) (f : Slot → Slot) (s : State) : State := onCore (fun c => { c with slots := c.slots.set k (f c.slots[k]) }) s
/-- The fibre in user mode; in slot 15. -/
def user (s : State) : State := onFib (fun f => { f with steward := false }) s
def slot15 (s : State) : State := setFocus s s.focus.1 15
def setX (k : Fin 64) (v : Word) (s : State) : State := onFib (fun f => { f with x := f.x.set k v }) s
/-- n bytes of v at location a. -/
def poke (a n v : Nat) (s : State) : State := writeNat s a n v
/-- Location of byte a of the scratchpad of the core in focus at reset. -/
def sp (a : Nat) : Nat := spadLoc 192 a
/-- A memory port of the die holds a store to the host, whose link retrains: nothing leaves the die. -/
def jammed (s : State) : State :=
  { s with links := [{ id := .port 0, state := 3, role := 1 }], ports := [{ core := 193, serial := 0, loc := Config.hostBase, bytes := [1], who := ⟨0, 193, 0⟩, num := 5 }], accepts := 6 }
/-- The word of an instruction where the fibre fetches. -/
def fetched (w : Nat) (s : State) : State := s.withFetchWord 96 w

def fine (r : Entry) : Bool := match r with
  | .fine => true
  | _ => false
def absent (r : Entry) : Bool := match r with
  | .absent => true
  | _ => false
/-- The line at va is in the fetch buffer, and p holds of its location and line word. -/
def lineAt (s : State) (va : Word) (p : Nat → Nat → Bool) : Bool := match lookLine s s.focus.1 s.fib va with
  | .line loc w => p loc w
  | _ => false
/-- The computation ends without a stop, with a value and a state of which p holds. -/
def ends {α : Type} (r : Except Stop (α × State)) (p : α → State → Bool) : Bool := match r with
  | .ok (a, t) => p a t
  | .error _ => false
/-- It ends with value a in the state s in which it began. -/
def gives {α : Type} [BEq α] (r : Except Stop (α × State)) (a : α) (s : State) : Bool := ends r fun b t => b == a && t == s
def next (r : Host.Outcome State Fault Refusal) (p : State → Bool) : Bool := match r with
  | .next t => p t
  | _ => false

theorem look_all {α : Type} {f : Nat → Nat} {v : α} (l : List Nat) {j : Nat} (h : j ∈ l) : look (l.map fun i => (f i, v)) (f j) = some v := by
  induction l with
  | nil => cases h
  | cons i r ih =>
    simp only [List.map_cons, look]
    split
    · rfl
    · next hne =>
      rcases List.mem_cons.1 h with rfl | h
      · exact absurd rfl hne
      · exact ih h

/-! ## What the statements assume is met: words, issue, traps, registers, control -/

theorem witness_DecodeOfEncode : wfInstr (.vratom .swap 2 none ⟨7, .z, 0xFFFFFF⟩ 15 (.s .z)) = true
    ∧ isEvent (.vratom .swap 2 none ⟨7, .z, 0xFFFFFF⟩ 15 (.s .z)) = false := by
  decide

theorem witness_DecodedWords : decode 0x280000000000000000000000 = some .nop
    ∧ reservedMajor ((0 : BitVec 96).extractLsb' 88 8).toNat = true ∧ reservedMajor (BitVec.toNat (0xC4 : BitVec 8)) = true
    ∧ reservedMajor (BitVec.toNat (0xC3 : BitVec 8)) = false ∧ reservedMajor (BitVec.toNat (0x38 : BitVec 8)) = false := by
  decide

/-- `add x5, x3, x4` at the pc of the first fibre: slot 0 issues it in cycle 1, and the step runs it. -/
theorem witness_StepRunsDecoded :
    let s := setX 3 30 (setX 4 12 (fetched 0x01008B0E2000000000000000 s0))
    let u := issuing s 1 0
    s.turns = [] ∧ running s = true ∧ present s s.focus.1 = true ∧ nextIssue s s.focus.1 = some (1, 0) ∧ atEnd s 1 0 = false
    ∧ calm u.fib = true ∧ codeOk u.fib.pc = true
    ∧ (let t := atIssue u
       lineAt t (lineOf t.fib.pc) fun loc w =>
         lineDefect w == none && !(getCore t t.focus.1).slots[t.focus.2].fetchErr && !pairBit w (instrNo t.fib.pc)
          && parityGood t loc w (instrNo t.fib.pc) && decode (instrBits t loc (instrNo t.fib.pc)) == some (.add (.x 5) (.x 3) (.reg (.x 4)))) = true
    ∧ next (step s) (fun t => t.fib.x[5] == 42) = true := by
  decide +kernel
/-- R338: the first fibre belongs to a killed kernel; it is at an instruction boundary. -/
theorem witness_StepRunsDecoded_killed :
    let r : Group := { stage := 0, members := [192], shares := [(0, 1)], m := 1, n := 1, home := 192 }
    let s : State := { fetched 0x01008B0E2000000000000000 s0 with kerns := [{ id := 3, queue := 2, prio := 0, killed := true, groups := [r] }] }
    let c := getCore s s.focus.1
    let t := setCore s s.focus.1 { c with fibres := c.fibres.map fun e => (e.1, { e.2 with kern := some 3 }) }
    t.turns = [] ∧ running t = true ∧ present t t.focus.1 = true ∧ nextIssue t t.focus.1 = some (1, 0) ∧ atEnd t 1 0 = true := by
  decide +kernel

/-- R47's example: `mov x1, x2` and `mov x2, x1` as a pair exchange 5 and 9. -/
theorem witness_Pairs :
    let a : Nat := 0x1C0083080000000000000000
    let b : Nat := 0x1C0085040000000000000000
    let p := s0.fetchLoc
    let s := setX 1 5 (setX 2 9 (poke (p + 12) 12 b (poke (p + 60) 4 0x621 (fetched a s0))))
    let u := issuing s 1 0
    nextIssue s s.focus.1 = some (1, 0) ∧ atEnd s 1 0 = false ∧ calm u.fib = true
    ∧ (let t := atIssue u
       lineAt t (lineOf t.fib.pc) fun loc w => lineDefect w == none && pairBit w (instrNo t.fib.pc) && parityGood t loc w 0 && parityGood t loc w 1
          && decode (instrBits t loc 0) == some (.mov (.x 1) (.x 2)) && decode (instrBits t loc 1) == some (.mov (.x 2) (.x 1))) = true
    ∧ pairFault (.mov (.x 1) (.x 2)) (.mov (.x 2) (.x 1)) = none
    ∧ s.pair = none ∧ plainS s.fib (.x 2) = true ∧ plainS s.fib (.x 1) = true ∧ openS s.fib (.x 1) = true ∧ openS s.fib (.x 2) = true
    ∧ next (step s) (fun t => t.fib.x[1] == 9 && t.fib.x[2] == 5 && t.fib.la[0] == 5 && t.fib.la[1] == 9) = true := by
  decide +kernel

theorem witness_StepRunsEvent : ({ s0 with turns := [.event .attest] } : State).turns = .event .attest :: []
    ∧ (isEvent .attest && wfInstr .attest) = true ∧ (isEvent (.pollTest 0 4096) && wfInstr (.pollTest 0 4096)) = false
    ∧ s0.power = true ∧ ({ s0 with power := false } : State).power = false ∧ Instr.attest ≠ .powerOn := by
  decide

theorem witness_NoInstructionAndPoisonTrap :
    let s := fetched 0 s0
    let p := s.fetchLoc
    let u := onFib (fun f => { f with poison := [0x43] }) s0
    pairBit 1 (instrNo s.fib.pc) = false ∧ (getCore s s.focus.1).slots[s.focus.2].fetchErr = false
    ∧ parityGood s p 1 (instrNo s.fib.pc) = true ∧ decode (instrBits s p (instrNo s.fib.pc)) = none
    ∧ u.pair = none ∧ armedS u.fib (.x 3) = none ∧ u.fib.poison.contains (specOf (.x 3)) = true := by
  decide +kernel

def bad (r : Entry) (cause : Nat) : Bool := match r with
  | .bad c _ _ => c == cause
  | _ => false
/-- A handler at the pc itself; no handler; a handler active; a handler at no code address, whose failure is cause 0x02. -/
theorem witness_TrapIsTaken :
    let s := onFib (fun f => { f with tvec := f.pc }) (fetched 0x280000000000000000000000 s0)
    let t : Trap := ⟨1, s.fib.pc, 0⟩
    let n := onFib (fun f => { f with tvec := 4 }) s0
    isRequest s s.focus.1 (fibIndex s.fib) = false ∧ s.fib.tcause = 0 ∧ s.fib.tvec ≠ 0 ∧ fine (enterAt (trapRegs s t) s.fib.tvec true) = true
    ∧ absent (enterAt (trapRegs (onCore (fun c => { c with lines := [] }) s) t) s.fib.tvec true) = true
    ∧ s0.fib.tvec = 0 ∧ (onFib (fun f => { f with tcause := 1 }) s).fib.tcause ≠ 0
    ∧ n.fib.tcause = 0 ∧ n.fib.tvec ≠ 0 ∧ bad (enterAt (trapRegs n t) n.fib.tvec true) 2 = true := by
  decide +kernel
/-- R135, R137: no handler, a handler active, a handler that cannot be entered: the fibre is faulted. -/
theorem witness_TrapIsTaken_faulted :
    let n := onFib (fun f => { f with tvec := 4 }) s0
    let a := onFib (fun f => { f with tcause := 2 }) n
    let faulted := fun s : State => match fibreInfo s s.focus.1 (fibIndex s.fib) with
      | none => false
      | some i =>
        let r := raiseTrap s ⟨1, s.fib.pc, 5⟩ false
        decide (s.focus.1 < Config.cores) && !isRequest s s.focus.1 (fibIndex s.fib) && decide (i.loc + 65536 ≤ Config.spadBase)
          && !isToxic s (faultCtr s.focus.1) && !(getCore r s.focus.1).slots[s.focus.2].bound
          && (fibreInfo r s.focus.1 (fibIndex s.fib)).any fun j => j.state == .faulted && j.loc == i.loc
    faulted s0 = true ∧ faulted a = true ∧ faulted n = true := by
  decide +kernel

/-- The entry check of a handler whose line has come: it passes; it fails at an address that is no code address. -/
theorem witness_TrapIsTaken_entering :
    let s := onFib (fun f => { f with tvec := f.pc, tcause := 1, entering := true }) (fetched 0x280000000000000000000000 s0)
    let n := onFib (fun f => { f with tvec := 4, tcause := 1, entering := true }) s0
    let begun := fun t : State => onFib (fun f => { f with entering := false, want := none }) t
    s.fib.entering = true ∧ fine (enterAt (begun s) s.fib.tvec true) = true ∧ n.fib.entering = true ∧ bad (enterAt (begun n) n.fib.tvec true) 2 = true
    ∧ isRequest n n.focus.1 (fibIndex n.fib) = false ∧ (fibreInfo n n.focus.1 (fibIndex n.fib)).isSome = true
    ∧ next (issueFib n) (fun t => !(getCore t 192).slots[(0 : Fin 16)].bound && t.cores.length == 1) = true := by
  decide +kernel

theorem witness_ReturnFromHandler :
    let s := onFib (fun f => { f with tcause := 1, tpc := f.pc, x := f.x.set 9 f.pc }) (fetched 0x280000000000000000000000 s0)
    s.pair = none ∧ s.fib.tcause ≠ 0 ∧ fine (enterAt s s.fib.tpc false) = true
    ∧ plainS s.fib (.x 9) = true ∧ fine (enterAt s (regVal s.fib (.x 9)) false) = true ∧ s0.pair = none ∧ s0.fib.tcause = 0 := by
  decide +kernel

theorem witness_PushAndNamedDestination : s0.fib.poison = [] ∧ s0.fib.flips = [] ∧ (SReg.la 0 ≠ .la 3) ∧ (SReg.la 3 ≠ .z) := by
  decide

theorem witness_ConditionCodes : 6 ≤ 6 ∧ condHolds .lt (BitVec.ofInt 64 (-1)) 0 = true ∧ condHolds .ltn (BitVec.ofInt 64 (-1)) 0 = false := by
  decide

/-- Ordinary operands, for every statement about scalar and field instructions. -/
theorem witness_ScalarInstructions : s0.pair = none ∧ plainS s0.fib (.x 1) = true ∧ plainB s0.fib (.imm (-1)) = true ∧ plainB s0.fib (.reg .z) = true
    ∧ plainS s0.fib (.la 3) = true ∧ openS s0.fib (.s 15) = true ∧ openS s0.fib .z = true := by
  decide

/-- R69: -7 by 2, by 0, and -2^63 by -1; R70: a shift by 64. -/
theorem witness_DivisionAndShifts :
    let s := setX 1 (BitVec.ofInt 64 (-7)) (setX 2 (BitVec.ofInt 64 (-2 ^ 63)) s0)
    s.pair = none ∧ plainS s.fib (.x 1) = true ∧ plainB s.fib (.imm 2) = true ∧ openS s.fib (.x 3) = true
    ∧ next (exec (.div (.x 3) (.x 1) (.imm 2)) s) (fun t => t.fib.x[3] == BitVec.ofInt 64 (-3)) = true
    ∧ next (exec (.rem (.x 3) (.x 1) (.imm 0)) s) (fun t => t.fib.x[3] == BitVec.ofInt 64 (-7)) = true
    ∧ next (exec (.div (.x 3) (.x 2) (.imm (-1))) s) (fun t => t.fib.x[3] == BitVec.ofInt 64 (-2 ^ 63)) = true
    ∧ next (exec (.shl (.x 3) (.x 1) (.imm 64)) s) (fun t => t.fib.x[3] == 0) = true := by
  decide +kernel

/-- R71's example: `bext.s` of 0xF0 with 0x0804 gives 15. -/
theorem witness_FieldInstructions :
    let s := setX 2 0xF0 s0
    s.pair = none ∧ plainS s.fib (.x 2) = true ∧ plainB s.fib (.imm 0x804) = true ∧ plainS s.fib (.x 4) = true ∧ openS s.fib (.x 1) = true
    ∧ next (exec (.bextS (.x 1) (.x 2) (.imm 0x804)) s) (fun t => t.fib.x[1] == 15) = true := by
  decide +kernel

/-- A line whose instruction 0 may be entered; a target that is no code address. -/
theorem witness_Transfers :
    let s := onFib (fun f => { f with x := ((f.x.set 1 f.pc).set 2 1).set 3 (f.pc + 1) }) (fetched 0x280000000000000000000000 s0)
    s.pair = none ∧ fine (enterAt s (jumpTarget s 0 0) false) = true ∧ absent (enterAt s (jumpTarget s 0 1) false) = true
    ∧ fine (enterAt s (regVal s.fib (.x 1)) false) = true
    ∧ plainS s.fib (.x 1) = true ∧ plainS s.fib (.x 2) = true ∧ openS s.fib (.x 4) = true
    ∧ condHolds .eq (regVal s.fib (.x 2)) (regVal s.fib (.x 2)) = true ∧ condHolds .ne (regVal s.fib (.x 2)) (regVal s.fib (.x 2)) = false
    ∧ regVal s.fib (.x 1) ≠ 1 ∧ regVal s.fib (.x 2) = 1 ∧ codeOk (regVal s.fib (.x 3)) = false := by
  decide +kernel

theorem witness_SkipsAndOtherControl :
    let s := fetched 0x280000000000000000000000 s0
    let n := poke (s.fetchLoc + 12) 12 0x280000000000000000000000 s
    s.pair = none ∧ plainS s.fib (.x 1) = true ∧ plainB s.fib (.imm 0) = true
    ∧ condHolds .ne (regVal s.fib (.x 1)) (valB s.fib (.imm 0)) = false ∧ condHolds .eq (regVal s.fib (.x 1)) (valB s.fib (.imm 0)) = true
    ∧ (lineAt n (lineOf (nextPc n.fib.pc)) fun loc w => parityGood n loc w (instrNo (nextPc n.fib.pc))
          && (decode (instrBits n loc (instrNo (nextPc n.fib.pc)))).isSome && instrNo (nextPc n.fib.pc) != 0) = true
    ∧ eldest (goOn s) s.focus.1 s.focus.2 = none ∧ (freeTag (getCore s s.focus.1)).isSome = true ∧ s.focus.2 ≠ 15 ∧ (slot15 s).focus.2 = 15
    ∧ (fibreInfo (unbind (goOn s) s.focus.1 s.focus.2 .swapped) s.focus.1 (fibIndex s.fib)).isSome = true
    ∧ (postMiss (goOn (slot15 s)) s.focus.1
        { va := 0, at_ := 7, tenant := s.fib.tenant, tag := 0, rq := 3, who := fibIndex s.fib, code := 3 }).isSome = true := by
  decide +kernel

theorem witness_SpecialRegisters :
    s0.pair = none ∧ plainS s0.fib (.x 1) = true ∧ openS s0.fib (.x 2) = true ∧ s0.fib.steward = true ∧ csrAccess .cyc = .ro
    ∧ (user s0).fib.steward = false ∧ (∀ k, Csr.cyc ≠ .tshape k) ∧ Csr.cyc ≠ .tclaim ∧ Csr.cyc ≠ .aclaim ∧ Csr.cyc ≠ .rope ∧ Csr.cyc ≠ .tvec := by
  decide

/-! ## Segments, memory, streams, counters, publish -/

/-- R79: the last word in the local class passes; one byte further does not; class, rights, alignment. -/
theorem witness_SegmentChecks :
    (s0.fib.seg[(0 : Fin 8)].cls = 0 ∧ s0.fib.seg[(1 : Fin 8)].cls = 1)
    ∧ gives (resolve 0 131064 8 8 rightRd accLoad s0) [(spadLoc 192 131064, 8)] s0 = true
    ∧ ends (resolve 0 131065 8 8 rightRd accLoad s0) (fun _ _ => true) = false
    ∧ gives (resolve 1 25165760 64 64 rightWr accStore s0) [(clusterLoc 1 25165760, 64)] s0 = true := by
  decide +kernel

theorem witness_Loads :
    let m : MemRef := ⟨0, .x 1, 0xFFFFFFFFFFC0⟩
    let s := setX 1 131072 (poke (sp 131008) 8 0x8070605040302010 s0)
    s.pair = none ∧ plainS s.fib m.a = true ∧ openS s.fib (.x 2) = true ∧ openV s.fib 15 = true
    ∧ gives (resolve m.sg (offM s.fib m) 8 8 rightRd accLoad (acquired s none)) [(sp 131008, 8)] s = true
    ∧ ends (resolve m.sg (offM s.fib m) 8 8 rightRd accLoad (acquired s (some .core))) (fun l _ => l == [(sp 131008, 8)]) = true
    ∧ gives (resolve m.sg (offM s.fib m) 64 64 rightRd accLoad (acquired s none)) [(sp 131008, 64)] s = true
    ∧ gives (resolve m.sg (offM s.fib m) 2 2 rightRd accLoad (acquired s none)) [(sp 131008, 2)] s = true
    ∧ readable s (sp 131008) 64 false = true ∧ readable (acquired s (some .core)) (sp 131008) 8 true = true
    ∧ next (exec (.ld 1 none (.x 2) ⟨0, .x 1, 0xFFFFFFFFFFC7⟩) s) (fun t => t.fib.x[2] == 0xFFFFFFFFFFFFFF80) = true := by
  decide +kernel

theorem witness_StoresAndReadBack :
    let m : MemRef := ⟨0, .x 1, 0xFFFFFFFFFFC0⟩
    let s := setX 1 131072 s0
    s.pair = none ∧ plainS s.fib m.a = true ∧ plainS s.fib (.x 2) = true ∧ plainV s.fib 3 = true
    ∧ gives (resolve m.sg (offM s.fib m) 8 8 rightWr accStore s) [(sp 131008, 8)] s = true
    ∧ gives (resolve m.sg (offM s.fib m) 64 64 rightWr accStore s) [(sp 131008, 64)] s = true
    ∧ sp 131008 % 64 = 0 ∧ storable s (sp 131008) = true
    ∧ sp 131008 % 64 + (List.replicate 64 (0 : Byte)).length ≤ 64 ∧ (getCore s s.focus.1).sb.length < 32 ∧ (∀ e ∈ (getCore s s.focus.1).sb, e.block = sp 131008 / 64 * 64 → e.closed = false)
    ∧ next (exec (.st 3 m (.x 1)) s) (fun t => (visible t (sp 131008) 8 false).map BitVec.toNat == [0, 0, 2, 0, 0, 0, 0, 0] && byteAt t (sp 131010) == 0) = true := by
  decide +kernel

theorem witness_DeriveAndQuerySegment :
    let s := onFib (fun f => { f with seg := f.seg.set 2 { base := 7, limit := 64, cls := 3, rights := 3 }, x := f.x.set 1 131072 }) s0
    s.pair = none ∧ plainS s.fib (.x 1) = true ∧ openS s.fib (.x 2) = true
    ∧ (offM s.fib ⟨0, .z, 1⟩).toNat + (regVal s.fib (.x 1)).toNat > s.fib.seg[(0 : Fin 8)].limit.toNat
    ∧ s.fib.seg[(2 : Fin 8)].cls = 3 ∧ offM s.fib ⟨2, .z, 1⟩ ≠ 0
    ∧ (offM s.fib ⟨0, .z, 0⟩).toNat + (regVal s.fib (.x 1)).toNat ≤ s.fib.seg[(0 : Fin 8)].limit.toNat ∧ s.fib.seg[(0 : Fin 8)].cls ≠ 3
    ∧ next (exec (.sseg 3 6 ⟨0, .z, 0⟩ (.x 1)) s) (fun t => t.fib.seg[6] == { base := 0, limit := 131072, cls := 0, rights := 3 }) = true := by
  decide +kernel

/-- A record of 4 elements of 8 bytes at 1024, read by a stream of `s12`. -/
theorem witness_ArmAndDisarm :
    let q : Pattern := ⟨6, 4, 1, 1, 8, 0, 0, 1024⟩
    let s := poke (sp 64) 64 (6 + 1 * 2 ^ 8 + 4 * 2 ^ 64 + 8 * 2 ^ 128 + 1024 * 2 ^ 448) s0
    s.pair = none ∧ plainS s.fib .z = true
    ∧ ends (loadSeg 0 (offM s.fib ⟨0, .z, 64⟩) 64 64 false s) (fun b t => t == s && patternOf b false == some q
        && hasRights t.fib.seg[(1 : Fin 8)] rightStr && hasRights t.fib.seg[(1 : Fin 8)] rightRd && hasRights t.fib.seg[(1 : Fin 8)] rightWr
        && armFault t t.fib.seg[(1 : Fin 8)] q rightRd == none && armFault t t.fib.seg[(1 : Fin 8)] q rightWr == none && t.pair == none) = true
    ∧ openS (disarmNamed s.fib ⟨false, 0⟩) (.x 1) = true
    ∧ next (exec (.sarm false ⟨false, 0⟩ ⟨0, .z, 64⟩ 1) s) (fun t => t.fib.streams[0].armed && t.fib.streams[0].index == 0 && t.fib.streams[0].dseg == 1) = true := by
  decide +kernel

/-- `s12`: an output stream, an input stream at its end, and one with an element that a refill has brought. -/
theorem witness_StreamPops :
    let q : Pattern := ⟨1, 2, 1, 1, 8, 0, 0, 1024⟩
    let arm := fun r : Stream => onFib (fun f => { f with streams := f.streams.set 0 r }) s0
    let o := arm { armed := true, out := true, pat := some q }
    let e := arm { armed := true, index := 2, pat := some q }
    let i := arm { armed := true, index := 1, pat := some q, buf := [⟨[0x80], none⟩] }
    (∀ s ∈ [o, e, i], s.pair = none ∧ openS s.fib (.x 1) = true ∧ armedS s.fib (streamSReg 0) = some 0 ∧ s.fib.streams[(0 : Fin 4)].again = false
      ∧ s.fib.streams[(0 : Fin 4)].pat = some q)
    ∧ o.fib.streams[(0 : Fin 4)].out = true ∧ e.fib.streams[(0 : Fin 4)].index.toNat ≥ q.c0 * q.c1 * q.c2
    ∧ i.fib.streams[(0 : Fin 4)].index.toNat < q.c0 * q.c1 * q.c2 ∧ i.fib.streams[(0 : Fin 4)].buf = [⟨[0x80], none⟩]
    ∧ gives (resolve i.fib.streams[(0 : Fin 4)].dseg (q.off 1) (sizeBytes q.esize) (sizeBytes q.esize) rightRd accLoad i) [(sp 1032, 1)] i = true
    ∧ next (exec (.mov (.x 1) (streamSReg 0)) i) (fun t => t.fib.x[1] == 0xFFFFFFFFFFFFFF80 && t.fib.streams[0].index == 2) = true := by
  decide +kernel

/-- Writes to the register of an armed stream: of an input stream, of an output stream within its pattern and at its end, scalar and vector. -/
theorem witness_StreamPops_writes :
    let q : Pattern := ⟨6, 2, 1, 1, 8, 0, 0, 1024⟩
    let p : Pattern := ⟨6, 2, 1, 1, 64, 0, 0, 1024⟩
    let arm := fun r : Stream => onFib (fun f => { f with streams := f.streams.set 0 r, x := f.x.set 1 0x1234 }) s0
    let o := arm { armed := true, out := true, index := 1, pat := some q }
    let e := arm { armed := true, out := true, index := 2, pat := some q }
    let i := arm { armed := true, pat := some q }
    let w := arm { armed := true, isV := true, out := true, index := 1, pat := some { p with esize := 8 } }
    (∀ s ∈ [o, e, i], s.pair = none ∧ plainS s.fib (.x 1) = true ∧ armedS s.fib (streamSReg 0) = some 0 ∧ s.fib.streams[(0 : Fin 4)].again = false
      ∧ s.fib.streams[(0 : Fin 4)].pat = some q)
    ∧ i.fib.streams[(0 : Fin 4)].out = false ∧ e.fib.streams[(0 : Fin 4)].index.toNat ≥ q.c0 * q.c1 * q.c2
    ∧ o.fib.streams[(0 : Fin 4)].index.toNat < q.c0 * q.c1 * q.c2 ∧ sizeBytes q.esize = 8
    ∧ (let u := onFib (fun f => pushLa f (regVal f (.x 1))) o
       gives (resolve o.fib.streams[(0 : Fin 4)].dseg (q.off 1) 8 8 rightWr accStore u) [(sp 1032, 8)] u = true) ∧ sp 1032 % 8 = 0 ∧ storable o (sp 1032) = true
    ∧ w.pair = none ∧ plainV w.fib 0 = true ∧ armedV w.fib (streamVReg 0) = some 0 ∧ sizeBytes 8 = 64
    ∧ gives (resolve w.fib.streams[(0 : Fin 4)].dseg (p.off 1) 64 64 rightWr accStore w) [(sp 1088, 64)] w = true ∧ sp 1088 % 64 = 0
    ∧ next (exec (.mov (streamSReg 0) (.x 1)) o) (fun t => t.fib.streams[0].index == 2 && t.fib.la[0] == 0x1234 && (visible t (sp 1032) 1 false) == [0x34]) = true
    ∧ next (exec (.mov (streamSReg 0) (.x 1)) e) (fun t => t.fib.streams[0].index == 2 && t.fib.la[0] == 0x1234) = true := by
  decide +kernel

/-- The counter word at 0x40 holds 7. -/
def ctr7 : State := poke (sp 0x40) 8 7 s0

theorem witness_CounterAddsAndTest :
    let m : CRef := ⟨0, .z, 0x40⟩
    let s := setX 1 (BitVec.ofNat 64 (2 ^ 63)) (setX 2 (BitVec.ofNat 64 (2 ^ 63 - 1)) ctr7)
    let u := correctRead (flushMsgs s s.focus.1 (homeOf (sp 0x40))) (sp 0x40) 8
    let w := setCounter u (sp 0x40) (readWord u (sp 0x40) + valArg s.fib (.reg (.x 2))) (selfAdder u)
    s.pair = none ∧ plainS s.fib m.a = true ∧ plainArg s.fib (.reg (.x 1)) = true ∧ gives (counterWord m.sg (offC s.fib m) s) (sp 0x40) s = true
    ∧ othersAhead s s.focus.1 (.home (homeOf (sp 0x40))) (fibIndex s.fib) = false
    ∧ unbuffered s (sp 0x40) = true ∧ (valArg s.fib (.reg (.x 1))).toNat ≥ 2 ^ 63 ∧ (valArg s.fib (.reg (.x 2))).toNat < 2 ^ 63
    ∧ released s false .sys = some s ∧ ((released s true .sys).any fun t => t.pair == none) = true
    ∧ w.pair = none ∧ openS w.fib (.x 3) = true ∧ isToxic u (sp 0x40) = false
    ∧ (∀ e ∈ s.enrol, e.loc ≠ sp 0x40) ∧ (∀ r ∈ s.strag, r.loc ≠ sp 0x40) ∧ (∀ w ∈ s.latent, w + 8 ≤ sp 0x40 ∨ sp 0x40 + 8 ≤ w)
    ∧ reached 7 8 = false ∧ reached 7 7 = true ∧ reached 0 1 = false ∧ reached 0 (BitVec.ofInt 64 (-1)) = true := by
  decide +kernel

theorem witness_CounterWaitsAndReads :
    let m : CRef := ⟨0, .z, 0x40⟩
    let s := ctr7
    let u := correctRead (flushMsgs s s.focus.1 (homeOf (sp 0x40))) (sp 0x40) 8
    let w := onFib (fun f => { f with wake := some (.value 9) }) s
    s.pair = none ∧ s.fib.wake = none ∧ plainS s.fib m.a = true ∧ plainArg s.fib (.imm 7) = true
    ∧ gives (counterWord m.sg (offC s.fib m) s) (sp 0x40) s = true ∧ unbuffered s (sp 0x40) = true ∧ isToxic u (sp 0x40) = false ∧ u.pair = none
    ∧ openS (acquiredIf u true .sys).fib (.x 1) = true ∧ openS u.fib (.x 1) = true
    ∧ reached (readWord u (sp 0x40)) (valArg s.fib (.imm 7)) = true ∧ reached (readWord u (sp 0x40)) (valArg s.fib (.imm 8)) = false
    ∧ w.fib.wake = some (.value 9) ∧ armedS w.fib m.a = none ∧ openS w.fib (.x 1) = true := by
  decide +kernel

/-- A store to the host stands in the buffer of the core in focus while the host port retrains. -/
def heldStore : State := onCore (fun c => { c with sb := [{ block := Config.hostBase, writes := [⟨0, [1], ⟨0, 192, 0⟩, false, none⟩] }], sbSeq := 1 })
  { s0 with links := [{ id := .port 0, state := 3, role := 1 }] }

/-- R96: fibre 7, whose instruction waits in slot 3, is ahead on the way to the home of the counter; the first fibre has a place of its own or
none. A release that a link holds. -/
theorem witness_CounterAddsAndTest_order :
    let m : CRef := ⟨0, .z, 0x40⟩
    let k := TurnKey.home (homeOf (sp 0x40))
    let other : Fib := { ctr7.fib with fibre := BitVec.ofNat 32 (192 * 4096 + 7), issued := true }
    let s := onCore (fun x => { x with waitq := [.instr k 7] }) (onSlot 3 (fun l => { l with bound := true, ctx := other }) ctr7)
    let p := onCore (fun x => { x with waitq := [.instr k 7, .instr k 0] }) s
    let h := { onCore (fun x => { x with sb := (getCore heldStore 192).sb, sbSeq := 1 }) ctr7 with links := heldStore.links }
    (∀ t ∈ [s, p], t.pair = none ∧ released t false .sys = some t ∧ othersAhead t t.focus.1 k (fibIndex t.fib) = true
      ∧ gives (counterWord m.sg (offC t.fib m) t) (sp 0x40) t = true ∧ unbuffered t (sp 0x40) = true)
    ∧ (getCore s 192).waitq.any (·.isOf (fibIndex s.fib)) = false ∧ (getCore p 192).waitq.any (·.isOf (fibIndex p.fib)) = true
    ∧ othersAhead ctr7 ctr7.focus.1 k (fibIndex ctr7.fib) = false
    ∧ gives (counterWord m.sg (offC h.fib m) h) (sp 0x40) h = true ∧ unbuffered h (sp 0x40) = true ∧ released h true .sys = none
    ∧ next (exec (.cadd false .sys m (.imm 1)) s) (fun t => (getCore t 192).waitq.length == 2 && t.msgs.isEmpty) = true
    ∧ next (exec (.cread false .sys (.x 1) m) s) (fun t => t.fib.status == .waiting .room && (getCore t 192).waitq.length == 2) = true := by
  decide +kernel

theorem witness_PublishAcquireDrain :
    ((released s0 true .sys).any fun t => t.pair == none) = true ∧ released heldStore true .sys = none ∧ heldStore.pair = none
    ∧ s0.pair = none ∧ s0.fib.wake = none ∧ myGroup s0 = none
    ∧ (onFib (fun f => { f with wake := some (.value 1) }) s0).fib.wake = some (.value 1) ∧ openS s0.fib (.x 1) = true := by
  decide +kernel

/-! ## Vectors and tiles -/

theorem witness_VectorTwoSource : s0.pair = none ∧ plainV s0.fib 0 = true ∧ plainVS s0.fib (.v 15) = true ∧ plainVS s0.fib (.s .z) = true
    ∧ plainVS s0.fib (.imm 1) = true ∧ openV s0.fib 15 = true ∧ openS s0.fib (.x 1) = true := by
  decide

theorem witness_VectorOthers : s0.pair = none ∧ plainV s0.fib 0 = true ∧ plainV s0.fib 15 = true ∧ plainVC s0.fib (.s (.x 1)) = true
    ∧ plainVC s0.fib (.v 3) = true ∧ plainB s0.fib (.imm 1) = true ∧ openV s0.fib 1 = true ∧ soundReg s0.fib (0x20 + 11) = true := by
  decide

/-- Lanes 3 and 5 active, both at offset 8 of sg0; the word there holds 5. -/
def lanes35 : State := onFib (fun f => { f with v := f.v.set 2 (vecOf fun i => if i = 3 ∨ i = 5 then 4 else 0xFFFFFFFF) }) (poke (sp 8) 4 5 s0)

/-- Both lanes act on the word, the lower first; with lane 5 at an offset that is no multiple of 4, it traps after lane 3. -/
theorem witness_VectorMemory :
    let m : CRef := ⟨0, .z, 0⟩
    let s := lanes35
    let act := fun i : Fin 16 => decide (progressOf s.fib ≤ i.val) && s.fib.v[(2 : Fin 16)][i] != 0xFFFFFFFF
    s.pair = none ∧ plainS s.fib m.a = true ∧ plainV s.fib 2 = true ∧ plainV s.fib 4 = true ∧ plainVC s.fib (.v 4) = true ∧ progressOf s.fib = 0
    ∧ act 3 = true ∧ act 5 = true ∧ act 4 = false
    ∧ ((lanesRun act (scatLane s 1 m 2 4) 16 s).any fun t => t.pair == none && (visible t (sp 8) 4 false) == [0, 0, 0, 0]) = true
    ∧ ((lanesRun act (ratomLane s .addi 1 (some 1) m 2 (.s (.x 1))) 16 (setX 1 3 s)).any fun t => t.pair == none) = true
    ∧ ((lanesRun act (ratomLane (setX 1 3 s) .addi 1 (some 1) m 2 (.s (.x 1))) 16 (setX 1 3 s)).any fun t =>
        t.fib.v[(1 : Fin 16)][(3 : Fin 16)] == 5 && t.fib.v[(1 : Fin 16)][(5 : Fin 16)] == 8 && readNat t (sp 8) 4 == 11) = true := by
  decide +kernel

/-- A lane that traps after one that has taken its effect. -/
theorem witness_VectorMemory_stops :
    let m : CRef := ⟨0, .z, 0⟩
    let s := onFib (fun f => { f with v := f.v.set 2 (vecOf fun i => if i = 3 then 4 else if i = 5 then 3 else 0xFFFFFFFF), x := f.x.set 1 3 }) (poke (sp 8) 4 5 s0)
    let act := fun i : Fin 16 => decide (progressOf s.fib ≤ i.val) && s.fib.v[(2 : Fin 16)][i] != 0xFFFFFFFF
    let stops := fun (r : Except Stop (Unit × State)) => match r with
      | .error (.trap cause _ _ _) => cause == 7
      | _ => false
    let stopped := fun (r : Except Stop (List (Nat × Nat) × State)) => match r with
      | .error (.trap cause _ _ _) => cause == 7
      | _ => false
    act 5 = true ∧ ((lanesRun act (scatLane s 1 m 2 4) 5 s).any fun t => stops (storeSeg m.sg (laneOff s m 1 2 5) 4 (bytesOf 4 0) t)) = true
    ∧ ((lanesRun act (ratomLane s .addi 1 none m 2 (.s (.x 1))) 5 s).any fun t => readNat t (sp 8) 4 == 8
        && stopped (resolve m.sg (laneOff s m 1 2 5) 4 4 (rightRd + rightWr) accUpdate t)) = true
    ∧ next (exec (.vscat 1 m 2 4) s) (fun t => !(getCore t 192).slots[(0 : Fin 16)].bound && (visible t (sp 8) 4 false) == [0, 0, 0, 0]) = true := by
  decide +kernel

/-- What a load reads does not hang on the vector registers. -/
theorem segFault_v (s : State) (v : Vector VReg 16) (seg : Seg) (o : Word) (n al need : Nat) :
    segFault { s with fib := { s.fib with v := v } } seg o n al need = segFault s seg o n al need := rfl
theorem coreByte_v (s : State) (v : Vector VReg 16) (g a : Nat) (h : isSw a = false) :
    coreByte { s with fib := { s.fib with v := v } } g false a = coreByte s g false a := by
  have e : homeByte { s with fib := { s.fib with v := v } } a = homeByte s a := by simp only [homeByte, h, Bool.false_eq_true, if_false]; rfl
  rw [coreByte, coreByte, e]
  unfold coreByteOver seenByte
  rfl
theorem coreBytes_v (s : State) (v : Vector VReg 16) (g n : Nat) : ∀ a, (∀ i, i < n → isSw (a + i) = false) →
    coreBytes { s with fib := { s.fib with v := v } } g false a n = coreBytes s g false a n := by
  induction n with
  | zero => exact fun _ _ => rfl
  | succ n ih =>
    intro a h
    rw [coreBytes, coreBytes, coreByte_v s v g a (h 0 (by omega)), ih (a + 1) fun i hi => by
      have := h (i + 1) (by omega); rwa [show a + 1 + i = a + (i + 1) by omega]]
theorem readable_v (s : State) (v : Vector VReg 16) (a n : Nat) (hp : s.ports = []) (h : ∀ i, i < n → isSw (a + i) = false) :
    readable { s with fib := { s.fib with v := v } } a n false = readable s a n false := by
  have e : ∀ t : State, t.ports = [] → askedIn t a n false = t := fun t h => by simp [askedIn, clearPath, h]
  have o : ∀ t : State, t.ports = [] → pathOpen t a n false = true := fun t h => by simp [pathOpen, clearPath, pathClear, h]
  rw [readable, readable, o s hp, o { s with fib := { s.fib with v := v } } hp, e s hp, e { s with fib := { s.fib with v := v } } hp]
  simp only [coreBytes_v s v s.focus.1 n a h]
  rfl
theorem visible_v (s : State) (v : Vector VReg 16) (a n : Nat) (hp : s.ports = []) (h : ∀ i, i < n → isSw (a + i) = false) :
    visible { s with fib := { s.fib with v := v } } a n false = visible s a n false := by
  have e : ∀ t : State, t.ports = [] → askedIn t a n false = t := fun t h => by simp [askedIn, clearPath, h]
  rw [visible, visible, e s hp, e { s with fib := { s.fib with v := v } } hp]
  exact congrArg _ (coreBytes_v s v s.focus.1 n a h)

theorem loadSeg_v (s : State) (v : Vector VReg 16) (o : Word) (a : Nat) (b : List Byte) (hc : s.fib.seg[(0 : Fin 8)].cls.toNat < 2)
    (hf : segFault s s.fib.seg[(0 : Fin 8)] o 4 4 rightRd = none) (ha : nearLoc s.focus.1 s.fib.seg[(0 : Fin 8)] (classAddr s.fib.seg[(0 : Fin 8)] o) = a)
    (hp : s.ports = []) (hl : s.latent = []) (hw : ∀ i, i < 4 → isSw (a + i) = false) (hr : readable s a 4 false = true)
    (hv : visible s a 4 false = b) :
    loadSeg 0 o 4 4 false { s with fib := { s.fib with v := v } } = .ok (b, { s with fib := { s.fib with v := v } }) := by
  have hn := resolve_near (s := { s with fib := { s.fib with v := v } }) (sg := 0) (k := accLoad) hc ((segFault_v s v _ o 4 4 rightRd).trans hf)
  have h := loadSeg_readable (acq := none) hn ((readable_v s v _ 4 hp (ha ▸ hw)).trans (ha ▸ hr))
  refine h.trans (congrArg Except.ok (Prod.ext ?_ (readPast_quiet _ _ hp hl)))
  exact (visible_v s v _ 4 hp (ha ▸ hw)).trans (ha ▸ hv)

/-- The word that the gather of the statement reads is the same whatever the vector registers hold. -/
theorem witness_VectorMemory_gather (v : Vector VReg 16) :
    laneOff lanes35 ⟨0, .z, 0⟩ 1 2 3 = 8 ∧ laneOff lanes35 ⟨0, .z, 0⟩ 1 2 5 = 8
      ∧ loadSeg 0 8 4 4 false { lanes35 with fib := { lanes35.fib with v := v } } = .ok ([5, 0, 0, 0], { lanes35 with fib := { lanes35.fib with v := v } }) :=
  ⟨by decide +kernel, by decide +kernel, loadSeg_v lanes35 v 8 (sp 8) [5, 0, 0, 0] (by decide +kernel) (by decide +kernel) (by decide +kernel)
    (by decide +kernel) (by decide +kernel) (by decide +kernel) (by decide +kernel) (by decide +kernel)⟩

/-- Tiles 0 to 3 and accumulators 0 and 1 claimed; t0 an `f32`, t1 an `i32`, t2 a `scale` and t3 an `na` tile of F4. -/
def tiled : State := onFib (fun f => { f with tclaim := 15, aclaim := 3
                                              tshape := (((f.tshape.set 0 0x303F).set 1 0x283F).set 2 0x403F).set 3 0x083F }) s0

theorem witness_TilesSetAndMove :
    let s := setX 1 0x13007 tiled
    s.pair = none ∧ hasTile s.fib 31 = false ∧ hasTile s.fib 4 = false ∧ hasAcc s.fib 2 = false ∧ hasTile s.fib 3 = true
    ∧ shapeOk (BitVec.toNat (0x4800 : BitVec 15)) = false ∧ shapeOk (BitVec.toNat (0x3007 : BitVec 15)) = true ∧ plainS s.fib (.x 1) = true
    ∧ shapeOk ((regVal s.fib (.x 1)).toNat % 32768) = true ∧ plainV s.fib 0 = true ∧ goodTile s 0 = true ∧ goodTile s 1 = true
    ∧ shKind s.fib.tshape[(3 : Fin 32)] ≠ 5 ∧ shKind s.fib.tshape[(3 : Fin 32)] ≠ 6 ∧ shKind s.fib.tshape[(0 : Fin 32)] = 6
    ∧ shKind s.fib.tshape[(1 : Fin 32)] = 5 ∧ hasAcc s.fib 1 = true ∧ openV s.fib 15 = true := by
  decide +kernel

/-- A tile without shape; an `f32` row of 8 at pitch 32, at the end of the scratchpad, in lines that a store can enter. -/
theorem witness_TileLoadStore :
    let m : CRef := ⟨0, .x 1, 0xFFFF00⟩
    let s := setX 1 131072 tiled
    let u := onFib (fun f => { f with tclaim := f.tclaim ||| 16 }) s
    u.pair = none ∧ plainS u.fib m.a = true ∧ hasTile u.fib 4 = true ∧ shKind u.fib.tshape[(4 : Fin 32)] = 0
    ∧ hasTile s.fib 0 = true ∧ 1 ≤ shKind s.fib.tshape[(0 : Fin 32)] ∧ shKind s.fib.tshape[(0 : Fin 32)] ≤ 8 ∧ tileLines s.fib.tshape[(0 : Fin 32)] = (8, 32, 32)
    ∧ (∀ l, l < 8 → gives (resolve m.sg (offC s.fib m + BitVec.ofNat 64 (l * 32)) 32 4 rightRd accLoad s) [(sp (130816 + 32 * l), 32)] s = true
        ∧ gives (resolve m.sg (offC s.fib m + BitVec.ofNat 64 (l * 32)) 32 4 rightWr accStore s) [(sp (130816 + 32 * l), 32)] s = true
        ∧ readable s (sp (130816 + 32 * l)) 32 false = true ∧ readPast s (sp (130816 + 32 * l)) 32 none = s ∧ storable s (sp (130816 + 32 * l)) = true ∧ sp (130816 + 32 * l) % 64 + 32 ≤ 64)
    ∧ soundReg s.fib (0x100 + 0) = true ∧ (getCore s s.focus.1).sb.length + 8 ≤ 32 := by
  decide +kernel

/-- Core 192 stands in a narrow cluster, core 0 in a wide one; the combinations that are and are not admitted (R194). -/
theorem witness_MatrixProducts :
    let set := fun (s : State) (a b c d : BitVec 15) => onFib (fun f => { f with
      tshape := (((f.tshape.set 0 a).set 1 b).set 2 c).set 3 d }) s
    let n := set tiled 0x083F 0x103F 0x103F 0x383F
    let w := set { tiled with focus := (0, 0) } 0x183F 0x203F 0 0
    let i := set tiled 0x0A3F 0x103F 0 0
    n.pair = none ∧ ¬ (n.focus.1 / 192 % 112 % 8 = 0) ∧ (w.focus.1 / 192 % 112 % 8 = 0)
    ∧ goodTile n 0 = true ∧ goodTile n 1 = true ∧ goodTile n 2 = true ∧ goodTile n 3 = true ∧ goodAcc n 0 = true
    ∧ (shKind n.fib.tshape[(0 : Fin 32)] = 1 ∧ shFmt n.fib.tshape[(0 : Fin 32)] = efmtCode .f4)
    ∧ (shKind n.fib.tshape[(1 : Fin 32)] = 2 ∧ shFmt n.fib.tshape[(1 : Fin 32)] = efmtCode .f4)
    ∧ (shKind n.fib.tshape[(2 : Fin 32)] = 2 ∧ shFmt n.fib.tshape[(2 : Fin 32)] = efmtCode .f4)
    ∧ (shKind n.fib.tshape[(3 : Fin 32)] = 7 ∧ shFmt n.fib.tshape[(3 : Fin 32)] = efmtCode .f4)
    ∧ mmnCount .f4 .f4 true = some 96
    ∧ (shKind i.fib.tshape[(0 : Fin 32)] = 1 ∧ shFmt i.fib.tshape[(0 : Fin 32)] = efmtCode .i4) ∧ shFmt i.fib.tshape[(1 : Fin 32)] = efmtCode .f4
    ∧ mmnCount .i4 .f4 false = none
    ∧ shKind w.fib.tshape[(0 : Fin 32)] = 3 ∧ shKind w.fib.tshape[(1 : Fin 32)] = 4 ∧ goodTile w 0 = true ∧ goodTile w 1 = true ∧ goodAcc w 1 = true := by
  decide +kernel

theorem witness_ConversionAndQuantisation :
    let s := tiled
    s.pair = none ∧ hasTile s.fib 0 = true ∧ goodAcc s 1 = true ∧ goodTile s 0 = true ∧ goodTile s 1 = true ∧ goodTile s 2 = true ∧ hasTile s.fib 3 = true
    ∧ shKind s.fib.tshape[(0 : Fin 32)] = 6 ∧ shKind s.fib.tshape[(1 : Fin 32)] = 5 ∧ shKind s.fib.tshape[(2 : Fin 32)] = 8
    ∧ (shKind s.fib.tshape[(3 : Fin 32)] = 1 ∧ shFmt s.fib.tshape[(3 : Fin 32)] = efmtCode .f4) ∧ perLine .f4 = 96
    ∧ BitVec.toNat (96 : BitVec 7) + 16 > perLine .f4 ∧ BitVec.toNat (80 : BitVec 7) + 16 ≤ perLine .f4 ∧ BitVec.toNat (48 : BitVec 6) + 16 ≤ 64
    ∧ BitVec.toNat (64 : BitVec 7) + 32 ≤ perLine .f4 ∧ BitVec.toNat (32 : BitVec 6) + 32 ≤ 64 := by
  decide +kernel

/-! ## Engines and handles -/

/-- Entry n of the handle table: live, with its CUR, SHD, BOUND, TENANT, GEN and kind (R223). -/
def handleEntry (n cur shd bound tenant gen kind : Nat) (s : State) : State :=
  poke (handleLoc n) 24 (cur + shd * 2 ^ 64 + bound * 2 ^ 128 + tenant * 2 ^ 160 + gen * 2 ^ 176 + (128 + kind) * 2 ^ 184) s
/-- The handle of such an entry (R221). -/
def handleOf (n bound tenant gen : Nat) : Word := BitVec.ofNat 64 (tenant * 2 ^ 52 + gen * 2 ^ 44 + n * 2 ^ 24 + bound)

/-- A chain header at 0x100 with a ring of two entries at 0x200 on copy engine 0, its TAIL as given, and in v4 a record that copies 64 bytes
from 0x1000 of sg0 to 0x2000 of sg1 and completes at 0x3000; CTR and bytes 0 to 3 as given (R201, R203). -/
def chained (tail ctr first : Nat) : State :=
  onFib (fun f => { f with v := f.v.set 4 (vecOf fun i => match i with
    | 0 => BitVec.ofNat 32 first | 1 => 64 | 2 => 0x1000 | 6 => 0x2000 | 12 => BitVec.ofNat 32 ctr | 13 => 1 | _ => 0) })
    (poke (sp 0x100) 24 (tail + 0x200 * 2 ^ 128 + 1 * 2 ^ 160) s0)

/-- A fibre in user mode whose multicast of 64 bytes to core 192 names a receiver counter at 0x4000 of it, in a guarded granule. -/
def multicastTo (ctr : Nat) : State :=
  onFib (fun f => { f with v := f.v.set 4 (f.v[(4 : Fin 16)].set 4 1 |>.set 7 (BitVec.ofNat 32 ctr)) })
    { user (chained 0 0x3000 0x2000) with guards := [spadLoc 192 0x4000] }

theorem witness_EngineInstructions_waits :
    let m : CRef := ⟨0, .z, 0x100⟩
    let c : Chain := ⟨sp 0x100, sp 0x200, 1, 0, 0, 0⟩
    let rec_ := fun u : State => engRecOf (recordIn u 4)
    let k := multicastTo 0x4000
    let o := multicastTo 0x8000
    let other : Fib := { k.fib with fibre := BitVec.ofNat 32 (192 * 4096 + 7), issued := true }
    let s := onCore (fun x => { x with waitq := [.instr (.chain (sp 0x100)) 7] }) (onSlot 3 (fun l => { l with bound := true, ctx := other }) (chained 0 0x3000 0x2000))
    let h := { onCore (fun x => { x with sb := (getCore heldStore 192).sb, sbSeq := 1 }) (chained 0 0x3000 0x2000) with links := heldStore.links }
    gives (readHeader m.sg (offC k.fib m) k) c k = true ∧ engRecOk k 2 (rec_ k) = true ∧ (∀ e ∈ engRanges k 2 (rec_ k) k.fib.seg[m.sg], rangeFault k e = none)
    ∧ guardedReceiver k 2 (rec_ k) = true ∧ guardedReceiver o 2 (rec_ o) = false
    ∧ next (exec (.ecopyMc .clu (.x 5) m 4) k) (fun t => t.fib.tcause == 6 && !(getCore t 192).slots[(0 : Fin 16)].bound) = true
    ∧ othersAhead s s.focus.1 (.chain c.loc) (fibIndex s.fib) = true ∧ publishes h (max 2 (scopeCode .sys)) = none
    ∧ ((publishes h (max 2 (scopeCode .core))).any fun t => t.pair == none) = true := by
  decide +kernel

theorem witness_EngineInstructions :
    let m : CRef := ⟨0, .z, 0x100⟩
    let s := chained 0 0x3000 0x2000
    let l := onFib (fun f => { f with v := f.v.set 4 (f.v[(4 : Fin 16)].set 2 0x1FFE0) }) s
    let c : Chain := ⟨sp 0x100, sp 0x200, 1, 0, 0, 0⟩
    let rec_ := fun u : State => engRecOf (recordIn u 4)
    s.pair = none ∧ plainS s.fib m.a = true ∧ plainV s.fib 4 = true ∧ plainS s.fib (.x 1) = true ∧ openS s.fib (.x 1) = true
    ∧ ends (resolve 1 131072 64 64 (rightRd + rightWr + rightCtr) accStore s) (fun l t => l == [(spadLoc 193 0, 64)] && isSpad (spadLoc 193 0)
        && homeOf (spadLoc 193 0) != t.focus.1) = true
    ∧ gives (readHeader m.sg (offC s.fib m) s) c s = true ∧ serves c.eng 6 = false ∧ serves c.eng 1 = true
    ∧ engRecOk s 1 (rec_ s) = true ∧ engRecOk s 6 (rec_ s) = false ∧ (∀ e ∈ engRanges s 1 (rec_ s) s.fib.seg[m.sg], rangeFault s e = none)
    ∧ fieldAt (recordIn (chained 0 0x3000 0x12000) 4) 2 1 ≠ 0 ∧ fieldAt (recordIn (chained 0 0x3004 0x2000) 4) 0x30 4 % 8 ≠ 0
    ∧ fieldAt (recordIn (chained 0 25165824 0x2000) 4) 0x30 4 ≥ 25165824
    ∧ othersAhead s s.focus.1 (.chain c.loc) (fibIndex s.fib) = false ∧ ((publishes s (max 2 (scopeCode .clu))).any fun t => t.pair == none) = true
    ∧ (c.tail - c.seq).toNat < 2 ^ c.log ∧ (s.cmds.filter fun e => e.g == s.focus.1).length < 128
    ∧ gives (readHeader m.sg (offC s.fib m) (chained 2 0x3000 0x2000)) { c with tail := 2 } (chained 2 0x3000 0x2000) = true
    ∧ (2 - c.seq).toNat ≥ 2 ^ c.log
    ∧ gives (readHeader m.sg (offC l.fib m) l) c l = true ∧ engRecOk l 1 (rec_ l) = true
    ∧ (engRanges l 1 (rec_ l) l.fib.seg[m.sg]).findSome? (rangeFault l) = some (6, 0x1FFE0)
    ∧ next (exec (.ecopy .clu (.x 5) m 4) s) (fun t => t.cmds.length == 1 && t.fib.la[0] == 0 && readWord t (sp 0x100) == 1
        && readNat t (sp 0x200) 1 == 1 && readNat t (sp 0x238) 8 == 0) = true
    ∧ (coreBytes s s.focus.1 false (c.ring + 0x38) 8).all (fun x => !x.2) = true := by
  decide +kernel

theorem witness_Handles :
    let h := handleOf 9 3 0 7
    let s := handleEntry 9 0x40000 0 3 0 7 0 s0
    let seg := fun b : Word => onFib (fun f => { f with seg := f.seg.set 2 { base := b, limit := 0x30000, cls := 3, rights := 31 } }) s
    let t := setX 1 h (setX 2 0x40001 (setX 3 (BitVec.ofNat 64 (2 ^ 24)) (setX 4 0x10000 s)))
    -- a handle of an older generation, in a segment; the good one
    handleReason (seg (handleOf 9 3 0 6)) (handleOf 9 3 0 6) (fun k => k == 0) (fun b => decide ((8 : Word).toNat + 8 ≤ b * 65536)) = 3
    ∧ (seg h).fib.seg[(2 : Fin 8)].cls = 3 ∧ (seg h).fib.seg[(2 : Fin 8)].rights.toNat &&& rightRd = rightRd
    ∧ handleReason s h (fun k => k == 0) (fun b => decide (0x2FFF8 + 8 ≤ b * 65536)) = 0
    ∧ handleReason s h (fun k => k == 0) (fun b => decide (0x30000 + 8 ≤ b * 65536)) = 7 ∧ handleReason s h (fun k => k == 1) (fun _ => false) = 6
    ∧ handleReason s (handleOf 9 2 0 7) (fun k => k == 1) (fun _ => false) = 5
    -- operands of `halloc` and `halloc.buf.sh`
    ∧ t.pair = none ∧ plainS t.fib (.x 1) = true ∧ plainB t.fib (.reg (.x 3)) = true ∧ openS t.fib (.x 5) = true
    ∧ (user t).fib.steward = false ∧ t.fib.steward = true
    ∧ ¬ ((regVal t.fib (.x 2)).toNat % 65536 = 0 ∧ (regVal t.fib (.x 2)).toNat < 2 ^ 55)
    ∧ (regVal t.fib (.x 4)).toNat % 65536 = 0 ∧ (regVal t.fib (.x 4)).toNat < 2 ^ 55 ∧ valB t.fib (.imm 0) = 0
    ∧ 2 ^ 24 ≤ (valB t.fib (.reg (.x 3))).toNat ∧ (valB t.fib (.imm 0xFFFFFF)).toNat < 2 ^ 24 ∧ 0 < (valB t.fib (.imm 1)).toNat
    ∧ regVal t.fib .z = 0 ∧ regVal t.fib (.x 4) ≠ 0
    ∧ t.lastHandle ≤ 1048575 ∧ hLive t 1 = false ∧ after 0 0 = 1 ∧ after 1048575 0 = 1 ∧ unhindered t (handleLoc 1) = true
    -- `hfree` and `hchk`
    ∧ pathOpen t (handleLoc ((regVal t.fib (.x 1)).toNat / 2 ^ 24 % 2 ^ 20)) 32 false = true
    ∧ (let u := askedIn t (handleLoc 9) 32 false; u.pair = none ∧ openS u.fib (.x 5) = true)
    ∧ unhindered t (handleLoc ((regVal t.fib (.x 1)).toNat / 2 ^ 24 % 2 ^ 20)) = true
    ∧ handleReason t (regVal t.fib (.x 1)) (fun _ => true) (fun _ => true) = 0 ∧ handleReason t (regVal t.fib (.x 4)) (fun _ => true) (fun _ => true) = 1
    ∧ next (exec (.hfree (.x 1)) t) (fun u => hLive u 9 == false && hGen u 9 == 8) = true
    ∧ next (exec (.halloc 0 (.x 5) (.x 4) (.imm 16)) t) (fun u => u.fib.x[5] == 0x1000010 && hLive u 1 && hKind u 1 == 0) = true := by
  decide +kernel

/-- A handle table whose every entry is live. -/
def fullTable : State := { setX 4 0x10000 s0 with mem := (List.range 1048575).map fun j => (handleLoc (j + 1) + 0x17, 0x80) }

/-- What `halloc` assumes where no entry is free. -/
theorem witness_Handles_full : noFreeEntry fullTable ∧ fullTable.lastHandle ≤ 1048575 ∧ fullTable.pair = none ∧ plainS fullTable.fib (.x 4) = true
    ∧ plainB fullTable.fib (.imm 1) = true ∧ openS fullTable.fib (.x 5) = true ∧ (regVal fullTable.fib (.x 4)).toNat % 65536 = 0 := by
  refine ⟨?_, by decide, rfl, by decide, by decide, by decide, by decide +kernel⟩
  intro j hj
  have e : after fullTable.lastHandle j = j + 1 := by
    show (0 + j) % 1048575 + 1 = j + 1
    omega
  have h : ∀ n, j < n → look ((List.range n).map fun j => (handleLoc (j + 1) + 0x17, (0x80 : Byte))) (handleLoc (j + 1) + 0x17) = some 0x80 :=
    fun n hn => look_all (f := fun j => handleLoc (j + 1) + 0x17) (List.range n) (List.mem_range.2 hn)
  have b : byteAt fullTable (handleLoc (j + 1) + 0x17) = 0x80 := by
    unfold byteAt cellGet fullTable
    rw [h _ hj]
    rfl
  simp [e, hLive, hState, readNat, readBytes, b, natOf]

/-- A command of the first fibre with id 5 and the fields of its record (R203). -/
def job (kind flags cls len src sx dst pat : Nat) : Cmd :=
  { id := 5, g := 192, f := 1, tenant := 0, steward := true, header := sp 0x100, ring := sp 0x200, ticket := 0, kern := none, hdrseg := sp 0
    seghi := 25165824
    bytes := bytesOf 64 (kind + flags * 2 ^ 8 + cls * 2 ^ 16 + len * 2 ^ 32 + src * 2 ^ 64 + sx * 2 ^ 128 + dst * 2 ^ 192 + pat * 2 ^ 320 + 0x3000 * 2 ^ 384) }
def with_ (d : Cmd) (s : State) : State := { s with cmds := [d] }

theorem witness_EngineEvents_take :
    let h := handleOf 9 3 0 7
    let p := job 12 0 12 0 0 0 h.toNat 0
    let s := with_ p (handleEntry 9 0x40000 0x80000 3 0 7 0 s0)
    let c := { job 1 0 5 4096 0x1000 0 0x2000 0 with state := 1 }
    let a := clusterLoc 1 0x1000
    let b := clusterLoc 1 0x2000
    s0.cmds.find? (fun e => e.id == 5) = none
    ∧ p.state = 0 ∧ ((({ s with cmds := [{ p with id := 4 }, p] } : State).cmds.find? (fun e => e.header == p.header)).map (·.id)) = some 4
    ∧ s.cmds.find? (fun e => e.id == 5) = some p ∧ s.cmds.find? (fun e => e.header == p.header) = some p ∧ fieldAt p.bytes 0 1 = 12
    ∧ chainsTurn s p = true ∧ chainsTurn { s with cmds := [p, { p with id := 6, header := sp 0x180 }], taken := [(p.header, 1)] } p = false
    ∧ p.lost = none ∧ c.lost = none ∧ p.sent = false ∧ p.left = [] ∧ c.sent = false ∧ c.left = [] ∧ uncovered (with_ c s0) c = none
    ∧ ({ c with lost := some 64 } : Cmd).lost = some 64 ∧ ({ c with sent := true } : Cmd).sent = true
    ∧ uncovered { s0 with links := [{ id := .welt 0, state := 2, role := 4, replay := [{ seq := 0, bytes := [], cmd := some (5, 64) }] }] } c = some 64
    ∧ usesHandle p = true ∧ usesHandle c = false ∧ s.ports = [] ∧ pathClear (clearPath (jammed s) p.g Config.swBase) p.g Config.swBase = false
    ∧ cmdHandleOk (commandNow (takenFrom s p.header) (startCmd s p)) p (fieldAt p.bytes 0x18 8) 0 = true
    ∧ hShd (commandNow (takenFrom s p.header) (startCmd s p)) (fieldAt p.bytes 0x18 8 / 2 ^ 24 % 2 ^ 20) ≠ 0
    ∧ c.state = 1 ∧ fieldAt c.bytes 0 1 = 1 ∧ fieldAt c.bytes 2 1 = 5 ∧ fieldAt c.bytes 4 4 = 4096 ∧ c.done = 0
    ∧ isSpad a = true ∧ isSpad (a + 4096) = true ∧ isSpad b = true ∧ isSpad (b + 4096) = true ∧ a + 4096 ≤ b ∧ (with_ c s0).poison = [] := by
  decide +kernel

theorem witness_EngineEvents_runs :
    let m := { job 2 0 5 64 0x1000 3 0x2000 0 with state := 1, served := [1] }
    let s := with_ m s0
    let ks := (receiversOf 2 (engRecOf m.bytes)).map (·.1)
    let g := { job 6 0 1 1 0x1000 64 0x2000 0x400 with state := 1 }
    let gs := with_ g s0
    let idle := poke (sp 0x400) 4 0xFFFFFFFF gs
    let far := with_ { g with seghi := 0x1020 } s0
    s.cmds.find? (fun e => e.id == 5) = some m ∧ m.state = 1 ∧ fieldAt m.bytes 0 1 = 2 ∧ fieldAt m.bytes 2 1 = 5 ∧ 0 < fieldAt m.bytes 4 4
    ∧ (1 ∈ m.served) ∧ receives s m 192 = false
    ∧ isSpad (clusterLoc 1 0x1000) = true ∧ isSpad (clusterLoc 1 0x1000 + 64) = true ∧ (0 ∈ ks) ∧ (0 ∉ m.served) ∧ receives s m 0 = true
    ∧ (∀ j ∈ ks, j ≠ 0 → j ∈ m.served ∨ receives s m j = false) ∧ s.poison = []
    ∧ (job 2 0 5 64 0 3 0 0).state ≠ 1 ∧ m.lost = none ∧ m.sent = false ∧ m.left = [] ∧ m.done = 0
    ∧ (∀ j ∈ ks, j ∈ m.served ++ [0] ∨ receives s m j = false)
    -- an inactive row
    ∧ readNat idle (g.hdrseg + fieldAt g.bytes 0x28 8 % 2 ^ 24 + 4 * g.done) 4 = 0xFFFFFFFF ∧ idle.poison = [] ∧ g.lost = none ∧ g.sent = false ∧ g.left = []
    ∧ readNat gs (g.hdrseg + fieldAt g.bytes 0x28 8 % 2 ^ 24 + 4 * g.done) 4 ≠ 0xFFFFFFFF ∧ gs.latent = []
    -- a gather of its last row, within and outside its table
    ∧ gs.cmds.find? (fun e => e.id == 5) = some g ∧ fieldAt g.bytes 0 1 = 6 ∧ g.done + 1 = fieldAt g.bytes 4 4 ∧ fieldAt g.bytes 2 1 / 4 = 0 ∧ g.steward = true
    ∧ fieldAt g.bytes 8 8 + readNat gs (g.hdrseg + fieldAt g.bytes 0x28 8 % 2 ^ 24 + 4 * g.done) 4 * 64 = 0x1000
    ∧ isSpad (clusterLoc 1 0x1040) = true ∧ isSpad (spadLoc 192 0x2000) = true ∧ 0x1000 + 64 ≤ g.seghi ∧ present gs 192 = true
    ∧ (far.cmds.all fun e => decide (0x1000 + 64 > e.seghi)) = true := by
  decide +kernel

theorem witness_EngineEvents_end :
    let d := { job 4 0 5 64 0x1000 0 0x2000 0 with park := some 3 }
    let s := poke (wakeCtr 192) 8 3 (with_ d s0)
    let r := onCore (fun c => { c with refused := [3] }) (with_ d s)
    d.park = some 3 ∧ (job 4 0 5 64 0 0 0 0).park = none ∧ reached (readWord (with_ d s0) (wakeCtr d.g)) (BitVec.ofNat 64 3) = false
    ∧ reached (readWord s (wakeCtr d.g)) (BitVec.ofNat 64 3) = true ∧ (getCore s d.g).refused.contains 3 = false
    ∧ reached (readWord r (wakeCtr d.g)) (BitVec.ofNat 64 3) = true ∧ (getCore r d.g).refused.contains 3 = true
    ∧ d.state < 3 ∧ ({ d with state := 3 } : Cmd).state = 3
    ∧ next (exec (.engineCommandRetire 5) (with_ { d with state := 4 } s0)) (fun t => t.cmds == [] && readWord t (sp 0x3000) == 2 ^ 48 && readWord t (sp 0x108) == 1) = true := by
  decide +kernel

/-! ## The walker, kernels, queues, groups -/

theorem witness_Invalidation :
    let e : TlbEntry := ⟨.port 1, 5, 2, false, 0⟩
    let s := setX 1 4096 (setX 2 5 (setX 3 (BitVec.ofNat 64 (2 ^ 55)) (setX 4 0x20000 { s0 with tlbs := [e] })))
    s.pair = none ∧ plainS s.fib (.x 1) = true ∧ plainS s.fib (.x 4) = true ∧ (user s).fib.steward = false ∧ s.fib.steward = true
    ∧ 4096 ≤ (regVal s.fib (.x 1)).toNat ∧ (regVal s.fib (.x 2)).toNat < 4096 ∧ 2 ^ 55 ≤ (regVal s.fib (.x 3)).toNat
    ∧ (regVal s.fib (.x 4)).toNat < 2 ^ 55 ∧ (∀ c ∈ s.cores, c.2.sb = []) ∧ s.ports = []
    ∧ next (exec (.tlbinvVa (.x 2) (.x 4)) s) (fun t => t.tlbs == []) = true ∧ next (exec (.tlbinvTen (.x 4)) s) (fun t => t.tlbs == [e]) = true := by
  decide +kernel

/-- A mailbox entry of a load by the first fibre, tag 0, page 2 of tenant 5; and a leaf with V, WR and EX. -/
def asked (at_ rq : Nat) : Miss := { va := 0x20000, at_ := at_, tenant := 5, tag := 0, rq := rq, who := 1, fresh := false }
def leaf0 : Word := BitVec.ofNat 64 (2 ^ 63 + 3 * 2 ^ 56 + 5 * 2 ^ 16)
/-- The walker of the core, in slot 15, with a mailbox, the entry number in x1 and a leaf or reason in x2. -/
def walks (l : List Miss) (t w : Word) : State :=
  setX 1 t (setX 2 w (slot15 (onCore (fun c => { c with mailbox := l }) s0)))

theorem witness_WalkerInstructions :
    let s := walks [asked 0 0] 0 leaf0
    let m := asked 0 0
    let f := walks [{ m with fresh := true }] 0 5
    s.pair = none ∧ plainS s.fib (.x 1) = true ∧ plainS s.fib (.x 2) = true ∧ openV s.fib (lowV 11) = true
    ∧ (user s).fib.steward = false ∧ s0.focus.2 ≠ 15 ∧ s.fib.steward = true ∧ s.focus.2 = 15
    ∧ (∀ m ∈ (getCore s 192).mailbox, m.fresh = false) ∧ (getCore f 192).mailbox.find? (fun m => m.fresh) = some { m with fresh := true }
    ∧ (∀ e ∈ (getCore (walks [m] 31 0) 192).mailbox, e.tag ≠ (regVal (walks [m] 31 0).fib (.x 1)).toNat)
    ∧ (∀ e ∈ (getCore (walks [m] 63 0) 192).mailbox, e.tag ≠ (regVal (walks [m] 63 0).fib (.x 1)).toNat % 32)
    ∧ (regVal s.fib (.x 1)).toNat < 32 ∧ (getCore s 192).mailbox.find? (fun m => m.tag == (regVal s.fib (.x 1)).toNat) = some m := by
  decide +kernel

/-- Leaves that R239 does not admit and one that it does, an entry that an invalidation has overtaken, reasons of `wfail`. -/
theorem witness_WalkerInstructions_answers :
    let s := walks [asked 0 0] 0 leaf0
    let m := asked 0 0
    let freed := onCore (fun c => { c with mailbox := [] }) s
    leaf0.getLsbD 63 = true ∧ leaf0.extractLsb' 60 2 ≠ 3 ∧ leaf0.getLsbD 54 = false ∧ leaf0.getLsbD 57 = true ∧ leaf0.getLsbD 56 = true
    ∧ (0 : Word).getLsbD 63 = false ∧ (leaf0 ||| BitVec.ofNat 64 (2 ^ 54)).getLsbD 54 = true ∧ (leaf0 - BitVec.ofNat 64 (2 ^ 57)).getLsbD 57 = false
    ∧ overtaken s m (leaf0.getLsbD 62) = false ∧ overtaken { s with invs := [(1, none)] } m (leaf0.getLsbD 62) = true
    ∧ (pumpAll freed).pair = none ∧ (pumpAll (installLeaf freed 192 m leaf0)).pair = none ∧ m.rq ≠ 2 ∧ (asked 0 2).rq = 2
    ∧ 6 ≤ (6 : Word).toNat % 16 ∧ (5 : Word).toNat % 16 = 5 ∧ (4 : Word).toNat % 16 < 5 ∧ (asked 0 1).rq ≠ 3
    ∧ slotOfFibre s 192 0 = some 0 ∧ slotOfFibre s 192 7 = none
    ∧ (getCtx (setCtx s 192 0 { getCtx s 192 0 with status := .waiting .miss }) 192 0).status = .waiting .miss
    ∧ (match failEntry (walks [asked 0 1] 0 4) 192 (asked 0 1) 4 ⟨0, 192, 0⟩ with
      | some u => u.pair == none
      | none => false) = true
    ∧ (outstanding s 192).length < 64 := by
  decide +kernel

/-- A fibre held by reason 5, its page moving and no longer moving: the root of tenant 0, and two directories and a leaf of address 0. -/
def moving (mig : Bool) : State :=
  let s := onFib (fun f => { f with status := .waiting (.move 0) }) s0
  poke (3 * 65536) 8 (if mig then 2 ^ 63 + 2 ^ 54 + 4 * 2 ^ 16 else 2 ^ 63 + 4 * 2 ^ 16)
    (poke (2 * 65536) 8 (2 ^ 63 + 3 * 2 ^ 16) (poke (1 * 65536) 8 (2 ^ 63 + 2 * 2 ^ 16) (poke (swLoc 0x12000000) 8 (2 ^ 63 + 1 * 2 ^ 16) s)))

theorem witness_WalkerInstructions_move :
    (∀ b : Bool,
      let s := { moving b with moving := [(192, asked 0 1)] }
      let u := pumpAll { s with moving := s.moving.filter fun e => pageMoving s e.2.tenant e.2.va }
      (getCtx u 192 0).status = .waiting (.move 0) ∧ (getCore u 192).slots[(0 : Fin 16)].bound = true
      ∧ (match walkLeaf u 0 0 with
        | some (_, w, _) => w.getLsbD 54
        | none => !b) = b) := by
  decide +kernel

/-- The first fibre as a fibre of kernel 3, whose one group is cores 192 and 193 in stage 0 with its home at core 192 and tiles 2 by 3, and
which has a second stage at home 193. -/
def member : State :=
  onCore (fun c => { c with fibres := [(0, { state := .bound, role := .user, kern := some 3, loc := 0xF0000000 })], kernels := [3] })
    { s0 with kerns := [{ id := 3, queue := 0, prio := 0, groups := [{ stage := 0, members := [192, 193], shares := [(0, 1), (1, 1)], m := 2, n := 3, home := 192 },
      { stage := 1, members := [194], shares := [(0, 1)], m := 1, n := 1, home := 194 }] }] }

theorem witness_PublishAcquireDrain_member : (myGroup member).isSome = true ∧ member.pair = none ∧ member.fib.wake = none
    ∧ (released member true .clu).isSome = true ∧ (released member true .mod).isSome = true := by
  decide +kernel

/-- The groups of the kernel have their homes in cluster 112, on another die. -/
def farHomes (s : State) : State := { s with kerns := s.kerns.map fun x => { x with groups := x.groups.map fun r => { r with home := 21506 } } }
/-- The home of a counter answers, in a state of which p holds; it is not reached. -/
def answers (s : State) (a : Nat) (p : State → Bool) : Bool := (atHome s a).any p

/-- A frame to take for a record; a fibre that has ended; PHAND with a counter of cluster 112, on another die. -/
theorem witness_KernelInstructions :
    let s := { s0 with pools := s0.pools.set 1 { back := [0x30000] } }
    let p := onCore (fun c => { c with fibres := c.fibres ++ [(2, { state := .done, role := .user, kern := none, loc := 0xF0010000 })] }) s0
    let k := poke (kernLoc 3 + 0x88) 8 (2 ^ 47 + 112 * 2 ^ 25 + 0x40) member
    let bad := poke (kernLoc 3 + 0x88) 8 (2 ^ 47 + 112 * 2 ^ 25 + 0x41) member
    let a := clusterLoc 112 0x40
    s0.pair = none ∧ plainS s0.fib (.x 1) = true ∧ plainB s0.fib (.imm 0) = true ∧ openS s0.fib (.x 2) = true ∧ s0.focus.2 = 0 ∧ (slot15 s0).focus.2 ≠ 0
    ∧ (spawnOn s0 0 0).isNone = true ∧ (match spawnOn s 0 0 with
      | some (n, u) => n == 1 && u.pair == none && openS u.fib (.x 2)
      | none => false) = true
    ∧ (reapChoice s0 (BitVec.allOnes 64)).isNone = true ∧ ((reapChoice p (BitVec.allOnes 64)).map (·.1)) = some 2 ∧ ((reapChoice p 2).map (·.1)) = some 2
    ∧ (freeFibre p 192 2 false (selfAdder p)).2.pair = none ∧ openS (freeFibre p 192 2 false (selfAdder p)).2.fib (.x 2) = true
    ∧ myKern s0 = none ∧ myKern member = some 3
    ∧ s0.fib.wake = none ∧ (phandOf s0).getLsbD 47 = false ∧ (phandOf k).getLsbD 47 = true ∧ counterRef k (phandOf k) = some a
    ∧ (phandOf bad).getLsbD 47 = true ∧ counterRef bad (phandOf bad) = none
    ∧ unbuffered k a = true ∧ answers k a (fun u => !isToxic u a && u.pair == none && openS u.fib (.x 2)
        && reached (readWord u a) (valB k.fib (.imm 0)) && !reached (readWord u a) (valB k.fib (.imm 1))) = true
    ∧ userGuarded k a = false ∧ (let g := { user k with guards := [clusterLoc 112 0] }
       userGuarded g a = true ∧ counterRef g (phandOf g) = some a ∧ (phandOf g).getLsbD 47 = true ∧ g.fib.steward = false)
    ∧ atHome (jammed k) a = none ∧ unbuffered (jammed k) a = true ∧ counterRef (jammed k) (phandOf (jammed k)) = some a := by
  decide +kernel

theorem witness_Pipes :
    let s := setX 1 0 (setX 2 7 member)
    let one := poke (sp 0) 0 0 (poke (spadLoc 194 0x1FFD0) 8 1 s)
    s.pair = none ∧ s.fib.wake = none ∧ plainS s.fib (.x 1) = true ∧ plainB s.fib (.imm (-1)) = true
    ∧ pipeHome s (regVal s.fib (.x 2)) = none ∧ pipeHome s (regVal s.fib (.x 1)) = some 194 ∧ valB s.fib (.imm (-1)) = BitVec.allOnes 64
    ∧ valB s.fib (.imm 5) ≠ BitVec.allOnes 64
    ∧ ((released s true .mod).any fun t => answers (countMessage t) (spadLoc 194 0x1FFD0) fun y =>
        let u := seenPipe y 194
        !pipeToxic u 194 true && u.enrol == [] && u.pair == none && openS u.fib (.x 3)) = true
    ∧ answers s (spadLoc 194 0x1FFD0) (fun y => let u := seenPipe y 194; !pipeToxic u 194 false && u.pair == none && openS u.fib (.x 3)) = true
    ∧ pipeHome (jammed (farHomes s)) 0 = some 21506 ∧ atHome (jammed (farHomes s)) (spadLoc 21506 0x1FFD0) = none
    ∧ ((released (onFib (fun f => { f with pubTo := some ⟨0, 0⟩ }) (jammed (farHomes s))) true .mod).any fun t =>
        !answers (countMessage t) (spadLoc 21506 0x1FFD0) fun _ => true) = true
    ∧ (let h := onCore (fun c => { c with sb := [{ block := clusterLoc 112 0, writes := [⟨0, [1], ⟨0, 192, 0⟩, false, none⟩] }], sbSeq := 1 }) (jammed s)
       released h true .mod = none ∧ pipeHome h (regVal h.fib (.x 1)) = some 194)
    ∧ readWord s (spadLoc 194 0x1FFD0) = readWord s (spadLoc 194 0x1FFD8) ∧ readWord one (spadLoc 194 0x1FFD0) ≠ readWord one (spadLoc 194 0x1FFD8)
    ∧ next (exec (.pput (.x 3) (.x 1) (.imm 5)) s) (fun t => t.fib.x[3] == 1 && readWord t (spadLoc 194 0x1C000) == 5) = true := by
  decide +kernel

/-- Queue 2 open for tenant 0 with a ring of 2 records at module address 0x30000, which the core's port TLB holds, and counters of cluster
112, NOTIFY as given; x1 names it; v0 and v1 hold a record of one stage (R297). -/
def queued (notify : Nat) : State :=
  let s := poke (qLoc 2) 32 (0x30000 + 1 * 2 ^ 64 + 1 * 2 ^ 88 + (2 ^ 47 + 112 * 2 ^ 25 + 0x40) * 2 ^ 128 + (2 ^ 47 + 112 * 2 ^ 25 + 0x48) * 2 ^ 192)
    { s0 with tlbs := [⟨.port 1, 0, 3, false, leaf0 ||| 1 <<< 58⟩] }
  let r := 0x100000 + (2 ^ 36 + 2 ^ 24 + 1) * 2 ^ (8 * 0x48) + 1 * 2 ^ (8 * 0x78)
  onFib (fun f => { f with x := f.x.set 1 2, v := ((f.v.set 0 (vecOf fun i => BitVec.ofNat 32 (r / 2 ^ (32 * i.val)))).set 1
    (vecOf fun i => BitVec.ofNat 32 (r / 2 ^ (512 + 32 * i.val)))) }) (poke (clusterLoc 112 0x40) 8 notify s)

theorem witness_QueuePost :
    let s := queued 0
    let r := laneBytes s.fib.v[0] ++ laneBytes s.fib.v[1]
    let t := poke (qLoc 2 + 0x0C) 2 7 s
    s.pair = none ∧ plainS s.fib (.x 1) = true ∧ plainV s.fib 0 = true ∧ plainV s.fib 1 = true ∧ openS s.fib (.x 2) = true
    ∧ 65536 ≤ (regVal (setX 1 65536 s).fib (.x 1)).toNat ∧ (regVal (setX 1 65535 s).fib (.x 1)).toNat < 65536
    ∧ readNat s (qLoc 65535 + 0x0B) 1 = 0 ∧ readNat s (qLoc 2 + 0x0B) 1 ≠ 0
    ∧ (user t).fib.steward = false ∧ readNat (user t) (qLoc 2 + 0x0C) 2 % 4096 ≠ (user t).fib.tenant.toNat
    ∧ readNat (user s) (qLoc 2 + 0x0C) 2 % 4096 = (user s).fib.tenant.toNat ∧ s.fib.steward = true
    ∧ recordOk r = true ∧ recordOk (laneBytes s0.fib.v[0] ++ laneBytes s0.fib.v[1]) = false ∧ fieldAt r 0x3C 2 ≠ readNat t (qLoc 2 + 0x0C) 2 % 4096
    ∧ fieldAt r 0x3C 2 = readNat s (qLoc 2 + 0x0C) 2 % 4096 := by
  decide +kernel

theorem witness_QueuePost_counters :
    let s := queued 0
    let na := clusterLoc 112 0x40
    let ta := clusterLoc 112 0x48
    qNotify (poke (qLoc 2 + 0x15) 1 0 s) 2 = none ∧ qNotify s 2 = some na ∧ qTaken s 2 = some ta
    ∧ unbuffered s na = true ∧ atHome s na = some s ∧ unbuffered s ta = true ∧ atHome s ta = some s ∧ isToxic s na = false ∧ isToxic s ta = false
    ∧ atHome (jammed s) na = none ∧ qNotify (jammed s) 2 = some na
    ∧ 2 ≤ (readWord (queued 2) na - readWord (queued 2) ta).toNat ∧ (readWord s na - readWord s ta).toNat < 2 ^ readNat s (qLoc 2 + 8) 1
    ∧ ends (translate 0x30000 128 0x30000 accStore s) (fun l t => match l with
        | [(a, n)] => n == 128 && isDpa a && storable t a
        | _ => false) = true
    ∧ s.fib.post = none
    ∧ (userGuarded s na || userGuarded s ta) = false
    ∧ (let g := { user s with guards := [clusterLoc 112 0] }; (userGuarded g na || userGuarded g ta) = true ∧ qNotify g 2 = some na ∧ qTaken g 2 = some ta)
    -- the second phase
    ∧ (let p := onFib (fun f => { f with post := some 0, pubTo := some ⟨0, 0⟩, issued := true }) s
       p.pair = none ∧ p.fib.post = some 0 ∧ ((released p true .mod).any fun t => qNotify t 2 == some na
         && answers t na fun y => (addAt y na 1 (selfAdder y)).pair == none && openS (addAt y na 1 (selfAdder y)).fib (.x 2)) = true
       ∧ ((released (jammed p) true .mod).any fun t => !userGuarded t na && !answers t na fun _ => true) = true
       ∧ ((released { user p with guards := [clusterLoc 112 0] } true .mod).any fun t => userGuarded t na) = true
       ∧ ((released (poke (qLoc 2 + 0x15) 1 0 p) true .mod).any fun t => qNotify t 2 == none && t.pair == none && openS t.fib (.x 2)) = true
       ∧ released (onFib (fun f => { f with post := some 0, x := f.x.set 1 2 }) heldStore) true .sys = none) := by
  decide +kernel

theorem witness_GroupInstructions :
    let s := setX 1 10 (setX 2 (BitVec.allOnes 64) (setX 3 4097 member))
    let pool := spadLoc 192 0x1FFE8
    let l := onCore (fun c => { c with level := [7, 8] }) s
    let full := onCore (fun c => { c with level := List.replicate 64 7 }) s
    s0.pair = none ∧ plainS s0.fib (.x 1) = true ∧ plainB s0.fib (.imm 1) = true ∧ openS s0.fib (.x 4) = true ∧ myGroup s0 = none
    ∧ s.pair = none ∧ plainS s.fib (.x 1) = true ∧ plainB s.fib (.reg (.x 3)) = true ∧ ((myGroup s).map (·.home)) = some 192
    ∧ valB s.fib (.imm 0) = 0 ∧ 4096 < (valB s.fib (.reg (.x 3))).toNat ∧ 0 < (valB s.fib (.imm 4096)).toNat ∧ (valB s.fib (.imm 4096)).toNat ≤ 4096
    ∧ answers s pool (fun u => !isToxic u pool && match myGroup s with
      | some r => (takePool u r 5 (selfAdder u)).pair == none && openS (takePool u r 5 (selfAdder u)).fib (.x 4) && decide r.members.Nodup
      | none => false) = true
    ∧ atHome (jammed (farHomes s)) (spadLoc 21506 0x1FFE8) = none ∧ ((myGroup (jammed (farHomes s))).map (·.home)) = some 21506
    ∧ regVal s.fib (.x 2) = BitVec.allOnes 64 ∧ regVal s.fib (.x 1) ≠ BitVec.allOnes 64
    ∧ ((released full true .clu).any fun t => t.pair == none && openS t.fib (.x 4)) = true
    ∧ (getCore s s.focus.1).level = [] ∧ (getCore l l.focus.1).level = [7, 8]
    ∧ next (exec (.lvpost (.x 4) (.x 1)) full) (fun t => t.fib.x[4] == BitVec.allOnes 64) = true
    ∧ next (exec (.gtileA (.x 4) .z (.imm 0)) s) (fun t => t.fib.x[4] == 0x3F) = true := by
  decide +kernel

/-! ## Contexts and frames -/

/-- Handles of a context, of a KV object of 64 slots and of a lane object of one unit, and the frame area (R223, R252). -/
def ctxH : Word := handleOf 9 4 0 7
def kvH : Word := handleOf 10 64 0 1
def lnH : Word := handleOf 11 1 0 2
def area0 : Nat := sp 0x8000
def frame0 (n parent flags depth first cap mark slot len : Nat) (s : State) : State :=
  poke (area0 + 128 * n + 8) 4 len (writeBytes s (area0 + 128 * n) (frameBytes parent flags depth first cap mark slot kvH 0 1))
/-- The context pinned at the area, with a root frame of 2 tokens and room for 4, and a child of it with `len` tokens; the fibre's frame is
fp at the given depth of at most 4. -/
def framed (fp depth len : Nat) : State :=
  let t := handleEntry 10 0x100000 0 64 0 1 1 (handleEntry 9 0x200000 0 4 0 7 3 s0)
  let u := poke (sctLoc ctxH) 16 (ctxH.toNat + 0x8000 * 2 ^ 64 + 1 * 2 ^ 96 + 1 * 2 ^ 112) t
  let v := poke area0 32 (ctxH.toNat + kvH.toNat * 2 ^ 64 + 1 * 2 ^ 192) u
  onFib (fun f => { f with ctx := ctxH, fp := BitVec.ofNat 7 fp, fdepth := BitVec.ofNat 6 depth, fdlimit := 4 })
    (frame0 2 1 0 2 2 16 2 16 len (frame0 1 0 0 1 0 4 0 0 2 v))
def keeps (n k : Nat) (s : State) : State := poke (area0 + 128 * n + 0x3E) 2 k s

theorem recordsClean_of {s : State} (b : Nat) (h : s.poison = []) (l : s.latent = []) : recordsClean s b :=
  ⟨fun i _ => by simp [isToxic, h], by simp [l]⟩

theorem framed_inContext : inContext (framed 1 1 0) area0 ∧ inContext (framed 2 2 3) area0 ∧ inContext (framed 0 0 0) area0 := by
  refine ⟨⟨?_, ?_, recordsClean_of area0 ?_ ?_⟩, ⟨?_, ?_, recordsClean_of area0 ?_ ?_⟩, ⟨?_, ?_, recordsClean_of area0 ?_ ?_⟩⟩ <;> decide +kernel

theorem isFrame_le {s : State} {b k : Nat} (h : isFrame s b k) : k < 128 := Nat.lt_succ_of_le h.2.1

/-- The lowest free id is 3 and the lowest free slots begin at 32 (R258): frames 1 and 2 take slots 0 to 31. -/
theorem framed_slots :
    let s := framed 1 1 0
    (isFrame s area0 1 ∧ isFrame s area0 2 ∧ ¬ isFrame s area0 3) ∧ slotsFree s area0 32 16 64 ∧ ¬ slotsFree s area0 0 16 64 ∧ ¬ slotsFree s area0 16 16 64 := by
  have h1 : isFrame (framed 1 1 0) area0 1 := by unfold isFrame; decide +kernel
  have h2 : isFrame (framed 1 1 0) area0 2 := by unfold isFrame; decide +kernel
  have h3 : ∀ k : Fin 128, isFrame (framed 1 1 0) area0 k.val → frCap (framed 1 1 0) area0 k.val = 0 ∨ 32 + 16 ≤ frSlot0 (framed 1 1 0) area0 k.val
      ∨ frSlot0 (framed 1 1 0) area0 k.val + (frCap (framed 1 1 0) area0 k.val + 15) / 16 * 16 ≤ 32 := by unfold isFrame; decide +kernel
  refine ⟨⟨h1, h2, by unfold isFrame; decide +kernel⟩, ⟨by decide, fun k hk => h3 ⟨k, isFrame_le hk⟩ hk⟩, fun h => ?_, fun h => ?_⟩
  · exact absurd (h.2 1 h1) (by decide +kernel)
  · exact absurd (h.2 2 h2) (by decide +kernel)

/-- Frame 3 and the slots from 32 are the lowest for a push of one token, with and without a lane object; the KV object may be bad. -/
theorem framed_pushable : pushable (framed 1 1 0) area0 3 32 1 := by
  have hs := framed_slots
  have h4 : ∀ k : Fin 32, k.val % 16 = 0 → k.val = 0 ∨ k.val = 16 := by decide
  refine ⟨by decide, by decide, hs.1.2.2, fun k h1 h3 => ?_, by decide, ?_, fun k hk h => ?_⟩
  · rcases (by omega : k = 1 ∨ k = 2) with rfl | rfl
    · exact hs.1.1
    · exact hs.1.2.1
  · rw [show (hdKvh (framed 1 1 0) area0).toNat % 2 ^ 24 = 64 by decide +kernel]; exact hs.2.1
  · rw [show (hdKvh (framed 1 1 0) area0).toNat % 2 ^ 24 = 64 by decide +kernel]
    rcases h4 ⟨k, hk⟩ h with e | e <;> simp only at e <;> subst e
    · exact hs.2.2.1
    · exact hs.2.2.2

/-- 65 tokens need 80 slots, of 64 (R258); frame id 3 is free. -/
theorem framed_noSlots : (∃ m, 1 ≤ m ∧ m ≤ 127 ∧ ¬ isFrame (framed 1 1 0) area0 m) ∧ (hdKvh (framed 1 1 0) area0).toNat % 2 ^ 24 = 64
    ∧ ∀ slot, slot % 16 = 0 → ¬ slotsFree (framed 1 1 0) area0 slot ((65 + 15) / 16 * 16) 64 :=
  ⟨⟨3, by decide, by decide, framed_slots.1.2.2⟩, by decide +kernel, fun slot _ h => absurd h.1 (by omega)⟩

theorem framed_objects :
    let bad := poke (area0 + 8) 8 (kvH.toNat + 2 ^ 44) (framed 1 1 0)
    let lanes := poke (area0 + 16) 8 lnH.toNat (handleEntry 11 0x120000 0 1 0 2 2 (framed 1 1 0))
    pushObjects (framed 1 1 0) area0 ∧ (pushObjects lanes area0 ∧ hdLaneh lanes area0 ≠ 0) ∧ ¬ pushObjects bad area0 := by
  unfold pushObjects; decide +kernel

/-- Every frame id is live. -/
def packed : State := (List.range 127).foldl (fun s i => poke (area0 + 128 * (i + 1) + 1) 1 1 s) (framed 1 1 0)
theorem packed_live (m : Nat) (h : 1 ≤ m) (h' : m ≤ 127) : isFrame packed area0 m := by
  have := (by decide +kernel : ∀ k : Fin 128, 1 ≤ k.val → readNat packed (area0 + 128 * k.val + 1) 1 = 1) ⟨m, by omega⟩ h
  exact ⟨h, h', this⟩

/-- A leaf that maps frame f with every right and D set (R231). -/
def leafTo (f : Nat) : Word := BitVec.ofNat 64 (2 ^ 63 + 7 * 2 ^ 56 + f * 2 ^ 16)
/-- The pages of the KV object and of a lane object of tenant 0 are in the port TLB. -/
def mapped (s : State) : State :=
  { s with tlbs := [⟨.port 1, 0, 16, false, leafTo 5⟩, ⟨.port 1, 0, 17, false, leafTo 6⟩, ⟨.port 1, 0, 18, false, leafTo 7⟩] }

/-- `fret` of the first token of frame 2: its key, value and tag move from slot 16 to slot 2. -/
theorem witness_Frames_tokens :
    let s := mapped (framed 2 2 3)
    let kv := kvOf s (frKvh s area0 2)
    handleReason s (frKvh s area0 2) (· == 1) (fun bound => decide (16 + 1 ≤ bound)) = 0
    ∧ frKvh s area0 1 = frKvh s area0 2 ∧ frSlot0 s area0 2 = 16 ∧ frSlot0 s area0 1 = 0 ∧ frLaneh s area0 2 = 0 ∧ frLaneh s area0 1 = 0
    ∧ frFirst s area0 1 + 2 + 1 ≤ 2 ^ 24 ∧ 2 ^ 24 < frFirst (poke (area0 + 128 + 4) 4 0xFFFFFE s) area0 1 + 2 + 1
    ∧ ends (reachTokens kv kv none 1 16 2 s) (fun _ v =>
      ends (moveTokens kv kv none 1 16 2 2 v) fun _ u => u.poison == [] && u.latent == [] && u.pair == none && openS u.fib (.x 2)) = true := by
  decide +kernel

/-- The same where both frames have a lane object. -/
theorem witness_Frames_rows :
    let s := mapped (poke (area0 + 128 * 1 + 0x20) 8 lnH.toNat (poke (area0 + 128 * 2 + 0x20) 8 lnH.toNat (handleEntry 11 0x120000 0 1 0 2 2 (framed 2 2 3))))
    let kv := kvOf s (frKvh s area0 2)
    frLaneh s area0 2 ≠ 0 ∧ frLaneh s area0 1 = frLaneh s area0 2
    ∧ handleReason s (frLaneh s area0 2) (· == 2) (fun bound => decide (64 * (16 + 1) ≤ bound * 65536)) = 0
    ∧ ends (reachTokens kv kv (some (laneOf s lnH, laneOf s lnH)) 1 16 2 s) (fun _ v =>
      ends (moveTokens kv kv (some (laneOf s lnH, laneOf s lnH)) 1 16 2 2 v) fun _ u => u.poison == [] && u.latent == [] && u.pair == none && openS u.fib (.x 2)) = true := by
  decide +kernel

theorem witness_Frames :
    let s := framed 1 1 0
    let full := framed 1 4 0
    let bare := framed 0 0 0
    s.pair = none ∧ plainS s.fib (.x 1) = true ∧ plainB s.fib (.imm 1) = true ∧ openS s.fib (.x 2) = true ∧ plainPair s 2 = true
    ∧ s.fib.fdepth.toNat = 1 ∧ handleReason s0 s0.fib.ctx (· == 3) (fun _ => true) ≠ 0 ∧ pinnedAt s0 s0.fib.ctx = none
    -- an empty stack
    ∧ bare.fib.fdepth = 0 ∧ handleReason bare bare.fib.ctx (· == 3) (fun _ => true) = 0 ∧ pinnedAt bare bare.fib.ctx = some area0 ∧ (bare.poison = [] ∧ bare.latent = [])
    -- the depth limit, the capacities at their ends, and what a push reads
    ∧ full.fib.fdlimit.toNat ≤ full.fib.fdepth.toNat ∧ s.fib.fdepth.toNat < s.fib.fdlimit.toNat ∧ 2 ^ 24 ≤ (valB s.fib (.imm 16777216)).toNat
    ∧ (valB s.fib (.imm 0)).toNat = 0 ∧ (valB s.fib (.imm 16777215)).toNat < 2 ^ 24 ∧ 0 < (valB s.fib (.imm 1)).toNat
    ∧ ((valB s.fib (.imm 1)).toNat + 15) / 16 * 16 = 16 ∧ (hdKvh s area0).toNat % 2 ^ 24 = 64 ∧ frFirst s area0 1 + frLen s area0 1 < 2 ^ 24
    ∧ handleReason s (hdKvh s area0) (· == 1) (fun _ => true) = 0 ∧ hdLaneh s area0 = 0 := by
  decide +kernel

theorem witness_Frames_return :
    let s := framed 2 2 3
    let p := frParent s area0 s.fib.fp.toNat
    2 ≤ s.fib.fdepth.toNat ∧ s.pair = none ∧ openS s.fib (.x 2) = true ∧ p = 1 ∧ frLen s area0 2 = 3 ∧ frLen s area0 p = 2 ∧ frCap s area0 p = 4
    ∧ 1024 < (valB s.fib (.imm 1025)).toNat ∧ frLen s area0 2 < (regVal s.fib .z).toNat + (valB s.fib (.imm 4)).toNat
    ∧ (valB s.fib (.imm 3)).toNat ≤ 1024 ∧ (regVal s.fib .z).toNat + (valB s.fib (.imm 3)).toNat ≤ frLen s area0 2
    ∧ frCap s area0 p < frLen s area0 p + (valB s.fib (.imm 3)).toNat ∧ (valB s.fib (.imm 0)).toNat = 0 ∧ (regVal s.fib .z).toNat ≤ frLen s area0 2 := by
  decide +kernel

/-- `fshare.j` of frame 1 (x1 is 0: the root), of 2 (x2), of 3 (x3); `fshare.h`, `frel` and `fpos` of the current frame and of 3; `farg` of
frame 1 by the empty frame 2. -/
theorem witness_Frames_named :
    let s := setX 2 2 (setX 3 3 (setX 4 2 (framed 1 1 0)))
    let t := setX 1 1 (setX 2 2 (setX 3 3 (framed 2 2 0)))
    (isFrame s area0 (hdRoot s area0) ∧ isFrame s area0 2 ∧ ¬ isFrame s area0 3) ∧ regVal s.fib (.x 1) = 0 ∧ hdRoot s area0 = 1 ∧ s.fib.fp = 1
    ∧ frParent s area0 1 ≠ 1 ∧ frParent s area0 2 = 1 ∧ (framed 1 4 0).fib.fdlimit.toNat ≤ (framed 1 4 0).fib.fdepth.toNat
    ∧ frKeep s area0 1 = 0 ∧ frKeep (keeps 1 1 s) area0 1 ≠ 0
    ∧ frNarg t area0 2 = 0 ∧ frNarg (poke (area0 + 128 * 2 + 0x3C) 1 4 t) area0 2 = 4 ∧ frLen t area0 2 = 0 ∧ frLen (framed 2 2 3) area0 2 ≠ 0
    ∧ t.fib.fp.toNat = 2 ∧ (isFrame t area0 1 ∧ ¬ isFrame t area0 3) ∧ frLen t area0 1 = 2 ∧ frLen t area0 1 < (valB t.fib (.imm 0)).toNat + (regVal t.fib (.x 3)).toNat
    ∧ 0 < (regVal t.fib (.x 2)).toNat ∧ (valB t.fib (.imm 0)).toNat + (regVal t.fib (.x 2)).toNat ≤ frLen t area0 1
    ∧ (regVal t.fib .z).toNat = 0 := by
  unfold isFrame; decide +kernel

/-- A push from frame 1, `fret` of no token from frame 2, `fshare.j` of frame 2 from frame 1, `fshare.h` and `frel` of frame 1, `farg` of
frame 1 by frame 2. -/
theorem witness_FrameInstructionsComplete :
    let s := setX 2 2 (keeps 1 1 (framed 1 1 0))
    let t := setX 1 1 (setX 3 1 (framed 2 2 0))
    (s.pair = none ∧ plainS s.fib (.x 2) = true ∧ plainB s.fib (.imm 1) = true ∧ openS s.fib (.x 4) = true)
    ∧ (s.fib.fdepth ≠ 0 ∧ s.fib.fdepth < s.fib.fdlimit ∧ 0 < (valB s.fib (.imm 1)).toNat ∧ frFirst s area0 1 + frLen s area0 1 < 2 ^ 24)
    ∧ (2 ≤ t.fib.fdepth.toNat ∧ (valB t.fib (.imm 0)).toNat = 0 ∧ (regVal t.fib .z).toNat ≤ frLen t area0 2
      ∧ frLen t area0 (frParent t area0 2) ≤ frCap t area0 (frParent t area0 2))
    ∧ (isFrame s area0 2 ∧ frParent s area0 2 = 1 ∧ regVal s.fib (.x 2) = 2) ∧ (isFrame s area0 1 ∧ frKeep s area0 1 ≠ 0)
    ∧ t.fib.fdepth ≠ 0 ∧ frNarg t area0 2 < 4 ∧ frLen t area0 2 = 0 ∧ isFrame t area0 1 ∧ regVal t.fib (.x 1) = 1 ∧ t.fib.fp.toNat = 2
    ∧ (valB t.fib (.imm 0)).toNat + (regVal t.fib (.x 3)).toNat ≤ frLen t area0 1 ∧ 0 < (regVal t.fib (.x 3)).toNat := by
  unfold isFrame; decide +kernel
/-- The objects are in the port TLB; the current frame is 1 of a context with
or without lanes. -/
def stored (lanes : Bool) : State :=
  let s := framed 1 1 0
  let t := if lanes then poke (area0 + 128 * 1 + 0x20) 8 lnH.toNat (handleEntry 11 0x120000 0 1 0 2 2 s) else s
  mapped t

theorem witness_AppendTokens :
    let s := stored false
    let full := poke (area0 + 128 * 1 + 8) 4 4 s
    let far := poke (area0 + 128 * 1 + 4) 4 0xFFFFFE s
    s.pair = none ∧ plainS s.fib (.x 1) = true ∧ plainPair s 2 = true ∧ plainV s.fib 4 = true ∧ s.fib.fdepth ≠ 0 ∧ frLen s area0 1 ≠ frCap s area0 1
    ∧ frLen full area0 1 = frCap full area0 1 ∧ frLen far area0 1 ≠ frCap far area0 1 ∧ 2 ^ 24 ≤ frFirst far area0 1 + frLen far area0 1
    ∧ frFirst s area0 1 + frLen s area0 1 < 2 ^ 24 ∧ 2 ^ 24 ≤ (regVal (setX 1 16777216 s).fib (.x 1)).toNat ∧ (regVal s.fib (.x 1)).toNat < 2 ^ 24
    ∧ frLaneh s area0 1 = 0 ∧ frLaneh (stored true) area0 1 ≠ 0
    ∧ handleReason s (frKvh s area0 1) (· == 1) (fun bound => decide (frSlot0 s area0 1 + frLen s area0 1 + 1 ≤ bound)) = 0
    ∧ handleReason (stored true) (frLaneh (stored true) area0 1) (· == 2) (fun bound => decide (64 * (2 + 1) ≤ bound * 65536)) = 0 := by
  decide +kernel

/-- The pages of slot 2 translate and its writes go through, with and without the row of a lane object. -/
theorem witness_AppendTokens_writes : ∀ lanes : Bool,
    let s := stored lanes
    let kv := kvOf s (frKvh s area0 1)
    ends (if lanes then reachRow (laneOf s (frLaneh s area0 1)) accStore 2 s else .ok ((), s)) (fun _ w => ends (reachToken kv accStore 2 w) fun _ v =>
    ends (if lanes then tokenWrite (laneOf s (frLaneh s area0 1)) (64 * 2) (laneBytes s.fib.v[4]) v else .ok ((), v)) (fun _ s0 =>
      ends (tokenWrite kv (65536 + 128 * 2) (pairBytes s 2) s0) fun _ s1 => ends (writeValue kv 2 0 (pairsOf (pairBytes s 2)) s1) fun _ s2 =>
        ends (tokenWrite kv (8 * 2) (bytesOf 8 (2 ^ 63 + 2)) s2) fun _ s3 =>
          (recordPut s3 area0 1 8 4 3).pair == none && openS (recordPut s3 area0 1 8 4 3).fib (.x 2))) = true := by
  decide +kernel

/-- ac0 and ac1 claimed and valid, with the run given (R276). -/
def attends (phase limit index : Nat) (s : State) : State :=
  onFib (fun f => { f with aclaim := 3 }) (onCore (fun c => { c with accs := c.accs.set 1 (((c.accs[(1 : Fin 8)]).set 1
    (BitVec.ofNat 64 (phase * 2 ^ 56 + limit * 2 ^ 32 + index * 2 ^ 8 + 1))).set 2 (BitVec.ofNat 64 (2 ^ 63 + 2 ^ 48))) }) s)

theorem witness_Attention :
    let s := attends 0 1 0 (stored false)
    let z := onFib (fun f => { f with aclaim := 3 }) (framed 1 1 0)
    let hi := accOf s (accHi 0)
    let kvh := frKvh s area0 (runFrom hi[1]).frame
    hasAcc s0.fib (accLo 0) = false ∧ s0.pair = none
    ∧ s.pair = none ∧ goodAcc s (accLo 0) = true ∧ goodAcc s (accHi 0) = true ∧ plainPair s 2 = true ∧ plainB s.fib (.imm 3) = true ∧ openS s.fib (.x 2) = true
    ∧ (handleReason s s.fib.ctx (· == 3) (fun _ => true) = 0 ∧ pinnedAt s s.fib.ctx = some area0 ∧ s.poison = [] ∧ s.latent = [])
    ∧ (framed 0 0 0).fib.fdepth = 0 ∧ s.fib.fdepth ≠ 0 ∧ 2 ^ 24 ≤ (valB s.fib (.imm 16777216)).toNat ∧ (valB s.fib (.imm 16777215)).toNat < 2 ^ 24 ∧ s.fib.rope = 0
    ∧ (accOf z (accHi 0))[2].getLsbD 63 = false ∧ hi[2].getLsbD 63 = true
    ∧ (runFrom (accOf (attends 6 0 0 s) (accHi 0))[1]).phase = 6 ∧ (runFrom (accOf (attends 7 0 0 s) (accHi 0))[1]).phase = 7
    ∧ (runFrom hi[1]).phase < 6 ∧ (runFrom hi[1]).index < (runFrom hi[1]).limit ∧ Nat.min (runFrom hi[1]).limit 16 = 1
    ∧ handleReason s kvh (· == 1) (fun bound => decide (frSlot0 s area0 1 + 1 ≤ bound)) = 0
    ∧ openV s.fib 4 = true := by
  decide +kernel

/-- R278: from phase 3 with its keys done, without a fourth argument and without a parent, two advances end the phases; a run that has keys, or
has ended, does not advance; an argument span, the parent. -/
theorem witness_Attention_advances :
    let s := attends 3 0 0 (stored false)
    let r := fun t : State => runFrom (accOf t (accHi 0))[1]
    let two := poke (area0 + 128 * 2 + 0x40) 8 (1 + 2 * 2 ^ 32) (poke (area0 + 128 * 2 + 0x3C) 1 1 (framed 2 2 3))
    ((accOf s (accHi 0))[2].extractLsb' 48 7).toNat = 1 ∧ advancesIn s area0 1 2 (r s) ⟨6, 0, 0, 0⟩
    ∧ advancesIn (attends 0 1 0 (stored false)) area0 1 0 (r (attends 0 1 0 (stored false))) ⟨0, 1, 0, 1⟩
    ∧ advancesIn (attends 6 0 0 (stored false)) area0 1 0 (r (attends 6 0 0 (stored false))) ⟨6, 0, 0, 1⟩
    ∧ advancesTo two area0 2 ⟨0, 3, 3, 2⟩ ⟨1, 2, 0, 1⟩ ∧ advancesTo two area0 2 ⟨4, 0, 0, 2⟩ ⟨5, 2, 0, 1⟩ := by
  refine ⟨by decide +kernel, ⟨by decide +kernel, by decide +kernel, ⟨4, 0, 0, 1⟩, .inr (.inl ?_), by decide, by decide, ⟨6, 0, 0, 0⟩,
    .inr (.inr (.inr ?_)), rfl, by decide⟩, ⟨by decide +kernel, by decide +kernel⟩, ⟨by decide +kernel, by decide +kernel⟩, .inl ?_, .inr (.inr (.inl ?_))⟩
  · decide +kernel
  · decide +kernel
  · exact ⟨by decide, by decide +kernel, rfl, 1, 0, 2, by decide +kernel, rfl, rfl, rfl⟩
  · decide +kernel

theorem witness_Attention_keys :
    let s := attends 0 1 0 (stored false)
    let hi := accOf s (accHi 0)
    ends (readKeys (kvOf s (frKvh s area0 1)) (accFreqs hi) 1 0 s) (fun ks t => ks.length == 1 && t == s) = true := by
  decide +kernel

/-- A context of handle `ctxH` not pinned yet: its image at DPA 0x40000, in the physical aperture, with a good header and root record. -/
def imaged : State :=
  let s := handleEntry 9 (0x7E000000000000 + 0x40000) 0 4 0 7 3 (setX 2 ctxH s0)
  poke (0x40000 + 128 + 1) 1 1 (poke 0x40000 32 (ctxH.toNat + kvH.toNat * 2 ^ 64 + 1 * 2 ^ 192) s)

theorem witness_PinAndEvict :
    let s := imaged
    let at_ := clusterLoc 1 0x8000
    let m : CRef := ⟨1, .z, 0x8000⟩
    let other := poke (sctLoc ctxH) 16 (1 + 1 * 2 ^ 112) s
    s.pair = none ∧ plainS s.fib m.a = true ∧ plainS s.fib (.x 2) = true ∧ plainS s.fib .z = true ∧ openS s.fib (.x 3) = true
    ∧ s.fib.seg[(0 : Fin 8)].cls ≠ 1 ∧ s.fib.seg[(1 : Fin 8)].cls = 1 ∧ rangeBad s s.fib.seg[(1 : Fin 8)] (offC s.fib m) (16384 + 0) 16384 rightWr = none
    ∧ (offC s.fib m).toNat % 16384 = 0 ∧ (offC s.fib ⟨1, .z, 0x8040⟩).toNat % 16384 ≠ 0 ∧ 0x18000 < (0x1C000 : Nat) % 131072 ∧ (s.fib.seg[(1 : Fin 8)].base.toNat + 0x8000) % 131072 ≤ 0x18000
    ∧ handleReason s0 (regVal s0.fib (.x 2)) (· == 3) (fun bound => decide (16384 + 0 ≤ bound * 65536)) ≠ 0
    ∧ handleReason s ctxH (· == 3) (fun bound => decide (16384 + 0 ≤ bound * 65536)) = 0
    ∧ handleReason s ctxH (· == 3) (fun bound => decide (16384 + 2097152 ≤ bound * 65536)) ≠ 0
    ∧ sctState s ctxH = 0 ∧ sctState other ctxH ≠ 0 ∧ sctHandle other ctxH ≠ ctxH
    ∧ gives (translate (handleCur s ctxH) (16384 + 0) 0 accLoad s) [(0x40000, 16384 + 0)] s = true ∧ backed s 0x40000 = true ∧ linkStateOf s 0x40000 = 2 ∧ s.poison = [] ∧ s.latent = [] ∧ s.ports = []
    ∧ readNat s (0x40000 + 0x18) 1 = 1 ∧ readWord s 0x40000 = ctxH ∧ readNat s (0x40000 + 128 * 1 + 1) 1 = 1 ∧ readWord (poke 0x40000 8 7 s) 0x40000 ≠ ctxH
    ∧ regVal s.fib (.x 2) = ctxH ∧ at_ = clusterLoc (s.focus.1 / 192) (s.fib.seg[(1 : Fin 8)].base.toNat + (offC s.fib m).toNat) := by
  decide +kernel

/-- The state after the pin goes on: nothing in it touches the pair or the fibre. -/
theorem witness_PinAndEvict_after (l : List Byte) (at_ a : Nat) (g : List Nat) (who : Adder) (b : List Byte) :
    let u := writeBytes { storeAt imaged at_ l who with guards := g } a b
    u.pair = none ∧ openS u.fib (.x 3) = true := by
  simp only [writeBytes_pair, writeBytes_fib, storeAt_pair, storeAt_fib]; decide +kernel

theorem witness_PinAndEvict_evict :
    let s := setX 2 ctxH (framed 0 0 0)
    let cold := poke (sctLoc ctxH + 0x0E) 1 2 s
    s.pair = none ∧ plainS s.fib .z = true ∧ plainS s.fib (.x 2) = true ∧ gives (counterWord 1 (offC s.fib ⟨1, .z, 0x40⟩) s) (clusterLoc 1 0x40) s = true
    ∧ handleReason s0 (regVal s0.fib (.x 2)) (· == 3) (fun _ => true) ≠ 0 ∧ handleReason s (regVal s.fib (.x 2)) (· == 3) (fun _ => true) = 0
    ∧ ((released s true .mod).any fun t => t.pair == none && openS t.fib (.x 3) && sctHandle t ctxH == ctxH && sctState t ctxH == 1) = true
    ∧ ((released cold true .mod).any fun t => sctHandle t ctxH == ctxH && sctState t ctxH == 2) = true
    ∧ ((released (poke (sctLoc ctxH + 0x0E) 1 4 s) true .mod).any fun t => sctState t ctxH == 4) = true := by
  decide +kernel
/-! ## Sampling -/

/-- v1 holds the three entries of ids 10, 11 and 12, the first of value a (R290). -/
def drawn (a : Lane) : State :=
  onFib (fun f => { f with v := f.v.set 1 (vecOf fun i => if i = 0 then a else if i = 1 then 0x40000000 else if i = 2 then 0x3F800000
    else if i = 8 then 10 else if i = 9 then 11 else if i = 10 then 12 else 0xFFFFFFFF) }) s0

theorem witness_Sampling :
    let s := drawn 0x40400000
    let p := fun j : Nat => rnexp (divRne (f32Sub .rne s.fib.v[(1 : Fin 16)][Fin.ofNat 16 j] s.fib.v[(1 : Fin 16)][(0 : Fin 16)]) 0x3F800000)
    let u := fun r : Nat => roundVal .rne (mulVal (.fin false r (-24)) (f32Val (f32Add .rne (f32Add .rne (f32Add .rne 0 (p 0)) (p 1)) (p 2))))
    s.pair = none ∧ plainS s.fib (.x 1) = true ∧ plainB s.fib (.imm 1) = true ∧ openS s.fib (.x 2) = true ∧ plainV s.fib 1 = true
    ∧ plainV s.fib (lowV 2) = true ∧ openV s.fib (lowV 2) = true
    ∧ s0.fib.v[(1 : Fin 16)][(8 : Fin 16)] ≠ 0xFFFFFFFF ∧ (doneV s0 1 (vecOf fun _ => 0xFFFFFFFF)).fib.v[(1 : Fin 16)][(8 : Fin 16)] = 0xFFFFFFFF
    ∧ s.fib.v[(1 : Fin 16)][(8 : Fin 16)] ≠ 0xFFFFFFFF ∧ isNan 0x7FC00000 = true ∧ isNan 0x3F800000 = false ∧ (0x80000000 : Lane).msb = true
    ∧ s.fib.v[(1 : Fin 16)][(10 : Fin 16)] ≠ 0xFFFFFFFF ∧ s.fib.v[(1 : Fin 16)][(11 : Fin 16)] = 0xFFFFFFFF
    -- the least and the greatest random word: the first and the last token
    ∧ ltF (u 0) (f32Add .rne 0 (p 0)) = true ∧ ltF (u 0xFFFFFF) (f32Add .rne (f32Add .rne 0 (p 0)) (p 1)) = false
    ∧ ltF (u 0xFFFFFF) (f32Add .rne (f32Add .rne (f32Add .rne 0 (p 0)) (p 1)) (p 2)) = true := by
  decide +kernel

/-- A first value that is a NaN: no weight is below another, and the last entry whose weight is not 0 is taken. -/
theorem witness_Sampling_last :
    let s := drawn 0x7FC00000
    let p := fun j : Nat => rnexp (divRne (f32Sub .rne s.fib.v[(1 : Fin 16)][Fin.ofNat 16 j] s.fib.v[(1 : Fin 16)][(0 : Fin 16)]) 0x3F800000)
    let c0 := f32Add .rne 0 (p 0)
    let c1 := f32Add .rne c0 (p 1)
    let c2 := f32Add .rne c1 (p 2)
    let u := roundVal .rne (mulVal (.fin false 5 (-24)) (f32Val c2))
    s.fib.v[(1 : Fin 16)][(0 : Fin 16)] ≠ 0x7F800000 ∧ ltF u c0 = false ∧ ltF u c1 = false ∧ ltF u c2 = false ∧ (p 2).toNat % 2 ^ 31 ≠ 0 := by
  decide +kernel

theorem witness_Sampling_row :
    let s := stored true
    let h := frLaneh s area0 1
    s.pair = none ∧ s.fib.fdepth ≠ 0 ∧ openV s.fib (lowV 2) = true ∧ frLen s area0 1 = 2 ∧ frLen s area0 1 ≤ (regVal (setX 1 2 s).fib (.x 1)).toNat
    ∧ (regVal (setX 1 1 s).fib (.x 1)).toNat < frLen s area0 1 ∧ frLaneh (stored false) area0 1 = 0 ∧ h ≠ 0
    ∧ handleReason s h (· == 2) (fun bound => decide (64 * (frSlot0 s area0 1 + 1 + 1) ≤ bound * 65536)) = 0
    ∧ ends (tokenRead (laneOf s h) (64 * 1) 64 s) (fun b t => b.length == 64 && t == s) = true := by
  decide +kernel

/-! ## Events -/

/-- The fibre in focus with a status; a fibre 2 in the ready list behind one that no slot but 15 admits. -/
def being (x : Status) : State := onFib (fun f => { f with status := x }) s0
def lined : State :=
  onCore (fun c => { c with ready := [7, 2, 3], fibres := c.fibres ++ [(2, { state := .ready, role := .user, loc := 0xF0010000 }),
    (7, { state := .ready, role := .walker, loc := 0xF0020000 })] }) s0
def taken (s : State) : State := onSlot 0 (fun k => { k with taker := some 5 }) s
/-- The sleeper of slot 0 while a control fibre waits to bind, in cycle n. -/
def slept (n : Nat) : State :=
  onCore (fun c => { c with cyc := n, ready := [3], fibres := c.fibres ++ [(3, { state := .ready, role := .control, loc := 0xF0010000 })] })
    (being (.sleeping .counter 10))

theorem witness_SlotEvents :
    let on := fun s : State => (getCore s 192).slots[(0 : Fin 16)].bound
    let miss := being (.waiting .miss)
    let asked := onCore (fun c => { c with mailbox := [{ va := 0, at_ := 0, tenant := 0, tag := 0, rq := 0, who := 0 }] }) miss
    on miss = true ∧ (∀ m ∈ (getCore miss 192).mailbox, ¬ (m.rq = 0 ∧ m.who = fibIndex (getCtx miss 192 0))) ∧ (getCtx miss 192 0).status = .waiting .miss
    ∧ (getCtx (being (.waiting .fetch)) 192 0).status = .waiting .fetch ∧ (getCtx (being (.waiting .room)) 192 0).status = .waiting .room
    ∧ (∃ m ∈ (getCore asked 192).mailbox, m.rq = 0 ∧ m.who = fibIndex (getCtx asked 192 0)) ∧ (getCtx asked 192 0).status ≠ .waiting .room
    ∧ (getCore lined 192).slots[(1 : Fin 16)].bound = false ∧ present lined 192 = true ∧ (getCore lined 192).ready = [7] ++ 2 :: [3]
    ∧ mayBind lined 192 1 2 = true ∧ (∀ e ∈ [7], mayBind lined 192 1 e = false) ∧ recordClean lined 192 2 = true
    ∧ (∃ f ∈ (getCore (slept 16394) 192).ready, mayBind (slept 16394) 192 0 f = true) ∧ 10 + 16384 ≤ cycOf (slept 16394) 192
    ∧ cycOf (slept 16393) 192 < 10 + 16384 ∧ (∀ f ∈ (getCore miss 192).ready, mayBind miss 192 0 f = false)
    ∧ (getCore (taken (slept 0)) 192).slots[(0 : Fin 16)].taker ≠ none ∧ (getCtx (taken (slept 0)) 192 0).status = .sleeping .counter 10
    ∧ (getCtx (taken s0) 192 0).status = .run ∧ (getCore (taken s0) 192).slots[(0 : Fin 16)].taker ≠ none ∧ (getCore s0 192).slots[(0 : Fin 16)].taker = none := by
  decide +kernel

theorem witness_SlotEvents_records :
    let w := fun (st : FState) (k : Option Wake) (b : Bool) =>
      fibreInfo (onCore (fun c => { c with fibres := c.fibres ++ [(2, { state := st, role := .user, loc := 0xF0010000, writing := b, wake := k })] }) s0) 192 2
    w .ready none true = some { state := .ready, role := .user, loc := 0xF0010000, writing := true }
    ∧ w .swapped (some .replay) true = some { state := .swapped, role := .user, loc := 0xF0010000, writing := true, wake := some .replay }
    ∧ w .swapped none true = some { state := .swapped, role := .user, loc := 0xF0010000, writing := true }
    ∧ w .ready none false = some { state := .ready, role := .user, loc := 0xF0010000 }
    ∧ s0.fib.status = .run ∧ s0.fib.delivery = none ∧ s0.fib.wake = none ∧ s0.fib.due = false ∧ s0.fib.tcause = 0
    ∧ (getCtx (onFib (fun f => { f with due := true }) s0) 192 0).due = true
    ∧ (setFocus (onFib (fun f => { f with pend := some 64 }) s0) 192 0).fib.pend = some 64 := by
  decide +kernel

/-- A fetch that waits or has yet to be made: a line that is there, one whose page no TLB knows, and a line in the buffer already. -/
theorem witness_SlotEvents_fetch :
    let there := onCore (fun c => { c with lines := [] }) (fetched 0x280000000000000000000000 s0)
    let far := onFib (fun f => { f with pc := 0x10000, seg := f.seg.set 2 { base := 0x10000, limit := 0x10000, cls := 2, rights := 31 } }) s0
    let f := fun s : State => getCtx s 192 0
    let got := fun s : State => fetchLine s 192 (f s) (lineOf (f s).pc) (f s).pc
    let filled := addLine there 192 (f there).tenant (lineOf (f there).pc) 0
    (f there).status = .run ∧ (f there).want.getD (f there).pc = (f there).pc ∧ lineReady there 192 (f there) = false ∧ lineReady filled 192 (f filled) = true
    ∧ (match (got there).1 with
      | .line loc _ => loc == 0 && pathClear (clearPath (got there).2 192 loc) 192 loc && !pathClear (clearPath (jammed there) 192 loc) 192 loc
      | _ => false) = true
    ∧ (match (got (jammed there)).1 with
      | .line loc _ => loc == 0
      | _ => false) = true
    ∧ lineReady far 192 (f far) = false
    ∧ (match (got far).1 with
      | .miss m => (postMiss (got far).2 192 m).isSome
      | _ => false) = true := by
  decide +kernel

/-- A publish of scope 1 is done at once; one of scope `.sys` waits for a store that a link in training holds. -/
theorem witness_SlotEvents_publish :
    let s := onFib (fun f => { f with status := .waiting (.publish 5 ⟨1, 0⟩) }) heldStore
    (getCtx s 192 0).status = .waiting (.publish 5 ⟨1, 0⟩) ∧ publishDone (pushPublish s 192 5 ⟨1, 0⟩) 192 5 ⟨1, 0⟩ = false
    ∧ publishDone (pushPublish s0 192 1 ⟨1, 0⟩) 192 1 ⟨1, 0⟩ = true := by
  decide +kernel

/-- The fibre runs between instructions with its line in the buffer, or within one that has issued; a drainer's budget has run out. -/
theorem witness_SlotEvents_preempt :
    let s := addLine (fetched 0x280000000000000000000000 s0) 192 0 (lineOf s0.fib.pc) 0
    let due := onFib (fun f => { f with due := true }) (being (.sleeping (.drain true) 0))
    let x := getCtx s 192 0
    betweenInstrs x = true ∧ lineReady s 192 x = true ∧ (getCore s 192).slots[(0 : Fin 16)].busy ≤ cycOf s 192
    ∧ betweenInstrs (getCtx (onFib (fun f => { f with issued := true }) s) 192 0) = false
    ∧ (let b := onSlot 0 (fun k => { k with busy := 16 }) s; cycOf b 192 < (getCore b 192).slots[(0 : Fin 16)].busy ∧ (getCtx b 192 0).status = .run)
    ∧ drainEnds (getCtx due 192 0) = true ∧ betweenInstrs (getCtx due 192 0) = true ∧ (getCtx due 192 0).delivery = none := by
  decide +kernel

theorem witness_SlotEvents_sysc :
    fibreInfo (onCore (fun c => { c with fibres := c.fibres ++ [(2, { state := .swapped, role := .user, loc := 0xF0010000, writing := true, call := some 9 })] }) s0) 192 2
      = some { state := .swapped, role := .user, loc := 0xF0010000, writing := true, call := some 9 } := by
  decide +kernel

theorem witness_SlotEvents_refetch :
    let s := onFib (fun f => { f with status := .waiting .refetch }) (fetched 0x280000000000000000000000 s0)
    let bad := poke 0 1 (readNat s 0 1 ^^^ 1) s
    let pair := poke 60 4 (readNat s 60 4 ^^^ 2 ^ 5) s
    let got := fun (s : State) (p : State → Nat → Nat → Bool) => match (fetchLine s 192 s.fib (lineOf s.fib.pc) s.fib.pc).1 with
      | .line loc w => loc == 0 && p (addLine (clearPath s 192 loc) 192 s.fib.tenant (lineOf s.fib.pc) loc) loc w
          && pathClear (clearPath s 192 loc) 192 loc
      | _ => false
    s.focus = (192, 0) ∧ (getCore s 192).slots[(0 : Fin 16)].bound = true ∧ (getCore s 192).slots[(0 : Fin 16)].fetchErr = false
    ∧ s.fib.status = .waiting .refetch ∧ instrNo s.fib.pc = 0
    ∧ got s (fun v loc w => parityGood v loc w 0 && !pairBit w 0) = true ∧ got bad (fun v loc w => !parityGood v loc w 0) = true
    ∧ got pair (fun v loc w => pairBit w 0 && parityGood v loc w 0 == true) = true := by
  decide +kernel
theorem witness_CoreEvents_stores :
    let c := onCore (fun c => { c with sb := [{ block := sp 64, writes := [⟨0, [1], ⟨0, 192, 1⟩, false, none⟩] }, { block := sp 64, writes := [⟨8, [2], ⟨0, 192, 1⟩, false, none⟩] }] }) s0
    let far := onCore (fun c => { c with sb := [{ block := 0x40000, writes := [⟨0, [1], ⟨0, 192, 1⟩, false, none⟩] }] }) s0
    let m := { s0 with msgs := [⟨192, sp 64, 1, ⟨0, 192, 1⟩⟩, ⟨192, sp 72, 1, ⟨0, 192, 1⟩⟩] }
    ((getCore c 192).sb[0]?).isSome = true ∧ ((getCore c 192).sb[1]?).isSome = true
    ∧ (∃ f ∈ (getCore c 192).sb.take 1, f.block = sp 64) ∧ (getCore c 192).sb.take 0 = [] ∧ nearHome 192 (sp 64 + 0) = true
    ∧ nearHome 192 (0x40000 + 0) = false ∧ next (exec (.storeBufferDrain 192 0) far) (fun t => t.ports.length == 1 && byteAt t 0x40000 == 0) = true
    ∧ (m.msgs[1]?).isSome = true ∧ (∃ e ∈ m.msgs.take 1, e.src = 192 ∧ homeOf e.loc = homeOf (sp 72)) ∧ m.msgs.take 0 = [] ∧ isToxic m (sp 64) = false
    ∧ next (exec (.storeBufferDrain 192 0) c) (fun t => byteAt t (sp 64) == 1 && byteAt t (sp 72) == 0) = true
    ∧ next (exec (.counterAddAtHome 0) m) (fun t => readWord t (sp 64) == 1 && t.msgs.length == 1) = true := by
  decide +kernel

theorem witness_CoreEvents_wakes :
    let s := { being (.sleeping .counter 10) with wakes := [(192, 0, .value 5)] }
    let w := { onCore (fun c => { c with fibres := c.fibres ++ [(2, { state := .swapped, role := .user, loc := 0xF0010000 })] }) s0 with wakes := [(192, 2, .value 5)] }
    let x := onCore (fun c => { c with fibres := c.fibres ++ [(2, { state := .swapped, role := .user, loc := 0xF0010000, left := some 0 })] }) s0
    let e : Enrol := ⟨.fibre 192 0, sp 64, 0, true⟩
    let p := { s0 with enrol := [e] }
    let d : Enrol := ⟨.gate 3, sp 64, 1, true⟩
    slotOfFibre s 192 0 = some 0 ∧ (getCtx s 192 0).status = .sleeping .counter 10 ∧ slotOfFibre w 192 2 = none
    ∧ justLeft s 192 0 = false ∧ justLeft w 192 2 = false ∧ justLeft x 192 2 = true ∧ p.latent = []
    ∧ (fibreInfo w 192 2).map (fun x => (x.state, x.wake)) = some (.swapped, none)
    ∧ p.enrol.find? (fun x => x.poll && isFibreWaiter 192 0 x.who) = some e ∧ slotOfFibre p 192 0 = some 0 ∧ (fibreInfo p 192 0).map (·.ticket) = some none
    ∧ pathClear (clearPath p 192 e.loc) 192 e.loc = true ∧ (let far := clusterLoc 112 64; pathClear (clearPath (jammed p) 192 far) 192 far = false)
    ∧ ({ p with enrol := [{ e with loc := clusterLoc 112 64 }] } : State).enrol.find? (fun x => x.poll && isFibreWaiter 192 0 x.who) = some { e with loc := clusterLoc 112 64 }
    ∧ isToxic p e.loc = false ∧ reached (readWord p e.loc) 0 = true ∧ reached (readWord p e.loc) 1 = false
    ∧ ({ s0 with enrol := [d] } : State).enrol[0]? = some d ∧ ({ s0 with enrol := [⟨.proxy 192 1, sp 64, 1, true⟩] } : State).enrol[0]? = some ⟨.proxy 192 1, sp 64, 1, true⟩ ∧ next (exec (.wakeDelivery 0) s) (fun t => t.fib.wake == some (.value 5)) = true := by
  decide +kernel

theorem witness_CoreEvents :
    let q : Pattern := ⟨1, 2, 1, 1, 8, 0, 0, 1024⟩
    let t := onFib (fun f => { f with streams := f.streams.set 0 { armed := true, index := 1, dseg := 0, pat := some q } }) s0
    let bare := onFib (fun f => { f with streams := f.streams.set 0 { armed := true, index := 1, dseg := 7, pat := some q } }) s0
    let held := onFib (fun f => { f with streams := f.streams.set 0 { armed := true, index := 1, dseg := 0, pat := some q, halt := some 1 } }) s0
    let e : TlbEntry := ⟨.port 1, 0, 3, false, leaf0⟩
    let l := { s0 with tlbs := [⟨.die 0, 0, 9, false, leaf0⟩, e] }
    t = setFocus t 192 0 ∧ (getCore t 192).slots[(0 : Fin 16)].bound = true ∧ (1 + 0 < q.total) ∧ (0 + 1) * sizeBytes q.esize ≤ 128
    ∧ gives (resolve 0 (q.off 1) (sizeBytes q.esize) (sizeBytes q.esize) rightRd accLoad t) [(sp 1032, 1)] t = true ∧ readable t (sp 1032) 1 false = true
    ∧ rereadStreams t = t ∧ t.fib.streams[(0 : Fin 4)].halt = none ∧ held.fib.streams[(0 : Fin 4)].halt = some 1
    ∧ rereadStreams bare = bare ∧ (resolve 7 (q.off 1) (sizeBytes q.esize) (sizeBytes q.esize) rightRd accLoad bare).isOk = false
    ∧ (l.tlbs.filter fun e => e.tlb == .port 1)[0]? = some e ∧ (l.tlbs.filter fun e => e.tlb == .port 1)[1]? = none
    ∧ isSpad (sp 64) = true ∧ isToxic s0 (sp 64) = false ∧ wordOf (sp 64) ∉ s0.latent ∧ s0.latent = [] ∧ s0.fib.poison.contains 0x40 = false ∧ s0.fib.flips.contains 0x40 = false
    ∧ (let f := onFib (fun f => { f with flips := [0x41] }) s0; f.pair = none ∧ armedS f.fib (.x 1) = none ∧ openS f.fib (.x 2) = true
      ∧ f.fib.poison.contains (specOf (.x 1)) = false ∧ f.fib.flips.contains (specOf (.x 1)) = true
      ∧ next (exec (.mov (.x 2) (.x 1)) f) (fun t => t.fib.flips == []) = true)
    ∧ present s0 192 = true ∧ (9 : Byte) ≤ fusedOf s0 192 ∧ (1 : Byte) ≤ fusedOf s0 192 ∧ fusedOf s0 192 < (10 : Byte) ∧ present s0 1032192 = false := by
  decide +kernel

theorem witness_PortEvents :
    let s := onCore (fun c => { c with tickets := [7] }) s0
    let r := poke (wakeCtr 192) 8 7 s
    let p := { s0 with pools := s0.pools.set 1 { back := [0x30000] } }
    present s 192 = true ∧ isToxic s (wakeCtr 192) = false ∧ 7 ∈ (getCore s 192).tickets ∧ reached (readWord s (wakeCtr 192)) 7 = false
    ∧ 7 ∉ (getCore s 192).refused ∧ 8 ∉ (getCore s 192).tickets ∧ reached (readWord r (wakeCtr 192)) 7 = true
    ∧ (p.pools[(1 : Fin 8)]).back = [0x30000] ∧ (s0.pools[(4 : Fin 8)]).back = [] ∧ (s0.pools[(4 : Fin 8)]).fresh = [(16, 3072)]
    ∧ (s0.pools[(0 : Fin 8)]).back = [] ∧ (s0.pools[(0 : Fin 8)]).fresh = []
    ∧ swKind 0x10000000 = .plain ∧ swKind 1 = .readOnly ∧ swKind 0x20000000 = .hole ∧ swKind 0x17001800 = .hole ∧ (0x10000000 : Nat) < 0x17001000 ∧ 0x17001000 + 32 * 63 + 32 ≤ 0x17001800 ∧ s0.poison = []
    ∧ next (exec (.registerWrite 0x10000000 [5]) s0) (fun t => byteAt t (swLoc 0x10000000) == 5) = true := by
  decide +kernel

/-- The wake port as a store of a core, with nothing of it underway, and as an external write; a wake counter that is poisoned. -/
theorem witness_PortEvents_wake :
    let r : Release := { g := 192, sc := 4, upto := ⟨(getCore s0 192).sbSeq, s0.accepts⟩, loc := some (wakeCtr 192), inc := 7, who := ⟨0, 192, 1⟩ }
    s0.ports = [] ∧ (getCore s0 192).sb = [] ∧ s0.rels = [] ∧ isToxic (correctRead s0 (wakeCtr 192) 8) (wakeCtr 192) = false
    ∧ next (exec (.wakePort 192 7 ⟨0, 192, 1⟩) s0) (fun t => t.rels == [r]) = true ∧ readWord (runRelease s0 r) (wakeCtr 192) = 7
    ∧ next (exec (.wakePort 192 7 ⟨2, 0, 0⟩) s0) (fun t => readWord t (wakeCtr 192) == 7) = true := by
  decide +kernel

def spanIs (r : Spans) (l : List (Nat × Nat)) : Bool := match r with
  | .ok k => k == l
  | _ => false

/-- The context of `framed`, cooling, and its eviction the first of its cluster; busy, its image at DPA 0x40000 of the physical aperture. -/
theorem witness_PortEvents_evict :
    let e : Evict := { entry := 9, g := 192, f := 1, tenant := 0, ctr := sp 64 }
    let s := { handleEntry 9 (0x7E000000000000 + 0x40000) 0 4 0 7 3 (framed 0 0 0) with evicts := [e, { e with entry := 10 }] }
    let b := { s with evicts := [{ e with busy := true }] }
    s.evicts.find? (fun x => entryClu s x.entry == entryClu s 9) = some e ∧ b.evicts.find? (fun x => x.entry == 9 && x.busy) = some { e with busy := true }
    ∧ entrySize b 9 = 16384
    ∧ (spanIs (spansVia (askEngine b 192 0 accEngWrite (.evict 9) 0) (16384 / 65536 + 2)
        (hCur b (bitsOf (entryHandle b 9) 24 20)).toNat 16384) [(0x40000, 16384)]) = true
    ∧ b.evicts.find? (fun x => x.entry == 9 && x.busy && x.park.isNone) = some { e with busy := true } ∧ linkStateOf b 0x40000 = 2
    ∧ pathClear (clearPath b 192 Config.swBase) 192 Config.swBase = true ∧ pathClear (clearPath (jammed b) 192 Config.swBase) 192 Config.swBase = false := by
  decide +kernel

/-- An image is written to memory; to a peer whose link's replay buffer is full it is not. -/
theorem witness_PortEvents_image :
    let full := { s0 with links := [{ id := .welt 1, state := 2, replay := (List.range 4096).map fun i => { seq := i, bytes := [] } }] }
    (writeImage 0 ⟨1, 192, 1⟩ [(0x40000, 2)] [(1, false), (2, true)] s0).isSome = true
    ∧ writeImage 0 ⟨1, 192, 1⟩ [(Config.peerBase + 2 ^ 38, 2)] [(1, false), (2, true)] full = none := by
  decide +kernel
/-- Queue 2 of `queued` in state st, the scheduler's; NOTIFY 2 ahead of SEEN or at it. -/
def inQueue (st n : Nat) : State := poke (qLoc 2 + 0x0B) 1 st (poke (qLoc 2 + 0x0A) 1 1 (queued n))
def fires (s : State) : State := { s with fired := [(.notify 2, some 5)] }
def inSlot (s : State) : State := { s with hslots := [(6, 2)] }

theorem witness_QueueEvents :
    let s := inQueue 0 0
    let d := fires (inQueue 1 0)
    let p := { inQueue 2 0 with pending := [2] }
    let b := inSlot (inQueue 3 0)
    let c := { b with queues := [{ q := 2, close := true }] }
    let u := inSlot (inQueue 4 0)
    qState s 2 = 0 ∧ descOk s 2 = true ∧ qNotify s 2 = some (clusterLoc 112 0x40) ∧ s.latent = [] ∧ isToxic s (clusterLoc 112 0x40) = false
    ∧ (seenAtOpen { s with poison := [clusterLoc 112 0x40] } 2).2.free ≠ s.free
    ∧ descOk (poke (qLoc 2 + 8) 1 13 s) 2 = false ∧ qState (inQueue 1 0) 2 = 1 ∧ qState (inQueue 2 0) 2 = 2
    ∧ qState b 2 = 3 ∧ qState u 2 = 4
    ∧ d.fired.find? (fun e => e.1 == .notify 2) = some (.notify 2, some 5) ∧ qState d 2 = 1 ∧ freeSlotNo { d with fired := [] } = some 0
    ∧ p.pending = 2 :: [] ∧ freeSlotNo p = some 0 ∧ s.pending = []
    ∧ slotOfQueue b 2 = some 6 ∧ queueIdle b 2 = true ∧ (queueOf c 2).close = true ∧ queueIdle c 2 = true ∧ queueIdle (inSlot (inQueue 3 2)) 2 = false
    ∧ (queueOf b 2).close = false ∧ b.pending = []
    ∧ (queueOf { u with queues := [{ q := 2, close := true }] } 2).close = true := by
  decide +kernel

theorem witness_QueueEvents_read :
    let s := { inSlot (inQueue 3 2) with tlbs := [⟨.host 0, 0, 3, false, leafTo 5⟩] }
    let miss := { s with tlbs := [] }
    let failed := { miss with hostFails := [.ring 2] }
    let record := fun s : State => readClean (ask0 (qTenant s 2) (.ring 2)) 0 (testNotify s 2).2 (qRing s 2 + 128 * ((qSeen s 2).toNat % 2 ^ qLog s 2)) 128
    slotOfQueue s 2 = some 6 ∧ qState s 2 = 3 ∧ (testNotify s 2).1 = true ∧ (testNotify s 2).2 = s ∧ (testNotify failed 2).2 = failed
    ∧ freeKern s = some 0 ∧ (testNotify (inSlot (inQueue 3 0)) 2).1 = false
    ∧ (match record s with
      | .bytes b _ => b.length == 128
      | _ => false) = true
    ∧ (match record miss with
      | .notYet t => (getCore t (hostWalker miss 0)).mailbox.length == 1
      | _ => false) = true
    ∧ (match record failed with
      | .refused _ => true
      | _ => false) = true := by
  decide +kernel

/-- NOTIFY may be poisoned; a dormant queue that the poison woke; the re-test of an unbind, either way. -/
theorem witness_QueueEvents_poison :
    let s := inSlot (inQueue 4 2)
    let u := inSlot (inQueue 4 0)
    let p := { s with poison := [clusterLoc 112 0x40] }
    let w := { inQueue 1 0 with fired := [(.notify 2, none)] }
    qNotify s 2 = some (clusterLoc 112 0x40) ∧ s.latent = [] ∧ isToxic s (clusterLoc 112 0x40) = false ∧ isToxic p (clusterLoc 112 0x40) = true
    ∧ slotOfQueue s 2 = some 6 ∧ qState s 2 = 4 ∧ (testNotify s 2).1 = true ∧ (testNotify u 2).1 = false
    ∧ w.fired.find? (fun e => e.1 == .notify 2) = some (.notify 2, none) ∧ qState w 2 = 1 := by
  decide +kernel

/-- Hardware slots 0 to n taken by queue 7, which is bound and idle, or closed; queue 2 dormant. -/
def crowded (n st : Nat) : State :=
  { poke (qLoc 7 + 0x0B) 1 st (inQueue 1 0) with hslots := (0, 7) :: (List.range n).map fun h => (h + 1, 7), pending := [3] }

theorem crowded_look (n st h : Nat) (hh : h < n + 1) : look (crowded n st).hslots h = some 7 := by
  by_cases h0 : h = 0
  · subst h0; rfl
  · have e := look_all (f := fun h => h + 1) (v := (7 : Nat)) (List.range n) (j := h - 1) (List.mem_range.2 (by omega))
    simp only [crowded, look, if_neg (Ne.symm h0)]
    rw [← e]; congr 1; omega

theorem crowded_full (st : Nat) : freeSlotNo (crowded 4095 st) = none := by
  unfold freeSlotNo leastBelow
  refine List.find?_eq_none.2 fun h hh => ?_
  rw [crowded_look 4095 st h (List.mem_range.1 hh)]
  decide

theorem oldest_same (s : State) : ∀ l : List Nat, (∀ x ∈ l, x = 7) → l.foldl (fun b q => match b with
    | none => some q
    | some r => if (queueOf s q).idle < (queueOf s r).idle then some q else some r) (some 7) = some 7
  | [], _ => rfl
  | a :: l, h => by
    obtain rfl : a = 7 := h a (by simp)
    simpa using oldest_same s l fun x hx => h x (by simp [hx])

theorem crowded_slots (n st : Nat) : (crowded n st).hslots.map (·.2) = 7 :: (List.range n).map fun _ => 7 := by
  simp [crowded, Function.comp_def]

theorem crowded_idle (n st : Nat) : oldestIdle (crowded n st) =
    if (qState (crowded n st) 7 == 3 && queueIdle (crowded n st) 7) = true then some 7 else none := by
  have same : ∀ x ∈ (List.range n).map fun _ => 7, x = 7 := fun x hx => by
    obtain ⟨_, _, h⟩ := List.mem_map.1 hx
    exact h.symm
  unfold oldestIdle
  dsimp only
  rw [crowded_slots]
  split
  · next p =>
    rw [List.filter_cons_of_pos (by exact p)]
    exact oldest_same _ _ fun x hx => same x (List.mem_filter.1 hx).1
  · next p =>
    rw [List.filter_eq_nil_iff.2]
    · rfl
    · intro x hx
      have : x = 7 := (List.mem_cons.1 hx).elim id (same x)
      subst this
      exact p

/-- What the queue is does not depend on the slots that are taken. -/
theorem crowded_state : (qState (crowded 4095 3) 7 == 3 && queueIdle (crowded 4095 3) 7) = true
    ∧ (qState (crowded 4095 0) 7 == 3 && queueIdle (crowded 4095 0) 7) = false ∧ qState (crowded 4095 3) 2 = 1 := by
  decide +kernel

/-- A woken queue that finds every slot taken: by an idle queue, whose slot it gets, or by one that is not. -/
theorem witness_QueueEvents_crowded :
    (freeSlotNo (crowded 4095 3) = none ∧ oldestIdle (crowded 4095 3) = some 7) ∧ (freeSlotNo (crowded 4095 0) = none ∧ oldestIdle (crowded 4095 0) = none)
    ∧ qState (crowded 4095 3) 2 = 1 ∧ slotOfQueue (crowded 4095 3) 7 = some 0 ∧ (crowded 4095 3).pending ≠ [] :=
  ⟨⟨crowded_full 3, by rw [crowded_idle, if_pos crowded_state.1]⟩, ⟨crowded_full 0, by rw [crowded_idle, crowded_state.2.1]; rfl⟩, crowded_state.2.2, rfl,
    by decide⟩

theorem witness_QueueEvents_freed : freeSlotNo (retestQueue (startUnbind (crowded 4095 3) 7) 7) = some 0 := by
  decide +kernel

/-! ## Kernels -/

/-- Kernel 3 of queue 2 in state st: its record has one stage of one narrow core, its code and its fibre table at DPA 0x40000 and its segment
set at 0x50000 of the physical aperture (R297, R321); the table holds one fibre when `tab` (R326). -/
def kerned (st : Nat) (tab : Bool) : State :=
  let r := 0x7E000000040000 + 0x7E000000050000 * 2 ^ (8 * 0x18) + (2 ^ 36 + 2 ^ 24 + 1) * 2 ^ (8 * 0x48) + 1 * 2 ^ (8 * 0x78) + st * 2 ^ (8 * 0x80)
  let s := poke (kernLoc 3) 0x81 r { s0 with kerns := [{ id := 3, queue := 2, prio := 0 }] }
  if tab then poke 0x4003C 4 0x4000 (poke 0x40000 12 (1 + 0x40040 * 2 ^ 32) s) else s
def kern3 : Kern := { id := 3, queue := 2, prio := 0 }
/-- With a gate at byte 64 of cluster 0 that waits for n. -/
def gated (n : Nat) : State := poke (kernLoc 3 + 0x34) 6 (2 ^ 47 + 0x40) (poke (kernLoc 3 + 0x20) 8 n (kerned 1 true))
def tabled (s : State) (p : List Byte → Bool) : Bool :=
  match readTables (ask0 (kernTenant s 3) (.tables 0)) 3 (kernStages s 3) s [] with
  | .bytes [t] u => p t && u == s
  | _ => false
/-- Its fibre table is where no TLB leads, with the read yet to be answered or refused. -/
def tableless (fails : List Purpose) : State := { poke (kernLoc 3) 8 0x100000 (kerned 1 true) with hostFails := fails }

theorem witness_KernelEvents :
    let s := kerned 1 true
    let bad := poke (kernLoc 3 + 0x78) 8 0 s
    let later := { s with kerns := [{ kern3 with id := 4, num := 1 }, { kern3 with num := 2, pred := some 1 }] }
    let a := clusterLoc 0 0x40
    kernOf s 3 = some kern3 ∧ kernState s 3 = 1 ∧ itsTurn s kern3 = true ∧ itsTurn later { kern3 with num := 2, pred := some 1 } = false ∧ kernState (kerned 4 true) 3 ≠ 1
    ∧ admitBad bad 3 = true ∧ admitBad s 3 = false ∧ tabled s fibreTableOk = true ∧ tabled (kerned 1 false) (fun t => !fibreTableOk t) = true
    ∧ (match readTables (ask0 (kernTenant (tableless []) 3) (.tables 0)) 3 (kernStages (tableless []) 3) (tableless []) [] with
      | .notYet _ => true
      | _ => false) = true
    ∧ (match readTables (ask0 (kernTenant (tableless []) 3) (.tables 0)) 3 (kernStages (tableless []) 3) (tableless [.tables 0]) [] with
      | .refused _ => true
      | _ => false) = true
    ∧ admitBad (tableless []) 3 = false ∧ itsTurn (tableless []) kern3 = true ∧ s.latent = []
    ∧ counterRef s (w64 (lrecNat s 3 0x34 6)) = none ∧ counterRef (gated 0) (w64 (lrecNat (gated 0) 3 0x34 6)) = some a ∧ isToxic (gated 0) a = false
    ∧ isToxic { gated 0 with poison := [a] } a = true ∧ tabled (gated 1) fibreTableOk = true ∧ admitBad (gated 1) 3 = false
    ∧ reached (readWord (gated 0) a) (w64 (lrecNat (gated 0) 3 0x20 8)) = true ∧ reached (readWord (gated 1) a) (w64 (lrecNat (gated 1) 3 0x20 8)) = false
    ∧ kernState (kerned 2 true) 3 = 2 ∧ ([(.gate 3, none)] : List (Waiter × Option Word)).find? (fun e => e.1 == .gate 3) = some (.gate 3, none)
    ∧ ({ kerned 1 true with fired := [(.gate 3, some 1)] } : State).fired.find? (fun e => e.1 == .gate 3) = some (.gate 3, some 1)
    ∧ s.fired.find? (fun e => e.1 == .gate 3) = none
    ∧ kernState (kerned 3 true) 3 = 3 ∧ tryOrder (kerned 3 true) = [] ++ kern3 :: [] ∧ tryOrder s = []
    ∧ (findPlacement (kerned 3 true) kern3).map (fun p => p.map (·.2)) = some [[384]] := by
  decide +kernel

def kernOne : Kern := { kern3 with groups := [{ stage := 0, members := [384], shares := [(0, 1)], m := 1, n := 1, home := 384 }] }
/-- What population makes of what it has read. -/
def populated (s : State) (p : Option State → Bool) : Bool := match gatherPop kernOne (popCores kernOne) s [] with
  | .bytes (fill :: fills) t => p (createAll 3 (fill :: fills) ((fill :: fills).foldl fillCore t))
  | _ => false

/-- Population of one core: its reads wait or are refused; its one fibre gets no frame. -/
theorem witness_KernelEvents_population :
    let s := kerned 4 true
    let t := poke (kernLoc 3 + 0x18) 8 0x100000 s
    kernState s 3 = 4 ∧ kernOne.park = none
    ∧ (match gatherPop kernOne (popCores kernOne) { t with hostFails := [.populate 0] } [] with
      | .refused _ => true
      | _ => false) = true
    ∧ (match gatherPop kernOne (popCores kernOne) t [] with
      | .notYet _ => true
      | _ => false) = true
    ∧ populated s (·.isNone) = true := by
  decide +kernel
/-- A stage whose table creates no fibre lacks nothing. -/
theorem witness_KernelEvents_created : populated (kerned 4 false) (·.isSome) = true ∧ kernState (kerned 4 false) 3 = 4 := by
  decide +kernel

/-- The first fibre as a fibre of kernel 3 that waits for a reply. -/
def kern192 : Kern := { kern3 with groups := [{ stage := 0, members := [192], shares := [(0, 1)], m := 1, n := 1, home := 192 }] }
def waiting : State := onCore (fun c => { c with fibres := c.fibres.map fun e => (e.1, { e.2 with kern := some 3 }) }) (being (.waiting .room))

theorem witness_KernelEvents_end :
    let s := kerned 5 true
    let x := { kern3 with sent := 1 }
    let t := kerned 6 true
    let w := waiting
    kernState s 3 = 5 ∧ quietKernel s kern3 = true ∧ quietKernel s x = false ∧ kernState t 3 = 6
    ∧ (readNat t (kernLoc 3 + 0x90) 8 = kern3.sent ∧ readNat t (kernLoc 3 + 0x98) 8 = kern3.rcvd)
    ∧ ¬ (readNat t (kernLoc 3 + 0x90) 8 = 1) ∧ quietKernel t { kern3 with sent := 1, rcvd := 1 } = true
    ∧ hasReply (writeNat s (kernLoc 3 + 0xA8) 1 2) kern3 = false ∧ hasReply w kern192 = true
    ∧ 1 ≤ kernState (kerned 3 true) 3 ∧ kernState (kerned 3 true) 3 ≤ 3 ∧ kernState (kerned 0 true) 3 = 0 ∧ 7 ≤ kernState (kerned 8 true) 3
    ∧ 4 ≤ kernState (kerned 4 true) 3 ∧ kernState t 3 ≤ 6 ∧ kernOf s 4 = none ∧ kernOf s (8192 : Word).toNat = none := by
  decide +kernel

/-- Core 192 of `member` at a rotation boundary, in cycle n. -/
def boundaryAt (n : Nat) : State := onCore (fun c => { c with rot := 0, cyc := n, level := [7, 8] }) member
def proxied (p : Proxy) (s : State) : State := onCore (fun c => { c with proxies := [p] }) s
/-- Both cores of `member` are at their balancing cycle; core 193 has no entries, and either a neighbour beside core 192 or
more entries than it. -/
theorem witness_GroupEvents_balance :
    let s := setCore (boundaryAt 4096) 193 { getCore (boundaryAt 4096) 193 with cyc := 4096 }
    let c := { s with kerns := s.kerns.map fun x => { x with groups := x.groups.map fun r => { r with members := [192, 193, 194] } } }
    let t := moveEntries (markBalanced (markBalanced c 192) 193) 193 194
    let long := setCore s 193 { getCore s 193 with level := [1, 2, 3, 4, 5, 6] }
    let u := moveEntries (markBalanced (markBalanced long 192) 193) 193 192
    shortest c (neighbours c 192) = some 193 ∧ balanceDue c 192 = true ∧ balanceDue c 193 = true ∧ shortest c (neighbours c 193) = some 194
    ∧ balanceDue c 194 = false ∧ (getCore t 192).level.length = (getCore c 192).level.length ∧ shortest t (neighbours t 192) = some 193
    ∧ balanceDue t 193 = false
    -- the move of core 193 comes to core 192
    ∧ shortest long (neighbours long 192) = some 193 ∧ balanceDue long 192 = true ∧ balanceDue long 193 = true
    ∧ shortest long (neighbours long 193) = some 192 ∧ (getCore u 192).level.length ≠ (getCore long 192).level.length := by
  decide +kernel

/-- R316: a pass over cycle 4,096 balances in it, and one that ends before does not. -/
theorem test_pass_balances :
    let s := onCore (fun c => { c with cyc := 4090, level := [7, 8] }) member
    (getCore (passCycles s 192 10) 192).balanced = 4096 ∧ (getCore (passCycles s 192 10) 192).level = [7] ∧ (getCore (passCycles s 192 10) 193).level = [8]
    ∧ (getCore (passCycles s 192 5) 192).level = [7, 8] := by
  decide +kernel

/-- The fibre of `member` drains for the whole group. -/
def draining : State := onFib (fun f => { f with status := .sleeping (.drain true) 0 }) member
/-- A core of a running launch with sampling whose TAIL is n, and its block (R283). -/
def sampled (n : Nat) : State :=
  let s := poke (kernLoc 3 + 0x3A) 2 16 (poke (kernLoc 3 + 0x80) 1 5 member)
  onCore (fun c => { c with reqRec := [(3, 5, 0x30000)] }) (poke (spadLoc 192 0x1FF00) 8 n (poke (spadLoc 192 0x1FF10) 6 (0x4000 + 3 * 2 ^ 32 + 1 * 2 ^ 40) s))

theorem witness_GroupEvents :
    let b := boundaryAt 4096
    let m := onCore (fun c => { c with mark := some (3, 1) }) (poke (kernLoc 3) 8 0x7E000000040000 member)
    let idle := onCore (fun c => { c with fibres := [] }) m
    (getCore s0 192).rot ≠ 0 ∧ (getCore (boundaryAt 0) 192).rot = 0 ∧ (getCore (boundaryAt 0) 192).arbiter = cycOf (boundaryAt 0) 192
    ∧ (getCore b 192).rot = 0 ∧ (getCore b 192).arbiter ≠ cycOf b 192 ∧ cycOf (boundaryAt 4095) 192 % 4096 ≠ 0
    ∧ cycOf b 192 % 4096 = 0 ∧ (getCore b 192).balanced ≠ cycOf b 192 ∧ (∀ i ∈ neighbours b 192, balanceDue b i = false) ∧ shortest b (neighbours b 192) = some 193
    ∧ (getCore s0 192).mark = none ∧ (getCore m 192).mark = some (3, 1) ∧ (kernOf m 3).isSome = true ∧ moveReady m 192 3 = false ∧ moveReady idle 192 3 = true
    ∧ (match kernOf idle 3 with
      | some x => (match stageTable idle x 1 192 with
        | .bytes tab u => (createSet x.segs tab 3 192 1 (min (recNat tab 0 4) 7) u).isSome
        | _ => false)
      | none => false) = true
    ∧ (let far := poke (kernLoc 3) 8 0x100000 idle
      match kernOf far 3 with
      | some x => (match stageTable far x 1 192 with
        | .notYet _ => true
        | _ => false)
      | none => false) = true
    ∧ (let gone := poke (kernLoc 3) 8 (0x7E000000000000 + 2 ^ 46) idle
      match kernOf gone 3 with
      | some x => (match stageTable gone x 1 192 with
        | .refused _ => true
        | _ => false)
      | none => false) = true := by
  decide +kernel

theorem witness_GroupEvents_proxies :
    let p : Proxy := { entry := 2, arr := sp 64, inc := 1, last := 4, step := 3, base := 1, pg := 1, fibre := 1, kern := none }
    let s := proxied p (poke (sp 64) 8 1 s0)
    let k := proxied { p with pg := 2 } (poke (sp 64) 8 1 s0)
    let d := draining
    let busy := onCore (fun c => { c with level := [7] }) d
    let h := { d with holds := [(3, 0, true)] }
    (getCore s 192).proxies.find? (fun p => p.entry == 2) = some p ∧ (s.fired.find? fun f => f.1 == .proxy 192 2) = none ∧ s.latent = []
    ∧ (({ s with fired := [(.proxy 192 2, none)] } : State).fired.find? fun f => f.1 == .proxy 192 2) = some (.proxy 192 2, none)
    ∧ (({ s with fired := [(.proxy 192 2, some 1)] } : State).fired.find? fun f => f.1 == .proxy 192 2) = some (.proxy 192 2, some 1)
     ∧ p.last = 4 ∧ ¬ p.last < p.pg + 1 ∧ { p with last := 1 }.last < p.pg + 1 ∧ isToxic { s with poison := [sp 64] } p.arr = true ∧ isToxic s p.arr = false
    ∧ pathClear (clearPath s 192 p.arr) 192 p.arr = true ∧ pathClear (clearPath (jammed s) 192 (clusterLoc 112 64)) 192 (clusterLoc 112 64) = false
    ∧ reached (readWord s p.arr) (p.base + p.step * 0) = true ∧ (getCore k 192).proxies.find? (fun p => p.entry == 2) = some { p with pg := 2 }
    ∧ reached (readWord k p.arr) (p.base + p.step * BitVec.ofNat 64 (2 - 1)) = false
    ∧ anyDrain d 3 0 = true ∧ (∃ gs ∈ drainSets d 3 0 true, idleAnd d 3 gs = true) ∧ d.holds.contains (3, 0, true) = false
    ∧ anyDrain member 3 0 = false ∧ (∀ gs ∈ drainSets busy 3 0 true, idleAnd busy 3 gs = false)
    ∧ h.holds.contains (3, 0, true) = true ∧ idleAnd h 3 (drainCores h 3 0) = true ∧ drainSets h 3 0 true = [drainCores h 3 0]
    ∧ inFlightTo h (drainCores h 3 0) = false ∧ inFlightTo { h with wakes := [(192, 0, .value 1)] } (drainCores h 3 0) = true := by
  decide +kernel

theorem witness_GroupEvents_requests :
    let s := sampled 1
    let n := readWord s (spadLoc 192 0x1FF08)
    (sampKernel s 192).isSome = true ∧ reservedOf s 3 192 = some (5, 0x30000) ∧ (sampKernel s 192).map (·.id) = some 3 ∧ look (getCore s 192).fibres 4095 = none ∧ s.rels = [] ∧ (getCore s 192).request = none ∧ sampBlockOk s 192 = true
    ∧ isToxic s (spadLoc 192 0x1FF00) = false ∧ reached (readWord s (spadLoc 192 0x1FF00)) (n + 1) = true
    ∧ sampKernel member 192 = none ∧ reached (readWord (sampled 0) (spadLoc 192 0x1FF00)) (readWord (sampled 0) (spadLoc 192 0x1FF08) + 1) = false := by
  decide +kernel

/-- R7, R89: a pattern record whose reserved bytes are not zero arms; one with a COUNT of 0 does not. -/
theorem test_reserved_pattern_bytes :
    (patternOf ([6, 1, 1, 0, 0, 0, 0, 0, 2] ++ List.replicate 55 0) false).isSome = true
    ∧ patternOf ([6, 1, 0, 0, 0, 0, 0, 0, 0] ++ List.replicate 55 0) false = none := by
  decide +kernel

/-! ## Links -/

/-- Port 0, the host endpoint, and Welt link 0 in state st. -/
def linked (st : BitVec 3) (f : Link → Link) : State :=
  { s0 with links := [f { id := .port 0, state := st, role := 1 }, f { id := .welt 0, state := st, role := 4, peer := 1 }] }

theorem witness_LinkStates :
    (∀ n : Fin 6, (getLink (linked (BitVec.ofNat 3 n.val) id) (.port 0)).state = BitVec.ofNat 3 n.val
      ∧ (getLink (linked (BitVec.ofNat 3 n.val) id) (.port 0)).role = 1)
    ∧ (getLink (linked 3 fun l => { l with tries := 2 }) (.port 0)).tries = 2 ∧ (getLink (linked 3 fun l => { l with tries := 1 }) (.port 0)).tries = 1
    ∧ (∀ r ∈ (getLink (linked 2 id) (.port 0)).posted, accepted (linked 2 id) (.port 0) r = false) ∧ (linked 2 id).selfHosted = false ∧ counterRef { linked 2 id with selfHosted := true } (readWord (linked 2 id) (linkLoc (.port 0) + 8)) = none
    ∧ (getLink (linked 2 id) (.port 2)).role ≠ 1 ∧ hostUp (linked 2 id) = true ∧ hostUp (linked 1 id) = false := by
  decide +kernel

/-- Window n of port 0 (R359): base, size, cluster, tenant 0, kind and both rights. -/
def windowed (kind base : Nat) : State := poke (winLoc (.port 0) 5) 22 (base + 65536 * 2 ^ 64 + kind * 2 ^ 160 + 3 * 2 ^ 168) (linked 2 id)
def asks (n : Nat) (d : Option (List Byte)) : Inbound := ⟨.port 0, 5, 8, n, d, false, false⟩
def gotAt (r : Ask) (b : Nat) : Bool := match r with
  | .got c => c == b
  | _ => false
def refusedAsk (r : Ask) : Bool := match r with
  | .refused => true
  | _ => false
/-- A counter-window write at the head of what port 0 has taken in. -/
def heldWrite : Request := { kind := 2, addr := sp 64, tenant := 0, len := 8, data := some [1, 0, 0, 0, 0, 0, 0, 0], toxic := false, num := 0 }
def holding (kind base : Nat) : State :=
  setLink (windowed kind base) { getLink (windowed kind base) (.port 0) with posted := [heldWrite], taken := 1 }

/-- Requests at window 5 of port 0 with nothing else waiting: which its windows admit, and which not. -/
theorem witness_LinkRequests :
    let s := windowed 1 0x40
    let c := windowed 2 0x40
    let rd := asks 8 none
    let wr := asks 8 (some [1, 2, 3, 4, 5, 6, 7, 8])
    let big := asks 8 (some [0, 0, 0, 0, 0, 0, 0, 0x80])
    let far : Inbound := { rd with off := 65536 }
    servesInbound (linked 1 id) (.port 0) = false ∧ servesInbound s (.port 0) = true
    ∧ (getLink s (.port 0)).posted = [] ∧ (getLink s (.port 0)).reads = [] ∧ reqLen wr = 8 ∧ reqLen rd = 8
    ∧ winKind s rd = 1 ∧ winAdmits s far = false ∧ winAdmits s wr = true ∧ spadAdmits s wr = true ∧ winAdmits s rd = true ∧ spadAdmits s rd = true
    ∧ spadAdmits { s with guards := [clusterLoc 0 0] } rd = false ∧ winKind (windowed 0 0x40) rd = 0
    ∧ winKind c rd = 2 ∧ winAdmits c rd = true ∧ counterAdmits c rd = true ∧ counterAdmits c { rd with len := 4 } = false
    ∧ counterAdmits c big = false ∧ counterAdmits c wr = true ∧ s.latent = [] ∧ isToxic c (wordOf (clusterLoc (winClu c rd) (winAddr c rd))) = false
    ∧ (sendReply c (.port 0) [] false false).isSome = true := by
  decide +kernel

/-- A poisoned counter word, and a write behind a held counter-window write. -/
theorem witness_LinkRequests_held :
    let c := windowed 2 0x40
    let rd := asks 8 none
    let h := holding 1 0x40
    let wr := asks 8 (some [1, 2, 3, 4, 5, 6, 7, 8])
    isToxic { c with poison := [wordOf (clusterLoc (winClu c rd) (winAddr c rd))] } (wordOf (clusterLoc (winClu c rd) (winAddr c rd))) = true
    ∧ (getLink h (.port 0)).posted = heldWrite :: [] ∧ heldWrite.kind = 2 ∧ heldWrite.data = some [1, 0, 0, 0, 0, 0, 0, 0] ∧ (getLink h (.port 0)).reads = []
    ∧ winKind h wr = 1 ∧ winAdmits h wr = true ∧ spadAdmits h wr = true ∧ servesInbound h (.port 0) = true
    ∧ next (exec (.counterWindowAddApply (.port 0)) h) (fun t => readWord t (sp 64) == 1 && (getLink t (.port 0)).posted == []) = true := by
  decide +kernel

/-- A write through a module window within one page: its translation is there, or its `wfail` has come. BAR0 of the host endpoint. -/
theorem witness_LinkRequests_module :
    let m := { windowed 3 0x30000 with tlbs := [⟨.host 0, 0, 3, false, leafTo 5⟩] }
    let wr := asks 8 (some [1, 2, 3, 4, 5, 6, 7, 8])
    let bar : Inbound := { wr with bar0 := true }
    let f := { windowed 3 0x30000 with hostFails := [.inbound (.port 0) 0] }
    let ask := fun s : State => askHost s (linkDie (.port 0)) (winTenant s wr) accHostWrite (.inbound (.port 0) 0) (linkWho (.port 0)) (w64 (winVa s wr)) 8
    winKind m wr = 3 ∧ winAdmits m { wr with off := 65536 } = false ∧ winAdmits m wr = true ∧ moduleAdmits m wr = true ∧ winVa m wr % 65536 + 8 ≤ 65536
    ∧ gotAt (ask m) 0x50008 = true ∧ backed m 0x50008 = true ∧ linkStateOf m 0x50008 = 2 ∧ pathUp m 0x50008 = true ∧ refusedAsk (ask f) = true ∧ accepted m (.port 0) { heldWrite with kind := 3, addr := 0x30000 } = true ∧ accepted f (.port 0) { heldWrite with kind := 3, addr := 0x30000 } = false
    ∧ servesInbound m bar.link = true ∧ (getLink m (.port 0)).role = 1 ∧ (getLink m (.welt 0)).role ≠ 1 ∧ servesInbound m (.welt 0) = true := by
  decide +kernel

/-- A flit of 248 bytes with number n and kind 1. -/
def flitOf (n : Nat) (d : Option WeltMsg) : Flit :=
  let b := bytesOf 4 n ++ bytesOf 4 0 ++ [1] ++ List.replicate 239 0
  ⟨b, crc64 b, d⟩

theorem witness_LinkRequests_crc (n : Nat) (d : Option WeltMsg) : crc64 (flitOf n d).bytes = (flitOf n d).crc := by
  simp only [flitOf]

/-- A reply of more flits than the replay buffer holds begins; the rest follow as an ACK makes room. -/
theorem witness_LinkRequests_backlog :
    let s := linked 2 fun l => { l with replay := [⟨0, [], 0, none⟩], backlog := [⟨1, [], 0, none⟩], txSeq := 2 }
    let k := coverAck (getLink s (.welt 0)) 0
    k.replay = [] ∧ k.backlog.take (2048 - k.replay.length) = [⟨1, [], 0, none⟩]
    ∧ (getLink (linked 2 id) (.welt 0)).backlog = []
    ∧ (let t := getLink (sendBacklog (setLink s k) 0) (.welt 0); t.backlog = [] ∧ t.replay.map (·.seq) = [1]) := by
  decide +kernel

theorem witness_LinkRequests_welt :
    let s := linked 2 id
    let f := flitOf 0 none
    let w := linked 2 fun l => { l with replay := [{ seq := 7, bytes := [], times := 15 }] }
    let k := coverAck (getLink s (.welt 0)) (natOf ((f.bytes.drop 4).take 4))
    (getLink s (.welt 0)).state = 2 ∧ (getLink s (.welt 0)).role = 4 ∧ (getLink (linked 1 id) (.welt 0)).state ≠ 2
    ∧ f.bytes.length = 248 ∧ natOf ((f.bytes.drop 8).take 1) = 1 ∧ natOf (f.bytes.take 4) = k.rxSeq
    ∧ natOf ((flitOf 1 none).bytes.take 4) ≠ k.rxSeq ∧ ({ f with bytes := [] } : Flit).bytes.length ≠ 248
    ∧ (getLink s (.welt 0)).replay = [] ∧ (getLink w (.welt 0)).replay ≠ [] ∧ ((getLink w (.welt 0)).replay.map fun f => { f with times := f.times + 1 }).any (fun f => 16 ≤ f.times) = true
    ∧ 2 ≤ natOf ((({ f with bytes := List.replicate 248 2 } : Flit).bytes.drop 8).take 1)
    ∧ (natOf (({ f with bytes := List.replicate 248 0 } : Flit).bytes.drop 8 |>.take 1) = 0) := by
  decide +kernel

/-! ## Starting, and every step -/

/-- A start asked for and not begun. -/
def triggered (c : Bool) : State := { s0 with sstep := 0, cold := c }

theorem witness_StartEvents :
    let s := triggered true
    s0.power = true ∧ s0.sstep = 9 ∧ keyHeld s = true ∧ keyHeld { s with life := 1, owner := none } = false
    ∧ osPlace s 0x100000000 16 = true ∧ s.power = true ∧ s.sstep ≠ 9 ∧ s.failed = false ∧ s.cold = true ∧ (triggered false).cold = false
    ∧ counterRef (poke (swLoc 0x18000010) 8 (2 ^ 47 + 0x40) s0) (readWord (poke (swLoc 0x18000010) 8 (2 ^ 47 + 0x40) s0) (swLoc 0x18000010)) = some (clusterLoc 0 0x40)
    ∧ counterRef s0 (readWord s0 (swLoc 0x18000010)) = none
    ∧ next (exec (.start { imageGood := true, configGood := true, trainGood := true, failed := [], lifeCmd := true }) s)
      (fun t => t.life == 3 && t.owner == none && t.sstep == 0 && t.cold) = true
    ∧ next (exec (.start { imageGood := false, configGood := true, trainGood := true, failed := [], lifeCmd := false, firmware := [1], config := [2] }) s)
      (fun t => t.sstep == 1 && t.failed && t.measured == [1, 2]) = true
    ∧ (192 < Config.cores ∧ fusedOf s 192 ≠ 0 ∧ 192 ∉ heldCores s []) ∧ clusterOf 192 ∈ s.mask := by
  decide +kernel

/-- R365: the capacity behind CXL root port 2 is found when its link comes up, and not when it stays down. -/
theorem witness_StartEvents_capacity :
    let i : StartInputs := { imageGood := true, configGood := true, trainGood := true, failed := [], lifeCmd := false, cxl := [(2, 2 ^ 30)] }
    next (exec (.start { i with links := [(.port 2, 16, 6, 0)] }) (triggered true)) (fun t => t.sstep == 9 && t.cxl == [(2, 2 ^ 30)]
      && (getLink t (.port 2)).state == 2 && (getLink t (.port 2)).role == 2) = true
    ∧ next (exec (.start i) (triggered true)) (fun t => t.sstep == 9 && t.cxl == []) = true := by
  decide +kernel

/-- No core below 192 is of a steward cluster: the first core is 192. -/
theorem witness_StartEvents_first : ∀ h, h < 192 → clusterOf h ∈ (triggered true).mask →
    ¬ (h < Config.cores ∧ fusedOf (triggered true) h ≠ 0 ∧ h ∉ heldCores (triggered true) []) := by
  have m : (0 : Nat) ∉ (triggered true).mask := by decide
  intro h hh hm
  rw [show clusterOf h = 0 by unfold clusterOf; omega] at hm
  exact absurd hm m

theorem witness_StepKeepsMemory :
    let s := setX 3 30 (setX 4 12 (fetched 0x01008B0E2000000000000000 s0))
    memWf s.mem = true ∧ next (step s) (fun t => memWf t.mem) = true := by
  decide +kernel

theorem witness_StepGoesOn :
    let s := { s0 with turns := [.tick 192 8, .issue 192] }
    (∀ g ∈ s.turns.head?.toList.filterMap (fun t => match t with
      | .issue g => some g
      | .tick g _ => some g
      | .cacheFill g _ => some g
      | .cacheDrop g _ => some g
      | .lineDrop g _ => some g
      | .forward _ _ => none
      | .event _ => none), g < Config.cores) ∧ next (step s) (fun _ => true) = true
    ∧ (match step { s0 with turns := [.issue 1032192] } with
      | .fault .noSuchCore => true
      | _ => false) = true := by
  decide +kernel

end Sys2Proof.Tests
end

