-- ==== Sys2Proof/Proofs/StepEvent.lean ====
section
/-!
SUPPORT. What a step does when the schedule names an event: O6.
-/
namespace Sys2Proof.Safety
open Sys2Proof Sys2Proof.Machine

theorem step_of_turns_cons {s : State} {t : Turn} {r : List Turn} (ht : s.turns = t :: r) : step s = runTurn { s with turns := r } t := by
  simp only [step, ht]

theorem runTurn_of_powered {s : State} {t : Turn} (h : s.power = true ∨ t = .event .powerOn) : runTurn s t = turnOf s t := by
  simpa [runTurn] using fun hp ht => absurd h (by simp [hp, ht])

theorem runTurn_of_unpowered {s : State} {t : Turn} (hp : s.power = false) (ht : t ≠ .event .powerOn) : runTurn s t = .next s := by
  simp [runTurn, hp, ht]

/-- Settles O6: a step runs the head of the schedule, which needs power or is POWER_ON, and an event's turn is its condition and its effect. -/
theorem stepRunsEvent : Obligations.StepRunsEvent := by
  intro s i r hr
  constructor
  · intro h
    have ht : runTurn { s with turns := r } (.event i) = turnOf { s with turns := r } (.event i) :=
      runTurn_of_powered (h.imp_right (congrArg Turn.event))
    exact (step_of_turns_cons hr).trans ht
  · intro hp hi
    have ht : Turn.event i ≠ .event .powerOn := fun e => hi (Turn.event.inj e)
    exact (step_of_turns_cons hr).trans (runTurn_of_unpowered hp ht)

end Sys2Proof.Safety
end

