-- ==== Sys2Proof/Proofs/Kept.lean ====
section
/-!
SUPPORT. What it is for a result of the model to keep memory in canonical form, for each kind of result that a function answers a state in.
-/
namespace Sys2Proof.Safety
open Sys2Proof Sys2Proof.Machine

/-- A record update that leaves `mem` as it is keeps memory in canonical form. -/
theorem Inv.record {s : State}
    {fib focus pair turns free cores poison latent ports accepts rels fused cur clock enrol strag msgs wakes fired tlbs grants moving epoch invs
    lastHandle pools cmds nextCmd tables taken takes evicts guards badBlocks hostFails kerns queues hslots pending doneSeq admitSeq launches
    rises holds links mask64 pend64 msix out mask modid selfHosted life roles welts hwalk nveng cxl swapNs swapBlocks held trained owner
    power images measured sstep cold failed} (h : Inv s) :
    Inv ⟨fib, focus, pair, turns, free, cores, s.mem, poison, latent, ports, accepts, rels, fused, cur, clock, enrol, strag, msgs, wakes, fired,
      tlbs, grants, moving, epoch, invs, lastHandle, pools, cmds, nextCmd, tables, taken, takes, evicts, guards, badBlocks, hostFails,
      kerns, queues, hslots, pending, doneSeq, admitSeq, launches, rises, holds, links, mask64, pend64, msix, out, mask, modid, selfHosted,
      life, roles, welts, hwalk, nveng, cxl, swapNs, swapBlocks, held, trained, owner, power, images, measured, sstep, cold, failed⟩ := h

/-- p holds of what an option holds, if it holds anything. -/
inductive Each {α : Type} (p : α → Prop) : Option α → Prop where
  | none : Each p none
  | some {a : α} (h : p a) : Each p (some a)

theorem Each.of_some {α : Type} {p : α → Prop} {o : Option α} {a : α} (e : o = Option.some a) (h : Each p o) : p a := by
  subst e; cases h with | some h => exact h

theorem Each.bind {α β : Type} {p : α → Prop} {q : β → Prop} {o : Option α} {f : α → Option β} (h : Each p o) (hf : ∀ a, p a → Each q (f a)) :
    Each q (o.bind f) := by
  cases h with
  | none => exact .none
  | some h => exact hf _ h

theorem Each.map {α β : Type} {p : α → Prop} {q : β → Prop} {o : Option α} {f : α → β} (h : Each p o) (hf : ∀ a, p a → q (f a)) :
    Each q (o.map f) := by
  cases h with
  | none => exact .none
  | some h => exact .some (hf _ h)

theorem Inv.getD {o : Option State} {s : State} (ho : Each Inv o) (h : Inv s) : Inv (o.getD s) := by
  cases ho with
  | none => exact h
  | some h => exact h

theorem Inv.foldl {α : Type} {f : State → α → State} {l : List α} {s : State} (h : Inv s) (hf : ∀ t a, Inv t → Inv (f t a)) :
    Inv (l.foldl f s) := by
  induction l generalizing s with
  | nil => exact h
  | cons a l ih => exact ih (hf s a h)

theorem Inv.getD_snd {α : Type} {o : Option (α × State)} {r : α × State} (ho : Each (Inv ·.2) o) (h : Inv r.2) : Inv (o.getD r).2 := by
  cases ho with
  | none => exact h
  | some h => exact h

theorem Inv.foldl_snd {α β : Type} {f : β × State → α → β × State} {l : List α} {r : β × State} (h : Inv r.2)
    (hf : ∀ r a, Inv r.2 → Inv (f r a).2) : Inv (l.foldl f r).2 := by
  induction l generalizing r with
  | nil => exact h
  | cons a l ih => exact ih (hf r a h)

theorem Inv.snd_of_eq {α : Type} {p : α × State} {a : α} {t : State} (e : p = (a, t)) (h : Inv p.2) : Inv t := by subst e; exact h

theorem Inv.ite {c : Prop} [Decidable c] {s t : State} (hs : Inv s) (ht : Inv t) : Inv (if c then s else t) := by
  split
  · exact hs
  · exact ht

/-! ## The answers of the shared operations -/

/-- What the answer to a translation request holds. -/
inductive AskInv : Ask → Prop where
  | got {a : Nat} : AskInv (.got a)
  | refused : AskInv .refused
  | notYet {s : State} (h : Inv s) : AskInv (.notYet s)
theorem AskInv.of_notYet {x : Ask} {s : State} (e : x = .notYet s) (h : AskInv x) : Inv s := by
  subst e; cases h with | notYet h => exact h

theorem AskInv.ite {c : Prop} [Decidable c] {x y : Ask} (hx : AskInv x) (hy : AskInv y) : AskInv (if c then x else y) := by
  split
  · exact hx
  · exact hy

/-- What the answer about the spans of an access holds. -/
inductive SpansInv : Spans → Prop where
  | ok {l : List (Nat × Nat)} : SpansInv (.ok l)
  | refused : SpansInv .refused
  | notYet {s : State} (h : Inv s) : SpansInv (.notYet s)
theorem SpansInv.of_notYet {x : Spans} {s : State} (e : x = .notYet s) (h : SpansInv x) : Inv s := by
  subst e; cases h with | notYet h => exact h

/-- The state that a read through translations holds. -/
inductive GotInv {α : Type} : Got α → Prop where
  | bytes {b : α} {s : State} (h : Inv s) : GotInv (.bytes b s)
  | refused {s : State} (h : Inv s) : GotInv (.refused s)
  | notYet {s : State} (h : Inv s) : GotInv (.notYet s)
theorem GotInv.of_bytes {α : Type} {x : Got α} {b : α} {s : State} (e : x = .bytes b s) (h : GotInv x) : Inv s := by
  subst e; cases h with | bytes h => exact h
theorem GotInv.of_refused {α : Type} {x : Got α} {s : State} (e : x = .refused s) (h : GotInv x) : Inv s := by
  subst e; cases h with | refused h => exact h
theorem GotInv.of_notYet {α : Type} {x : Got α} {s : State} (e : x = .notYet s) (h : GotInv x) : Inv s := by
  subst e; cases h with | notYet h => exact h

/-- The state that the landing of a request holds. -/
inductive LandedInv : Landed → Prop where
  | done {s : State} (h : Inv s) : LandedInv (.done s)
  | notYet {s : State} (h : Inv s) : LandedInv (.notYet s)
theorem LandedInv.of_done {x : Landed} {s : State} (e : x = .done s) (h : LandedInv x) : Inv s := by
  subst e; cases h with | done h => exact h
theorem LandedInv.of_notYet {x : Landed} {s : State} (e : x = .notYet s) (h : LandedInv x) : Inv s := by
  subst e; cases h with | notYet h => exact h

/-- The state that one piece of an access holds. -/
inductive PieceInv : PieceRes → Prop where
  | got {a : Nat} {s : State} (h : Inv s) : PieceInv (.got a s)
  | bad {c : Nat} {ta : Word} : PieceInv (.bad c ta)
  | miss {m : Miss} : PieceInv (.miss m)
theorem PieceInv.of_got {x : PieceRes} {a : Nat} {s : State} (e : x = .got a s) (h : PieceInv x) : Inv s := by
  subst e; cases h with | got h => exact h

/-- The state that the place of an engine's access holds. -/
inductive SpotInv : Spot → Prop where
  | at_ {a n : Nat} {s : State} (h : Inv s) : SpotInv (.at_ a n s)
  | bad {c : Nat} : SpotInv (.bad c)
  | later {s : State} (h : Inv s) : SpotInv (.later s)
theorem SpotInv.of_at_ {x : Spot} {a n : Nat} {s : State} (e : x = .at_ a n s) (h : SpotInv x) : Inv s := by
  subst e; cases h with | at_ h => exact h
theorem SpotInv.of_later {x : Spot} {s : State} (e : x = .later s) (h : SpotInv x) : Inv s := by
  subst e; cases h with | later h => exact h

theorem SpotInv.ite {c : Prop} [Decidable c] {x y : Spot} (hx : SpotInv x) (hy : SpotInv y) : SpotInv (if c then x else y) := by
  split
  · exact hx
  · exact hy

/-- The state that the spans of an engine's access hold. -/
inductive EngInv : EngSpans → Prop where
  | ok {l : List (Nat × Nat)} {s : State} (h : Inv s) : EngInv (.ok l s)
  | bad {c : Nat} : EngInv (.bad c)
  | later {s : State} (h : Inv s) : EngInv (.later s)
theorem EngInv.of_ok {x : EngSpans} {l : List (Nat × Nat)} {s : State} (e : x = .ok l s) (h : EngInv x) : Inv s := by
  subst e; cases h with | ok h => exact h
theorem EngInv.of_later {x : EngSpans} {s : State} (e : x = .later s) (h : EngInv x) : Inv s := by
  subst e; cases h with | later h => exact h

/-! ## Effects -/

/-- The states that a result of an effect holds: the next state, or what a stop keeps. -/
inductive Good {α : Type} : Except Stop (α × State) → Prop where
  | ok {a : α} {s : State} (h : Inv s) : Good (.ok (a, s))
  | trap {c : Nat} {a : Word} {u : Bool} {keep : Option State} (h : Each Inv keep) : Good (.error (.trap c a u keep))
  | leave {l : Leave} {keep : Option State} (h : Each Inv keep) : Good (.error (.leave l keep))

theorem Good.of_ok {α : Type} {x : Except Stop (α × State)} {a : α} {s : State} (e : x = .ok (a, s)) (h : Good x) : Inv s := by
  subst e; cases h with | ok h => exact h
theorem Good.of_trap {α : Type} {x : Except Stop (α × State)} {c : Nat} {a : Word} {u : Bool} {keep : Option State}
    (e : x = .error (.trap c a u keep)) (h : Good x) : Each Inv keep := by
  subst e; cases h with | trap h => exact h
theorem Good.of_leave {α : Type} {x : Except Stop (α × State)} {l : Leave} {keep : Option State}
    (e : x = .error (.leave l keep)) (h : Good x) : Each Inv keep := by
  subst e; cases h with | leave h => exact h

/-- An effect keeps memory in canonical form, whether it ends or stops. -/
def Keeps {α : Type} (m : M α) : Prop := ∀ s, Inv s → Good (m s)

theorem Keeps.pure {α : Type} (a : α) : Keeps (pure a : M α) := fun _ h => .ok h

theorem Keeps.bind {α β : Type} {m : M α} {f : α → M β} (hm : Keeps m) (hf : ∀ a, Keeps (f a)) : Keeps (m >>= f) := by
  intro s h
  have hms := hm s h
  change Good (m s >>= fun r => f r.1 r.2)
  cases e : m s with
  | error x =>
    rw [e] at hms
    cases hms with
    | trap hk => exact .trap hk
    | leave hk => exact .leave hk
  | ok r => exact hf r.1 r.2 (hms.of_ok e)

/-- After `get` the effect may speak of a state whose memory is in canonical form. -/
theorem Keeps.get_bind {β : Type} {f : State → M β} (hf : ∀ s, Inv s → Keeps (f s)) : Keeps ((get : M State) >>= f) :=
  fun s h => hf s h s h

theorem Keeps.ite {α : Type} {c : Prop} [Decidable c] {m n : M α} (hm : Keeps m) (hn : Keeps n) : Keeps (if c then m else n) := by
  split
  · exact hm
  · exact hn

/-- A part that is run only if c holds, before the rest. -/
theorem Keeps.ite_bind {β : Type} {c : Prop} [Decidable c] {m : M Unit} {f : Unit → M β} (hm : Keeps m) (hf : ∀ a, Keeps (f a)) :
    Keeps (if c then m >>= f else f ()) := Keeps.ite (hm.bind hf) (hf ())

theorem Keeps.ite_bind_pure {α β : Type} {c : Prop} [Decidable c] {m : M α} {a : α} {f : α → M β} (hm : Keeps m) (hf : ∀ a, Keeps (f a)) :
    Keeps (if c then m >>= f else Pure.pure a >>= f) := Keeps.ite (hm.bind hf) ((Keeps.pure a).bind hf)

/-- An instruction that a wake has reached goes by what the wake brought (R96). -/
theorem Keeps.onWake {α : Type} {w : Option Wake} {f : Word → M α} {m n : M α} (hf : ∀ v, Keeps (f v)) (hm : Keeps m) (hn : Keeps n) :
    Keeps (match w with
      | some (.value v) => f v
      | some .poison => m
      | _ => n) := by
  cases w with
  | none => exact hn
  | some w =>
    cases w with
    | value v => exact hf v
    | poison => exact hm
    | replay => exact hn

theorem Keeps.set {t : State} (h : Inv t) : Keeps (set t : M PUnit) := fun _ _ => .ok h

/-! ## Outcomes -/

/-- The outcome of a step from s: it goes on, and to a state whose memory is in canonical form if that of s is. -/
inductive Ends (s : State) : Host.Outcome State Fault Refusal → Prop where
  | next {t : State} (h : Inv s → Inv t) : Ends s (.next t)

theorem Ends.goes {s : State} {o : Host.Outcome State Fault Refusal} (h : Ends s o) : ∃ t, o = .next t := by
  cases h with | next _ => exact ⟨_, rfl⟩

theorem Ends.of_next {s t : State} {o : Host.Outcome State Fault Refusal} (h : Ends s o) (e : o = .next t) (hs : Inv s) : Inv t := by
  subst e; cases h with | next h => exact h hs

/-- An outcome that a state with the same memory, or one reached on the way, ends in. -/
theorem Ends.after {s u : State} {o : Host.Outcome State Fault Refusal} (hu : Inv s → Inv u) (h : Ends u o) : Ends s o := by
  cases h with | next h => exact .next fun hs => h (hu hs)

theorem Ends.andThen {s : State} {o : Host.Outcome State Fault Refusal} {f : State → Host.Outcome State Fault Refusal} (ho : Ends s o)
    (hf : ∀ t, (Inv s → Inv t) → Ends s (f t)) :
    Ends s (match (generalizing := false) o with
      | .next t => f t
      | r => r) := by
  cases ho with | next ht => exact hf _ ht

theorem Ends.ite {s : State} {c : Prop} [Decidable c] {o p : Host.Outcome State Fault Refusal} (ho : Ends s o) (hp : Ends s p) :
    Ends s (if c then o else p) := by
  split
  · exact ho
  · exact hp

theorem Ends.ite_of_pos {s : State} {c : Prop} [Decidable c] {o p : Host.Outcome State Fault Refusal} (hc : c) (ho : Ends s o) :
    Ends s (if c then o else p) := by
  rw [if_pos hc]
  exact ho

end Sys2Proof.Safety
end

