-- ==== Sys2Proof/Proofs/KeptMemory.lean ====
section
/-!
SUPPORT. The operations on memory, fibres and translations keep memory in canonical form.
-/
namespace Sys2Proof.Safety
open Sys2Proof Sys2Proof.Machine

/-! ## `Machine/Mem` -/

protected theorem Inv.setByte {s : State} {a : Nat} {v : Byte} (h : Inv s) : Inv (setByte s a v) := setByte_memWf a v h

protected theorem Inv.writeBytes {s : State} {n : Nat} {bs : List Byte} (h : Inv s) : Inv (writeBytes s n bs) := by
  induction bs generalizing s n with
  | nil => exact h
  | cons x xs ih => exact ih h.setByte

protected theorem Inv.writeNat {s : State} {n n2 v : Nat} (h : Inv s) : Inv (writeNat s n n2 v) := h.writeBytes

protected theorem Inv.writeWord {s : State} {n : Nat} {v : Word} (h : Inv s) : Inv (writeWord s n v) := h.writeNat

protected theorem Inv.setCore {s : State} {g : Nat} {c : Core} (h : Inv s) : Inv (setCore s g c) := h.record

protected theorem Inv.setFibreInfo {s : State} {g f : Nat} {i : FibreInfo} (h : Inv s) : Inv (setFibreInfo s g f i) := h.setCore

protected theorem Inv.setCtx {s : State} {g : Nat} {k : Fin 16} {f : Fib} (h : Inv s) : Inv (setCtx s g k f) := by
  unfold setCtx
  split
  · exact h.record
  · exact h.setCore

protected theorem Inv.setFocus {s : State} {g : Nat} {k : Fin 16} (h : Inv s) : Inv (setFocus s g k) := by
  unfold setFocus
  split
  · exact h
  · exact h.setCore.setCore.record

protected theorem Inv.setToxic {s : State} {n : Nat} (h : Inv s) : Inv (setToxic s n) := by
  unfold setToxic
  split
  · exact h
  · exact h.record

protected theorem Inv.clearToxic {s : State} {n : Nat} (h : Inv s) : Inv (clearToxic s n) := h.record

protected theorem Inv.storeBytes {s : State} {n : Nat} {bs : List Byte} (h : Inv s) : Inv (storeBytes s n bs) := h.record.writeBytes

protected theorem Inv.bumpAt {s : State} {n n2 : Nat} (h : Inv s) : Inv (bumpAt s n n2) := h.writeNat

protected theorem Inv.bumpDie {s : State} {d off n : Nat} (h : Inv s) : Inv (bumpDie s d off n) := h.bumpAt

protected theorem Inv.bumpIo {s : State} {i off n : Nat} (h : Inv s) : Inv (bumpIo s i off n) := h.bumpAt

protected theorem Inv.countMemError {s : State} {n : Nat} {poisoned : Bool} (h : Inv s) : Inv (countMemError s n poisoned) := by
  unfold countMemError
  split
  · exact h.bumpDie
  · split
    · exact h.bumpDie
    · exact h.bumpIo
    · exact h

protected theorem Inv.correctWords {s : State} {p : Nat → Bool} (h : Inv s) : Inv (correctWords s p) := by
  unfold correctWords
  dsimp only
  split
  · exact h
  · exact h.record.foldl (fun _ _ ht2 => ht2.countMemError)

protected theorem Inv.correctRead {s : State} {n n2 : Nat} (h : Inv s) : Inv (correctRead s n n2) := h.correctWords

protected theorem Inv.freshByte {s : State} (h : Inv s) : Inv (freshByte s).2 := h.record

protected theorem Inv.freshBytes {s : State} {n : Nat} (h : Inv s) : Inv (freshBytes s n).2 := by
  induction n generalizing s with
  | zero => exact h
  | succ n ih => exact ih h.record

/-! ## `Machine/Home` -/

protected theorem Inv.setLink {s : State} {l : Link} (h : Inv s) : Inv (setLink s l) := h.record

protected theorem Inv.sendMsix {s : State} {v n : Nat} (h : Inv s) : Inv (sendMsix s v n) := by
  unfold sendMsix
  split
  · split
    · exact h
    · exact h.record
  · exact h.record

protected theorem Inv.allocStrag {s : State} {n : Nat} (h : Inv s) : Inv (allocStrag s n) := by
  unfold allocStrag
  split
  · exact h
  · exact h.record

protected theorem Inv.startStrag {s : State} {n : Nat} (h : Inv s) : Inv (startStrag s n) := by
  unfold startStrag
  split
  · split
    · exact h.record
    · exact h
  · exact h

protected theorem Inv.completeStrag {s : State} {n : Nat} {who : Adder} {thr : Word} (h : Inv s) : Inv (completeStrag s n who thr) := by
  unfold completeStrag
  split
  · exact h
  · exact h.record

protected theorem Inv.enrolWaiter {s : State} {who : Waiter} {n : Nat} {thr : Word} (h : Inv s) : Inv (enrolWaiter s who n thr) := by
  unfold enrolWaiter
  split
  · exact h.record.allocStrag
  · exact h.record

protected theorem Inv.removeWaiter {s : State} {who : Waiter} (h : Inv s) : Inv (removeWaiter s who) := h.record

protected theorem Inv.fireIrq {s : State} {v : Nat} {w : Word} (h : Inv s) : Inv (fireIrq s v w) := by
  unfold fireIrq
  dsimp only
  split
  · split
    · exact h.writeWord.sendMsix
    · exact h.writeWord.sendMsix.enrolWaiter
  · exact h.writeWord.sendMsix

protected theorem Inv.wakeOne {s : State} {e : Enrol} {v : Option Word} (h : Inv s) : Inv (wakeOne s e v) := by
  unfold wakeOne
  split
  · exact h.record
  · exact h.record
  · split
    · exact h.fireIrq
    · exact h.enrolWaiter
  · exact h.record
  · exact h.record
  · exact h.record

protected theorem Inv.testWaiters {s : State} {n : Nat} {v : Word} {who : Adder} (h : Inv s) : Inv (testWaiters s n v who) := by
  unfold testWaiters
  dsimp only
  split
  · exact h
  · exact h.record.completeStrag.foldl (fun _ _ ht => ht.wakeOne)

protected theorem Inv.poisonEvent {s : State} {n : Nat} (h : Inv s) : Inv (poisonEvent s n) := by
  unfold poisonEvent
  split
  · exact h.record.clearToxic.writeWord.bumpDie.foldl (fun _ _ ht2 => ht2.wakeOne)
  · exact h.record.foldl (fun _ _ ht2 => ht2.wakeOne)

protected theorem Inv.setCounter {s : State} {n : Nat} {v : Word} {who : Adder} (h : Inv s) : Inv (setCounter s n v who) :=
  h.startStrag.writeWord.testWaiters

protected theorem Inv.addAt {s0 : State} {n : Nat} {inc : Word} {who : Adder} (h : Inv s0) : Inv (addAt s0 n inc who) := by
  unfold addAt
  dsimp only
  split
  · exact h.correctRead.poisonEvent.bumpDie
  · exact h.correctRead.setCounter

protected theorem Inv.readCounter {s0 : State} {n : Nat} (h : Inv s0) : Inv (readCounter s0 n).2 := by
  unfold readCounter
  dsimp only
  split
  · exact h.correctRead.poisonEvent
  · exact h.correctRead

protected theorem Inv.closeEntries {s : State} {g : Nat} (h : Inv s) : Inv (closeEntries s g) := by
  unfold closeEntries
  dsimp only
  split
  · exact h
  · exact h.setCore

protected theorem Inv.beginRelease {s : State} {g sc : Nat} {loc : Option Nat} {inc : Word} {who : Adder} {ends : Bool} (h : Inv s) :
    Inv (beginRelease s g sc loc inc who ends) :=
  h.closeEntries.record

protected theorem Inv.leftToxic {s : State} {w : Nat} (h : Inv s) : Inv (leftToxic s w) := by
  unfold leftToxic
  split
  · exact h.poisonEvent
  · exact h

protected theorem Inv.seeWaited {s : State} {w : Nat} (h : Inv s) : Inv (seeWaited s w) := by
  unfold seeWaited
  split
  · exact h.correctRead
  · exact h

protected theorem Inv.storeAt {s : State} {n : Nat} {bs : List Byte} {who : Adder} (h : Inv s) : Inv (storeAt s n bs who) := by
  unfold storeAt
  split
  · refine Inv.foldl h.storeBytes ?_
    intro t a ht2
    split
    · exact ht2.leftToxic
    · exact ht2.seeWaited.testWaiters
  · exact h.storeBytes

protected theorem Inv.poisonRange {s : State} {n n2 : Nat} (h : Inv s) : Inv (poisonRange s n n2) := by
  unfold poisonRange
  extract_lets s1
  have hs1 : Inv s1 := h.foldl (fun _ _ ht => ht.setToxic)
  split
  · exact hs1.foldl (fun _ _ ht2 => ht2.leftToxic)
  · exact hs1

protected theorem Inv.flushMsgs {s : State} {g h : Nat} (hs : Inv s) : Inv (flushMsgs s g h) := hs.record.foldl (fun _ _ ht => ht.addAt)

/-! ## `Machine/Flits` -/

protected theorem Inv.sendMsg {s : State} {w : Fin 16} {kind win off : Nat} {d : List Byte} {o : Out} (h : Inv s) :
    Each Inv (sendMsg s w kind win off d o) := by
  unfold sendMsg
  dsimp only
  split
  · exact Each.none
  · exact Each.some h.setLink.record

protected theorem Inv.sendBacklog {s : State} {w : Fin 16} (h : Inv s) : Inv (sendBacklog s w) := by
  unfold sendBacklog
  dsimp only
  split
  · exact h
  · exact h.setLink.record

protected theorem Inv.sendWrites {kind : Nat} {w : Fin 16} {n n2 : Nat} {bs : List Byte} {s : State} (h : Inv s) :
    Each Inv (sendWrites kind w n n2 bs s) := by
  induction n generalizing n2 bs s with
  | zero => exact Each.some h
  | succ n ih =>
    unfold sendWrites
    split
    · exact Each.some h
    · exact Each.bind h.sendMsg (fun _ ht2 => ih ht2)

protected theorem Inv.sendWelt {s : State} {w : Fin 16} {addr : Nat} {d : List Byte} (h : Inv s) : Each Inv (sendWelt s w addr d) :=
  h.sendWrites

protected theorem Inv.sendReads {w : Fin 16} {n n2 n3 : Nat} {s : State} (h : Inv s) : Each Inv (sendReads w n n2 n3 s) := by
  induction n generalizing n2 n3 s with
  | zero => exact Each.some h
  | succ n ih =>
    unfold sendReads
    split
    · exact Each.some h
    · exact Each.bind h.sendMsg (fun _ ht2 => ih ht2)

/-! ## `Machine/Frames` -/

protected theorem Inv.takeHold {s : State} {b n : Nat} {who : Adder} (h : Inv s) : Inv (takeHold s b n who) := h.addAt

protected theorem Inv.releaseAll {who : Adder} {b n : Nat} {l : List Nat} {s : State} (h : Inv s) : Inv (releaseAll who b n l s) := by
  induction n generalizing l s with
  | zero => exact h
  | succ n ih =>
    cases l with
    | nil => exact h
    | cons x xs =>
      unfold releaseAll
      dsimp only
      split
      · exact ih h.addAt.writeBytes
      · exact ih h.addAt

protected theorem Inv.releaseHold {s : State} {b n : Nat} {who : Adder} (h : Inv s) : Inv (releaseHold s b n who) := h.releaseAll

protected theorem Inv.releaseStack {s : State} {b fp : Nat} {who : Adder} (h : Inv s) : Inv (releaseStack s b fp who) :=
  h.foldl (fun _ _ ht => ht.releaseHold)

/-! ## `Machine/Fibre` -/

protected theorem Inv.allocHandle {s : State} {kind : Nat} {cur shd : Word} {bound tenant owner : Nat} (h : Inv s) :
    Inv (allocHandle s kind cur shd bound tenant owner).2 := by
  unfold allocHandle
  split
  · exact h
  · exact h.storeBytes.record

protected theorem Inv.freeHandle {s : State} {n : Nat} (h : Inv s) : Inv (freeHandle s n) := h.writeNat.writeNat

protected theorem Inv.popFrame {s : State} {tier : Fin 4} {big : Bool} (h : Inv s) : Inv (popFrame s tier big).2 := by
  unfold popFrame
  dsimp only
  split
  · exact h.record
  · split
    · exact h.record
    · exact h

protected theorem Inv.pushFrame {s : State} {tier : Fin 4} {big : Bool} {frame : Nat} (h : Inv s) : Inv (pushFrame s tier big frame) :=
  h.record

protected theorem Inv.writeRecord {s : State} {c : Core} {f : Fib} {loc st : Nat} (h : Inv s) : Inv (writeRecord s c f loc st) :=
  h.storeBytes.foldl (fun _ _ ht => ht.foldl (fun _ _ ht2 => ht2.setToxic))

protected theorem Inv.writeState {s : State} {loc st : Nat} (h : Inv s) : Inv (writeState s loc st) := h.writeNat

protected theorem Inv.writeWoken {s : State} {loc : Nat} {w : Bool} (h : Inv s) : Inv (writeWoken s loc w) := h.writeNat

protected theorem Inv.enlist {s : State} {g f : Nat} (h : Inv s) : Inv (enlist s g f) := by
  unfold enlist
  split
  · exact h
  · dsimp only
    split
    · exact h.setCore.writeState
    · exact h.setCore.writeState.writeWoken

protected theorem Inv.refillReady {s : State} {g : Nat} (h : Inv s) : Inv (refillReady s g) := by
  unfold refillReady
  dsimp only
  split
  · split
    · split
      · exact h.setCore.writeWoken.enlist
      · exact h.setCore
    · exact h
  · exact h

protected theorem Inv.unbind {s : State} {g : Nat} {k : Fin 16} {st : FState} (h : Inv s) : Inv (unbind s g k st) := by
  unfold unbind
  dsimp only
  split
  · exact h.setCore
  · refine Inv.setCore ?_
    refine Inv.writeRecord ?_
    split
    · exact h
    · exact h.bumpDie

protected theorem Inv.takeOff {s : State} {g : Nat} {k : Fin 16} {st : FState} (h : Inv s) : Inv (takeOff s g k st) := by
  unfold takeOff
  dsimp only
  split
  · exact h.unbind.setFibreInfo
  · exact h.unbind

protected theorem Inv.deliverWake {s : State} {g f : Nat} {w : Wake} (h : Inv s) : Inv (deliverWake s g f w) := by
  unfold deliverWake
  split
  · dsimp only
    split
    · exact h.setCtx
    · exact h
  · split
    · exact h
    · split
      · split
        · split
          · exact h.writeWord.setFibreInfo
          · exact h.writeWord.setFibreInfo.enlist
        · split
          · exact h.setFibreInfo
          · exact h.setFibreInfo.enlist
      · exact h

protected theorem Inv.setKern {s : State} {a : Kern} (h : Inv s) : Inv (setKern s a) := h.record

protected theorem Inv.bindFibre {s : State} {g : Nat} {k : Fin 16} {f : Nat} (h : Inv s) : Inv (bindFibre s g k f) := by
  unfold bindFibre
  split
  · exact h
  · refine Inv.refillReady ?_
    split
    · exact h.setCore.record
    · exact h.setCore

protected theorem Inv.freeFibre {s : State} {g f : Nat} {keep : Bool} {who : Adder} (h : Inv s) : Inv (freeFibre s g f keep who).2 := by
  unfold freeFibre
  split
  · exact h
  · extract_lets s0 s02 _ _ r _ _ r2 s1 s2 s3 s4
    have hs0 : Inv s0 := h.removeWaiter.removeWaiter
    have hs02 : Inv s02 := hs0.record
    have hr : Inv r.2 := by
      unfold r
      split
      · exact hs02.releaseStack
      · exact hs02
    have hr2 : Inv r2 := hr.record
    have hs1 : Inv s1 := hr2.setCore
    have hs2 : Inv s2 := by
      unfold s2
      split
      · exact hs1
      · exact hs1.writeState
    have hs3 : Inv s3 := by
      unfold s3
      split
      · exact hs2
      · exact hs2.freeHandle.pushFrame
    have hs4 : Inv s4 := by
      unfold s4
      split
      · exact hs3.writeNat
      · exact hs3
    exact hs4.refillReady

/-! ## `Machine/Xlate` -/

protected theorem Inv.tlbFill {s : State} {t : TlbId} {tenant : BitVec 12} {va leaf : Word} (h : Inv s) :
    Inv (tlbFill s t tenant va leaf) :=
  h.record

protected theorem Inv.lookupVa {s : State} {g : Nat} {tenant : BitVec 12} {kind : Nat} {va : Word} (h : Inv s) :
    Inv (lookupVa s g tenant kind va).2 := by
  unfold lookupVa
  split
  · split <;> exact h
  · split
    · split
      · exact h.tlbFill
      · exact h
    · exact h

protected theorem Inv.useGrant {s : State} {g : Nat} {m : Miss} (h : Inv s) : Inv (useGrant s g m) := h.record

protected theorem Inv.dropGrants {s : State} {src : Purpose} {cmd : Option Nat} (h : Inv s) : Inv (dropGrants s src cmd) := by
  unfold dropGrants
  split
  · exact h
  · exact h.record

protected theorem Inv.postMiss {s : State} {g : Nat} {m : Miss} (h : Inv s) : Each Inv (postMiss s g m) := by
  unfold postMiss
  dsimp only
  split
  · exact Each.some h
  · split
    · exact Each.none
    · exact Each.some h.setCore

protected theorem Inv.askFar {s : State} {n n2 : Nat} (h : Inv s) : Each Inv (askFar s n n2) := by
  unfold askFar
  split
  · exact h.sendReads
  · exact Each.some h.record

protected theorem Inv.farRead {s : State} {n n2 : Nat} (h : Inv s) : Each (Inv ·.2) (farRead s n n2) :=
  Each.map h.askFar (fun _ ht => ht.freshBytes)

protected theorem Inv.askVia {s : State} {g : Nat} {m : Miss} {n : Nat} {found : Option Nat} (h : Inv s) :
    AskInv (askVia s g m n found) := by
  unfold askVia
  extract_lets va
  refine AskInv.ite ?_ ?_
  · cases apertureLoc s va n (accNeeds m.at_) true m.tenant with
    | none => exact .refused
    | some a => exact .got
  · cases bareLoc va with
    | some a => exact .got
    | none =>
      cases found with
      | some a => exact .got
      | none =>
        cases grantFor s g m with
        | some l => exact .got
        | none => exact AskInv.ite .refused (.notYet (Inv.getD h.postMiss h))

protected theorem Inv.askHost {s : State} {i : Nat} {tenant : BitVec 12} {kind : Nat} {src : Purpose} {port : Nat} {va : Word} {n : Nat}
    (h : Inv s) : AskInv (askHost s i tenant kind src port va n) :=
  h.askVia

protected theorem Inv.askEngine {s : State} {g : Nat} {tenant : BitVec 12} {kind : Nat} {src : Purpose} {who : Nat} {va : Word} {n : Nat}
    (h : Inv s) : AskInv (askEngine s g tenant kind src who va n) :=
  h.askVia

protected theorem Inv.spansVia {ask : Word → Nat → Ask} {fuel va n : Nat} (hask : ∀ w m, AskInv (ask w m)) :
    SpansInv (spansVia ask fuel va n) := by
  induction fuel generalizing va n with
  | zero => exact .ok
  | succ fuel ih =>
    unfold spansVia
    dsimp only
    split
    · exact .ok
    · split
      · exact .refused
      · next e => exact .notYet ((hask _ _).of_notYet e)
      · split
        · exact .ok
        · exact ih

protected theorem Inv.devRead {s : State} {die n n2 : Nat} (h : Inv s) : Inv (devRead s die n n2).2 := by
  unfold devRead
  split
  · exact h.bumpDie
  · split
    · exact h
    · split
      · exact Inv.getD_snd h.farRead h
      · exact h.correctRead

end Sys2Proof.Safety
end

