-- ==== Sys2Proof/Proofs/KeptKernels.lean ====
section
/-!
SUPPORT. The operations on kernels and queues keep memory in canonical form.
-/
namespace Sys2Proof.Safety
open Sys2Proof Sys2Proof.Machine

/-! ## `Machine/Kern` -/

protected theorem Inv.setKernState {s : State} {k v : Nat} (h : Inv s) : Inv (setKernState s k v) := h.writeNat

protected theorem Inv.addNfib {s : State} {k n : Nat} (h : Inv s) : Inv (addNfib s k n) := h.writeNat

protected theorem Inv.addRef {s : State} {r : Nat} {inc : Word} {who : Adder} (h : Inv s) : Inv (addRef s r inc who) := by
  unfold addRef
  split
  · split
    · exact h
    · exact h.addAt
  · exact h

protected theorem Inv.dropGate {s : State} {k : Nat} (h : Inv s) : Inv (dropGate s k) := h.removeWaiter.record

protected theorem Inv.refuseKernel {s : State} {k : Nat} (h : Inv s) : Inv (refuseKernel s k) := by
  unfold refuseKernel
  dsimp only
  split
  · exact h.record.setKernState.record.bumpIo
  · exact h.record.setKernState.record.addRef

protected theorem Inv.formOn {s : State} {k : Nat} {grp : Machine.Group} (h : Inv s) : Inv (formOn s k grp) := by
  unfold formOn
  extract_lets s1 s2 s3
  have hs1 : Inv s1 := h.foldl (fun _ _ ht => ht.setCore)
  have hs2 : Inv s2 := hs1.clearToxic.writeWord
  have hs3 : Inv s3 := hs2.clearToxic.writeWord
  split
  · exact hs2
  · exact hs3.clearToxic.writeWord

protected theorem Inv.takeSlots {s : State} {a : Kern} {g : Nat} (h : Inv s) : Inv (takeSlots s a g) := h.setCore

protected theorem Inv.placeKernel {s : State} {a : Kern} {p : List (StageEntry × List Nat)} (h : Inv s) : Inv (placeKernel s a p) :=
  Inv.setKernState (Inv.setKern (Inv.foldl (h.foldl (fun _ _ ht => ht.formOn)) (fun _ _ ht => ht.takeSlots)))

protected theorem Inv.allocRecord {s : State} {tenant owner : Nat} (h : Inv s) : Each (Inv ·.2.2) (allocRecord s tenant owner) := by
  unfold allocRecord
  split
  · exact Each.none
  · next e =>
      split
      · exact Each.none
      · next e2 => exact Each.some ((h.popFrame.snd_of_eq e).allocHandle.snd_of_eq e2)

protected theorem Inv.createFibre {s : State} {g n : Nat} {a : Fib} {info : FibreInfo} (h : Inv s) : Inv (createFibre s g n a info) := by
  unfold createFibre
  refine Inv.enlist ?_
  split
  · exact h.writeRecord.setFibreInfo.addNfib
  · exact h.writeRecord.setFibreInfo

protected theorem Inv.readVia {ask : State → Word → Nat → Ask} {die fuel : Nat} {s : State} {va n : Nat}
    (hask : ∀ t w m, Inv t → AskInv (ask t w m)) (h : Inv s) : GotInv (readVia ask die fuel s va n) := by
  induction fuel generalizing s va n with
  | zero => exact .bytes h
  | succ fuel ih =>
    unfold readVia
    dsimp only
    split
    · exact .bytes h
    · split
      · exact .refused h
      · next e => exact .notYet ((hask s _ _ h).of_notYet e)
      · split
        · exact .notYet h
        · split
          · next e => exact .bytes ((ih h.devRead).of_bytes e)
          · exact ih h.devRead

protected theorem Inv.readClean {ask : State → Word → Nat → Ask} {die : Nat} {s : State} {va n : Nat}
    (hask : ∀ t w m, Inv t → AskInv (ask t w m)) (h : Inv s) : GotInv (readClean ask die s va n) := by
  unfold readClean
  split
  · next e =>
    have ht := GotInv.of_bytes e (Inv.readVia hask h)
    split
    · exact .refused ht
    · exact .bytes ht
  · next e => exact .refused (GotInv.of_refused e (Inv.readVia hask h))
  · next e => exact .notYet (GotInv.of_notYet e (Inv.readVia hask h))

protected theorem Inv.onlyAsked {s t : State} (h : Inv s) : Inv (onlyAsked s t) := h.record

protected theorem Inv.readTables {ask : State → Word → Nat → Ask} {k : Nat} {l : List StageEntry} {s : State} {l2 : List (List Byte)}
    (hask : ∀ t w m, Inv t → AskInv (ask t w m)) (h : Inv s) : GotInv (readTables ask k l s l2) := by
  induction l generalizing s l2 with
  | nil => exact GotInv.bytes h
  | cons x xs ih =>
    unfold readTables
    split
    · next e => exact ih (GotInv.of_bytes e (Inv.readClean hask h))
    · next e => exact GotInv.refused (GotInv.of_refused e (Inv.readClean hask h))
    · next e => exact GotInv.notYet (GotInv.of_notYet e (Inv.readClean hask h))

protected theorem Inv.readImages {ask : State → Word → Nat → Ask} {a : Kern} {g : Nat} {segs : Vector Seg 8} {addrs : List Nat} {n : Nat}
    {s : State} {l : List (Option (List (Byte × Bool)))} (hask : ∀ t w m, Inv t → AskInv (ask t w m)) (h : Inv s) :
    GotInv (readImages ask a g segs addrs n s l) := by
  induction n generalizing s l with
  | zero => exact GotInv.bytes h
  | succ n ih =>
    unfold readImages
    dsimp only
    split
    · exact ih h
    · split
      · next e => exact ih (GotInv.of_bytes e (Inv.readVia hask h))
      · next e => exact GotInv.refused (GotInv.of_refused e (Inv.readVia hask h))
      · next e => exact GotInv.notYet (GotInv.of_notYet e (Inv.readVia hask h))

protected theorem Inv.popAsk {a : Kern} {g : Nat} {s : State} {va : Word} {n : Nat} (h : Inv s) : AskInv (popAsk a g s va n) := h.askEngine

protected theorem Inv.stageTable {s : State} {a : Kern} {st g : Nat} (h : Inv s) : GotInv (stageTable s a st g) :=
  Inv.readClean (fun _ _ _ ht => ht.popAsk) h

protected theorem Inv.gatherCore {s : State} {a : Kern} {g st : Nat} (h : Inv s) : GotInv (gatherCore s a g st) := by
  unfold gatherCore
  have hask : ∀ t w m, Inv t → AskInv (popAsk a g t w m) := fun _ _ _ ht => ht.popAsk
  split
  · next e => exact .refused (GotInv.of_refused e (Inv.readClean hask h))
  · next e => exact .notYet (GotInv.of_notYet e (Inv.readClean hask h))
  · next e =>
    have hs1 := GotInv.of_bytes e (Inv.readClean hask h)
    extract_lets segs addrs
    split
    · next e2 => exact .refused (hs1.stageTable.of_refused e2)
    · next e2 => exact .notYet (hs1.stageTable.of_notYet e2)
    · next e2 =>
      have hs2 := hs1.stageTable.of_bytes e2
      split
      · exact .refused hs2
      · split
        · next e3 => exact .refused (GotInv.of_refused e3 (Inv.readImages hask hs2))
        · next e3 => exact .notYet (GotInv.of_notYet e3 (Inv.readImages hask hs2))
        · next e3 => exact .bytes (GotInv.of_bytes e3 (Inv.readImages hask hs2))

protected theorem Inv.gatherPop {a : Kern} {l : List (Nat × Nat)} {s : State} {l2 : List CoreFill} (h : Inv s) :
    GotInv (gatherPop a l s l2) := by
  induction l generalizing s l2 with
  | nil => exact GotInv.bytes h
  | cons x xs ih =>
    unfold gatherPop
    split
    · next e => exact ih (h.gatherCore.of_bytes e)
    · next e => exact GotInv.refused (h.gatherCore.of_refused e)
    · next e => exact GotInv.notYet (h.gatherCore.of_notYet e)

protected theorem Inv.fillAt {s : State} {g n : Nat} {b : List (Byte × Bool)} (h : Inv s) : Inv (fillAt s g n b) :=
  h.storeAt.foldl (fun _ _ ht => ht.poisonRange.bumpDie)

protected theorem Inv.fillCore {s : State} {f : CoreFill} (h : Inv s) : Inv (fillCore s f) := by
  unfold fillCore
  refine Inv.foldl h ?_
  intro t a ht
  split
  · exact ht
  · dsimp only
    split
    · exact ht
    · exact ht.fillAt

protected theorem Inv.createSet {segs : Vector Seg 8} {tab : List Byte} {k g stage n : Nat} {s : State} (h : Inv s) :
    Each Inv (createSet segs tab k g stage n s) := by
  induction n generalizing s with
  | zero => exact Each.some h
  | succ n ih =>
    unfold createSet
    split
    · next e2 => exact ih ((h.allocRecord.of_some e2).createFibre)
    · exact Each.none

protected theorem Inv.reserveRecord {s : State} {k g : Nat} (h : Inv s) : Each Inv (reserveRecord s k g) := by
  unfold reserveRecord
  split
  · split
    · next e => exact Each.some ((h.allocRecord.of_some e).setCore)
    · exact Each.none
  · exact Each.some h

protected theorem Inv.returnRecord {k : Nat} {s : State} {g : Nat} (h : Inv s) : Inv (returnRecord k s g) := by
  unfold returnRecord
  split
  · exact h.freeHandle.pushFrame.setCore
  · exact h

protected theorem Inv.createAll {k : Nat} {l : List CoreFill} {s : State} (h : Inv s) : Each Inv (createAll k l s) := by
  induction l generalizing s with
  | nil => exact .some h
  | cons f r ih =>
    unfold createAll
    split
    · next e => exact ih ((h.createSet.bind fun _ ht => ht.reserveRecord).of_some e)
    · exact .none

protected theorem Inv.endFibre {s : State} {g f : Nat} (h : Inv s) : Inv (endFibre s g f) := by
  unfold endFibre
  split
  · exact h.unbind
  · exact h

protected theorem Inv.freeEnded {s : State} {g f : Nat} (h : Inv s) : Inv (freeEnded s g f) := by
  unfold freeEnded
  dsimp only
  split
  · exact h.endFibre.freeFibre.setCore
  · exact h.endFibre.freeFibre

protected theorem Inv.freeAllOn {s : State} {k g : Nat} (h : Inv s) : Inv (freeAllOn s k g) := h.foldl (fun _ _ ht => ht.freeEnded)

protected theorem Inv.endProxy {s : State} {g : Nat} {p : Proxy} (h : Inv s) : Inv (endProxy s g p) := h.removeWaiter.record.storeAt.setCore

protected theorem Inv.endProxies {s : State} {k g : Nat} (h : Inv s) : Inv (endProxies s k g) := h.foldl (fun _ _ ht => ht.endProxy)

protected theorem Inv.leaveCore {s : State} {a : Kern} {g : Nat} (h : Inv s) : Inv (leaveCore s a g) := h.setCore

protected theorem Inv.releaseCores {s : State} {x : Kern} (h : Inv s) : Inv (releaseCores s x) := by
  unfold releaseCores
  extract_lets s1 s2 s3
  have hs1 : Inv s1 := h.foldl fun _ _ ht => ht.endProxies.leaveCore
  have hs2 : Inv s2 := Inv.ite (hs1.foldl fun _ _ ht => ht.returnRecord) hs1
  have hs3 : Inv s3 := by
    refine hs2.foldl fun t g ht => ?_
    split
    · split
      · exact ht.takeSlots
      · exact ht
    · exact ht
  exact hs3.record

protected theorem Inv.completeKernel {s : State} {a : Kern} {killed : Bool} (h : Inv s) : Inv (completeKernel s a killed) :=
  Inv.addRef (Inv.setKernState (Inv.releaseCores (Inv.writeNat (h.foldl (fun _ _ ht => ht.freeAllOn)))))

protected theorem Inv.failPopulation {s : State} {a : Kern} (h : Inv s) : Inv (failPopulation s a) :=
  Inv.refuseKernel (Inv.releaseCores (h.foldl (fun _ _ ht => ht.freeAllOn)))

protected theorem Inv.stopFibre {s : State} {g f : Nat} (h : Inv s) : Inv (stopFibre s g f) := by
  unfold stopFibre
  split
  · split
    · exact h
    · exact h.removeWaiter.removeWaiter.unbind
  · split
    · exact h.removeWaiter.removeWaiter.setFibreInfo.setCore.refillReady
    · exact h

protected theorem Inv.stopOn {s : State} {k g : Nat} (h : Inv s) : Inv (stopOn s k g) :=
  h.endProxies.setCore.foldl (fun _ _ ht => ht.stopFibre)

protected theorem Inv.killKernel {s : State} {k : Nat} (h : Inv s) : Inv (killKernel s k) := by
  unfold killKernel
  split
  · exact h
  · dsimp only
    split
    · exact h.writeNat.dropGate.refuseKernel
    · split
      · split
        · exact h.writeNat.setKern.foldl (fun _ _ ht4 => ht4.stopOn)
        · exact h.writeNat.completeKernel
      · exact h

protected theorem Inv.boundary {s : State} {k : Nat} (h : Inv s) : Inv (boundary s k) := by
  unfold boundary
  dsimp only
  split
  · exact h.writeNat
  · refine Inv.foldl h.writeNat ?_
    intro t a ht
    split
    · split
      · exact ht
      · split
        · split
          · exact ht.setCore
          · exact ht
        · split
          · split
            · exact ht.setCore
            · exact ht
          · exact ht
    · exact ht

protected theorem Inv.boundaries {s : State} {k old new_ : Nat} (h : Inv s) : Inv (boundaries s k old new_) := by
  unfold boundaries
  split
  · exact h
  · split
    · dsimp only
      split
      · exact h
      · exact h.foldl (fun _ _ ht2 => ht2.boundary)
    · exact h

/-! ## `Machine/Queue` -/

protected theorem Inv.setQState {s : State} {q v : Nat} (h : Inv s) : Inv (setQState s q v) := h.writeNat

protected theorem Inv.setQueue {s : State} {a : Queue} (h : Inv s) : Inv (setQueue s a) := h.record

protected theorem Inv.setSlotWord {s : State} {h st q : Nat} (hs : Inv s) : Inv (setSlotWord s h st q) := hs.writeWord

protected theorem Inv.watchNotify {s : State} {q : Nat} (h : Inv s) : Inv (watchNotify s q) := by
  unfold watchNotify
  split
  · exact h
  · split
    · next e2 =>
        split
        · exact (h.readCounter.snd_of_eq e2).record
        · exact (h.readCounter.snd_of_eq e2).enrolWaiter
    · next e2 => exact (h.readCounter.snd_of_eq e2).enrolWaiter

protected theorem Inv.testNotify {s : State} {q : Nat} (h : Inv s) : Inv (testNotify s q).2 := by
  unfold testNotify
  split
  · exact h
  · split
    · next e2 => exact h.readCounter.snd_of_eq e2
    · next e2 => exact h.readCounter.snd_of_eq e2

protected theorem Inv.seenAtOpen {s : State} {q : Nat} (h : Inv s) : Inv (seenAtOpen s q).2 := by
  unfold seenAtOpen
  split
  · exact h
  · split
    · next e2 => exact h.readCounter.snd_of_eq e2
    · next e2 => exact (h.readCounter.snd_of_eq e2).freshBytes

protected theorem Inv.openQueue {s : State} {q : Word} (h : Inv s) : Inv (openQueue s q) := by
  unfold openQueue
  dsimp only
  split
  · exact h.seenAtOpen.setQState.writeWord.setQueue.watchNotify
  · exact h

protected theorem Inv.closeQueue {s : State} {q : Word} (h : Inv s) : Inv (closeQueue s q) := by
  unfold closeQueue
  dsimp only
  split
  · exact h
  · split
    · exact h.removeWaiter.setQState.record
    · split
      · exact h.setQueue
      · exact h

protected theorem Inv.bindQueue {s : State} {q h : Nat} (hs : Inv s) : Inv (bindQueue s q h) := hs.setQState.setSlotWord.writeNat.record

protected theorem Inv.startUnbind {s : State} {q : Nat} (h : Inv s) : Inv (startUnbind s q) := by
  unfold startUnbind
  split
  · exact h.setQState.setSlotWord
  · exact h

protected theorem Inv.retestQueue {s : State} {q : Nat} (h : Inv s) : Inv (retestQueue s q) := by
  unfold retestQueue
  split
  · exact h
  · split
    · dsimp only
      split
      · exact h.testNotify.setQState.setSlotWord
      · exact h.testNotify.setSlotWord.record.setQState.record
    · dsimp only
      split
      · exact h.testNotify.setQState.setSlotWord
      · exact h.testNotify.setSlotWord.record.setQState.watchNotify

protected theorem Inv.enqueuePending {s : State} {q : Nat} (h : Inv s) : Inv (enqueuePending s q) := h.record.setQState

protected theorem Inv.wakeQueue {s : State} {q : Nat} (h : Inv s) : Inv (wakeQueue s q) := by
  unfold wakeQueue
  split
  · exact h
  · split
    · exact h.bindQueue
    · split
      · dsimp only
        split
        · exact h.startUnbind.retestQueue.bindQueue
        · exact h.startUnbind.retestQueue.enqueuePending
      · exact h.enqueuePending

protected theorem Inv.takenOne {s : State} {q : Nat} (h : Inv s) : Inv (takenOne s q) := by
  unfold takenOne
  dsimp only
  split
  · exact h.writeWord.addAt
  · exact h.writeWord

protected theorem Inv.postKernel {s : State} {k q h : Nat} {b : List Byte} (hs : Inv s) : Inv (postKernel s k q h b) :=
  hs.writeBytes.record.setQueue

protected theorem Inv.ask0 {tenant : BitVec 12} {src : Purpose} {s : State} {va : Word} {n : Nat} (h : Inv s) :
    AskInv (ask0 tenant src s va n) :=
  h.askHost

protected theorem Inv.dropFail {s : State} {src : Purpose} (h : Inv s) : Inv (dropFail s src) := h.record

protected theorem Inv.readRecord {s0 : State} {q : Nat} (h : Inv s0) : Inv (readRecord s0 q) := by
  unfold readRecord
  split
  · split
    · exact h
    · extract_lets r
      have hr : Inv r.2 := h.testNotify
      split
      · exact hr
      · split
        · next e3 => exact Inv.takenOne (Inv.postKernel (GotInv.of_bytes e3 (Inv.readClean (fun _ _ _ ht3 => ht3.ask0) hr)))
        · next e3 => exact Inv.bumpIo (Inv.takenOne (Inv.dropFail (GotInv.of_refused e3 (Inv.readClean (fun _ _ _ ht3 => ht3.ask0) hr))))
        · next e3 => exact hr.onlyAsked
  · exact h

protected theorem Inv.admitNow {s : State} {a : Kern} (h : Inv s) : Inv (admitNow s a) := h.setKernState.writeNat.record.setKern

protected theorem Inv.admitKernel {s : State} {k : Nat} (h : Inv s) : Inv (admitKernel s k) := by
  unfold admitKernel
  have hask : ∀ x w m t, Inv t → AskInv (ask0 (kernTenant s k) (.tables x) t w m) := fun _ _ _ _ ht => ht.ask0
  cases kernOf s k with
  | none => exact h
  | some x =>
    refine Inv.ite h (Inv.ite h.refuseKernel ?_)
    split
    · exact h.onlyAsked
    · next e => exact (GotInv.of_refused e (Inv.readTables (fun t w m => hask _ w m t) h)).dropFail.refuseKernel
    · next e =>
      have hu := GotInv.of_bytes e (Inv.readTables (fun t w m => hask _ w m t) h)
      refine Inv.ite hu.refuseKernel ?_
      split
      · extract_lets thr
        split
        · next e2 => exact (hu.readCounter.snd_of_eq e2).refuseKernel
        · next e2 =>
          have ht := hu.readCounter.snd_of_eq e2
          exact Inv.ite ht.admitNow ht.setKernState.enrolWaiter
      · exact hu.admitNow

protected theorem Inv.gateKernel {s : State} {k : Nat} (h : Inv s) : Inv (gateKernel s k) := by
  unfold gateKernel
  split
  · split
    · exact h.record
    · split
      · exact h.record.admitNow
      · exact h.record.refuseKernel
  · exact h

protected theorem Inv.placeKernelEvent {s : State} {k : Nat} (h : Inv s) : Inv (placeKernelEvent s k) := by
  unfold placeKernelEvent
  split
  · split
    · split
      · exact h.placeKernel
      · exact h
    · exact h
  · exact h

protected theorem Inv.populate {s : State} {k : Nat} (h : Inv s) : Inv (populate s k) := by
  unfold populate
  split
  · exact h
  · split
    · exact h
    · split
      · split
        · dsimp only
          split
          · exact h.setCore.failPopulation
          · exact h.setKern
        · exact h
      · split
        · next e3 => exact (h.gatherPop.of_refused e3).failPopulation
        · next e3 => exact h.onlyAsked
        · next e3 =>
            extract_lets s1
            have hs1 : Inv s1 := (h.gatherPop.of_bytes e3).foldl (fun _ _ ht2 => ht2.fillCore)
            split
            · next e4 => exact (hs1.createAll.of_some e4).setKernState.setKern
            · next e4 => exact (hs1.createAll.of_some e4).setKernState
            · exact hs1.failPopulation

protected theorem Inv.setOwner {s : State} {g : Nat} {k : Fin 16} {h : Nat} (hs : Inv s) : Inv (setOwner s g k h) := hs.setCore

protected theorem Inv.takeSome {g h : Nat} {p : State → Fin 16 → Bool} {s : State} {ks : List (Fin 16)} (hs : Inv s) :
    Inv (takeSome g h p s ks) := by
  unfold takeSome
  refine Inv.foldl hs ?_
  intro t a ht
  split
  · exact ht.setOwner
  · exact ht

protected theorem Inv.takeUrgent {s : State} {g : Nat} {qs : List Nat} (h : Inv s) : Inv (takeUrgent s g qs) :=
  h.foldl (fun _ _ ht => ht.takeSome.takeSome)

protected theorem Inv.handOut {s : State} {g : Nat} {qs : List Nat} (h : Inv s) : Inv (handOut s g qs) := by
  unfold handOut
  refine Inv.foldl h ?_
  intro t a ht
  split
  · exact ht
  · dsimp only
    split
    · exact ht.setOwner
    · split
      · exact ht.setOwner
      · exact ht

protected theorem Inv.moveOne {s : State} {g : Nat} {qs : List Nat} (h : Inv s) : Inv (moveOne s g qs) := by
  unfold moveOne
  dsimp only
  split
  · split
    · exact h.setOwner
    · exact h
  · exact h

protected theorem Inv.arbitrate {s0 : State} {g : Nat} (h : Inv s0) : Inv (arbitrate s0 g) := by
  unfold arbitrate
  split
  · exact h
  · exact h.setCore.takeUrgent.setCore.handOut.moveOne

end Sys2Proof.Safety
end

