-- ==== Sys2Proof/Proofs/KeptLinks.lean ====
section
/-!
SUPPORT. The operations on links and on the start of the module keep memory in canonical form.
-/
namespace Sys2Proof.Safety
open Sys2Proof Sys2Proof.Machine

/-! ## `Machine/Links` -/

protected theorem Inv.levtAdd {s : State} {id : LinkId} (h : Inv s) : Inv (levtAdd s id) := by
  unfold levtAdd
  split
  · exact h.addAt
  · exact h

protected theorem Inv.changeLink {s : State} {l : Link} {st : BitVec 3} (h : Inv s) : Inv (changeLink s l st) := h.setLink.levtAdd

protected theorem Inv.dropLink {s : State} {l : Link} {st : BitVec 3} (h : Inv s) : Inv (dropLink s l st) := h.record.changeLink

protected theorem Inv.flushMsix {s : State} (h : Inv s) : Inv (flushMsix s) := by
  unfold flushMsix
  split
  · exact h.record
  · exact h

protected theorem Inv.failTraining {s : State} {id : LinkId} (h : Inv s) : Inv (failTraining s id) := by
  unfold failTraining
  dsimp only
  split
  · exact h.dropLink
  · split
    · split
      · exact h.dropLink
      · exact h.setLink
    · exact h

protected theorem Inv.retrainLink {s : State} {id : LinkId} (h : Inv s) : Inv (retrainLink s id) := by
  unfold retrainLink
  dsimp only
  split
  · exact h.changeLink
  · exact h

protected theorem Inv.ctlStore {s : State} {id : LinkId} {v : Nat} (h : Inv s) : Inv (ctlStore s id v) := by
  unfold ctlStore
  extract_lets _ s1
  have hs1 : Inv s1 := h.writeNat
  split
  · split
    · exact hs1
    · exact hs1.dropLink
  · split
    · exact hs1.writeNat.changeLink
    · exact hs1

protected theorem Inv.countRefused {s : State} {id : LinkId} (h : Inv s) : Inv (countRefused s id) := h.bumpIo

protected theorem Inv.reportAer {s : State} {id : LinkId} {k : Nat} (h : Inv s) : Inv (reportAer s id k) := by
  unfold reportAer
  split
  · split
    · exact h
    · exact h.record
  · exact h

protected theorem Inv.sendReply {s : State} {id : LinkId} {b : List Byte} {toxic ok : Bool} (h : Inv s) :
    Each Inv (sendReply s id b toxic ok) := by
  unfold sendReply
  extract_lets t
  have ht : Inv t := by
    unfold t
    split
    · exact h.reportAer
    · exact h
  split
  · exact Each.none
  · exact Each.some ht.record
  · exact ht.sendMsg
  · exact Each.some h

protected theorem Inv.bar0Store {s : State} {o : Nat} {b : Byte} (h : Inv s) : Inv (bar0Store s o b) := by
  unfold bar0Store
  split
  · exact h
  · split
    · exact h.record
    · split
      · split
        · dsimp only
          split
          · exact h
          · exact h.record
        · exact h.record.flushMsix
      · exact h

protected theorem Inv.bar0Stores {s : State} {o : Nat} {bs : List Byte} (h : Inv s) : Inv (bar0Stores s o bs) := by
  induction bs generalizing s o with
  | nil => exact h
  | cons x xs ih => exact ih h.bar0Store

protected theorem Inv.requestSpans {s : State} {id : LinkId} {r : Request} (h : Inv s) : SpansInv (requestSpans s id r) := by
  unfold requestSpans
  split
  · exact SpansInv.ok
  · exact Inv.spansVia (fun _ _ => h.askHost)

protected theorem Inv.forget {s : State} {id : LinkId} {n : Nat} (h : Inv s) : Inv (forget s id n) := by
  unfold forget
  refine Inv.dropGrants ?_
  split
  · exact h.record
  · exact h

protected theorem Inv.landSpan {s : State} {id : LinkId} {toxic : Bool} {n : Nat} {d : List Byte} (h : Inv s) :
    Inv (landSpan s id toxic n d) := by
  unfold landSpan
  split
  · exact h.countRefused
  · split
    · exact h.bumpIo
    · split
      · exact h.poisonRange
      · exact h.storeAt

protected theorem Inv.landSpans {s : State} {id : LinkId} {toxic : Bool} {l : List (Nat × Nat)} {bs : List Byte} (h : Inv s) :
    Inv (landSpans s id toxic l bs) := by
  induction l generalizing s id toxic bs with
  | nil => exact h
  | cons x xs ih => exact ih h.landSpan

protected theorem Inv.landWrite {s : State} {id : LinkId} {r : Request} {d : List Byte} (h : Inv s) : LandedInv (landWrite s id r d) := by
  unfold landWrite
  split
  · exact LandedInv.done h.bar0Stores
  · split
    · exact LandedInv.done h.forget.countRefused
    · next e => exact LandedInv.notYet (h.requestSpans.of_notYet e)
    · split
      · exact LandedInv.notYet h
      · refine LandedInv.done ?_
        refine Inv.landSpans ?_
        split
        · exact h.forget.reportAer
        · exact h.forget

protected theorem Inv.readSpans {id : LinkId} {l : List (Nat × Nat)} {s : State} (h : Inv s) : Inv (readSpans id l s).2 := by
  induction l generalizing s with
  | nil => exact h
  | cons x xs ih =>
    unfold readSpans
    refine ih ?_
    split
    · exact h.countRefused
    · exact h.devRead

protected theorem Inv.replied {s : State} {r : Option State} (h : Inv s) (hr : Each Inv r) : LandedInv (replied s r) := by
  unfold replied
  split
  · exact LandedInv.done (hr.of_some rfl)
  · exact LandedInv.notYet h

protected theorem Inv.landRead {s : State} {id : LinkId} {r : Request} (h : Inv s) : LandedInv (landRead s id r) := by
  unfold landRead
  split
  · exact h.replied h.sendReply
  · split
    · split
      · exact h.replied h.sendReply
      · exact LandedInv.done h
    · split
      · split
        · next e => exact h.replied ((h.readCounter.snd_of_eq e).sendReply)
        · next e => exact h.replied ((h.readCounter.snd_of_eq e).sendReply)
      · split
        · exact h.replied h.forget.countRefused.sendReply
        · next e => exact LandedInv.notYet (h.requestSpans.of_notYet e)
        · split
          · exact LandedInv.notYet h
          · extract_lets x2
            have hx2 : Inv x2.2 := h.forget.readSpans
            exact h.replied hx2.sendReply

protected theorem Inv.popPosted {s : State} {id : LinkId} (h : Inv s) : Inv (popPosted s id) := h.setLink

protected theorem Inv.pumpPosted {n : Nat} {s : State} {id : LinkId} (h : Inv s) : Inv (pumpPosted n s id) := by
  induction n generalizing s with
  | zero => exact h
  | succ n ih =>
    unfold pumpPosted
    split
    · exact h
    · split
      · exact h
      · exact h
      · split
        · next e3 => exact h.landWrite.of_notYet e3
        · next e3 => exact ih ((h.landWrite.of_done e3).popPosted)

protected theorem Inv.pumpReads {n : Nat} {s : State} {id : LinkId} (h : Inv s) : Inv (pumpReads n s id) := by
  induction n generalizing s with
  | zero => exact h
  | succ n ih =>
    unfold pumpReads
    split
    · exact h
    · split
      · exact ih h.setLink.setLink
      · dsimp only
        split
        · next e2 => exact ih (h.setLink.landRead.of_done e2)
        · next e2 => exact ih ((h.setLink.landRead.of_notYet e2).setLink)

protected theorem Inv.pumpLink {s : State} {id : LinkId} (h : Inv s) : Inv (pumpLink s id) := h.pumpPosted.pumpReads

protected theorem Inv.pumpAll {s : State} (h : Inv s) : Inv (pumpAll s) := h.foldl (fun _ _ ht => ht.pumpLink)

protected theorem Inv.arrive {s : State} {r : Inbound} (h : Inv s) : Inv (arrive s r) := by
  unfold arrive
  split
  · exact h.countRefused
  · exact h.countRefused.setLink
  · split
    · exact h.countRefused.reportAer
    · exact h.setLink
  · exact h.setLink

protected theorem Inv.takeIn {s : State} {r : Inbound} (h : Inv s) : Inv (takeIn s r) := by
  unfold takeIn
  split
  · exact h.arrive.pumpLink
  · exact h

protected theorem Inv.inboundSpad {s : State} {r : Inbound} (h : Inv s) : Inv (inboundSpad s r) := by
  unfold inboundSpad
  split
  · exact h.takeIn
  · exact h

protected theorem Inv.inboundModule {s : State} {r : Inbound} (h : Inv s) : Inv (inboundModule s r) := by
  unfold inboundModule
  split
  · exact h.takeIn
  · exact h

protected theorem Inv.inboundCounterRead {s : State} {r : Inbound} (h : Inv s) : Inv (inboundCounterRead s r) := by
  unfold inboundCounterRead
  split
  · exact h.takeIn
  · exact h

protected theorem Inv.inboundCounterWrite {s : State} {r : Inbound} (h : Inv s) : Inv (inboundCounterWrite s r) := by
  unfold inboundCounterWrite
  split
  · exact h.takeIn
  · exact h

protected theorem Inv.applyHeld {s0 : State} {id : LinkId} (h : Inv s0) : Inv (applyHeld s0 id) := by
  unfold applyHeld
  dsimp only
  split
  · split
    · exact h.pumpLink.popPosted.addAt.pumpLink
    · exact h.pumpLink
  · exact h.pumpLink

protected theorem Inv.trainLink {s : State} {id : LinkId} {width rate peer : Nat} (h : Inv s) : Inv (trainLink s id width rate peer) := by
  unfold trainLink
  dsimp only
  split
  · exact h.changeLink.flushMsix.pumpAll
  · exact h

protected theorem Inv.applyMsg {s : State} {w : Fin 16} {a : WeltMsg} (h : Inv s) : Inv (applyMsg s w a) := by
  unfold applyMsg
  split
  · exact h.takeIn
  · exact h.takeIn
  · exact h.takeIn
  · exact h

protected theorem Inv.receiveFlit {s : State} {w : Fin 16} {f : Flit} (h : Inv s) : Inv (receiveFlit s w f) := by
  unfold receiveFlit
  extract_lets id l k kind s1
  have hs1 : Inv s1 := h.setLink.sendBacklog
  refine Inv.ite h (Inv.ite h.bumpIo (Inv.ite h.setLink.sendBacklog (Inv.ite ?_ h.bumpIo)))
  cases f.done with
  | none => exact hs1
  | some m => exact hs1.applyMsg

protected theorem Inv.replayWelt {s : State} {w : Fin 16} (h : Inv s) : Inv (replayWelt s w) := by
  unfold replayWelt
  dsimp only
  split
  · exact h
  · split
    · exact h.bumpIo.bumpAt.setLink.record.retrainLink
    · exact h.bumpIo.bumpAt.setLink.record

protected theorem Inv.trigger {s : State} {cold : Bool} (h : Inv s) : Inv (trigger s cold) := h.record

protected theorem Inv.hostReset {s : State} {p : Fin 8} (h : Inv s) : Inv (hostReset s p) := by
  unfold hostReset
  extract_lets id l lost ended s0 s1 s2 s3 s4
  have hs0 : Inv s0 := h.foldl fun _ _ ht => ht.forget
  have hs1 : Inv s1 := hs0.setLink.bumpIo
  have hs2 : Inv s2 := hs1.pumpLink.foldl fun _ _ ht => ht.writeNat
  have hs3 : Inv s3 := hs2.foldl fun _ _ ht => ht.writeNat
  have hs4 : Inv s4 := hs3.record
  exact Inv.ite h (Inv.ite h.trigger hs4.changeLink)

protected theorem Inv.hostResetDone {s : State} {p : Fin 8} (h : Inv s) : Inv (hostResetDone s p) := by
  unfold hostResetDone
  dsimp only
  split
  · exact h.changeLink
  · exact h

protected theorem Inv.unmaskVector {s : State} {v : Nat} (h : Inv s) : Inv (unmaskVector s v) := h.record.flushMsix

/-! ## `Machine/Start` -/

protected theorem Inv.signReport {s : State} (h : Inv s) : Inv (signReport s) := h.writeBytes

protected theorem Inv.restartStore {s : State} {v : Word} (h : Inv s) : Inv (restartStore s v) := by
  unfold restartStore
  split
  · exact h.trigger
  · split
    · exact h.trigger
    · exact h

protected theorem Inv.thermalAlert {s : State} {die : Nat} (h : Inv s) : Inv (thermalAlert s die) := by
  unfold thermalAlert
  split
  · exact h.addAt
  · exact h

protected theorem Inv.startStep1 {s : State} (h : Inv s) : Inv (startStep1 s) := h.writeBytes.record

protected theorem Inv.startStep3 {s : State} {i : StartInputs} (h : Inv s) : Inv (startStep3 s i) := h.record

protected theorem Inv.startStep5 {s : State} {change : Bool} (h : Inv s) : Inv (startStep5 s change) := memWf_filter _ h

protected theorem Inv.changeLife {s : State} (h : Inv s) : Inv (changeLife s) := h.startStep5.record.trigger

protected theorem Inv.startStep6 {s : State} {i : StartInputs} (h : Inv s) : Inv (startStep6 s i) := h.record

protected theorem Inv.loadImage {s : State} {image : List (Nat × List Byte)} (h : Inv s) : Inv (loadImage s image) :=
  h.foldl (fun _ _ ht => ht.writeBytes)

protected theorem Inv.startStep9 {s0 : State} {i : StartInputs} (h : Inv s0) : Inv (startStep9 s0 i) := h.loadImage.record.record

protected theorem Inv.failStart {s : State} {n : Nat} {authentic : Bool} (h : Inv s) : Inv (failStart s n authentic) := by
  unfold failStart
  extract_lets _ shut s1
  have hshut : Inv shut := h.foldl (fun _ _ ht => ht.writeNat)
  have hs1 : Inv s1 := hshut.record
  split
  · exact hs1
  · exact hs1.record.trigger

protected theorem Inv.performStart {s : State} {i : StartInputs} (h : Inv s) : Inv (performStart s i) := by
  unfold performStart
  refine Inv.ite h ?_
  extract_lets _ s1 s3 s6
  have hs1 : Inv s1 := h.startStep1.record
  have hs3 : Inv s3 := hs1.startStep3
  have hs6 : Inv s6 := hs3.startStep5.startStep6
  exact Inv.ite hs1.failStart (Inv.ite hs3.failStart (Inv.ite hs3.changeLife (Inv.ite hs6.startStep9 hs6.failStart)))

protected theorem Inv.powerUp {s : State} (h : Inv s) : Inv (powerUp s) := h.record.trigger.record

protected theorem Inv.powerDown {s : State} (h : Inv s) : Inv (powerDown s) := h.record

end Sys2Proof.Safety
end

