-- ==== Sys2Proof/Proofs/KeptPorts.lean ====
section
/-!
SUPPORT. The memory ports, the store buffers and the ends of fibres keep memory in canonical form.
-/
namespace Sys2Proof.Safety
open Sys2Proof Sys2Proof.Machine

/-! ## `Machine/Ports` -/

protected theorem Inv.speedWrite {s : State} {g : Nat} {code : Byte} (h : Inv s) : Inv (speedWrite s g code) := by
  unfold speedWrite
  split
  · exact h.record
  · exact h

protected theorem Inv.clockSwitch {s : State} {g : Nat} (h : Inv s) : Inv (clockSwitch s g) := h.record

protected theorem Inv.wakeStore {s : State} {g : Nat} {inc : Word} {who : Adder} (h : Inv s) : Inv (wakeStore s g inc who) := by
  unfold wakeStore
  split
  · split
    · exact h.beginRelease
    · exact h.addAt
  · exact h

protected theorem Inv.refuseStore {s : State} {g : Nat} {t : Word} (h : Inv s) : Inv (refuseStore s g t) := by
  unfold refuseStore
  dsimp only
  split
  · exact h.setCore
  · exact h

protected theorem Inv.killStore {s : State} {k : Word} (h : Inv s) : Inv (killStore s k) := by
  unfold killStore
  split
  · exact h.killKernel
  · exact h

protected theorem Inv.portStore {s : State} {o : Nat} {v : Word} {who : Adder} (h : Inv s) : Inv (portStore s o v who) := by
  unfold portStore
  split
  · split
    · exact h.pushFrame
    · split
      · exact h.pushFrame
      · exact h
  · split
    · exact h.openQueue
    · split
      · exact h.closeQueue
      · split
        · exact h.killStore
        · split
          · exact h.restartStore
          · split
            · exact h.signReport
            · split
              · exact h.wakeStore
              · exact h.refuseStore

protected theorem Inv.startIrq {s : State} {v : Nat} (h : Inv s) : Inv (startIrq s v) := by
  unfold startIrq
  extract_lets s1
  have hs1 : Inv s1 := h.removeWaiter
  split
  · exact hs1
  · split
    · next e2 =>
        split
        · exact (hs1.readCounter.snd_of_eq e2).fireIrq
        · exact (hs1.readCounter.snd_of_eq e2).enrolWaiter
    · next e2 => exact (hs1.readCounter.snd_of_eq e2).enrolWaiter

protected theorem Inv.swStoreByte {s : State} {o : Nat} {b : Byte} (h : Inv s) : Inv (swStoreByte s o b) := by
  unfold swStoreByte
  split
  · exact h.setByte
  · exact h.speedWrite
  · exact h.writeWord
  · split
    · exact h.ctlStore
    · exact h
  · exact h
  · exact h
  · exact h

protected theorem Inv.swStoreBytes {s : State} {o : Nat} {bs : List Byte} (h : Inv s) : Inv (swStoreBytes s o bs) := by
  induction bs generalizing s o with
  | nil => exact h
  | cons x xs ih => exact ih h.swStoreByte

protected theorem Inv.swStore {s : State} {o : Nat} {bs : List Byte} {who : Adder} {act : Bool} (h : Inv s) :
    Inv (swStore s o bs who act) := by
  unfold swStore
  split
  · exact h.portStore
  · extract_lets s0 s1
    have hs0 : Inv s0 := by
      unfold s0
      split
      · exact h
      · exact h.record
    have hs1 : Inv s1 := hs0.swStoreBytes
    split
    · exact hs1.foldl (fun _ _ ht3 => ht3.startIrq)
    · exact hs1

protected theorem Inv.swBytes {s : State} {o n : Nat} (h : Inv s) : Inv (swBytes s o n).2 := by
  induction n generalizing s o with
  | zero => exact h
  | succ n ih =>
    unfold swBytes
    refine ih ?_
    split
    · exact h.freshByte
    · exact h

protected theorem Inv.swLoad {s : State} {o n : Nat} {whole : Bool} (h : Inv s) : Inv (swLoad s o n whole).2 := by
  unfold swLoad
  split
  · exact h.popFrame
  · exact h.swBytes

protected theorem Inv.registerStore {s : State} {o : Nat} {bs : List Byte} (h : Inv s) : Inv (registerStore s o bs) := by
  unfold registerStore
  split
  · exact h
  · exact h.swStore

/-! ## `Machine/Buffer` -/

protected theorem Inv.countDropped {s : State} {n : Nat} (h : Inv s) : Inv (countDropped s n) := h.bumpIo

protected theorem Inv.landStore {s : State} {n : Nat} {bs : List Byte} {who : Adder} {act : Bool} (h : Inv s) :
    Each Inv (landStore s n bs who act) := by
  unfold landStore
  split
  · exact Each.none
  · split
    · exact Each.some h.swStore
    · split
      · exact Each.some h.record
      · split
        · exact h.sendWelt
        · exact Each.some h.storeAt
  · exact Each.some h.countDropped

protected theorem Inv.spoil {s : State} {n n2 : Nat} (h : Inv s) : Each Inv (spoil s n n2) := by
  unfold spoil
  split
  · exact Each.some h.record
  · split
    · exact h.sendWrites
    · exact Each.some h.poisonRange

protected theorem Inv.landReq {s : State} {q : PortReq} (h : Inv s) : Each Inv (landReq s q) := by
  unfold landReq
  split
  · split
    · exact Each.none
    · exact h.spoil
    · exact Each.some h.countDropped
  · exact h.landStore

protected theorem Inv.landSpad {s : State} {q : PortReq} (h : Inv s) : Inv (landSpad s q) := by
  unfold landSpad
  split
  · exact h.poisonRange
  · exact h.storeAt

protected theorem Inv.acceptReq {s : State} {q : PortReq} (h : Inv s) : Inv (acceptReq s q) := by
  unfold acceptReq
  split
  · exact h.landSpad
  · exact h.record

protected theorem Inv.forwardClu {s : State} {cl : Nat} (h : Inv s) : Inv (forwardClu s cl) := by
  unfold forwardClu
  split
  · split
    · exact h.record.landSpad
    · exact h.record
  · exact h

protected theorem Inv.forwardDie {s : State} {d : Nat} (h : Inv s) : Each Inv (forwardDie s d) := by
  unfold forwardDie
  split
  · exact h.record.landReq
  · exact Each.none

protected theorem Inv.pushClu {p : PortReq → Bool} {n : Nat} {s : State} {n2 : Nat} (h : Inv s) : Inv (pushClu p n s n2) := by
  induction n generalizing s with
  | zero => exact h
  | succ n ih =>
    unfold pushClu
    split
    · exact ih h.forwardClu
    · exact h

protected theorem Inv.pushDie {p : PortReq → Bool} {n : Nat} {s : State} {n2 : Nat} (h : Inv s) : Inv (pushDie p n s n2) := by
  induction n generalizing s with
  | zero => exact h
  | succ n ih =>
    unfold pushDie
    split
    · split
      · next e => exact ih (h.forwardDie.of_some e)
      · exact h
    · exact h

protected theorem Inv.pushReqs {p : PortReq → Bool} {beyond : Bool} {s : State} {g : Nat} (h : Inv s) : Inv (pushReqs p beyond s g) := by
  unfold pushReqs
  split
  · exact h.pushClu.pushDie
  · exact h.pushClu

protected theorem Inv.clearPath {s : State} {g n : Nat} (h : Inv s) : Inv (clearPath s g n) := by
  unfold clearPath
  split
  · exact h
  · exact h.pushReqs

protected theorem Inv.drainEntry {s : State} {g i : Nat} (h : Inv s) : Inv (drainEntry s g i) := by
  unfold drainEntry
  dsimp only
  split
  · exact h
  · exact h.setCore.foldl (fun _ _ ht => ht.acceptReq)

protected theorem Inv.drainWhere {p : SbEntry → Bool} {n : Nat} {s : State} {n2 : Nat} (h : Inv s) : Inv (drainWhere p n s n2) := by
  induction n generalizing s with
  | zero => exact h
  | succ n ih =>
    unfold drainWhere
    split
    · exact h
    · exact ih h.drainEntry

protected theorem Inv.drainBlocks {s : State} {g : Nat} {blocks : List Nat} (h : Inv s) : Inv (drainBlocks s g blocks) := h.drainWhere

protected theorem Inv.drainEvent {s : State} {g i : Nat} (h : Inv s) : Inv (drainEvent s g i) := by
  unfold drainEvent
  dsimp only
  split
  · exact h
  · split
    · exact h
    · exact h.drainEntry

protected theorem Inv.sbEnter {s : State} {g block : Nat} {w : SbWrite} (h : Inv s) : Inv (sbEnter s g block w) := by
  unfold sbEnter
  refine Inv.setCore ?_
  split
  · exact h
  · exact h.drainEntry

protected theorem Inv.sbStore {life : Option Nat} {n : Nat} {s : State} {n2 n3 : Nat} {bs : List Byte} {who : Adder} {b : Bool} (h : Inv s) :
    Inv (sbStore life n s n2 n3 bs who b) := by
  induction n generalizing s n2 n3 bs who b with
  | zero => exact h
  | succ n ih =>
    unfold sbStore
    split
    · exact h
    · exact ih h.sbEnter

protected theorem Inv.storeIn {s : State} {g n : Nat} {bs : List Byte} {who : Adder} {act : Bool} (h : Inv s) :
    Inv (storeIn s g n bs who act) :=
  h.sbStore

protected theorem Inv.pushPublish {s : State} {g sc : Nat} {upto : Bound} (h : Inv s) : Inv (pushPublish s g sc upto) := by
  unfold pushPublish
  split
  · exact h
  · split
    · exact h.drainWhere
    · exact h.drainWhere.pushReqs

protected theorem Inv.beginPublish {s : State} {g : Nat} (h : Inv s) : Inv (beginPublish s g).2 := h.closeEntries

protected theorem Inv.makeRelease {s : State} {r : Release} (h : Inv s) : Inv (makeRelease s r) := by
  unfold makeRelease
  split
  · split
    · exact h.addAt.freeFibre.setCore.beginRelease
    · exact h.addAt
  · split
    · exact h.freeFibre.setCore.beginRelease
    · exact h

protected theorem Inv.runRelease {s : State} {r : Release} (h : Inv s) : Inv (runRelease s r) := by
  unfold runRelease
  split
  · exact h.record
  · dsimp only
    split
    · exact h.pushPublish.clearPath.makeRelease
    · exact h.pushPublish.clearPath.record

protected theorem Inv.runReleases {s : State} (h : Inv s) : Inv (runReleases s) := by
  unfold runReleases
  dsimp only
  split
  · exact h
  · split
    · exact h.record.foldl (fun _ _ ht3 => ht3.runRelease)
    · exact Inv.foldl (Inv.record (h.record.foldl (fun _ _ ht3 => ht3.runRelease))) (fun _ _ ht3 => ht3.runRelease)

protected theorem Inv.acquire {s : State} {g sc : Nat} (h : Inv s) : Inv (acquire s g sc) := by
  unfold acquire
  split
  · exact h.setCore.record
  · exact h.setCore

protected theorem Inv.correctLoad {s : State} {g : Nat} {bypass : Bool} {n n2 : Nat} (h : Inv s) : Inv (correctLoad s g bypass n n2) :=
  h.correctWords

protected theorem Inv.dropLines {s : State} {g n n2 : Nat} (h : Inv s) : Inv (dropLines s g n n2) := by
  unfold dropLines
  dsimp only
  split
  · exact h
  · exact h.setCore

protected theorem Inv.fillLine {s0 : State} {g block : Nat} (h : Inv s0) : Inv (fillLine s0 g block) := by
  unfold fillLine
  dsimp only
  split
  · exact h.clearPath.setCore.correctRead
  · exact h.clearPath

protected theorem Inv.dropCache {s : State} {g : Nat} (h : Inv s) : Inv (dropCache s g) := h.setCore

protected theorem Inv.dropLine {s : State} {g block : Nat} (h : Inv s) : Inv (dropLine s g block) := h.setCore

/-! ## `Machine/Finish` -/

protected theorem Inv.setProxyState {s : State} {g i : Nat} {pg : Option Nat} {pst : Nat} (h : Inv s) :
    Inv (setProxyState s g i pg pst) := by
  unfold setProxyState
  refine Inv.storeAt ?_
  split
  · exact h.drainBlocks.storeAt
  · exact h.drainBlocks

protected theorem Inv.armProxy {s0 : State} {g i f : Nat} {k : Option Nat} {loc : Nat} (h : Inv s0) : Inv (armProxy s0 g i f k loc) := by
  unfold armProxy
  extract_lets _ s
  have hs : Inv s := h.correctRead
  split
  · exact hs
  · split
    · exact hs.setProxyState
    · split
      · exact hs.setProxyState
      · dsimp only
        split
        · exact hs.setProxyState
        · exact hs.setProxyState.setCore

protected theorem Inv.armProxies {s : State} {g f : Nat} {k : Option Nat} {loc : Nat} (h : Inv s) : Inv (armProxies s g f k loc) :=
  h.foldl (fun _ _ ht => ht.armProxy)

protected theorem Inv.replaceProxy {s : State} {g : Nat} {p : Proxy} (h : Inv s) : Inv (replaceProxy s g p) := h.setCore

protected theorem Inv.spendProxy {s : State} {g : Nat} {p : Proxy} {pg : Option Nat} (h : Inv s) : Inv (spendProxy s g p pg) :=
  h.removeWaiter.record.setProxyState.setCore

protected theorem Inv.passProxy {s : State} {g : Nat} {p : Proxy} (h : Inv s) : Inv (passProxy s g p) := by
  unfold passProxy
  dsimp only
  split
  · exact h.record.removeWaiter.beginRelease.spendProxy
  · exact h.record.removeWaiter.beginRelease.replaceProxy.setProxyState

protected theorem Inv.proxyArrive {s : State} {i : Nat} (h : Inv s) : Inv (proxyArrive s i) := by
  unfold proxyArrive
  dsimp only
  split
  · exact h
  · split
    · exact h.spendProxy
    · exact h.passProxy
    · split
      · exact h
      · split
        · next e3 => exact (h.clearPath.readCounter.snd_of_eq e3).spendProxy
        · next e3 =>
            split
            · exact (h.clearPath.readCounter.snd_of_eq e3).passProxy
            · split
              · exact h.clearPath.readCounter.snd_of_eq e3
              · exact (h.clearPath.readCounter.snd_of_eq e3).enrolWaiter

protected theorem Inv.putStatus {s0 : State} {g n st cause : Nat} (h : Inv s0) : Inv (putStatus s0 g n st cause) := by
  unfold putStatus
  dsimp only
  split
  · exact h.correctRead.storeIn
  · exact h.correctRead

protected theorem Inv.finishRequest {s : State} {g n st cause f : Nat} (h : Inv s) : Inv (finishRequest s g n st cause f) :=
  h.correctLoad.putStatus.beginRelease.runReleases

protected theorem Inv.failRequest {s : State} {g : Nat} {k : Fin 16} {cause : Nat} (h : Inv s) : Inv (failRequest s g k cause) := by
  unfold failRequest
  extract_lets _ s1 s2
  have hs1 : Inv s1 := h.setCtx
  have hs2 : Inv s2 := hs1.unbind
  split
  · exact hs2.finishRequest
  · exact hs2

protected theorem Inv.haltRequest {s : State} {g : Nat} {k : Fin 16} (h : Inv s) : Inv (haltRequest s g k) := by
  unfold haltRequest
  split
  · exact h.unbind
  · dsimp only
    split
    · exact h.setCtx.correctLoad.unbind.putStatus.setCore.setFibreInfo.enlist
    · exact h.setCtx.correctLoad.unbind.putStatus
  · exact h.unbind.finishRequest

protected theorem Inv.faultFibre {s : State} {g : Nat} {k : Fin 16} (h : Inv s) : Inv (faultFibre s g k) := by
  unfold faultFibre
  refine Inv.addAt ?_
  refine Inv.closeEntries ?_
  split
  · split
    · split
      · exact h.unbind.armProxies
      · exact h.unbind
    · exact h.unbind
  · exact h.unbind

protected theorem Inv.bindOrFault {s : State} {g : Nat} {k : Fin 16} {f : Nat} (h : Inv s) : Inv (bindOrFault s g k f) := by
  unfold bindOrFault
  split
  · exact h.bindFibre
  · split
    · exact h
    · extract_lets _ _ s1 _ _ s2 s3 s4 s5
      have hs1 : Inv s1 := h.setCore
      have hs2 : Inv s2 := hs1.writeNat
      have hs3 : Inv s3 := hs2.writeWord.writeState
      have hs4 : Inv s4 := hs3.refillReady
      have hs5 : Inv s5 := by
        unfold s5
        split
        · split
          · exact hs4.armProxies
          · exact hs4
        · exact hs4
      split
      · exact hs4.finishRequest
      · exact hs5.closeEntries.addAt

protected theorem Inv.haltFibre {s : State} {g : Nat} {k : Fin 16} (h : Inv s) : Inv (haltFibre s g k) := by
  unfold haltFibre
  split
  · exact h.haltRequest
  · exact h.unbind

protected theorem Inv.stopKilled {s : State} {a : Kern} (h : Inv s) : Inv (stopKilled s a) := by
  unfold stopKilled
  refine Inv.foldl h ?_
  intro t a2 ht
  refine Inv.foldl ht ?_
  intro t2 a3 ht2
  split
  · exact ht2.stopFibre
  · exact ht2

protected theorem Inv.finishKilled {s : State} (h : Inv s) : Inv (finishKilled s) := by
  unfold finishKilled
  split
  · exact Inv.foldl (h.foldl (fun _ _ ht2 => ht2.stopKilled)) (fun _ _ ht2 => ht2.completeKernel)
  · exact h

end Sys2Proof.Safety
end

