-- ==== Sys2Proof/Proofs/KeptEffects.lean ====
section
/-!
SUPPORT. The effects that instructions are built of keep memory in canonical form, and an instruction built of them goes on.
-/
namespace Sys2Proof.Safety
open Sys2Proof Sys2Proof.Machine

/-! ## `Machine/Ops` -/

protected theorem Keeps.fail {α : Type} {cause : Nat} {taddr : Word} : Keeps (fail (α := α) cause taddr) := fun _ _ => Good.trap Each.none

protected theorem Keeps.failUnbacked {α : Type} {taddr : Word} : Keeps (failUnbacked (α := α) taddr) := fun _ _ => Good.trap Each.none

protected theorem Keeps.leaveFor {α : Type} {l : Leave} : Keeps (leaveFor (α := α) l) := fun _ _ => Good.leave Each.none

protected theorem Keeps.theFib : Keeps theFib := fun _ h => Good.ok h

protected theorem Keeps.theCore : Keeps theCore := fun _ h => Good.ok h

protected theorem Keeps.theSlot : Keeps theSlot := fun _ h => Good.ok h

protected theorem Keeps.modFib {f : Fib → Fib} : Keeps (modFib f) := fun _ h => Good.ok h.record

protected theorem Keeps.failKeeping {α : Type} {f : Fib} {cause : Nat} {taddr : Word} : Keeps (failKeeping (α := α) f cause taddr) :=
  fun _ h => Good.trap (Each.some h.record)

protected theorem Keeps.leaveKeeping {α : Type} {f : Fib} {l : Leave} : Keeps (leaveKeeping (α := α) f l) :=
  fun _ h => Good.leave (Each.some h.record)

protected theorem Keeps.change {f : State → State} (hf : ∀ t, Inv t → Inv (f t)) : Keeps (change f) := fun _ h => Good.ok (hf _ h)

protected theorem Keeps.changeOrWait {f : State → Option State} (hf : ∀ s, Inv s → Each Inv (f s)) : Keeps (changeOrWait f) := by
  intro s h
  unfold changeOrWait
  split
  · next e => exact .ok ((hf s h).of_some e)
  · exact .leave .none

protected theorem Inv.fetchLine {s : State} {g : Nat} {f : Fib} {p asked : Word} (h : Inv s) : Inv (fetchLine s g f p asked).2 := by
  unfold fetchLine
  split
  · exact h
  · split
    · exact h
    · split
      · exact h
      · split
        · next e => exact h.lookupVa.snd_of_eq e
        · next e => exact h.lookupVa.snd_of_eq e

protected theorem Inv.addLine {s : State} {g : Nat} {tenant : BitVec 12} {p : Word} {loc : Nat} (h : Inv s) :
    Inv (addLine s g tenant p loc) := by
  unfold addLine
  dsimp only
  split
  · exact h
  · exact h.setCore

protected theorem Inv.discardLine {s : State} {g : Nat} {p : Word} (h : Inv s) : Inv (discardLine s g p) := h.setCore

protected theorem Keeps.enterTarget {w : Word} : Keeps (enterTarget w) := by
  unfold enterTarget
  intro s h
  dsimp only
  split
  · exact Good.ok h
  · exact Good.trap Each.none
  · exact Good.leave Each.none

protected theorem Keeps.successor : Keeps successor := fun _ h => Good.ok h

protected theorem Inv.enterTurn {s : State} {k : TurnKey} (h : Inv s) : Inv (enterTurn s k) := h.setCore

protected theorem Inv.dropTurn {s : State} {g f : Nat} (h : Inv s) : Inv (dropTurn s g f) := by
  unfold dropTurn
  dsimp only
  split
  · exact h.setCore
  · exact h

protected theorem Inv.applyLeave {s : State} {l : Leave} (h : Inv s) : Inv (applyLeave s l) := by
  induction l generalizing s with
  | miss m =>
    unfold applyLeave
    split
    · next e => exact (h.postMiss.of_some e).record
    · exact h.record
  | room => exact h.record
  | fetch a => exact h.record
  | publish sc b => exact h.record
  | sleep w en waddr =>
    unfold applyLeave
    extract_lets _ _ s1
    have hs1 : Inv s1 := by
      unfold s1
      split
      · exact h.record.enrolWaiter
      · exact h
    exact hs1.record
  | turn k l ih => exact ih h.enterTurn

protected theorem Keeps.inTurn {α : Type} {key : State → TurnKey} {m : M α} (hm : Keeps m) : Keeps (inTurn key m) := by
  intro s h
  have hms := hm s h
  unfold inTurn
  split
  · next e => exact .leave (hms.of_leave e)
  · next e => exact .leave (hms.of_leave e)
  · exact hms

protected theorem Keeps.needTurn {k : TurnKey} : Keeps (needTurn k) := by
  unfold needTurn
  intro s h
  dsimp only
  split
  · exact Good.leave Each.none
  · exact Good.ok h

protected theorem Inv.enterHandler {s : State} (h : Inv s) : Inv (enterHandler s) := by
  unfold enterHandler
  dsimp only
  split
  · exact h.record
  · exact h.record
  · refine Inv.faultFibre ?_
    refine Inv.record ?_
    split
    · exact h.bumpDie
    · exact h

protected theorem Inv.raiseTrap {s : State} {t : Trap} {unbacked : Bool} (h : Inv s) : Inv (raiseTrap s t unbacked) := by
  unfold raiseTrap
  extract_lets _ s0 _ _ _ s1
  have hs0 : Inv s0 := by
    unfold s0
    split
    · exact h.bumpDie
    · exact h
  have hs1 : Inv s1 := hs0.record
  split
  · exact hs0.record.failRequest
  · split
    · exact hs1.faultFibre
    · exact hs1.enterHandler

protected theorem Keeps.leaveHandler {addr : M Word} {clear : Bool} (haddr : Keeps addr) : Keeps (leaveHandler addr clear) :=
  Keeps.theFib.bind fun _ => Keeps.ite Keeps.fail (haddr.bind fun _ => Keeps.enterTarget.bind fun _ => Keeps.modFib.bind fun _ =>
    Keeps.pure _)

protected theorem Keeps.takeWake : Keeps takeWake := fun _ h => Good.ok h.record

protected theorem Inv.pieceAt {s : State} {va n : Nat} {o : Word} {kind : Nat} (h : Inv s) : PieceInv (pieceAt s va n o kind) := by
  unfold pieceAt
  split
  · dsimp only
    split
    · exact PieceInv.got h
    · exact PieceInv.bad
  · split
    · dsimp only
      split
      · exact PieceInv.got h
      · exact PieceInv.bad
    · split
      · dsimp only
        split
        · exact PieceInv.bad
        · exact PieceInv.got h
      · split
        · next e2 => exact PieceInv.got (h.lookupVa.snd_of_eq e2)
        · dsimp only
          split
          · exact PieceInv.got h.useGrant
          · exact PieceInv.miss

protected theorem Keeps.translatePieces {o : Word} {kind : Nat} {l : List (Nat × Nat)} : Keeps (translatePieces o kind l) := by
  induction l with
  | nil => exact Keeps.pure _
  | cons x rest ih =>
    intro s h
    unfold translatePieces
    split
    · exact .trap .none
    · exact .leave .none
    · next e =>
      have ht := ih _ (h.pieceAt.of_got e)
      split
      · next e2 => exact .ok (ht.of_ok e2)
      · next x e2 =>
        rw [e2] at ht
        cases ht with
        | trap hk => exact .trap hk
        | leave hk => exact .leave hk

protected theorem Keeps.translate {va n : Nat} {o : Word} {kind : Nat} : Keeps (translate va n o kind) := Keeps.translatePieces

protected theorem Keeps.needPath {n : Nat} : Keeps (needPath n) := by
  unfold needPath
  intro s h
  dsimp only
  split
  · exact Good.ok h.clearPath
  · exact Good.leave Each.none

protected theorem Keeps.needRead {bypass : Bool} {n n2 : Nat} : Keeps (needRead bypass n n2) := by
  unfold needRead
  intro s h
  dsimp only
  split
  · exact Good.ok h
  · exact Keeps.needPath _ h

protected theorem Keeps.resolve {sg : Fin 8} {o : Word} {n align need kind : Nat} : Keeps (resolve sg o n align need kind) := by
  unfold resolve
  refine Keeps.get_bind fun _ _ => ?_
  dsimp only
  split
  · exact Keeps.fail
  · exact Keeps.ite (Keeps.pure _) (Keeps.ite Keeps.translate (Keeps.ite Keeps.fail (Keeps.needRead.bind fun _ => Keeps.translate)))

protected theorem Keeps.needLink {n : Nat} {taddr : Word} : Keeps (needLink n taddr) := by
  unfold needLink
  intro s h
  dsimp only
  split
  · exact Good.ok h
  · exact Good.leave Each.none
  · exact Good.trap Each.none

protected theorem Keeps.farLoad {a n : Nat} : Keeps (farLoad a n) := by
  intro s h
  unfold farLoad
  split
  · next r e =>
    have hr := h.farRead.of_some e
    exact .ok hr
  · exact .leave .none

protected theorem Keeps.loadSw {n n2 : Nat} {whole : Bool} : Keeps (loadSw n n2 whole) :=
  Keeps.needPath.bind fun _ => Keeps.get_bind fun _ ht => (Keeps.set ht.swLoad).bind fun _ => Keeps.pure _

protected theorem Keeps.loadSpan {a n : Nat} {o : Word} {i : Nat} {bypass whole : Bool} : Keeps (loadSpan a n o i bypass whole) := by
  unfold loadSpan
  refine Keeps.get_bind fun _ _ => Keeps.ite Keeps.failUnbacked (Keeps.needLink.bind fun _ => Keeps.needRead.bind fun _ =>
    Keeps.get_bind fun s _ => Keeps.ite (Keeps.farLoad.bind fun _ => Keeps.pure _) ?_)
  extract_lets raw
  cases raw.findIdx? (·.2) with
  | some j => exact Keeps.fail
  | none =>
    exact Keeps.ite Keeps.loadSw ((Keeps.change fun _ ht => ht.correctLoad).bind fun _ =>
      Keeps.ite_bind (Keeps.change fun _ ht => ht.dropLines) fun _ => Keeps.pure _)

protected theorem Keeps.loadSpans {o : Word} {bypass whole : Bool} {n : Nat} {l : List (Nat × Nat)} :
    Keeps (loadSpans o bypass whole n l) := by
  induction l generalizing o bypass whole n with
  | nil => exact Keeps.pure _
  | cons x xs ih => exact Keeps.loadSpan.bind fun _ => ih.bind fun _ => Keeps.pure _

protected theorem Keeps.loadAll {o : Word} {bypass : Bool} {l : List (Nat × Nat)} : Keeps (loadAll o bypass l) := Keeps.loadSpans

protected theorem Keeps.loadSeg {sg : Fin 8} {o : Word} {n align : Nat} {bypass : Bool} : Keeps (loadSeg sg o n align bypass) :=
  Keeps.resolve.bind fun _ => Keeps.loadAll

protected theorem Keeps.storeSpans {o : Word} {whole : Bool} {n : Nat} {l : List (Nat × Nat)} {bs : List Byte} :
    Keeps (storeSpans o whole n l bs) := by
  induction l generalizing o whole n bs with
  | nil => exact Keeps.pure _
  | cons x xs ih => exact Keeps.get_bind fun _ _ => Keeps.ite Keeps.failUnbacked ((Keeps.change fun _ ht2 => ht2.storeIn).bind fun _ => ih)

protected theorem Keeps.storeAll {o : Word} {l : List (Nat × Nat)} {bs : List Byte} : Keeps (storeAll o l bs) := Keeps.storeSpans

protected theorem Keeps.storeSeg {sg : Fin 8} {o : Word} {align : Nat} {bs : List Byte} : Keeps (storeSeg sg o align bs) :=
  Keeps.resolve.bind fun _ => Keeps.storeAll

protected theorem Keeps.setStream {p : Fin 4} {r : Machine.Stream} : Keeps (setStream p r) := Keeps.modFib

protected theorem Keeps.streamPattern {p : Fin 4} : Keeps (streamPattern p) := by
  unfold streamPattern
  refine Keeps.theFib.bind fun _ => ?_
  refine Keeps.ite ?_ ?_
  · refine Keeps.loadSeg.bind fun _ => Keeps.setStream.bind fun _ => ?_
    split
    · exact Keeps.pure _
    · exact Keeps.fail
  · split
    · exact Keeps.pure _
    · exact Keeps.fail

protected theorem Keeps.popStream {p : Fin 4} : Keeps (popStream p) := by
  unfold popStream
  refine Keeps.streamPattern.bind fun _ => Keeps.theFib.bind fun _ => Keeps.ite (Keeps.pure _) ?_
  split
  · refine Keeps.resolve.bind fun _ => ?_
    split
    · exact Keeps.fail
    · exact Keeps.setStream.bind fun _ => Keeps.pure _
  · exact Keeps.loadSeg.bind fun _ => Keeps.modFib.bind fun _ => Keeps.pure _

protected theorem Keeps.pushStream {p : Fin 4} {bs : List Byte} : Keeps (pushStream p bs) :=
  Keeps.streamPattern.bind fun _ => Keeps.theFib.bind fun _ => Keeps.ite (Keeps.pure _) (Keeps.storeSeg.bind fun _ => Keeps.modFib)

protected theorem Inv.correctReg {s : State} {code : Nat} (h : Inv s) : Inv (correctReg s code) := by
  unfold correctReg
  split
  · exact h.record.bumpDie
  · exact h

protected theorem Keeps.seeReg {code : Nat} {taddr : Word} : Keeps (seeReg code taddr) := by
  unfold seeReg
  intro s h
  dsimp only
  split
  · exact Good.trap Each.none
  · exact Good.ok h.correctReg

protected theorem Keeps.rd {r : SReg} : Keeps (rd r) := by
  unfold rd
  refine Keeps.theFib.bind fun _ => ?_
  split
  · refine Keeps.ite (Keeps.pure _) (Keeps.popStream.bind fun _ => ?_)
    split <;> exact Keeps.pure _
  · exact Keeps.seeReg.bind fun _ => Keeps.pure _

protected theorem Keeps.rdV {k : Fin 16} : Keeps (rdV k) := by
  unfold rdV
  refine Keeps.theFib.bind fun _ => ?_
  split
  · refine Keeps.ite (Keeps.pure _) (Keeps.popStream.bind fun _ => ?_)
    split <;> exact Keeps.pure _
  · exact Keeps.seeReg.bind fun _ => Keeps.pure _

protected theorem Keeps.writeS {d : SReg} {v : Word} : Keeps (writeS d v) := by
  unfold writeS
  refine Keeps.theFib.bind fun _ => ?_
  split
  · exact Keeps.ite Keeps.pushStream (Keeps.pure _)
  · exact Keeps.modFib

protected theorem Keeps.writeV {d : Fin 16} {v : VReg} : Keeps (writeV d v) := by
  unfold writeV
  refine Keeps.theFib.bind fun _ => ?_
  split
  · exact Keeps.ite Keeps.pushStream (Keeps.pure _)
  · exact Keeps.modFib

protected theorem Keeps.holdResult {r : Result} : Keeps (holdResult r) := by
  unfold holdResult
  intro s h
  dsimp only
  split
  · exact Good.ok h.record
  · exact Good.ok h

protected theorem Keeps.tryOut {m : M Unit} : Keeps (tryOut m) := by
  intro s h
  unfold tryOut
  split
  · exact Good.ok h
  · exact Good.trap Each.none
  · exact Good.leave Each.none

protected theorem Keeps.result {d : SReg} {v : Word} : Keeps (result d v) :=
  Keeps.get_bind fun _ _ => Keeps.ite (Keeps.tryOut.bind fun _ => Keeps.holdResult) (Keeps.modFib.bind fun _ => Keeps.writeS)

protected theorem Keeps.resultV {d : Fin 16} {v : VReg} : Keeps (resultV d v) :=
  Keeps.get_bind fun _ _ => Keeps.ite (Keeps.tryOut.bind fun _ => Keeps.holdResult) Keeps.writeV

protected theorem Keeps.commitPushes {l : List Result} : Keeps (commitPushes l) := by
  induction l with
  | nil => exact Keeps.pure _
  | cons x r ih =>
    cases x with
    | scalar d v => exact Keeps.bind Keeps.modFib fun _ => ih
    | vector d v => exact ih

protected theorem Keeps.commitNames {l : List Result} : Keeps (commitNames l) := by
  induction l with
  | nil => exact Keeps.pure _
  | cons x r ih =>
    cases x with
    | scalar d v => exact Keeps.bind Keeps.writeS fun _ => ih
    | vector d v => exact Keeps.bind Keeps.writeV fun _ => ih

protected theorem Keeps.commitResults {l : List Result} : Keeps (commitResults l) := Keeps.commitPushes.bind fun _ => Keeps.commitNames

protected theorem Inv.rereadStream {s : State} {p : Fin 4} (h : Inv s) : Inv (rereadStream s p) := by
  unfold rereadStream
  dsimp only
  split
  · split
    · next e => exact ((Keeps.loadSeg _ h).of_ok e).record
    · exact h
  · exact h

protected theorem Inv.rereadStreams {s : State} (h : Inv s) : Inv (rereadStreams s) := h.foldl (fun _ _ ht => ht.rereadStream)

protected theorem Inv.atSlot {s : State} {g : Nat} {k : Fin 16} {f : State → State} (h : Inv s) (hf : ∀ t, Inv t → Inv (f t)) :
    Inv (atSlot s g k f) :=
  Inv.setFocus (hf _ h.setFocus)

protected theorem Inv.bindReady {s : State} {g : Nat} {k : Fin 16} {f : Nat} (h : Inv s) : Inv (bindReady s g k f) :=
  h.bindOrFault.atSlot (fun _ ht => ht.rereadStreams)

protected theorem Inv.yieldSlot {s : State} {g : Nat} {k : Fin 16} (h : Inv s) : Inv (yieldSlot s g k) := by
  unfold yieldSlot
  split
  · exact h
  · dsimp only
    split
    · exact h.unbind
    · split
      · exact h.unbind.setCore.writeState.bindReady
      · split
        · exact h.unbind.setCore.writeState
        · exact h.unbind.setCore.writeState.setCore.enlist

protected theorem Inv.postService {s : State} {g f : Nat} {tenant : BitVec 12} {n : Word} (h : Inv s) :
    Each Inv (postService s g f tenant n) :=
  h.postMiss

protected theorem Inv.syscSlot {s : State} {g : Nat} {k : Fin 16} {n : Word} (h : Inv s) : Inv (syscSlot s g k n) := by
  unfold syscSlot
  split
  · exact Inv.getD h.postService h
  · dsimp only
    split
    · exact h.unbind.setFibreInfo
    · exact h.unbind

protected theorem Inv.applyFlow {s : State} {fl : Machine.Flow} {next : Word} (h : Inv s) : Inv (applyFlow s fl next) := by
  unfold applyFlow
  split
  · exact h.record
  · exact h.record
  · exact h.record.raiseTrap
  · exact h.record.haltFibre
  · exact h.record.syscSlot
  · exact h.record.yieldSlot

protected theorem Keeps.inSequence {m : M Unit} (hm : Keeps m) : Keeps (inSequence m) := hm.bind fun _ => Keeps.pure _

/-- An instruction whose effect keeps memory in canonical form goes on (R132), whatever it comes to. -/
protected theorem Ends.perform {m : M Flow} {s : State} (hm : Keeps m) : Ends s (perform m s) := by
  unfold perform
  split
  · next e =>
    split
    · exact .next fun h => ((hm s h).of_ok e).applyFlow
    · exact .next fun h => ((hm s h).of_ok e).record
  · next e =>
    split
    · exact .next fun h => (Inv.getD ((hm s h).of_trap e) h).raiseTrap
    · exact .next fun h => (Inv.getD ((hm s h).of_trap e) h).record
  · next e =>
    split
    · exact .next fun h => (Inv.getD ((hm s h).of_leave e) h).applyLeave
    · exact .next fun h => (Inv.getD ((hm s h).of_leave e) h).record

protected theorem Ends.performSeq {m : M Unit} {s : State} (hm : Keeps m) : Ends s (performSeq m s) := Ends.perform hm.inSequence

protected theorem Inv.publishFrom {s : State} {sc : Nat} (h : Inv s) : Inv (publishFrom s sc).2 := by
  unfold publishFrom
  refine Inv.pushPublish ?_
  split
  · exact h
  · exact h.beginPublish

protected theorem Keeps.release {f : Fib} {sc : Nat} : Keeps (release f sc) := by
  unfold release
  intro s h
  dsimp only
  split
  · exact Good.ok h.publishFrom.record
  · exact Good.leave (Each.some h.publishFrom.record)

/-! ## `Machine/Operands` -/

protected theorem Keeps.rdB {a : SrcB} : Keeps (rdB a) := by
  unfold rdB
  split
  · exact Keeps.rd
  · exact Keeps.pure _

protected theorem Keeps.rdArg {a : CArg} : Keeps (rdArg a) := by
  unfold rdArg
  split
  · exact Keeps.rd
  · exact Keeps.pure _

protected theorem Keeps.rdMem {m : MemRef} : Keeps (rdMem m) := Keeps.rd.bind fun _ => Keeps.pure _

protected theorem Keeps.rdRef {m : CRef} : Keeps (rdRef m) := Keeps.rd.bind fun _ => Keeps.pure _

protected theorem Keeps.rdRaw {r : SReg} : Keeps (rdRaw r) := by
  unfold rdRaw
  refine Keeps.theFib.bind fun _ => ?_
  split
  · exact Keeps.rd
  · exact Keeps.pure _

protected theorem Keeps.needClean {r : SReg} : Keeps (needClean r) := Keeps.theFib.bind fun _ => Keeps.ite Keeps.seeReg (Keeps.pure _)

protected theorem Keeps.rdRefRaw {m : CRef} : Keeps (rdRefRaw m) := Keeps.rdRaw.bind fun _ => Keeps.pure _

protected theorem Keeps.repop {r : SReg} : Keeps (repop r) := by
  unfold repop
  refine Keeps.theFib.bind fun _ => ?_
  split
  · exact Keeps.rd.bind fun _ => Keeps.pure _
  · exact Keeps.pure _

protected theorem Keeps.repopArg {a : CArg} : Keeps (repopArg a) := by
  unfold repopArg
  split
  · exact Keeps.repop
  · exact Keeps.pure _

protected theorem Keeps.rdVSrc {a : VSrc} : Keeps (rdVSrc a) := by
  unfold rdVSrc
  split
  · exact Keeps.rdV
  · exact Keeps.rd.bind fun _ => Keeps.pure _
  · exact Keeps.pure _

protected theorem Keeps.rdVSrcC {a : VSrcC} : Keeps (rdVSrcC a) := by
  unfold rdVSrcC
  split
  · exact Keeps.rdV
  · exact Keeps.rd.bind fun _ => Keeps.pure _

/-! ## `Machine/Counters` -/

protected theorem Keeps.counterWord {sg : Fin 8} {o : Word} : Keeps (counterWord sg o) := by
  unfold counterWord
  refine Keeps.get_bind fun _ _ => ?_
  dsimp only
  split
  · exact Keeps.ite Keeps.fail Keeps.fail
  · exact Keeps.ite Keeps.fail (Keeps.pure _)

protected theorem Keeps.drainBytes {n n2 : Nat} : Keeps (drainBytes n n2) := Keeps.change fun _ ht => ht.drainWhere

protected theorem Keeps.drainWord {n : Nat} : Keeps (drainWord n) := Keeps.drainBytes

protected theorem Keeps.afterOwn {n : Nat} : Keeps (afterOwn n) := Keeps.change fun _ ht => ht.flushMsgs.correctRead

protected theorem Keeps.comeAfterOwn {n : Nat} : Keeps (comeAfterOwn n) := Keeps.needTurn.bind fun _ => Keeps.afterOwn

protected theorem Keeps.comeToHome {n : Nat} : Keeps (comeToHome n) := Keeps.needPath.bind fun _ => Keeps.comeAfterOwn

protected theorem Keeps.failPoisoned {α : Type} {f : Fib} {n : Nat} {taddr : Word} : Keeps (failPoisoned (α := α) f n taddr) :=
  (Keeps.change fun _ ht => ht.poisonEvent).bind fun _ => Keeps.failKeeping

protected theorem Keeps.isToxicM {n : Nat} : Keeps (isToxicM n) := fun _ h => Good.ok h

protected theorem Keeps.releaseAt {f : Fib} {rel : Bool} {sc : Scope} : Keeps (releaseAt f rel sc) := Keeps.ite Keeps.release (Keeps.pure _)

protected theorem Keeps.acquireAt {acq : Bool} {sc : Scope} : Keeps (acquireAt acq sc) :=
  Keeps.ite (Keeps.change fun _ ht => ht.acquire) (Keeps.pure _)

protected theorem Keeps.caddStart {f : Fib} {rel : Bool} {sc : Scope} {m : CRef} {i : CArg} : Keeps (caddStart f rel sc m i) :=
  Keeps.rdRef.bind fun _ => Keeps.counterWord.bind fun _ => Keeps.rdArg.bind fun _ => Keeps.ite Keeps.fail (Keeps.drainWord.bind fun _ =>
    Keeps.releaseAt.bind fun _ => Keeps.pure _)

protected theorem Inv.postMsg {s : State} {m : CtrMsg} (h : Inv s) : Inv (postMsg s m) := by
  unfold postMsg
  dsimp only
  split
  · exact h.setCore
  · exact h.record

protected theorem Keeps.postAdd {n : Nat} {n2 : Word} : Keeps (postAdd n n2) := Keeps.change fun _ ht => ht.postMsg

protected theorem Ends.execCadd {rel : Bool} {sc : Scope} {m : CRef} {i : CArg} {s : State} : Ends s (execCadd rel sc m i s) :=
  Ends.performSeq (Keeps.inTurn (Keeps.caddStart.bind fun _ => Keeps.postAdd))

protected theorem Ends.execCaddF {rel : Bool} {sc : Scope} {d : SReg} {m : CRef} {i : CArg} {s : State} :
    Ends s (execCaddF rel sc d m i s) :=
  Ends.performSeq (Keeps.inTurn (Keeps.caddStart.bind fun _ => Keeps.comeAfterOwn.bind fun _ => Keeps.isToxicM.bind fun _ =>
    Keeps.ite Keeps.failPoisoned (Keeps.get_bind fun _ _ => (Keeps.change fun _ ht2 => ht2.setCounter).bind fun _ => Keeps.result)))

protected theorem Keeps.sleepOn {f : Fib} {w : Sleep} {n : Nat} {t : Word} : Keeps (sleepOn f w n t) :=
  Keeps.get_bind fun _ _ => Keeps.leaveKeeping

protected theorem Ends.execCwait {acq : Bool} {sc : Scope} {d : SReg} {m : CRef} {t : CArg} {s : State} :
    Ends s (execCwait acq sc d m t s) :=
  Ends.performSeq (Keeps.inTurn (Keeps.takeWake.bind fun _ => Keeps.onWake
    (fun _ => Keeps.repop.bind fun _ => Keeps.repopArg.bind fun _ => Keeps.acquireAt.bind fun _ => Keeps.result)
    (Keeps.rdRef.bind fun _ => Keeps.fail)
    (Keeps.rdRef.bind fun _ => Keeps.counterWord.bind fun _ => Keeps.rdArg.bind fun _ => Keeps.drainWord.bind fun _ =>
      Keeps.comeAfterOwn.bind fun _ => Keeps.isToxicM.bind fun _ => Keeps.ite Keeps.failPoisoned (Keeps.get_bind fun _ _ =>
      Keeps.ite (Keeps.acquireAt.bind fun _ => Keeps.result) Keeps.sleepOn))))

protected theorem Keeps.counterRead {f : Fib} {n : Nat} {o : Word} : Keeps (counterRead f n o) :=
  Keeps.drainWord.bind fun _ => Keeps.comeAfterOwn.bind fun _ => Keeps.isToxicM.bind fun _ =>
    Keeps.ite Keeps.failPoisoned (Keeps.get_bind fun _ _ => Keeps.pure _)

protected theorem Ends.execCread {acq : Bool} {sc : Scope} {d : SReg} {m : CRef} {s : State} : Ends s (execCread acq sc d m s) :=
  Ends.performSeq (Keeps.inTurn (Keeps.rdRef.bind fun _ => Keeps.counterWord.bind fun _ => Keeps.counterRead.bind fun _ =>
    Keeps.acquireAt.bind fun _ => Keeps.result))

protected theorem Ends.execCpoll {acq : Bool} {sc : Scope} {d : SReg} {m : CRef} {t : CArg} {s : State} :
    Ends s (execCpoll acq sc d m t s) :=
  Ends.performSeq (Keeps.inTurn (Keeps.rdRef.bind fun _ => Keeps.counterWord.bind fun _ => Keeps.rdArg.bind fun _ =>
    Keeps.counterRead.bind fun _ => Keeps.acquireAt.bind fun _ => Keeps.result))

protected theorem Keeps.stragRead {m : CRef} : Keeps (stragRead m) :=
  Keeps.rdRef.bind fun _ => Keeps.counterWord.bind fun _ => Keeps.drainWord.bind fun _ => Keeps.comeAfterOwn.bind fun _ =>
    Keeps.get_bind fun _ _ => Keeps.pure _

protected theorem Ends.execCstrag {d : SReg} {m : CRef} {s : State} : Ends s (execCstrag d m s) :=
  Ends.performSeq (Keeps.inTurn (Keeps.stragRead.bind fun _ => Keeps.result))

protected theorem Ends.execCstragT {d : SReg} {m : CRef} {s : State} : Ends s (execCstragT d m s) :=
  Ends.performSeq (Keeps.inTurn (Keeps.stragRead.bind fun _ => Keeps.result))

/-! ## `Machine/Vectors` -/

protected theorem Keeps.vec1 {f : Lane → Lane} {d k : Fin 16} : Keeps (vec1 f d k) := Keeps.rdV.bind fun _ => Keeps.resultV

protected theorem Keeps.vec2 {f : Lane → Lane → Lane} {d k : Fin 16} {b : VSrc} : Keeps (vec2 f d k b) :=
  Keeps.rdV.bind fun _ => Keeps.rdVSrc.bind fun _ => Keeps.resultV

protected theorem Ends.execVadd {k : LKind} {sat : Bool} {rm : RM} {d k2 : Fin 16} {b : VSrc} {s : State} :
    Ends s (execVadd k sat rm d k2 b s) :=
  Ends.performSeq Keeps.vec2

protected theorem Ends.execVsub {k : LKind} {sat : Bool} {rm : RM} {d k2 : Fin 16} {b : VSrc} {s : State} :
    Ends s (execVsub k sat rm d k2 b s) :=
  Ends.performSeq Keeps.vec2

protected theorem Ends.execVmul {k : LKind} {sat : Bool} {rm : RM} {d k2 : Fin 16} {b : VSrc} {s : State} :
    Ends s (execVmul k sat rm d k2 b s) :=
  Ends.performSeq Keeps.vec2

protected theorem Ends.execVfma {k : LKind} {rm : RM} {d k2 : Fin 16} {b : VSrc} {c : VSrcC} {s : State} :
    Ends s (execVfma k rm d k2 b c s) :=
  Ends.performSeq (Keeps.rdV.bind fun _ => Keeps.rdVSrc.bind fun _ => Keeps.rdVSrcC.bind fun _ => Keeps.resultV)

protected theorem Ends.execVmax {k : LKind} {d k2 : Fin 16} {b : VSrc} {s : State} : Ends s (execVmax k d k2 b s) :=
  Ends.performSeq Keeps.vec2

protected theorem Ends.execVmin {k : LKind} {d k2 : Fin 16} {b : VSrc} {s : State} : Ends s (execVmin k d k2 b s) :=
  Ends.performSeq Keeps.vec2

protected theorem Ends.execVabs {int sat : Bool} {d k : Fin 16} {s : State} : Ends s (execVabs int sat d k s) := Ends.performSeq Keeps.vec1

protected theorem Ends.execVneg {int sat : Bool} {d k : Fin 16} {s : State} : Ends s (execVneg int sat d k s) := Ends.performSeq Keeps.vec1

protected theorem Ends.execVrcp {rm : RM} {d k : Fin 16} {s : State} : Ends s (execVrcp rm d k s) := Ends.performSeq Keeps.vec1

protected theorem Ends.execVrsq {rm : RM} {d k : Fin 16} {s : State} : Ends s (execVrsq rm d k s) := Ends.performSeq Keeps.vec1

protected theorem Ends.execVexp2 {rm : RM} {d k : Fin 16} {s : State} : Ends s (execVexp2 rm d k s) := Ends.performSeq Keeps.vec1

protected theorem Ends.execVlog2 {rm : RM} {d k : Fin 16} {s : State} : Ends s (execVlog2 rm d k s) := Ends.performSeq Keeps.vec1

protected theorem Ends.execVcmp {k : LKind} {cc : VCond} {d : SReg} {k2 : Fin 16} {b : VSrc} {s : State} :
    Ends s (execVcmp k cc d k2 b s) :=
  Ends.performSeq (Keeps.rdV.bind fun _ => Keeps.rdVSrc.bind fun _ => Keeps.result)

protected theorem Ends.execVsel {d k : Fin 16} {b : VSrc} {c : SReg} {s : State} : Ends s (execVsel d k b c s) :=
  Ends.performSeq (Keeps.rdV.bind fun _ => Keeps.rdVSrc.bind fun _ => Keeps.rd.bind fun _ => Keeps.resultV)

protected theorem Ends.execVand {d k : Fin 16} {b : VSrc} {s : State} : Ends s (execVand d k b s) := Ends.performSeq Keeps.vec2

protected theorem Ends.execVor {d k : Fin 16} {b : VSrc} {s : State} : Ends s (execVor d k b s) := Ends.performSeq Keeps.vec2

protected theorem Ends.execVxor {d k : Fin 16} {b : VSrc} {s : State} : Ends s (execVxor d k b s) := Ends.performSeq Keeps.vec2

protected theorem Ends.execVshl {d k : Fin 16} {b : VSrc} {s : State} : Ends s (execVshl d k b s) := Ends.performSeq Keeps.vec2

protected theorem Ends.execVshr {d k : Fin 16} {b : VSrc} {s : State} : Ends s (execVshr d k b s) := Ends.performSeq Keeps.vec2

protected theorem Ends.execVshrS {d k : Fin 16} {b : VSrc} {s : State} : Ends s (execVshrS d k b s) := Ends.performSeq Keeps.vec2

protected theorem Ends.execVcvt {k : CvtKind} {rm : RM} {d k2 : Fin 16} {s : State} : Ends s (execVcvt k rm d k2 s) :=
  Ends.performSeq Keeps.vec1

protected theorem Ends.execVbcast {d : Fin 16} {b : SrcB} {s : State} : Ends s (execVbcast d b s) :=
  Ends.performSeq (Keeps.rdB.bind fun _ => Keeps.resultV)

protected theorem Ends.execVbcastL {k d k2 : Fin 16} {s : State} : Ends s (execVbcastL k d k2 s) :=
  Ends.performSeq (Keeps.rdV.bind fun _ => Keeps.resultV)

protected theorem Ends.execVperm {d k b : Fin 16} {s : State} : Ends s (execVperm d k b s) :=
  Ends.performSeq (Keeps.rdV.bind fun _ => Keeps.rdV.bind fun _ => Keeps.resultV)

protected theorem Ends.execVperm2 {d k b c : Fin 16} {s : State} : Ends s (execVperm2 d k b c s) :=
  Ends.performSeq (Keeps.rdV.bind fun _ => Keeps.rdV.bind fun _ => Keeps.rdV.bind fun _ => Keeps.resultV)

protected theorem Ends.execVred {op : RedOp} {rm : RM} {d : SReg} {k : Fin 16} {s : State} : Ends s (execVred op rm d k s) :=
  Ends.performSeq (Keeps.rdV.bind fun _ => Keeps.result)

protected theorem Ends.execVdot {rm : RM} {d : SReg} {k : Fin 16} {b : VSrc} {s : State} : Ends s (execVdot rm d k b s) :=
  Ends.performSeq (Keeps.rdV.bind fun _ => Keeps.rdVSrc.bind fun _ => Keeps.result)

protected theorem Ends.execVins {k : Fin 16} {d : Fin 12} {b : SrcB} {s : State} : Ends s (execVins k d b s) :=
  Ends.performSeq (Keeps.rdB.bind fun _ => Keeps.rdV.bind fun _ => Keeps.resultV)

protected theorem Ends.execVext {sx : Bool} {k : Fin 16} {d : SReg} {k2 : Fin 16} {s : State} : Ends s (execVext sx k d k2 s) :=
  Ends.performSeq (Keeps.rdV.bind fun _ => Keeps.result)

protected theorem Ends.execVscan {op : RedOp} {rm : RM} {d k : Fin 16} {s : State} : Ends s (execVscan op rm d k s) :=
  Ends.performSeq (Keeps.rdV.bind fun _ => Keeps.resultV)

protected theorem Ends.execVmov {d k : Fin 16} {s : State} : Ends s (execVmov d k s) := Ends.performSeq Keeps.vec1

protected theorem Ends.execVpack {k : PackKind} {d k2 b : Fin 16} {s : State} : Ends s (execVpack k d k2 b s) :=
  Ends.performSeq (Keeps.rdV.bind fun _ => Keeps.ite_bind_pure Keeps.rdV fun _ => Keeps.resultV)

/-! ## `Machine/Atomics` -/

protected theorem Keeps.keepingProgress {f0 : Fib} {i : Nat} {act : M Unit} (hact : Keeps act) : Keeps (keepingProgress f0 i act) := by
  intro s h
  have ha := hact s h
  unfold keepingProgress
  dsimp only
  split
  · next e => exact .ok (ha.of_ok e)
  · next e => exact .trap (.some (Inv.getD (ha.of_trap e) h).record)
  · next e => exact .leave (.some (Inv.getD (ha.of_leave e) h).record)

protected theorem Keeps.eachLane {f0 : Fib} {base : Word} {idx : VReg} {sc : Fin 3} {act : Fin 16 → Word → M Unit} {l : List (Fin 16)}
    (hact : ∀ i o, Keeps (act i o)) : Keeps (eachLane f0 base idx sc act l) := by
  induction l with
  | nil =>
    unfold eachLane
    exact Keeps.modFib
  | cons x xs ih =>
    unfold eachLane
    exact Keeps.ite ih ((Keeps.keepingProgress (hact _ _)).bind fun _ => ih)

protected theorem Keeps.clearVPoison {whole : Bool} {d : Fin 16} : Keeps (clearVPoison whole d) := Keeps.ite Keeps.modFib (Keeps.pure _)

protected theorem Keeps.setLane {d : Fin 12} {i : Fin 16} {a : Lane} : Keeps (setLane d i a) := Keeps.modFib

protected theorem Ends.execVgath {sc : Fin 3} {d : Fin 12} {m : CRef} {b : Fin 16} {s : State} : Ends s (execVgath sc d m b s) :=
  Ends.performSeq (Keeps.rdRef.bind fun _ => Keeps.rdV.bind fun _ => (Keeps.eachLane fun _ _ => Keeps.loadSeg.bind fun _ =>
    Keeps.setLane).bind fun _ => Keeps.clearVPoison)

protected theorem Ends.execVscat {sc : Fin 3} {m : CRef} {b c : Fin 16} {s : State} : Ends s (execVscat sc m b c s) :=
  Ends.performSeq (Keeps.rdRef.bind fun _ => Keeps.rdV.bind fun _ => Keeps.rdV.bind fun _ => Keeps.eachLane fun _ _ => Keeps.storeSeg)

protected theorem Inv.retestQuiet {s : State} {n : Nat} (h : Inv s) : Inv (retestQuiet s n) := h.record.foldl (fun _ _ ht => ht.wakeOne)

protected theorem Keeps.atomRead {a : Nat} : Keeps (atomRead a) := by
  unfold atomRead
  refine Keeps.get_bind fun s h => ?_
  split
  · exact Keeps.bind Keeps.farLoad fun _ => Keeps.pure _
  · split
    · exact Keeps.bind (Keeps.set h.swLoad) fun _ => Keeps.pure _
    · exact Keeps.pure _

protected theorem Keeps.atomWrite {n : Nat} {a : Lane} : Keeps (atomWrite n a) := by
  unfold atomWrite
  refine Keeps.changeOrWait fun _ ht => ?_
  split
  · exact Each.some ht.writeBytes.retestQuiet
  · exact ht.landStore

protected theorem Keeps.atomLane {op : AtomOp} {a : Nat} {o : Word} {x : Lane} : Keeps (atomLane op a o x) := by
  unfold atomLane
  refine Keeps.get_bind fun _ _ => Keeps.ite Keeps.failUnbacked (Keeps.needLink.bind fun _ => Keeps.drainBytes.bind fun _ => ?_)
  extract_lets rest
  have hrest : ∀ u, Keeps (rest u) := fun _ => Keeps.isToxicM.bind fun _ => Keeps.ite Keeps.failPoisoned (Keeps.atomRead.bind fun _ =>
    Keeps.atomWrite.bind fun _ => (Keeps.change fun _ ht => ht.dropLines).bind fun _ => Keeps.pure _)
  exact Keeps.ite ((Keeps.change fun _ ht => ht.correctRead).bind hrest) (Keeps.needPath.bind hrest)

protected theorem Ends.execVratom {op : AtomOp} {sc : Fin 3} {d : Option (Fin 12)} {m : CRef} {b : Fin 16} {c : VSrcC} {s : State} :
    Ends s (execVratom op sc d m b c s) := by
  unfold execVratom
  refine Ends.performSeq (Keeps.rdRef.bind fun _ => Keeps.rdV.bind fun _ => Keeps.rdVSrcC.bind fun _ =>
    Keeps.bind (Keeps.eachLane fun _ _ =>
    Keeps.resolve.bind fun l => ?_) fun _ => ?_)
  · obtain _ | ⟨p, _ | ⟨q, l⟩⟩ := l
    · exact Keeps.pure _
    · refine Keeps.atomLane.bind fun _ => ?_
      cases d with
      | none => exact Keeps.pure _
      | some k => exact Keeps.setLane
    · exact Keeps.pure _
  · cases d with
    | none => exact Keeps.pure _
    | some k => exact Keeps.clearVPoison

end Sys2Proof.Safety
end

