-- ==== Sys2Proof/Proofs/KeptEngines.lean ====
section
/-!
SUPPORT. The work of the engines keeps memory in canonical form.
-/
namespace Sys2Proof.Safety
open Sys2Proof Sys2Proof.Machine

/-! ## `Machine/Engine` -/

protected theorem Keeps.readHeader {sg : Fin 8} {h : Word} : Keeps (readHeader sg h) := by
  unfold readHeader
  refine Keeps.resolve.bind fun _ => Keeps.get_bind fun _ _ => ?_
  split
  · refine Keeps.ite Keeps.fail ?_
    dsimp only
    split
    · exact Keeps.fail
    · exact (Keeps.change fun _ ht2 => ht2.correctRead).bind fun _ => Keeps.ite Keeps.fail (Keeps.pure _)
  · exact Keeps.fail

protected theorem Inv.countSent {s : State} {d : Cmd} (h : Inv s) : Inv (countSent s d) := by
  unfold countSent
  split
  · exact h.setKern
  · exact h

protected theorem Inv.countRcvd {s : State} {d : Cmd} (h : Inv s) : Inv (countRcvd s d) := by
  unfold countRcvd
  split
  · exact h.setKern
  · exact h

protected theorem Inv.placeCommand {d : Cmd} {who : Adder} {s : State} (h : Inv s) : Inv (placeCommand d who s) :=
  h.storeIn.drainBlocks.record.countSent.addAt

protected theorem Keeps.placeEngine {f : Fib} {kind : Nat} {sc : Scope} {d : SReg} {m : CRef} {v : Fin 16} :
    Keeps (placeEngine f kind sc d m v) := by
  unfold placeEngine
  refine Keeps.inTurn (Keeps.rdRef.bind fun _ => Keeps.readHeader.bind fun _ => Keeps.ite Keeps.fail (Keeps.rdV.bind fun _ =>
    Keeps.get_bind fun _ _ => Keeps.ite Keeps.fail ?_))
  split
  · exact Keeps.fail
  · exact Keeps.ite Keeps.fail (Keeps.ite Keeps.leaveFor (Keeps.needTurn.bind fun _ => Keeps.release.bind fun _ =>
      Keeps.afterOwn.bind fun _ => (Keeps.change fun _ ht2 => ht2.placeCommand).bind fun _ => Keeps.result))

protected theorem Keeps.queryStatus {m : CRef} {b : SReg} : Keeps (queryStatus m b) :=
  Keeps.rdRef.bind fun _ => Keeps.readHeader.bind fun _ => Keeps.rd.bind fun _ => Keeps.get_bind fun _ _ => (Keeps.change fun _ ht2 =>
    ht2.correctRead).bind fun _ => Keeps.ite Keeps.fail (Keeps.ite (Keeps.pure _) (Keeps.pure _))

/-! ## `Machine/EngineWork` -/

protected theorem Inv.setCmd {s : State} {d : Cmd} (h : Inv s) : Inv (setCmd s d) := h.record

protected theorem Inv.putCmd {s : State} {d : Cmd} (h : Inv s) : Inv (putCmd s d) := h.dropGrants.setCmd.storeAt

protected theorem Inv.raisePend {s : State} {d : Cmd} (h : Inv s) : Inv (raisePend s d) := by
  unfold raisePend
  split
  · exact h
  · split
    · dsimp only
      split
      · exact h
      · exact h.setCtx
    · split
      · exact h
      · dsimp only
        split
        · exact h
        · exact h.setFibreInfo.writeNat

protected theorem Inv.failCmd {s : State} {d : Cmd} {code : Nat} (h : Inv s) : Inv (failCmd s d code) := h.putCmd.raisePend

protected theorem Inv.doneCmd {s : State} {d : Cmd} (h : Inv s) : Inv (doneCmd s d) := h.putCmd

protected theorem Inv.finishCmd {s : State} {d : Cmd} (h : Inv s) : Inv (finishCmd s d) := by
  unfold finishCmd
  split
  · exact h.doneCmd
  · exact h.putCmd

protected theorem Inv.spotAsk {s : State} {d : Cmd} {va kind n : Nat} (h : Inv s) : SpotInv (spotAsk s d va kind n) := by
  unfold spotAsk
  extract_lets user
  refine SpotInv.ite ?_ (SpotInv.ite ?_ ?_)
  · generalize hostAperture s va n (accNeeds kind) user d.tenant = host
    split
    · exact .later h
    · exact .at_ h
    · exact .bad
  · cases peerAperture s va user d.tenant with
    | none => exact .bad
    | some w =>
      dsimp only
      split
      · exact .later h
      · exact SpotInv.ite (.later h) (.at_ h)
      · exact .bad
  · cases bareLoc va with
    | some a => exact SpotInv.ite .bad (SpotInv.ite (.later h) (.at_ h))
    | none =>
      cases e : lookupVa s d.g d.tenant kind (w64 va) with
      | mk a t =>
        have ht := h.lookupVa.snd_of_eq e
        cases a with
        | some a => exact SpotInv.ite (.later ht) (.at_ ht)
        | none =>
          dsimp only
          cases grantFor t d.g (cmdMiss d va kind) with
          | some l => exact SpotInv.ite (.later ht) (.at_ ht)
          | none => exact .later (Inv.getD ht.postMiss ht)

protected theorem Inv.behindPorts {s : State} {d : Cmd} {f : State → State} (h : Inv s) (hf : ∀ t, Inv t → Inv (f t)) :
    Inv (behindPorts s d f) := by
  unfold behindPorts
  dsimp only
  split
  · exact hf _ h.clearPath
  · exact h.clearPath

protected theorem Inv.spotVa {s : State} {d : Cmd} {va kind n : Nat} (h : Inv s) : SpotInv (spotVa s d va kind n) := by
  unfold spotVa
  split
  · next e =>
      extract_lets u
      have hu : Inv u := (h.spotAsk.of_at_ e).clearPath
      split
      · exact SpotInv.at_ hu
      · exact SpotInv.later hu
  · exact h.spotAsk

protected theorem Inv.spot {s : State} {d : Cmd} {e : Endpoint} {i n : Nat} (h : Inv s) : SpotInv (spot s d e i n) := by
  unfold spot
  split
  · exact SpotInv.at_ h
  · split
    · exact SpotInv.at_ h
    · split
      · exact h.spotVa
      · split
        · exact SpotInv.bad
        · split
          · exact SpotInv.bad
          · exact h.spotVa

protected theorem Inv.engSpans {d : Cmd} {p : Endpoint} {fuel : Nat} {s : State} {i n : Nat} (h : Inv s) :
    EngInv (engSpans d p fuel s i n) := by
  induction fuel generalizing s i n with
  | zero => exact .ok h
  | succ fuel ih =>
    unfold engSpans
    split
    · exact .ok h
    · split
      · exact .bad
      · next e => exact .later (h.spot.of_later e)
      · next e =>
        have ht := h.spot.of_at_ e
        split
        · next e2 => exact .ok ((ih ht).of_ok e2)
        · exact ih ht

protected theorem Inv.spansOf {s : State} {d : Cmd} {e : Endpoint} {i n : Nat} (h : Inv s) : EngInv (spansOf s d e i n) := h.engSpans

protected theorem Inv.engRead {s : State} {d : Cmd} {n n2 : Nat} (h : Inv s) : Inv (engRead s d n n2).2 := by
  unfold engRead
  split
  · exact h.swBytes
  · exact h.devRead

/-- Spoiling words one after the other keeps memory in canonical form. -/
theorem Inv.spoilAll {die : Nat} {o : Option State} {l : List Nat} (h : Each Inv o) :
    Each Inv (l.foldl (fun t w => t.bind fun u => (spoil u w 8).map fun v => bumpDie v die 0x48 1) o) := by
  induction l generalizing o with
  | nil => exact h
  | cons w l ih => exact ih (h.bind fun _ hu => hu.spoil.map fun _ hv => hv.bumpDie)

protected theorem Inv.devWrite {s : State} {die a : Nat} {l : List (Byte × Bool)} {who : Adder} (h : Inv s) :
    Each Inv (devWrite s die a l who) := by
  unfold devWrite
  split
  · exact .some h.bumpDie
  · refine h.landStore.bind fun t ht => ?_
    split
    · exact .some ht
    · exact Inv.spoilAll (.some ht)

protected theorem Inv.tagFlits {s t : State} {d : Cmd} {n a : Nat} (h : Inv t) : Inv (tagFlits s t d n a) := h.setLink

protected theorem Inv.engWrite {s : State} {d : Cmd} {n a : Nat} {l : List (Byte × Bool)} (h : Inv s) : Each Inv (engWrite s d n a l) :=
  Each.map h.devWrite fun _ ht => Inv.ite ht.tagFlits ht

protected theorem Inv.cmdReads {d : Cmd} {l : List (Nat × Nat)} {s : State} (h : Inv s) : Inv (cmdReads d l s).2 := by
  induction l generalizing s with
  | nil => exact h
  | cons x xs ih => exact ih h.engRead

protected theorem Inv.orWait {s : State} {r : Option State} {go : State → State} (h : Inv s) (hr : Each Inv r)
    (hgo : ∀ t, Inv t → Inv (go t)) : Inv (orWait s r go) := by
  unfold orWait
  split
  · exact hgo _ (hr.of_some rfl)
  · exact h

protected theorem Inv.writeParts {d : Cmd} {l : List (Nat × List (Byte × Bool))} {n : Nat} {s : State} (h : Inv s) :
    Inv (writeParts d l n s).2 := by
  induction l generalizing n s with
  | nil => exact h
  | cons x xs ih =>
    unfold writeParts
    split
    · next e => exact ih (h.engWrite.of_some e)
    · exact h

protected theorem Inv.writeLeft {s : State} {d : Cmd} (h : Inv s) : Inv (writeLeft s d) := by
  unfold writeLeft
  split
  · exact h.failCmd
  · split
    · dsimp only
      split
      · next e => exact (h.writeParts.snd_of_eq e).failCmd
      · next e => exact (h.writeParts.snd_of_eq e).putCmd
    · dsimp only
      split
      · next e => exact (h.writeParts.snd_of_eq e).finishCmd
      · next e => exact (h.writeParts.snd_of_eq e).putCmd

protected theorem Inv.advanceTo {s : State} {d : Cmd} {n : Nat} (h : Inv s) : Inv (advanceTo s d n) := by
  unfold advanceTo
  split
  · exact h.finishCmd
  · exact h.putCmd

protected theorem Inv.copyPiece {s : State} {d : Cmd} (h : Inv s) : Inv (copyPiece s d) := by
  unfold copyPiece
  extract_lets n
  cases e : spot s d (srcEnd d) d.done n with
  | bad c => exact h.failCmd
  | later t => exact h.spot.of_later e
  | at_ a n1 s1 =>
    have hs1 := h.spot.of_at_ e
    dsimp only
    cases e2 : spot s1 d (dstEnd d) d.done n1 with
    | bad c => exact hs1.failCmd
    | later t => exact hs1.spot.of_later e2
    | at_ b n2 s2 =>
      have hs2 := hs1.spot.of_at_ e2
      refine hs2.orWait (Inv.engWrite ?_) fun _ hu => hu.advanceTo
      split
      · exact hs2.engRead.freshBytes
      · exact hs2.engRead

protected theorem Inv.settleRuns {s : State} {d : Cmd} (h : Inv s) : Inv (settleRuns s d) := by
  unfold settleRuns
  dsimp only
  split
  · exact h.doneCmd
  · exact h.putCmd

protected theorem Inv.runAccepted {s : State} {d : Cmd} {k : Nat} (h : Inv s) : Inv (runAccepted s d k) := by
  unfold runAccepted
  split
  · split
    · exact h
    · split
      · exact h.failCmd
      · next e2 => exact h.spansOf.of_later e2
      · next e2 =>
          split
          · exact h.spansOf.of_ok e2
          · refine Inv.orWait (h.spansOf.of_ok e2) ((h.spansOf.of_ok e2).cmdReads.engWrite) ?_
            intro a ht3
            refine Inv.settleRuns ?_
            split
            · exact ht3
            · exact ht3.addAt

protected theorem Inv.decodeAll {s : State} {d : Cmd} (h : Inv s) : Inv (decodeAll s d) := by
  unfold decodeAll
  split
  · exact h.failCmd
  · split
    · exact h.failCmd
    · next e2 => exact h.spansOf.of_later e2
    · next e2 =>
        split
        · exact (h.spansOf.of_ok e2).failCmd
        · next e3 => exact (h.spansOf.of_ok e2).spansOf.of_later e3
        · next e3 =>
            split
            · exact (h.spansOf.of_ok e2).spansOf.of_ok e3
            · exact ((h.spansOf.of_ok e2).spansOf.of_ok e3).cmdReads.writeLeft

protected theorem Inv.loadTable {s : State} {d : Cmd} (h : Inv s) : Inv (loadTable s d) := by
  unfold loadTable
  split
  · exact h.failCmd
  · next e => exact h.spansOf.of_later e
  · next e =>
      split
      · exact h.spansOf.of_ok e
      · dsimp only
        split
        · exact (h.spansOf.of_ok e).cmdReads.failCmd
        · refine Inv.doneCmd ?_
          refine Inv.record ?_
          split
          · exact (h.spansOf.of_ok e).cmdReads
          · exact (h.spansOf.of_ok e).cmdReads.bumpDie

protected theorem Inv.reducePiece {s : State} {d : Cmd} (h : Inv s) : Inv (reducePiece s d) := by
  unfold reducePiece
  extract_lets n
  cases e : spot s d (srcEnd d) d.done n with
  | bad c => exact h.failCmd
  | later t => exact h.spot.of_later e
  | at_ a n1 s1 =>
    have hs1 := h.spot.of_at_ e
    dsimp only
    cases e2 : spot s1 d (currentEnd d accEngRead) d.done n1 with
    | bad c => exact hs1.failCmd
    | later t => exact hs1.spot.of_later e2
    | at_ b n2 s2 =>
      have hs2 := hs1.spot.of_at_ e2
      dsimp only
      cases e3 : spot s2 d (stageEnd d) d.done n2 with
      | bad c => exact hs2.failCmd
      | later t => exact hs2.spot.of_later e3
      | at_ w n3 s3 =>
        have hs3 := hs2.spot.of_at_ e3
        exact hs3.orWait hs3.engRead.engRead.engWrite fun _ hu => Inv.ite hu.putCmd (Inv.ite hu.finishCmd hu.putCmd)

protected theorem Inv.reduceCommit {s : State} {d : Cmd} (h : Inv s) : Inv (reduceCommit s d) := by
  unfold reduceCommit
  split
  · exact h.failCmd
  · next e => exact h.spansOf.of_later e
  · next e =>
      split
      · next e2 =>
          split
          · exact (h.spansOf.of_ok e).spansOf.of_ok e2
          · exact ((h.spansOf.of_ok e).spansOf.of_ok e2).cmdReads.writeLeft
      · exact h.spansOf.of_ok e

protected theorem Inv.settleRows {s0 : State} {d : Cmd} (h : Inv s0) : Inv (settleRows s0 d) := by
  unfold settleRows
  dsimp only
  split
  · exact h.correctRead.doneCmd
  · exact h.correctRead.putCmd

protected theorem Inv.rowAccepted {s0 : State} {d : Cmd} (h : Inv s0) : Inv (rowAccepted s0 d) := by
  unfold rowAccepted
  extract_lets s row gather next
  have hs : Inv s := h.correctRead
  have hrow : ∀ {a n : Nat} {b : List (Byte × Bool)} {t : State}, Inv t → Inv ((engWrite t d n a b).getD t) :=
    fun ht => Inv.getD ht.engWrite ht
  cases rowIndex s d d.done with
  | mk ix tox =>
    exact Inv.ite h.settleRows (Inv.ite (Inv.ite (hrow hs) hs.bumpDie).settleRows
      (Inv.ite hs.failCmd (Inv.ite (hrow hs.engRead) (hrow hs.engRead).addAt).settleRows))

protected theorem Inv.drainPages {pages : List (Nat × Nat)} {gs : List Nat} {s : State} (h : Inv s) : Inv (drainPages pages gs s) :=
  h.foldl (fun _ _ ht => ht.drainWhere)

protected theorem Inv.pushPages {pages : List (Nat × Nat)} {s : State} (h : Inv s) : Each Inv (pushPages pages s) := by
  unfold pushPages
  dsimp only
  split
  · exact Each.none
  · exact Each.some (h.foldl (fun _ _ ht2 => ht2.pushReqs))

protected theorem Inv.invalidate {s : State} {what : Option (BitVec 12 × Option Nat)} {p : TlbEntry → Bool} (h : Inv s) :
    Each Inv (invalidate s what p) := by
  unfold invalidate
  dsimp only
  split
  · exact Each.some h.record
  · exact h.record.drainPages.pushPages

protected theorem Inv.invalidateVa {s : State} {tenant : BitVec 12} {va : Nat} (h : Inv s) : Each Inv (invalidateVa s tenant va) :=
  h.invalidate

protected theorem Inv.nvmeError {s : State} {n n2 : Nat} (h : Inv s) : Each Inv (nvmeError s n n2) := by
  unfold nvmeError
  split
  · exact Each.some h.record
  · exact Each.none

protected theorem Inv.nvmePiece {s : State} {d : Cmd} (h : Inv s) : Inv (nvmePiece s d) := by
  unfold nvmePiece
  dsimp only
  split
  · exact h.failCmd
  · exact h
  · split
    · exact h.failCmd
    · next e2 => exact h.spot.of_later e2
    · next e2 =>
        split
        · next e3 => exact ((h.spot.of_at_ e2).nvmeError.of_some e3).failCmd
        · exact (h.spot.of_at_ e2).orWait ((h.spot.of_at_ e2).engRead.engWrite) (fun _ ht => ht.advanceTo)

/-- Cells left out of memory leave it in canonical form. -/
theorem Inv.without {s : State} {p : Host.Cell → Bool} {l : List Nat} (h : Inv s) :
    Inv { s with mem := s.mem.filter p, poison := l } := memWf_filter _ h

protected theorem Inv.moveRange {s : State} {g a b n : Nat} (h : Inv s) : Inv (moveRange s g a b n) := by
  unfold moveRange
  extract_lets dead src tox s0 s2 s1
  have hs0 : Inv s0 := h.without
  have hs2 : Inv s2 := Inv.ite hs0 (hs0.foldl fun _ _ ht => ht.setByte)
  have hs1 : Inv s1 := Inv.ite h.bumpDie (Inv.ite h.countDropped (hs2.foldl fun _ _ ht => ht.setToxic).bumpDie)
  exact Inv.ite hs1.bumpDie hs1

protected theorem Inv.tierPiece {s : State} {d : Cmd} (h : Inv s) : Inv (tierPiece s d) := by
  unfold tierPiece
  extract_lets va target
  cases walkLeaf s d.tenant va with
  | none => exact Inv.getD h.postMiss h
  | some x =>
    obtain ⟨la, w, n⟩ := x
    refine Inv.ite h.failCmd (Inv.ite (Inv.ite h.advanceTo (Inv.ite h ?_)) ?_)
    · split
      · next e => exact (h.storeAt.invalidateVa.of_some e).putCmd
      · exact h
    · extract_lets _ _ clear
      have hclear : Inv clear := h.storeAt
      split
      · exact hclear.failCmd
      · next e =>
        have hs1 := h.popFrame.snd_of_eq e
        split
        · exact h
        · exact h
        · exact hclear.failCmd
        · exact hclear.failCmd
        · split
          · exact hclear.record.failCmd
          · exact hs1.moveRange.storeAt.pushFrame.advanceTo

protected theorem Inv.publishHandle {s : State} {d : Cmd} (h : Inv s) : Inv (publishHandle s d) := by
  unfold publishHandle
  dsimp only
  split
  · exact h.failCmd
  · split
    · exact h.failCmd
    · exact h.writeWord.writeWord.doneCmd

protected theorem Inv.workCmd {s : State} {d : Cmd} (h : Inv s) : Inv (workCmd s d) := by
  unfold workCmd
  split
  · exact h.failCmd
  · split
    · exact h.finishCmd
    · split
      · exact h.writeLeft
      · split
        · exact h.copyPiece
        · exact h.settleRuns
        · exact h.settleRuns
        · exact h.decodeAll
        · split
          · exact h.reduceCommit
          · exact h.reducePiece
        · exact h.behindPorts (fun _ ht3 => ht3.tierPiece)
        · exact h.behindPorts (fun _ ht3 => ht3.nvmePiece)
        · exact h.behindPorts (fun _ ht3 => ht3.nvmePiece)
        · exact h.loadTable
        · exact h.behindPorts (fun _ ht3 => ht3.publishHandle)
        · exact h.settleRows

protected theorem Inv.takeCommand {s : State} {i : Nat} (h : Inv s) : Inv (takeCommand s i) := by
  unfold takeCommand
  split
  · exact h
  · split
    · split
      · exact h.behindPorts (fun _ ht3 => ht3.record.putCmd.workCmd)
      · exact h.record.putCmd.workCmd
    · split
      · exact h.workCmd
      · exact h

protected theorem Inv.multicastEvent {s : State} {i k : Nat} (h : Inv s) : Inv (multicastEvent s i k) := by
  unfold multicastEvent
  split
  · split
    · exact h.runAccepted
    · exact h
  · exact h

protected theorem Inv.gatherEvent {s : State} {i : Nat} (h : Inv s) : Inv (gatherEvent s i) := by
  unfold gatherEvent
  split
  · split
    · exact h.rowAccepted
    · exact h
  · exact h

protected theorem Inv.parkCmd {s : State} {i : Option Nat} {t : Nat} (h : Inv s) : Inv (parkCmd s i t) := by
  unfold parkCmd
  split
  · split
    · exact h.putCmd
    · exact h
  · exact h

protected theorem Inv.resumeCmd {s : State} {i : Nat} (h : Inv s) : Inv (resumeCmd s i) := by
  unfold resumeCmd
  split
  · exact h
  · split
    · exact h
    · split
      · exact h
      · split
        · dsimp only
          split
          · exact h.setCore.failCmd
          · exact h.putCmd
        · dsimp only
          split
          · exact h.setCore.failCmd
          · exact h.putCmd

protected theorem Inv.retireCmd {s : State} {i : Nat} (h : Inv s) : Inv (retireCmd s i) := by
  unfold retireCmd
  split
  · exact h
  · split
    · exact h
    · exact h.addAt.addAt.record.countRcvd

end Sys2Proof.Safety
end

