-- ==== Sys2Proof/Proofs/KeptFrames.lean ====
section
/-!
SUPPORT. The frames, the token store, the tiles and the attention units keep memory in canonical form.
-/
namespace Sys2Proof.Safety
open Sys2Proof Sys2Proof.Machine

/-! ## `Machine/FrameOps` -/

protected theorem Keeps.stackFault {α : Type} {n : Nat} : Keeps (stackFault (α := α) n) := Keeps.theFib.bind fun _ => Keeps.fail

protected theorem Keeps.needContext : Keeps needContext := by
  unfold needContext
  refine Keeps.get_bind fun _ _ => Keeps.ite Keeps.stackFault ?_
  split
  · exact Keeps.pure _
  · exact Keeps.stackFault

protected theorem Keeps.readRecordOf {b n : Nat} : Keeps (readRecordOf b n) := by
  unfold readRecordOf
  refine (Keeps.change fun _ ht => ht.correctRead).bind fun _ => Keeps.get_bind fun _ _ => ?_
  split
  · exact Keeps.fail
  · exact Keeps.pure _

protected theorem Keeps.readRecords {b : Nat} {l : List Nat} : Keeps (readRecords b l) := by
  induction l with
  | nil =>
    unfold readRecords
    exact Keeps.pure _
  | cons x xs ih =>
    unfold readRecords
    exact Keeps.readRecordOf.bind fun _ => ih

protected theorem Keeps.liveFrame {b n : Nat} : Keeps (liveFrame b n) :=
  Keeps.ite (Keeps.pure _) (Keeps.readRecordOf.bind fun _ => Keeps.get_bind fun _ _ => Keeps.pure _)

protected theorem Keeps.topFrame {b : Nat} : Keeps (topFrame b) :=
  Keeps.theFib.bind fun _ => Keeps.ite Keeps.stackFault (Keeps.readRecordOf.bind fun _ => Keeps.pure _)

protected theorem Keeps.holdFrame {b n : Nat} : Keeps (holdFrame b n) := Keeps.change fun _ ht => ht.takeHold

protected theorem Keeps.dropFrame {b n : Nat} : Keeps (dropFrame b n) := by
  unfold dropFrame
  exact Keeps.get_bind fun s _ => Keeps.bind Keeps.readRecords fun _ => Keeps.change fun _ ht => ht.releaseHold

protected theorem Keeps.setField {b n off len v : Nat} : Keeps (setField b n off len v) := Keeps.change fun _ ht => ht.storeAt

protected theorem Keeps.setTop {n depth : Nat} : Keeps (setTop n depth) := Keeps.modFib

protected theorem Keeps.kvTokens {h : Word} {n : Nat} : Keeps (kvTokens h n) :=
  Keeps.get_bind fun _ _ => Keeps.ite Keeps.stackFault (Keeps.pure _)

protected theorem Keeps.laneTokens {h : Word} {n : Nat} : Keeps (laneTokens h n) :=
  Keeps.get_bind fun _ _ => Keeps.ite Keeps.stackFault (Keeps.pure _)

protected theorem Keeps.tokenSpan {a : Tokens} {o n n2 : Nat} : Keeps (tokenSpan a o n n2) := by
  unfold tokenSpan
  refine Keeps.needPath.bind fun _ => Keeps.get_bind fun _ ht => Keeps.ite Keeps.failUnbacked (Keeps.needLink.bind fun _ => ?_)
  split
  · exact Keeps.fail
  · exact Keeps.ite Keeps.farLoad (Keeps.ite ((Keeps.set ht.swBytes).bind fun _ => Keeps.pure _) ((Keeps.change fun _ ht2 =>
      ht2.correctRead).bind fun _ => Keeps.pure _))

protected theorem Keeps.tokenSpans {a : Tokens} {n : Nat} {l : List (Nat × Nat)} : Keeps (tokenSpans a n l) := by
  induction l generalizing a n with
  | nil => exact Keeps.pure _
  | cons x xs ih => exact Keeps.tokenSpan.bind fun _ => ih.bind fun _ => Keeps.pure _

protected theorem Keeps.tokenRead {a : Tokens} {o n : Nat} : Keeps (tokenRead a o n) := Keeps.translate.bind fun _ => Keeps.tokenSpans

protected theorem Keeps.tokenStores {a : Tokens} {n : Nat} {l : List (Nat × Nat)} {bs : List Byte} : Keeps (tokenStores a n l bs) := by
  induction l generalizing a n bs with
  | nil => exact Keeps.pure _
  | cons x xs ih =>
    exact Keeps.needPath.bind fun _ => Keeps.get_bind fun _ _ => Keeps.ite Keeps.failUnbacked ((Keeps.changeOrWait fun _ ht2 =>
      ht2.landStore).bind fun _ => ih)

protected theorem Keeps.tokenWrite {a : Tokens} {o : Nat} {bs : List Byte} : Keeps (tokenWrite a o bs) :=
  Keeps.translate.bind fun _ => Keeps.tokenStores

protected theorem Keeps.readValue {a : Tokens} {s : Nat} {l : List Nat} : Keeps (readValue a s l) := by
  induction l with
  | nil =>
    unfold readValue
    exact Keeps.pure _
  | cons x xs ih =>
    unfold readValue
    exact Keeps.tokenRead.bind fun _ => ih.bind fun _ => Keeps.pure _

protected theorem Keeps.writeValue {a : Tokens} {s n : Nat} {l : List (List Byte)} : Keeps (writeValue a s n l) := by
  induction l generalizing a s n with
  | nil => exact Keeps.pure _
  | cons x xs ih => exact Keeps.tokenWrite.bind fun _ => ih

protected theorem Keeps.rdPair {k : Fin 15} : Keeps (rdPair k) := Keeps.rdV.bind fun _ => Keeps.rdV.bind fun _ => Keeps.pure _

protected theorem Keeps.pushForm {spec : Bool} {d : SReg} {b : SrcB} : Keeps (pushForm spec d b) := by
  unfold pushForm
  refine Keeps.needContext.bind fun area => Keeps.rdB.bind fun cap => Keeps.theFib.bind fun f => Keeps.ite Keeps.stackFault
    (Keeps.ite Keeps.stackFault (Keeps.ite Keeps.stackFault (Keeps.readRecordOf.bind fun _ => Keeps.readRecords.bind fun _ =>
    Keeps.get_bind fun s _ => ?_)))
  extract_lets kvh laneh
  cases freeFrame s area with
  | none => exact Keeps.stackFault
  | some n =>
    cases slotChoice (liveSlots s area) (capRound cap.toNat) (bitsOf kvh 0 24) with
    | none => exact Keeps.stackFault
    | some slot =>
      have hrest : ∀ g : State → State, (∀ t, Inv t → Inv (g t)) → Keeps (do
          change g
          holdFrame area f.fp.toNat
          setTop n (f.fdepth.toNat + 1)
          result d (w64 n)) :=
        fun g hg => (Keeps.change hg).bind fun _ => Keeps.holdFrame.bind fun _ => Keeps.setTop.bind fun _ => Keeps.result
      exact Keeps.ite Keeps.stackFault (Keeps.kvTokens.bind fun _ => Keeps.ite ((Keeps.pure _).bind fun _ => hrest _ fun _ ht => ht.storeAt)
        (Keeps.laneTokens.bind fun _ => hrest _ fun _ ht => ht.storeAt))

protected theorem Ends.execFpush {d : SReg} {b : SrcB} {s : State} : Ends s (execFpush d b s) := Ends.performSeq Keeps.pushForm

protected theorem Ends.execFpushSpec {d : SReg} {b : SrcB} {s : State} : Ends s (execFpushSpec d b s) := Ends.performSeq Keeps.pushForm

protected theorem Ends.execFshareJ {a : SReg} {s : State} : Ends s (execFshareJ a s) :=
  Ends.performSeq (Keeps.needContext.bind fun _ => Keeps.rd.bind fun _ => Keeps.readRecordOf.bind fun _ => Keeps.theFib.bind fun _ =>
    Keeps.get_bind fun _ _ => Keeps.liveFrame.bind fun _ => Keeps.ite (Keeps.ite Keeps.stackFault (Keeps.ite Keeps.stackFault
    (Keeps.holdFrame.bind fun _ => Keeps.ite_bind Keeps.setField fun _ => Keeps.setTop))) Keeps.stackFault)

protected theorem Ends.execFshareH {a : SReg} {s : State} : Ends s (execFshareH a s) :=
  Ends.performSeq (Keeps.needContext.bind fun _ => Keeps.rd.bind fun _ => Keeps.liveFrame.bind fun _ =>
    Keeps.ite (Keeps.get_bind fun _ _ => Keeps.holdFrame.bind fun _ => Keeps.setField) Keeps.stackFault)

protected theorem Ends.execFrel {a : SReg} {s : State} : Ends s (execFrel a s) :=
  Ends.performSeq (Keeps.needContext.bind fun _ => Keeps.rd.bind fun _ => Keeps.liveFrame.bind fun _ => Keeps.ite
    (Keeps.get_bind fun _ _ => Keeps.ite Keeps.stackFault (Keeps.setField.bind fun _ => Keeps.dropFrame)) Keeps.stackFault)

protected theorem Ends.execFarg {a : SReg} {b : SrcB} {c : SReg} {s : State} : Ends s (execFarg a b c s) :=
  Ends.performSeq (Keeps.needContext.bind fun _ => Keeps.rd.bind fun _ => Keeps.rdB.bind fun _ => Keeps.rd.bind fun _ =>
    Keeps.topFrame.bind fun _ => Keeps.get_bind fun _ _ => Keeps.ite Keeps.stackFault (Keeps.ite Keeps.stackFault (Keeps.liveFrame.bind fun
    _ => Keeps.ite (Keeps.ite Keeps.stackFault (Keeps.setField.bind fun _ => Keeps.setField.bind fun _ =>
    Keeps.holdFrame)) Keeps.stackFault)))

protected theorem Ends.execFpos {k : PosKind} {d a : SReg} {s : State} : Ends s (execFpos k d a s) := by
  unfold execFpos
  exact Ends.performSeq (Keeps.needContext.bind fun _ => Keeps.rd.bind fun _ => Keeps.liveFrame.bind fun _ =>
    Keeps.ite (Keeps.get_bind fun _ _ => Keeps.result) Keeps.result)

protected theorem Keeps.reachToken {a : Tokens} {kind t : Nat} : Keeps (reachToken a kind t) :=
  Keeps.translate.bind fun _ => Keeps.translate.bind fun _ => Keeps.pure _

protected theorem Keeps.reachRow {a : Tokens} {kind t : Nat} : Keeps (reachRow a kind t) := Keeps.translate.bind fun _ => Keeps.pure _

protected theorem Keeps.appendToken {area : Nat} {d : SReg} {key value : List Byte} {token : Word} {row : Option (List Byte)} :
    Keeps (appendToken area d key value token row) := by
  unfold appendToken
  refine Keeps.topFrame.bind fun _ => Keeps.get_bind fun _ _ => Keeps.ite Keeps.stackFault (Keeps.ite Keeps.stackFault (Keeps.ite
    Keeps.stackFault (Keeps.ite Keeps.stackFault (Keeps.kvTokens.bind fun _ => ?_))))
  split
  · exact Keeps.laneTokens.bind fun _ => Keeps.reachRow.bind fun _ => Keeps.reachToken.bind fun _ => Keeps.tokenWrite.bind fun _ =>
      Keeps.tokenWrite.bind fun _ => Keeps.writeValue.bind fun _ => Keeps.tokenWrite.bind fun _ => Keeps.setField.bind fun _ => Keeps.result
  · exact Keeps.reachToken.bind fun _ => Keeps.tokenWrite.bind fun _ => Keeps.writeValue.bind fun _ => Keeps.tokenWrite.bind fun _ =>
      Keeps.setField.bind fun _ => Keeps.result

protected theorem Ends.execKvapp {d : SReg} {k b : Fin 15} {c : SReg} {s : State} : Ends s (execKvapp d k b c s) :=
  Ends.performSeq (Keeps.needContext.bind fun _ => Keeps.rdPair.bind fun _ => Keeps.rdPair.bind fun _ => Keeps.rd.bind fun _ =>
    Keeps.appendToken)

protected theorem Ends.execKvappLn {d : SReg} {k b : Fin 15} {c : SReg} {ln : Fin 16} {s : State} : Ends s (execKvappLn d k b c ln s) :=
  Ends.performSeq (Keeps.needContext.bind fun _ => Keeps.rdPair.bind fun _ => Keeps.rdPair.bind fun _ => Keeps.rd.bind fun _ =>
    Keeps.rdV.bind fun _ => Keeps.appendToken)

protected theorem Keeps.moveTokens {src dst : Tokens} {lanes : Option (Tokens × Tokens)} {n n2 n3 n4 : Nat} :
    Keeps (moveTokens src dst lanes n n2 n3 n4) := by
  induction n generalizing n2 n3 n4 with
  | zero => exact Keeps.pure _
  | succ n ih =>
    unfold moveTokens
    refine Keeps.tokenRead.bind fun _ => Keeps.readValue.bind fun _ => Keeps.tokenRead.bind fun _ => Keeps.tokenWrite.bind fun _ =>
      Keeps.writeValue.bind fun _ => ?_
    split
    · exact Keeps.tokenRead.bind fun _ => Keeps.tokenWrite.bind fun _ => Keeps.tokenWrite.bind fun _ => ih
    · exact Keeps.tokenWrite.bind fun _ => ih

protected theorem Keeps.reachTokens {src dst : Tokens} {lanes : Option (Tokens × Tokens)} {n n2 n3 : Nat} :
    Keeps (reachTokens src dst lanes n n2 n3) := by
  induction n generalizing n2 n3 with
  | zero => exact Keeps.pure _
  | succ n ih =>
    unfold reachTokens
    refine Keeps.reachToken.bind fun _ => Keeps.reachToken.bind fun _ => ?_
    split
    · exact Keeps.reachRow.bind fun _ => Keeps.reachRow.bind fun _ => ih
    · exact ih

protected theorem Keeps.lanePieces {hc hp : Word} {n m : Nat} : Keeps (lanePieces hc hp n m) :=
  Keeps.ite (Keeps.pure _) (Keeps.laneTokens.bind fun _ => Keeps.laneTokens.bind fun _ => Keeps.pure _)

protected theorem Ends.execFret {d a : SReg} {b : SrcB} {s : State} : Ends s (execFret d a b s) := by
  unfold execFret
  refine Ends.performSeq (Keeps.needContext.bind fun _ => Keeps.rd.bind fun _ => Keeps.rdB.bind fun _ => Keeps.theFib.bind fun _ =>
    Keeps.ite Keeps.stackFault (Keeps.readRecordOf.bind fun _ => Keeps.get_bind fun _ _ => Keeps.readRecordOf.bind fun _ =>
    Keeps.ite Keeps.stackFault (Keeps.ite Keeps.stackFault (Keeps.ite Keeps.stackFault ?_))))
  extract_lets _ _ rest
  have hrest : ∀ u, Keeps (rest u) := fun _ => Keeps.setField.bind fun _ => Keeps.dropFrame.bind fun _ => Keeps.setTop.bind fun _ =>
    Keeps.result
  exact Keeps.ite (Keeps.kvTokens.bind fun _ => Keeps.kvTokens.bind fun _ => Keeps.lanePieces.bind fun _ => Keeps.reachTokens.bind fun _ =>
    Keeps.moveTokens.bind hrest) (hrest ())

/-! ## `Machine/Special` -/

protected theorem Inv.clearTiles {s : State} {mask : Nat} (h : Inv s) : Inv (clearTiles s mask) := h.record.setCore

protected theorem Inv.clearAccs {s : State} {mask : Nat} (h : Inv s) : Inv (clearAccs s mask) := h.record.setCore

protected theorem Keeps.writeTclaim {v : Word} : Keeps (writeTclaim v) := by
  unfold writeTclaim
  refine Keeps.get_bind fun _ _ => ?_
  dsimp only
  split
  · exact Keeps.fail
  · exact (Keeps.change fun _ ht2 => ht2.clearTiles).bind fun _ => Keeps.modFib

protected theorem Keeps.writeAclaim {v : Word} : Keeps (writeAclaim v) := by
  unfold writeAclaim
  refine Keeps.get_bind fun _ _ => ?_
  dsimp only
  split
  · exact Keeps.fail
  · exact (Keeps.change fun _ ht2 => ht2.clearAccs).bind fun _ => Keeps.modFib

protected theorem Keeps.writeShape {k : Fin 32} {v : Nat} : Keeps (writeShape k v) :=
  Keeps.theFib.bind fun _ => Keeps.ite Keeps.fail (Keeps.ite Keeps.fail Keeps.modFib)

protected theorem Keeps.setSeg {k : Fin 8} {u : Seg → Seg} : Keeps (setSeg k u) := Keeps.modFib

protected theorem Keeps.csrStore {c : Csr} {v : Word} : Keeps (csrStore c v) := by
  unfold csrStore
  split
  · exact Keeps.modFib
  · exact Keeps.setSeg
  · exact Keeps.setSeg
  · exact Keeps.setSeg
  · exact Keeps.writeShape
  · exact Keeps.writeTclaim
  · exact Keeps.writeAclaim
  · exact Keeps.modFib
  · exact Keeps.modFib
  · exact Keeps.modFib
  · exact Keeps.modFib
  · exact Keeps.modFib
  · exact Keeps.modFib
  · exact Keeps.modFib
  · exact Keeps.modFib
  · exact Keeps.pure _

protected theorem Keeps.mayWrite {c : Csr} : Keeps (mayWrite c) := Keeps.theFib.bind fun _ => Keeps.ite Keeps.fail (Keeps.pure _)

protected theorem Ends.execCsrr {d : SReg} {c : Csr} {s : State} : Ends s (execCsrr d c s) :=
  Ends.performSeq (Keeps.get_bind fun _ _ => Keeps.result)

protected theorem Ends.execCsrw {c : Csr} {a : SReg} {s : State} : Ends s (execCsrw c a s) :=
  Ends.performSeq (Keeps.mayWrite.bind fun _ => Keeps.rd.bind fun _ => Keeps.csrStore)

protected theorem Ends.execCsrx {d a : SReg} {c : Csr} {s : State} : Ends s (execCsrx d a c s) :=
  Ends.performSeq (Keeps.mayWrite.bind fun _ => Keeps.get_bind fun _ _ => Keeps.rd.bind fun _ => Keeps.csrStore.bind fun _ => Keeps.result)

/-! ## `Machine/Tiles` -/

protected theorem Keeps.needTile {k : Fin 32} : Keeps (needTile k) := Keeps.theFib.bind fun _ => Keeps.ite (Keeps.pure _) Keeps.fail

protected theorem Keeps.needAcc {n : Fin 8} : Keeps (needAcc n) := Keeps.theFib.bind fun _ => Keeps.ite (Keeps.pure _) Keeps.fail

protected theorem Keeps.needShape {k : Fin 32} {p : BitVec 15 → Bool} : Keeps (needShape k p) :=
  Keeps.theFib.bind fun _ => Keeps.ite (Keeps.pure _) Keeps.fail

protected theorem Keeps.rdTile {k : Fin 32} : Keeps (rdTile k) := Keeps.seeReg.bind fun _ => Keeps.get_bind fun _ _ => Keeps.pure _

protected theorem Keeps.rdAcc {n : Fin 8} : Keeps (rdAcc n) := Keeps.seeReg.bind fun _ => Keeps.get_bind fun _ _ => Keeps.pure _

protected theorem Keeps.wrTile {whole : Bool} {k : Fin 32} {t : Tile} : Keeps (wrTile whole k t) :=
  Keeps.change fun _ ht => ht.record.setCore

protected theorem Keeps.wrAcc {whole : Bool} {n : Fin 8} {a : Acc} : Keeps (wrAcc whole n a) := Keeps.change fun _ ht => ht.record.setCore

protected theorem Keeps.wrShape {k : Fin 32} {v : BitVec 15} : Keeps (wrShape k v) := Keeps.modFib

protected theorem Keeps.oldTile {k : Fin 32} : Keeps (oldTile k) := fun _ h => Good.ok h

protected theorem Ends.execTset {d : Fin 32} {shape : BitVec 15} {s : State} : Ends s (execTset d shape s) :=
  Ends.performSeq Keeps.writeShape

protected theorem Ends.execTsetReg {d : Fin 32} {a : SReg} {s : State} : Ends s (execTsetReg d a s) :=
  Ends.performSeq (Keeps.needTile.bind fun _ => Keeps.rd.bind fun _ => Keeps.writeShape)

protected theorem Ends.execTz {d : Fin 32} {s : State} : Ends s (execTz d s) := Ends.performSeq (Keeps.needTile.bind fun _ => Keeps.wrTile)

protected theorem Ends.execAz {n : Fin 8} {s : State} : Ends s (execAz n s) := Ends.performSeq (Keeps.needAcc.bind fun _ => Keeps.wrAcc)

protected theorem Ends.execTmov {d k : Fin 32} {s : State} : Ends s (execTmov d k s) :=
  Ends.performSeq (Keeps.needTile.bind fun _ => Keeps.needTile.bind fun _ => Keeps.rdTile.bind fun _ => Keeps.theFib.bind fun _ =>
    Keeps.wrTile.bind fun _ => Keeps.wrShape)

protected theorem Ends.execTmovTv {d : Fin 32} {v : Fin 16} {k : Fin 8} {s : State} : Ends s (execTmovTv d v k s) :=
  Ends.performSeq (Keeps.needTile.bind fun _ => Keeps.rdV.bind fun _ => Keeps.oldTile.bind fun _ => Keeps.wrTile)

protected theorem Ends.execTmovVt {v : Fin 16} {k : Fin 32} {k2 : Fin 8} {s : State} : Ends s (execTmovVt v k k2 s) :=
  Ends.performSeq (Keeps.needTile.bind fun _ => Keeps.rdTile.bind fun _ => Keeps.resultV)

protected theorem Ends.execTtr {d k : Fin 32} {s : State} : Ends s (execTtr d k s) :=
  Ends.performSeq (Keeps.needTile.bind fun _ => Keeps.needTile.bind fun _ => Keeps.needShape.bind fun _ => Keeps.rdTile.bind fun _ =>
    Keeps.theFib.bind fun _ => Keeps.wrTile.bind fun _ => Keeps.wrShape)

protected theorem Keeps.checkOnly {sg : Fin 8} {o : Word} {n align need : Nat} : Keeps (checkOnly sg o n align need) := by
  unfold checkOnly
  refine Keeps.get_bind fun _ _ => ?_
  dsimp only
  split
  · exact Keeps.fail
  · exact Keeps.ite (Keeps.ite Keeps.fail (Keeps.pure _)) (Keeps.pure _)

protected theorem Keeps.checkLines {sg : Fin 8} {n align need : Nat} {l : List Word} : Keeps (checkLines sg n align need l) := by
  induction l with
  | nil =>
    unfold checkLines
    exact Keeps.pure _
  | cons x xs ih =>
    unfold checkLines
    exact Keeps.checkOnly.bind fun _ => ih

protected theorem Keeps.resolveLines {sg : Fin 8} {n align need kind : Nat} {l : List Word} :
    Keeps (resolveLines sg n align need kind l) := by
  induction l with
  | nil =>
    unfold resolveLines
    exact Keeps.pure _
  | cons x xs ih =>
    unfold resolveLines
    exact Keeps.resolve.bind fun _ => ih.bind fun _ => Keeps.pure _

protected theorem Keeps.loadLines {l : List (Word × List (Nat × Nat))} : Keeps (loadLines l) := by
  induction l with
  | nil =>
    unfold loadLines
    exact Keeps.pure _
  | cons x xs ih =>
    unfold loadLines
    exact Keeps.loadAll.bind fun _ => ih.bind fun _ => Keeps.pure _

protected theorem Ends.execTld {d : Fin 32} {m : CRef} {pitch : BitVec 21} {s : State} : Ends s (execTld d m pitch s) :=
  Ends.performSeq (Keeps.needTile.bind fun _ => Keeps.needShape.bind fun _ => Keeps.rdRefRaw.bind fun _ => Keeps.theFib.bind fun _ =>
    Keeps.checkLines.bind fun _ => Keeps.resolveLines.bind fun _ => Keeps.needClean.bind fun _ => Keeps.loadLines.bind fun _ =>
    Keeps.wrTile)

protected theorem Keeps.storeLines {t : Tile} {step len n : Nat} {l : List (Word × List (Nat × Nat))} :
    Keeps (storeLines t step len n l) := by
  induction l generalizing t step len n with
  | nil => exact Keeps.pure _
  | cons x xs ih => exact Keeps.storeAll.bind fun _ => ih

protected theorem Ends.execTst {m : CRef} {pitch : BitVec 21} {k : Fin 32} {s : State} : Ends s (execTst m pitch k s) :=
  Ends.performSeq (Keeps.needTile.bind fun _ => Keeps.needShape.bind fun _ => Keeps.rdRefRaw.bind fun _ => Keeps.theFib.bind fun _ =>
    Keeps.checkLines.bind fun _ => Keeps.resolveLines.bind fun _ => Keeps.needClean.bind fun _ => Keeps.rdTile.bind fun _ =>
    Keeps.storeLines)

/-! ## `Machine/Attention` -/

protected theorem Keeps.needAttention {n : Fin 4} : Keeps (needAttention n) :=
  Keeps.needAcc.bind fun _ => Keeps.needAcc.bind fun _ => Keeps.needContext

protected theorem Keeps.rdState {n : Fin 4} : Keeps (rdState n) :=
  Keeps.rdAcc.bind fun _ => Keeps.rdAcc.bind fun _ => Keeps.ite (Keeps.pure _) Keeps.fail

protected theorem Keeps.readFreqs : Keeps readFreqs :=
  Keeps.theFib.bind fun _ => Keeps.ite (Keeps.pure _) (Keeps.loadSeg.bind fun _ => Keeps.pure _)

protected theorem Ends.execAtbeg {k : Fin 15} {b : SrcB} {n : Fin 4} {s : State} : Ends s (execAtbeg k b n s) :=
  Ends.performSeq (Keeps.needAttention.bind fun _ => Keeps.rdPair.bind fun _ => Keeps.rdB.bind fun _ => Keeps.topFrame.bind fun _ =>
    Keeps.ite Keeps.stackFault (Keeps.readFreqs.bind fun _ => Keeps.get_bind fun _ _ => Keeps.wrAcc.bind fun _ => Keeps.wrAcc))

protected theorem Keeps.advanceRun {b own n : Nat} {a : Run} : Keeps (advanceRun b own n a) := by
  induction n generalizing a with
  | zero => exact Keeps.pure _
  | succ n ih => exact Keeps.ite (Keeps.readRecordOf.bind fun _ => Keeps.get_bind fun _ _ => ih) (Keeps.pure _)

protected theorem Keeps.readKeys {a : Tokens} {freqs : List Lane} {n n2 : Nat} : Keeps (readKeys a freqs n n2) := by
  induction n generalizing n2 with
  | zero => exact Keeps.pure _
  | succ n ih =>
    exact Keeps.tokenRead.bind fun _ => Keeps.tokenRead.bind fun _ => Keeps.readValue.bind fun _ => ih.bind fun _ => Keeps.pure _

protected theorem Ends.execAtstep {d : SReg} {n : Fin 4} {s : State} : Ends s (execAtstep d n s) :=
  Ends.performSeq (Keeps.needAttention.bind fun _ => Keeps.rdState.bind fun _ => Keeps.advanceRun.bind fun _ =>
    Keeps.ite (Keeps.wrAcc.bind fun _ => Keeps.result) (Keeps.readRecordOf.bind fun _ => Keeps.get_bind fun _ _ =>
    Keeps.kvTokens.bind fun _ => Keeps.readKeys.bind fun _ => Keeps.wrAcc.bind fun _ => Keeps.wrAcc.bind fun _ => Keeps.result))

protected theorem Ends.execAtend {d : Fin 15} {n : Fin 4} {h : Fin 2} {s : State} : Ends s (execAtend d n h s) :=
  Ends.performSeq (Keeps.needAttention.bind fun _ => Keeps.rdState.bind fun _ => Keeps.resultV.bind fun _ => Keeps.resultV)

end Sys2Proof.Safety
end

