-- ==== Sys2Proof/Proofs/KeptEvents.lean ====
section
/-!
SUPPORT. What the events do keeps memory in canonical form.
-/
namespace Sys2Proof.Safety
open Sys2Proof Sys2Proof.Machine

/-! ## `Machine/Drains` -/

protected theorem Inv.updateRises {s : State} {k stage : Nat} (h : Inv s) : Inv (updateRises s k stage) := h.record

protected theorem Inv.shareControl {s : State} {g : Nat} (h : Inv s) : Inv (shareControl s g) := by
  unfold shareControl
  extract_lets c give
  have hgive : ∀ k, Inv (give k) := fun k => Inv.ite h h.setCore
  split
  · exact Inv.ite (hgive _) (Inv.ite (hgive _) h)
  · exact h

protected theorem Inv.sendHeld {n : Nat} {s : State} {n2 : Nat} (h : Inv s) : Inv (sendHeld n s n2) := by
  induction n generalizing s with
  | zero => exact h
  | succ n ih =>
    unfold sendHeld
    dsimp only
    split
    · exact h
    · split
      · exact ih h.setCore.record
      · exact h

protected theorem Inv.sendAllHeld {s : State} (h : Inv s) : Inv (sendAllHeld s) := by
  unfold sendAllHeld
  refine Inv.foldl h ?_
  intro t a ht
  split
  · exact ht
  · exact ht.sendHeld

protected theorem Inv.settle {s0 : State} (h : Inv s0) : Inv (settle s0) := by
  unfold settle
  extract_lets s t
  have hs : Inv s := by
    unfold s
    refine Inv.sendAllHeld ?_
    split
    · exact h
    · exact h.runReleases
  have ht : Inv t := hs.foldl (fun _ _ ht => ht.foldl (fun _ _ ht2 => ht2.shareControl))
  split
  · exact hs
  · exact Inv.finishKilled (ht.foldl (fun _ _ ht3 => ht3.foldl (fun _ _ ht4 => ht4.updateRises)))

protected theorem Inv.holdStart {s : State} {k stage : Nat} {mod : Bool} (h : Inv s) : Inv (holdStart s k stage mod) := by
  unfold holdStart
  split
  · exact h.record
  · exact h

protected theorem Inv.releaseSet {s : State} {k : Nat} {mod : Bool} {gs : List Nat} {g : Nat} (h : Inv s) : Inv (releaseSet s k mod gs g) :=
  h.foldl (fun _ _ ht => ht.foldl (fun _ _ ht2 => ht2.deliverWake))

protected theorem Inv.drainRelease {s : State} {k stage : Nat} {mod : Bool} (h : Inv s) : Inv (drainRelease s k stage mod) := by
  unfold drainRelease
  split
  · refine Inv.record ?_
    refine Inv.foldl h ?_
    intro t a ht2
    split
    · exact ht2.releaseSet
    · exact ht2
  · exact h

/-! ## `Machine/Pages` -/

protected theorem Keeps.needSteward : Keeps needSteward := Keeps.theFib.bind fun _ => Keeps.ite (Keeps.pure _) Keeps.fail

protected theorem Keeps.needWalker : Keeps needWalker :=
  Keeps.needSteward.bind fun _ => Keeps.theSlot.bind fun _ => Keeps.ite (Keeps.pure _) Keeps.fail

protected theorem Keeps.invalidateM {what : Option (BitVec 12 × Option Nat)} {p : TlbEntry → Bool} : Keeps (invalidateM what p) :=
  Keeps.changeOrWait fun _ ht => ht.invalidate

protected theorem Ends.execTlbinvAll {s : State} : Ends s (execTlbinvAll s) :=
  Ends.performSeq (Keeps.needSteward.bind fun _ => Keeps.invalidateM)

protected theorem Ends.execTlbinvTen {a : SReg} {s : State} : Ends s (execTlbinvTen a s) :=
  Ends.performSeq (Keeps.needSteward.bind fun _ => Keeps.rd.bind fun _ => Keeps.ite Keeps.fail Keeps.invalidateM)

protected theorem Ends.execTlbinvVa {a b : SReg} {s : State} : Ends s (execTlbinvVa a b s) :=
  Ends.performSeq (Keeps.needSteward.bind fun _ => Keeps.rd.bind fun _ => Keeps.rd.bind fun _ =>
    Keeps.ite Keeps.fail (Keeps.ite Keeps.fail Keeps.invalidateM))

protected theorem Ends.execWmbx {d : Fin 12} {s : State} : Ends s (execWmbx d s) := by
  unfold execWmbx
  refine Ends.performSeq (Keeps.needWalker.bind fun _ => Keeps.get_bind fun _ _ => ?_)
  dsimp only
  split
  · exact Keeps.leaveFor
  · exact (Keeps.change fun _ ht2 => ht2.acquire).bind fun _ => (Keeps.change fun _ ht2 => ht2.setCore).bind fun _ => Keeps.writeV

protected theorem Inv.freeEntry {s : State} {g tag : Nat} (h : Inv s) : Inv (freeEntry s g tag) := h.setCore

protected theorem Inv.installLeaf {s : State} {g : Nat} {m : Miss} {l : Word} (h : Inv s) : Inv (installLeaf s g m l) := by
  unfold installLeaf
  split
  · split
    · exact h.tlbFill
    · exact h.tlbFill.record
  · split
    · exact h.tlbFill.tlbFill
    · exact h.tlbFill.tlbFill.record

protected theorem Ends.execWfill {a b : SReg} {s : State} : Ends s (execWfill a b s) := by
  unfold execWfill
  refine Ends.performSeq (Keeps.needWalker.bind fun _ => Keeps.rd.bind fun _ => Keeps.rd.bind fun _ => Keeps.get_bind fun _ _ => ?_)
  split
  · exact Keeps.fail
  · refine Keeps.ite Keeps.fail (Keeps.change fun _ ht2 => ?_)
    split
    · exact ht2.freeEntry.pumpAll
    · exact ht2.freeEntry.installLeaf.pumpAll

protected theorem Inv.postFault {s : State} {g : Nat} {m : Miss} {reason ticket : Nat} {who : Adder} (h : Inv s) :
    Each Inv (postFault s g m reason ticket who) := by
  unfold postFault
  dsimp only
  split
  · exact Each.none
  · refine Each.some ?_
    split
    · exact h.writeBytes.writeWord.addAt
    · exact h.writeBytes.writeWord

protected theorem Inv.takeTicket {s : State} {g : Nat} (h : Inv s) : Each (Inv ·.2) (takeTicket s g) := by
  unfold takeTicket
  dsimp only
  split
  · exact Each.none
  · exact Each.some h.setCore

protected theorem Inv.awaitTicket {s0 : State} {g f ticket : Nat} (h : Inv s0) : Inv (awaitTicket s0 g f ticket) := by
  unfold awaitTicket
  dsimp only
  split
  · exact h.correctRead.record.poisonEvent
  · split
    · exact h.correctRead.record
    · exact h.correctRead.enrolWaiter

protected theorem Inv.swapOnTicket {s : State} {g f ticket : Nat} {va : Word} (h : Inv s) : Inv (swapOnTicket s g f ticket va) := by
  unfold swapOnTicket
  split
  · exact h
  · extract_lets s1
    have hs1 : Inv s1 := by
      unfold s1
      split
      · exact h.setCtx.unbind
      · split
        · exact h.writeWord.writeWord
        · exact h
    split
    · exact hs1.setFibreInfo.awaitTicket
    · exact hs1

protected theorem Inv.holdOnMove {s : State} {g : Nat} {m : Miss} (h : Inv s) : Inv (holdOnMove s g m) := by
  unfold holdOnMove
  split
  · exact h.record
  · split
    · split
      · exact h.setCtx
      · exact h
    · exact h

protected theorem Inv.parkOn {s : State} {g : Nat} {m : Miss} {ticket : Nat} (h : Inv s) : Inv (parkOn s g m ticket) := by
  unfold parkOn
  split
  · exact h.record
  · exact h.record
  · exact h.parkCmd

protected theorem Inv.failEntry {s : State} {g : Nat} {m : Miss} {reason : Nat} {who : Adder} (h : Inv s) :
    Each Inv (failEntry s g m reason who) := by
  unfold failEntry
  extract_lets s0
  have hs0 : Inv s0 := h.freeEntry
  split
  · split
    · next e => exact Each.some ((hs0.postFault.of_some e).record.pumpAll)
    · exact Each.none
  · split
    · exact Each.none
    · next e =>
        extract_lets s2
        have hs2 : Inv s2 := by
          unfold s2
          split
          · exact (hs0.takeTicket.of_some e).parkOn
          · exact (hs0.takeTicket.of_some e).swapOnTicket
        exact hs2.postFault

protected theorem Ends.execWfail {a b : SReg} {s : State} : Ends s (execWfail a b s) := by
  unfold execWfail
  refine Ends.performSeq (Keeps.needWalker.bind fun _ => Keeps.rd.bind fun _ => Keeps.rd.bind fun _ => Keeps.get_bind fun _ _ => ?_)
  split
  · exact Keeps.fail
  · exact Keeps.ite Keeps.fail (Keeps.ite (Keeps.change fun _ ht2 => ht2.freeEntry.holdOnMove) (Keeps.changeOrWait fun _ ht2 =>
      ht2.failEntry))

protected theorem Inv.retranslate {s0 : State} {i : Nat} (h : Inv s0) : Inv (retranslate s0 i) := by
  unfold retranslate
  extract_lets s
  have hs : Inv s := h.record.pumpAll
  split
  · split
    · exact hs.setCtx
    · exact hs
  · exact hs

protected theorem Ends.execMigRetranslate {i : Nat} {s : State} : Ends s (execMigRetranslate i s) := Ends.next fun ht => ht.retranslate

/-! ## `Machine/Contexts` -/

protected theorem Inv.readImage {die : Nat} {l : List (Nat × Nat)} {s : State} (h : Inv s) : Inv (readImage die l s).2 := by
  induction l generalizing s with
  | nil => exact h
  | cons x xs ih => exact ih h.devRead

protected theorem Inv.writeImage {die : Nat} {who : Adder} {l : List (Nat × Nat)} {l2 : List (Byte × Bool)} {s : State} (h : Inv s) :
    Each Inv (writeImage die who l l2 s) := by
  induction l generalizing l2 s with
  | nil => exact Each.some h
  | cons x xs ih =>
    unfold writeImage
    split
    · next e => exact ih (h.devWrite.of_some e)
    · exact Each.none

protected theorem Keeps.needImage {l : List (Nat × Nat)} {n : Nat} : Keeps (needImage l n) := by
  induction l generalizing n with
  | nil => exact Keeps.pure _
  | cons x xs ih => exact Keeps.get_bind fun _ _ => Keeps.ite Keeps.failUnbacked (Keeps.needLink.bind fun _ => ih)

protected theorem Inv.fillEntry {s : State} {h : Word} {base clu rsize : Nat} (hs : Inv s) : Inv (fillEntry s h base clu rsize) :=
  hs.writeBytes

protected theorem Keeps.readObject {l : List (Nat × Nat)} : Keeps (readObject l) := by
  unfold readObject
  intro s h
  dsimp only
  split
  · exact Good.leave Each.none
  · exact Good.ok h.readImage

protected theorem Keeps.needPathAll {l : List (Nat × Nat)} : Keeps (needPathAll l) := by
  induction l with
  | nil =>
    unfold needPathAll
    exact Keeps.pure _
  | cons x xs ih =>
    unfold needPathAll
    exact Keeps.needPath.bind fun _ => ih

protected theorem Ends.execSctpin {d : SReg} {m : CRef} {b c : SReg} {s : State} : Ends s (execSctpin d m b c s) := by
  unfold execSctpin
  refine Ends.performSeq (Keeps.rdRef.bind fun o => Keeps.rd.bind fun h => Keeps.rd.bind fun rs => Keeps.get_bind fun t _ =>
    Keeps.ite Keeps.fail ?_)
  cases rangeBad t t.fib.seg[m.sg] o (16384 + rs.toNat) 16384 rightWr with
  | some x => exact Keeps.fail
  | none =>
    refine Keeps.ite Keeps.fail (Keeps.ite Keeps.fail (Keeps.ite Keeps.result (Keeps.translate.bind fun _ => Keeps.needImage.bind fun _ =>
      Keeps.needPathAll.bind fun _ => Keeps.readObject.bind fun img => ?_)))
    cases imagePoison img with
    | some i => exact Keeps.fail
    | none =>
      exact Keeps.ite Keeps.result (Keeps.get_bind fun _ _ => (Keeps.change fun _ hw => hw.fillAt.record.fillEntry).bind fun _ =>
        Keeps.result)

protected theorem Inv.acceptEvict {s : State} {h : Word} {ctr : Nat} (hs : Inv s) : Inv (acceptEvict s h ctr) := hs.writeNat.writeNat.record

protected theorem Ends.execSctevict {d : SReg} {m : CRef} {b : SReg} {s : State} : Ends s (execSctevict d m b s) :=
  Ends.performSeq (Keeps.rdRef.bind fun _ => Keeps.rd.bind fun _ => Keeps.counterWord.bind fun _ => Keeps.get_bind fun _ _ =>
    Keeps.ite Keeps.fail (Keeps.release.bind fun _ => Keeps.get_bind fun _ _ => Keeps.ite Keeps.result (Keeps.ite Keeps.result
    ((Keeps.change fun _ hw => hw.acceptEvict).bind fun _ => Keeps.result))))

protected theorem Inv.startEvict {s : State} {n : Nat} (h : Inv s) : Inv (startEvict s n) := by
  unfold startEvict
  split
  · exact h
  · split
    · exact h.record.writeNat
    · exact h

protected theorem Inv.evictAdd {s : State} {e : Evict} {inc : Nat} (h : Inv s) : Inv (evictAdd s e inc) := h.record.addAt

protected theorem Inv.endEvict {s : State} {e : Evict} {l : List (Nat × Nat)} (h : Inv s) : Inv (endEvict s e l) := by
  unfold endEvict
  dsimp only
  split
  · exact h
  · next e2 => exact (h.dropGrants.devRead.writeImage.of_some e2).storeBytes.writeWord.writeNat.record.evictAdd

protected theorem Inv.keepImage {s : State} {e : Evict} (h : Inv s) : Inv (keepImage s e) := h.writeNat.evictAdd

protected theorem Inv.completeEvict {s : State} {n : Nat} (h : Inv s) : Inv (completeEvict s n) := by
  unfold completeEvict
  split
  · exact h
  · extract_lets go c s1
    have hgo : ∀ t, Inv t → Inv (go t) := by
      intro t ht
      unfold go
      split
      · exact Inv.ite ht ht.clearPath.endEvict
      · next e => exact SpansInv.of_notYet e (Inv.spansVia fun _ _ => ht.askEngine)
      · exact ht.keepImage
    have hs1 : Inv s1 := h.record
    split
    · exact hgo s h
    · exact Inv.ite h (Inv.ite hs1.setCore.keepImage (hgo s1 hs1))

protected theorem Ends.execEvictionStart {n : Nat} {s : State} : Ends s (execEvictionStart n s) := Ends.next fun ht => ht.startEvict

protected theorem Ends.execEvictionComplete {n : Nat} {s : State} : Ends s (execEvictionComplete n s) :=
  Ends.next fun ht => ht.completeEvict

/-! ## `Machine/Control` -/

protected theorem Keeps.targetOf {ti : Fin 5} {tl : BitVec 32} : Keeps (targetOf ti tl) := fun _ h => Good.ok h

protected theorem Keeps.goTo {w : Word} : Keeps (goTo w) := Keeps.enterTarget.bind fun _ => Keeps.pure _

protected theorem Keeps.countAnnulled {loc word i : Nat} : Keeps (countAnnulled loc word i) := by
  unfold countAnnulled
  refine Keeps.change fun _ ht => ?_
  split
  · exact ht
  · exact ht.bumpDie.bumpDie

protected theorem Keeps.annul {n : Nat} {w : Word} : Keeps (annul n w) := by
  induction n generalizing w with
  | zero => exact Keeps.pure _
  | succ n ih =>
    unfold annul
    refine Keeps.get_bind fun _ _ => ?_
    split
    · exact Keeps.pure _
    · exact Keeps.leaveFor
    · exact Keeps.leaveFor
    · split
      · exact Keeps.pure _
      · refine Keeps.countAnnulled.bind fun _ => ?_
        split
        · exact Keeps.pure _
        · exact ih

protected theorem Ends.execCsk {cc : Cond} {n : Fin 3} {a : SReg} {b : SrcB} {s : State} : Ends s (execCsk cc n a b s) :=
  Ends.perform (Keeps.rd.bind fun _ => Keeps.rdB.bind fun _ => Keeps.ite (Keeps.successor.bind fun _ => Keeps.annul) (Keeps.pure _))

protected theorem Ends.execB {ti : Fin 5} {tl : BitVec 32} {s : State} : Ends s (execB ti tl s) :=
  Ends.perform (Keeps.targetOf.bind fun _ => Keeps.goTo)

protected theorem Ends.execBcc {cc : Cond} {a b : SReg} {ti : Fin 5} {tl : BitVec 32} {s : State} : Ends s (execBcc cc a b ti tl s) :=
  Ends.perform (Keeps.rd.bind fun _ => Keeps.rd.bind fun _ => Keeps.targetOf.bind fun _ => Keeps.ite Keeps.goTo (Keeps.pure _))

protected theorem Ends.execCall {d : SReg} {ti : Fin 5} {tl : BitVec 32} {s : State} : Ends s (execCall d ti tl s) :=
  Ends.perform (Keeps.successor.bind fun _ => Keeps.targetOf.bind fun _ => Keeps.result.bind fun _ => Keeps.goTo)

protected theorem Ends.execRet {a : SReg} {s : State} : Ends s (execRet a s) := Ends.perform (Keeps.rd.bind fun _ => Keeps.goTo)

protected theorem Ends.execJr {d a : SReg} {s : State} : Ends s (execJr d a s) :=
  Ends.perform (Keeps.rd.bind fun _ => Keeps.successor.bind fun _ => Keeps.result.bind fun _ => Keeps.goTo)

protected theorem Ends.execLoop {d a : SReg} {ti : Fin 5} {tl : BitVec 32} {s : State} : Ends s (execLoop d a ti tl s) :=
  Ends.perform (Keeps.rd.bind fun _ => Keeps.targetOf.bind fun _ => Keeps.result.bind fun _ => Keeps.ite Keeps.goTo (Keeps.pure _))

protected theorem Ends.execNop {s : State} : Ends s (execNop s) := Ends.performSeq (Keeps.pure _)

protected theorem Ends.execYield {s : State} : Ends s (execYield s) := Ends.perform (Keeps.pure _)

protected theorem Ends.execHalt {s : State} : Ends s (execHalt s) := Ends.perform (Keeps.pure _)

protected theorem Ends.execEret {a : SReg} {s : State} : Ends s (execEret a s) := Ends.perform (Keeps.leaveHandler Keeps.rd)

protected theorem Ends.execTret {s : State} : Ends s (execTret s) :=
  Ends.perform (Keeps.leaveHandler (Keeps.theFib.bind fun _ => Keeps.pure _))

protected theorem Ends.execTrap {n : BitVec 16} {s : State} : Ends s (execTrap n s) :=
  Ends.perform (Keeps.successor.bind fun _ => Keeps.pure _)

protected theorem Keeps.needMailbox : Keeps needMailbox := by
  unfold needMailbox
  intro s h
  dsimp only
  split
  · exact Good.ok h
  · exact Good.leave Each.none

protected theorem Ends.execSysc {n : BitVec 16} {s : State} : Ends s (execSysc n s) :=
  Ends.perform (Keeps.needMailbox.bind fun _ => Keeps.pure _)

/-! ## `Machine/KernelOps` -/

protected theorem Keeps.needControl : Keeps needControl := Keeps.theSlot.bind fun _ => Keeps.ite (Keeps.pure _) Keeps.fail

protected theorem Inv.spawnOn {s : State} {pc x0 : Word} (h : Inv s) : Each (Inv ·.2) (spawnOn s pc x0) := by
  unfold spawnOn
  dsimp only
  split
  · next e2 => exact Each.some ((h.allocRecord.of_some e2).createFibre)
  · exact Each.none

protected theorem Ends.execSpawn {d a : SReg} {b : SrcB} {s : State} : Ends s (execSpawn d a b s) := by
  unfold execSpawn
  refine Ends.performSeq (Keeps.needControl.bind fun _ => Keeps.rd.bind fun pc => Keeps.rdB.bind fun x0 => Keeps.get_bind fun t ht => ?_)
  cases e : spawnOn t pc x0 with
  | none => exact Keeps.result
  | some r =>
    have hr := ht.spawnOn.of_some e
    exact (Keeps.set hr).bind fun _ => Keeps.result

protected theorem Ends.execReap {d a : SReg} {s : State} : Ends s (execReap d a s) := by
  unfold execReap
  refine Ends.performSeq (Keeps.needControl.bind fun _ => Keeps.rd.bind fun _ => Keeps.get_bind fun _ ht => ?_)
  split
  · exact Keeps.result
  · exact (Keeps.set ht.freeFibre).bind fun _ => Keeps.result

protected theorem Ends.execKwaitp {d : SReg} {b : SrcB} {s : State} : Ends s (execKwaitp d b s) := by
  unfold execKwaitp
  extract_lets p
  refine Ends.performSeq (Keeps.inTurn (Keeps.takeWake.bind fun _ => Keeps.onWake (fun v => ?_) Keeps.fail
    (Keeps.rdB.bind fun _ => Keeps.ite (Keeps.acquireAt.bind fun _ => Keeps.result) ?_)))
  · cases b with
    | reg r => exact Keeps.repop.bind fun _ => Keeps.acquireAt.bind fun _ => Keeps.result
    | imm n => exact Keeps.acquireAt.bind fun _ => Keeps.result
  · cases counterRef s p with
    | none => exact Keeps.fail
    | some a =>
      exact Keeps.ite Keeps.fail (Keeps.drainWord.bind fun _ => Keeps.comeToHome.bind fun _ => Keeps.isToxicM.bind fun _ =>
        Keeps.ite Keeps.failPoisoned (Keeps.get_bind fun _ _ => Keeps.ite (Keeps.acquireAt.bind fun _ => Keeps.result) Keeps.sleepOn))

protected theorem Ends.execKhint {s : State} : Ends s (execKhint s) := by
  refine Ends.performSeq (Keeps.change fun t ht => ?_)
  cases myKern t with
  | none => exact ht
  | some k => exact ht.writeNat

protected theorem Ends.execKhintMv {d : SReg} {s : State} : Ends s (execKhintMv d s) :=
  Ends.performSeq (Keeps.get_bind fun _ _ => Keeps.result)

protected theorem Keeps.postValue {f : Fib} {n : Nat} {q : Word} : Keeps (postValue f n q) :=
  Keeps.drainWord.bind fun _ => Keeps.comeToHome.bind fun _ => Keeps.isToxicM.bind fun _ =>
    Keeps.ite Keeps.failPoisoned (Keeps.get_bind fun _ _ => Keeps.pure _)

protected theorem Keeps.leavePost {f : Fib} {sc : Nat} {n : Word} : Keeps (leavePost f sc n) :=
  fun _ h => Good.leave (Each.some h.beginPublish.pushPublish.record)

protected theorem Keeps.repopV {k : Fin 16} : Keeps (repopV k) := by
  unfold repopV
  refine Keeps.theFib.bind fun _ => ?_
  split
  · exact Keeps.rdV.bind fun _ => Keeps.pure _
  · exact Keeps.pure _

protected theorem Keeps.completePost {sys : Bool} {d a : SReg} {v : Fin 15} {f : Fib} {n : Word} : Keeps (completePost sys d a v f n) := by
  unfold completePost
  refine Keeps.rdRaw.bind fun _ => Keeps.repopV.bind fun _ => Keeps.repopV.bind fun _ => Keeps.release.bind fun _ =>
    Keeps.get_bind fun _ _ => ?_
  split
  · exact Keeps.ite (Keeps.fail.bind fun _ => Keeps.modFib.bind fun _ => Keeps.result) (Keeps.comeToHome.bind fun _ =>
      (Keeps.change fun _ ht2 => ht2.addAt).bind fun _ => Keeps.modFib.bind fun _ => Keeps.result)
  · exact Keeps.modFib.bind fun _ => Keeps.result

protected theorem Ends.execQpost {sys : Bool} {d a : SReg} {v : Fin 15} {s : State} : Ends s (execQpost sys d a v s) := by
  unfold execQpost
  refine Ends.performSeq (Keeps.inTurn ?_)
  cases s.fib.post with
  | some x => exact Keeps.completePost
  | none =>
    refine Keeps.rd.bind fun q => Keeps.get_bind fun t _ => Keeps.ite Keeps.fail (Keeps.ite Keeps.fail (Keeps.ite Keeps.fail
      (Keeps.rdV.bind fun _ => Keeps.rdV.bind fun _ => Keeps.ite Keeps.fail ?_)))
    cases qNotify t q.toNat with
    | none => exact Keeps.fail
    | some na =>
      cases qTaken t q.toNat with
      | none => exact Keeps.fail
      | some ta =>
        exact Keeps.ite Keeps.fail (Keeps.postValue.bind fun _ => Keeps.postValue.bind fun _ => Keeps.ite Keeps.result
          (Keeps.translate.bind fun _ => Keeps.storeAll.bind fun _ => Keeps.leavePost))

protected theorem Inv.seenPipe {s : State} {h : Nat} (hs : Inv s) : Inv (seenPipe s h) := hs.correctRead

protected theorem Inv.pipeTake {s : State} {h : Nat} (hs : Inv s) : Each (Inv ·.2) (pipeTake s h) := by
  unfold pipeTake
  dsimp only
  split
  · exact Each.none
  · exact Each.some hs.correctRead.writeWord

protected theorem Inv.pipeHand {n : Nat} {s : State} {n2 : Nat} (h : Inv s) : Inv (pipeHand n s n2) := by
  induction n generalizing s with
  | zero => exact h
  | succ n ih =>
    unfold pipeHand
    split
    · exact h
    · split
      · exact h
      · next e3 => exact ih ((h.pipeTake.of_some e3).record.wakeOne)

protected theorem Inv.poisonPipe {s : State} {h : Nat} (hs : Inv s) : Inv (poisonPipe s h) := hs.poisonEvent

protected theorem Inv.pipeAppend {s : State} {h : Nat} {b : Word} (hs : Inv s) : Inv (pipeAppend s h b).2 := by
  unfold pipeAppend
  dsimp only
  split
  · exact hs
  · exact hs.writeWord.writeWord.pipeHand

protected theorem Inv.countMessage {s : State} (h : Inv s) : Inv (countMessage s) := by
  unfold countMessage
  split
  · exact h.setKern
  · exact h

protected theorem Ends.execPput {d a : SReg} {b : SrcB} {s : State} : Ends s (execPput d a b s) := by
  unfold execPput
  refine Ends.performSeq (Keeps.inTurn (Keeps.rd.bind fun p => Keeps.rdB.bind fun v => Keeps.get_bind fun t _ => ?_))
  cases pipeHome t p with
  | none => exact Keeps.fail
  | some h =>
    exact Keeps.ite Keeps.fail (Keeps.release.bind fun _ => (Keeps.change fun _ hw => hw.countMessage).bind fun _ =>
      Keeps.comeToHome.bind fun _ => (Keeps.change fun _ hw => hw.seenPipe).bind fun _ => Keeps.get_bind fun _ hu => Keeps.ite
      ((Keeps.change fun _ hw => hw.poisonPipe).bind fun _ => Keeps.failKeeping)
      ((Keeps.set hu.pipeAppend).bind fun _ => Keeps.result))

protected theorem Keeps.pipeGet {f : Fib} {p : Word} : Keeps (pipeGet f p) := by
  unfold pipeGet
  refine Keeps.get_bind fun t _ => ?_
  cases pipeHome t p with
  | none => exact Keeps.fail
  | some h =>
    refine Keeps.bind Keeps.comeToHome fun _ => Keeps.bind (Keeps.change fun _ ht => ht.seenPipe) fun _ => Keeps.get_bind fun u hu => ?_
    cases pipeToxic u h false with
    | true => exact Keeps.bind (Keeps.change fun _ ht => ht.poisonPipe) fun _ => Keeps.failKeeping
    | false =>
      cases e : pipeTake u h with
      | none => exact Keeps.pure _
      | some r =>
        have hw := hu.pipeTake.of_some e
        exact Keeps.bind (Keeps.set hw) fun _ => Keeps.bind Keeps.acquireAt fun _ => Keeps.pure _

protected theorem Ends.execPget {d a : SReg} {s : State} : Ends s (execPget d a s) :=
  Ends.performSeq (Keeps.inTurn (Keeps.rd.bind fun _ => Keeps.pipeGet.bind fun _ => Keeps.result))

protected theorem Ends.execPgetW {d a : SReg} {s : State} : Ends s (execPgetW d a s) := by
  unfold execPgetW
  refine Ends.performSeq (Keeps.inTurn (Keeps.takeWake.bind fun _ => Keeps.onWake
    (fun _ => Keeps.repop.bind fun _ => Keeps.acquireAt.bind fun _ => Keeps.result)
    (Keeps.rd.bind fun _ => Keeps.fail)
    (Keeps.rd.bind fun _ => Keeps.pipeGet.bind fun r => ?_)))
  cases r.2 with
  | none => exact Keeps.sleepOn
  | some v => exact Keeps.result

/-! ## `Machine/CoreEvents` -/

protected theorem Inv.rejoin {s : State} {g : Nat} {k : Fin 16} (h : Inv s) : Inv (rejoin s g k) := h.setCtx

protected theorem Inv.bringLine {s : State} {g : Nat} {k : Fin 16} (h : Inv s) : Inv (bringLine s g k) := by
  unfold bringLine
  dsimp only
  split
  · next e =>
      split
      · exact (h.fetchLine.snd_of_eq e).clearPath.addLine.rejoin
      · exact h
  · next e => exact (h.fetchLine.snd_of_eq e).rejoin
  · next e =>
      split
      · next e2 => exact ((h.fetchLine.snd_of_eq e).postMiss.of_some e2).setCtx
      · exact h
  · exact h

protected theorem Inv.lineArrives {s : State} {g : Nat} {k : Fin 16} (h : Inv s) : Inv (lineArrives s g k) := by
  unfold lineArrives
  refine Inv.ite h ?_
  extract_lets f
  split
  · exact Inv.ite h h.bringLine
  · exact Inv.ite h h.bringLine
  · exact h

protected theorem Ends.execFetchLineArrival {g k : Nat} {s : State} : Ends s (execFetchLineArrival g k s) :=
  Ends.next fun ht => ht.lineArrives

protected theorem Inv.setFetchErr {s : State} {g : Nat} {k : Fin 16} {b : Bool} (h : Inv s) : Inv (setFetchErr s g k b) := by
  unfold setFetchErr
  dsimp only
  split
  · exact h
  · exact h.setCore

protected theorem Inv.failTwice {s : State} {w : Word} (h : Inv s) : Inv (failTwice s w) := h.setFetchErr.bumpDie.raiseTrap

protected theorem Inv.refetched {s : State} (h : Inv s) : Inv (refetched s) := by
  unfold refetched
  split
  · exact h
  · dsimp only
    split
    · split
      · exact h
      · split
        · exact h.clearPath.addLine.record.rejoin
        · exact h.clearPath.addLine.failTwice
    · exact h.rejoin

protected theorem Ends.execParityRefetch {g k : Nat} {s : State} : Ends s (execParityRefetch g k s) := by
  unfold execParityRefetch
  refine Ends.next fun ht => ?_
  split
  · exact ht.atSlot fun _ ht3 => ht3.refetched
  · exact ht

protected theorem Inv.replyArrives {s : State} {g : Nat} {k : Fin 16} (h : Inv s) : Inv (replyArrives s g k) := by
  unfold replyArrives
  split
  · exact h
  · split
    · split
      · exact h
      · exact h.rejoin
    · exact h.rejoin
    · dsimp only
      split
      · exact h.pushPublish.rejoin
      · exact h.pushPublish
    · exact h

protected theorem Ends.execReplyCompletion {g k : Nat} {s : State} : Ends s (execReplyCompletion g k s) :=
  Ends.next fun ht => ht.replyArrives

protected theorem Inv.bindEvent {s : State} {g : Nat} {k : Fin 16} (h : Inv s) : Inv (bindEvent s g k) := by
  unfold bindEvent
  split
  · exact h
  · split
    · exact h.bindReady
    · exact h

protected theorem Ends.execFibreBind {g k : Nat} {s : State} : Ends s (execFibreBind g k s) := Ends.next fun ht => ht.bindEvent

protected theorem Inv.swapOut {s : State} {g : Nat} {k : Fin 16} (h : Inv s) : Inv (swapOut s g k) := by
  unfold swapOut
  split
  · exact h
  · split
    · split
      · exact h.takeOff
      · exact h
    · exact h

protected theorem Ends.execSwapThreshold {g k : Nat} {s : State} : Ends s (execSwapThreshold g k s) := Ends.next fun ht => ht.swapOut

protected theorem Ends.execBudgetOverrun {g k : Nat} {s : State} : Ends s (execBudgetOverrun g k s) := by
  unfold execBudgetOverrun
  refine Ends.next fun ht => ?_
  split
  · exact ht.atSlot fun _ ht3 => ht3.record.raiseTrap
  · exact ht

protected theorem Inv.deliverPend {s : State} (h : Inv s) : Inv (deliverPend s) := by
  unfold deliverPend
  split
  · split
    · exact h.record.raiseTrap
    · exact h
  · exact h

protected theorem Ends.execEngineTrapDelivery {g k : Nat} {s : State} : Ends s (execEngineTrapDelivery g k s) := by
  unfold execEngineTrapDelivery
  refine Ends.next fun ht => ?_
  split
  · exact ht.atSlot fun _ ht3 => ht3.deliverPend
  · exact ht

protected theorem Inv.preempt {s : State} {g : Nat} {k : Fin 16} (h : Inv s) : Inv (preempt s g k) := by
  unfold preempt
  split
  · exact h
  · split
    · split
      · exact h
      · exact h.takeOff
    · exact h.takeOff
    · exact h

protected theorem Ends.execPreEmption {g k : Nat} {s : State} : Ends s (execPreEmption g k s) := Ends.next fun ht => ht.preempt

protected theorem Inv.recordWritten {s : State} {g f : Nat} (h : Inv s) : Inv (recordWritten s g f) := by
  unfold recordWritten
  split
  · exact h
  · split
    · exact h
    · split
      · exact Inv.getD h.writeState.setFibreInfo.postService h
      · split
        · exact h.writeState.setFibreInfo.enlist
        · exact h.writeState.setFibreInfo

protected theorem Ends.execRecordWriteComplete {g f : Nat} {s : State} : Ends s (execRecordWriteComplete g f s) :=
  Ends.next fun ht => ht.recordWritten

protected theorem Ends.execStoreBufferDrain {g i : Nat} {s : State} : Ends s (execStoreBufferDrain g i s) :=
  Ends.next fun ht => ht.drainEvent

protected theorem Inv.addArrives {s : State} {i : Nat} (h : Inv s) : Inv (addArrives s i) := by
  unfold addArrives
  split
  · exact h
  · split
    · exact h
    · exact h.record.addAt

protected theorem Ends.execCounterAddAtHome {i : Nat} {s : State} : Ends s (execCounterAddAtHome i s) := Ends.next fun ht => ht.addArrives

protected theorem Inv.wakeArrives {s : State} {i : Nat} (h : Inv s) : Inv (wakeArrives s i) := by
  unfold wakeArrives
  split
  · exact h
  · split
    · exact h
    · exact h.record.deliverWake

protected theorem Ends.execWakeDelivery {i : Nat} {s : State} : Ends s (execWakeDelivery i s) := Ends.next fun ht => ht.wakeArrives

protected theorem Inv.wakePoll {s : State} {e : Enrol} {v : Option Word} (h : Inv s) : Inv (wakePoll s e v) := h.record.wakeOne

protected theorem Inv.pollFrom {s : State} {who : Waiter} {n : Nat} {f : State → State} (h : Inv s) (hf : ∀ t, Inv t → Inv (f t)) :
    Inv (pollFrom s who n f) := by
  unfold pollFrom
  split
  · exact hf _ h
  · dsimp only
    split
    · exact hf _ h.clearPath
    · exact h

protected theorem Inv.pollHome {e : Enrol} {s0 : State} (h : Inv s0) : Inv (pollHome e s0) := by
  unfold pollHome
  extract_lets s
  have hs : Inv s := by
    unfold s
    split
    · exact h.seenPipe
    · exact h
  split
  · split
    · exact hs.poisonPipe
    · split
      · next e2 => exact (hs.pipeTake.of_some e2).wakePoll
      · exact hs
  · split
    · split
      · next e3 => exact hs.record.readCounter.snd_of_eq e3
      · next e3 =>
          split
          · exact (hs.record.readCounter.snd_of_eq e3).wakePoll
          · exact hs.record.readCounter.snd_of_eq e3

protected theorem Inv.pollOnce {s : State} {e : Enrol} (h : Inv s) : Inv (pollOnce s e) := h.pollFrom (fun _ ht => ht.pollHome)

protected theorem Ends.execPollTest {g f : Nat} {s : State} : Ends s (execPollTest g f s) := by
  unfold execPollTest
  refine Ends.next fun ht => ?_
  split
  · exact ht.pollOnce
  · exact ht

protected theorem Ends.execDeviceWaiterPoll {i : Nat} {s : State} : Ends s (execDeviceWaiterPoll i s) := by
  unfold execDeviceWaiterPoll
  refine Ends.next fun ht => ?_
  split
  · split
    · exact ht.pollOnce
    · exact ht
  · exact ht

protected theorem Inv.refillSpans {s : State} {l : List (Nat × Nat)} (h : Inv s) : Each (Inv ·.2) (refillSpans s l) := by
  induction l generalizing s with
  | nil => exact .some h
  | cons x r ih =>
    unfold refillSpans
    split
    · exact .none
    · have hr : Each (Inv ·.2) (if isFar x.1 then (farRead s x.1 x.2).map fun f => ((farBytes s s.focus.1 x.1 f.1).map fun b =>
        (b, false), f.2)
          else some (coreBytes s s.focus.1 false x.1 x.2, correctLoad s s.focus.1 false x.1 x.2)) := by
        split
        · exact h.farRead.map fun _ hf => hf
        · exact .some h.correctLoad
      exact hr.bind fun _ ht => (ih ht).map fun _ hu => hu

protected theorem Inv.spansPath {s : State} {l : List (Nat × Nat)} (h : Inv s) : Inv (spansPath s l) := by
  unfold spansPath
  refine Inv.foldl h ?_
  intro t a ht
  split
  · exact ht
  · exact ht.clearPath

protected theorem Inv.refillNext {p : Fin 4} {s0 : State} (h : Inv s0) : Inv (refillNext p s0) := by
  unfold refillNext
  dsimp only
  split
  · exact h.rereadStreams
  · split
    · exact h.rereadStreams
    · split
      · exact h.rereadStreams.record
      · next e2 =>
          split
          · exact h.rereadStreams
          · split
            · exact h.rereadStreams.record
            · next e3 => exact (((Keeps.resolve _ h.rereadStreams).of_ok e2).spansPath.refillSpans.of_some e3).record

protected theorem Ends.execStreamRefill {g k : Nat} {p : Fin 4} {s : State} : Ends s (execStreamRefill g k p s) := by
  unfold execStreamRefill
  refine Ends.next fun ht => ?_
  split
  · exact ht.atSlot fun _ ht3 => ht3.refillNext
  · exact ht

protected theorem Ends.execSpeedTableCurWrite {g : Nat} {code : Byte} {s : State} : Ends s (execSpeedTableCurWrite g code s) :=
  Ends.next fun ht => ht.speedWrite

protected theorem Ends.execClockSwitchComplete {g : Nat} {s : State} : Ends s (execClockSwitchComplete g s) :=
  Ends.next fun ht => ht.clockSwitch

protected theorem Inv.dropEntry {s : State} {t : TlbId} {i : Nat} (h : Inv s) : Inv (dropEntry s t i) := by
  unfold dropEntry
  split
  · exact h.record
  · exact h

protected theorem Ends.execTlbEntryDrop {t : TlbId} {i : Nat} {s : State} : Ends s (execTlbEntryDrop t i s) :=
  Ends.next fun ht => ht.dropEntry

protected theorem Inv.softError {s : State} {e : ErrSite} (h : Inv s) : Inv (softError s e) := by
  cases e with
  | word a ok => exact Inv.ite (Inv.ite h h.record) (Inv.ite (Inv.ite h h.record.setToxic).countMemError h)
  | reg g k code ok => exact Inv.ite h (Inv.ite (Inv.ite h h.setCtx) h.setCtx.bumpDie)
  | buffer g i w ok =>
    dsimp only [softError]
    cases (getCore s g).sb[i]? with
    | none => exact h
    | some e => exact Inv.ite h (Inv.ite h.bumpDie h.setCore.bumpDie)
  | fetch g k => exact h.setCore
  | pcie p => exact h.bumpIo.bumpAt
  | seam d => exact Inv.ite h.bumpDie h
  | nvme b => exact Inv.ite h h.record

protected theorem Ends.execSoftError {e : ErrSite} {s : State} : Ends s (execSoftError e s) := Ends.next fun ht => ht.softError

end Sys2Proof.Safety
end

