-- ==== Sys2Proof/Proofs/EndsInstructions.lean ====
section
/-!
SUPPORT. Each instruction and each event goes on to a next state and keeps memory in canonical form, one lemma per arm of `exec`.
-/
namespace Sys2Proof.Safety
open Sys2Proof Sys2Proof.Machine

/-! ## `Machine/Engines` -/

protected theorem Ends.execEcopy {sc : Scope} {d : SReg} {m : CRef} {v : Fin 16} {s : State} : Ends s (execEcopy sc d m v s) :=
  Ends.performSeq Keeps.placeEngine

protected theorem Ends.execEcopyMc {sc : Scope} {d : SReg} {m : CRef} {v : Fin 16} {s : State} : Ends s (execEcopyMc sc d m v s) :=
  Ends.performSeq Keeps.placeEngine

protected theorem Ends.execEcopyDeal {sc : Scope} {d : SReg} {m : CRef} {v : Fin 16} {s : State} : Ends s (execEcopyDeal sc d m v s) :=
  Ends.performSeq Keeps.placeEngine

protected theorem Ends.execEcopyDec {sc : Scope} {d : SReg} {m : CRef} {v : Fin 16} {s : State} : Ends s (execEcopyDec sc d m v s) :=
  Ends.performSeq Keeps.placeEngine

protected theorem Ends.execEcopyRed {sc : Scope} {d : SReg} {m : CRef} {v : Fin 16} {s : State} : Ends s (execEcopyRed sc d m v s) :=
  Ends.performSeq Keeps.placeEngine

protected theorem Ends.execEgath {sc : Scope} {d : SReg} {m : CRef} {v : Fin 16} {s : State} : Ends s (execEgath sc d m v s) :=
  Ends.performSeq Keeps.placeEngine

protected theorem Ends.execEscat {sc : Scope} {d : SReg} {m : CRef} {v : Fin 16} {s : State} : Ends s (execEscat sc d m v s) :=
  Ends.performSeq Keeps.placeEngine

protected theorem Ends.execEmigMv {sc : Scope} {d : SReg} {m : CRef} {v : Fin 16} {s : State} : Ends s (execEmigMv sc d m v s) :=
  Ends.performSeq Keeps.placeEngine

protected theorem Ends.execEmigNvr {sc : Scope} {d : SReg} {m : CRef} {v : Fin 16} {s : State} : Ends s (execEmigNvr sc d m v s) :=
  Ends.performSeq Keeps.placeEngine

protected theorem Ends.execEmigNvw {sc : Scope} {d : SReg} {m : CRef} {v : Fin 16} {s : State} : Ends s (execEmigNvw sc d m v s) :=
  Ends.performSeq Keeps.placeEngine

protected theorem Ends.execEcode {sc : Scope} {d : SReg} {m : CRef} {v : Fin 16} {s : State} : Ends s (execEcode sc d m v s) :=
  Ends.performSeq Keeps.placeEngine

protected theorem Ends.execEpub {sc : Scope} {d : SReg} {m : CRef} {v : Fin 16} {s : State} : Ends s (execEpub sc d m v s) :=
  Ends.performSeq Keeps.placeEngine

protected theorem Ends.execEquery {d : SReg} {s : State} : Ends s (execEquery d s) :=
  Ends.performSeq (Keeps.get_bind fun _ _ => Keeps.result)

protected theorem Ends.execEquerySt {d : SReg} {m : CRef} {b : SReg} {s : State} : Ends s (execEquerySt d m b s) :=
  Ends.performSeq (Keeps.queryStatus.bind fun _ => Keeps.result)

protected theorem Ends.execEngineTakeCommand {i : Nat} {s : State} : Ends s (execEngineTakeCommand i s) :=
  Ends.next fun ht => ht.takeCommand

protected theorem Ends.execEngineResume {i : Nat} {s : State} : Ends s (execEngineResume i s) := Ends.next fun ht => ht.resumeCmd

protected theorem Ends.execEngineCommandRetire {i : Nat} {s : State} : Ends s (execEngineCommandRetire i s) :=
  Ends.next fun ht => ht.retireCmd

protected theorem Ends.execMulticastRunAccepted {i k : Nat} {s : State} : Ends s (execMulticastRunAccepted i k s) :=
  Ends.next fun ht => ht.multicastEvent

protected theorem Ends.execGatherRowAccepted {i : Nat} {s : State} : Ends s (execGatherRowAccepted i s) :=
  Ends.next fun ht => ht.gatherEvent

/-! ## `Machine/Groups` -/

protected theorem Keeps.needGroup : Keeps needGroup := by
  unfold needGroup
  intro s h
  dsimp only
  split
  · exact Good.ok h
  · exact Good.trap Each.none

protected theorem Inv.takePool {s : State} {r : Machine.Group} {n : Word} {who : Adder} (h : Inv s) : Inv (takePool s r n who) := by
  unfold takePool
  split
  · split
    · exact h.setCounter.boundaries
    · exact h.setCounter
  · exact h.setCounter

protected theorem Ends.execTake {d a : SReg} {b : SrcB} {s : State} : Ends s (execTake d a b s) :=
  Ends.performSeq (Keeps.inTurn (Keeps.rd.bind fun _ => Keeps.rdB.bind fun _ => Keeps.needGroup.bind fun _ =>
    Keeps.ite Keeps.fail (Keeps.comeToHome.bind fun _ => Keeps.isToxicM.bind fun _ =>
    Keeps.ite Keeps.failPoisoned (Keeps.get_bind fun _ _ => (Keeps.change fun _ ht2 => ht2.takePool).bind fun _ => Keeps.result))))

protected theorem Keeps.gtileForm {d a : SReg} {b : SrcB} {colsFull rowsFull : Bool} : Keeps (gtileForm d a b colsFull rowsFull) :=
  Keeps.rd.bind fun _ => Keeps.rdB.bind fun _ => Keeps.get_bind fun _ _ => Keeps.result

protected theorem Ends.execGtileO {d a : SReg} {b : SrcB} {s : State} : Ends s (execGtileO d a b s) := Ends.performSeq Keeps.gtileForm

protected theorem Ends.execGtileA {d a : SReg} {b : SrcB} {s : State} : Ends s (execGtileA d a b s) := Ends.performSeq Keeps.gtileForm

protected theorem Ends.execGtileB {d a : SReg} {b : SrcB} {s : State} : Ends s (execGtileB d a b s) := Ends.performSeq Keeps.gtileForm

protected theorem Ends.execGtileMask {d : SReg} {b : SrcB} {s : State} : Ends s (execGtileMask d b s) :=
  Ends.performSeq (Keeps.rdB.bind fun _ => Keeps.get_bind fun _ _ => Keeps.result)

protected theorem Ends.execGtileG {d : SReg} {b : SrcB} {s : State} : Ends s (execGtileG d b s) :=
  Ends.performSeq (Keeps.rdB.bind fun _ => Keeps.get_bind fun _ _ => Keeps.result)

protected theorem Ends.execLvpost {d a : SReg} {s : State} : Ends s (execLvpost d a s) :=
  Ends.performSeq (Keeps.needGroup.bind fun _ => Keeps.rd.bind fun _ => Keeps.ite Keeps.fail (Keeps.release.bind fun _ =>
    Keeps.get_bind fun _ _ => Keeps.ite Keeps.result ((Keeps.change fun _ ht2 => ht2.setCore).bind fun _ => Keeps.result)))

protected theorem Ends.execLvtake {d : SReg} {s : State} : Ends s (execLvtake d s) := by
  unfold execLvtake
  refine Ends.performSeq (Keeps.needGroup.bind fun _ => Keeps.get_bind fun t _ => ?_)
  extract_lets c
  cases c.level with
  | nil => exact Keeps.result
  | cons e r => exact (Keeps.change fun _ hu => hu.setCore).bind fun _ => Keeps.acquireAt.bind fun _ => Keeps.result

protected theorem Inv.markBalanced {s : State} {c : Nat} (h : Inv s) : Inv (markBalanced s c) := h.setCore

protected theorem Inv.moveEntries {s : State} {c j : Nat} (h : Inv s) : Inv (moveEntries s c j) := by
  unfold moveEntries
  dsimp only
  split
  · exact h
  · exact h.setCore.setCore

protected theorem Inv.balanceChain {n : Nat} {s : State} {n2 : Nat} (h : Inv s) : Inv (balanceChain n s n2) := by
  induction n generalizing s n2 with
  | zero => exact h
  | succ n ih =>
    unfold balanceChain
    split
    · exact h
    · split
      · dsimp only
        split
        · exact ih (ih h.markBalanced)
        · exact ih h.markBalanced
      · exact h.moveEntries

protected theorem Inv.levelBalance {s : State} {c : Nat} (h : Inv s) : Inv (levelBalance s c) := by
  unfold levelBalance
  split
  · exact h.markBalanced.balanceChain
  · exact h

protected theorem Ends.execLevelBalance {g : Nat} {s : State} : Ends s (execLevelBalance g s) := Ends.next fun ht => ht.levelBalance

protected theorem Inv.coreMove {s : State} {g : Nat} (h : Inv s) : Inv (coreMove s g) := by
  unfold coreMove
  split
  · exact h
  · split
    · exact h
    · split
      · exact h
      · split
        · next e3 =>
            exact Inv.getD ((h.stageTable.of_bytes e3).freeAllOn.setCore.setKern.createSet) ((h.stageTable.of_bytes
              e3).freeAllOn.setCore.setKern)
        · next e3 => exact h.onlyAsked
        · next e3 => exact h.stageTable.of_refused e3

protected theorem Ends.execCoreMove {g : Nat} {s : State} : Ends s (execCoreMove g s) := Ends.next fun ht => ht.coreMove

/-! ## `Machine/Handles` -/

protected theorem Keeps.atTable {n : Nat} : Keeps (atTable n) :=
  Keeps.drainBytes.bind fun _ => Keeps.needPath.bind fun _ => Keeps.change fun _ ht => ht.dropLines

protected theorem Keeps.allocate {kind : Nat} {d a : SReg} {b : SrcB} {c : Option SReg} : Keeps (allocate kind d a b c) := by
  unfold allocate
  refine Keeps.theFib.bind fun f => Keeps.ite Keeps.fail (Keeps.rd.bind fun cur => Keeps.rdB.bind fun bound => ?_)
  extract_lets entry
  have hentry : ∀ shd, Keeps (entry shd) := by
    intro shd
    refine Keeps.ite Keeps.fail (Keeps.ite Keeps.fail (Keeps.ite Keeps.fail (Keeps.get_bind fun s _ => ?_)))
    extract_lets allot
    have hallot : ∀ u, Keeps (allot u) := fun _ => Keeps.get_bind fun _ ht => Keeps.bind (Keeps.set ht.allocHandle) fun _ => Keeps.result
    cases nextFree s 1048575 s.lastHandle with
    | none => exact hallot ()
    | some n => exact Keeps.atTable.bind hallot
  cases c with
  | none => exact hentry 0
  | some r => exact Keeps.rd.bind hentry

protected theorem Ends.execHalloc {kind : Fin 5} {d a : SReg} {b : SrcB} {s : State} : Ends s (execHalloc kind d a b s) :=
  Ends.performSeq Keeps.allocate

protected theorem Ends.execHallocBufSh {d a : SReg} {b : SrcB} {c : SReg} {s : State} : Ends s (execHallocBufSh d a b c s) :=
  Ends.performSeq Keeps.allocate

protected theorem Ends.execHfree {a : SReg} {s : State} : Ends s (execHfree a s) :=
  Ends.performSeq (Keeps.rd.bind fun _ => Keeps.atTable.bind fun _ => Keeps.get_bind fun _ _ =>
    Keeps.ite Keeps.fail (Keeps.change fun _ ht2 => ht2.freeHandle))

protected theorem Ends.execHchk {d a : SReg} {b : SrcB} {s : State} : Ends s (execHchk d a b s) :=
  Ends.performSeq (Keeps.rd.bind fun _ => Keeps.rdB.bind fun _ => Keeps.needRead.bind fun _ => Keeps.get_bind fun _ _ => Keeps.result)

/-! ## `Machine/KernelEvents` -/

protected theorem Inv.sweep {s : State} {k : Nat} (h : Inv s) : Inv (sweep s k) := by
  unfold sweep
  split
  · exact h
  · split
    · dsimp only
      split
      · exact h
      · split
        · exact h.writeNat.writeNat.setKernState
        · split
          · exact h.writeNat.writeNat.completeKernel
          · exact h.writeNat.writeNat.setKernState
    · dsimp only
      split
      · exact h
      · exact h.writeNat.writeNat.setKernState

protected theorem Ends.execKernelEndSweep {k : Nat} {s : State} : Ends s (execKernelEndSweep k s) := Ends.next fun ht => ht.sweep

protected theorem Ends.execKillPort {k : Word} {s : State} : Ends s (execKillPort k s) := Ends.next fun ht => ht.killStore

protected theorem Ends.execProxyArrival {i : Nat} {s : State} : Ends s (execProxyArrival i s) := Ends.next fun ht => ht.proxyArrive

protected theorem Ends.execDrainHoldStart {k : Nat} {stage : Fin 8} {mod : Bool} {s : State} : Ends s (execDrainHoldStart k stage mod s) :=
  Ends.next fun ht => ht.holdStart

protected theorem Ends.execDrainRelease {k : Nat} {stage : Fin 8} {mod : Bool} {s : State} : Ends s (execDrainRelease k stage mod s) :=
  Ends.next fun ht => ht.drainRelease

protected theorem Inv.startRequest {s0 : State} {g n : Nat} {a : Kern} {h : Word} {loc : Nat} (hs : Inv s0) :
    Inv (startRequest s0 g n a h loc) :=
  hs.acquire.correctLoad.correctRead.setCore.createFibre.putStatus

protected theorem Inv.samplerStart {s : State} {g : Nat} (h : Inv s) : Inv (samplerStart s g) := by
  unfold samplerStart
  dsimp only
  split
  · split
    · exact h.startRequest
    · exact h
  · exact h

protected theorem Ends.execSamplerRequestStart {g : Nat} {s : State} : Ends s (execSamplerRequestStart g s) :=
  Ends.next fun ht => ht.samplerStart

/-! ## `Machine/LinkEvents` -/

protected theorem Ends.execLinkTrained {l : LinkId} {width rate peer : Nat} {s : State} : Ends s (execLinkTrained l width rate peer s) :=
  Ends.next fun ht => ht.trainLink

protected theorem Ends.execLinkTrainingFail {l : LinkId} {s : State} : Ends s (execLinkTrainingFail l s) :=
  Ends.next fun ht => ht.failTraining

protected theorem Ends.execLinkError {l : LinkId} {s : State} : Ends s (execLinkError l s) := Ends.next fun ht => ht.retrainLink

protected theorem Ends.execCtlTrain {l : LinkId} {s : State} : Ends s (execCtlTrain l s) := Ends.next fun ht => ht.ctlStore

protected theorem Ends.execCtlDisable {l : LinkId} {s : State} : Ends s (execCtlDisable l s) := Ends.next fun ht => ht.ctlStore

protected theorem Ends.execHostReset {p : Fin 8} {s : State} : Ends s (execHostReset p s) := Ends.next fun ht => ht.hostReset

protected theorem Ends.execHostFunctionResetComplete {p : Fin 8} {s : State} : Ends s (execHostFunctionResetComplete p s) :=
  Ends.next fun ht => ht.hostResetDone

protected theorem Ends.execInboundScratchpadRequest {r : Inbound} {s : State} : Ends s (execInboundScratchpadRequest r s) :=
  Ends.next fun ht => ht.inboundSpad

protected theorem Ends.execInboundCounterRead {r : Inbound} {s : State} : Ends s (execInboundCounterRead r s) :=
  Ends.next fun ht => ht.inboundCounterRead

protected theorem Ends.execInboundCounterWrite {r : Inbound} {s : State} : Ends s (execInboundCounterWrite r s) :=
  Ends.next fun ht => ht.inboundCounterWrite

protected theorem Ends.execCounterWindowAddApply {l : LinkId} {s : State} : Ends s (execCounterWindowAddApply l s) :=
  Ends.next fun ht => ht.applyHeld

protected theorem Ends.execInboundModuleRequest {r : Inbound} {s : State} : Ends s (execInboundModuleRequest r s) :=
  Ends.next fun ht => ht.inboundModule

protected theorem Ends.execWeltFlitReceive {w : Fin 16} {f : Flit} {s : State} : Ends s (execWeltFlitReceive w f s) :=
  Ends.next fun ht => ht.receiveFlit

protected theorem Ends.execWeltReplayTimeout {w : Fin 16} {s : State} : Ends s (execWeltReplayTimeout w s) :=
  Ends.next fun ht => ht.replayWelt

protected theorem Ends.execMsixVectorUnmask {v : Fin 64} {s : State} : Ends s (execMsixVectorUnmask v s) :=
  Ends.next fun ht => ht.unmaskVector

/-! ## `Machine/Matmul` -/

protected theorem Keeps.needKind {wide : Bool} : Keeps (needKind wide) := Keeps.theCore.bind fun _ => Keeps.ite (Keeps.pure _) Keeps.fail

protected theorem Keeps.atMatrixUnit {n : Nat} : Keeps (atMatrixUnit n) := Keeps.change fun _ ht => ht.setCore

protected theorem Ends.execMmn {fa fb : EFmt} {sp : Bool} {n : Fin 8} {a b m : Fin 32} {s : State} :
    Ends s (execMmn fa fb sp n a b m s) := by
  unfold execMmn
  refine Ends.performSeq (Keeps.needKind.bind fun _ => Keeps.ite_bind Keeps.needTile fun _ => Keeps.needTile.bind fun _ =>
    Keeps.needTile.bind fun _ => Keeps.ite_bind Keeps.needTile fun _ => Keeps.needAcc.bind fun _ => Keeps.ite_bind Keeps.needShape fun _ =>
    Keeps.needShape.bind fun _ => Keeps.needShape.bind fun _ => Keeps.ite_bind Keeps.needShape fun _ => ?_)
  cases mmnCount fa fb sp with
  | none => exact Keeps.fail
  | some cnt =>
    exact Keeps.ite_bind_pure Keeps.rdTile fun _ => Keeps.rdTile.bind fun _ => Keeps.rdTile.bind fun _ =>
      Keeps.ite_bind_pure Keeps.rdTile fun _ => Keeps.rdAcc.bind fun _ => Keeps.theFib.bind fun _ => Keeps.atMatrixUnit.bind fun _ =>
        Keeps.wrAcc

protected theorem Ends.execMmw {n : Fin 8} {k b : Fin 32} {s : State} : Ends s (execMmw n k b s) :=
  Ends.performSeq (Keeps.needKind.bind fun _ => Keeps.needTile.bind fun _ => Keeps.needTile.bind fun _ => Keeps.needAcc.bind fun _ =>
    Keeps.needShape.bind fun _ => Keeps.needShape.bind fun _ => Keeps.rdTile.bind fun _ => Keeps.rdTile.bind fun _ =>
    Keeps.rdAcc.bind fun _ => Keeps.theFib.bind fun _ => Keeps.atMatrixUnit.bind fun _ => Keeps.wrAcc)

protected theorem Ends.execAoutI {d : Fin 32} {n : Fin 8} {s : State} : Ends s (execAoutI d n s) :=
  Ends.performSeq (Keeps.needTile.bind fun _ => Keeps.needAcc.bind fun _ => Keeps.rdAcc.bind fun _ => Keeps.wrTile.bind fun _ =>
    Keeps.wrShape.bind fun _ => Keeps.ite Keeps.modFib (Keeps.pure _))

protected theorem Ends.execAoutF {d : Fin 32} {n : Fin 8} {s : State} : Ends s (execAoutF d n s) :=
  Ends.performSeq (Keeps.needTile.bind fun _ => Keeps.needAcc.bind fun _ => Keeps.rdAcc.bind fun _ => Keeps.wrTile.bind fun _ =>
    Keeps.wrShape)

protected theorem Ends.execScacc {d k b : Fin 32} {s : State} : Ends s (execScacc d k b s) :=
  Ends.performSeq (Keeps.needTile.bind fun _ => Keeps.needTile.bind fun _ => Keeps.needTile.bind fun _ => Keeps.needShape.bind fun _ =>
    Keeps.needShape.bind fun _ => Keeps.needShape.bind fun _ => Keeps.rdTile.bind fun _ => Keeps.rdTile.bind fun _ =>
    Keeps.rdTile.bind fun _ => Keeps.theFib.bind fun _ => Keeps.wrTile)

protected theorem Ends.execQcvt {h32 : Bool} {f : EFmt} {d k b : Fin 32} {line : Fin 8} {pos : BitVec 7} {src : BitVec 6} {sb : Fin 16}
    {s : State} : Ends s (execQcvt h32 f d k b line pos src sb s) :=
  Ends.performSeq (Keeps.needTile.bind fun _ => Keeps.needTile.bind fun _ => Keeps.needTile.bind fun _ => Keeps.needShape.bind fun _ =>
    Keeps.needShape.bind fun _ => Keeps.needShape.bind fun _ => Keeps.ite Keeps.fail (Keeps.rdTile.bind fun _ =>
    Keeps.oldTile.bind fun _ => Keeps.wrTile.bind fun _ => Keeps.oldTile.bind fun _ => Keeps.wrTile))

/-! ## `Machine/Memory` -/

protected theorem Keeps.acquireOrd {acq : Option Scope} : Keeps (acquireOrd acq) := by
  unfold acquireOrd
  split
  · exact Keeps.change fun _ ht => ht.acquire
  · exact Keeps.pure _

protected theorem Keeps.loadOp {acq : Option Scope} {m : MemRef} {n : Nat} : Keeps (loadOp acq m n) :=
  Keeps.rdMem.bind fun _ => Keeps.acquireOrd.bind fun _ => Keeps.loadSeg

protected theorem Ends.execLd {sz : Fin 7} {acq : Option Scope} {d : SReg} {m : MemRef} {s : State} : Ends s (execLd sz acq d m s) :=
  Ends.performSeq (Keeps.loadOp.bind fun _ => Keeps.result)

protected theorem Ends.execLdv {full : Bool} {acq : Option Scope} {d : Fin 16} {m : MemRef} {s : State} : Ends s (execLdv full acq d m s) :=
  Ends.performSeq (Keeps.loadOp.bind fun _ => Keeps.resultV)

protected theorem Ends.execLdvb {sz : Fin 3} {acq : Option Scope} {d : Fin 16} {m : MemRef} {s : State} : Ends s (execLdvb sz acq d m s) :=
  Ends.performSeq (Keeps.loadOp.bind fun _ => Keeps.resultV)

protected theorem Ends.execSt {sz : Fin 4} {m : MemRef} {c : SReg} {s : State} : Ends s (execSt sz m c s) :=
  Ends.performSeq (Keeps.rdMem.bind fun _ => Keeps.rd.bind fun _ => Keeps.storeSeg)

protected theorem Ends.execStv {full : Bool} {m : MemRef} {c : Fin 16} {s : State} : Ends s (execStv full m c s) :=
  Ends.performSeq (Keeps.rdMem.bind fun _ => Keeps.rdV.bind fun _ => Keeps.storeSeg)

protected theorem Ends.execSseg {keep : BitVec 4} {t : Fin 8} {m : MemRef} {c : SReg} {s : State} : Ends s (execSseg keep t m c s) :=
  Ends.performSeq (Keeps.rdMem.bind fun _ => Keeps.rd.bind fun _ => Keeps.theFib.bind fun _ =>
    Keeps.ite Keeps.fail (Keeps.ite Keeps.fail Keeps.setSeg))

protected theorem Ends.execSegq {sz : Fin 9} {d : SReg} {m : MemRef} {s : State} : Ends s (execSegq sz d m s) :=
  Ends.performSeq (Keeps.rdMem.bind fun _ => Keeps.theFib.bind fun _ => Keeps.result)

protected theorem Ends.execSarm {out : Bool} {d : StreamReg} {m : MemRef} {dseg : Fin 8} {s : State} :
    Ends s (execSarm out d m dseg s) := by
  unfold execSarm
  refine Ends.performSeq (Keeps.rdMem.bind fun po => Keeps.loadSeg.bind fun b => ?_)
  cases patternOf b d.isV with
  | none => exact Keeps.fail
  | some p =>
    refine Keeps.get_bind fun t _ => Keeps.ite Keeps.fail ?_
    cases armFault t t.fib.seg[dseg] p (if out then rightWr else rightRd) with
    | some x => exact Keeps.fail
    | none => exact (Keeps.change fun _ hu => hu.dropCache).bind fun _ => Keeps.modFib.bind fun _ => Keeps.setStream

protected theorem Ends.execSdis {d : SReg} {c : StreamReg} {s : State} : Ends s (execSdis d c s) :=
  Ends.performSeq (Keeps.theFib.bind fun _ => Keeps.modFib.bind fun _ => Keeps.result)

/-! ## `Machine/Phases` -/

protected theorem Ends.execPub {sc : Scope} {s : State} : Ends s (execPub sc s) := Ends.performSeq Keeps.release

protected theorem Ends.execAcq {sc : Scope} {s : State} : Ends s (execAcq sc s) := Ends.performSeq (Keeps.change fun _ ht => ht.acquire)

protected theorem Ends.execDrain {mod : Bool} {d : SReg} {s : State} : Ends s (execDrain mod d s) := by
  unfold execDrain
  refine Ends.performSeq (Keeps.takeWake.bind fun _ => ?_)
  split
  · exact (Keeps.change fun _ ht => ht.acquire).bind fun _ => Keeps.result
  · exact Keeps.get_bind fun _ _ => Keeps.ite Keeps.fail (Keeps.release.bind fun _ => Keeps.leaveKeeping)

/-! ## `Machine/PortEvents` -/

protected theorem Ends.execWakePort {g : Nat} {inc : Word} {who : Adder} {s : State} : Ends s (execWakePort g inc who s) :=
  Ends.next fun ht => ht.wakeStore

protected theorem Ends.execRefusePort {g : Nat} {t : Word} {s : State} : Ends s (execRefusePort g t s) := Ends.next fun ht => ht.refuseStore

protected theorem Ends.execPop64 {tier : Fin 4} {s : State} : Ends s (execPop64 tier s) := Ends.next fun ht => ht.swLoad

protected theorem Ends.execPush64 {tier : Fin 4} {frame : Word} {s : State} : Ends s (execPush64 tier frame s) :=
  Ends.next fun ht => ht.portStore

protected theorem Ends.execPop512 {tier : Fin 4} {s : State} : Ends s (execPop512 tier s) := Ends.next fun ht => ht.swLoad

protected theorem Ends.execPush512 {tier : Fin 4} {frame : Word} {s : State} : Ends s (execPush512 tier frame s) :=
  Ends.next fun ht => ht.portStore

protected theorem Ends.execRegisterWrite {off : Nat} {data : List Byte} {s : State} : Ends s (execRegisterWrite off data s) :=
  Ends.next fun ht => ht.registerStore

/-! ## `Machine/QueueEvents` -/

protected theorem Ends.execQueueOpenPort {q : Word} {s : State} : Ends s (execQueueOpenPort q s) := Ends.next fun ht => ht.openQueue

protected theorem Ends.execQueueClosePort {q : Word} {s : State} : Ends s (execQueueClosePort q s) := Ends.next fun ht => ht.closeQueue

protected theorem Inv.notifyWakes {s : State} {q : Nat} (h : Inv s) : Inv (notifyWakes s q) := by
  unfold notifyWakes
  split
  · exact h
  · split
    · exact h.record.wakeQueue
    · dsimp only
      split
      · exact h.record.watchNotify
      · exact h.record

protected theorem Ends.execQueueNotifyWake {q : Nat} {s : State} : Ends s (execQueueNotifyWake q s) := Ends.next fun ht => ht.notifyWakes

protected theorem Inv.slotFreed {s : State} {q : Nat} (h : Inv s) : Inv (slotFreed s q) := by
  unfold slotFreed
  split
  · split
    · exact h.bindQueue
    · exact h
  · exact h

protected theorem Ends.execQueueSlotFreed {q : Nat} {s : State} : Ends s (execQueueSlotFreed q s) := Ends.next fun ht => ht.slotFreed

protected theorem Inv.chooseUnbind {s : State} {q : Nat} (h : Inv s) : Inv (chooseUnbind s q) := by
  unfold chooseUnbind
  split
  · exact h.startUnbind
  · exact h

protected theorem Ends.execQueueUnbind {q : Nat} {s : State} : Ends s (execQueueUnbind q s) := Ends.next fun ht => ht.chooseUnbind

protected theorem Ends.execUnbindRetest {q : Nat} {s : State} : Ends s (execUnbindRetest q s) := by
  unfold execUnbindRetest
  refine Ends.next fun ht => ?_
  split
  · exact ht.retestQueue
  · exact ht

protected theorem Ends.execRecordRead {q : Nat} {s : State} : Ends s (execRecordRead q s) := Ends.next fun ht => ht.readRecord

protected theorem Ends.execKernelAdmission {k : Nat} {s : State} : Ends s (execKernelAdmission k s) := Ends.next fun ht => ht.admitKernel

protected theorem Ends.execGateReached {k : Nat} {s : State} : Ends s (execGateReached k s) := Ends.next fun ht => ht.gateKernel

protected theorem Ends.execKernelPlacement {k : Nat} {s : State} : Ends s (execKernelPlacement k s) :=
  Ends.next fun ht => ht.placeKernelEvent

protected theorem Ends.execPopulationComplete {k : Nat} {s : State} : Ends s (execPopulationComplete k s) := Ends.next fun ht => ht.populate

protected theorem Ends.execQueueArbiter {g : Nat} {s : State} : Ends s (execQueueArbiter g s) := Ends.next fun ht => ht.arbitrate

/-! ## `Machine/Sampling` -/

protected theorem Ends.execRngx {d a : SReg} {b : SrcB} {s : State} : Ends s (execRngx d a b s) :=
  Ends.performSeq (Keeps.rd.bind fun _ => Keeps.rdB.bind fun _ => Keeps.result)

protected theorem Ends.execVtopk {k : Fin 8} {d : Fin 12} {k2 : Fin 16} {b : SrcB} {c : SReg} {s : State} :
    Ends s (execVtopk k d k2 b c s) :=
  Ends.performSeq (Keeps.rdV.bind fun _ => Keeps.rdB.bind fun _ => Keeps.rd.bind fun _ => Keeps.rdV.bind fun _ => Keeps.resultV)

protected theorem Ends.execVsamp {d : SReg} {k : Fin 16} {b : SrcB} {c : SReg} {s : State} : Ends s (execVsamp d k b c s) :=
  Ends.performSeq (Keeps.rdV.bind fun _ => Keeps.rdB.bind fun _ => Keeps.rd.bind fun _ => Keeps.result)

protected theorem Ends.execVaccptP {n : Fin 16} {d : SReg} {k b c : Fin 16} {s : State} : Ends s (execVaccptP n d k b c s) :=
  Ends.performSeq (Keeps.rdV.bind fun _ => Keeps.rdV.bind fun _ => Keeps.rdV.bind fun _ => Keeps.result)

protected theorem Ends.execVaccptE {n : Fin 16} {d : SReg} {k b : Fin 16} {s : State} : Ends s (execVaccptE n d k b s) :=
  Ends.performSeq (Keeps.rdV.bind fun _ => Keeps.rdV.bind fun _ => Keeps.result)

protected theorem Ends.execVaccptLn {d : Fin 12} {a : SReg} {s : State} : Ends s (execVaccptLn d a s) := by
  unfold execVaccptLn
  exact Ends.performSeq (Keeps.needContext.bind fun _ => Keeps.rd.bind fun _ => Keeps.topFrame.bind fun _ => Keeps.get_bind fun _ _ =>
    Keeps.ite Keeps.stackFault (Keeps.ite Keeps.stackFault (Keeps.laneTokens.bind fun _ => Keeps.tokenRead.bind fun _ => Keeps.resultV)))

/-! ## `Machine/Scalar` -/

protected theorem Keeps.scalar1 {f : Word → Word} {d a : SReg} : Keeps (scalar1 f d a) := Keeps.rd.bind fun _ => Keeps.result

protected theorem Keeps.scalar2 {f : Word → Word → Word} {d a : SReg} {b : SrcB} : Keeps (scalar2 f d a b) :=
  Keeps.rd.bind fun _ => Keeps.rdB.bind fun _ => Keeps.result

protected theorem Keeps.scalar3 {f : Word → Word → Word → Word} {d a : SReg} {b : SrcB} {c : SReg} : Keeps (scalar3 f d a b c) :=
  Keeps.rd.bind fun _ => Keeps.rdB.bind fun _ => Keeps.rd.bind fun _ => Keeps.result

protected theorem Ends.execAdd {d a : SReg} {b : SrcB} {s : State} : Ends s (execAdd d a b s) := Ends.performSeq Keeps.scalar2

protected theorem Ends.execSub {d a : SReg} {b : SrcB} {s : State} : Ends s (execSub d a b s) := Ends.performSeq Keeps.scalar2

protected theorem Ends.execMul {d a : SReg} {b : SrcB} {s : State} : Ends s (execMul d a b s) := Ends.performSeq Keeps.scalar2

protected theorem Ends.execMulh {d a : SReg} {b : SrcB} {s : State} : Ends s (execMulh d a b s) := Ends.performSeq Keeps.scalar2

protected theorem Ends.execMulhn {d a : SReg} {b : SrcB} {s : State} : Ends s (execMulhn d a b s) := Ends.performSeq Keeps.scalar2

protected theorem Ends.execDiv {d a : SReg} {b : SrcB} {s : State} : Ends s (execDiv d a b s) := Ends.performSeq Keeps.scalar2

protected theorem Ends.execDivn {d a : SReg} {b : SrcB} {s : State} : Ends s (execDivn d a b s) := Ends.performSeq Keeps.scalar2

protected theorem Ends.execRem {d a : SReg} {b : SrcB} {s : State} : Ends s (execRem d a b s) := Ends.performSeq Keeps.scalar2

protected theorem Ends.execRemn {d a : SReg} {b : SrcB} {s : State} : Ends s (execRemn d a b s) := Ends.performSeq Keeps.scalar2

protected theorem Ends.execAnd {d a : SReg} {b : SrcB} {s : State} : Ends s (execAnd d a b s) := Ends.performSeq Keeps.scalar2

protected theorem Ends.execOr {d a : SReg} {b : SrcB} {s : State} : Ends s (execOr d a b s) := Ends.performSeq Keeps.scalar2

protected theorem Ends.execXor {d a : SReg} {b : SrcB} {s : State} : Ends s (execXor d a b s) := Ends.performSeq Keeps.scalar2

protected theorem Ends.execAndn {d a : SReg} {b : SrcB} {s : State} : Ends s (execAndn d a b s) := Ends.performSeq Keeps.scalar2

protected theorem Ends.execShl {d a : SReg} {b : SrcB} {s : State} : Ends s (execShl d a b s) := Ends.performSeq Keeps.scalar2

protected theorem Ends.execShr {d a : SReg} {b : SrcB} {s : State} : Ends s (execShr d a b s) := Ends.performSeq Keeps.scalar2

protected theorem Ends.execSar {d a : SReg} {b : SrcB} {s : State} : Ends s (execSar d a b s) := Ends.performSeq Keeps.scalar2

protected theorem Ends.execRol {d a : SReg} {b : SrcB} {s : State} : Ends s (execRol d a b s) := Ends.performSeq Keeps.scalar2

protected theorem Ends.execMin {d a : SReg} {b : SrcB} {s : State} : Ends s (execMin d a b s) := Ends.performSeq Keeps.scalar2

protected theorem Ends.execMax {d a : SReg} {b : SrcB} {s : State} : Ends s (execMax d a b s) := Ends.performSeq Keeps.scalar2

protected theorem Ends.execMinn {d a : SReg} {b : SrcB} {s : State} : Ends s (execMinn d a b s) := Ends.performSeq Keeps.scalar2

protected theorem Ends.execMaxn {d a : SReg} {b : SrcB} {s : State} : Ends s (execMaxn d a b s) := Ends.performSeq Keeps.scalar2

protected theorem Ends.execClz {d a : SReg} {s : State} : Ends s (execClz d a s) := Ends.performSeq Keeps.scalar1

protected theorem Ends.execCtz {d a : SReg} {s : State} : Ends s (execCtz d a s) := Ends.performSeq Keeps.scalar1

protected theorem Ends.execPopc {d a : SReg} {s : State} : Ends s (execPopc d a s) := Ends.performSeq Keeps.scalar1

protected theorem Ends.execMov {d a : SReg} {s : State} : Ends s (execMov d a s) := Ends.performSeq Keeps.scalar1

protected theorem Ends.execBext {d a : SReg} {b : SrcB} {s : State} : Ends s (execBext d a b s) := Ends.performSeq Keeps.scalar2

protected theorem Ends.execBextS {d a : SReg} {b : SrcB} {s : State} : Ends s (execBextS d a b s) := Ends.performSeq Keeps.scalar2

protected theorem Ends.execSext {d a : SReg} {b : SrcB} {s : State} : Ends s (execSext d a b s) := Ends.performSeq Keeps.scalar2

protected theorem Ends.execBins {d a : SReg} {b : SrcB} {c : SReg} {s : State} : Ends s (execBins d a b c s) :=
  Ends.performSeq Keeps.scalar3

protected theorem Ends.execSel {d a : SReg} {b : SrcB} {c : SReg} {s : State} : Ends s (execSel d a b c s) := Ends.performSeq Keeps.scalar3

protected theorem Ends.execCset {cc : Cond} {d a : SReg} {b : SrcB} {s : State} : Ends s (execCset cc d a b s) :=
  Ends.performSeq Keeps.scalar2

protected theorem Ends.execLea {k : Fin 7} {d a : SReg} {b : SrcB} {c : SReg} {s : State} : Ends s (execLea k d a b c s) :=
  Ends.performSeq Keeps.scalar3

protected theorem Ends.execLi {d : SReg} {imm : Word} {s : State} : Ends s (execLi d imm s) := Ends.performSeq Keeps.result

/-! ## `Machine/StartEvents` -/

protected theorem Ends.execThermalAlert {die : Nat} {s : State} : Ends s (execThermalAlert die s) := Ends.next fun ht => ht.thermalAlert

protected theorem Ends.execThermalShutdown {die : Nat} {s : State} : Ends s (execThermalShutdown die s) := Ends.next fun ht => ht.powerDown

protected theorem Ends.execPowerOn {s : State} : Ends s (execPowerOn s) := by
  unfold execPowerOn
  refine Ends.next fun ht => ?_
  split
  · exact ht
  · exact ht.powerUp

protected theorem Ends.execRestart {v : Word} {s : State} : Ends s (execRestart v s) := Ends.next fun ht => ht.restartStore

protected theorem Ends.execStart {i : StartInputs} {s : State} : Ends s (execStart i s) := Ends.next fun ht => ht.performStart

protected theorem Ends.execAttest {s : State} : Ends s (execAttest s) := Ends.next fun ht => ht.signReport

end Sys2Proof.Safety
end

