-- ==== Sys2Proof/Proofs/EndsStep.lean ====
section
/-!
SUPPORT. Every issue, turn and step keeps memory in canonical form, and a step goes on unless its turn names no core of the module: O58 and O59.
-/
namespace Sys2Proof.Safety
open Sys2Proof Sys2Proof.Machine

/-! ## `Machine/Issue` -/

protected theorem Inv.passPlain {s : State} {g n : Nat} (h : Inv s) : Inv (passPlain s g n) := by
  unfold passPlain
  dsimp only
  split
  · exact h.setCore.record
  · exact h.setCore

protected theorem Inv.closeCycle {s : State} {g : Nat} (h : Inv s) : Inv (closeCycle s g) := by
  unfold closeCycle
  extract_lets t
  have ht : Inv t := by
    unfold t
    split
    · exact h.arbitrate
    · exact h
  split
  · exact ht.levelBalance
  · exact ht

protected theorem Inv.passHeld {g n : Nat} {s : State} {n2 : Nat} (h : Inv s) : Inv (passHeld g n s n2) := by
  induction n generalizing s n2 with
  | zero => exact h.passPlain
  | succ n ih =>
    unfold passHeld
    dsimp only
    split
    · exact h.passPlain
    · exact ih h.passPlain.closeCycle.passPlain

protected theorem Inv.passCycles {s : State} {g n : Nat} (h : Inv s) : Inv (passCycles s g n) := by
  unfold passCycles
  split
  · exact h.passPlain
  · exact h.passHeld

protected theorem Inv.trapHere {s : State} {cause : Nat} {taddr : Word} {unbacked : Bool} (h : Inv s) :
    Inv (trapHere s cause taddr unbacked) :=
  h.raiseTrap

protected theorem Inv.stopPair {s t : State} {kept : Bool} {a : PairStop} (hs : Inv s) (ht : Inv t) : Inv (stopPair s t kept a) := by
  unfold stopPair
  split
  · split
    · exact ht.record.trapHere
    · exact ht.record.applyLeave
  · split
    · exact hs.trapHere
    · exact hs.applyLeave

protected theorem Inv.commitPair {s t : State} {p : Pairing} (hs : Inv s) (ht : Inv t) : Inv (commitPair s t p) := by
  unfold commitPair
  split
  · next e => exact ((Keeps.commitResults _ ht.record).of_ok e).applyFlow
  · exact hs.trapHere
  · exact hs.applyLeave

protected theorem Inv.failParity {s : State} {w : Word} (h : Inv s) : Inv (failParity s w) := by
  unfold failParity
  split
  · exact h.failTwice
  · exact h.record.discardLine.setFetchErr.bumpDie

protected theorem Inv.beginIssue {s : State} (h : Inv s) : Inv (beginIssue s) := by
  unfold beginIssue
  refine Inv.rereadStreams ?_
  refine Inv.record ?_
  split
  · exact h
  · exact h.dropTurn

/-! ## `Machine/Step` -/

protected theorem Inv.passIdle {s : State} {g n : Nat} (h : Inv s) : Inv (passIdle s g n) := by
  unfold passIdle
  split
  · split <;> exact h.passCycles
  · exact h.passCycles

protected theorem Inv.dropFetchLine {s : State} {g i : Nat} (h : Inv s) : Inv (dropFetchLine s g i) := by
  unfold dropFetchLine
  dsimp only
  split
  · exact h
  · split
    · exact h
    · exact h.setCore

protected theorem Inv.forwardTurn {s : State} {die : Bool} {n : Nat} (h : Inv s) : Inv (forwardTurn s die n) := by
  unfold forwardTurn
  split
  · exact Inv.getD h.forwardDie h
  · exact h.forwardClu

/-! ## The dispatch -/

/-- Each instruction and each event goes on. -/
protected theorem Ends.exec {i : Instr} {s : State} : Ends s (exec i s) := by
  cases i with
  | add => exact Ends.execAdd
  | sub => exact Ends.execSub
  | mul => exact Ends.execMul
  | mulh => exact Ends.execMulh
  | mulhn => exact Ends.execMulhn
  | div => exact Ends.execDiv
  | divn => exact Ends.execDivn
  | rem => exact Ends.execRem
  | remn => exact Ends.execRemn
  | and => exact Ends.execAnd
  | or => exact Ends.execOr
  | xor => exact Ends.execXor
  | andn => exact Ends.execAndn
  | shl => exact Ends.execShl
  | shr => exact Ends.execShr
  | sar => exact Ends.execSar
  | rol => exact Ends.execRol
  | min => exact Ends.execMin
  | max => exact Ends.execMax
  | minn => exact Ends.execMinn
  | maxn => exact Ends.execMaxn
  | clz => exact Ends.execClz
  | ctz => exact Ends.execCtz
  | popc => exact Ends.execPopc
  | bext => exact Ends.execBext
  | bextS => exact Ends.execBextS
  | bins => exact Ends.execBins
  | sext => exact Ends.execSext
  | mov => exact Ends.execMov
  | sel => exact Ends.execSel
  | cset => exact Ends.execCset
  | lea => exact Ends.execLea
  | li => exact Ends.execLi
  | csk => exact Ends.execCsk
  | b => exact Ends.execB
  | bcc => exact Ends.execBcc
  | call => exact Ends.execCall
  | ret => exact Ends.execRet
  | jr => exact Ends.execJr
  | loop => exact Ends.execLoop
  | nop => exact Ends.execNop
  | yield => exact Ends.execYield
  | halt => exact Ends.execHalt
  | csrr => exact Ends.execCsrr
  | csrw => exact Ends.execCsrw
  | csrx => exact Ends.execCsrx
  | trap => exact Ends.execTrap
  | eret => exact Ends.execEret
  | tret => exact Ends.execTret
  | sysc => exact Ends.execSysc
  | ld => exact Ends.execLd
  | st => exact Ends.execSt
  | ldv => exact Ends.execLdv
  | stv => exact Ends.execStv
  | ldvb => exact Ends.execLdvb
  | sarm => exact Ends.execSarm
  | sdis => exact Ends.execSdis
  | sseg => exact Ends.execSseg
  | segq => exact Ends.execSegq
  | cadd => exact Ends.execCadd
  | caddF => exact Ends.execCaddF
  | cwait => exact Ends.execCwait
  | cread => exact Ends.execCread
  | cpoll => exact Ends.execCpoll
  | cstrag => exact Ends.execCstrag
  | cstragT => exact Ends.execCstragT
  | pub => exact Ends.execPub
  | acq => exact Ends.execAcq
  | drain => exact Ends.execDrain
  | spawn => exact Ends.execSpawn
  | reap => exact Ends.execReap
  | kwaitp => exact Ends.execKwaitp
  | khint => exact Ends.execKhint
  | khintMv => exact Ends.execKhintMv
  | qpost => exact Ends.execQpost
  | pput => exact Ends.execPput
  | pget => exact Ends.execPget
  | pgetW => exact Ends.execPgetW
  | take => exact Ends.execTake
  | gtileO => exact Ends.execGtileO
  | gtileA => exact Ends.execGtileA
  | gtileB => exact Ends.execGtileB
  | gtileMask => exact Ends.execGtileMask
  | gtileG => exact Ends.execGtileG
  | lvpost => exact Ends.execLvpost
  | lvtake => exact Ends.execLvtake
  | vadd => exact Ends.execVadd
  | vsub => exact Ends.execVsub
  | vmul => exact Ends.execVmul
  | vfma => exact Ends.execVfma
  | vmax => exact Ends.execVmax
  | vmin => exact Ends.execVmin
  | vabs => exact Ends.execVabs
  | vneg => exact Ends.execVneg
  | vrcp => exact Ends.execVrcp
  | vrsq => exact Ends.execVrsq
  | vexp2 => exact Ends.execVexp2
  | vlog2 => exact Ends.execVlog2
  | vcmp => exact Ends.execVcmp
  | vsel => exact Ends.execVsel
  | vand => exact Ends.execVand
  | vor => exact Ends.execVor
  | vxor => exact Ends.execVxor
  | vshl => exact Ends.execVshl
  | vshr => exact Ends.execVshr
  | vshrS => exact Ends.execVshrS
  | vcvt => exact Ends.execVcvt
  | vbcast => exact Ends.execVbcast
  | vbcastL => exact Ends.execVbcastL
  | vperm => exact Ends.execVperm
  | vperm2 => exact Ends.execVperm2
  | vred => exact Ends.execVred
  | vdot => exact Ends.execVdot
  | vins => exact Ends.execVins
  | vext => exact Ends.execVext
  | vgath => exact Ends.execVgath
  | vscat => exact Ends.execVscat
  | vratom => exact Ends.execVratom
  | vscan => exact Ends.execVscan
  | vmov => exact Ends.execVmov
  | vpack => exact Ends.execVpack
  | tset => exact Ends.execTset
  | tsetReg => exact Ends.execTsetReg
  | tld => exact Ends.execTld
  | tst => exact Ends.execTst
  | tz => exact Ends.execTz
  | mmn => exact Ends.execMmn
  | mmw => exact Ends.execMmw
  | aoutI => exact Ends.execAoutI
  | aoutF => exact Ends.execAoutF
  | az => exact Ends.execAz
  | scacc => exact Ends.execScacc
  | qcvt => exact Ends.execQcvt
  | tmov => exact Ends.execTmov
  | tmovTv => exact Ends.execTmovTv
  | tmovVt => exact Ends.execTmovVt
  | ttr => exact Ends.execTtr
  | ecopy => exact Ends.execEcopy
  | ecopyMc => exact Ends.execEcopyMc
  | ecopyDeal => exact Ends.execEcopyDeal
  | ecopyDec => exact Ends.execEcopyDec
  | ecopyRed => exact Ends.execEcopyRed
  | egath => exact Ends.execEgath
  | escat => exact Ends.execEscat
  | emigMv => exact Ends.execEmigMv
  | emigNvr => exact Ends.execEmigNvr
  | emigNvw => exact Ends.execEmigNvw
  | ecode => exact Ends.execEcode
  | epub => exact Ends.execEpub
  | equery => exact Ends.execEquery
  | equerySt => exact Ends.execEquerySt
  | halloc => exact Ends.execHalloc
  | hallocBufSh => exact Ends.execHallocBufSh
  | hfree => exact Ends.execHfree
  | hchk => exact Ends.execHchk
  | tlbinvAll => exact Ends.execTlbinvAll
  | tlbinvTen => exact Ends.execTlbinvTen
  | tlbinvVa => exact Ends.execTlbinvVa
  | wmbx => exact Ends.execWmbx
  | wfill => exact Ends.execWfill
  | wfail => exact Ends.execWfail
  | fpush => exact Ends.execFpush
  | fpushSpec => exact Ends.execFpushSpec
  | fret => exact Ends.execFret
  | fshareJ => exact Ends.execFshareJ
  | fshareH => exact Ends.execFshareH
  | frel => exact Ends.execFrel
  | farg => exact Ends.execFarg
  | fpos => exact Ends.execFpos
  | kvapp => exact Ends.execKvapp
  | kvappLn => exact Ends.execKvappLn
  | atbeg => exact Ends.execAtbeg
  | atstep => exact Ends.execAtstep
  | atend => exact Ends.execAtend
  | sctpin => exact Ends.execSctpin
  | sctevict => exact Ends.execSctevict
  | rngx => exact Ends.execRngx
  | vtopk => exact Ends.execVtopk
  | vsamp => exact Ends.execVsamp
  | vaccptP => exact Ends.execVaccptP
  | vaccptE => exact Ends.execVaccptE
  | vaccptLn => exact Ends.execVaccptLn
  | fetchLineArrival => exact Ends.execFetchLineArrival
  | parityRefetch => exact Ends.execParityRefetch
  | replyCompletion => exact Ends.execReplyCompletion
  | fibreBind => exact Ends.execFibreBind
  | swapThreshold => exact Ends.execSwapThreshold
  | budgetOverrun => exact Ends.execBudgetOverrun
  | preEmption => exact Ends.execPreEmption
  | engineTrapDelivery => exact Ends.execEngineTrapDelivery
  | storeBufferDrain => exact Ends.execStoreBufferDrain
  | counterAddAtHome => exact Ends.execCounterAddAtHome
  | wakeDelivery => exact Ends.execWakeDelivery
  | pollTest => exact Ends.execPollTest
  | deviceWaiterPoll => exact Ends.execDeviceWaiterPoll
  | streamRefill => exact Ends.execStreamRefill
  | speedTableCurWrite => exact Ends.execSpeedTableCurWrite
  | clockSwitchComplete => exact Ends.execClockSwitchComplete
  | wakePort => exact Ends.execWakePort
  | refusePort => exact Ends.execRefusePort
  | pop64 => exact Ends.execPop64
  | push64 => exact Ends.execPush64
  | pop512 => exact Ends.execPop512
  | push512 => exact Ends.execPush512
  | registerWrite => exact Ends.execRegisterWrite
  | migRetranslate => exact Ends.execMigRetranslate
  | engineTakeCommand => exact Ends.execEngineTakeCommand
  | engineResume => exact Ends.execEngineResume
  | engineCommandRetire => exact Ends.execEngineCommandRetire
  | multicastRunAccepted => exact Ends.execMulticastRunAccepted
  | gatherRowAccepted => exact Ends.execGatherRowAccepted
  | evictionStart => exact Ends.execEvictionStart
  | evictionComplete => exact Ends.execEvictionComplete
  | queueOpenPort => exact Ends.execQueueOpenPort
  | queueClosePort => exact Ends.execQueueClosePort
  | queueNotifyWake => exact Ends.execQueueNotifyWake
  | queueSlotFreed => exact Ends.execQueueSlotFreed
  | queueUnbind => exact Ends.execQueueUnbind
  | unbindRetest => exact Ends.execUnbindRetest
  | recordRead => exact Ends.execRecordRead
  | kernelAdmission => exact Ends.execKernelAdmission
  | gateReached => exact Ends.execGateReached
  | kernelPlacement => exact Ends.execKernelPlacement
  | populationComplete => exact Ends.execPopulationComplete
  | queueArbiter => exact Ends.execQueueArbiter
  | levelBalance => exact Ends.execLevelBalance
  | coreMove => exact Ends.execCoreMove
  | kernelEndSweep => exact Ends.execKernelEndSweep
  | killPort => exact Ends.execKillPort
  | proxyArrival => exact Ends.execProxyArrival
  | drainHoldStart => exact Ends.execDrainHoldStart
  | drainRelease => exact Ends.execDrainRelease
  | samplerRequestStart => exact Ends.execSamplerRequestStart
  | linkTrained => exact Ends.execLinkTrained
  | linkTrainingFail => exact Ends.execLinkTrainingFail
  | linkError => exact Ends.execLinkError
  | ctlTrain => exact Ends.execCtlTrain
  | ctlDisable => exact Ends.execCtlDisable
  | hostReset => exact Ends.execHostReset
  | inboundScratchpadRequest => exact Ends.execInboundScratchpadRequest
  | inboundCounterRead => exact Ends.execInboundCounterRead
  | inboundCounterWrite => exact Ends.execInboundCounterWrite
  | counterWindowAddApply => exact Ends.execCounterWindowAddApply
  | inboundModuleRequest => exact Ends.execInboundModuleRequest
  | weltFlitReceive => exact Ends.execWeltFlitReceive
  | weltReplayTimeout => exact Ends.execWeltReplayTimeout
  | thermalAlert => exact Ends.execThermalAlert
  | thermalShutdown die => exact Ends.execThermalShutdown (die := die)
  | powerOn => exact Ends.execPowerOn
  | restart => exact Ends.execRestart
  | start => exact Ends.execStart
  | attest => exact Ends.execAttest
  | hostFunctionResetComplete => exact Ends.execHostFunctionResetComplete
  | msixVectorUnmask => exact Ends.execMsixVectorUnmask
  | tlbEntryDrop => exact Ends.execTlbEntryDrop
  | softError => exact Ends.execSoftError
  | recordWriteComplete => exact Ends.execRecordWriteComplete

/-! ## The pair, the issue, the turn -/

/-- Both members of a pair go on, and so does the commit or the stop that they come to (R46, R47). -/
protected theorem Ends.execPair {i j : Instr} {s : State} : Ends s (execPair i j s) := by
  unfold execPair
  refine Ends.andThen (Ends.exec.after fun h => h.record) fun s1 hs1 => ?_
  extract_lets p1 base
  split
  · exact .next fun h => h.stopPair (hs1 h)
  · have hbase : Inv s → Inv base := fun h => Inv.ite h.record (hs1 h).record
    refine Ends.andThen (Ends.exec.after hbase) fun s2 hs2 => ?_
    extract_lets p2
    split
    · exact .next fun h => h.stopPair (hs2 h)
    · exact .next fun h => h.stopPair (hs1 h)
    · exact .next fun h => h.commitPair (hs2 h)

protected theorem Ends.issueLine {s : State} {loc word : Nat} : Ends s (issueLine s loc word) := by
  unfold issueLine
  extract_lets i paired
  split
  · exact .next fun h => h.failParity
  · split
    · exact .next fun h => h.trapHere
    · refine Ends.ite Ends.exec ?_
      split
      · exact .next fun h => h.trapHere
      · split
        · exact .next fun h => h.trapHere
        · exact Ends.execPair

protected theorem Ends.fetchIssue {s : State} : Ends s (fetchIssue s) := by
  unfold fetchIssue
  extract_lets pc
  refine Ends.ite (.next fun h => h.trapHere) ?_
  split
  · exact .next fun h => h.trapHere
  · split
    · exact .next fun h => h.trapHere
    · exact Ends.issueLine
  · exact .next id

protected theorem Ends.entryIssue {s : State} : Ends s (entryIssue s) := by
  unfold entryIssue
  refine Ends.ite ?_ Ends.fetchIssue
  split
  · exact Ends.fetchIssue.after fun h => h.record
  · exact .next fun h => h.record.trapHere
  · exact .next id

protected theorem Ends.issueFib {s : State} : Ends s (issueFib s) := by
  unfold issueFib
  extract_lets f
  refine Ends.ite (.next fun h => h.enterHandler) ?_
  split
  · exact .next fun h => h.raiseTrap
  · refine Ends.ite (.next fun h => h.record.raiseTrap) ?_
    split
    · exact .next fun h => h.record.raiseTrap
    · exact Ends.entryIssue.after fun h => h.beginIssue

protected theorem Ends.afterEvent {s : State} {o : Host.Outcome State Fault Refusal} (ho : Ends s o) : Ends s (afterEvent o) := by
  cases ho with | next ht => exact .next fun h => (ht h).settle

protected theorem Ends.issueCore {s : State} {g : Nat} : Ends s (issueCore s g) := by
  unfold issueCore
  refine Ends.ite (.next id) ?_
  split
  · exact .next id
  · extract_lets s1 d _ s2
    have hs2 : Inv s → Inv s2 := fun h => h.passCycles.setCore
    exact (Ends.ite (.next hs2) (Ends.issueFib.after fun h => (hs2 h).setFocus)).afterEvent

/-- The core that a turn names. -/
def namedCore : Turn → Option Nat
  | .issue g => some g
  | .tick g _ => some g
  | .cacheFill g _ => some g
  | .cacheDrop g _ => some g
  | .lineDrop g _ => some g
  | .forward _ _ => none
  | .event _ => none

theorem turnOf_of_no_such_core {s : State} {t : Turn} {g : Nat} (ht : namedCore t = some g) (hg : ¬ g < Config.cores) :
    turnOf s t = .fault .noSuchCore := by
  cases t with
  | event i => cases ht
  | forward die n => cases ht
  | issue g' | tick g' n | cacheFill g' b | cacheDrop g' b | lineDrop g' i => cases ht; exact if_neg hg

protected theorem Ends.turnOf {s : State} {t : Turn} (ht : ∀ g, namedCore t = some g → g < Config.cores) : Ends s (turnOf s t) := by
  cases t with
  | issue g => exact Ends.ite_of_pos (ht g rfl) Ends.issueCore
  | event i => exact Ends.ite Ends.exec.afterEvent (.next id)
  | tick g n => exact Ends.ite_of_pos (ht g rfl) (.next fun h => h.passIdle)
  | cacheFill g b => exact Ends.ite_of_pos (ht g rfl) (.next fun h => h.fillLine)
  | cacheDrop g b => exact Ends.ite_of_pos (ht g rfl) (.next fun h => h.dropLine)
  | forward die n => exact .next fun h => h.forwardTurn.settle
  | lineDrop g i => exact Ends.ite_of_pos (ht g rfl) (.next fun h => h.dropFetchLine)

protected theorem Ends.runTurn {s : State} {t : Turn} (ht : ∀ g, namedCore t = some g → g < Config.cores) : Ends s (runTurn s t) :=
  Ends.ite (Ends.turnOf ht) (.next id)

theorem step_of_turns_nil {s : State} (hs : s.turns = []) : step s = issueCore s s.focus.1 := by
  simp only [step, hs]

/-- A turn that goes on keeps memory in canonical form: one that names no core of the module ends in a fault. -/
theorem Inv.of_turnOf {s u : State} {t : Turn} (e : turnOf s t = .next u) (h : Inv s) : Inv u := by
  by_cases ht : ∀ g, namedCore t = some g → g < Config.cores
  · exact (Ends.turnOf ht).of_next e h
  · push Not at ht
    obtain ⟨g, hg, hlt⟩ := ht
    rw [turnOf_of_no_such_core hg (Nat.not_lt.mpr hlt)] at e
    cases e

theorem Inv.of_runTurn {s u : State} {t : Turn} (e : runTurn s t = .next u) (h : Inv s) : Inv u := by
  unfold runTurn at e
  split at e
  · exact h.of_turnOf e
  · cases e
    exact h

/-- Settles O58: every effect that a step runs keeps memory in canonical form, for it changes memory only through `setByte` and a filter. -/
theorem stepKeepsMemory : Obligations.StepKeepsMemory := by
  intro s t h e
  cases hs : s.turns with
  | nil => exact Ends.issueCore.of_next (step_of_turns_nil hs ▸ e) h
  | cons x r => exact Inv.of_runTurn (s := { s with turns := r }) (step_of_turns_cons hs ▸ e) h.record

/-- Settles O59: only a turn that names a core faults, and only when the module does not have that core. -/
theorem stepGoesOn : Obligations.StepGoesOn := by
  intro s hcores
  cases hs : s.turns with
  | nil => exact (Ends.issueCore (s := s)).goes.imp fun t e => (step_of_turns_nil hs).trans e
  | cons x r =>
    have hx : ∀ g, namedCore x = some g → g < Config.cores := by
      intro g hg
      refine hcores g ?_
      rw [hs]
      cases x with
      | event i => cases hg
      | forward die n => cases hg
      | issue g' | tick g' n | cacheFill g' b | cacheDrop g' b | lineDrop g' i => cases hg; exact List.mem_singleton_self g
    exact (Ends.runTurn (s := { s with turns := r }) hx).goes.imp fun t e => (step_of_turns_cons hs).trans e

end Sys2Proof.Safety
end

