-- ==== Sys2Proof/Proofs/RefillPath.lean ====
section
/-!
SUPPORT. O49 fails at the refill of a stream. A refill first passes on what the memory ports on its path hold (R118), and only then asks
whether its link is up (R92): a store to the CTL register of a CXL port that goes ahead of it can take the link down. `readable` asks for
the link in the state before, so the statement has the element refilled where the model stops at it.
-/
namespace Sys2Proof.Machine

/-! ## Events and the focus -/

theorem exec_streamRefill (g k : Nat) (p : Fin 4) (s : State) : exec (.streamRefill g k p) s = execStreamRefill g k p s := rfl

theorem setFocus_self (s : State) : setFocus s s.focus.1 s.focus.2 = s := by simp [setFocus]

@[simp] theorem setFocus_ports (s : State) (g : Nat) (k : Fin 16) : (setFocus s g k).ports = s.ports := by
  unfold setFocus
  split <;> rfl

/-- The slot is brought into focus and back; at the ports stands what the act leaves there. -/
theorem atSlot_ports (s : State) (g : Nat) (k : Fin 16) (f : State → State) : (atSlot s g k f).ports = (f (setFocus s g k)).ports :=
  setFocus_ports _ _ _

/-- A refill at a slot that holds a fibre. -/
theorem exec_streamRefill_bound {s : State} {g : Nat} {k : Fin 16} (p : Fin 4) (hb : (getCore s g).slots[k].bound = true) :
    exec (.streamRefill g k.val p) s = .next (atSlot s g k (refillNext p)) := by
  have hk : Fin.ofNat 16 k.val = k := Fin.ofNat_val_eq_self _
  rw [exec_streamRefill, execStreamRefill, hk, slotBound, if_pos hb]

/-! ## Where a refill stops -/

/-- Behind a link that is not up a refill gets no bytes. -/
theorem refillSpans_of_link {s : State} {a : Nat} (n : Nat) (r : List (Nat × Nat)) (h : linkStateOf s a ≠ 2) : refillSpans s ((a, n) :: r) = none := by
  simp [refillSpans, h]

/-- An element that the position may refill, whose access resolves and whose path comes free, but which gives no bytes at its place: the
position is marked as stopped there, and nothing else has happened, not even on the path. -/
theorem refillNext_stops {s t : State} {p : Fin 4} {r : Stream} {q : Pattern} {l : List (Nat × Nat)} (hagain : rereadStreams s = s)
    (hr : s.fib.streams[p] = r) (hpat : r.pat = some q)
    (hgo : ¬ (r.armed = false ∨ r.out = true ∨ r.again = true ∨ r.index.toNat + r.buf.length ≥ q.total
      ∨ (r.buf.length + 1) * sizeBytes q.esize > 128 ∨ r.halt.any (r.index.toNat ≤ ·) = true))
    (hres : resolve r.dseg (q.off (r.index.toNat + r.buf.length)) (sizeBytes q.esize) (sizeBytes q.esize) rightRd accLoad s = .ok (l, t))
    (hclear : spansClear t l = true) (hnone : refillSpans (spansPath t l) l = none) :
    refillNext p s =
      { s with fib := { s.fib with streams := s.fib.streams.set p { r with halt := some (r.index.toNat + r.buf.length) } } } := by
  unfold refillNext
  simp only [hagain, hr, hpat, if_neg hgo, hres, hclear, hnone, Bool.not_true, Bool.false_eq_true, if_false]

end Sys2Proof.Machine

namespace Sys2Proof.Safety
open Sys2Proof.Machine

/-! ## A link that goes down ahead of the refill -/

/-- The first location of CXL memory (R230). -/
def cxlLoc : Nat := 0x400000000000

/-- One element of 8 bytes, at offset 0. -/
def oneWord : Pattern := { esize := 6, c0 := 1, c1 := 1, c2 := 1, s0 := 0, s1 := 0, s2 := 0, base := 0 }

/-- An armed input stream over it through sg0. -/
def armedOneWord : Stream := { armed := true, pat := some oneWord }

/-- The reset state with CXL memory behind port 4, which is up, an armed input stream over its first word, and in the cluster's memory
port a store of DISABLE to CTL of port 4 (R353). -/
def severed : State :=
  { State.reset with
    fib := { bootFib bootG with
      seg := (Vector.replicate 8 ({} : Seg)).set 0 { base := w64 (Config.aperVa + cxlLoc), limit := 8, cls := 2, rights := 1 }
      streams := (Vector.replicate 4 ({} : Stream)).set 0 armedOneWord }
    links := [{ id := .port 4, state := 2, role := 3 }]
    cxl := [(4, 2 ^ 30)]
    ports := [{ core := bootG, serial := 0, loc := linkLoc (.port 4) + 0x18, bytes := [2], who := ⟨0, bootG, 0⟩ }] }

theorem severed_stream : severed.fib.streams[(0 : Fin 4)] = armedOneWord := by decide +kernel

theorem severed_rereads : rereadStreams severed = severed := by decide +kernel

theorem severed_resolves : resolve 0 (oneWord.off 0) 8 8 rightRd accLoad severed = .ok ([(cxlLoc, 8)], severed) := rfl

/-- Before its path is cleared the word counts as readable. -/
theorem severed_readable : readable severed cxlLoc 8 false = true := by decide +kernel

theorem severed_clear : spansClear severed [(cxlLoc, 8)] = true := by decide +kernel

/-- The store of DISABLE goes ahead of the refill, and takes its link down. -/
theorem severed_linkDown : linkStateOf (spansPath severed [(cxlLoc, 8)]) cxlLoc = 0 := by decide +kernel

/-- The model stops at the element: the store stays at its port. -/
theorem severed_refill_ports : (refillNext 0 severed).ports = severed.ports := by
  have hnone : refillSpans (spansPath severed [(cxlLoc, 8)]) [(cxlLoc, 8)] = none :=
    refillSpans_of_link 8 [] (by rw [severed_linkDown]; decide)
  rw [refillNext_stops severed_rereads severed_stream rfl (by decide) severed_resolves severed_clear hnone]

/-- The read that the statement has the refill make passes the store on. -/
theorem severed_readPast_ports : (readPast severed cxlLoc 8 none).ports = [] := by decide +kernel

/-- Refutes O49 at `streamRefill`, in `severed`: the statement has the element refilled with the store gone from its port, and the model
stops at the element with the store still there. -/
theorem not_coreEvents : ¬ Obligations.CoreEvents := by
  unfold Obligations.CoreEvents
  rintro ⟨-, -, -, -, hrefill, -⟩
  have hbound : (getCore severed bootG).slots[(0 : Fin 16)].bound = true := by decide +kernel
  have hfocus : setFocus severed bootG 0 = severed := setFocus_self severed
  have hclause := hrefill severed severed bootG 0 0 oneWord cxlLoc hfocus.symm hbound
  simp only [severed_stream] at hclause
  obtain ⟨-, hgo⟩ := hclause rfl severed_rereads
  obtain ⟨-, hrefilled⟩ := hgo rfl rfl rfl (by decide) (by decide) (by rintro ⟨n, hn, -⟩; cases hn)
  have hsame := (exec_streamRefill_bound 0 hbound).symm.trans (hrefilled severed_resolves severed_readable)
  have hports : severed.ports = [] := by
    have h := congrArg State.ports (Host.Outcome.next.inj hsame)
    rw [atSlot_ports, atSlot_ports, hfocus, severed_refill_ports] at h
    dsimp only at h
    exact h.trans severed_readPast_ports
  exact absurd hports (List.cons_ne_nil _ _)

end Sys2Proof.Safety
end

