-- ==== Sys2Proof/Proofs/DecodeCodes.lean ====
section
/-!
SUPPORT. What each decoder shape answers on the codes of its operands, and from it the way back from the word of a well-formed instruction
to the instruction: one lemma per word shape of the encoder.
-/
namespace Sys2Proof

/-! ## Running a decoder -/

/-- A decoder whose check holds goes on. -/
theorem guard_then {β : Type} {p : Prop} [Decidable p] {k : Unit → Option β} {r : Option β} (hp : p) (h : k () = r) :
    ((guard p : Option Unit) >>= k) = r := by
  rw [guard, if_pos hp]; exact h

/-- A decoder whose operand decodes goes on with it. -/
theorem operand_then {α β : Type} {x : Option α} {a : α} {k : α → Option β} {r : Option β} (hx : x = some a) (h : k a = r) :
    (x >>= k) = r := by
  subst hx; exact h

/-! ## Operands -/

theorem SReg.code_ne_five (r : SReg) : r.code ≠ 5 := by cases r <;> simp [SReg.code] <;> omega
theorem SrcB.code_ne_z {b : SrcB} (h : b.named = true) : b.code ≠ 4 := by
  cases b with
  | imm i => simp [SrcB.code]
  | reg r =>
    cases r with
    | z => simp [SrcB.named, SReg.named] at h
    | la k => simp [SrcB.code, SReg.code]; omega
    | s k => simp [SrcB.code, SReg.code]; omega
    | x k => simp [SrcB.code, SReg.code]; omega
theorem SReg.code_ne_z {r : SReg} (h : r.named = true) : r.code ≠ 4 := SrcB.code_ne_z (b := .reg r) h

theorem namedBOf_code {b : SrcB} (h : b.named = true) : namedBOf b.code b.bits = some b := by
  rw [namedBOf, if_neg (SrcB.code_ne_z h), srcBOf_code]

/-- A scalar register's specifier names no vector register. -/
theorem vregOf_scalar (r : SReg) : vregOf r.code = none := by
  rw [vregOf, if_neg]
  cases r <;> simp [SReg.code] <;> omega

@[simp] theorem vsrcOf_code (b : VSrc) : vsrcOf b.code b.bits = some b := by
  cases b with
  | imm i => simp [vsrcOf, VSrc.code, VSrc.bits]
  | s r => simp [vsrcOf, VSrc.code, VSrc.bits, r.code_ne_five, vregOf_scalar]
  | v k =>
    have hv : vregOf (0x20 + k.val) = some k := vregOf_code k
    have hk : 0x20 + k.val ≠ 5 := by omega
    simp [vsrcOf, VSrc.code, VSrc.bits, hv, hk]

@[simp] theorem vsrcCOf_code (c : VSrcC) : vsrcCOf c.code = some c := by
  cases c with
  | s r => simp [vsrcCOf, VSrcC.code, vregOf_scalar]
  | v k =>
    have hv : vregOf (0x20 + k.val) = some k := vregOf_code k
    simp [vsrcCOf, VSrcC.code, hv]

@[simp] theorem streamOf_code (r : StreamReg) : streamOf r.code = some r := by
  obtain ⟨isV, p⟩ := r
  revert isV p; decide

/-- The low bits of IMM under a counter operand are its offset, the next its K field, the top its segment (R109). -/
@[simp] theorem crefOf_code (m : CRef) {k : Nat} (hk : k < 2 ^ 21) : crefOf m.a.code (m.bits k) = some (m, k) := by
  obtain ⟨sg, a, off⟩ := m
  have hoff := off.isLt
  have hsg : (sg.val * 2 ^ 45 + k * 2 ^ 24 + off.toNat) / 2 ^ 45 = sg.val := by omega
  have hkf : fld (sg.val * 2 ^ 45 + k * 2 ^ 24 + off.toNat) 24 21 = k := by unfold fld; omega
  have ho : BitVec.ofNat 24 (sg.val * 2 ^ 45 + k * 2 ^ 24 + off.toNat) = off := by
    apply BitVec.eq_of_toNat_eq; rw [BitVec.toNat_ofNat]; omega
  simp only [crefOf, CRef.bits, sregOf_code, Option.map_some, hsg, hkf, ho]
  simp

@[simp] theorem cref0Of_code (m : CRef) : cref0Of m.a.code (m.bits 0) = some m := by
  rw [cref0Of, crefOf_code m (by decide)]; rfl

theorem CArg.bits_lt (i : CArg) : i.bits < 2 ^ 21 := by
  cases i with
  | reg r => simp [CArg.bits]
  | imm k => exact k.isLt
theorem CArg.code_lt (i : CArg) : i.code < 2 ^ 7 := by
  cases i with
  | reg r => exact r.code_lt
  | imm k => simp [CArg.code]
theorem CArg.fn_le (i : CArg) : i.fn ≤ 2 := by cases i <;> simp [CArg.fn]
theorem VSrc.code_lt (b : VSrc) : b.code < 2 ^ 7 := by
  cases b with
  | v k => simp [VSrc.code]; omega
  | s r => exact r.code_lt
  | imm i => simp [VSrc.code]
theorem VSrc.bits_lt (b : VSrc) : b.bits < 2 ^ 48 := by
  cases b with
  | imm i => exact i.isLt
  | v k => simp [VSrc.bits]
  | s r => simp [VSrc.bits]
theorem VSrcC.code_lt (c : VSrcC) : c.code < 2 ^ 7 := by
  cases c with
  | v k => simp [VSrcC.code]; omega
  | s r => exact r.code_lt
theorem StreamReg.code_lt (r : StreamReg) : r.code < 2 ^ 7 := by unfold StreamReg.code; split <;> omega
theorem Scope.code_le (sc : Scope) : sc.code ≤ 5 := by cases sc <;> decide
theorem LKind.code_le (k : LKind) : k.code ≤ 2 := by cases k <;> decide
theorem RM.code_lt (rm : RM) : rm.code < 4 := by cases rm <;> decide
theorem b2n_le (b : Bool) : b2n b ≤ 1 := by cases b <;> decide
theorem ordCode_lt (o : Option Scope) : ordCode o < 2 ^ 4 := by rcases o with _ | (_ | _ | _ | _ | _) <;> decide
theorem Csr.code_lt (c : Csr) : c.code < 2 ^ 48 := by cases c <;> simp [Csr.code] <;> omega

/-! ## Shapes -/

@[simp] theorem decDab_codes (mk : SReg → SReg → SrcB → Instr) (d a : SReg) (b : SrcB) :
    decDab mk ⟨0, d.code, a.code, b.code, 0, 0, b.bits⟩ = some (mk d a b) := by simp [decDab]

@[simp] theorem decDa_codes (mk : SReg → SReg → Instr) (d a : SReg) : decDa mk ⟨0, d.code, a.code, 0, 0, 0, 0⟩ = some (mk d a) := by
  simp [decDa]

@[simp] theorem decDabc_codes (mk : SReg → SReg → SrcB → SReg → Instr) (d a c : SReg) (b : SrcB) :
    decDabc mk ⟨0, d.code, a.code, b.code, c.code, 0, b.bits⟩ = some (mk d a b c) := by simp [decDabc]

theorem decCtr_codes (mk : Bool → Scope → CRef → CArg → Instr) (fn d : Nat) (o : Bool) (sc : Scope) (m : CRef) (i : CArg) :
    decCtr mk fn ⟨fn + i.fn, d, m.a.code, i.code, 0, 2 * sc.code + b2n o, m.bits i.bits⟩ = some (mk o sc m i) := by
  have hsc : (2 * sc.code + b2n o) / 2 = sc.code := by have := b2n_le o; omega
  have ho : (2 * sc.code + b2n o) % 2 = b2n o := by have := b2n_le o; omega
  have hm := crefOf_code m i.bits_lt
  cases i with
  | reg r => cases o <;> simp_all [decCtr, CArg.fn, CArg.code, CArg.bits, b2n]
  | imm k => cases o <;> simp_all [decCtr, CArg.fn, CArg.code, CArg.bits, b2n]

theorem decVdab_codes (mk : LKind → Bool → RM → Fin 16 → Fin 16 → VSrc → Instr) {k : LKind} {sat : Bool} {rm : RM} (d a : Fin 16) (b : VSrc)
    (hk : kindOk k sat rm = true) :
    decVdab mk ⟨k.code + 4 * b2n sat, vcode d.val, vcode a.val, b.code, 0, rm.code, b.bits⟩ = some (mk k sat rm d a b) := by
  cases k <;> cases sat <;> simp_all [decVdab, b2n, LKind.code, kindOf]

@[simp] theorem decVk_codes (mk : LKind → Fin 16 → Fin 16 → VSrc → Instr) (k : LKind) (d a : Fin 16) (b : VSrc) :
    decVk mk ⟨k.code, vcode d.val, vcode a.val, b.code, 0, 0, b.bits⟩ = some (mk k d a b) := by simp [decVk]

@[simp] theorem decVb_codes (fn : Nat) (mk : Fin 16 → Fin 16 → VSrc → Instr) (d a : Fin 16) (b : VSrc) :
    decVb fn mk ⟨fn, vcode d.val, vcode a.val, b.code, 0, 0, b.bits⟩ = some (mk d a b) := by simp [decVb]

theorem decVu_codes (mk : Bool → Bool → Fin 16 → Fin 16 → Instr) {int sat : Bool} (d a : Fin 16) (h : (int || !sat) = true) :
    decVu mk ⟨b2n int + 4 * b2n sat, vcode d.val, vcode a.val, 0, 0, 0, 0⟩ = some (mk int sat d a) := by
  cases int <;> cases sat <;> simp_all [decVu, b2n]

@[simp] theorem decVrm_codes (mk : RM → Fin 16 → Fin 16 → Instr) (rm : RM) (d a : Fin 16) :
    decVrm mk ⟨0, vcode d.val, vcode a.val, 0, 0, rm.code, 0⟩ = some (mk rm d a) := by simp [decVrm]

@[simp] theorem decEng_codes (mk : Scope → SReg → CRef → Fin 16 → Instr) (fn : Nat) (sc : Scope) (d : SReg) (m : CRef) (v : Fin 16) :
    decEng mk ⟨fn, d.code, m.a.code, vcode v.val, 0, 2 * sc.code, m.bits 0⟩ = some (mk sc d m v) := by
  simp [decEng]

end Sys2Proof
end

