-- ==== Sys2Proof/Proofs/RoundTrip.lean ====
section
/-!
SUPPORT. O1: the decoder gives back every well-formed instruction from its word. One lemma per word shape, then a line per instruction.
-/
namespace Sys2Proof

section
variable {i : Instr} {op fn : Nat}

theorem roundTrip_wordA {d a b c mod imm : Nat} (he : encodeNat i = some (wordA op fn d a b c mod imm)) (ho : majorA op = true)
    (h1 : fn < 2 ^ 8) (h2 : d < 2 ^ 7) (h3 : a < 2 ^ 7) (h4 : b < 2 ^ 7) (h5 : c < 2 ^ 7) (h6 : mod < 2 ^ 4) (h7 : imm < 2 ^ 48)
    (hd : decA op ⟨fn, d, a, b, c, mod, imm⟩ = some i) : (encode i).bind decode = some i := by
  rw [bind_decode he, decode_wordA ho h1 h2 h3 h4 h5 h6 h7, hd]

theorem roundTrip_wDab {d a : SReg} {b : SrcB} (he : encodeNat i = some (wDab op fn d a b)) (ho : majorA op = true) (h1 : fn < 2 ^ 8)
    (hd : decA op ⟨fn, d.code, a.code, b.code, 0, 0, b.bits⟩ = some i) : (encode i).bind decode = some i :=
  roundTrip_wordA he ho h1 d.code_lt a.code_lt b.code_lt (by decide) (by decide) b.bits_lt hd

theorem roundTrip_wDa {d a : SReg} (he : encodeNat i = some (wDa op fn d a)) (ho : majorA op = true) (h1 : fn < 2 ^ 8)
    (hd : decA op ⟨fn, d.code, a.code, 0, 0, 0, 0⟩ = some i) : (encode i).bind decode = some i :=
  roundTrip_wordA he ho h1 d.code_lt a.code_lt (by decide) (by decide) (by decide) (by decide) hd

theorem roundTrip_wVb {mod : Nat} {d a : Fin 16} {b : VSrc} (he : encodeNat i = some (wVb op fn mod d.val a.val b)) (ho : majorA op = true)
    (h1 : fn < 2 ^ 8) (h6 : mod < 2 ^ 4) (hd : decA op ⟨fn, vcode d.val, vcode a.val, b.code, 0, mod, b.bits⟩ = some i) :
    (encode i).bind decode = some i :=
  roundTrip_wordA he ho h1 (vcode_lt d.isLt) (vcode_lt a.isLt) b.code_lt (by decide) h6 b.bits_lt hd

theorem roundTrip_wVa {mod : Nat} {d a : Fin 16} (he : encodeNat i = some (wVa op fn mod d.val a.val)) (ho : majorA op = true)
    (h1 : fn < 2 ^ 8) (h6 : mod < 2 ^ 4) (hd : decA op ⟨fn, vcode d.val, vcode a.val, 0, 0, mod, 0⟩ = some i) :
    (encode i).bind decode = some i :=
  roundTrip_wordA he ho h1 (vcode_lt d.isLt) (vcode_lt a.isLt) (by decide) (by decide) h6 (by decide) hd

theorem roundTrip_wCtr {d : Nat} {o : Bool} {sc : Scope} {m : CRef} {k : CArg} (he : encodeNat i = some (wCtr op fn d o sc m k))
    (ho : majorA op = true) (h1 : fn < 2) (h2 : d < 2 ^ 7)
    (hd : decA op ⟨fn + k.fn, d, m.a.code, k.code, 0, 2 * sc.code + b2n o, m.bits k.bits⟩ = some i) : (encode i).bind decode = some i := by
  have h1' : fn + k.fn < 2 ^ 8 := by have := k.fn_le; omega
  have h6 : 2 * sc.code + b2n o < 2 ^ 4 := by have := sc.code_le; have := b2n_le o; omega
  exact roundTrip_wordA he ho h1' h2 m.a.code_lt k.code_lt (by decide) h6 (m.bits_lt k.bits_lt) hd

theorem roundTrip_wEng {sc : Scope} {d : SReg} {m : CRef} {v : Fin 16} (he : encodeNat i = some (wEng op fn sc d m v.val)) (ho : majorA op = true)
    (h1 : fn < 2 ^ 8) (hd : decA op ⟨fn, d.code, m.a.code, vcode v.val, 0, 2 * sc.code, m.bits 0⟩ = some i) :
    (encode i).bind decode = some i := by
  have h6 : 2 * sc.code < 2 ^ 4 := by have := sc.code_le; omega
  exact roundTrip_wordA he ho h1 d.code_lt m.a.code_lt (vcode_lt v.isLt) (by decide) h6 (m.bits_lt (by decide)) hd

theorem roundTrip_wordJ {d a b cc ti tl : Nat} (he : encodeNat i = some (wordJ op d a b cc ti tl)) (ho : 0x22 ≤ op ∧ op ≤ 0x27)
    (h2 : d < 2 ^ 7) (h3 : a < 2 ^ 7) (h4 : b < 2 ^ 7) (h5 : cc < 2 ^ 4) (h6 : ti < 2 ^ 3) (h7 : tl < 2 ^ 32)
    (hd : decJ op ⟨0, d, a, b, 0, cc, 0, ti, tl⟩ = some i) : (encode i).bind decode = some i := by
  rw [bind_decode he, decode_wordJ ho h2 h3 h4 h5 h6 h7, hd]

theorem roundTrip_wordM {d sz c ord : Nat} {m : MemRef} (he : encodeNat i = some (wordM op d m sz c ord)) (ho : 0x30 ≤ op ∧ op ≤ 0x38)
    (h2 : d < 2 ^ 7) (h4 : sz < 2 ^ 4) (h5 : c < 2 ^ 7) (h6 : ord < 2 ^ 4)
    (hd : decM op ⟨0, d, m.a.code, m.sg.val, sz, c, ord, m.off.toNat⟩ = some i) : (encode i).bind decode = some i := by
  rw [bind_decode he, decode_wordM ho h2 h4 h5 h6, hd]

theorem roundTrip_wordT {td ta tb ac s imm : Nat} (he : encodeNat i = some (wordT op fn td ta tb ac s imm)) (ho : 0x80 ≤ op ∧ op ≤ 0x8B)
    (h1 : fn < 2 ^ 8) (h2 : td < 2 ^ 5) (h3 : ta < 2 ^ 5) (h4 : tb < 2 ^ 5) (h5 : ac < 2 ^ 3) (h6 : s < 2 ^ 7) (h7 : imm < 2 ^ 48)
    (hd : decT op ⟨fn, td, ta, tb, ac, s, 0, imm⟩ = some i) : (encode i).bind decode = some i := by
  rw [bind_decode he, decode_wordT ho h1 h2 h3 h4 h5 h6 h7, hd]

end

/-! ## Fields that hold more than one operand -/

theorem orderField_scope (sc : Scope) (o : Bool) : (2 * sc.code + b2n o) / 2 = sc.code := by have := b2n_le o; omega
theorem b2n_odd (o : Bool) : decide (b2n o % 2 = 1) = o := by cases o <;> rfl
theorem orderField_lt (sc : Scope) (o : Bool) : 2 * sc.code + b2n o < 2 ^ 4 := by have := sc.code_le; have := b2n_le o; omega
theorem Cond.code_lt (c : Cond) : c.code < 6 := by cases c <;> decide
theorem VCond.code_lt (c : VCond) : c.code < 7 := by cases c <;> decide
theorem RedOp.code_lt (op : RedOp) : op.code < 8 := by cases op <;> decide
theorem AtomOp.code_lt (op : AtomOp) : op.code < 7 := by cases op <;> decide
theorem EFmt.code_lt (f : EFmt) : f.code < 4 := by cases f <;> decide
theorem CvtKind.code_lt (k : CvtKind) : k.code < 5 := by cases k <;> decide
theorem PackKind.code_lt (k : PackKind) : k.code < 6 := by cases k <;> decide
theorem PosKind.code_lt (k : PosKind) : k.code < 8 := by cases k <;> decide

theorem roundTrip_li (d : SReg) (imm : Word) : (encode (.li d imm)).bind decode = some (.li d imm) := by
  have hd := d.code_lt
  have himm := imm.isLt
  rw [bind_decode rfl, decode, BitVec.toNat_ofNat, Nat.mod_eq_of_lt (by omega)]
  have hop : fld (0x20 * 2 ^ 88 + d.code * 2 ^ 73 + imm.toNat) 88 8 = 0x20 := by unfold fld; omega
  have hfn : fld (0x20 * 2 ^ 88 + d.code * 2 ^ 73 + imm.toNat) 80 8 = 0 := by unfold fld; omega
  have hz : fld (0x20 * 2 ^ 88 + d.code * 2 ^ 73 + imm.toNat) 64 9 = 0 := by unfold fld; omega
  have hreg : fld (0x20 * 2 ^ 88 + d.code * 2 ^ 73 + imm.toNat) 73 7 = d.code := by unfold fld; omega
  have hval : fld (0x20 * 2 ^ 88 + d.code * 2 ^ 73 + imm.toNat) 0 64 = imm.toNat := by unfold fld; omega
  simp only [decodeNat, hop, if_true, hfn, hz, hreg, hval, sregOf_code, BitVec.ofNat_toNat, BitVec.setWidth_eq]
  rfl

/-- What `mmn` asks of TB and TD (R194). -/
theorem mmn_field_ok {fa fb : EFmt} {sp : Bool} {n : Fin 8} {a b m : Fin 32} (hwf : wfInstr (.mmn fa fb sp n a b m) = true) :
    if sp = true then b.val ≠ 31 else m.val = 0 := by
  cases sp with
  | false =>
    have hm : m = 0 := by simpa [wfInstr] using hwf
    simp [hm]
  | true =>
    have hb : b ≠ 31 := by simpa [wfInstr] using hwf
    have hv : b.val ≠ 31 := fun h => hb (Fin.ext h)
    simp [hv]

/-- IMM of `qcvt` (R199). -/
def qcvtImm (l : Fin 8) (p : BitVec 7) (s : BitVec 6) (sb : Fin 16) : Nat := s.toNat + p.toNat * 2 ^ 8 + l.val * 2 ^ 16 + sb.val * 2 ^ 20

/-- Its fields, with those between them zero. -/
theorem qcvtImm_fields (l : Fin 8) (p : BitVec 7) (s : BitVec 6) (sb : Fin 16) :
    let imm := qcvtImm l p s sb
    imm < 2 ^ 24 ∧ fld imm 0 6 = s.toNat ∧ fld imm 8 7 = p.toNat ∧ fld imm 16 3 = l.val ∧ fld imm 20 4 = sb.val
      ∧ fld imm 6 2 = 0 ∧ fld imm 15 1 = 0 ∧ fld imm 19 1 = 0 := by
  have hp := p.isLt
  have hs := s.isLt
  simp only [qcvtImm, fld]
  omega

theorem roundTrip_qcvt {h : Bool} {f : EFmt} {d a b : Fin 32} {l : Fin 8} {p : BitVec 7} {s : BitVec 6} {sb : Fin 16}
    (hwf : wfInstr (.qcvt h f d a b l p s sb) = true) :
    (encode (.qcvt h f d a b l p s sb)).bind decode = some (.qcvt h f d a b l p s sb) := by
  obtain ⟨hlt, hsrc, hpos, hline, hsb, hz1, hz2, hz3⟩ := qcvtImm_fields l p s sb
  have hh : decide ((b2n h + 2 * f.code) % 2 = 1) = h := by cases h <;> simp [b2n]
  have hf : (b2n h + 2 * f.code) / 2 = f.code := by have := b2n_le h; omega
  have hfn : b2n h + 2 * f.code < 8 := by have := f.code_lt; have := b2n_le h; omega
  have hblock : fld (qcvtImm l p s sb) 0 6 % blockLen (decide ((b2n h + 2 * f.code) % 2 = 1)) = 0
      ∧ fld (qcvtImm l p s sb) 0 6 + blockLen (decide ((b2n h + 2 * f.code) % 2 = 1)) ≤ 64
      ∧ fld (qcvtImm l p s sb) 8 7 % blockLen (decide ((b2n h + 2 * f.code) % 2 = 1)) = 0 := by
    rw [hh, hsrc, hpos]
    simpa [wfInstr, and_assoc] using hwf
  refine roundTrip_wordT (imm := qcvtImm l p s sb) rfl (by decide) (by omega) d.isLt a.isLt b.isLt (by decide) (by decide) (by omega)
    (guard_then rfl (guard_then ⟨hfn, rfl, rfl, hlt, hz1, hz2, hz3⟩ (guard_then hblock ?_)))
  simp only [hh, hf, hsrc, hpos, hline, hsb]
  simp

/-- Settles O1, by the constructors of `Instr`: each instruction's word has the shape of one of the lemmas above, and the arm of the decoder
under its opcode answers the operands whose codes stand in the fields. -/
theorem decodeOfEncode : Obligations.DecodeOfEncode := by
  unfold Obligations.DecodeOfEncode
  intro i hwf hev
  cases i with
  | add d a b | sub d a b | mul d a b | mulh d a b | mulhn d a b | div d a b | divn d a b | rem d a b | remn d a b | and d a b | or d a b
  | xor d a b | andn d a b | shl d a b | shr d a b | sar d a b | rol d a b | min d a b | max d a b | minn d a b | maxn d a b | bext d a b
  | bextS d a b | sext d a b | pput d a b | take d a b | gtileO d a b | gtileA d a b | gtileB d a b | fret d a b | rngx d a b =>
    exact roundTrip_wDab rfl rfl (by decide) (decDab_codes _ d a b)
  | clz d a | ctz d a | popc d a | mov d a | reap d a | pget d a | pgetW d a =>
    exact roundTrip_wDa rfl rfl (by decide) (decDa_codes _ d a)
  | bins d a b c | sel d a b c =>
    exact roundTrip_wordA rfl rfl (by decide) d.code_lt a.code_lt b.code_lt c.code_lt (by decide) b.bits_lt (decDabc_codes _ d a c b)
  | cset cc d a b =>
    exact roundTrip_wordA rfl rfl (by decide) d.code_lt a.code_lt b.code_lt (by decide) (by have := cc.code_lt; omega) b.bits_lt
      (guard_then (by simp) (by simp))
  | lea k d a b c =>
    exact roundTrip_wordA rfl rfl (by decide) d.code_lt a.code_lt b.code_lt c.code_lt (by omega) b.bits_lt (guard_then (by simp) (by simp))
  | li d imm => exact roundTrip_li d imm
  | csk cc n a b =>
    have hcc : (4 * cc.code + n.val + 1) / 4 = cc.code := by omega
    have hn : (4 * cc.code + n.val + 1) % 4 - 1 = n.val := by omega
    exact roundTrip_wordA rfl rfl (by have := cc.code_lt; omega) (by decide) a.code_lt b.code_lt (by decide) (by decide) b.bits_lt
      (guard_then (by dsimp only; omega) (by simp [hcc, hn]))
  | b ti tl => exact roundTrip_wordJ rfl (by decide) (by decide) (by decide) (by decide) (by decide) (by omega) tl.isLt (by simp [decJ])
  | bcc cc a b ti tl =>
    exact roundTrip_wordJ rfl (by decide) (by decide) a.code_lt b.code_lt (by have := cc.code_lt; omega) (by omega) tl.isLt (by simp [decJ])
  | call d ti tl =>
    exact roundTrip_wordJ rfl (by decide) d.code_lt (by decide) (by decide) (by decide) (by omega) tl.isLt (by simp [decJ])
  | ret a =>
    exact roundTrip_wordJ rfl (by decide) (by decide) a.code_lt (by decide) (by decide) (by decide) (by decide) (by simp [decJ, namedOf_code hwf])
  | jr d a =>
    exact roundTrip_wordJ rfl (by decide) d.code_lt a.code_lt (by decide) (by decide) (by decide) (by decide) (by simp [decJ, namedOf_code hwf])
  | loop d a ti tl =>
    exact roundTrip_wordJ rfl (by decide) d.code_lt a.code_lt (by decide) (by decide) (by omega) tl.isLt (by simp [decJ])
  | nop | yield | halt | tret | khint | tlbinvAll =>
    exact roundTrip_wordA rfl rfl (by decide) (by decide) (by decide) (by decide) (by decide) (by decide) (by decide) rfl
  | csrr d c =>
    exact roundTrip_wordA rfl rfl (by decide) d.code_lt (by decide) (by decide) (by decide) (by decide) c.code_lt (guard_then (by simp) (by simp))
  | csrw c a =>
    exact roundTrip_wordA rfl rfl (by decide) (by decide) a.code_lt (by decide) (by decide) (by decide) c.code_lt (guard_then (by simp) (by simp))
  | csrx d a c =>
    exact roundTrip_wordA rfl rfl (by decide) d.code_lt a.code_lt (by decide) (by decide) (by decide) c.code_lt (guard_then (by simp) (by simp))
  | trap n | sysc n =>
    have hn : n.toNat < 65536 := n.isLt
    exact roundTrip_wordA rfl rfl (by decide) (by decide) (by decide) (by decide) (by decide) (by decide) (by omega)
      (guard_then (by simp [hn]) (by simp))
  | eret a | hfree a =>
    exact roundTrip_wordA rfl rfl (by decide) (by decide) a.code_lt (by decide) (by decide) (by decide) (by decide)
      (guard_then (by simp) (by simp [namedOf_code hwf]))
  | ld sz o d m =>
    exact roundTrip_wordM rfl (by decide) d.code_lt (by omega) (by decide) (ordCode_lt o) (by simp [decM, mrefOf])
  | st sz m c =>
    have hsz : 2 * sz.val < 8 := by omega
    exact roundTrip_wordM rfl (by decide) (by decide) (by omega) c.code_lt (by decide) (by simp [decM, mrefOf, hsz])
  | ldv full o d m =>
    exact roundTrip_wordM rfl (by decide) (vcode_lt d.isLt) (by have := b2n_le full; omega) (by decide) (ordCode_lt o)
      (by cases full <;> simp [decM, mrefOf, b2n])
  | stv full m c =>
    exact roundTrip_wordM rfl (by decide) (by decide) (by have := b2n_le full; omega) (vcode_lt c.isLt) (by decide)
      (by cases full <;> simp [decM, mrefOf, b2n])
  | ldvb sz o d m =>
    have hsz : 2 * sz.val + 2 = 2 ∨ 2 * sz.val + 2 = 4 ∨ 2 * sz.val + 2 = 6 := by omega
    exact roundTrip_wordM rfl (by decide) (vcode_lt d.isLt) (by omega) (by decide) (ordCode_lt o)
      (guard_then rfl (guard_then ⟨rfl, hsz⟩ (by simp [mrefOf])))
  | sarm out d m g =>
    have hout : decide ((8 * b2n out + g.val) / 8 = 1) = out := by cases out <;> simp [b2n]; omega
    have hg : (8 * b2n out + g.val) % 8 = g.val := by omega
    exact roundTrip_wordM rfl (by decide) d.code_lt (by have := b2n_le out; omega) (by decide) (by decide) (by simp [decM, mrefOf, hout, hg])
  | sdis d c =>
    exact roundTrip_wordM rfl (by decide) d.code_lt (by decide) c.code_lt (by decide)
      (guard_then rfl (guard_then ⟨rfl, rfl, rfl, rfl, rfl⟩ (by simp)))
  | sseg keep t m c =>
    exact roundTrip_wordM rfl (by decide) (by decide) (by omega) c.code_lt keep.isLt (by simp [decM, mrefOf])
  | segq sz d m => exact roundTrip_wordM rfl (by decide) d.code_lt (by omega) (by decide) (by decide) (by simp [decM, mrefOf])
  | cadd r sc m k =>
    have hfn : (0 + k.fn) % 2 = 0 := by cases k <;> simp [CArg.fn]
    exact roundTrip_wCtr rfl rfl (by decide) (by decide) ((if_pos hfn).trans (guard_then rfl (decCtr_codes _ 0 4 r sc m k)))
  | caddF r sc d m k =>
    have hfn : ¬ (1 + k.fn) % 2 = 0 := by cases k <;> simp [CArg.fn]
    exact roundTrip_wCtr rfl rfl (by decide) d.code_lt ((if_neg hfn).trans (operand_then (sregOf_code d) (decCtr_codes _ 1 d.code r sc m k)))
  | cwait r sc d m k | cpoll r sc d m k =>
    exact roundTrip_wCtr rfl rfl (by decide) d.code_lt (operand_then (sregOf_code d) (decCtr_codes _ 0 d.code r sc m k))
  | cread r sc d m =>
    exact roundTrip_wordA rfl rfl (by decide) d.code_lt m.a.code_lt (by decide) (by decide) (orderField_lt sc r) (m.bits_lt (by decide))
      (guard_then (by simp) (by simp [orderField_scope, b2n_odd]))
  | cstrag d m | cstragT d m =>
    exact roundTrip_wordA rfl rfl (by decide) d.code_lt m.a.code_lt (by decide) (by decide) (by decide) (m.bits_lt (by decide))
      (guard_then (by simp) (by simp))
  | pub sc | acq sc =>
    exact roundTrip_wordA rfl rfl (by decide) (by decide) (by decide) (by decide) (by decide) (by have := sc.code_le; omega) (by decide)
      (guard_then (by simp) (by simp))
  | drain md d =>
    exact roundTrip_wordA rfl rfl (by decide) d.code_lt (by decide) (by decide) (by decide) (by have := b2n_le md; omega) (by decide)
      (guard_then (by cases md <;> simp [b2n]) (by cases md <;> simp [b2n]))
  | spawn d a b => exact roundTrip_wDab rfl rfl (by decide) ((if_neg (SReg.code_ne_z hwf)).trans (decDab_codes _ d a b))
  | kwaitp d b | fpush d b | fpushSpec d b | gtileMask d b | gtileG d b =>
    exact roundTrip_wordA rfl rfl (by decide) d.code_lt (by decide) b.code_lt (by decide) (by decide) b.bits_lt (guard_then (by simp) (by simp))
  | khintMv d | lvtake d | equery d =>
    exact roundTrip_wordA rfl rfl (by decide) d.code_lt (by decide) (by decide) (by decide) (by decide) (by decide) (guard_then (by simp)
      (by simp))
  | qpost sys d a v =>
    exact roundTrip_wordA rfl rfl (by decide) d.code_lt a.code_lt (vcode_lt (by omega)) (by decide) (by have := b2n_le sys; omega) (by decide)
      (guard_then (by cases sys <;> simp [b2n]) (by cases sys <;> simp [b2n]))
  | lvpost d a => exact roundTrip_wDa rfl rfl (by decide) ((if_neg (SReg.code_ne_z hwf)).trans (decDa_codes _ d a))
  | vadd k s rm d a b | vsub k s rm d a b | vmul k s rm d a b =>
    have hfn : k.code + 4 * b2n s < 2 ^ 8 := by have := k.code_le; have := b2n_le s; omega
    exact roundTrip_wVb rfl rfl hfn (by have := rm.code_lt; omega) (decVdab_codes _ d a b hwf)
  | vfma k rm d a b c =>
    exact roundTrip_wordA rfl rfl (by have := k.code_le; omega) (vcode_lt d.isLt) (vcode_lt a.isLt) b.code_lt c.code_lt
      (by have := rm.code_lt; omega) b.bits_lt (operand_then (kindOf_code k) (operand_then (rmOf_code rm) (guard_then hwf (by simp))))
  | vmax k d a b | vmin k d a b => exact roundTrip_wVb rfl rfl (by have := k.code_le; omega) (by decide) (decVk_codes _ k d a b)
  | vabs int sat d a | vneg int sat d a =>
    have hfn : b2n int + 4 * b2n sat < 2 ^ 8 := by have := b2n_le int; have := b2n_le sat; omega
    exact roundTrip_wVa rfl rfl hfn (by decide) (decVu_codes _ d a hwf)
  | vrcp rm d a | vrsq rm d a | vexp2 rm d a | vlog2 rm d a =>
    exact roundTrip_wVa rfl rfl (by decide) (by have := rm.code_lt; omega) (decVrm_codes _ rm d a)
  | vcmp k cc d a b =>
    exact roundTrip_wordA rfl rfl (by have := k.code_le; omega) d.code_lt (vcode_lt a.isLt) b.code_lt (by decide)
      (by have := cc.code_lt; omega) b.bits_lt (operand_then (kindOf_code k) (operand_then (vcondOf_code cc) (guard_then ⟨rfl, hwf⟩ (by simp))))
  | vsel d a b c =>
    exact roundTrip_wordA rfl rfl (by decide) (vcode_lt d.isLt) (vcode_lt a.isLt) b.code_lt c.code_lt (by decide) b.bits_lt
      (guard_then (by simp) (by simp))
  | vand d a b | vor d a b | vxor d a b | vshl d a b | vshr d a b | vshrS d a b =>
    exact roundTrip_wVb rfl rfl (by decide) (by decide) (decVb_codes _ _ d a b)
  | vcvt k rm d a =>
    exact roundTrip_wVa rfl rfl (by have := k.code_lt; omega) (by have := rm.code_lt; omega) (guard_then (by simp) (by simp))
  | vbcast d b =>
    exact roundTrip_wordA rfl rfl (by decide) (vcode_lt d.isLt) (by decide) b.code_lt (by decide) (by decide) b.bits_lt
      (guard_then (by simp) (by simp))
  | vbcastL k d a =>
    have hfn : ¬ 0x10 + k.val = 0 := by omega
    have hk : (0x10 + k.val) / 16 = 1 := by omega
    have hl : k.val % 16 = k.val := Nat.mod_eq_of_lt k.isLt
    exact roundTrip_wVa rfl rfl (by omega) (by decide) ((if_neg hfn).trans (guard_then (by simp [hk]) (by simp [hl])))
  | vperm d a b =>
    exact roundTrip_wordA rfl rfl (by decide) (vcode_lt d.isLt) (vcode_lt a.isLt) (vcode_lt b.isLt) (by decide) (by decide) (by decide)
      (guard_then (by simp) (by simp))
  | vperm2 d a b c =>
    exact roundTrip_wordA rfl rfl (by decide) (vcode_lt d.isLt) (vcode_lt a.isLt) (vcode_lt b.isLt) (vcode_lt c.isLt) (by decide) (by decide)
      (guard_then (by simp) (by simp))
  | vred op rm d a =>
    exact roundTrip_wordA rfl rfl (by have := op.code_lt; omega) d.code_lt (vcode_lt a.isLt) (by decide) (by decide)
      (by have := rm.code_lt; omega) (by decide)
      (operand_then (redOf_code op) (operand_then (rmOf_code rm) (guard_then ⟨rfl, rfl, rfl, hwf⟩ (by simp))))
  | vdot rm d a b =>
    exact roundTrip_wordA rfl rfl (by decide) d.code_lt (vcode_lt a.isLt) b.code_lt (by decide) (by have := rm.code_lt; omega) b.bits_lt
      (guard_then (by simp) (by simp))
  | vins k d b =>
    exact roundTrip_wordA rfl rfl (by omega) (vcode_lt (by omega)) (by decide) b.code_lt (by decide) (by decide) b.bits_lt
      (guard_then (by simp) (by simp))
  | vext sx k d a =>
    have hsx : decide ((k.val + 16 * b2n sx) / 16 = 1) = sx := by cases sx <;> simp [b2n]; omega
    have hk : (k.val + 16 * b2n sx) % 16 = k.val := by omega
    have hlt : k.val + 16 * b2n sx < 32 := by have := b2n_le sx; omega
    exact roundTrip_wordA rfl rfl (by omega) d.code_lt (vcode_lt a.isLt) (by decide) (by decide) (by decide) (by decide)
      (guard_then (by simp [hlt]) (by simp [hsx, hk]))
  | vgath sc d m b =>
    exact roundTrip_wordA rfl rfl (by omega) (vcode_lt (by omega)) m.a.code_lt (vcode_lt b.isLt) (by decide) (by decide) (m.bits_lt (by decide))
      (guard_then (by simp) (by simp))
  | vscat sc m b c =>
    exact roundTrip_wordA rfl rfl (by omega) (by decide) m.a.code_lt (vcode_lt b.isLt) (vcode_lt c.isLt) (by decide) (m.bits_lt (by decide))
      (guard_then (by simp) (by simp))
  | vratom op sc d m b c =>
    have hop : (4 * op.code + sc.val) / 4 = op.code := by omega
    have hsc : (4 * op.code + sc.val) % 4 = sc.val := by omega
    have hlt : 4 * op.code + sc.val < 32 := by have := op.code_lt; omega
    cases d with
    | none =>
      exact roundTrip_wordA rfl rfl (by omega) (by decide) m.a.code_lt (vcode_lt b.isLt) c.code_lt (by decide) (m.bits_lt (by decide))
        (guard_then (by simp [hlt, hsc]) (by simp [hop, hsc]))
    | some k =>
      have hk : ¬ vcode k.val = 4 := by unfold vcode; omega
      exact roundTrip_wordA rfl rfl (by omega) (vcode_lt (by omega)) m.a.code_lt (vcode_lt b.isLt) c.code_lt (by decide) (m.bits_lt (by decide))
        (guard_then (by simp [hlt, hsc]) (by simp [hop, hsc, hk]))
  | vscan op rm d a =>
    have hop : redOk op rm = true ∧ (op = .fadd ∨ op = .fmax ∨ op = .iadd ∨ op = .imax) := by
      cases op <;> simp_all [wfInstr]
    exact roundTrip_wVa rfl rfl (by have := op.code_lt; omega) (by have := rm.code_lt; omega)
      (operand_then (redOf_code op) (operand_then (rmOf_code rm) (guard_then ⟨rfl, rfl, rfl, hop⟩ (by simp))))
  | vmov d a => exact roundTrip_wVa rfl rfl (by decide) (by decide) (guard_then (by simp) (by simp))
  | vpack k d a b =>
    have hb : (if k = .bf ∨ k = .h then vcode b.val else 0) < 2 ^ 7 := by
      split
      · exact vcode_lt b.isLt
      · decide
    refine roundTrip_wordA rfl rfl (by have := k.code_lt; omega) (vcode_lt d.isLt) (vcode_lt a.isLt) hb (by decide) (by decide) (by decide)
      (operand_then (packOf_code k) (guard_then (by simp) ?_))
    by_cases hk : k = .bf ∨ k = .h
    · simp [hk]
    · have hz : b = 0 := by cases k <;> simp_all [wfInstr]
      simp [hk, hz]
  | tset d sh =>
    have hsh : sh.toNat < 2 ^ 15 := sh.isLt
    exact roundTrip_wordT rfl (by decide) (by decide) d.isLt (by decide) (by decide) (by decide) (by decide) (by omega)
      (guard_then rfl (guard_then ⟨rfl, rfl, rfl⟩ ((if_pos rfl).trans (guard_then ⟨rfl, hsh⟩ (by simp)))))
  | tsetReg d s =>
    exact roundTrip_wordT rfl (by decide) (by decide) d.isLt (by decide) (by decide) (by decide) s.code_lt (by decide)
      (by simp [decT, namedOf_code hwf])
  | tld d m p =>
    exact roundTrip_wordT rfl (by decide) (by decide) d.isLt (by decide) (by decide) (by decide) m.a.code_lt (m.bits_lt p.isLt)
      (by simp [decT, crefOf_code m p.isLt])
  | tst m p a =>
    exact roundTrip_wordT rfl (by decide) (by decide) (by decide) a.isLt (by decide) (by decide) m.a.code_lt (m.bits_lt p.isLt)
      (by simp [decT, crefOf_code m p.isLt])
  | tz d => exact roundTrip_wordT rfl (by decide) (by decide) d.isLt (by decide) (by decide) (by decide) (by decide) (by decide) (by simp [decT])
  | mmn fa fb sp n a b m =>
    have hlt : fa.code + 8 * fb.code + 64 * b2n sp < 128 := by have := fa.code_lt; have := fb.code_lt; have := b2n_le sp; omega
    have hfa : (fa.code + 8 * fb.code + 64 * b2n sp) % 8 = fa.code := by have := fa.code_lt; omega
    have hfb : (fa.code + 8 * fb.code + 64 * b2n sp) / 8 % 8 = fb.code := by have := fa.code_lt; have := fb.code_lt; omega
    have hsp : decide ((fa.code + 8 * fb.code + 64 * b2n sp) / 64 % 2 = 1) = sp := by
      have := fa.code_lt; have := fb.code_lt
      cases sp <;> simp [b2n] <;> omega
    refine roundTrip_wordT rfl (by decide) (by omega) m.isLt a.isLt b.isLt n.isLt (by decide) (by decide) ?_
    have hg : if decide ((fa.code + 8 * fb.code + 64 * b2n sp) / 64 % 2 = 1) = true then b.val ≠ 31 else m.val = 0 := by
      rw [hsp]; exact mmn_field_ok hwf
    refine guard_then rfl (guard_then ⟨hlt, rfl, rfl, hg⟩ ?_)
    simp only [hfa, hfb, hsp]
    simp
  | mmw n a b =>
    exact roundTrip_wordT rfl (by decide) (by decide) (by decide) a.isLt b.isLt n.isLt (by decide) (by decide) (by simp [decT])
  | aoutI d n | aoutF d n =>
    exact roundTrip_wordT rfl (by decide) (by decide) d.isLt (by decide) (by decide) n.isLt (by decide) (by decide) (by simp [decT])
  | az n => exact roundTrip_wordT rfl (by decide) (by decide) (by decide) (by decide) (by decide) n.isLt (by decide) (by decide) (by simp [decT])
  | scacc d a b => exact roundTrip_wordT rfl (by decide) (by decide) d.isLt a.isLt b.isLt (by decide) (by decide) (by decide) (by simp [decT])
  | qcvt h f d a b l p s sb => exact roundTrip_qcvt hwf
  | tmov d a | ttr d a =>
    exact roundTrip_wordT rfl (by decide) (by decide) d.isLt a.isLt (by decide) (by decide) (by decide) (by decide) (by simp [decT])
  | tmovTv d v k =>
    exact roundTrip_wordT rfl (by decide) (by decide) d.isLt (by decide) (by decide) (by decide) (vcode_lt v.isLt) (by omega) (by simp [decT])
  | tmovVt v a k =>
    exact roundTrip_wordT rfl (by decide) (by decide) (by decide) a.isLt (by decide) (by decide) (vcode_lt v.isLt) (by omega) (by simp [decT])
  | ecopy sc d m v | ecopyMc sc d m v | ecopyDeal sc d m v | ecopyDec sc d m v | ecopyRed sc d m v | egath sc d m v | escat sc d m v
  | emigMv sc d m v | emigNvr sc d m v | emigNvw sc d m v | ecode sc d m v | epub sc d m v =>
    exact roundTrip_wEng rfl rfl (by decide) (decEng_codes _ _ sc d m v)
  | equerySt d m b =>
    exact roundTrip_wordA rfl rfl (by decide) d.code_lt m.a.code_lt b.code_lt (by decide) (by decide) (m.bits_lt (by decide))
      (guard_then (by simp) (by simp))
  | halloc k d a b =>
    obtain ⟨ha, hb⟩ : a.named = true ∧ b.named = true := by simpa [wfInstr] using hwf
    exact roundTrip_wordA rfl rfl (by omega) d.code_lt a.code_lt b.code_lt (by decide) (by decide) b.bits_lt
      (guard_then rfl (by simp [namedOf_code ha, namedBOf_code hb]))
  | hallocBufSh d a b c =>
    obtain ⟨⟨ha, hb⟩, hc⟩ : (a.named = true ∧ b.named = true) ∧ c.named = true := by simpa [wfInstr] using hwf
    exact roundTrip_wordA rfl rfl (by decide) d.code_lt a.code_lt b.code_lt c.code_lt (by decide) b.bits_lt
      (guard_then rfl (by simp [namedOf_code ha, namedBOf_code hb, namedOf_code hc]))
  | hchk d a b =>
    obtain ⟨ha, hb⟩ : a.named = true ∧ b.named = true := by simpa [wfInstr] using hwf
    exact roundTrip_wDab rfl rfl (by decide) (guard_then (by simp) (by simp [namedOf_code ha, namedBOf_code hb]))
  | tlbinvTen a =>
    exact roundTrip_wordA rfl rfl (by decide) (by decide) a.code_lt (by decide) (by decide) (by decide) (by decide)
      (guard_then (by simp) (by simp [namedOf_code hwf]))
  | tlbinvVa a b | wfill a b | wfail a b =>
    obtain ⟨ha, hb⟩ : a.named = true ∧ b.named = true := by simpa [wfInstr] using hwf
    exact roundTrip_wordA rfl rfl (by decide) (by decide) a.code_lt b.code_lt (by decide) (by decide) (by decide)
      (guard_then (by simp) (by simp [namedOf_code ha, namedOf_code hb]))
  | wmbx d =>
    exact roundTrip_wordA rfl rfl (by decide) (vcode_lt (by omega)) (by decide) (by decide) (by decide) (by decide) (by decide)
      (guard_then (by simp) (by simp))
  | fshareJ a | fshareH a | frel a =>
    exact roundTrip_wordA rfl rfl (by decide) (by decide) a.code_lt (by decide) (by decide) (by decide) (by decide) (guard_then (by simp)
      (by simp))
  | farg a b c =>
    exact roundTrip_wordA rfl rfl (by decide) (by decide) a.code_lt b.code_lt c.code_lt (by decide) b.bits_lt (guard_then (by simp) (by simp))
  | fpos k d a =>
    exact roundTrip_wDa rfl rfl (by have := k.code_lt; omega) (guard_then (by simp) (by simp))
  | kvapp d a b c =>
    exact roundTrip_wordA rfl rfl (by decide) d.code_lt (vcode_lt (by omega)) (vcode_lt (by omega)) c.code_lt (by decide) (by decide)
      (guard_then (by simp) (by simp))
  | kvappLn d a b c ln =>
    exact roundTrip_wordA rfl rfl (by decide) d.code_lt (vcode_lt (by omega)) (vcode_lt (by omega)) c.code_lt (by decide) (by omega)
      (guard_then (by simp) (by simp))
  | atbeg a b n =>
    have hn : 2 * n.val < 8 := by omega
    exact roundTrip_wordA rfl rfl (by omega) (by decide) (vcode_lt (by omega)) b.code_lt (by decide) (by decide) b.bits_lt
      (guard_then (by simp [hn]) (by simp))
  | atstep d n =>
    have hn : 2 * n.val < 8 := by omega
    exact roundTrip_wordA rfl rfl (by omega) d.code_lt (by decide) (by decide) (by decide) (by decide) (by decide)
      (guard_then (by simp [hn]) (by simp))
  | atend d n h =>
    have hlt : 8 * h.val + 2 * n.val < 16 := by omega
    have heven : (8 * h.val + 2 * n.val) % 2 = 0 := by omega
    have hn : 2 * n.val % 8 / 2 = n.val := by omega
    have hh : (8 * h.val + 2 * n.val) / 8 = h.val := by omega
    exact roundTrip_wordA rfl rfl (by omega) (vcode_lt (by omega)) (by decide) (by decide) (by decide) (by decide) (by decide)
      (guard_then (by simp [hlt, heven]) (by simp [hn, hh]))
  | sctpin d m b c =>
    obtain ⟨hb, hc⟩ : b.named = true ∧ c.named = true := by simpa [wfInstr] using hwf
    exact roundTrip_wordA rfl rfl (by decide) d.code_lt m.a.code_lt b.code_lt c.code_lt (by decide) (m.bits_lt (by decide))
      (guard_then (by simp) (by simp [namedOf_code hb, namedOf_code hc]))
  | sctevict d m b =>
    exact roundTrip_wordA rfl rfl (by decide) d.code_lt m.a.code_lt b.code_lt (by decide) (by decide) (m.bits_lt (by decide))
      (guard_then (by simp) (by simp [namedOf_code hwf]))
  | vtopk k d a b c =>
    exact roundTrip_wordA rfl rfl (by omega) (vcode_lt (by omega)) (vcode_lt a.isLt) b.code_lt c.code_lt (by decide) b.bits_lt
      (guard_then (by simp) (by simp))
  | vsamp d a b c =>
    exact roundTrip_wordA rfl rfl (by decide) d.code_lt (vcode_lt a.isLt) b.code_lt c.code_lt (by decide) b.bits_lt
      (guard_then (by simp) (by simp))
  | vaccptP n d a b c =>
    have hn : 1 ≤ n.val + 1 ∧ n.val + 1 ≤ 16 := by omega
    exact roundTrip_wordA rfl rfl (by omega) d.code_lt (vcode_lt a.isLt) (vcode_lt b.isLt) (vcode_lt c.isLt) (by decide) (by decide)
      (guard_then (by simp) ((if_pos hn).trans (by simp)))
  | vaccptE n d a b =>
    have hp : ¬ (1 ≤ 0x21 + n.val ∧ 0x21 + n.val ≤ 16) := by omega
    have he : 0x21 ≤ 0x21 + n.val ∧ 0x21 + n.val ≤ 0x30 := by omega
    exact roundTrip_wordA rfl rfl (by omega) d.code_lt (vcode_lt a.isLt) (vcode_lt b.isLt) (by decide) (by decide) (by decide)
      (guard_then (by simp) ((if_neg hp).trans ((if_pos he).trans (by simp))))
  | vaccptLn d a =>
    exact roundTrip_wordA rfl rfl (by decide) (vcode_lt (by omega)) a.code_lt (by decide) (by decide) (by decide) (by decide)
      (guard_then (by simp) (by simp))
  | _ => cases hev

end Sys2Proof
end

