-- ==== Sys2Proof/Proofs/OperandFields.lean ====
section
/-!
SUPPORT. From a field back to its operand: each operand decoder answers an operand exactly for that operand's code, so that no two fields give
the same operand.
-/
namespace Sys2Proof

@[simp] theorem sregOf_eq_some {n : Nat} {r : SReg} : sregOf n = some r ↔ n = r.code := by
  refine ⟨fun h => ?_, fun h => h ▸ sregOf_code r⟩
  unfold sregOf at h
  split at h
  · cases h; simp [SReg.code]; omega
  · split at h
    · cases h; simpa [SReg.code]
    · split at h
      · cases h; simp [SReg.code]; omega
      · split at h
        · cases h; simp [SReg.code]; omega
        · cases h

@[simp] theorem namedOf_eq_some {n : Nat} {r : SReg} : namedOf n = some r ↔ r.named = true ∧ n = r.code := by
  refine ⟨fun h => ?_, fun ⟨hr, h⟩ => h ▸ namedOf_code hr⟩
  unfold namedOf at h
  split at h
  · cases h
  · next hz =>
    have hn := sregOf_eq_some.1 h
    subst hn
    cases r with
    | z => exact absurd rfl hz
    | la k | s k | x k => exact ⟨rfl, rfl⟩

section
variable {b imm : Nat} (himm : imm < 2 ^ 48)
include himm

theorem imm48_toNat : (BitVec.ofNat 48 imm).toNat = imm := by rw [BitVec.toNat_ofNat, Nat.mod_eq_of_lt himm]

theorem srcBOf_eq_some {s : SrcB} : srcBOf b imm = some s ↔ b = s.code ∧ imm = s.bits := by
  refine ⟨fun h => ?_, fun ⟨hb, hi⟩ => by rw [hb, hi, srcBOf_code]⟩
  unfold srcBOf at h
  split at h
  · next hb => cases h; exact ⟨hb, (imm48_toNat himm).symm⟩
  · split at h
    · next hz =>
      obtain ⟨r, hr, rfl⟩ := Option.map_eq_some_iff.1 h
      exact ⟨sregOf_eq_some.1 hr, hz⟩
    · cases h

theorem namedBOf_eq_some {s : SrcB} : namedBOf b imm = some s ↔ s.named = true ∧ b = s.code ∧ imm = s.bits := by
  refine ⟨fun h => ?_, fun ⟨hs, hb, hi⟩ => by rw [hb, hi, namedBOf_code hs]⟩
  unfold namedBOf at h
  split at h
  · cases h
  · next hz =>
    obtain ⟨hb, hi⟩ := (srcBOf_eq_some himm).1 h
    subst hb
    rcases s with (_ | _ | _ | _) | _
    case reg.z => exact absurd rfl hz
    all_goals exact ⟨rfl, rfl, hi⟩

end

@[simp] theorem vregOf_eq_some {n : Nat} {k : Fin 16} : vregOf n = some k ↔ n = vcode k.val := by
  refine ⟨fun h => ?_, fun h => h ▸ vregOf_code k⟩
  unfold vregOf at h
  split at h
  · cases h; simp [vcode]; omega
  · cases h
@[simp] theorem v12Of_eq_some {n : Nat} {k : Fin 12} : v12Of n = some k ↔ n = vcode k.val := by
  refine ⟨fun h => ?_, fun h => h ▸ v12Of_code k⟩
  unfold v12Of at h
  split at h
  · cases h; simp [vcode]; omega
  · cases h
@[simp] theorem v15Of_eq_some {n : Nat} {k : Fin 15} : v15Of n = some k ↔ n = vcode k.val := by
  refine ⟨fun h => ?_, fun h => h ▸ v15Of_code k⟩
  unfold v15Of at h
  split at h
  · cases h; simp [vcode]; omega
  · cases h

theorem vsrcOf_eq_some {b imm : Nat} (himm : imm < 2 ^ 48) {s : VSrc} : vsrcOf b imm = some s ↔ b = s.code ∧ imm = s.bits := by
  refine ⟨fun h => ?_, fun ⟨hb, hi⟩ => by rw [hb, hi, vsrcOf_code]⟩
  unfold vsrcOf at h
  split at h
  · next hb => cases h; exact ⟨hb, (imm48_toNat himm).symm⟩
  · split at h
    · next hz =>
      split at h
      · next hv => cases h; exact ⟨vregOf_eq_some.1 hv, hz⟩
      · obtain ⟨r, hr, rfl⟩ := Option.map_eq_some_iff.1 h
        exact ⟨sregOf_eq_some.1 hr, hz⟩
    · cases h

@[simp] theorem vsrcCOf_eq_some {n : Nat} {c : VSrcC} : vsrcCOf n = some c ↔ n = c.code := by
  refine ⟨fun h => ?_, fun h => h ▸ vsrcCOf_code c⟩
  unfold vsrcCOf at h
  split at h
  · next hv => cases h; exact vregOf_eq_some.1 hv
  · obtain ⟨r, hr, rfl⟩ := Option.map_eq_some_iff.1 h
    exact sregOf_eq_some.1 hr

@[simp] theorem streamOf_eq_some {n : Nat} {r : StreamReg} : streamOf n = some r ↔ n = r.code := by
  refine ⟨fun h => ?_, fun h => h ▸ streamOf_code r⟩
  unfold streamOf at h
  split at h
  · cases h; simp [StreamReg.code]; omega
  · split at h
    · cases h; simp [StreamReg.code]; omega
    · cases h

/-! ## Codes of a table -/

@[simp] theorem condOf_eq_some {n : Nat} {c : Cond} : condOf n = some c ↔ n = c.code :=
  ⟨fun h => by unfold condOf at h; split at h <;> cases h <;> rfl, fun h => h ▸ condOf_code c⟩
@[simp] theorem vcondOf_eq_some {n : Nat} {c : VCond} : vcondOf n = some c ↔ n = c.code :=
  ⟨fun h => by unfold vcondOf at h; split at h <;> cases h <;> rfl, fun h => h ▸ vcondOf_code c⟩
@[simp] theorem rmOf_eq_some {n : Nat} {c : RM} : rmOf n = some c ↔ n = c.code :=
  ⟨fun h => by unfold rmOf at h; split at h <;> cases h <;> rfl, fun h => h ▸ rmOf_code c⟩
@[simp] theorem scopeOf_eq_some {n : Nat} {c : Scope} : scopeOf n = some c ↔ n = c.code :=
  ⟨fun h => by unfold scopeOf at h; split at h <;> cases h <;> rfl, fun h => h ▸ scopeOf_code c⟩
@[simp] theorem kindOf_eq_some {n : Nat} {c : LKind} : kindOf n = some c ↔ n = c.code :=
  ⟨fun h => by unfold kindOf at h; split at h <;> cases h <;> rfl, fun h => h ▸ kindOf_code c⟩
@[simp] theorem efmtOf_eq_some {n : Nat} {c : EFmt} : efmtOf n = some c ↔ n = c.code :=
  ⟨fun h => by unfold efmtOf at h; split at h <;> cases h <;> rfl, fun h => h ▸ efmtOf_code c⟩
@[simp] theorem redOf_eq_some {n : Nat} {c : RedOp} : redOf n = some c ↔ n = c.code :=
  ⟨fun h => by unfold redOf at h; split at h <;> cases h <;> rfl, fun h => h ▸ redOf_code c⟩
@[simp] theorem atomOf_eq_some {n : Nat} {c : AtomOp} : atomOf n = some c ↔ n = c.code :=
  ⟨fun h => by unfold atomOf at h; split at h <;> cases h <;> rfl, fun h => h ▸ atomOf_code c⟩
@[simp] theorem cvtOf_eq_some {n : Nat} {c : CvtKind} : cvtOf n = some c ↔ n = c.code :=
  ⟨fun h => by unfold cvtOf at h; split at h <;> cases h <;> rfl, fun h => h ▸ cvtOf_code c⟩
@[simp] theorem packOf_eq_some {n : Nat} {c : PackKind} : packOf n = some c ↔ n = c.code :=
  ⟨fun h => by unfold packOf at h; split at h <;> cases h <;> rfl, fun h => h ▸ packOf_code c⟩
@[simp] theorem posOf_eq_some {n : Nat} {c : PosKind} : posOf n = some c ↔ n = c.code :=
  ⟨fun h => by unfold posOf at h; split at h <;> cases h <;> rfl, fun h => h ▸ posOf_code c⟩

@[simp] theorem ordOf_eq_some {n : Nat} {o : Option Scope} : ordOf n = some o ↔ n = ordCode o := by
  refine ⟨fun h => ?_, fun h => h ▸ ordOf_code o⟩
  unfold ordOf at h
  split at h
  · next hz => cases h; exact hz
  · split at h
    · obtain ⟨sc, hsc, rfl⟩ := Option.map_eq_some_iff.1 h
      have hn := scopeOf_eq_some.1 hsc
      show n = 2 * sc.code + 1
      omega
    · cases h

@[simp] theorem csrOf_eq_some {n : Nat} {c : Csr} : csrOf n = some c ↔ n = c.code := by
  refine ⟨fun h => ?_, fun h => h ▸ csrOf_code c⟩
  unfold csrOf at h
  split at h
  · dsimp only at h
    split at h
    · cases h; simp only [Csr.code, Fin.val_ofNat]; omega
    · cases h; simp only [Csr.code, Fin.val_ofNat]; omega
    · next h0 h1 =>
      have hm : (n - 32) % 3 = 2 := by
        have h0' : (n - 32) % 3 ≠ 0 := h0
        have h1' : (n - 32) % 3 ≠ 1 := h1
        omega
      cases h; simp only [Csr.code, Fin.val_ofNat]; omega
  · split at h
    · cases h; simp [Csr.code]; omega
    · split at h <;> cases h <;> rfl

/-! ## Memory operands -/

theorem crefOf_eq_some {a imm k : Nat} (himm : imm < 2 ^ 48) {m : CRef} :
    crefOf a imm = some (m, k) ↔ a = m.a.code ∧ imm = m.bits k ∧ k < 2 ^ 21 := by
  refine ⟨fun h => ?_, fun ⟨ha, hi, hk⟩ => by rw [ha, hi, crefOf_code m hk]⟩
  obtain ⟨r, hr, he⟩ := Option.map_eq_some_iff.1 h
  cases he
  refine ⟨sregOf_eq_some.1 hr, ?_, ?_⟩
  · simp only [CRef.bits, fld, Fin.val_ofNat, BitVec.toNat_ofNat]
    omega
  · unfold fld; omega

theorem cref0Of_eq_some {a imm : Nat} (himm : imm < 2 ^ 48) {m : CRef} : cref0Of a imm = some m ↔ a = m.a.code ∧ imm = m.bits 0 := by
  refine ⟨fun h => ?_, fun ⟨ha, hi⟩ => by rw [ha, hi, cref0Of_code m]⟩
  unfold cref0Of at h
  split at h
  · next hc =>
    cases h
    obtain ⟨ha, hi, -⟩ := (crefOf_eq_some himm).1 hc
    exact ⟨ha, hi⟩
  · cases h

theorem mrefOf_eq_some {f : FM} (hsg : f.sg < 2 ^ 3) (hoff : f.off < 2 ^ 48) {m : MemRef} :
    mrefOf f = some m ↔ f.a = m.a.code ∧ f.sg = m.sg.val ∧ f.off = m.off.toNat := by
  refine ⟨fun h => ?_, fun ⟨ha, hs, ho⟩ => by simp [mrefOf, ha, hs, ho]⟩
  obtain ⟨r, hr, rfl⟩ := Option.map_eq_some_iff.1 h
  exact ⟨sregOf_eq_some.1 hr, (Nat.mod_eq_of_lt hsg).symm, (imm48_toNat hoff).symm⟩

end Sys2Proof
end

