-- ==== Sys2Proof/Proofs/DecodedFields.lean ====
section
/-!
SUPPORT. What the decoder reads from a word of format A is what the encoder writes into it: each shape as an equivalence, then a line per arm of
the decoder, in the order of the opcodes.
-/
namespace Sys2Proof
def StandsFor (w : Nat) (i : Instr) : Prop := encodeNat i = some w ∧ wfInstr i = true ∧ isEvent i = false

theorem StandsFor.of_fn {op fn fn' d a b c md imm : Nat} {i : Instr} (hf : fn = fn') (h : StandsFor (wordA op fn' d a b c md imm) i) :
    StandsFor (wordA op fn d a b c md imm) i := hf ▸ h

theorem StandsFor.of_mod {op fn d a b c md md' imm : Nat} {i : Instr} (hm : md = md') (h : StandsFor (wordA op fn d a b c md' imm) i) :
    StandsFor (wordA op fn d a b c md imm) i := hm ▸ h

/-- A field below the number of an operand's values is one of its values. -/
theorem exists_fin {k n : Nat} [NeZero k] (h : n < k) : ∃ j : Fin k, n = j.val ∧ Fin.ofNat k n = j :=
  ⟨⟨n, h⟩, rfl, Fin.ext (Nat.mod_eq_of_lt h)⟩

theorem SReg.named_of_code_ne {r : SReg} (h : r.code ≠ 4) : r.named = true := by
  cases r with
  | z => exact absurd rfl h
  | la k | s k | x k => rfl

theorem orderField_of_half {md : Nat} {sc : Scope} (h : md / 2 = sc.code) : md = 2 * sc.code + b2n (decide (md % 2 = 1)) := by
  by_cases ho : md % 2 = 1 <;> simp [b2n, ho] <;> omega

section
variable {fn d a b c md imm : Nat} {i : Instr} (himm : imm < 2 ^ 48)

theorem decVu_eq_some {mk : Bool → Bool → Fin 16 → Fin 16 → Instr} :
    decVu mk ⟨fn, d, a, b, c, md, imm⟩ = some i ↔ ∃ int sat : Bool, fn = b2n int + 4 * b2n sat ∧ (int || !sat) = true ∧ b = 0 ∧ c = 0 ∧ md = 0
      ∧ imm = 0 ∧ ∃ d', d = vcode d'.val ∧ ∃ a', a = vcode a'.val ∧ mk int sat d' a' = i := by
  constructor
  · simp only [decVu, Option.guard_eq_some', exists_const, Option.bind_eq_bind, Option.bind_eq_some_iff, Option.pure_def, Option.some.injEq,
    vregOf_eq_some]
    rintro ⟨⟨rfl, rfl, rfl, rfl, (rfl | rfl | rfl)⟩, d', rfl, a', rfl, rfl⟩
    · exact ⟨false, false, rfl, rfl, rfl, rfl, rfl, rfl, d', rfl, a', rfl, rfl⟩
    · exact ⟨true, false, rfl, rfl, rfl, rfl, rfl, rfl, d', rfl, a', rfl, rfl⟩
    · exact ⟨true, true, rfl, rfl, rfl, rfl, rfl, rfl, d', rfl, a', rfl, rfl⟩
  · rintro ⟨int, sat, rfl, hk, rfl, rfl, rfl, rfl, d', rfl, a', rfl, rfl⟩
    exact decVu_codes mk d' a' hk

include himm

theorem decEng_eq_some {mk : Scope → SReg → CRef → Fin 16 → Instr} :
    decEng mk ⟨fn, d, a, b, c, md, imm⟩ = some i ↔ c = 0 ∧ ∃ sc : Scope, md = 2 * sc.code ∧ ∃ d', d = SReg.code d' ∧ ∃ m,
      (a = m.a.code ∧ imm = m.bits 0) ∧ ∃ v, b = vcode v.val ∧ mk sc d' m v = i := by
  constructor
  · simp only [decEng, Option.guard_eq_some', exists_const, Option.bind_eq_bind, Option.bind_eq_some_iff, Option.pure_def, Option.some.injEq,
    vregOf_eq_some, scopeOf_eq_some, cref0Of_eq_some himm, sregOf_eq_some]
    rintro ⟨⟨rfl, h⟩, sc, hsc, hrest⟩
    exact ⟨rfl, sc, by omega, hrest⟩
  · rintro ⟨rfl, sc, rfl, d', rfl, m, ⟨rfl, rfl⟩, v, rfl, rfl⟩
    exact decEng_codes mk fn sc d' m v

theorem decVdab_eq_some {mk : LKind → Bool → RM → Fin 16 → Fin 16 → VSrc → Instr} :
    decVdab mk ⟨fn, d, a, b, c, md, imm⟩ = some i ↔ c = 0 ∧ ∃ (k : LKind) (sat : Bool), fn = k.code + 4 * b2n sat ∧ ∃ rm : RM,
      md = rm.code ∧ kindOk k sat rm = true ∧
      ∃ d', d = vcode d'.val ∧ ∃ a', a = vcode a'.val ∧ ∃ b', (b = VSrc.code b' ∧ imm = b'.bits) ∧ mk k sat rm d' a' b' = i := by
  constructor
  · simp only [decVdab, Option.guard_eq_some', exists_const, Option.bind_eq_bind, Option.bind_eq_some_iff, Option.pure_def, Option.some.injEq,
    vregOf_eq_some, kindOf_eq_some, rmOf_eq_some, vsrcOf_eq_some himm]
    rintro ⟨⟨rfl, h⟩, k, hk, rm, hrm, hok, hrest⟩
    refine ⟨rfl, k, decide (fn / 4 = 1), ?_, rm, hrm, hok, hrest⟩
    by_cases hs : fn / 4 = 1 <;> simp [b2n, hs] <;> omega
  · rintro ⟨rfl, k, sat, rfl, rm, rfl, hok, d', rfl, a', rfl, b', ⟨rfl, rfl⟩, rfl⟩
    exact decVdab_codes mk d' a' b' hok

theorem decCtr_eq_some {mk : Bool → Scope → CRef → CArg → Instr} {n : Nat} :
    decCtr mk n ⟨fn, d, a, b, c, md, imm⟩ = some i ↔ c = 0 ∧ ∃ (o : Bool) (sc : Scope), md = 2 * sc.code + b2n o ∧ ∃ (m : CRef) (j : CArg),
       fn = n + j.fn ∧ a = m.a.code ∧ b = j.code ∧ imm = m.bits j.bits ∧ mk o sc m j = i := by
  constructor
  · simp only [decCtr, Option.guard_eq_some', exists_const, Option.bind_eq_bind, Option.bind_eq_some_iff, Option.pure_def, scopeOf_eq_some,
    Prod.exists, crefOf_eq_some himm, ite_eq_iff, sregOf_eq_some, Option.some.injEq, and_assoc]
    rintro ⟨rfl, sc, hsc, m, k, rfl, rfl, hk, hreg | himmediate⟩
    · obtain ⟨rfl, rfl, r, rfl, rfl⟩ := hreg
      exact ⟨rfl, decide (md % 2 = 1), sc, orderField_of_half hsc, m, .reg r, rfl, rfl, rfl, rfl, rfl⟩
    · obtain ⟨-, rfl, rfl, rfl⟩ := himmediate
      refine ⟨rfl, decide (md % 2 = 1), sc, orderField_of_half hsc, m, .imm (BitVec.ofNat 21 k), rfl, rfl, rfl, ?_, rfl⟩
      rw [CArg.bits, BitVec.toNat_ofNat, Nat.mod_eq_of_lt hk]
  · rintro ⟨rfl, o, sc, rfl, m, j, rfl, rfl, rfl, rfl, rfl⟩
    exact decCtr_codes mk n d o sc m j

/-- The fields of a word of format A that decodes are those that the encoder makes of the instruction. -/
theorem decA_stands {op : Nat} (h : decA op ⟨fn, d, a, b, c, md, imm⟩ = some i) : StandsFor (wordA op fn d a b c md imm) i := by
  unfold decA at h
  split at h <;> simp only [decDab, decDa, decDabc, decNone, decVb, decVrm, decVk, decVu_eq_some, decEng_eq_some himm, decVdab_eq_some himm,
     decCtr_eq_some himm, Option.guard_eq_some', exists_const, Option.bind_eq_bind, Option.bind_eq_some_iff, Option.pure_def,
     Option.some.injEq, sregOf_eq_some, namedOf_eq_some, srcBOf_eq_some himm, namedBOf_eq_some himm, vregOf_eq_some, v12Of_eq_some,
     v15Of_eq_some, vsrcOf_eq_some himm, vsrcCOf_eq_some, cref0Of_eq_some himm, condOf_eq_some, vcondOf_eq_some, rmOf_eq_some,
     scopeOf_eq_some, kindOf_eq_some, redOf_eq_some, atomOf_eq_some, cvtOf_eq_some, packOf_eq_some, posOf_eq_some, csrOf_eq_some, and_assoc,
     ite_eq_iff, Option.map_eq_some_iff, true_and, and_false, or_false, false_or, reduceCtorEq, ne_eq] at h
  case h_1 | h_2 | h_3 | h_4 | h_5 | h_6 | h_7 | h_8 | h_9 | h_10 | h_11 | h_12 | h_13 | h_14 | h_15 | h_16 | h_17 | h_18 | h_19 | h_20 | h_21
      | h_27 | h_56 | h_58 | h_76 | h_77 | h_78 | h_79 | h_109 | h_120 =>
    obtain ⟨rfl, rfl, rfl, d, rfl, a, rfl, b, rfl, rfl, rfl⟩ := h
    exact ⟨rfl, rfl, rfl⟩
  case h_22 | h_23 | h_24 | h_28 | h_52 | h_92 =>
    obtain ⟨rfl, rfl, rfl, rfl, rfl, d, rfl, a, rfl, rfl⟩ := h
    exact ⟨rfl, rfl, rfl⟩
  case h_25 =>
    obtain ⟨rfl, rfl, rfl, d, rfl, a, rfl, b, rfl, rfl, rfl⟩ | ⟨-, rfl, rfl, rfl, d, rfl, a, rfl, b, rfl, rfl, rfl⟩ := h
    · exact ⟨rfl, rfl, rfl⟩
    · exact ⟨rfl, rfl, rfl⟩
  case h_26 | h_29 | h_75 | h_122 =>
    obtain ⟨rfl, rfl, d, rfl, a, rfl, b, rfl, rfl, c, rfl, rfl⟩ := h
    exact ⟨rfl, rfl, rfl⟩
  case h_30 | h_85 =>
    obtain ⟨rfl, rfl, cc, rfl, d, rfl, a, rfl, b, rfl, rfl, rfl⟩ := h
    exact ⟨rfl, rfl, rfl⟩
  case h_31 =>
    obtain ⟨rfl, hk, d, rfl, a, rfl, b, rfl, rfl, c, rfl, rfl⟩ := h
    obtain ⟨k, rfl, hk⟩ := exists_fin hk
    rw [hk]
    exact ⟨rfl, rfl, rfl⟩
  case h_32 =>
    obtain ⟨rfl, rfl, rfl, hn, cc, hcc, a, rfl, b, rfl, rfl, rfl⟩ := h
    obtain ⟨n, hn, he⟩ := exists_fin (show fn % 4 - 1 < 3 by omega)
    have hfn : fn = 4 * cc.code + n.val + 1 := by omega
    exact he ▸ .of_fn hfn ⟨rfl, rfl, rfl⟩
  case h_33 | h_34 | h_35 | h_49 =>
    obtain ⟨rfl, rfl, rfl, rfl, rfl, rfl, rfl, rfl⟩ := h
    exact ⟨rfl, rfl, rfl⟩
  case h_36 =>
    obtain ⟨rfl, rfl, rfl, rfl, rfl, d, rfl, c, rfl, rfl⟩ := h
    exact ⟨rfl, rfl, rfl⟩
  case h_37 =>
    obtain ⟨rfl, rfl, rfl, rfl, rfl, c, rfl, a, rfl, rfl⟩ := h
    exact ⟨rfl, rfl, rfl⟩
  case h_38 =>
    obtain ⟨rfl, rfl, rfl, rfl, d, rfl, a, rfl, c, rfl, rfl⟩ := h
    exact ⟨rfl, rfl, rfl⟩
  case h_39 | h_50 =>
    obtain ⟨rfl, rfl, rfl, rfl, rfl, rfl, hn, rfl⟩ := h
    obtain ⟨n, rfl⟩ : ∃ n : BitVec 16, imm = n.toNat := ⟨⟨imm, hn⟩, rfl⟩
    rw [BitVec.ofNat_toNat, BitVec.setWidth_eq]
    exact ⟨rfl, rfl, rfl⟩
  case h_40 | h_102 =>
    obtain ⟨rfl, rfl, rfl, rfl, rfl, rfl, a, hn, rfl, rfl⟩ := h
    exact ⟨rfl, hn, rfl⟩
  case h_41 =>
    obtain ⟨-, rfl, rfl, o, sc, rfl, m, j, rfl, rfl, rfl, rfl, rfl⟩ | ⟨-, d, rfl, rfl, o, sc, rfl, m, j, rfl, rfl, rfl, rfl, rfl⟩ := h
    · exact ⟨rfl, rfl, rfl⟩
    · exact ⟨rfl, rfl, rfl⟩
  case h_42 | h_44 =>
    obtain ⟨d, rfl, rfl, o, sc, rfl, m, j, rfl, rfl, rfl, rfl, rfl⟩ := h
    exact ⟨rfl, rfl, rfl⟩
  case h_43 =>
    obtain ⟨rfl, rfl, rfl, sc, hsc, d, rfl, m, rfl, rfl, rfl⟩ := h
    exact .of_mod (orderField_of_half hsc) ⟨rfl, rfl, rfl⟩
  case h_45 =>
    obtain ⟨hfn, rfl, rfl, rfl, d, rfl, m, rfl, rfl, ⟨rfl, rfl⟩ | ⟨h0, rfl⟩⟩ := h
    · exact ⟨rfl, rfl, rfl⟩
    · exact .of_fn (show fn = 1 by omega) ⟨rfl, rfl, rfl⟩
  case h_46 | h_47 =>
    obtain ⟨rfl, rfl, rfl, rfl, rfl, rfl, hm, sc, hsc, rfl⟩ := h
    exact .of_mod (show md = 2 * sc.code by omega) ⟨rfl, rfl, rfl⟩
  case h_48 =>
    obtain ⟨rfl, rfl, rfl, rfl, rfl, rfl | rfl, d, rfl, rfl⟩ := h
    · exact ⟨rfl, rfl, rfl⟩
    · exact ⟨rfl, rfl, rfl⟩
  case h_51 =>
    obtain ⟨hz, rfl, rfl, rfl, d, rfl, a, rfl, b, rfl, rfl, rfl⟩ := h
    exact ⟨rfl, a.named_of_code_ne hz, rfl⟩
  case h_53 =>
    obtain ⟨rfl, rfl, rfl, rfl, d, rfl, b, rfl, rfl, rfl⟩ := h
    exact ⟨rfl, rfl, rfl⟩
  case h_54 =>
    obtain ⟨-, rfl, rfl, rfl, rfl, rfl, rfl, rfl, rfl⟩ | ⟨-, rfl, rfl, rfl, rfl, rfl, rfl, d, rfl, rfl⟩ := h
    · exact ⟨rfl, rfl, rfl⟩
    · exact ⟨rfl, rfl, rfl⟩
  case h_55 =>
    obtain ⟨rfl, rfl, rfl, rfl | rfl, d, rfl, a, rfl, v, rfl, rfl⟩ := h
    · exact ⟨rfl, rfl, rfl⟩
    · exact ⟨rfl, rfl, rfl⟩
  case h_57 =>
    obtain ⟨rfl, rfl, rfl, rfl, rfl, d, rfl, a, rfl, rfl⟩ | ⟨-, rfl, rfl, rfl, rfl, rfl, d, rfl, a, rfl, rfl⟩ := h
    · exact ⟨rfl, rfl, rfl⟩
    · exact ⟨rfl, rfl, rfl⟩
  case h_59 =>
    split at h <;> simp only [Option.guard_eq_some', exists_const, Option.bind_eq_some_iff, Option.some.injEq, sregOf_eq_some,
      srcBOf_eq_some himm, and_assoc, true_and, reduceCtorEq] at h
    case h_1 | h_2 | h_3 =>
      obtain ⟨rfl, rfl, d, rfl, a, rfl, b, rfl, rfl, rfl⟩ := h
      exact ⟨rfl, rfl, rfl⟩
    case h_4 | h_5 =>
      obtain ⟨rfl, rfl, rfl, d, rfl, b, rfl, rfl, rfl⟩ := h
      exact ⟨rfl, rfl, rfl⟩
  case h_60 =>
    obtain ⟨hz, rfl, rfl, rfl, rfl, rfl, d, rfl, a, rfl, rfl⟩ := h
    exact ⟨rfl, a.named_of_code_ne hz, rfl⟩
  case h_61 | h_105 =>
    obtain ⟨rfl, rfl, rfl, rfl, rfl, rfl, d, rfl, rfl⟩ := h
    exact ⟨rfl, rfl, rfl⟩
  case h_62 | h_63 | h_64 =>
    obtain ⟨rfl, k, sat, rfl, rm, rfl, hok, d, rfl, a, rfl, b, rfl, rfl, rfl⟩ := h
    exact ⟨rfl, hok, rfl⟩
  case h_65 =>
    obtain ⟨k, rfl, rm, rfl, hok, d, rfl, a, rfl, b, rfl, rfl, c, rfl, rfl⟩ := h
    exact ⟨rfl, hok, rfl⟩
  case h_66 | h_67 =>
    obtain ⟨rfl, rfl, k, rfl, d, rfl, a, rfl, b, rfl, rfl, rfl⟩ := h
    exact ⟨rfl, rfl, rfl⟩
  case h_68 | h_69 =>
    obtain ⟨int, sat, rfl, hok, rfl, rfl, rfl, rfl, d, rfl, a, rfl, rfl⟩ := h
    exact ⟨rfl, hok, rfl⟩
  case h_70 | h_71 | h_72 | h_73 =>
    obtain ⟨rfl, rfl, rfl, rfl, rm, rfl, d, rfl, a, rfl, rfl⟩ := h
    exact ⟨rfl, rfl, rfl⟩
  case h_74 =>
    obtain ⟨k, rfl, cc, rfl, rfl, hok, d, rfl, a, rfl, b, rfl, rfl, rfl⟩ := h
    exact ⟨rfl, hok, rfl⟩
  case h_80 =>
    obtain ⟨-, rfl, rfl, rfl, d, rfl, a, rfl, b, rfl, rfl, rfl⟩ | ⟨-, rfl, rfl, rfl, d, rfl, a, rfl, b, rfl, rfl, rfl⟩ := h
    · exact ⟨rfl, rfl, rfl⟩
    · exact ⟨rfl, rfl, rfl⟩
  case h_81 =>
    obtain ⟨rfl, rfl, rfl, k, rfl, rm, rfl, d, rfl, a, rfl, rfl⟩ := h
    exact ⟨rfl, rfl, rfl⟩
  case h_82 =>
    obtain ⟨rfl, rfl, rfl, rfl, d, rfl, b, rfl, rfl, rfl⟩ | ⟨-, hfn, rfl, rfl, rfl, rfl, d, rfl, a, rfl, rfl⟩ := h
    · exact ⟨rfl, rfl, rfl⟩
    · obtain ⟨k, hk, he⟩ := exists_fin (Nat.mod_lt fn (show 16 > 0 by decide))
      exact he ▸ .of_fn (show fn = 0x10 + k.val by omega) ⟨rfl, rfl, rfl⟩
  case h_83 =>
    obtain ⟨rfl, rfl, rfl, rfl, d, rfl, a, rfl, b, rfl, rfl⟩ | ⟨-, rfl, rfl, rfl, d, rfl, a, rfl, b, rfl, c, rfl, rfl⟩ := h
    · exact ⟨rfl, rfl, rfl⟩
    · exact ⟨rfl, rfl, rfl⟩
  case h_84 =>
    obtain ⟨op, rfl, rm, rfl, rfl, rfl, rfl, hok, d, rfl, a, rfl, rfl⟩ := h
    exact ⟨rfl, hok, rfl⟩
  case h_86 =>
    obtain ⟨hk, rfl, rfl, rfl, d, rfl, b, rfl, rfl, rfl⟩ := h
    obtain ⟨k, rfl, hk⟩ := exists_fin hk
    rw [hk]
    exact ⟨rfl, rfl, rfl⟩
  case h_87 =>
    obtain ⟨hfn, rfl, rfl, rfl, rfl, d, rfl, a, rfl, rfl⟩ := h
    obtain ⟨k, hk, he⟩ := exists_fin (Nat.mod_lt fn (show 16 > 0 by decide))
    have hf : fn = k.val + 16 * b2n (decide (fn / 16 = 1)) := by
      by_cases hs : fn / 16 = 1 <;> simp [b2n, hs] <;> omega
    exact he ▸ .of_fn hf ⟨rfl, rfl, rfl⟩
  case h_88 =>
    obtain ⟨hk, rfl, rfl, d, rfl, m, rfl, rfl, b, rfl, rfl⟩ := h
    obtain ⟨k, rfl, hk⟩ := exists_fin hk
    rw [hk]
    exact ⟨rfl, rfl, rfl⟩
  case h_89 =>
    obtain ⟨hk, rfl, rfl, m, rfl, rfl, b, rfl, c, rfl, rfl⟩ := h
    obtain ⟨k, rfl, hk⟩ := exists_fin hk
    rw [hk]
    exact ⟨rfl, rfl, rfl⟩
  case h_90 =>
    obtain ⟨-, hk, rfl, hd⟩ := h
    obtain ⟨k, hk, he⟩ := exists_fin hk
    rw [he] at hd
    obtain ⟨rfl, _, rfl, op, hop, m, rfl, rfl, b, rfl, c, rfl, rfl⟩ | ⟨-, _, ⟨d, rfl, rfl⟩, op, hop, m, rfl, rfl, b, rfl, c, rfl, rfl⟩ := hd
    · exact .of_fn (show fn = 4 * op.code + k.val by omega) ⟨rfl, rfl, rfl⟩
    · exact .of_fn (show fn = 4 * op.code + k.val by omega) ⟨rfl, rfl, rfl⟩
  case h_91 =>
    obtain ⟨op, rfl, rm, rfl, rfl, rfl, rfl, hok, hop, d, rfl, a, rfl, rfl⟩ := h
    exact ⟨rfl, by simpa [wfInstr, hok, or_assoc] using hop, rfl⟩
  case h_93 =>
    obtain ⟨k, rfl, rfl, rfl, rfl, ⟨hk, d, rfl, a, rfl, b, rfl, rfl⟩ | ⟨hk, rfl, d, rfl, a, rfl, rfl⟩⟩ := h
    · obtain rfl | rfl := hk
      · exact ⟨rfl, rfl, rfl⟩
      · exact ⟨rfl, rfl, rfl⟩
    · refine ⟨congrArg some ?_, by simp [wfInstr], rfl⟩
      rw [if_neg hk]
  case h_94 =>
    split at h <;> simp only [decEng_eq_some himm, and_assoc, reduceCtorEq] at h
    case h_1 | h_2 | h_3 | h_4 | h_5 =>
      obtain ⟨rfl, sc, rfl, d, rfl, m, rfl, rfl, v, rfl, rfl⟩ := h
      exact ⟨rfl, rfl, rfl⟩
  case h_95 | h_96 | h_98 | h_99 =>
    obtain ⟨rfl, rfl, sc, rfl, d, rfl, m, rfl, rfl, v, rfl, rfl⟩ := h
    exact ⟨rfl, rfl, rfl⟩
  case h_97 =>
    split at h <;> simp only [decEng_eq_some himm, and_assoc, reduceCtorEq] at h
    case h_1 | h_2 | h_3 =>
      obtain ⟨rfl, sc, rfl, d, rfl, m, rfl, rfl, v, rfl, rfl⟩ := h
      exact ⟨rfl, rfl, rfl⟩
  case h_100 =>
    obtain ⟨rfl, rfl, rfl, rfl, rfl, rfl, d, rfl, rfl⟩ | ⟨-, rfl, rfl, rfl, d, rfl, m, rfl, rfl, b, rfl, rfl⟩ := h
    · exact ⟨rfl, rfl, rfl⟩
    · exact ⟨rfl, rfl, rfl⟩
  case h_101 =>
    obtain ⟨rfl, a, ha, rfl, b, hb, rfl, rfl, ⟨hk, rfl, d, rfl, rfl⟩ | ⟨-, rfl, d, rfl, c, hc, rfl, rfl⟩⟩ := h
    · obtain ⟨k, rfl, hk⟩ := exists_fin hk
      rw [hk]
      exact ⟨rfl, by simp [wfInstr, ha, hb], rfl⟩
    · exact ⟨rfl, by simp [wfInstr, ha, hb, hc], rfl⟩
  case h_103 =>
    obtain ⟨rfl, rfl, rfl, d, rfl, a, ha, rfl, b, hb, rfl, rfl, rfl⟩ := h
    exact ⟨rfl, by simp [wfInstr, ha, hb], rfl⟩
  case h_104 =>
    obtain ⟨rfl, rfl, rfl, rfl, h⟩ := h
    split at h <;> simp only [Option.guard_eq_some', exists_const, Option.bind_eq_some_iff, Option.some.injEq,
      namedOf_eq_some, and_assoc, reduceCtorEq] at h
    case h_1 =>
      obtain ⟨rfl, rfl, rfl⟩ := h
      exact ⟨rfl, rfl, rfl⟩
    case h_2 =>
      obtain ⟨rfl, a, ha, rfl, rfl⟩ := h
      exact ⟨rfl, ha, rfl⟩
    case h_3 =>
      obtain ⟨a, ha, rfl, b, hb, rfl, rfl⟩ := h
      exact ⟨rfl, by simp [wfInstr, ha, hb], rfl⟩
  case h_106 | h_107 =>
    obtain ⟨rfl, rfl, rfl, rfl, rfl, a, ha, rfl, b, hb, rfl, rfl⟩ := h
    exact ⟨rfl, by simp [wfInstr, ha, hb], rfl⟩
  case h_108 =>
    obtain ⟨hfn, rfl, rfl, rfl, d, rfl, b, rfl, rfl, ⟨rfl, rfl⟩ | ⟨h0, rfl⟩⟩ := h
    · exact ⟨rfl, rfl, rfl⟩
    · exact .of_fn (show fn = 1 by omega) ⟨rfl, rfl, rfl⟩
  case h_110 =>
    obtain ⟨hfn, rfl, rfl, rfl, rfl, rfl, a, rfl, ⟨rfl, rfl⟩ | ⟨h0, rfl⟩⟩ := h
    · exact ⟨rfl, rfl, rfl⟩
    · exact .of_fn (show fn = 1 by omega) ⟨rfl, rfl, rfl⟩
  case h_111 =>
    obtain ⟨rfl, rfl, rfl, rfl, rfl, rfl, a, rfl, rfl⟩ := h
    exact ⟨rfl, rfl, rfl⟩
  case h_112 =>
    obtain ⟨rfl, rfl, rfl, a, rfl, b, rfl, rfl, c, rfl, rfl⟩ := h
    exact ⟨rfl, rfl, rfl⟩
  case h_113 =>
    obtain ⟨rfl, rfl, rfl, rfl, k, rfl, d, rfl, a, rfl, rfl⟩ := h
    exact ⟨rfl, rfl, rfl⟩
  case h_114 =>
    obtain ⟨hfn, rfl, himm, d, rfl, a, rfl, b, rfl, c, rfl, ⟨rfl, rfl, rfl⟩ | ⟨h0, rfl⟩⟩ := h
    · exact ⟨rfl, rfl, rfl⟩
    · obtain ⟨ln, rfl, he⟩ := exists_fin himm
      rw [he]
      exact .of_fn (show fn = 1 by omega) ⟨rfl, rfl, rfl⟩
  case h_115 =>
    obtain ⟨hfn, heven, rfl, rfl, rfl, a, rfl, b, rfl, rfl, rfl⟩ := h
    obtain ⟨n, hn, he⟩ := exists_fin (show fn / 2 < 4 by omega)
    exact he ▸ .of_fn (show fn = 2 * n.val by omega) ⟨rfl, rfl, rfl⟩
  case h_116 =>
    obtain ⟨hfn, heven, rfl, rfl, rfl, rfl, rfl, d, rfl, rfl⟩ := h
    obtain ⟨n, hn, he⟩ := exists_fin (show fn / 2 < 4 by omega)
    exact he ▸ .of_fn (show fn = 2 * n.val by omega) ⟨rfl, rfl, rfl⟩
  case h_117 =>
    obtain ⟨hfn, heven, rfl, rfl, rfl, rfl, rfl, d, rfl, rfl⟩ := h
    obtain ⟨n, hn, hen⟩ := exists_fin (show fn % 8 / 2 < 4 by omega)
    obtain ⟨x, hx, hex⟩ := exists_fin (show fn / 8 < 2 by omega)
    rw [hen, hex]
    exact .of_fn (show fn = 8 * x.val + 2 * n.val by omega) ⟨rfl, rfl, rfl⟩
  case h_118 =>
    obtain ⟨rfl, rfl, d, rfl, m, rfl, rfl, b, hb, rfl, c, hc, rfl, rfl⟩ := h
    exact ⟨rfl, by simp [wfInstr, hb, hc], rfl⟩
  case h_119 =>
    obtain ⟨rfl, rfl, rfl, d, rfl, m, rfl, rfl, b, hb, rfl, rfl⟩ := h
    exact ⟨rfl, hb, rfl⟩
  case h_121 =>
    obtain ⟨hk, rfl, d, rfl, a, rfl, b, rfl, rfl, c, rfl, rfl⟩ := h
    obtain ⟨k, rfl, hk⟩ := exists_fin hk
    rw [hk]
    exact ⟨rfl, rfl, rfl⟩
  case h_123 =>
    obtain ⟨rfl, rfl, hP | ⟨-, hE | ⟨-, rfl, rfl, rfl, d, rfl, a, rfl, rfl⟩⟩⟩ := h
    · obtain ⟨h1, h16, d, rfl, a, rfl, b, rfl, c, rfl, rfl⟩ := hP
      obtain ⟨n, hn, he⟩ := exists_fin (show fn - 1 < 16 by omega)
      exact he ▸ .of_fn (show fn = n.val + 1 by omega) ⟨rfl, rfl, rfl⟩
    · obtain ⟨h33, h48, rfl, d, rfl, a, rfl, b, rfl, rfl⟩ := hE
      obtain ⟨n, hn, he⟩ := exists_fin (show fn - 33 < 16 by omega)
      exact he ▸ .of_fn (show fn = 0x21 + n.val by omega) ⟨rfl, rfl, rfl⟩
    · exact ⟨rfl, rfl, rfl⟩
end
end Sys2Proof
end

