-- ==== Sys2Proof/Proofs/DecodedWords.lean ====
section
/-!
SUPPORT. O2: the other formats as in format A, the word that given fields make, and the majors.
-/
namespace Sys2Proof
theorem exists_bitVec {k n : Nat} (h : n < 2 ^ k) : ∃ v : BitVec k, n = v.toNat ∧ BitVec.ofNat k n = v :=
  ⟨BitVec.ofNat k n, by rw [BitVec.toNat_ofNat, Nat.mod_eq_of_lt h], rfl⟩

theorem decJ_stands {op fn d a b z1 cc z2 ti tl : Nat} {i : Instr} (htl : tl < 2 ^ 32) (h : decJ op ⟨fn, d, a, b, z1, cc, z2, ti, tl⟩ = some i) :
    (fn = 0 ∧ z1 = 0 ∧ z2 = 0) ∧ StandsFor (wordJ op d a b cc ti tl) i := by
  obtain ⟨_, hz, h⟩ := Option.bind_eq_some_iff.1 h
  obtain ⟨rfl, rfl, rfl, hti⟩ := Option.guard_eq_some' _ |>.1 hz
  refine ⟨⟨rfl, rfl, rfl⟩, ?_⟩
  obtain ⟨ti, rfl, hti⟩ := exists_fin hti
  obtain ⟨tl, rfl, htl⟩ := exists_bitVec htl
  dsimp only at h
  rw [hti, htl] at h
  split at h <;> simp only [Option.guard_eq_some', exists_const, Option.bind_eq_bind, Option.bind_eq_some_iff, Option.pure_def,
    Option.some.injEq, sregOf_eq_some, namedOf_eq_some, condOf_eq_some, and_assoc, reduceCtorEq] at h
  case h_1 =>
    obtain ⟨rfl, rfl, rfl, rfl, rfl⟩ := h
    exact ⟨rfl, rfl, rfl⟩
  case h_2 =>
    obtain ⟨rfl, cc, rfl, a, rfl, b, rfl, rfl⟩ := h
    exact ⟨rfl, rfl, rfl⟩
  case h_3 =>
    obtain ⟨rfl, rfl, rfl, d, rfl, rfl⟩ := h
    exact ⟨rfl, rfl, rfl⟩
  case h_4 =>
    obtain ⟨rfl, rfl, rfl, h0, hl0, a, ha, rfl, rfl⟩ := h
    rw [h0, hl0]
    exact ⟨rfl, ha, rfl⟩
  case h_5 =>
    obtain ⟨rfl, rfl, h0, hl0, d, rfl, a, ha, rfl, rfl⟩ := h
    rw [h0, hl0]
    exact ⟨rfl, ha, rfl⟩
  case h_6 =>
    obtain ⟨rfl, rfl, d, rfl, a, rfl, rfl⟩ := h
    exact ⟨rfl, rfl, rfl⟩

/-- A word of format M from its fields; `wordM` is this with the fields of a memory operand (`wordM_eq`). -/
def memWord (op d a sg sz c ord off : Nat) : Nat :=
  op * 2 ^ 88 + d * 2 ^ 73 + a * 2 ^ 66 + sg * 2 ^ 63 + sz * 2 ^ 59 + c * 2 ^ 52 + ord * 2 ^ 48 + off

theorem wordM_eq (op d : Nat) (m : MemRef) (sz c ord : Nat) : wordM op d m sz c ord = memWord op d m.a.code m.sg.val sz c ord m.off.toNat := rfl

theorem StandsFor.of_size {op d a sg sz sz' c ord off : Nat} {i : Instr} (hs : sz = sz') (h : StandsFor (memWord op d a sg sz' c ord off) i) :
    StandsFor (memWord op d a sg sz c ord off) i := hs ▸ h

theorem decM_stands {op fn d a sg sz c ord off : Nat} {i : Instr} (hsg : sg < 2 ^ 3) (hsz : sz < 2 ^ 4) (hord : ord < 2 ^ 4)
    (hoff : off < 2 ^ 48) (h : decM op ⟨fn, d, a, sg, sz, c, ord, off⟩ = some i) :
    fn = 0 ∧ StandsFor (memWord op d a sg sz c ord off) i := by
  obtain ⟨_, hz, h⟩ := Option.bind_eq_some_iff.1 h
  obtain rfl := Option.guard_eq_some' _ |>.1 hz
  refine ⟨rfl, ?_⟩
  clear hz
  have hm : ∀ m, mrefOf ⟨0, d, a, sg, sz, c, ord, off⟩ = some m ↔ a = m.a.code ∧ sg = m.sg.val ∧ off = m.off.toNat :=
    fun m => mrefOf_eq_some hsg hoff
  split at h <;> simp only [hm, Option.guard_eq_some', exists_const, Option.bind_eq_bind, Option.bind_eq_some_iff, Option.pure_def,
    Option.some.injEq, sregOf_eq_some, vregOf_eq_some, streamOf_eq_some, ordOf_eq_some, and_assoc, reduceCtorEq] at h
  case h_1 =>
    obtain ⟨rfl, hsz, o, rfl, d, rfl, m, rfl, rfl, rfl, rfl⟩ := h
    obtain ⟨sz, rfl, he⟩ := exists_fin hsz
    rw [he]
    exact ⟨rfl, rfl, rfl⟩
  case h_2 =>
    obtain ⟨rfl, rfl, hsz, heven, m, rfl, rfl, rfl, c, rfl, rfl⟩ := h
    obtain ⟨k, hk, he⟩ := exists_fin (show sz / 2 < 4 by omega)
    rw [he]
    exact .of_size (show sz = 2 * k.val by omega) ⟨rfl, rfl, rfl⟩
  case h_3 =>
    obtain ⟨rfl, rfl | rfl, o, rfl, d, rfl, m, rfl, rfl, rfl, rfl⟩ := h
    · exact ⟨rfl, rfl, rfl⟩
    · exact ⟨rfl, rfl, rfl⟩
  case h_4 =>
    obtain ⟨rfl, rfl, rfl | rfl, m, rfl, rfl, rfl, c, rfl, rfl⟩ := h
    · exact ⟨rfl, rfl, rfl⟩
    · exact ⟨rfl, rfl, rfl⟩
  case h_5 =>
    obtain ⟨rfl, hsz, o, rfl, d, rfl, m, rfl, rfl, rfl, rfl⟩ := h
    obtain ⟨k, hk, he⟩ := exists_fin (show sz / 2 - 1 < 3 by omega)
    rw [he]
    exact .of_size (show sz = 2 * k.val + 2 by omega) ⟨rfl, rfl, rfl⟩
  case h_6 =>
    obtain ⟨rfl, rfl, d, rfl, m, rfl, rfl, rfl, rfl⟩ := h
    obtain ⟨g, hg, he⟩ := exists_fin (Nat.mod_lt sz (show 8 > 0 by decide))
    have hs : sz = 8 * b2n (decide (sz / 8 = 1)) + g.val := by
      by_cases ho : sz / 8 = 1 <;> simp [b2n, ho] <;> omega
    rw [he]
    exact .of_size hs ⟨rfl, rfl, rfl⟩
  case h_7 =>
    obtain ⟨rfl, rfl, rfl, rfl, rfl, d, rfl, c, rfl, rfl⟩ := h
    exact ⟨rfl, rfl, rfl⟩
  case h_8 =>
    obtain ⟨rfl, ht, m, rfl, rfl, rfl, c, rfl, rfl⟩ := h
    obtain ⟨t, rfl, het⟩ := exists_fin ht
    obtain ⟨keep, rfl, hek⟩ := exists_bitVec hord
    rw [het, hek]
    exact ⟨rfl, rfl, rfl⟩
  case h_9 =>
    obtain ⟨rfl, rfl, hsz, d, rfl, m, rfl, rfl, rfl, rfl⟩ := h
    obtain ⟨sz, rfl, he⟩ := exists_fin hsz
    rw [he]
    exact ⟨rfl, rfl, rfl⟩

theorem StandsFor.of_fnT {op fn fn' td ta tb ac s imm : Nat} {i : Instr} (hf : fn = fn') (h : StandsFor (wordT op fn' td ta tb ac s imm) i) :
    StandsFor (wordT op fn td ta tb ac s imm) i := hf ▸ h

/-- `mmn_field_ok`, back. -/
theorem mmn_wf {fa fb : EFmt} {sp : Bool} {n : Fin 8} {a b m : Fin 32} (h : if sp = true then b.val ≠ 31 else m.val = 0) :
    wfInstr (.mmn fa fb sp n a b m) = true := by
  cases sp with
  | false => simpa [wfInstr] using Fin.ext (a := m) (b := 0) h
  | true => simpa [wfInstr] using fun hb : b = 31 => h (congrArg Fin.val hb)

theorem decT_stands {op fn td ta tb ac s z1 imm : Nat} {i : Instr} (htd : td < 2 ^ 5) (hta : ta < 2 ^ 5) (htb : tb < 2 ^ 5)
    (hac : ac < 2 ^ 3) (himm : imm < 2 ^ 48)
    (h : decT op ⟨fn, td, ta, tb, ac, s, z1, imm⟩ = some i) : z1 = 0 ∧ StandsFor (wordT op fn td ta tb ac s imm) i := by
  obtain ⟨_, hz, h⟩ := Option.bind_eq_some_iff.1 h
  obtain rfl := Option.guard_eq_some' _ |>.1 hz
  refine ⟨rfl, ?_⟩
  obtain ⟨td, rfl, etd⟩ := exists_fin (k := 32) htd
  obtain ⟨ta, rfl, eta⟩ := exists_fin (k := 32) hta
  obtain ⟨tb, rfl, etb⟩ := exists_fin (k := 32) htb
  obtain ⟨ac, rfl, eac⟩ := exists_fin (k := 8) hac
  clear hz
  dsimp only at h
  rw [etd, eta, etb, eac] at h
  split at h <;> simp only [Option.guard_eq_some', exists_const, Option.bind_eq_bind, Option.bind_eq_some_iff, Option.pure_def,
    Option.some.injEq, Prod.exists, crefOf_eq_some himm, namedOf_eq_some, efmtOf_eq_some, and_assoc, ite_eq_iff, reduceCtorEq] at h
  case h_1 =>
    obtain ⟨ha, hb, hc, ⟨rfl, rfl, hsh, rfl⟩ | ⟨-, rfl, rfl, r, hr, rfl, rfl⟩⟩ := h
    · obtain ⟨sh, rfl, he⟩ := exists_bitVec hsh
      rw [ha, hb, hc, he]
      exact ⟨rfl, rfl, rfl⟩
    · rw [ha, hb, hc]
      exact ⟨rfl, hr, rfl⟩
  case h_2 =>
    obtain ⟨rfl, ha, hb, hc, m, p, rfl, rfl, hp, rfl⟩ := h
    obtain ⟨p, rfl, he⟩ := exists_bitVec hp
    rw [ha, hb, hc, he]
    exact ⟨rfl, rfl, rfl⟩
  case h_3 =>
    obtain ⟨rfl, hd, hb, hc, m, p, rfl, rfl, hp, rfl⟩ := h
    obtain ⟨p, rfl, he⟩ := exists_bitVec hp
    rw [hd, hb, hc, he]
    exact ⟨rfl, rfl, rfl⟩
  case h_4 =>
    obtain ⟨rfl, ha, hb, hc, rfl, rfl, rfl⟩ := h
    rw [ha, hb, hc]
    exact ⟨rfl, rfl, rfl⟩
  case h_5 =>
    obtain ⟨hfn, rfl, rfl, hok, fa, hfa, fb, hfb, rfl⟩ := h
    have hf : fn = fa.code + 8 * fb.code + 64 * b2n (decide (fn / 64 % 2 = 1)) := by
      by_cases hs : fn / 64 % 2 = 1 <;> simp [b2n, hs] <;> omega
    exact .of_fnT hf ⟨rfl, mmn_wf hok, rfl⟩
  case h_6 =>
    obtain ⟨rfl, hd, rfl, rfl, rfl⟩ := h
    rw [hd]
    exact ⟨rfl, rfl, rfl⟩
  case h_7 =>
    obtain ⟨hfn, ha, hb, rfl, rfl, ⟨rfl, rfl⟩ | ⟨h0, rfl⟩⟩ := h
    · rw [ha, hb]
      exact ⟨rfl, rfl, rfl⟩
    · rw [ha, hb]
      exact .of_fnT (show fn = 1 by omega) ⟨rfl, rfl, rfl⟩
  case h_8 =>
    obtain ⟨rfl, hd, ha, hb, rfl, rfl, rfl⟩ := h
    rw [hd, ha, hb]
    exact ⟨rfl, rfl, rfl⟩
  case h_9 =>
    obtain ⟨rfl, hc, rfl, rfl, rfl⟩ := h
    rw [hc]
    exact ⟨rfl, rfl, rfl⟩
  case h_10 =>
    obtain ⟨hfn, hc, rfl, himm, hz1, hz2, hz3, hsrc, hend, hpos, f, hf, rfl⟩ := h
    have hfn : fn = b2n (decide (fn % 2 = 1)) + 2 * f.code := by
      by_cases hs : fn % 2 = 1 <;> simp [b2n, hs] <;> omega
    obtain ⟨l, hl, hel⟩ := exists_fin (show fld imm 16 3 < 8 from Nat.mod_lt _ (by decide))
    obtain ⟨sb, hsb, hesb⟩ := exists_fin (show fld imm 20 4 < 16 from Nat.mod_lt _ (by decide))
    obtain ⟨p, hp, hep⟩ := exists_bitVec (show fld imm 8 7 < 2 ^ 7 from Nat.mod_lt _ (by decide))
    obtain ⟨src, hs, hes⟩ := exists_bitVec (show fld imm 0 6 < 2 ^ 6 from Nat.mod_lt _ (by decide))
    have hq : imm = qcvtImm l p src sb := by
      rw [qcvtImm, ← hl, ← hsb, ← hp, ← hs]
      unfold fld at hz1 hz2 hz3 ⊢
      omega
    rw [hs] at hsrc hend
    rw [hp] at hpos
    rw [hel, hesb, hep, hes, hc, hq]
    exact .of_fnT hfn ⟨rfl, by simpa [wfInstr, and_assoc] using ⟨hsrc, hend, hpos⟩, rfl⟩
  case h_11 =>
    split at h <;> simp only [Option.guard_eq_some', exists_const, Option.bind_eq_some_iff, Option.some.injEq, vregOf_eq_some, and_assoc,
      reduceCtorEq] at h
    case h_1 =>
      obtain ⟨hb, hc, rfl, rfl, rfl⟩ := h
      rw [hb, hc]
      exact ⟨rfl, rfl, rfl⟩
    case h_2 =>
      obtain ⟨ha, hb, hc, hk, v, rfl, rfl⟩ := h
      obtain ⟨k, rfl, he⟩ := exists_fin hk
      rw [ha, hb, hc, he]
      exact ⟨rfl, rfl, rfl⟩
    case h_3 =>
      obtain ⟨hd, hb, hc, hk, v, rfl, rfl⟩ := h
      obtain ⟨k, rfl, he⟩ := exists_fin hk
      rw [hd, hb, hc, he]
      exact ⟨rfl, rfl, rfl⟩
  case h_12 =>
    obtain ⟨rfl, hb, hc, rfl, rfl, rfl⟩ := h
    rw [hb, hc]
    exact ⟨rfl, rfl, rfl⟩

/-! ## Words -/

section
variable {w : Nat} (hw : w < 2 ^ 96)
include hw

theorem wordA_fields : wordA (fld w 88 8) (fld w 80 8) (fld w 73 7) (fld w 66 7) (fld w 59 7) (fld w 52 7) (fld w 48 4) (fld w 0 48) = w := by
  unfold wordA fld; omega

theorem wordJ_fields (hz : fld w 80 8 = 0 ∧ fld w 52 7 = 0 ∧ fld w 35 13 = 0) :
    wordJ (fld w 88 8) (fld w 73 7) (fld w 66 7) (fld w 59 7) (fld w 48 4) (fld w 32 3) (fld w 0 32) = w := by
  unfold wordJ fld at *; omega

theorem memWord_fields (hz : fld w 80 8 = 0) :
    memWord (fld w 88 8) (fld w 73 7) (fld w 66 7) (fld w 63 3) (fld w 59 4) (fld w 52 7) (fld w 48 4) (fld w 0 48) = w := by
  unfold memWord fld at *; omega

theorem wordT_fields (hz : fld w 48 7 = 0) :
    wordT (fld w 88 8) (fld w 80 8) (fld w 75 5) (fld w 70 5) (fld w 65 5) (fld w 62 3) (fld w 55 7) (fld w 0 48) = w := by
  unfold wordT fld at *; omega

theorem liWord_fields (ho : fld w 88 8 = 0x20) (hz : fld w 80 8 = 0 ∧ fld w 64 9 = 0) :
    0x20 * 2 ^ 88 + fld w 73 7 * 2 ^ 73 + fld w 0 64 = w := by
  unfold fld at *; omega

theorem decodeNat_stands {i : Instr} (h : decodeNat w = some i) : StandsFor w i := by
  have hlt : ∀ lo len, fld w lo len < 2 ^ len := fun lo len => Nat.mod_lt _ (Nat.two_pow_pos len)
  unfold decodeNat at h
  dsimp only at h
  split at h
  · next ho =>
    simp only [Option.guard_eq_some', exists_const, Option.bind_eq_bind, Option.bind_eq_some_iff, Option.pure_def, Option.some.injEq,
      sregOf_eq_some] at h
    obtain ⟨hz, d, hd, rfl⟩ := h
    obtain ⟨v, hv, he⟩ := exists_bitVec (hlt 0 64)
    have hword := liWord_fields hw ho hz
    rw [hd, hv] at hword
    rw [he, ← hword]
    exact ⟨rfl, rfl, rfl⟩
  · split at h
    · obtain ⟨hz, hs⟩ := decJ_stands (hlt 0 32) h
      rwa [wordJ_fields hw hz] at hs
    · split at h
      · obtain ⟨hz, hs⟩ := decM_stands (hlt 63 3) (hlt 59 4) (hlt 48 4) (hlt 0 48) h
        rwa [memWord_fields hw hz] at hs
      · split at h
        · obtain ⟨hz, hs⟩ := decT_stands (hlt 75 5) (hlt 70 5) (hlt 65 5) (hlt 62 3) (hlt 0 48) h
          rwa [wordT_fields hw hz] at hs
        · have hs := decA_stands (hlt 0 48) h
          rwa [wordA_fields hw] at hs

end
section
open Machine Safety

/-- Operand fields, one of which suits some instruction of each major: scalars, then vectors in the places that ask for them, then a scope,
an order or a size. -/
def sampleTails : List Nat :=
  [wordA 0 0 0 0 0 0 0 0, wordA 0 0 0x20 0x20 0 0 0 0, wordA 0 0 0 0 0x20 0 8 0, wordA 0 0 0 0 0 0 4 0, wordA 0 0 0 0x20 0 0 0 0,
   wordA 0 0 0x20 0 0 0 0 0, wordA 0 0 0x20 0 0x20 0 0 0, wordA 0 0 0x20 0x20 0x20 0 0 0, wordA 0 0 0 0 0 0x1C 0 0,
   wordA 0 0 0 0 0x20 0x20 0 0, wordA 0 0 0 0x20 0x20 0 0 0, wordA 0 0 4 0 0 0 2 0, wordA 0 0 0x1C 0 0 0 0 0, wordA 0 1 0 0 0 0 0 0,
   wordA 0 1 0 0x20 0x20 0x20 0 0, wordA 0 1 0x20 0x20 0 0 0 0, wordA 0 0 0x20 0 7 0 0 0, wordA 0 0 0 0 7 0x20 0 0, wordA 0 0 0x20 0 2 0 0 0]

theorem sampleTails_decode : ∀ op < 256, reservedMajor op = false → ∃ t ∈ sampleTails,
    t < 2 ^ 88 ∧ (decodeNat (op * 2 ^ 88 + t)).isSome = true := by
  decide +kernel
/-- A reserved major is none of those that the formats J, M and T and `li` take. -/
theorem reservedMajor_formatA {op : Nat} (h : reservedMajor op = true) :
    op ≠ 0x20 ∧ ¬(0x22 ≤ op ∧ op ≤ 0x27) ∧ ¬(0x30 ≤ op ∧ op ≤ 0x38) ∧ ¬(0x80 ≤ op ∧ op ≤ 0x8B) := by
  simp only [reservedMajor, Bool.or_eq_true, Bool.and_eq_true, beq_iff_eq, decide_eq_true_eq] at h
  omega

theorem decA_reserved {op : Nat} (h : reservedMajor op = true) (f : FA) : decA op f = none := by
  unfold decA
  split
  case h_124 => rfl
  all_goals exact absurd h (by decide)

theorem decodeNat_reserved {w : Nat} (h : reservedMajor (fld w 88 8) = true) : decodeNat w = none := by
  obtain ⟨hli, hJ, hM, hT⟩ := reservedMajor_formatA h
  unfold decodeNat
  dsimp only
  rw [if_neg hli, if_neg hJ, if_neg hM, if_neg hT, decA_reserved h]

theorem major_toNat (w : BitVec 96) : (w.extractLsb' 88 8).toNat = fld w.toNat 88 8 := by
  rw [BitVec.extractLsb'_toNat, Nat.shiftRight_eq_div_pow]; rfl

/-- Settles O2: what a word decodes to has that word as its code (`decodeNat_stands`, an arm of the decoder at a time), the reserved majors reach
no arm, and every other major has a word among the samples. -/
theorem decodedWords : Obligations.DecodedWords := by
  unfold Obligations.DecodedWords
  refine ⟨fun w i h => ?_, fun w h => ?_, fun op h => ?_⟩
  · obtain ⟨hcode, hwf, hev⟩ := decodeNat_stands w.isLt h
    refine ⟨?_, hwf, hev⟩
    rw [encode, hcode, Option.map_some, BitVec.ofNat_toNat, BitVec.setWidth_eq]
  · rw [major_toNat] at h
    exact decodeNat_reserved h
  · obtain ⟨t, -, ht, hsome⟩ := sampleTails_decode op.toNat op.isLt h
    obtain ⟨i, hi⟩ := Option.isSome_iff_exists.1 hsome
    have hlt : op.toNat * 2 ^ 88 + t < 2 ^ 96 := by have := op.isLt; omega
    refine ⟨BitVec.ofNat 96 (op.toNat * 2 ^ 88 + t), i, BitVec.eq_of_toNat_eq ?_, ?_⟩
    · rw [major_toNat, BitVec.toNat_ofNat, Nat.mod_eq_of_lt hlt]
      have := op.isLt
      unfold fld
      omega
    · rw [decode, BitVec.toNat_ofNat, Nat.mod_eq_of_lt hlt, hi]

end
end Sys2Proof
end

