-- ==== Sys2Proof/Proofs/ScalarResults.lean ====
section
/-!
SUPPORT. A scalar result in the register files (R40, R144), for O10 and for the instructions that push one; the condition codes (O11).
-/
section
namespace Sys2Proof
open Machine Safety

theorem regVal_putReg_self (f : Fib) {d : SReg} (v : Word) (hd : d ≠ .z) : regVal (putReg f d v) d = v := by
  cases d with
  | z => exact absurd rfl hd
  | la k | s k | x k => simp [regVal, putReg]

theorem regVal_putReg_of_ne (f : Fib) {d r : SReg} (v : Word) (h : r ≠ d) : regVal (putReg f d v) r = regVal f r := by
  have hval : ∀ {n : Nat} {a b : Fin n}, a ≠ b → ¬ b.val = a.val := fun hne he => hne (Fin.ext he.symm)
  cases r with
  | z => rfl
  | la k =>
    cases d with
    | la j => simp [regVal, putReg, hval (fun e => h (congrArg SReg.la e))]
    | z | s j | x j => simp [regVal, putReg]
  | s k =>
    cases d with
    | s j => simp [regVal, putReg, hval (fun e => h (congrArg SReg.s e))]
    | z | la j | x j => simp [regVal, putReg]
  | x k =>
    cases d with
    | x j => simp [regVal, putReg, hval (fun e => h (congrArg SReg.x e))]
    | z | la j | s j => simp [regVal, putReg]

theorem pushLa_la (f : Fib) (v : Word) : (pushLa f v).la = (((f.la.set 3 f.la[2]).set 2 f.la[1]).set 1 f.la[0]).set 0 v := by
  unfold pushLa; split <;> rfl

theorem soundReg_cleanReg (f : Fib) (code : Nat) : soundReg (cleanReg f code) code = true := by
  unfold cleanReg
  split
  · next h =>
    obtain ⟨hp, hf⟩ : f.poison = [] ∧ f.flips = [] := by simpa using h
    simp [soundReg, hp, hf]
  · simp [soundReg]

theorem soundReg_putReg (f : Fib) (d : SReg) (v : Word) : soundReg (putReg f d v) (specOf d) = true := by
  have hclean := soundReg_cleanReg f (specOf d)
  cases d <;> exact hclean

theorem cleanReg_frame (f : Fib) (n : Nat) : cleanReg f n = { f with poison := (cleanReg f n).poison, flips := (cleanReg f n).flips } := by
  unfold cleanReg; split <;> rfl

theorem putReg_frame (f : Fib) (d : SReg) (v : Word) : ∃ la s x poison flips, putReg f d v = { f with la, s, x, poison, flips } := by
  have hclean := cleanReg_frame f (specOf d)
  cases d with
  | la k | s k | x k | z => exact ⟨_, _, _, _, _, by rw [putReg, hclean]⟩

theorem pushLa_frame (f : Fib) (v : Word) : ∃ la poison flips, pushLa f v = { f with la, poison, flips } := by
  unfold pushLa; split
  · exact ⟨_, _, _, rfl⟩
  · exact ⟨_, _, _, rfl⟩

/-- A result and a named destination change the scalar registers and their marks of poison and of single-bit errors. -/
theorem result_frame (f : Fib) (d : SReg) (v : Word) : ∃ la s x poison flips, putReg (pushLa f v) d v = { f with la, s, x, poison, flips } := by
  obtain ⟨la, p, fl, hpush⟩ := pushLa_frame f v
  obtain ⟨la', s, x, p', fl', hput⟩ := putReg_frame (pushLa f v) d v
  exact ⟨la', s, x, p', fl', by rw [hput, hpush]⟩

theorem pushLa_clean {f : Fib} (v : Word) (hp : f.poison = []) (hf : f.flips = []) : (pushLa f v).poison = [] ∧ (pushLa f v).flips = [] := by
  simp [pushLa, hp, hf]

theorem putReg_clean {f : Fib} (d : SReg) (v : Word) (hp : f.poison = []) (hf : f.flips = []) :
    (putReg f d v).poison = [] ∧ (putReg f d v).flips = [] := by
  cases d <;> simp [putReg, hp, hf]

/-- Settles O10: the push says what `la` holds, a named register holds the result, and the others are as the push leaves them
(`regVal_putReg_self`, `regVal_putReg_of_ne`). -/
theorem pushAndNamedDestination : Obligations.PushAndNamedDestination := by
  unfold Obligations.PushAndNamedDestination
  intro f d v
  refine ⟨?_, fun h => ?_, fun h => ?_, fun h => ?_, fun h => ?_, fun k h => ?_, fun k h => ?_, rfl, soundReg_putReg _ d v, fun hp hf => ?_, ?_⟩
  · rintro r rfl hr
    exact regVal_putReg_self _ v hr
  · rw [regVal_putReg_of_ne _ v h]; simp [regVal, pushLa_la]
  · rw [regVal_putReg_of_ne _ v h]; simp [regVal, pushLa_la]
  · rw [regVal_putReg_of_ne _ v h]; simp [regVal, pushLa_la]
  · rw [regVal_putReg_of_ne _ v h]; simp [regVal, pushLa_la]
  · rw [regVal_putReg_of_ne _ v h]; simp [regVal]
  · rw [regVal_putReg_of_ne _ v h]; simp [regVal]
  · obtain ⟨hp', hf'⟩ := pushLa_clean v hp hf
    exact putReg_clean d v hp' hf'
  · obtain ⟨la, s, x, p, fl, hg⟩ := result_frame f d v
    rw [hg]

/-- Settles O11, a condition at a time, each by the comparison of bit vectors that the model uses. -/
theorem conditionCodes : Obligations.ConditionCodes := by
  unfold Obligations.ConditionCodes
  refine ⟨fun a b => ⟨⟨.eq, rfl, ?_⟩, ⟨.ne, rfl, ?_⟩, ⟨.lt, rfl, ?_⟩, ⟨.ge, rfl, ?_⟩, ⟨.ltn, rfl, ?_⟩, ⟨.gen, rfl, ?_⟩⟩, fun n h => ?_⟩
  · simp [condHolds, BitVec.toNat_inj]
  · simp [condHolds, BitVec.toNat_inj]
  · simp [condHolds, BitVec.slt]
  · simp [condHolds, BitVec.slt]
  · simp [condHolds, BitVec.ult]
  · simp [condHolds, BitVec.ult]
  · match n, h with
    | n + 6, _ => rfl
end Sys2Proof
end
end

