-- ==== Sys2Proof/Proofs/Issue.lean ====
section
/-!
SUPPORT. From a step to the instruction or the pair that it executes: O4 and O5.
-/
namespace Sys2Proof
open Machine Safety

/-! ## From a step to its instruction -/

/-- A step that issues: the cycles pass, the slot is spaced, and the fibre issues, unless its kernel was killed. -/
theorem step_of_issuesNext {s : State} {c : Nat} {k : Fin 16} (h : issuesNext s c k) :
    step s = afterEvent (if atEnd s c k then .next (named s c k) else issueFib (issuing s c k)) := by
  obtain ⟨hturns, hrun, hpresent, hnext⟩ := h
  rw [step_of_turns_nil hturns, issueCore, if_neg (by simp [hrun, hpresent]), hnext]
  rfl

/-- With nothing before it, the instruction at the pc issues. -/
theorem issueFib_of_calm {u : State} (h : calm u.fib = true) : issueFib u = entryIssue (atIssue u) := by
  simp only [calm, Bool.and_eq_true, beq_iff_eq, Bool.not_eq_true'] at h
  obtain ⟨⟨⟨⟨⟨hdelivery, hentering⟩, -⟩, hdue⟩, hpend⟩, -⟩ := h
  simp [issueFib, hdelivery, hentering, hdue, hpend, atIssue]

theorem entryIssue_of_fetches {t : State} {loc w : Nat} (h : fetches t loc w) : entryIssue t = issueLine t loc w := by
  obtain ⟨hentry, hcode, hline, hdefect, -⟩ := h
  simp [entryIssue, hentry, fetchIssue, hcode, hline, hdefect]

theorem step_issues_line {s t : State} {c : Nat} {k : Fin 16} {loc w : Nat} (h : issuesNext s c k) (hend : atEnd s c k = false)
    (hcalm : calm (issuing s c k).fib = true) (ht : t = atIssue (issuing s c k)) (hf : fetches t loc w) :
    step s = afterEvent (issueLine t loc w) := by
  subst ht
  rw [step_of_issuesNext h, hend, if_neg Bool.false_ne_true, issueFib_of_calm hcalm, entryIssue_of_fetches hf]

/-! ## From its line to its instruction -/

section
variable {t : State} {loc w : Nat} (herr : (getCore t t.focus.1).slots[t.focus.2].fetchErr = false)
  (hgood : parityGood t loc w (instrNo t.fib.pc) = true)
include herr hgood

theorem badInstr_unpaired (hp : pairBit w (instrNo t.fib.pc) = false) : badInstr t loc w = none := by
  simp only [badInstr, herr, hgood, hp, Bool.not_true, Bool.or_false, Bool.false_and, Bool.false_eq_true, if_false]

theorem badInstr_paired (hgood' : parityGood t loc w (instrNo t.fib.pc + 1) = true) : badInstr t loc w = none := by
  simp only [badInstr, herr, hgood, hgood', Bool.not_true, Bool.or_false, Bool.and_false, Bool.false_eq_true, if_false]

theorem issueLine_unpaired {i : Instr} (hp : pairBit w (instrNo t.fib.pc) = false) (hi : decode (instrBits t loc (instrNo t.fib.pc)) = some i) :
    issueLine t loc w = exec i t := by
  simp only [issueLine, badInstr_unpaired herr hgood hp, hi, hp, if_true]

theorem issueLine_noInstr (hp : pairBit w (instrNo t.fib.pc) = false) (hi : decode (instrBits t loc (instrNo t.fib.pc)) = none) :
    issueLine t loc w = .next (trapsWith t 1 0) := by
  simp only [issueLine, badInstr_unpaired herr hgood hp, hi]
  rfl

theorem issueLine_paired {i j : Instr} (hp : pairBit w (instrNo t.fib.pc) = true) (hgood' : parityGood t loc w (instrNo t.fib.pc + 1) = true)
    (hi : decode (instrBits t loc (instrNo t.fib.pc)) = some i) (hj : decode (instrBits t loc (instrNo t.fib.pc + 1)) = some j)
    (hok : pairFault i j = none) : issueLine t loc w = execPair i j t := by
  simp [issueLine, badInstr_paired herr hgood hgood', hi, hp, hj, hok]

end

/-- Settles O4: a step that issues reaches the line at the pc (`step_issues_line`), and a good word outside a pair is executed
(`issueLine_unpaired`). -/
theorem stepRunsDecoded : Obligations.StepRunsDecoded := by
  unfold Obligations.StepRunsDecoded
  constructor
  · intro s t c k loc w i hnext hend hcalm ht hf hp hgood hi
    rw [step_issues_line hnext hend hcalm ht hf]
    obtain ⟨-, -, -, -, herr⟩ := hf
    rw [issueLine_unpaired herr hgood hp hi]
  · intro s c k hnext hend
    rw [step_of_issuesNext hnext, hend, if_pos rfl]

/-! ## Pairs of moves -/

theorem tryOut_ok {m : M Unit} {s t : State} (h : m s = .ok ((), t)) : tryOut m s = .ok ((), s) := by simp only [tryOut, h]

/-- A scalar result in a pair is held for the commit. -/
theorem result_held {s : State} {p : Pairing} {d : SReg} (v : Word) (hp : s.pair = some p) (ha : armedS s.fib d = none) :
    result d v s = .ok ((), { s with pair := some { p with results := p.results ++ [.scalar d v] } }) := by
  rw [result, run_bind_ok (run_get s), if_pos (by simp [hp]), run_bind_ok (tryOut_ok (writeS_plain v ha))]
  simp only [holdResult, hp]

theorem performSeq_held {m : M Unit} {s t : State} {p : Pairing} (h : m s = .ok ((), t)) (hp : t.pair = some p) :
    performSeq m s = .next { t with pair := some { p with flow := .seq } } := by
  have hseq : inSequence m s = .ok (.seq, t) := by rw [inSequence, run_bind_ok h]; rfl
  simp only [performSeq, perform, hseq, hp]

theorem exec_mov_held {s : State} {p : Pairing} {d a : SReg} (hp : s.pair = some p) (ha : plainS s.fib a = true) (hd : openS s.fib d = true) :
    exec (.mov d a) s = .next { s with pair := some { p with results := p.results ++ [.scalar d (regVal s.fib a)], flow := .seq } } := by
  have hd' : armedS s.fib d = none := by simpa [openS] using hd
  have hm : scalar1 id d a s = result d (regVal s.fib a) s := by rw [scalar1, run_bind_ok (rd_of_plain ha), id]
  exact performSeq_held (hm.trans (result_held _ hp hd')) rfl

@[simp] theorem armedS_putReg (f : Fib) (d : SReg) (v : Word) (r : SReg) : armedS (putReg f d v) r = armedS f r := by simp [armedS]

/-- The commit of two scalar results: both are pushed in order, then both named destinations are written (R46). -/
theorem commitResults_two {s : State} {d e : SReg} (x y : Word) (hd : openS s.fib d = true) (he : openS s.fib e = true) :
    commitResults [.scalar d x, .scalar e y] s =
      .ok ((), { s with fib := putReg (putReg (pushLa (pushLa s.fib x) y) d x) e y }) := by
  have hd' : armedS (pushLa (pushLa s.fib x) y) d = none := by simpa [openS] using hd
  have he' : armedS (putReg (pushLa (pushLa s.fib x) y) d x) e = none := by simpa [openS] using he
  have hpush : commitPushes [.scalar d x, .scalar e y] s = .ok ((), { s with fib := pushLa (pushLa s.fib x) y }) := rfl
  rw [commitResults, run_bind_ok hpush, commitNames, run_bind_ok (writeS_plain x hd'), commitNames, run_bind_ok (writeS_plain y he')]
  rfl

/-- Settles O5: a marked pair reaches `execPair` (`issueLine_paired`); two moves each hold their result, having read the registers as they
stand at issue, and the commit pushes both before it writes (`commitResults_two`). -/
theorem pairs : Obligations.Pairs := by
  unfold Obligations.Pairs
  constructor
  · intro s t c k loc w i j hnext hend hcalm ht hf hp hgood hgood' hi hj hok
    rw [step_issues_line hnext hend hcalm ht hf]
    obtain ⟨-, -, -, -, herr⟩ := hf
    rw [issueLine_paired herr hgood hp hgood' hi hj hok]
  · intro s d a e b hpair ha hb hd he
    have hfirst := exec_mov_held (s := { s with pair := some {} }) rfl ha hd
    have hsecond := exec_mov_held (s := { s with pair := some { second := true, results := [.scalar d (regVal s.fib a)] } }) rfl hb he
    have hcommit := commitResults_two (s := { s with pair := none }) (regVal s.fib a) (regVal s.fib b) hd he
    simp only [execPair, hfirst, Option.getD_some, Option.filter_none, Option.isSome_none, Bool.false_eq_true, if_false, List.nil_append]
    rw [hsecond]
    simp only [Option.getD_some, List.cons_append, List.nil_append, commitPair, hcommit, applyFlow, putReg_pc, pushLa_pc, hpair]
end Sys2Proof
end

