-- ==== Sys2Proof/Proofs/Transfers.lean ====
section
/-!
SUPPORT. Control transfers: O15; what traps at issue and at an operand: O7.
-/
namespace Sys2Proof
open Machine Safety

/-! ## What is read of the code does not depend on the context in focus -/

theorem readBytes_setFib (s : State) (f : Fib) (a n : Nat) : readBytes { s with fib := f } a n = readBytes s a n := by
  induction n generalizing a with
  | zero => rfl
  | succ n ih => exact congrArg (byteAt s a :: ·) (ih (a + 1))

theorem swByte_setFib (s : State) (f : Fib) (o : Nat) : swByte { s with fib := f } o = swByte s o := by
  have hfused : fusedOf { s with fib := f } = fusedOf s := rfl
  have hpool : poolByte { s with fib := f } o = poolByte s o := rfl
  have hlink : getLink { s with fib := f } = getLink s := rfl
  have hstart : startByte { s with fib := f } (o - 0x18000000) = startByte s (o - 0x18000000) := rfl
  have hcur : curOf { s with fib := f } (o / 2) = curOf s (o / 2) := rfl
  have hbyte : byteAt { s with fib := f } = byteAt s := rfl
  simp only [swByte, hfused, hpool, hlink, hstart, hcur, hbyte]

theorem homeByte_setFib (s : State) (f : Fib) (a : Nat) : homeByte { s with fib := f } a = homeByte s a := by
  unfold homeByte
  rw [swByte_setFib]
  rfl

theorem seenNat_setFib (s : State) (f : Fib) (g a n : Nat) : seenNat { s with fib := f } g a n = seenNat s g a n := by
  have hports : ∀ (b : Nat) (x : Byte × Bool), seenByte { s with fib := f } g b x = seenByte s g b x := fun _ _ => rfl
  simp only [seenNat, readNat, hports, readBytes_setFib, homeByte_setFib]

theorem lineAt_setFib (s : State) (f : Fib) (g a : Nat) : lineAt { s with fib := f } g a = lineAt s g a := by
  have hgate : lineGate { s with fib := f } a = lineGate s a := rfl
  unfold lineAt
  rw [hgate, seenNat_setFib]

theorem lookupVa_setFib (s : State) (f : Fib) (g : Nat) (n : BitVec 12) (k : Nat) (va : Word) :
    lookupVa { s with fib := f } g n k va = ((lookupVa s g n k va).1, { (lookupVa s g n k va).2 with fib := f }) := by
  have hfind : ∀ t, tlbFind { s with fib := f } t n va = tlbFind s t n va := fun _ => rfl
  unfold lookupVa
  rw [hfind, hfind]
  split
  · split <;> rfl
  · split
    · split <;> rfl
    · rfl

theorem fetchLine_setFib (s : State) (f h : Fib) (g : Nat) (p q : Word) : (fetchLine { s with fib := f } g h p q).1 = (fetchLine s g h p q).1 :=
    by
  have hgrant : granted { s with fib := f } g h p.toNat = granted s g h p.toNat := rfl
  unfold fetchLine
  rw [hgrant, lookupVa_setFib, lineAt_setFib]
  split
  · rfl
  · split
    · rfl
    · split
      · rfl
      · rcases lookupVa s g h.tenant accFetch p with ⟨_ | a, t⟩
        · rfl
        · exact lineAt_setFib t f g a

theorem lookLine_setFib (s : State) (f h : Fib) (g : Nat) (p : Word) : lookLine { s with fib := f } g h p = lookLine s g h p := by
  unfold lookLine
  rw [fetchLine_setFib]
  simp only [seenNat_setFib]
  rfl

theorem enterAt_setRegs (s : State) (a : Word) (strict : Bool) (la : Vector Word 4) (sv : Vector Word 16) (x : Vector Word 64) (p fl : List Nat) :
    enterAt { s with fib := { s.fib with la := la, s := sv, x := x, poison := p, flips := fl } } a strict = enterAt s a strict := by
  unfold enterAt
  rw [lookLine_setFib]
  rfl

theorem enterAt_result (s : State) (a : Word) (strict : Bool) (d : SReg) (v : Word) :
    enterAt { s with fib := putReg (pushLa s.fib v) d v } a strict = enterAt s a strict := by
  obtain ⟨la, sv, x, p, fl, hg⟩ := result_frame s.fib d v
  rw [hg, enterAt_setRegs]

theorem enterAt_of_not_codeOk {s : State} {a : Word} {strict : Bool} (h : codeOk a = false) : enterAt s a strict = .bad 2 false a := by
  simp [enterAt, h]

theorem enterTarget_bad {s : State} {a ta : Word} {c : Nat} {u : Bool} (h : enterAt s a false = .bad c u ta) :
    enterTarget a s = .error (.trap c ta u none) := by simp only [enterTarget, h]

theorem enterTarget_absent {s : State} {a : Word} (h : enterAt s a false = .absent) : enterTarget a s = .error (.leave (.fetch a) none) := by
  simp only [enterTarget, h]

theorem goTo_fine {s : State} {a : Word} (h : enterAt s a false = .fine) : goTo a s = .ok (.jump a, s) := by
  rw [goTo, run_bind_ok (enterTarget_fine h), run_pure]

theorem goTo_bad {s : State} {a ta : Word} {c : Nat} {u : Bool} (h : enterAt s a false = .bad c u ta) :
    goTo a s = .error (.trap c ta u none) := by
  rw [goTo, run_bind_error (enterTarget_bad h)]

theorem goTo_absent {s : State} {a : Word} (h : enterAt s a false = .absent) : goTo a s = .error (.leave (.fetch a) none) := by
  rw [goTo, run_bind_error (enterTarget_absent h)]

theorem perform_leave {m : M Flow} {s : State} {l : Leave} (h : m s = .error (.leave l none)) (hp : s.pair = none) :
    perform m s = .next (applyLeave s l) := by simp [perform, h, hp]

@[simp] theorem run_targetOf (ti : Fin 5) (tl : BitVec 32) (s : State) : targetOf ti tl s = .ok (jumpTarget s ti tl, s) := rfl

theorem run_successor {s : State} (hp : s.pair = none) : successor s = .ok (nextPc s.fib.pc, s) := by simp [successor, hp]

/-! ## Transfers -/

/-- A transfer that ends in `goTo` at a fine target, in the state that it has reached. -/
theorem perform_goTo {m : M Flow} {s u : State} {a : Word} (hm : m s = goTo a u) (h : enterAt u a false = .fine) (hp : u.pair = none) :
    perform m s = .next { u with fib := { u.fib with pc := a } } :=
  perform_ok (hm.trans (goTo_fine h)) hp

/-- The same at an address that is no code address: nothing is written. -/
theorem perform_goTo_noCode {m : M Flow} {s u : State} {a : Word} (hm : m s = goTo a u) (h : codeOk a = false) (hp : s.pair = none) :
    perform m s = .next (trapsWith s 2 a) :=
  perform_trap (hm.trans (goTo_bad (enterAt_of_not_codeOk h))) hp

theorem perform_seq {m : M Flow} {s u : State} (hm : m s = .ok (.seq, u)) (hp : u.pair = none) : perform m s = .next (goOn u) :=
  perform_ok hm hp

/-- `jr` up to its target. -/
theorem jr_reaches {s : State} {d a : SReg} (hp : s.pair = none) (ha : plainS s.fib a = true) (hd : openS s.fib d = true) :
    (do let x ← rd a; let link ← successor; result d link; goTo x : M Flow) s =
      goTo (regVal s.fib a) { s with fib := putReg (pushLa s.fib (nextPc s.fib.pc)) d (nextPc s.fib.pc) } := by
  have hd' : armedS s.fib d = none := by simpa [openS] using hd
  rw [run_bind_ok (rd_of_plain ha), run_bind_ok (run_successor hp), run_bind_ok (result_plain _ hp hd')]

theorem ret_reaches {s : State} {a : SReg} (ha : plainS s.fib a = true) : (do let x ← rd a; goTo x : M Flow) s = goTo (regVal s.fib a) s := by
  rw [run_bind_ok (rd_of_plain ha)]

/-- `loop` up to its choice. -/
theorem loop_reaches {s : State} {d a : SReg} (ti : Fin 5) (tl : BitVec 32) (hp : s.pair = none) (ha : plainS s.fib a = true)
    (hd : openS s.fib d = true) :
    (do let x ← rd a
        let t ← targetOf ti tl
        let n := x - 1
        result d n
        if n ≠ 0 then goTo t else pure .seq : M Flow) s =
      (if regVal s.fib a - 1 ≠ 0 then goTo (jumpTarget s ti tl) else pure .seq)
        { s with fib := putReg (pushLa s.fib (regVal s.fib a - 1)) d (regVal s.fib a - 1) } := by
  have hd' : armedS s.fib d = none := by simpa [openS] using hd
  rw [run_bind_ok (rd_of_plain ha), run_bind_ok (run_targetOf ti tl s)]
  rw [run_bind_ok (result_plain _ hp hd')]

/-- Settles O15: each transfer reaches `goTo` of its target, or goes on, with its result written; what is looked up of the target does not
depend on the registers that the result writes (`enterAt_result`). -/
theorem transfers : Obligations.Transfers := by
  unfold Obligations.Transfers
  refine ⟨fun s ti tl hp h => ?_, fun s ti tl hp h => ?_, fun s ti tl cc a b hp ha hb => ⟨fun hc h => ?_, fun hc => ?_⟩,
    fun s ti tl d hp hd h => ?_,
    fun s a hp ha h => ?_, fun s d a hp ha hd h => ?_,
    fun s ti tl d a hp ha hd => ⟨fun hn h => ?_, fun hone => ?_, fun hno => ⟨?_, ?_⟩⟩⟩
  · exact perform_goTo (run_bind_ok (run_targetOf ti tl s)) h hp
  · exact perform_leave ((run_bind_ok (run_targetOf ti tl s)).trans (goTo_absent h)) hp
  · refine perform_goTo ?_ h hp
    rw [run_bind_ok (rd_of_plain ha), run_bind_ok (rd_of_plain hb), run_bind_ok (run_targetOf ti tl s), if_pos hc]
  · refine perform_seq ?_ hp
    rw [run_bind_ok (rd_of_plain ha), run_bind_ok (rd_of_plain hb), run_bind_ok (run_targetOf ti tl s), if_neg (by simp [hc]), run_pure]
  · have hd' : armedS s.fib d = none := by simpa [openS] using hd
    refine perform_goTo ?_ ((enterAt_result s _ false d (nextPc s.fib.pc)).trans h) hp
    rw [run_bind_ok (run_successor hp), run_bind_ok (run_targetOf ti tl s), run_bind_ok (result_plain _ hp hd')]
  · exact perform_goTo (ret_reaches ha) h hp
  · exact perform_goTo (jr_reaches hp ha hd) ((enterAt_result s _ false d (nextPc s.fib.pc)).trans h) hp
  · have hn' : regVal s.fib a - 1 ≠ 0 := fun e => hn (by bv_omega)
    refine perform_goTo ((loop_reaches ti tl hp ha hd).trans ?_) ((enterAt_result s _ false d _).trans h) hp
    rw [if_pos hn']
  · have hz : regVal s.fib a - 1 = 0 := by rw [hone]; rfl
    have hm := loop_reaches ti tl hp ha hd
    rw [if_neg (not_not_intro hz), hz, run_pure] at hm
    refine (perform_seq hm hp).trans ?_
    simp [goOn, doneS]
  · exact perform_goTo_noCode (ret_reaches ha) hno hp
  · exact perform_goTo_noCode (jr_reaches hp ha hd) hno hp

/-- Settles O7: a good word that decodes to nothing traps where it is issued (`issueLine_noInstr`), and a poisoned register stops the
instruction at its read (`rd_poisoned`), before anything is written. -/
theorem noInstructionAndPoisonTrap : Obligations.NoInstructionAndPoisonTrap := by
  unfold Obligations.NoInstructionAndPoisonTrap
  refine ⟨fun s loc w hp herr hgood hi => issueLine_noInstr herr hgood hp hi, fun s d a b hp ha hpoison => ⟨?_, ?_, ?_⟩⟩
  · exact performSeq_trap (run_bind_error (rd_poisoned ha hpoison)) hp
  · exact performSeq_trap (run_bind_error (rd_poisoned ha hpoison)) hp
  · exact perform_trap (run_bind_error (rd_poisoned ha hpoison)) hp
end Sys2Proof
end

