-- ==== Sys2Proof/Proofs/KernelInstructions.lean ====
section
/-!
SUPPORT. The instructions of a kernel's fibres: O39.
-/
namespace Sys2Proof
open Machine Safety

/-! ## spawn -/

theorem run_needControl {s : State} (h : s.focus.2 = 0) : needControl s = .ok ((), s) := by
  rw [needControl, run_bind_ok (run_theSlot s), if_pos h, run_pure]

theorem run_needControl_elsewhere {s : State} (h : s.focus.2 ≠ 0) : needControl s = .error (.trap 5 0 false none) := by
  rw [needControl, run_bind_ok (run_theSlot s), if_neg h, run_fail]

/-- The least index that a search below a bound finds. -/
theorem leastBelow_eq_some {k n : Nat} {p : Nat → Bool} (h : leastBelow k p = some n) : n < k ∧ p n = true ∧ ∀ i, i < n → p i = false := by
  obtain ⟨hp, i, hi, hn, hbefore⟩ := List.find?_eq_some_iff_getElem.1 h
  simp only [List.getElem_range] at hn hbefore
  subst hn
  refine ⟨by simpa using hi, hp, fun j hj => by simpa using hbefore j hj⟩

theorem freeIndex_eq_some {s : State} {g n : Nat} (h : freeIndex s g = some n) :
    fibreInfo s g n = none ∧ n < 4096 ∧ ∀ i, i < n → (fibreInfo s g i).isSome = true := by
  obtain ⟨hn, hfree, hbefore⟩ := leastBelow_eq_some h
  refine ⟨Option.isNone_iff_eq_none.1 hfree, ?_, fun i hi => ?_⟩
  · split at hn <;> omega
  · have := hbefore i hi
    rw [fibreInfo]
    cases hl : look (getCore s g).fibres i <;> simp_all

theorem spawnOn_index {s u : State} {pc x0 : Word} {n : Nat} (h : spawnOn s pc x0 = some (n, u)) : freeIndex s s.focus.1 = some n := by
  unfold spawnOn at h
  dsimp only at h
  split at h
  · next hn _ => cases h; exact hn
  · cases h

/-- An effect that traps before it changes anything. -/
theorem performSeq_fails {m : M Unit} {s : State} {c : Nat} {a : Word} (h : m s = .error (.trap c a false none)) (hp : s.pair = none) :
    performSeq m s = .next (trapsWith s c a) := performSeq_trap h hp

section
variable {s : State} {d a : SReg} {b : SrcB}

theorem exec_spawn_none (hp : s.pair = none) (hk : s.focus.2 = 0) (ha : plainS s.fib a = true) (hb : plainB s.fib b = true)
    (hd : openS s.fib d = true) (h : spawnOn s (regVal s.fib a) (valB s.fib b) = none) :
    exec (.spawn d a b) s = .next (doneS s d (BitVec.allOnes 64)) := by
  refine done_of_result ?_ hp hd
  rw [run_bind_ok (run_needControl hk), run_bind_ok (rd_of_plain ha), run_bind_ok (rdB_of_plain hb), run_bind_ok (run_get s), h]
  rfl

theorem exec_spawn_some (hk : s.focus.2 = 0) (ha : plainS s.fib a = true) (hb : plainB s.fib b = true) {n : Nat} {u : State}
    (h : spawnOn s (regVal s.fib a) (valB s.fib b) = some (n, u)) (hu : u.pair = none) (hd : openS u.fib d = true) :
    exec (.spawn d a b) s = .next (doneS u d (BitVec.ofNat 64 (s.focus.1 * 4096 + n))) := by
  refine done_of_result ?_ hu hd
  rw [run_bind_ok (run_needControl hk), run_bind_ok (rd_of_plain ha), run_bind_ok (rdB_of_plain hb), run_bind_ok (run_get s), h]
  rfl

/-! ## reap -/

theorem exec_reap_none (hp : s.pair = none) (hk : s.focus.2 = 0) (ha : plainS s.fib a = true) (hd : openS s.fib d = true)
    (h : reapChoice s (regVal s.fib a) = none) : exec (.reap d a) s = .next (doneS s d (BitVec.allOnes 64)) := by
  refine done_of_result ?_ hp hd
  rw [run_bind_ok (run_needControl hk), run_bind_ok (rd_of_plain ha), run_bind_ok (run_get s), h]
  rfl

theorem exec_reap_some (hk : s.focus.2 = 0) (ha : plainS s.fib a = true) {f : Nat} {i : FibreInfo} {hd : Bool} {u : State}
    (h : reapChoice s (regVal s.fib a) = some (f, i)) (hfree : freeFibre s s.focus.1 f false (selfAdder s) = (hd, u)) (hu : u.pair = none)
    (ho : openS u.fib d = true) :
    exec (.reap d a) s = .next (doneS u d (BitVec.ofNat 64 (f + stateCode i.state * 2 ^ 12
      + readNat s (i.loc + 0x5C) 4 / 2 ^ 20 % 256 * 2 ^ 16 + if hd then 2 ^ 24 else 0))) := by
  refine done_of_result ?_ hu ho
  rw [run_bind_ok (run_needControl hk), run_bind_ok (rd_of_plain ha), run_bind_ok (run_get s), h]
  dsimp only
  rw [hfree, run_bind_ok (run_set s u)]
  rfl

end

/-- The eldest entry of a list is one of its entries. -/
theorem eldestWrote_mem (l : List (Nat × FibreInfo)) (r : Nat × FibreInfo) :
    ∀ b, l.foldl (fun b e => match b with
      | none => some e
      | some r => if e.2.wrote < r.2.wrote then some e else some r) b = some r → r ∈ l ∨ b = some r := by
  induction l with
  | nil => exact fun b h => .inr h
  | cons e l ih =>
    intro b h
    rcases ih _ h with hl | hb
    · exact .inl (.tail e hl)
    · cases b with
      | none => cases hb; exact .inl (.head l)
      | some q =>
        dsimp only at hb
        split at hb
        · cases hb; exact .inl (.head l)
        · exact .inr hb

theorem reapChoice_reapable {s : State} {a : Word} {f : Nat} {i : FibreInfo} (h : reapChoice s a = some (f, i)) : reapable s f i = true := by
  have hmem : (f, i) ∈ (getCore s s.focus.1).fibres.filter fun e => reapable s e.1 e.2 := by
    unfold reapChoice at h
    dsimp only at h
    split at h
    · exact (eldestWrote_mem _ _ _ h).resolve_right (by simp)
    · exact List.mem_of_find?_eq_some h
  exact (List.mem_filter.1 hmem).2

theorem reapable_iff {s : State} {f : Nat} {i : FibreInfo} (h : reapable s f i = true) :
    (i.state = .done ∨ i.state = .faulted) ∧ i.kern = myKern s ∧ f ≠ fibIndex s.fib := by
  simp only [reapable, Bool.and_eq_true, Bool.or_eq_true, beq_iff_eq, bne_iff_ne] at h
  obtain ⟨⟨⟨⟨hstate, -⟩, -⟩, hkern⟩, hself⟩ := h
  exact ⟨hstate, hkern, hself⟩

theorem stateCode_reaped {i : FibreInfo} (h : i.state = .done ∨ i.state = .faulted) : stateCode i.state = if i.state = .done then 7 else 6 := by
  rcases h with h | h <;> rw [h] <;> rfl

/-! ## The context of a spawned fibre -/

theorem spawnFib_kern (s : State) (k : Nat) (pc x0 : Word) : let f := spawnFib s (some k) pc x0
    f.pc = pc ∧ f.x[0] = x0 ∧ f.x[1] = s.fib.fibre.zeroExtend 64 ∧ f.seg = s.fib.seg ∧ f.ctx = s.fib.ctx ∧ f.rope = s.fib.rope
      ∧ f.budget.toNat = readNat s (kernLoc k + 0x40) 6 % 2 ^ 48 ∧ f.fdlimit.toNat = readNat s (kernLoc k + 0x3E) 1 % 64 := by
  refine ⟨rfl, ?_, ?_, rfl, rfl, rfl, ?_, ?_⟩
  · simp [spawnFib, launchFib]
  · simp [spawnFib, launchFib]
  · exact BitVec.toNat_ofNat _ 48
  · exact BitVec.toNat_ofNat _ 6

/-! ## khint -/

theorem exec_khint (s : State) : exec .khint s = execKhint s := rfl

theorem exec_khint_none {s : State} (hp : s.pair = none) (h : myKern s = none) : exec .khint s = .next (goOn s) := by
  refine (exec_khint s).trans (done_of_unit ?_ hp)
  rw [run_change, h]

theorem writeBytes_pair (s : State) (a : Nat) (l : List Byte) : (writeBytes s a l).pair = s.pair := by simp

theorem exec_khint_some {s : State} {k : Nat} (hp : s.pair = none) (h : myKern s = some k) :
    exec .khint s = .next (goOn (writeNat s (kernLoc k + 0xA8) 1 (readNat s (kernLoc k + 0xA8) 1 ||| 1))) := by
  refine (exec_khint s).trans (done_of_unit (u := writeNat s _ 1 _) ?_ ((writeBytes_pair s _ _).trans hp))
  rw [run_change, h]

theorem exec_khintMv {s : State} {d : SReg} (hp : s.pair = none) (hd : openS s.fib d = true) :
    exec (.khintMv d) s = .next (doneS s d (if (getCore s s.focus.1).mark.any (fun m => myKern s == some m.1) then 1 else 0)) := by
  refine done_of_result ?_ hp hd
  rw [run_bind_ok (run_get s)]
  cases (getCore s s.focus.1).mark with
  | none => rfl
  | some m => rfl

/-! ## kwaitp -/

theorem inTurn_ok {α : Type} {key : State → TurnKey} {m : M α} {s : State} {r : α × State} (h : m s = .ok r) : inTurn key m s = .ok r := by
  simp only [inTurn, h]

theorem inTurn_trap {α : Type} {key : State → TurnKey} {m : M α} {s : State} {c : Nat} {a : Word} {u : Bool} {keep : Option State}
    (h : m s = .error (.trap c a u keep)) : inTurn key m s = .error (.trap c a u keep) := by simp only [inTurn, h]

theorem inTurn_room {α : Type} {key : State → TurnKey} {m : M α} {s : State} {keep : Option State}
    (h : m s = .error (.leave .room keep)) : inTurn key m s = .error (.leave (.turn (key s) .room) keep) := by simp only [inTurn, h]

theorem inTurn_sleep {α : Type} {key : State → TurnKey} {m : M α} {s : State} {w : Sleep} {e : Option (Nat × Word)} {a : Word}
    {keep : Option State} (h : m s = .error (.leave (.sleep w e a) keep)) : inTurn key m s = .error (.leave (.sleep w e a) keep) := by
  simp only [inTurn, h]

theorem run_takeWake_none {s : State} (h : s.fib.wake = none) : takeWake s = .ok (none, s) := by
  rw [run_takeWake, h]
  congr 2
  rw [← h]

theorem bitsOf_bit (w : Word) (n : Nat) : bitsOf w n 1 = if w.getLsbD n then 1 else 0 := by
  have hbit : w.getLsbD n = decide (w.toNat / 2 ^ n % 2 = 1) := by
    rw [BitVec.getLsbD, Nat.testBit_eq_decide_div_mod_eq]
  rw [bitsOf, hbit]
  have := Nat.mod_lt (w.toNat / 2 ^ n) (show 2 > 0 by decide)
  split <;> simp_all

@[simp] theorem armedS_dropRefills (f : Fib) (r : SReg) : armedS (dropRefills f) r = armedS f r := by
  cases r with
  | s k => simp [armedS, dropRefills, mapVec]
  | la k | z | x k => rfl

theorem acquire_pair (s : State) (g sc : Nat) : (acquire s g sc).pair = s.pair := by
  unfold acquire
  dsimp only
  split <;> rfl

theorem openS_acquire (s : State) (g sc : Nat) (d : SReg) : openS (acquire s g sc).fib d = openS s.fib d := by
  unfold acquire openS
  dsimp only
  split
  · rw [armedS_dropRefills]; rfl
  · rfl

theorem run_drainWord {s : State} {a : Nat} (h : unbuffered s a = true) : drainWord a s = .ok ((), s) := by
  have hc : coveringCount (getCore s s.focus.1).sb a 8 = 0 := by simpa [unbuffered] using h
  rw [drainWord, drainBytes, run_change]
  dsimp only
  rw [hc]
  rfl

/-- A counter instruction comes to the home of its word, or waits on the way there. -/
theorem run_comeToHome_some {s u : State} {a : Nat} (h : atHome s a = some u) : comeToHome a s = .ok ((), u) := by
  unfold atHome at h
  dsimp only at h
  split at h
  · next hok =>
    cases h
    simp only [Bool.and_eq_true, Bool.not_eq_true'] at hok
    obtain ⟨hclear, hahead⟩ := hok
    have hpath : needPath a s = .ok ((), clearPath s s.focus.1 a) := by simp only [needPath, hclear, if_true]
    have hturn : needTurn (.home (homeOf a)) (clearPath s s.focus.1 a) = .ok ((), clearPath s s.focus.1 a) := by
      simp only [needTurn, hahead, Bool.false_eq_true, if_false]
    rw [comeToHome, run_bind_ok hpath, comeAfterOwn, run_bind_ok hturn]
    rfl
  · cases h

theorem run_comeToHome_none {s : State} {a : Nat} (h : atHome s a = none) : comeToHome a s = .error (.leave .room none) := by
  unfold atHome at h
  dsimp only at h
  split at h
  · cases h
  · next hno =>
    by_cases hclear : pathClear (clearPath s s.focus.1 a) s.focus.1 a = true
    · have hahead : othersAhead (clearPath s s.focus.1 a) (clearPath s s.focus.1 a).focus.1 (.home (homeOf a))
          (fibIndex (clearPath s s.focus.1 a).fib) = true := by simpa [hclear] using hno
      have hpath : needPath a s = .ok ((), clearPath s s.focus.1 a) := by simp only [needPath, hclear, if_true]
      have hturn : needTurn (.home (homeOf a)) (clearPath s s.focus.1 a) = .error (.leave .room none) := by
        simp only [needTurn, hahead, if_true]
      rw [comeToHome, run_bind_ok hpath, comeAfterOwn, run_bind_error hturn]
    · have hpath : needPath a s = .error (.leave .room none) := by simp only [needPath, hclear, Bool.false_eq_true, if_false]
      rw [comeToHome, run_bind_error hpath]

theorem done_inTurn {key : State → TurnKey} {m : M Unit} {s u : State} {d : SReg} {v : Word} (hm : m s = result d v u) (hp : u.pair = none)
    (hd : openS u.fib d = true) : performSeq (inTurn key m) s = .next (doneS u d v) := by
  have hd' : armedS u.fib d = none := by simpa [openS] using hd
  refine done_of_result (inTurn_ok (hm.trans (result_plain v hp hd'))|>.trans (result_plain v hp hd').symm) hp hd

theorem performSeq_leave {m : M Unit} {s : State} {l : Leave} {keep : Option State} (h : m s = .error (.leave l keep)) (hp : s.pair = none) :
    performSeq m s = .next (applyLeave (keep.getD s) l) := by
  have hseq : inSequence m s = .error (.leave l keep) := by rw [inSequence, run_bind_error h]
  simp only [performSeq, perform, hseq, hp]

theorem waits_inTurn {key : State → TurnKey} {m : M Unit} {s : State} (h : m s = .error (.leave .room none)) (hp : s.pair = none) :
    performSeq (inTurn key m) s = .next (waitsFor s (key s) .room) := performSeq_leave (inTurn_room h) hp

/-- What `kwaitp` does at the counter a of its kernel's successor (R340), thr being its threshold. -/
def testSuccessor (s : State) (d : SReg) (a : Nat) (thr : Word) : M Unit := do
  drainWord a
  comeToHome a
  if ← isToxicM a then failPoisoned s.fib a (phandOf s)
  else
    let u ← get
    let v := readWord u a
    if reached v thr then
      acquireAt true .mod
      result d v
    else sleepOn s.fib .counter a thr

/-- What runs the same from a state ends the same. -/
theorem performSeq_inTurn_congr {key : State → TurnKey} {m n : M Unit} {s : State} (h : m s = n s) :
    performSeq (inTurn key m) s = performSeq (inTurn key n) s := by
  simp only [performSeq, perform, inSequence, run_bind, inTurn, h]

section
variable {s : State} {d : SReg} {b : SrcB} {a : Nat} (hp : s.pair = none) (hw : s.fib.wake = none) (hb : plainB s.fib b = true)
include hp hw hb

theorem exec_kwaitp_last (hd : openS s.fib d = true) (h : (phandOf s).getLsbD 47 = false) :
    exec (.kwaitp d b) s = .next (doneS (acquire s s.focus.1 4) d 0) := by
  have hbit : bitsOf (phandOf s) 47 1 = 0 := by rw [bitsOf_bit, h]; rfl
  have hacq : acquireAt true .mod s = .ok ((), acquire s s.focus.1 4) := rfl
  refine done_inTurn ?_ ((acquire_pair s _ _).trans hp) ((openS_acquire s _ _ d).trans hd)
  rw [run_bind_ok (run_takeWake_none hw)]
  dsimp only
  rw [run_bind_ok (rdB_of_plain hb), if_pos hbit, run_bind_ok hacq]

theorem exec_kwaitp_noCounter (h : (phandOf s).getLsbD 47 = true) (hc : counterRef s (phandOf s) = none) :
    exec (.kwaitp d b) s = .next (trapsWith s 6 (phandOf s)) := by
  have hbit : ¬ bitsOf (phandOf s) 47 1 = 0 := by rw [bitsOf_bit, h]; decide
  refine performSeq_fails (inTurn_trap ?_) hp
  rw [run_bind_ok (run_takeWake_none hw)]
  dsimp only
  rw [run_bind_ok (rdB_of_plain hb), if_neg hbit, hc]
  rfl

theorem exec_kwaitp_guarded (h : (phandOf s).getLsbD 47 = true) (hc : counterRef s (phandOf s) = some a) (hg : userGuarded s a = true) :
    exec (.kwaitp d b) s = .next (trapsWith s 6 (phandOf s)) := by
  have hbit : ¬ bitsOf (phandOf s) 47 1 = 0 := by rw [bitsOf_bit, h]; decide
  refine performSeq_fails (inTurn_trap ?_) hp
  rw [run_bind_ok (run_takeWake_none hw)]
  dsimp only
  rw [run_bind_ok (rdB_of_plain hb), if_neg hbit, hc]
  dsimp only
  rw [if_pos hg]
  rfl

section
variable (h : (phandOf s).getLsbD 47 = true) (hc : counterRef s (phandOf s) = some a) (hg : userGuarded s a = false) (hu : unbuffered s a = true)
include h hc hg

omit hp in
theorem exec_kwaitp_tests : exec (.kwaitp d b) s = performSeq (inTurn phandKey (testSuccessor s d a (valB s.fib b))) s := by
  have hbit : ¬ bitsOf (phandOf s) 47 1 = 0 := by rw [bitsOf_bit, h]; decide
  refine performSeq_inTurn_congr ?_
  rw [run_bind_ok (run_takeWake_none hw)]
  dsimp only
  rw [run_bind_ok (rdB_of_plain hb), if_neg hbit, hc]
  dsimp only
  rw [if_neg (by simp [hg])]
  rfl

include hu

theorem exec_kwaitp_waits (hhome : atHome s a = none) : exec (.kwaitp d b) s = .next (waitsForRoom s a) := by
  have hkey : phandKey s = .home (homeOf a) := by simp only [phandKey, hc]; rfl
  rw [waitsForRoom, ← hkey, exec_kwaitp_tests hw hb h hc hg]
  refine waits_inTurn ?_ hp
  rw [testSuccessor, run_bind_ok (run_drainWord hu), run_bind_error (run_comeToHome_none hhome)]

section
variable {u : State} (hhome : atHome s a = some u) (ht : isToxic u a = false)
include hhome ht

omit hp in
theorem exec_kwaitp_reached (hpu : u.pair = none) (hd : openS u.fib d = true) (hr : reached (readWord u a) (valB s.fib b) = true) :
    exec (.kwaitp d b) s = .next (doneS (acquire u u.focus.1 4) d (readWord u a)) := by
  have hacq : acquireAt true .mod u = .ok ((), acquire u u.focus.1 4) := rfl
  have htoxic : isToxicM a u = .ok (false, u) := by simp only [isToxicM, ht]
  rw [exec_kwaitp_tests hw hb h hc hg]
  refine done_inTurn ?_ ((acquire_pair u _ _).trans hpu) ((openS_acquire u _ _ d).trans hd)
  rw [testSuccessor, run_bind_ok (run_drainWord hu), run_bind_ok (run_comeToHome_some hhome), run_bind_ok htoxic,
    if_neg Bool.false_ne_true, run_bind_ok (run_get u), if_pos hr, run_bind_ok hacq]

theorem exec_kwaitp_sleeps (hr : reached (readWord u a) (valB s.fib b) = false) :
    exec (.kwaitp d b) s =
      .next (applyLeave { u with fib := s.fib } (.sleep .counter (some (a, valB s.fib b)) (waitWord u.focus.1 a))) := by
  have htoxic : isToxicM a u = .ok (false, u) := by simp only [isToxicM, ht]
  rw [exec_kwaitp_tests hw hb h hc hg]
  refine performSeq_leave (keep := some { u with fib := s.fib }) (inTurn_sleep ?_) hp
  rw [testSuccessor, run_bind_ok (run_drainWord hu), run_bind_ok (run_comeToHome_some hhome), run_bind_ok htoxic,
    if_neg Bool.false_ne_true, run_bind_ok (run_get u), if_neg (by simp [hr])]
  rfl

end
end
end

/-- Settles O39: `spawn` and `reap` outside slot 0 stop at `needControl`; what they answer there comes from the search of a free index and the
choice among the fibres that may be reaped; `kwaitp` is split by what PHAND names and by the test at its counter. -/
theorem kernelInstructions : Obligations.KernelInstructions := by
  unfold Obligations.KernelInstructions
  refine ⟨fun s d a b hp ha hb hd => ⟨fun hk => ⟨?_, ?_⟩, fun hk => ⟨?_, fun n u h hu ho => ⟨?_, ?_⟩, ?_, fun f i hd' u h hfree hu ho => ?_⟩⟩,
    spawnFib_kern, fun s d hp => ⟨exec_khint_none hp, fun k => exec_khint_some hp, exec_khintMv hp⟩,
    fun s d b a hp hw hb hd => ⟨?_, ?_, ?_, fun h hc hg hu => ⟨?_, fun u hhome ht hpu ho => ⟨?_, ?_⟩⟩⟩⟩
  · exact performSeq_fails (run_bind_error (run_needControl_elsewhere hk)) hp
  · exact performSeq_fails (run_bind_error (run_needControl_elsewhere hk)) hp
  · exact exec_spawn_none hp hk ha hb hd
  · exact exec_spawn_some hk ha hb h hu ho
  · exact freeIndex_eq_some (spawnOn_index h)
  · exact exec_reap_none hp hk ha hd
  · obtain ⟨hstate, hkern, hself⟩ := reapable_iff (reapChoice_reapable h)
    refine ⟨?_, hstate, hkern, hself⟩
    rw [← stateCode_reaped hstate]
    exact exec_reap_some hk ha h hfree hu ho
  · exact exec_kwaitp_last hp hw hb hd
  · exact exec_kwaitp_noCounter hp hw hb
  · exact exec_kwaitp_guarded hp hw hb
  · exact exec_kwaitp_waits hp hw hb h hc hg hu
  · exact exec_kwaitp_reached hw hb h hc hg hu hhome ht hpu ho
  · exact exec_kwaitp_sleeps hp hw hb h hc hg hu hhome ht
end Sys2Proof
end

