-- ==== Sys2Proof/Proofs/PathKeepsFocus.lean ====
section
/-!
SUPPORT. What the ports send ahead of an access (R118) lands at its home, at the steward or on a link, and may end fibres and kernels on the
way; it reaches a fibre through its core's slots and records only. The fibre in focus and its place, which the model holds apart from the
cores, stay: one equation per operation that a landing store can lead to.
-/
namespace Sys2Proof
open Machine Safety

/-- The fibre in focus, and its slot. -/
def atFocus (s : State) : Fib × (Nat × Fin 16) := (s.fib, s.focus)

theorem atFocus_eq_iff {s t : State} : atFocus t = atFocus s ↔ t.fib = s.fib ∧ t.focus = s.focus := Prod.mk.injEq .. ▸ Iff.rfl

@[simp] theorem atFocus_record {s : State}
    {pair turns free cores mem poison latent ports accepts rels fused cur clock enrol strag msgs wakes fired tlbs grants moving epoch invs
    lastHandle pools cmds nextCmd tables taken takes evicts guards badBlocks hostFails kerns queues hslots pending doneSeq admitSeq launches
    rises holds links mask64 pend64 msix out mask modid selfHosted life roles welts hwalk nveng cxl swapNs swapBlocks held trained owner
    power images measured sstep cold failed} :
    atFocus ⟨s.fib, s.focus, pair, turns, free, cores, mem, poison, latent, ports, accepts, rels, fused, cur, clock, enrol, strag, msgs, wakes,
      fired, tlbs, grants, moving, epoch, invs, lastHandle, pools, cmds, nextCmd, tables, taken, takes, evicts, guards, badBlocks, hostFails,
      kerns, queues, hslots, pending, doneSeq, admitSeq, launches, rises, holds, links, mask64, pend64, msix, out, mask, modid, selfHosted,
      life, roles, welts, hwalk, nveng, cxl, swapNs, swapBlocks, held, trained, owner, power, images, measured, sstep, cold, failed⟩
      = atFocus s := rfl

@[simp] theorem atFocus_foldl {α : Type} {f : State → α → State} (h : ∀ s a, atFocus (f s a) = atFocus s) (l : List α) (s : State) :
    atFocus (l.foldl f s) = atFocus s := by
  induction l generalizing s with
  | nil => rfl
  | cons a l ih => exact (ih (f s a)).trans (h s a)

@[simp] theorem atFocus_ite {c : Prop} [Decidable c] (s t : State) : atFocus (if c then s else t) = if c then atFocus s else atFocus t :=
  apply_ite atFocus c s t

theorem atFocus_of_home {s t : State} (h : HomeOnly s t) : atFocus t = atFocus s := atFocus_eq_iff.2 ⟨h.fib, h.focus⟩
theorem atFocus_of_links {s t : State} (h : LinksOnly s t) : atFocus t = atFocus s := by rw [h]; rfl

/-! ## Memory, counters and waiters -/

@[simp] theorem atFocus_setByte (s : State) (a : Nat) (v : Byte) : atFocus (setByte s a v) = atFocus s := rfl
@[simp] theorem atFocus_writeBytes (s : State) (a : Nat) (l : List Byte) : atFocus (writeBytes s a l) = atFocus s :=
  atFocus_of_home (writeBytes_home s a l)
@[simp] theorem atFocus_writeNat (s : State) (a n v : Nat) : atFocus (writeNat s a n v) = atFocus s := atFocus_writeBytes s a _
@[simp] theorem atFocus_writeWord (s : State) (a : Nat) (v : Word) : atFocus (writeWord s a v) = atFocus s := atFocus_writeBytes s a _
@[simp] theorem atFocus_bumpDie (s : State) (d off n : Nat) : atFocus (bumpDie s d off n) = atFocus s := atFocus_writeBytes s _ _
@[simp] theorem atFocus_bumpIo (s : State) (i off n : Nat) : atFocus (bumpIo s i off n) = atFocus s := atFocus_writeBytes s _ _
@[simp] theorem atFocus_setToxic (s : State) (a : Nat) : atFocus (setToxic s a) = atFocus s := atFocus_of_home (setToxic_home s a)
@[simp] theorem atFocus_storeBytes (s : State) (a : Nat) (l : List Byte) : atFocus (storeBytes s a l) = atFocus s :=
  atFocus_of_home (storeBytes_home s a l)
@[simp] theorem atFocus_correctRead (s : State) (a n : Nat) : atFocus (correctRead s a n) = atFocus s :=
  atFocus_of_home (correctRead_home s a n)
@[simp] theorem atFocus_poisonEvent (s : State) (a : Nat) : atFocus (poisonEvent s a) = atFocus s := atFocus_of_home (poisonEvent_home s a)
@[simp] theorem atFocus_addAt (s : State) (a : Nat) (v : Word) (w : Adder) : atFocus (addAt s a v w) = atFocus s :=
  atFocus_of_home (addAt_home s a v w)
@[simp] theorem atFocus_storeAt (s : State) (a : Nat) (l : List Byte) (w : Adder) : atFocus (storeAt s a l w) = atFocus s :=
  atFocus_of_home (storeAt_home s a l w)
@[simp] theorem atFocus_enrolWaiter (s : State) (w : Waiter) (a : Nat) (v : Word) : atFocus (enrolWaiter s w a v) = atFocus s :=
  atFocus_of_home (enrolWaiter_home s w a v)
@[simp] theorem atFocus_removeWaiter (s : State) (w : Waiter) : atFocus (removeWaiter s w) = atFocus s := rfl
@[simp] theorem atFocus_fireIrq (s : State) (v : Nat) (x : Word) : atFocus (fireIrq s v x) = atFocus s := atFocus_of_home (fireIrq_home s v x)

@[simp] theorem atFocus_freshBytes (s : State) (n : Nat) : atFocus (freshBytes s n).2 = atFocus s := by
  induction n generalizing s with
  | zero => rfl
  | succ n ih => exact ih _

@[simp] theorem atFocus_readCounter (s : State) (a : Nat) : atFocus (readCounter s a).2 = atFocus s := by
  unfold readCounter; dsimp only; split <;> simp

theorem atFocus_of_readCounter {s t : State} {a : Nat} {v : Option Word} (h : readCounter s a = (v, t)) : atFocus t = atFocus s :=
  (congrArg (fun r => atFocus r.2) h).symm.trans (atFocus_readCounter s a)

@[simp] theorem atFocus_leftToxic (s : State) (w : Nat) : atFocus (leftToxic s w) = atFocus s := by
  unfold leftToxic; split <;> simp

@[simp] theorem atFocus_poisonRange (s : State) (a n : Nat) : atFocus (poisonRange s a n) = atFocus s := by
  unfold poisonRange; dsimp only; split <;> simp

/-! ## A core's fibres -/

@[simp] theorem atFocus_setCore (s : State) (g : Nat) (c : Core) : atFocus (setCore s g c) = atFocus s := rfl
@[simp] theorem atFocus_setFibreInfo (s : State) (g f : Nat) (i : FibreInfo) : atFocus (setFibreInfo s g f i) = atFocus s := rfl
@[simp] theorem atFocus_writeState (s : State) (loc st : Nat) : atFocus (writeState s loc st) = atFocus s := atFocus_writeNat s _ _ _
@[simp] theorem atFocus_writeWoken (s : State) (loc : Nat) (w : Bool) : atFocus (writeWoken s loc w) = atFocus s := atFocus_writeNat s _ _ _
@[simp] theorem atFocus_writeRecord (s : State) (c : Core) (f : Fib) (loc st : Nat) : atFocus (writeRecord s c f loc st) = atFocus s := by
  unfold writeRecord; simp

@[simp] theorem atFocus_enlist (s : State) (g f : Nat) : atFocus (enlist s g f) = atFocus s := by
  unfold enlist; split
  · rfl
  · dsimp only; split <;> simp

@[simp] theorem atFocus_refillReady (s : State) (g : Nat) : atFocus (refillReady s g) = atFocus s := by
  unfold refillReady; dsimp only; split
  · split
    · split <;> simp
    · rfl
  · rfl

@[simp] theorem atFocus_unbind (s : State) (g : Nat) (k : Fin 16) (st : FState) : atFocus (unbind s g k st) = atFocus s := by
  unfold unbind; dsimp only; split <;> simp

@[simp] theorem atFocus_endFibre (s : State) (g f : Nat) : atFocus (endFibre s g f) = atFocus s := by
  unfold endFibre; split <;> simp

/-! ## Holds, handles and frames -/

@[simp] theorem atFocus_releaseAll (who : Adder) (b n : Nat) (l : List Nat) (s : State) : atFocus (releaseAll who b n l s) = atFocus s := by
  induction n generalizing l s with
  | zero => rfl
  | succ n ih =>
    cases l with
    | nil => rfl
    | cons x xs => unfold releaseAll; dsimp only; split <;> simp [ih]

@[simp] theorem atFocus_releaseStack (s : State) (b fp : Nat) (who : Adder) : atFocus (releaseStack s b fp who) = atFocus s :=
  atFocus_foldl (fun t _ => atFocus_releaseAll who b _ _ t) _ s

@[simp] theorem atFocus_freeHandle (s : State) (n : Nat) : atFocus (freeHandle s n) = atFocus s := by unfold freeHandle; simp
@[simp] theorem atFocus_pushFrame (s : State) (tier : Fin 4) (big : Bool) (loc : Nat) : atFocus (pushFrame s tier big loc) = atFocus s := rfl

@[simp] theorem atFocus_freeFibre (s : State) (g f : Nat) (keep : Bool) (who : Adder) :
    atFocus (freeFibre s g f keep who).2 = atFocus s := by
  unfold freeFibre
  split
  · rfl
  · extract_lets s0 s0' _ _ r _ _ r2 s1 s2 s3 s4
    have hr : atFocus r.2 = atFocus s := by
      unfold r; split
      · exact atFocus_releaseStack ..
      · rfl
    have hs2 : atFocus s2 = atFocus s := by simpa [s2, s1, r2] using hr
    have hs3 : atFocus s3 = atFocus s := by simp [s3, hs2]
    have hs4 : atFocus s4 = atFocus s := by unfold s4; split <;> simp [hs3]
    exact (atFocus_refillReady s4 g).trans hs4

@[simp] theorem atFocus_freeEnded (s : State) (g f : Nat) : atFocus (freeEnded s g f) = atFocus s := by
  unfold freeEnded; simp

@[simp] theorem atFocus_stopFibre (s : State) (g f : Nat) : atFocus (stopFibre s g f) = atFocus s := by
  unfold stopFibre; split
  · split <;> simp
  · split <;> simp

/-! ## A kernel that ends -/

@[simp] theorem atFocus_setKern (s : State) (a : Kern) : atFocus (setKern s a) = atFocus s := rfl
@[simp] theorem atFocus_setKernState (s : State) (k v : Nat) : atFocus (setKernState s k v) = atFocus s := atFocus_writeNat s _ _ _
@[simp] theorem atFocus_takeSlots (s : State) (a : Kern) (g : Nat) : atFocus (takeSlots s a g) = atFocus s := rfl
@[simp] theorem atFocus_leaveCore (s : State) (a : Kern) (g : Nat) : atFocus (leaveCore s a g) = atFocus s := rfl
@[simp] theorem atFocus_dropGate (s : State) (k : Nat) : atFocus (dropGate s k) = atFocus s := rfl
@[simp] theorem atFocus_endProxy (s : State) (g : Nat) (p : Proxy) : atFocus (endProxy s g p) = atFocus s := by unfold endProxy; simp
@[simp] theorem atFocus_endProxies (s : State) (k g : Nat) : atFocus (endProxies s k g) = atFocus s := by unfold endProxies; simp
@[simp] theorem atFocus_stopOn (s : State) (k g : Nat) : atFocus (stopOn s k g) = atFocus s := by unfold stopOn; simp
@[simp] theorem atFocus_freeAllOn (s : State) (k g : Nat) : atFocus (freeAllOn s k g) = atFocus s := by unfold freeAllOn; simp

@[simp] theorem atFocus_addRef (s : State) (r : Nat) (inc : Word) (who : Adder) : atFocus (addRef s r inc who) = atFocus s := by
  unfold addRef; split
  · split <;> simp
  · rfl

@[simp] theorem atFocus_refuseKernel (s : State) (k : Nat) : atFocus (refuseKernel s k) = atFocus s := by
  unfold refuseKernel; dsimp only; split <;> simp

@[simp] theorem atFocus_returnRecord (k : Nat) (s : State) (g : Nat) : atFocus (returnRecord k s g) = atFocus s := by
  unfold returnRecord; split <;> simp

/-- On a core that is left with one kernel, that kernel takes the slots (R317). -/
theorem atFocus_takenByOne (t : State) (g : Nat) :
    atFocus (match (getCore t g).kernels with
      | [j] => match kernOf t j with
          | some y => takeSlots t y g
          | none => t
      | _ => t) = atFocus t := by
  split
  · split <;> simp
  · rfl

@[simp] theorem atFocus_releaseCores (s : State) (x : Kern) : atFocus (releaseCores s x) = atFocus s := by
  unfold releaseCores; dsimp only
  rw [atFocus_record]
  refine (atFocus_foldl atFocus_takenByOne _ _).trans ?_
  simp

@[simp] theorem atFocus_completeKernel (s : State) (x : Kern) (killed : Bool) : atFocus (completeKernel s x killed) = atFocus s := by
  unfold completeKernel; simp

@[simp] theorem atFocus_killKernel (s : State) (k : Nat) : atFocus (killKernel s k) = atFocus s := by
  unfold killKernel; split
  · rfl
  · dsimp only; split
    · simp
    · split
      · split <;> simp
      · rfl

/-! ## The steward's registers and ports -/

@[simp] theorem atFocus_setQState (s : State) (q v : Nat) : atFocus (setQState s q v) = atFocus s := atFocus_writeNat s _ _ _
@[simp] theorem atFocus_setQueue (s : State) (a : Queue) : atFocus (setQueue s a) = atFocus s := rfl

@[simp] theorem atFocus_watchNotify (s : State) (q : Nat) : atFocus (watchNotify s q) = atFocus s := by
  unfold watchNotify; split
  · rfl
  · split
    · next h => simp [atFocus_of_readCounter h]
    · next h => simp [atFocus_of_readCounter h]

@[simp] theorem atFocus_seenAtOpen (s : State) (q : Nat) : atFocus (seenAtOpen s q).2 = atFocus s := by
  unfold seenAtOpen; split
  · rfl
  · split
    · next h => simp [atFocus_of_readCounter h]
    · next h => simp [atFocus_of_readCounter h]

@[simp] theorem atFocus_startIrq (s : State) (v : Nat) : atFocus (startIrq s v) = atFocus s := by
  unfold startIrq; dsimp only; split
  · rfl
  · split
    · next h => simp [atFocus_of_readCounter h]
    · next h => simp [atFocus_of_readCounter h]

@[simp] theorem atFocus_openQueue (s : State) (q : Word) : atFocus (openQueue s q) = atFocus s := by
  unfold openQueue; dsimp only; split <;> simp

@[simp] theorem atFocus_closeQueue (s : State) (q : Word) : atFocus (closeQueue s q) = atFocus s := by
  unfold closeQueue; dsimp only; split
  · rfl
  · split
    · simp
    · split <;> simp

@[simp] theorem atFocus_setLink (s : State) (l : Link) : atFocus (setLink s l) = atFocus s := rfl

@[simp] theorem atFocus_levtAdd (s : State) (id : LinkId) : atFocus (levtAdd s id) = atFocus s := by
  unfold levtAdd; split <;> simp

@[simp] theorem atFocus_changeLink (s : State) (l : Link) (st : BitVec 3) : atFocus (changeLink s l st) = atFocus s := by
  unfold changeLink; simp
@[simp] theorem atFocus_dropLink (s : State) (l : Link) (st : BitVec 3) : atFocus (dropLink s l st) = atFocus s := by
  unfold dropLink; simp
@[simp] theorem atFocus_ctlStore (s : State) (id : LinkId) (v : Nat) : atFocus (ctlStore s id v) = atFocus s := by
  unfold ctlStore; simp
@[simp] theorem atFocus_signReport (s : State) : atFocus (signReport s) = atFocus s := atFocus_writeBytes s _ _

@[simp] theorem atFocus_restartStore (s : State) (v : Word) : atFocus (restartStore s v) = atFocus s := by
  unfold restartStore; simp [trigger]

@[simp] theorem atFocus_speedWrite (s : State) (g : Nat) (code : Byte) : atFocus (speedWrite s g code) = atFocus s := by
  unfold speedWrite; simp

@[simp] theorem atFocus_beginRelease (s : State) (g sc : Nat) (loc : Option Nat) (inc : Word) (who : Adder) (ends : Bool) :
    atFocus (beginRelease s g sc loc inc who ends) = atFocus s := by
  unfold beginRelease closeEntries; dsimp only; split <;> rfl

@[simp] theorem atFocus_wakeStore (s : State) (g : Nat) (inc : Word) (who : Adder) : atFocus (wakeStore s g inc who) = atFocus s := by
  unfold wakeStore; split
  · split <;> simp
  · rfl

@[simp] theorem atFocus_refuseStore (s : State) (g : Nat) (v : Word) : atFocus (refuseStore s g v) = atFocus s := by
  unfold refuseStore; simp

@[simp] theorem atFocus_killStore (s : State) (k : Word) : atFocus (killStore s k) = atFocus s := by
  unfold killStore; split <;> simp

@[simp] theorem atFocus_portStore (s : State) (o : Nat) (v : Word) (who : Adder) : atFocus (portStore s o v who) = atFocus s := by
  unfold portStore; simp

@[simp] theorem atFocus_swStoreByte (s : State) (o : Nat) (b : Byte) : atFocus (swStoreByte s o b) = atFocus s := by
  unfold swStoreByte; split <;> simp

@[simp] theorem atFocus_swStoreBytes (s : State) (o : Nat) (l : List Byte) : atFocus (swStoreBytes s o l) = atFocus s := by
  induction l generalizing s o with
  | nil => rfl
  | cons x xs ih => exact (ih _ _).trans (atFocus_swStoreByte s o x)

@[simp] theorem atFocus_swStore (s : State) (o : Nat) (l : List Byte) (who : Adder) (act : Bool) :
    atFocus (swStore s o l who act) = atFocus s := by
  unfold swStore; split <;> simp

/-! ## Requests that land, and the ports that push them -/

theorem atFocus_of_landStore {s t : State} {a : Nat} {l : List Byte} {who : Adder} {act : Bool} (h : landStore s a l who act = some t) :
    atFocus t = atFocus s := by
  unfold landStore at h
  split at h
  · cases h
  · split at h
    · cases h; simp
    · split at h
      · cases h; simp
      · split at h
        · exact atFocus_of_links (sendWelt_links h)
        · cases h; simp
  · cases h; exact atFocus_bumpIo ..

theorem atFocus_of_spoil {s t : State} {a n : Nat} (h : spoil s a n = some t) : atFocus t = atFocus s := by
  unfold spoil at h
  split at h
  · cases h; simp
  · split at h
    · exact atFocus_of_links (sendWrites_links h)
    · cases h; simp

theorem atFocus_of_landReq {s t : State} {q : PortReq} (h : landReq s q = some t) : atFocus t = atFocus s := by
  unfold landReq at h
  split at h
  · split at h
    · cases h
    · exact atFocus_of_spoil h
    · cases h; exact atFocus_bumpIo ..
  · exact atFocus_of_landStore h

@[simp] theorem atFocus_forwardClu (s : State) (cl : Nat) : atFocus (forwardClu s cl) = atFocus s := by
  unfold forwardClu landSpad; split <;> simp

theorem atFocus_of_forwardDie {s t : State} {d : Nat} (h : forwardDie s d = some t) : atFocus t = atFocus s := by
  unfold forwardDie at h
  split at h
  · exact (atFocus_of_landReq h).trans atFocus_record
  · cases h

@[simp] theorem atFocus_pushClu (p : PortReq → Bool) (n : Nat) (s : State) (cl : Nat) : atFocus (pushClu p n s cl) = atFocus s := by
  induction n generalizing s with
  | zero => rfl
  | succ n ih => unfold pushClu; split <;> simp [ih]

@[simp] theorem atFocus_pushDie (p : PortReq → Bool) (n : Nat) (s : State) (d : Nat) : atFocus (pushDie p n s d) = atFocus s := by
  induction n generalizing s with
  | zero => rfl
  | succ n ih =>
    unfold pushDie
    split
    · split
      · next h => exact (ih _).trans (atFocus_of_forwardDie h)
      · rfl
    · rfl

theorem atFocus_clearPath (s : State) (g a : Nat) : atFocus (clearPath s g a) = atFocus s := by
  unfold clearPath pushReqs; simp

@[simp] theorem clearPath_fib (s : State) (g a : Nat) : (clearPath s g a).fib = s.fib := (atFocus_eq_iff.1 (atFocus_clearPath s g a)).1
@[simp] theorem clearPath_focus (s : State) (g a : Nat) : (clearPath s g a).focus = s.focus := (atFocus_eq_iff.1 (atFocus_clearPath s g a)).2

end Sys2Proof
end

