-- ==== Sys2Proof/Proofs/SlotEvents.lean ====
section
/-!
SUPPORT. The events of a slot (O48), one lemma per case of an event's function, and the parity refetch, for which the line that comes in
leaves the fibre in focus as it is.
-/
namespace Sys2Proof
open Machine Safety

/-- A slot's event names the slot by its number. -/
theorem ofNat_slot (k : Fin 16) : Fin.ofNat 16 k.val = k := Fin.ofNat_val_eq_self k

theorem missOut_iff {s : State} {g : Nat} {k : Fin 16} :
    missOut s g k = true ↔ ∃ m ∈ (getCore s g).mailbox, m.rq = 0 ∧ m.who = fibIndex (getCtx s g k) := by
  simp [missOut]

section
variable {s : State} {g : Nat} {k : Fin 16}

theorem busySlot_iff : busySlot s g k = true ↔ cycOf s g < (getCore s g).slots[k].busy := decide_eq_true_iff
theorem busySlot_eq_false (h : (getCore s g).slots[k].busy ≤ cycOf s g) : busySlot s g k = false := decide_eq_false (Nat.not_lt.2 h)

/-! ## Arrivals -/

/-- An empty slot, or one whose translation is still in the mailbox, gets no reply. -/
theorem unbound_or_missOut
    (h : ¬ (getCore s g).slots[k].bound = true ∨ ∃ m ∈ (getCore s g).mailbox, m.rq = 0 ∧ m.who = fibIndex (getCtx s g k)) :
    slotBound s g k = false ∨ missOut s g k = true :=
  h.imp Bool.eq_false_iff.2 missOut_iff.2

theorem bringLine_of_line {loc w : Nat} {t : State}
    (h : fetchLine s g (getCtx s g k) (lineOf ((getCtx s g k).want.getD (getCtx s g k).pc)) ((getCtx s g k).want.getD (getCtx s g k).pc)
      = (.line loc w, t)) :
    bringLine s g k = if pathClear (clearPath t g loc) g loc then
      rejoin (addLine (clearPath t g loc) g (getCtx s g k).tenant (lineOf ((getCtx s g k).want.getD (getCtx s g k).pc)) loc) g k else s := by
  simp only [bringLine, h]

theorem bringLine_of_miss {m : Miss} {t u : State}
    (h : fetchLine s g (getCtx s g k) (lineOf ((getCtx s g k).want.getD (getCtx s g k).pc)) ((getCtx s g k).want.getD (getCtx s g k).pc)
      = (.miss m, t)) (hu : postMiss t g m = some u) :
    bringLine s g k = setCtx u g k { getCtx s g k with status := .waiting .fetch } := by
  simp only [bringLine, h, hu]

theorem lineArrives_of_lacking (hb : slotBound s g k = true)
    (h : ((getCtx s g k).status = .waiting .fetch ∧ ¬ missOut s g k = true)
      ∨ ((getCtx s g k).status = .run ∧ lineReady s g (getCtx s g k) = false)) : lineArrives s g k = bringLine s g k := by
  obtain ⟨hst, hm⟩ | ⟨hst, hl⟩ := h
  · simp [lineArrives, hb, hst, hm]
  · simp [lineArrives, hb, hst, hl]

theorem lineArrives_of_ready (hst : (getCtx s g k).status = .run) (hl : lineReady s g (getCtx s g k) = true) : lineArrives s g k = s := by
  simp [lineArrives, hst, hl]

theorem lineArrives_of_held (h : slotBound s g k = false ∨ missOut s g k = true) (hst : (getCtx s g k).status = .waiting .fetch) :
    lineArrives s g k = s := by
  obtain hb | hm := h
  · simp [lineArrives, hb]
  · simp [lineArrives, hst, hm]

theorem replyArrives_rejoins (hb : slotBound s g k = true)
    (h : (getCtx s g k).status = .waiting .room ∨ ((getCtx s g k).status = .waiting .miss ∧ ¬ missOut s g k = true)) :
    replyArrives s g k = rejoin s g k := by
  obtain hst | ⟨hst, hm⟩ := h
  · simp [replyArrives, hb, hst]
  · simp [replyArrives, hb, hst, hm]

theorem replyArrives_publish {sc : Nat} {b : Bound} (hb : slotBound s g k = true) (hst : (getCtx s g k).status = .waiting (.publish sc b)) :
    replyArrives s g k = if publishDone (pushPublish s g sc b) g sc b then rejoin (pushPublish s g sc b) g k else pushPublish s g sc b := by
  simp [replyArrives, hb, hst]

theorem replyArrives_of_held (h : slotBound s g k = false ∨ missOut s g k = true) (hst : (getCtx s g k).status = .waiting .miss) :
    replyArrives s g k = s := by
  obtain hb | hm := h
  · simp [replyArrives, hb]
  · simp [replyArrives, hst, hm]

/-! ## The scheduler -/

/-- The eldest fibre is the first of the ready list that the slot admits. -/
theorem eldest_eq_some {f : Nat} {a b : List Nat} (h : (getCore s g).ready = a ++ f :: b) (hf : mayBind s g k f = true)
    (ha : ∀ e ∈ a, mayBind s g k e = false) : eldest s g k = some f := by
  have hnone : a.find? (fun e => mayBind s g k e) = none := List.find?_eq_none.2 fun e he => by simp [ha e he]
  rw [eldest, h, List.find?_append, hnone, Option.none_or, List.find?_cons_of_pos hf]

theorem bindEvent_bound (hb : slotBound s g k = true) : bindEvent s g k = s := by simp [bindEvent, hb]

theorem bindEvent_eldest {f : Nat} (hb : slotBound s g k = false) (hp : present s g = true) (he : eldest s g k = some f)
    (hc : recordClean s g f = true) : bindEvent s g k = atSlot (bindFibre s g k f) g k rereadStreams := by
  simp [bindEvent, hb, hp, he, bindReady, bindOrFault, hc]

theorem eldest_isSome_iff : (eldest s g k).isSome = true ↔ ∃ f ∈ (getCore s g).ready, mayBind s g k f = true := by
  rw [eldest, List.find?_isSome]

theorem swapOut_of_sleeping {w : Sleep} {since : Nat} (hb : slotBound s g k = true) (hst : (getCtx s g k).status = .sleeping w since) :
    swapOut s g k = if cycOf s g ≥ since + 16384 ∧ (eldest s g k).isSome = true then takeOff s g k .swapped else s := by
  simp only [swapOut, hb, Bool.true_eq_false, if_false, hst]

theorem not_due_or_no_other {since : Nat} (h : cycOf s g < since + 16384 ∨ ∀ f ∈ (getCore s g).ready, mayBind s g k f = false) :
    ¬ (cycOf s g ≥ since + 16384 ∧ (eldest s g k).isSome = true) := by
  rintro ⟨hs, he⟩
  obtain hs' | hnone := h
  · exact Nat.not_lt.2 hs hs'
  · obtain ⟨e, hmem, hmay⟩ := eldest_isSome_iff.1 he
    exact Bool.eq_false_iff.1 (hnone e hmem) hmay

/-- The arbiter has taken the slot of a fibre. -/
theorem taken_iff : ¬ (slotBound s g k = false ∨ (getCore s g).slots[k].taker.isNone = true)
    ↔ slotBound s g k = true ∧ (getCore s g).slots[k].taker ≠ none := by
  rw [not_or, Bool.not_eq_false, Option.isNone_iff_eq_none]

theorem preempt_of_sleeping {w : Sleep} {since : Nat} (hb : slotBound s g k = true) (ht : (getCore s g).slots[k].taker ≠ none)
    (hst : (getCtx s g k).status = .sleeping w since) : preempt s g k = takeOff s g k .swapped := by
  simp only [preempt, if_neg (taken_iff.2 ⟨hb, ht⟩), hst]

theorem preempt_of_run (hb : slotBound s g k = true) (ht : (getCore s g).slots[k].taker ≠ none) (hst : (getCtx s g k).status = .run)
    (hbt : betweenInstrs (getCtx s g k) = true) (hl : lineReady s g (getCtx s g k) = true) (hbusy : (getCore s g).slots[k].busy ≤ cycOf s g) :
    preempt s g k = takeOff s g k .ready := by
  have hu : unfinished s g k = false := by
    simp only [unfinished, hst, hbt, hl, busySlot_eq_false hbusy]; rfl
  simp only [preempt, if_neg (taken_iff.2 ⟨hb, ht⟩), hst, hu, Bool.false_eq_true, if_false]

theorem preempt_of_held (h : (getCore s g).slots[k].taker = none ∨ (∃ w, (getCtx s g k).status = .waiting w)
      ∨ ((getCtx s g k).status = .run ∧ (betweenInstrs (getCtx s g k) = false ∨ lineReady s g (getCtx s g k) = false
        ∨ cycOf s g < (getCore s g).slots[k].busy))) : preempt s g k = s := by
  obtain ht | ⟨w, hst⟩ | ⟨hst, hrun⟩ := h
  · exact if_pos (.inr (Option.isNone_iff_eq_none.2 ht))
  · simp [preempt, hst]
  · have hu : unfinished s g k = true := by
      obtain h | h | h := hrun
      · simp [unfinished, hst, h]
      · simp [unfinished, hst, h]
      · simp [unfinished, busySlot_iff.2 h]
    simp [preempt, hst, hu]

/-! ## A record written -/

/-- The record of fibre f is written, STATE last (R59). -/
def recorded (s : State) (g f : Nat) (i : FibreInfo) : State :=
  setFibreInfo (writeState s i.loc 5) g f { i with writing := false, state := .swapped, call := none }

/-- A record that is being written is that of a fibre that was ready or swapped. -/
theorem recordDue_iff {i : FibreInfo} : ¬ (i.writing = false ∨ (i.state ≠ .ready ∧ i.state ≠ .swapped))
    ↔ i.writing = true ∧ (i.state = .ready ∨ i.state = .swapped) := by
  rw [not_or, Bool.not_eq_false, not_and_or, not_ne_iff, not_ne_iff]

section
variable {f : Nat} {i : FibreInfo} (hi : fibreInfo s g f = some i)
include hi

theorem recordWritten_of_not_writing (hw : i.writing = false) : recordWritten s g f = s := by
  simp [recordWritten, hi, hw]

variable (hw : i.writing = true) (hst : i.state = .ready ∨ i.state = .swapped)
include hw hst

/-- A call goes to its service entry once the record is whole. -/
theorem recordWritten_calls {n : Word} (hc : i.call = some n) :
    recordWritten s g f = (postService (recorded s g f i) g f (BitVec.ofNat 12 (readNat s (i.loc + 0x58) 4)) n).getD s := by
  simp only [recordWritten, hi, if_neg (recordDue_iff.2 ⟨hw, hst⟩), hc]; rfl

theorem recordWritten_enlists (hc : i.call = none) (h : i.state = .ready ∨ i.wake ≠ none) :
    recordWritten s g f = enlist (recorded s g f i) g f := by
  have h' : i.state = .ready ∨ i.wake.isSome = true := h.imp_right Option.isSome_iff_ne_none.2
  simp only [recordWritten, hi, if_neg (recordDue_iff.2 ⟨hw, hst⟩), hc, if_pos h']; rfl

theorem recordWritten_rests (hc : i.call = none) (hr : i.state ≠ .ready) (hk : i.wake = none) :
    recordWritten s g f = recorded s g f i := by
  have h' : ¬ (i.state = .ready ∨ i.wake.isSome = true) := by simp [hr, hk]
  simp only [recordWritten, hi, if_neg (recordDue_iff.2 ⟨hw, hst⟩), hc, if_neg h']; rfl

end

/-! ## Traps before the next instruction -/

theorem issuesAnew_of_not_yet (hst : (getCtx s g k).status = .run) (h : lineReady s g (getCtx s g k) = false
      ∨ cycOf s g < (getCore s g).slots[k].busy ∨ betweenInstrs (getCtx s g k) = false) : issuesAnew s g k = false := by
  have hd : drainEnds (getCtx s g k) = false := by simp [drainEnds, hst]
  obtain h | h | h := h
  · simp [issuesAnew, hd, h]
  · simp [issuesAnew, hd, busySlot_iff.2 h]
  · simp [issuesAnew, h]

theorem issuesAnew_of_reaching (hb : slotBound s g k = true) (h : ((getCtx s g k).status = .run ∧ lineReady s g (getCtx s g k) = true
      ∧ (getCore s g).slots[k].busy ≤ cycOf s g) ∨ drainEnds (getCtx s g k) = true) (hbt : betweenInstrs (getCtx s g k) = true) :
    issuesAnew s g k = true := by
  obtain ⟨hst, hl, hbusy⟩ | hd := h
  · simp [issuesAnew, hb, hst, hl, hbt, busySlot_eq_false hbusy]
  · simp [issuesAnew, hb, hd, hbt]

theorem deliverPend_of_pend {t : State} {a : Word} (h : t.fib.pend = some a) (hc : t.fib.tcause = 0) :
    deliverPend t = trapsWith { t with fib := { t.fib with pend := none } } 0x0F a := by
  simp only [deliverPend, h, if_pos hc]; rfl

/-! ## The parity refetch -/

section
variable {t : State} {loc w : Nat}

theorem badInstr_first (hbad : parityGood t loc w (instrNo t.fib.pc) = false) : badInstr t loc w = some t.fib.pc := by
  simp [badInstr, hbad]

theorem badInstr_second (herr : (getCore t t.focus.1).slots[t.focus.2].fetchErr = false)
    (hgood : parityGood t loc w (instrNo t.fib.pc) = true) (hp : pairBit w (instrNo t.fib.pc) = true)
    (hbad : parityGood t loc w (instrNo t.fib.pc + 1) = false) : badInstr t loc w = some (nextPc t.fib.pc) := by
  simp only [badInstr, herr, hgood, hp, hbad, Bool.not_true, Bool.or_false, Bool.false_eq_true, if_false, Bool.not_false, Bool.and_true, if_true]

end

theorem setFocus_focus (s : State) (g : Nat) (k : Fin 16) : (setFocus s g k).focus = (g, k) := by
  unfold setFocus; split
  · next h => exact h
  · rfl

theorem atSlot_congr {f h : State → State} (e : f (setFocus s g k) = h (setFocus s g k)) : atSlot s g k f = atSlot s g k h :=
  congrArg (fun u => setFocus u s.focus.1 s.focus.2) e

theorem exec_parityRefetch_bound (hb : slotBound s g k = true) : exec (.parityRefetch g k.val) s = .next (atSlot s g k refetched) := by
  change execParityRefetch g k.val s = _
  rw [execParityRefetch, ofNat_slot, if_pos hb]

/-- The line at loc comes in for the fibre in focus, behind what the ports on its path hold. -/
def withLine (t : State) (g loc : Nat) : State := addLine (clearPath t g loc) g t.fib.tenant (lineOf t.fib.pc) loc

theorem atFocus_addLine (t : State) (g : Nat) (n : BitVec 12) (p : Word) (loc : Nat) : atFocus (addLine t g n p loc) = atFocus t := by
  unfold addLine; simp
theorem atFocus_withLine (t : State) (g loc : Nat) : atFocus (withLine t g loc) = atFocus t :=
  (atFocus_addLine ..).trans (atFocus_clearPath t g loc)
theorem withLine_fib (t : State) (g loc : Nat) : (withLine t g loc).fib = t.fib := (atFocus_eq_iff.1 (atFocus_withLine t g loc)).1
theorem withLine_focus (t : State) (g loc : Nat) : (withLine t g loc).focus = t.focus := (atFocus_eq_iff.1 (atFocus_withLine t g loc)).2

section
variable {t u : State} {loc w : Nat} (hfoc : t.focus = (g, k)) (hst : t.fib.status = .waiting .refetch)
  (hf : fetchLine t g t.fib (lineOf t.fib.pc) t.fib.pc = (.line loc w, u))
include hfoc hst hf

theorem refetched_of_line : refetched t = if !pathClear (clearPath t g loc) g loc then t else
    match badInstr (withLine t g loc) loc w with
    | none => rejoin { withLine t g loc with fib := { (withLine t g loc).fib with failed := false } } g k
    | some a => failTwice (withLine t g loc) a := by
  have hf' : (fetchLine t g t.fib (lineOf t.fib.pc) t.fib.pc).1 = .line loc w := congrArg Prod.fst hf
  simp only [refetched, hst, ne_eq, not_true_eq_false, if_false, hfoc, hf']
  rfl

theorem refetched_of_held (hc : pathClear (clearPath t g loc) g loc = false) : refetched t = t := by
  simp [refetched_of_line hfoc hst hf, hc]

variable (hc : pathClear (clearPath t g loc) g loc = true)
include hc

theorem refetched_of_good (h : badInstr (withLine t g loc) loc w = none) : refetched t =
    { withLine t g loc with fib := { (withLine t g loc).fib with status := .run, want := none, failed := false } } := by
  have hfoc' : (withLine t g loc).focus = (g, k) := (withLine_focus t g loc).trans hfoc
  simp [refetched_of_line hfoc hst hf, hc, h, rejoin, setCtx, getCtx, hfoc']

/-- A second failure is counted, and traps with 0x04 at the instruction whose parity is bad. -/
theorem refetched_of_bad (herr : (getCore (withLine t g loc) g).slots[k].fetchErr = false) {a : Word}
    (h : badInstr (withLine t g loc) loc w = some a) : refetched t = trapsWith (bumpDie (withLine t g loc) (dieOf g) 0x28 1) 4 a := by
  have hfoc' : (withLine t g loc).focus = (g, k) := (withLine_focus t g loc).trans hfoc
  have hset : setFetchErr (withLine t g loc) g k false = withLine t g loc := by simp only [setFetchErr, herr, if_true]
  have hpc : (bumpDie (withLine t g loc) (dieOf g) 0x28 1).fib = (withLine t g loc).fib := (bumpDie_home ..).fib
  simp only [refetched_of_line hfoc hst hf, hc, h, failTwice, hfoc', hset, trapsWith, hpc]
  rfl

end

end

/-! ## The statement -/

theorem exec_fetchLineArrival (s : State) (g : Nat) (k : Fin 16) : exec (.fetchLineArrival g k.val) s = .next (lineArrives s g k) :=
  congrArg (fun j => Host.Outcome.next (lineArrives s g j)) (ofNat_slot k)
theorem exec_replyCompletion (s : State) (g : Nat) (k : Fin 16) : exec (.replyCompletion g k.val) s = .next (replyArrives s g k) :=
  congrArg (fun j => Host.Outcome.next (replyArrives s g j)) (ofNat_slot k)
theorem exec_fibreBind (s : State) (g : Nat) (k : Fin 16) : exec (.fibreBind g k.val) s = .next (bindEvent s g k) :=
  congrArg (fun j => Host.Outcome.next (bindEvent s g j)) (ofNat_slot k)
theorem exec_swapThreshold (s : State) (g : Nat) (k : Fin 16) : exec (.swapThreshold g k.val) s = .next (swapOut s g k) :=
  congrArg (fun j => Host.Outcome.next (swapOut s g j)) (ofNat_slot k)
theorem exec_preEmption (s : State) (g : Nat) (k : Fin 16) : exec (.preEmption g k.val) s = .next (preempt s g k) :=
  congrArg (fun j => Host.Outcome.next (preempt s g j)) (ofNat_slot k)

theorem exec_budgetOverrun (s : State) (g : Nat) (k : Fin 16) : exec (.budgetOverrun g k.val) s
    = .next (if issuesAnew s g k && (getCtx s g k).due then
        atSlot s g k fun t => trapsWith { t with fib := { t.fib with due := false } } 0x0E 0 else s) := by
  change execBudgetOverrun g k.val s = _
  rw [execBudgetOverrun, ofNat_slot]; rfl

theorem exec_engineTrapDelivery (s : State) (g : Nat) (k : Fin 16) : exec (.engineTrapDelivery g k.val) s
    = .next (if issuesAnew s g k && !(getCtx s g k).due then atSlot s g k deliverPend else s) := by
  change execEngineTrapDelivery g k.val s = _
  rw [execEngineTrapDelivery, ofNat_slot]

theorem exec_recordWriteComplete (s : State) (g f : Nat) : exec (.recordWriteComplete g f) s = .next (recordWritten s g f) := rfl

/-- Settles O48: each clause is one case of an event's function; for the refetch, what the ports send ahead leaves the fibre in focus
(`clearPath_fib`, `clearPath_focus`). -/
theorem slotEvents : Obligations.SlotEvents := by
  unfold Obligations.SlotEvents
  constructor
  · intro s g f k x on asked back wanted
    refine ⟨?_, ?_, ?_, ?_, ?_, ?_, ?_, ?_, ?_, ?_, ?_, ?_, ?_, ?_⟩
    · intro hb h
      have hbrings : lineArrives s g k = bringLine s g k := lineArrives_of_lacking hb (h.imp_left (And.imp_right (mt missOut_iff.1)))
      rw [exec_fetchLineArrival, hbrings]
      constructor
      · intro loc w t hf
        rw [bringLine_of_line hf]
        exact ⟨fun hc => by rw [if_pos hc]; rfl, fun hc => by rw [hc]; rfl⟩
      · intro m t u hf hu
        rw [bringLine_of_miss hf hu]
    · intro _ hst hl
      rw [exec_fetchLineArrival, lineArrives_of_ready hst hl]
    · intro hb h
      rw [exec_replyCompletion, replyArrives_rejoins hb (h.imp_right (And.imp_right (mt missOut_iff.1)))]; rfl
    · intro sc b hb hst t
      rw [exec_replyCompletion, replyArrives_publish hb hst]; rfl
    · intro h hst
      rw [exec_fetchLineArrival, lineArrives_of_held (unbound_or_missOut h) hst]
    · intro h hst
      rw [exec_replyCompletion, replyArrives_of_held (unbound_or_missOut h) hst]
    · intro hb
      rw [exec_fibreBind, bindEvent_bound hb]
    · intro a b hb hp hr hf ha hc
      rw [exec_fibreBind, bindEvent_eldest (Bool.eq_false_iff.2 hb) hp (eldest_eq_some hr hf ha) hc]
    · intro w since hb hst
      rw [exec_swapThreshold, exec_preEmption]
      refine ⟨fun he hs => ?_, fun h => ?_, fun ht => ?_⟩
      · rw [swapOut_of_sleeping hb hst, if_pos ⟨hs, eldest_isSome_iff.2 he⟩]
      · rw [swapOut_of_sleeping hb hst, if_neg (not_due_or_no_other h)]
      · rw [preempt_of_sleeping hb ht hst]
    · intro hb hst ht hbt hl hbusy
      rw [exec_preEmption, preempt_of_run hb ht hst hbt hl hbusy]
    · intro h
      rw [exec_preEmption, preempt_of_held h]
    · intro i hi
      rw [exec_recordWriteComplete]
      refine ⟨fun hw => ?_, fun hw hst => ⟨fun n hn => ?_, fun hn h => ?_, fun hn hr hk => ?_⟩⟩
      · rw [recordWritten_of_not_writing hi hw]
      · rw [recordWritten_calls hi hw hst hn]; rfl
      · rw [recordWritten_enlists hi hw hst hn h]; rfl
      · rw [recordWritten_rests hi hw hst hn hr hk]; rfl
    · intro hst h
      rw [exec_budgetOverrun, exec_engineTrapDelivery, issuesAnew_of_not_yet hst h]
      exact ⟨rfl, rfl⟩
    · intro hb h _ hbt
      rw [exec_budgetOverrun, exec_engineTrapDelivery, issuesAnew_of_reaching hb h hbt]
      refine ⟨fun hd => ?_, fun hd => ⟨?_, fun a ha hc => ?_⟩⟩
      · rw [hd]; rfl
      · rw [hd]; rfl
      · rw [hd]
        exact congrArg _ (atSlot_congr (deliverPend_of_pend ha hc))
  · intro s t loc w u g k i brought v ht hb hst hf
    have hfoc : t.focus = (g, k) := ht ▸ setFocus_focus s g k
    have hfib : (withLine t g loc).fib = t.fib := withLine_fib t g loc
    have hexec {h : State → State} (e : refetched t = h t) : exec (.parityRefetch g k.val) s = .next (atSlot s g k h) := by
      rw [exec_parityRefetch_bound hb]
      exact congrArg _ (atSlot_congr (ht ▸ e))
    refine ⟨fun hc => hexec (refetched_of_held hfoc hst hf hc), fun hc herr => ?_⟩
    have hfoc' : (withLine t g loc).focus = (g, k) := (withLine_focus t g loc).trans hfoc
    have herr' : (getCore (withLine t g loc) (withLine t g loc).focus.1).slots[(withLine t g loc).focus.2].fetchErr = false := by
      simp only [hfoc']; exact herr
    have hi : instrNo (withLine t g loc).fib.pc = i := by rw [hfib]
    have traps {a : Word} (ha : badInstr (withLine t g loc) loc w = some a) :
        refetched t = trapsWith (bumpDie (withLine t g loc) (dieOf g) 0x28 1) 4 a := refetched_of_bad hfoc hst hf hc herr ha
    refine ⟨fun hgood hpair => hexec (refetched_of_good hfoc hst hf hc ?_), fun hbad => hexec (traps ?_),
      fun hgood hp hbad => hexec (traps ?_)⟩
    · cases hp : pairBit w i with
      | false => exact badInstr_unpaired herr' (hi ▸ hgood) (hi ▸ hp)
      | true => exact badInstr_paired herr' (hi ▸ hgood) (hi ▸ hpair hp)
    · rw [badInstr_first (hi ▸ hbad), hfib]
    · rw [badInstr_second herr' (hi ▸ hgood) (hi ▸ hp) (hi ▸ hbad), hfib]

end Sys2Proof
end

