-- ==== Sys2Proof/Proofs/InstructionWords.lean ====
section
/-!
SUPPORT. The word of an instruction from its encoding: the words that the spec writes out (O3), and the opcode and function code under which an
instruction of format A stands (R33).
-/
namespace Sys2Proof
open Machine Safety

/-- A word stands for the instruction that it encodes. -/
theorem decode_of_encode {w : BitVec 96} {i : Instr} (he : encode i = some w) (hwf : wfInstr i = true) (hev : isEvent i = false) :
    decode w = some i := by
  have hround := decodeOfEncode
  unfold Obligations.DecodeOfEncode at hround
  simpa [he] using hround i hwf hev

/-- Settles O3: each word is the encoding of its instruction (`decode_of_encode`), and the last two have reserved majors. -/
theorem wordsOfTheSpec : Obligations.WordsOfTheSpec := by
  unfold Obligations.WordsOfTheSpec
  exact ⟨decode_of_encode rfl rfl rfl, decode_of_encode rfl rfl rfl, decode_of_encode rfl rfl rfl, decode_of_encode rfl rfl rfl,
    decode_of_encode rfl rfl rfl, decode_of_encode rfl rfl rfl, decode_of_encode rfl rfl rfl, decode_of_encode rfl rfl rfl,
    decode_of_encode rfl rfl rfl, decode_of_encode rfl rfl rfl, decodeNat_reserved rfl, decodeNat_reserved rfl⟩

/-! ## Opcodes and function codes -/

theorem minor_toNat (w : BitVec 96) : (w.extractLsb' 80 8).toNat = fld w.toNat 80 8 := by
  rw [BitVec.extractLsb'_toNat, Nat.shiftRight_eq_div_pow]; rfl

section
variable {i : Instr} {op fn : Nat}

theorem standsUnder_wordA {d a b c mod imm : Nat} (he : encodeNat i = some (wordA op fn d a b c mod imm)) (h0 : op < 2 ^ 8)
    (h1 : fn < 2 ^ 8) (h2 : d < 2 ^ 7) (h3 : a < 2 ^ 7) (h4 : b < 2 ^ 7) (h5 : c < 2 ^ 7) (h6 : mod < 2 ^ 4) (h7 : imm < 2 ^ 48) :
    standsUnder i op fn := by
  have hlt : wordA op fn d a b c mod imm < 2 ^ 96 := by unfold wordA; omega
  refine ⟨BitVec.ofNat 96 (wordA op fn d a b c mod imm), by rw [encode, he, Option.map_some], ?_, ?_⟩
  · rw [major_toNat, BitVec.toNat_ofNat, Nat.mod_eq_of_lt hlt, opcode_wordA h0 h1 h2 h3 h4 h5 h6 h7]
  · rw [minor_toNat, BitVec.toNat_ofNat, Nat.mod_eq_of_lt hlt]
    exact congrArg FA.fn (fieldsA_wordA h1 h2 h3 h4 h5 h6 h7)

theorem standsUnder_wDab {d a : SReg} {b : SrcB} (he : encodeNat i = some (wDab op fn d a b)) (h0 : op < 2 ^ 8) (h1 : fn < 2 ^ 8) :
    standsUnder i op fn :=
  standsUnder_wordA he h0 h1 d.code_lt a.code_lt b.code_lt (by decide) (by decide) b.bits_lt

end

end Sys2Proof
end

