-- ==== Sys2Proof/Proofs/ScalarInstructions.lean ====
section
/-!
SUPPORT. The scalar instructions: how one with ordinary operands completes, and the value of each function in the terms of its rule (R68 to
R70, R72, R73): O12 and O13.
-/
namespace Sys2Proof
open Machine Safety

/-! ## Completing with ordinary operands -/

section
variable {s : State} {d a c : SReg} {b : SrcB} (hp : s.pair = none) (ha : plainS s.fib a = true) (hb : plainB s.fib b = true)
  (hc : plainS s.fib c = true) (hd : openS s.fib d = true)

include hp ha hd in
theorem performSeq_scalar1 (f : Word → Word) {v : Word} (hv : f (regVal s.fib a) = v) : performSeq (scalar1 f d a) s = .next (doneS s d v) := by
  refine done_of_result ?_ hp hd
  rw [scalar1, run_bind_ok (rd_of_plain ha), hv]

include hp ha hb hd in
theorem performSeq_scalar2 (f : Word → Word → Word) {v : Word} (hv : f (regVal s.fib a) (valB s.fib b) = v) :
    performSeq (scalar2 f d a b) s = .next (doneS s d v) := by
  refine done_of_result ?_ hp hd
  rw [scalar2, run_bind_ok (rd_of_plain ha), run_bind_ok (rdB_of_plain hb), hv]

include hp ha hb hc hd in
theorem performSeq_scalar3 (f : Word → Word → Word → Word) {v : Word} (hv : f (regVal s.fib a) (valB s.fib b) (regVal s.fib c) = v) :
    performSeq (scalar3 f d a b c) s = .next (doneS s d v) := by
  refine done_of_result ?_ hp hd
  rw [scalar3, run_bind_ok (rd_of_plain ha), run_bind_ok (rdB_of_plain hb), run_bind_ok (rd_of_plain hc), hv]

end

/-! ## Arithmetic (R68, R72) -/

theorem sub_eq_ofInt (x y : Word) : x - y = BitVec.ofInt 64 ((x.toNat : Int) - y.toNat) := by
  have hx := x.isLt
  have hy := y.isLt
  apply BitVec.eq_of_toNat_eq
  rw [BitVec.toNat_sub, BitVec.toNat_ofInt]
  omega

theorem mulhWord_eq (x y : Word) : mulhWord x y = BitVec.ofInt 64 (Int.fdiv (x.toInt * y.toInt) (2 ^ 64)) := by
  rw [mulhWord, wrap64, Int.fdiv_eq_ediv_of_nonneg _ (by decide)]

theorem scaled_sum_eq (x y z : Word) (k : Nat) : x + y + w64 (z.toNat * 2 ^ k) = BitVec.ofNat 64 (x.toNat + y.toNat + z.toNat * 2 ^ k) := by
  rw [w64, BitVec.ofNat_add, BitVec.ofNat_add, BitVec.ofNat_toNat, BitVec.ofNat_toNat]
  simp

/-! ## Counting bits (R68) -/

/-- How many numbers from 0 on have a property: the first that has it not, or all below the bound. -/
theorem length_takeWhile_range {p : Nat → Bool} {m n : Nat} (hle : n ≤ m) (hbelow : ∀ k < n, p k = true) (hat : n < m → p n = false) :
    ((List.range m).takeWhile p).length = n := by
  obtain ⟨j, rfl⟩ := Nat.exists_eq_add_of_le hle
  rw [List.range_add, List.takeWhile_append_of_pos (by simpa using hbelow)]
  cases j with
  | zero => simp
  | succ j => simp [List.range_succ_eq_map, hat (by omega)]

theorem clzWord_eq (x : Word) : clzWord x = BitVec.ofNat 64 ((List.range 64).takeWhile fun k => !x.getLsbD (63 - k)).length := by
  by_cases hx : x = 0
  · subst hx
    rw [length_takeWhile_range (n := 64) (by omega) (by simp) (by omega)]
    rfl
  · have hx' : x.toNat ≠ 0 := fun h => hx (BitVec.eq_of_toNat_eq h)
    have hlog : x.toNat.log2 < 64 := (Nat.log2_lt hx').2 x.isLt
    rw [length_takeWhile_range (n := 63 - x.toNat.log2) (by omega) (fun k hk => ?_) (fun _ => ?_), clzWord, if_neg hx, w64]
    · have hhigh : x.toNat < 2 ^ (63 - k) := (Nat.log2_lt hx').1 (by omega)
      simp [BitVec.getLsbD, Nat.testBit_lt_two_pow hhigh]
    · rw [show 63 - (63 - x.toNat.log2) = x.toNat.log2 by omega]
      simp [BitVec.getLsbD, Nat.testBit_log2 hx']

theorem leastBelow_getD (k : Nat) (p : Nat → Bool) : (leastBelow k p).getD k = ((List.range k).takeWhile fun i => !p i).length := by
  cases h : leastBelow k p with
  | none =>
    have hnone : ∀ i < k, p i = false := by simpa [leastBelow] using h
    exact (length_takeWhile_range (Nat.le_refl k) (fun i hi => by simp [hnone i hi]) (fun hlt => absurd hlt (lt_irrefl k))).symm
  | some n =>
    obtain ⟨hn, hat, hbelow⟩ := leastBelow_eq_some h
    exact (length_takeWhile_range (Nat.le_of_lt hn) (fun i hi => by simp [hbelow i hi]) (fun _ => by simp [hat])).symm

theorem ctzWord_eq (x : Word) : ctzWord x = BitVec.ofNat 64 ((List.range 64).takeWhile fun k => !x.getLsbD k).length := by
  rw [ctzWord, leastBelow_getD, w64]

theorem popcWord_eq (x : Word) : popcWord x = BitVec.ofNat 64 ((List.range 64).filter fun k => x.getLsbD k).length := by
  rw [popcWord, List.countP_eq_length_filter, w64]

/-- Settles O12: each instruction reads its operands and completes with its function's value (`performSeq_scalar1` to
`performSeq_scalar3`), which is the one that R68 or R72 gives. -/
theorem scalarInstructions : Obligations.ScalarInstructions := by
  unfold Obligations.ScalarInstructions
  refine ⟨fun s d a b hp ha hb hd => ?_, fun s d a hp ha hd => ?_, fun s d a c b cc k hp ha hb hc hd => ?_, fun s d imm hp hd => ?_⟩
  · have completes {f : Word → Word → Word} {v : Word} := performSeq_scalar2 (v := v) hp ha hb hd f
    exact ⟨completes (BitVec.add_def ..), completes (sub_eq_ofInt ..), completes (BitVec.mul_def ..), completes (mulhWord_eq ..),
      completes rfl, completes rfl, completes rfl, completes rfl, completes rfl, completes rfl, completes rfl, completes rfl, completes rfl⟩
  · have completes {f : Word → Word} {v : Word} := performSeq_scalar1 (v := v) hp ha hd f
    exact ⟨completes (clzWord_eq _), completes (ctzWord_eq _), completes (popcWord_eq _), completes rfl⟩
  · exact ⟨performSeq_scalar3 hp ha hb hc hd _ rfl, performSeq_scalar2 hp ha hb hd _ rfl,
      performSeq_scalar3 hp ha hb hc hd _ (scaled_sum_eq ..)⟩
  · exact done_of_result rfl hp hd

/-! ## Division (R69) -/

/-- The quotient of -2^63 by -1 is 2^63, which is -2^63 modulo 2^64. -/
theorem divWord_eq (x y : Word) : divWord x y = if y = 0 then 0 else if x.toInt = -2 ^ 63 ∧ y.toInt = -1 then BitVec.ofInt 64 (-2 ^ 63)
    else BitVec.ofInt 64 (Int.tdiv x.toInt y.toInt) := by
  by_cases hover : x.toInt = -2 ^ 63 ∧ y.toInt = -1
  · rw [if_pos hover, divWord, hover.1, hover.2]
    rfl
  · rw [if_neg hover]
    rfl

theorem remWord_eq (x y : Word) : remWord x y = if y = 0 then x else if x.toInt = -2 ^ 63 ∧ y.toInt = -1 then 0
    else BitVec.ofInt 64 (x.toInt - y.toInt * Int.tdiv x.toInt y.toInt) := by
  by_cases hover : x.toInt = -2 ^ 63 ∧ y.toInt = -1
  · rw [if_pos hover, remWord, hover.1, hover.2]
    rfl
  · rw [if_neg hover]
    rfl

theorem divnWord_eq (x y : Word) : divnWord x y = if y = 0 then 0 else BitVec.ofNat 64 (x.toNat / y.toNat) := by
  split
  · next h => subst h; simp [divnWord, w64]
  · rfl

theorem remnWord_eq (x y : Word) : remnWord x y = if y = 0 then x else BitVec.ofNat 64 (x.toNat - y.toNat * (x.toNat / y.toNat)) := by
  split
  · next h => subst h; simp [remnWord, w64]
  · rw [remnWord, Nat.mod_eq_sub_mul_div]; rfl

/-! ## Shifts and rotation (R70) -/

theorem w64_mul_two_pow (x : Word) (n : Nat) : w64 (x.toNat * 2 ^ n) = x <<< n := by
  apply BitVec.eq_of_toNat_eq
  rw [w64, BitVec.toNat_ofNat, BitVec.toNat_shiftLeft, Nat.shiftLeft_eq]

theorem w64_div_two_pow (x : Word) (n : Nat) : w64 (x.toNat / 2 ^ n) = x >>> n := by
  apply BitVec.eq_of_toNat_eq
  rw [w64, BitVec.toNat_ofNat, BitVec.toNat_ushiftRight, Nat.shiftRight_eq_div_pow,
    Nat.mod_eq_of_lt (Nat.lt_of_le_of_lt (Nat.div_le_self ..) x.isLt)]

theorem shlWord_eq (x y : Word) : shlWord x y = if y.toNat ≥ 64 then 0 else x <<< y.toNat := by
  rw [shlWord, w64_mul_two_pow]

theorem shrWord_eq (x y : Word) : shrWord x y = if y.toNat ≥ 64 then 0 else x >>> y.toNat := by
  rw [shrWord, w64_div_two_pow]

theorem sarWord_eq (x y : Word) : sarWord x y = BitVec.sshiftRight x (Nat.min y.toNat 63) := by
  rw [sarWord, BitVec.sshiftRight, Int.shiftRight_eq_div_pow]
  rfl

/-- The two parts that a rotation brings together have no bit in common, so that their sum is the rotation. -/
theorem rolWord_eq (x y : Word) : rolWord x y = BitVec.rotateLeft x (y.toNat % 64) := by
  have hn : y.toNat % 64 < 64 := Nat.mod_lt _ (by decide)
  have hdisjoint : x <<< (y.toNat % 64) &&& x >>> (64 - y.toNat % 64) = 0#64 := by
    ext i hi
    simp only [BitVec.getElem_and, BitVec.getElem_shiftLeft, BitVec.getElem_ushiftRight, BitVec.getElem_zero]
    by_cases h : i < y.toNat % 64
    · simp [h]
    · simp [BitVec.getLsbD_of_ge x (64 - y.toNat % 64 + i) (by omega)]
  rw [BitVec.rotateLeft_eq_rotateLeftAux_of_lt hn, BitVec.rotateLeftAux, ← BitVec.add_eq_or_of_and_eq_zero _ _ hdisjoint, rolWord, w64,
    BitVec.ofNat_add]
  exact congrArg₂ _ (w64_mul_two_pow ..) (w64_div_two_pow ..)

/-- Settles O13: each function has the value of its rule, -2^63 by -1 by calculation (`divWord_eq`, `remWord_eq`), and the words are those of
the encoder. -/
theorem divisionAndShifts : Obligations.DivisionAndShifts := by
  unfold Obligations.DivisionAndShifts
  refine ⟨fun s d a b hp ha hb hd => ?_, fun s d a b hp ha hb hd => ?_, fun d a b => ?_⟩
  · have completes {f : Word → Word → Word} {v : Word} := performSeq_scalar2 (v := v) hp ha hb hd f
    exact ⟨completes (divWord_eq ..), completes (remWord_eq ..), completes (divnWord_eq ..), completes (remnWord_eq ..)⟩
  · have completes {f : Word → Word → Word} {v : Word} := performSeq_scalar2 (v := v) hp ha hb hd f
    exact ⟨completes (shlWord_eq ..), completes (shrWord_eq ..), completes (sarWord_eq ..), completes (rolWord_eq ..)⟩
  · have stands {i : Instr} {op : Nat} (he : encodeNat i = some (wDab op 0 d a b)) (hop : op < 2 ^ 8) : standsUnder i op 0 :=
      standsUnder_wDab he hop (by decide)
    exact ⟨stands rfl (by decide), stands rfl (by decide), stands rfl (by decide), stands rfl (by decide), stands rfl (by decide),
      stands rfl (by decide), stands rfl (by decide), stands rfl (by decide)⟩

end Sys2Proof
end

