-- ==== Sys2Proof/Proofs/FieldInstructions.lean ====
section
/-!
SUPPORT. The field instructions bit by bit (R71): O14.
-/
namespace Sys2Proof
open Machine Safety

/-- Sign extension of the low n bits is the signed value of those bits. -/
theorem sextNat_eq_toInt (n v : Nat) : sextNat n v = (BitVec.ofNat n v).toInt := by
  have hlt : v % 2 ^ n < 2 ^ n := Nat.mod_lt _ (Nat.two_pow_pos n)
  rw [sextNat, BitVec.toInt_eq_toNat_cond, BitVec.toNat_ofNat]
  cases n with
  | zero => simp [Nat.mod_one]
  | succ n =>
    have hpow : 2 ^ (n + 1) = 2 * 2 ^ n := by rw [Nat.pow_succ, Nat.mul_comm]
    simp only [Nat.add_sub_cancel]
    by_cases h : 2 ^ n ≤ v % 2 ^ (n + 1)
    · rw [if_pos ⟨by omega, h⟩, if_neg (by omega)]
      norm_cast
    · rw [if_neg (fun hand => h hand.2), if_pos (by omega)]

/-- Bit by bit: the n low bits of v, and bit n - 1 above them. -/
theorem getLsbD_wrap64_sextNat {n k : Nat} (v : Nat) (hk : k < 64) :
    (wrap64 (sextNat n v)).getLsbD k = if k < n then v.testBit k else decide (0 < n) && v.testBit (n - 1) := by
  rw [wrap64, sextNat_eq_toInt]
  refine (BitVec.getLsbD_signExtend ..).trans ?_
  rw [BitVec.msb_eq_getLsbD_last, BitVec.getLsbD_ofNat, BitVec.getLsbD_ofNat]
  cases n with
  | zero => simp
  | succ n => simp +contextual [hk]

theorem fieldPos_eq (y : Word) : fieldPos y = (y.extractLsb' 0 6).toNat := by
  rw [BitVec.extractLsb'_toNat, Nat.shiftRight_eq_div_pow]; rfl

theorem fieldLen_eq (y : Word) : fieldLen y = Nat.min (y.extractLsb' 8 7).toNat 64 := by
  rw [BitVec.extractLsb'_toNat, Nat.shiftRight_eq_div_pow]; rfl

section
variable (x y : Word) {k : Nat} (hk : k < 64)
include hk

theorem getLsbD_bextWord : (bextWord x y).getLsbD k = (decide (k < fieldLen y) && x.getLsbD (fieldPos y + k)) := by
  rw [bextWord, w64, BitVec.getLsbD_ofNat, Nat.testBit_mod_two_pow, Nat.testBit_div_two_pow, Nat.add_comm]
  simp [hk, BitVec.getLsbD]

theorem getLsbD_bextsWord : (bextsWord x y).getLsbD k =
    if k < fieldLen y then x.getLsbD (fieldPos y + k) else decide (0 < fieldLen y) && x.getLsbD (fieldPos y + fieldLen y - 1) := by
  rw [bextsWord, getLsbD_wrap64_sextNat _ hk, Nat.testBit_div_two_pow, Nat.testBit_div_two_pow, Nat.add_comm k]
  split
  · rfl
  · by_cases h : 0 < fieldLen y
    · rw [show fieldLen y - 1 + fieldPos y = fieldPos y + fieldLen y - 1 by omega]; rfl
    · simp [h]

theorem getLsbD_sextWord : (sextWord x y).getLsbD k =
    if y.toNat = 0 ∨ 64 ≤ y.toNat ∨ k < y.toNat then x.getLsbD k else x.getLsbD (y.toNat - 1) := by
  rw [sextWord]
  by_cases h : y.toNat = 0 ∨ y.toNat ≥ 64
  · rw [if_pos h, if_pos (h.imp_right .inl)]
  · rw [if_neg h, getLsbD_wrap64_sextNat _ hk]
    by_cases hlow : k < y.toNat
    · rw [if_pos hlow, if_pos (.inr (.inr hlow))]; rfl
    · rw [if_neg hlow, if_neg (by omega), decide_eq_true (by omega), Bool.true_and]; rfl

/-- The mask of a field has the bits of its positions. -/
theorem getLsbD_fieldMask (p l : Nat) : (w64 ((2 ^ l - 1) * 2 ^ p)).getLsbD k = decide (p ≤ k ∧ k < p + l) := by
  rw [w64, BitVec.getLsbD_ofNat, Nat.testBit_mul_two_pow, Nat.testBit_two_pow_sub_one]
  by_cases hp : p ≤ k
  · rw [decide_eq_true hk, Bool.true_and, decide_eq_true hp, Bool.true_and]
    exact decide_eq_decide.2 (by omega)
  · simp [hp]

theorem getLsbD_binsWord (z : Word) : (binsWord x y z).getLsbD k =
    if fieldPos y ≤ k ∧ k < fieldPos y + fieldLen y then z.getLsbD (k - fieldPos y) else x.getLsbD k := by
  have hmoved : (w64 (z.toNat * 2 ^ fieldPos y)).getLsbD k = (decide (fieldPos y ≤ k) && z.getLsbD (k - fieldPos y)) := by
    rw [w64, BitVec.getLsbD_ofNat, Nat.testBit_mul_two_pow, decide_eq_true hk, Bool.true_and]; rfl
  simp only [binsWord, BitVec.getLsbD_or, BitVec.getLsbD_and, BitVec.getLsbD_not, getLsbD_fieldMask hk, hmoved, decide_eq_true hk, Bool.true_and]
  split
  · next h => simp [h]
  · next h => simp [h]

end

/-- Settles O14: each function bit by bit (`getLsbD_bextWord` to `getLsbD_binsWord`), with the position and the length as R71 reads them of
b. -/
theorem fieldInstructions : Obligations.FieldInstructions := by
  unfold Obligations.FieldInstructions
  refine ⟨fun s d a b hp ha hb hd => ?_, fun d a c b => ?_, fun s d a c b hp ha hb hc hd => ?_⟩
  · have completes {f : Word → Word → Word} := performSeq_scalar2 hp ha hb hd f rfl
    simp only [← fieldPos_eq, ← fieldLen_eq]
    exact ⟨⟨_, completes, fun k hk => getLsbD_bextWord _ _ hk⟩, ⟨_, completes, fun k hk => getLsbD_bextsWord _ _ hk⟩,
      ⟨_, completes, fun k hk => getLsbD_sextWord _ _ hk⟩⟩
  · exact ⟨standsUnder_wDab rfl (by decide) (by decide), standsUnder_wDab rfl (by decide) (by decide),
      standsUnder_wordA rfl (by decide) (by decide) d.code_lt a.code_lt b.code_lt c.code_lt (by decide) b.bits_lt,
      standsUnder_wDab rfl (by decide) (by decide)⟩
  · simp only [← fieldPos_eq, ← fieldLen_eq]
    exact ⟨_, performSeq_scalar3 hp ha hb hc hd _ rfl, fun k hk => getLsbD_binsWord _ _ hk _⟩

end Sys2Proof
end

