-- ==== Sys2Proof/Proofs/HandlersAndSkips.lean ====
section
/-!
SUPPORT. The return from a handler (O9), and the other control instructions that transfer to no named target (O16).
-/
namespace Sys2Proof
open Machine Safety

/-! ## Leaving the handler (R76, R149) -/

section
variable {s : State} {m : M Word} {clear : Bool}

theorem leaveHandler_inactive (h : s.fib.tcause = 0) : leaveHandler m clear s = .error (.trap 5 0 false none) := by
  rw [leaveHandler, run_bind_ok (run_theFib s), if_pos h, run_fail]

theorem leaveHandler_fine {a : Word} (h : s.fib.tcause ≠ 0) (hm : m s = .ok (a, s)) (ha : enterAt s a false = .fine) :
    leaveHandler m clear s =
      .ok (.jump a, { s with fib := { s.fib with tcause := 0, step := if clear then 0 else s.fib.step } }) := by
  rw [leaveHandler, run_bind_ok (run_theFib s), if_neg h, run_bind_ok hm, run_bind_ok (enterTarget_fine ha), run_bind_ok (run_modFib _ s),
    run_pure]

end

/-- Settles O9: with a handler active both check the return address before they clear anything (`leaveHandler_fine`). -/
theorem returnFromHandler : Obligations.ReturnFromHandler := by
  unfold Obligations.ReturnFromHandler
  refine ⟨fun s hp hactive hpc => ?_, fun s a hp hactive ha hpc => ?_, fun s a hp hnone => ⟨?_, ?_⟩⟩
  · exact perform_ok (leaveHandler_fine hactive rfl hpc) hp
  · exact perform_ok (leaveHandler_fine hactive (rd_of_plain ha) hpc) hp
  · exact perform_trap (leaveHandler_inactive hnone) hp
  · exact perform_trap (leaveHandler_inactive hnone) hp

/-! ## Skips (R74) -/

theorem countAnnulled_good {s : State} {loc w i : Nat} (h : parityGood s loc w i = true) : countAnnulled loc w i s = .ok ((), s) := by
  rw [countAnnulled, run_change, if_pos h]

/-- An instruction in a line of the fetch buffer, with good parity, that decodes is stepped over. -/
theorem annul_succ {s : State} {n loc w : Nat} {a : Word} (hline : lookLine s s.focus.1 s.fib (lineOf a) = .line loc w)
    (hdefect : instrNo a = 0 → lineDefect w = none) (hgood : parityGood s loc w (instrNo a) = true)
    (hdecode : (decode (instrBits s loc (instrNo a))).isSome = true) : annul (n + 1) a s = annul n (nextPc a) s := by
  obtain ⟨i, hi⟩ := Option.isSome_iff_exists.1 hdecode
  have hno : (if instrNo a = 0 then lineDefect w else none) = none := by
    split
    · next h => exact hdefect h
    · rfl
  rw [annul, run_bind_ok (run_get s)]
  simp only [hline, hno]
  rw [run_bind_ok (countAnnulled_good hgood)]
  simp only [hi]

section
variable {s : State} {cc : Cond} {n : Fin 3} {a : SReg} {b : SrcB} (hp : s.pair = none) (ha : plainS s.fib a = true) (hb : plainB s.fib b = true)
include hp ha hb

theorem exec_csk_fails (hc : condHolds cc (regVal s.fib a) (valB s.fib b) = false) : exec (.csk cc n a b) s = .next (goOn s) := by
  refine perform_seq ?_ hp
  rw [run_bind_ok (rd_of_plain ha), run_bind_ok (rdB_of_plain hb), if_neg (by simp [hc]), run_pure]

theorem exec_csk_holds {fl : Flow} (hc : condHolds cc (regVal s.fib a) (valB s.fib b) = true)
    (hannul : annul (n.val + 1) (nextPc s.fib.pc) s = .ok (fl, s)) : exec (.csk cc n a b) s = .next (applyFlow s fl (nextPc s.fib.pc)) := by
  refine perform_ok ?_ hp
  rw [run_bind_ok (rd_of_plain ha), run_bind_ok (rdB_of_plain hb), if_pos hc, run_bind_ok (run_successor hp), hannul]

end

/-! ## The fibre's slot (R76, R147, R148) -/

theorem yieldSlot_alone {s : State} {g : Nat} {k : Fin 16} (h : eldest s g k = none) : yieldSlot s g k = s := by
  rw [yieldSlot, if_pos (by simp [h])]

theorem exec_trap {s : State} (n : BitVec 16) (hp : s.pair = none) :
    exec (.trap n) s = .next (raiseTrap (goOn s) ⟨0x11, nextPc s.fib.pc, n.zeroExtend 64⟩ false) := by
  change execTrap n s = _
  rw [execTrap]
  refine perform_ok (fl := .raise ⟨0x11, nextPc s.fib.pc, n.zeroExtend 64⟩ false) ?_ hp
  rw [run_bind_ok (run_successor hp), run_pure]

theorem needMailbox_room {s : State} (h : (freeTag (getCore s s.focus.1)).isSome = true) : needMailbox s = .ok ((), s) := by
  obtain ⟨t, ht⟩ := Option.isSome_iff_exists.1 h
  simp only [needMailbox, ht]

/-- With room in the mailbox `sysc` leaves its slot to `syscSlot`, at the successor. -/
theorem exec_sysc {s : State} (n : BitVec 16) (hp : s.pair = none) (h : (freeTag (getCore s s.focus.1)).isSome = true) :
    exec (.sysc n) s = .next (syscSlot (goOn s) s.focus.1 s.focus.2 (n.zeroExtend 64)) := by
  refine perform_ok (fl := .sysc (n.zeroExtend 64)) ?_ hp
  rw [run_bind_ok (needMailbox_room h), run_pure]

theorem syscSlot_swapped {s : State} {g : Nat} {k : Fin 16} (n : Word) (hk : k ≠ 15) {i : FibreInfo}
    (hi : fibreInfo (unbind s g k .swapped) g (fibIndex s.fib) = some i) :
    syscSlot s g k n = setFibreInfo (unbind s g k .swapped) g (fibIndex s.fib) { i with call := some n } := by
  simp only [syscSlot, if_neg hk, hi]

theorem syscSlot_walker {s t : State} {g : Nat} (n : Word) (ht : postService s g (fibIndex s.fib) s.fib.tenant n = some t) :
    syscSlot s g 15 n = t := by
  simp only [syscSlot, if_true, ht, Option.getD_some]

/-- Settles O16: `csk` steps over what it annuls (`annul_succ`); the others complete with the flow that their rule names, at the
successor. -/
theorem skipsAndOtherControl : Obligations.SkipsAndOtherControl := by
  unfold Obligations.SkipsAndOtherControl
  refine ⟨fun s cc n a b hp ha hb hc => exec_csk_fails hp ha hb hc,
    fun s cc a b loc w hp ha hb hc hline hdefect hgood hdecode => ?_,
    fun s n hp => ⟨?_, fun halone => ?_, ?_, ?_, fun hroom => ⟨fun hk i hi => ?_, fun hk t ht => ?_⟩⟩⟩
  · have hannul : annul 1 (nextPc s.fib.pc) s = .ok (.jump (nextPc (nextPc s.fib.pc)), s) := annul_succ hline hdefect hgood hdecode
    exact exec_csk_holds (n := 0) hp ha hb hc hannul
  · exact done_of_unit (run_pure _ s) hp
  · exact (perform_ok (run_pure _ s) hp).trans (congrArg _ (yieldSlot_alone halone))
  · exact perform_ok (run_pure _ s) hp
  · exact exec_trap n hp
  · rw [exec_sysc n hp hroom, syscSlot_swapped _ hk hi]; rfl
  · rw [exec_sysc n hp hroom, hk, syscSlot_walker _ ht]

end Sys2Proof
end

