-- ==== Sys2Proof/Proofs/SpecialRegisters.lean ====
section
/-!
SUPPORT. The special registers (R8, R63, R64, R134): O17.
-/
namespace Sys2Proof
open Machine Safety

theorem mayWrite_ok {s : State} {c : Csr} (h : s.fib.steward = true ∨ csrAccess c = .rw) : mayWrite c s = .ok ((), s) := by
  rw [mayWrite, run_bind_ok (run_theFib s), if_neg, run_pure]
  rintro ⟨huser, hnot⟩
  rcases h with h | h
  · exact absurd (huser.symm.trans h) Bool.false_ne_true
  · exact hnot h

theorem mayWrite_refused {s : State} {c : Csr} (huser : s.fib.steward = false) (hc : csrAccess c ≠ .rw) :
    mayWrite c s = .error (.trap 5 (w64 c.code) false none) := by
  rw [mayWrite, run_bind_ok (run_theFib s), if_pos ⟨huser, hc⟩, run_fail]

theorem csrStore_ro {c : Csr} (v : Word) (s : State) (h : csrAccess c = .ro) : csrStore c v s = .ok ((), s) := by
  cases c with
  | fibre | slot | core | clu | die | stage | speed | cyc | tenant | queue | mode | gsize | grank | sstart | scount | geom | fp | fdepth => rfl
  | budget | segBase k | segLimit k | segRights k | ctx | fdlimit | tcause | tpc | taddr | tstep => simp [csrAccess] at h
  | tshape k | tclaim | aclaim | rope | tvec => simp [csrAccess] at h

/-- The registers of user mode. -/
theorem csrAccess_rw {c : Csr} (h : csrAccess c = .rw) : (∃ k, c = .tshape k) ∨ c = .tclaim ∨ c = .aclaim ∨ c = .rope ∨ c = .tvec := by
  cases c with
  | tshape k => exact .inl ⟨k, rfl⟩
  | tclaim | aclaim | rope | tvec => simp
  | _ => simp [csrAccess] at h

section
variable {s : State} {d a : SReg} {c : Csr} (hp : s.pair = none)
include hp

theorem exec_csrr (hd : openS s.fib d = true) : exec (.csrr d c) s = .next (doneS s d (csrRead s c)) :=
  done_of_result (run_bind_ok (run_get s)) hp hd

theorem exec_csrw {f : Fib} (hw : s.fib.steward = true ∨ csrAccess c = .rw) (ha : plainS s.fib a = true)
    (hstore : csrStore c (regVal s.fib a) s = .ok ((), { s with fib := f })) : exec (.csrw c a) s = .next (goOn { s with fib := f }) := by
  refine done_of_unit ?_ hp
  rw [run_bind_ok (mayWrite_ok hw), run_bind_ok (rd_of_plain ha), hstore]

theorem exec_csrx {f : Fib} (hw : s.fib.steward = true ∨ csrAccess c = .rw) (ha : plainS s.fib a = true)
    (hstore : csrStore c (regVal s.fib a) s = .ok ((), { s with fib := f })) (hd : openS f d = true) :
    exec (.csrx d a c) s = .next (doneS { s with fib := f } d (csrRead s c)) := by
  refine done_of_result ?_ hp hd
  rw [run_bind_ok (mayWrite_ok hw), run_bind_ok (run_get s), run_bind_ok (rd_of_plain ha), run_bind_ok hstore]

theorem exec_csrw_refused (huser : s.fib.steward = false) (hc : csrAccess c ≠ .rw) :
    exec (.csrw c a) s = .next (trapsWith s 5 (BitVec.ofNat 64 c.code)) :=
  performSeq_trap (run_bind_error (mayWrite_refused huser hc)) hp

theorem exec_csrx_refused (huser : s.fib.steward = false) (hc : csrAccess c ≠ .rw) :
    exec (.csrx d a c) s = .next (trapsWith s 5 (BitVec.ofNat 64 c.code)) :=
  performSeq_trap (run_bind_error (mayWrite_refused huser hc)) hp

end

/-- HSTEP is the second byte of `%tstep` (R134). -/
theorem secondByte_eq (v : Word) : BitVec.ofNat 8 (bitsOf v 8 8) = (v >>> 8).setWidth 8 := by
  apply BitVec.eq_of_toNat_eq
  simp [bitsOf, Nat.shiftRight_eq_div_pow]

/-- Settles O17: an access that the mode allows stores what its register takes (`exec_csrw`, `exec_csrx`); in user mode the registers left to
the hypotheses are those whose access is not RW (`csrAccess_rw`). -/
theorem specialRegisters : Obligations.SpecialRegisters := by
  unfold Obligations.SpecialRegisters
  refine ⟨fun s d c hp hd => exec_csrr hp hd, fun s d a hp ha hd => ?_, fun s d a c hp huser hshape htiles haccs hrope htvec => ?_⟩
  · refine ⟨exec_csrw hp (.inr rfl) ha rfl, exec_csrx hp (.inr rfl) ha rfl hd, exec_csrw hp (.inr rfl) ha rfl, fun hst => ?_⟩
    have hw {c : Csr} : s.fib.steward = true ∨ csrAccess c = .rw := .inl hst
    refine ⟨exec_csrw hp hw ha rfl, exec_csrw hp hw ha rfl, exec_csrw hp hw ha rfl, exec_csrw hp hw ha ?_, exec_csrw hp hw ha rfl,
      exec_csrw hp hw ha rfl, exec_csrw hp hw ha rfl, exec_csrx hp hw ha rfl hd, fun c hc => exec_csrw hp hw ha (csrStore_ro _ s hc)⟩
    rw [← secondByte_eq]
    rfl
  · have hc : csrAccess c ≠ .rw := fun h => by
      rcases csrAccess_rw h with ⟨k, h⟩ | h | h | h | h
      · exact hshape k h
      · exact htiles h
      · exact haccs h
      · exact hrope h
      · exact htvec h
    exact ⟨exec_csrw_refused hp huser hc, exec_csrx_refused hp huser hc⟩

end Sys2Proof
end

