-- ==== Sys2Proof/Proofs/Segments.lean ====
section
/-!
SUPPORT. Segments: the checks of an access through one of local or cluster class (R78, R79), deriving one and reporting on one (R87, R88):
O18 and O21.
-/
namespace Sys2Proof
open Machine Safety

/-! ## The checks of an access (R78, R79) -/

/-- A multiple of n that lies below a multiple m of n leaves n bytes to it. -/
theorem mod_add_le_of_dvd {a n m : Nat} (hm : 0 < m) (hn : n ∣ m) (ha : a % n = 0) : a % m + n ≤ m := by
  have hr : n ∣ a % m := (Nat.dvd_mod_iff hn).2 (Nat.dvd_of_mod_eq_zero ha)
  exact ((Nat.modEq_zero_iff_dvd.2 hr).trans (Nat.modEq_zero_iff_dvd.2 hn).symm).add_le_of_lt (Nat.mod_lt a hm)

/-- An aligned access of up to 64 bytes lies in one scratchpad, so only the core that holds its first byte can be absent (R24). -/
theorem absentIn_aligned {s : State} {g addr n : Nat} (hn : n ∣ 64) (ha : addr % n = 0) (hfit : addr + n ≤ 25165824) :
    absentIn s g addr n = !present s (g / 192 * 192 + addr / 131072) := by
  have hpos : 0 < n := Nat.pos_of_dvd_of_pos hn (by decide)
  have hle : n ≤ 64 := Nat.le_of_dvd (by decide) hn
  have hin : addr % 131072 + n ≤ 131072 := mod_add_le_of_dvd (by decide) (hn.trans (by decide)) ha
  have h0 : n / 131072 = 0 := by omega
  have hc : addr / 131072 < 192 := by omega
  have hnext : ¬ (addr / 131072 + 1) * 131072 < addr + n := by omega
  simp [absentIn, Config.spadBytes, h0, hc, hnext, List.range_succ, clusterOf]

theorem resolve_of_segFault {s : State} {sg : Fin 8} {o a : Word} {n al need k c : Nat}
    (h : segFault s s.fib.seg[sg] o n al need = some (c, a)) : resolve sg o n al need k s = .error (.trap c a false none) := by
  rw [resolve, run_bind_ok (run_get s)]
  simp only [h]
  rfl

theorem near_cls_lt {g : Seg} (h : g.cls = 0 ∨ g.cls = 1) : g.cls.toNat < 2 := by
  rcases h with h | h <;> simp [h]

theorem near_cls_ne {g : Seg} (h : g.cls = 0 ∨ g.cls = 1) : g.cls ≠ 3 ∧ g.cls ≠ 2 := by
  rcases h with h | h <;> simp [h]

theorem classAddr_near {g : Seg} (h : g.cls = 0 ∨ g.cls = 1) (o : Word) : classAddr g o = g.base.toNat + o.toNat :=
  if_neg (near_cls_ne h).1

theorem classCap_near {g : Seg} (h : g.cls = 0 ∨ g.cls = 1) : classCap g = if g.cls = 0 then 131072 else 25165824 := by
  rcases h with h | h <;> simp [classCap, h, Config.spadBytes, Config.clusterBytes]

/-- The checks that the segment and the range alone decide, for a segment of local or cluster class (R79). -/
theorem rangeBad_near {s : State} {g : Seg} {o : Word} {n need : Nat} (hc : g.cls = 0 ∨ g.cls = 1) (hn : n ∣ 64) :
    rangeBad s g o n n need =
      if g.rights.toNat &&& need ≠ need then some (6, o)
      else if o.toNat + n > g.limit.toNat then some (6, o)
      else if g.base.toNat + o.toNat + n > (if g.cls = 0 then 131072 else 25165824) then some (6, o)
      else if (g.base.toNat + o.toNat) % n ≠ 0 then some (7, o)
      else if g.cls = 1 ∧ present s (s.focus.1 / 192 * 192 + (g.base.toNat + o.toNat) / 131072) = false then some (6, o)
      else none := by
  unfold rangeBad
  simp only [classAddr_near hc, classCap_near hc]
  refine ite_congr (by simp [hasRights]) (fun _ => rfl) fun _ => ite_congr rfl (fun _ => rfl) fun _ =>
    ite_congr rfl (fun _ => rfl) fun hfit => ite_congr rfl (fun _ => rfl) fun hal => ite_congr ?_ (fun _ => rfl) fun _ => rfl
  refine propext (and_congr_right fun hcl => ?_)
  have hfit' : g.base.toNat + o.toNat + n ≤ 25165824 := by simpa [hcl] using hfit
  rw [absentIn_aligned hn (not_not.1 hal) hfit', Bool.not_eq_true']

theorem segFault_of_rangeBad {s : State} {g : Seg} {o : Word} {n al need : Nat} {e : Nat × Word} (h : rangeBad s g o n al need = some e) :
    segFault s g o n al need = some e := by simp only [segFault, h]

/-- In range, an access through a segment of local or cluster class meets the guards alone. -/
theorem segFault_near {s : State} {g : Seg} {o : Word} {n al need : Nat} (hc : g.cls = 0 ∨ g.cls = 1) (h : rangeBad s g o n al need = none) :
    segFault s g o n al need =
      if s.fib.steward = false ∧ guardedIn s (nearLoc s.focus.1 g (g.base.toNat + o.toNat)) n = true then some (6, o) else none := by
  simp only [segFault, h, classAddr_near hc, near_cls_lt hc, (near_cls_ne hc).2, true_and, false_and, if_false]

/-- Settles O18: the checks that segment and range decide are those of `rangeBad_near`, where of a cluster's cores only the one that holds the
first byte can be absent, and what passes them meets the guards alone (`segFault_near`). -/
theorem segmentChecks : Obligations.SegmentChecks := by
  unfold Obligations.SegmentChecks
  intro s sg o e need kind n g addr cap loc hc
  have hn : n ∣ 64 := Nat.pow_dvd_pow 2 (n := 6) (by omega)
  have hr := rangeBad_near (s := s) (o := o) (need := need) hc hn
  have hloc : nearLoc s.focus.1 g addr = loc := rfl
  have hstop {c : Nat} (h : rangeBad s g o n n need = some (c, o)) : resolve sg o n n need kind s = .error (.trap c o false none) :=
    resolve_of_segFault (segFault_of_rangeBad h)
  split_ifs with h1 h2 h3 h4 h5 h6
  · exact hstop (by rw [hr, if_pos h1])
  · exact hstop (by rw [hr, if_neg h1, if_pos h2])
  · exact hstop (by rw [hr, if_neg h1, if_neg h2, if_pos h3])
  · exact hstop (by rw [hr, if_neg h1, if_neg h2, if_neg h3, if_pos h4])
  · exact hstop (by rw [hr, if_neg h1, if_neg h2, if_neg h3, if_neg h4, if_pos h5])
  all_goals have hok := segFault_near hc (by rw [hr, if_neg h1, if_neg h2, if_neg h3, if_neg h4, if_neg h5])
  · exact resolve_of_segFault (by rw [hok, hloc, if_pos h6])
  · rw [resolve_near (near_cls_lt hc) (by rw [hok, hloc, if_neg h6]), classAddr_near hc, hloc]

/-! ## Deriving and querying (R87, R88) -/

/-- The rights that `sseg` keeps, by bit: EXE goes, and CTR and STR stand one place higher than in the instruction (R87). -/
theorem getLsbD_keptRights (keep : BitVec 4) : (keptRights keep).getLsbD 0 = keep.getLsbD 0 ∧ (keptRights keep).getLsbD 1 = keep.getLsbD 1
    ∧ (keptRights keep).getLsbD 2 = false ∧ (keptRights keep).getLsbD 3 = keep.getLsbD 2 ∧ (keptRights keep).getLsbD 4 = keep.getLsbD 3 := by
  decide +revert

/-- The segment that `sseg` derives from src for n bytes at offset o (R87). -/
def derivedSeg (src : Seg) (keep : BitVec 4) (o n : Word) : Seg :=
  { base := src.base + o, limit := n.setWidth 48, cls := src.cls, rights := src.rights &&& keptRights keep }

theorem derivedSeg_limit {src : Seg} {o n : Word} (keep : BitVec 4) (h : o.toNat + n.toNat ≤ src.limit.toNat) :
    (derivedSeg src keep o n).limit.toNat = n.toNat := by
  have := src.limit.isLt
  rw [derivedSeg, BitVec.toNat_setWidth, Nat.mod_eq_of_lt (by omega)]

section
variable {s : State} {keep : BitVec 4} {t : Fin 8} {m : MemRef} {c : SReg} (hp : s.pair = none) (ha : plainS s.fib m.a = true)
  (hc : plainS s.fib c = true)
include hp ha hc

theorem exec_sseg_fails (h : (offM s.fib m).toNat + (regVal s.fib c).toNat > s.fib.seg[m.sg].limit.toNat
      ∨ (s.fib.seg[m.sg].cls = 3 ∧ offM s.fib m ≠ 0)) :
    exec (.sseg keep t m c) s = .next (trapsWith s 6 (offM s.fib m)) := by
  refine performSeq_fails ?_ hp
  rw [run_bind_ok (rdMem_of_plain ha), run_bind_ok (rd_of_plain hc), run_bind_ok (run_theFib s)]
  by_cases h1 : (offM s.fib m).toNat + (regVal s.fib c).toNat > s.fib.seg[m.sg].limit.toNat
  · rw [if_pos h1]; rfl
  · rw [if_neg h1, if_pos (h.resolve_left h1)]; rfl

/-- In range, `sseg` writes segment t and disarms the streams that use it. -/
theorem exec_sseg_derives (h1 : (offM s.fib m).toNat + (regVal s.fib c).toNat ≤ s.fib.seg[m.sg].limit.toNat)
    (h2 : s.fib.seg[m.sg].cls = 3 → offM s.fib m = 0) :
    exec (.sseg keep t m c) s = .next (goOn { s with fib := disarmSeg { s.fib with
      seg := s.fib.seg.set t (derivedSeg s.fib.seg[m.sg] keep (offM s.fib m) (regVal s.fib c)) } t }) := by
  have hbase : (if s.fib.seg[m.sg].cls = 3 then s.fib.seg[m.sg].base else s.fib.seg[m.sg].base + offM s.fib m)
      = s.fib.seg[m.sg].base + offM s.fib m := by
    split
    · next h => rw [h2 h]; exact (add_zero _).symm
    · rfl
  refine done_of_unit ?_ hp
  rw [run_bind_ok (rdMem_of_plain ha), run_bind_ok (rd_of_plain hc), run_bind_ok (run_theFib s),
    if_neg (Nat.not_lt.2 h1), if_neg (fun h => h.2 (h2 h.1)), hbase]
  rfl

end

/-- A flag as a digit. -/
theorem exists_digit_of_flag (c : Prop) [Decidable c] : ∃ k, k ≤ 1 ∧ (k = 1 ↔ c) ∧ ∀ n, (if c then n else 0) = k * n := by
  by_cases h : c
  · exact ⟨1, le_rfl, by simp [h], by simp [h]⟩
  · exact ⟨0, Nat.zero_le 1, by simp [h], by simp [h]⟩

/-- A word made up of two flags and of fields of 5, 2 and 55 bits has those fields. -/
theorem packed_fields (a b : Prop) [Decidable a] [Decidable b] (r : BitVec 5) (c : BitVec 2) {x : Nat} (hx : x < 2 ^ 55) {v : Word}
    (h : v = w64 ((if a then 2 ^ 63 else 0) + (if b then 2 ^ 62 else 0) + r.toNat * 2 ^ 57 + c.toNat * 2 ^ 55 + x)) :
    v.getLsbD 63 = decide a ∧ v.getLsbD 62 = decide b ∧ v.extractLsb' 57 5 = r ∧ v.extractLsb' 55 2 = c
      ∧ (v.extractLsb' 0 55).toNat = x := by
  obtain ⟨i, hi, hia, hiv⟩ := exists_digit_of_flag a
  obtain ⟨j, hj, hjb, hjv⟩ := exists_digit_of_flag b
  have hr := r.isLt
  have hc := c.isLt
  have hv : v.toNat = i * 2 ^ 63 + j * 2 ^ 62 + r.toNat * 2 ^ 57 + c.toNat * 2 ^ 55 + x := by
    rw [h, hiv, hjv, w64, BitVec.toNat_ofNat, Nat.mod_eq_of_lt (by omega)]
  have hbit (k : Nat) : v.getLsbD k = decide (v.toNat / 2 ^ k % 2 = 1) := Nat.testBit_eq_decide_div_mod_eq
  have hfield (k n : Nat) : (v.extractLsb' k n).toNat = v.toNat / 2 ^ k % 2 ^ n := by rw [BitVec.extractLsb'_toNat, Nat.shiftRight_eq_div_pow]
  refine ⟨(hbit 63).trans (decide_eq_decide.2 ?_), (hbit 62).trans (decide_eq_decide.2 ?_), BitVec.eq_of_toNat_eq ?_,
    BitVec.eq_of_toNat_eq ?_, ?_⟩
  · rw [← hia]; omega
  · rw [← hjb]; omega
  all_goals rw [hfield]; omega

/-- The report of `segq`, field by field (R88). -/
theorem segReport_fields (g : Seg) (o : Word) (n : Nat) :
    (segReport g o n).getLsbD 63 = decide (o.toNat + n ≤ g.limit.toNat ∧ classAddr g o + n ≤ classCap g)
      ∧ (segReport g o n).getLsbD 62 = decide (classAddr g o % n = 0) ∧ (segReport g o n).extractLsb' 57 5 = g.rights
      ∧ (segReport g o n).extractLsb' 55 2 = g.cls ∧ ((segReport g o n).extractLsb' 0 55).toNat = classAddr g o % 2 ^ 55 :=
  packed_fields _ _ _ _ (Nat.mod_lt _ (Nat.two_pow_pos 55)) rfl

theorem classCap_eq (g : Seg) : classCap g =
    if g.cls = 0 then 131072 else if g.cls = 1 then 25165824 else if g.cls = 2 then 2 ^ 55 else g.base.toNat % 2 ^ 24 * 65536 := by
  simp [classCap, bitsOf, Config.spadBytes, Config.clusterBytes]

theorem exec_segq {s : State} {sz : Fin 9} {d : SReg} {m : MemRef} (hp : s.pair = none) (ha : plainS s.fib m.a = true)
    (hd : openS s.fib d = true) :
    exec (.segq sz d m) s = .next (doneS s d (segReport s.fib.seg[m.sg] (offM s.fib m) (sizeBytes sz.val))) := by
  refine done_of_result ?_ hp hd
  rw [run_bind_ok (rdMem_of_plain ha), run_bind_ok (run_theFib s)]

/-- Settles O21: what `sseg` derives is `derivedSeg`, whose rights are those of the source that it keeps bit by bit (`getLsbD_keptRights`), and
the report of `segq` is a word of five fields (`segReport_fields`). -/
theorem deriveAndQuerySegment : Obligations.DeriveAndQuerySegment := by
  unfold Obligations.DeriveAndQuerySegment
  refine ⟨fun s keep t m c hp ha hc => ?_, fun s sz d m hp ha hd => ⟨_, exec_segq hp ha hd, ?_⟩⟩
  · intro o n src
    have hbit (k : Nat) : (derivedSeg src keep o n).rights.getLsbD k = (src.rights.getLsbD k && (keptRights keep).getLsbD k) :=
      BitVec.getLsbD_and
    obtain ⟨hrd, hwr, hexe, hctr, hstr⟩ := getLsbD_keptRights keep
    refine ⟨exec_sseg_fails hp ha hc, fun h1 h2 => ⟨derivedSeg src keep o n, rfl, derivedSeg_limit keep h1, rfl, ?_, ?_, ?_, ?_, ?_,
      exec_sseg_derives hp ha hc h1 h2⟩⟩
    · rw [hbit, hrd]
    · rw [hbit, hwr]
    · rw [hbit, hexe, Bool.and_false]
    · rw [hbit, hctr]
    · rw [hbit, hstr]
  · rw [← classCap_eq]
    exact segReport_fields _ _ _

end Sys2Proof
end

