-- ==== Sys2Proof/Proofs/PathKeepsPair.lean ====
section
/-!
SUPPORT. What the ports send ahead of an access (R118) may end fibres and kernels on the way, but the pair in progress (R45) is not theirs:
the same operations as in PathKeepsFocus, and those of a store that leaves the buffer, keep it.
-/
namespace Sys2Proof
open Machine Safety

theorem pair_of_links {s t : State} (h : LinksOnly s t) : t.pair = s.pair := by rw [h]

@[simp] theorem pair_ite {c : Prop} [Decidable c] (s t : State) : (if c then s else t).pair = if c then s.pair else t.pair :=
  apply_ite State.pair c s t

@[simp] theorem pair_foldl {α : Type} {f : State → α → State} (h : ∀ s a, (f s a).pair = s.pair) (l : List α) (s : State) :
    (l.foldl f s).pair = s.pair := by
  induction l generalizing s with
  | nil => rfl
  | cons a l ih => exact (ih (f s a)).trans (h s a)

/-! ## Memory, counters and waiters -/

@[simp] theorem writeNat_pair (s : State) (a n v : Nat) : (writeNat s a n v).pair = s.pair := writeBytes_pair s a _
@[simp] theorem writeWord_pair (s : State) (a : Nat) (v : Word) : (writeWord s a v).pair = s.pair := writeBytes_pair s a _
@[simp] theorem bumpDie_pair (s : State) (d off n : Nat) : (bumpDie s d off n).pair = s.pair := writeBytes_pair s _ _
@[simp] theorem bumpIo_pair (s : State) (i off n : Nat) : (bumpIo s i off n).pair = s.pair := writeBytes_pair s _ _
@[simp] theorem setToxic_pair (s : State) (a : Nat) : (setToxic s a).pair = s.pair := (setToxic_home s a).pair
@[simp] theorem storeBytes_pair (s : State) (a : Nat) (l : List Byte) : (storeBytes s a l).pair = s.pair := (storeBytes_home s a l).pair
@[simp] theorem correctWords_pair (s : State) (p : Nat → Bool) : (correctWords s p).pair = s.pair := (correctWords_home s p).pair
@[simp] theorem correctRead_pair (s : State) (a n : Nat) : (correctRead s a n).pair = s.pair := (correctRead_home s a n).pair
@[simp] theorem poisonEvent_pair (s : State) (a : Nat) : (poisonEvent s a).pair = s.pair := (poisonEvent_home s a).pair
@[simp] theorem enrolWaiter_pair (s : State) (w : Waiter) (a : Nat) (v : Word) : (enrolWaiter s w a v).pair = s.pair :=
  (enrolWaiter_home s w a v).pair
@[simp] theorem fireIrq_pair (s : State) (v : Nat) (x : Word) : (fireIrq s v x).pair = s.pair := (fireIrq_home s v x).pair
@[simp] theorem removeWaiter_pair (s : State) (w : Waiter) : (removeWaiter s w).pair = s.pair := rfl

@[simp] theorem freshBytes_pair (s : State) (n : Nat) : (freshBytes s n).2.pair = s.pair := by
  induction n generalizing s with
  | zero => rfl
  | succ n ih => exact ih _

@[simp] theorem readCounter_pair (s : State) (a : Nat) : (readCounter s a).2.pair = s.pair := by
  unfold readCounter; dsimp only; split <;> simp

theorem pair_of_readCounter {s t : State} {a : Nat} {v : Option Word} (h : readCounter s a = (v, t)) : t.pair = s.pair :=
  (congrArg (fun r => r.2.pair) h).symm.trans (readCounter_pair s a)

@[simp] theorem leftToxic_pair (s : State) (w : Nat) : (leftToxic s w).pair = s.pair := by unfold leftToxic; simp
@[simp] theorem poisonRange_pair (s : State) (a n : Nat) : (poisonRange s a n).pair = s.pair := by unfold poisonRange; simp

/-! ## A core's fibres -/

@[simp] theorem setFibreInfo_pair (s : State) (g f : Nat) (i : FibreInfo) : (setFibreInfo s g f i).pair = s.pair := rfl
@[simp] theorem writeState_pair (s : State) (loc st : Nat) : (writeState s loc st).pair = s.pair := writeNat_pair s _ _ _
@[simp] theorem writeWoken_pair (s : State) (loc : Nat) (w : Bool) : (writeWoken s loc w).pair = s.pair := writeNat_pair s _ _ _
@[simp] theorem writeRecord_pair (s : State) (c : Core) (f : Fib) (loc st : Nat) : (writeRecord s c f loc st).pair = s.pair := by
  unfold writeRecord; simp

@[simp] theorem enlist_pair (s : State) (g f : Nat) : (enlist s g f).pair = s.pair := by
  unfold enlist; split
  · rfl
  · simp

@[simp] theorem refillReady_pair (s : State) (g : Nat) : (refillReady s g).pair = s.pair := by
  unfold refillReady; dsimp only; split
  · split
    · split <;> simp
    · rfl
  · rfl

@[simp] theorem unbind_pair (s : State) (g : Nat) (k : Fin 16) (st : FState) : (unbind s g k st).pair = s.pair := by
  unfold unbind; dsimp only; split <;> simp

@[simp] theorem endFibre_pair (s : State) (g f : Nat) : (endFibre s g f).pair = s.pair := by
  unfold endFibre; split <;> simp

/-! ## Holds, handles and frames -/

@[simp] theorem releaseAll_pair (who : Adder) (b n : Nat) (l : List Nat) (s : State) : (releaseAll who b n l s).pair = s.pair := by
  induction n generalizing l s with
  | zero => rfl
  | succ n ih =>
    cases l with
    | nil => rfl
    | cons x xs => unfold releaseAll; dsimp only; split <;> simp [ih]

@[simp] theorem releaseStack_pair (s : State) (b fp : Nat) (who : Adder) : (releaseStack s b fp who).pair = s.pair :=
  pair_foldl (fun t _ => releaseAll_pair who b _ _ t) _ s

@[simp] theorem freeHandle_pair (s : State) (n : Nat) : (freeHandle s n).pair = s.pair := by unfold freeHandle; simp
@[simp] theorem pushFrame_pair (s : State) (tier : Fin 4) (big : Bool) (loc : Nat) : (pushFrame s tier big loc).pair = s.pair := rfl

@[simp] theorem freeFibre_pair (s : State) (g f : Nat) (keep : Bool) (who : Adder) : (freeFibre s g f keep who).2.pair = s.pair := by
  unfold freeFibre
  split
  · rfl
  · extract_lets s0 s0' _ _ r _ _ r2 s1 s2 s3 s4
    have hr : r.2.pair = s.pair := by
      unfold r; split
      · exact releaseStack_pair ..
      · rfl
    clear_value r
    have hs1 : s1.pair = s.pair := hr
    have hs3 : s3.pair = s.pair := by simp [s3, s2, hs1]
    have hs4 : s4.pair = s.pair := by unfold s4; split <;> simp [hs3]
    exact (refillReady_pair s4 g).trans hs4

@[simp] theorem freeEnded_pair (s : State) (g f : Nat) : (freeEnded s g f).pair = s.pair := by unfold freeEnded; simp

@[simp] theorem stopFibre_pair (s : State) (g f : Nat) : (stopFibre s g f).pair = s.pair := by
  unfold stopFibre; split
  · simp
  · split <;> simp

/-! ## A kernel that ends -/

@[simp] theorem setKern_pair (s : State) (a : Kern) : (setKern s a).pair = s.pair := rfl
@[simp] theorem setKernState_pair (s : State) (k v : Nat) : (setKernState s k v).pair = s.pair := writeNat_pair s _ _ _
@[simp] theorem takeSlots_pair (s : State) (a : Kern) (g : Nat) : (takeSlots s a g).pair = s.pair := rfl
@[simp] theorem leaveCore_pair (s : State) (a : Kern) (g : Nat) : (leaveCore s a g).pair = s.pair := rfl
@[simp] theorem dropGate_pair (s : State) (k : Nat) : (dropGate s k).pair = s.pair := rfl
@[simp] theorem endProxy_pair (s : State) (g : Nat) (p : Proxy) : (endProxy s g p).pair = s.pair := by unfold endProxy; simp
@[simp] theorem endProxies_pair (s : State) (k g : Nat) : (endProxies s k g).pair = s.pair := by unfold endProxies; simp
@[simp] theorem stopOn_pair (s : State) (k g : Nat) : (stopOn s k g).pair = s.pair := by unfold stopOn; simp
@[simp] theorem freeAllOn_pair (s : State) (k g : Nat) : (freeAllOn s k g).pair = s.pair := by unfold freeAllOn; simp

@[simp] theorem addRef_pair (s : State) (r : Nat) (inc : Word) (who : Adder) : (addRef s r inc who).pair = s.pair := by
  unfold addRef; split
  · split <;> simp
  · rfl

@[simp] theorem refuseKernel_pair (s : State) (k : Nat) : (refuseKernel s k).pair = s.pair := by
  unfold refuseKernel; dsimp only; split <;> simp

@[simp] theorem returnRecord_pair (k : Nat) (s : State) (g : Nat) : (returnRecord k s g).pair = s.pair := by
  unfold returnRecord; split <;> simp

@[simp] theorem releaseCores_pair (s : State) (x : Kern) : (releaseCores s x).pair = s.pair := by
  unfold releaseCores
  refine (pair_foldl (fun t g => ?_) _ _).trans (by simp)
  split
  · split <;> simp
  · rfl

@[simp] theorem completeKernel_pair (s : State) (x : Kern) (killed : Bool) : (completeKernel s x killed).pair = s.pair := by
  unfold completeKernel; simp

@[simp] theorem killKernel_pair (s : State) (k : Nat) : (killKernel s k).pair = s.pair := by
  unfold killKernel; split
  · rfl
  · simp

/-! ## The steward's registers and ports -/

@[simp] theorem setQState_pair (s : State) (q v : Nat) : (setQState s q v).pair = s.pair := writeNat_pair s _ _ _
@[simp] theorem setQueue_pair (s : State) (a : Queue) : (setQueue s a).pair = s.pair := rfl

@[simp] theorem watchNotify_pair (s : State) (q : Nat) : (watchNotify s q).pair = s.pair := by
  unfold watchNotify; split
  · rfl
  · split <;> next h => simp [pair_of_readCounter h]

@[simp] theorem seenAtOpen_pair (s : State) (q : Nat) : (seenAtOpen s q).2.pair = s.pair := by
  unfold seenAtOpen; split
  · rfl
  · split <;> next h => simp [pair_of_readCounter h]

@[simp] theorem startIrq_pair (s : State) (v : Nat) : (startIrq s v).pair = s.pair := by
  unfold startIrq; dsimp only; split
  · rfl
  · split <;> next h => simp [pair_of_readCounter h]

@[simp] theorem openQueue_pair (s : State) (q : Word) : (openQueue s q).pair = s.pair := by unfold openQueue; simp

@[simp] theorem closeQueue_pair (s : State) (q : Word) : (closeQueue s q).pair = s.pair := by
  unfold closeQueue; dsimp only; split
  · rfl
  · simp

@[simp] theorem setLink_pair (s : State) (l : Link) : (setLink s l).pair = s.pair := rfl

@[simp] theorem levtAdd_pair (s : State) (id : LinkId) : (levtAdd s id).pair = s.pair := by
  unfold levtAdd; split <;> simp

@[simp] theorem changeLink_pair (s : State) (l : Link) (st : BitVec 3) : (changeLink s l st).pair = s.pair := by
  unfold changeLink; simp
@[simp] theorem dropLink_pair (s : State) (l : Link) (st : BitVec 3) : (dropLink s l st).pair = s.pair := by unfold dropLink; simp
@[simp] theorem ctlStore_pair (s : State) (id : LinkId) (v : Nat) : (ctlStore s id v).pair = s.pair := by unfold ctlStore; simp
@[simp] theorem signReport_pair (s : State) : (signReport s).pair = s.pair := writeBytes_pair s _ _
@[simp] theorem restartStore_pair (s : State) (v : Word) : (restartStore s v).pair = s.pair := by unfold restartStore; simp [trigger]
@[simp] theorem speedWrpair_ite (s : State) (g : Nat) (code : Byte) : (speedWrite s g code).pair = s.pair := by unfold speedWrite; simp

@[simp] theorem closeEntries_pair (s : State) (g : Nat) : (closeEntries s g).pair = s.pair := by unfold closeEntries; simp
@[simp] theorem beginRelease_pair (s : State) (g sc : Nat) (loc : Option Nat) (inc : Word) (who : Adder) (ends : Bool) :
    (beginRelease s g sc loc inc who ends).pair = s.pair := closeEntries_pair s g

@[simp] theorem wakeStore_pair (s : State) (g : Nat) (inc : Word) (who : Adder) : (wakeStore s g inc who).pair = s.pair := by
  unfold wakeStore; simp
@[simp] theorem refuseStore_pair (s : State) (g : Nat) (v : Word) : (refuseStore s g v).pair = s.pair := by unfold refuseStore; simp
@[simp] theorem killStore_pair (s : State) (k : Word) : (killStore s k).pair = s.pair := by unfold killStore; simp
@[simp] theorem portStore_pair (s : State) (o : Nat) (v : Word) (who : Adder) : (portStore s o v who).pair = s.pair := by
  unfold portStore; simp

@[simp] theorem swStoreByte_pair (s : State) (o : Nat) (b : Byte) : (swStoreByte s o b).pair = s.pair := by
  unfold swStoreByte; split <;> simp

@[simp] theorem swStoreBytes_pair (s : State) (o : Nat) (l : List Byte) : (swStoreBytes s o l).pair = s.pair := by
  induction l generalizing s o with
  | nil => rfl
  | cons x xs ih => exact (ih _ _).trans (swStoreByte_pair s o x)

@[simp] theorem swStore_pair (s : State) (o : Nat) (l : List Byte) (who : Adder) (act : Bool) : (swStore s o l who act).pair = s.pair := by
  unfold swStore; simp

/-! ## Requests that land, and the ports that push them -/

theorem pair_of_landStore {s t : State} {a : Nat} {l : List Byte} {who : Adder} {act : Bool} (h : landStore s a l who act = some t) :
    t.pair = s.pair := by
  unfold landStore at h
  split at h
  · cases h
  · split at h
    · cases h; simp
    · split at h
      · cases h; rfl
      · split at h
        · exact pair_of_links (sendWelt_links h)
        · cases h; simp
  · cases h; exact bumpIo_pair ..

theorem pair_of_spoil {s t : State} {a n : Nat} (h : spoil s a n = some t) : t.pair = s.pair := by
  unfold spoil at h
  split at h
  · cases h; rfl
  · split at h
    · exact pair_of_links (sendWrites_links h)
    · cases h; simp

theorem pair_of_landReq {s t : State} {q : PortReq} (h : landReq s q = some t) : t.pair = s.pair := by
  unfold landReq at h
  split at h
  · split at h
    · cases h
    · exact pair_of_spoil h
    · cases h; exact bumpIo_pair ..
  · exact pair_of_landStore h

@[simp] theorem landSpad_pair (s : State) (q : PortReq) : (landSpad s q).pair = s.pair := by unfold landSpad; simp

@[simp] theorem acceptReq_pair (s : State) (q : PortReq) : (acceptReq s q).pair = s.pair := by unfold acceptReq; simp

@[simp] theorem forwardClu_pair (s : State) (cl : Nat) : (forwardClu s cl).pair = s.pair := by
  unfold forwardClu; split <;> simp

theorem pair_of_forwardDie {s t : State} {d : Nat} (h : forwardDie s d = some t) : t.pair = s.pair := by
  unfold forwardDie at h
  split at h
  · exact (pair_of_landReq h).trans rfl
  · cases h

@[simp] theorem pushClu_pair (p : PortReq → Bool) (n : Nat) (s : State) (cl : Nat) : (pushClu p n s cl).pair = s.pair := by
  induction n generalizing s with
  | zero => rfl
  | succ n ih => unfold pushClu; simp [ih]

@[simp] theorem pushDie_pair (p : PortReq → Bool) (n : Nat) (s : State) (d : Nat) : (pushDie p n s d).pair = s.pair := by
  induction n generalizing s with
  | zero => rfl
  | succ n ih =>
    unfold pushDie
    split
    · split
      · next h => exact (ih _).trans (pair_of_forwardDie h)
      · rfl
    · rfl

@[simp] theorem clearPath_pair (s : State) (g a : Nat) : (clearPath s g a).pair = s.pair := by unfold clearPath pushReqs; simp

end Sys2Proof
end

