-- ==== Sys2Proof/Proofs/LoadsAndStores.lean ====
section
/-!
SUPPORT. Loads, stores and reading back (R81, R84 to R86): a load answers what is visible at its location, a store stands in the buffer, and
the buffer answers the core's loads from the newest store: O19 and O20.
-/
namespace Sys2Proof
open Machine Safety

/-! ## What resolving an access keeps -/

theorem needRead_keeps {s t : State} {b : Bool} {a n : Nat} (h : needRead b a n s = .ok ((), t)) : t.fib = s.fib ∧ t.pair = s.pair := by
  unfold needRead at h
  split at h
  · cases h; exact ⟨rfl, rfl⟩
  · unfold needPath at h
    dsimp only at h
    split at h
    · cases h; exact ⟨clearPath_fib .., clearPath_pair ..⟩
    · cases h

/-- Resolving an access may send ahead what the ports hold and fill a TLB; the fibre in focus stays. -/
theorem resolve_keeps {s t : State} {sg : Fin 8} {o : Word} {n al need k : Nat} {l : List (Nat × Nat)}
    (h : resolve sg o n al need k s = .ok (l, t)) : t.fib = s.fib ∧ t.pair = s.pair := by
  rw [resolve, run_bind_ok (run_get s)] at h
  cases hf : segFault s s.fib.seg[sg] o n al need with
  | some e => simp only [hf] at h; cases h
  | none =>
    simp only [hf] at h
    split at h
    · cases h; exact ⟨rfl, rfl⟩
    · split at h
      · exact ⟨onlyTlbs_fib (translate_tlbs h), onlyTlbs_pair (translate_tlbs h)⟩
      · split at h
        · cases h
        · cases hn : needRead false (handleLoc (bitsOf s.fib.seg[sg].base 24 20)) 32 s with
          | error e => rw [run_bind_error hn] at h; cases h
          | ok r =>
            obtain ⟨⟨⟩, u⟩ := r
            rw [run_bind_ok hn] at h
            obtain ⟨hfib, hpair⟩ := needRead_keeps hn
            exact ⟨(onlyTlbs_fib (translate_tlbs h)).trans hfib, (onlyTlbs_pair (translate_tlbs h)).trans hpair⟩

/-! ## Loads (R84, R85) -/

theorem askedIn_keeps (s : State) (a n : Nat) (b : Bool) : (askedIn s a n b).fib = s.fib ∧ (askedIn s a n b).pair = s.pair := by
  unfold askedIn
  split
  · exact ⟨rfl, rfl⟩
  · exact ⟨clearPath_fib .., clearPath_pair ..⟩

@[simp] theorem correctLoad_fib (s : State) (g : Nat) (b : Bool) (a n : Nat) : (correctLoad s g b a n).fib = s.fib :=
  (correctWords_home s _).fib
@[simp] theorem correctLoad_pair (s : State) (g : Nat) (b : Bool) (a n : Nat) : (correctLoad s g b a n).pair = s.pair :=
  (correctWords_home s _).pair
@[simp] theorem dropLines_fib (s : State) (g a n : Nat) : (dropLines s g a n).fib = s.fib := by unfold dropLines; dsimp only; split <;> rfl
@[simp] theorem dropLines_pair (s : State) (g a n : Nat) : (dropLines s g a n).pair = s.pair := by unfold dropLines; simp

/-- What a load does beside answering leaves the fibre in focus as it is. -/
theorem readPast_keeps (s : State) (a n : Nat) (acq : Option Scope) : (readPast s a n acq).fib = s.fib ∧ (readPast s a n acq).pair = s.pair := by
  obtain ⟨hf, hp⟩ := askedIn_keeps s a n acq.isSome
  cases acq with
  | none => exact ⟨(correctLoad_fib ..).trans hf, (correctLoad_pair ..).trans hp⟩
  | some sc =>
    exact ⟨(dropLines_fib ..).trans ((correctLoad_fib ..).trans hf), (dropLines_pair ..).trans ((correctLoad_pair ..).trans hp)⟩

theorem acquired_pair (s : State) (acq : Option Scope) : (acquired s acq).pair = s.pair := by
  cases acq with
  | none => rfl
  | some sc => exact acquire_pair ..

theorem armedV_dropRefills (f : Fib) (k : Fin 16) : armedV (dropRefills f) k = armedV f k := by simp [armedV, dropRefills, mapVec]

theorem openV_acquire (s : State) (g sc : Nat) (d : Fin 16) : openV (acquire s g sc).fib d = openV s.fib d := by
  unfold acquire openV
  dsimp only
  split
  · rw [armedV_dropRefills]; rfl
  · rfl

theorem openS_acquired (s : State) (acq : Option Scope) (d : SReg) : openS (acquired s acq).fib d = openS s.fib d := by
  cases acq with
  | none => rfl
  | some sc => exact openS_acquire ..

theorem openV_acquired (s : State) (acq : Option Scope) (d : Fin 16) : openV (acquired s acq).fib d = openV s.fib d := by
  cases acq with
  | none => rfl
  | some sc => exact openV_acquire ..

theorem run_acquireOrd (acq : Option Scope) (s : State) : acquireOrd acq s = .ok ((), acquired s acq) := by cases acq <;> rfl

section
variable {s t : State} {acq : Option Scope} {m : MemRef} {n a : Nat} (hp : s.pair = none) (ha : plainS s.fib m.a = true)
  (hr : resolve m.sg (offM s.fib m) n n rightRd accLoad (acquired s acq) = .ok ([(a, n)], t)) (hv : readable t a n acq.isSome = true)
include ha hr hv

/-- The bytes of a load instruction: the acquire that it asks for, then the load. -/
theorem run_loadOp : loadOp acq m n s = .ok (visible t a n acq.isSome, readPast t a n acq) := by
  rw [loadOp, run_bind_ok (rdMem_of_plain ha), run_bind_ok (run_acquireOrd acq s), loadSeg_readable hr hv]

omit ha hv in
include hp in
/-- After a load the destination is as open as it was, and the instruction is still outside a pair. -/
theorem loaded_keeps : (readPast t a n acq).pair = none ∧ (∀ d, openS (readPast t a n acq).fib d = openS s.fib d)
    ∧ ∀ d, openV (readPast t a n acq).fib d = openV s.fib d := by
  obtain ⟨hf, hpair⟩ := readPast_keeps t a n acq
  obtain ⟨hf', hpair'⟩ := resolve_keeps hr
  rw [hf, hf', hpair, hpair', acquired_pair]
  exact ⟨hp, openS_acquired s acq, openV_acquired s acq⟩

include hp

theorem done_of_load {d : SReg} {f : List Byte → Word} {v : Word} (hd : openS s.fib d = true) (hval : f (visible t a n acq.isSome) = v) :
    performSeq (loadOp acq m n >>= fun b => result d (f b)) s = .next (doneS (readPast t a n acq) d v) := by
  obtain ⟨hpair, hopen, -⟩ := loaded_keeps hp hr
  refine done_of_result ?_ hpair ((hopen d).trans hd)
  rw [run_bind_ok (run_loadOp ha hr hv), hval]

theorem done_of_loadV {d : Fin 16} {f : List Byte → VReg} {v : VReg} (hd : openV s.fib d = true) (hval : f (visible t a n acq.isSome) = v) :
    performSeq (loadOp acq m n >>= fun b => resultV d (f b)) s = .next (doneV (readPast t a n acq) d v) := by
  obtain ⟨hpair, -, hopen⟩ := loaded_keeps hp hr
  refine done_of_resultV ?_ hpair ((hopen d).trans hd)
  rw [run_bind_ok (run_loadOp ha hr hv), hval]

end

/-- A loaded scalar: the signed sizes are extended with their sign (R85). -/
theorem extendSize_eq (sz : Fin 7) (v : Nat) : extendSize sz.val v =
    if sz = 1 ∨ sz = 3 ∨ sz = 5 then (BitVec.ofNat (8 * sizeBytes sz.val) v).signExtend 64 else BitVec.ofNat 64 v := by
  have hval (k : Fin 7) : sz.val = k.val ↔ sz = k := Fin.val_inj
  rw [extendSize, sextNat_eq_toInt]
  refine ite_congr ?_ (fun _ => rfl) fun _ => rfl
  rw [← hval 1, ← hval 3, ← hval 5]; rfl

@[simp] theorem coreBytes_length (s : State) (g : Nat) (b : Bool) (a n : Nat) : (coreBytes s g b a n).length = n := by
  induction n generalizing a with
  | zero => rfl
  | succ n ih => exact congrArg (· + 1) (ih _)

@[simp] theorem visible_length (s : State) (a n : Nat) (b : Bool) : (visible s a n b).length = n := by simp [visible]

/-- The bytes of a vector load fill the lanes from the lowest; what they do not reach is zero (R85). -/
theorem lanesOf_eq {bs : List Byte} {n : Nat} (h : bs.length = n) (hn : n % 4 = 0) : lanesOf bs =
    vecOf fun k : Fin 16 => if k.val < n / 4 then BitVec.ofNat 32 (natOf ((bs.drop (4 * k.val)).take 4)) else 0 := by
  refine congrArg vecOf (funext fun k => ?_)
  split
  · rfl
  · rw [List.drop_eq_nil_of_le (by omega)]; rfl

/-- The lanes of `ldvb` (R85). -/
theorem broadcastBytes_eq (sz : Fin 3) (bs : List Byte) : broadcastBytes sz bs = vecOf fun k : Fin 16 =>
    if sz = 0 then BitVec.ofNat 32 (natOf bs * 2 ^ 16) else if sz = 1 then BitVec.ofNat 32 (natOf bs)
    else if k.val % 2 = 0 then BitVec.ofNat 32 (natOf bs) else BitVec.ofNat 32 (natOf bs / 2 ^ 32) := by
  refine congrArg vecOf (funext fun k => ?_)
  rw [apply_ite (BitVec.ofNat 32), apply_ite (BitVec.ofNat 32), apply_ite (BitVec.ofNat 32)]; rfl

/-- Settles O19: the acquire, the access and the load leave the fibre in focus as it is (`loaded_keeps`), and the bytes make up the value of R85
as `extendSize_eq`, `lanesOf_eq` and `broadcastBytes_eq` say. -/
theorem loads : Obligations.Loads := by
  unfold Obligations.Loads
  refine ⟨fun s t sz acq d m a hp ha hd hr hv => ?_, fun s t full acq d m a hp ha hd hr hv => ?_,
    fun s t sz acq d m a hp ha hd hr hv => ?_⟩
  · exact done_of_load hp ha hr hv hd (extendSize_eq sz _)
  · exact done_of_loadV hp ha hr hv hd (lanesOf_eq (visible_length ..) (by cases full <;> rfl))
  · exact done_of_loadV hp ha hr hv hd (broadcastBytes_eq sz _)

/-! ## Stores (R81, R86, R119) -/

@[simp] theorem drainEntry_pair (s : State) (g i : Nat) : (drainEntry s g i).pair = s.pair := by
  unfold drainEntry; dsimp only; split <;> simp

@[simp] theorem buffered_pair (s : State) (a : Nat) (bs : List Byte) : (buffered s a bs).pair = s.pair := by simp [buffered]

/-- A store within one block enters the buffer in one piece. -/
theorem storeIn_block {s : State} {a : Nat} {bs : List Byte} (hne : bs ≠ []) (hfit : a % 64 + bs.length ≤ 64) :
    storeIn s s.focus.1 a bs (selfAdder s) true = buffered s a bs := by
  have hmin : min bs.length (64 - a % 64) = bs.length := by omega
  have hemp : bs.isEmpty = false := by simpa using hne
  have hnil (life : Option Nat) (fuel g b : Nat) (u : State) (who : Adder) (act : Bool) : sbStore life fuel u g b [] who act = u := by
    cases fuel <;> rfl
  rw [storeIn, sbStore, hemp]
  simp only [hmin, List.take_length, List.drop_length, hnil]
  rfl

/-- A store whose access resolves to a location within one block. -/
theorem storeSeg_storable {s t : State} {sg : Fin 8} {o : Word} {bs : List Byte} {n a : Nat} (hlen : bs.length = n) (hn : n ∣ 64)
    (hr : resolve sg o n n rightWr accStore s = .ok ([(a, n)], t)) (hal : a % n = 0) (hs : storable t a = true) :
    storeSeg sg o n bs s = .ok ((), buffered t a bs) := by
  have hpos : 0 < n := Nat.pos_of_dvd_of_pos hn (by decide)
  have hback : (isDpa a && !backed t a) = false := by
    rcases (Bool.or_eq_true ..).mp hs with h | h
    · rw [Bool.not_eq_true' .. |>.mp h]; rfl
    · rw [h]; exact Bool.and_false _
  have hin : storeIn t t.focus.1 a bs (selfAdder t) true = buffered t a bs :=
    storeIn_block (List.ne_nil_of_length_pos (hlen ▸ hpos)) (hlen ▸ mod_add_le_of_dvd (by decide) hn hal)
  rw [storeSeg, hlen, run_bind_ok hr, storeAll, storeSpans, run_bind_ok (run_get t), if_neg (by simp [hback]), run_bind_ok (run_change _ t),
    ← hlen, List.take_length]
  exact congrArg (fun u => Except.ok ((), u)) hin

section
variable {s t : State} {m : MemRef} {a n : Nat} (hp : s.pair = none) (ha : plainS s.fib m.a = true) (hn : n ∣ 64)
  (hr : resolve m.sg (offM s.fib m) n n rightWr accStore s = .ok ([(a, n)], t)) (hal : a % n = 0) (hs : storable t a = true)
include hp ha hn hr hal hs

theorem done_of_store {α : Type} {rdC : M α} {v : α} {f : α → List Byte} (hc : rdC s = .ok (v, s)) (hlen : (f v).length = n) :
    performSeq (do
      let o ← rdMem m
      let v ← rdC
      storeSeg m.sg o n (f v)) s = .next (goOn (buffered t a (f v))) := by
  refine done_of_unit ?_ ((buffered_pair ..).trans ((resolve_keeps hr).2.trans hp))
  rw [run_bind_ok (rdMem_of_plain ha), run_bind_ok hc, storeSeg_storable hlen hn hr hal hs]

end

theorem laneBytes_length (v : VReg) : (laneBytes v).length = 64 := by
  simp [laneBytes, List.length_flatMap]

/-! ## Reading back (R81) -/

/-- The entries of a block, the newest first. -/
def entriesOf (sb : List SbEntry) (block : Nat) : List SbEntry := sb.reverse.filter fun e => e.block == block

theorem sbByte_eq (sb : List SbEntry) (a : Nat) : sbByte sb a = (entriesOf sb (a / 64 * 64)).findSome? fun e => entryByte e (a % 64) := rfl

/-- An entry that takes one more store: the words that it covers whole are no longer poison. -/
def withWrite (w : SbWrite) (e : SbEntry) : SbEntry :=
  { e with writes := e.writes ++ [w], toxic := e.toxic.filter fun o => !(wholeWords w.off w.bytes.length).contains o }

theorem sbMerge_open {c : Core} {block : Nat} {w : SbWrite} (h : c.sb.any (fun e => e.block == block && !e.closed) = true) :
    (sbMerge c block w).sb = c.sb.map fun e => if e.block == block && !e.closed then withWrite w e else e := by
  rw [sbMerge, if_pos h]; rfl

/-- Where no entry of the block is open, an entry is opened with the store. -/
theorem sbMerge_opens {c : Core} {block : Nat} {w : SbWrite} (h : ¬ c.sb.any (fun e => e.block == block && !e.closed) = true) :
    (sbMerge c block w).sb = c.sb ++ [withWrite w { block := block, serial := c.sbSeq }] := by
  rw [sbMerge, if_neg h]; rfl

theorem sbMerge_cache (c : Core) (block : Nat) (w : SbWrite) : (sbMerge c block w).cache = c.cache := by
  unfold sbMerge; split <;> rfl

/-- The entries of a block after a store to an open entry, in the entries before it. -/
theorem entriesOf_map (sb : List SbEntry) (block other : Nat) (w : SbWrite) :
    entriesOf (sb.map fun e => if e.block == block && !e.closed then withWrite w e else e) other =
      (entriesOf sb other).map fun e => if e.block == block && !e.closed then withWrite w e else e := by
  rw [entriesOf, entriesOf, ← List.map_reverse, List.filter_map]
  refine congrArg _ (List.filter_congr fun e _ => ?_)
  rw [Function.comp_apply]
  split <;> rfl

theorem mem_entriesOf {sb : List SbEntry} {block : Nat} {e : SbEntry} : e ∈ entriesOf sb block ↔ e ∈ sb ∧ e.block = block := by
  simp [entriesOf]

/-- A store leaves the entries of another block as they are. -/
theorem entriesOf_sbMerge_ne {c : Core} {block other : Nat} (w : SbWrite) (h : other ≠ block) :
    entriesOf (sbMerge c block w).sb other = entriesOf c.sb other := by
  by_cases ho : c.sb.any (fun e => e.block == block && !e.closed) = true
  · rw [sbMerge_open ho, entriesOf_map]
    refine (List.map_congr_left fun e he => ?_).trans (List.map_id _)
    have hne : e.block ≠ block := (mem_entriesOf.1 he).2 ▸ h
    simp [hne]
  · rw [sbMerge_opens ho, entriesOf, entriesOf, List.reverse_append]
    exact List.filter_cons_of_neg (by simpa [withWrite] using h.symm)

/-- With no closed entry of the block, a store enters every entry of the block, or a new one where there is none. -/
theorem entriesOf_sbMerge {c : Core} {block : Nat} (w : SbWrite) (h : ∀ e ∈ c.sb, e.block = block → e.closed = false) :
    ∃ l ≠ [], (l = entriesOf c.sb block ∨ entriesOf c.sb block = [] ∧ l = [{ block := block, serial := c.sbSeq }])
      ∧ entriesOf (sbMerge c block w).sb block = l.map (withWrite w) := by
  by_cases ho : c.sb.any (fun e => e.block == block && !e.closed) = true
  · obtain ⟨e, he, hopen⟩ := List.any_eq_true.1 ho
    have hin : e ∈ entriesOf c.sb block := mem_entriesOf.2 ⟨he, beq_iff_eq.1 (Bool.and_eq_true_iff.1 hopen).1⟩
    refine ⟨_, List.ne_nil_of_mem hin, .inl rfl, ?_⟩
    rw [sbMerge_open ho, entriesOf_map]
    refine List.map_congr_left fun x hx => ?_
    obtain ⟨hmem, hblock⟩ := mem_entriesOf.1 hx
    simp [hblock, h x hmem hblock]
  · have hnone : entriesOf c.sb block = [] := List.eq_nil_iff_forall_not_mem.2 fun e he => by
      obtain ⟨hmem, hblock⟩ := mem_entriesOf.1 he
      exact ho (List.any_eq_true.2 ⟨e, hmem, by simp [hblock, h e hmem hblock]⟩)
    refine ⟨_, List.cons_ne_nil _ _, .inr ⟨hnone, rfl⟩, ?_⟩
    rw [sbMerge_opens ho, entriesOf, List.reverse_append]
    exact (List.filter_cons_of_pos (by simp [withWrite])).trans (congrArg _ hnone)

theorem mem_wholeWords {off n o : Nat} (h : o ∈ wholeWords off n) : off ≤ o ∧ o + 8 ≤ off + n := by
  simp only [wholeWords, List.mem_filter, Bool.and_eq_true, decide_eq_true_eq] at h
  exact h.2

/-- In an entry the store that came last answers for the bytes that it covers. -/
theorem entryByte_withWrite_in {w : SbWrite} {o : Nat} (e : SbEntry) (h1 : w.off ≤ o) (h2 : o < w.off + w.bytes.length) :
    ∃ x, entryByte (withWrite w e) o = some (nth w.bytes (o - w.off) 0, x) := by
  refine ⟨(withWrite w e).toxic.contains (o / 8 * 8), ?_⟩
  rw [entryByte, withWrite, List.reverse_append, List.reverse_singleton, List.singleton_append, List.find?_cons_of_pos (by simp [h1, h2])]

/-- A store changes nothing in an entry for a byte that it does not cover. -/
theorem entryByte_withWrite_out {w : SbWrite} {o : Nat} (e : SbEntry) (h : ¬ (w.off ≤ o ∧ o < w.off + w.bytes.length)) :
    entryByte (withWrite w e) o = entryByte e o := by
  have hnot : ¬ (wholeWords w.off w.bytes.length).contains (o / 8 * 8) = true := fun hmem => by
    have := mem_wholeWords (List.contains_iff_mem.1 hmem)
    omega
  have htox : ((withWrite w e).toxic.contains (o / 8 * 8)) = e.toxic.contains (o / 8 * 8) := by
    rw [Bool.eq_iff_iff, List.contains_iff_mem, List.contains_iff_mem, withWrite, List.mem_filter]
    exact and_iff_left (by simpa using hnot)
  have hfind : (withWrite w e).writes.reverse = w :: e.writes.reverse := by simp [withWrite]
  rw [entryByte, entryByte, htox, hfind, List.find?_cons_of_neg (by simpa using h)]

/-- The bytes of a store are those that the buffer answers after it (R81). -/
theorem sbByte_sbMerge_in {c : Core} {a : Nat} {w : SbWrite} (hopen : ∀ e ∈ c.sb, e.block = a / 64 * 64 → e.closed = false)
    (h1 : w.off ≤ a % 64) (h2 : a % 64 < w.off + w.bytes.length) :
    ∃ x, sbByte (sbMerge c (a / 64 * 64) w).sb a = some (nth w.bytes (a % 64 - w.off) 0, x) := by
  obtain ⟨l, hne, -, hl⟩ := entriesOf_sbMerge w hopen
  obtain ⟨e, r, rfl⟩ := List.exists_cons_of_ne_nil hne
  obtain ⟨x, hx⟩ := entryByte_withWrite_in e h1 h2
  exact ⟨x, by rw [sbByte_eq, hl, List.map_cons, List.findSome?_cons, hx]⟩

/-- The entry replaces the whole word. -/
def entryWhole (word : Nat) (e : SbEntry) : Bool :=
  e.block == word / 64 * 64 && e.writes.any fun x => x.off ≤ word % 64 && word % 64 + 8 ≤ x.off + x.bytes.length

theorem sbWhole_eq (sb : List SbEntry) (word : Nat) : sbWhole sb word = sb.any (entryWhole word) := rfl

theorem entryWhole_withWrite {word : Nat} {e : SbEntry} {w : SbWrite}
    (h : e.block = word / 64 * 64 → ¬ (w.off ≤ word % 64 ∧ word % 64 + 8 ≤ w.off + w.bytes.length)) :
    entryWhole word (withWrite w e) = entryWhole word e := by
  by_cases hb : e.block = word / 64 * 64
  · have hno : (w.off ≤ word % 64 && word % 64 + 8 ≤ w.off + w.bytes.length) = false := by simpa using h hb
    rw [entryWhole, entryWhole, withWrite, List.any_append, List.any_cons, hno]
    simp
  · have hne : (e.block == word / 64 * 64) = false := beq_false_of_ne hb
    simp only [entryWhole, withWrite, hne, Bool.false_and]

section
variable {c : Core} {block a : Nat} {w : SbWrite}
  (hout : a / 64 * 64 = block → ¬ (w.off ≤ a % 64 ∧ a % 64 < w.off + w.bytes.length))
include hout

/-- Of another byte the buffer answers what it answered before. -/
theorem sbByte_sbMerge_out (hopen : ∀ e ∈ c.sb, e.block = block → e.closed = false) :
    sbByte (sbMerge c block w).sb a = sbByte c.sb a := by
  rw [sbByte_eq, sbByte_eq]
  by_cases hb : a / 64 * 64 = block
  · obtain ⟨l, -, hcase, hl⟩ := entriesOf_sbMerge w hopen
    have hsame : (fun e => entryByte e (a % 64)) ∘ withWrite w = fun e => entryByte e (a % 64) :=
      funext fun e => entryByte_withWrite_out e (hout hb)
    rw [hb, hl, List.findSome?_map, hsame]
    obtain rfl | ⟨hnone, rfl⟩ := hcase
    · rfl
    · rw [hnone]; rfl
  · rw [entriesOf_sbMerge_ne w hb]

/-- And no other word becomes one that the buffer replaces whole. -/
theorem sbWhole_sbMerge_out : sbWhole (sbMerge c block w).sb (a / 8 * 8) = sbWhole c.sb (a / 8 * 8) := by
  have hword : a / 8 * 8 / 64 * 64 = a / 64 * 64 := by omega
  have hsame {e : SbEntry} (he : e.block = block) : entryWhole (a / 8 * 8) (withWrite w e) = entryWhole (a / 8 * 8) e :=
    entryWhole_withWrite fun hb hcov => hout (hword ▸ hb ▸ he) (by omega)
  rw [sbWhole_eq, sbWhole_eq]
  by_cases ho : c.sb.any (fun e => e.block == block && !e.closed) = true
  · rw [sbMerge_open ho, List.any_map]
    congr 1
    funext e
    rw [Function.comp_apply]
    split
    · next h => exact hsame (beq_iff_eq.1 (Bool.and_eq_true_iff.1 h).1)
    · rfl
  · rw [sbMerge_opens ho, List.any_append, List.any_cons, hsame rfl]
    simp [entryWhole]

end

/-! ## A buffer with room for the store -/

section
variable {s : State} {a : Nat} {bs : List Byte}

/-- Into a buffer with room for it the store goes without a drain (R119). -/
theorem buffered_of_room (h : (getCore s s.focus.1).sb.any (fun e => e.block == a / 64 * 64 && !e.closed) = true
      ∨ (getCore s s.focus.1).sb.length < 32) :
    ∃ w : SbWrite, w.off = a % 64 ∧ w.bytes = bs
      ∧ buffered s a bs = setCore s s.focus.1 (sbMerge (getCore s s.focus.1) (a / 64 * 64) w) := by
  refine ⟨{ off := a % 64, bytes := bs, who := selfAdder s, act := bs.length == 8 && a % 8 == 0, life := makerLife s s.focus.1 (selfAdder s) },
    rfl, rfl, ?_⟩
  rw [buffered, if_pos (by simpa using h)]

/-- A byte that the core's buffer answers. -/
theorem coreByte_of_sbByte {g b : Nat} {c : Core} {v : Byte} {x : Bool} (bypass : Bool) (h : sbByte c.sb b = some (v, x)) :
    (coreByte (setCore s g c) g bypass b).1 = v := by
  simp [coreByte, coreByteOver, h]

/-- A core whose read cache is the same, and whose buffer answers the same of a byte, reads the same there. -/
theorem coreByte_setCore {g b : Nat} {c : Core} (bypass : Bool) (hcache : c.cache = (getCore s g).cache)
    (hbyte : sbByte c.sb b = sbByte (getCore s g).sb b) (hwhole : sbWhole c.sb (b / 8 * 8) = sbWhole (getCore s g).sb (b / 8 * 8))
    (hsw : isSw b = false) : coreByte (setCore s g c) g bypass b = coreByte s g bypass b := by
  have hhome : homeByte (setCore s g c) b = homeByte s b := by
    rw [homeByte, homeByte, if_neg (by simp [hsw]), if_neg (by simp [hsw])]; rfl
  have hreqs : seenReqs (setCore s g c) g = seenReqs s g := rfl
  have hseen (y : Byte × Bool) : seenByte (setCore s g c) g b y = seenByte s g b y := by rw [seenByte, seenByte, hreqs]
  simp only [coreByte, coreByteOver, getCore_setCore_same, hhome, hseen, hcache, hbyte, hwhole]

end

/-- Settles O20: an aligned store lies within one block and enters the buffer in one piece (`storeSeg_storable`); then the entries of its block,
newest first, answer its bytes with it and every other byte as before (`entriesOf_sbMerge`). -/
theorem storesAndReadBack : Obligations.StoresAndReadBack := by
  unfold Obligations.StoresAndReadBack
  refine ⟨⟨fun s t sz m c a hp ha hc hr hal hs => ?_, fun s t full m c a hp ha hc hr hal hs => ?_⟩,
    fun s a bs bypass hfit hroom hopen => ?_⟩
  · exact done_of_store hp ha (Nat.pow_dvd_pow 2 (n := 6) (by omega)) hr hal hs (rd_of_plain hc) (bytesOf_length _ _)
  · exact done_of_store (f := fun v => (laneBytes v).take (if full then 64 else 32)) hp ha (by cases full <;> decide) hr hal hs
      (rdV_of_plain hc) (by rw [List.length_take, laneBytes_length]; cases full <;> rfl)
  · obtain ⟨w, hoff, hbytes, hw⟩ := buffered_of_room (bs := bs) hroom
    rw [hw]
    refine ⟨fun i hi => ?_, fun b hb hsw => ?_⟩
    · have hblock : (a + i) / 64 * 64 = a / 64 * 64 := by omega
      obtain ⟨x, hx⟩ := sbByte_sbMerge_in (a := a + i) (w := w) (hblock ▸ hopen) (by omega) (by rw [hbytes]; omega)
      rw [coreByte_of_sbByte bypass (hblock ▸ hx), hbytes, hoff, show (a + i) % 64 - a % 64 = i by omega, nth, List.getElem?_eq_getElem hi]
      rfl
    · have hout (h : b / 64 * 64 = a / 64 * 64) : ¬ (w.off ≤ b % 64 ∧ b % 64 < w.off + w.bytes.length) := by rw [hoff, hbytes]; omega
      exact coreByte_setCore bypass (sbMerge_cache ..) (sbByte_sbMerge_out hout hopen) (sbWhole_sbMerge_out hout) hsw

end Sys2Proof
end

