-- ==== Sys2Proof/Proofs/Streams.lean ====
section
/-!
SUPPORT. Streams: arming and disarming a position (R90, R93), and what reading and writing its register does (R91): O22 and O23.
-/
namespace Sys2Proof
open Machine Safety

/-! ## Arming and disarming (R90, R93) -/

/-- What `sarm` arms: the stream of the record at offset o, at its first element (R90). -/
def freshStream (out : Bool) (d : StreamReg) (m : MemRef) (dseg : Fin 8) (o : Word) (q : Pattern) : Stream :=
  { armed := true, isV := d.isV, out := out, dseg := dseg, pseg := m.sg, index := 0, poff := o.setWidth 48, pat := some q }

theorem exec_sarm {s t : State} {out : Bool} {d : StreamReg} {m : MemRef} {dseg : Fin 8} {b : List Byte} {q : Pattern}
    (ha : plainS s.fib m.a = true) (hb : loadSeg m.sg (offM s.fib m) 64 64 false s = .ok (b, t)) (hq : patternOf b d.isV = some q)
    (hstr : hasRights t.fib.seg[dseg] rightStr = true) (hacc : hasRights t.fib.seg[dseg] (if out then rightWr else rightRd) = true)
    (hfault : armFault t t.fib.seg[dseg] q (if out then rightWr else rightRd) = none) (ht : t.pair = none) :
    exec (.sarm out d m dseg) s = .next (goOn { dropCache t t.focus.1 with
      fib := { disarm t.fib d.p with streams := (disarm t.fib d.p).streams.set d.p (freshStream out d m dseg (offM s.fib m) q) } }) := by
  refine done_of_unit ?_ ht
  rw [run_bind_ok (rdMem_of_plain ha), run_bind_ok hb, hq]
  dsimp only
  rw [run_bind_ok (run_get t), if_neg (by rw [hstr, hacc]; simp), hfault]
  rfl

theorem exec_sdis {s : State} {d : SReg} {c : StreamReg} (hp : s.pair = none) (hd : openS (disarmNamed s.fib c) d = true) :
    exec (.sdis d c) s = .next (doneS { s with fib := disarmNamed s.fib c } d
      (if s.fib.streams[c.p].armed then s.fib.streams[c.p].index.zeroExtend 64 else 0)) :=
  done_of_result (u := { s with fib := disarmNamed s.fib c }) rfl hp hd

/-- Settles O22: with every check of R90 passed `sarm` goes through to `freshStream`, and `sdis` answers the INDEX at issue. -/
theorem armAndDisarm : Obligations.ArmAndDisarm := by
  unfold Obligations.ArmAndDisarm
  exact ⟨fun _ _ _ _ _ _ _ _ _ ha hb hq hstr hacc hfault ht => exec_sarm ha hb hq hstr hacc hfault ht, fun _ _ _ hp hd => exec_sdis hp hd⟩

/-! ## Popping and pushing (R91) -/

/-- A stream after a pop of the first refilled element, with the others left. -/
def poppedStream (x : Stream) (rest : List Refill) : Stream := { x with index := x.index + 1, buf := rest }

/-- The state after a push of bytes that lands at location loc (R91). -/
def pushedTo (t : State) (p : Fin 4) (index : BitVec 48) (loc : Nat) (bs : List Byte) : State :=
  let u := buffered t loc bs
  { u with fib := { u.fib with streams := u.fib.streams.set p { u.fib.streams[p] with index := index + 1 } } }

theorem sizeBytes_dvd (n : Nat) : sizeBytes n ∣ 64 := by
  unfold sizeBytes; split <;> decide

/-- What a write to the register of position p does with the bytes of the value, while the position is armed (R91). -/
def writeStream (p : Fin 4) (bs : List Byte) : M Unit := do
  let f ← theFib
  if f.streams[p].out then pushStream p bs else pure ()

theorem writeS_armed {s : State} {d : SReg} {p : Fin 4} (v : Word) (h : armedS s.fib d = some p) :
    writeS d v s = writeStream p (bytesOf 8 v.toNat) s := by
  rw [writeS, writeStream, run_bind_ok (run_theFib s), run_bind_ok (run_theFib s), h]

theorem writeV_armed {s : State} {d : Fin 16} {p : Fin 4} (v : VReg) (h : armedV s.fib d = some p) :
    writeV d v s = writeStream p (laneBytes v) s := by
  rw [writeV, writeStream, run_bind_ok (run_theFib s), run_bind_ok (run_theFib s), h]

section
variable {s : State} {p : Fin 4} {q : Pattern} {x : Stream} (hx : s.fib.streams[p] = x) (hagain : x.again = false) (hpat : x.pat = some q)
include hx hagain hpat

/-- A stream whose record has been read follows the pattern that was read. -/
theorem run_streamPattern : streamPattern p s = .ok (q, s) := by
  rw [streamPattern, run_bind_ok (run_theFib s), hx, hagain, hpat]
  rfl

theorem popStream_at_end (hend : x.index.toNat ≥ q.total) : popStream p s = .ok (none, s) := by
  rw [popStream, run_bind_ok (run_streamPattern hx hagain hpat), run_bind_ok (run_theFib s), hx]
  exact congrFun (if_pos hend) s

/-- A pop of an element that a refill has brought (R91, R92): its translation is tested, and INDEX moves on. -/
theorem popStream_refilled {t : State} {e : Refill} {r : List Refill} {l : List (Nat × Nat)} (hidx : x.index.toNat < q.total)
    (hbuf : x.buf = e :: r) (htox : e.toxic = none)
    (hr : resolve x.dseg (q.off x.index.toNat) (sizeBytes q.esize) (sizeBytes q.esize) rightRd accLoad s = .ok (l, t)) :
    popStream p s = .ok (some (q, e.bytes), { t with fib := { s.fib with streams := s.fib.streams.set p (poppedStream x r) } }) := by
  rw [popStream, run_bind_ok (run_streamPattern hx hagain hpat), run_bind_ok (run_theFib s), hx]
  dsimp only
  rw [if_neg (Nat.not_le.2 hidx), hbuf]
  dsimp only
  rw [run_bind_ok hr, htox, ← (resolve_keeps hr).1]
  rfl

/-- An input stream takes no write, and an output stream none at INDEX = N. -/
theorem writeStream_discards (bs : List Byte) (h : x.out = false ∨ x.index.toNat ≥ q.total) : writeStream p bs s = .ok ((), s) := by
  rw [writeStream, run_bind_ok (run_theFib s), hx]
  split
  · next hout =>
    rw [pushStream, run_bind_ok (run_streamPattern hx hagain hpat), run_bind_ok (run_theFib s), hx]
    exact congrFun (if_pos (h.resolve_left (by simp [hout]))) s
  · rfl

theorem writeStream_stores {t : State} {bs : List Byte} {loc : Nat} (hout : x.out = true) (hidx : x.index.toNat < q.total)
    (hlen : sizeBytes q.esize ≤ bs.length)
    (hr : resolve x.dseg (q.off x.index.toNat) (sizeBytes q.esize) (sizeBytes q.esize) rightWr accStore s = .ok ([(loc, sizeBytes q.esize)], t))
    (hal : loc % sizeBytes q.esize = 0) (hs : storable t loc = true) :
    writeStream p bs s = .ok ((), pushedTo t p x.index loc (bs.take (sizeBytes q.esize))) := by
  rw [writeStream, run_bind_ok (run_theFib s), hx, if_pos hout, pushStream, run_bind_ok (run_streamPattern hx hagain hpat),
    run_bind_ok (run_theFib s), hx]
  dsimp only
  rw [if_neg (Nat.not_le.2 hidx), run_bind_ok (storeSeg_storable (List.length_take_of_le hlen) (sizeBytes_dvd _) hr hal hs)]
  rfl

end

theorem pushedTo_pair {t : State} (p : Fin 4) (index : BitVec 48) (loc : Nat) (bs : List Byte) : (pushedTo t p index loc bs).pair = t.pair :=
  buffered_pair t loc bs

/-- A scalar result whose destination is an armed stream: it is pushed, and the stream takes the write (R40, R91). -/
theorem result_armed {s : State} {d : SReg} {p : Fin 4} (v : Word) (hp : s.pair = none) (h : armedS s.fib d = some p) :
    result d v s = writeStream p (bytesOf 8 v.toNat) { s with fib := pushLa s.fib v } := by
  rw [result, run_bind_ok (run_get s), if_neg (by simp [hp]), run_bind_ok (run_modFib _ s), writeS_armed v (by simpa using h)]

theorem resultV_armed {s : State} {d : Fin 16} {p : Fin 4} (v : VReg) (hp : s.pair = none) (h : armedV s.fib d = some p) :
    resultV d v s = writeStream p (laneBytes v) s := by
  rw [resultV, run_bind_ok (run_get s), if_neg (by simp [hp]), writeV_armed v h]

theorem exec_mov_armed {s u : State} {a : SReg} {p : Fin 4} (hp : s.pair = none) (ha : plainS s.fib a = true)
    (h : armedS s.fib (streamSReg p) = some p) (hpu : u.pair = none)
    (hw : writeStream p (bytesOf 8 (regVal s.fib a).toNat) { s with fib := pushLa s.fib (regVal s.fib a) } = .ok ((), u)) :
    exec (.mov (streamSReg p) a) s = .next (goOn u) := by
  refine done_of_unit ?_ hpu
  rw [scalar1, run_bind_ok (rd_of_plain ha)]
  exact (result_armed _ hp h).trans hw

theorem exec_vmov_armed {s u : State} {a : Fin 16} {p : Fin 4} (hp : s.pair = none) (ha : plainV s.fib a = true)
    (h : armedV s.fib (streamVReg p) = some p) (hpu : u.pair = none) (hw : writeStream p (laneBytes s.fib.v[a]) s = .ok ((), u)) :
    exec (.vmov (streamVReg p) a) s = .next (goOn u) := by
  have hid : lanes1 id s.fib.v[a] = s.fib.v[a] := vreg_ext fun i => vecOf_get _ _ _
  refine done_of_unit ?_ hpu
  rw [vec1, run_bind_ok (rdV_of_plain ha), hid, resultV_armed _ hp h, hw]

/-- A read of an armed stream's register. -/
theorem rd_armed_out {s : State} {r : SReg} {p : Fin 4} (h : armedS s.fib r = some p) (hout : s.fib.streams[p].out = true) :
    rd r s = .ok (0, s) := by
  rw [rd, run_bind_ok (run_theFib s), h]
  exact congrFun (if_pos hout) s

theorem rd_armed_end {s : State} {r : SReg} {p : Fin 4} (h : armedS s.fib r = some p) (hout : s.fib.streams[p].out = false)
    (hpop : popStream p s = .ok (none, s)) : rd r s = .ok (0, s) := by
  rw [rd, run_bind_ok (run_theFib s), h]
  dsimp only
  rw [if_neg (by rw [hout]; exact Bool.false_ne_true), run_bind_ok hpop]
  rfl

theorem rd_armed_pops {s t : State} {r : SReg} {p : Fin 4} {q : Pattern} {b : List Byte} (h : armedS s.fib r = some p)
    (hout : s.fib.streams[p].out = false) (hpop : popStream p s = .ok (some (q, b), t)) : rd r s = .ok (extendSize q.esize (natOf b), t) := by
  rw [rd, run_bind_ok (run_theFib s), h]
  dsimp only
  rw [if_neg (by rw [hout]; exact Bool.false_ne_true), run_bind_ok hpop]
  rfl

theorem exec_mov_read {s t : State} {d r : SReg} {v : Word} (hr : rd r s = .ok (v, t)) (hp : t.pair = none) (hd : openS t.fib d = true) :
    exec (.mov d r) s = .next (doneS t d v) := by
  refine done_of_result ?_ hp hd
  rw [scalar1, run_bind_ok hr]
  rfl

/-- A pop leaves every register as armed as it was. -/
theorem armedS_pop (f : Fib) (p : Fin 4) (rest : List Refill) (d : SReg) :
    armedS { f with streams := f.streams.set p (poppedStream f.streams[p] rest) } d = armedS f d := by
  have hkeep (j : Fin 4) : (f.streams.set p (poppedStream f.streams[p] rest))[j].armed = f.streams[j].armed
      ∧ (f.streams.set p (poppedStream f.streams[p] rest))[j].isV = f.streams[j].isV := by
    by_cases h : p = j
    · subst h; simp [poppedStream]
    · have hne : p.val ≠ j.val := fun e => h (Fin.ext e)
      simp [hne]
  cases d with
  | s k => simp only [armedS, hkeep]
  | la k | z | x k => rfl

/-- Settles O23: a write to an armed stream's register is `writeStream`, which stores at off(INDEX) or discards, and a read pops the element that
a refill has brought (`popStream_refilled`), or nothing at INDEX = N. -/
theorem streamPops : Obligations.StreamPops := by
  unfold Obligations.StreamPops
  refine ⟨fun s p q hp hagain hpat => ⟨fun a ha h => ⟨fun hdis => ?_, fun t loc hout hidx hr hal hs hz => ?_⟩,
      fun a ha h => ⟨fun hdis => ?_, fun t loc hout hidx hr hal hs => ?_⟩⟩,
    fun s d p q hp hd h hagain hpat => ⟨fun hout => ?_, fun hout hend => ?_, fun e r t l hout hidx hbuf htox hr => ?_⟩⟩
  · have hx : (pushLa s.fib (regVal s.fib a)).streams[p] = s.fib.streams[p] := by rw [pushLa_streams]
    exact exec_mov_armed hp ha h hp (writeStream_discards hx hagain hpat _ hdis)
  · have hx : (pushLa s.fib (regVal s.fib a)).streams[p] = s.fib.streams[p] := by rw [pushLa_streams]
    refine exec_mov_armed hp ha h ?_ (writeStream_stores hx hagain hpat hout hidx ?_ hr hal hs)
    · exact (pushedTo_pair ..).trans ((resolve_keeps hr).2.trans hp)
    · rw [bytesOf_length]; exact hz
  · exact exec_vmov_armed hp ha h hp (writeStream_discards rfl hagain hpat _ hdis)
  · refine exec_vmov_armed hp ha h ?_ (writeStream_stores rfl hagain hpat hout hidx ?_ hr hal hs)
    · exact (pushedTo_pair ..).trans ((resolve_keeps hr).2.trans hp)
    · rw [laneBytes_length]; exact Nat.le_of_dvd (by decide) (sizeBytes_dvd _)
  · exact exec_mov_read (rd_armed_out h hout) hp hd
  · exact exec_mov_read (rd_armed_end h hout (popStream_at_end rfl hagain hpat hend)) hp hd
  · refine exec_mov_read (rd_armed_pops h hout (popStream_refilled rfl hagain hpat hidx hbuf htox hr)) ((resolve_keeps hr).2.trans hp) ?_
    exact (congrArg (· == none) (armedS_pop s.fib p r d)).trans hd

end Sys2Proof
end

