-- ==== Sys2Proof/Proofs/Counters.lean ====
section
/-!
SUPPORT. The counter instructions (R95-R114): O24 and O25. Each comes to its word, with its release before and its acquire after, in its turn
at the word's home; what an add leaves at a home on which nothing waits.
-/
namespace Sys2Proof
open Machine Safety

/-! ## An add at its home (R98, R99, R105, R108) -/

/-- A read of words that hold no single-bit error changes nothing (R82). -/
theorem correctRead_clean {s : State} {a n : Nat} (h : ∀ w ∈ s.latent, w + 8 ≤ a ∨ a + n ≤ w) : correctRead s a n = s := by
  have hnone : s.latent.filter (meetsWord a n) = [] := by
    refine List.filter_eq_nil_iff.2 fun w hw => ?_
    have := h w hw
    simp only [meetsWord, Bool.and_eq_true, decide_eq_true_eq]
    omega
  rw [correctRead, correctWords, hnone]
  rfl

theorem startStrag_none {s : State} {a : Nat} (h : ∀ r ∈ s.strag, r.loc ≠ a) : startStrag s a = s := by
  have hnone : stragOf s a = none := List.find?_eq_none.2 fun r hr => by simpa using h r hr
  rw [startStrag, hnone]

theorem testWaiters_none {s : State} {a : Nat} (v : Word) (who : Adder) (h : ∀ e ∈ s.enrol, e.loc ≠ a) : testWaiters s a v who = s := by
  have hnone : (s.enrol.filter fun e => e.loc == a && !e.poll && !isGetter e.who && reached v e.thr) = [] :=
    List.filter_eq_nil_iff.2 fun e he => by simp [h e he]
  rw [testWaiters, hnone]

/-- On a word with no waiter and no straggler record a new value is a write. -/
theorem setCounter_quiet {s : State} {a : Nat} (v : Word) (who : Adder) (hw : ∀ e ∈ s.enrol, e.loc ≠ a) (hr : ∀ r ∈ s.strag, r.loc ≠ a) :
    setCounter s a v who = writeWord s a v := by
  rw [setCounter, startStrag_none hr, testWaiters_none]
  rwa [writeWord, writeNat, writeBytes_enrol]

theorem addAt_quiet {s : State} {a : Nat} (inc : Word) (who : Adder) (ht : isToxic s a = false) (hw : ∀ e ∈ s.enrol, e.loc ≠ a)
    (hr : ∀ r ∈ s.strag, r.loc ≠ a) (hl : ∀ w ∈ s.latent, w + 8 ≤ a ∨ a + 8 ≤ w) :
    addAt s a inc who = writeWord s a (readWord s a + inc) := by
  rw [addAt, correctRead_clean hl, if_neg (by simp [ht]), setCounter_quiet _ _ hw hr]

/-- The distance modulo 2^64 from a threshold to a value (R99). -/
theorem reached_iff (v t : Word) : reached v t = true ↔ ((v.toNat : Int) - t.toNat) % 2 ^ 64 < 2 ^ 63 := by
  rw [reached, decide_eq_true_iff, BitVec.toNat_sub]
  omega

/-! ## Before and after the visit to the home -/

theorem run_isToxicM (a : Nat) (s : State) : isToxicM a s = .ok (isToxic s a, s) := rfl

theorem run_acquireAt (acq : Bool) (sc : Scope) (s : State) : acquireAt acq sc s = .ok ((), acquiredIf s acq sc) := by cases acq <;> rfl

theorem acquiredIf_pair (s : State) (acq : Bool) (sc : Scope) : (acquiredIf s acq sc).pair = s.pair := by
  cases acq with
  | false => rfl
  | true => exact acquire_pair ..

/-- A publish that waits keeps what it has closed, with the fibre's context as it was at issue (R120). -/
def heldRelease (f : Fib) (s : State) (sc : Nat) : Stop :=
  .leave (.publish sc (publishFrom s sc).1) (some { (publishFrom s sc).2 with fib := f })

theorem run_release (f : Fib) (sc : Nat) (s : State) : release f sc s = match publishes s sc with
    | some t => .ok ((), t)
    | none => .error (heldRelease f s sc) := by
  by_cases hdone : publishDone (publishFrom s sc).2 s.focus.1 sc (publishFrom s sc).1 = true
  · rw [show publishes s sc = some _ from if_pos hdone]
    exact if_pos hdone
  · rw [show publishes s sc = none from if_neg hdone]
    exact if_neg hdone

theorem run_releaseAt_some {s t : State} {rel : Bool} {sc : Scope} (f : Fib) (h : released s rel sc = some t) :
    releaseAt f rel sc s = .ok ((), t) := by
  cases rel with
  | false => cases h; rfl
  | true =>
    have hpub : publishes s (scopeCode sc) = some t := h
    exact (run_release f _ s).trans (by rw [hpub])

theorem run_releaseAt_none {s : State} {rel : Bool} {sc : Scope} (f : Fib) (h : released s rel sc = none) :
    releaseAt f rel sc s = .error (heldRelease f s (scopeCode sc)) := by
  cases rel with
  | false => cases h
  | true =>
    have hpub : publishes s (scopeCode sc) = none := h
    exact (run_release f _ s).trans (by rw [hpub])

section
variable {s : State} {a : Nat}

theorem run_comeAfterOwn (h : othersAhead s s.focus.1 (.home (homeOf a)) (fibIndex s.fib) = false) :
    comeAfterOwn a s = .ok ((), correctRead (flushMsgs s s.focus.1 (homeOf a)) a 8) := by
  have hturn : needTurn (.home (homeOf a)) s = .ok ((), s) := by rw [needTurn, h]; rfl
  rw [comeAfterOwn, run_bind_ok hturn]
  rfl

theorem run_comeAfterOwn_behind (h : othersAhead s s.focus.1 (.home (homeOf a)) (fibIndex s.fib) = true) :
    comeAfterOwn a s = .error (.leave .room none) := by
  have hturn : needTurn (.home (homeOf a)) s = .error (.leave .room none) := by rw [needTurn, h]; rfl
  rw [comeAfterOwn, run_bind_error hturn]

/-- An instruction that waits for its publish keeps its place (R96). -/
theorem inTurn_publish {α : Type} {key : State → TurnKey} {m : M α} {sc : Nat} {b : Bound} {keep : Option State}
    (h : m s = .error (.leave (.publish sc b) keep)) : inTurn key m s = .error (.leave (.turn (key s) (.publish sc b)) keep) := by
  simp only [inTurn, h]

/-- The add that the fibre in focus posts to the word at a (R115). -/
def ownAdd (s : State) (a : Nat) (n : Word) : CtrMsg := { src := s.focus.1, loc := a, inc := n, who := selfAdder s }

theorem postMsg_free (n : Word) (h : othersAhead s s.focus.1 (.home (homeOf a)) (fibIndex s.fib) = false) :
    postMsg s (ownAdd s a n) = { s with msgs := s.msgs ++ [ownAdd s a n] } :=
  if_neg (by simp [ownAdd, h])

/-- Behind what its core still holds for the home, an add takes the place of its instruction, or the last one (R96). -/
theorem postMsg_behind (n : Word) (h : othersAhead s s.focus.1 (.home (homeOf a)) (fibIndex s.fib) = true) :
    postMsg s (ownAdd s a n) = setCore s s.focus.1 { getCore s s.focus.1 with
      waitq := if (getCore s s.focus.1).waitq.any (·.isOf (fibIndex s.fib)) then
          (getCore s s.focus.1).waitq.map fun w => if w.isOf (fibIndex s.fib) then .add (ownAdd s a n) else w
        else (getCore s s.focus.1).waitq ++ [.add (ownAdd s a n)] } :=
  if_pos h

end

@[simp] theorem postMsg_pair (s : State) (m : CtrMsg) : (postMsg s m).pair = s.pair := by
  rw [postMsg]
  exact (pair_ite _ _).trans (ite_self _)

/-! ## A counter operand -/

section
variable {s : State} {m : CRef} {a : Nat} (hp : s.pair = none) (ha : plainS s.fib m.a = true)
  (hword : counterWord m.sg (offC s.fib m) s = .ok (a, s))
include ha hword

theorem counterKey_home : counterKey m s = .home (homeOf a) := by
  have hrun : (do let o ← rdRef m; counterWord m.sg o : M Nat) s = .ok (a, s) := by rw [run_bind_ok (rdRef_of_plain ha), hword]
  rw [counterKey, hrun]

theorem run_counterOperand {α : Type} (k : Word → Nat → M α) :
    (do let o ← rdRef m; let b ← counterWord m.sg o; k o b : M α) s = k (offC s.fib m) a s := by
  rw [run_bind_ok (rdRef_of_plain ha), run_bind_ok hword]

include hp in
theorem waits_for_home {x : M Unit} (h : x s = .error (.leave .room none)) :
    performSeq (inTurn (counterKey m) x) s = .next (waitsForRoom s a) := by
  rw [waits_inTurn h hp, counterKey_home ha hword]
  rfl

/-! ## cadd and cadd.f (R111) -/

section
variable {i : CArg} (hi : plainArg s.fib i = true)
include hi

theorem run_caddStart_large (f : Fib) (rel : Bool) (sc : Scope) (hn : (valArg s.fib i).toNat ≥ 2 ^ 63) :
    caddStart f rel sc m i s = .error (.trap 0x0B (offC s.fib m) false none) := by
  rw [caddStart, run_counterOperand ha hword, run_bind_ok (rdArg_of_plain hi), if_pos hn, run_fail]

variable {rel : Bool} {sc : Scope} (hub : unbuffered s a = true) (hn : (valArg s.fib i).toNat < 2 ^ 63)
include hub hn

theorem run_caddStart (f : Fib) {t : State} (hrel : released s rel sc = some t) :
    caddStart f rel sc m i s = .ok ((offC s.fib m, a, valArg s.fib i), t) := by
  rw [caddStart, run_counterOperand ha hword, run_bind_ok (rdArg_of_plain hi), if_neg (by omega), run_bind_ok (run_drainWord hub),
    run_bind_ok (run_releaseAt_some f hrel), run_pure]

theorem run_caddStart_waits (f : Fib) (hrel : released s rel sc = none) :
    caddStart f rel sc m i s = .error (heldRelease f s (scopeCode sc)) := by
  rw [caddStart, run_counterOperand ha hword, run_bind_ok (rdArg_of_plain hi), if_neg (by omega), run_bind_ok (run_drainWord hub),
    run_bind_error (run_releaseAt_none f hrel)]

/-- An add whose release waits. -/
theorem waits_for_release (k : Word × Nat × Word → M Unit) (hp : s.pair = none) (hrel : released s rel sc = none) :
    performSeq (inTurn (counterKey m) (caddStart s.fib rel sc m i >>= k)) s =
      .next (waitsFor { (publishFrom s (scopeCode sc)).2 with fib := s.fib } (.home (homeOf a))
        (.publish (scopeCode sc) (publishFrom s (scopeCode sc)).1)) := by
  rw [performSeq_leave (inTurn_publish (run_bind_error (run_caddStart_waits ha hword hi hub hn s.fib hrel))) hp, counterKey_home ha hword]
  rfl

section
variable {t : State} (hrel : released s rel sc = some t) (hpt : t.pair = none)
include hrel hpt

theorem exec_cadd : exec (.cadd rel sc m i) s = .next (goOn (postMsg t (ownAdd t a (valArg s.fib i)))) := by
  refine done_of_unit (inTurn_ok ?_) ((postMsg_pair t _).trans hpt)
  rw [run_bind_ok (run_caddStart ha hword hi hub hn s.fib hrel), postAdd, run_change]
  rfl

omit hpt in
include hp in
theorem exec_caddF_behind {d : SReg} (hahead : othersAhead t t.focus.1 (.home (homeOf a)) (fibIndex t.fib) = true) :
    exec (.caddF rel sc d m i) s = .next (waitsFor s (.home (homeOf a)) .room) := by
  refine waits_for_home hp ha hword ?_
  rw [run_bind_ok (run_caddStart ha hword hi hub hn s.fib hrel)]
  exact run_bind_error (run_comeAfterOwn_behind hahead)

omit hpt in
theorem exec_caddF {d : SReg} {u w : State} (hahead : othersAhead t t.focus.1 (.home (homeOf a)) (fibIndex t.fib) = false)
    (hu : u = correctRead (flushMsgs t t.focus.1 (homeOf a)) a 8) (hw : w = setCounter u a (readWord u a + valArg s.fib i) (selfAdder u))
    (hpw : w.pair = none) (hd : openS w.fib d = true) (ht : isToxic u a = false) :
    exec (.caddF rel sc d m i) s = .next (doneS w d (readWord u a)) := by
  subst hu hw
  refine done_inTurn ?_ hpw hd
  rw [run_bind_ok (run_caddStart ha hword hi hub hn s.fib hrel)]
  dsimp only
  rw [run_bind_ok (run_comeAfterOwn hahead), run_bind_ok (run_isToxicM _ _), ht, if_neg Bool.false_ne_true, run_bind_ok (run_get _),
    run_bind_ok (run_change _ _)]

end
end
end

/-- Settles O24: `caddStart` stops at a large increment or at its release, or hands location and increment on to the post or to the home
(`run_caddStart`); on a quiet word an add is a write of the sum (`addAt_quiet`). -/
theorem counterAddsAndTest : Obligations.CounterAddsAndTest := by
  unfold Obligations.CounterAddsAndTest
  refine ⟨fun s rel sc d m i a hp ha hi hword hub => ⟨fun hn => ⟨?_, ?_⟩, fun hn hrel => ⟨?_, ?_⟩,
    fun t hn hrel hpt hahead => ⟨?_, fun hplace => ?_, fun hplace => ?_⟩,
    fun t u w hn hrel hpt hahead hu hw hpw hd => ⟨?_, fun ht => ?_⟩⟩, fun s a inc who ht hw hr hl => ?_, reached_iff⟩
  · exact performSeq_fails (inTurn_trap (run_bind_error (run_caddStart_large ha hword hi s.fib rel sc hn))) hp
  · exact performSeq_fails (inTurn_trap (run_bind_error (run_caddStart_large ha hword hi s.fib rel sc hn))) hp
  · exact waits_for_release ha hword hi hub hn _ hp hrel
  · exact waits_for_release ha hword hi hub hn _ hp hrel
  · exact exec_caddF_behind hp ha hword hi hub hn hrel hahead
  · rw [exec_cadd ha hword hi hub hn hrel hpt, postMsg_behind _ hahead, hplace]
    rfl
  · rw [exec_cadd ha hword hi hub hn hrel hpt, postMsg_behind _ hahead, hplace]
    rfl
  · rw [exec_cadd ha hword hi hub hn hrel hpt, postMsg_free _ hahead]
    rfl
  · exact exec_caddF ha hword hi hub hn hrel hahead hu hw hpw hd ht
  · rw [addAt_quiet inc who ht hw hr hl, BitVec.add_def]

/-! ## Waits and reads (R112-R114) -/

section
variable {s u : State} {m : CRef} {a : Nat} {acq : Bool} {sc : Scope} {d : SReg} {t : CArg}

section
variable (ha : plainS s.fib m.a = true) (hword : counterWord m.sg (offC s.fib m) s = .ok (a, s)) (hub : unbuffered s a = true)
include hub

section
variable (hahead : othersAhead s s.focus.1 (.home (homeOf a)) (fibIndex s.fib) = true)
include hahead

theorem run_counterRead_behind (f : Fib) (o : Word) : counterRead f a o s = .error (.leave .room none) := by
  rw [counterRead, run_bind_ok (run_drainWord hub), run_bind_error (run_comeAfterOwn_behind hahead)]

include ha hword

theorem run_stragRead_behind : stragRead m s = .error (.leave .room none) := by
  rw [stragRead, run_counterOperand ha hword, run_bind_ok (run_drainWord hub), run_bind_error (run_comeAfterOwn_behind hahead)]

variable (hp : s.pair = none)
include hp

theorem exec_cwait_behind (hwake : s.fib.wake = none) (ht : plainArg s.fib t = true) :
    exec (.cwait acq sc d m t) s = .next (waitsForRoom s a) := by
  refine waits_for_home hp ha hword ?_
  rw [run_bind_ok (run_takeWake_none hwake)]
  dsimp only
  rw [run_counterOperand ha hword, run_bind_ok (rdArg_of_plain ht), run_bind_ok (run_drainWord hub), run_bind_error (run_comeAfterOwn_behind hahead)]

theorem exec_cread_behind : exec (.cread acq sc d m) s = .next (waitsForRoom s a) := by
  refine waits_for_home hp ha hword ?_
  rw [run_counterOperand ha hword, run_bind_error (run_counterRead_behind hub hahead _ _)]

theorem exec_cpoll_behind (ht : plainArg s.fib t = true) : exec (.cpoll acq sc d m t) s = .next (waitsForRoom s a) := by
  refine waits_for_home hp ha hword ?_
  rw [run_counterOperand ha hword, run_bind_ok (rdArg_of_plain ht), run_bind_error (run_counterRead_behind hub hahead _ _)]

theorem exec_cstrag_behind : exec (.cstrag d m) s = .next (waitsForRoom s a) :=
  waits_for_home hp ha hword (run_bind_error (run_stragRead_behind ha hword hub hahead))

theorem exec_cstragT_behind : exec (.cstragT d m) s = .next (waitsForRoom s a) :=
  waits_for_home hp ha hword (run_bind_error (run_stragRead_behind ha hword hub hahead))

end

section
variable (hahead : othersAhead s s.focus.1 (.home (homeOf a)) (fibIndex s.fib) = false)
  (hu : u = correctRead (flushMsgs s s.focus.1 (homeOf a)) a 8)
include hahead hu

theorem run_counterRead (f : Fib) (o : Word) (htox : isToxic u a = false) : counterRead f a o s = .ok (readWord u a, u) := by
  subst hu
  rw [counterRead, run_bind_ok (run_drainWord hub), run_bind_ok (run_comeAfterOwn hahead), run_bind_ok (run_isToxicM _ _), htox,
    if_neg Bool.false_ne_true, run_bind_ok (run_get _), run_pure]

include ha hword

theorem run_stragRead : stragRead m s = .ok (stragOf u a, u) := by
  subst hu
  rw [stragRead, run_counterOperand ha hword, run_bind_ok (run_drainWord hub), run_bind_ok (run_comeAfterOwn hahead), run_bind_ok (run_get _),
    run_pure]

theorem exec_cwait_sleeps (hp : s.pair = none) (hwake : s.fib.wake = none) (ht : plainArg s.fib t = true) (htox : isToxic u a = false)
    (hr : reached (readWord u a) (valArg s.fib t) = false) : exec (.cwait acq sc d m t) s =
      .next (applyLeave { u with fib := s.fib } (.sleep .counter (some (a, valArg s.fib t)) (waitWord u.focus.1 a))) := by
  subst hu
  refine performSeq_leave (keep := some { correctRead (flushMsgs s s.focus.1 (homeOf a)) a 8 with fib := s.fib }) (inTurn_sleep ?_) hp
  rw [run_bind_ok (run_takeWake_none hwake)]
  dsimp only
  rw [run_counterOperand ha hword, run_bind_ok (rdArg_of_plain ht), run_bind_ok (run_drainWord hub), run_bind_ok (run_comeAfterOwn hahead),
    run_bind_ok (run_isToxicM _ _), htox, if_neg Bool.false_ne_true, run_bind_ok (run_get _), if_neg (by simp [hr])]
  rfl

variable (hpu : u.pair = none)
include hpu

theorem exec_cstrag (hd : openS u.fib d = true) : exec (.cstrag d m) s = .next (doneS u d (match stragOf u a with
    | some r => stragWord r
    | none => 0)) := done_inTurn (run_bind_ok (run_stragRead ha hword hub hahead hu)) hpu hd

theorem exec_cstragT (hd : openS u.fib d = true) : exec (.cstragT d m) s = .next (doneS u d (match stragOf u a with
    | some r => if r.valid then r.thr else 0
    | none => 0)) := done_inTurn (run_bind_ok (run_stragRead ha hword hub hahead hu)) hpu hd

variable (htox : isToxic u a = false) (hd : openS (acquiredIf u acq sc).fib d = true)
include htox hd

theorem exec_cread : exec (.cread acq sc d m) s = .next (doneS (acquiredIf u acq sc) d (readWord u a)) := by
  refine done_inTurn ?_ ((acquiredIf_pair u acq sc).trans hpu) hd
  rw [run_counterOperand ha hword, run_bind_ok (run_counterRead hub hahead hu _ _ htox), run_bind_ok (run_acquireAt acq sc u)]

variable (ht : plainArg s.fib t = true)
include ht

theorem exec_cpoll : exec (.cpoll acq sc d m t) s =
    .next (doneS (acquiredIf u acq sc) d (if reached (readWord u a) (valArg s.fib t) then 1 else 0)) := by
  refine done_inTurn ?_ ((acquiredIf_pair u acq sc).trans hpu) hd
  rw [run_counterOperand ha hword, run_bind_ok (rdArg_of_plain ht), run_bind_ok (run_counterRead hub hahead hu _ _ htox),
    run_bind_ok (run_acquireAt acq sc u)]
  rfl

theorem exec_cwait_reached (hwake : s.fib.wake = none) (hr : reached (readWord u a) (valArg s.fib t) = true) :
    exec (.cwait acq sc d m t) s = .next (doneS (acquiredIf u acq sc) d (readWord u a)) := by
  refine done_inTurn ?_ ((acquiredIf_pair u acq sc).trans hpu) hd
  subst hu
  rw [run_bind_ok (run_takeWake_none hwake)]
  dsimp only
  rw [run_counterOperand ha hword, run_bind_ok (rdArg_of_plain ht), run_bind_ok (run_drainWord hub), run_bind_ok (run_comeAfterOwn hahead),
    run_bind_ok (run_isToxicM _ _), htox, if_neg Bool.false_ne_true, run_bind_ok (run_get _), if_pos hr, run_bind_ok (run_acquireAt acq sc _)]

end
end

/-! ## The wake of a `cwait` (R103) -/

theorem run_repop {r : SReg} (h : armedS s.fib r = none) : repop r s = .ok ((), s) := by
  rw [repop, run_bind_ok (run_theFib s), h]
  rfl

theorem run_repopArg (h : ∀ r, t = .reg r → armedS s.fib r = none) : repopArg t s = .ok ((), s) := by
  cases t with
  | reg r => exact run_repop (h r rfl)
  | imm k => rfl

theorem openS_acquiredIf (s : State) (acq : Bool) (sc : Scope) (d : SReg) : openS (acquiredIf s acq sc).fib d = openS s.fib d := by
  cases acq with
  | false => rfl
  | true => exact openS_acquire ..

/-- What is left of a `cwait` that a wake has answered. -/
theorem run_woken {v : Word} (ha : armedS s.fib m.a = none) (ht : ∀ r, t = .reg r → armedS s.fib r = none) :
    (do repop m.a; repopArg t; acquireAt acq sc; result d v : M Unit) s = result d v (acquiredIf s acq sc) := by
  rw [run_bind_ok (run_repop ha), run_bind_ok (run_repopArg ht), run_bind_ok (run_acquireAt acq sc s)]

theorem exec_cwait_woken {v : Word} (hp : s.pair = none) (hwake : s.fib.wake = some (.value v)) (ha : armedS s.fib m.a = none)
    (ht : ∀ r, t = .reg r → armedS s.fib r = none) (hd : openS s.fib d = true) : exec (.cwait acq sc d m t) s =
      .next (doneS (acquiredIf { s with fib := { s.fib with wake := none } } acq sc) d v) := by
  refine done_inTurn ?_ ((acquiredIf_pair _ acq sc).trans hp) ((openS_acquiredIf _ acq sc d).trans hd)
  rw [run_bind_ok (run_takeWake s), hwake]
  exact run_woken ha ht

end

/-- Settles O25: with its turn, each instruction reads at the home after the core's own adds (`run_comeAfterOwn`) and completes, or sleeps
there; behind another it waits (`run_comeAfterOwn_behind`); a wake completes `cwait` without a second visit (`exec_cwait_woken`). -/
theorem counterWaitsAndReads : Obligations.CounterWaitsAndReads := by
  unfold Obligations.CounterWaitsAndReads
  refine ⟨fun s u acq sc d m t a hp hwake ha ht hword hub hahead hu htox hpu hd => ⟨fun hr => ?_, fun hr => ?_, ?_, ?_, fun hd' => ⟨?_, ?_⟩⟩,
    fun s acq sc d m t a hp hwake ha ht hword hub hahead => ?_, fun s acq sc d m t v hp hwake ha ht hd => exec_cwait_woken hp hwake ha ht hd⟩
  · exact exec_cwait_reached ha hword hub hahead hu hpu htox hd ht hwake hr
  · exact exec_cwait_sleeps ha hword hub hahead hu hp hwake ht htox hr
  · exact exec_cread ha hword hub hahead hu hpu htox hd
  · exact exec_cpoll ha hword hub hahead hu hpu htox hd ht
  · exact exec_cstrag ha hword hub hahead hu hpu hd'
  · exact exec_cstragT ha hword hub hahead hu hpu hd'
  · simp only [List.forall_mem_cons, List.not_mem_nil, false_imp_iff, implies_true, and_true]
    exact ⟨exec_cwait_behind ha hword hub hahead hp hwake ht, exec_cread_behind ha hword hub hahead hp,
      exec_cpoll_behind ha hword hub hahead hp ht, exec_cstrag_behind ha hword hub hahead hp, exec_cstragT_behind ha hword hub hahead hp⟩

end Sys2Proof
end

