-- ==== Sys2Proof/Proofs/Phases.lean ====
section
/-!
SUPPORT. Publish, acquire and drain (R120, R122, R131, R351): O26.
-/
namespace Sys2Proof
open Machine Safety

/-! ## Acquire (R122, R128) -/

/-- What an acquire leaves of its core: the lines out of its scope, and no refill of a stream. -/
theorem getCore_acquire (s : State) (g sc : Nat) : getCore (acquire s g sc) g =
    { getCore s g with cache := (getCore s g).cache.filter (fun l => !(scopeCovers sc g l.block || handleLine l.block))
                       slots := mapVec (fun k => { k with ctx := dropRefills k.ctx }) (getCore s g).slots } := by
  unfold acquire
  dsimp only
  split <;> exact getCore_setCore_same s g _

/-- No line that the scope covers, nor one of the handle table, outlives an acquire. -/
theorem acquire_cache (s : State) (g sc : Nat) :
    ∀ l ∈ (getCore (acquire s g sc) g).cache, scopeCovers sc g l.block = false ∧ handleLine l.block = false := by
  intro l hl
  rw [getCore_acquire] at hl
  simpa using (List.mem_filter.1 hl).2

theorem exec_acq {s : State} (sc : Scope) (hp : s.pair = none) : exec (.acq sc) s = .next (goOn (acquire s s.focus.1 (scopeCode sc))) :=
  done_of_unit (run_change (fun t => acquire t t.focus.1 (scopeCode sc)) s) ((acquire_pair s _ _).trans hp)

/-! ## Publish (R120, R131) -/

theorem exec_pub_published {s t : State} {sc : Scope} (h : released s true sc = some t) (hpt : t.pair = none) :
    exec (.pub sc) s = .next (goOn t) :=
  done_of_unit (run_releaseAt_some s.fib h) hpt

theorem exec_pub_waits {s : State} {sc : Scope} (hp : s.pair = none) (h : released s true sc = none) : exec (.pub sc) s =
    .next (applyLeave { (publishFrom s (scopeCode sc)).2 with fib := s.fib } (.publish (scopeCode sc) (publishFrom s (scopeCode sc)).1)) :=
  performSeq_leave (run_releaseAt_none s.fib h) hp

/-! ## Drain (R351) -/

section
variable {s : State} {mod : Bool} {d : SReg} (hp : s.pair = none)

theorem drain_scopeCode (mod : Bool) : scopeCode (if mod then .mod else .clu) = if mod then 4 else 2 := by cases mod <;> rfl

include hp in
theorem exec_drain_groupless (hwake : s.fib.wake = none) (h : myGroup s = none) : exec (.drain mod d) s = .next (trapsWith s 5 0) := by
  refine performSeq_fails ?_ hp
  rw [run_bind_ok (run_takeWake_none hwake)]
  dsimp only
  rw [run_bind_ok (run_get s), h]
  rfl

include hp in
theorem exec_drain_sleeps {u : State} (hwake : s.fib.wake = none) (hg : (myGroup s).isSome = true)
    (h : released s true (if mod then .mod else .clu) = some u) :
    exec (.drain mod d) s = .next (applyLeave { u with fib := s.fib } (.sleep (.drain mod) none s.fib.waddr)) := by
  have hrel : release s.fib (if mod then 4 else 2) s = .ok ((), u) := drain_scopeCode mod ▸ run_releaseAt_some s.fib h
  have hmember : (myGroup s).isNone = false := by simpa using hg
  refine performSeq_leave (keep := some { u with fib := s.fib }) ?_ hp
  rw [run_bind_ok (run_takeWake_none hwake)]
  dsimp only
  rw [run_bind_ok (run_get s), hmember, if_neg Bool.false_ne_true, run_bind_ok hrel]
  rfl

include hp in
theorem exec_drain_woken {v : Word} (hwake : s.fib.wake = some (.value v)) (hd : openS s.fib d = true) : exec (.drain mod d) s =
    .next (doneS (acquire { s with fib := { s.fib with wake := none } } s.focus.1 (if mod then 4 else 2)) d v) := by
  refine done_of_result ?_ ((acquire_pair _ _ _).trans hp) ((openS_acquire _ _ _ d).trans hd)
  dsimp only
  rw [run_bind_ok (run_takeWake s), hwake]
  exact run_bind_ok (run_change _ _)

end

/-- Settles O26: an instruction's release is its publish (`run_releaseAt_some`, `run_releaseAt_none`), an acquire leaves no line that it covers
(`acquire_cache`), and `drain` goes by its wake and its group. -/
theorem publishAcquireDrain : Obligations.PublishAcquireDrain := by
  unfold Obligations.PublishAcquireDrain
  refine ⟨fun s t sc hp => ⟨fun h hpt => ?_, fun h => ?_⟩, fun s sc hp => ⟨?_, ?_⟩, fun s mod d hp hwake hg => ?_,
    fun s u mod d hp hwake hg h => ?_, fun s mod d v hp hwake hd => ?_⟩
  · exact exec_pub_published h hpt
  · exact exec_pub_waits hp h
  · exact exec_acq sc hp
  · exact acquire_cache s s.focus.1 (scopeCode sc)
  · exact exec_drain_groupless hp hwake hg
  · exact exec_drain_sleeps hp hwake hg h
  · exact exec_drain_woken hp hwake hd

end Sys2Proof
end

