-- ==== Sys2Proof/Proofs/LinkTable.lean ====
section
/-!
SUPPORT. The table of links: what a read of a link returns after a write, and which operations leave the table as it is.
-/
namespace Sys2Proof
open Machine Safety

/-! ## A link read and written -/

@[simp] theorem getLink_id (s : State) (id : LinkId) : (getLink s id).id = id := by
  unfold getLink
  cases h : s.links.find? fun l => l.id == id with
  | none => rfl
  | some l => simpa using List.find?_some h

theorem getLink_congr {s t : State} (h : t.links = s.links) (id : LinkId) : getLink t id = getLink s id := by rw [getLink, getLink, h]

/-- The links that a write leaves where they are. -/
theorem find?_otherLinks {links : List Link} {id j : LinkId} :
    (links.filter fun k => k.id != j).find? (fun k => k.id == id) = if id = j then none else links.find? fun k => k.id == id := by
  rw [List.find?_filter]
  split
  · next h => simp [h, List.find?_eq_none]
  · next h =>
    congr 1
    funext k
    by_cases hk : k.id = id <;> simp [hk, h]

theorem getLink_setLink_same {s : State} {l : Link} {id : LinkId} (h : l.id = id) : getLink (setLink s l) id = l := by
  rw [getLink, setLink, List.find?_append, find?_otherLinks, if_pos h.symm]
  simp [h]

theorem getLink_setLink_ne {s : State} {l : Link} {id : LinkId} (h : id ≠ l.id) : getLink (setLink s l) id = getLink s id := by
  rw [getLink, setLink, List.find?_append, find?_otherLinks, if_neg h]
  simp [Ne.symm h, getLink]

/-- Of two writes of a link the second stays. -/
theorem setLink_setLink {s : State} {k l : Link} (h : k.id = l.id) : setLink (setLink s k) l = setLink s l := by
  simp [setLink, List.filter_append, h]

/-! ## What leaves the table as it is -/

theorem homeOnly_links {s t : State} (h : HomeOnly s t) : t.links = s.links := by
  unfold HomeOnly at h
  have k : (besideHome t).links = (besideHome s).links := by rw [h]
  exact k

theorem leftToxic_home (s : State) (w : Nat) : HomeOnly s (leftToxic s w) := by
  unfold leftToxic
  split
  · exact poisonEvent_home s w
  · rfl

theorem poisonRange_home (s : State) (a n : Nat) : HomeOnly s (poisonRange s a n) := by
  have hset : HomeOnly s ((wordsOf a n).foldl setToxic s) := HomeOnly.foldl setToxic_home _ s
  unfold poisonRange
  dsimp only
  split
  · exact hset.trans (HomeOnly.foldl leftToxic_home _ _)
  · exact hset

@[simp] theorem countRefused_links (s : State) (id : LinkId) : (countRefused s id).links = s.links := homeOnly_links (bumpIo_home ..)
@[simp] theorem storeAt_links (s : State) (a : Nat) (d : List Byte) (w : Adder) : (storeAt s a d w).links = s.links := homeOnly_links (storeAt_home ..)
@[simp] theorem poisonRange_links (s : State) (a n : Nat) : (poisonRange s a n).links = s.links := homeOnly_links (poisonRange_home ..)
@[simp] theorem addAt_links (s : State) (a : Nat) (v : Word) (w : Adder) : (addAt s a v w).links = s.links := homeOnly_links (addAt_home ..)

@[simp] theorem reportAer_links (s : State) (id : LinkId) (k : Nat) : (reportAer s id k).links = s.links := by
  unfold reportAer
  split
  · split <;> rfl
  · rfl

@[simp] theorem flushMsix_links (s : State) : (flushMsix s).links = s.links := by unfold flushMsix; split <;> rfl

@[simp] theorem bar0Store_links (s : State) (o : Nat) (b : Byte) : (bar0Store s o b).links = s.links := by
  unfold bar0Store
  dsimp only
  split
  · rfl
  · split
    · rfl
    · split
      · split
        · split <;> rfl
        · exact flushMsix_links _
      · rfl

@[simp] theorem bar0Stores_links (s : State) (o : Nat) (d : List Byte) : (bar0Stores s o d).links = s.links := by
  induction d generalizing s o with
  | nil => rfl
  | cons b bs ih => exact (ih _ _).trans (bar0Store_links s o b)

/-- What was kept for a request is a refusal of the walker and grants. -/
theorem forget_eq (s : State) (id : LinkId) (n : Nat) :
    forget s id n = { s with hostFails := (forget s id n).hostFails, grants := (forget s id n).grants } := by
  unfold forget dropGrants
  dsimp only
  split <;> split <;> rfl

@[simp] theorem forget_links (s : State) (id : LinkId) (n : Nat) : (forget s id n).links = s.links := by rw [forget_eq]
@[simp] theorem backed_forget (s : State) (id : LinkId) (n a : Nat) : backed (forget s id n) a = backed s a := by rw [forget_eq]; rfl
@[simp] theorem pathUp_forget (s : State) (id : LinkId) (n a : Nat) : pathUp (forget s id n) a = pathUp s a := by rw [forget_eq]; rfl

@[simp] theorem backed_reportAer (s : State) (id : LinkId) (k a : Nat) : backed (reportAer s id k) a = backed s a := by
  unfold reportAer
  split
  · split <;> rfl
  · rfl

@[simp] theorem pathUp_reportAer (s : State) (id : LinkId) (k a : Nat) : pathUp (reportAer s id k) a = pathUp s a := by
  unfold reportAer
  split
  · split <;> rfl
  · rfl

/-! ## Paths to a location -/

section
variable {s : State} {l : Link} (h : l.state = (getLink s l.id).state)
include h

theorem getLink_setLink_state (id : LinkId) : (getLink (setLink s l) id).state = (getLink s id).state := by
  by_cases hid : id = l.id
  · rw [hid, getLink_setLink_same rfl, h]
  · rw [getLink_setLink_ne hid]

/-- A write of a link that keeps its state keeps the state of every path. -/
theorem linkStateOf_setLink (a : Nat) : linkStateOf (setLink s l) a = linkStateOf s a := by
  have hlink : linkOfLoc (setLink s l) a = linkOfLoc s a := rfl
  rw [linkStateOf, linkStateOf, hlink]
  cases linkOfLoc s a with
  | none => rfl
  | some id => simp only [getLink_setLink_state h]

theorem pathUp_setLink (a : Nat) : pathUp (setLink s l) a = pathUp s a := by
  have hport : cxlPort (setLink s l) a = cxlPort s a := rfl
  simp only [pathUp, linkUp, hport, getLink_setLink_state h]

end

/-! ## Locations of a cluster space (R14) -/

theorem isSpad_clusterLoc {cl a : Nat} (hcl : cl < Config.clusters) (ha : a < Config.clusterBytes) : isSpad (clusterLoc cl a) = true := by
  unfold Config.clusters Config.clusterBytes at *
  refine Bool.and_eq_true_iff.2 ⟨decide_eq_true ?_, decide_eq_true ?_⟩
  · simp only [clusterLoc]
    omega
  · simp only [clusterLoc, Config.spadBase, Config.clusterBytes, Config.cores, Config.spadBytes]
    omega

section
variable {a : Nat} (h : isSpad a = true)
include h

theorem spad_bounds : 0x1000000000000 ≤ a ∧ a < 0x2000000000000 := by
  simp only [isSpad, Config.spadBase, Config.cores, Config.spadBytes, Bool.and_eq_true, decide_eq_true_eq] at h
  omega

theorem isDpa_spad : isDpa a = false := by
  have := spad_bounds h
  simp only [isDpa, decide_eq_false_iff_not]
  omega

theorem isHostLoc_spad : isHostLoc a = false := by
  have := spad_bounds h
  simp only [isHostLoc, Config.hostBase, Config.peerBase, Bool.and_eq_false_iff, decide_eq_false_iff_not]
  omega

theorem isPeerLoc_spad : isPeerLoc a = false := by
  have := spad_bounds h
  simp only [isPeerLoc, Config.peerBase, Bool.and_eq_false_iff, decide_eq_false_iff_not]
  omega

/-- No link lies on the way to a scratchpad. -/
theorem linkStateOf_spad (s : State) : linkStateOf s a = 2 := by
  simp [linkStateOf, linkOfLoc, isHostLoc_spad h, isPeerLoc_spad h, isDpa_spad h]

theorem pathHeld_spad (s : State) : pathHeld s a = false := by
  simp [pathHeld, lacksRoom, linkStateOf_spad h, isPeerLoc_spad h]

theorem pathUp_spad (s : State) : pathUp s a = true := by simp [pathUp, isDpa_spad h]

theorem devRead_spad (s : State) (die n : Nat) :
    devRead s die a n = ((List.range n).map fun i => (byteAt s (a + i), isToxic s (a + i)), correctRead s a n) := by
  simp [devRead, isDpa_spad h, linkStateOf_spad h, isFar, isHostLoc_spad h, isPeerLoc_spad h]

end

end Sys2Proof
end

