-- ==== Sys2Proof/Proofs/OrderingPoint.lean ====
section
/-!
SUPPORT. The ordering point of a link (R129, R359-R362): how a request is judged, takes its place, and lands, is answered, or waits there.
-/
namespace Sys2Proof
open Machine Safety

/-! ## What a link holds -/

/-- The link with other posted writes, or with other reads. -/
abbrev putPosted (l : Link) (p : List Request) : Link := { l with posted := p }
abbrev putReads (l : Link) (p : List (Nat × Request)) : Link := { l with reads := p }

theorem putPosted_self {l : Link} {p : List Request} (h : l.posted = p) : putPosted l p = l := by rw [← h]
theorem putReads_self {l : Link} {p : List (Nat × Request)} (h : l.reads = p) : putReads l p = l := by rw [← h]

/-- No request waits at the link. -/
def linkIdle (s : State) (id : LinkId) : Prop := (getLink s id).posted = [] ∧ (getLink s id).reads = []
/-- The link once it has taken in one more request. -/
def nextLink (s : State) (id : LinkId) : Link := { getLink s id with taken := (getLink s id).taken + 1 }
/-- The request takes its place behind the posted writes of the link. -/
def arrived (s : State) (id : LinkId) (q : Request) : State := setLink s (putPosted (nextLink s id) ((getLink s id).posted ++ [q]))
/-- The request with its number at its link. -/
def numbered (s : State) (id : LinkId) (q : Request) : Request := { q with num := (getLink s id).taken }

theorem nextLink_id (s : State) (id : LinkId) : (nextLink s id).id = id := getLink_id s id

theorem linkIdle_congr {s t : State} {id : LinkId} (h : t.links = s.links) (hidle : linkIdle s id) : linkIdle t id := by
  rwa [linkIdle, getLink_congr h]

theorem getLink_arrived (s : State) (id : LinkId) (q : Request) :
    getLink (arrived s id q) id = putPosted (nextLink s id) ((getLink s id).posted ++ [q]) := getLink_setLink_same (nextLink_id s id)

/-- Taking a request in leaves every link in its state. -/
theorem linkStateOf_arrived (s : State) (id : LinkId) (q : Request) (a : Nat) : linkStateOf (arrived s id q) a = linkStateOf s a :=
  linkStateOf_setLink (by rw [nextLink_id]; rfl) a

theorem pathUp_arrived (s : State) (id : LinkId) (q : Request) (a : Nat) : pathUp (arrived s id q) a = pathUp s a :=
  pathUp_setLink (by rw [nextLink_id]; rfl) a

/-! ## The ordering point (R129, R362) -/

section
variable {s t : State} {id : LinkId} {q : Request}

theorem pumpPosted_nil (n : Nat) (h : (getLink s id).posted = []) : pumpPosted n s id = s := by
  cases n with
  | zero => rfl
  | succ n => rw [pumpPosted, h]

theorem pumpReads_nil (n : Nat) (h : (getLink s id).reads = []) : pumpReads n s id = s := by
  cases n with
  | zero => rfl
  | succ n => rw [pumpReads, h]

/-- A counter write at the head holds what is behind it. -/
theorem pumpPosted_held {x : Request} {rest : List Request} (n : Nat) (h : (getLink s id).posted = x :: rest) (hx : x.kind = 2) :
    pumpPosted n s id = s := by
  cases n with
  | zero => rfl
  | succ n => simp only [pumpPosted, h, hx]

theorem popPosted_cons {x : Request} {rest : List Request} (hposted : (getLink t id).posted = x :: rest) (hreads : (getLink t id).reads = []) :
    popPosted t id = setLink t (putPosted (getLink t id) rest) := by
  have hpop : popPosted t id = setLink t (putReads (putPosted (getLink t id) (getLink t id).posted.tail)
    ((getLink t id).reads.map fun r => (r.1 - 1, r.2))) := rfl
  rw [hpop, hposted, hreads]
  exact congrArg (setLink t) (putReads_self hreads)

theorem pumpPosted_lands {d : List Byte} (h : (getLink s id).posted = [q]) (hkind : q.kind ≠ 2) (hdata : q.data = some d)
    (hland : landWrite s id q d = .done t) : pumpPosted 1 s id = popPosted t id := by
  simp only [pumpPosted, h, hdata, hland]

theorem pumpReads_done (h : (getLink s id).reads = [(0, q)]) (hland : landRead (setLink s (putReads (getLink s id) [])) id q = .done t) :
    pumpReads 1 s id = t := by
  rw [pumpReads, h]
  refine (if_neg (by decide)).trans ?_
  rw [hland]
  rfl

theorem pumpReads_notYet (h : (getLink s id).reads = [(0, q)])
    (hland : landRead (setLink s (putReads (getLink s id) [])) id q = .notYet t) :
    pumpReads 1 s id = setLink t (putReads (getLink t id) ((getLink t id).reads ++ [(0, q)])) := by
  rw [pumpReads, h]
  refine (if_neg (by decide)).trans ?_
  rw [hland]
  rfl

theorem pumpLink_idle (h : linkIdle s id) : pumpLink s id = s := by
  obtain ⟨hposted, hreads⟩ := h
  unfold pumpLink
  dsimp only
  rw [pumpPosted_nil _ hposted, pumpReads_nil _ hreads]

theorem pumpLink_held {x : Request} {rest : List Request} (h : (getLink s id).posted = x :: rest) (hx : x.kind = 2)
    (hreads : (getLink s id).reads = []) : pumpLink s id = s := by
  unfold pumpLink
  dsimp only
  rw [pumpPosted_held _ h hx, pumpReads_nil _ hreads]

/-- The only data write of a link lands, where that leaves the links as they are. -/
theorem pumpLink_lands {d : List Byte} (hposted : (getLink s id).posted = [q]) (hreads : (getLink s id).reads = [])
    (hkind : q.kind ≠ 2) (hdata : q.data = some d) (hland : landWrite s id q d = .done t) (hlinks : t.links = s.links) :
    pumpLink s id = setLink t (putPosted (getLink s id) []) := by
  have hlink := getLink_congr hlinks id
  have hpop : popPosted t id = setLink t (putPosted (getLink s id) []) :=
    hlink ▸ popPosted_cons (by rw [hlink, hposted]) (by rw [hlink, hreads])
  have hempty : (getLink (popPosted t id) id).reads = [] := by
    rw [hpop, getLink_setLink_same]
    · exact hreads
    · exact getLink_id s id
  unfold pumpLink
  rw [hposted]
  dsimp only [List.length_singleton]
  rw [pumpPosted_lands hposted hkind hdata hland, pumpReads_nil _ hempty, hpop]

section
variable {l : Link} (hid : l.id = id) (hposted : l.posted = [])
include hid hposted

/-- The only read of a link has no write ahead of it. -/
theorem pumpLink_read : pumpLink (setLink s (putReads l [(0, q)])) id = pumpReads 1 (setLink s (putReads l [(0, q)])) id := by
  have hget : getLink (setLink s (putReads l [(0, q)])) id = putReads l [(0, q)] := getLink_setLink_same hid
  have hnil : (getLink (setLink s (putReads l [(0, q)])) id).posted = [] := by rw [hget]; exact hposted
  unfold pumpLink
  dsimp only
  rw [pumpPosted_nil _ hnil, hget]
  rfl

theorem pumpLink_answered (h : landRead (setLink s (putReads l [])) id q = .done t) : pumpLink (setLink s (putReads l [(0, q)])) id = t := by
  have hget : getLink (setLink s (putReads l [(0, q)])) id = putReads l [(0, q)] := getLink_setLink_same hid
  refine (pumpLink_read hid hposted).trans (pumpReads_done (by rw [hget]) ?_)
  rw [hget, setLink_setLink]
  · exact h
  · rfl

/-- A read that finds no room for its reply stays. -/
theorem pumpLink_unanswered (h : landRead (setLink s (putReads l [])) id q = .notYet (setLink s (putReads l []))) :
    pumpLink (setLink s (putReads l [(0, q)])) id = setLink s (putReads l [(0, q)]) := by
  have hget : getLink (setLink s (putReads l [(0, q)])) id = putReads l [(0, q)] := getLink_setLink_same hid
  have hput : getLink (setLink s (putReads l [])) id = putReads l [] := getLink_setLink_same hid
  refine (pumpLink_read hid hposted).trans ((pumpReads_notYet (t := setLink s (putReads l [])) (by rw [hget]) ?_).trans ?_)
  · rw [hget, setLink_setLink]
    · exact h
    · rfl
  · rw [hput, setLink_setLink]
    · rfl
    · rfl

end
end

/-! ## Judgement (R359, R360) -/

/-- What a request is in every window. -/
def asked (s : State) (r : Inbound) : Request :=
  { kind := winKind s r, addr := 0, tenant := winTenant s r, len := reqLen r, data := r.data, toxic := r.toxic }
/-- Where a request through a scratchpad or counter window goes. -/
def winLocation (s : State) (r : Inbound) : Nat := clusterLoc (winClu s r) (winAddr s r)
/-- The request as each kind of window, and BAR0, takes it in. -/
def spadRequest (s : State) (r : Inbound) : Request := { asked s r with addr := winLocation s r, spans := [(winLocation s r, reqLen r)] }
def counterRequest (s : State) (r : Inbound) : Request := { asked s r with addr := wordOf (winLocation s r) }
def moduleRequest (s : State) (r : Inbound) : Request := { asked s r with addr := winVa s r }
def bar0Request (s : State) (r : Inbound) : Request := { asked s r with kind := 4, addr := r.off }

section
variable {s : State} {r : Inbound}

theorem judge_bar0 (h : r.bar0 = true) : judge s r = some (bar0Request s r) := if_pos h

variable (hbar : r.bar0 = false)
include hbar

theorem judge_unadmitted (h : winAdmits s r = false) : judge s r = none := by
  rw [judge, hbar, h]
  rfl

/-- Nothing passes a closed window. -/
theorem judge_closed (hk : winKind s r = 0) : judge s r = none := judge_unadmitted hbar (by simp [winAdmits, hk])

theorem judge_spad (hk : winKind s r = 1) (hwin : winAdmits s r = true) :
    judge s r = if spadAdmits s r then some (spadRequest s r) else none := by
  simp [judge, hbar, hwin, hk, asked, spadRequest, winLocation]

theorem judge_counter (hk : winKind s r = 2) (hwin : winAdmits s r = true) :
    judge s r = if counterAdmits s r then some (counterRequest s r) else none := by
  simp [judge, hbar, hwin, hk, asked, counterRequest, winLocation]

theorem judge_module (hk : winKind s r = 3) (hwin : winAdmits s r = true) :
    judge s r = if moduleAdmits s r then some (moduleRequest s r) else none := by
  simp [judge, hbar, hwin, hk, asked, moduleRequest]

theorem judge_spad_refused (hk : winKind s r = 1) (h : winAdmits s r = false ∨ spadAdmits s r = false) : judge s r = none := by
  by_cases hwin : winAdmits s r = true
  · rw [judge_spad hbar hk hwin, h.resolve_left (by simp [hwin]), if_neg Bool.false_ne_true]
  · exact judge_unadmitted hbar (by simpa using hwin)

theorem judge_counter_refused (hk : winKind s r = 2) (h : ¬ (winAdmits s r = true ∧ counterAdmits s r = true)) : judge s r = none := by
  by_cases hwin : winAdmits s r = true
  · rw [judge_counter hbar hk hwin, if_neg fun hc => h ⟨hwin, hc⟩]
  · exact judge_unadmitted hbar (by simpa using hwin)

theorem judge_module_refused (hk : winKind s r = 3) (h : winAdmits s r = false ∨ moduleAdmits s r = false) : judge s r = none := by
  by_cases hwin : winAdmits s r = true
  · rw [judge_module hbar hk hwin, h.resolve_left (by simp [hwin]), if_neg Bool.false_ne_true]
  · exact judge_unadmitted hbar (by simpa using hwin)

end

/-! ## Arrival (R359-R361) -/

section
variable {s t : State} {r : Inbound} {q : Request} {d : List Byte}

theorem takeIn_unserved (h : servesInbound s r.link = false) : takeIn s r = s := by rw [takeIn, h]; rfl

/-- A read that is refused, as it waits to be answered so. -/
def refusedRead : Request := { kind := 0, addr := 0, len := 0 }

theorem landRead_refused (s : State) (id : LinkId) : landRead s id refusedRead = replied s (sendReply s id [] false false) := by
  unfold landRead
  exact if_pos rfl

theorem arrive_refused_read (hjudge : judge s r = none) (hdata : r.data = none) : arrive s r = setLink (countRefused s r.link)
    (putReads (getLink (countRefused s r.link) r.link) ((getLink s r.link).reads ++ [((getLink s r.link).posted.length, refusedRead)])) := by
  rw [arrive, hjudge, hdata]
  rfl

theorem arrive_read (hjudge : judge s r = some q) (hdata : r.data = none) : arrive s r = setLink s
    (putReads (nextLink s r.link) ((getLink s r.link).reads ++ [((getLink s r.link).posted.length, numbered s r.link q)])) := by
  rw [arrive, hjudge, hdata]
  rfl

theorem arrive_write (hjudge : judge s r = some q) (hdata : r.data = some d) (hsound : q.kind = 2 → r.toxic = false) :
    arrive s r = arrived s r.link (numbered s r.link q) := by
  have hadd : ¬ (q.kind = 2 ∧ r.toxic = true) := fun ⟨hk, ht⟩ => by simp [hsound hk] at ht
  rw [arrive, hjudge, hdata]
  exact if_neg hadd

variable (hserve : servesInbound s r.link = true) (hhost : r.bar0 = true → (getLink s r.link).role = 1)
include hserve hhost

/-- BAR0 is served where the link is the host's (R358). -/
theorem takeIn_served : takeIn s r = pumpLink (arrive s r) r.link := by
  refine if_pos ?_
  cases hbar : r.bar0 with
  | false => simp [hserve]
  | true => simp [hserve, hhost hbar]

section
variable (hidle : linkIdle s r.link)
include hidle

theorem takeIn_refused_write (hjudge : judge s r = none) (hdata : r.data = some d) : takeIn s r = countRefused s r.link := by
  rw [takeIn_served hserve hhost, arrive, hjudge, hdata]
  exact pumpLink_idle (linkIdle_congr (countRefused_links ..) hidle)

theorem takeIn_refused_read (hjudge : judge s r = none) (hdata : r.data = none)
    (hreply : sendReply (setLink (countRefused s r.link) (getLink s r.link)) r.link [] false false = some t) : takeIn s r = t := by
  obtain ⟨hposted, hreads⟩ := hidle
  have hlink : getLink (countRefused s r.link) r.link = getLink s r.link := getLink_congr (countRefused_links ..) _
  rw [takeIn_served hserve hhost, arrive_refused_read hjudge hdata, hlink, hposted, hreads]
  refine pumpLink_answered (getLink_id s _) hposted ?_
  rw [putReads_self hreads, landRead_refused, hreply]
  rfl

theorem takeIn_toxicAdd (hjudge : judge s r = some q) (hdata : r.data = some d) (hk : q.kind = 2) (ht : r.toxic = true) :
    takeIn s r = reportAer (countRefused s r.link) r.link 1 := by
  have harrive : arrive s r = reportAer (countRefused s r.link) r.link 1 := by
    rw [arrive, hjudge, hdata]
    exact if_pos ⟨hk, ht⟩
  rw [takeIn_served hserve hhost, harrive]
  exact pumpLink_idle (linkIdle_congr ((reportAer_links ..).trans (countRefused_links ..)) hidle)

theorem takeIn_lands (hjudge : judge s r = some q) (hdata : r.data = some d) (hq : q.data = some d) (hk : q.kind ≠ 2)
    (hland : landWrite (arrived s r.link (numbered s r.link q)) r.link (numbered s r.link q) d = .done t)
    (hlinks : t.links = (arrived s r.link (numbered s r.link q)).links) : takeIn s r = setLink t (nextLink s r.link) := by
  obtain ⟨hposted, hreads⟩ := hidle
  have hlink := getLink_arrived s r.link (numbered s r.link q)
  rw [hposted] at hlink
  rw [takeIn_served hserve hhost, arrive_write hjudge hdata fun h => absurd h hk,
    pumpLink_lands (q := numbered s r.link q) (by rw [hlink]; rfl) (by rw [hlink]; exact hreads) hk hq hland hlinks, hlink]
  exact congrArg (setLink t) (putPosted_self (l := nextLink s r.link) hposted)

theorem takeIn_read (hjudge : judge s r = some q) (hdata : r.data = none) :
    takeIn s r = pumpLink (setLink s (putReads (nextLink s r.link) [(0, numbered s r.link q)])) r.link := by
  obtain ⟨hposted, hreads⟩ := hidle
  rw [takeIn_served hserve hhost, arrive_read hjudge hdata, hposted, hreads]
  rfl

theorem takeIn_answered (hjudge : judge s r = some q) (hdata : r.data = none)
    (h : landRead (setLink s (nextLink s r.link)) r.link (numbered s r.link q) = .done t) : takeIn s r = t := by
  rw [takeIn_read hserve hhost hidle hjudge hdata]
  refine pumpLink_answered (nextLink_id s _) hidle.1 ?_
  rwa [putReads_self (l := nextLink s r.link) hidle.2]

theorem takeIn_unanswered (hjudge : judge s r = some q) (hdata : r.data = none)
    (h : landRead (setLink s (nextLink s r.link)) r.link (numbered s r.link q) = .notYet (setLink s (nextLink s r.link))) :
    takeIn s r = setLink s (putReads (nextLink s r.link) [(0, numbered s r.link q)]) := by
  rw [takeIn_read hserve hhost hidle hjudge hdata]
  refine pumpLink_unanswered (nextLink_id s _) hidle.1 ?_
  rwa [putReads_self (l := nextLink s r.link) hidle.2]

end

/-- A write that arrives behind a held counter write, or as one, waits (R129). -/
theorem takeIn_held {x : Request} {rest : List Request} (hjudge : judge s r = some q) (hdata : r.data = some d)
    (hsound : q.kind = 2 → r.toxic = false) (hposted : (getLink s r.link).posted ++ [numbered s r.link q] = x :: rest) (hx : x.kind = 2)
    (hreads : (getLink s r.link).reads = []) : takeIn s r = arrived s r.link (numbered s r.link q) := by
  have hlink := getLink_arrived s r.link (numbered s r.link q)
  rw [takeIn_served hserve hhost, arrive_write hjudge hdata hsound]
  exact pumpLink_held (by rw [hlink]; exact hposted) hx (by rw [hlink]; exact hreads)

end

/-! ## Landing (R230, R248, R360, R361) -/

section
variable {s : State} {id : LinkId} {q : Request} {d : List Byte} {a n : Nat}

theorem landSpan_writes {toxic : Bool} (hbacked : isDpa a = true → backed s a = true) (hup : pathUp s a = true) :
    landSpan s id toxic a d = if toxic then poisonRange s a d.length else storeAt s a d (linkAdder id) := by
  rw [landSpan, if_neg fun ⟨hdpa, hno⟩ => by simp [hbacked hdpa] at hno, if_neg (by simp [hup])]

/-- What a data write leaves where its bytes lie in one place: poison, of which the host learns, or a store (R361). -/
def landedAt (s : State) (id : LinkId) (toxic : Bool) (a : Nat) (d : List Byte) : State :=
  if toxic then poisonRange (reportAer s id 0) a d.length else storeAt s a d (linkAdder id)

@[simp] theorem landedAt_links (s : State) (id : LinkId) (toxic : Bool) (a : Nat) (d : List Byte) :
    (landedAt s id toxic a d).links = s.links := by cases toxic <;> simp [landedAt]

/-- A data write lands in one place that is backed and that no link holds. -/
theorem landWrite_store (hk : q.kind ≠ 4) (hspans : requestSpans s id q = .ok [(a, d.length)]) (hstate : linkStateOf s a ≠ 3)
    (hbacked : isDpa a = true → backed s a = true) (hup : pathUp s a = true) :
    landWrite s id q d = .done (landedAt (forget s id q.num) id q.toxic a d) := by
  have hheld : ([(a, d.length)].any fun p => linkStateOf s p.1 == 3) = false := by simpa using hstate
  rw [landWrite, if_neg hk, hspans]
  dsimp only
  rw [hheld, if_neg Bool.false_ne_true, landSpans, List.take_length, landSpans]
  cases q.toxic with
  | false => exact congrArg Landed.done (landSpan_writes (by simpa using hbacked) (by simpa using hup))
  | true => exact congrArg Landed.done (landSpan_writes (by simpa using hbacked) (by simpa using hup))

theorem landWrite_refused (hk : q.kind ≠ 4) (hspans : requestSpans s id q = .refused) :
    landWrite s id q d = .done (countRefused (forget s id q.num) id) := by
  rw [landWrite, if_neg hk, hspans]

theorem landWrite_bar0 (hk : q.kind = 4) : landWrite s id q d = .done (bar0Stores s q.addr d) := if_pos hk

theorem requestSpans_found (hk : q.kind ≠ 3) : requestSpans s id q = .ok q.spans := if_pos hk

section
variable {ask : Word → Nat → Ask} {va : Nat} (fuel : Nat) (hn : 0 < n) (hpage : va % 65536 + n ≤ 65536)
include hn hpage

/-- A request within one page asks once. -/
theorem spansVia_refused (h : ask (w64 va) n = .refused) : spansVia ask (fuel + 1) va n = .refused := by
  have hmin : Nat.min n (65536 - va % 65536) = n := Nat.min_eq_left (by omega)
  rw [spansVia, if_neg (by omega)]
  dsimp only
  rw [hmin, h]

theorem spansVia_got (h : ask (w64 va) n = .got a) : spansVia ask (fuel + 2) va n = .ok [(a, n)] := by
  have hmin : Nat.min n (65536 - va % 65536) = n := Nat.min_eq_left (by omega)
  have hdone : spansVia ask (fuel + 1) (va + n) (n - n) = .ok [] := if_pos (Nat.sub_self n)
  rw [spansVia, if_neg (by omega)]
  dsimp only
  rw [hmin, h, hdone]

end

/-- Where a data write through a module window asks for its bytes. -/
def askWindow (s : State) (id : LinkId) (q : Request) : Ask :=
  askHost s (linkDie id) q.tenant accHostWrite (.inbound id q.num) (linkWho id) (w64 q.addr) q.len

section
variable (hk : q.kind = 3) (hdata : q.data = some d) (hn : 0 < q.len) (hpage : q.addr % 65536 + q.len ≤ 65536)
include hk hdata hn hpage

theorem requestSpans_got (h : askWindow s id q = .got a) : requestSpans s id q = .ok [(a, q.len)] := by
  rw [requestSpans, if_neg (by simp [hk]), hdata]
  exact spansVia_got _ hn hpage h

theorem requestSpans_refused (h : askWindow s id q = .refused) : requestSpans s id q = .refused := by
  rw [requestSpans, if_neg (by simp [hk]), hdata]
  exact spansVia_refused _ hn hpage h

end

theorem readBytes_eq_map (s : State) (a n : Nat) : readBytes s a n = (List.range n).map fun i => byteAt s (a + i) := by
  induction n generalizing a with
  | zero => rfl
  | succ n ih => simp [readBytes, ih, List.range_succ_eq_map, Function.comp_def, Nat.add_assoc, Nat.add_comm 1]

theorem readSpans_spad (h : isSpad a = true) :
    readSpans id [(a, n)] s = ((List.range n).map fun i => (byteAt s (a + i), isToxic s (a + i)), correctRead s a n) := by
  simp [readSpans, isDpa_spad h, devRead_spad h]

/-- A scratchpad's answer to a read: its bytes and their poison. -/
def spadReply (s : State) (id : LinkId) (a n : Nat) : Option State :=
  sendReply (correctRead s a n) id (readBytes s a n) ((List.range n).any fun i => isToxic s (a + i)) true

theorem landRead_spad (hk : q.kind = 1) (hspans : q.spans = [(a, n)]) (h : isSpad a = true) :
    landRead s id q = replied s (spadReply (forget s id q.num) id a n) := by
  have hfound : requestSpans s id q = .ok [(a, n)] := (requestSpans_found (by simp [hk])).trans (by rw [hspans])
  have hheld : ([(a, n)].any fun p => pathHeld s p.1) = false := by simp [pathHeld_spad h]
  unfold landRead
  rw [if_neg (by simp [hk]), if_neg (by simp [hk]), if_neg (by simp [hk]), hfound]
  dsimp only
  rw [hheld, if_neg Bool.false_ne_true, readSpans_spad h]
  simp only [spadReply, List.map_map, List.any_map, readBytes_eq_map, Function.comp_def]

theorem landRead_counter_value {v : Word} {t : State} (hk : q.kind = 2) (h : readCounter s q.addr = (some v, t)) :
    landRead s id q = replied s (sendReply t id (bytesOf 8 v.toNat) false true) := by
  unfold landRead
  rw [if_neg (by simp [hk]), if_neg (by simp [hk]), if_pos hk, h]

theorem landRead_counter_poisoned {t : State} (hk : q.kind = 2) (h : readCounter s q.addr = (none, t)) :
    landRead s id q = replied s (sendReply t id (readBytes t q.addr 8) true true) := by
  unfold landRead
  rw [if_neg (by simp [hk]), if_neg (by simp [hk]), if_pos hk, h]

theorem landRead_bar0 {p : Fin 8} (hid : id = .port p) (hk : q.kind = 4) : landRead s id q =
    replied s (sendReply s id ((List.range q.len).map fun i => bar0Byte s p (q.addr + i)) false true) := by
  subst hid
  unfold landRead
  rw [if_neg (by simp [hk]), if_pos hk]

/-- An up port takes a reply at once. -/
theorem sendReply_port {p : Fin 8} {b : List Byte} {ok : Bool} (hid : id = .port p) (h : (getLink s id).state = 2) :
    sendReply s id b false ok = some { s with out := s.out ++ [.reply id b false ok] } := by
  subst hid
  unfold sendReply
  rw [if_neg Bool.false_ne_true]
  dsimp only
  rw [h]
  rfl

end

/-! ## Held counter writes (R362) -/

section
variable {s : State} {id : LinkId}

theorem applyHeld_idle (h : linkIdle s id) : applyHeld s id = s := by
  rw [applyHeld, pumpLink_idle h, h.1]

/-- The state after the add of a counter write at the head of its link. -/
def addedAt (s : State) (id : LinkId) (x : Request) (rest : List Request) (d : List Byte) : State :=
  addAt (setLink s (putPosted (getLink s id) rest)) x.addr (w64 (natOf d)) (linkAdder id)

section
variable {x : Request} {rest : List Request} {d : List Byte} (hposted : (getLink s id).posted = x :: rest) (hx : x.kind = 2)
  (hdata : x.data = some d) (hreads : (getLink s id).reads = [])
include hposted hx hdata hreads

theorem applyHeld_add : applyHeld s id = pumpLink (addedAt s id x rest d) id := by
  rw [applyHeld, pumpLink_held hposted hx hreads, hposted]
  dsimp only
  rw [hx, hdata, popPosted_cons hposted hreads]
  rfl

/-- Nothing goes on where nothing is behind it. -/
theorem applyHeld_add_last (hrest : rest = []) : applyHeld s id = addedAt s id x rest d := by
  have hlink : getLink (addedAt s id x rest d) id = putPosted (getLink s id) rest :=
    (getLink_congr (addAt_links ..) id).trans (getLink_setLink_same (getLink_id s id))
  refine (applyHeld_add hposted hx hdata hreads).trans (pumpLink_idle ?_)
  rw [linkIdle, hlink]
  exact ⟨hrest, hreads⟩

end
end

end Sys2Proof
end

