-- ==== Sys2Proof/Proofs/InboundWindows.lean ====
section
/-!
SUPPORT. What an inbound request alone at its link does through a scratchpad, counter or module window, and at BAR0 (R358-R361).
-/
namespace Sys2Proof
open Machine Safety

/-! ## The events of inbound requests -/

section
variable {s : State} {r : Inbound}

theorem exec_spadRequest (h : r.bar0 = true ∨ winKind s r ≤ 1) : exec (.inboundScratchpadRequest r) s = .next (takeIn s r) :=
  congrArg Host.Outcome.next (if_pos (by simpa using h))

theorem exec_counterRead (hbar : r.bar0 = false) (hk : winKind s r = 2) (hdata : r.data = none) :
    exec (.inboundCounterRead r) s = .next (takeIn s r) :=
  congrArg Host.Outcome.next (if_pos (by simp [hbar, hk, hdata]))

theorem exec_counterWrite {d : List Byte} (hbar : r.bar0 = false) (hk : winKind s r = 2) (hdata : r.data = some d) :
    exec (.inboundCounterWrite r) s = .next (takeIn s r) :=
  congrArg Host.Outcome.next (if_pos (by simp [hbar, hk, hdata]))

theorem exec_moduleRequest (hbar : r.bar0 = false) (hk : winKind s r = 3) : exec (.inboundModuleRequest r) s = .next (takeIn s r) :=
  congrArg Host.Outcome.next (if_pos (by simp [hbar, hk]))

/-- A link that serves none takes no request in (R358). -/
theorem exec_inbound_unserved (h : servesInbound s r.link = false) : exec (.inboundScratchpadRequest r) s = .next s
    ∧ exec (.inboundCounterRead r) s = .next s ∧ exec (.inboundCounterWrite r) s = .next s ∧ exec (.inboundModuleRequest r) s = .next s := by
  have htake := takeIn_unserved h
  refine ⟨congrArg Host.Outcome.next ?_, congrArg Host.Outcome.next ?_, congrArg Host.Outcome.next ?_, congrArg Host.Outcome.next ?_⟩
  · rw [inboundSpad, htake, ite_self]
  · rw [inboundCounterRead, htake, ite_self]
  · rw [inboundCounterWrite, htake, ite_self]
  · rw [inboundModule, htake, ite_self]

/-! A request to BAR0 is no event of another window. -/

theorem exec_counterRead_bar0 (hbar : r.bar0 = true) : exec (.inboundCounterRead r) s = .next s :=
  congrArg Host.Outcome.next (if_neg (by simp [hbar]))

theorem exec_counterWrite_bar0 (hbar : r.bar0 = true) : exec (.inboundCounterWrite r) s = .next s :=
  congrArg Host.Outcome.next (if_neg (by simp [hbar]))

theorem exec_moduleRequest_bar0 (hbar : r.bar0 = true) : exec (.inboundModuleRequest r) s = .next s :=
  congrArg Host.Outcome.next (if_neg (by simp [hbar]))

end

/-! ## What a request asks of its window -/

theorem reqLen_write {r : Inbound} {d : List Byte} (h : r.data = some d) : reqLen r = d.length := by rw [reqLen, h]
theorem reqLen_read {r : Inbound} (h : r.data = none) : reqLen r = r.len := by rw [reqLen, h]

theorem isSpad_winLocation {s : State} {r : Inbound} (h : spadAdmits s r = true) (hn : 0 < reqLen r) : isSpad (winLocation s r) = true := by
  simp only [spadAdmits, Bool.and_eq_true, decide_eq_true_eq] at h
  obtain ⟨⟨⟨hcl, hend⟩, -⟩, -⟩ := h
  exact isSpad_clusterLoc hcl (by omega)

theorem landRead_winLocation {s : State} {r : Inbound} (hk : winKind s r = 1) (hspad : spadAdmits s r = true) (hn : 0 < reqLen r)
    (hdata : r.data = none) : landRead (setLink s (nextLink s r.link)) r.link (numbered s r.link (spadRequest s r)) =
      replied (setLink s (nextLink s r.link))
        (spadReply (forget (setLink s (nextLink s r.link)) r.link (getLink s r.link).taken) r.link (winLocation s r) r.len) :=
  landRead_spad hk (by rw [← reqLen_read hdata]; rfl) (isSpad_winLocation hspad hn)

/-- A counter word that no single-bit error meets is read as it stands (R82, R106). -/
theorem readCounter_nextLink {s : State} {id : LinkId} (a : Nat) (hlatent : s.latent = []) : readCounter (setLink s (nextLink s id)) a =
    if isToxic s a then (none, poisonEvent (setLink s (nextLink s id)) a) else (some (readWord s a), setLink s (nextLink s id)) := by
  have hclean : correctRead (setLink s (nextLink s id)) a 8 = setLink s (nextLink s id) := correctRead_clean fun w hw => by
    have hw' : w ∈ s.latent := hw
    simp [hlatent] at hw'
  rw [readCounter, hclean]
  rfl

/-- What a module window asks for. -/
theorem askWindow_module {s : State} {r : Inbound} {d : List Byte} (t : State) (hdata : r.data = some d) :
    askWindow t r.link (numbered s r.link (moduleRequest s r)) = askHost t (linkDie r.link) (winTenant s r) accHostWrite
      (.inbound r.link (getLink s r.link).taken) (linkWho r.link) (w64 (winVa s r)) d.length := by
  rw [← reqLen_write hdata]
  rfl

theorem state_of_serves {s : State} {id : LinkId} (h : servesInbound s id = true) : (getLink s id).state = 2 := by
  simp only [servesInbound, Bool.and_eq_true, beq_iff_eq] at h
  exact h.1

section
variable {s t : State} {r : Inbound} {d : List Byte} (hserve : servesInbound s r.link = true) (hidle : linkIdle s r.link)

section
variable (hbar : r.bar0 = false)
include hserve hidle hbar

/-! ## Scratchpad windows (R360, R361) -/

section
variable (hk : winKind s r = 1) (hwin : winAdmits s r = true) (hspad : spadAdmits s r = true) (hn : 0 < reqLen r)
include hk hwin hspad hn

theorem takeIn_spad_write (hdata : r.data = some d) : takeIn s r = setLink
    (landedAt (forget (arrived s r.link (numbered s r.link (spadRequest s r))) r.link (getLink s r.link).taken) r.link r.toxic
      (winLocation s r) d)
    (nextLink s r.link) := by
  have hplace := isSpad_winLocation hspad hn
  have hq : (numbered s r.link (spadRequest s r)).kind = 1 := hk
  have hjudge : judge s r = some (spadRequest s r) := (judge_spad hbar hk hwin).trans (if_pos hspad)
  have hspans : requestSpans (arrived s r.link (numbered s r.link (spadRequest s r))) r.link (numbered s r.link (spadRequest s r)) =
      .ok [(winLocation s r, d.length)] := (requestSpans_found (by simp [hq])).trans (by rw [← reqLen_write hdata]; rfl)
  have hland := landWrite_store (hq.trans_ne (by decide)) hspans (by simp [linkStateOf_spad hplace]) (by simp [isDpa_spad hplace])
    (pathUp_spad hplace _)
  exact takeIn_lands hserve (by simp [hbar]) hidle hjudge hdata hdata (hq.trans_ne (by decide)) hland (by simp)

omit hidle hn in
/-- A data write behind a held counter write waits. -/
theorem takeIn_spad_behind {x : Request} {rest : List Request} (hdata : r.data = some d) (hposted : (getLink s r.link).posted = x :: rest)
    (hx : x.kind = 2) (hreads : (getLink s r.link).reads = []) : takeIn s r = arrived s r.link (numbered s r.link (spadRequest s r)) := by
  have hq : (spadRequest s r).kind = 1 := hk
  exact takeIn_held hserve (by simp [hbar]) ((judge_spad hbar hk hwin).trans (if_pos hspad)) hdata (by simp [hq])
    (by rw [hposted]; rfl) hx hreads

section
variable (hdata : r.data = none)
include hdata

theorem takeIn_spad_read
    (hreply : spadReply (forget (setLink s (nextLink s r.link)) r.link (getLink s r.link).taken) r.link (winLocation s r) r.len = some t) :
    takeIn s r = t := by
  refine takeIn_answered hserve (by simp [hbar]) hidle ((judge_spad hbar hk hwin).trans (if_pos hspad)) hdata ?_
  rw [landRead_winLocation hk hspad hn hdata, hreply]
  rfl

theorem takeIn_spad_read_waits
    (hreply : spadReply (forget (setLink s (nextLink s r.link)) r.link (getLink s r.link).taken) r.link (winLocation s r) r.len = none) :
    takeIn s r = setLink s (putReads (nextLink s r.link) [(0, numbered s r.link (spadRequest s r))]) := by
  refine takeIn_unanswered hserve (by simp [hbar]) hidle ((judge_spad hbar hk hwin).trans (if_pos hspad)) hdata ?_
  rw [landRead_winLocation hk hspad hn hdata, hreply]
  rfl

end
end

/-! ## Counter windows (R360-R362) -/

section
variable (hk : winKind s r = 2) (hwin : winAdmits s r = true) (hctr : counterAdmits s r = true)
include hk hwin hctr

theorem takeIn_counter_toxic (hdata : r.data = some d) (ht : r.toxic = true) :
    takeIn s r = reportAer (countRefused s r.link) r.link 1 :=
  takeIn_toxicAdd hserve (by simp [hbar]) hidle ((judge_counter hbar hk hwin).trans (if_pos hctr)) hdata hk ht

theorem takeIn_counter_write (hdata : r.data = some d) (ht : r.toxic = false) :
    takeIn s r = arrived s r.link (numbered s r.link (counterRequest s r)) :=
  takeIn_held hserve (by simp [hbar]) ((judge_counter hbar hk hwin).trans (if_pos hctr)) hdata (fun _ => ht) (by rw [hidle.1]; rfl) hk hidle.2

section
variable (hdata : r.data = none) (hlatent : s.latent = [])
include hdata hlatent

theorem takeIn_counter_read (hsound : isToxic s (wordOf (winLocation s r)) = false)
    (hreply : sendReply (setLink s (nextLink s r.link)) r.link (bytesOf 8 (readWord s (wordOf (winLocation s r))).toNat) false true = some t) :
    takeIn s r = t := by
  refine takeIn_answered hserve (by simp [hbar]) hidle ((judge_counter hbar hk hwin).trans (if_pos hctr)) hdata ?_
  have hread := (readCounter_nextLink (id := r.link) (wordOf (winLocation s r)) hlatent).trans (if_neg (by simp [hsound]))
  rw [landRead_counter_value (q := numbered s r.link (counterRequest s r)) hk hread, hreply]
  rfl

theorem takeIn_counter_read_toxic (htoxic : isToxic s (wordOf (winLocation s r)) = true)
    (hreply : sendReply (poisonEvent (setLink s (nextLink s r.link)) (wordOf (winLocation s r))) r.link
      (readBytes (poisonEvent (setLink s (nextLink s r.link)) (wordOf (winLocation s r))) (wordOf (winLocation s r)) 8) true true = some t) :
    takeIn s r = t := by
  refine takeIn_answered hserve (by simp [hbar]) hidle ((judge_counter hbar hk hwin).trans (if_pos hctr)) hdata ?_
  have hread := (readCounter_nextLink (id := r.link) (wordOf (winLocation s r)) hlatent).trans (if_pos htoxic)
  exact (landRead_counter_poisoned (q := numbered s r.link (counterRequest s r)) hk hread).trans (congrArg (replied _) hreply)

end
end

/-! ## Module windows (R248, R360) -/

section
variable (hk : winKind s r = 3) (hwin : winAdmits s r = true) (hmod : moduleAdmits s r = true) (hdata : r.data = some d) (hn : 0 < d.length)
  (hpage : winVa s r % 65536 + d.length ≤ 65536)
include hk hwin hmod hdata hn hpage

theorem takeIn_module_refused (h : askWindow (arrived s r.link (numbered s r.link (moduleRequest s r))) r.link
    (numbered s r.link (moduleRequest s r)) = .refused) : takeIn s r = setLink
      (countRefused (forget (arrived s r.link (numbered s r.link (moduleRequest s r))) r.link (getLink s r.link).taken) r.link)
      (nextLink s r.link) := by
  have hq : (numbered s r.link (moduleRequest s r)).kind = 3 := hk
  have hlen : (numbered s r.link (moduleRequest s r)).len = d.length := reqLen_write hdata
  exact takeIn_lands hserve (by simp [hbar]) hidle ((judge_module hbar hk hwin).trans (if_pos hmod)) hdata hdata (hq.trans_ne (by decide))
    (landWrite_refused (hq.trans_ne (by decide)) (requestSpans_refused hq hdata (hlen ▸ hn) (hlen ▸ hpage) h)) (by simp [numbered])

theorem takeIn_module_write {b : Nat} (h : askWindow (arrived s r.link (numbered s r.link (moduleRequest s r))) r.link
    (numbered s r.link (moduleRequest s r)) = .got b) (hbacked : isDpa b = true → backed s b = true) (hstate : linkStateOf s b = 2)
    (hup : pathUp s b = true) : takeIn s r = setLink
      (landedAt (forget (arrived s r.link (numbered s r.link (moduleRequest s r))) r.link (getLink s r.link).taken) r.link r.toxic b d)
      (nextLink s r.link) := by
  have hq : (numbered s r.link (moduleRequest s r)).kind = 3 := hk
  have hlen : (numbered s r.link (moduleRequest s r)).len = d.length := reqLen_write hdata
  have hspans := requestSpans_got hq hdata (hlen ▸ hn) (hlen ▸ hpage) h
  rw [hlen] at hspans
  exact takeIn_lands hserve (by simp [hbar]) hidle ((judge_module hbar hk hwin).trans (if_pos hmod)) hdata hdata (hq.trans_ne (by decide))
    (landWrite_store (hq.trans_ne (by decide)) hspans (by simp [linkStateOf_arrived, hstate]) hbacked (by rw [pathUp_arrived, hup])) (by simp)

end
end

/-! ## BAR0 (R358) -/

theorem takeIn_bar0_guest {s : State} {r : Inbound} (hbar : r.bar0 = true) (hrole : (getLink s r.link).role ≠ 1) : takeIn s r = s :=
  if_neg fun h => hrole (by simpa [hbar] using (Bool.and_eq_true_iff.1 h).2)

section
variable {p : Fin 8} (hbar : r.bar0 = true) (hhost : (getLink s r.link).role = 1)
include hserve hidle hbar hhost

theorem takeIn_bar0_write (hdata : r.data = some d) : takeIn s r =
    setLink (bar0Stores (arrived s r.link (numbered s r.link (bar0Request s r))) r.off d) (nextLink s r.link) :=
  takeIn_lands hserve (fun _ => hhost) hidle (judge_bar0 hbar) hdata hdata (by simp [bar0Request]) (landWrite_bar0 rfl) (by simp)

/-- The port's registers are read behind what has arrived. -/
theorem takeIn_bar0_read (hport : r.link = .port p) (hdata : r.data = none) : takeIn s r =
    { setLink s (nextLink s r.link) with
      out := s.out ++ [.reply r.link ((List.range r.len).map fun i => bar0Byte (setLink s (nextLink s r.link)) p (r.off + i)) false true] } := by
  have hup : (getLink (setLink s (nextLink s r.link)) r.link).state = 2 := by
    rw [getLink_setLink_same (nextLink_id s _)]
    exact state_of_serves hserve
  refine takeIn_answered hserve (fun _ => hhost) hidle (judge_bar0 hbar) hdata ((landRead_bar0 hport rfl).trans ?_)
  rw [sendReply_port hport hup, ← reqLen_read hdata]
  rfl

end
end

end Sys2Proof
end

