-- ==== Sys2Proof/Proofs/LinkRequests.lean ====
section
/-!
SUPPORT. Welt flits and their replay (R367, R368), and O55: inbound requests at their windows, held counter writes, and flits.
-/
namespace Sys2Proof
open Machine Safety

/-! ## Welt links (R367, R368) -/

section
variable {s : State} {w : Fin 16} {f : Flit}

/-- An empty replay buffer has room for any message. -/
theorem sendMsg_fresh {kind win off : Nat} {b : List Byte} {o : Out} (hup : (getLink s (.welt w)).state = 2)
    (hreplay : (getLink s (.welt w)).replay = []) (hbacklog : (getLink s (.welt w)).backlog = []) : sendMsg s w kind win off b o ≠ none := by
  rw [sendMsg, hup, hreplay, hbacklog, if_neg (by simp)]
  exact Option.some_ne_none _

theorem sendReply_fresh {b : List Byte} {toxic ok : Bool} (hup : (getLink s (.welt w)).state = 2) (hreplay : (getLink s (.welt w)).replay = [])
    (hbacklog : (getLink s (.welt w)).backlog = []) : sendReply s (.welt w) b toxic ok ≠ none := by
  have hsame : (if toxic then reportAer s (.welt w) 2 else s) = s := by cases toxic <;> rfl
  unfold sendReply
  rw [hsame]
  dsimp only
  rw [hup]
  exact sendMsg_fresh hup hreplay hbacklog

/-- The flits that have room in the replay buffer, and the link once they follow. -/
def followers (c : Link) : List SentFlit := c.backlog.take (2048 - c.replay.length)
def followOn (c : Link) : Link := { c with replay := c.replay ++ followers c, backlog := c.backlog.drop (followers c).length }
/-- What leaves the module last. -/
def leaving (s : State) (o : List Out) : State := { s with out := s.out ++ o }
/-- The link is c, and what has room follows. -/
def followed (s : State) (w : Fin 16) (c : Link) : State := leaving (setLink s (followOn c)) ((followers c).map (outFlit c w))

theorem followed_none {c : Link} (h : followers c = []) : followed s w c = setLink s c := by
  simp [followed, followOn, leaving, setLink, h]

theorem sendBacklog_setLink {c : Link} (hid : c.id = .welt w) : sendBacklog (setLink s c) w = followed s w c := by
  rw [sendBacklog, getLink_setLink_same hid]
  by_cases hempty : (followers c).isEmpty = true
  · exact (if_pos hempty).trans (followed_none (List.isEmpty_iff.1 hempty)).symm
  · exact (if_neg hempty).trans (congrArg (leaving · _) (setLink_setLink (k := c) (l := followOn c) rfl))

theorem receiveFlit_down (h : (getLink s (.welt w)).state ≠ 2 ∨ (getLink s (.welt w)).role ≠ 4) : receiveFlit s w f = s := if_pos h

theorem replayWelt_down (h : (getLink s (.welt w)).state ≠ 2 ∨ (getLink s (.welt w)).role ≠ 4) : replayWelt s w = s :=
  if_pos (h.elim .inl fun hr => .inr (.inl hr))

/-- A flit that is not taken is counted. -/
def flitDiscarded (s : State) (w : Fin 16) : State := bumpIo s (linkDie (.welt w)) 0x28 1
/-- The link once the ACK of a flit is taken, once a data flit itself is taken, and the kind of the flit. -/
def ackedLink (s : State) (w : Fin 16) (f : Flit) : Link := coverAck (getLink s (.welt w)) (natOf ((f.bytes.drop 4).take 4))
def takenLink (s : State) (w : Fin 16) (f : Flit) : Link := { ackedLink s w f with rxSeq := ((ackedLink s w f).rxSeq + 1) % 2 ^ 32 }
def flitKind (f : Flit) : Nat := natOf ((f.bytes.drop 8).take 1)

section
variable (hup : (getLink s (.welt w)).state = 2) (hrole : (getLink s (.welt w)).role = 4)
include hup hrole

theorem receiveFlit_damaged (h : f.bytes.length ≠ 248 ∨ crc64 f.bytes ≠ f.crc) : receiveFlit s w f = flitDiscarded s w := by
  rw [receiveFlit, if_neg (by simp [hup, hrole]), if_pos h]
  rfl

omit hup hrole in
theorem replayWelt_empty (h : (getLink s (.welt w)).replay = []) : replayWelt s w = s := if_pos (.inr (.inr (by rw [h]; rfl)))

/-- No flit of another kind is taken. -/
theorem receiveFlit_unknown (hkind : 2 ≤ flitKind f) : receiveFlit s w f = flitDiscarded s w := by
  rw [receiveFlit, if_neg (by simp [hup, hrole])]
  refine (ite_congr rfl (fun _ => rfl) fun _ => ?_).trans (ite_self _)
  exact (if_neg (by unfold flitKind at hkind; omega)).trans (if_neg fun h => by unfold flitKind at hkind; omega)

section
variable (hlen : f.bytes.length = 248) (hcrc : crc64 f.bytes = f.crc)
include hlen hcrc

theorem receiveFlit_idle (hkind : flitKind f = 0) : receiveFlit s w f = followed s w (ackedLink s w f) := by
  rw [receiveFlit, if_neg (by simp [hup, hrole]), if_neg (by simp [hlen, hcrc])]
  exact (if_pos hkind).trans (sendBacklog_setLink (getLink_id s _))

theorem receiveFlit_unexpected (hkind : flitKind f ≠ 0) (h : ¬ (flitKind f = 1 ∧ natOf (f.bytes.take 4) = (ackedLink s w f).rxSeq)) :
    receiveFlit s w f = flitDiscarded s w := by
  rw [receiveFlit, if_neg (by simp [hup, hrole]), if_neg (by simp [hlen, hcrc])]
  exact (if_neg hkind).trans (if_neg h)

section
variable (hkind : flitKind f = 1) (hseq : natOf (f.bytes.take 4) = (ackedLink s w f).rxSeq)
include hkind hseq

/-- The next data flit is taken: it ends no message, or its message goes to its window. -/
theorem receiveFlit_silent (hdone : f.done = none) : receiveFlit s w f = followed s w (takenLink s w f) := by
  rw [receiveFlit, if_neg (by simp [hup, hrole]), if_neg (by simp [hlen, hcrc]), hdone]
  exact (if_neg (hkind.trans_ne (by decide))).trans ((if_pos ⟨hkind, hseq⟩).trans (sendBacklog_setLink (c := takenLink s w f) (getLink_id s _)))

theorem receiveFlit_message {m : WeltMsg} (hdone : f.done = some m) : receiveFlit s w f = applyMsg (followed s w (takenLink s w f)) w m := by
  rw [receiveFlit, if_neg (by simp [hup, hrole]), if_neg (by simp [hlen, hcrc]), hdone,
    ← sendBacklog_setLink (c := takenLink s w f) (getLink_id s _)]
  exact (if_neg (hkind.trans_ne (by decide))).trans (if_pos ⟨hkind, hseq⟩)

end
end

/-- The link whose uncovered flits leave again, and the state once they have been counted and have left. -/
def replayedLink (l : Link) : Link := { l with replay := l.replay.map fun f => { f with times := f.times + 1 } }
def replayed (s : State) (w : Fin 16) : State :=
  let l := getLink s (.welt w)
  let n := l.replay.length
  { setLink (bumpAt (bumpIo s (linkDie (.welt w)) 0x20 n) (linkLoc (.welt w) + 0x10) n) (replayedLink l) with
    out := s.out ++ l.replay.map (outFlit l w) }

theorem replayWelt_replays (h : (getLink s (.welt w)).replay ≠ []) : replayWelt s w =
    if (replayedLink (getLink s (.welt w))).replay.any fun f => 16 ≤ f.times then retrainLink (replayed s w) (.welt w) else replayed s w := by
  have hout (n : Nat) : (bumpAt (bumpIo s (linkDie (.welt w)) 0x20 n) (linkLoc (.welt w) + 0x10) n).out = s.out := by
    simp [bumpIo, bumpAt, writeNat]
  rw [replayWelt, if_neg (by simp [hup, hrole, h]), replayed, ← hout (getLink s (.welt w)).replay.length]
  rfl

end
end

/-- Settles O55: a request is judged (`judge`), and takes its place; alone it lands or is answered as its window says, and behind a held
counter write it waits (`pumpLink_held`). A flit is taken, or counted. -/
theorem linkRequests : Obligations.LinkRequests := by
  unfold Obligations.LinkRequests
  refine ⟨fun s r h => exec_inbound_unserved h, fun s r hserve => ?_, fun s w f => ?_⟩
  · intro id l next a q q1 q2 q3 q4 refused arrived' alone
    refine ⟨fun hbar hk => ⟨fun hidle hno => ⟨fun d hdata => ?_, fun t hdata hreply => ?_⟩,
        fun hwin hspad hn => ⟨fun d hidle hdata => ?_, fun hidle hdata => ⟨fun t hreply => ?_, fun hreply => ?_⟩,
          fun d x rest hdata hposted hx hreads => ?_⟩⟩,
      fun hbar hk hidle => ⟨fun d hdata => ?_, fun t hdata hreply => ?_⟩,
      fun hbar hk hidle => ⟨fun hdata => ⟨fun t hno hreply => ?_, fun t hok hlatent hsound hreply => ?_, fun t hok hlatent htoxic hreply => ?_⟩,
        fun d hdata => ⟨fun hno => ?_, fun hok ht => ?_, fun hok ht => ?_⟩⟩,
      fun x d rest hposted hx hdata hreads => ⟨?_, fun hrest => ?_⟩, fun hidle => ?_,
      fun hbar hk hidle d hdata => ⟨fun hno => ?_, fun hwin hmod hn hpage => ⟨fun hfound => ?_, fun b hfound hbacked hstate hup ht => ?_⟩⟩,
      fun hbar => ⟨exec_counterRead_bar0 hbar, exec_counterWrite_bar0 hbar, exec_moduleRequest_bar0 hbar, fun hrole => ?_,
        fun hhost hidle p hport => ⟨fun d hdata => ?_, fun hdata => ?_⟩⟩⟩
    · rw [exec_spadRequest (.inr hk.le), takeIn_refused_write hserve (by simp [hbar]) hidle (judge_spad_refused hbar hk hno) hdata]
      rfl
    · rw [exec_spadRequest (.inr hk.le), takeIn_refused_read hserve (by simp [hbar]) hidle (judge_spad_refused hbar hk hno) hdata hreply]
    · rw [exec_spadRequest (.inr hk.le), takeIn_spad_write hserve hidle hbar hk hwin hspad hn hdata]
      rfl
    · rw [exec_spadRequest (.inr hk.le), takeIn_spad_read hserve hidle hbar hk hwin hspad hn hdata hreply]
    · rw [exec_spadRequest (.inr hk.le), takeIn_spad_read_waits hserve hidle hbar hk hwin hspad hn hdata hreply]
      rfl
    · rw [exec_spadRequest (.inr hk.le), takeIn_spad_behind hserve hbar hk hwin hspad hdata hposted hx hreads]
      rfl
    · rw [exec_spadRequest (.inr (by omega)), takeIn_refused_write hserve (by simp [hbar]) hidle (judge_closed hbar hk) hdata]
      rfl
    · rw [exec_spadRequest (.inr (by omega)), takeIn_refused_read hserve (by simp [hbar]) hidle (judge_closed hbar hk) hdata hreply]
    · rw [exec_counterRead hbar hk hdata, takeIn_refused_read hserve (by simp [hbar]) hidle (judge_counter_refused hbar hk hno) hdata hreply]
    · rw [exec_counterRead hbar hk hdata, takeIn_counter_read hserve hidle hbar hk hok.1 hok.2 hdata hlatent hsound hreply]
    · rw [exec_counterRead hbar hk hdata, takeIn_counter_read_toxic hserve hidle hbar hk hok.1 hok.2 hdata hlatent htoxic hreply]
    · rw [exec_counterWrite hbar hk hdata, takeIn_refused_write hserve (by simp [hbar]) hidle (judge_counter_refused hbar hk hno) hdata]
      rfl
    · rw [exec_counterWrite hbar hk hdata, takeIn_counter_toxic hserve hidle hbar hk hok.1 hok.2 hdata ht]
      rfl
    · rw [exec_counterWrite hbar hk hdata, takeIn_counter_write hserve hidle hbar hk hok.1 hok.2 hdata ht]
      rfl
    · exact congrArg Host.Outcome.next (applyHeld_add hposted hx hdata hreads)
    · exact congrArg Host.Outcome.next (applyHeld_add_last hposted hx hdata hreads hrest)
    · exact congrArg Host.Outcome.next (applyHeld_idle hidle)
    · rw [exec_moduleRequest hbar hk, takeIn_refused_write hserve (by simp [hbar]) hidle (judge_module_refused hbar hk hno) hdata]
      rfl
    · rw [exec_moduleRequest hbar hk, takeIn_module_refused hserve hidle hbar hk hwin hmod hdata hn hpage ((askWindow_module _ hdata).trans hfound)]
      rfl
    · rw [exec_moduleRequest hbar hk,
        takeIn_module_write hserve hidle hbar hk hwin hmod hdata hn hpage ((askWindow_module _ hdata).trans hfound) hbacked hstate hup, ht]
      rfl
    · rw [exec_spadRequest (.inl hbar), takeIn_bar0_guest hbar hrole]
    · rw [exec_spadRequest (.inl hbar), takeIn_bar0_write hserve hidle hbar hhost hdata]
      rfl
    · rw [exec_spadRequest (.inl hbar), takeIn_bar0_read hserve hidle hbar hhost hport hdata]
      rfl
  · intro id l k on
    refine ⟨fun hup hreplay hbacklog b toxic ok => sendReply_fresh hup hreplay hbacklog, fun hdown => ⟨?_, ?_⟩, fun hup hrole =>
      ⟨fun hlen hcrc hkind => ?_, fun hbad => ?_, fun hlen hcrc hkind => ⟨fun hseq => ⟨fun hdone => ?_, fun m hdone => ?_⟩, fun hseq => ?_⟩,
        fun hkind => ?_, fun hnone => ?_, fun hsome => ?_⟩⟩
    · exact congrArg Host.Outcome.next (receiveFlit_down hdown)
    · exact congrArg Host.Outcome.next (replayWelt_down hdown)
    · exact congrArg Host.Outcome.next (receiveFlit_idle hup hrole hlen hcrc hkind)
    · exact congrArg Host.Outcome.next (receiveFlit_damaged hup hrole hbad)
    · exact congrArg Host.Outcome.next (receiveFlit_silent hup hrole hlen hcrc hkind hseq hdone)
    · exact congrArg Host.Outcome.next (receiveFlit_message hup hrole hlen hcrc hkind hseq hdone)
    · exact congrArg Host.Outcome.next (receiveFlit_unexpected hup hrole hlen hcrc (hkind.trans_ne (by decide)) fun h => hseq h.2)
    · exact congrArg Host.Outcome.next (receiveFlit_unknown hup hrole hkind)
    · exact congrArg Host.Outcome.next (replayWelt_empty hnone)
    · exact congrArg Host.Outcome.next (replayWelt_replays hup hrole hsome)

end Sys2Proof
end

