-- ==== Sys2Proof/Proofs/FaultCounter.lean ====
section
/-!
SUPPORT. O8 fails where the fault counter gains 1. A fibre of a kernel with FPOL = 1 that faults has its proxies armed first (R346), and
each proxy entry is written after the core's own stores to its block have left the store buffer (R81, R345). The state is plain data: an
entry of the buffer may hold a store whose offset lies beyond its block, and no hypothesis of the statement keeps it out. Such a store to
the block of a proxy entry reaches the fault counter between the two readings that the statement compares.
-/
namespace Sys2Proof
open Machine Safety

/-! ## A trap that leaves the fibre faulted -/

theorem raiseTrap_faults {s : State} (t : Trap) (hreq : isRequest s s.focus.1 (fibIndex s.fib) = false)
    (h : s.fib.tvec = 0 ∨ s.fib.tcause ≠ 0) : raiseTrap s t false = faultFibre (trapRegs s t) s.focus.1 s.focus.2 := by
  have hreq' : isRequest s s.focus.1 (s.fib.fibre.toNat % 4096) = false := hreq
  have hcond : (s.fib.tcause != 0 || s.fib.tvec == 0) = true := by simpa [or_comm] using h
  have hcause : (if (s.fib.tcause != 0) = true then 0x80 else 0) + t.cause = t.cause + if s.fib.tcause = 0 then 0 else 0x80 := by
    by_cases hc : s.fib.tcause = 0 <;> simp [hc, Nat.add_comm]
  simp only [raiseTrap, trapRegs, fibIndex, hreq', hcond, hcause, Bool.false_eq_true, if_false, if_true]

/-! ## Blank bytes -/

theorem setByte_blank {s : State} {a : Nat} (h : ∀ c ∈ s.mem, c.1 ≠ a) : setByte s a blankByte = s := by
  have hm : cellPut s.mem a blankByte = s.mem := by
    simpa [cellPut, strike] using fun b v hv => h (b, v) hv
  unfold setByte
  rw [hm]

/-- Blank bytes written where memory holds no cell leave it as it is. -/
theorem writeBytes_blank {s : State} {a : Nat} {l : List Byte} (hl : ∀ b ∈ l, b = blankByte)
    (hm : ∀ c ∈ s.mem, c.1 < a ∨ a + l.length ≤ c.1) : writeBytes s a l = s := by
  induction l generalizing a with
  | nil => rfl
  | cons b r ih =>
    obtain ⟨rfl, hr⟩ := List.forall_mem_cons.1 hl
    simp only [List.length_cons] at hm
    rw [writeBytes, setByte_blank fun c hc => by have := hm c hc; omega]
    exact ih hr fun c hc => by have := hm c hc; omega

theorem writeBytes_append (s : State) (a : Nat) (l r : List Byte) :
    writeBytes s a (l ++ r) = writeBytes (writeBytes s a l) (a + l.length) r := by
  induction l generalizing s a with
  | nil => rfl
  | cons b l ih => simp only [List.cons_append, writeBytes, ih, List.length_cons]; congr 1; omega

/-- The record of a fibre whose registers hold no poison, in a module that holds none and no single-bit error. -/
theorem writeRecord_clean {s : State} (c : Core) {f : Fib} (loc st : Nat) (hf : f.poison = []) (hp : s.poison = []) (hl : s.latent = []) :
    writeRecord s c f loc st = writeBytes s loc (recordBytes c f st) := by
  have hs : { s with poison := [], latent := [] } = s := by cases s; cases hp; cases hl; rfl
  simp only [writeRecord, storeBytes, hf, hp, hl, List.filter_nil, List.foldl_nil, hs]

/-! ## A store that lies beyond its block -/

/-- A buffer entry for the block of proxy entry 0 of core g: FIBRE of the entry, valid and naming fibre 0, and a store of 5 at the offset,
far beyond the block, at which the fault counter of the core stands. -/
def strayEntry (g : Nat) : SbEntry :=
  { block := proxyLoc g 0
    writes := [{ off := 0, bytes := bytesOf 4 (2 ^ 31), who := fibreAdder g 0 },
               { off := faultCtr g - proxyLoc g 0, bytes := [5], who := fibreAdder g 0 }] }

/-- What the device knows of the first fibre of the core: it is bound, and a fibre of kernel 0. -/
def ofKernel : FibreInfo := { state := .bound, role := .user, kern := some 0, loc := 0xF0000000 }

/-- The reset state with that fibre, which has no handler, FPOL = 1 in the flags of kernel 0 (R321), and the entry in the store buffer. -/
def strayStore : State :=
  { State.reset with
    cores := [(bootG, { bootCore bootG with fibres := [(0, ofKernel)], sb := [strayEntry bootG] })]
    mem := [(kernLoc 0 + 0x3A, 8)] }

def noInstr : Trap := ⟨1, 0, 0⟩
def strayTrapped : State := trapRegs strayStore noInstr

theorem strayStore_mayFault : mayFault strayStore ofKernel := by
  refine ⟨?_, ?_, ?_, ?_, ?_⟩ <;> decide +kernel

/-- The bytes of the fibre's record when it faults (R57). -/
def strayRecord : List Byte := recordBytes (getCore strayStore bootG) strayTrapped.fib 6

/-- Beyond the fields of its first 96 bytes the record is blank. -/
theorem strayRecord_blank : (strayRecord.drop 96).all (· == blankByte) = true := by decide +kernel

/-- The state with the fields of the record that are not blank. -/
def strayRecorded : State := writeBytes strayTrapped ofKernel.loc (strayRecord.take 96)

theorem strayRecorded_cells : (strayRecorded.mem.all fun c => decide (c.1 < ofKernel.loc + 96 ∨ ofKernel.loc + 2048 ≤ c.1)) = true := by
  decide +kernel
theorem strayRecord_length : (strayRecord.take 96).length = 96 ∧ (strayRecord.drop 96).length = 1952 := by decide +kernel

theorem strayRecord_written : writeRecord strayTrapped (getCore strayStore bootG) strayTrapped.fib ofKernel.loc 6 = strayRecorded := by
  obtain ⟨hhead, htail⟩ := strayRecord_length
  rw [writeRecord_clean _ _ _ rfl rfl rfl, ← strayRecord, ← List.take_append_drop 96 strayRecord, writeBytes_append, hhead]
  refine writeBytes_blank (by simpa using strayRecord_blank) fun c hc => ?_
  have := List.all_eq_true.1 strayRecorded_cells c hc
  rw [htail]
  simpa [Nat.add_assoc] using this

/-- The fibre is out of its slot with its record written. -/
def strayUnbound : State :=
  let c := getCore strayStore bootG
  setCore strayRecorded bootG
    { c with slots := c.slots.set 0 (emptySlot c.slots[0])
             fibres := place c.fibres 0 { infoOf ofKernel (restFib strayTrapped.fib) .faulted c.cyc with writing := false } }

theorem strayTrapped_unbind : unbind strayTrapped bootG 0 .faulted = strayUnbound := by
  have hinfo : fibreInfo strayTrapped bootG ((restFib (getCtx strayTrapped bootG 0)).fibre.toNat % 4096) = some ofKernel := by decide +kernel
  simp only [unbind, hinfo]
  unfold strayUnbound
  rw [← strayRecord_written]
  rfl

/-- The counter reads 0 before the fault, and 6 after it: the stray 5, and the 1 that the statement names. -/
theorem strayStore_counter : readWord strayStore (faultCtr bootG) = 0 := by decide +kernel
theorem strayStore_counter_after : readWord (raiseTrap strayStore noInstr false) (faultCtr bootG) = 6 := by
  rw [raiseTrap_faults noInstr (by decide +kernel) (.inl rfl)]
  change readWord (faultFibre strayTrapped bootG 0) (faultCtr bootG) = 6
  unfold faultFibre
  rw [strayTrapped_unbind]
  decide +kernel

/-- Refutes O8 at a fibre without a handler, in `strayStore`: the statement has the fault counter gain 1, and the model has it gain 6. -/
theorem not_trapIsTaken : ¬ Obligations.TrapIsTaken := by
  unfold Obligations.TrapIsTaken
  rintro ⟨-, -, hfaults, -⟩
  obtain ⟨-, -, -, -, -, -, -, hgain⟩ := hfaults strayStore noInstr ofKernel strayStore_mayFault (.inl rfl)
  have hafter : (6 : Word) = 0 + 1 := by
    rw [← strayStore_counter_after, ← strayStore_counter]
    exact hgain
  exact absurd hafter (by decide)

end Sys2Proof
end

