-- ==== Sys2Proof/Proofs/VectorMemory.lean ====
section
/-!
SUPPORT. Gathers, scatters and vector atomics (R139, R179-R183): the lanes of an element-wise instruction taken one by one, and what is
left where one of them stops.
-/
namespace Sys2Proof
open Machine Safety

/-! ## How an instruction ends where it keeps something (R139) -/

theorem performSeq_trap_keeping {m : M Unit} {s u : State} {c : Nat} {a : Word} {un : Bool} (h : m s = .error (.trap c a un (some u)))
    (hp : s.pair = none) : performSeq m s = .next (raiseTrap u ⟨c, s.fib.pc, a⟩ un) := by
  have hseq : inSequence m s = .error (.trap c a un (some u)) := by rw [inSequence, run_bind_error h]
  simp [performSeq, perform, hseq, hp]

/-! ## The progress field -/

theorem setProgress_eq (f : Fib) (n : Nat) :
    setProgress f n = { f with step := (setProgress f n).step, hstep := (setProgress f n).hstep } := by
  unfold setProgress; split <;> rfl

theorem progressOf_setProgress_zero (f : Fib) : progressOf (setProgress f 0) = 0 := by
  by_cases h : f.tcause = 0
  · simp only [progressOf, setProgress, if_pos h]; rfl
  · simp only [progressOf, setProgress, if_neg h]; rfl

theorem cleanReg_eq (f : Fib) (n : Nat) : cleanReg f n = { f with poison := (cleanReg f n).poison, flips := (cleanReg f n).flips } := by
  unfold cleanReg; split <;> rfl

theorem progressOf_cleanReg (f : Fib) (n : Nat) : progressOf (cleanReg f n) = progressOf f := by rw [cleanReg_eq]; rfl

/-! ## The lanes in ascending order (R180) -/

theorem lanesFrom_lane (k : Fin 16) : lanesFrom k.val = k :: lanesFrom (k.val + 1) := by revert k; decide

theorem lanesFrom_end {n : Nat} (h : 16 ≤ n) : lanesFrom n = [] := by
  simp only [lanesFrom, List.filter_eq_nil_iff, decide_eq_true_eq]
  exact fun i _ => by omega

/-- A lane is active from the progress on where its index is not the mark of an inactive one (R179). -/
def activeFrom (p : Nat) (idx : VReg) (i : Fin 16) : Bool := decide (p ≤ i.val) && idx[i] != 0xFFFFFFFF

theorem activeFrom_iff {p : Nat} {idx : VReg} {i : Fin 16} : activeFrom p idx i = true ↔ p ≤ i.val ∧ idx[i] ≠ 0xFFFFFFFF := by
  simp [activeFrom]

theorem keepingProgress_ok {f0 : Fib} {i : Nat} {m : M Unit} {u t : State} (h : m u = .ok ((), t)) :
    keepingProgress f0 i m u = .ok ((), t) := by
  simp only [keepingProgress, h]

section
variable {f0 : Fib} {base : Word} {idx : VReg} {sc : Fin 3} {act : Fin 16 → Word → M Unit} {p : Nat}

theorem eachLane_inactive {i : Fin 16} (rest : List (Fin 16)) (u : State) (h : idx[i] = 0xFFFFFFFF) :
    eachLane f0 base idx sc act (i :: rest) u = eachLane f0 base idx sc act rest u := by
  simp only [eachLane, if_pos h]

theorem eachLane_active {i : Fin 16} {rest : List (Fin 16)} {u t : State} (h : idx[i] ≠ 0xFFFFFFFF)
    (hact : act i (base + w64 (idx[i].toNat * 2 ^ sc.val)) u = .ok ((), t)) :
    eachLane f0 base idx sc act (i :: rest) u = eachLane f0 base idx sc act rest t := by
  rw [eachLane, if_neg h, run_bind_ok (keepingProgress_ok hact)]

theorem eachLane_stops {i : Fin 16} {rest : List (Fin 16)} {u : State} {e : Stop} (h : idx[i] ≠ 0xFFFFFFFF)
    (hact : keepingProgress f0 i.val (act i (base + w64 (idx[i].toNat * 2 ^ sc.val))) u = .error e) :
    eachLane f0 base idx sc act (i :: rest) u = .error e := by
  rw [eachLane, if_neg h, run_bind_error hact]

/-- One lane, active or not, is the next step of the run. -/
theorem eachLane_next {f : Fin 16 → State → Option State} (k : Fin 16) {u t : State}
    (hact : ∀ i u t, f i u = some t → act i (base + w64 (idx[i].toNat * 2 ^ sc.val)) u = .ok ((), t))
    (h : (if activeFrom p idx k then f k u else some u) = some t) :
    eachLane f0 base idx sc act (lanesFrom (max p k.val)) u = eachLane f0 base idx sc act (lanesFrom (max p (k.val + 1))) t := by
  by_cases hp : p ≤ k.val
  · rw [Nat.max_eq_right hp, Nat.max_eq_right (by omega), lanesFrom_lane]
    by_cases hi : idx[k] = 0xFFFFFFFF
    · rw [if_neg (by simp [activeFrom, hi])] at h
      rw [eachLane_inactive _ _ hi, Option.some.inj h]
    · rw [if_pos (activeFrom_iff.2 ⟨hp, hi⟩)] at h
      exact eachLane_active hi (hact k u t h)
  · rw [if_neg (fun hk => hp (activeFrom_iff.1 hk).1)] at h
    rw [Nat.max_eq_left (by omega), Nat.max_eq_left (by omega), Option.some.inj h]

/-- The lanes below n have run: what is left of the instruction begins at lane n, in the state that they have left. -/
theorem eachLane_lanesRun {f : Fin 16 → State → Option State}
    (hact : ∀ i u t, f i u = some t → act i (base + w64 (idx[i].toNat * 2 ^ sc.val)) u = .ok ((), t)) (s : State) :
    ∀ {n : Nat} {t : State}, n ≤ 16 → lanesRun (activeFrom p idx) f n s = some t →
      eachLane f0 base idx sc act (lanesFrom p) s = eachLane f0 base idx sc act (lanesFrom (max p n)) t
  | 0, t, _, h => by rw [Nat.max_zero, Option.some.inj h]
  | n + 1, t, hn, h => by
    obtain ⟨u, hu, hlane⟩ := Option.bind_eq_some_iff.1 h
    rw [eachLane_lanesRun hact s (by omega) hu]
    have hk : Fin.ofNat 16 n = ⟨n, by omega⟩ := Fin.ext (Nat.mod_eq_of_lt (by omega))
    rw [hk] at hlane
    exact eachLane_next ⟨n, by omega⟩ hact hlane

/-- All lanes have run: the progress is 0 (R139). -/
theorem eachLane_completes {f : Fin 16 → State → Option State}
    (hact : ∀ i u t, f i u = some t → act i (base + w64 (idx[i].toNat * 2 ^ sc.val)) u = .ok ((), t)) {s t : State}
    (h : lanesRun (activeFrom p idx) f 16 s = some t) :
    eachLane f0 base idx sc act (lanesFrom p) s = .ok ((), { t with fib := setProgress t.fib 0 }) := by
  rw [eachLane_lanesRun hact s (by omega) h, lanesFrom_end (by omega)]; rfl

/-- Lane k stops, the lanes below it having run. -/
theorem eachLane_stops_at {f : Fin 16 → State → Option State}
    (hact : ∀ i u t, f i u = some t → act i (base + w64 (idx[i].toNat * 2 ^ sc.val)) u = .ok ((), t)) {s t : State} {k : Fin 16} {e : Stop}
    (hk : activeFrom p idx k = true) (h : lanesRun (activeFrom p idx) f k.val s = some t)
    (hstop : keepingProgress f0 k.val (act k (base + w64 (idx[k].toNat * 2 ^ sc.val))) t = .error e) :
    eachLane f0 base idx sc act (lanesFrom p) s = .error e := by
  obtain ⟨hp, hi⟩ := activeFrom_iff.1 hk
  rw [eachLane_lanesRun hact s k.isLt.le h, Nat.max_eq_right hp, lanesFrom_lane]
  exact eachLane_stops hi hstop

end

section
variable {s t : State} {k : Fin 16} {m : M Unit}

theorem keepingProgress_trap {c : Nat} {a : Word} {un : Bool} {keep : Option State} (h : m t = .error (.trap c a un keep)) :
    keepingProgress s.fib k.val m t = .error (.trap c a un (some (stoppedAt s t k keep))) := by
  simp only [keepingProgress, h, stoppedAt]

theorem keepingProgress_leave {l : Leave} {keep : Option State} (h : m t = .error (.leave l keep)) :
    keepingProgress s.fib k.val m t = .error (.leave l (some (stoppedAt s t k keep))) := by
  simp only [keepingProgress, h, stoppedAt]

end

/-! ## vgath (R181) -/

theorem vecOf_lane {α : Type} {n : Nat} (f : Fin n → α) (i : Fin n) : (vecOf f)[i] = f i := vecOf_get f i.val i.isLt

/-- Lane i of `vgath`. -/
def gathLane (s : State) (sc : Fin 3) (d : Fin 12) (m : CRef) (b i : Fin 16) (u : State) : Option State :=
  match loadSeg m.sg (laneOff s m sc b i) 4 4 false u with
  | .ok (x, t) => some { t with fib := { t.fib with v := t.fib.v.set (lowV d) (t.fib.v[lowV d].set i (BitVec.ofNat 32 (natOf x))) } }
  | .error _ => none

/-- The register d after the lanes of a gather below n. -/
def gathered (s : State) (d : Fin 12) (act : Fin 16 → Bool) (x : Fin 16 → List Byte) (n : Nat) : VReg :=
  vecOf fun i => if act i = true ∧ i.val < n then BitVec.ofNat 32 (natOf (x i)) else s.fib.v[lowV d][i]

theorem gathered_zero (s : State) (d : Fin 12) (act : Fin 16 → Bool) (x : Fin 16 → List Byte) : gathered s d act x 0 = s.fib.v[lowV d] :=
  vreg_ext fun i => by simp [gathered]

theorem gathered_get (s : State) (d : Fin 12) (act : Fin 16 → Bool) (x : Fin 16 → List Byte) (n : Nat) (i : Fin 16) :
    (gathered s d act x n)[i] = if act i = true ∧ i.val < n then BitVec.ofNat 32 (natOf (x i)) else s.fib.v[lowV d][i] := vecOf_lane ..

/-- The next lane fills its own element, where it is active. -/
theorem gathered_succ (s : State) (d : Fin 12) (act : Fin 16 → Bool) (x : Fin 16 → List Byte) (k : Fin 16) :
    gathered s d act x (k.val + 1) =
      if act k = true then (gathered s d act x k.val).set k (BitVec.ofNat 32 (natOf (x k))) else gathered s d act x k.val := by
  refine vreg_ext fun i => ?_
  by_cases hi : i = k
  · subst hi
    by_cases h : act i = true
    · rw [if_pos h, gathered_get, if_pos ⟨h, Nat.lt_succ_self _⟩]
      exact (Vector.getElem_set_self _).symm
    · rw [if_neg h, gathered_get, gathered_get, if_neg (h ·.1), if_neg (h ·.1)]
  · have hne : k.val ≠ i.val := fun e => hi (Fin.ext e.symm)
    have hlt : (i.val < k.val + 1) = (i.val < k.val) := propext (by omega)
    have hset : ((gathered s d act x k.val).set k (BitVec.ofNat 32 (natOf (x k))))[i] = (gathered s d act x k.val)[i] :=
      Vector.getElem_set_ne _ _ hne
    split <;> simp only [hset, gathered_get, hlt]

/-- The state with another vector file. -/
def withV (s : State) (v : Vector VReg 16) : State := { s with fib := { s.fib with v := v } }

/-- Where every active lane reads its bytes and changes nothing, the lanes below n fill the register d and do nothing else. -/
theorem lanesRun_gathLane {s : State} {sc : Fin 3} {d : Fin 12} {m : CRef} {b : Fin 16} {act : Fin 16 → Bool} {x : Fin 16 → List Byte}
    (hload : ∀ i, act i = true → ∀ v, loadSeg m.sg (laneOff s m sc b i) 4 4 false (withV s v) = .ok (x i, withV s v)) :
    ∀ n, n ≤ 16 → lanesRun act (gathLane s sc d m b) n s = some (withV s (s.fib.v.set (lowV d) (gathered s d act x n)))
  | 0, _ => by simp [lanesRun, gathered_zero, withV]
  | n + 1, hn => by
    have hk : Fin.ofNat 16 n = ⟨n, by omega⟩ := Fin.ext (Nat.mod_eq_of_lt (by omega))
    rw [lanesRun, lanesRun_gathLane hload n (by omega), Option.bind_some, hk]
    have hsucc := gathered_succ s d act x ⟨n, by omega⟩
    by_cases hact : act ⟨n, by omega⟩ = true
    · rw [if_pos hact] at hsucc ⊢
      rw [gathLane, hload _ hact, hsucc]
      simp [withV]
    · rw [if_neg hact] at hsucc ⊢
      rw [hsucc]

theorem clearVPoison_run (whole : Bool) (d : Fin 16) (s : State) :
    clearVPoison whole d s = .ok ((), { s with fib := if whole then cleanReg s.fib (0x20 + d.val) else s.fib }) := by
  cases whole <;> rfl

theorem wholeLanes_iff {idx : VReg} : wholeLanes idx = true ↔ ∀ i : Fin 16, idx[i] ≠ 0xFFFFFFFF := by
  simp only [wholeLanes, List.all_eq_true, bne_iff_ne, Vector.mem_toList_iff]
  exact ⟨fun h i => h _ (Vector.getElem_mem _), fun h y hy => by obtain ⟨j, hj, rfl⟩ := Vector.getElem_of_mem hy; exact h ⟨j, hj⟩⟩

/-- The fibre after a gather: the progress is 0, and the register has lost its poison where every lane is active. -/
def gatherEnd (s : State) (b : Fin 16) (d : Fin 12) (v : Vector VReg 16) : Fib :=
  let f := setProgress { s.fib with v := v } 0
  if wholeLanes s.fib.v[b] then cleanReg f (0x20 + (lowV d).val) else f

/-- The vector file after all lanes of a gather. -/
def gatheredFile (s : State) (b : Fin 16) (d : Fin 12) (x : Fin 16 → List Byte) : Vector VReg 16 :=
  s.fib.v.set (lowV d) (gathered s d (activeFrom (progressOf s.fib) s.fib.v[b]) x 16)

section
variable {s : State} {sc : Fin 3} {m : CRef} {b : Fin 16} (hp : s.pair = none) (ha : plainS s.fib m.a = true) (hb : plainV s.fib b = true)
include hp ha hb

theorem exec_vgath {d : Fin 12} {x : Fin 16 → List Byte}
    (hload : ∀ i, activeFrom (progressOf s.fib) s.fib.v[b] i = true → ∀ v,
      loadSeg m.sg (laneOff s m sc b i) 4 4 false (withV s v) = .ok (x i, withV s v)) :
    exec (.vgath sc d m b) s = .next (goOn { s with fib := gatherEnd s b d (gatheredFile s b d x) }) := by
  have hlanes := eachLane_completes (f0 := s.fib) (base := offC s.fib m) (sc := sc) (act := fun i o => do
      let x ← loadSeg m.sg o 4 4 false
      setLane d i (BitVec.ofNat 32 (natOf x))) (f := gathLane s sc d m b) (fun i u t h => by
    unfold gathLane at h
    split at h
    · next x w hx => cases h; exact run_bind_ok hx
    · cases h) (lanesRun_gathLane hload 16 le_rfl)
  refine performSeq_ok (t := { s with fib := gatherEnd s b d _ }) ?_ hp
  rw [run_bind_ok (rdRef_of_plain ha), run_bind_ok (rdV_of_plain hb), run_bind_ok hlanes, clearVPoison_run]
  rfl

end

theorem gatherEnd_eq (s : State) (b : Fin 16) (d : Fin 12) (v : Vector VReg 16) : gatherEnd s b d v =
    { s.fib with v := v, step := (gatherEnd s b d v).step, hstep := (gatherEnd s b d v).hstep
                 poison := (gatherEnd s b d v).poison, flips := (gatherEnd s b d v).flips } := by
  unfold gatherEnd
  split
  · rw [cleanReg_eq, setProgress_eq]
  · rw [setProgress_eq]

theorem progressOf_gatherEnd (s : State) (b : Fin 16) (d : Fin 12) (v : Vector VReg 16) : progressOf (gatherEnd s b d v) = 0 := by
  unfold gatherEnd
  split
  · rw [progressOf_cleanReg, progressOf_setProgress_zero]
  · rw [progressOf_setProgress_zero]

theorem gatherEnd_v (s : State) (b : Fin 16) (d : Fin 12) (v : Vector VReg 16) : (gatherEnd s b d v).v = v := by rw [gatherEnd_eq]
theorem gatherEnd_pc (s : State) (b : Fin 16) (d : Fin 12) (v : Vector VReg 16) : (gatherEnd s b d v).pc = s.fib.pc := by rw [gatherEnd_eq]

/-- A lane that is inactive, or below the progress, keeps its old value. -/
theorem gathered_all (s : State) (d : Fin 12) (p : Nat) (idx : VReg) (x : Fin 16 → List Byte) : gathered s d (activeFrom p idx) x 16 =
    vecOf fun i => if idx[i] = 0xFFFFFFFF ∨ i.val < p then s.fib.v[lowV d][i] else BitVec.ofNat 32 (natOf (x i)) := by
  refine vreg_ext fun i => ?_
  have hiff : (activeFrom p idx i = true ∧ i.val < 16) ↔ ¬ (idx[i] = 0xFFFFFFFF ∨ i.val < p) := by
    rw [activeFrom_iff, not_or]
    exact ⟨fun h => ⟨h.1.2, Nat.not_lt.2 h.1.1⟩, fun h => ⟨⟨Nat.not_lt.1 h.2, h.1⟩, i.isLt⟩⟩
  rw [gathered_get, if_congr hiff rfl rfl, ite_not, vecOf_lane]

/-! ## vscat and vratom (R182, R183) -/

theorem scatLane_runs {s : State} {sc : Fin 3} {m : CRef} {b c : Fin 16} (i : Fin 16) (u t : State) (h : scatLane s sc m b c i u = some t) :
    storeSeg m.sg (laneOff s m sc b i) 4 (bytesOf 4 s.fib.v[c][i].toNat) u = .ok ((), t) := by
  unfold scatLane at h
  split at h
  · next hok => cases h; exact hok
  · cases h

/-- Lane i of `vratom` at offset o, as the model runs it with the operand lanes of c. -/
def ratomAct (op : AtomOp) (d : Option (Fin 12)) (m : CRef) (x : VReg) (i : Fin 16) (o : Word) : M Unit := do
  match ← resolve m.sg o 4 4 (rightRd + rightWr) accUpdate with
  | [(a, _)] =>
    let old ← atomLane op a o x[i]
    match d with
    | some k => setLane k i old
    | none => pure ()
  | _ => pure ()

theorem ratomLane_runs {s : State} {op : AtomOp} {sc : Fin 3} {d : Option (Fin 12)} {m : CRef} {b : Fin 16} {c : VSrcC} (i : Fin 16)
    (u t : State) (h : ratomLane s op sc d m b c i u = some t) :
    ratomAct op d m (vecOf (laneVC s.fib c)) i (laneOff s m sc b i) u = .ok ((), t) := by
  unfold ratomLane at h
  split at h
  · next a n w hres =>
    split at h
    · next old v hlane =>
      rw [ratomAct, run_bind_ok hres]
      refine (run_bind_ok ((congrArg (atomLane op a _ · w) (vecOf_lane ..)).trans hlane)).trans ?_
      cases d <;> cases h <;> rfl
    · cases h
  · cases h

/-- Lane k stops where its access does not resolve, or where its exchange stops. -/
theorem ratomAct_stops {s : State} {op : AtomOp} {d : Option (Fin 12)} {m : CRef} {c : VSrcC} {k : Fin 16} {o : Word} {t : State} {e : Stop}
    (h : resolve m.sg o 4 4 (rightRd + rightWr) accUpdate t = .error e
      ∨ ∃ a w, resolve m.sg o 4 4 (rightRd + rightWr) accUpdate t = .ok ([(a, 4)], w) ∧ atomLane op a o (laneVC s.fib c k) w = .error e) :
    ratomAct op d m (vecOf (laneVC s.fib c)) k o t = .error e := by
  obtain hres | ⟨a, w, hres, hlane⟩ := h
  · exact run_bind_error hres
  · rw [ratomAct, run_bind_ok hres]
    exact run_bind_error ((congrArg (atomLane op a o · w) (vecOf_lane ..)).trans hlane)

theorem performSeq_congr {m n : M Unit} {s : State} (h : m s = n s) : performSeq m s = performSeq n s := by
  simp only [performSeq, inSequence, perform, run_bind, h]

section
variable {s : State} {sc : Fin 3} {m : CRef} {b : Fin 16} (ha : plainS s.fib m.a = true) (hb : plainV s.fib b = true)
include ha hb

theorem exec_vscat {c : Fin 16} (hc : plainV s.fib c = true) : exec (.vscat sc m b c) s =
    performSeq (eachLane s.fib (offC s.fib m) s.fib.v[b] sc (fun i o => storeSeg m.sg o 4 (bytesOf 4 s.fib.v[c][i].toNat))
      (lanesFrom (progressOf s.fib))) s := by
  refine performSeq_congr ?_
  rw [run_bind_ok (rdRef_of_plain ha), run_bind_ok (rdV_of_plain hb), run_bind_ok (rdV_of_plain hc)]

theorem exec_vratom {op : AtomOp} {d : Option (Fin 12)} {c : VSrcC} (hc : plainVC s.fib c = true) : exec (.vratom op sc d m b c) s =
    performSeq (do
      eachLane s.fib (offC s.fib m) s.fib.v[b] sc (ratomAct op d m (vecOf (laneVC s.fib c))) (lanesFrom (progressOf s.fib))
      match d with
      | some k => clearVPoison (wholeLanes s.fib.v[b]) (lowV k)
      | none => pure ()) s := by
  refine performSeq_congr ?_
  rw [run_bind_ok (rdRef_of_plain ha), run_bind_ok (rdV_of_plain hb), run_bind_ok (rdVSrcC_of_plain hc)]
  rfl

end

/-- Settles O29, lane by lane: `eachLane` is the run of the lanes below any lane, and then what is left of the instruction. -/
theorem vectorMemory : Obligations.VectorMemory := by
  unfold Obligations.VectorMemory
  refine ⟨fun s sc d m b x hp ha hb hload => ?_, fun s sc m b hp ha hb => ⟨fun c hc => ⟨fun t hrun ht => ?_, fun k t hk hrun => ?_⟩,
    fun op d c hc => ⟨fun t hrun ht => ?_, fun k t hk hrun => ?_⟩⟩⟩
  · refine ⟨_, exec_vgath hp ha hb (x := x) fun i hi v => ?_, ?_, ?_, ?_, ?_, rfl⟩
    · obtain ⟨hfrom, hidx⟩ := activeFrom_iff.1 hi
      exact hload i hfrom hidx v
    · exact (gatherEnd_v ..).trans (congrArg (s.fib.v.set (lowV d)) (gathered_all ..))
    · exact congrArg nextPc (gatherEnd_pc ..)
    · exact progressOf_gatherEnd ..
    · simp only [goOn]; rw [gatherEnd_eq]
  · exact (exec_vscat ha hb hc).trans (done_of_unit (eachLane_completes scatLane_runs hrun) ht)
  · refine ⟨fun cause ta un keep hstop => ?_, fun l keep hstop => ?_⟩
    · exact (exec_vscat ha hb hc).trans (performSeq_trap_keeping (eachLane_stops_at scatLane_runs hk hrun (keepingProgress_trap hstop)) hp)
    · exact (exec_vscat ha hb hc).trans (performSeq_leave (eachLane_stops_at scatLane_runs hk hrun (keepingProgress_leave hstop)) hp)
  · have hlanes := eachLane_completes (f0 := s.fib) ratomLane_runs hrun
    refine ⟨fun hd => ?_, fun e hd => ?_⟩ <;> subst hd
    · exact (exec_vratom ha hb hc).trans (done_of_unit ((run_bind_ok hlanes).trans rfl) ht)
    · refine (exec_vratom ha hb hc).trans (done_of_unit (u := { t with fib := _ }) ((run_bind_ok hlanes).trans ?_) ht)
      refine (clearVPoison_run ..).trans ?_
      simp only [wholeLanes_iff]
      rfl
  · refine ⟨fun cause ta un keep hstop => ?_, fun l keep hstop => ?_⟩
    · refine (exec_vratom ha hb hc).trans (performSeq_trap_keeping (run_bind_error ?_) hp)
      exact eachLane_stops_at ratomLane_runs hk hrun (keepingProgress_trap (ratomAct_stops hstop))
    · refine (exec_vratom ha hb hc).trans (performSeq_leave (keep := some _) (run_bind_error ?_) hp)
      exact eachLane_stops_at ratomLane_runs hk hrun (keepingProgress_leave (ratomAct_stops hstop))

end Sys2Proof
end

