-- ==== Sys2Proof/Proofs/EmptyRows.lean ====
section
/-!
SUPPORT. O35 fails at a gather of rows of no bytes. The statement lets the next row move where its range lies in the table segment and in
the cluster space, and where the cores that it reckons from the ends of the range are present. A row of no bytes may begin at the end of the
cluster space: the core reckoned there is the first of the next cluster, and may be present. The model has no such owner in the cluster
(R217), and the command fails with CODE 6. The checks of R211 admit no such record, but the statement is about every command in flight.
-/
namespace Sys2Proof
open Machine Safety

/-- A gather of one row of no bytes at the end of the cluster space, without receiver counters, into scratchpad offset 0 (R203). -/
def emptyRowRecord : List Byte :=
  bytesOf 1 6 ++ bytesOf 1 2 ++ bytesOf 2 1 ++ bytesOf 4 1 ++ bytesOf 8 Config.clusterBytes ++ List.replicate 40 0

/-- The active command with that record, of a steward fibre of the first core, its table segment the whole cluster space. -/
def emptyRow : Cmd :=
  { id := 0, g := bootG, f := 0, tenant := 0, steward := true, header := spadLoc bootG 0x40, ring := spadLoc bootG 0x80, ticket := 0, kern := none
    bytes := emptyRowRecord, seghi := Config.clusterBytes, hdrseg := spadLoc bootG 0x200, state := 1 }

/-- The reset state with the command in flight. -/
def emptyGather : State := { State.reset with cmds := [emptyRow] }

/-- The model fails the command. -/
theorem emptyGather_fails : (gatherEvent emptyGather 0).cmds.map (·.state) = [4] := by decide +kernel

/-- Both cores that the statement reckons are present: the last of the cluster, and the first of the next. -/
theorem emptyGather_present : present emptyGather 383 = true ∧ present emptyGather 384 = true := by decide +kernel

/-- Refutes O35 at `gatherRowAccepted`, in `emptyGather`: the statement has the command done, and the model fails it. -/
theorem not_engineEvents : ¬ Obligations.EngineEvents := by
  unfold Obligations.EngineEvents
  rintro ⟨-, h⟩
  obtain ⟨-, -, -, -, -, -, -, -, -, -, -, -, -, -, hgather, -⟩ := h emptyGather 0 0 emptyRow rfl
  have hrow : fieldAt emptyRow.bytes 0x10 8 % 2 ^ 17 = 0 := by decide +kernel
  obtain ⟨-, hmoves⟩ := hgather rfl (by decide +kernel) (by decide +kernel) (by decide +kernel) (fun _ hx => nomatch hx) (by decide +kernel)
    (by decide +kernel) rfl (by decide +kernel) (by decide +kernel) (by decide +kernel) fun j hj => absurd (hrow ▸ hj) (Nat.not_lt_zero j)
  have hdone := hmoves (by decide +kernel) (by decide +kernel) (by decide +kernel) emptyGather_present.2 emptyGather_present.1
  have hexec : exec (.gatherRowAccepted 0) emptyGather = .next (gatherEvent emptyGather 0) := rfl
  have hstates := congrArg (fun t : State => t.cmds.map (·.state)) (Host.Outcome.next.inj (hexec.symm.trans hdone))
  have hfour := emptyGather_fails.symm.trans hstates
  -- Of the statement's state the list of states is [3].
  revert hfour
  decide +kernel

end Sys2Proof
end

