-- ==== Sys2Proof/Proofs/TileContents.lean ====
section
/-!
SUPPORT. Tiles and accumulators (R157, R189, R190): their bytes, words and lines as the statements read them, what a partial write leaves
alone, and the checks, reads and writes of an instruction of the matrix unit.
-/
namespace Sys2Proof
open Machine Safety

/-! ## The bytes of a list as a number -/

theorem natOf_drop : ∀ (l : List Byte) (k : Nat), natOf (l.drop k) = natOf l / 256 ^ k
  | [], k => by simp [natOf]
  | _ :: _, 0 => by simp
  | b :: r, k + 1 => by
    have := b.isLt
    rw [List.drop_succ_cons, natOf_drop r k, natOf, Nat.pow_succ', ← Nat.div_div_eq_div_mul,
      show (b.toNat + 256 * natOf r) / 256 = natOf r by omega]

theorem natOf_take : ∀ (l : List Byte) (n : Nat), natOf (l.take n) = natOf l % 256 ^ n
  | [], n => by simp [natOf]
  | _ :: _, 0 => by simp [natOf, Nat.mod_one]
  | b :: r, n + 1 => by
    have := b.isLt
    rw [List.take_succ_cons, natOf, natOf_take r n, natOf, Nat.pow_succ', Nat.mod_mul, show (b.toNat + 256 * natOf r) / 256 = natOf r by omega,
      show (b.toNat + 256 * natOf r) % 256 = b.toNat by omega]

theorem natOf_lt_two_pow {l : List Byte} {n : Nat} (h : 8 * l.length ≤ n) : natOf l < 2 ^ n := calc
  natOf l < (2 ^ 8) ^ l.length := natOf_lt l
  _ = 2 ^ (8 * l.length) := (Nat.pow_mul 2 8 _).symm
  _ ≤ 2 ^ n := Nat.pow_le_pow_right (by omega) h

theorem toNat_ofNat_natOf {l : List Byte} {n : Nat} (h : 8 * l.length ≤ n) : (BitVec.ofNat n (natOf l)).toNat = natOf l := by
  rw [BitVec.toNat_ofNat, Nat.mod_eq_of_lt (natOf_lt_two_pow h)]

/-- Block i of the concatenation of blocks of n elements. -/
theorem take_drop_flatMap {α β : Type} {g : α → List β} {n : Nat} (hg : ∀ a, (g a).length = n) :
    ∀ (l : List α) (i : Nat) (h : i < l.length), ((l.flatMap g).drop (n * i)).take n = g l[i]
  | a :: r, 0, _ => by
    rw [List.flatMap_cons, Nat.mul_zero, List.drop_zero, List.take_left' (hg a), List.getElem_cons_zero]
  | a :: r, i + 1, h => by
    have hi : i < r.length := Nat.lt_of_succ_lt_succ h
    rw [List.flatMap_cons, show n * (i + 1) = (g a).length + n * i by rw [hg, Nat.mul_succ, Nat.add_comm], List.drop_length_add_append,
      take_drop_flatMap hg r i hi, List.getElem_cons_succ]

/-! ## Bytes, words and lines of a tile (R189) -/

theorem tileNat_eq (t : Tile) (o n : Nat) : tileNat t o n = (t.extractLsb' (8 * o) (8 * n)).toNat := by
  rw [tileNat, BitVec.extractLsb'_toNat, Nat.shiftRight_eq_div_pow]

theorem tileNat_byte (t : Tile) (i : Nat) : tileNat t i 1 = (tileByte t i).toNat := tileNat_eq t i 1

theorem lineNat_eq_tileLine (t : Tile) (l : Nat) : lineNat t 48 l 48 = tileLine t l := by
  rw [lineNat, tileNat_eq, ← Nat.mul_assoc]; rfl

theorem ofNat_tileNat_word (t : Tile) (k : Nat) : BitVec.ofNat 32 (tileNat t (4 * k) 4) = tileWord t k := by
  rw [tileNat_eq, ← Nat.mul_assoc, BitVec.ofNat_toNat, BitVec.setWidth_eq]; rfl

theorem tileElem_eq (t : Tile) (i j : Nat) : tileElem t i j = tileWord t (8 * i + j) := by
  rw [tileElem, show 32 * i + 4 * j = 4 * (8 * i + j) by omega, ofNat_tileNat_word]

/-- Word k of a tile that is given by its bytes. -/
theorem tileWord_natOf {l : List Byte} (h : l.length ≤ 512) (k : Nat) :
    tileWord (BitVec.ofNat 4096 (natOf l)) k = BitVec.ofNat 32 (natOf ((l.drop (4 * k)).take 4)) := by
  rw [← ofNat_tileNat_word, tileNat, toNat_ofNat_natOf (by omega), natOf_take, natOf_drop, Nat.pow_mul 2 8, Nat.pow_mul 2 8]

/-- Rows of words, one after the other. -/
def wordRows (f : Nat → Nat → Lane) : List Byte :=
  (List.range 8).flatMap fun i => (List.range 8).flatMap fun j => bytesOf 4 (f i j).toNat

theorem tileFrom_eq (f : Nat → Nat → Lane) : tileFrom f = BitVec.ofNat 4096 (natOf (wordRows f)) := rfl

theorem wordRow_length (f : Nat → Nat → Lane) (i : Nat) : ((List.range 8).flatMap fun j => bytesOf 4 (f i j).toNat).length = 32 := by
  simp [List.length_flatMap]

theorem wordRows_length (f : Nat → Nat → Lane) : (wordRows f).length = 256 := by
  simp [wordRows, List.length_flatMap]

theorem wordRows_word (f : Nat → Nat → Lane) {i j : Nat} (hi : i < 8) (hj : j < 8) :
    ((wordRows f).drop (4 * (8 * i + j))).take 4 = bytesOf 4 (f i j).toNat := by
  have hrow := take_drop_flatMap (wordRow_length f) (List.range 8) i (by simpa using hi)
  have hword := take_drop_flatMap (fun j => bytesOf_length 4 (f i j).toNat) (List.range 8) j (by simpa using hj)
  rw [List.getElem_range] at hrow hword
  rw [← hrow, List.drop_take, List.drop_drop, List.take_take, Nat.min_eq_left (by omega)] at hword
  rwa [show 4 * (8 * i + j) = 32 * i + 4 * j by omega]

theorem tileWord_tileFrom (f : Nat → Nat → Lane) {i j : Nat} (hi : i < 8) (hj : j < 8) : tileWord (tileFrom f) (8 * i + j) = f i j := by
  rw [tileFrom_eq, tileWord_natOf (by rw [wordRows_length]; omega), wordRows_word f hi hj, natOf_bytesOf,
    Nat.mod_eq_of_lt (show (f i j).toNat < 256 ^ 4 from (f i j).isLt), BitVec.ofNat_toNat, BitVec.setWidth_eq]

/-- Bytes 256 to 511 are zero. -/
theorem tileWord_tileFrom_high (f : Nat → Nat → Lane) (j : Nat) : tileWord (tileFrom f) (64 + j) = 0 := by
  rw [tileFrom_eq, tileWord_natOf (by rw [wordRows_length]; omega), List.drop_eq_nil_of_le (by rw [wordRows_length]; omega)]
  rfl

/-- Word k of a tile of 64 elements, by its row and column. -/
theorem tileWord_tileFrom_slot (f : Nat → Nat → Lane) (k : Fin 64) : tileWord (tileFrom f) k.val = f (k.val / 8) (k.val % 8) := by
  have h := tileWord_tileFrom f (i := k.val / 8) (j := k.val % 8) (by omega) (by omega)
  rwa [Nat.div_add_mod] at h

/-! ## Writing a part of a tile -/

/-- Replacing len bits from bit lo of a number. -/
theorem testBit_replace (x v lo len i : Nat) :
    (x - x / 2 ^ lo % 2 ^ len * 2 ^ lo + v % 2 ^ len * 2 ^ lo).testBit i
      = if lo ≤ i ∧ i < lo + len then v.testBit (i - lo) else x.testBit i := by
  have hlow : x % 2 ^ lo < 2 ^ lo := Nat.mod_lt _ (Nat.two_pow_pos lo)
  have hmid (y : Nat) : y % 2 ^ len < 2 ^ len := Nat.mod_lt _ (Nat.two_pow_pos len)
  have hx : x = 2 ^ lo * (2 ^ len * (x / 2 ^ lo / 2 ^ len) + x / 2 ^ lo % 2 ^ len) + x % 2 ^ lo := by rw [Nat.div_add_mod, Nat.div_add_mod]
  have hy : x - x / 2 ^ lo % 2 ^ len * 2 ^ lo + v % 2 ^ len * 2 ^ lo
      = 2 ^ lo * (2 ^ len * (x / 2 ^ lo / 2 ^ len) + v % 2 ^ len) + x % 2 ^ lo := by
    rw [Nat.mul_add] at hx ⊢
    rw [Nat.mul_comm _ (2 ^ lo), Nat.mul_comm _ (2 ^ lo)]
    omega
  rw [hy]
  conv => rhs; rw [hx]
  simp only [Nat.testBit_two_pow_mul_add _ hlow, Nat.testBit_two_pow_mul_add _ (hmid _), Nat.testBit_mod_two_pow]
  grind

theorem getLsbD_tilePut (t : Tile) {lo len : Nat} (v : Nat) (h : lo + len ≤ 4096) (i : Nat) :
    (tilePut t lo len v).getLsbD i = if lo ≤ i ∧ i < lo + len then v.testBit (i - lo) else t.getLsbD i := by
  rw [tilePut, BitVec.getLsbD_ofNat, testBit_replace]
  by_cases hi : i < 4096
  · rw [decide_eq_true hi, Bool.true_and]; rfl
  · rw [decide_eq_false hi, Bool.false_and, BitVec.getLsbD_of_ge t i (by omega), if_neg (by omega)]

theorem getLsbD_tilePut_out (t : Tile) {lo len : Nat} (v : Nat) (h : lo + len ≤ 4096) {i : Nat} (hi : i < lo ∨ lo + len ≤ i) :
    (tilePut t lo len v).getLsbD i = t.getLsbD i := by
  rw [getLsbD_tilePut t v h, if_neg (by omega)]

theorem extractLsb'_tilePut_same (t : Tile) {lo len : Nat} (v : Nat) (h : lo + len ≤ 4096) :
    (tilePut t lo len v).extractLsb' lo len = BitVec.ofNat len v := by
  refine BitVec.eq_of_getLsbD_eq fun i hi => ?_
  rw [BitVec.getLsbD_extractLsb', getLsbD_tilePut t v h, if_pos (by omega), Nat.add_sub_cancel_left, BitVec.getLsbD_ofNat]

theorem extractLsb'_congr {x y : Tile} {lo len : Nat} (h : ∀ i, i < len → x.getLsbD (lo + i) = y.getLsbD (lo + i)) :
    x.extractLsb' lo len = y.extractLsb' lo len := by
  refine BitVec.eq_of_getLsbD_eq fun i hi => ?_
  rw [BitVec.getLsbD_extractLsb', BitVec.getLsbD_extractLsb', h i hi]

theorem tileByte_tilePut_same (t : Tile) {k : Nat} (v : Nat) (hk : k < 512) : tileByte (tilePut t (8 * k) 8 v) k = BitVec.ofNat 8 v :=
  extractLsb'_tilePut_same t v (by omega)

theorem tileByte_tilePut_ne (t : Tile) {k i : Nat} (v : Nat) (hk : k < 512) (h : i ≠ k) : tileByte (tilePut t (8 * k) 8 v) i = tileByte t i :=
  extractLsb'_congr fun j hj => getLsbD_tilePut_out t v (by omega) (by omega)

/-! ## Checks (R190) -/

section
variable {s : State} {k : Fin 32} {n : Fin 8}

theorem hasTile_of_good (h : goodTile s k = true) : hasTile s.fib k = true := (Bool.and_eq_true_iff.1 h).1
theorem hasAcc_of_good (h : goodAcc s n = true) : hasAcc s.fib n = true := (Bool.and_eq_true_iff.1 h).1

theorem needTile_claimed (h : hasTile s.fib k = true) : needTile k s = .ok ((), s) := by simp [needTile, run_bind, h]
theorem needAcc_claimed (h : hasAcc s.fib n = true) : needAcc n s = .ok ((), s) := by simp [needAcc, run_bind, h]
theorem needShape_passed {p : BitVec 15 → Bool} (h : p s.fib.tshape[k] = true) : needShape k p s = .ok ((), s) := by
  rw [needShape, run_bind_ok (run_theFib s), if_pos h, run_pure]
theorem isKind_of_eq {v : BitVec 15} {kind : Nat} (h : shKind v = kind) : isKind kind v = true := by simp [isKind, h]

theorem needKind_met {wide : Bool} (h : isWide (clusterOf s.focus.1) = wide) : needKind wide s = .ok ((), s) := by
  simp [needKind, run_bind, h]
theorem needKind_failed {wide : Bool} (h : isWide (clusterOf s.focus.1) ≠ wide) : needKind wide s = .error (.trap 0x0A 0 false none) := by
  simp [needKind, run_bind, h]

/-! ## Reading and writing -/

theorem seeReg_of_sound {code : Nat} (a : Word) (h : soundReg s.fib code = true) : seeReg code a s = .ok ((), s) := by
  simp only [soundReg, Bool.and_eq_true, Bool.not_eq_true'] at h
  exact seeReg_sound a h.1 h.2

theorem rdTile_good (h : goodTile s k = true) : rdTile k s = .ok (tileOf s k, s) := by
  rw [rdTile, run_bind_ok (seeReg_of_sound _ (Bool.and_eq_true_iff.1 h).2)]; rfl
theorem rdAcc_good (h : goodAcc s n = true) : rdAcc n s = .ok (accOf s n, s) := by
  rw [rdAcc, run_bind_ok (seeReg_of_sound _ (Bool.and_eq_true_iff.1 h).2)]; rfl

theorem run_oldTile (k : Fin 32) (s : State) : oldTile k s = .ok (tileOf s k, s) := rfl
theorem run_wrTile_whole (k : Fin 32) (t : Tile) (s : State) : wrTile true k t s = .ok ((), newTile s k t) := rfl
theorem run_wrTile_part (k : Fin 32) (t : Tile) (s : State) : wrTile false k t s = .ok ((), putTile s k t) := rfl
theorem run_wrAcc_part (n : Fin 8) (a : Acc) (s : State) : wrAcc false n a s = .ok ((), putAcc s n a) := rfl
theorem run_wrShape (k : Fin 32) (v : BitVec 15) (s : State) : wrShape k v s = .ok ((), setShape s k v) := rfl
theorem run_atMatrixUnit (n : Nat) (s : State) : atMatrixUnit n s = .ok ((), throughMatrix s n) := rfl

/-- A write of one tile leaves the others. -/
theorem tileOf_putTile_ne {d : Fin 32} (t : Tile) (h : k ≠ d) : tileOf (putTile s d t) k = tileOf s k := by
  simp only [tileOf, putTile, setCore_focus, getCore_setCore_same]
  exact Vector.getElem_set_ne _ _ fun e => h (Fin.ext e.symm)

end

/-! ## Parts that an instruction runs in one of its forms only -/

section
variable {β : Type} {c : Prop} [Decidable c] {s : State}

theorem run_when {m : M Unit} {f : Unit → M β} (h : c → m s = .ok ((), s)) : (if c then m >>= f else f ()) s = f () s := by
  by_cases hc : c
  · rw [if_pos hc, run_bind_ok (h hc)]
  · rw [if_neg hc]

theorem run_pick {α : Type} {m : M α} {a b : α} {f : α → M β} (h : c → m s = .ok (a, s)) :
    (if c then m >>= f else pure b >>= f) s = f (if c then a else b) s := by
  by_cases hc : c
  · rw [if_pos hc, if_pos hc, run_bind_ok (h hc)]
  · rw [if_neg hc, if_neg hc, run_bind_ok (run_pure _ _)]

end

end Sys2Proof
end

