-- ==== Sys2Proof/Proofs/MatrixProducts.lean ====
section
/-!
SUPPORT. O32: `mmn` and `mmw` (R154-R158, R162, R194-R196). The sum of the products of one element, the channels that it is added to, and
the accumulator inside the edges.
-/
namespace Sys2Proof
open Machine Safety

/-! ## Residue channels (R157, R158) -/

theorem bitsOf_eq_extractLsb' (w : Word) (lo len : Nat) : bitsOf w lo len = (w.extractLsb' lo len).toNat := by
  rw [bitsOf, BitVec.extractLsb'_toNat, Nat.shiftRight_eq_div_pow]

theorem toNat_residueWord {a b c : Nat} (ha : a < 2047) (hb : b < 2048) (hc : c < 2049) :
    (residueWord a b c).toNat = c * 2 ^ 22 + a * 2 ^ 11 + b := by
  rw [residueWord, w64, BitVec.toNat_ofNat, Nat.mod_eq_of_lt (by omega)]

/-- The three fields of a word that is built from channels in range, and its unused bits. -/
theorem residueWord_fields {a b c : Nat} (ha : a < 2047) (hb : b < 2048) (hc : c < 2049) :
    bitsOf (residueWord a b c) 11 11 = a ∧ bitsOf (residueWord a b c) 0 11 = b ∧ bitsOf (residueWord a b c) 22 12 = c
      ∧ (residueWord a b c).toNat < 2 ^ 34 := by
  simp only [bitsOf, toNat_residueWord ha hb hc]
  omega

/-- A channel of modulus m takes the sum modulo m. -/
theorem channel_add {m : Nat} (x : Nat) (sum : Int) (hm : 0 < m) :
    ((((x % m : Nat) : Int) + sum) % m).toNat < m ∧ (((((x % m : Nat) : Int) + sum) % m).toNat : Int) = (x + sum) % m := by
  have hpos : (0 : Int) < m := by omega
  have hlt := Int.emod_lt_of_pos (((x % m : Nat) : Int) + sum) hpos
  have hcast : (((((x % m : Nat) : Int) + sum) % m).toNat : Int) = (((x % m : Nat) : Int) + sum) % m :=
    Int.toNat_of_nonneg (Int.emod_nonneg _ hpos.ne')
  refine ⟨by omega, ?_⟩
  rw [hcast, Int.natCast_mod, Int.emod_add_emod]

/-- `residueAdd` adds the sum to each channel of the element (R158). -/
theorem residueAdd_channels (w : Word) (sum : Int) :
    (bitsOf (residueAdd w sum) 11 11 : Int) = (bitsOf w 11 11 + sum) % 2047 ∧ (bitsOf (residueAdd w sum) 0 11 : Int) = (bitsOf w 0 11 + sum) % 2048
      ∧ (bitsOf (residueAdd w sum) 22 12 : Int) = (bitsOf w 22 12 + sum) % 2049 ∧ (residueAdd w sum).toNat < 2 ^ 34 := by
  obtain ⟨ha, ea⟩ := channel_add (m := 2047) (bitsOf w 11 11) sum (by omega)
  obtain ⟨hb, eb⟩ := channel_add (m := 2048) (bitsOf w 0 11) sum (by omega)
  obtain ⟨hc, ec⟩ := channel_add (m := 2049) (bitsOf w 22 12) sum (by omega)
  have h48 : ch2048 w = bitsOf w 0 11 % 2048 := (Nat.mod_eq_of_lt (Nat.mod_lt _ (by omega))).symm
  obtain ⟨fa, fb, fc, hlt⟩ := residueWord_fields ha hb hc
  rw [residueAdd, h48]
  exact ⟨(congrArg Nat.cast fa).trans ea, (congrArg Nat.cast fb).trans eb, (congrArg Nat.cast fc).trans ec, hlt⟩

/-! ## The edges (R195, R196) -/

theorem accInside_slot (rows cols : Nat) (acc : Acc) (f : Nat → Nat → Word → Word) (i j : Fin 8) :
    (accInside rows cols acc f)[Fin.ofNat 64 (8 * i.val + j.val)] = if i.val ≤ rows ∧ j.val ≤ cols then
      f i.val j.val acc[Fin.ofNat 64 (8 * i.val + j.val)] else acc[Fin.ofNat 64 (8 * i.val + j.val)] := by
  have hval : (Fin.ofNat 64 (8 * i.val + j.val)).val = 8 * i.val + j.val := Nat.mod_eq_of_lt (by omega)
  have hrow : (Fin.ofNat 64 (8 * i.val + j.val)).val / 8 = i.val := by omega
  have hcol : (Fin.ofNat 64 (8 * i.val + j.val)).val % 8 = j.val := by omega
  rw [accInside, vecOf_lane, hrow, hcol]

/-! ## The sum of the products (R155, R194, R195) -/

theorem efmt_fits {f : EFmt} {kind : Nat} {v : BitVec 15} (h : shKind v = kind ∧ shFmt v = efmtCode f) :
    (isKind kind v && shFmt v == efmtCode f) = true := by
  rw [isKind_of_eq h.1, h.2]; simp

/-- The products of an admitted combination lie in the line of B; a sparse one has metadata for each. -/
theorem mmnCount_table (fa fb : EFmt) :
    (mmnCount fa fb false).all (· ≤ perLine fb) = true ∧ (mmnCount fa fb true).all (2 * · ≤ 8 * metaLen fa) = true := by
  cases fa <;> cases fb <;> decide

theorem mmnCount_dense {fa fb : EFmt} {cnt : Nat} (h : mmnCount fa fb false = some cnt) : cnt ≤ perLine fb := by
  simpa [h] using (mmnCount_table fa fb).1
theorem mmnCount_sparse {fa fb : EFmt} {cnt : Nat} (h : mmnCount fa fb true = some cnt) : 2 * cnt ≤ 8 * metaLen fa := by
  simpa [h] using (mmnCount_table fa fb).2

/-- Two bits of metadata (R195). -/
theorem metadata_code (t : Tile) {i e len : Nat} (h : 2 * e + 2 ≤ 8 * len) :
    lineNat t 24 i len / 2 ^ (2 * e) % 4 = (t.extractLsb' (192 * i + 2 * e) 2).toNat := by
  rw [lineNat, tileNat, BitVec.extractLsb'_toNat, Nat.shiftRight_eq_div_pow, show 8 * (24 * i) = 192 * i by omega]
  refine Nat.eq_of_testBit_eq fun k => ?_
  rw [show (4 : Nat) = 2 ^ 2 from rfl]
  simp only [Nat.testBit_mod_two_pow, Nat.testBit_div_two_pow]
  rw [Nat.add_assoc k, Nat.add_comm (2 * e) (192 * i)]
  by_cases hk : k < 2
  · rw [decide_eq_true (show k + 2 * e < 8 * len by omega), Bool.true_and]
  · rw [decide_eq_false hk, Bool.false_and, Bool.false_and]

/-- The element of B that product e takes: in the line of B, or in that of its next tile. -/
def pickB (fb : EFmt) (lb lb2 p : Nat) : Int := if p < perLine fb then gridElem fb lb p else gridElem fb lb2 (p - perLine fb)

theorem mmnSum_eq_sum (fa fb : EFmt) (sp : Bool) (n la lb lb2 lm : Nat) : mmnSum fa fb sp n la lb lb2 lm =
    ((List.range n).map fun e => gridElem fa la e * pickB fb lb lb2 (if sp then 4 * (e / 2) + lm / 2 ^ (2 * e) % 4 else e)).sum := by
  rw [List.sum_eq_foldl, List.foldl_map]; rfl

section
variable (s : State) (fa fb : EFmt) (sp : Bool) (a b m : Fin 32)

/-- The sum that `mmn` adds to element (i, j), from the tiles. -/
def productSum (cnt i j : Nat) : Int := ((List.range cnt).map fun e =>
  gridElem fa (tileLine (tileOf s a) i) e * pickB fb (tileLine (tileOf s b) j) (tileLine (tileOf s (b + 1)) j)
    (if sp then 4 * (e / 2) + ((tileOf s m).extractLsb' (192 * i + 2 * e) 2).toNat else e)).sum

/-- What `mmn` reads as the next tile of B and as the metadata, where it is not sparse, does not reach the sum. -/
theorem mmnSum_eq_productSum {cnt : Nat} (hcnt : mmnCount fa fb sp = some cnt) (i j : Nat) :
    mmnSum fa fb sp cnt (lineNat (tileOf s a) 48 i 48) (lineNat (tileOf s b) 48 j 48) (lineNat (if sp then tileOf s (b + 1) else 0) 48 j 48)
      (lineNat (if sp then tileOf s m else 0) 24 i (metaLen fa)) = productSum s fa fb sp a b m cnt i j := by
  rw [mmnSum_eq_sum, productSum]
  congr 1
  refine List.map_congr_left fun e he => ?_
  have he : e < cnt := List.mem_range.1 he
  simp only [lineNat_eq_tileLine]
  congr 1
  cases sp with
  | true =>
    have := mmnCount_sparse hcnt
    simp only [if_true, metadata_code _ (show 2 * e + 2 ≤ 8 * metaLen fa by omega)]
  | false =>
    have hp : e < perLine fb := he.trans_le (mmnCount_dense hcnt)
    simp [pickB, hp]

/-- The accumulator that `mmn` leaves. -/
def mmnAcc (n : Fin 8) (cnt : Nat) : Acc :=
  accInside (shRows s.fib.tshape[a]) (shCols s.fib.tshape[b]) (accOf s n) fun i j w =>
    residueAdd w (mmnSum fa fb sp cnt (lineNat (tileOf s a) 48 i 48) (lineNat (tileOf s b) 48 j 48)
      (lineNat (if sp then tileOf s (b + 1) else 0) 48 j 48) (lineNat (if sp then tileOf s m else 0) 24 i (metaLen fa)))

theorem mmnAcc_slot {cnt : Nat} (hcnt : mmnCount fa fb sp = some cnt) (n i j : Fin 8) :
    (mmnAcc s fa fb sp a b m n cnt)[Fin.ofNat 64 (8 * i.val + j.val)] =
      if i.val ≤ shRows s.fib.tshape[a] ∧ j.val ≤ shCols s.fib.tshape[b] then
        residueAdd (accOf s n)[Fin.ofNat 64 (8 * i.val + j.val)] (productSum s fa fb sp a b m cnt i.val j.val)
      else (accOf s n)[Fin.ofNat 64 (8 * i.val + j.val)] := by
  rw [mmnAcc, accInside_slot, mmnSum_eq_productSum s fa fb sp a b m hcnt]

end

/-! ## The instructions -/

section
variable {s : State} {n : Fin 8} {a b m : Fin 32} (hp : s.pair = none)
include hp

theorem exec_mmn_wide {fa fb : EFmt} {sp : Bool} (hw : isWide (clusterOf s.focus.1) = true) :
    exec (.mmn fa fb sp n a b m) s = .next (trapsWith s 0x0A 0) :=
  performSeq_trap (run_bind_error (needKind_failed (by simp [hw]))) hp

theorem exec_mmw_narrow (hw : isWide (clusterOf s.focus.1) = false) : exec (.mmw n a b) s = .next (trapsWith s 0x0A 0) :=
  performSeq_trap (run_bind_error (needKind_failed (by simp [hw]))) hp

variable (ha : goodTile s a = true) (hb : goodTile s b = true) (hn : goodAcc s n = true)
include ha hb hn

/-- `mmn` on a narrow cluster, with tiles that pass its checks: the combination decides. -/
theorem exec_mmn {fa fb : EFmt} {sp : Bool} (hw : isWide (clusterOf s.focus.1) = false)
    (ka : (isKind 1 s.fib.tshape[a] && shFmt s.fib.tshape[a] == efmtCode fa) = true)
    (kb : (isKind 2 s.fib.tshape[b] && shFmt s.fib.tshape[b] == efmtCode fb) = true)
    (hm : sp = true → goodTile s m = true) (hb2 : sp = true → goodTile s (b + 1) = true)
    (km : sp = true → (isKind 7 s.fib.tshape[m] && shFmt s.fib.tshape[m] == efmtCode fa) = true)
    (kb2 : sp = true → (isKind 2 s.fib.tshape[b + 1] && shFmt s.fib.tshape[b + 1] == efmtCode fb) = true) :
    exec (.mmn fa fb sp n a b m) s = (mmnCount fa fb sp).elim (.next (trapsWith s 9 (BitVec.ofNat 64 (0x440 + n.val))))
      fun cnt => .next (goOn (putAcc (throughMatrix s 16) n (mmnAcc s fa fb sp a b m n cnt))) := by
  refine (performSeq_congr ((run_bind_ok (needKind_met hw)).trans <| (run_when fun h => needTile_claimed (hasTile_of_good (hm h))).trans <|
    (run_bind_ok (needTile_claimed (hasTile_of_good ha))).trans <| (run_bind_ok (needTile_claimed (hasTile_of_good hb))).trans <|
    (run_when fun h => needTile_claimed (hasTile_of_good (hb2 h))).trans <| (run_bind_ok (needAcc_claimed (hasAcc_of_good hn))).trans <|
    (run_when fun h => needShape_passed (km h)).trans <| (run_bind_ok (needShape_passed ka)).trans <|
    (run_bind_ok (needShape_passed kb)).trans <| run_when fun h => needShape_passed (kb2 h))).trans ?_
  cases hc : mmnCount fa fb sp with
  | none =>
    have haddr : tileAddr 4 (0x40 + n.val) = BitVec.ofNat 64 (0x440 + n.val) := congrArg (BitVec.ofNat 64) (by omega)
    exact performSeq_trap ((run_fail ..).trans (by rw [haddr])) hp
  | some cnt =>
    exact done_of_unit ((run_pick fun h => rdTile_good (hm h)).trans <| (run_bind_ok (rdTile_good ha)).trans <|
      (run_bind_ok (rdTile_good hb)).trans <| (run_pick fun h => rdTile_good (hb2 h)).trans <| (run_bind_ok (rdAcc_good hn)).trans <|
      (run_bind_ok (run_theFib s)).trans <| (run_bind_ok (run_atMatrixUnit 16 s)).trans <| run_wrAcc_part n _ _) hp

theorem exec_mmw (hw : isWide (clusterOf s.focus.1) = true) (ka : isKind 3 s.fib.tshape[a] = true) (kb : isKind 4 s.fib.tshape[b] = true) :
    exec (.mmw n a b) s = .next (goOn (putAcc (throughMatrix s 8) n (accInside (shRows s.fib.tshape[a]) (shCols s.fib.tshape[b]) (accOf s n)
      fun i j w => (mmwElem (w.setWidth 32) (lineNat (tileOf s a) 48 i 48) (lineNat (tileOf s b) 48 j 48)).zeroExtend 64))) :=
  done_of_unit ((run_bind_ok (needKind_met hw)).trans <| (run_bind_ok (needTile_claimed (hasTile_of_good ha))).trans <|
    (run_bind_ok (needTile_claimed (hasTile_of_good hb))).trans <| (run_bind_ok (needAcc_claimed (hasAcc_of_good hn))).trans <|
    (run_bind_ok (needShape_passed ka)).trans <| (run_bind_ok (needShape_passed kb)).trans <| (run_bind_ok (rdTile_good ha)).trans <|
    (run_bind_ok (rdTile_good hb)).trans <| (run_bind_ok (rdAcc_good hn)).trans <| (run_bind_ok (run_theFib s)).trans <|
    (run_bind_ok (run_atMatrixUnit 8 s)).trans <| run_wrAcc_part n _ _) hp

end

theorem isWide_iff (g : Nat) : isWide (clusterOf g) = true ↔ g / 192 % 112 % 8 = 0 := by simp [isWide, clusterOf]

/-- Settles O32: the run of each instruction, then its accumulator slot by slot. -/
theorem matrixProducts : Obligations.MatrixProducts := by
  unfold Obligations.MatrixProducts
  intro s fa fb sp n a b m hp wide rows cols fits
  have narrow (h : ¬ wide) : isWide (clusterOf s.focus.1) = false := Bool.eq_false_iff.2 fun e => h ((isWide_iff _).1 e)
  refine ⟨fun hw => exec_mmn_wide hp ((isWide_iff _).2 hw), fun hw => exec_mmw_narrow hp (narrow hw),
    fun hw ha hb hn ka kb hsp => ?_, fun hw ha hb hn ka kb => ?_⟩
  · rw [imp_and, imp_and, imp_and] at hsp
    obtain ⟨hm, hb2, km, kb2⟩ := hsp
    have hexec := exec_mmn hp ha hb hn (narrow hw) (efmt_fits ka) (efmt_fits kb) hm hb2 (efmt_fits ∘ km) (efmt_fits ∘ kb2)
    refine ⟨fun hc => by rw [hexec, hc, Option.elim_none], fun cnt hc => ⟨mmnAcc s fa fb sp a b m n cnt, by rw [hexec, hc, Option.elim_some],
      fun i j => ?_⟩⟩
    have hslot := mmnAcc_slot s fa fb sp a b m hc n i j
    refine ⟨fun h => hslot.trans (if_neg h), fun hi hj => ?_⟩
    have hnew := hslot.trans (if_pos ⟨hi, hj⟩)
    have hadd := residueAdd_channels (accOf s n)[Fin.ofNat 64 (8 * i.val + j.val)] (productSum s fa fb sp a b m cnt i.val j.val)
    rw [← hnew] at hadd
    simp only [bitsOf_eq_extractLsb'] at hadd
    exact hadd
  · refine ⟨_, exec_mmw hp ha hb hn ((isWide_iff _).2 hw) (isKind_of_eq ka) (isKind_of_eq kb), fun i j => ?_⟩
    simpa only [lineNat_eq_tileLine] using accInside_slot ..

end Sys2Proof
end

