-- ==== Sys2Proof/Proofs/ConversionAndQuantisation.lean ====
section
/-!
SUPPORT. O33: `aout.i`, `aout.f`, `scacc` and `qcvt` (R159, R161, R163, R164, R197-R199). The value that the channels of a slot hold, the
tile that scaling leaves, and the codes of a block in their line.
-/
namespace Sys2Proof
open Machine Safety

/-! ## The value of a slot (R159) -/

/-- The value from its channels, by the Chinese remainder theorem: 2047, 2048 and 2049 have the product 8589932544. -/
theorem residueVal_spec (w : Word) :
    residueVal w < 4294966272 ∧ -4294966272 ≤ residueVal w ∧ residueVal w % 2047 = ((w.extractLsb' 11 11).toNat % 2047 : Nat)
      ∧ residueVal w % 2048 = ((w.extractLsb' 0 11).toNat : Nat) ∧ residueVal w % 2049 = ((w.extractLsb' 22 12).toNat % 2049 : Nat) := by
  have h48 := (w.extractLsb' 0 11).isLt
  simp only [residueVal, ch2047, ch2048, ch2049, bitsOf_eq_extractLsb']
  generalize (w.extractLsb' 11 11).toNat = a
  generalize (w.extractLsb' 0 11).toNat = b at *
  generalize (w.extractLsb' 22 12).toNat = c
  split <;> omega

theorem sat32_eq (v : Int) : sat32 v = max (-2147483648) (min 2147483647 v) := by
  rw [sat32, clampInt]
  split
  · omega
  · split <;> omega

theorem sat32_ne_iff (v : Int) : (sat32 v != v) = decide (v < -2147483648 ∨ 2147483647 < v) := by
  rw [sat32_eq, Bool.eq_iff_iff, bne_iff_ne, decide_eq_true_iff]
  omega

theorem accElem_slot (x : Acc) (k : Fin 64) : accElem x (k.val / 8) (k.val % 8) = x[k] := by
  have hk : Fin.ofNat 64 (8 * (k.val / 8) + k.val % 8) = k := Fin.ext (by rw [Nat.div_add_mod]; exact Nat.mod_eq_of_lt k.isLt)
  exact congrArg (fun i : Fin 64 => x[i]) hk

theorem any_toList_eq {α : Type} {n : Nat} (x : Vector α n) (p : α → Bool) : x.toList.any p = (List.finRange n).any fun k => p x[k] := by
  rw [Bool.eq_iff_iff, List.any_eq_true, List.any_eq_true]
  constructor
  · rintro ⟨y, hy, h⟩
    obtain ⟨k, hk, rfl⟩ := Vector.getElem_of_mem (Vector.mem_toList_iff.1 hy)
    exact ⟨⟨k, hk⟩, List.mem_finRange _, h⟩
  · rintro ⟨k, -, h⟩
    exact ⟨x[k], Vector.mem_toList_iff.2 (Vector.getElem_mem _), h⟩

/-! ## aout.i and aout.f (R197) -/

/-- Some slot of the accumulator is clamped. -/
def clamps (x : Acc) : Bool := x.toList.any fun w => sat32 (residueVal w) != residueVal w

theorem clamps_eq (x : Acc) :
    clamps x = (List.finRange 64).any fun k => decide (residueVal x[k] < -2147483648 ∨ 2147483647 < residueVal x[k]) := by
  rw [clamps, any_toList_eq]
  simp only [sat32_ne_iff]

/-- The SAT flags after `aout.i` of accumulator n, which holds x. -/
def satAfter (sat : BitVec 8) (n : Fin 8) (x : Acc) : BitVec 8 := if clamps x then sat ||| BitVec.ofNat 8 (2 ^ n.val) else sat

theorem getLsbD_flag (n i : Fin 8) : (BitVec.ofNat 8 (2 ^ n.val)).getLsbD i.val = (i == n) := by revert n i; decide

theorem satAfter_flag (sat : BitVec 8) (n i : Fin 8) (x : Acc) :
    (satAfter sat n x).getLsbD i.val = (sat.getLsbD i.val || (i == n && clamps x)) := by
  unfold satAfter
  split
  · next h => rw [BitVec.getLsbD_or, getLsbD_flag, h, Bool.and_true]
  · next h => rw [Bool.eq_false_iff.2 h, Bool.and_false, Bool.or_false]

theorem run_satAfter (n : Fin 8) (x : Acc) (u : State) :
    (if clamps x then modFib fun f => { f with sat := f.sat ||| BitVec.ofNat 8 (2 ^ n.val) } else pure ()) u
      = .ok ((), { u with fib := { u.fib with sat := satAfter u.fib.sat n x } }) := by
  unfold satAfter
  cases clamps x <;> rfl

theorem sat_newTile (s : State) (d : Fin 32) (x : Tile) : (newTile s d x).fib.sat = s.fib.sat :=
  (congrArg Fib.sat (cleanReg_eq s.fib (0x100 + d.val))).trans rfl

/-- The integers of an accumulator, clamped; the low words of its slots. -/
def intTile (x : Acc) : Tile := tileFrom fun i j => BitVec.ofInt 32 (sat32 (residueVal (accElem x i j)))
def lowTile (x : Acc) : Tile := tileFrom fun i j => (accElem x i j).setWidth 32

section
variable {s : State} {d : Fin 32} {n : Fin 8} (hp : s.pair = none) (hd : hasTile s.fib d = true) (hn : goodAcc s n = true)
include hp hd hn

theorem exec_aoutI : exec (.aoutI d n) s =
    let t := setShape (newTile s d (intTile (accOf s n))) d 0x283F
    .next (goOn { t with fib := { t.fib with sat := satAfter s.fib.sat n (accOf s n) } }) := by
  refine done_of_unit ((run_bind_ok (needTile_claimed hd)).trans <| (run_bind_ok (needAcc_claimed (hasAcc_of_good hn))).trans <|
    (run_bind_ok (rdAcc_good hn)).trans <| (run_bind_ok (run_wrTile_whole ..)).trans <| (run_bind_ok (run_wrShape ..)).trans ?_) hp
  have hsat : (setShape (newTile s d (intTile (accOf s n))) d 0x283F).fib.sat = s.fib.sat := sat_newTile ..
  exact (run_satAfter n (accOf s n) _).trans (by rw [← hsat]; rfl)

theorem exec_aoutF : exec (.aoutF d n) s = .next (goOn (setShape (newTile s d (lowTile (accOf s n))) d 0x303F)) :=
  done_of_unit ((run_bind_ok (needTile_claimed hd)).trans <| (run_bind_ok (needAcc_claimed (hasAcc_of_good hn))).trans <|
    (run_bind_ok (rdAcc_good hn)).trans <| (run_bind_ok (run_wrTile_whole ..)).trans <| run_wrShape ..) hp

end

/-! ## scacc (R161, R198) -/

/-- The accumulator tile after scaling: words 64 upward are kept. -/
def scaledTile (sh : BitVec 15) (td ta tb : Tile) : Tile :=
  BitVec.ofNat 4096 (td.toNat / 2 ^ 2048 * 2 ^ 2048) ||| tileFrom fun i j => if i ≤ shRows sh ∧ j ≤ shCols sh then
    scaleApply (tileElem td i j) (tileElem ta i j) (tileNat tb i 1) (tileNat tb (8 + j) 1) else tileElem td i j

theorem exec_scacc {s : State} {d a b : Fin 32} (hp : s.pair = none) (hd : goodTile s d = true) (ha : goodTile s a = true)
    (hb : goodTile s b = true) (kd : shKind s.fib.tshape[d] = 6) (ka : shKind s.fib.tshape[a] = 5) (kb : shKind s.fib.tshape[b] = 8) :
    exec (.scacc d a b) s = .next (goOn (putTile s d (scaledTile s.fib.tshape[d] (tileOf s d) (tileOf s a) (tileOf s b)))) :=
  done_of_unit ((run_bind_ok (needTile_claimed (hasTile_of_good hd))).trans <| (run_bind_ok (needTile_claimed (hasTile_of_good ha))).trans <|
    (run_bind_ok (needTile_claimed (hasTile_of_good hb))).trans <| (run_bind_ok (needShape_passed (isKind_of_eq kd))).trans <|
    (run_bind_ok (needShape_passed (isKind_of_eq ka))).trans <| (run_bind_ok (needShape_passed (isKind_of_eq kb))).trans <|
    (run_bind_ok (rdTile_good hd)).trans <| (run_bind_ok (rdTile_good ha)).trans <| (run_bind_ok (rdTile_good hb)).trans <|
    (run_bind_ok (run_theFib s)).trans <| run_wrTile_part ..) hp

theorem tileWord_or (x y : Tile) (k : Nat) : tileWord (x ||| y) k = tileWord x k ||| tileWord y k := BitVec.extractLsb'_or ..

/-- A tile without its bits below p, a word boundary. -/
theorem tileWord_upper (t : Tile) {p m : Nat} (hp : p = 32 * m) (k : Nat) :
    tileWord (BitVec.ofNat 4096 (t.toNat / 2 ^ p * 2 ^ p)) k = if k < m then 0#32 else tileWord t k := by
  refine BitVec.eq_of_getLsbD_eq fun i hi => ?_
  rw [tileWord, BitVec.getLsbD_extractLsb', BitVec.getLsbD_ofNat, Nat.testBit_mul_two_pow]
  split
  · rw [decide_eq_false (show ¬ p ≤ 32 * k + i by omega)]; simp
  · rw [decide_eq_true (show p ≤ 32 * k + i by omega), Nat.testBit_div_two_pow, Nat.sub_add_cancel (by omega), tileWord,
      BitVec.getLsbD_extractLsb', Bool.true_and]
    by_cases hlt : 32 * k + i < 4096
    · rw [decide_eq_true hlt, Bool.true_and]; rfl
    · rw [decide_eq_false hlt, BitVec.getLsbD_of_ge t _ (by omega), Bool.false_and]

theorem scaledTile_high (sh : BitVec 15) (td ta tb : Tile) (j : Nat) : tileWord (scaledTile sh td ta tb) (64 + j) = tileWord td (64 + j) := by
  rw [scaledTile, tileWord_or, tileWord_upper td (m := 64) rfl, if_neg (by omega), tileWord_tileFrom_high]
  exact BitVec.or_zero

theorem scaledTile_low (sh : BitVec 15) (td ta tb : Tile) (i j : Fin 8) :
    tileWord (scaledTile sh td ta tb) (8 * i.val + j.val) = if i.val ≤ shRows sh ∧ j.val ≤ shCols sh then
      scaleApply (tileWord td (8 * i.val + j.val)) (tileWord ta (8 * i.val + j.val)) (tileByte tb i.val).toNat (tileByte tb (8 + j.val)).toNat
    else tileWord td (8 * i.val + j.val) := by
  rw [scaledTile, tileWord_or, tileWord_upper td (m := 64) rfl, if_pos (by omega), tileWord_tileFrom _ i.isLt j.isLt, BitVec.zero_or]
  simp only [tileElem_eq, tileNat_byte]

/-! ## Codes in a line (R199) -/

theorem getLsbD_putCodes_out {w i : Nat} : ∀ (cs : List Nat) (lo : Nat) (t : Tile), lo + w * cs.length ≤ 4096 →
    i < lo ∨ lo + w * cs.length ≤ i → (putCodes w lo cs t).getLsbD i = t.getLsbD i
  | [], _, _, _, _ => rfl
  | c :: cs, lo, t, hlo, hi => by
    rw [List.length_cons, Nat.mul_succ] at hlo hi
    rw [putCodes, getLsbD_putCodes_out cs _ _ (by omega) (by omega), getLsbD_tilePut_out t c (by omega) (by omega)]

theorem nth_cons_succ {α : Type} (a : α) (l : List α) (k : Nat) (d : α) : nth (a :: l) (k + 1) d = nth l k d := by simp [nth]

theorem extractLsb'_putCodes {w : Nat} (cs : List Nat) (lo : Nat) (t : Tile) (k : Nat) (hlo : lo + w * cs.length ≤ 4096)
    (hk : k < cs.length) : (putCodes w lo cs t).extractLsb' (lo + w * k) w = BitVec.ofNat w (nth cs k 0) := by
  induction cs generalizing lo t k with
  | nil => cases hk
  | cons c cs ih =>
    rw [List.length_cons, Nat.mul_succ] at hlo
    rw [putCodes]
    cases k with
    | zero =>
      have hkept := extractLsb'_congr fun i (hi : i < w) =>
        getLsbD_putCodes_out (w := w) (i := lo + i) cs (lo + w) (tilePut t lo w c) (by omega) (by omega)
      rw [Nat.mul_zero, Nat.add_zero, hkept, extractLsb'_tilePut_same t c (by omega)]
      simp [nth]
    | succ k =>
      rw [Nat.mul_succ, Nat.add_comm (w * k), ← Nat.add_assoc, ih (lo + w) _ k (by omega) (Nat.lt_of_succ_lt_succ hk), nth_cons_succ]

/-! ## The scale and the codes of a block (R163, R164) -/

@[simp] theorem hadStage_length (h : Nat) (z : List Lane) : (hadStage h z).length = z.length := by simp [hadStage]

@[simp] theorem hadamard_length : ∀ (k h : Nat) (z : List Lane), (hadamard k h z).length = z.length
  | 0, _, _ => rfl
  | k + 1, h, z => by rw [hadamard, hadamard_length k, hadStage_length]

theorem clampInt_bounds {lo hi : Int} (h : lo ≤ hi) (v : Int) : lo ≤ clampInt lo hi v ∧ clampInt lo hi v ≤ hi := by
  unfold clampInt
  split
  · omega
  · split <;> omega

theorem nearestCode_lt (b k m : Nat) (e : Int) : nearestCode b k m e < 2 ^ k := by
  refine List.foldlRecOn (motive := fun best => best < 2 ^ k) _ _ (Nat.two_pow_pos k) fun best hbest c hc => ?_
  dsimp only
  split
  · exact List.mem_range.1 hc
  · exact hbest

/-- A magnitude code with its sign above it. -/
theorem signed_lt {c k : Nat} (p : Prop) [Decidable p] (h : c < 2 ^ k) : c + (if p then 2 ^ k else 0) < 2 ^ (k + 1) := by
  rw [Nat.pow_succ]
  split <;> omega

theorem quantCode_lt (f : EFmt) (s : Int) (z : Lane) : quantCode f s z < 2 ^ efmtBits f := by
  unfold quantCode
  split
  · next neg m e _ =>
    have hnear := nearestCode_lt (mantBits f) (mantBits f + 2) m (e - s + mantBits f)
    cases f with
    | i4 => simp only [efmtBits]; omega
    | i8 => simp only [efmtBits]; omega
    | f4 => exact signed_lt _ hnear
    | f6 => exact signed_lt _ hnear
  · exact Nat.two_pow_pos _

/-- The scale is a byte, and there is a code of the format's width for each element. -/
theorem quantBlock_ranges (f : EFmt) (z : List Lane) :
    (quantBlock f z).1 < 256 ∧ (quantBlock f z).2.length = z.length ∧ ∀ c ∈ (quantBlock f z).2, c < 2 ^ efmtBits f := by
  have hzero : ∀ c ∈ z.map fun _ : Lane => 0, c < 2 ^ efmtBits f := by simp
  unfold quantBlock
  split
  · exact ⟨by simp, List.length_map .., hzero⟩
  · dsimp only
    split
    · exact ⟨by simp, List.length_map .., hzero⟩
    · refine ⟨?_, List.length_map .., fun c hc => ?_⟩
      · exact ((Int.toNat_le (n := 254)).2 (clampInt_bounds (by omega) _).2).trans_lt (by omega)
      · obtain ⟨x, -, rfl⟩ := List.mem_map.1 hc
        exact quantCode_lt ..

theorem nth_mem {l : List Nat} {k : Nat} (h : k < l.length) : nth l k 0 ∈ l := by
  rw [nth, List.getElem?_eq_getElem h]; exact List.getElem_mem h

/-! ## qcvt (R199) -/

theorem perLine_bits (f : EFmt) : efmtBits f * perLine f = 384 := by cases f <;> rfl

/-- The codes of a block fit in their line, the line in the tile. -/
theorem codes_fit {f : EFmt} {pos n line : Nat} (h : pos + n ≤ perLine f) (hl : line < 8) :
    384 * line + efmtBits f * pos + efmtBits f * n ≤ 4096 := by
  have := Nat.mul_le_mul_left (efmtBits f) h
  rw [Nat.mul_add, perLine_bits] at this
  omega

theorem line_passed {f : EFmt} {v : BitVec 15} (hk : shKind v = 1 ∨ shKind v = 2) (hf : shFmt v = efmtCode f) :
    ((isKind 1 v || isKind 2 v) && shFmt v == efmtCode f) = true := by
  rw [Bool.and_eq_true, Bool.or_eq_true, beq_iff_eq]
  exact ⟨hk.imp isKind_of_eq isKind_of_eq, hf⟩

/-- The block of n words from word src of a tile, transformed, scaled and coded. -/
def blockOf (h32 : Bool) (f : EFmt) (t : Tile) (src : Nat) : Nat × List Nat :=
  quantBlock f (hadamard (if h32 then 5 else 4) 1 ((List.range (if h32 then 32 else 16)).map fun k => tileWord t (src + k)))

theorem blockOf_ranges (h32 : Bool) (f : EFmt) (t : Tile) (src : Nat) :
    (blockOf h32 f t src).1 < 256 ∧ (blockOf h32 f t src).2.length = (if h32 then 32 else 16)
      ∧ ∀ c ∈ (blockOf h32 f t src).2, c < 2 ^ efmtBits f := by
  obtain ⟨hscale, hlen, hcodes⟩ := quantBlock_ranges f
    (hadamard (if h32 then 5 else 4) 1 ((List.range (if h32 then 32 else 16)).map fun k => tileWord t (src + k)))
  rw [hadamard_length, List.length_map, List.length_range] at hlen
  exact ⟨hscale, hlen, hcodes⟩

section
variable {s : State} {h32 : Bool} {f : EFmt} {d a b : Fin 32} {line : Fin 8} {pos : BitVec 7} {src : BitVec 6} {sb : Fin 16}
  (hp : s.pair = none) (hd : hasTile s.fib d = true) (ha : goodTile s a = true) (hb : hasTile s.fib b = true)
  (kd : ((isKind 1 s.fib.tshape[d] || isKind 2 s.fib.tshape[d]) && shFmt s.fib.tshape[d] == efmtCode f) = true)
  (ka : isKind 6 s.fib.tshape[a] = true) (kb : isKind 8 s.fib.tshape[b] = true)
include hp hd ha hb kd ka kb

theorem exec_qcvt_past_line (h : pos.toNat + (if h32 then 32 else 16) > perLine f) :
    exec (.qcvt h32 f d a b line pos src sb) s = .next (trapsWith s 9 (BitVec.ofNat 64 (0x400 + d.val))) :=
  performSeq_trap ((run_bind_ok (needTile_claimed hd)).trans <| (run_bind_ok (needTile_claimed (hasTile_of_good ha))).trans <|
    (run_bind_ok (needTile_claimed hb)).trans <| (run_bind_ok (needShape_passed kd)).trans <| (run_bind_ok (needShape_passed ka)).trans <|
    (run_bind_ok (needShape_passed kb)).trans <| congrFun (if_pos h) s) hp

/-- The line with its new codes is written, then the tile of scales with its new byte. -/
theorem exec_qcvt (hne : b ≠ d) (h : ¬ pos.toNat + (if h32 then 32 else 16) > perLine f) :
    exec (.qcvt h32 f d a b line pos src sb) s =
      let q := blockOf h32 f (tileOf s a) src.toNat
      let t := putTile s d (putCodes (efmtBits f) (384 * line.val + efmtBits f * pos.toNat) q.2 (tileOf s d))
      .next (goOn (putTile t b (tilePut (tileOf s b) (8 * sb.val) 8 q.1))) := by
  have hblock : ((List.range (if h32 then 32 else 16)).map fun k => BitVec.ofNat 32 (tileNat (tileOf s a) (4 * (src.toNat + k)) 4))
      = (List.range (if h32 then 32 else 16)).map fun k => tileWord (tileOf s a) (src.toNat + k) := by
    simp only [ofNat_tileNat_word]
  refine done_of_unit ((run_bind_ok (needTile_claimed hd)).trans <| (run_bind_ok (needTile_claimed (hasTile_of_good ha))).trans <|
    (run_bind_ok (needTile_claimed hb)).trans <| (run_bind_ok (needShape_passed kd)).trans <| (run_bind_ok (needShape_passed ka)).trans <|
    (run_bind_ok (needShape_passed kb)).trans <| (congrFun (if_neg h) s).trans <| (run_bind_ok (rdTile_good ha)).trans <|
    (run_bind_ok (run_oldTile d s)).trans <| (run_bind_ok (run_wrTile_part ..)).trans <| (run_bind_ok (run_oldTile b _)).trans <|
    (run_wrTile_part ..).trans ?_) hp
  rw [hblock, tileOf_putTile_ne _ hne]
  rfl

end

/-- A line that takes the codes of a block holds them, and its other bits are kept. -/
theorem putCodes_block {h32 : Bool} {f : EFmt} {pos line : Nat} (x t : Tile) (src : Nat) (h : pos + (if h32 then 32 else 16) ≤ perLine f)
    (hl : line < 8) :
    let w := efmtBits f
    let first := 384 * line + w * pos
    let y := putCodes w first (blockOf h32 f x src).2 t
    (∀ k, k < (if h32 then 32 else 16) → (y.extractLsb' (first + w * k) w).toNat = nth (blockOf h32 f x src).2 k 0)
      ∧ ∀ i, i < first ∨ first + w * (if h32 then 32 else 16) ≤ i → y.getLsbD i = t.getLsbD i := by
  have hfit := codes_fit h hl
  obtain ⟨-, hlen, hcodes⟩ := blockOf_ranges h32 f x src
  rw [← hlen] at hfit ⊢
  refine ⟨fun k hk => ?_, fun i hi => getLsbD_putCodes_out _ _ _ hfit hi⟩
  rw [extractLsb'_putCodes _ _ _ _ hfit hk, BitVec.toNat_ofNat, Nat.mod_eq_of_lt (hcodes _ (nth_mem hk))]

/-- Settles O33: the run of each instruction, then the tile that it leaves, word by word or bit by bit. -/
theorem conversionAndQuantisation : Obligations.ConversionAndQuantisation := by
  unfold Obligations.ConversionAndQuantisation
  refine ⟨fun s d n hp hd hn => ⟨⟨intTile (accOf s n), fun k => residueVal (accOf s n)[k], fun k => ?_, fun j => tileWord_tileFrom_high _ j.val,
      satAfter s.fib.sat n (accOf s n), fun i => ?_, exec_aoutI hp hd hn⟩,
      lowTile (accOf s n), fun k => ?_, fun j => tileWord_tileFrom_high _ j.val, exec_aoutF hp hd hn⟩,
    fun s d a b hp hd ha hb kd ka kb => ⟨_, exec_scacc hp hd ha hb kd ka kb, fun j => scaledTile_high .., fun i j => scaledTile_low ..⟩,
    fun s h32 f d a b line pos src sb hp hd ha hb kd fd ka kb => ⟨fun h => ?_, fun _ h => ?_⟩⟩
  · obtain ⟨hlt, hge, h47, h48, h49⟩ := residueVal_spec (accOf s n)[k]
    refine ⟨hlt, hge, h47, h48, h49, ?_⟩
    rw [intTile, tileWord_tileFrom_slot, accElem_slot, sat32_eq]
  · rw [satAfter_flag, clamps_eq]
  · rw [lowTile, tileWord_tileFrom_slot, accElem_slot]
  · exact exec_qcvt_past_line hp hd ha hb (line_passed kd fd) (isKind_of_eq ka) (isKind_of_eq kb) h
  · obtain ⟨hcodes, hkept⟩ := putCodes_block (tileOf s a) (tileOf s d) src.toNat h line.isLt
    have hne : b ≠ d := by rintro rfl; omega
    refine ⟨_, _, exec_qcvt hp hd ha hb (line_passed kd fd) (isKind_of_eq ka) (isKind_of_eq kb) hne (Nat.not_lt.2 h), hcodes, hkept, ?_,
      fun i _ hi => tileByte_tilePut_ne _ _ (by omega) hi⟩
    rw [tileByte_tilePut_same _ _ (by omega), BitVec.toNat_ofNat]
    exact Nat.mod_eq_of_lt (blockOf_ranges h32 f (tileOf s a) src.toNat).1

end Sys2Proof
end

