-- ==== Sys2Proof/Proofs/VectorArithmetic.lean ====
section
/-!
SUPPORT. The two-source vector instructions lane by lane (R166, R169, R172, R173): how a vector instruction with ordinary operands completes,
and the value of each lane function in the terms of its rule: O27.
-/
namespace Sys2Proof
open Machine Safety

/-! ## Completing with ordinary operands -/

section
variable {s : State} {d a : Fin 16} {b : VSrc} (hp : s.pair = none) (ha : plainV s.fib a = true) (hb : plainVS s.fib b = true)
  (hd : openV s.fib d = true)

include hp ha hd in
theorem performSeq_vec1 (f : Lane → Lane) {g : Fin 16 → Lane} (hg : ∀ i : Fin 16, f s.fib.v[a][i] = g i) :
    performSeq (vec1 f d a) s = .next (doneV s d (vecOf g)) := by
  refine done_of_resultV ?_ hp hd
  rw [vec1, run_bind_ok (rdV_of_plain ha), lanes1, funext hg]

include hp ha hb hd in
theorem performSeq_vec2 (f : Lane → Lane → Lane) {g : Fin 16 → Lane} (hg : ∀ i : Fin 16, f s.fib.v[a][i] (laneVS s.fib b i) = g i) :
    performSeq (vec2 f d a b) s = .next (doneV s d (vecOf g)) := by
  refine done_of_resultV ?_ hp hd
  rw [vec2, run_bind_ok (rdV_of_plain ha), run_bind_ok (rdVSrc_of_plain hb), lanes2]
  simp only [vecOf_lane, hg]

end

/-! ## Integer kinds (R165, R169) -/

/-- Two lanes that a kind reads as one number are the same lane. -/
theorem kindInt_injective {k : LKind} {x y : Lane} (h : kindInt k x = kindInt k y) : x = y := by
  unfold kindInt at h
  split at h
  · exact BitVec.eq_of_toNat_eq (Int.ofNat_inj.1 h)
  · exact BitVec.toInt_inj.1 h

theorem clampInt_eq_max_min {lo hi : Int} (h : lo ≤ hi) (v : Int) : clampInt lo hi v = max lo (min hi v) := by
  unfold clampInt
  split
  · omega
  · split <;> omega

theorem laneOf_eq_kindResult (k : LKind) (sat : Bool) (t : Int) : Machine.laneOf k sat t = kindResult k sat t := by
  cases sat with
  | false => rfl
  | true =>
    by_cases hk : k = .n
    · simp only [Machine.laneOf, kindResult, if_pos hk, if_true, clampInt_eq_max_min (show (0 : Int) ≤ 2 ^ 32 - 1 by decide)]
    · simp only [Machine.laneOf, kindResult, if_neg hk, if_true, clampInt_eq_max_min (show (-2 ^ 31 : Int) ≤ 2 ^ 31 - 1 by decide)]

/-- Where the numbers are equal it does not matter which side is chosen, when the two sides are then the same. -/
theorem ite_lt_swap {m n : Int} {x y : Lane} (h : m = n → x = y) : (if m < n then x else y) = if m > n then y else x := by
  obtain hlt | heq | hgt := lt_trichotomy m n
  · rw [if_pos hlt, if_neg hlt.not_gt]
  · rw [h heq, ite_self, ite_self]
  · rw [if_pos hgt, if_neg hgt.not_gt]

section
variable (k : LKind) (sat : Bool) (rm : RM) (x y : Lane)

theorem laneAdd_eq : laneAdd k sat rm x y = if k = .f then f32Add rm x y else kindResult k sat (kindInt k x + kindInt k y) := by
  rw [laneAdd, laneOf_eq_kindResult]; rfl

theorem laneSub_eq : laneSub k sat rm x y = if k = .f then f32Sub rm x y else kindResult k sat (kindInt k x - kindInt k y) := by
  rw [laneSub, laneOf_eq_kindResult]; rfl

theorem laneMul_eq : laneMul k sat rm x y = if k = .f then f32Mul rm x y else kindResult k sat (kindInt k x * kindInt k y) := by
  rw [laneMul, laneOf_eq_kindResult]; rfl

theorem laneMax_eq : laneMax k x y = if k = .f then f32Max x y else if kindInt k x < kindInt k y then y else x :=
  if_congr Iff.rfl rfl (ite_lt_swap fun h => (kindInt_injective h).symm).symm

theorem laneMin_eq : laneMin k x y = if k = .f then f32Min x y else if kindInt k x > kindInt k y then y else x :=
  if_congr Iff.rfl rfl (ite_lt_swap kindInt_injective)

end

/-! ## Shifts (R173) -/

theorem ofNat_mul_two_pow {w : Nat} (x : BitVec w) (n : Nat) : BitVec.ofNat w (x.toNat * 2 ^ n) = x <<< n := by
  apply BitVec.eq_of_toNat_eq
  rw [BitVec.toNat_ofNat, BitVec.toNat_shiftLeft, Nat.shiftLeft_eq]

theorem ofNat_div_two_pow {w : Nat} (x : BitVec w) (n : Nat) : BitVec.ofNat w (x.toNat / 2 ^ n) = x >>> n := by
  apply BitVec.eq_of_toNat_eq
  rw [BitVec.toNat_ofNat, BitVec.toNat_ushiftRight, Nat.shiftRight_eq_div_pow,
    Nat.mod_eq_of_lt (Nat.lt_of_le_of_lt (Nat.div_le_self ..) x.isLt)]

theorem laneShl_eq (x n : Lane) : laneShl x n = if n.toNat ≥ 32 then 0 else x <<< n.toNat := by rw [laneShl, ofNat_mul_two_pow]

theorem laneShr_eq (x n : Lane) : laneShr x n = if n.toNat ≥ 32 then 0 else x >>> n.toNat := by rw [laneShr, ofNat_div_two_pow]

theorem laneShrS_eq (x n : Lane) : laneShrS x n = BitVec.sshiftRight x (Nat.min n.toNat 31) := by
  rw [laneShrS, BitVec.sshiftRight, Int.shiftRight_eq_div_pow]
  rfl

/-! ## The mask of `vcmp` (R172) -/

/-- The powers of two whose conditions hold sum to the number with those bits: the last condition adds a bit above all others. -/
theorem foldl_bits_eq_ofBits {n : Nat} (p : Fin n → Bool) :
    (List.finRange n).foldl (fun m i => m + if p i then 2 ^ i.val else 0) 0 = Nat.ofBits p := by
  induction n with
  | zero => rfl
  | succ n ih =>
    have hbelow := Nat.ofBits_lt_two_pow fun i : Fin n => p i.castSucc
    rw [List.finRange_succ_last, List.foldl_append, List.foldl_map]
    simp only [Fin.val_castSucc, ih fun i => p i.castSucc, List.foldl_cons, List.foldl_nil, Fin.val_last]
    have hlast : (if p (Fin.last n) then 2 ^ n else 0) = 2 ^ n * (p (Fin.last n)).toNat := by cases p (Fin.last n) <;> simp
    rw [Nat.add_comm, hlast]
    refine Nat.eq_of_testBit_eq fun j => ?_
    rw [Nat.testBit_two_pow_mul_add _ hbelow, Nat.testBit_ofBits, Nat.testBit_ofBits]
    obtain h | rfl | h := lt_trichotomy j n
    · rw [if_pos h, dif_pos h, dif_pos (by omega)]; rfl
    · rw [if_neg (by omega), dif_pos (by omega), Nat.sub_self, Nat.testBit_zero]
      show _ = p (Fin.last j)
      cases p (Fin.last j) <;> rfl
    · rw [if_neg (by omega), dif_neg (by omega)]
      exact Nat.testBit_lt_two_pow ((Bool.toNat_lt _).trans_le (Nat.le_self_pow (by omega) 2))

theorem getLsbD_cmpMask (k : LKind) (cc : VCond) (x y : VReg) (j : Nat) :
    (cmpMask k cc x y).getLsbD j = if h : j < 16 then laneCmp k cc x[j] y[j] else false := by
  rw [cmpMask, foldl_bits_eq_ofBits fun i : Fin 16 => laneCmp k cc x[i] y[i], w64, BitVec.getLsbD_ofNat, Nat.testBit_ofBits]
  by_cases h : j < 16
  · simp [h, show j < 64 by omega]
  · simp [h]

/-- Settles O27: each instruction reads its operands and completes with its lane function (`performSeq_vec2`), which is the one that R169 or
R173 gives; the mask of `vcmp` is read bit by bit (`getLsbD_cmpMask`). -/
theorem vectorTwoSource : Obligations.VectorTwoSource := by
  unfold Obligations.VectorTwoSource
  intro s k sat rm d a b hp ha hb hd x y
  have completes {f : Lane → Lane → Lane} {g : Fin 16 → Lane} := performSeq_vec2 (g := g) hp ha hb hd f
  refine ⟨completes fun _ => laneAdd_eq .., completes fun _ => laneSub_eq .., completes fun _ => laneMul_eq .., completes fun _ => laneMax_eq ..,
    completes fun _ => laneMin_eq .., completes fun _ => rfl, completes fun _ => rfl, completes fun _ => rfl, completes fun _ => laneShl_eq ..,
    completes fun _ => laneShr_eq .., completes fun _ => laneShrS_eq .., fun cc e he => ?_⟩
  refine ⟨cmpMask k cc s.fib.v[a] (vecOf y), done_of_result ?_ hp he, fun i => ?_, fun j hj => ?_⟩
  · rw [run_bind_ok (rdV_of_plain ha), run_bind_ok (rdVSrc_of_plain hb)]
  · rw [getLsbD_cmpMask, dif_pos i.isLt, vecOf_get]; rfl
  · rw [getLsbD_cmpMask, dif_neg (by omega)]

end Sys2Proof
end

