-- ==== Sys2Proof/Proofs/VectorMovement.lean ====
section
/-!
SUPPORT. The other vector instructions of class V (R170, R171, R173 to R178): integer forms, elements of 16 bits, the tree of a
reduction and the running results of a scan in the terms of their rules: O28.
-/
namespace Sys2Proof
open Machine Safety

/-! ## Vectors as functions of the lane -/

theorem vecOf_lanes (v : VReg) : vecOf (fun i : Fin 16 => v[i]) = v := vreg_ext fun i => vecOf_lane _ i

theorem splat_eq_vecOf (l : Lane) : splat l = vecOf fun _ => l := rfl

theorem set_eq_vecOf (v : VReg) (j : Fin 16) (l : Lane) : v.set j l = vecOf fun i : Fin 16 => if i = j then l else v[i] := by
  refine vreg_ext fun i => ?_
  rw [vecOf_lane, Fin.getElem_fin, Vector.getElem_set]
  exact if_congr (by rw [Fin.ext_iff, eq_comm]) rfl rfl

/-! ## Integer forms (R170, R171) -/

theorem laneFma_eq (k : LKind) (rm : RM) (x y z : Lane) :
    laneFma k rm x y z = if k = .f then f32Fma rm x y z else BitVec.ofInt 32 (kindInt k x * kindInt k y + kindInt k z) := by
  rw [laneFma, laneOf_eq_kindResult]; rfl

theorem natAbs_eq_ite (v : Int) : (v.natAbs : Int) = if v < 0 then -v else v := by
  split <;> omega

theorem laneAbs_eq (int sat : Bool) (x : Lane) :
    laneAbs int sat x = if int then kindResult .i sat (if x.toInt < 0 then -x.toInt else x.toInt) else x &&& 0x7FFFFFFF := by
  rw [laneAbs, laneOf_eq_kindResult, natAbs_eq_ite]

theorem laneNeg_eq (int sat : Bool) (x : Lane) :
    laneNeg int sat x = if int then kindResult .i sat (-x.toInt) else x ^^^ 0x80000000 := by
  rw [laneNeg, laneOf_eq_kindResult, negF]

/-! ## Elements of 16 bits (R175) -/

section
variable (a b : VReg)

theorem halfOf_eq_toNat (j : Nat) : halfOf a j = (half (fun i => a[i]) j).toNat := by
  rw [halfOf, half, BitVec.extractLsb'_toNat, Nat.shiftRight_eq_div_pow]

theorem sat16_eq_toNat (x : Lane) : sat16 x = (clamp16 x).toNat := by
  rw [sat16, clampInt_eq_max_min (by decide), clamp16]

/-- Two elements beside each other make a lane, the lower in the lower bits. -/
theorem ofNat_two_halves (m n : Nat) : BitVec.ofNat 32 (m % 65536 + 65536 * (n % 65536)) = BitVec.ofNat 16 n ++ BitVec.ofNat 16 m := by
  apply BitVec.eq_of_toNat_eq
  have hm : m % 2 ^ 16 < 2 ^ 16 := Nat.mod_lt _ (by decide)
  rw [BitVec.toNat_append, BitVec.toNat_ofNat, BitVec.toNat_ofNat, BitVec.toNat_ofNat, ← Nat.shiftLeft_add_eq_or_of_lt hm, Nat.shiftLeft_eq]
  omega

theorem fromHalves_lane (f : Nat → Nat) (i : Fin 16) :
    (fromHalves f)[i] = BitVec.ofNat 16 (f (2 * i.val + 1)) ++ BitVec.ofNat 16 (f (2 * i.val)) := by
  rw [fromHalves, vecOf_lane, ofNat_two_halves]

/-- Widening a BF16 element puts it above 16 zero bits. -/
theorem fromBf16_toNat (h : BitVec 16) : fromBf16 h.toNat = h ++ (0 : BitVec 16) := by
  have hlanes := ofNat_two_halves 0 h.toNat
  rw [Nat.zero_mod, Nat.zero_add, Nat.mod_eq_of_lt h.isLt, Nat.mul_comm, BitVec.ofNat_toNat, BitVec.setWidth_eq] at hlanes
  exact hlanes

theorem ofInt_sextNat_toNat (h : BitVec 16) : BitVec.ofInt 32 (sextNat 16 h.toNat) = h.signExtend 32 := by
  rw [sextNat_eq_toInt, BitVec.ofNat_toNat, BitVec.setWidth_eq]; rfl

theorem packLanes_eq (k : PackKind) : packLanes k a b = vecOf (packLane k (fun i => a[i]) fun i => b[i]) := by
  refine vreg_ext fun i => (?_ : _ = _).trans (vecOf_lane ..).symm
  cases k with
  | bf => exact fromHalves_lane ..
  | bfl => rw [packLanes, vecOf_lane, halfOf_eq_toNat, fromBf16_toNat]; rfl
  | bfh => rw [packLanes, vecOf_lane, halfOf_eq_toNat, fromBf16_toNat]; rfl
  | h =>
    rw [packLanes, fromHalves_lane, sat16_eq_toNat, sat16_eq_toNat, BitVec.ofNat_toNat, BitVec.ofNat_toNat, BitVec.setWidth_eq, BitVec.setWidth_eq]
    rfl
  | hl => rw [packLanes, vecOf_lane, halfOf_eq_toNat, ofInt_sextNat_toNat]; rfl
  | hh => rw [packLanes, vecOf_lane, halfOf_eq_toNat, ofInt_sextNat_toNat]; rfl

/-- The forms that have one source do not depend on the second (R168). -/
theorem packLanes_one_source {k : PackKind} (h : ¬ (k = .bf ∨ k = .h)) (c : VReg) : packLanes k a b = packLanes k a c := by
  cases k with
  | bf => exact absurd (.inl rfl) h
  | h => exact absurd (.inr rfl) h
  | bfl => rfl
  | bfh => rfl
  | hl => rfl
  | hh => rfl

end

/-! ## Reductions and scans (R177, R178) -/

section
variable (op : Lane → Lane → Lane) (x : Fin 16 → Lane)

theorem toList_vecOf {n : Nat} (f : Fin n → Lane) : (vecOf f).toList = (List.finRange n).map f := rfl

theorem finRange_sixteen : List.finRange 16 = [0, 1, 2, 3, 4, 5, 6, 7, 8, 9, 10, 11, 12, 13, 14, 15] := by decide

theorem treeOf_vecOf : treeOf op (vecOf x) = tree16 op x := by
  rw [treeOf, toList_vecOf, finRange_sixteen]
  simp [foldHalf, tree16]

theorem treeOf_eq (a : VReg) : treeOf op a = tree16 op fun i => a[i] := by rw [← treeOf_vecOf, vecOf_lanes]

theorem scanList_eq_scanl (l : List Lane) (t : Lane) : t :: scanList op t l = l.scanl op t := by
  induction l generalizing t with
  | nil => rfl
  | cons y l ih => rw [scanList, ih, List.scanl_cons]

/-- Each result of a scan is the one before it combined with the next lane. -/
theorem scanLanes_eq (a : VReg) : scanLanes op a = vecOf fun i => prefixOf op (fun i => a[i]) i.val := by
  have hlane (n : Nat) (hn : n < 16) : a.toList[n]? = some a[Fin.ofNat 16 n] := by
    rw [List.getElem?_eq_getElem (by simpa using hn), Vector.getElem_toList, Fin.getElem_fin]
    simp only [Fin.val_ofNat, Nat.mod_eq_of_lt hn]
  have hscan (n : Nat) (hn : n < 16) : (a.toList.tail.scanl op (a.toList.headD 0))[n]? = some (prefixOf op (fun i => a[i]) n) := by
    induction n with
    | zero =>
      rw [List.getElem?_scanl_zero, List.headD_eq_head?_getD, List.head?_eq_getElem?, hlane 0 hn]; rfl
    | succ n ih =>
      rw [List.getElem?_succ_scanl, ih (by omega), List.getElem?_tail, hlane _ hn]; rfl
  refine congrArg vecOf (funext fun i => ?_)
  rw [nth, scanList_eq_scanl, hscan _ i.isLt]
  rfl

end

/-! ## Completing -/

section
variable {s : State} {d a : Fin 16} (hp : s.pair = none) (ha : plainV s.fib a = true)
include hp ha

/-- An instruction whose vector result comes from one vector register. -/
theorem performSeq_fromV (f : VReg → VReg) {v : VReg} (hv : f s.fib.v[a] = v) (hd : openV s.fib d = true) :
    performSeq (rdV a >>= fun x => resultV d (f x)) s = .next (doneV s d v) := by
  refine done_of_resultV ?_ hp hd
  rw [run_bind_ok (rdV_of_plain ha), hv]

/-- An instruction whose scalar result comes from one vector register. -/
theorem performSeq_scalarFromV {e : SReg} (f : VReg → Word) {v : Word} (hv : f s.fib.v[a] = v) (he : openS s.fib e = true) :
    performSeq (rdV a >>= fun x => result e (f x)) s = .next (doneS s e v) := by
  refine done_of_result ?_ hp he
  rw [run_bind_ok (rdV_of_plain ha), hv]

theorem exec_vdot {e : SReg} {b : VSrc} (rm : RM) (hb : plainVS s.fib b = true) (he : openS s.fib e = true) :
    exec (.vdot rm e a b) s =
      .next (doneS s e ((tree16 (f32Add rm) fun i => f32Mul rm s.fib.v[a][i] (laneVS s.fib b i)).zeroExtend 64)) := by
  refine done_of_result ?_ hp he
  rw [run_bind_ok (rdV_of_plain ha), run_bind_ok (rdVSrc_of_plain hb), lanes2, treeOf_vecOf]
  simp only [vecOf_lane]
  rfl

section
variable (hd : openV s.fib d = true)
include hd

theorem exec_vfma {b : VSrc} {c : VSrcC} (k : LKind) (rm : RM) (hb : plainVS s.fib b = true) (hc : plainVC s.fib c = true) :
    exec (.vfma k rm d a b c) s = .next (doneV s d (vecOf fun i => if k = .f then f32Fma rm s.fib.v[a][i] (laneVS s.fib b i) (laneVC s.fib c i)
      else BitVec.ofInt 32 (kindInt k s.fib.v[a][i] * kindInt k (laneVS s.fib b i) + kindInt k (laneVC s.fib c i)))) := by
  refine done_of_resultV ?_ hp hd
  rw [run_bind_ok (rdV_of_plain ha), run_bind_ok (rdVSrc_of_plain hb), run_bind_ok (rdVSrcC_of_plain hc), lanes3]
  simp only [vecOf_lane, laneFma_eq]

theorem exec_vsel {b : VSrc} {c : SReg} (hb : plainVS s.fib b = true) (hc : plainS s.fib c = true) :
    exec (.vsel d a b c) s =
      .next (doneV s d (vecOf fun i => if (regVal s.fib c).getLsbD i.val then s.fib.v[a][i] else laneVS s.fib b i)) := by
  refine done_of_resultV ?_ hp hd
  rw [run_bind_ok (rdV_of_plain ha), run_bind_ok (rdVSrc_of_plain hb), run_bind_ok (rd_of_plain hc)]
  simp only [vecOf_lane]

theorem exec_vperm {b : Fin 16} (hb : plainV s.fib b = true) :
    exec (.vperm d a b) s = .next (doneV s d (vecOf fun i => s.fib.v[a][Fin.ofNat 16 s.fib.v[b][i].toNat])) :=
  done_of_resultV ((run_bind_ok (rdV_of_plain ha)).trans (run_bind_ok (rdV_of_plain hb))) hp hd

theorem exec_vperm2 {b c : Fin 16} (hb : plainV s.fib b = true) (hc : plainV s.fib c = true) :
    exec (.vperm2 d a b c) s = .next (doneV s d (vecOf fun i => lanePair s.fib.v[a] s.fib.v[c] (s.fib.v[b][i].toNat % 32))) :=
  done_of_resultV ((run_bind_ok (rdV_of_plain ha)).trans ((run_bind_ok (rdV_of_plain hb)).trans (run_bind_ok (rdV_of_plain hc)))) hp hd

/-- The forms that have one source read no second. -/
theorem exec_vpack {b : Fin 16} (k : PackKind) (hb : plainV s.fib b = true) :
    exec (.vpack k d a b) s = .next (doneV s d (vecOf (packLane k (fun i => s.fib.v[a][i]) fun i => s.fib.v[b][i]))) := by
  rw [← packLanes_eq]
  refine done_of_resultV ((run_bind_ok (rdV_of_plain ha)).trans ?_) hp hd
  by_cases h : k = .bf ∨ k = .h
  · rw [if_pos h, run_bind_ok (rdV_of_plain hb)]
  · rw [if_neg h, run_bind_ok (run_pure ..), packLanes_one_source _ _ h]

end
end

/-- `v0` to `v11` are no stream registers (R90). -/
theorem armedV_lowV (f : Fib) (e : Fin 12) : armedV f (lowV e) = none := if_neg (Nat.not_le.2 e.isLt)

section
variable {s : State} {b : SrcB} (hp : s.pair = none) (hb : plainB s.fib b = true)
include hp hb

theorem exec_vbcast {d : Fin 16} (hd : openV s.fib d = true) :
    exec (.vbcast d b) s = .next (doneV s d (vecOf fun _ => (valB s.fib b).setWidth 32)) :=
  done_of_resultV (run_bind_ok (rdB_of_plain hb)) hp hd

theorem exec_vins (j : Fin 16) {e : Fin 12} (he : soundReg s.fib (0x20 + e.val) = true) :
    exec (.vins j e b) s =
      .next (doneV s (lowV e) (vecOf fun i => if i = j then (valB s.fib b).setWidth 32 else s.fib.v[lowV e][i])) := by
  have hopen : openV s.fib (lowV e) = true := by rw [openV, armedV_lowV]; rfl
  have hplain : plainV s.fib (lowV e) = true := by rw [plainV, armedV_lowV]; exact he
  rw [← set_eq_vecOf]
  exact done_of_resultV ((run_bind_ok (rdB_of_plain hb)).trans (run_bind_ok (rdV_of_plain hplain))) hp hopen

end

/-- Settles O28: each instruction reads its operands and completes with its lanes, which are those that R170, R171 or R173 to R178 give. -/
theorem vectorOthers : Obligations.VectorOthers := by
  unfold Obligations.VectorOthers
  refine ⟨fun s d a rm int sat kind j hp ha hd => ?_, fun s d a b op rm sx j hp ha hd => ?_,
    fun s d a b c o z r k rm pk hp ha hb hc ho hz hr hd => ?_, fun s d e j b hp hb => ⟨exec_vbcast hp hb, exec_vins hp hb j⟩⟩
  · have completes {f : Lane → Lane} {g : Fin 16 → Lane} := performSeq_vec1 (g := g) hp ha hd f
    have moves {f : VReg → VReg} {v : VReg} (hv : f s.fib.v[a] = v) := performSeq_fromV hp ha f hv hd
    exact ⟨completes fun _ => laneAbs_eq .., completes fun _ => laneNeg_eq .., completes fun _ => rfl, completes fun _ => rfl,
      completes fun _ => rfl, completes fun _ => rfl, completes fun _ => rfl, moves (splat_eq_vecOf _), moves (vecOf_lanes _),
      fun op => moves (scanLanes_eq ..)⟩
  · have completes {f : VReg → Word} {v : Word} (hv : f s.fib.v[a] = v) := performSeq_scalarFromV hp ha f hv hd
    exact ⟨completes (congrArg (extendLane (signedRed op)) (treeOf_eq ..)), completes rfl, fun hb => exec_vdot hp ha rm hb hd⟩
  · exact ⟨exec_vfma hp ha hd k rm ho hz, exec_vsel hp ha hd ho hr, exec_vperm hp ha hd hb, exec_vperm2 hp ha hd hb hc,
      exec_vpack hp ha hd pk hb⟩

end Sys2Proof
end

