-- ==== Sys2Proof/Proofs/TileMoves.lean ====
section
/-!
SUPPORT. O30: setting, clearing, moving and transposing tiles (R190, R192). The traps of claims and shapes, a strip of 64 bytes of a tile, and
the shape of a transpose.
-/
namespace Sys2Proof
open Machine Safety

/-! ## Checks that trap (R187, R190) -/

section
variable {s : State} {k : Fin 32} {n : Fin 8}

theorem needTile_unclaimed (h : hasTile s.fib k = false) : needTile k s = .error (.trap 9 (unclaimed k.val) false none) := by
  rw [needTile, run_bind_ok (run_theFib s), if_neg (by simp [h])]; rfl

theorem needAcc_unclaimed (h : hasAcc s.fib n = false) : needAcc n s = .error (.trap 9 (unclaimed (0x40 + n.val)) false none) := by
  rw [needAcc, run_bind_ok (run_theFib s), if_neg (by simp [h])]; rfl

theorem needShape_failed {p : BitVec 15 → Bool} (h : p s.fib.tshape[k] = false) :
    needShape k p s = .error (.trap 9 (BitVec.ofNat 64 (0x300 + k.val)) false none) := by
  rw [needShape, run_bind_ok (run_theFib s), if_neg (Bool.eq_false_iff.1 h)]; rfl

theorem isKind_of_ne {v : BitVec 15} {kind : Nat} (h : shKind v ≠ kind) : isKind kind v = false := by simp [isKind, h]

/-- The checks of a write of a shape register: its claim, then the value (R188). -/
theorem writeShape_unclaimed (v : Nat) (h : hasTile s.fib k = false) : writeShape k v s = .error (.trap 9 (unclaimed k.val) false none) := by
  rw [writeShape, run_bind_ok (run_theFib s), if_pos h]; rfl

theorem writeShape_invalid {v : Nat} (h : hasTile s.fib k = true) (hv : shapeOk v = false) :
    writeShape k v s = .error (.trap 9 (BitVec.ofNat 64 (0x500 + k.val)) false none) := by
  rw [writeShape, run_bind_ok (run_theFib s), if_neg (by simp [h]), if_pos hv]; rfl

theorem writeShape_valid {v : Nat} (h : hasTile s.fib k = true) (hv : shapeOk v = true) :
    writeShape k v s = .ok ((), setShape s k (BitVec.ofNat 15 v)) := by
  rw [writeShape, run_bind_ok (run_theFib s), if_neg (by simp [h]), if_neg (by simp [hv])]; rfl

/-- An instruction whose first check is the claim of a tile that the fibre does not claim. -/
theorem performSeq_unclaimed {f : Unit → M Unit} (hp : s.pair = none) (h : hasTile s.fib k = false) :
    performSeq (needTile k >>= f) s = .next (trapsWith s 9 (unclaimed k.val)) :=
  performSeq_fails (run_bind_error (needTile_unclaimed h)) hp

end

/-! ## A part of a tile after a write (R189) -/

section
variable (t : Tile) {lo len p w : Nat} (v : Nat) (h : lo + len ≤ 4096)
include h

/-- Bits p to p + w - 1 where the write covers them. -/
theorem extractLsb'_tilePut_in (hlo : lo ≤ p) (hhi : p + w ≤ lo + len) :
    (tilePut t lo len v).extractLsb' p w = BitVec.ofNat w (v / 2 ^ (p - lo)) := by
  refine BitVec.eq_of_getLsbD_eq fun i hi => ?_
  rw [BitVec.getLsbD_extractLsb', getLsbD_tilePut t v h, if_pos (by omega), BitVec.getLsbD_ofNat, Nat.testBit_div_two_pow,
    show p + i - lo = p - lo + i by omega, Nat.add_comm i]

theorem extractLsb'_tilePut_out (hout : p + w ≤ lo ∨ lo + len ≤ p) : (tilePut t lo len v).extractLsb' p w = t.extractLsb' p w :=
  extractLsb'_congr fun i hi => getLsbD_tilePut_out t v h (by omega)

end

/-! ## Strips of 64 bytes (R192) -/

/-- Lane l of the bytes of a vector register. -/
theorem ofNat_laneBytes_lane (x : VReg) (l : Fin 16) : BitVec.ofNat 32 (natOf (laneBytes x) / 2 ^ (32 * l.val)) = x[l] := by
  have hlane := take_drop_flatMap (fun y : Lane => bytesOf_length 4 y.toNat) x.toList l.val (by simp)
  have hval : natOf (laneBytes x) / 256 ^ (4 * l.val) % 256 ^ 4 = x[l].toNat := by
    rw [← natOf_drop, ← natOf_take, laneBytes, hlane, natOf_bytesOf, Vector.getElem_toList]
    exact Nat.mod_eq_of_lt x[l].isLt
  rw [show 32 * l.val = 8 * (4 * l.val) by omega, Nat.pow_mul 2 8]
  exact BitVec.eq_of_toNat_eq ((BitVec.toNat_ofNat ..).trans hval)

/-- The words of a tile after the lanes of a vector register are its strip k. -/
theorem tileWord_strip (t : Tile) (x : VReg) (k : Fin 8) (j : Fin 128) :
    tileWord (tilePut t (512 * k.val) 512 (natOf (laneBytes x))) j.val =
      if j.val / 16 = k.val then x[Fin.ofNat 16 (j.val % 16)] else tileWord t j.val := by
  split
  · next hin =>
    have hlane := ofNat_laneBytes_lane x (Fin.ofNat 16 (j.val % 16))
    rw [← hlane, tileWord, extractLsb'_tilePut_in _ _ (by omega) (by omega) (by omega),
      show 32 * j.val - 512 * k.val = 32 * (j.val % 16) by omega]
    simp
  · exact extractLsb'_tilePut_out t _ (by omega) (by omega)

/-! ## The transpose (R192) -/

/-- The fields of a shape from its bits above ROWS, its ROWS and its COLS. -/
theorem shape_fields {v : BitVec 15} {q r c : Nat} (hv : v.toNat = 64 * q + 8 * r + c) (hr : r < 8) (hc : c < 8) :
    shKind v = q / 32 ∧ shFmt v = q / 4 % 8 ∧ shRows v = r ∧ shCols v = c := by
  rw [shKind, shFmt, shRows, shCols, hv]
  omega

theorem swapShape_fields (v : BitVec 15) : shKind (swapShape v) = shKind v ∧ shFmt (swapShape v) = shFmt v
    ∧ shRows (swapShape v) = shCols v ∧ shCols (swapShape v) = shRows v := by
  have hrows : shRows v < 8 := Nat.mod_lt _ (by decide)
  have hcols : shCols v < 8 := Nat.mod_lt _ (by decide)
  have hv : v.toNat = 64 * (v.toNat / 64) + 8 * shRows v + shCols v := by rw [shRows, shCols]; omega
  have hswap : (swapShape v).toNat = 64 * (v.toNat / 64) + 8 * shCols v + shRows v := by
    have := v.isLt
    rw [swapShape, BitVec.toNat_ofNat, Nat.mod_eq_of_lt (by omega), Nat.mul_comm, Nat.mul_comm (shCols v)]
  obtain ⟨hkind, hfmt, -, -⟩ := shape_fields hv hrows hcols
  obtain ⟨hkind', hfmt', hrows', hcols'⟩ := shape_fields hswap hcols hrows
  exact ⟨hkind'.trans hkind.symm, hfmt'.trans hfmt.symm, hrows', hcols'⟩

/-- Rows and columns exchanged. -/
def transposed (t : Tile) : Tile := tileFrom fun i j => tileElem t j i

theorem tileWord_transposed (t : Tile) (i j : Fin 8) : tileWord (transposed t) (8 * j.val + i.val) = tileWord t (8 * i.val + j.val) := by
  rw [transposed, tileWord_tileFrom _ j.isLt i.isLt, tileElem_eq]

/-! ## The instructions -/

section
variable {s : State} {d a : Fin 32} {n k : Fin 8} {v : Fin 16} (hp : s.pair = none)
include hp

theorem exec_tset_unclaimed (i : BitVec 15) (hd : hasTile s.fib d = false) : exec (.tset d i) s = .next (trapsWith s 9 (unclaimed d.val)) :=
  performSeq_fails (writeShape_unclaimed _ hd) hp

theorem exec_az_unclaimed (hn : hasAcc s.fib n = false) : exec (.az n) s = .next (trapsWith s 9 (unclaimed (0x40 + n.val))) :=
  performSeq_fails (run_bind_error (needAcc_unclaimed hn)) hp

theorem exec_az (hn : hasAcc s.fib n = true) : exec (.az n) s = .next (goOn (newAcc s n (vecOf fun _ => 0))) :=
  done_of_unit (run_bind_ok (needAcc_claimed hn)) hp

theorem exec_tmovVt (ha : goodTile s a = true) (hv : openV s.fib v = true) :
    exec (.tmovVt v a k) s = .next (doneV s v (vecOf fun l : Fin 16 => tileWord (tileOf s a) (16 * k.val + l.val))) := by
  have hwords : (fun l : Fin 16 => BitVec.ofNat 32 (tileNat (tileOf s a) (64 * k.val + 4 * l.val) 4))
      = fun l : Fin 16 => tileWord (tileOf s a) (16 * k.val + l.val) := funext fun l => by
    rw [show 64 * k.val + 4 * l.val = 4 * (16 * k.val + l.val) by omega, ofNat_tileNat_word]
  rw [← hwords]
  exact done_of_resultV ((run_bind_ok (needTile_claimed (hasTile_of_good ha))).trans (run_bind_ok (rdTile_good ha))) hp hv

variable (hd : hasTile s.fib d = true)
include hd

theorem exec_tset_invalid {i : BitVec 15} (hi : shapeOk i.toNat = false) :
    exec (.tset d i) s = .next (trapsWith s 9 (BitVec.ofNat 64 (0x500 + d.val))) :=
  performSeq_fails (writeShape_invalid hd hi) hp

theorem exec_tset {i : BitVec 15} (hi : shapeOk i.toNat = true) : exec (.tset d i) s = .next (goOn (setShape s d i)) := by
  have hrun := writeShape_valid hd hi
  rw [BitVec.ofNat_toNat, BitVec.setWidth_eq] at hrun
  exact done_of_unit hrun hp

theorem exec_tsetReg {r : SReg} (hr : plainS s.fib r = true) (hi : shapeOk ((regVal s.fib r).toNat % 32768) = true) :
    exec (.tsetReg d r) s = .next (goOn (setShape s d ((regVal s.fib r).setWidth 15))) := by
  have hlow : BitVec.ofNat 15 ((regVal s.fib r).toNat % 32768) = (regVal s.fib r).setWidth 15 := by
    apply BitVec.eq_of_toNat_eq
    rw [BitVec.toNat_ofNat, BitVec.toNat_setWidth]
    exact Nat.mod_mod _ _
  rw [← hlow]
  exact done_of_unit ((run_bind_ok (needTile_claimed hd)).trans <| (run_bind_ok (rd_of_plain hr)).trans (writeShape_valid hd hi)) hp

theorem exec_tz : exec (.tz d) s = .next (goOn (newTile s d 0)) := done_of_unit (run_bind_ok (needTile_claimed hd)) hp

theorem exec_tmovTv (hv : plainV s.fib v = true) : exec (.tmovTv d v k) s =
    .next (goOn (putTile s d (tilePut (tileOf s d) (512 * k.val) 512 (natOf (laneBytes s.fib.v[v]))))) :=
  done_of_unit ((run_bind_ok (needTile_claimed hd)).trans <| (run_bind_ok (rdV_of_plain hv)).trans <|
    (run_bind_ok (run_oldTile d s)).trans (run_wrTile_part ..)) hp

theorem exec_tmov (ha : goodTile s a = true) :
    exec (.tmov d a) s = .next (goOn (setShape (newTile s d (tileOf s a)) d s.fib.tshape[a])) :=
  done_of_unit ((run_bind_ok (needTile_claimed hd)).trans <| (run_bind_ok (needTile_claimed (hasTile_of_good ha))).trans <|
    (run_bind_ok (rdTile_good ha)).trans <| (run_bind_ok (run_theFib s)).trans <| (run_bind_ok (run_wrTile_whole ..)).trans (run_wrShape ..)) hp

theorem exec_ttr_shape (ha : hasTile s.fib a = true) (h5 : shKind s.fib.tshape[a] ≠ 5) (h6 : shKind s.fib.tshape[a] ≠ 6) :
    exec (.ttr d a) s = .next (trapsWith s 9 (BitVec.ofNat 64 (0x300 + a.val))) := by
  have hshape : (isKind 5 s.fib.tshape[a] || isKind 6 s.fib.tshape[a]) = false := by rw [isKind_of_ne h5, isKind_of_ne h6]; rfl
  exact performSeq_fails ((run_bind_ok (needTile_claimed hd)).trans <| (run_bind_ok (needTile_claimed ha)).trans <|
    run_bind_error (needShape_failed hshape)) hp

theorem exec_ttr (ha : goodTile s a = true) (hk : shKind s.fib.tshape[a] = 5 ∨ shKind s.fib.tshape[a] = 6) :
    exec (.ttr d a) s = .next (goOn (setShape (newTile s d (transposed (tileOf s a))) d (swapShape s.fib.tshape[a]))) := by
  have hshape : (isKind 5 s.fib.tshape[a] || isKind 6 s.fib.tshape[a]) = true := Bool.or_eq_true_iff.2 (hk.imp isKind_of_eq isKind_of_eq)
  exact done_of_unit ((run_bind_ok (needTile_claimed hd)).trans <| (run_bind_ok (needTile_claimed (hasTile_of_good ha))).trans <|
    (run_bind_ok (needShape_passed hshape)).trans <| (run_bind_ok (rdTile_good ha)).trans <| (run_bind_ok (run_theFib s)).trans <|
    (run_bind_ok (run_wrTile_whole ..)).trans (run_wrShape ..)) hp

end

/-- Settles O30: the run of each instruction, then the words of the tile that `tmov.tv` or `ttr` leaves and the fields of the transposed shape. -/
theorem tilesSetAndMove : Obligations.TilesSetAndMove := by
  unfold Obligations.TilesSetAndMove
  refine fun s d a n k r v i hp => ⟨fun hd => ?_, exec_az_unclaimed hp, performSeq_unclaimed hp, fun hd => ?_, exec_az hp, exec_tmovVt hp⟩
  · have unclaimed {f : Unit → M Unit} := performSeq_unclaimed (f := f) hp hd
    exact ⟨exec_tset_unclaimed hp i hd, unclaimed, unclaimed, unclaimed, unclaimed, unclaimed⟩
  · refine ⟨exec_tset_invalid hp hd, exec_tset hp hd, exec_tsetReg hp hd, exec_tz hp hd, fun hv => ⟨_, exec_tmovTv hp hd hv, ?_⟩,
      exec_tmov hp hd, exec_ttr_shape hp hd, fun ha hk => ⟨_, _, exec_ttr hp hd ha hk, ?_⟩⟩
    · exact tileWord_strip (tileOf s d) s.fib.v[v] k
    · exact ⟨tileWord_transposed _, fun j => tileWord_tileFrom_high _ j.val, swapShape_fields _⟩

end Sys2Proof
end

