-- ==== Sys2Proof/Proofs/TileLines.lean ====
section
/-!
SUPPORT. O31: `tld` and `tst` (R189, R193). The lines of a shape in the 512 bytes, a tile that is filled line by line, and the lines of an
access resolved, read and stored one after the other.
-/
namespace Sys2Proof
open Machine Safety

/-! ## Bytes of a line -/

/-- Byte i of a number that is given by its bytes. -/
theorem ofNat_natOf_byte (l : List Byte) (i : Nat) : BitVec.ofNat 8 (natOf l / 2 ^ (8 * i)) = nth l i 0 := by
  rw [Nat.pow_mul 2 8, ← natOf_drop l i, nth, ← List.head?_drop]
  cases hrest : l.drop i with
  | nil => rfl
  | cons b r =>
    apply BitVec.eq_of_toNat_eq
    rw [BitVec.toNat_ofNat, natOf, List.head?_cons, Option.getD_some]
    have := b.isLt
    omega

theorem bytesOf_eq_map (n v : Nat) : bytesOf n v = (List.range n).map fun i => BitVec.ofNat 8 (v / 2 ^ (8 * i)) := by
  induction n generalizing v with
  | zero => rfl
  | succ n ih =>
    rw [bytesOf, ih, List.range_succ_eq_map, List.map_cons, List.map_map, Nat.mul_zero, Nat.pow_zero, Nat.div_one]
    refine congrArg _ (List.map_congr_left fun i _ => ?_)
    rw [Function.comp_apply, Nat.div_div_eq_div_mul, Nat.mul_succ, Nat.pow_add, Nat.mul_comm]

/-- The len bytes from byte o of a tile. -/
def lineBytes (t : Tile) (o len : Nat) : List Byte := (List.range len).map fun i => tileByte t (o + i)

theorem lineBytes_length (t : Tile) (o len : Nat) : (lineBytes t o len).length = len := by simp [lineBytes]

theorem bytesOf_tileNat (t : Tile) (o len : Nat) : bytesOf len (tileNat t o len) = lineBytes t o len := by
  rw [bytesOf_eq_map]
  refine List.map_congr_left fun i hi => BitVec.eq_of_getLsbD_eq fun j hj => ?_
  have hin : 8 * i + j < 8 * len := by have := List.mem_range.1 hi; omega
  rw [tileNat, tileByte, BitVec.getLsbD_ofNat, BitVec.getLsbD_extractLsb', Nat.testBit_div_two_pow, Nat.testBit_mod_two_pow,
    Nat.testBit_div_two_pow, Nat.add_comm j, decide_eq_true hin, Bool.true_and, show 8 * i + j + 8 * o = 8 * (o + i) + j by omega]
  rfl

/-! ## The lines of a shape (R189) -/

/-- How many lines of a shape are valid, how far apart they lie in the tile, and the bytes of one. -/
def lineCount (v : BitVec 15) : Nat := (tileLines v).1
def lineStep (v : BitVec 15) : Nat := (tileLines v).2.1
def lineLen (v : BitVec 15) : Nat := (tileLines v).2.2

/-- The lines of a kind that R188 names: each has bytes and lies within the 512 of the tile, and none meets the next. -/
theorem tileLines_fit {v : BitVec 15} (h1 : 1 ≤ shKind v) (h8 : shKind v ≤ 8) :
    0 < lineLen v ∧ (∀ l, l < lineCount v → lineStep v * l + lineLen v ≤ 512) ∧ (1 < lineCount v → lineLen v ≤ lineStep v) := by
  have hrows : shRows v < 8 := Nat.mod_lt _ (by decide)
  have hcols : shCols v < 8 := Nat.mod_lt _ (by decide)
  unfold lineLen lineCount lineStep tileLines
  have hmeta : 0 < (if shFmt v = 0 then 24 else 12) ∧ (if shFmt v = 0 then 24 else 12) ≤ 24 := by split <;> decide
  split
  case h_9 => interval_cases shKind v <;> contradiction
  all_goals refine ⟨?_, fun l hl => ?_, fun h => ?_⟩ <;> dsimp only at * <;> omega

/-! ## A tile that is filled line by line (R193) -/

section
variable {step len : Nat}

/-- The lines from l on fit: each has len bytes and lies within the tile, and none meets the next. -/
def linesFit (step len l : Nat) (bs : List (List Byte)) : Prop :=
  (∀ b ∈ bs, b.length = len) ∧ (∀ k, k < bs.length → step * (l + k) + len ≤ 512) ∧ (1 < bs.length → len ≤ step)

theorem linesFit_cons {l : Nat} {b : List Byte} {bs : List (List Byte)} (h : linesFit step len l (b :: bs)) :
    b.length = len ∧ 8 * step * l + 8 * len ≤ 4096 ∧ (∀ k, k < bs.length → step * l + len ≤ step * (l + 1 + k)) ∧ linesFit step len (l + 1) bs := by
  obtain ⟨hlen, hfit, hgap⟩ := h
  rw [List.length_cons] at hfit hgap
  have h0 : step * l + len ≤ 512 := hfit 0 (by omega)
  refine ⟨hlen b List.mem_cons_self, by rw [Nat.mul_assoc]; omega, fun k hk => ?_,
    fun x hx => hlen x (List.mem_cons_of_mem _ hx), fun k hk => ?_, fun h => hgap (by omega)⟩
  · have hstep : len ≤ step := hgap (by omega)
    have : step * (l + 1) ≤ step * (l + 1 + k) := Nat.mul_le_mul_left _ (by omega)
    rw [Nat.mul_succ] at this
    omega
  · rw [Nat.add_assoc, Nat.add_comm 1]; exact hfit (k + 1) (by omega)

/-- A byte of a line. -/
theorem tileByte_fillTile_in : ∀ (bs : List (List Byte)) (l : Nat), linesFit step len l bs → ∀ k i, k < bs.length → i < len →
    tileByte (fillTile step l bs) (step * (l + k) + i) = nth (nth bs k []) i 0
  | b :: bs, l, h, k, i, hk, hi => by
    obtain ⟨hb, hfit, hnext, hrest⟩ := linesFit_cons h
    rw [fillTile, hb, tileByte]
    cases k with
    | zero =>
      rw [Nat.add_zero, extractLsb'_tilePut_in _ _ hfit (by rw [Nat.mul_assoc]; omega) (by rw [Nat.mul_assoc]; omega), Nat.mul_add, Nat.mul_assoc,
        Nat.add_sub_cancel_left]
      exact ofNat_natOf_byte b i
    | succ k =>
      have hk' : k < bs.length := Nat.lt_of_succ_lt_succ hk
      have hbeyond := hnext k hk'
      rw [show l + (k + 1) = l + 1 + k by omega, extractLsb'_tilePut_out _ _ hfit (.inr (by rw [Nat.mul_assoc]; omega)), nth_cons_succ]
      exact tileByte_fillTile_in bs (l + 1) hrest k i hk' hi

/-- A byte outside every line. -/
theorem tileByte_fillTile_out {j : Nat} : ∀ (bs : List (List Byte)) (l : Nat), linesFit step len l bs →
    (∀ k, k < bs.length → j < step * (l + k) ∨ step * (l + k) + len ≤ j) → tileByte (fillTile step l bs) j = 0
  | [], _, _, _ => BitVec.extractLsb'_zero ..
  | b :: bs, l, h, hj => by
    obtain ⟨hb, hfit, -, hrest⟩ := linesFit_cons h
    have h0 : j < step * l ∨ step * l + len ≤ j := hj 0 (Nat.succ_pos _)
    rw [fillTile, hb, tileByte, extractLsb'_tilePut_out _ _ hfit (by rw [Nat.mul_assoc]; omega)]
    refine tileByte_fillTile_out bs (l + 1) hrest fun k hk => ?_
    rw [show l + 1 + k = l + (k + 1) by omega]
    exact hj (k + 1) (Nat.succ_lt_succ hk)

end

/-! ## Resolving, reading and storing the lines (R193) -/

/-- An access that resolves passes the checks that come before translation. -/
theorem checkOnly_of_resolve {s t : State} {sg : Fin 8} {o : Word} {n al need k : Nat} {r : List (Nat × Nat)}
    (h : resolve sg o n al need k s = .ok (r, t)) : checkOnly sg o n al need s = .ok ((), s) := by
  rw [resolve, run_bind_ok (run_get s)] at h
  rw [checkOnly, run_bind_ok (run_get s)]
  cases hf : segFault s s.fib.seg[sg] o n al need with
  | some e => simp only [hf] at h; cases h
  | none =>
    simp only [hf] at h ⊢
    by_cases hc : s.fib.seg[sg].cls = 3
    · rw [if_neg (by rw [hc]; decide), if_neg (by rw [hc]; decide)] at h
      rw [if_pos hc]
      split at h
      · cases h
      · next hr => exact congrFun (if_neg hr) s
    · rw [if_neg hc]; rfl

theorem loadAll_readable {s : State} {a n : Nat} (o : Word) (h : readable s a n false = true) :
    loadAll o false [(a, n)] s = .ok (visible s a n false, readPast s a n none) := by
  have hspan : loadSpan a n o 0 false true s = .ok (visible s a n false, readPast s a n none) := loadSpan_readable (acq := none) o 0 true h
  refine (run_bind_ok hspan).trans ?_
  rw [loadSpans, run_bind_ok (run_pure _ _), run_pure, List.append_nil]

theorem storeAll_storable {s : State} {a : Nat} {bs : List Byte} (o : Word) (hne : 0 < bs.length) (hfit : a % 64 + bs.length ≤ 64)
    (hs : storable s a = true) : storeAll o [(a, bs.length)] bs s = .ok ((), buffered s a bs) := by
  have hback : (isDpa a && !backed s a) = false := by
    rcases (Bool.or_eq_true ..).mp hs with h | h
    · rw [Bool.not_eq_true' .. |>.mp h]; rfl
    · rw [h]; exact Bool.and_false _
  rw [storeAll, storeSpans, run_bind_ok (run_get s), if_neg (by simp [hback]), run_bind_ok (run_change _ s), List.take_length]
  exact congrArg (fun u => Except.ok ((), u)) (storeIn_block (List.ne_nil_of_length_pos hne) hfit)

section
variable {s : State} {sg : Fin 8} {len al need kind : Nat} {off : Nat → Word} {loc : Nat → Nat} {ls : List Nat}

section
variable (h : ∀ l ∈ ls, resolve sg (off l) len al need kind s = .ok ([(loc l, len)], s))
include h

theorem checkLines_of_resolve : checkLines sg len al need (ls.map off) s = .ok ((), s) := by
  induction ls with
  | nil => rfl
  | cons l ls ih =>
    rw [List.map_cons, checkLines, run_bind_ok (checkOnly_of_resolve (h l List.mem_cons_self))]
    exact ih fun k hk => h k (List.mem_cons_of_mem _ hk)

theorem resolveLines_of_resolve :
    resolveLines sg len al need kind (ls.map off) s = .ok (ls.map fun l => (off l, [(loc l, len)]), s) := by
  induction ls with
  | nil => rfl
  | cons l ls ih =>
    rw [List.map_cons, resolveLines, run_bind_ok (h l List.mem_cons_self), run_bind_ok (ih fun k hk => h k (List.mem_cons_of_mem _ hk))]
    rfl

end

/-- Lines whose reads leave the state as it is. -/
theorem loadLines_readable (h : ∀ l ∈ ls, readable s (loc l) len false = true ∧ readPast s (loc l) len none = s) :
    loadLines (ls.map fun l => (off l, [(loc l, len)])) s = .ok (ls.map fun l => visible s (loc l) len false, s) := by
  induction ls with
  | nil => rfl
  | cons l ls ih =>
    obtain ⟨hread, hpast⟩ := h l List.mem_cons_self
    have hload := loadAll_readable (off l) hread
    rw [hpast] at hload
    rw [List.map_cons, loadLines, run_bind_ok hload, run_bind_ok (ih fun k hk => h k (List.mem_cons_of_mem _ hk))]
    rfl

end

theorem sbMerge_length (c : Core) (block : Nat) (w : SbWrite) : (sbMerge c block w).sb.length ≤ c.sb.length + 1 := by
  by_cases ho : c.sb.any (fun e => e.block == block && !e.closed) = true
  · rw [sbMerge_open ho, List.length_map]; omega
  · rw [sbMerge_opens ho, List.length_append, List.length_singleton]

/-- A store into a buffer that is not full takes one entry at most, and no location is less storable after it. -/
theorem buffered_with_room {s : State} {a : Nat} (bs : List Byte) (h : (getCore s s.focus.1).sb.length < 32) :
    (getCore (buffered s a bs) (buffered s a bs).focus.1).sb.length ≤ (getCore s s.focus.1).sb.length + 1
      ∧ ∀ b, storable (buffered s a bs) b = storable s b := by
  obtain ⟨w, -, -, hw⟩ := buffered_of_room (bs := bs) (.inr h)
  rw [hw, setCore_focus, getCore_setCore_same]
  exact ⟨sbMerge_length .., fun b => rfl⟩

/-- The lines of a tile at their locations in the store buffer, in the order of the list. -/
def bufferedLines (t : Tile) (step len : Nat) (loc : Nat → Nat) (ls : List Nat) (s : State) : State :=
  ls.foldl (fun u l => buffered u (loc l) (lineBytes t (step * l) len)) s

theorem bufferedLines_pair (t : Tile) (step len : Nat) (loc : Nat → Nat) (ls : List Nat) (s : State) :
    (bufferedLines t step len loc ls s).pair = s.pair := by
  induction ls generalizing s with
  | nil => rfl
  | cons l ls ih => exact (ih _).trans (buffered_pair ..)

/-- n lines from line l on, each within one block, and a buffer with room for an entry for each. -/
theorem storeLines_storable (t : Tile) {step len : Nat} {off : Nat → Word} {loc : Nat → Nat} (hlen : 0 < len) :
    ∀ (n l : Nat) (u : State), (getCore u u.focus.1).sb.length + n ≤ 32 →
      (∀ k ∈ List.range' l n, storable u (loc k) = true ∧ loc k % 64 + len ≤ 64) →
      storeLines t step len l ((List.range' l n).map fun k => (off k, [(loc k, len)])) u
        = .ok ((), bufferedLines t step len loc (List.range' l n) u)
  | 0, _, _, _, _ => rfl
  | n + 1, l, u, hroom, h => by
    rw [List.range'_succ] at h ⊢
    obtain ⟨hs, hfit⟩ := h l List.mem_cons_self
    have hbytes := lineBytes_length t (step * l) len
    obtain ⟨hsb, hsame⟩ := buffered_with_room (a := loc l) (lineBytes t (step * l) len) (show (getCore u u.focus.1).sb.length < 32 by omega)
    have hstore := storeAll_storable (bs := lineBytes t (step * l) len) (off l) (by omega) (by omega) hs
    rw [hbytes] at hstore
    rw [List.map_cons, storeLines, bytesOf_tileNat, run_bind_ok hstore]
    exact storeLines_storable t hlen n (l + 1) _ (by omega) fun k hk => by
      rw [hsame]
      exact h k (List.mem_cons_of_mem _ hk)

/-! ## The instructions -/

theorem lineAlign_eq (v : BitVec 15) : lineAlign v = if shKind v = 5 ∨ shKind v = 6 then 4 else 1 :=
  if_congr (by rw [Bool.or_eq_true, isKind, isKind, beq_iff_eq, beq_iff_eq]) rfl rfl

theorem shape_set {v : BitVec 15} (h : 1 ≤ shKind v) : (!isKind 0 v) = true := by rw [isKind_of_ne (by omega)]; rfl

section
variable {s : State} {m : CRef} (ha : plainS s.fib m.a = true)
include ha

theorem rdRefRaw_of_plain : rdRefRaw m s = .ok (offC s.fib m, s) := by
  obtain ⟨harmed, -⟩ := Bool.and_eq_true_iff.1 ha
  have hraw : rdRaw m.a s = .ok (regVal s.fib m.a, s) := by
    rw [rdRaw, run_bind_ok (run_theFib s), beq_iff_eq.1 harmed]; rfl
  rw [rdRefRaw, run_bind_ok hraw]; rfl

theorem needClean_of_plain : needClean m.a s = .ok ((), s) := by
  obtain ⟨harmed, hsound⟩ := Bool.and_eq_true_iff.1 ha
  rw [needClean, run_bind_ok (run_theFib s), beq_iff_eq.1 harmed]
  exact seeReg_of_sound _ hsound

/-- The memory checks of the lines and their translation, then the poison of the base register (R190, R193). -/
theorem run_resolvedLines {sg : Fin 8} {len al need kind : Nat} {off : Nat → Word} {loc : Nat → Nat} {ls : List Nat}
    (h : ∀ l ∈ ls, resolve sg (off l) len al need kind s = .ok ([(loc l, len)], s)) (f : List (Word × List (Nat × Nat)) → M Unit) :
    (checkLines sg len al need (ls.map off) >>= fun _ => resolveLines sg len al need kind (ls.map off) >>= fun r =>
      needClean m.a >>= fun _ => f r) s = f (ls.map fun l => (off l, [(loc l, len)])) s :=
  (run_bind_ok (checkLines_of_resolve h)).trans <| (run_bind_ok (resolveLines_of_resolve h)).trans (run_bind_ok (needClean_of_plain ha))

end

/-- A tile that has no shape fails the check of its shape (R187, reason 3). -/
theorem performSeq_unset {s : State} {d : Fin 32} {f : Unit → M Unit} (hp : s.pair = none) (hd : hasTile s.fib d = true)
    (h0 : shKind s.fib.tshape[d] = 0) :
    performSeq (needTile d >>= fun _ => needShape d (!isKind 0 ·) >>= f) s = .next (trapsWith s 9 (BitVec.ofNat 64 (0x300 + d.val))) :=
  performSeq_fails ((run_bind_ok (needTile_claimed hd)).trans (run_bind_error (needShape_failed (by rw [isKind_of_eq h0]; rfl)))) hp

/-- Offset of line l of a tile memory operand (R193). -/
def lineOff (s : State) (m : CRef) (pitch : BitVec 21) (l : Nat) : Word := offC s.fib m + BitVec.ofNat 64 (l * pitch.toNat)

section
variable {s : State} {d : Fin 32} {m : CRef} {pitch : BitVec 21} {loc : Nat → Nat} (hp : s.pair = none) (ha : plainS s.fib m.a = true)
  (hd : hasTile s.fib d = true) (h1 : 1 ≤ shKind s.fib.tshape[d])
include ha hd h1

/-- What `tld` and `tst` do first (R190): the claim, the shape, and the base of their lines, whose poison is tested later. -/
theorem run_linesOf (f : Word → Fib → M Unit) :
    (needTile d >>= fun _ => needShape d (!isKind 0 ·) >>= fun _ => rdRefRaw m >>= fun o => theFib >>= f o) s = f (offC s.fib m) s.fib s :=
  (run_bind_ok (needTile_claimed hd)).trans <| (run_bind_ok (needShape_passed (shape_set h1))).trans <|
    (run_bind_ok (rdRefRaw_of_plain ha)).trans (run_bind_ok (run_theFib s))

include hp

theorem exec_tld
    (hres : ∀ l ∈ List.range (lineCount s.fib.tshape[d]), resolve m.sg (lineOff s m pitch l) (lineLen s.fib.tshape[d])
      (lineAlign s.fib.tshape[d]) rightRd accLoad s = .ok ([(loc l, lineLen s.fib.tshape[d])], s))
    (hread : ∀ l ∈ List.range (lineCount s.fib.tshape[d]), readable s (loc l) (lineLen s.fib.tshape[d]) false = true
      ∧ readPast s (loc l) (lineLen s.fib.tshape[d]) none = s) :
    exec (.tld d m pitch) s = .next (goOn (newTile s d (fillTile (lineStep s.fib.tshape[d]) 0
      ((List.range (lineCount s.fib.tshape[d])).map fun l => visible s (loc l) (lineLen s.fib.tshape[d]) false)))) :=
  done_of_unit ((run_linesOf ha hd h1 _).trans <| (run_resolvedLines ha hres _).trans <|
    (run_bind_ok (loadLines_readable hread)).trans (run_wrTile_whole ..)) hp

theorem exec_tst (h8 : shKind s.fib.tshape[d] ≤ 8) (hsound : soundReg s.fib (0x100 + d.val) = true)
    (hroom : (getCore s s.focus.1).sb.length + lineCount s.fib.tshape[d] ≤ 32)
    (hres : ∀ l ∈ List.range (lineCount s.fib.tshape[d]), resolve m.sg (lineOff s m pitch l) (lineLen s.fib.tshape[d])
      (lineAlign s.fib.tshape[d]) rightWr accStore s = .ok ([(loc l, lineLen s.fib.tshape[d])], s))
    (hstore : ∀ l ∈ List.range (lineCount s.fib.tshape[d]), storable s (loc l) = true ∧ loc l % 64 + lineLen s.fib.tshape[d] ≤ 64) :
    exec (.tst m pitch d) s = .next (goOn (bufferedLines (tileOf s d) (lineStep s.fib.tshape[d]) (lineLen s.fib.tshape[d]) loc
      (List.range (lineCount s.fib.tshape[d])) s)) := by
  obtain ⟨hlen, -, -⟩ := tileLines_fit h1 h8
  have hgood : goodTile s d = true := Bool.and_eq_true_iff.2 ⟨hd, hsound⟩
  have hlines := storeLines_storable (tileOf s d) (step := lineStep s.fib.tshape[d]) (off := lineOff s m pitch) (loc := loc) hlen
    (lineCount s.fib.tshape[d]) 0 s hroom (by rwa [← List.range_eq_range'])
  rw [← List.range_eq_range'] at hlines
  exact done_of_unit ((run_linesOf ha hd h1 _).trans <| (run_resolvedLines ha hres _).trans <|
    (run_bind_ok (rdTile_good hgood)).trans hlines) ((bufferedLines_pair ..).trans hp)

end

/-- The bytes that `tld` leaves: line l at its tile offset, zero outside the lines. -/
theorem fillTile_lines {v : BitVec 15} (h1 : 1 ≤ shKind v) (h8 : shKind v ≤ 8) {f : Nat → List Byte} (hf : ∀ l, (f l).length = lineLen v) :
    let x := fillTile (lineStep v) 0 ((List.range (lineCount v)).map f)
    (∀ l i, l < lineCount v → i < lineLen v → tileByte x (lineStep v * l + i) = nth (f l) i 0)
      ∧ ∀ j, (∀ l, l < lineCount v → j < lineStep v * l ∨ lineStep v * l + lineLen v ≤ j) → tileByte x j = 0 := by
  obtain ⟨-, hwithin, hgap⟩ := tileLines_fit h1 h8
  have hcount : ((List.range (lineCount v)).map f).length = lineCount v := by rw [List.length_map, List.length_range]
  have hfit : linesFit (lineStep v) (lineLen v) 0 ((List.range (lineCount v)).map f) := by
    refine ⟨fun b hb => ?_, fun k hk => ?_, fun h => hgap (hcount ▸ h)⟩
    · obtain ⟨l, -, rfl⟩ := List.mem_map.1 hb
      exact hf l
    · rw [Nat.zero_add]; exact hwithin k (hcount ▸ hk)
  refine ⟨fun l i hl hi => ?_, fun j hj => tileByte_fillTile_out _ 0 hfit fun k hk => ?_⟩
  · have hbyte := tileByte_fillTile_in _ 0 hfit l i (hcount.symm ▸ hl) hi
    have hline : nth ((List.range (lineCount v)).map f) l [] = f l := by simp [nth, hl]
    rwa [Nat.zero_add, hline] at hbyte
  · rw [Nat.zero_add]; exact hj k (hcount ▸ hk)

/-- Settles O31: the run of each instruction, with the lines read (`exec_tld`) or stored (`exec_tst`) in turn, then the bytes of the tile that
the lines fill (`fillTile_lines`). -/
theorem tileLoadStore : Obligations.TileLoadStore := by
  unfold Obligations.TileLoadStore
  intro s d m pitch loc hp ha hd sh n step len off al
  have halign : lineAlign sh = al := lineAlign_eq sh
  refine ⟨fun h0 => ⟨performSeq_unset hp hd h0, performSeq_unset hp hd h0⟩, fun h1 h8 h => ?_, fun hsound h1 h8 hroom h => ?_⟩
  · rw [← halign] at h
    exact ⟨_, exec_tld hp ha hd h1 (fun l hl => (h l (List.mem_range.1 hl)).1) fun l hl => (h l (List.mem_range.1 hl)).2,
      fillTile_lines h1 h8 fun l => visible_length ..⟩
  · rw [← halign] at h
    exact exec_tst hp ha hd h1 h8 hsound hroom (fun l hl => (h l (List.mem_range.1 hl)).1) fun l hl => (h l (List.mem_range.1 hl)).2

end Sys2Proof
end

