-- ==== Sys2Proof/Proofs/StartEvents.lean ====
section
/-!
SUPPORT. The reset state and the events of power and of a start: O56, O57.
-/
namespace Sys2Proof
open Machine Safety

/-! ## The reset state -/

/-- After a cold start every core but the first of the device OS holds its walker alone. -/
theorem getCore_reset (g : Nat) : getCore State.reset g = if g = bootG then bootCore bootG else freshCore g := by
  by_cases h : g = bootG
  · subst h; rfl
  · have hl : look State.reset.cores g = none := by simp [State.reset, look, Ne.symm h]
    rw [getCore, hl, if_neg h]; rfl

theorem freshCore_walker (g : Nat) : (freshCore g).slots[(15 : Fin 16)] = { bound := true, ctx := walkerFib g } := by
  simp [freshCore]

theorem bootCore_walker (g : Nat) : (bootCore g).slots[(15 : Fin 16)] = { bound := true, ctx := walkerFib g } := by
  simp [bootCore, freshCore]

/-- Settles O57: the state is closed; what it says of every core is read off the one core listed and `freshCore`. -/
theorem resetState : Obligations.ResetState := by
  unfold Obligations.ResetState
  have hcores : ∀ g, (getCore State.reset g).slots[(15 : Fin 16)].bound = true
      ∧ (getCore State.reset g).slots[(15 : Fin 16)].ctx.steward = true
      ∧ (getCore State.reset g).sb = [] ∧ (getCore State.reset g).ready = [] ∧ (getCore State.reset g).cache = [] := by
    intro g
    rw [getCore_reset]
    split
    · rw [bootCore_walker]; exact ⟨rfl, rfl, rfl, rfl, rfl⟩
    · rw [freshCore_walker]; exact ⟨rfl, rfl, rfl, rfl, rfl⟩
  have hsteward : isStewardCluster State.reset (clusterOf State.reset.focus.1) = true := by decide
  have hlinks : ∀ l ∈ State.reset.links, l.state = 4 ∧ l.width = 0 ∧ l.rate = 0 ∧ l.tries = 0 := by decide
  have hboot : (getCore State.reset 192).slots[(0 : Fin 16)].bound = true := by
    rw [getCore_reset, if_pos rfl]; simp [bootCore]
  exact ⟨rfl, rfl, hsteward, rfl, rfl, rfl, rfl, rfl, hboot, hcores, rfl, rfl, rfl, rfl, rfl, rfl, rfl, hlinks, fun a => rfl, reset_memWf⟩

/-! ## Before the wipe -/

/-- The first thing that a start does: the steps of R376 up to the checks of step 1. -/
theorem performStart_going {s : State} {i : StartInputs} (hpow : s.power = true) (hstep : s.sstep ≠ 9) (hfail : s.failed = false) :
    performStart s i =
      let s1 := { startStep1 s with measured := i.firmware ++ i.config }
      if !(i.imageGood && i.configGood && keyHeld s) then failStart s1 1 false else
      let s3 := startStep3 s1 i
      if !i.trainGood then failStart s3 3 true else
      if s.cold && i.lifeCmd then changeLife s3 else
      let s6 := startStep6 (startStep5 s3 false) i
      if maskGood s6 then startStep9 s6 i else failStart s6 6 true := by
  rw [performStart, if_neg (by simp [hpow, hstep, hfail])]

section
variable {s : State} {i : StartInputs}

theorem performStart_idle (h : s.power = false ∨ s.sstep = 9 ∨ s.failed = true) : performStart s i = s := by
  rw [performStart, if_pos h]

variable (hpow : s.power = true) (hstep : s.sstep ≠ 9) (hfail : s.failed = false)
include hpow hstep hfail

theorem performStart_unverified (hbad : (i.imageGood && i.configGood && keyHeld s) = false) :
    performStart s i = failStart { startStep1 s with measured := i.firmware ++ i.config } 1 false := by
  rw [performStart_going hpow hstep hfail]; simp [hbad]

variable (himage : i.imageGood = true) (hconfig : i.configGood = true) (hkey : keyHeld s = true)
include himage hconfig hkey

theorem performStart_untrained (htrain : i.trainGood = false) :
    performStart s i = failStart (startStep3 { startStep1 s with measured := i.firmware ++ i.config } i) 3 true := by
  rw [performStart_going hpow hstep hfail]; simp [himage, hconfig, hkey, htrain]

variable (htrain : i.trainGood = true)
include htrain

theorem performStart_lifeChange (hlife : (s.cold && i.lifeCmd) = true) :
    performStart s i = changeLife (startStep3 { startStep1 s with measured := i.firmware ++ i.config } i) := by
  rw [performStart_going hpow hstep hfail]; simp [himage, hconfig, hkey, htrain, hlife]

end

/-- A start up to step 6. -/
def startedTo6 (s : State) (i : StartInputs) : State :=
  startStep6 (startStep5 (startStep3 { startStep1 s with measured := i.firmware ++ i.config } i) false) i

theorem performStart_reaches {s : State} {i : StartInputs} (hpow : s.power = true) (hstep : s.sstep ≠ 9) (hfail : s.failed = false)
    (himage : i.imageGood = true) (hconfig : i.configGood = true) (hkey : keyHeld s = true) (htrain : i.trainGood = true)
    (hlife : (s.cold && i.lifeCmd) = false) (hmask : maskGood (startedTo6 s i) = true) :
    performStart s i = startStep9 (startedTo6 s i) i := by
  rw [performStart_going hpow hstep hfail]
  rw [startedTo6] at hmask ⊢
  simp [himage, hconfig, hkey, htrain, hlife, hmask]

/-! ## A failed start -/

/-- A byte that each of a list of one-byte stores of 0 may clear. -/
theorem byteAt_clearBytes {α : Type} (loc : α → Nat) (l : List α) (s : State) (a : Nat) :
    byteAt (l.foldl (fun t n => writeNat t (loc n) 1 0) s) a = if ∃ n ∈ l, a = loc n then 0 else byteAt s a := by
  induction l generalizing s with
  | nil => simp
  | cons n l ih =>
    have hone : byteAt (writeNat s (loc n) 1 0) a = if a = loc n then 0 else byteAt s a := by
      split
      · next h => subst h; exact byteAt_setByte_same s (loc n) 0
      · next h => exact byteAt_setByte_ne s 0 h
    rw [List.foldl_cons, ih, hone]
    by_cases h1 : a = loc n <;> by_cases h2 : ∃ m ∈ l, a = loc m <;> simp [h1, h2]

theorem byteAt_writeZeros (s : State) (a n b : Nat) :
    byteAt (writeBytes s a (List.replicate n 0)) b = if a ≤ b ∧ b < a + n then 0 else byteAt s b := by
  split
  · next h =>
    obtain ⟨k, rfl⟩ := Nat.exists_eq_add_of_le h.1
    rw [byteAt_writeBytes_in _ _ _ _ (by simp; omega)]; simp
  · next h => exact byteAt_writeBytes_out _ _ (by simp; omega)

/-- Stores of one byte each change memory alone. -/
theorem clearBytes_eq {α : Type} (loc : α → Nat) (l : List α) (s : State) :
    l.foldl (fun t n => writeNat t (loc n) 1 0) s = { s with mem := (l.foldl (fun t n => writeNat t (loc n) 1 0) s).mem } := by
  induction l generalizing s with
  | nil => rfl
  | cons n l ih => rw [List.foldl_cons, ih, writeNat, writeBytes_eq s (loc n)]

/-- A cold start that stops at a step (R376). -/
theorem failStart_cold {s : State} {n : Nat} {b : Bool} (h : s.cold = true) :
    ∃ (p : Fin 8) (m : List Host.Cell), (b = false → p = 0)
      ∧ m = ((List.finRange 64).foldl (fun t i => writeNat t (winLoc (.port p) i + 0x14) 1 0) s).mem
      ∧ failStart s n b = { s with mem := m, sstep := n, failed := true, links := [{ id := .port p, state := 1, role := 1 }] } := by
  rw [failStart, clearBytes_eq]
  simp only [h, if_true]
  exact ⟨_, _, fun hb => by rw [hb]; rfl, rfl, rfl⟩

theorem failStart_warm {s : State} {n : Nat} {b : Bool} (h : s.cold = false) :
    (failStart s n b).sstep = 0 ∧ (failStart s n b).failed = false ∧ (failStart s n b).cold = true := by
  rw [failStart, clearBytes_eq]
  simp [h, trigger]

/-! ## What a start keeps and makes -/

theorem curOf_held (s : State) (held : List Nat) (h : Nat) (hc : s.cur = held.map fun g => (g, (0 : Byte))) :
    curOf s h ≠ 0 ↔ fusedOf s h ≠ 0 ∧ h ∉ held := by
  have hl : ∀ r : List Nat, look (r.map fun g => (g, (0 : Byte))) h = if h ∈ r then some 0 else none := by
    intro r
    induction r with
    | nil => rfl
    | cons g r ih =>
      rw [List.map_cons, look, ih]
      by_cases hg : g = h
      · simp [hg]
      · simp [hg, Ne.symm hg]
  rw [curOf, hc, hl]
  by_cases h1 : h ∈ held <;> simp [h1]

/-- The cores that a start holds back (R377). -/
def heldAt (s : State) (i : StartInputs) : List Nat := if s.cold then heldCores s i.failed else s.held

theorem present_iff {t : State} {held : List Nat} (h : Nat) (hc : t.cur = held.map fun g => (g, (0 : Byte))) :
    present t h = true ↔ h < Config.cores ∧ fusedOf t h ≠ 0 ∧ h ∉ held := by
  rw [present, Bool.and_eq_true, decide_eq_true_eq, bne_iff_ne, curOf_held t held h hc]

theorem mem_clusterCores (cl g : Nat) : g ∈ clusterCores cl ↔ g / 192 = cl := by
  simp only [clusterCores, List.mem_map, List.mem_range]
  constructor
  · rintro ⟨c, hc, rfl⟩; omega
  · rintro rfl; exact ⟨g % 192, Nat.mod_lt _ (by decide), by omega⟩

/-- The search of a range finds the least element that satisfies a predicate. -/
theorem find?_map_range {α : Type} (f : Nat → α) (n k : Nat) (p : α → Bool) (hk : k < n) (hp : p (f k) = true) (hb : ∀ j, j < k → p (f j) = false) :
    ((List.range n).map f).find? p = some (f k) := by
  rw [List.find?_eq_some_iff_getElem]
  refine ⟨hp, k, by simpa using hk, by simp, fun j hj => by simpa using hb j hj⟩

section
variable {t : State} {g : Nat} (hmask : clusterOf g ∈ t.mask) (hcore : g < Config.cores) (hthere : present t g = true)
  (hfirst : ∀ h, h < g → clusterOf h ∈ t.mask → present t h = false)
include hmask hcore hthere

omit hcore in
theorem maskGood_of_present : maskGood t = true := by
  simp only [maskGood, List.any_eq_true]
  exact ⟨clusterOf g, hmask, g, (mem_clusterCores _ _).2 rfl, hthere⟩

include hfirst

/-- The device OS begins on the lowest present core of the steward clusters. -/
theorem firstCore_eq : firstCore t = g := by
  have hcl : clusterOf g < Config.clusters := by simp only [clusterOf, Config.clusters, Config.cores] at *; omega
  have hin : (clusterCores (clusterOf g)).find? (fun h => present t h) = some g := by
    have hg : clusterOf g * 192 + g % 192 = g := by rw [clusterOf]; omega
    have := find?_map_range (fun c => clusterOf g * 192 + c) 192 (g % 192) (fun h => present t h) (Nat.mod_lt _ (by decide))
      (by simpa only [hg] using hthere) (fun j hj => hfirst _ (by omega) (by
        have : clusterOf (clusterOf g * 192 + j) = clusterOf g := by simp only [clusterOf] at *; omega
        rw [this]; exact hmask))
    rw [hg] at this; exact this
  have hbefore : ∀ cl, cl < clusterOf g → cl ∈ t.mask → (clusterCores cl).find? (fun h => present t h) = none := by
    intro cl hlt hm
    rw [List.find?_eq_none]
    intro h hh
    rw [mem_clusterCores] at hh
    subst hh
    simp [hfirst h (by simp only [clusterOf] at hlt; omega) hm]
  have hsplit : List.range Config.clusters = List.range (clusterOf g) ++ clusterOf g :: (List.range (Config.clusters - clusterOf g - 1)).map (clusterOf g + 1 + ·) := by
    have : Config.clusters = clusterOf g + ((Config.clusters - clusterOf g - 1) + 1) := by omega
    conv_lhs => rw [this, List.range_add, List.range_succ_eq_map]
    simp [Nat.add_assoc, Nat.add_comm 1, Function.comp_def]
  rw [firstCore, hsplit, List.filter_append, List.findSome?_append, List.filter_cons, if_pos (by simpa using hmask)]
  have hnone : ((List.range (clusterOf g)).filter fun cl => t.mask.contains cl).findSome? (fun cl => (clusterCores cl).find? fun g => present t g) = none := by
    rw [List.findSome?_eq_none_iff]
    intro cl hc
    simp only [List.mem_filter, List.mem_range, List.contains_iff_mem] at hc
    exact hbefore cl hc.1 hc.2
  rw [hnone, Option.none_or, List.findSome?_cons, hin]
  rfl

end

/-! ## Steps 5 to 9 -/

theorem loadImage_eq (s : State) (l : List (Nat × List Byte)) : loadImage s l = { s with mem := (loadImage s l).mem } := by
  rw [loadImage]
  induction l.filter (fun e => osPlace s e.1 e.2.length) generalizing s with
  | nil => rfl
  | cons e r ih => rw [List.foldl_cons, ih, writeBytes_eq s e.1]

theorem loadImage_one {s : State} {a : Nat} {b : List Byte} (h : osPlace s a b.length = true) : loadImage s [(a, b)] = writeBytes s a b := by
  rw [loadImage, List.filter_cons, if_pos h]; rfl

theorem trainedAs_unnamed {i : StartInputs} {id : LinkId} (role : BitVec 3) (h : ∀ e ∈ i.links, e.1 ≠ id) :
    trainedAs i id role = { id := id, state := 4, role := role } := by
  have hf : i.links.find? (fun e => e.1 == id) = none := by rw [List.find?_eq_none]; intro e he; simpa using h e he
  rw [trainedAs, hf]

theorem trainedAs_named {i : StartInputs} {id : LinkId} (role : BitVec 3) (h : ∃ e ∈ i.links, e.1 = id) :
    (trainedAs i id role).state = 2 ∧ ∃ e ∈ i.links, e.1 = id ∧ (trainedAs i id role).width = e.2.1 := by
  obtain ⟨e, he, hid⟩ := h
  obtain ⟨f, hf⟩ := Option.isSome_iff_exists.1 (List.find?_isSome (p := fun e => e.1 == id).2 ⟨e, he, beq_iff_eq.2 hid⟩)
  rw [trainedAs, hf]
  exact ⟨rfl, f, List.mem_of_find?_eq_some hf, by simpa using List.find?_some hf, rfl⟩

theorem trainedAs_fresh (i : StartInputs) (id : LinkId) (role : BitVec 3) : let l := trainedAs i id role
    l.id = id ∧ l.posted = [] ∧ l.reads = [] ∧ l.replay = [] ∧ l.txSeq = 0 ∧ l.rxSeq = 0 := by
  rw [trainedAs]; split <;> exact ⟨rfl, rfl, rfl, rfl, rfl, rfl⟩

/-- Every link of a start is a port or link of the configuration, trained (R355). -/
theorem mem_startStep6_links {s : State} {i : StartInputs} {l : Link} (h : l ∈ (startStep6 s i).links) : ∃ id role, l = trainedAs i id role := by
  simp only [startStep6, List.mem_append, List.mem_map] at h
  rcases h with ⟨r, -, rfl⟩ | ⟨w, -, rfl⟩ <;> exact ⟨_, _, rfl⟩

theorem startStep6_ids (s : State) (i : StartInputs) :
    (startStep6 s i).links.map (·.id) = (s.roles.filter fun r => r.2 != 0).map (fun r => .port r.1) ++ s.welts.map .welt := by
  have hid : ∀ id role, (trainedAs i id role).id = id := fun id role => (trainedAs_fresh i id role).1
  simp [startStep6, Function.comp_def, hid]

theorem mem_foundCxl {s : State} {i : StartInputs} (p : Fin 8) (n : Nat) :
    (p, n) ∈ foundCxl s i ↔ (p, n) ∈ i.cxl ∧ (getLink s (.port p)).state = 2 ∧ (getLink s (.port p)).role = 2 := by
  simp only [foundCxl, List.mem_flatMap, List.mem_finRange, true_and]
  constructor
  · rintro ⟨q, hq⟩
    split at hq
    · next h =>
      obtain ⟨hin, hp⟩ := List.mem_filter.1 hq
      have hp : p = q := by simpa using hp
      subst hp
      simpa [linkUp, hin] using h
    · simp at hq
  · rintro ⟨hin, hup, hrole⟩
    exact ⟨p, by simp [linkUp, hup, hrole, hin]⟩

/-- The devices stand in port order (R365). -/
theorem foundCxl_sorted (s : State) (i : StartInputs) : (foundCxl s i).Pairwise (fun x y => x.1 ≤ y.1) := by
  have hport : ∀ (p : Fin 8) (x : Fin 8 × Nat),
      x ∈ (if linkUp s (.port p) && (getLink s (.port p)).role == 2 then i.cxl.filter (·.1 == p) else []) → x.1 = p := by
    intro p x hx
    split at hx
    · simpa using (List.mem_filter.1 hx).2
    · simp at hx
  rw [foundCxl, List.pairwise_flatMap]
  refine ⟨fun p _ => List.Pairwise.imp_of_mem ?_ (List.pairwise_of_forall (fun _ _ => trivial)),
    (List.pairwise_lt_finRange 8).imp fun {p q} hpq x hx y hy => ?_⟩
  · intro x y hx hy _
    rw [hport p x hx, hport p y hy]
  · rw [hport p x hx, hport q y hy]; exact Nat.le_of_lt hpq

/-- Zeros leave the cells outside them. -/
theorem mem_writeZeros (s : State) (a n : Nat) (c : Host.Cell) :
    c ∈ (writeBytes s a (List.replicate n 0)).mem ↔ c ∈ s.mem ∧ ¬ (a ≤ c.1 ∧ c.1 < a + n) := by
  induction n generalizing s a with
  | zero => simp only [List.replicate_zero, writeBytes]; exact ⟨fun h => ⟨h, fun k => by omega⟩, fun h => h.1⟩
  | succ n ih =>
    have hone : c ∈ (setByte s a 0).mem ↔ c ∈ s.mem ∧ c.1 ≠ a := by simp [cellPut, blankByte, strike]
    rw [List.replicate_succ, writeBytes, ih, hone]
    constructor
    · rintro ⟨⟨h1, h2⟩, h3⟩; exact ⟨h1, by omega⟩
    · rintro ⟨h1, h2⟩; exact ⟨⟨h1, by omega⟩, by omega⟩

/-- Of the cells that outlive the wipe, the first step touches none (R380, R400). -/
theorem mem_startedTo6 {s : State} (i : StartInputs) (c : Host.Cell) : c ∈ (startedTo6 s i).mem ↔ c ∈ s.mem ∧ survives s false c.1 = true := by
  have hsig : survives s false c.1 = true → ¬ (swLoc 0x18000080 ≤ c.1 ∧ c.1 < swLoc 0x18000080 + 64) := by
    simp only [survives, Bool.or_eq_true, Bool.and_eq_true, decide_eq_true_eq]
    simp only [swLoc, Config.swBase, Config.nvmeBase]
    rintro (⟨h, -⟩ | ⟨⟨-, h1⟩, h2⟩) <;> omega
  have hmem : (startedTo6 s i).mem = (writeBytes s (swLoc 0x18000080) (List.replicate 64 0)).mem.filter fun c => survives s false c.1 := by
    simp [startedTo6, startStep6, startStep5, startStep3, startStep1, survives]
  rw [hmem, List.mem_filter, mem_writeZeros]
  exact ⟨fun ⟨⟨h1, _⟩, h2⟩ => ⟨h1, h2⟩, fun ⟨h1, h2⟩ => ⟨⟨h1, hsig h2⟩, h2⟩⟩

section
variable (s : State) (i : StartInputs)

@[simp] theorem startedTo6_mask : (startedTo6 s i).mask = s.mask := by simp [startedTo6, startStep6, startStep5, startStep3, startStep1]
@[simp] theorem startedTo6_fused : (startedTo6 s i).fused = s.fused := by simp [startedTo6, startStep6, startStep5, startStep3, startStep1]
@[simp] theorem startedTo6_power : (startedTo6 s i).power = s.power := by simp [startedTo6, startStep6, startStep5, startStep3, startStep1]
@[simp] theorem startedTo6_roles : (startStep5 (startStep3 { startStep1 s with measured := i.firmware ++ i.config } i) false).roles = s.roles := by
  simp [startStep5, startStep3, startStep1]
@[simp] theorem startedTo6_welts : (startStep5 (startStep3 { startStep1 s with measured := i.firmware ++ i.config } i) false).welts = s.welts := by
  simp [startStep5, startStep3, startStep1]
@[simp] theorem startedTo6_swapBlocks : (startedTo6 s i).swapBlocks = s.swapBlocks := by
  simp [startedTo6, startStep6, startStep5, startStep3, startStep1]
@[simp] theorem startedTo6_held : (startedTo6 s i).held = heldAt s i := by
  simp [startedTo6, startStep6, startStep5, startStep3, startStep1, heldAt, heldCores, fusedOf]
@[simp] theorem startedTo6_cur : (startedTo6 s i).cur = (heldAt s i).map fun g => (g, (0 : Byte)) := by
  simp [startedTo6, startStep6, startStep5, startStep3, startStep1, heldAt, heldCores, fusedOf]
@[simp] theorem startedTo6_measured : (startedTo6 s i).measured = i.firmware ++ i.config := by
  simp [startedTo6, startStep6, startStep5, startStep3]

/-- The step that follows the wipe finds no translation, command, waiter, kernel or queue (R376). -/
theorem startedTo6_empty : (startedTo6 s i).failed = false ∧ (startedTo6 s i).tlbs = [] ∧ (startedTo6 s i).cmds = [] ∧ (startedTo6 s i).enrol = []
    ∧ (startedTo6 s i).kerns = [] ∧ (startedTo6 s i).queues = [] ∧ (startedTo6 s i).pair = none := by
  simp [startedTo6, startStep6, startStep5]

theorem startedTo6_poison (a : Nat) : a ∈ (startedTo6 s i).poison ↔ a ∈ s.poison ∧ Config.nvmeBase ≤ a := by
  have hpoison : (startedTo6 s i).poison = s.poison.filter fun a => Config.nvmeBase ≤ a && !false := by
    simp [startedTo6, startStep6, startStep5, startStep3, startStep1]
  rw [hpoison]; simp

theorem present_startedTo6 (h : Nat) : present (startedTo6 s i) h = true ↔ h < Config.cores ∧ fusedOf s h ≠ 0 ∧ h ∉ heldAt s i := by
  rw [present_iff h (startedTo6_cur s i), fusedOf, startedTo6_fused, ← fusedOf]

end

section
variable (u : State) (i : StartInputs)

@[simp] theorem startStep9_mem : (startStep9 u i).mem = (loadImage u i.image).mem := rfl
@[simp] theorem startStep9_cxl : (startStep9 u i).cxl = foundCxl u i := rfl
@[simp] theorem startStep9_sstep : (startStep9 u i).sstep = 9 := rfl
@[simp] theorem startStep9_poison : (startStep9 u i).poison = u.poison := by
  show (loadImage u i.image).poison = _; rw [loadImage_eq]
@[simp] theorem startStep9_links : (startStep9 u i).links = u.links := by
  show (loadImage u i.image).links = _; rw [loadImage_eq]
@[simp] theorem startStep9_power : (startStep9 u i).power = u.power := by
  show (loadImage u i.image).power = _; rw [loadImage_eq]
@[simp] theorem startStep9_held : (startStep9 u i).held = u.held := by
  show (loadImage u i.image).held = _; rw [loadImage_eq]
@[simp] theorem startStep9_measured : (startStep9 u i).measured = u.measured := by
  show (loadImage u i.image).measured = _; rw [loadImage_eq]

theorem present_startStep9 (h : Nat) : present (startStep9 u i) h = present u h := by
  show present (loadImage u i.image) h = _
  rw [loadImage_eq]; rfl

theorem getLink_startStep9 (l : LinkId) : getLink (startStep9 u i) l = getLink u l := by
  simp only [getLink, startStep9_links]

theorem startStep9_pools : (startStep9 u i).pools = freshPools (cxlFrames (startStep9 u i)) u.swapBlocks := by
  show freshPools _ (loadImage u i.image).swapBlocks = _
  rw [show (loadImage u i.image).swapBlocks = u.swapBlocks by rw [loadImage_eq]]
  rfl

theorem startStep9_boots (g : Nat) (hg : firstCore u = g) :
    (startStep9 u i).focus = (g, 0) ∧ (startStep9 u i).fib = bootFib g ∧ (startStep9 u i).cores = [(g, bootCore g)] := by
  have hfirst : firstCore { loadImage u i.image with cxl := foundCxl u i } = g := by rw [loadImage_eq]; exact hg
  rw [startStep9, hfirst]
  exact ⟨rfl, rfl, rfl⟩

theorem startStep9_keeps : (startStep9 u i).failed = u.failed ∧ (startStep9 u i).tlbs = u.tlbs ∧ (startStep9 u i).cmds = u.cmds
    ∧ (startStep9 u i).enrol = u.enrol ∧ (startStep9 u i).kerns = u.kerns ∧ (startStep9 u i).queues = u.queues ∧ (startStep9 u i).pair = u.pair := by
  show (loadImage u i.image).failed = _ ∧ (loadImage u i.image).tlbs = _ ∧ (loadImage u i.image).cmds = _ ∧ (loadImage u i.image).enrol = _
    ∧ (loadImage u i.image).kerns = _ ∧ (loadImage u i.image).queues = _ ∧ (loadImage u i.image).pair = _
  rw [loadImage_eq]
  exact ⟨rfl, rfl, rfl, rfl, rfl, rfl, rfl⟩

end

/-- The measurement that a start makes (R375). -/
def measured (i : StartInputs) : List Byte := (List.range 64).map fun n => nth (Config.freeMeasure (i.firmware ++ i.config)) n 0

theorem measOf_of_step2 {t : State} {i : StartInputs} (hm : t.measured = i.firmware ++ i.config) (h : t.sstep ≥ 2 ∨ (t.failed = true ∧ t.sstep = 1)) :
    measOf t = measured i := by rw [measOf, if_pos h, hm]; rfl

section
variable {s : State} {i : StartInputs} (hpow : s.power = true) (hstep : s.sstep ≠ 9) (hfail : s.failed = false)
include hpow hstep hfail

omit hpow hstep hfail in
theorem measOf_failed {t : State} {n : Nat} {m : List Host.Cell} {l : List Link} (hn : n = 1 ∨ n = 3) (hm : t.measured = i.firmware ++ i.config) :
    measOf { t with mem := m, sstep := n, failed := true, links := l } = measured i := by
  refine measOf_of_step2 hm ?_
  rcases hn with rfl | rfl
  · exact .inr ⟨rfl, rfl⟩
  · exact .inl (show 3 ≥ 2 by decide)

theorem start_unverified_cold (hbad : (i.imageGood && i.configGood && keyHeld s) = false) (hcold : s.cold = true) :
    ∃ t, exec (.start i) s = .next t ∧ t.sstep = 1 ∧ t.failed = true
      ∧ measOf t = measured i ∧ t.links = [{ id := .port 0, state := 1, role := 1 }] ∧ running t = false
      ∧ ∀ a, byteAt t a = if (swLoc 0x18000080 ≤ a ∧ a < swLoc 0x180000C0) ∨ ∃ n : Fin 64, a = winLoc (.port 0) n + 0x14 then 0 else byteAt s a := by
  have hcold1 : ({ startStep1 s with measured := i.firmware ++ i.config } : State).cold = true := by simpa [startStep1] using hcold
  obtain ⟨p, m, hp, hm, heq⟩ := failStart_cold (n := 1) (b := false) hcold1
  cases hp rfl
  refine ⟨_, congrArg Host.Outcome.next ((performStart_unverified hpow hstep hfail hbad).trans heq), rfl, rfl,
    measOf_failed (.inl rfl) rfl, rfl, by simp [running], fun a => ?_⟩
  show cellGet m a = _
  rw [hm]
  refine (byteAt_clearBytes _ _ _ a).trans ?_
  have h1 : byteAt { startStep1 s with measured := i.firmware ++ i.config } a = byteAt (writeBytes s (swLoc 0x18000080) (List.replicate 64 0)) a := by
    simp only [byteAt, startStep1]
  have hend : swLoc 0x18000080 + 64 = swLoc 0x180000C0 := rfl
  rw [h1, byteAt_writeZeros, hend]
  by_cases hw : ∃ n : Fin 64, a = winLoc (.port 0) n + 0x14 <;> simp [hw]

theorem start_unverified_warm (hbad : (i.imageGood && i.configGood && keyHeld s) = false) (hcold : s.cold = false) :
    ∃ t, exec (.start i) s = .next t ∧ t.sstep = 0 ∧ t.failed = false ∧ t.cold = true :=
  ⟨_, congrArg Host.Outcome.next (performStart_unverified hpow hstep hfail hbad), failStart_warm (by simpa [startStep1] using hcold)⟩

variable (himage : i.imageGood = true) (hconfig : i.configGood = true) (hkey : keyHeld s = true)
include himage hconfig hkey

theorem start_untrained_cold (htrain : i.trainGood = false) (hcold : s.cold = true) :
    ∃ t, exec (.start i) s = .next t ∧ t.sstep = 3 ∧ t.failed = true ∧ running t = false ∧ measOf t = measured i := by
  have hcold3 : (startStep3 { startStep1 s with measured := i.firmware ++ i.config } i).cold = true := by simpa [startStep1, startStep3] using hcold
  obtain ⟨p, m, -, -, heq⟩ := failStart_cold (n := 3) (b := true) hcold3
  exact ⟨_, congrArg Host.Outcome.next ((performStart_untrained hpow hstep hfail himage hconfig hkey htrain).trans heq), rfl, rfl, by simp [running],
    measOf_failed (.inr rfl) rfl⟩

variable (htrain : i.trainGood = true)
include htrain

theorem start_lifeChange (hcold : s.cold = true) (hlife : i.lifeCmd = true) :
    ∃ t, exec (.start i) s = .next t ∧ t.sstep = 0 ∧ t.failed = false ∧ t.cold = true ∧ t.life = (if s.life = 3 then 0 else s.life + 1)
      ∧ t.images = s.images + 1 ∧ t.held = [] ∧ t.trained = false ∧ t.mem = [] ∧ t.poison = [] ∧ t.badBlocks = []
      ∧ t.owner = if s.life = 0 then some (s.images + 1) else if s.life = 2 then none else s.owner := by
  refine ⟨_, congrArg Host.Outcome.next (performStart_lifeChange hpow hstep hfail himage hconfig hkey htrain (by simp [hcold, hlife])), ?_⟩
  simp [changeLife, trigger, startStep5, startStep3, startStep1, survives, hcold]

variable (hlife : (s.cold && i.lifeCmd) = false)
include hlife

/-- A start that ends at step 9 (R376). -/
theorem start_reaches {g : Nat} (hcore : g < Config.cores ∧ fusedOf s g ≠ 0 ∧ g ∉ heldAt s i) (hmask : clusterOf g ∈ s.mask)
    (hfirst : ∀ h, h < g → clusterOf h ∈ s.mask → ¬ (h < Config.cores ∧ fusedOf s h ≠ 0 ∧ h ∉ heldAt s i)) :
    exec (.start i) s = .next (startStep9 (startedTo6 s i) i) ∧ firstCore (startedTo6 s i) = g := by
  have hthere := (present_startedTo6 s i g).2 hcore
  refine ⟨congrArg Host.Outcome.next (performStart_reaches hpow hstep hfail himage hconfig hkey htrain hlife
    (maskGood_of_present ((startedTo6_mask s i).symm ▸ hmask) hthere)),
    firstCore_eq ((startedTo6_mask s i).symm ▸ hmask) hcore.1 hthere fun h hlt hin => ?_⟩
  rw [startedTo6_mask] at hin
  rw [Bool.eq_false_iff, Ne, present_startedTo6]
  exact hfirst h hlt hin

end

/-- Settles O56: a start either does nothing or runs to the first check that fails; the one that ends at step 9 is `startStep9` of the state
that the wipe and the training leave. -/
theorem startEvents : Obligations.StartEvents := by
  unfold Obligations.StartEvents
  refine ⟨fun s v die => ⟨fun h => ?_, fun h => ?_, rfl, fun a h => ?_, fun h => ?_, ?_, rfl, fun h1 h2 => ?_, rfl⟩, fun s i => ?_⟩
  · show Host.Outcome.next _ = _; rw [h]; rfl
  · show Host.Outcome.next _ = _; rw [h]; rfl
  · show Host.Outcome.next (thermalAlert s die) = _; rw [thermalAlert, h]
  · show Host.Outcome.next (thermalAlert s die) = _; rw [thermalAlert, h]
  · exact congrArg Host.Outcome.next (by simp [restartStore, trigger])
  · exact congrArg Host.Outcome.next (show restartStore s v = s by rw [restartStore, if_neg h1, if_neg h2])
  refine ⟨fun h => congrArg Host.Outcome.next (performStart_idle h), fun hpow hstep hfail => ⟨start_unverified_cold hpow hstep hfail,
    start_unverified_warm hpow hstep hfail, start_untrained_cold hpow hstep hfail, start_lifeChange hpow hstep hfail, ?_⟩⟩
  intro g himage hconfig hkey htrain hlife hcore hmask hfirst
  obtain ⟨hexec, hg⟩ := start_reaches hpow hstep hfail himage hconfig hkey htrain hlife hcore hmask hfirst
  obtain ⟨hfocus, hfib, hcores⟩ := startStep9_boots (startedTo6 s i) i g hg
  have hempty := startedTo6_empty s i
  obtain ⟨hfailed, htlbs, hcmds, henrol, hkerns, hqueues, hpair⟩ := startStep9_keeps (startedTo6 s i) i
  rw [← hfailed, ← htlbs, ← hcmds, ← henrol, ← hkerns, ← hqueues, ← hpair] at hempty
  obtain ⟨hfailed, htlbs, hcmds, henrol, hkerns, hqueues, hpair⟩ := hempty
  refine ⟨startStep9 (startedTo6 s i) i, hexec, startStep9_sstep _ i, hfailed, by simp [running, hpow], hfocus, hfib, hcores, by simp [heldAt], fun h => ?_,
    ?_, fun p n => ?_, ?_, measOf_of_step2 (by simp) (.inl (by simp)), htlbs, hcmds, henrol, hkerns, hqueues, hpair, fun a => ?_, fun hnone c => ?_,
    fun a b hone hplace => ?_, ?_, fun l hl => ?_⟩
  · rw [present_startStep9]; exact present_startedTo6 s i h
  · rw [startStep9_pools, startedTo6_swapBlocks]
  · rw [startStep9_cxl, getLink_startStep9]; exact mem_foundCxl p n
  · rw [startStep9_cxl]; exact foundCxl_sorted _ i
  · rw [startStep9_poison]; exact startedTo6_poison s i a
  · rw [startStep9_mem, hnone]; exact mem_startedTo6 i c
  · have hplace6 : osPlace (startedTo6 s i) a b.length = true := by rw [osPlace, startedTo6_mask]; exact hplace
    have hread : ∀ t : State, t.mem = (writeBytes (startedTo6 s i) a b).mem → readBytes t a b.length = b := fun t ht => by
      rw [readBytes_congr (t := writeBytes (startedTo6 s i) a b) a b.length fun c _ _ => by rw [byteAt, ht, byteAt], readBytes_writeBytes]
    refine hread _ ?_
    rw [startStep9_mem, hone, loadImage_one hplace6]
  · rw [startStep9_links]
    exact (startStep6_ids _ i).trans (by rw [startedTo6_roles, startedTo6_welts])
  · rw [startStep9_links] at hl
    obtain ⟨id, role, rfl⟩ := mem_startStep6_links hl
    obtain ⟨hid, hposted, hreads, hreplay, htx, hrx⟩ := trainedAs_fresh i id role
    rw [hid]
    refine ⟨hposted, hreads, hreplay, htx, hrx, fun h => ?_, trainedAs_named role⟩
    rw [trainedAs_unnamed role h]
    exact ⟨rfl, rfl, rfl⟩

end Sys2Proof
end

