-- ==== Sys2Proof/Proofs/GroupInstructions.lean ====
section
/-!
SUPPORT. The instructions of a group's fibres: O42.
-/
namespace Sys2Proof
open Machine Safety

theorem run_needGroup_none {s : State} (h : myGroup s = none) : needGroup s = .error (.trap 5 0 false none) := by simp only [needGroup, h]
theorem run_needGroup {s : State} {r : Group} (h : myGroup s = some r) : needGroup s = .ok (r, s) := by simp only [needGroup, h]

section
variable {s : State} {d a : SReg} {b : SrcB}

/-! ## take -/

theorem exec_take_groupless (hp : s.pair = none) (ha : plainS s.fib a = true) (hb : plainB s.fib b = true) (hg : myGroup s = none) :
    exec (.take d a b) s = .next (trapsWith s 5 0) := by
  refine performSeq_fails (inTurn_trap ?_) hp
  rw [run_bind_ok (rd_of_plain ha), run_bind_ok (rdB_of_plain hb), run_bind_error (run_needGroup_none hg)]

section
variable {r : Group} (ha : plainS s.fib a = true) (hb : plainB s.fib b = true) (hg : myGroup s = some r)
include ha hb hg

theorem exec_take_count (hp : s.pair = none) (hn : valB s.fib b = 0 ∨ 4096 < (valB s.fib b).toNat) :
    exec (.take d a b) s = .next (trapsWith s 0x0B (valB s.fib b)) := by
  refine performSeq_fails (inTurn_trap ?_) hp
  rw [run_bind_ok (rd_of_plain ha), run_bind_ok (rdB_of_plain hb), run_bind_ok (run_needGroup hg), if_pos hn]
  rfl

variable (hpos : 0 < (valB s.fib b).toNat) (hmax : (valB s.fib b).toNat ≤ 4096)
include hpos hmax

omit ha hb hg in
theorem take_count_fits : ¬ (valB s.fib b = 0 ∨ (valB s.fib b).toNat > 4096) := by
  rintro (h | h)
  · rw [h] at hpos; exact absurd hpos (by decide)
  · omega

theorem exec_take_waits (hp : s.pair = none) (hhome : atHome s (poolLoc r) = none) : exec (.take d a b) s = .next (waitsForRoom s (poolLoc r)) := by
  have hkey : poolKey s = .home (homeOf (poolLoc r)) := by simp only [poolKey, hg]; rfl
  rw [waitsForRoom, ← hkey]
  refine waits_inTurn ?_ hp
  rw [run_bind_ok (rd_of_plain ha), run_bind_ok (rdB_of_plain hb), run_bind_ok (run_needGroup hg), if_neg (take_count_fits hpos hmax),
    run_bind_error (run_comeToHome_none hhome)]

theorem exec_take_gives {u : State} (hhome : atHome s (poolLoc r) = some u) (ht : isToxic u (poolLoc r) = false)
    (hp : (takePool u r (valB s.fib b) (selfAdder u)).pair = none) (hd : openS (takePool u r (valB s.fib b) (selfAdder u)).fib d = true) :
    exec (.take d a b) s = .next (doneS (takePool u r (valB s.fib b) (selfAdder u)) d
      (if (readWord u (poolLoc r)).toNat < (regVal s.fib a).toNat then readWord u (poolLoc r) else BitVec.allOnes 64)) := by
  have htoxic : isToxicM (poolLoc r) u = .ok (false, u) := by rw [run_isToxicM, ht]
  refine done_inTurn ?_ hp hd
  rw [run_bind_ok (rd_of_plain ha), run_bind_ok (rdB_of_plain hb), run_bind_ok (run_needGroup hg), if_neg (take_count_fits hpos hmax),
    run_bind_ok (run_comeToHome_some hhome), run_bind_ok htoxic, if_neg Bool.false_ne_true, run_bind_ok (run_get u), run_bind_ok (run_change _ u)]
  have hlt : (readWord u (poolLoc r)).ult (regVal s.fib a) = decide ((readWord u (poolLoc r)).toNat < (regVal s.fib a).toNat) := rfl
  rw [hlt]
  simp only [decide_eq_true_eq]
  rfl

end

/-! ## The lists of load levelling -/

theorem exec_lvpost_groupless (hp : s.pair = none) (hg : myGroup s = none) : exec (.lvpost d a) s = .next (trapsWith s 5 0) :=
  performSeq_fails (run_bind_error (run_needGroup_none hg)) hp

theorem exec_lvtake_groupless (hp : s.pair = none) (hg : myGroup s = none) : exec (.lvtake d) s = .next (trapsWith s 5 0) :=
  performSeq_fails (run_bind_error (run_needGroup_none hg)) hp

section
variable {r : Group} (hg : myGroup s = some r)
include hg

theorem exec_lvpost_none (hp : s.pair = none) (ha : plainS s.fib a = true) (he : regVal s.fib a = BitVec.allOnes 64) :
    exec (.lvpost d a) s = .next (trapsWith s 0x0B 0) := by
  refine performSeq_fails ?_ hp
  rw [run_bind_ok (run_needGroup hg), run_bind_ok (rd_of_plain ha), if_pos (show regVal s.fib a = allOnes from he)]
  rfl

theorem exec_lvpost {t : State} (ha : plainS s.fib a = true) (he : regVal s.fib a ≠ BitVec.allOnes 64) (hrel : released s true .clu = some t)
    (hp : t.pair = none) (hd : openS t.fib d = true) :
    exec (.lvpost d a) s = .next (if 64 ≤ (getCore t t.focus.1).level.length then doneS t d (BitVec.allOnes 64)
      else doneS (setCore t t.focus.1 { getCore t t.focus.1 with level := (getCore t t.focus.1).level ++ [regVal s.fib a] }) d
        (BitVec.ofNat 64 ((getCore t t.focus.1).level.length + 1))) := by
  have hrun : release s.fib 2 s = .ok ((), t) := run_releaseAt_some s.fib hrel
  by_cases hfull : 64 ≤ (getCore t t.focus.1).level.length
  · rw [if_pos hfull]
    refine done_of_result ?_ hp hd
    rw [run_bind_ok (run_needGroup hg), run_bind_ok (rd_of_plain ha), if_neg (show ¬ regVal s.fib a = allOnes from he), run_bind_ok hrun,
      run_bind_ok (run_get t), if_pos hfull]
    rfl
  · rw [if_neg hfull]
    refine done_of_result ?_ hp hd
    rw [run_bind_ok (run_needGroup hg), run_bind_ok (rd_of_plain ha), if_neg (show ¬ regVal s.fib a = allOnes from he), run_bind_ok hrun,
      run_bind_ok (run_get t), if_neg (show ¬ (getCore t t.focus.1).level.length ≥ 64 from hfull), run_bind_ok (run_change _ t)]
    rfl

theorem exec_lvtake_empty (hp : s.pair = none) (hd : openS s.fib d = true) (hl : (getCore s s.focus.1).level = []) :
    exec (.lvtake d) s = .next (doneS s d (BitVec.allOnes 64)) := by
  refine done_of_result ?_ hp hd
  rw [run_bind_ok (run_needGroup hg), run_bind_ok (run_get s)]
  dsimp only
  rw [hl]
  rfl

theorem exec_lvtake (hp : s.pair = none) (hd : openS s.fib d = true) {x : Word} {l : List Word} (hl : (getCore s s.focus.1).level = x :: l) :
    exec (.lvtake d) s = .next (doneS (acquire (setCore s s.focus.1 { getCore s s.focus.1 with level := l, kept := (getCore s s.focus.1).kept - 1 })
      s.focus.1 2) d x) := by
  refine done_of_result ?_ ((acquire_pair _ _ _).trans hp) ((openS_acquire _ _ _ d).trans hd)
  rw [run_bind_ok (run_needGroup hg), run_bind_ok (run_get s)]
  dsimp only
  rw [hl]
  rfl

end

/-! ## Tile coordinates (R318) -/

theorem performSeq_gtileForm (hp : s.pair = none) (ha : plainS s.fib a = true) (hb : plainB s.fib b = true) (hd : openS s.fib d = true) (cf rf : Bool) :
    performSeq (gtileForm d a b cf rf) s = .next (doneS s d (tileResult (myGroup s) (regVal s.fib a) (valB s.fib b) cf rf)) := by
  refine done_of_result ?_ hp hd
  rw [gtileForm, run_bind_ok (rd_of_plain ha), run_bind_ok (rdB_of_plain hb), run_bind_ok (run_get s)]

/-- The result of a tile form, with the extents as the spec names them. -/
theorem tileResult_eq (r : Option Group) (t e : Word) (cf rf : Bool) :
    tileResult r t e cf rf =
      let mt := (r.map (·.m)).getD 0
      let nt := (r.map (·.n)).getD 0
      let m := t.toNat / nt
      let n := t.toNat % nt
      let mr := if (e.extractLsb' 0 24).toNat = 0 then 8 * mt else (e.extractLsb' 0 24).toNat
      let nc := if (e.extractLsb' 24 24).toNat = 0 then 8 * nt else (e.extractLsb' 24 24).toNat
      if mt * nt ≤ t.toNat ∨ mr ≤ 8 * m ∨ nc ≤ 8 * n then BitVec.allOnes 64
      else BitVec.ofNat 64 (m * 2 ^ 36 + n * 2 ^ 24 + (if rf then 7 else Nat.min 8 (mr - 8 * m) - 1) * 2 ^ 3
        + if cf then 7 else Nat.min 8 (nc - 8 * n) - 1) := by
  have hzero : ∀ x y : Nat, min 8 (x - y) = 0 ↔ x ≤ y := fun x y => by omega
  cases r with
  | none => simp [tileResult]; rfl
  | some x =>
    simp only [tileResult, bitsOf_eq_extractLsb', Option.map_some, Option.getD_some, hzero]
    by_cases hout : x.m * x.n ≤ t.toNat
    · rw [if_pos hout, if_pos (.inl hout)]; rfl
    · rw [if_neg hout]
      simp only [hout, false_or]
      rfl

theorem exec_gtileG (hp : s.pair = none) (hb : plainB s.fib b = true) (hd : openS s.fib d = true) :
    exec (.gtileG d b) s = .next (doneS s d (match ((myGroup s).map (·.members)).getD [] |>.drop (valB s.fib b).toNat with
      | g :: _ => BitVec.ofNat 64 g
      | [] => BitVec.allOnes 64)) := by
  refine done_of_result ?_ hp hd
  rw [run_bind_ok (rdB_of_plain hb), run_bind_ok (run_get s)]
  have hdrop : ∀ (l : List Nat) (n : Nat), (match l[n]? with
      | some g => w64 g
      | none => allOnes) = (match l.drop n with
      | g :: _ => BitVec.ofNat 64 g
      | [] => BitVec.allOnes 64) := by
    intro l n
    rw [← List.head?_drop]
    cases l.drop n <;> rfl
  cases myGroup s with
  | none => simp; rfl
  | some r => exact congrArg (fun v => result d v s) (hdrop r.members _)

/-- The bits of a sum of distinct powers of 2. -/
theorem testBit_foldl_two_pow {l : List Nat} (f : Nat → Nat) (h : (l.map f).Nodup) (k : Nat) :
    (l.foldl (fun a c => a + 2 ^ f c) 0).testBit k = true ↔ k ∈ l.map f := by
  have hsum : l.foldl (fun a c => a + 2 ^ f c) 0 = ∑ i ∈ (l.map f).toFinset, 2 ^ i := by
    rw [List.sum_toFinset _ h, List.sum_eq_foldl, List.foldl_map, List.foldl_map]
  rw [hsum, ← Nat.mem_bitIndices, ← List.mem_toFinset, Finset.toFinset_bitIndices_sum_two_pow, List.mem_toFinset]

/-- The members of a group in the n-th 64 cores of core g's cluster. -/
def membersIn (r : Group) (g n : Nat) : List Nat := r.members.filter fun c => clusterOf c == clusterOf g && c % 192 / 64 == n

theorem mem_membersIn {r : Group} {g n c : Nat} : c ∈ membersIn r g n ↔ c ∈ r.members ∧ c / 192 = g / 192 ∧ c % 192 / 64 = n := by
  simp [membersIn, clusterOf]

theorem membersIn_bits_nodup {r : Group} (h : r.members.Nodup) (g n : Nat) : ((membersIn r g n).map (· % 64)).Nodup := by
  refine List.Nodup.map_on (fun x hx y hy hxy => ?_) (h.filter _)
  obtain ⟨-, hx1, hx2⟩ := mem_membersIn.1 hx
  obtain ⟨-, hy1, hy2⟩ := mem_membersIn.1 hy
  omega

/-- Bit k of word n of the member mask names core 64 n + k of the cluster (R318). -/
theorem getLsbD_maskWord {r : Group} (h : r.members.Nodup) (g n : Nat) (k : Fin 64) :
    (maskWord r g n).getLsbD k.val = true ↔ n ≤ 2 ∧ g / 192 * 192 + 64 * n + k.val ∈ r.members := by
  have hk := k.isLt
  by_cases hn : n > 2
  · simp only [maskWord, if_pos hn]
    exact iff_of_false (by simp) (by omega)
  · have hmask : maskWord r g n = BitVec.ofNat 64 ((membersIn r g n).foldl (fun a c => a + 2 ^ (c % 64)) 0) := by rw [maskWord, if_neg hn]; rfl
    rw [hmask, BitVec.getLsbD_ofNat, Bool.and_eq_true, testBit_foldl_two_pow _ (membersIn_bits_nodup h g n), List.mem_map]
    constructor
    · rintro ⟨-, c, hc, hbit⟩
      obtain ⟨hin, hclu, hword⟩ := mem_membersIn.1 hc
      have : g / 192 * 192 + 64 * n + k.val = c := by omega
      exact ⟨by omega, this ▸ hin⟩
    · rintro ⟨-, hin⟩
      exact ⟨by simp, _, mem_membersIn.2 ⟨hin, by omega, by omega⟩, by omega⟩

theorem exec_gtileMask (hp : s.pair = none) (hb : plainB s.fib b = true) (hd : openS s.fib d = true)
    (hnodup : ∀ r, myGroup s = some r → r.members.Nodup) :
    ∃ w : Word, exec (.gtileMask d b) s = .next (doneS s d w)
      ∧ ∀ k : Fin 64, w.getLsbD k.val = true ↔ ((valB s.fib b).toNat ≤ 2 ∧ ∃ r, myGroup s = some r
        ∧ s.focus.1 / 192 * 192 + 64 * (valB s.fib b).toNat + k.val ∈ r.members) := by
  refine ⟨((myGroup s).map fun r => maskWord r s.focus.1 (valB s.fib b).toNat).getD 0, done_of_result ?_ hp hd, fun k => ?_⟩
  · rw [run_bind_ok (rdB_of_plain hb), run_bind_ok (run_get s)]
    cases myGroup s <;> rfl
  · cases hg : myGroup s with
    | none => simp
    | some r =>
      rw [Option.map_some, Option.getD_some, getLsbD_maskWord (hnodup r hg)]
      simp

end

/-- Settles O42: each instruction is followed through `needGroup` and its checks; the tile forms share `tileResult`, and a member mask is a sum of
distinct powers of 2. -/
theorem groupInstructions : Obligations.GroupInstructions := by
  unfold Obligations.GroupInstructions
  refine ⟨fun s d a b hp ha hb hg => ⟨exec_take_groupless hp ha hb hg, exec_lvpost_groupless hp hg, exec_lvtake_groupless hp hg⟩,
    fun s d a b r hp ha hb hg => ⟨exec_take_count ha hb hg hp, fun h1 h2 => exec_take_waits ha hb hg h1 h2 hp,
      fun u h1 h2 hhome ht hpw hd => exec_take_gives ha hb hg h1 h2 hhome ht hpw hd⟩,
    fun s t d a r hp ha hd hg => ⟨exec_lvpost_none hg hp ha, fun he hrel hpt hdt => exec_lvpost hg ha he hrel hpt hdt,
      exec_lvtake_empty hg hp hd, fun x l => exec_lvtake hg hp hd⟩,
    fun s d a b hp ha hb hd => ⟨?_, ?_, ?_, exec_gtileG hp hb hd, exec_gtileMask hp hb hd⟩⟩
  all_goals
    refine (performSeq_gtileForm hp ha hb hd _ _).trans ?_
    rw [tileResult_eq]
    rfl

end Sys2Proof
end

