-- ==== Sys2Proof/Proofs/Pipes.lean ====
section
/-!
SUPPORT. The pipes between the stages of a kernel: O40.
-/
namespace Sys2Proof
open Machine Safety

/-- An instruction that waits for its publish keeps its place (R96, R120). -/
theorem waits_inTurn_publish {key : State → TurnKey} {m : M Unit} {s : State} {sc : Nat} (h : m s = .error (heldRelease s.fib s sc)) (hp : s.pair = none) :
    performSeq (inTurn key m) s = .next (waitsFor { (publishFrom s sc).2 with fib := s.fib } (key s) (.publish sc (publishFrom s sc).1)) :=
  performSeq_leave (inTurn_publish h) hp

/-- Without a waiter on PUT a put hands nothing on. -/
theorem pipeHand_none {s : State} {h : Nat} (n : Nat) (hn : ∀ e ∈ s.enrol, e.loc ≠ pipePut h) : pipeHand n s h = s := by
  cases n with
  | zero => rfl
  | succ n =>
    have hnone : s.enrol.find? (fun e => e.loc == pipePut h && isGetter e.who && !e.poll) = none := by
      rw [List.find?_eq_none]
      intro e he
      simp [hn e he]
    rw [pipeHand, hnone]

@[simp] theorem writeWord_enrol (s : State) (a : Nat) (v : Word) : (writeWord s a v).enrol = s.enrol := by simp [writeWord, writeNat]
@[simp] theorem writeWord_fib (s : State) (a : Nat) (v : Word) : (writeWord s a v).fib = s.fib := by simp [writeWord, writeNat]
@[simp] theorem writeWord_focus (s : State) (a : Nat) (v : Word) : (writeWord s a v).focus = s.focus := by simp [writeWord, writeNat]

theorem pipeKey_home {s : State} {a : SReg} {h : Nat} (ha : plainS s.fib a = true) (hh : pipeHome s (regVal s.fib a) = some h) :
    pipeKey a s = .home h := by simp only [pipeKey, rd_of_plain ha, hh]; rfl

section
variable {s : State} {d a : SReg} {b : SrcB} (ha : plainS s.fib a = true)
include ha

/-! ## pput -/

theorem exec_pput_noPipe (hp : s.pair = none) (hb : plainB s.fib b = true) (hh : pipeHome s (regVal s.fib a) = none) :
    exec (.pput d a b) s = .next (trapsWith s 6 (regVal s.fib a)) := by
  refine performSeq_fails (inTurn_trap ?_) hp
  rw [run_bind_ok (rd_of_plain ha), run_bind_ok (rdB_of_plain hb), run_bind_ok (run_get s), hh]
  rfl

section
variable {h : Nat} (hb : plainB s.fib b = true) (hh : pipeHome s (regVal s.fib a) = some h)
include hb hh

theorem exec_pput_allOnes (hp : s.pair = none) (hv : valB s.fib b = BitVec.allOnes 64) : exec (.pput d a b) s = .next (trapsWith s 0x0B 0) := by
  refine performSeq_fails (inTurn_trap ?_) hp
  rw [run_bind_ok (rd_of_plain ha), run_bind_ok (rdB_of_plain hb), run_bind_ok (run_get s), hh]
  dsimp only
  rw [if_pos (show valB s.fib b = allOnes from hv)]
  rfl

variable (hv : ¬ valB s.fib b = allOnes)
include hv

theorem exec_pput_publishes (hp : s.pair = none) (hrel : released s true .mod = none) :
    exec (.pput d a b) s = .next (waitsFor { (publishFrom s 4).2 with fib := s.fib } (.home h) (.publish 4 (publishFrom s 4).1)) := by
  have hrun : release s.fib 4 s = .error (heldRelease s.fib s 4) := run_releaseAt_none s.fib hrel
  rw [← pipeKey_home ha hh]
  refine waits_inTurn_publish ?_ hp
  rw [run_bind_ok (rd_of_plain ha), run_bind_ok (rdB_of_plain hb), run_bind_ok (run_get s), hh]
  dsimp only
  rw [if_neg hv, run_bind_error hrun]

variable {t : State} (hrel : released s true .mod = some t)
include hrel

theorem exec_pput_waits (hp : s.pair = none) (hhome : atHome (countMessage t) (pipePut h) = none) :
    exec (.pput d a b) s = .next (waitsFor s (.home h) .room) := by
  have hrun : release s.fib 4 s = .ok ((), t) := run_releaseAt_some s.fib hrel
  rw [← pipeKey_home ha hh]
  refine waits_inTurn ?_ hp
  rw [run_bind_ok (rd_of_plain ha), run_bind_ok (rdB_of_plain hb), run_bind_ok (run_get s), hh]
  dsimp only
  rw [if_neg hv, run_bind_ok hrun, run_bind_ok (run_change _ t), run_bind_error (run_comeToHome_none hhome)]

theorem exec_pput {y u : State} (hhome : atHome (countMessage t) (pipePut h) = some y) (hu : u = seenPipe y h) (ht : pipeToxic u h true = false)
    (hn : ∀ e ∈ u.enrol, e.loc ≠ pipePut h) (hpu : u.pair = none) (hd : openS u.fib d = true) :
    let put := readWord u (pipePut h)
    let n := put - readWord u (pipeGot h)
    exec (.pput d a b) s = .next (if n.toNat = 1024 then doneS u d (BitVec.allOnes 64)
      else doneS (writeWord (writeWord u (pipeEntry h put) (valB s.fib b)) (pipePut h) (put + 1)) d (n + 1)) := by
  have hrun : release s.fib 4 s = .ok ((), t) := run_releaseAt_some s.fib hrel
  have hreach : ∀ m : M Unit, (do
      release s.fib 4
      change countMessage
      comeToHome (pipePut h)
      change fun w => seenPipe w h
      m) s = m u := by
    intro m
    rw [run_bind_ok hrun, run_bind_ok (run_change _ t), run_bind_ok (run_comeToHome_some hhome), run_bind_ok (run_change _ y), ← hu]
  dsimp only
  split
  · next hfull =>
    refine done_inTurn ?_ hpu hd
    rw [run_bind_ok (rd_of_plain ha), run_bind_ok (rdB_of_plain hb), run_bind_ok (run_get s), hh]
    dsimp only
    rw [if_neg hv, hreach, run_bind_ok (run_get u), ht, if_neg Bool.false_ne_true, pipeAppend, if_pos hfull]
    rfl
  · next hroom =>
    refine done_inTurn ?_ (by simpa using hpu) (by simpa using hd)
    rw [run_bind_ok (rd_of_plain ha), run_bind_ok (rdB_of_plain hb), run_bind_ok (run_get s), hh]
    dsimp only
    rw [if_neg hv, hreach, run_bind_ok (run_get u), ht, if_neg Bool.false_ne_true, pipeAppend, if_neg hroom]
    dsimp only
    rw [pipeHand_none _ (by simpa using hn)]
    rfl

end

/-! ## pget -/

omit ha in
theorem run_pipeGet_noPipe {f : Fib} {p : Word} (hh : pipeHome s p = none) : pipeGet f p s = .error (.trap 6 p false none) := by
  rw [pipeGet, run_bind_ok (run_get s), hh]
  rfl

theorem exec_pget_noPipe (hp : s.pair = none) (hh : pipeHome s (regVal s.fib a) = none) :
    exec (.pget d a) s = .next (trapsWith s 6 (regVal s.fib a)) := by
  refine performSeq_fails (inTurn_trap ?_) hp
  rw [run_bind_ok (rd_of_plain ha), run_bind_error (run_pipeGet_noPipe hh)]

theorem exec_pgetW_noPipe (hp : s.pair = none) (hw : s.fib.wake = none) (hh : pipeHome s (regVal s.fib a) = none) :
    exec (.pgetW d a) s = .next (trapsWith s 6 (regVal s.fib a)) := by
  refine performSeq_fails (inTurn_trap ?_) hp
  rw [run_bind_ok (run_takeWake_none hw)]
  dsimp only
  rw [run_bind_ok (rd_of_plain ha), run_bind_error (run_pipeGet_noPipe hh)]

section
variable {h : Nat} (hh : pipeHome s (regVal s.fib a) = some h)
include hh

omit ha in
theorem run_pipeGet_waits {f : Fib} (hhome : atHome s (pipePut h) = none) : pipeGet f (regVal s.fib a) s = .error (.leave .room none) := by
  rw [pipeGet, run_bind_ok (run_get s), hh]
  dsimp only
  rw [run_bind_error (run_comeToHome_none hhome)]

theorem exec_pget_waits (hp : s.pair = none) (hhome : atHome s (pipePut h) = none) : exec (.pget d a) s = .next (waitsFor s (.home h) .room) := by
  rw [← pipeKey_home ha hh]
  refine waits_inTurn ?_ hp
  rw [run_bind_ok (rd_of_plain ha), run_bind_error (run_pipeGet_waits hh hhome)]

theorem exec_pgetW_waits (hp : s.pair = none) (hw : s.fib.wake = none) (hhome : atHome s (pipePut h) = none) :
    exec (.pgetW d a) s = .next (waitsFor s (.home h) .room) := by
  rw [← pipeKey_home ha hh]
  refine waits_inTurn ?_ hp
  rw [run_bind_ok (run_takeWake_none hw)]
  dsimp only
  rw [run_bind_ok (rd_of_plain ha), run_bind_error (run_pipeGet_waits hh hhome)]

section
variable {y u : State} (hhome : atHome s (pipePut h) = some y) (hu : u = seenPipe y h) (ht : pipeToxic u h false = false)
include hhome hu ht

omit ha in
theorem run_pipeGet_empty {f : Fib} (he : readWord u (pipePut h) = readWord u (pipeGot h)) : pipeGet f (regVal s.fib a) s = .ok ((h, none), u) := by
  rw [pipeGet, run_bind_ok (run_get s), hh]
  dsimp only
  rw [run_bind_ok (run_comeToHome_some hhome), run_bind_ok (run_change _ y), ← hu, run_bind_ok (run_get u), ht, if_neg Bool.false_ne_true,
    pipeTake, if_pos he]
  rfl

/-- The state after the oldest entry has been taken, with the acquire of a get (R333). -/
def pipeTaken (u : State) (h : Nat) : State :=
  acquire (writeWord (correctRead u (pipeEntry h (readWord u (pipeGot h))) 8) (pipeGot h) (readWord u (pipeGot h) + 1)) u.focus.1 4

omit ha in
theorem run_pipeGet_some {f : Fib} (he : ¬ readWord u (pipePut h) = readWord u (pipeGot h)) :
    pipeGet f (regVal s.fib a) s = .ok ((h, some (readWord u (pipeEntry h (readWord u (pipeGot h))))), pipeTaken u h) := by
  rw [pipeGet, run_bind_ok (run_get s), hh]
  dsimp only
  rw [run_bind_ok (run_comeToHome_some hhome), run_bind_ok (run_change _ y), ← hu, run_bind_ok (run_get u), ht, if_neg Bool.false_ne_true,
    pipeTake, if_neg he]
  dsimp only
  rw [run_bind_ok (run_set u _), run_bind_ok (run_acquireAt true .mod _), run_pure]
  have hfocus : (writeWord (correctRead u (pipeEntry h (readWord u (pipeGot h))) 8) (pipeGot h) (readWord u (pipeGot h) + 1)).focus = u.focus := by
    rw [writeWord_focus]; exact (correctRead_home u _ 8).focus
  rw [acquiredIf, if_pos rfl, hfocus]
  rfl

omit ha hh hhome hu ht in
theorem pipeTaken_pair (hp : u.pair = none) : (pipeTaken u h).pair = none := (acquire_pair _ _ _).trans (by simpa using hp)

omit ha hh hhome hu ht in
theorem openS_pipeTaken (hd : openS u.fib d = true) : openS (pipeTaken u h).fib d = true := by
  refine (openS_acquire _ _ _ d).trans ?_
  rw [writeWord_fib, (correctRead_home u _ 8).fib]; exact hd

theorem exec_pget_empty (hp : u.pair = none) (hd : openS u.fib d = true) (he : readWord u (pipePut h) = readWord u (pipeGot h)) :
    exec (.pget d a) s = .next (doneS u d (BitVec.allOnes 64)) := by
  refine done_inTurn ?_ hp hd
  rw [run_bind_ok (rd_of_plain ha), run_bind_ok (run_pipeGet_empty hh hhome hu ht he)]
  rfl

theorem exec_pget_some (hp : u.pair = none) (hd : openS u.fib d = true) (he : readWord u (pipePut h) ≠ readWord u (pipeGot h)) :
    exec (.pget d a) s = .next (doneS (pipeTaken u h) d (readWord u (pipeEntry h (readWord u (pipeGot h))))) := by
  refine done_inTurn ?_ (pipeTaken_pair hp) (openS_pipeTaken hd)
  rw [run_bind_ok (rd_of_plain ha), run_bind_ok (run_pipeGet_some hh hhome hu ht he)]
  rfl

theorem exec_pgetW_sleeps (hp : s.pair = none) (hw : s.fib.wake = none) (he : readWord u (pipePut h) = readWord u (pipeGot h)) :
    exec (.pgetW d a) s = .next (applyLeave { u with fib := s.fib } (.sleep .pipe (some (pipePut h, 0)) (waitWord u.focus.1 (pipePut h)))) := by
  refine performSeq_leave (keep := some { u with fib := s.fib }) (inTurn_sleep ?_) hp
  rw [run_bind_ok (run_takeWake_none hw)]
  dsimp only
  rw [run_bind_ok (rd_of_plain ha), run_bind_ok (run_pipeGet_empty hh hhome hu ht he)]
  rfl

theorem exec_pgetW_some (hw : s.fib.wake = none) (hp : u.pair = none) (hd : openS u.fib d = true)
    (he : readWord u (pipePut h) ≠ readWord u (pipeGot h)) :
    exec (.pgetW d a) s = .next (doneS (pipeTaken u h) d (readWord u (pipeEntry h (readWord u (pipeGot h))))) := by
  refine done_inTurn ?_ (pipeTaken_pair hp) (openS_pipeTaken hd)
  rw [run_bind_ok (run_takeWake_none hw)]
  dsimp only
  rw [run_bind_ok (rd_of_plain ha), run_bind_ok (run_pipeGet_some hh hhome hu ht he)]

end
end
end

/-- Settles O40: each form is followed to the home of the pipe, where PUT and GOT decide; both forms of `pget` share `pipeGet`. -/
theorem pipes : Obligations.Pipes := by
  unfold Obligations.Pipes
  intro s d a b hp hw ha hb
  refine ⟨fun hh => ⟨exec_pput_noPipe ha hp hb hh, exec_pget_noPipe ha hp hh, exec_pgetW_noPipe ha hp hw hh⟩, fun h hh => ⟨exec_pput_allOnes ha hb hh hp,
    fun hv => exec_pput_publishes ha hb hh hv hp, fun t hv hrel => ⟨exec_pput_waits ha hb hh hv hrel hp, fun y u hhome hu => exec_pput ha hb hh hv hrel hhome hu⟩,
    fun hhome => ⟨exec_pget_waits ha hh hp hhome, exec_pgetW_waits ha hh hp hw hhome⟩, fun y u hhome hu ht hpu hd => ⟨fun he => ⟨?_, ?_⟩, fun he => ⟨?_, ?_⟩⟩⟩⟩
  · exact exec_pget_empty ha hh hhome hu ht hpu hd he
  · exact exec_pgetW_sleeps ha hh hhome hu ht hp hw he
  · exact exec_pget_some ha hh hhome hu ht hpu hd he
  · exact exec_pgetW_some ha hh hhome hu ht hw hpu hd he

end Sys2Proof
end

