-- ==== Sys2Proof/Proofs/QueuePost.lean ====
section
/-!
SUPPORT. Posting to a queue: O41.
-/
namespace Sys2Proof
open Machine Safety

theorem performSeq_inTurn_traps {key : State → TurnKey} {m : M Unit} {s : State} {c : Nat} {a : Word} (h : m s = .error (.trap c a false none))
    (hp : s.pair = none) : performSeq (inTurn key m) s = .next (trapsWith s c a) := performSeq_fails (inTurn_trap h) hp

theorem postAddr_eq (r : Nat) (q : Word) : BitVec.ofNat 64 (r * 2 ^ 56) + q = postAddr r q := rfl

theorem postKey_eq {s : State} {a : SReg} (ha : plainS s.fib a = true) :
    postKey a s = ((qNotify s (regVal s.fib a).toNat).map fun x => TurnKey.home (homeOf x)).getD .anyHome := by
  simp only [postKey, rd_of_plain ha]

theorem qTenant_eq_iff (s : State) (q : Nat) : (qTenant s q).toNat = readNat s (qLoc q + 0x0C) 2 % 4096 := BitVec.toNat_ofNat _ 12

/-! ## The first issue -/

/-- A counter of the queue, once its home answers. -/
theorem run_postValue {f : Fib} {s t : State} {a : Nat} {q : Word} (hu : unbuffered s a = true) (hhome : atHome s a = some t) (ht : isToxic t a = false) :
    postValue f a q s = .ok (readWord t a, t) := by
  have htoxic : isToxicM a t = .ok (false, t) := by rw [run_isToxicM, ht]
  rw [postValue, run_bind_ok (run_drainWord hu), run_bind_ok (run_comeToHome_some hhome), run_bind_ok htoxic, if_neg Bool.false_ne_true,
    run_bind_ok (run_get t), run_pure]

theorem run_postValue_waits {f : Fib} {s : State} {a : Nat} {q : Word} (hu : unbuffered s a = true) (hhome : atHome s a = none) :
    postValue f a q s = .error (.leave .room none) := by
  rw [postValue, run_bind_ok (run_drainWord hu), run_bind_error (run_comeToHome_none hhome)]

/-- What a `qpost` does that has passed its checks (R299, R300): b is the record, na and ta are NOTIFY and TAKEN. -/
def postRecord (s : State) (sys : Bool) (d : SReg) (q : Word) (b : List Byte) (na ta : Nat) : M Unit := do
  let x ← postValue s.fib na q
  let k ← postValue s.fib ta q
  if (x - k).toNat ≥ 2 ^ qLog s q.toNat then result d allOnes
  else
    let l ← translate (qRing s q.toNat + 128 * (x.toNat % 2 ^ qLog s q.toNat)) 128 (w64 (qRing s q.toNat + 128 * (x.toNat % 2 ^ qLog s q.toNat))) accStore
    storeAll (w64 (qRing s q.toNat + 128 * (x.toNat % 2 ^ qLog s q.toNat))) l b
    leavePost s.fib (if sys then 5 else 4) x

/-- The record that the operands of a `qpost` hold (R297). -/
def postedRecord (s : State) (v : Fin 15) : List Byte := laneBytes s.fib.v[v.val] ++ laneBytes s.fib.v[v.val + 1]

section
variable {s : State} {sys : Bool} {d a : SReg} {v : Fin 15} (hp : s.pair = none) (hpost : s.fib.post = none) (ha : plainS s.fib a = true)
include hp hpost ha

theorem exec_qpost_number (hq : 65536 ≤ (regVal s.fib a).toNat) : exec (.qpost sys d a v) s = .next (trapsWith s 6 (postAddr 1 (regVal s.fib a))) := by
  refine performSeq_inTurn_traps ?_ hp
  rw [hpost]
  dsimp only
  rw [run_bind_ok (rd_of_plain ha), run_bind_ok (run_get s), if_pos hq]
  rfl

variable (hq : ¬ (regVal s.fib a).toNat ≥ 65536)
include hq

theorem exec_qpost_closed (hstate : qState s (regVal s.fib a).toNat = 0) :
    exec (.qpost sys d a v) s = .next (trapsWith s 6 (postAddr 2 (regVal s.fib a))) := by
  refine performSeq_inTurn_traps ?_ hp
  rw [hpost]
  dsimp only
  rw [run_bind_ok (rd_of_plain ha), run_bind_ok (run_get s), if_neg hq, if_pos hstate]
  rfl

variable (hstate : ¬ qState s (regVal s.fib a).toNat = 0)
include hstate

theorem exec_qpost_tenant (hten : s.fib.steward = false ∧ qTenant s (regVal s.fib a).toNat ≠ s.fib.tenant) :
    exec (.qpost sys d a v) s = .next (trapsWith s 5 (regVal s.fib a)) := by
  refine performSeq_inTurn_traps ?_ hp
  rw [hpost]
  dsimp only
  rw [run_bind_ok (rd_of_plain ha), run_bind_ok (run_get s), if_neg hq, if_neg hstate, if_pos hten]
  rfl

variable (hten : ¬ (s.fib.steward = false ∧ qTenant s (regVal s.fib a).toNat ≠ s.fib.tenant))
  (hlo : plainV s.fib (Fin.castLE (by omega) v) = true) (hhi : plainV s.fib ⟨v.val + 1, by omega⟩ = true)
include hten hlo hhi

theorem exec_qpost_record
    (hr : recordOk (postedRecord s v) = false ∨ recNat (postedRecord s v) 0x3C 2 ≠ (qTenant s (regVal s.fib a).toNat).toNat) :
    exec (.qpost sys d a v) s = .next (trapsWith s 6 (postAddr 3 (regVal s.fib a))) := by
  refine performSeq_inTurn_traps ?_ hp
  rw [hpost]
  dsimp only
  rw [run_bind_ok (rd_of_plain ha), run_bind_ok (run_get s), if_neg hq, if_neg hstate, if_neg hten, run_bind_ok (rdV_of_plain hlo),
    run_bind_ok (rdV_of_plain hhi)]
  exact congrFun (if_pos hr) s

variable (hr : ¬ (recordOk (postedRecord s v) = false ∨ recNat (postedRecord s v) 0x3C 2 ≠ (qTenant s (regVal s.fib a).toNat).toNat))
include hr

theorem exec_qpost_noCounter (hn : qNotify s (regVal s.fib a).toNat = none ∨ qTaken s (regVal s.fib a).toNat = none) :
    exec (.qpost sys d a v) s = .next (trapsWith s 6 (postAddr 4 (regVal s.fib a))) := by
  refine performSeq_inTurn_traps ?_ hp
  rw [hpost]
  dsimp only
  rw [run_bind_ok (rd_of_plain ha), run_bind_ok (run_get s), if_neg hq, if_neg hstate, if_neg hten, run_bind_ok (rdV_of_plain hlo),
    run_bind_ok (rdV_of_plain hhi)]
  refine (congrFun (if_neg hr) s).trans ?_
  cases hna : qNotify s (regVal s.fib a).toNat with
  | none => rfl
  | some na =>
    cases hta : qTaken s (regVal s.fib a).toNat with
    | none => rfl
    | some ta => simp [hna, hta] at hn

variable {na ta : Nat} (hna : qNotify s (regVal s.fib a).toNat = some na) (hta : qTaken s (regVal s.fib a).toNat = some ta)
include hna hta

theorem exec_qpost_guarded (hg : (userGuarded s na || userGuarded s ta) = true) :
    exec (.qpost sys d a v) s = .next (trapsWith s 6 (postAddr 4 (regVal s.fib a))) := by
  refine performSeq_inTurn_traps ?_ hp
  rw [hpost]
  dsimp only
  rw [run_bind_ok (rd_of_plain ha), run_bind_ok (run_get s), if_neg hq, if_neg hstate, if_neg hten, run_bind_ok (rdV_of_plain hlo),
    run_bind_ok (rdV_of_plain hhi)]
  refine (congrFun (if_neg hr) s).trans ?_
  rw [hna, hta]
  dsimp only
  rw [if_pos hg]
  rfl

omit hp in
theorem exec_qpost_posts (hg : (userGuarded s na || userGuarded s ta) = false) : exec (.qpost sys d a v) s =
    performSeq (inTurn (postKey a) (postRecord s sys d (regVal s.fib a) (postedRecord s v) na ta)) s := by
  refine performSeq_inTurn_congr ?_
  rw [hpost]
  dsimp only
  rw [run_bind_ok (rd_of_plain ha), run_bind_ok (run_get s), if_neg hq, if_neg hstate, if_neg hten, run_bind_ok (rdV_of_plain hlo),
    run_bind_ok (rdV_of_plain hhi)]
  refine (congrFun (if_neg hr) s).trans ?_
  rw [hna, hta]
  dsimp only
  rw [if_neg (by simp [hg])]
  rfl

variable (hg : (userGuarded s na || userGuarded s ta) = false) (hu : unbuffered s na = true)
include hg hu

theorem exec_qpost_waits (hhome : atHome s na = none) : exec (.qpost sys d a v) s = .next (waitsForRoom s na) := by
  have hkey : postKey a s = .home (homeOf na) := by rw [postKey_eq ha, hna]; rfl
  rw [exec_qpost_posts hpost ha hq hstate hten hlo hhi hr hna hta hg, waitsForRoom, ← hkey]
  exact waits_inTurn (run_bind_error (run_postValue_waits hu hhome)) hp

variable {s1 s2 : State} (hhome : atHome s na = some s1) (ht1 : isToxic s1 na = false) (hu1 : unbuffered s1 ta = true) (hhome1 : atHome s1 ta = some s2)
  (ht2 : isToxic s2 ta = false)
include hhome ht1 hu1 hhome1 ht2

omit hp in
theorem exec_qpost_full (hfull : 2 ^ qLog s (regVal s.fib a).toNat ≤ (readWord s1 na - readWord s2 ta).toNat) (hp2 : s2.pair = none)
    (hd : openS s2.fib d = true) : exec (.qpost sys d a v) s = .next (doneS s2 d (BitVec.allOnes 64)) := by
  rw [exec_qpost_posts hpost ha hq hstate hten hlo hhi hr hna hta hg]
  refine done_inTurn ?_ hp2 hd
  rw [postRecord, run_bind_ok (run_postValue hu hhome ht1), run_bind_ok (run_postValue hu1 hhome1 ht2), if_pos hfull]
  rfl

theorem exec_qpost_stores {t : State} {loc : Nat} (hroom : (readWord s1 na - readWord s2 ta).toNat < 2 ^ qLog s (regVal s.fib a).toNat)
    (htrans : let va := qRing s (regVal s.fib a).toNat + 128 * ((readWord s1 na).toNat % 2 ^ qLog s (regVal s.fib a).toNat)
      translate va 128 (BitVec.ofNat 64 va) accStore s2 = .ok ([(loc, 128)], t)) (hs : storable t loc = true) :
    let sc := if sys then 5 else 4
    let u := storeIn t t.focus.1 loc (postedRecord s v) (selfAdder t) true
    let p := beginPublish u u.focus.1
    exec (.qpost sys d a v) s = .next (waitsFor { pushPublish p.2 u.focus.1 sc p.1 with fib := { s.fib with post := some (readWord s1 na) } }
      (.home (homeOf na)) (.publish sc p.1)) := by
  have hkey : postKey a s = .home (homeOf na) := by rw [postKey_eq ha, hna]; rfl
  have hlen : (postedRecord s v).length = 128 := by rw [postedRecord, List.length_append, laneBytes_length, laneBytes_length]
  have hback : (isDpa loc && !backed t loc) = false := by
    rcases (Bool.or_eq_true ..).mp hs with h | h
    · rw [Bool.not_eq_true' .. |>.mp h]; rfl
    · rw [h]; exact Bool.and_false _
  have hstore : ∀ o, storeAll o [(loc, 128)] (postedRecord s v) t = .ok ((), storeIn t t.focus.1 loc (postedRecord s v) (selfAdder t) true) := by
    intro o
    rw [storeAll, storeSpans, run_bind_ok (run_get t), if_neg (by simp [hback]), run_bind_ok (run_change _ t), List.take_of_length_le (by rw [hlen])]
    rfl
  rw [exec_qpost_posts hpost ha hq hstate hten hlo hhi hr hna hta hg, ← hkey]
  refine performSeq_leave (keep := some { pushPublish _ _ _ _ with fib := { s.fib with post := some (readWord s1 na) } }) (inTurn_publish ?_) hp
  rw [postRecord, run_bind_ok (run_postValue hu hhome ht1), run_bind_ok (run_postValue hu1 hhome1 ht2), if_neg (Nat.not_le.2 hroom)]
  exact (run_bind_ok htrans).trans ((run_bind_ok (hstore _)).trans rfl)

end

/-! ## The issues after the publish has begun -/

theorem run_rdRaw {s : State} {r : SReg} (h : plainS s.fib r = true) : rdRaw r s = .ok (regVal s.fib r, s) := by
  simp only [plainS, Bool.and_eq_true, beq_iff_eq] at h
  rw [rdRaw, run_bind_ok (run_theFib s), h.1]
  rfl

theorem run_repopV {s : State} {k : Fin 16} (h : plainV s.fib k = true) : repopV k s = .ok ((), s) := by
  simp only [plainV, Bool.and_eq_true, beq_iff_eq] at h
  rw [repopV, run_bind_ok (run_theFib s), h.1]
  rfl

/-- The scope of the publish of a `qpost`. -/
def postScope (sys : Bool) : Scope := if sys then .sys else .mod

section
variable {s : State} {sys : Bool} {d a : SReg} {v : Fin 15} {n : Word} (hpost : s.fib.post = some n) (ha : plainS s.fib a = true)
  (hlo : plainV s.fib (Fin.castLE (by omega) v) = true) (hhi : plainV s.fib ⟨v.val + 1, by omega⟩ = true)
include hpost ha hlo hhi

theorem exec_qpost_again : exec (.qpost sys d a v) s = performSeq (inTurn (postKey a) (do
    releaseAt s.fib true (postScope sys)
    let u ← get
    match qNotify u (regVal s.fib a).toNat with
    | some na =>
      if userGuarded u na then fail 6 (postAddr 4 (regVal s.fib a))
      else
        comeToHome na
        change fun w => addAt w na 1 (selfAdder w)
    | none => pure ()
    modFib fun x => { x with post := none }
    result d n)) s := by
  refine performSeq_inTurn_congr ?_
  rw [hpost]
  dsimp only
  rw [completePost, run_bind_ok (run_rdRaw ha), run_bind_ok (run_repopV hlo), run_bind_ok (run_repopV hhi)]
  cases sys <;> rfl

theorem exec_qpost_publishes (hp : s.pair = none) (hrel : released s true (postScope sys) = none) :
    exec (.qpost sys d a v) s = .next (waitsFor { (publishFrom s (scopeCode (postScope sys))).2 with fib := s.fib } (postKey a s)
      (.publish (scopeCode (postScope sys)) (publishFrom s (scopeCode (postScope sys))).1)) := by
  rw [exec_qpost_again hpost ha hlo hhi]
  exact waits_inTurn_publish (run_bind_error (run_releaseAt_none s.fib hrel)) hp

variable {t : State} (hrel : released s true (postScope sys) = some t)
include hrel

theorem exec_qpost_dropped (hn : qNotify t (regVal s.fib a).toNat = none) (hp : t.pair = none) (hd : openS t.fib d = true) :
    exec (.qpost sys d a v) s = .next (doneS { t with fib := { t.fib with post := none } } d n) := by
  rw [exec_qpost_again hpost ha hlo hhi]
  refine done_inTurn ?_ hp hd
  rw [run_bind_ok (run_releaseAt_some s.fib hrel), run_bind_ok (run_get t), hn]
  rfl

variable {na : Nat} (hn : qNotify t (regVal s.fib a).toNat = some na)
include hn

theorem exec_qpost_nowGuarded (hp : s.pair = none) (hg : userGuarded t na = true) :
    exec (.qpost sys d a v) s = .next (trapsWith s 6 (postAddr 4 (regVal s.fib a))) := by
  rw [exec_qpost_again hpost ha hlo hhi]
  refine performSeq_inTurn_traps ?_ hp
  rw [run_bind_ok (run_releaseAt_some s.fib hrel), run_bind_ok (run_get t), hn]
  dsimp only
  rw [if_pos hg]
  rfl

variable (hg : userGuarded t na = false)
include hg

theorem exec_qpost_addWaits (hp : s.pair = none) (hhome : atHome t na = none) : exec (.qpost sys d a v) s = .next (waitsFor s (postKey a s) .room) := by
  rw [exec_qpost_again hpost ha hlo hhi]
  refine waits_inTurn ?_ hp
  rw [run_bind_ok (run_releaseAt_some s.fib hrel), run_bind_ok (run_get t), hn]
  dsimp only
  rw [if_neg (by simp [hg])]
  exact run_bind_error (run_comeToHome_none hhome)

theorem exec_qpost_adds {y : State} (hhome : atHome t na = some y) (hp : (addAt y na 1 (selfAdder y)).pair = none)
    (hd : openS (addAt y na 1 (selfAdder y)).fib d = true) :
    exec (.qpost sys d a v) s = .next (doneS { addAt y na 1 (selfAdder y) with fib := { (addAt y na 1 (selfAdder y)).fib with post := none } } d n) := by
  rw [exec_qpost_again hpost ha hlo hhi]
  refine done_inTurn ?_ hp hd
  rw [run_bind_ok (run_releaseAt_some s.fib hrel), run_bind_ok (run_get t), hn]
  dsimp only
  rw [if_neg (by simp [hg])]
  exact (run_bind_ok (run_comeToHome_some hhome)).trans rfl

end

/-- Settles O41: the first issue is followed through its checks to `postRecord`, the later ones to the add at NOTIFY. -/
theorem queuePost : Obligations.QueuePost := by
  unfold Obligations.QueuePost
  refine ⟨fun s sys d a v hp hpost ha => ?_, fun s sys d a v n hp hpost ha hlo hhi => ?_⟩
  · have hzero : BitVec.ofNat 64 (0 * 2 ^ 56) + regVal s.fib a = regVal s.fib a := by simp
    refine ⟨exec_qpost_number hp hpost ha, fun hq hstate => exec_qpost_closed hp hpost ha (Nat.not_le.2 hq) hstate, fun hq hstate => ⟨fun hst hten => ?_,
      fun hmine hlo hhi => ?_⟩⟩
    · dsimp only
      rw [hzero]
      refine exec_qpost_tenant hp hpost ha (Nat.not_le.2 hq) hstate ⟨hst, fun h => hten ?_⟩
      rw [← h, qTenant_eq_iff]
    · have hq' := Nat.not_le.2 hq
      have hten : ¬ (s.fib.steward = false ∧ qTenant s (regVal s.fib a).toNat ≠ s.fib.tenant) := by
        rintro ⟨hst, hne⟩
        rcases hmine with h | h
        · exact absurd h (by simp [hst])
        · exact hne (BitVec.eq_of_toNat_eq (by rw [qTenant_eq_iff]; exact h))
      refine ⟨fun hr => exec_qpost_record hp hpost ha hq' hstate hten hlo hhi ?_, fun hok hfield => ?_⟩
      · rw [qTenant_eq_iff]; exact hr
      · have hr : ¬ (recordOk (postedRecord s v) = false ∨ recNat (postedRecord s v) 0x3C 2 ≠ (qTenant s (regVal s.fib a).toNat).toNat) := by
          rw [qTenant_eq_iff]
          rintro (h | h)
          · exact Bool.false_ne_true (h.symm.trans hok)
          · exact h hfield
        refine ⟨exec_qpost_noCounter hp hpost ha hq' hstate hten hlo hhi hr, fun na ta hna hta => exec_qpost_guarded hp hpost ha hq' hstate hten hlo hhi hr hna hta,
          fun na ta hna hta hg hu => exec_qpost_waits hp hpost ha hq' hstate hten hlo hhi hr hna hta hg hu,
          fun na ta s1 s2 t loc hna hta hg hu hhome ht1 hu1 hhome1 ht2 => ⟨?_, ?_⟩⟩
        · exact exec_qpost_full hpost ha hq' hstate hten hlo hhi hr hna hta hg hu hhome ht1 hu1 hhome1 ht2
        · exact exec_qpost_stores hp hpost ha hq' hstate hten hlo hhi hr hna hta hg hu hhome ht1 hu1 hhome1 ht2
  · rw [← postKey_eq ha]
    refine ⟨fun t hrel hn hpt hd => exec_qpost_dropped hpost ha hlo hhi hrel hn hpt hd,
      fun t na hrel hn => ⟨exec_qpost_nowGuarded hpost ha hlo hhi hrel hn hp, fun hg => exec_qpost_addWaits hpost ha hlo hhi hrel hn hg hp⟩,
      fun t na y hrel hn hg hhome => exec_qpost_adds hpost ha hlo hhi hrel hn hg hhome, exec_qpost_publishes hpost ha hlo hhi hp⟩

end Sys2Proof
end

