-- ==== Sys2Proof/Proofs/Invalidation.lean ====
section
/-!
SUPPORT. Invalidating TLB entries: O37.
-/
namespace Sys2Proof
open Machine Safety

theorem run_needSteward {s : State} (h : s.fib.steward = true) : needSteward s = .ok ((), s) := by
  rw [needSteward, run_bind_ok (run_theFib s), if_pos h, run_pure]

theorem run_needSteward_user {s : State} (h : s.fib.steward = false) : needSteward s = .error (.trap 5 0 false none) := by
  rw [needSteward, run_bind_ok (run_theFib s), if_neg (by simp [h]), run_fail]

/-! ## With no store on its way -/

theorem look_of_all {α : Type} {l : List (Nat × α)} {P : α → Prop} {d : α} (h : ∀ c ∈ l, P c.2) (hd : P d) (g : Nat) : P ((look l g).getD d) := by
  induction l with
  | nil => exact hd
  | cons e r ih =>
    obtain ⟨i, a⟩ := e
    rw [look]
    split
    · exact h (i, a) (.head r)
    · exact ih fun c hc => h c (.tail _ hc)

theorem drainPages_empty {pages : List (Nat × Nat)} {s : State} (h : ∀ c ∈ s.cores, c.2.sb = []) (gs : List Nat) : drainPages pages gs s = s := by
  induction gs with
  | nil => rfl
  | cons g gs ih =>
    have hsb : (getCore s g).sb = [] := look_of_all (P := fun c : Core => c.sb = []) h rfl g
    rw [drainPages, List.foldl_cons, hsb]
    exact ih

theorem pushPages_empty {pages : List (Nat × Nat)} {s : State} (h : s.ports = []) : pushPages pages s = some s := by
  rw [pushPages, h]
  simp [h]

/-- A page that an entry names, as `invalidate` looks for its lines. -/
theorem entryPage_eq (e : TlbEntry) : entryPage e = (leafDpa e.leaf 0, if e.blk then 2 ^ 29 else 65536) := by
  rw [entryPage]; split <;> rfl

/-- What an invalidation of the entries that p picks leaves, where no store is held (R243, R244). -/
def invalidated (s t : State) (p : TlbEntry → Bool) : Prop :=
  t.tlbs = s.tlbs.filter (fun e => !p e) ∧ t.epoch = s.epoch + 1
    ∧ (∀ c ∈ t.cores, ∀ l ∈ c.2.cache, ∀ e ∈ s.tlbs, p e = true →
        l.block + 64 ≤ leafDpa e.leaf 0 ∨ leafDpa e.leaf 0 + (if e.blk then 2 ^ 29 else 65536) ≤ l.block)
    ∧ (∀ c ∈ t.cores, ∀ l ∈ c.2.lines, ∀ e ∈ s.tlbs, p e = true →
        l.loc < leafDpa e.leaf 0 ∨ leafDpa e.leaf 0 + (if e.blk then 2 ^ 29 else 65536) ≤ l.loc)
    ∧ t.grants = s.grants.filter (fun e => !p (grantEntry e))
    ∧ t = { s with tlbs := t.tlbs, grants := t.grants, epoch := t.epoch, invs := t.invs, cores := t.cores }

theorem invalidate_quiet {s : State} (what : Option (BitVec 12 × Option Nat)) (p : TlbEntry → Bool) (hsb : ∀ c ∈ s.cores, c.2.sb = [])
    (hports : s.ports = []) : ∃ t, invalidate s what p = some t ∧ invalidated s t p := by
  unfold invalidate
  extract_lets gone keep stay s1
  have hgone : ∀ e ∈ s.tlbs, p e = true → entryPage e ∈ gone := fun e he hpe =>
    List.mem_map_of_mem (List.mem_append_left _ (List.mem_filter.2 ⟨he, hpe⟩))
  cases hempty : gone.isEmpty with
  | true =>
    have hnone : ∀ e ∈ s.tlbs, ¬ p e = true := fun e he hpe => by
      have := hgone e he hpe
      rw [List.isEmpty_iff.1 hempty] at this
      cases this
    exact ⟨s1, rfl, rfl, rfl, fun c _ l _ e he hpe => absurd hpe (hnone e he), fun c _ l _ e he hpe => absurd hpe (hnone e he), rfl, rfl⟩
  | false =>
    have hcores : s1.cores = s.cores.map fun c => (c.1, { c.2 with cache := c.2.cache.filter keep, lines := c.2.lines.filter stay }) := by
      simp only [s1, hempty]; rfl
    have hsb1 : ∀ c ∈ s1.cores, c.2.sb = [] := by
      rw [hcores]
      intro c hc
      obtain ⟨c', hc', rfl⟩ := List.mem_map.1 hc
      exact hsb c' hc'
    refine ⟨s1, ?_, rfl, rfl, fun c hc l hl e he hpe => ?_, fun c hc l hl e he hpe => ?_, rfl, rfl⟩
    · rw [if_neg Bool.false_ne_true, drainPages_empty hsb1, pushPages_empty (show s1.ports = [] from hports)]
    · rw [hcores] at hc
      obtain ⟨c', -, rfl⟩ := List.mem_map.1 hc
      have hkeep := (List.mem_filter.1 hl).2
      simp only [keep, Bool.not_eq_true', List.any_eq_false] at hkeep
      have := hkeep _ (hgone e he hpe)
      rw [entryPage_eq] at this
      simp only [Bool.and_eq_true, decide_eq_true_eq] at this
      omega
    · rw [hcores] at hc
      obtain ⟨c', -, rfl⟩ := List.mem_map.1 hc
      have hstay := (List.mem_filter.1 hl).2
      simp only [stay, Bool.not_eq_true', List.any_eq_false] at hstay
      have := hstay _ (hgone e he hpe)
      rw [entryPage_eq] at this
      simp only [Bool.and_eq_true, decide_eq_true_eq] at this
      omega

/-! ## The three forms -/

section
variable {s : State} {a b : SReg} (hp : s.pair = none) (hst : s.fib.steward = true)
include hp hst

omit hst in
/-- An effect that invalidates, after the check of privilege. -/
theorem done_of_invalidates {m : M Unit} {p q : TlbEntry → Bool} {what : Option (BitVec 12 × Option Nat)} (hpq : p = q)
    (hsb : ∀ c ∈ s.cores, c.2.sb = []) (hports : s.ports = []) (hm : m s = invalidateM what p s) :
    ∃ t, invalidated s t q ∧ performSeq m s = .next (goOn t) := by
  obtain ⟨t, ht, hgone⟩ := invalidate_quiet what p hsb hports
  have hpair : t.pair = none := by rw [hgone.2.2.2.2.2]; exact hp
  refine ⟨t, hpq ▸ hgone, done_of_unit (hm.trans ?_) hpair⟩
  simp only [invalidateM, changeOrWait, ht]

variable (ha : plainS s.fib a = true)
include ha

theorem exec_tlbinvTen_wide (hx : 4096 ≤ (regVal s.fib a).toNat) : exec (.tlbinvTen a) s = .next (trapsWith s 6 (regVal s.fib a)) := by
  refine performSeq_fails ?_ hp
  rw [run_bind_ok (run_needSteward hst), run_bind_ok (rd_of_plain ha), if_pos hx]
  rfl

omit hp in
theorem run_tlbinvTen (hx : ¬ (regVal s.fib a).toNat ≥ 4096) : (do
    needSteward
    let x ← rd a
    if x.toNat ≥ 4096 then fail 6 x
    else invalidateM (some (x.setWidth 12, none)) fun e => e.tenant == x.setWidth 12 : M Unit) s
      = invalidateM (some ((regVal s.fib a).setWidth 12, none)) (fun e => e.tenant == (regVal s.fib a).setWidth 12) s := by
  rw [run_bind_ok (run_needSteward hst), run_bind_ok (rd_of_plain ha), if_neg hx]

variable (hb : plainS s.fib b = true)
include hb

theorem exec_tlbinvVa_wideTenant (hx : 4096 ≤ (regVal s.fib a).toNat) : exec (.tlbinvVa a b) s = .next (trapsWith s 6 (regVal s.fib a)) := by
  refine performSeq_fails ?_ hp
  rw [run_bind_ok (run_needSteward hst), run_bind_ok (rd_of_plain ha), run_bind_ok (rd_of_plain hb), if_pos hx]
  rfl

theorem exec_tlbinvVa_wideAddress (hx : ¬ (regVal s.fib a).toNat ≥ 4096) (hy : 2 ^ 55 ≤ (regVal s.fib b).toNat) :
    exec (.tlbinvVa a b) s = .next (trapsWith s 6 (regVal s.fib b)) := by
  refine performSeq_fails ?_ hp
  rw [run_bind_ok (run_needSteward hst), run_bind_ok (rd_of_plain ha), run_bind_ok (rd_of_plain hb), if_neg hx, if_pos hy]
  rfl

omit hp in
theorem run_tlbinvVa (hx : ¬ (regVal s.fib a).toNat ≥ 4096) (hy : ¬ (regVal s.fib b).toNat ≥ 2 ^ 55) : (do
    needSteward
    let x ← rd a
    let y ← rd b
    if x.toNat ≥ 4096 then fail 6 x
    else if y.toNat ≥ 2 ^ 55 then fail 6 y
    else invalidateM (some (x.setWidth 12, some y.toNat)) fun e => covers e (x.setWidth 12) y : M Unit) s
      = invalidateM (some ((regVal s.fib a).setWidth 12, some (regVal s.fib b).toNat)) (fun e => covers e ((regVal s.fib a).setWidth 12) (regVal s.fib b)) s := by
  rw [run_bind_ok (run_needSteward hst), run_bind_ok (rd_of_plain ha), run_bind_ok (rd_of_plain hb), if_neg hx, if_neg hy]

end

theorem tenant_eq_setWidth {x : Word} (hx : x.toNat < 4096) (t : BitVec 12) : (t == x.setWidth 12) = (t.toNat == x.toNat) := by
  have hw : (x.setWidth 12).toNat = x.toNat := by rw [BitVec.toNat_setWidth, Nat.mod_eq_of_lt hx]
  rw [Bool.eq_iff_iff, beq_iff_eq, beq_iff_eq, ← BitVec.toNat_inj, hw]

/-- Settles O37: an invalidation with no store on its way is `invalidate_quiet`; the three forms differ in the entries that they pick. -/
theorem invalidation : Obligations.Invalidation := by
  unfold Obligations.Invalidation
  intro s a b hp ha hb
  refine ⟨fun hst => ⟨?_, ?_, ?_⟩, fun hst => ⟨fun hx => ⟨exec_tlbinvTen_wide hp hst ha hx, exec_tlbinvVa_wideTenant hp hst ha hb hx⟩,
    fun hx hy => exec_tlbinvVa_wideAddress hp hst ha hb (Nat.not_le.2 hx) hy, fun hsb hports => ⟨?_, fun hx => ?_, fun hx hy => ?_⟩⟩⟩
  · exact performSeq_fails (run_bind_error (run_needSteward_user hst)) hp
  · exact performSeq_fails (run_bind_error (run_needSteward_user hst)) hp
  · exact performSeq_fails (run_bind_error (run_needSteward_user hst)) hp
  · exact done_of_invalidates hp rfl hsb hports (run_bind_ok (run_needSteward hst))
  · exact done_of_invalidates hp (funext fun e => tenant_eq_setWidth hx e.tenant) hsb hports (run_tlbinvTen hst ha (Nat.not_le.2 hx))
  · have hpick : (fun e => covers e ((regVal s.fib a).setWidth 12) (regVal s.fib b)) = fun e => e.tenant.toNat == (regVal s.fib a).toNat
        && (if e.blk then (regVal s.fib b).toNat / 2 ^ 29 == e.page else (regVal s.fib b).toNat / 65536 == e.page) := by
      funext e
      rw [covers, tenant_eq_setWidth hx, Nat.mod_eq_of_lt hy]
    obtain ⟨t, hgone, hexec⟩ := done_of_invalidates hp hpick hsb hports (run_tlbinvVa hst ha hb (Nat.not_le.2 hx) (Nat.not_le.2 hy))
    exact ⟨t, hexec, hgone⟩

end Sys2Proof
end

