-- ==== Sys2Proof/Proofs/PortEvents.lean ====
section
/-!
SUPPORT. The ports and registers of the steward window, and evictions: O50.
-/
namespace Sys2Proof
open Machine Safety

/-! ## The wake and the refuse port (R241) -/

section
variable {s : State} {g : Nat} {v : Word} {who : Adder}

theorem wakeStore_add (hg : present s g = true) (hv : v.toNat < 2 ^ 63) (hk : who.kind ≠ 0)
    (ht : isToxic (correctRead s (wakeCtr g) 8) (wakeCtr g) = false) :
    wakeStore s g v who = setCounter (correctRead s (wakeCtr g) 8) (wakeCtr g) (readWord (correctRead s (wakeCtr g) 8) (wakeCtr g) + v) who := by
  rw [wakeStore, if_pos ⟨hg, hv⟩, if_neg hk, addAt]
  simp only [ht]
  rfl

theorem closeEntries_rels (s : State) (g : Nat) : (closeEntries s g).rels = s.rels := by unfold closeEntries; dsimp only; split <;> rfl

theorem wakeStore_release (hg : present s g = true) (hv : v.toNat < 2 ^ 63) (hk : who.kind = 0) :
    wakeStore s g v who = { closeEntries s who.core with rels := s.rels ++
      [{ g := who.core, sc := 4, upto := ⟨(getCore s who.core).sbSeq, s.accepts⟩, loc := some (wakeCtr g), inc := v, who := who }] } := by
  rw [wakeStore, if_pos ⟨hg, hv⟩, if_pos hk, beginRelease, closeEntries_rels]

theorem wakeStore_ignored (h : present s g = false ∨ 2 ^ 63 ≤ v.toNat) : wakeStore s g v who = s := by
  rw [wakeStore, if_neg]
  rintro ⟨hg, hv⟩
  rcases h with h | h
  · exact absurd hg (by simp [h])
  · omega

/-- With no request at a port nothing is passed on. -/
theorem pushReqs_empty {p : PortReq → Bool} {b : Bool} (h : s.ports = []) : pushReqs p b s g = s := by
  have hclu : pushClu p s.ports.length s (clusterOf g) = s := by rw [h]; rfl
  rw [pushReqs, hclu, h]
  cases b <;> rfl

/-- A release at `.mod` that waits for no store, and behind none, is made (R120). -/
theorem runRelease_quiet {r : Release} {a : Nat} (hports : s.ports = []) (hsb : (getCore s r.g).sb = []) (hrels : s.rels = []) (hsc : r.sc = 4)
    (hloc : r.loc = some a) (hends : r.ends = false) : runRelease s r = addAt s a r.inc r.who := by
  have hpush : pushPublish s r.g r.sc r.upto = s := by
    rw [pushPublish, hsc, if_neg (by decide), hsb]
    exact (if_neg (by decide)).trans (pushReqs_empty hports)
  have hpath : clearPath s r.g (releaseAim r) = s := by rw [clearPath, hports]; rfl
  have hclear : pathClear s r.g (releaseAim r) = true := by rw [pathClear, hports]; rfl
  have hdone : publishDone s r.g r.sc r.upto = true := by rw [publishDone, published, hsb, hports]; simp
  rw [runRelease, hrels, List.any_nil, if_neg Bool.false_ne_true]
  dsimp only
  rw [hpush, hpath, hdone, hclear, Bool.and_self, if_pos rfl, makeRelease, hloc, hends]
  rfl

theorem mem_outstanding : v.toNat ∈ outstanding s g ↔ v.toNat ∈ (getCore s g).tickets ∧ reached (readWord s (wakeCtr g)) v = false := by
  have hv : w64 v.toNat = v := by rw [w64, BitVec.ofNat_toNat, BitVec.setWidth_eq]
  simp [outstanding, hv]

theorem refuseStore_refuses (hin : v.toNat ∈ (getCore s g).tickets) (hr : reached (readWord s (wakeCtr g)) v = false)
    (hn : v.toNat ∉ (getCore s g).refused) :
    refuseStore s g v = setCore s g { getCore s g with refused := (getCore s g).refused ++ [v.toNat] } := by
  have hout := mem_outstanding.2 ⟨hin, hr⟩
  rw [refuseStore, if_pos (by simp [hout, hn])]

theorem refuseStore_ignored (h : v.toNat ∉ (getCore s g).tickets ∨ reached (readWord s (wakeCtr g)) v = true) : refuseStore s g v = s := by
  have hout : v.toNat ∉ outstanding s g := by
    rw [mem_outstanding]
    rintro ⟨hin, hr⟩
    rcases h with h | h
    · exact h hin
    · exact absurd h (by simp [hr])
  rw [refuseStore, if_neg (by simp [hout])]

end

/-! ## The frame pools (R246) -/

/-- The offsets of the four ports of a tier. -/
theorem poolWord_facts : ∀ tier : Fin 4, ∀ k ∈ [0, 8, 0x10, 0x18], inRange (poolWord tier k) 0x12010000 0x12010100 = true
    ∧ Fin.ofNat 4 ((poolWord tier k - 0x12010000) / 64) = tier ∧ poolWord tier k % 64 = k := by decide

theorem exec_pop (s : State) (tier : Fin 4) (big : Bool) : exec (if big then .pop512 tier else .pop64 tier) s = .next (popFrame s tier big).2 := by
  cases big with
  | false =>
    obtain ⟨h1, h2, h3⟩ := poolWord_facts tier 0 (by decide)
    show Host.Outcome.next (swLoad s (poolWord tier 0) 8 true).2 = _
    rw [swLoad, if_pos ⟨rfl, rfl, h1, .inl h3⟩, h2, h3]
    rfl
  | true =>
    obtain ⟨h1, h2, h3⟩ := poolWord_facts tier 0x10 (by decide)
    show Host.Outcome.next (swLoad s (poolWord tier 0x10) 8 true).2 = _
    rw [swLoad, if_pos ⟨rfl, rfl, h1, .inr h3⟩, h2, h3]
    rfl

theorem exec_push (s : State) (tier : Fin 4) (frame : Word) (big : Bool) :
    exec (if big then .push512 tier frame else .push64 tier frame) s = .next (pushFrame s tier big frame.toNat) := by
  cases big with
  | false =>
    obtain ⟨h1, h2, h3⟩ := poolWord_facts tier 8 (by decide)
    show Host.Outcome.next (portStore s (poolWord tier 8) frame ⟨0, 0, 0⟩) = _
    rw [portStore, if_pos h1, h2, if_pos h3]
  | true =>
    obtain ⟨h1, h2, h3⟩ := poolWord_facts tier 0x18 (by decide)
    show Host.Outcome.next (portStore s (poolWord tier 0x18) frame ⟨0, 0, 0⟩) = _
    rw [portStore, if_pos h1, h2, if_neg (by omega), if_pos h3]

section
variable {s : State} {tier : Fin 4} {big : Bool}

theorem popFrame_back {f : Nat} {r : List Nat} (hb : s.pools[poolIdx tier big].back = f :: r) :
    let p := s.pools[poolIdx tier big]
    (popFrame s tier big).2 = { s with pools := s.pools.set (poolIdx tier big) { p with back := r } } := by
  dsimp only
  rw [popFrame, hb]

variable (hb : s.pools[poolIdx tier big].back = [])
include hb

theorem popFrame_fresh {lo hi : Nat} {r : List (Nat × Nat)} (hf : s.pools[poolIdx tier big].fresh = (lo, hi) :: r) :
    let p := s.pools[poolIdx tier big]
    (popFrame s tier big).2 = { s with pools := s.pools.set (poolIdx tier big) { p with fresh := if lo + 1 < hi then (lo + 1, hi) :: r else r } } := by
  dsimp only
  rw [popFrame, hb, hf]

theorem popFrame_none (hf : s.pools[poolIdx tier big].fresh = []) : (popFrame s tier big).2 = s := by
  rw [popFrame, hb, hf]

end

/-- The ports of a tier's pool b. -/
theorem framePorts (s : State) (tier : Fin 4) (frame : Word) (big : Bool) {b : Fin 8} (hidx : poolIdx tier big = b) :
    let p := s.pools[b]
    let pop := exec (if big then .pop512 tier else .pop64 tier) s
    exec (if big then .push512 tier frame else .push64 tier frame) s
        = .next { s with pools := s.pools.set b { p with back := frame.toNat :: p.back } }
      ∧ (∀ f r, p.back = f :: r → pop = .next { s with pools := s.pools.set b { p with back := r } })
      ∧ (∀ lo hi r, p.back = [] → p.fresh = (lo, hi) :: r →
          pop = .next { s with pools := s.pools.set b { p with fresh := if lo + 1 < hi then (lo + 1, hi) :: r else r } })
      ∧ (p.back = [] → p.fresh = [] → pop = .next s) := by
  subst hidx
  refine ⟨exec_push s tier frame big, fun f r hb => ?_, fun lo hi r hb hfr => ?_, fun hb hfr => ?_⟩
  · exact (exec_pop s tier big).trans (congrArg Host.Outcome.next (popFrame_back hb))
  · exact (exec_pop s tier big).trans (congrArg Host.Outcome.next (popFrame_fresh hb hfr))
  · exact (exec_pop s tier big).trans (congrArg Host.Outcome.next (popFrame_none hb hfr))

/-! ## Plain words (R8) -/

section
variable {s : State} {off : Nat} {b : Byte}

theorem irqsOf_outside (h : ∀ v < 64, off < 0x17001000 + 32 * v ∨ 0x17001000 + 32 * v + 32 ≤ off) : irqsOf off 1 = [] := by
  rw [irqsOf, List.filter_eq_nil_iff]
  intro v hv
  have := h v (List.mem_range.1 hv)
  simp only [Bool.and_eq_true, decide_eq_true_eq]
  omega

/-- A store of one byte covers no word. -/
theorem filter_one_byte (l : List Nat) (o : Nat) : l.filter (fun w => !(o ≤ w && w + 8 ≤ o + 1)) = l := by
  rw [List.filter_eq_self]
  intro w _
  simp only [Bool.not_eq_true', Bool.and_eq_false_iff, decide_eq_false_iff_not]
  omega

/-- A store of one byte outside the notify table. -/
theorem registerStore_byte (h : ∀ v < 64, off < 0x17001000 + 32 * v ∨ 0x17001000 + 32 * v + 32 ≤ off) :
    registerStore s off [b] = swStoreByte s off b := by
  have hpoison : (if s.poison.isEmpty then s else
      { s with poison := s.poison.filter fun w => !(swLoc off ≤ w && w + 8 ≤ swLoc off + [b].length) }) = s := by
    split
    · rfl
    · rw [List.length_singleton, filter_one_byte]
  rw [registerStore, if_neg (by simp), swStore, if_neg (by simp)]
  dsimp only
  rw [hpoison, List.length_singleton, irqsOf_outside h]
  split <;> rfl

theorem registerStore_plain (hk : swKind off = .plain) (h : ∀ v < 64, off < 0x17001000 + 32 * v ∨ 0x17001000 + 32 * v + 32 ≤ off) :
    registerStore s off [b] = setByte s (swLoc off) b := by
  rw [registerStore_byte h, swStoreByte, hk]

theorem registerStore_ignored (hk : swKind off = .readOnly ∨ swKind off = .hole)
    (h : ∀ v < 64, off < 0x17001000 + 32 * v ∨ 0x17001000 + 32 * v + 32 ≤ off) : registerStore s off [b] = s := by
  rw [registerStore_byte h, swStoreByte]
  rcases hk with hk | hk <;> rw [hk]

end

/-! ## Evictions (R254, R255) -/

section
variable {s : State} {n : Nat} {e : Evict}

theorem startEvict_starts (hf : s.evicts.find? (fun x => entryClu s x.entry == entryClu s n) = some e) (hn : e.entry = n) (hb : e.busy = false) :
    startEvict s n = writeNat { s with evicts := s.evicts.map fun x => if x.entry = n then { x with busy := true } else x } (entryLoc n + 0x0E) 1 3 := by
  rw [startEvict, hf]
  simp only [hn, hb, and_self, if_true, beq_iff_eq]

theorem startEvict_waits (hf : s.evicts.find? (fun x => entryClu s x.entry == entryClu s n) = some e) (h : e.entry ≠ n ∨ e.busy = true) :
    startEvict s n = s := by
  rw [startEvict, hf]
  dsimp only
  rw [if_neg]
  rintro ⟨h1, h2⟩
  rcases h with h | h
  · exact h h1
  · exact absurd h (by simp [h2])

/-- An eviction whose pages translate goes on behind what the ports hold (R118, R254). -/
theorem completeEvict_translated {l : List (Nat × Nat)} (hf : s.evicts.find? (fun x => x.entry == n && x.busy) = some e) (hpark : e.park = none)
    (hl : spansVia (askEngine s e.g e.tenant accEngWrite (.evict n) 0) (entrySize s n / 65536 + 2)
      (hCur s (bitsOf (entryHandle s n) 24 20)).toNat (entrySize s n) = .ok l) (hlink : ∀ p ∈ l, linkStateOf s p.1 ≠ 3) :
    completeEvict s n = if pathClear (clearPath s e.g Config.swBase) e.g Config.swBase then endEvict (clearPath s e.g Config.swBase) e l else s := by
  have hany : l.any (fun p => linkStateOf s p.1 == 3) = false := by
    rw [List.any_eq_false]; intro p hp; simpa using hlink p hp
  rw [completeEvict, hf]
  dsimp only
  rw [hpark]
  dsimp only
  rw [hl]
  dsimp only
  rw [hany, Bool.false_or]
  cases pathClear (clearPath s e.g Config.swBase) e.g Config.swBase <;> rfl

/-- The write of the image, as the last event of an eviction tries it. -/
def imageWritten (s : State) (e : Evict) (l : List (Nat × Nat)) : Option State :=
  let img := devRead (dropGrants s (.evict e.entry) none) (dieOf e.g) (entryArea s e.entry) (entrySize s e.entry)
  writeImage (dieOf e.g) ⟨1, e.g, e.f⟩ l img.1 img.2

theorem endEvict_waits {l : List (Nat × Nat)} (hw : imageWritten s e l = none) : endEvict s e l = s := by
  rw [imageWritten] at hw
  rw [endEvict]
  dsimp only at hw ⊢
  rw [hw]

/-- The entry of an image is free, and its frame area holds `zeros`. -/
def freedImage (a : Nat) (zeros : List Byte) (t : State) (e : Evict) : State :=
  writeNat (writeWord (storeBytes t a zeros) (entryLoc e.entry) 0) (entryLoc e.entry + 0x0E) 1 0

/-- The end of an eviction: the granules of the image's frame area `a` are guarded no longer, and its counter is told. -/
def unguarded (t : State) (a : Nat) (e : Evict) : State :=
  evictAdd { t with guards := (granulesOf a).foldl (fun l g => l.erase g) t.guards } e 1

theorem unguarded_eq (t : State) (a : Nat) (e : Evict) :
    unguarded t a e = addAt { t with guards := (granulesOf a).foldl (fun l g => l.erase g) t.guards
                                     evicts := t.evicts.filter fun x => x.entry != e.entry } e.ctr 1 ⟨1, e.g, e.f⟩ := rfl

/-- `endEvict` with the bytes of the frame area's new content left open: what follows is proved for any bytes, so that no proof evaluates the
16,384 zeros. -/
def endEvictWith (zeros : List Byte) (s : State) (e : Evict) (l : List (Nat × Nat)) : State :=
  match imageWritten s e l with
  | none => s
  | some t => unguarded (freedImage (entryArea s e.entry) zeros t e) (entryArea s e.entry) e

theorem endEvict_eq_with (s : State) (e : Evict) (l : List (Nat × Nat)) : endEvict s e l = endEvictWith (List.replicate 16384 0) s e l := rfl

theorem endEvictWith_written {l : List (Nat × Nat)} {t : State} (zeros : List Byte) (hw : imageWritten s e l = some t) :
    endEvictWith zeros s e l = unguarded (freedImage (entryArea s e.entry) zeros t e) (entryArea s e.entry) e := by
  rw [endEvictWith, hw]

/-- An eviction whose image is written: the frame area is zeroed and the entry is free. -/
theorem endEvict_written {l : List (Nat × Nat)} {t : State} (hw : imageWritten s e l = some t) :
    let done := storeBytes t (entryArea s e.entry) (List.replicate 16384 0)
    let free := writeNat (writeWord done (entryLoc e.entry) 0) (entryLoc e.entry + 0x0E) 1 0
    endEvict s e l = addAt { free with guards := (granulesOf (entryArea s e.entry)).foldl (fun l g => l.erase g) free.guards
                                       evicts := free.evicts.filter fun x => x.entry != e.entry } e.ctr 1 ⟨1, e.g, e.f⟩ :=
  ((endEvict_eq_with s e l).trans (endEvictWith_written _ hw)).trans (unguarded_eq _ _ e)

end

/-- Settles O50: each port is one function of the model; a store of one byte outside the notify table is `swStoreByte`, and an eviction whose
pages translate ends with `endEvict`. -/
theorem portEvents : Obligations.PortEvents := by
  unfold Obligations.PortEvents
  refine ⟨fun s g v who => ⟨fun hg hv => ⟨fun hk => ?_, fun hk => ⟨?_, fun hports hsb hrels => ?_⟩⟩, fun h => ?_, fun hin hr hn => ?_, fun h => ?_⟩,
    fun s tier frame big => ?_, fun s off b => ⟨fun hk h => ?_, fun hk _ h => ?_⟩,
    fun s n e hf => ⟨fun hn hb => ?_, fun h => ?_⟩, fun s n e l hf hpark hl hlink => ?_⟩
  · exact fun ht => congrArg Host.Outcome.next (wakeStore_add hg hv hk ht)
  · exact congrArg Host.Outcome.next (wakeStore_release hg hv hk)
  · exact runRelease_quiet hports hsb hrels rfl rfl rfl
  · exact congrArg Host.Outcome.next (wakeStore_ignored h)
  · exact congrArg Host.Outcome.next (refuseStore_refuses hin hr hn)
  · exact congrArg Host.Outcome.next (refuseStore_ignored h)
  · exact framePorts s tier frame big (by cases big <;> revert tier <;> decide)
  · refine ⟨_, congrArg Host.Outcome.next (registerStore_plain hk h), byteAt_setByte_same s _ b, fun a ha => byteAt_setByte_ne s b ha, rfl⟩
  · exact congrArg Host.Outcome.next (registerStore_ignored hk h)
  · exact congrArg Host.Outcome.next (startEvict_starts hf hn hb)
  · exact congrArg Host.Outcome.next (startEvict_waits hf h)
  · have hn : e.entry = n := by have := List.find?_some hf; simp at this; exact this.1
    subst hn
    have heq := completeEvict_translated hf hpark hl hlink
    refine ⟨fun hc => ?_, fun hc => ⟨fun hw => ?_, fun t hw => ?_⟩⟩
    · exact congrArg Host.Outcome.next (heq.trans (if_neg (by simp [hc])))
    · exact congrArg Host.Outcome.next ((heq.trans (if_pos hc)).trans (endEvict_waits hw))
    · exact congrArg Host.Outcome.next ((heq.trans (if_pos hc)).trans (endEvict_written hw))

end Sys2Proof
end

