-- ==== Sys2Proof/Proofs/LinkStates.lean ====
section
/-!
SUPPORT. The states of a link, and the resets of the host function: O54.
-/
namespace Sys2Proof
open Machine Safety

/-! ## Changes of state (R355) -/

theorem changeLink_up (s : State) (l : Link) : changeLink s l 2 = levtAdd (setLink s { l with state := 2 }) l.id := rfl

/-- WIDTH and RATE are 0 in every state but up (R354). -/
theorem changeLink_away (s : State) (l : Link) {st : BitVec 3} (h : st ≠ 2) :
    changeLink s l st = levtAdd (setLink s { l with state := st, width := 0, rate := 0 }) l.id := by rw [changeLink, if_neg h]

/-- A link that goes down begins its numbers anew. -/
def anew (l : Link) : Link := { l with rxSeq := 0, txSeq := 0, replay := [], backlog := [], tries := 0 }

/-- The link enters a state but up. -/
def entered (s : State) (l : Link) (st : BitVec 3) : State := levtAdd (setLink s { l with state := st, width := 0, rate := 0 }) l.id

theorem dropLink_eq (s : State) (l : Link) {st : BitVec 3} (h : st ≠ 2) :
    dropLink s l st = entered { s with cmds := s.cmds.map fun d => loseCmd d l.replay } (anew l) st := changeLink_away _ _ h

section
variable {s : State} {id : LinkId}

theorem trainLink_trains (w r p : Nat) (h : (getLink s id).state = 1 ∨ (getLink s id).state = 3) :
    trainLink s id w r p = let l := getLink s id
      pumpAll (flushMsix (levtAdd (setLink s { l with
        state := 2, width := w, tries := 0, replay := l.replay.map fun f => { f with times := 0 }
        rate := if l.role = 4 then 0 else r, peer := if l.role = 4 then p else 0 }) id)) := by
  rw [trainLink, if_pos h]
  dsimp only
  rw [changeLink_up]
  dsimp only
  rw [getLink_id]

theorem trainLink_ignored (w r p : Nat) (h1 : (getLink s id).state ≠ 1) (h3 : (getLink s id).state ≠ 3) : trainLink s id w r p = s := by
  rw [trainLink, if_neg (by rintro (h | h); exacts [h1 h, h3 h])]

theorem failTraining_ignored (h1 : (getLink s id).state ≠ 1) (h3 : (getLink s id).state ≠ 3) : failTraining s id = s := by
  rw [failTraining, if_neg h1, if_neg h3]

theorem failTraining_downs (h : (getLink s id).state = 1 ∨ ((getLink s id).state = 3 ∧ 2 ≤ (getLink s id).tries)) :
    failTraining s id = dropLink s (getLink s id) 4 := by
  rcases h with h | ⟨h, ht⟩
  · rw [failTraining, if_pos h]
  · rw [failTraining, if_neg (by simp [h]), if_pos h, if_pos (by omega)]

theorem failTraining_tries (h : (getLink s id).state = 3) (ht : (getLink s id).tries < 2) :
    failTraining s id = let l := getLink s id
      setLink s { l with tries := l.tries + 1 } := by
  rw [failTraining, if_neg (by simp [h]), if_pos h, if_neg (by omega)]

theorem retrainLink_retrains (h : (getLink s id).state = 2) :
    retrainLink s id = let l := getLink s id
      levtAdd (setLink s { l with tries := 0, state := 3, width := 0, rate := 0 }) id := by
  rw [retrainLink, if_pos h, changeLink_away _ _ (by decide)]
  dsimp only
  rw [getLink_id]

theorem retrainLink_ignored (h : (getLink s id).state ≠ 2) : retrainLink s id = s := by rw [retrainLink, if_neg h]

theorem ctlStore_trains (h : (getLink s id).state = 4) :
    ctlStore s id 1 = entered (writeNat (writeNat s (linkLoc id + 0x18) 8 1) (linkLoc id + 0x18) 8 0) (getLink s id) 1 := by
  rw [ctlStore, if_neg (by decide), if_pos ⟨by decide, h⟩, changeLink_away _ _ (by decide)]
  rfl

theorem ctlStore_untrained (h : (getLink s id).state ≠ 4) : ctlStore s id 1 = writeNat s (linkLoc id + 0x18) 8 1 := by
  rw [ctlStore, if_neg (by decide), if_neg (fun k => h k.2)]

theorem ctlStore_disables (h : (getLink s id).state ≠ 0) : ctlStore s id 2 = dropLink (writeNat s (linkLoc id + 0x18) 8 2) (getLink s id) 0 := by
  rw [ctlStore, if_pos (by decide), if_neg h]

theorem ctlStore_disabled (h : (getLink s id).state = 0) : ctlStore s id 2 = writeNat s (linkLoc id + 0x18) 8 2 := by
  rw [ctlStore, if_pos (by decide), if_pos h]

end

/-! ## Resets of the host function (R372) -/

theorem hostReset_ignored {s : State} {p : Fin 8} (h : (getLink s (.port p)).state ≠ 2 ∨ (getLink s (.port p)).role ≠ 1) : hostReset s p = s := by
  rw [hostReset, if_pos h]

/-- Everything but what was kept for requests that are forgotten stays. -/
theorem forgetAll_eq (id : LinkId) (l : List Request) (s : State) : l.foldl (fun t r => forget t id r.num) s =
    { s with hostFails := (l.foldl (fun t r => forget t id r.num) s).hostFails, grants := (l.foldl (fun t r => forget t id r.num) s).grants } := by
  induction l generalizing s with
  | nil => rfl
  | cons r l ih => rw [List.foldl_cons, ih, forget_eq s id r.num]

/-- The state in which the reset of a host function ends the requests of its link: none has been accepted (R372). -/
def requestsDropped (s : State) (id : LinkId) : State :=
  let l := getLink s id
  setLink ((l.posted ++ l.reads.map (·.2)).foldl (fun t r => forget t id r.num) s) { l with posted := [], reads := [] }

/-- The windows are closed, and the vectors of the host function are disabled (R372). -/
@[irreducible] def windowsClosed (s : State) (id : LinkId) : State :=
  (List.range 16).foldl (fun t k => writeNat t (swLoc (0x17030000 + 32 * k) + 0x13) 1 0)
    ((List.finRange 64).foldl (fun t n => writeNat t (winLoc id n + 0x14) 1 0) s)

theorem windowsClosed_eq (s : State) (id : LinkId) : windowsClosed s id = { s with mem := (windowsClosed s id).mem } := by
  unfold windowsClosed
  rw [clearBytes_eq, clearBytes_eq (fun n => winLoc id n + 0x14)]

theorem byteAt_windowsClosed (s : State) (id : LinkId) (a : Nat) : byteAt (windowsClosed s id) a =
    if ∃ k ∈ List.range 16, a = swLoc (0x17030000 + 32 * k) + 0x13 then 0
    else if ∃ n ∈ List.finRange 64, a = winLoc id n + 0x14 then 0 else byteAt s a := by
  rw [windowsClosed, byteAt_clearBytes, byteAt_clearBytes (fun n => winLoc id n + 0x14)]
  congr!

/-- What a reset leaves before the link changes its state. -/
def hostCleared (s : State) (p : Fin 8) : State :=
  let id := LinkId.port p
  let t := windowsClosed (bumpIo (requestsDropped s id) (linkDie id) 0x38 (getLink s id).posted.length) id
  { t with mask64 := List.range 64, tlbs := t.tlbs.filter (fun e => e.tlb != .host (linkDie id)) }

section
variable {s : State} {p : Fin 8} (hnone : ∀ r ∈ (getLink s (.port p)).posted, accepted s (.port p) r = false)
include hnone

theorem hostReset_clears (hup : (getLink s (.port p)).state = 2) (hrole : (getLink s (.port p)).role = 1) (hself : s.selfHosted = true) :
    hostReset s p = changeLink (hostCleared s p) (getLink (hostCleared s p) (.port p)) 5 := by
  have hlost : (getLink s (.port p)).posted.filter (fun r => !accepted s (.port p) r) = (getLink s (.port p)).posted :=
    List.filter_eq_self.2 fun r hr => by simp [hnone r hr]
  have hkept : (getLink s (.port p)).posted.filter (accepted s (.port p)) = [] := List.filter_eq_nil_iff.2 fun r hr => by simp [hnone r hr]
  rw [hostReset, if_neg (by simp [hup, hrole]), if_neg (by simp [hself])]
  dsimp only
  rw [hlost, hkept]
  have hidle : linkIdle (bumpIo (requestsDropped s (.port p)) (linkDie (.port p)) 0x38 (getLink s (.port p)).posted.length) (.port p) := by
    have hget := (getLink_congr (homeOnly_links (bumpIo_home (requestsDropped s (.port p)) (linkDie (.port p)) 0x38 (getLink s (.port p)).posted.length)) (.port p)).trans
      (getLink_setLink_same (getLink_id s (.port p)))
    exact ⟨by rw [hget], by rw [hget]⟩
  have hpump := pumpLink_idle hidle
  unfold requestsDropped at hpump
  dsimp only at hpump
  rw [hpump, hostCleared, windowsClosed]
  rfl

end

/-! ## What the reset leaves -/

theorem byteAt_mem_congr {s t : State} {a : Nat} (h : s.mem = t.mem) : byteAt s a = byteAt t a := by rw [byteAt, byteAt, h]

/-- A write depends on memory alone, as far as memory goes. -/
theorem writeBytes_mem_congr {s t : State} (a : Nat) (l : List Byte) (h : s.mem = t.mem) : (writeBytes s a l).mem = (writeBytes t a l).mem := by
  induction l generalizing s t a with
  | nil => exact h
  | cons b r ih => exact ih (a + 1) (by rw [setByte_mem, setByte_mem, h])

theorem readBytes_mem_congr {s t : State} (a n : Nat) (h : s.mem = t.mem) : readBytes s a n = readBytes t a n :=
  readBytes_congr a n fun _ _ _ => byteAt_mem_congr h

theorem bumpIo_mem_congr {s t : State} (i off n : Nat) (h : s.mem = t.mem) : (bumpIo s i off n).mem = (bumpIo t i off n).mem := by
  rw [bumpIo, bumpIo, bumpAt, bumpAt, writeNat, writeNat, readNat, readNat, readBytes_mem_congr _ _ h]
  exact writeBytes_mem_congr _ _ h

theorem requestsDropped_eq (s : State) (id : LinkId) : let t := requestsDropped s id
    t = { s with hostFails := t.hostFails, grants := t.grants, links := t.links } := by
  simp only [requestsDropped]
  rw [forgetAll_eq]
  rfl

section
variable (s : State) (p : Fin 8)

/-- The state in which the writes dropped are counted. -/
def countedDropped : State := bumpIo s (linkDie (.port p)) 0x38 (getLink s (.port p)).posted.length

/-- The bytes of memory after the reset: the count of the writes dropped, the windows, and the vectors. -/
theorem byteAt_hostCleared (a : Nat) : byteAt (hostCleared s p) a =
    if ∃ k ∈ List.range 16, a = swLoc (0x17030000 + 32 * k) + 0x13 then 0
    else if ∃ n ∈ List.finRange 64, a = winLoc (.port p) n + 0x14 then 0
    else byteAt (countedDropped s p) a := by
  have hmem : (bumpIo (requestsDropped s (.port p)) (linkDie (.port p)) 0x38 (getLink s (.port p)).posted.length).mem = (countedDropped s p).mem :=
    bumpIo_mem_congr _ _ _ (by rw [requestsDropped_eq])
  have hcleared : (hostCleared s p).mem = (windowsClosed (bumpIo (requestsDropped s (.port p)) (linkDie (.port p)) 0x38
      (getLink s (.port p)).posted.length) (.port p)).mem := by rw [hostCleared]
  rw [byteAt_mem_congr hcleared, byteAt_windowsClosed, byteAt_mem_congr hmem]

theorem byteAt_hostCleared_out {a : Nat} (h : a < swLoc 0x17020000) : byteAt (hostCleared s p) a = byteAt (countedDropped s p) a := by
  rw [byteAt_hostCleared, if_neg, if_neg]
  · rintro ⟨n, -, rfl⟩
    simp only [winLoc, swLoc] at h
    omega
  · rintro ⟨k, -, rfl⟩
    simp only [swLoc] at h
    omega

theorem byteAt_hostCleared_window (n : Fin 64) : byteAt (hostCleared s p) (winLoc (.port p) n + 0x14) = 0 := by
  rw [byteAt_hostCleared]
  split
  · rfl
  · rw [if_pos ⟨n, List.mem_finRange n, rfl⟩]

theorem byteAt_hostCleared_vector {k : Nat} (hk : k < 16) : byteAt (hostCleared s p) (swLoc (0x17030000 + 32 * k) + 0x13) = 0 := by
  rw [byteAt_hostCleared, if_pos ⟨k, List.mem_range.2 hk, rfl⟩]

theorem readWord_hostCleared_out {a : Nat} (h : a + 8 ≤ swLoc 0x17020000) : readWord (hostCleared s p) a = readWord (countedDropped s p) a := by
  rw [readWord, readWord, readNat, readNat, readBytes_congr a 8 fun b _ hb => byteAt_hostCleared_out s p (by omega)]

theorem windowsClosed_bumpIo_eq (u : State) (id : LinkId) (i off n : Nat) : ∃ m, windowsClosed (bumpIo u i off n) id = { u with mem := m } := by
  rw [windowsClosed_eq, show bumpIo u i off n = { u with mem := (bumpIo u i off n).mem } from writeBytes_eq _ _ _]
  exact ⟨_, rfl⟩

/-- The reset changes no register of the module but the table of links and what hangs on it. -/
theorem hostCleared_eq : ∃ m f g ls, hostCleared s p = { s with
    mem := m, hostFails := f, grants := g, links := ls, mask64 := List.range 64, tlbs := s.tlbs.filter (fun e => e.tlb != .host (linkDie (.port p))) } := by
  obtain ⟨m, hm⟩ := windowsClosed_bumpIo_eq (requestsDropped s (.port p)) (.port p) (linkDie (.port p)) 0x38 (getLink s (.port p)).posted.length
  obtain ⟨f, g, ls, hdropped⟩ : ∃ f g ls, requestsDropped s (.port p) = { s with hostFails := f, grants := g, links := ls } :=
    ⟨_, _, _, requestsDropped_eq s (.port p)⟩
  rw [hdropped] at hm
  rw [hostCleared, hdropped, hm]
  exact ⟨m, f, g, ls, rfl⟩

theorem getLink_hostCleared : getLink (hostCleared s p) (.port p) = let l := getLink s (.port p)
    { l with posted := [], reads := [] } := by
  have hlinks : (hostCleared s p).links = (requestsDropped s (.port p)).links := by
    obtain ⟨m, hm⟩ := windowsClosed_bumpIo_eq (requestsDropped s (.port p)) (.port p) (linkDie (.port p)) 0x38 (getLink s (.port p)).posted.length
    rw [hostCleared, hm]
  exact (getLink_congr hlinks _).trans (getLink_setLink_same (getLink_id s _))

theorem counterRef_congr {s t : State} (hmask : s.mask = t.mask) (hcur : s.cur = t.cur) (hfused : s.fused = t.fused) (r : Word) :
    counterRef s r = counterRef t r := by
  have hsteward : ∀ c, isStewardCluster s c = isStewardCluster t c := fun c => by simp only [isStewardCluster, hmask]
  have hpresent : ∀ g, present s g = present t g := fun g => by simp only [present, curOf, fusedOf, hcur, hfused]
  rw [counterRef, counterRef, hsteward, hpresent]

/-- The counter that the link's changes are added to is where it was (R356). -/
theorem levtAdd_hostCleared (l : Link) (h : counterRef s (readWord s (linkLoc (.port p) + 8)) = none) :
    levtAdd (setLink (hostCleared s p) l) (.port p) = setLink (hostCleared s p) l := by
  have hword : readWord (setLink (hostCleared s p) l) (linkLoc (.port p) + 8) = readWord s (linkLoc (.port p) + 8) := by
    have hmem : ∀ u : State, (setLink u l).mem = u.mem := fun _ => rfl
    rw [readWord, readNat, readBytes_mem_congr _ _ (hmem _), ← readNat, ← readWord,
      readWord_hostCleared_out s p (by simp only [linkLoc, swLoc]; omega), countedDropped, bumpIo, bumpAt, writeNat, readWord, readNat,
      readBytes_writeBytes_out, ← readNat, ← readWord]
    right
    simp only [bytesOf_length, linkDie, linkLoc, swLoc]
    omega
  have hcounter : counterRef (setLink (hostCleared s p) l) (readWord s (linkLoc (.port p) + 8)) = none := by
    obtain ⟨m, f, g, ls, hkeep⟩ := hostCleared_eq s p
    refine (counterRef_congr ?_ ?_ ?_ _).trans h <;> rw [hkeep] <;> rfl
  rw [levtAdd, hword, hcounter]

end

/-- The link as it is when the reset of the host function has begun. -/
def resetLink (l : Link) : Link := { l with state := 5, width := 0, rate := 0, posted := [], reads := [] }

theorem hostReset_eq {s : State} {p : Fin 8} (hup : (getLink s (.port p)).state = 2) (hrole : (getLink s (.port p)).role = 1)
    (hself : s.selfHosted = true) (hc : counterRef s (readWord s (linkLoc (.port p) + 8)) = none)
    (hnone : ∀ r ∈ (getLink s (.port p)).posted, accepted s (.port p) r = false) :
    hostReset s p = setLink (hostCleared s p) (resetLink (getLink s (.port p))) := by
  rw [hostReset_clears hnone hup hrole hself, changeLink_away _ _ (by decide), getLink_hostCleared]
  refine (congrArg (levtAdd _) (getLink_id s _)).trans ?_
  exact levtAdd_hostCleared s p (resetLink (getLink s (.port p))) hc

/-! Only the table of links changes when a link does. -/

theorem byteAt_setLink (u : State) (l : Link) (a : Nat) : byteAt (setLink u l) a = byteAt u a := rfl
theorem readWord_setLink (u : State) (l : Link) (a : Nat) : readWord (setLink u l) a = readWord u a := by
  rw [readWord, readWord, readNat, readNat, readBytes_mem_congr (s := setLink u l) (t := u) a 8 rfl]
theorem setLink_mask64 (u : State) (l : Link) : (setLink u l).mask64 = u.mask64 := rfl
theorem setLink_tlbs (u : State) (l : Link) : (setLink u l).tlbs = u.tlbs := rfl
theorem setLink_cores (u : State) (l : Link) : (setLink u l).cores = u.cores := rfl
theorem setLink_fib (u : State) (l : Link) : (setLink u l).fib = u.fib := rfl
theorem setLink_out (u : State) (l : Link) : (setLink u l).out = u.out := rfl

theorem hostCleared_registers (s : State) (p : Fin 8) : (hostCleared s p).mask64 = List.range 64
    ∧ (hostCleared s p).tlbs = s.tlbs.filter (fun e => e.tlb != .host (linkDie (.port p)))
    ∧ (hostCleared s p).cores = s.cores ∧ (hostCleared s p).fib = s.fib ∧ (hostCleared s p).out = s.out := by
  obtain ⟨m, f, g, ls, hkeep⟩ := hostCleared_eq s p
  rw [hkeep]
  exact ⟨rfl, rfl, rfl, rfl, rfl⟩

theorem flushMsix_up {s : State} (h : hostUp s = true) : flushMsix s = { s with
    pend64 := s.pend64.filter (fun v => s.mask64.contains v), out := s.out ++ (s.pend64.filter fun v => !s.mask64.contains v).map .msix } := by
  rw [flushMsix, if_pos h]

theorem flushMsix_down {s : State} (h : hostUp s = false) : flushMsix s = s := by
  rw [flushMsix, if_neg (by simp [h])]

/-- Settles O54: each event is one change of a link's state; of a reset of the host function `hostCleared` gives what it clears, and no word that
names the link-event counter is among it. -/
theorem linkStates : Obligations.LinkStates := by
  unfold Obligations.LinkStates
  refine ⟨fun s id width rate peer => ⟨fun h => ?_, fun h1 h3 => ⟨?_, ?_⟩, fun h => ?_, fun h ht => ?_, fun h => ?_, fun h => ?_, fun h => ?_, fun h => ?_,
      fun h => ?_, fun h => ?_⟩,
    fun s p => ⟨fun h => ?_, fun hup hrole hself => ?_, fun hup hrole hself hc hnone => ?_, fun h => ?_, fun h => ?_⟩, fun s v => ⟨fun h => ?_, fun h => ?_⟩⟩
  · exact congrArg Host.Outcome.next (trainLink_trains width rate peer h)
  · exact congrArg Host.Outcome.next (trainLink_ignored width rate peer h1 h3)
  · exact congrArg Host.Outcome.next (failTraining_ignored h1 h3)
  · refine congrArg Host.Outcome.next ((failTraining_downs h).trans ((dropLink_eq _ _ (by decide)).trans ?_))
    exact congrArg (levtAdd _) (getLink_id s id)
  · exact congrArg Host.Outcome.next (failTraining_tries h ht)
  · exact congrArg Host.Outcome.next (retrainLink_retrains h)
  · exact congrArg Host.Outcome.next (retrainLink_ignored h)
  · exact congrArg Host.Outcome.next ((ctlStore_trains h).trans (congrArg (levtAdd _) (getLink_id s id)))
  · exact congrArg Host.Outcome.next (ctlStore_untrained h)
  · refine congrArg Host.Outcome.next ((ctlStore_disables h).trans ((dropLink_eq _ _ (by decide)).trans ?_))
    exact congrArg (levtAdd _) (getLink_id s id)
  · exact congrArg Host.Outcome.next (ctlStore_disabled h)
  · exact congrArg Host.Outcome.next (hostReset_ignored h)
  · refine congrArg Host.Outcome.next ?_
    rw [hostReset, if_neg (by simp [hup, hrole]), if_pos (by simp [hself]), trigger, Bool.false_or]
  · refine ⟨_, congrArg Host.Outcome.next (hostReset_eq hup hrole hself hc hnone), ?_⟩
    obtain ⟨hmask, htlbs, hcores, hfib, hout⟩ := hostCleared_registers s p
    have hid : (resetLink (getLink s (.port p))).id = .port p := getLink_id s _
    rw [getLink_setLink_same hid]
    refine ⟨rfl, rfl, rfl, (readWord_setLink _ _ _).trans (readWord_hostCleared_out s p (by simp only [linkDie, swLoc]; omega)), (setLink_mask64 _ _).trans hmask,
      fun n => (byteAt_setLink _ _ _).trans (byteAt_hostCleared_window s p n), fun k hk => (byteAt_setLink _ _ _).trans (byteAt_hostCleared_vector s p hk),
      ?_, (setLink_cores _ _).trans hcores, (setLink_fib _ _).trans hfib, (setLink_out _ _).trans hout⟩
    intro e he
    rw [setLink_tlbs, htlbs] at he
    simpa using (List.mem_filter.1 he).2
  · refine congrArg Host.Outcome.next ?_
    rw [hostResetDone, if_pos h, changeLink_away _ _ (by decide), getLink_id]
  · exact congrArg Host.Outcome.next (if_neg h)
  · exact congrArg Host.Outcome.next (flushMsix_up h)
  · exact congrArg Host.Outcome.next (flushMsix_down h)

end Sys2Proof
end

