-- ==== Sys2Proof/Proofs/PinAndEvict.lean ====
section
/-!
SUPPORT. Context images are pinned and evicted: O46.
-/
namespace Sys2Proof
open Machine Safety

/-! ## The read of an image -/

theorem isFar_of_isDpa {a : Nat} (h : isDpa a = true) : isFar a = false := by
  have hlow : a < 0x800000000000 := of_decide_eq_true h
  have hhost : ¬ (Config.hostBase ≤ a) := by show ¬ (0x10000000000000000 ≤ a); omega
  have hpeer : ¬ (Config.peerBase ≤ a) := by show ¬ (0x20000000000000000 ≤ a); omega
  simp [isFar, isHostLoc, isPeerLoc, hhost, hpeer]

/-- Memory that takes a plain read at location a: it is backed, and its link is up. -/
def Readable (s : State) (a : Nat) : Prop := isDpa a = true ∧ backed s a = true ∧ linkStateOf s a = 2

section
variable {s : State} (hpoison : s.poison = []) (hlatent : s.latent = [])
include hpoison hlatent

theorem devRead_readable {die a n : Nat} (h : Readable s a) : devRead s die a n = ((readBytes s a n).map (·, false), s) := by
  obtain ⟨hdpa, hback, hlink⟩ := h
  have htoxic : ∀ i, isToxic s i = false := fun i => by rw [isToxic, hpoison]; rfl
  rw [devRead, if_neg (by simp [hback]), if_neg (by simp [hlink]), if_neg (by simp [isFar_of_isDpa hdpa]),
    correctRead_clean (by simp [hlatent]), readBytes_eq_map]
  simp [htoxic, Function.comp_def]

theorem readImage_readable (die : Nat) {l : List (Nat × Nat)} (h : ∀ p ∈ l, Readable s p.1) :
    readImage die l s = ((l.flatMap fun p => readBytes s p.1 p.2).map (·, false), s) := by
  induction l with
  | nil => rfl
  | cons p l ih =>
    obtain ⟨hp, hl⟩ := List.forall_mem_cons.1 h
    rw [readImage, devRead_readable hpoison hlatent hp]
    dsimp only
    rw [ih hl, List.flatMap_cons, List.map_append]

theorem run_readObject {l : List (Nat × Nat)} (h : ∀ p ∈ l, Readable s p.1) :
    readObject l s = .ok ((l.flatMap fun p => readBytes s p.1 p.2).map (·, false), s) := by
  have hroom : l.any (fun p => pathHeld s p.1) = false := by
    rw [List.any_eq_false]
    intro p hp
    obtain ⟨hdpa, -, hlink⟩ := h p hp
    have hpeer : isPeerLoc p.1 = false := by
      have := isFar_of_isDpa hdpa
      simp only [isFar, Bool.or_eq_false_iff] at this
      exact this.2
    simp [pathHeld, lacksRoom, hlink, hpeer]
  rw [readObject, hroom, if_neg Bool.false_ne_true, readImage_readable hpoison hlatent _ h]

end

theorem run_needImage {s : State} {l : List (Nat × Nat)} (o : Nat) (h : ∀ p ∈ l, Readable s p.1) : needImage l o s = .ok ((), s) := by
  induction l generalizing o with
  | nil => rfl
  | cons p l ih =>
    obtain ⟨⟨-, hback, hlink⟩, hl⟩ := List.forall_mem_cons.1 h
    have hneed : needLink p.1 (objAddr 0x20 o) s = .ok ((), s) := by simp only [needLink, hlink]
    rw [needImage, run_bind_ok (run_get s), if_neg (by simp [hback]), run_bind_ok hneed, ih _ hl]

theorem run_needPathAll {s : State} (h : s.ports = []) (l : List (Nat × Nat)) : needPathAll l s = .ok ((), s) := by
  induction l with
  | nil => rfl
  | cons p l ih =>
    have hpath : needPath p.1 s = .ok ((), s) := by simp [needPath, clearPath, pathClear, h]
    rw [needPathAll, run_bind_ok hpath, ih]

theorem imagePoison_clean (l : List Byte) : imagePoison (l.map (·, false)) = none := by
  rw [imagePoison, List.find?_eq_none]
  intro o _
  simp [← List.map_drop, ← List.map_take]

theorem toxicWords_clean (a : Nat) (l : List Byte) : toxicWords a (l.map (·, false)) = [] := by
  have hfilter : ((List.range (l.map (fun x => (x, false))).length).filter fun i => (nth (l.map (·, false)) i (0, false)).2) = [] := by
    rw [List.filter_eq_nil_iff]
    intro i _
    simp only [nth, List.getElem?_map]
    cases l[i]? <;> simp
  rw [toxicWords, hfilter]
  rfl

theorem fillAt_clean (s : State) (g a : Nat) (l : List Byte) : fillAt s g a (l.map (·, false)) = storeAt s a l ⟨1, g, 0⟩ := by
  rw [fillAt, toxicWords_clean]
  simp [fillAdder, Function.comp_def]

theorem headerValid_iff (b : List Byte) (h : Word) : headerValid b h = true ↔
    fieldAt b 0 8 = h.toNat ∧ 1 ≤ fieldAt b 0x18 1 ∧ fieldAt b 0x18 1 ≤ 127 ∧ fieldAt b (128 * fieldAt b 0x18 1 + 1) 1 = 1 := by
  have hword : w64 (recNat b 0 8) = h ↔ fieldAt b 0 8 = h.toNat := by
    have hlt : fieldAt b 0 8 < 2 ^ 64 := natOf_lt_two_pow (by simp; omega)
    constructor
    · intro k
      rw [← k]
      exact (Nat.mod_eq_of_lt hlt).symm
    · intro k
      exact BitVec.eq_of_toNat_eq ((Nat.mod_eq_of_lt hlt).trans k)
  simp only [headerValid, Bool.and_eq_true, beq_iff_eq, decide_eq_true_eq, hword, and_assoc]
  rfl

/-! ## sctpin -/

theorem classAddr_cluster {g : Seg} (h : g.cls = 1) (o : Word) : classAddr g o = g.base.toNat + o.toNat := by
  rw [classAddr, if_neg (by rw [h]; decide)]

/-- What `sctpin` does with operands that R280 admits. -/
def pinImage (d : SReg) (h : Word) (addr rs : Nat) : M Unit := do
  let s ← get
  let r := handleReason s h (· == 3) fun bd => 16384 + rs ≤ bd * 65536
  if r ≠ 0 then fail 0x0D (handleAddr r 0)
  else if sctState s h ≠ 0 then result d (if sctHandle s h = h then 2 else 1)
  else
    let l ← translate (handleCur s h) (16384 + rs) 0 accLoad
    needImage l 0
    needPathAll l
    let img ← readObject l
    match imagePoison img with
    | some i => fail 0x10 (objAddr 0x20 i)
    | none =>
    if headerValid (img.map (·.1)) h = false then result d 3
    else
      let u ← get
      let at_ := clusterLoc (clusterOf u.focus.1) addr
      change fun w => fillEntry { fillAt w w.focus.1 at_ img with guards := w.guards ++ granulesOf at_ } h addr (clusterOf w.focus.1) rs
      result d 0

section
variable {s : State} {d b c : SReg} {m : CRef} (hp : s.pair = none) (ha : plainS s.fib m.a = true) (hb : plainS s.fib b = true)
  (hc : plainS s.fib c = true)
include ha hb hc

include hp in
theorem exec_sctpin_class (hcls : (s.fib.seg[m.sg]).cls ≠ 1) : exec (.sctpin d m b c) s = .next (trapsWith s 6 (offC s.fib m)) := by
  refine performSeq_fails ?_ hp
  rw [run_bind_ok (rdRef_of_plain ha), run_bind_ok (rd_of_plain hb), run_bind_ok (rd_of_plain hc), run_bind_ok (run_get s)]
  dsimp only
  rw [if_pos hcls]
  rfl

/-- Where the frame area lies in the cluster. -/
abbrev pinAddr (s : State) (m : CRef) : Nat := (s.fib.seg[m.sg]).base.toNat + (offC s.fib m).toNat

/-- The operands that R280 does not admit. -/
abbrev pinMisfit (s : State) (m : CRef) (c : SReg) : Prop :=
  (offC s.fib m).toNat % 16384 ≠ 0 ∨ 0x18000 < pinAddr s m % 131072 ∨ (regVal s.fib c).toNat % 64 ≠ 0 ∨ 2097152 < (regVal s.fib c).toNat

variable (hcls : (s.fib.seg[m.sg]).cls = 1)
  (hrange : rangeBad s s.fib.seg[m.sg] (offC s.fib m) (16384 + (regVal s.fib c).toNat) 16384 rightWr = none)
include hcls hrange

include hp in
theorem exec_sctpin_misfit (h : pinMisfit s m c) : exec (.sctpin d m b c) s = .next (trapsWith s 6 (offC s.fib m)) := by
  refine performSeq_fails ?_ hp
  rw [run_bind_ok (rdRef_of_plain ha), run_bind_ok (rd_of_plain hb), run_bind_ok (rd_of_plain hc), run_bind_ok (run_get s)]
  dsimp only
  rw [if_neg (not_not.2 hcls), hrange]
  dsimp only
  rw [classAddr_cluster hcls, if_pos h]
  rfl

theorem exec_sctpin_admitted (h : ¬ pinMisfit s m c) :
    exec (.sctpin d m b c) s = performSeq (pinImage d (regVal s.fib b) (pinAddr s m) (regVal s.fib c).toNat) s := by
  refine performSeq_congr ?_
  rw [run_bind_ok (rdRef_of_plain ha), run_bind_ok (rd_of_plain hb), run_bind_ok (rd_of_plain hc), run_bind_ok (run_get s)]
  dsimp only
  rw [if_neg (not_not.2 hcls), hrange]
  dsimp only
  rw [classAddr_cluster hcls, if_neg h]
  rfl

end

section
variable {s : State} {d : SReg} {h : Word} {addr rs : Nat} {r : Nat} (hp : s.pair = none)
  (hr : r = handleReason s h (· == 3) fun bound => decide (16384 + rs ≤ bound * 65536))
include hr

include hp in
theorem performSeq_pinImage_refused (h0 : r ≠ 0) : performSeq (pinImage d h addr rs) s = .next (trapsWith s 0x0D (reasonWord r 0)) := by
  refine performSeq_fails ?_ hp
  rw [pinImage, run_bind_ok (run_get s)]
  dsimp only
  rw [← hr, if_pos h0]
  rfl

include hp in
theorem performSeq_pinImage_inUse (hd : openS s.fib d = true) (h0 : r = 0) (hst : sctState s h ≠ 0) :
    performSeq (pinImage d h addr rs) s = .next (doneS s d (if sctHandle s h = h then 2 else 1)) := by
  refine done_of_result ?_ hp hd
  rw [pinImage, run_bind_ok (run_get s)]
  dsimp only
  rw [← hr, if_neg (not_not.2 h0), if_pos hst]

section
variable {l : List (Nat × Nat)} (h0 : r = 0) (hst : sctState s h = 0) (hl : translate (handleCur s h) (16384 + rs) 0 accLoad s = .ok (l, s))
  (hread : ∀ p ∈ l, Readable s p.1) (hpoison : s.poison = []) (hlatent : s.latent = []) (hports : s.ports = [])
include h0 hst hl hread hpoison hlatent hports

theorem run_pinImage : let img := l.flatMap fun p => readBytes s p.1 p.2
    let at_ := clusterLoc (s.focus.1 / 192) addr
    pinImage d h addr rs s = if headerValid img h = false then result d 3 s
      else result d 0 (fillEntry { storeAt s at_ img ⟨1, s.focus.1, 0⟩ with guards := s.guards ++ granulesOf at_ } h addr (s.focus.1 / 192) rs) := by
  have hfst : ∀ b : List Byte, (b.map (·, false)).map (·.1) = b := fun b => by simp [Function.comp_def]
  rw [pinImage, run_bind_ok (run_get s)]
  dsimp only
  rw [← hr, if_neg (not_not.2 h0), if_neg (not_not.2 hst), run_bind_ok hl, run_bind_ok (run_needImage 0 hread), run_bind_ok (run_needPathAll hports l),
    run_bind_ok (run_readObject hpoison hlatent hread), imagePoison_clean, hfst]
  dsimp only
  split
  · rfl
  · rw [run_bind_ok (run_get s), run_bind_ok (run_change _ s), fillAt_clean]
    rfl

end
end

/-! ## sctevict -/

/-- What `sctevict` does once its release is complete. -/
def coolImage (d : SReg) (h : Word) (a : Nat) : M Unit := do
  let u ← get
  if sctHandle u h ≠ h ∨ sctState u h = 0 ∨ sctState u h > 3 then result d 1
  else if sctState u h ≠ 1 then result d 2
  else
    change fun w => acceptEvict w h a
    result d 0

section
variable {s t : State} {d b : SReg} {m : CRef} {a r : Nat} (ha : plainS s.fib m.a = true) (hb : plainS s.fib b = true)
  (hctr : counterWord m.sg (offC s.fib m) s = .ok (a, s)) (hr : r = handleReason s (regVal s.fib b) (· == 3) fun _ => true)
include ha hb hctr hr

theorem exec_sctevict_refused (hp : s.pair = none) (h0 : r ≠ 0) : exec (.sctevict d m b) s = .next (trapsWith s 0x0D (reasonWord r 0)) := by
  refine performSeq_fails ?_ hp
  rw [run_bind_ok (rdRef_of_plain ha), run_bind_ok (rd_of_plain hb), run_bind_ok hctr, run_bind_ok (run_get s), ← hr, if_pos h0]
  rfl

theorem exec_sctevict_released (h0 : r = 0) (hrel : released s true .mod = some t) :
    exec (.sctevict d m b) s = performSeq (fun _ => coolImage d (regVal s.fib b) a t) s := by
  have hrun : release s.fib 4 s = .ok ((), t) := run_releaseAt_some s.fib hrel
  refine performSeq_congr ?_
  rw [run_bind_ok (rdRef_of_plain ha), run_bind_ok (rd_of_plain hb), run_bind_ok hctr, run_bind_ok (run_get s), ← hr, if_neg (not_not.2 h0),
    run_bind_ok hrun]
  rfl

end

section
variable {t : State} {d : SReg} {h : Word} (a : Nat)

theorem run_coolImage_other (hbad : sctHandle t h ≠ h ∨ sctState t h = 0 ∨ 3 < sctState t h) : coolImage d h a t = result d 1 t := by
  rw [coolImage, run_bind_ok (run_get t), if_pos hbad]

theorem run_coolImage_busy (hh : sctHandle t h = h) (hst : sctState t h = 2 ∨ sctState t h = 3) : coolImage d h a t = result d 2 t := by
  rw [coolImage, run_bind_ok (run_get t), if_neg (by rintro (k | k | k); exacts [k hh, by omega, by omega]), if_pos (by omega)]

theorem run_coolImage_pinned (hh : sctHandle t h = h) (hst : sctState t h = 1) : coolImage d h a t = result d 0 (acceptEvict t h a) := by
  rw [coolImage, run_bind_ok (run_get t), if_neg (by rintro (k | k | k); exacts [k hh, by omega, by omega]), if_neg (not_not.2 hst),
    run_bind_ok (run_change _ t)]

theorem acceptEvict_pair : (acceptEvict t h a).pair = t.pair := by simp [acceptEvict]

theorem acceptEvict_fib : (acceptEvict t h a).fib = t.fib := by simp only [acceptEvict, writeNat, writeBytes_fib]

end

/-- Settles O46: the images of `sctpin` are read plainly, so that `run_pinImage` gives what is copied; `sctevict` answers as `coolImage` says. -/
theorem pinAndEvict : Obligations.PinAndEvict := by
  unfold Obligations.PinAndEvict
  refine ⟨fun s d b c m hp ha hb hc hd => ⟨exec_sctpin_class hp ha hb hc, fun hcls hrange => ⟨exec_sctpin_misfit hp ha hb hc hcls hrange,
    fun h1 h2 h3 h4 => ?_⟩⟩, fun s t d b m a hp ha hb hctr => ?_⟩
  · have hfit : ¬ pinMisfit s m c := by rintro (k | k | k | k); exacts [k h1, absurd h2 (Nat.not_le.2 k), k h3, absurd h4 (Nat.not_le.2 k)]
    rw [exec_sctpin_admitted ha hb hc hcls hrange hfit]
    refine ⟨performSeq_pinImage_refused hp rfl, performSeq_pinImage_inUse hp rfl hd, fun l h0 hst hl hread hpoison hlatent hports => ?_⟩
    have hrun := run_pinImage (d := d) (addr := pinAddr s m) rfl h0 hst hl hread hpoison hlatent hports
    refine ⟨fun hbad => ?_, fun hgood hpu hdu => ?_⟩
    · exact done_of_result (hrun.trans (if_pos (Bool.eq_false_iff.2 fun k => hbad ((headerValid_iff _ _).1 k)))) hp hd
    · exact done_of_result (hrun.trans (if_neg (Bool.ne_false_iff.2 ((headerValid_iff _ _).2 hgood)))) hpu hdu
  · refine ⟨exec_sctevict_refused ha hb hctr rfl hp, fun h0 hrel hpt hdt => ?_⟩
    rw [exec_sctevict_released ha hb hctr rfl h0 hrel]
    refine ⟨fun hbad => done_of_result (run_coolImage_other a hbad) hpt hdt, fun hh hst => done_of_result (run_coolImage_busy a hh hst) hpt hdt, fun hh hst => ?_⟩
    exact done_of_result (run_coolImage_pinned a hh hst) ((acceptEvict_pair a).trans hpt) ((congrArg (openS · d) (acceptEvict_fib a)).trans hdt)

end Sys2Proof
end

