-- ==== Sys2Proof/Proofs/Handles.lean ====
section
/-!
SUPPORT. The checks of a handle, and the handle instructions: O36.
-/
namespace Sys2Proof
open Machine Safety

/-! ## The checks in order (R225) -/

/-- The number of the first of seven checks that fails. -/
theorem firstFailing_iff (p1 p2 p3 p4 p5 p6 p7 : Prop) [Decidable p1] [Decidable p2] [Decidable p3] [Decidable p4] [Decidable p5] [Decidable p6]
    [Decidable p7] {r : Nat} (h : r = if p1 then 1 else if p2 then 2 else if p3 then 3 else if p4 then 4 else if p5 then 5 else if p6 then 6
      else if p7 then 7 else 0) :
    (r = 1 ↔ p1) ∧ (r = 2 ↔ ¬ p1 ∧ p2) ∧ (r = 3 ↔ ¬ p1 ∧ ¬ p2 ∧ p3) ∧ (r = 4 ↔ ¬ p1 ∧ ¬ p2 ∧ ¬ p3 ∧ p4)
      ∧ (r = 5 ↔ (¬ p1 ∧ ¬ p2 ∧ ¬ p3 ∧ ¬ p4) ∧ p5) ∧ (r = 6 ↔ (¬ p1 ∧ ¬ p2 ∧ ¬ p3 ∧ ¬ p4) ∧ ¬ p5 ∧ p6)
      ∧ (r = 7 ↔ (¬ p1 ∧ ¬ p2 ∧ ¬ p3 ∧ ¬ p4) ∧ ¬ p5 ∧ ¬ p6 ∧ p7) ∧ (r = 0 ↔ (¬ p1 ∧ ¬ p2 ∧ ¬ p3 ∧ ¬ p4) ∧ ¬ p5 ∧ ¬ p6 ∧ ¬ p7) ∧ r < 8 := by
  subst h
  by_cases h1 : p1
  · simp [h1]
  by_cases h2 : p2
  · simp [h1, h2]
  by_cases h3 : p3
  · simp [h1, h2, h3]
  by_cases h4 : p4
  · simp [h1, h2, h3, h4]
  by_cases h5 : p5
  · simp [h1, h2, h3, h4, h5]
  by_cases h6 : p6
  · simp [h1, h2, h3, h4, h5, h6]
  by_cases h7 : p7
  · simp [h1, h2, h3, h4, h5, h6, h7]
  · simp [h1, h2, h3, h4, h5, h6, h7]

theorem handleReason_eq (s : State) (h : Word) (kinds fits : Nat → Bool) : handleReason s h kinds fits =
    (let n := h.toNat / 2 ^ 24 % 2 ^ 20
     let st := entryField s n 0x17 1
     let bound := entryField s n 0x10 4 % 2 ^ 24
     let ten := entryField s n 0x14 2 % 4096
     if n = 0 then 1 else if st < 128 then 2 else if entryField s n 0x16 1 ≠ h.toNat / 2 ^ 44 % 256 then 3
     else if ten ≠ h.toNat / 2 ^ 52 ∨ (s.fib.steward = false ∧ ten ≠ s.fib.tenant.toNat) then 4
     else if bound ≠ h.toNat % 2 ^ 24 then 5 else if kinds (st % 8) = false then 6 else if fits bound = false then 7 else 0) := by
  have htenant : bitsOf h 52 12 = h.toNat / 2 ^ 52 := Nat.mod_eq_of_lt (by have := h.isLt; omega)
  have hbound : bitsOf h 0 24 = h.toNat % 2 ^ 24 := by rw [bitsOf, Nat.pow_zero, Nat.div_one]
  rw [handleReason, htenant, hbound]
  simp only [Bool.not_eq_true']
  rfl

theorem handleReason_iff (s : State) (h : Word) (kinds fits : Nat → Bool) :
     let n := h.toNat / 2 ^ 24 % 2 ^ 20
     let st := entryField s n 0x17 1
     let bound := entryField s n 0x10 4 % 2 ^ 24
     let ten := entryField s n 0x14 2 % 4096
     let r := handleReason s h kinds fits
     let named := n ≠ 0 ∧ 128 ≤ st ∧ entryField s n 0x16 1 = h.toNat / 2 ^ 44 % 256 ∧ ten = h.toNat / 2 ^ 52
       ∧ (s.fib.steward = true ∨ ten = s.fib.tenant.toNat)
     (r = 1 ↔ n = 0) ∧ (r = 2 ↔ n ≠ 0 ∧ st < 128) ∧ (r = 3 ↔ n ≠ 0 ∧ 128 ≤ st ∧ entryField s n 0x16 1 ≠ h.toNat / 2 ^ 44 % 256)
       ∧ (r = 4 ↔ n ≠ 0 ∧ 128 ≤ st ∧ entryField s n 0x16 1 = h.toNat / 2 ^ 44 % 256
           ∧ (ten ≠ h.toNat / 2 ^ 52 ∨ (s.fib.steward = false ∧ ten ≠ s.fib.tenant.toNat)))
       ∧ (r = 5 ↔ named ∧ bound ≠ h.toNat % 2 ^ 24)
       ∧ (r = 6 ↔ named ∧ bound = h.toNat % 2 ^ 24 ∧ kinds (st % 8) = false)
       ∧ (r = 7 ↔ named ∧ bound = h.toNat % 2 ^ 24 ∧ kinds (st % 8) = true ∧ fits bound = false)
       ∧ (r = 0 ↔ named ∧ bound = h.toNat % 2 ^ 24 ∧ kinds (st % 8) = true ∧ fits bound = true)
       ∧ r < 8 := by
  have hchain := firstFailing_iff _ _ _ _ _ _ _ (handleReason_eq s h kinds fits)
  simp only [Nat.not_lt, not_not, not_or, not_and_or, Bool.not_eq_false, ← ne_eq] at hchain
  exact hchain

/-- An access through a segment of the handle class whose handle fails a check. -/
theorem resolve_handle {s : State} {sg : Fin 8} {o : Word} {n need kind : Nat} (hcls : (s.fib.seg[sg]).cls = 3)
    (hrights : (s.fib.seg[sg]).rights.toNat &&& need = need) (hlimit : o.toNat + n ≤ (s.fib.seg[sg]).limit.toNat)
    (hbound : o.toNat + n ≤ (s.fib.seg[sg]).base.toNat % 2 ^ 24 * 65536) (halign : o.toNat % n = 0)
    (hr : handleReason s (s.fib.seg[sg]).base (fun k => k == 0) (fun b => decide (o.toNat + n ≤ b * 65536)) ≠ 0) :
    resolve sg o n n need kind s = .error (.trap 0x0D
      (reasonWord (handleReason s (s.fib.seg[sg]).base (fun k => k == 0) fun b => decide (o.toNat + n ≤ b * 65536)) o.toNat) false none) := by
  have haddr : classAddr s.fib.seg[sg] o = o.toNat := if_pos hcls
  have hcap : classCap s.fib.seg[sg] = (s.fib.seg[sg]).base.toNat % 2 ^ 24 * 65536 := by
    rw [classCap, if_neg (by rw [hcls]; decide), if_neg (by rw [hcls]; decide), if_neg (by rw [hcls]; decide), bitsOf, Nat.pow_zero, Nat.div_one]
  have hrange : rangeBad s s.fib.seg[sg] o n n need = none := by
    rw [rangeBad]
    rw [haddr, hcap, if_neg (by simpa [hasRights] using hrights), if_neg (by omega), if_neg (by omega), if_neg (by simp [halign]), if_neg (by rw [hcls]; simp)]
  have hfault : segFault s s.fib.seg[sg] o n n need = none := by
    rw [segFault, hrange]
    dsimp only
    rw [if_neg (by rw [hcls]; simp), if_neg (by rw [hcls]; simp)]
  rw [resolve, run_bind_ok (run_get s), hfault]
  dsimp only
  rw [if_neg (by rw [hcls]; decide), if_neg (by rw [hcls]; decide), haddr, if_pos hr]
  rfl

/-! ## The table (R224) -/

theorem after_succ {n : Nat} (h : n ≤ 1048575) (j : Nat) : after n (j + 1) = after (if n + 1 ≥ 1048576 then 1 else n + 1) j := by
  unfold after
  split <;> omega

theorem after_zero {n : Nat} (h : n ≤ 1048575) : after n 0 = if n + 1 ≥ 1048576 then 1 else n + 1 := by
  unfold after
  split <;> omega

theorem nextFree_none {s : State} (fuel : Nat) {n : Nat} (hn : n ≤ 1048575) (h : ∀ j, j < fuel → hLive s (after n j) = true) :
    nextFree s fuel n = none := by
  induction fuel generalizing n with
  | zero => rfl
  | succ fuel ih =>
    have hfirst := h 0 (Nat.succ_pos fuel)
    rw [after_zero hn] at hfirst
    rw [nextFree, if_pos hfirst]
    refine ih (by split <;> omega) fun j hj => ?_
    rw [← after_succ hn]
    exact h (j + 1) (Nat.succ_lt_succ hj)

theorem nextFree_some {s : State} (fuel : Nat) {n j : Nat} (hn : n ≤ 1048575) (hj : j < fuel) (hfree : hLive s (after n j) = false)
    (h : ∀ i, i < j → hLive s (after n i) = true) : nextFree s fuel n = some (after n j) := by
  induction fuel generalizing n j with
  | zero => exact absurd hj (Nat.not_lt_zero j)
  | succ fuel ih =>
    rw [nextFree]
    cases j with
    | zero =>
      rw [after_zero hn] at hfree ⊢
      rw [if_neg (by rw [hfree]; exact Bool.false_ne_true)]
    | succ j =>
      have hfirst := h 0 (Nat.succ_pos j)
      rw [after_zero hn] at hfirst
      rw [after_succ hn] at hfree ⊢
      rw [if_pos hfirst]
      refine ih (by split <;> omega) (by omega) hfree fun i hi => ?_
      rw [← after_succ hn]
      exact h (i + 1) (Nat.succ_lt_succ hi)

theorem nextFree_of_none {s : State} (hn : s.lastHandle ≤ 1048575) (h : noFreeEntry s) : nextFree s 1048575 s.lastHandle = none :=
  nextFree_none 1048575 hn h

theorem nextFree_of_chosen {s : State} {n : Nat} (hn : s.lastHandle ≤ 1048575) (h : chosenEntry s n) : nextFree s 1048575 s.lastHandle = some n := by
  obtain ⟨j, hj, rfl, hfree, hbefore⟩ := h
  exact nextFree_some 1048575 hn hj hfree hbefore

section
variable {s : State} {kind : Nat} {cur shd : Word} {bound tenant owner : Nat}

theorem allocHandle_none (h : nextFree s 1048575 s.lastHandle = none) : allocHandle s kind cur shd bound tenant owner = (0, s) := by
  simp only [allocHandle, h]

theorem allocHandle_some {n : Nat} (h : nextFree s 1048575 s.lastHandle = some n) : allocHandle s kind cur shd bound tenant owner =
    (w64 (tenant * 2 ^ 52 + hGen s n * 2 ^ 44 + n * 2 ^ 24 + bound), { storeBytes s (handleLoc n) (bytesOf 8 cur.toNat ++ bytesOf 8 shd.toNat
      ++ bytesOf 4 bound ++ bytesOf 2 tenant ++ bytesOf 1 (hGen s n) ++ bytesOf 1 (128 + kind) ++ bytesOf 4 owner) with lastHandle := n }) := by
  simp only [allocHandle, h]

end

/-- Nothing stands between the core and the table entry. -/
theorem run_atTable {s : State} {n : Nat} (h : unhindered s (handleLoc n) = true) : atTable n s = .ok ((), s) := by
  simp only [unhindered, Bool.and_eq_true, beq_iff_eq, List.isEmpty_iff] at h
  obtain ⟨⟨hstores, hports⟩, hcache⟩ := h
  have hdrain : drainBytes (handleLoc n) 32 s = .ok ((), s) := by
    show Except.ok ((), drainWhere _ (coveringCount (getCore s s.focus.1).sb (handleLoc n) 32) s s.focus.1) = _
    rw [hstores]
    rfl
  have hpath : needPath (handleLoc n) s = .ok ((), s) := by simp [needPath, clearPath, pathClear, hports]
  rw [atTable, run_bind_ok hdrain, run_bind_ok hpath, run_change, dropLines, hcache]
  rfl

/-! ## halloc -/

theorem baseOk_iff (a : Word) : baseOk a = true ↔ a.toNat % 65536 = 0 ∧ a.toNat < 2 ^ 55 := by simp [baseOk]

/-- What `halloc` does with its operands read. -/
def allocBody (kind : Nat) (d : SReg) (cur bound : Word) (shared : Bool) (shd : Word) : M Unit :=
  if baseOk cur = false then fail 0x0D (handleAddr 8 cur.toNat)
  else if bound = 0 ∨ bound.toNat ≥ 2 ^ 24 then fail 0x0D (handleAddr 8 bound.toNat)
  else if shared = true ∧ (shd = 0 ∨ baseOk shd = false) then fail 0x0D (handleAddr 8 shd.toNat)
  else do
    let s ← get
    match nextFree s 1048575 s.lastHandle with
    | some n => atTable n
    | none => pure ()
    let t ← get
    let r := allocHandle t kind cur shd bound.toNat t.fib.tenant.toNat t.fib.fibre.toNat
    set r.2
    result d r.1

section
variable {s : State} {kind : Fin 5} {d a c : SReg} {b : SrcB} (ha : plainS s.fib a = true) (hb : plainB s.fib b = true)

theorem exec_halloc_user (hp : s.pair = none) (hk : 3 ≤ kind.val) (hu : s.fib.steward = false) : exec (.halloc kind d a b) s = .next (trapsWith s 5 0) := by
  refine performSeq_fails ?_ hp
  rw [allocate, run_bind_ok (run_theFib s), if_pos ⟨hk, hu⟩]
  rfl

include ha hb

theorem exec_halloc_operands (hk : kind.val < 3 ∨ s.fib.steward = true) :
    exec (.halloc kind d a b) s = performSeq (allocBody kind.val d (regVal s.fib a) (valB s.fib b) false 0) s := by
  refine performSeq_congr ?_
  have hmay : ¬ (kind.val ≥ 3 ∧ s.fib.steward = false) := by
    rintro ⟨h1, h2⟩
    rcases hk with h | h
    · omega
    · exact absurd (h.symm.trans h2) (by decide)
  rw [allocate, run_bind_ok (run_theFib s), if_neg hmay, run_bind_ok (rd_of_plain ha), run_bind_ok (rdB_of_plain hb)]
  exact run_bind_ok (run_pure (0 : Word) s)

theorem exec_hallocBufSh_operands (hc : plainS s.fib c = true) :
    exec (.hallocBufSh d a b c) s = performSeq (allocBody 0 d (regVal s.fib a) (valB s.fib b) true (regVal s.fib c)) s := by
  refine performSeq_congr ?_
  rw [allocate, run_bind_ok (run_theFib s), if_neg (by simp), run_bind_ok (rd_of_plain ha), run_bind_ok (rdB_of_plain hb)]
  exact run_bind_ok (rd_of_plain hc)

end

section
variable {s : State} {kind : Nat} {d : SReg} {cur bound shd : Word} {shared : Bool} (hp : s.pair = none)

include hp in
theorem performSeq_allocBody_base (h : ¬ (cur.toNat % 65536 = 0 ∧ cur.toNat < 2 ^ 55)) :
    performSeq (allocBody kind d cur bound shared shd) s = .next (trapsWith s 0x0D (reasonWord 8 cur.toNat)) := by
  refine performSeq_fails ?_ hp
  rw [allocBody, if_pos (Bool.eq_false_iff.2 fun k => h ((baseOk_iff cur).1 k))]
  rfl

variable (h1 : cur.toNat % 65536 = 0) (h2 : cur.toNat < 2 ^ 55)
include h1 h2

include hp in
theorem performSeq_allocBody_bound (h : bound = 0 ∨ 2 ^ 24 ≤ bound.toNat) :
    performSeq (allocBody kind d cur bound shared shd) s = .next (trapsWith s 0x0D (reasonWord 8 bound.toNat)) := by
  refine performSeq_fails ?_ hp
  rw [allocBody, if_neg (Bool.ne_false_iff.2 ((baseOk_iff cur).2 ⟨h1, h2⟩)), if_pos h]
  rfl

variable (hpos : 0 < bound.toNat) (hmax : bound.toNat < 2 ^ 24)
include hpos hmax

omit h1 h2 in
theorem bound_fits : ¬ (bound = 0 ∨ bound.toNat ≥ 2 ^ 24) := by
  rintro (h | h)
  · rw [h] at hpos; exact absurd hpos (by decide)
  · omega

include hp in
theorem performSeq_allocBody_shadow (h : ¬ (shd ≠ 0 ∧ shd.toNat % 65536 = 0 ∧ shd.toNat < 2 ^ 55)) :
    performSeq (allocBody kind d cur bound true shd) s = .next (trapsWith s 0x0D (reasonWord 8 shd.toNat)) := by
  have hbad : shd = 0 ∨ baseOk shd = false := by
    by_contra hgood
    rw [not_or, Bool.not_eq_false, baseOk_iff] at hgood
    exact h ⟨hgood.1, hgood.2.1, hgood.2.2⟩
  refine performSeq_fails ?_ hp
  rw [allocBody, if_neg (Bool.ne_false_iff.2 ((baseOk_iff cur).2 ⟨h1, h2⟩)), if_neg (bound_fits hpos hmax), if_pos ⟨rfl, hbad⟩]
  rfl

/-- With operands that R227 admits the entry is allocated at the table. -/
theorem run_allocBody (hshd : shared = true → shd ≠ 0 ∧ shd.toNat % 65536 = 0 ∧ shd.toNat < 2 ^ 55)
    (htable : ∀ n, nextFree s 1048575 s.lastHandle = some n → unhindered s (handleLoc n) = true) :
    allocBody kind d cur bound shared shd s = (let r := allocHandle s kind cur shd bound.toNat s.fib.tenant.toNat s.fib.fibre.toNat; result d r.1 r.2) := by
  have hgood : ¬ (shared = true ∧ (shd = 0 ∨ baseOk shd = false)) := by
    rintro ⟨hs, h | h⟩
    · exact (hshd hs).1 h
    · exact Bool.eq_false_iff.1 h ((baseOk_iff shd).2 (hshd hs).2)
  rw [allocBody, if_neg (Bool.ne_false_iff.2 ((baseOk_iff cur).2 ⟨h1, h2⟩)), if_neg (bound_fits hpos hmax), if_neg hgood, run_bind_ok (run_get s)]
  cases hfree : nextFree s 1048575 s.lastHandle with
  | none => rfl
  | some n => exact (run_bind_ok (run_atTable (htable n hfree))).trans rfl

include hp

theorem performSeq_allocBody_none (hd : openS s.fib d = true) (hn : s.lastHandle ≤ 1048575) (h : noFreeEntry s)
    (hshd : shared = true → shd ≠ 0 ∧ shd.toNat % 65536 = 0 ∧ shd.toNat < 2 ^ 55) :
    performSeq (allocBody kind d cur bound shared shd) s = .next (doneS s d 0) := by
  have hfree := nextFree_of_none hn h
  have hrun := run_allocBody (kind := kind) (d := d) h1 h2 hpos hmax hshd fun n hn => by rw [hfree] at hn; cases hn
  rw [allocHandle_none hfree] at hrun
  exact done_of_result hrun hp hd

theorem performSeq_allocBody {n : Nat} (hd : openS s.fib d = true) (hn : s.lastHandle ≤ 1048575) (h : chosenEntry s n)
    (hun : unhindered s (handleLoc n) = true) (hshd : shared = true → shd ≠ 0 ∧ shd.toNat % 65536 = 0 ∧ shd.toNat < 2 ^ 55) :
    let gen := readNat s (handleLoc n + 0x16) 1
    performSeq (allocBody kind d cur bound shared shd) s = .next (doneS { storeBytes s (handleLoc n) (bytesOf 8 cur.toNat ++ bytesOf 8 shd.toNat
      ++ bytesOf 4 bound.toNat ++ bytesOf 2 s.fib.tenant.toNat ++ bytesOf 1 gen ++ bytesOf 1 (128 + kind) ++ bytesOf 4 s.fib.fibre.toNat) with lastHandle := n }
      d (BitVec.ofNat 64 (s.fib.tenant.toNat * 2 ^ 52 + gen * 2 ^ 44 + n * 2 ^ 24 + bound.toNat))) := by
  have hfree := nextFree_of_chosen hn h
  have hrun := run_allocBody (kind := kind) (d := d) h1 h2 hpos hmax hshd fun m hm => by rw [hfree, Option.some.injEq] at hm; rwa [← hm]
  rw [allocHandle_some hfree] at hrun
  refine done_of_result hrun ((storeBytes_pair _ _ _).trans hp) ?_
  show openS (storeBytes s (handleLoc n) _).fib d = true
  rw [(storeBytes_home s _ _).fib]
  exact hd

end

/-! ## hfree and hchk -/

section
variable {s : State} {d a : SReg} {b : SrcB} (ha : plainS s.fib a = true)
include ha

section
variable (hun : unhindered s (handleLoc ((regVal s.fib a).toNat / 2 ^ 24 % 2 ^ 20)) = true)
include hun

theorem exec_hfree_refused (hp : s.pair = none) (hr : handleReason s (regVal s.fib a) (fun _ => true) (fun _ => true) ≠ 0) :
    exec (.hfree a) s = .next (trapsWith s 0x0D (reasonWord (handleReason s (regVal s.fib a) (fun _ => true) fun _ => true) 0)) := by
  refine performSeq_fails ?_ hp
  rw [run_bind_ok (rd_of_plain ha)]
  refine (run_bind_ok (run_atTable hun)).trans ?_
  rw [run_bind_ok (run_get s), if_pos hr]
  rfl

theorem exec_hfree (hp : s.pair = none) (hr : handleReason s (regVal s.fib a) (fun _ => true) (fun _ => true) = 0) :
    exec (.hfree a) s = .next (goOn (freeHandle s ((regVal s.fib a).toNat / 2 ^ 24 % 2 ^ 20))) := by
  refine done_of_unit ?_ ?_
  · rw [run_bind_ok (rd_of_plain ha)]
    refine (run_bind_ok (run_atTable hun)).trans ?_
    rw [run_bind_ok (run_get s), if_neg (not_not.2 hr)]
    rfl
  · simp [freeHandle, hp]

end

theorem exec_hchk {t : State} (hb : plainB s.fib b = true) (hopen : pathOpen s (handleLoc ((regVal s.fib a).toNat / 2 ^ 24 % 2 ^ 20)) 32 false = true)
    (ht : t = askedIn s (handleLoc ((regVal s.fib a).toNat / 2 ^ 24 % 2 ^ 20)) 32 false) (hp : t.pair = none) (hd : openS t.fib d = true) :
    exec (.hchk d a b) s = .next (doneS t d (checkWord t (regVal s.fib a) (valB s.fib b))) := by
  have hread := needRead_open hopen
  rw [← ht] at hread
  refine done_of_result ?_ hp hd
  rw [run_bind_ok (rd_of_plain ha), run_bind_ok (rdB_of_plain hb)]
  exact (run_bind_ok hread).trans rfl

end

theorem checkWord_eq (t : State) (h x : Word) : let n := h.toNat / 2 ^ 24 % 2 ^ 20
    let r := handleReason t h (fun _ => true) (fun bound => decide (x.toNat ≤ if entryField t n 0x17 1 % 8 = 1 then bound else bound * 65536))
    checkWord t h x = w64 (r * 2 ^ 56 + if r = 1 then 0 else entryField t n 0x17 1 % 8 * 2 ^ 53 + entryField t n 0x10 4 % 2 ^ 24) := by
  intro n r
  have hfield : ∀ o k, recNat (entryBytes t t.focus.1 (bitsOf h 24 20)) o k = entryField t n o k := fun _ _ => rfl
  have hfits : (fun bound => if entryField t n 0x17 1 % 8 = 1 then decide (x.toNat ≤ bound) else decide (x.toNat ≤ bound * 65536))
      = fun bound => decide (x.toNat ≤ if entryField t n 0x17 1 % 8 = 1 then bound else bound * 65536) := by
    funext bound
    split <;> rfl
  simp only [checkWord, hfield, hfits, r]

/-- The fields of the word of `hchk` (R229). -/
theorem checkWord_fields (t : State) (h x : Word) :
    let v := checkWord t h x
    let n := h.toNat / 2 ^ 24 % 2 ^ 20
    (v.extractLsb' 56 8).toNat = handleReason t h (fun _ => true) (fun bound =>
        decide (x.toNat ≤ if entryField t n 0x17 1 % 8 = 1 then bound else bound * 65536))
      ∧ (n = 0 → v.extractLsb' 0 56 = 0) ∧ (n ≠ 0 → (v.extractLsb' 53 3).toNat = entryField t n 0x17 1 % 8 ∧ v.extractLsb' 24 29 = 0
        ∧ (v.extractLsb' 0 24).toNat = entryField t n 0x10 4 % 2 ^ 24) := by
  intro v n
  obtain ⟨hone, -, -, -, -, -, -, -, hlt⟩ := handleReason_iff t h (fun _ => true)
    fun bound => decide (x.toNat ≤ if entryField t n 0x17 1 % 8 = 1 then bound else bound * 65536)
  have hv := checkWord_eq t h x
  dsimp only at hone hlt hv
  generalize handleReason t h (fun _ => true) (fun bound => decide (x.toNat ≤ if entryField t n 0x17 1 % 8 = 1 then bound else bound * 65536)) = r
    at hone hlt hv ⊢
  have hkind : entryField t n 0x17 1 % 8 < 8 := Nat.mod_lt _ (by decide)
  have hbound : entryField t n 0x10 4 % 2 ^ 24 < 2 ^ 24 := Nat.mod_lt _ (by decide)
  generalize entryField t n 0x17 1 % 8 = kind at hv hkind ⊢
  generalize entryField t n 0x10 4 % 2 ^ 24 = bound at hv hbound ⊢
  have hlow : (if r = 1 then 0 else kind * 2 ^ 53 + bound) < 2 ^ 56 := by split <;> omega
  have hnat : v.toNat = r * 2 ^ 56 + if r = 1 then 0 else kind * 2 ^ 53 + bound := by
    show (checkWord t h x).toNat = _
    rw [hv, w64, BitVec.toNat_ofNat, Nat.mod_eq_of_lt (by omega)]
  have hfield : ∀ k m, (v.extractLsb' k m).toNat = v.toNat / 2 ^ k % 2 ^ m := fun k m => by
    rw [BitVec.extractLsb'_toNat, Nat.shiftRight_eq_div_pow]
  refine ⟨?_, fun hn => BitVec.eq_of_toNat_eq ?_, fun hn => ⟨?_, BitVec.eq_of_toNat_eq ?_, ?_⟩⟩ <;> rw [hfield, hnat]
  · omega
  · rw [if_pos (hone.2 hn)]
    have hzero : (0 : BitVec 56).toNat = 0 := rfl
    omega
  all_goals rw [if_neg fun k => hn (hone.1 k)]
  · omega
  · have hzero : (0 : BitVec 29).toNat = 0 := rfl
    omega
  · omega

/-- Settles O36: the checks are a chain of seven; `halloc` searches the table as `nextFree` does, and `hchk` packs `checkWord`. -/
theorem handles : Obligations.Handles := by
  unfold Obligations.Handles
  refine ⟨⟨handleReason_iff, fun s sg o e need kind => resolve_handle⟩, fun s kind d a c b hp ha hb hc hd => ⟨exec_halloc_user hp, fun hk => ?_⟩,
    fun s d a b hp ha => ⟨fun hun => ⟨exec_hfree_refused ha hun hp, exec_hfree ha hun hp⟩, fun hb hopen hpt hdt => ?_⟩⟩
  · rw [exec_halloc_operands ha hb hk, exec_hallocBufSh_operands ha hb hc]
    have halone : false = true → (0 : Word) ≠ 0 ∧ (0 : Word).toNat % 65536 = 0 ∧ (0 : Word).toNat < 2 ^ 55 := fun h => absurd h Bool.false_ne_true
    refine ⟨fun hbase => ⟨performSeq_allocBody_base hp hbase, performSeq_allocBody_base hp hbase⟩, fun h1 h2 => ⟨fun hbound =>
      ⟨performSeq_allocBody_bound hp h1 h2 hbound, performSeq_allocBody_bound hp h1 h2 hbound⟩, fun hpos hmax =>
      ⟨performSeq_allocBody_shadow hp h1 h2 hpos hmax, fun hn hnone => performSeq_allocBody_none hp h1 h2 hpos hmax hd hn hnone halone, fun n hn hchosen hun =>
      ⟨performSeq_allocBody hp h1 h2 hpos hmax hd hn hchosen hun halone, fun h3 h4 h5 => performSeq_allocBody hp h1 h2 hpos hmax hd hn hchosen hun
        fun _ => ⟨h3, h4, h5⟩⟩⟩⟩⟩
  · exact ⟨_, exec_hchk ha hb hopen rfl hpt hdt, checkWord_fields _ _ _⟩

end Sys2Proof
end

