-- ==== Sys2Proof/Proofs/WalkerInstructions.lean ====
section
/-!
SUPPORT. The walker's mailbox, its answers, and the faults it posts: O38.
-/
namespace Sys2Proof
open Machine Safety

/-! ## A mailbox entry in lanes (R235) -/

/-- Lane k of the bytes of a vector. -/
def laneAt (b : List Byte) (k : Nat) : Lane := BitVec.ofNat 32 (natOf ((b.drop (4 * k)).take 4))

theorem lanesOf_eq_laneAt {b : List Byte} {v : Fin 16 → Lane} (h : ∀ k : Fin 16, laneAt b k.val = v k) : lanesOf b = vecOf v :=
  congrArg vecOf (funext h)

theorem laneAt_append {b r : List Byte} {m : Nat} (h : b.length = 4 * m) (k : Nat) : laneAt (b ++ r) (m + k) = laneAt r k := by
  have hdrop : (b ++ r).drop (4 * (m + k)) = r.drop (4 * k) := by
    rw [Nat.mul_add, ← h, List.drop_append, List.drop_eq_nil_of_le (by omega), Nat.add_sub_cancel_left, List.nil_append]
  rw [laneAt, laneAt, hdrop]

theorem ofNat_natOf_take (b : List Byte) : BitVec.ofNat 32 (natOf (b.take 4)) = BitVec.ofNat 32 (natOf b) := by
  refine BitVec.eq_of_toNat_eq ?_
  rw [BitVec.toNat_ofNat, BitVec.toNat_ofNat, natOf_take]
  exact Nat.mod_mod _ _

theorem laneAt_low {b r : List Byte} {n v : Nat} (hb : b = bytesOf n v) (hn : 4 ≤ n) : laneAt (b ++ r) 0 = BitVec.ofNat 32 v := by
  subst hb
  have hlen : 4 ≤ (bytesOf n v).length := by rwa [bytesOf_length]
  rw [laneAt, Nat.mul_zero, List.drop_zero, List.take_append_of_le_length hlen, ofNat_natOf_take, natOf_bytesOf]
  refine BitVec.eq_of_toNat_eq ?_
  rw [BitVec.toNat_ofNat, BitVec.toNat_ofNat]
  exact Nat.mod_mod_of_dvd v (pow_dvd_pow 256 hn)

theorem bytesOf_add (m n v : Nat) : bytesOf (m + n) v = bytesOf m v ++ bytesOf n (v / 256 ^ m) := by
  induction m generalizing v with
  | zero => simp [bytesOf]
  | succ m ih => rw [Nat.succ_add, bytesOf, ih, bytesOf, List.cons_append, Nat.div_div_eq_div_mul, ← Nat.pow_succ']

theorem laneAt_high {r : List Byte} (v : Nat) : laneAt (bytesOf 8 v ++ r) 1 = BitVec.ofNat 32 (v / 2 ^ 32) := by
  rw [bytesOf_add 4 4, List.append_assoc, laneAt_append (m := 1) (bytesOf_length 4 v) 0]
  exact laneAt_low rfl (Nat.le_refl 4)

/-- The second lane pair of an entry: its tenant, its TAG and who asks. -/
theorem askerBytes_eq (t tag rq : Nat) (ht : t < 65536) : bytesOf 2 t ++ bytesOf 1 tag ++ bytesOf 1 rq = bytesOf 4 (t + tag % 256 * 2 ^ 16 + rq * 2 ^ 24) := by
  rw [bytesOf_add 2 2, bytesOf_add 1 1 ((t + tag % 256 * 2 ^ 16 + rq * 2 ^ 24) / 256 ^ 2)]
  have h1 : bytesOf 2 t = bytesOf 2 (t + tag % 256 * 2 ^ 16 + rq * 2 ^ 24) := by
    simp only [bytesOf, List.cons.injEq, and_true]
    exact ⟨BitVec.eq_of_toNat_eq (by simp only [BitVec.toNat_ofNat]; omega), BitVec.eq_of_toNat_eq (by simp only [BitVec.toNat_ofNat]; omega)⟩
  have h2 : bytesOf 1 tag = bytesOf 1 ((t + tag % 256 * 2 ^ 16 + rq * 2 ^ 24) / 256 ^ 2) := by
    simp only [bytesOf, List.cons.injEq, and_true]
    exact BitVec.eq_of_toNat_eq (by simp only [BitVec.toNat_ofNat]; omega)
  have h3 : bytesOf 1 rq = bytesOf 1 ((t + tag % 256 * 2 ^ 16 + rq * 2 ^ 24) / 256 ^ 2 / 256 ^ 1) := by
    simp only [bytesOf, List.cons.injEq, and_true]
    exact BitVec.eq_of_toNat_eq (by simp only [BitVec.toNat_ofNat]; omega)
  rw [h1, h2, h3, List.append_assoc]

theorem laneAt_zeros (k : Nat) : laneAt (List.replicate 32 0) k = 0 := by
  have hzero : ∀ n, natOf (List.replicate n 0) = 0 := fun n => by
    induction n with
    | zero => rfl
    | succ n ih => rw [List.replicate_succ, natOf, ih]; rfl
  rw [laneAt, List.drop_replicate, List.take_replicate, hzero]
  rfl

/-- What `wmbx` delivers of an entry, lane by lane (R235). -/
theorem lanesOf_missBytes (m : Miss) {v : Fin 16 → Lane}
    (h0 : v 0 = BitVec.ofNat 32 (m.va.toNat % 2 ^ 55 + m.at_ * 2 ^ 60))
    (h1 : v 1 = BitVec.ofNat 32 ((m.va.toNat % 2 ^ 55 + m.at_ * 2 ^ 60) / 2 ^ 32))
    (h2 : v 2 = BitVec.ofNat 32 (m.tenant.toNat + m.tag % 256 * 2 ^ 16 + m.rq * 2 ^ 24)) (h3 : v 3 = BitVec.ofNat 32 m.who)
    (h4 : v 4 = m.code.setWidth 32) (h5 : v 5 = m.code.extractLsb' 32 32) (h6 : v 6 = BitVec.ofNat 32 m.epoch)
    (h7 : v 7 = BitVec.ofNat 32 (m.epoch / 2 ^ 32)) (hrest : ∀ k : Fin 16, 8 ≤ k.val → v k = 0) :
    lanesOf (missBytes m ++ List.replicate 32 0) = vecOf v := by
  have hten : m.tenant.toNat < 65536 := by omega
  have hparts : missBytes m ++ List.replicate 32 0 = bytesOf 8 (m.va.toNat % 2 ^ 55 + m.at_ * 2 ^ 60)
      ++ (bytesOf 4 (m.tenant.toNat + m.tag % 256 * 2 ^ 16 + m.rq * 2 ^ 24) ++ (bytesOf 4 m.who ++ (bytesOf 8 m.code.toNat
      ++ (bytesOf 8 m.epoch ++ List.replicate 32 0)))) := by
    rw [← askerBytes_eq _ _ _ hten]
    simp only [missBytes, List.append_assoc]
  have hskip : ∀ (n w k : Nat) (r : List Byte), laneAt (bytesOf (4 * n) w ++ r) (n + k) = laneAt r k := fun n w k r => laneAt_append (bytesOf_length _ _) k
  have hcode : m.code.setWidth 32 = BitVec.ofNat 32 m.code.toNat := BitVec.eq_of_toNat_eq (by simp)
  have hcode' : m.code.extractLsb' 32 32 = BitVec.ofNat 32 (m.code.toNat / 2 ^ 32) := BitVec.eq_of_toNat_eq (by simp [Nat.shiftRight_eq_div_pow])
  rw [hparts]
  refine lanesOf_eq_laneAt fun k => ?_
  by_cases hk : 8 ≤ k.val
  · rw [hrest k hk]
    obtain ⟨j, hj⟩ := Nat.exists_eq_add_of_le hk
    rw [hj, show 8 + j = 2 + (1 + (1 + (2 + (2 + j)))) by omega, hskip 2, hskip 1, hskip 1, hskip 2, hskip 2, laneAt_zeros]
  · match k, hk with
    | 0, _ => rw [h0]; exact laneAt_low rfl (by decide)
    | 1, _ => rw [h1]; exact laneAt_high _
    | 2, _ => rw [h2]; exact (hskip 2 _ 0 _).trans (laneAt_low rfl (by decide))
    | 3, _ => rw [h3]; exact (hskip 2 _ 1 _).trans ((hskip 1 _ 0 _).trans (laneAt_low rfl (by decide)))
    | 4, _ => rw [h4, hcode]; exact (hskip 2 _ 2 _).trans ((hskip 1 _ 1 _).trans ((hskip 1 _ 0 _).trans (laneAt_low rfl (by decide))))
    | 5, _ => rw [h5, hcode']; exact (hskip 2 _ 3 _).trans ((hskip 1 _ 2 _).trans ((hskip 1 _ 1 _).trans (laneAt_high _)))
    | 6, _ => rw [h6]; exact (hskip 2 _ 4 _).trans ((hskip 1 _ 3 _).trans ((hskip 1 _ 2 _).trans ((hskip 2 _ 0 _).trans (laneAt_low rfl (by decide)))))
    | 7, _ => rw [h7]; exact (hskip 2 _ 5 _).trans ((hskip 1 _ 4 _).trans ((hskip 1 _ 3 _).trans ((hskip 2 _ 1 _).trans (laneAt_high _))))
    | ⟨n + 8, _⟩, hk => exact absurd (Nat.le_add_left 8 n) hk

theorem goOn_putV (t : State) (d : Fin 16) (v : VReg) : goOn { t with fib := putV t.fib d v } = doneV t d v := by
  simp [goOn, doneV, putV]

/-! ## The privilege check (R237) -/

theorem run_needWalker {s : State} (hs : s.fib.steward = true) (hk : s.focus.2 = 15) : needWalker s = .ok ((), s) := by
  rw [needWalker, run_bind_ok (run_needSteward hs), run_bind_ok (show theSlot s = .ok (s.focus.2, s) from rfl), if_pos hk, run_pure]

theorem run_needWalker_elsewhere {s : State} (h : s.fib.steward = false ∨ s.focus.2 ≠ 15) : needWalker s = .error (.trap 5 0 false none) := by
  rw [needWalker]
  cases hs : s.fib.steward with
  | false => rw [run_bind_error (run_needSteward_user hs)]
  | true =>
    have hk : s.focus.2 ≠ 15 := h.resolve_left (by simp [hs])
    rw [run_bind_ok (run_needSteward hs), run_bind_ok (show theSlot s = .ok (s.focus.2, s) from rfl), if_neg hk, run_fail]

section
variable {s : State} {d : Fin 12} {a b : SReg} (hp : s.pair = none)

include hp in
theorem exec_walker_elsewhere (h : s.fib.steward = false ∨ s.focus.2 ≠ 15) : exec (.wmbx d) s = .next (trapsWith s 5 0)
    ∧ exec (.wfill a b) s = .next (trapsWith s 5 0) ∧ exec (.wfail a b) s = .next (trapsWith s 5 0) :=
  ⟨performSeq_fails (run_bind_error (run_needWalker_elsewhere h)) hp, performSeq_fails (run_bind_error (run_needWalker_elsewhere h)) hp,
    performSeq_fails (run_bind_error (run_needWalker_elsewhere h)) hp⟩

variable (hs : s.fib.steward = true) (hk : s.focus.2 = 15)
include hs hk

/-! ## wmbx -/

include hp in
theorem exec_wmbx_empty (h : ∀ m ∈ (getCore s s.focus.1).mailbox, m.fresh = false) : exec (.wmbx d) s = .next (applyLeave s .room) := by
  have hnone : (getCore s s.focus.1).mailbox.find? (·.fresh) = none := List.find?_eq_none.2 fun m hm => by simp [h m hm]
  refine performSeq_leave (keep := none) ?_ hp
  rw [run_bind_ok (run_needWalker hs hk), run_bind_ok (run_get s)]
  dsimp only
  rw [hnone]
  rfl

omit hs hk in
theorem acquire_focus (g sc : Nat) : (acquire s g sc).focus = s.focus := by
  unfold acquire
  dsimp only
  split <;> rfl

/-- The mailbox without the mark of the entry taken. -/
def mailTaken (u : State) (g : Nat) (m : Miss) : State :=
  setCore u g { getCore u g with
    mailbox := (getCore u g).mailbox.map fun e => if e.tag = m.tag then { e with fresh := false } else e }

include hp in
theorem exec_wmbx (hd : openV s.fib (lowV d) = true) {m : Miss} (hm : (getCore s s.focus.1).mailbox.find? (fun m => m.fresh) = some m) :
    exec (.wmbx d) s = .next (doneV (mailTaken (acquire s s.focus.1 4) s.focus.1 m) (lowV d) (lanesOf (missBytes m ++ List.replicate 32 0))) := by
  have hopen : openV (mailTaken (acquire s s.focus.1 4) s.focus.1 m).fib (lowV d) = true := (openV_acquire s s.focus.1 4 (lowV d)).trans hd
  have harmed : armedV (mailTaken (acquire s s.focus.1 4) s.focus.1 m).fib (lowV d) = none := by simpa [openV] using hopen
  let v := lanesOf (missBytes m ++ List.replicate 32 0)
  let t := mailTaken (acquire s s.focus.1 4) s.focus.1 m
  refine (done_of_unit (u := { t with fib := putV t.fib (lowV d) v }) ?_ ((acquire_pair _ _ _).trans hp)).trans (congrArg Host.Outcome.next (goOn_putV t _ v))
  rw [run_bind_ok (run_needWalker hs hk), run_bind_ok (run_get s)]
  dsimp only
  rw [hm]
  dsimp only
  rw [run_bind_ok (run_change _ s), run_bind_ok (run_change _ _), acquire_focus]
  simp only [beq_iff_eq]
  exact writeV_plain _ harmed

/-! ## wfill -/

variable (ha : plainS s.fib a = true) (hb : plainS s.fib b = true)
include ha hb

include hp in
theorem exec_wfill_none (h : 32 ≤ (regVal s.fib a).toNat ∨ ∀ m ∈ (getCore s s.focus.1).mailbox, m.tag ≠ (regVal s.fib a).toNat) :
    exec (.wfill a b) s = .next (trapsWith s 6 (regVal s.fib a)) := by
  have hnone : (if (regVal s.fib a).toNat < 32 then mailEntry s (regVal s.fib a).toNat else none) = none := by
    split
    · next hlt =>
      have hno := h.resolve_left (by omega)
      exact List.find?_eq_none.2 fun m hm => by simp [hno m hm]
    · rfl
  refine performSeq_fails ?_ hp
  rw [run_bind_ok (run_needWalker hs hk), run_bind_ok (rd_of_plain ha), run_bind_ok (rd_of_plain hb), run_bind_ok (run_get s)]
  dsimp only
  rw [hnone]
  rfl

/-- A leaf that R239 does not admit for the access of an entry. -/
def badLeaf (l : Word) (m : Miss) : Prop :=
  l.getLsbD 63 = false ∨ l.extractLsb' 60 2 = 3 ∨ l.getLsbD 54 = true
    ∨ ((m.at_ = 1 ∨ m.at_ = 4 ∨ m.at_ = 6) ∧ l.getLsbD 57 = false) ∨ (m.at_ = 2 ∧ l.getLsbD 56 = false)

omit hs hk ha hb in
theorem badLeaf_iff (l : Word) (m : Miss) : (leafV l = false ∨ leafTier l = 3 ∨ leafMig l = true ∨ leafLacks l m.at_ = true) ↔ badLeaf l m := by
  have htier : leafTier l = 3 ↔ l.extractLsb' 60 2 = 3 := by
    rw [leafTier, bitsOf_eq_extractLsb']
    exact ⟨fun h => BitVec.eq_of_toNat_eq h, fun h => by rw [h]; rfl⟩
  have hlacks : leafLacks l m.at_ = true ↔
      ((m.at_ = 1 ∨ m.at_ = 4 ∨ m.at_ = 6) ∧ l.getLsbD 57 = false) ∨ (m.at_ = 2 ∧ l.getLsbD 56 = false) := by
    simp only [leafLacks, accWrites, leafWr, leafEx, Bool.or_eq_true, Bool.and_eq_true, beq_iff_eq, Bool.not_eq_true', or_assoc]
  rw [htier, hlacks]
  rfl

section
variable {m : Miss} (hx : (regVal s.fib a).toNat < 32)
  (hm : (getCore s s.focus.1).mailbox.find? (fun m => m.tag == (regVal s.fib a).toNat % 32) = some m)
include hx hm

omit hs hk ha hb in
theorem mailEntry_named : (if (regVal s.fib a).toNat < 32 then mailEntry s (regVal s.fib a).toNat else none) = some m := by
  rw [if_pos hx, mailEntry]
  rwa [Nat.mod_eq_of_lt hx] at hm

include hp in
theorem exec_wfill_bad (hbad : badLeaf (regVal s.fib b) m) : exec (.wfill a b) s = .next (trapsWith s 6 (regVal s.fib a)) := by
  refine performSeq_fails ?_ hp
  rw [run_bind_ok (run_needWalker hs hk), run_bind_ok (rd_of_plain ha), run_bind_ok (rd_of_plain hb), run_bind_ok (run_get s)]
  dsimp only
  rw [mailEntry_named hx hm]
  dsimp only
  rw [if_pos ((badLeaf_iff _ _).2 hbad)]
  rfl

theorem exec_wfill (hgood : ¬ badLeaf (regVal s.fib b) m) {u : State} (hu : u = if overtaken s m ((regVal s.fib b).getLsbD 62) then freeEntry s s.focus.1 m.tag
      else installLeaf (freeEntry s s.focus.1 m.tag) s.focus.1 m (regVal s.fib b)) (hpu : (pumpAll u).pair = none) :
    exec (.wfill a b) s = .next (goOn (pumpAll u)) := by
  refine done_of_unit ?_ hpu
  rw [run_bind_ok (run_needWalker hs hk), run_bind_ok (rd_of_plain ha), run_bind_ok (rd_of_plain hb), run_bind_ok (run_get s)]
  dsimp only
  rw [mailEntry_named hx hm]
  dsimp only
  rw [if_neg (mt (badLeaf_iff _ _).1 hgood), run_change, hu, leafBlk]
  split <;> rfl

end

/-! ## wfail -/

include hp in
theorem exec_wfail_none (h : ∀ m ∈ (getCore s s.focus.1).mailbox, m.tag ≠ (regVal s.fib a).toNat % 32) :
    exec (.wfail a b) s = .next (trapsWith s 6 (regVal s.fib a)) := by
  have hnone : mailEntry s (bitsOf (regVal s.fib a) 0 5) = none := by
    refine List.find?_eq_none.2 fun m hm => ?_
    rw [bitsOf, Nat.pow_zero, Nat.div_one, beq_iff_eq]
    exact h m hm
  refine performSeq_fails ?_ hp
  rw [run_bind_ok (run_needWalker hs hk), run_bind_ok (rd_of_plain ha), run_bind_ok (rd_of_plain hb), run_bind_ok (run_get s)]
  rw [hnone]
  rfl

section
variable {m : Miss} (hm : (getCore s s.focus.1).mailbox.find? (fun m => m.tag == (regVal s.fib a).toNat % 32) = some m)
include hm

omit hs hk ha hb in
theorem mailEntry_low : mailEntry s (bitsOf (regVal s.fib a) 0 5) = some m := by
  rw [mailEntry, bitsOf, Nat.pow_zero, Nat.div_one]
  exact hm

include hp in
theorem exec_wfail_reason (hr : 6 ≤ (regVal s.fib b).toNat % 16) : exec (.wfail a b) s = .next (trapsWith s 6 (regVal s.fib a)) := by
  refine performSeq_fails ?_ hp
  rw [run_bind_ok (run_needWalker hs hk), run_bind_ok (rd_of_plain ha), run_bind_ok (rd_of_plain hb), run_bind_ok (run_get s)]
  rw [mailEntry_low hm]
  dsimp only
  rw [if_pos (by rw [bitsOf, Nat.pow_zero, Nat.div_one]; exact hr)]
  rfl

theorem exec_wfail_holds (hr : (regVal s.fib b).toNat % 16 = 5) (hq : m.rq ≠ 3) {u : State} (hu : holdOnMove (freeEntry s s.focus.1 m.tag) s.focus.1 m = u)
    (hpu : u.pair = none) : exec (.wfail a b) s = .next (goOn u) := by
  have hreason : bitsOf (regVal s.fib b) 0 4 = 5 := by rw [bitsOf, Nat.pow_zero, Nat.div_one]; exact hr
  refine done_of_unit ?_ hpu
  rw [run_bind_ok (run_needWalker hs hk), run_bind_ok (rd_of_plain ha), run_bind_ok (rd_of_plain hb), run_bind_ok (run_get s)]
  rw [mailEntry_low hm]
  dsimp only
  rw [hreason, if_neg (by decide), if_pos ⟨rfl, hq⟩, run_change, hu]

theorem exec_wfail_posts (hr : (regVal s.fib b).toNat % 16 < 5) {u : State}
    (hu : failEntry s s.focus.1 m ((regVal s.fib b).toNat % 16) (selfAdder s) = some u) (hpu : u.pair = none) :
    exec (.wfail a b) s = .next (goOn u) := by
  have hreason : bitsOf (regVal s.fib b) 0 4 = (regVal s.fib b).toNat % 16 := by rw [bitsOf, Nat.pow_zero, Nat.div_one]; rfl
  refine done_of_unit ?_ hpu
  rw [run_bind_ok (run_needWalker hs hk), run_bind_ok (rd_of_plain ha), run_bind_ok (rd_of_plain hb), run_bind_ok (run_get s)]
  rw [mailEntry_low hm]
  dsimp only
  rw [hreason, if_neg (by omega), if_neg (by omega)]
  simp only [changeOrWait, hu]

end
end

/-! ## Installing a leaf (R239) -/

theorem tlbFind_tlbFill (s : State) (t : TlbId) (tenant : BitVec 12) (va l : Word) :
    ∃ e, tlbFind (tlbFill s t tenant va l) t tenant va = some e ∧ e.leaf = l := by
  unfold tlbFind tlbFill
  extract_lets others mine kept blk
  have hothers : ∀ e ∈ others, (e.tlb == t && covers e tenant va) = false := fun e he => by
    simpa only [Bool.not_eq_true'] using (List.mem_filter.1 he).2
  clear_value mine
  have hkept : ∀ e ∈ kept, e ∈ others := by
    intro e he
    simp only [kept] at he
    split at he
    · exact he
    · split at he
      · exact (List.mem_filter.1 he).1
      · exact he
  have hnone : kept.find? (fun e => e.tlb == t && covers e tenant va) = none :=
    List.find?_eq_none.2 fun e he => by rw [hothers e (hkept e he)]; exact Bool.false_ne_true
  refine ⟨{ tlb := t, tenant := tenant, page := va.toNat % 2 ^ 55 / (if blk then 2 ^ 29 else 65536), blk := blk, leaf := l }, ?_, rfl⟩
  show (kept ++ [_]).find? _ = _
  rw [List.find?_append, hnone, Option.none_or, List.find?_cons_of_pos]
  simp only [covers, beq_self_eq_true, Bool.true_and]
  cases blk <;> simp

theorem installLeaf_port (s : State) (g : Nat) (m : Miss) (l : Word) (h : m.rq ≠ 2) :
    ∃ e, tlbFind (installLeaf s g m l) (.port (g / 192)) m.tenant m.va = some e ∧ e.leaf = l := by
  have htlbs : (installLeaf s g m l).tlbs = (tlbFill (tlbFill s (.die (dieOf g)) m.tenant m.va l) (.port (clusterOf g)) m.tenant m.va l).tlbs := by
    rw [installLeaf, if_neg h]
    split <;> rfl
  rw [tlbFind, htlbs]
  exact tlbFind_tlbFill _ _ _ _ _

theorem installLeaf_host (s : State) (g : Nat) (m : Miss) (l : Word) (h : m.rq = 2) :
    ∃ e, tlbFind (installLeaf s g m l) (.host (hostDieOf m)) m.tenant m.va = some e ∧ e.leaf = l := by
  have htlbs : (installLeaf s g m l).tlbs = (tlbFill s (.host (hostDieOf m)) m.tenant m.va l).tlbs := by
    rw [installLeaf, if_pos h]
    split <;> rfl
  rw [tlbFind, htlbs]
  exact tlbFind_tlbFill _ _ _ _ _

/-! ## Tickets (R241) -/

theorem takeTicket_free {s : State} {g : Nat} (h : (outstanding s g).length < 64) : ∃ u, takeTicket s g = some ((getCore s g).faultSeq + 1, u)
    ∧ (getCore u g).faultSeq = (getCore s g).faultSeq + 1 ∧ (getCore s g).faultSeq + 1 ∈ (getCore u g).tickets := by
  refine ⟨_, if_neg (Nat.not_le.2 h), ?_⟩
  rw [getCore_setCore_same]
  exact ⟨rfl, List.mem_append_right _ (.head _)⟩

/-! ## A page that has moved (R240, R247) -/

theorem holdOnMove_request {s : State} {g : Nat} {m : Miss} (h : m.rq ≠ 0) : holdOnMove s g m = { s with moving := s.moving ++ [(g, m)] } := by
  rw [holdOnMove, if_pos h]

theorem holdOnMove_gone {s : State} {g : Nat} {m : Miss} (h : m.rq = 0) (hk : slotOfFibre s g m.who = none) : holdOnMove s g m = s := by
  rw [holdOnMove, if_neg (not_not.2 h)]
  simp only [hk]

theorem holdOnMove_fibre {s : State} {g : Nat} {m : Miss} (h : m.rq = 0) {k : Fin 16} {w : Wait} (hk : slotOfFibre s g m.who = some k)
    (hw : (getCtx s g k).status = .waiting w) : holdOnMove s g m = setCtx s g k { getCtx s g k with status := .waiting (.move m.va) } := by
  rw [holdOnMove, if_neg (not_not.2 h)]
  simp only [hk, hw]

section
variable {s : State} {g : Nat} {k : Fin 16} {va : Word} {u : State}
  (hu : u = pumpAll { s with moving := s.moving.filter fun e => pageMoving s e.2.tenant e.2.va })
  (hw : (getCtx u g k).status = .waiting (.move va))
include hu hw

theorem retranslate_eq : retranslate s (16 * g + k.val) = if (getCore u g).slots[k].bound = true ∧ pageMoving u (getCtx u g k).tenant va = false
    then setCtx u g k { getCtx u g k with status := .run } else u := by
  have hg : (16 * g + k.val) / 16 = g := by omega
  have hk : Fin.ofNat 16 (16 * g + k.val) = k := Fin.ext (by rw [Fin.ofNat]; simp)
  rw [retranslate, ← hu, hg]
  simp only [hk, hw]

end

theorem freeEntry_getCtx (s : State) (g tag : Nat) (k : Fin 16) : getCtx (freeEntry s g tag) g k = getCtx s g k := by
  have hcore : getCore (freeEntry s g tag) g = { getCore s g with mailbox := (getCore s g).mailbox.filter fun m => m.tag != tag } := getCore_setCore_same _ _ _
  rw [getCtx, getCtx, hcore]
  rfl

theorem freeEntry_slotOfFibre (s : State) (g tag f : Nat) : slotOfFibre (freeEntry s g tag) g f = slotOfFibre s g f := by
  have hcore : getCore (freeEntry s g tag) g = { getCore s g with mailbox := (getCore s g).mailbox.filter fun m => m.tag != tag } := getCore_setCore_same _ _ _
  rw [slotOfFibre, slotOfFibre, hcore]
  rfl

theorem pair_setCtx (s : State) (g : Nat) (k : Fin 16) (f : Fib) : (setCtx s g k f).pair = s.pair := by
  unfold setCtx
  split <;> rfl

/-- Settles O38: every instruction of the walker finds its entry in the mailbox; `lanesOf_missBytes` gives what `wmbx` delivers, `tlbFind_tlbFill`
that a leaf installed is found. -/
theorem walkerInstructions : Obligations.WalkerInstructions := by
  unfold Obligations.WalkerInstructions
  refine ⟨fun s d a b hp ha hb hd => ⟨exec_walker_elsewhere hp, fun hs hk => ⟨exec_wmbx_empty hp hs hk, fun m hm => ?_, exec_wfill_none hp hs hk ha hb,
    exec_wfail_none hp hs hk ha hb, fun m hm => ⟨fun hx => exec_wfill_bad hp hs hk ha hb hx hm, fun hx hgood hover hpu => ?_,
      fun hx hgood hover hpu => ⟨?_, installLeaf_port _ _ _ _, installLeaf_host _ _ _ _⟩, exec_wfail_reason hp hs hk ha hb hm, fun hr h3 h0 => ?_,
      fun hr h0 hslot => ?_, fun k w hr h0 hslot hwait => ?_, fun u hr hu hpu => exec_wfail_posts hs hk ha hb hm hr hu hpu⟩⟩⟩,
    fun s g => takeTicket_free, fun s g k va => ?_⟩
  · refine (exec_wmbx hp hs hk hd hm).trans (congrArg (fun v => Host.Outcome.next (doneV (mailTaken (acquire s s.focus.1 4) s.focus.1 m) (lowV d) v)) ?_)
    exact lanesOf_missBytes m rfl rfl rfl rfl rfl rfl rfl rfl fun k hk => match k, hk with
      | ⟨n + 8, _⟩, _ => rfl
  · exact exec_wfill hs hk ha hb hx hm hgood (by rw [hover]; rfl) hpu
  · exact exec_wfill hs hk ha hb hx hm hgood (by rw [hover]; rfl) hpu
  · exact exec_wfail_holds hs hk ha hb hm hr h3 (holdOnMove_request h0) hp
  · exact exec_wfail_holds hs hk ha hb hm hr (by omega) (holdOnMove_gone h0 ((freeEntry_slotOfFibre _ _ _ _).trans hslot)) hp
  · have hhold := holdOnMove_fibre (g := s.focus.1) h0 ((freeEntry_slotOfFibre s s.focus.1 m.tag m.who).trans hslot)
      ((congrArg Fib.status (freeEntry_getCtx s s.focus.1 m.tag k)).trans hwait)
    rw [freeEntry_getCtx] at hhold
    exact exec_wfail_holds hs hk ha hb hm hr (by omega) hhold ((pair_setCtx _ _ _ _).trans hp)
  · intro u hw
    have hrun := retranslate_eq (u := u) rfl hw
    refine ⟨fun l w n hleaf hmig => congrArg Host.Outcome.next (hrun.trans (if_neg ?_)), fun hbound hleaf => congrArg Host.Outcome.next (hrun.trans (if_pos ⟨hbound, ?_⟩))⟩
    · rw [pageMoving, hleaf]
      exact fun h => absurd (hmig.symm.trans h.2) (by decide)
    · rw [pageMoving]
      cases hwalk : walkLeaf u (getCtx u g k).tenant va.toNat with
      | none => rfl
      | some p => exact hleaf p.1 p.2.1 p.2.2 hwalk

end Sys2Proof
end

