-- ==== Sys2Proof/Proofs/FrameRules.lean ====
section
/-!
SUPPORT. What the frame instructions share (R256-R267): records that are clean stay clean under the home's stores and adds, and the checks that
they begin with pass.
-/
namespace Sys2Proof
open Machine Safety

/-! ## The home neither poisons a word nor puts an error in one -/

/-- No word is poisoned, or holds a single-bit error, that was not before. -/
def Cleaner (s t : State) : Prop := t.poison ⊆ s.poison ∧ t.latent ⊆ s.latent

theorem Cleaner.refl (s : State) : Cleaner s s := ⟨fun _ h => h, fun _ h => h⟩
theorem Cleaner.trans {s t u : State} (h : Cleaner s t) (k : Cleaner t u) : Cleaner s u := ⟨fun _ m => h.1 (k.1 m), fun _ m => h.2 (k.2 m)⟩
theorem Cleaner.of_eq {s t : State} (hp : t.poison = s.poison) (hl : t.latent = s.latent) : Cleaner s t := ⟨fun _ h => hp ▸ h, fun _ h => hl ▸ h⟩
theorem Cleaner.foldl {α : Type} {f : State → α → State} (h : ∀ s a, Cleaner s (f s a)) : ∀ (l : List α) (s : State), Cleaner s (l.foldl f s)
  | [], s => .refl s
  | a :: l, s => (h s a).trans (Cleaner.foldl h l (f s a))

theorem cleaner_writeBytes (s : State) (a : Nat) (l : List Byte) : Cleaner s (writeBytes s a l) :=
  .of_eq (writeBytes_poison s a l) (by rw [writeBytes_eq])

theorem cleaner_bumpDie (s : State) (d off n : Nat) : Cleaner s (bumpDie s d off n) := cleaner_writeBytes _ _ _
theorem cleaner_bumpIo (s : State) (d off n : Nat) : Cleaner s (bumpIo s d off n) := cleaner_writeBytes _ _ _

theorem cleaner_countMemError (s : State) (a : Nat) (p : Bool) : Cleaner s (countMemError s a p) := by
  unfold countMemError
  split
  · exact cleaner_bumpDie _ _ _ _
  · split
    · exact cleaner_bumpDie _ _ _ _
    · exact cleaner_bumpIo _ _ _ _
    · exact .refl s

theorem cleaner_correctRead (s : State) (a n : Nat) : Cleaner s (correctRead s a n) := by
  unfold correctRead correctWords
  dsimp only
  split
  · exact .refl s
  · refine Cleaner.trans ?_ (Cleaner.foldl (fun t w => cleaner_countMemError t w false) _ _)
    exact ⟨fun _ h => h, fun _ h => (List.mem_filter.1 h).1⟩

theorem cleaner_seeWaited (s : State) (w : Nat) : Cleaner s (seeWaited s w) := by
  unfold seeWaited
  split
  · exact cleaner_correctRead _ _ _
  · exact .refl s

theorem cleaner_allocStrag (s : State) (a : Nat) : Cleaner s (allocStrag s a) := by
  unfold allocStrag
  split <;> exact .of_eq rfl rfl

theorem cleaner_startStrag (s : State) (a : Nat) : Cleaner s (startStrag s a) := by
  unfold startStrag
  split
  · split <;> exact .of_eq rfl rfl
  · exact .refl s

theorem cleaner_completeStrag (s : State) (a : Nat) (w : Adder) (v : Word) : Cleaner s (completeStrag s a w v) := by
  unfold completeStrag
  split <;> exact .of_eq rfl rfl

theorem cleaner_enrolWaiter (s : State) (w : Waiter) (a : Nat) (v : Word) : Cleaner s (enrolWaiter s w a v) := by
  unfold enrolWaiter
  split
  · refine Cleaner.trans ?_ (cleaner_allocStrag _ a)
    exact .of_eq rfl rfl
  · exact .of_eq rfl rfl

theorem cleaner_sendMsix (s : State) (v n : Nat) : Cleaner s (sendMsix s v n) := by
  unfold sendMsix
  split
  · split <;> exact .of_eq rfl rfl
  · exact .of_eq rfl rfl

theorem cleaner_fireIrq (s : State) (v : Nat) (x : Word) : Cleaner s (fireIrq s v x) := by
  unfold fireIrq
  have h : ∀ n u, Cleaner s (sendMsix (writeWord s (irqLoc v + 8) u) v n) := fun n u => (cleaner_writeBytes s _ _).trans (cleaner_sendMsix _ _ _)
  dsimp only
  split
  · split
    · exact h _ _
    · exact (h _ _).trans (cleaner_enrolWaiter _ _ _ _)
  · exact h _ _

theorem cleaner_wakeOne (s : State) (e : Enrol) (v : Option Word) : Cleaner s (wakeOne s e v) := by
  unfold wakeOne
  split
  · exact .of_eq rfl rfl
  · exact .of_eq rfl rfl
  · split
    · exact cleaner_fireIrq _ _ _
    · exact cleaner_enrolWaiter _ _ _ _
  all_goals exact .of_eq rfl rfl

theorem cleaner_testWaiters (s : State) (a : Nat) (v : Word) (w : Adder) : Cleaner s (testWaiters s a v w) := by
  unfold testWaiters
  dsimp only
  split
  · exact .refl s
  · refine Cleaner.trans (Cleaner.trans ?_ (cleaner_completeStrag _ _ _ _)) (Cleaner.foldl (fun t e => cleaner_wakeOne t e (some v)) _ _)
    exact .of_eq rfl rfl

theorem cleaner_clearToxic (s : State) (a : Nat) : Cleaner s (clearToxic s a) := ⟨fun _ h => (List.mem_filter.1 h).1, fun _ h => h⟩

theorem cleaner_poisonEvent (s : State) (a : Nat) : Cleaner s (poisonEvent s a) := by
  unfold poisonEvent
  dsimp only
  split
  · refine Cleaner.trans (Cleaner.trans (Cleaner.trans (Cleaner.trans ?_ (cleaner_clearToxic _ a)) (cleaner_writeBytes _ _ _)) (cleaner_bumpDie _ _ _ _))
      (Cleaner.foldl (fun t e => cleaner_wakeOne t e _) _ _)
    exact .of_eq rfl rfl
  · refine Cleaner.trans ?_ (Cleaner.foldl (fun t e => cleaner_wakeOne t e none) _ _)
    exact .of_eq rfl rfl

theorem cleaner_addAt (s : State) (a : Nat) (v : Word) (w : Adder) : Cleaner s (addAt s a v w) := by
  unfold addAt
  dsimp only
  split
  · exact (cleaner_correctRead s a 8).trans ((cleaner_poisonEvent _ a).trans (cleaner_bumpDie _ _ _ _))
  · exact (cleaner_correctRead s a 8).trans (((cleaner_startStrag _ a).trans (cleaner_writeBytes _ _ _)).trans (cleaner_testWaiters _ _ _ _))

theorem cleaner_storeBytes (s : State) (a : Nat) (l : List Byte) : Cleaner s (storeBytes s a l) := by
  refine Cleaner.trans ?_ (cleaner_writeBytes _ a l)
  exact ⟨fun _ h => (List.mem_filter.1 h).1, fun _ h => (List.mem_filter.1 h).1⟩

theorem cleaner_storeAt (s : State) (a : Nat) (l : List Byte) (w : Adder) : Cleaner s (storeAt s a l w) := by
  unfold storeAt
  dsimp only
  split
  · refine (cleaner_storeBytes s a l).trans (Cleaner.foldl (fun t x => ?_) _ _)
    split
    · unfold leftToxic
      split
      · exact cleaner_poisonEvent _ _
      · exact .refl t
    · exact (cleaner_seeWaited _ _).trans (cleaner_testWaiters _ _ _ _)
  · exact cleaner_storeBytes s a l

/-- Records that are clean stay so. -/
theorem recordsClean_of_cleaner {s t : State} {b : Nat} (h : recordsClean s b) (k : Cleaner s t) : recordsClean t b := by
  obtain ⟨hpoison, hlatent⟩ := h
  refine ⟨fun i hi => ?_, fun w hw => hlatent w (k.2 hw)⟩
  have hnot := hpoison i hi
  rw [isToxic, List.contains_eq_mem, decide_eq_false_iff_not] at hnot ⊢
  exact fun hm => hnot (k.1 hm)

/-! ## Records -/

section
variable {s : State} {b n : Nat}

theorem run_readRecordOf (h : recordsClean s b) (hn : n < 256) : readRecordOf b n s = .ok ((), s) := by
  have hcorrect : correctRead s (frameLoc b n) 128 = s := correctRead_clean fun w hw => by
    have := h.2 w hw
    rw [frameLoc]
    omega
  have htoxic : toxicIn s (frameLoc b n) 128 = none := by
    rw [toxicIn]
    split
    · rfl
    · refine List.find?_eq_none.2 fun i hi => ?_
      have hi := List.mem_range.1 hi
      have hclean := h.1 (128 * n + i) (by omega)
      rw [frameLoc, Nat.add_assoc, hclean]
      exact Bool.false_ne_true
  rw [readRecordOf, run_bind_ok (run_change _ s), hcorrect, run_bind_ok (run_get s), htoxic]
  rfl

theorem run_readRecords (h : recordsClean s b) {l : List Nat} (hl : ∀ n ∈ l, n < 256) : readRecords b l s = .ok ((), s) := by
  induction l with
  | nil => rfl
  | cons n l ih =>
    rw [readRecords, run_bind_ok (run_readRecordOf h (hl n (.head l))), ih fun m hm => hl m (.tail n hm)]

theorem isFrame_iff : isFrame s b n ↔ ¬ (n = 0 ∨ n > 127) ∧ frLive s b n = true := by
  simp only [isFrame, frLive, beq_iff_eq, frameLoc]
  constructor
  · rintro ⟨h1, h2, h3⟩
    exact ⟨by omega, h3⟩
  · rintro ⟨h1, h2⟩
    exact ⟨by omega, by omega, h2⟩

theorem run_liveFrame (h : recordsClean s b) (hf : isFrame s b n) : liveFrame b n s = .ok (true, s) := by
  obtain ⟨hn, hlive⟩ := isFrame_iff.1 hf
  rw [liveFrame, if_neg hn, run_bind_ok (run_readRecordOf h (by omega)), run_bind_ok (run_get s), hlive]
  rfl

theorem run_liveFrame_not (h : recordsClean s b) (hf : ¬ isFrame s b n) : liveFrame b n s = .ok (false, s) := by
  rw [liveFrame]
  by_cases hn : n = 0 ∨ n > 127
  · rw [if_pos hn]; rfl
  · have hlive : frLive s b n = false := Bool.eq_false_iff.2 fun k => hf (isFrame_iff.2 ⟨hn, k⟩)
    rw [if_neg hn, run_bind_ok (run_readRecordOf h (by omega)), run_bind_ok (run_get s), hlive]
    rfl

theorem fp_lt (s : State) : s.fib.fp.toNat < 256 := by omega

theorem frParent_lt : frParent s b n < 256 := natOf_lt_two_pow (n := 8) (by simp)

theorem frArg_lt (k : Nat) : (frArg s b n k).1 < 256 := by
  have : bitsOf (readWord s (frameLoc b n + 0x40 + 8 * k)) 0 7 < 2 ^ 7 := Nat.mod_lt _ (by decide)
  exact Nat.lt_trans this (by decide)

/-- The records that a release reads are those of ids that a byte can name. -/
theorem releaseReads_lt (who : Adder) (b fuel : Nat) {l : List Nat} (s : State) (hl : ∀ n ∈ l, n < 256) : ∀ n ∈ releaseReads who b fuel l s, n < 256 := by
  induction fuel generalizing l s with
  | zero => intro n hn; cases hn
  | succ fuel ih =>
    cases l with
    | nil => intro n hn; cases hn
    | cons m l =>
      have hm := hl m (.head l)
      have hrest : ∀ n ∈ l, n < 256 := fun n hn => hl n (.tail m hn)
      have hnext : ∀ n ∈ (List.range (min (frNarg s b m) 4)).map (fun k => (frArg s b m k).1)
          ++ (if frParent s b m = 0 then [] else [frParent s b m]) ++ l, n < 256 := by
        intro n hn
        rcases List.mem_append.1 hn with hn | hn
        · rcases List.mem_append.1 hn with hn | hn
          · obtain ⟨k, -, rfl⟩ := List.mem_map.1 hn
            exact frArg_lt k
          · split at hn
            · cases hn
            · rw [List.mem_singleton.1 hn]
              exact frParent_lt
        · exact hrest n hn
      rw [releaseReads]
      dsimp only
      split
      · exact List.forall_mem_cons.2 ⟨hm, ih _ hnext⟩
      · exact List.forall_mem_cons.2 ⟨hm, ih _ hrest⟩

theorem run_dropFrame (h : recordsClean s b) (hn : n < 256) : dropFrame b n s = .ok ((), releaseHold s b n (selfAdder s)) := by
  have hlist : ∀ m ∈ [n], m < 256 := fun m hm => by rwa [List.mem_singleton.1 hm]
  rw [dropFrame, run_bind_ok (run_get s), run_bind_ok (run_readRecords h (releaseReads_lt _ _ _ _ hlist)), run_change]

end

/-! ## Stack faults (R265) and the checks that come first (R267) -/

section
variable {s : State}

theorem run_stackFault {α : Type} (n : Nat) : (stackFault n : M α) s = .error (.trap 0x0C (w64 (n + s.fib.fp.toNat * 256)) false none) := rfl

theorem performSeq_stackFault {m : M Unit} {n : Nat} (h : m s = (stackFault n : M Unit) s) (hp : s.pair = none) : performSeq m s = .next (stackTrap s n) :=
  performSeq_fails (h.trans (run_stackFault n)) hp

theorem run_needContext {area : Nat} (h : inContext s area) : needContext s = .ok (area, s) := by
  obtain ⟨hreason, hpin, -⟩ := h
  rw [needContext, run_bind_ok (run_get s), if_neg (not_not.2 hreason), hpin]
  rfl

theorem run_needContext_none (h : handleReason s s.fib.ctx (· == 3) (fun _ => true) ≠ 0 ∨ pinnedAt s s.fib.ctx = none) :
    needContext s = (stackFault 7 : M Nat) s := by
  rw [needContext, run_bind_ok (run_get s)]
  split
  · rfl
  · next hreason => rw [h.resolve_left hreason]

theorem performSeq_context_none {m : Nat → M Unit} (h : handleReason s s.fib.ctx (· == 3) (fun _ => true) ≠ 0 ∨ pinnedAt s s.fib.ctx = none)
    (hp : s.pair = none) : performSeq (needContext >>= m) s = .next (stackTrap s 7) :=
  performSeq_fails (run_bind_error ((run_needContext_none h).trans (run_stackFault 7))) hp

theorem run_topFrame {area : Nat} (h : recordsClean s area) (hd : s.fib.fdepth ≠ 0) : topFrame area s = .ok (s.fib.fp.toNat, s) := by
  rw [topFrame, run_bind_ok (run_theFib s), if_neg hd, run_bind_ok (run_readRecordOf h (fp_lt s)), run_pure]

theorem run_topFrame_empty {area : Nat} (hd : s.fib.fdepth = 0) : topFrame area s = (stackFault 4 : M Nat) s := by
  rw [topFrame, run_bind_ok (run_theFib s), if_pos hd]

theorem run_kvTokens {h : Word} {n : Nat} (hr : handleReason s h (· == 1) (fun b => decide (n ≤ b)) = 0) : kvTokens h n s = .ok (kvOf s h, s) := by
  rw [kvTokens, run_bind_ok (run_get s), if_neg (not_not.2 hr), run_pure, bitsOf, Nat.pow_zero, Nat.div_one]
  rfl

theorem run_kvTokens_none {h : Word} {n : Nat} (hr : handleReason s h (· == 1) (fun b => decide (n ≤ b)) ≠ 0) : kvTokens h n s = (stackFault 7 : M Tokens) s := by
  rw [kvTokens, run_bind_ok (run_get s), if_pos hr]

theorem run_laneTokens_none {h : Word} {n : Nat} (hr : handleReason s h (· == 2) (fun b => decide (64 * n ≤ b * 65536)) ≠ 0) :
    laneTokens h n s = (stackFault 7 : M Tokens) s := by
  rw [laneTokens, run_bind_ok (run_get s), if_pos hr]

theorem run_laneTokens {h : Word} {n : Nat} (hr : handleReason s h (· == 2) (fun b => decide (64 * n ≤ b * 65536)) = 0) :
    laneTokens h n s = .ok (laneOf s h, s) := by
  rw [laneTokens, run_bind_ok (run_get s), if_neg (not_not.2 hr), run_pure, bitsOf, Nat.pow_zero, Nat.div_one]
  rfl

theorem run_rdPair {k : Fin 15} (h : plainPair s k = true) : rdPair k s = .ok (pairBytes s k, s) := by
  obtain ⟨hlo, hhi⟩ := Bool.and_eq_true_iff.1 h
  rw [rdPair, run_bind_ok (rdV_of_plain hlo), run_bind_ok (rdV_of_plain hhi)]
  rfl

end

end Sys2Proof
end

