-- ==== Sys2Proof/Proofs/Frames.lean ====
section
/-!
SUPPORT. The frame faults and the frame instructions on the frame stack: O43.
-/
namespace Sys2Proof
open Machine Safety

/-! ## The slots of a push (R258) -/

/-- The least element of a list, as it is sought. -/
theorem foldl_least {f : Option Nat → Nat → Option Nat} (hnone : ∀ a, f none a = some a) (hsome : ∀ a b, f (some b) a = some (min a b)) (l : List Nat) :
    l.foldl f none = l.min? := by
  cases l with
  | nil => rfl
  | cons x l =>
    rw [List.foldl_cons, hnone, List.min?_cons']
    induction l generalizing x with
    | nil => rfl
    | cons y l ih => rw [List.foldl_cons, List.foldl_cons, hsome, ih, Nat.min_comm]

section
variable {s : State} {b : Nat}

theorem clearOf_iff (a n : Nat) : clearOf (liveSlots s b) a n = true ↔
    ∀ k, isFrame s b k → frCap s b k = 0 ∨ a + n ≤ frSlot0 s b k ∨ frSlot0 s b k + (frCap s b k + 15) / 16 * 16 ≤ a := by
  have hcap : ∀ c, capRound c = (c + 15) / 16 * 16 := fun c => rfl
  simp only [clearOf, liveSlots, List.all_map, List.all_eq_true, List.mem_filter, List.mem_map, List.mem_range, Function.comp_apply,
    Bool.or_eq_true, beq_iff_eq, decide_eq_true_eq, hcap]
  constructor
  · intro h k hk
    obtain ⟨hk', hlive⟩ := isFrame_iff.1 hk
    have := h k ⟨⟨k - 1, by omega, by omega⟩, hlive⟩
    omega
  · rintro h k ⟨⟨i, hi, rfl⟩, hlive⟩
    have := h (i + 1) (isFrame_iff.2 ⟨by omega, hlive⟩)
    omega

/-- The candidates of R258 that fit. -/
def slotFits (s : State) (b n bound : Nat) : List Nat :=
  (0 :: (liveSlots s b).map fun e => capRound (e.1 + e.2)).filter fun a => clearOf (liveSlots s b) a n && a + n ≤ bound

theorem slotChoice_eq (n bound : Nat) : slotChoice (liveSlots s b) n bound = (slotFits s b n bound).min? :=
  foldl_least (fun _ => rfl) (fun _ _ => rfl) _

theorem mem_slotFits {n bound a : Nat} (h : a ∈ slotFits s b n bound) : a % 16 = 0 ∧ slotsFree s b a n bound := by
  obtain ⟨hmem, hfit⟩ := List.mem_filter.1 h
  rw [Bool.and_eq_true, decide_eq_true_eq, clearOf_iff] at hfit
  refine ⟨?_, hfit.2, hfit.1⟩
  rcases List.mem_cons.1 hmem with rfl | hmem
  · rfl
  · obtain ⟨e, -, rfl⟩ := List.mem_map.1 hmem
    exact Nat.mul_mod_left _ _

theorem slotChoice_none {n bound : Nat} (h : ∀ a, a % 16 = 0 → ¬ slotsFree s b a n bound) : slotChoice (liveSlots s b) n bound = none := by
  rw [slotChoice_eq, List.min?_eq_none_iff, List.eq_nil_iff_forall_not_mem]
  exact fun a ha => h a (mem_slotFits ha).1 (mem_slotFits ha).2

/-- The lowest slots that fit begin at 0 or where a live frame ends. -/
theorem lowest_mem_slotFits {n bound slot : Nat} (hslot : slot % 16 = 0) (hfree : slotsFree s b slot n bound)
    (hlow : ∀ k, k < slot → k % 16 = 0 → ¬ slotsFree s b k n bound) : slot ∈ slotFits s b n bound := by
  refine List.mem_filter.2 ⟨?_, by rw [Bool.and_eq_true, decide_eq_true_eq, clearOf_iff]; exact ⟨hfree.2, hfree.1⟩⟩
  rcases Nat.eq_zero_or_pos slot with rfl | hpos
  · exact .head _
  · have hbefore := hlow (slot - 16) (by omega) (by omega)
    have hblocked : ∃ k, isFrame s b k ∧ ¬ (frCap s b k = 0 ∨ slot - 16 + n ≤ frSlot0 s b k
        ∨ frSlot0 s b k + (frCap s b k + 15) / 16 * 16 ≤ slot - 16) := by
      by_contra hno
      refine hbefore ⟨by have := hfree.1; omega, fun k hk => ?_⟩
      by_contra hk'
      exact hno ⟨k, hk, hk'⟩
    obtain ⟨k, hk, hnot⟩ := hblocked
    have hclear := hfree.2 k hk
    obtain ⟨hk', hlive⟩ := isFrame_iff.1 hk
    refine .tail _ (List.mem_map.2 ⟨(frSlot0 s b k, capRound (frCap s b k)), List.mem_map.2 ⟨k, List.mem_filter.2 ⟨?_, hlive⟩, rfl⟩, ?_⟩)
    · exact List.mem_map.2 ⟨k - 1, List.mem_range.2 (by omega), by omega⟩
    · show (frSlot0 s b k + (frCap s b k + 15) / 16 * 16 + 15) / 16 * 16 = slot
      omega

theorem slotChoice_some {n bound slot : Nat} (hslot : slot % 16 = 0) (hfree : slotsFree s b slot n bound)
    (hlow : ∀ k, k < slot → k % 16 = 0 → ¬ slotsFree s b k n bound) : slotChoice (liveSlots s b) n bound = some slot := by
  rw [slotChoice_eq, List.min?_eq_some_iff]
  refine ⟨lowest_mem_slotFits hslot hfree hlow, fun a ha => ?_⟩
  obtain ⟨ha', hfits⟩ := mem_slotFits ha
  exact Nat.le_of_not_lt fun hlt => hlow a hlt ha' hfits

theorem freeFrame_none (h : ∀ m, 1 ≤ m → m ≤ 127 → isFrame s b m) : freeFrame s b = none := by
  rw [freeFrame, Option.map_eq_none_iff, leastBelow, List.find?_eq_none]
  intro i hi
  rw [(isFrame_iff.1 (h (i + 1) (by omega) (by have := List.mem_range.1 hi; omega))).2]
  decide

theorem freeFrame_some {m : Nat} (h1 : 1 ≤ m) (h2 : m ≤ 127) (hm : ¬ isFrame s b m) (hlow : ∀ k, 1 ≤ k → k < m → isFrame s b k) :
    freeFrame s b = some m := by
  have hfree : frLive s b m = false := Bool.eq_false_iff.2 fun k => hm (isFrame_iff.2 ⟨by omega, k⟩)
  have hfind : leastBelow 127 (fun i => !frLive s b (i + 1)) = some (m - 1) := by
    rw [leastBelow, List.find?_range_eq_some]
    refine ⟨by rw [Nat.sub_add_cancel h1, hfree]; rfl, List.mem_range.2 (by omega), fun i hi => ?_⟩
    rw [(isFrame_iff.1 (hlow (i + 1) (by omega) (by omega))).2]
    rfl
  rw [freeFrame, hfind, Option.map_some, Nat.sub_add_cancel h1]

end

/-! ## fpush (R258, R268) -/

/-- What a push does with a capacity that R268 admits. -/
def pushTail (spec : Bool) (d : SReg) (area cap : Nat) (f : Fib) : M Unit := do
  readRecordOf area f.fp.toNat
  readRecords area (List.range 128)
  let s ← get
  let kvh := hdKvh s area
  let laneh := hdLaneh s area
  match freeFrame s area, slotChoice (liveSlots s area) (capRound cap) (bitsOf kvh 0 24) with
  | some n, some slot =>
    let first := frFirst s area f.fp.toNat + frLen s area f.fp.toNat
    if first ≥ 2 ^ 24 then stackFault 2
    else
      let _ ← kvTokens kvh 0
      let _ ← if laneh = 0 then pure ⟨0, 0, 0⟩ else laneTokens laneh 0
      change fun t => storeAt t (frameLoc area n) (frameBytes f.fp.toNat (if spec then 1 else 0) (f.fdepth.toNat + 1) first cap
        (frLen s area f.fp.toNat) slot kvh laneh f.fibre.toNat) (selfAdder t)
      holdFrame area f.fp.toNat
      setTop n (f.fdepth.toNat + 1)
      result d (w64 n)
  | _, _ => stackFault 3

section
variable {s : State} {area : Nat} {d a c : SReg} {b : SrcB} (spec : Bool) (hp : s.pair = none) (hctx : inContext s area) (hb : plainB s.fib b = true)

/-- Both forms of a push are one. -/
theorem exec_push_forms {o : Host.Outcome State Fault Refusal} {p : Bool → Host.Outcome State Fault Refusal} (h : ∀ spec, performSeq (pushForm spec d b) s = p spec)
    (h0 : p false = o) {o' : Host.Outcome State Fault Refusal} (h1 : p true = o') : exec (.fpush d b) s = o ∧ exec (.fpushSpec d b) s = o' :=
  ⟨(h false).trans h0, (h true).trans h1⟩

include hctx hb

include hp in
theorem performSeq_pushForm_empty (hd : s.fib.fdepth = 0) : performSeq (pushForm spec d b) s = .next (stackTrap s 4) := by
  refine performSeq_stackFault ?_ hp
  rw [pushForm, run_bind_ok (run_needContext hctx), run_bind_ok (rdB_of_plain hb), run_bind_ok (run_theFib s), if_pos hd]

variable (hpos : 0 < s.fib.fdepth.toNat)
include hpos

omit hctx hb in
theorem fdepth_ne_zero : s.fib.fdepth ≠ 0 := by
  intro h
  rw [h] at hpos
  exact absurd hpos (by decide)

include hp in
theorem performSeq_pushForm_limit (hlim : s.fib.fdlimit.toNat ≤ s.fib.fdepth.toNat) : performSeq (pushForm spec d b) s = .next (stackTrap s 1) := by
  refine performSeq_stackFault ?_ hp
  rw [pushForm, run_bind_ok (run_needContext hctx), run_bind_ok (rdB_of_plain hb), run_bind_ok (run_theFib s), if_neg (fdepth_ne_zero hpos),
    if_pos (BitVec.le_def.2 hlim)]

variable (hlim : s.fib.fdepth.toNat < s.fib.fdlimit.toNat)
include hlim

omit hctx hb hpos in
theorem fdepth_fits : ¬ s.fib.fdepth ≥ s.fib.fdlimit := fun h => absurd (BitVec.le_def.1 h) (Nat.not_le.2 hlim)

include hp in
theorem performSeq_pushForm_capacity (hy : (valB s.fib b).toNat = 0 ∨ 2 ^ 24 ≤ (valB s.fib b).toNat) :
    performSeq (pushForm spec d b) s = .next (stackTrap s 3) := by
  refine performSeq_stackFault ?_ hp
  rw [pushForm, run_bind_ok (run_needContext hctx), run_bind_ok (rdB_of_plain hb), run_bind_ok (run_theFib s), if_neg (fdepth_ne_zero hpos),
    if_neg (fdepth_fits hlim), if_pos hy]

variable (hcap : 0 < (valB s.fib b).toNat) (hmax : (valB s.fib b).toNat < 2 ^ 24)
include hcap hmax

theorem performSeq_pushForm_admitted : performSeq (pushForm spec d b) s = performSeq (pushTail spec d area (valB s.fib b).toNat s.fib) s := by
  refine performSeq_congr ?_
  rw [pushForm, run_bind_ok (run_needContext hctx), run_bind_ok (rdB_of_plain hb), run_bind_ok (run_theFib s), if_neg (fdepth_ne_zero hpos),
    if_neg (fdepth_fits hlim), if_neg (by omega)]
  rfl

end

theorem hdKvh_bound (s : State) (area : Nat) : bitsOf (hdKvh s area) 0 24 = (hdKvh s area).toNat % 2 ^ 24 := by
  rw [bitsOf, Nat.pow_zero, Nat.div_one]

section
variable {s : State} {area cap : Nat} {d : SReg} (spec : Bool) (hp : s.pair = none) (hclean : recordsClean s area)
include hp hclean

/-- No frame id, or no fitting slots, are free. -/
theorem performSeq_pushTail_full (h : freeFrame s area = none ∨ slotChoice (liveSlots s area) (capRound cap) (bitsOf (hdKvh s area) 0 24) = none) :
    performSeq (pushTail spec d area cap s.fib) s = .next (stackTrap s 3) := by
  refine performSeq_stackFault ?_ hp
  rw [pushTail, run_bind_ok (run_readRecordOf hclean (fp_lt s)), run_bind_ok (run_readRecords hclean fun n hn => by have := List.mem_range.1 hn; omega),
    run_bind_ok (run_get s)]
  dsimp only
  rcases h with h | h
  · rw [h]
  · rw [h]
    cases freeFrame s area <;> rfl

section
variable {m slot : Nat} (hpush : pushable s area m slot cap)
include hpush

omit hp hclean in
theorem push_choices : freeFrame s area = some m ∧ slotChoice (liveSlots s area) (capRound cap) (bitsOf (hdKvh s area) 0 24) = some slot := by
  obtain ⟨h1, h2, hm, hlow, hslot, hfree, hlowest⟩ := hpush
  exact ⟨freeFrame_some h1 h2 hm hlow, by rw [hdKvh_bound]; exact slotChoice_some hslot hfree hlowest⟩

theorem performSeq_pushTail_position (h : 2 ^ 24 ≤ frFirst s area s.fib.fp.toNat + frLen s area s.fib.fp.toNat) :
    performSeq (pushTail spec d area cap s.fib) s = .next (stackTrap s 2) := by
  obtain ⟨hframe, hslot⟩ := push_choices hpush
  refine performSeq_stackFault ?_ hp
  rw [pushTail, run_bind_ok (run_readRecordOf hclean (fp_lt s)), run_bind_ok (run_readRecords hclean fun n hn => by have := List.mem_range.1 hn; omega),
    run_bind_ok (run_get s)]
  dsimp only
  rw [hframe, hslot]
  dsimp only
  rw [if_pos h]

variable (hfirst : frFirst s area s.fib.fp.toNat + frLen s area s.fib.fp.toNat < 2 ^ 24)
include hfirst

omit hp hclean hpush hfirst in
/-- A handle passes for no slots exactly when it passes. -/
theorem pushObjects_iff : pushObjects s area ↔ handleReason s (hdKvh s area) (· == 1) (fun b => decide (0 ≤ b)) = 0
    ∧ (hdLaneh s area = 0 ∨ handleReason s (hdLaneh s area) (· == 2) (fun b => decide (64 * 0 ≤ b * 65536)) = 0) := by
  simp only [pushObjects, Nat.mul_zero, Nat.zero_le, decide_true]

theorem performSeq_pushTail_objects (h : ¬ pushObjects s area) : performSeq (pushTail spec d area cap s.fib) s = .next (stackTrap s 7) := by
  obtain ⟨hframe, hslot⟩ := push_choices hpush
  rw [pushObjects_iff] at h
  refine performSeq_stackFault ?_ hp
  rw [pushTail, run_bind_ok (run_readRecordOf hclean (fp_lt s)), run_bind_ok (run_readRecords hclean fun n hn => by have := List.mem_range.1 hn; omega),
    run_bind_ok (run_get s)]
  dsimp only
  rw [hframe, hslot]
  dsimp only
  rw [if_neg (Nat.not_le.2 hfirst)]
  by_cases hkv : handleReason s (hdKvh s area) (· == 1) (fun b => decide (0 ≤ b)) = 0
  · have hlane : hdLaneh s area ≠ 0 := fun hl => h ⟨hkv, .inl hl⟩
    have hreason := run_laneTokens_none fun hr => h ⟨hkv, .inr hr⟩
    rw [run_bind_ok (run_kvTokens hkv), if_neg hlane]
    exact run_bind_error (hreason.trans (run_stackFault 7))
  · exact run_bind_error ((run_kvTokens_none hkv).trans (run_stackFault 7))

/-- The frame that a push makes. -/
def pushedRecord (spec : Bool) (s : State) (area cap slot : Nat) : List Byte :=
  frameBytes s.fib.fp.toNat (if spec then 1 else 0) (s.fib.fdepth.toNat + 1) (frFirst s area s.fib.fp.toNat + frLen s area s.fib.fp.toNat) cap
    (frLen s area s.fib.fp.toNat) slot (hdKvh s area) (hdLaneh s area) s.fib.fibre.toNat

/-- The state after a push of frame m. -/
def pushed (spec : Bool) (s : State) (area cap m slot : Nat) : State :=
  onFrame (held (storeAt s (area + 128 * m) (pushedRecord spec s area cap slot) (selfAdder s)) area s.fib.fp.toNat) m (s.fib.fdepth.toNat + 1)

omit hp hclean hpush hfirst in
theorem held_fib (t : State) (n : Nat) : (held t area n).fib = t.fib := addAt_fib _ _ _ _

omit hp hclean hpush hfirst in
theorem held_pair (t : State) (n : Nat) : (held t area n).pair = t.pair := addAt_pair _ _ _ _

theorem performSeq_pushTail (hobj : pushObjects s area) (hd : openS s.fib d = true) :
    performSeq (pushTail spec d area cap s.fib) s = .next (doneS (pushed spec s area cap m slot) d (BitVec.ofNat 64 m)) := by
  obtain ⟨hframe, hslot⟩ := push_choices hpush
  obtain ⟨hkv, hlane⟩ := pushObjects_iff.1 hobj
  have hfib : (held (storeAt s (area + 128 * m) (pushedRecord spec s area cap slot) (selfAdder s)) area s.fib.fp.toNat).fib = s.fib :=
    (held_fib _ _).trans (storeAt_fib _ _ _ _)
  refine done_of_result (u := pushed spec s area cap m slot) ?_ (((held_pair _ _).trans (storeAt_pair _ _ _ _)).trans hp) ?_
  · rw [pushTail, run_bind_ok (run_readRecordOf hclean (fp_lt s)), run_bind_ok (run_readRecords hclean fun n hn => by have := List.mem_range.1 hn; omega),
      run_bind_ok (run_get s)]
    dsimp only
    rw [hframe, hslot]
    dsimp only
    rw [if_neg (Nat.not_le.2 hfirst), run_bind_ok (run_kvTokens hkv)]
    split
    · rfl
    · next hl => exact (run_bind_ok (run_laneTokens (hlane.resolve_left hl))).trans rfl
  · show openS { (held (storeAt s (area + 128 * m) (pushedRecord spec s area cap slot) (selfAdder s)) area s.fib.fp.toNat).fib with
      fp := BitVec.ofNat 7 m, fdepth := BitVec.ofNat 6 (s.fib.fdepth.toNat + 1) } d = true
    rw [hfib]
    exact hd

end
end

/-! ## Named frames (R269-R271) -/

section
variable {s : State} {area : Nat} {d a c : SReg} {b : SrcB} (hp : s.pair = none) (hctx : inContext s area)

theorem recordsClean_of_context (h : inContext s area) : recordsClean s area := h.2.2

/-- The frame that a register names. -/
theorem namedFrame_eq (f : Fib) (x : Word) : namedFrame f x = if x.toNat = 0 then f.fp.toNat else x.toNat := by
  have hzero : x = 0 ↔ x.toNat = 0 := ⟨fun h => by rw [h]; rfl, fun h => BitVec.eq_of_toNat_eq h⟩
  simp only [namedFrame, hzero]

/-- The frame that `fshare.j` joins. -/
def joinedFrame (s : State) (area : Nat) (a : SReg) : Nat := if (regVal s.fib a).toNat = 0 then hdRoot s area else (regVal s.fib a).toNat

section
variable (ha : plainS s.fib a = true)
include hctx ha

/-- `fshare.j` after its reads. -/
theorem exec_fshareJ_reads {live : Bool} (hlive : liveFrame area (joinedFrame s area a) s = .ok (live, s)) {m : M Unit}
    (hm : m = if live = true then (if frParent s area (joinedFrame s area a) ≠ s.fib.fp.toNat then stackFault 4
      else if s.fib.fdepth ≥ s.fib.fdlimit then stackFault 1
      else do
        holdFrame area (joinedFrame s area a)
        if joinedFrame s area a ≠ hdRoot s area then setField area (joinedFrame s area a) 2 1 (frFlags s area (joinedFrame s area a) ||| 2)
        setTop (joinedFrame s area a) (s.fib.fdepth.toNat + 1)) else stackFault 5) : exec (.fshareJ a) s = performSeq m s := by
  have hzero : regVal s.fib a = 0 ↔ (regVal s.fib a).toNat = 0 := ⟨fun h => by rw [h]; rfl, fun h => BitVec.eq_of_toNat_eq h⟩
  have hjoined : (if regVal s.fib a = 0 then hdRoot s area else (regVal s.fib a).toNat) = joinedFrame s area a := by simp only [joinedFrame, hzero]
  refine performSeq_congr ?_
  rw [run_bind_ok (run_needContext hctx), run_bind_ok (rd_of_plain ha), run_bind_ok (run_readRecordOf (recordsClean_of_context hctx) (by decide)),
    run_bind_ok (run_theFib s), run_bind_ok (run_get s), hjoined, run_bind_ok hlive, hm]

include hp

theorem exec_fshareJ_dead (h : ¬ isFrame s area (joinedFrame s area a)) : exec (.fshareJ a) s = .next (stackTrap s 5) := by
  rw [exec_fshareJ_reads hctx ha (run_liveFrame_not (recordsClean_of_context hctx) h) rfl]
  exact performSeq_stackFault rfl hp

section
variable (hf : isFrame s area (joinedFrame s area a))
include hf

theorem exec_fshareJ_stranger (h : frParent s area (joinedFrame s area a) ≠ s.fib.fp.toNat) : exec (.fshareJ a) s = .next (stackTrap s 4) := by
  rw [exec_fshareJ_reads hctx ha (run_liveFrame (recordsClean_of_context hctx) hf) rfl, if_pos rfl, if_pos h]
  exact performSeq_stackFault rfl hp

variable (hparent : frParent s area (joinedFrame s area a) = s.fib.fp.toNat)
include hparent

theorem exec_fshareJ_limit (hlim : s.fib.fdlimit.toNat ≤ s.fib.fdepth.toNat) : exec (.fshareJ a) s = .next (stackTrap s 1) := by
  rw [exec_fshareJ_reads hctx ha (run_liveFrame (recordsClean_of_context hctx) hf) rfl, if_pos rfl, if_neg (not_not.2 hparent), if_pos (BitVec.le_def.2 hlim)]
  exact performSeq_stackFault rfl hp

/-- The frame area with the joined frame held and marked. -/
def joinedArea (s : State) (area j : Nat) : State :=
  if j ≠ hdRoot s area then recordPut (held s area j) area j 2 1 (frFlags s area j ||| 2) else held s area j

theorem exec_fshareJ (hlim : s.fib.fdepth.toNat < s.fib.fdlimit.toNat) :
    exec (.fshareJ a) s = .next (goOn (onFrame (joinedArea s area (joinedFrame s area a)) (joinedFrame s area a) (s.fib.fdepth.toNat + 1))) := by
  rw [exec_fshareJ_reads hctx ha (run_liveFrame (recordsClean_of_context hctx) hf) rfl, if_pos rfl, if_neg (not_not.2 hparent), if_neg (fdepth_fits hlim)]
  refine done_of_unit ?_ ?_
  · rw [run_bind_ok (show holdFrame area (joinedFrame s area a) s = .ok ((), held s area (joinedFrame s area a)) from rfl), joinedArea]
    split
    · rfl
    · rfl
  · show (joinedArea s area (joinedFrame s area a)).pair = none
    rw [joinedArea]
    split
    · exact ((storeAt_pair _ _ _ _).trans (held_pair _ _)).trans hp
    · exact (held_pair _ _).trans hp

end
end
end

/-- The frame that `fshare.h`, `frel`, `farg` and `fpos` name. -/
def frameNamed (s : State) (a : SReg) : Nat := if (regVal s.fib a).toNat = 0 then s.fib.fp.toNat else (regVal s.fib a).toNat

section
variable {s : State} {area : Nat} {d a c : SReg} {b : SrcB} (hp : s.pair = none) (hctx : inContext s area) (ha : plainS s.fib a = true)
include hp hctx ha

theorem exec_fshareH_dead (h : ¬ isFrame s area (frameNamed s a)) : exec (.fshareH a) s = .next (stackTrap s 5) := by
  refine performSeq_stackFault ?_ hp
  rw [run_bind_ok (run_needContext hctx), run_bind_ok (rd_of_plain ha), namedFrame_eq]
  exact run_bind_ok (run_liveFrame_not (recordsClean_of_context hctx) h)

theorem exec_fshareH (h : isFrame s area (frameNamed s a)) : exec (.fshareH a) s = .next (goOn (recordPut (held s area (frameNamed s a)) area (frameNamed s a)
    0x3E 2 (frKeep s area (frameNamed s a) + 1))) := by
  refine done_of_unit ?_ (((storeAt_pair _ _ _ _).trans (held_pair _ _)).trans hp)
  rw [run_bind_ok (run_needContext hctx), run_bind_ok (rd_of_plain ha), namedFrame_eq]
  exact run_bind_ok (run_liveFrame (recordsClean_of_context hctx) h)

theorem exec_frel_dead (h : ¬ isFrame s area (frameNamed s a)) : exec (.frel a) s = .next (stackTrap s 5) := by
  refine performSeq_stackFault ?_ hp
  rw [run_bind_ok (run_needContext hctx), run_bind_ok (rd_of_plain ha), namedFrame_eq]
  exact run_bind_ok (run_liveFrame_not (recordsClean_of_context hctx) h)

theorem exec_frel_unkept (h : isFrame s area (frameNamed s a)) (hk : frKeep s area (frameNamed s a) = 0) : exec (.frel a) s = .next (stackTrap s 5) := by
  refine performSeq_stackFault ?_ hp
  rw [run_bind_ok (run_needContext hctx), run_bind_ok (rd_of_plain ha), namedFrame_eq]
  refine (run_bind_ok (run_liveFrame (recordsClean_of_context hctx) h)).trans ?_
  rw [if_pos rfl, run_bind_ok (run_get s)]
  exact congrFun (if_pos hk) s

omit hp hctx ha in
/-- A field written leaves the records clean. -/
theorem recordsClean_recordPut {t : State} (h : recordsClean t area) (n off len v : Nat) : recordsClean (recordPut t area n off len v) area :=
  recordsClean_of_cleaner h (cleaner_storeAt _ _ _ _)

omit hp hctx ha in
theorem releaseAll_home (who : Adder) (fuel : Nat) (l : List Nat) (t : State) : HomeOnly t (releaseAll who area fuel l t) := by
  induction fuel generalizing l t with
  | zero => exact .refl t
  | succ fuel ih =>
    cases l with
    | nil => exact .refl t
    | cons n l =>
      rw [releaseAll]
      dsimp only
      split
      · exact (addAt_home _ _ _ _).trans ((writeBytes_home _ _ _).trans (ih _ _))
      · exact (addAt_home _ _ _ _).trans (ih _ _)

omit hp hctx ha in
theorem releaseHold_home (t : State) (n : Nat) (w : Adder) : HomeOnly t (releaseHold t area n w) := releaseAll_home w 1024 [n] t

theorem exec_frel (h : isFrame s area (frameNamed s a)) (hk : frKeep s area (frameNamed s a) ≠ 0) :
    let t := recordPut s area (frameNamed s a) 0x3E 2 (frKeep s area (frameNamed s a) - 1)
    exec (.frel a) s = .next (goOn (releaseHold t area (frameNamed s a) (selfAdder t))) := by
  intro t
  have hlt : frameNamed s a < 256 := by have := h.2.1; omega
  refine done_of_unit ?_ ((releaseHold_home _ _ _).pair.trans ((storeAt_pair _ _ _ _).trans hp))
  rw [run_bind_ok (run_needContext hctx), run_bind_ok (rd_of_plain ha), namedFrame_eq]
  refine (run_bind_ok (run_liveFrame (recordsClean_of_context hctx) h)).trans ?_
  rw [if_pos rfl, run_bind_ok (run_get s)]
  refine (congrFun (if_neg hk) s).trans ?_
  exact (run_bind_ok (show setField area (frameNamed s a) 0x3E 2 (frKeep s area (frameNamed s a) - 1) s = .ok ((), t) from rfl)).trans
    (run_dropFrame (recordsClean_recordPut (recordsClean_of_context hctx) _ _ _ _) hlt)

section
variable (k : PosKind) (hd : openS s.fib d = true)
include hd

theorem exec_fpos_dead (h : ¬ isFrame s area (frameNamed s a)) : exec (.fpos k d a) s = .next (doneS s d 0) := by
  refine done_of_result ?_ hp hd
  rw [run_bind_ok (run_needContext hctx), run_bind_ok (rd_of_plain ha), namedFrame_eq]
  exact run_bind_ok (run_liveFrame_not (recordsClean_of_context hctx) h)

theorem exec_fpos (h : isFrame s area (frameNamed s a)) : exec (.fpos k d a) s = .next (doneS s d (posField s area (frameNamed s a) k)) := by
  refine done_of_result ?_ hp hd
  rw [run_bind_ok (run_needContext hctx), run_bind_ok (rd_of_plain ha), namedFrame_eq]
  exact run_bind_ok (run_liveFrame (recordsClean_of_context hctx) h)

end

/-! ## farg (R270) -/

section
variable (hb : plainB s.fib b = true) (hc : plainS s.fib c = true)
include hb hc

theorem exec_farg_empty (hd : s.fib.fdepth = 0) : exec (.farg a b c) s = .next (stackTrap s 4) := by
  refine performSeq_stackFault ?_ hp
  rw [run_bind_ok (run_needContext hctx), run_bind_ok (rd_of_plain ha), run_bind_ok (rdB_of_plain hb), run_bind_ok (rd_of_plain hc)]
  exact run_bind_error ((run_topFrame_empty hd).trans (run_stackFault 4))

variable (hd : 0 < s.fib.fdepth.toNat)
include hd

omit hp in
/-- `farg` after its reads. -/
theorem exec_farg_reads {m : M Unit} (hm : m = if frNarg s area s.fib.fp.toNat ≥ 4 then stackFault 3
      else if frLen s area s.fib.fp.toNat ≠ 0 ∨ frameNamed s a = s.fib.fp.toNat then stackFault 5
      else do
        if ← liveFrame area (frameNamed s a) then
          if regVal s.fib c = 0 ∨ (valB s.fib b).toNat + (regVal s.fib c).toNat > frLen s area (frameNamed s a) then stackFault 6
          else
            setField area s.fib.fp.toNat (0x40 + 8 * frNarg s area s.fib.fp.toNat) 8
              (frameNamed s a + (valB s.fib b).toNat * 2 ^ 8 + (regVal s.fib c).toNat * 2 ^ 32)
            setField area s.fib.fp.toNat 0x3C 1 (frNarg s area s.fib.fp.toNat + 1)
            holdFrame area (frameNamed s a)
        else stackFault 5) : exec (.farg a b c) s = performSeq m s := by
  refine performSeq_congr ?_
  rw [run_bind_ok (run_needContext hctx), run_bind_ok (rd_of_plain ha), run_bind_ok (rdB_of_plain hb), run_bind_ok (rd_of_plain hc), namedFrame_eq,
    run_bind_ok (run_topFrame (recordsClean_of_context hctx) (fdepth_ne_zero hd)), run_bind_ok (run_get s), hm]
  rfl

theorem exec_farg_count (h : 4 ≤ frNarg s area s.fib.fp.toNat) : exec (.farg a b c) s = .next (stackTrap s 3) := by
  rw [exec_farg_reads hctx ha hb hc hd rfl, if_pos h]
  exact performSeq_stackFault rfl hp

variable (hk : frNarg s area s.fib.fp.toNat < 4)
include hk

theorem exec_farg_unfit (h : frLen s area s.fib.fp.toNat ≠ 0 ∨ frameNamed s a = s.fib.fp.toNat ∨ ¬ isFrame s area (frameNamed s a)) :
    exec (.farg a b c) s = .next (stackTrap s 5) := by
  rw [exec_farg_reads hctx ha hb hc hd rfl, if_neg (Nat.not_le.2 hk)]
  by_cases hfirst : frLen s area s.fib.fp.toNat ≠ 0 ∨ frameNamed s a = s.fib.fp.toNat
  · rw [if_pos hfirst]
    exact performSeq_stackFault rfl hp
  · have hdead : ¬ isFrame s area (frameNamed s a) := by
      rcases h with h | h | h
      · exact absurd (.inl h) hfirst
      · exact absurd (.inr h) hfirst
      · exact h
    rw [if_neg hfirst]
    exact performSeq_stackFault (run_bind_ok (run_liveFrame_not (recordsClean_of_context hctx) hdead)) hp

variable (hlen : frLen s area s.fib.fp.toNat = 0) (hn : frameNamed s a ≠ s.fib.fp.toNat) (hf : isFrame s area (frameNamed s a))
include hlen hn hf

theorem exec_farg_span (h : (regVal s.fib c).toNat = 0 ∨ frLen s area (frameNamed s a) < (valB s.fib b).toNat + (regVal s.fib c).toNat) :
    exec (.farg a b c) s = .next (stackTrap s 6) := by
  have hbad : regVal s.fib c = 0 ∨ (valB s.fib b).toNat + (regVal s.fib c).toNat > frLen s area (frameNamed s a) :=
    h.imp (fun k => BitVec.eq_of_toNat_eq k) id
  rw [exec_farg_reads hctx ha hb hc hd rfl, if_neg (Nat.not_le.2 hk), if_neg (by rintro (k | k); exacts [k hlen, hn k])]
  refine performSeq_stackFault ?_ hp
  refine (run_bind_ok (run_liveFrame (recordsClean_of_context hctx) hf)).trans ?_
  rw [if_pos rfl, if_pos hbad]

theorem exec_farg (hpos : 0 < (regVal s.fib c).toNat) (hfit : (valB s.fib b).toNat + (regVal s.fib c).toNat ≤ frLen s area (frameNamed s a)) :
    exec (.farg a b c) s = .next (goOn (held (recordPut (recordPut s area s.fib.fp.toNat (0x40 + 8 * frNarg s area s.fib.fp.toNat) 8
      (frameNamed s a + (valB s.fib b).toNat * 2 ^ 8 + (regVal s.fib c).toNat * 2 ^ 32)) area s.fib.fp.toNat 0x3C 1 (frNarg s area s.fib.fp.toNat + 1))
      area (frameNamed s a))) := by
  have hgood : ¬ (regVal s.fib c = 0 ∨ (valB s.fib b).toNat + (regVal s.fib c).toNat > frLen s area (frameNamed s a)) := by
    rintro (k | k)
    · rw [k] at hpos; exact absurd hpos (by decide)
    · omega
  rw [exec_farg_reads hctx ha hb hc hd rfl, if_neg (Nat.not_le.2 hk), if_neg (by rintro (k | k); exacts [k hlen, hn k])]
  refine done_of_unit ?_ (((held_pair _ _).trans ((storeAt_pair _ _ _ _).trans (storeAt_pair _ _ _ _))).trans hp)
  refine (run_bind_ok (run_liveFrame (recordsClean_of_context hctx) hf)).trans ?_
  rw [if_pos rfl, if_neg hgood]
  rfl

end
end

/-! ## fret (R273, R274) -/

/-- What `fret` does with tokens that fit. -/
def returnTail (s : State) (d : SReg) (area c p start k : Nat) : M Unit := do
  let len := frLen s area p
  let from_ := frSlot0 s area c + start
  let to_ := frSlot0 s area p + len
  if k ≠ 0 then
    let src ← kvTokens (frKvh s area c) (from_ + k)
    let dst ← kvTokens (frKvh s area p) (to_ + k)
    let lanes ← lanePieces (frLaneh s area c) (frLaneh s area p) (from_ + k) (to_ + k)
    reachTokens src dst lanes k from_ to_
    moveTokens src dst lanes k from_ to_ (frFirst s area p + len)
  setField area p 8 4 (len + k)
  dropFrame area c
  setTop p (s.fib.fdepth.toNat - 1)
  result d (w64 (len + k))

section
variable {s : State} {area : Nat} {d a : SReg} {b : SrcB} (hp : s.pair = none) (hctx : inContext s area) (ha : plainS s.fib a = true)
  (hb : plainB s.fib b = true)
include hctx ha hb

include hp in
theorem exec_fret_shallow (hd : s.fib.fdepth.toNat < 2) : exec (.fret d a b) s = .next (stackTrap s 4) := by
  refine performSeq_stackFault ?_ hp
  rw [run_bind_ok (run_needContext hctx), run_bind_ok (rd_of_plain ha), run_bind_ok (rdB_of_plain hb), run_bind_ok (run_theFib s), if_pos hd]

variable (hd : 2 ≤ s.fib.fdepth.toNat)
include hd

/-- `fret` after its reads. -/
theorem exec_fret_reads {m : M Unit} (hm : m = let c := s.fib.fp.toNat
      let p := frParent s area c
      let x := (regVal s.fib a).toNat
      let k := (valB s.fib b).toNat
      if k > 1024 ∨ x + k > frLen s area c then stackFault 6
      else if frLen s area p + k > frCap s area p then stackFault 3
      else if k > 0 ∧ frFirst s area p + frLen s area p + k > 2 ^ 24 then stackFault 2
      else returnTail s d area c p x k) : exec (.fret d a b) s = performSeq m s := by
  refine performSeq_congr ?_
  rw [run_bind_ok (run_needContext hctx), run_bind_ok (rd_of_plain ha), run_bind_ok (rdB_of_plain hb), run_bind_ok (run_theFib s), if_neg (Nat.not_lt.2 hd),
    run_bind_ok (run_readRecordOf (recordsClean_of_context hctx) (fp_lt s)), run_bind_ok (run_get s),
    run_bind_ok (run_readRecordOf (recordsClean_of_context hctx) frParent_lt), hm]
  rfl

include hp

theorem exec_fret_span (h : 1024 < (valB s.fib b).toNat ∨ frLen s area s.fib.fp.toNat < (regVal s.fib a).toNat + (valB s.fib b).toNat) :
    exec (.fret d a b) s = .next (stackTrap s 6) := by
  rw [exec_fret_reads hctx ha hb hd rfl]
  dsimp only
  rw [if_pos h]
  exact performSeq_stackFault rfl hp

variable (hk : (valB s.fib b).toNat ≤ 1024) (hspan : (regVal s.fib a).toNat + (valB s.fib b).toNat ≤ frLen s area s.fib.fp.toNat)
include hk hspan

theorem exec_fret_capacity (h : frCap s area (frParent s area s.fib.fp.toNat) < frLen s area (frParent s area s.fib.fp.toNat) + (valB s.fib b).toNat) :
    exec (.fret d a b) s = .next (stackTrap s 3) := by
  rw [exec_fret_reads hctx ha hb hd rfl]
  dsimp only
  rw [if_neg (by omega), if_pos h]
  exact performSeq_stackFault rfl hp

variable (hcap : frLen s area (frParent s area s.fib.fp.toNat) + (valB s.fib b).toNat ≤ frCap s area (frParent s area s.fib.fp.toNat))
include hcap

theorem exec_fret_position (hpos : 0 < (valB s.fib b).toNat)
    (h : 2 ^ 24 < frFirst s area (frParent s area s.fib.fp.toNat) + frLen s area (frParent s area s.fib.fp.toNat) + (valB s.fib b).toNat) :
    exec (.fret d a b) s = .next (stackTrap s 2) := by
  rw [exec_fret_reads hctx ha hb hd rfl]
  dsimp only
  rw [if_neg (by omega), if_neg (by omega), if_pos ⟨hpos, h⟩]
  exact performSeq_stackFault rfl hp

omit hp in
theorem exec_fret_fits (h : (valB s.fib b).toNat = 0
      ∨ frFirst s area (frParent s area s.fib.fp.toNat) + frLen s area (frParent s area s.fib.fp.toNat) + (valB s.fib b).toNat ≤ 2 ^ 24) :
    exec (.fret d a b) s = performSeq (returnTail s d area s.fib.fp.toNat (frParent s area s.fib.fp.toNat) (regVal s.fib a).toNat (valB s.fib b).toNat) s := by
  rw [exec_fret_reads hctx ha hb hd rfl]
  dsimp only
  rw [if_neg (by omega), if_neg (by omega), if_neg (by omega)]

end

section
variable {s u : State} {d : SReg} {area c p start k : Nat} (hc : c < 256) (hclean : recordsClean u area) (hp : u.pair = none) (hd : openS u.fib d = true)
include hc hclean hp hd

/-- The parent's length is set, the frame left, and the parent made the top. -/
theorem done_of_return {m : M Unit} (hm : m s = (do
      setField area p 8 4 (frLen s area p + k)
      dropFrame area c
      setTop p (s.fib.fdepth.toNat - 1)
      result d (w64 (frLen s area p + k)) : M Unit) u) :
    let t := recordPut u area p 8 4 (frLen s area p + k)
    performSeq m s = .next (doneS (onFrame (releaseHold t area c (selfAdder t)) p (s.fib.fdepth.toNat - 1)) d (BitVec.ofNat 64 (frLen s area p + k))) := by
  intro t
  have hset : setField area p 8 4 (frLen s area p + k) u = .ok ((), t) := rfl
  have hfib : (releaseHold t area c (selfAdder t)).fib = u.fib := (releaseHold_home _ _ _).fib.trans (storeAt_fib _ _ _ _)
  have hpair : (releaseHold t area c (selfAdder t)).pair = none := (releaseHold_home _ _ _).pair.trans ((storeAt_pair _ _ _ _).trans hp)
  have hdrop := run_dropFrame (recordsClean_recordPut hclean p 8 4 (frLen s area p + k)) hc
  change dropFrame area c t = .ok ((), releaseHold t area c (selfAdder t)) at hdrop
  generalize releaseHold t area c (selfAdder t) = r at hfib hpair hdrop ⊢
  rw [run_bind_ok hset, run_bind_ok hdrop] at hm
  refine done_of_result (u := onFrame r p (s.fib.fdepth.toNat - 1)) hm hpair ?_
  show openS { r.fib with fp := BitVec.ofNat 7 p, fdepth := BitVec.ofNat 6 (s.fib.fdepth.toNat - 1) } d = true
  rw [hfib]
  exact hd

end

/-- No token is moved. -/
theorem run_returnTail_none {s : State} {d : SReg} {area c p start : Nat} : returnTail s d area c p start 0 s = (do
      setField area p 8 4 (frLen s area p + 0)
      dropFrame area c
      setTop p (s.fib.fdepth.toNat - 1)
      result d (w64 (frLen s area p + 0)) : M Unit) s := rfl

theorem run_lanePieces {s : State} {hc hp : Word} {n m : Nat} (h : hc = 0 ∨ hp = 0 ∨ (handleReason s hc (· == 2) (fun bound => decide (64 * n ≤ bound * 65536)) = 0
    ∧ handleReason s hp (· == 2) (fun bound => decide (64 * m ≤ bound * 65536)) = 0)) :
    lanePieces hc hp n m s = .ok (if hc = 0 ∨ hp = 0 then none else some (laneOf s hc, laneOf s hp), s) := by
  rw [lanePieces]
  by_cases hzero : hc = 0 ∨ hp = 0
  · rw [if_pos hzero, if_pos hzero]
    rfl
  · have hboth : handleReason s hc (· == 2) (fun bound => decide (64 * n ≤ bound * 65536)) = 0
        ∧ handleReason s hp (· == 2) (fun bound => decide (64 * m ≤ bound * 65536)) = 0 := by
      rcases h with h | h | h
      · exact absurd (.inl h) hzero
      · exact absurd (.inr h) hzero
      · exact h
    rw [if_neg hzero, if_neg hzero, run_bind_ok (run_laneTokens hboth.1), run_bind_ok (run_laneTokens hboth.2)]
    rfl

/-- The pages are translated, then the tokens move. -/
theorem run_returnTail {s u v : State} {d : SReg} {area c p start k : Nat} (hk : 0 < k)
    (hc : handleReason s (frKvh s area c) (· == 1) (fun bound => decide (frSlot0 s area c + start + k ≤ bound)) = 0)
    (hp : handleReason s (frKvh s area p) (· == 1) (fun bound => decide (frSlot0 s area p + frLen s area p + k ≤ bound)) = 0)
    {lanes : Option (Tokens × Tokens)} (hl : lanePieces (frLaneh s area c) (frLaneh s area p) (frSlot0 s area c + start + k)
      (frSlot0 s area p + frLen s area p + k) s = .ok (lanes, s))
    (hreach : reachTokens (kvOf s (frKvh s area c)) (kvOf s (frKvh s area p)) lanes k (frSlot0 s area c + start) (frSlot0 s area p + frLen s area p) s = .ok ((), v))
    (hmove : moveTokens (kvOf s (frKvh s area c)) (kvOf s (frKvh s area p)) lanes k (frSlot0 s area c + start) (frSlot0 s area p + frLen s area p)
      (frFirst s area p + frLen s area p) v = .ok ((), u)) : returnTail s d area c p start k s = (do
      setField area p 8 4 (frLen s area p + k)
      dropFrame area c
      setTop p (s.fib.fdepth.toNat - 1)
      result d (w64 (frLen s area p + k)) : M Unit) u := by
  rw [returnTail]
  dsimp only
  rw [if_pos (by omega), run_bind_ok (run_kvTokens hc), run_bind_ok (run_kvTokens hp), run_bind_ok hl, run_bind_ok hreach, run_bind_ok hmove]

/-! ## Empty stacks, and no context (R265, R267) -/

section
variable {s : State} {area : Nat} {d c : SReg} {v w : Fin 15} (hp : s.pair = none)
include hp

theorem exec_frames_contextless {a : SReg} {b : SrcB} {l : Fin 16} {e : Fin 12} {k : PosKind}
    (h : handleReason s s.fib.ctx (· == 3) (fun _ => true) ≠ 0 ∨ pinnedAt s s.fib.ctx = none) :
    exec (.fpush d b) s = .next (stackTrap s 7) ∧ exec (.fpushSpec d b) s = .next (stackTrap s 7) ∧ exec (.fret d a b) s = .next (stackTrap s 7)
      ∧ exec (.fshareJ a) s = .next (stackTrap s 7) ∧ exec (.fshareH a) s = .next (stackTrap s 7) ∧ exec (.frel a) s = .next (stackTrap s 7)
      ∧ exec (.farg a b c) s = .next (stackTrap s 7) ∧ exec (.fpos k d a) s = .next (stackTrap s 7)
      ∧ exec (.kvapp d v w c) s = .next (stackTrap s 7) ∧ exec (.kvappLn d v w c l) s = .next (stackTrap s 7)
      ∧ exec (.vaccptLn e a) s = .next (stackTrap s 7) :=
  ⟨performSeq_context_none h hp, performSeq_context_none h hp, performSeq_context_none h hp, performSeq_context_none h hp, performSeq_context_none h hp,
    performSeq_context_none h hp, performSeq_context_none h hp, performSeq_context_none h hp, performSeq_context_none h hp, performSeq_context_none h hp,
    performSeq_context_none h hp⟩

variable (hctx : inContext s area) (hd : s.fib.fdepth = 0)
include hctx hd

theorem exec_kvapp_empty (hv : plainPair s v = true) (hw : plainPair s w = true) (hc : plainS s.fib c = true) :
    exec (.kvapp d v w c) s = .next (stackTrap s 4) := by
  refine performSeq_stackFault ?_ hp
  rw [run_bind_ok (run_needContext hctx), run_bind_ok (run_rdPair hv), run_bind_ok (run_rdPair hw), run_bind_ok (rd_of_plain hc)]
  exact run_bind_error ((run_topFrame_empty hd).trans (run_stackFault 4))

theorem exec_vaccptLn_empty {a : SReg} {e : Fin 12} (ha : plainS s.fib a = true) : exec (.vaccptLn e a) s = .next (stackTrap s 4) := by
  refine performSeq_stackFault ?_ hp
  rw [run_bind_ok (run_needContext hctx), run_bind_ok (rd_of_plain ha)]
  exact run_bind_error ((run_topFrame_empty hd).trans (run_stackFault 4))

end

/-- Settles O43: each instruction's reads succeed on clean records, so that its branches decide what it does; a push takes the least fitting
slots (`slotChoice_some`), and no store or add at a home poisons a record (`Cleaner`). -/
theorem frames : Obligations.Frames := by
  unfold Obligations.Frames
  refine ⟨⟨fun s d a c b v w l e k hp h => exec_frames_contextless hp h, fun s area d a c b v w e hp hctx ha hc hb hv hw hd =>
    ⟨performSeq_pushForm_empty false hp hctx hb hd, performSeq_pushForm_empty true hp hctx hb hd,
      exec_fret_shallow hp hctx ha hb (by rw [hd]; decide), exec_farg_empty hp hctx ha hb hc hd, exec_kvapp_empty hp hctx hd hv hw hc,
      exec_vaccptLn_empty hp hctx hd ha⟩⟩, fun s area d a c b hp hctx ha hc hb hd => ?_⟩
  have hclean := recordsClean_of_context hctx
  refine ⟨fun hpos hlim => ⟨performSeq_pushForm_limit false hp hctx hb hpos hlim, performSeq_pushForm_limit true hp hctx hb hpos hlim⟩,
    fun hpos hlim hy => ⟨performSeq_pushForm_capacity false hp hctx hb hpos hlim hy, performSeq_pushForm_capacity true hp hctx hb hpos hlim hy⟩,
    fun hpos hlim hcap hmax => ?_, fun h1 => exec_fret_shallow hp hctx ha hb (by omega), fun h2 => ?_, exec_fshareJ_dead hp hctx ha, exec_fshareJ_stranger hp hctx ha,
    exec_fshareJ_limit hp hctx ha, exec_fshareJ hp hctx ha,
    fun h => ⟨exec_fshareH_dead hp hctx ha h, exec_frel_dead hp hctx ha h, fun k => exec_fpos_dead hp hctx ha k hd h⟩,
    fun h => ⟨exec_fshareH hp hctx ha h, exec_frel_unkept hp hctx ha h, exec_frel hp hctx ha h, exec_fpos hp hctx ha .next hd h, exec_fpos hp hctx ha .len hd h,
      exec_fpos hp hctx ha .first hd h, exec_fpos hp hctx ha .cap hd h, exec_fpos hp hctx ha .mark hd h, exec_fpos hp hctx ha .parent hd h,
      exec_fpos hp hctx ha .holds hd h, exec_fpos hp hctx ha .info hd h⟩,
    fun hpos => ⟨exec_farg_count hp hctx ha hb hc hpos, exec_farg_unfit hp hctx ha hb hc hpos, fun hk hlen hn hf =>
      ⟨exec_farg_span hp hctx ha hb hc hpos hk hlen hn hf, exec_farg hp hctx ha hb hc hpos hk hlen hn hf⟩⟩⟩
  · have hforms : ∀ spec, performSeq (pushForm spec d b) s = performSeq (pushTail spec d area (valB s.fib b).toNat s.fib) s := fun spec =>
      performSeq_pushForm_admitted spec hctx hb hpos hlim hcap hmax
    refine ⟨fun hall => ?_, fun _ hno => ?_, fun m slot hpush => ⟨fun hfirst => ?_, fun hfirst => ⟨fun hobj => ?_, fun hobj => ?_⟩⟩⟩
    · exact ⟨(hforms false).trans (performSeq_pushTail_full false hp hclean (.inl (freeFrame_none hall))),
        (hforms true).trans (performSeq_pushTail_full true hp hclean (.inl (freeFrame_none hall)))⟩
    · have hslot := slotChoice_none hno
      rw [← hdKvh_bound] at hslot
      exact ⟨(hforms false).trans (performSeq_pushTail_full false hp hclean (.inr hslot)), (hforms true).trans (performSeq_pushTail_full true hp hclean (.inr hslot))⟩
    · exact ⟨(hforms false).trans (performSeq_pushTail_position false hp hclean hpush hfirst),
        (hforms true).trans (performSeq_pushTail_position true hp hclean hpush hfirst)⟩
    · exact ⟨(hforms false).trans (performSeq_pushTail_objects false hp hclean hpush hfirst hobj),
        (hforms true).trans (performSeq_pushTail_objects true hp hclean hpush hfirst hobj)⟩
    · exact ⟨(hforms false).trans (performSeq_pushTail false hp hclean hpush hfirst hobj hd),
        (hforms true).trans (performSeq_pushTail true hp hclean hpush hfirst hobj hd)⟩
  · refine ⟨exec_fret_span hp hctx ha hb h2, exec_fret_capacity hp hctx ha hb h2, fun hpos hk hspan hcap => exec_fret_position hp hctx ha hb h2 hk hspan hcap hpos,
      fun hy hspan hcap => ?_, fun u v hpos hk hspan hcap hfirst hkc hkp hlanes hreach hmove hcleanu hpu hdu => ?_⟩
    · rw [exec_fret_fits hctx ha hb h2 (by omega) (by omega) (by omega) (.inl hy), hy]
      have hdone := done_of_return (fp_lt s) hclean hp hd (run_returnTail_none (d := d) (c := s.fib.fp.toNat) (p := frParent s area s.fib.fp.toNat)
        (start := (regVal s.fib a).toNat))
      rw [Nat.add_zero] at hdone
      exact hdone
    · rw [exec_fret_fits hctx ha hb h2 hk hspan hcap (.inr hfirst)]
      exact done_of_return (fp_lt s) hcleanu hpu hdu (run_returnTail hpos hkc hkp (run_lanePieces hlanes) hreach hmove)

end Sys2Proof
end

