-- ==== Sys2Proof/Proofs/FramesGo.lean ====
section
/-!
SUPPORT. Where the frame instructions lead: O60.
-/
namespace Sys2Proof
open Machine Safety

/-- The next instruction, with `%fp` and `%fdepth` as given. -/
def leadsTo (s : State) (i : Instr) (fp : BitVec 7) (depth : BitVec 6) : Prop :=
  ∃ t, exec i s = .next t ∧ t.fib.pc = nextPc s.fib.pc ∧ t.fib.fp = fp ∧ t.fib.fdepth = depth

section
variable {s t : State} {i : Instr} {n depth : Nat}

theorem doneS_frame (t : State) (d : SReg) (v : Word) :
    (doneS t d v).fib.pc = nextPc t.fib.pc ∧ (doneS t d v).fib.fp = t.fib.fp ∧ (doneS t d v).fib.fdepth = t.fib.fdepth := by
  obtain ⟨la, s', x, poison, flips, hput⟩ := result_frame t.fib d v
  simp only [doneS, hput, and_self]

theorem leadsTo_doneS {d : SReg} {v : Word} (hfib : t.fib = s.fib) (h : exec i s = .next (doneS (onFrame t n depth) d v)) :
    leadsTo s i (BitVec.ofNat 7 n) (BitVec.ofNat 6 depth) := by
  obtain ⟨hpc, hfp, hdepth⟩ := doneS_frame (onFrame t n depth) d v
  refine ⟨_, h, hpc.trans ?_, hfp, hdepth⟩
  show nextPc t.fib.pc = nextPc s.fib.pc
  rw [hfib]

theorem leadsTo_goOn_onFrame (hfib : t.fib = s.fib) (h : exec i s = .next (goOn (onFrame t n depth))) :
    leadsTo s i (BitVec.ofNat 7 n) (BitVec.ofNat 6 depth) := by
  refine ⟨_, h, ?_, rfl, rfl⟩
  show nextPc t.fib.pc = nextPc s.fib.pc
  rw [hfib]

theorem leadsTo_goOn (hfib : t.fib = s.fib) (h : exec i s = .next (goOn t)) : leadsTo s i s.fib.fp s.fib.fdepth := by
  refine ⟨_, h, ?_, ?_, ?_⟩
  · show nextPc t.fib.pc = nextPc s.fib.pc
    rw [hfib]
  · show t.fib.fp = s.fib.fp
    rw [hfib]
  · show t.fib.fdepth = s.fib.fdepth
    rw [hfib]

end

theorem ofNat_succ_depth (d : BitVec 6) : BitVec.ofNat 6 (d.toNat + 1) = d + 1 := BitVec.eq_of_toNat_eq (by simp)

theorem ofNat_pred_depth {d : BitVec 6} (h : 1 ≤ d.toNat) : BitVec.ofNat 6 (d.toNat - 1) = d - 1 := by
  have hone : (1 : BitVec 6).toNat ≤ d.toNat := h
  refine BitVec.eq_of_toNat_eq ?_
  rw [BitVec.toNat_sub_of_le (BitVec.le_def.2 hone), BitVec.toNat_ofNat]
  exact Nat.mod_eq_of_lt (by omega)

theorem recordPut_fib (s : State) (b n off len v : Nat) : (recordPut s b n off len v).fib = s.fib := storeAt_fib _ _ _ _

/-- Settles O60: the states that O43's lemmas give, with the fields that a result, a hold and a release leave as they are. -/
theorem frameInstructionsComplete : Obligations.FrameInstructionsComplete := by
  unfold Obligations.FrameInstructionsComplete
  intro s area d a c b hp hctx ha hc hb hd f x y z n j goesTo stays
  have hclean := recordsClean_of_context hctx
  have hpos : ∀ {q : BitVec 6}, q ≠ 0 → 0 < q.toNat := fun {q} h => Nat.pos_of_ne_zero fun k => h (BitVec.eq_of_toNat_eq k)
  refine ⟨fun m slot h0 hlim hcap hmax hpush hobj hfirst => ?_, fun h2 hy hspan hcap => ?_, fun hj hparent hlim => ?_, fun hn => ⟨?_, fun hk => ?_⟩,
    fun h0 hk hlen hnf hn hz hfit => ?_, fun k => ?_⟩
  · have hforms : ∀ spec, performSeq (pushForm spec d b) s = .next (doneS (pushed spec s area y m slot) d (BitVec.ofNat 64 m)) := fun spec =>
      (performSeq_pushForm_admitted spec hctx hb (hpos h0) (BitVec.lt_def.1 hlim) hcap hmax).trans (performSeq_pushTail spec hp hclean hpush hfirst hobj hd)
    have hfib : ∀ spec, (held (storeAt s (area + 128 * m) (pushedRecord spec s area y slot) (selfAdder s)) area s.fib.fp.toNat).fib = s.fib := fun spec =>
      (held_fib _ _).trans (storeAt_fib _ _ _ _)
    rw [← ofNat_succ_depth]
    exact ⟨leadsTo_doneS (hfib false) (hforms false), leadsTo_doneS (hfib true) (hforms true)⟩
  · have hnone : (valB s.fib b).toNat = 0 := hy
    have hfits := exec_fret_fits (d := d) hctx ha hb h2 (by omega) (by rw [hnone]; exact hspan) (by rw [hnone]; exact hcap) (.inl hy)
    rw [hnone] at hfits
    have hdone := done_of_return (fp_lt s) hclean hp hd (run_returnTail_none (d := d) (c := s.fib.fp.toNat) (p := frParent s area s.fib.fp.toNat)
      (start := (regVal s.fib a).toNat))
    rw [← ofNat_pred_depth (by omega)]
    refine leadsTo_doneS ?_ (hfits.trans hdone)
    exact (releaseHold_home _ _ _).fib.trans (recordPut_fib _ _ _ _ _ _)
  · rw [← ofNat_succ_depth]
    refine leadsTo_goOn_onFrame ?_ (exec_fshareJ hp hctx ha hj hparent (BitVec.lt_def.1 hlim))
    rw [joinedArea]
    split
    · exact (recordPut_fib _ _ _ _ _ _).trans (held_fib _ _)
    · exact held_fib _ _
  · exact leadsTo_goOn ((recordPut_fib _ _ _ _ _ _).trans (held_fib _ _)) (exec_fshareH hp hctx ha hn)
  · exact leadsTo_goOn ((releaseHold_home _ _ _).fib.trans (recordPut_fib _ _ _ _ _ _)) (exec_frel hp hctx ha hn hk)
  · exact leadsTo_goOn (((held_fib _ _).trans (recordPut_fib _ _ _ _ _ _)).trans (recordPut_fib _ _ _ _ _ _))
      (exec_farg hp hctx ha hb hc (hpos h0) hk hlen hnf hn hz hfit)
  · have hfield : ∃ v, exec (.fpos k d a) s = .next (doneS s d v) := by
      by_cases hn : isFrame s area (frameNamed s a)
      · exact ⟨_, exec_fpos hp hctx ha k hd hn⟩
      · exact ⟨_, exec_fpos_dead hp hctx ha k hd hn⟩
    obtain ⟨v, hv⟩ := hfield
    obtain ⟨hpc, hfp, hdepth⟩ := doneS_frame s d v
    exact ⟨_, hv, hpc, hfp, hdepth, rfl⟩

end Sys2Proof
end

