-- ==== Sys2Proof/Proofs/AppendTokens.lean ====
section
/-!
SUPPORT. Appending a token to the current frame: O44.
-/
namespace Sys2Proof
open Machine Safety

/-- The three writes of an append: the key, the value, the tag (R272). -/
def appendWrites (kv : Tokens) (slot pos tok : Nat) (key value : List Byte) (s0 s3 : State) : Prop :=
  let g := 65536 * ((8 * kv.slots + 65535) / 65536)
  ∃ s1 s2 : State, tokenWrite kv (g + 4096 * (slot / 16) + 128 * (slot % 16)) key s0 = .ok ((), s1)
    ∧ writeValue kv slot 0 (pairsOf value) s1 = .ok ((), s2) ∧ tokenWrite kv (8 * slot) (bytesOf 8 (2 ^ 63 + tok * 2 ^ 32 + pos)) s2 = .ok ((), s3)

section
variable {s : State} {area : Nat} {d : SReg} {key value : List Byte} {token : Word} {row : Option (List Byte)}
  (hclean : recordsClean s area) (hdepth : s.fib.fdepth ≠ 0)
include hclean hdepth

theorem run_appendToken_full (h : frLen s area s.fib.fp.toNat = frCap s area s.fib.fp.toNat) :
    appendToken area d key value token row s = (stackFault 3 : M Unit) s := by
  rw [appendToken, run_bind_ok (run_topFrame hclean hdepth), run_bind_ok (run_get s), if_pos h]

variable (hroom : frLen s area s.fib.fp.toNat ≠ frCap s area s.fib.fp.toNat)
include hroom

theorem run_appendToken_position (h : 2 ^ 24 ≤ frFirst s area s.fib.fp.toNat + frLen s area s.fib.fp.toNat) :
    appendToken area d key value token row s = (stackFault 2 : M Unit) s := by
  rw [appendToken, run_bind_ok (run_topFrame hclean hdepth), run_bind_ok (run_get s), if_neg hroom, if_pos h]

variable (hpos : frFirst s area s.fib.fp.toNat + frLen s area s.fib.fp.toNat < 2 ^ 24)
include hpos

theorem run_appendToken_token (h : 2 ^ 24 ≤ token.toNat) : appendToken area d key value token row s = (stackFault 6 : M Unit) s := by
  rw [appendToken, run_bind_ok (run_topFrame hclean hdepth), run_bind_ok (run_get s), if_neg hroom, if_neg (Nat.not_le.2 hpos), if_pos h]

variable (htok : token.toNat < 2 ^ 24)
include htok

theorem run_appendToken_rowless (hrow : row.isSome = true) (h : frLaneh s area s.fib.fp.toNat = 0) :
    appendToken area d key value token row s = (stackFault 7 : M Unit) s := by
  rw [appendToken, run_bind_ok (run_topFrame hclean hdepth), run_bind_ok (run_get s), if_neg hroom, if_neg (Nat.not_le.2 hpos),
    if_neg (Nat.not_le.2 htok), if_pos ⟨hrow, h⟩]

section
variable (hkv : handleReason s (frKvh s area s.fib.fp.toNat) (· == 1)
  (fun bound => decide (frSlot0 s area s.fib.fp.toNat + frLen s area s.fib.fp.toNat + 1 ≤ bound)) = 0)
include hkv

/-- The last step of an append: the frame is one token longer. -/
def lastStep (s : State) (area : Nat) (d : SReg) (u : State) : Except Stop (Unit × State) :=
  result d (w64 (frFirst s area s.fib.fp.toNat + frLen s area s.fib.fp.toNat)) (recordPut u area s.fib.fp.toNat 8 4 (frLen s area s.fib.fp.toNat + 1))

theorem run_appendToken {v u : State}
    (hreach : reachToken (kvOf s (frKvh s area s.fib.fp.toNat)) accStore (frSlot0 s area s.fib.fp.toNat + frLen s area s.fib.fp.toNat) s = .ok ((), v))
    (hwrites : appendWrites (kvOf s (frKvh s area s.fib.fp.toNat)) (frSlot0 s area s.fib.fp.toNat + frLen s area s.fib.fp.toNat)
      (frFirst s area s.fib.fp.toNat + frLen s area s.fib.fp.toNat) token.toNat key value v u) :
    appendToken area d key value token none s = lastStep s area d u := by
  obtain ⟨s1, s2, hkey, hvalue, htag⟩ := hwrites
  rw [appendToken, run_bind_ok (run_topFrame hclean hdepth), run_bind_ok (run_get s), if_neg hroom, if_neg (Nat.not_le.2 hpos),
    if_neg (Nat.not_le.2 htok), if_neg (by simp), run_bind_ok (run_kvTokens hkv)]
  dsimp only
  rw [run_bind_ok hreach]
  refine (run_bind_ok hkey).trans ((run_bind_ok hvalue).trans ((run_bind_ok htag).trans rfl))

theorem run_appendToken_row {r : List Byte} {w v s0 u : State} (hl : frLaneh s area s.fib.fp.toNat ≠ 0)
    (hlane : handleReason s (frLaneh s area s.fib.fp.toNat) (· == 2)
      (fun bound => decide (64 * (frSlot0 s area s.fib.fp.toNat + frLen s area s.fib.fp.toNat + 1) ≤ bound * 65536)) = 0)
    (hrow : reachRow (laneOf s (frLaneh s area s.fib.fp.toNat)) accStore (frSlot0 s area s.fib.fp.toNat + frLen s area s.fib.fp.toNat) s = .ok ((), w))
    (hreach : reachToken (kvOf s (frKvh s area s.fib.fp.toNat)) accStore (frSlot0 s area s.fib.fp.toNat + frLen s area s.fib.fp.toNat) w = .ok ((), v))
    (hwrite : tokenWrite (laneOf s (frLaneh s area s.fib.fp.toNat)) (64 * (frSlot0 s area s.fib.fp.toNat + frLen s area s.fib.fp.toNat)) r v = .ok ((), s0))
    (hwrites : appendWrites (kvOf s (frKvh s area s.fib.fp.toNat)) (frSlot0 s area s.fib.fp.toNat + frLen s area s.fib.fp.toNat)
      (frFirst s area s.fib.fp.toNat + frLen s area s.fib.fp.toNat) token.toNat key value s0 u) :
    appendToken area d key value token (some r) s = lastStep s area d u := by
  obtain ⟨s1, s2, hkey, hvalue, htag⟩ := hwrites
  rw [appendToken, run_bind_ok (run_topFrame hclean hdepth), run_bind_ok (run_get s), if_neg hroom, if_neg (Nat.not_le.2 hpos),
    if_neg (Nat.not_le.2 htok), if_neg (fun k => hl k.2), run_bind_ok (run_kvTokens hkv)]
  dsimp only
  rw [run_bind_ok (run_laneTokens hlane), run_bind_ok hrow, run_bind_ok hreach, run_bind_ok hwrite]
  refine (run_bind_ok hkey).trans ((run_bind_ok hvalue).trans ((run_bind_ok htag).trans rfl))

end
end

section
variable {s : State} {area : Nat} {d c : SReg} {a b : Fin 15} {l : Fin 16} (hctx : inContext s area) (hc : plainS s.fib c = true)
  (ha : plainPair s a = true) (hb : plainPair s b = true)
include hctx hc ha hb

theorem exec_kvapp : exec (.kvapp d a b c) s = performSeq (appendToken area d (pairBytes s a) (pairBytes s b) (regVal s.fib c) none) s := by
  refine performSeq_congr ?_
  rw [run_bind_ok (run_needContext hctx), run_bind_ok (run_rdPair ha), run_bind_ok (run_rdPair hb), run_bind_ok (rd_of_plain hc)]

theorem exec_kvappLn (hl : plainV s.fib l = true) : exec (.kvappLn d a b c l) s =
    performSeq (appendToken area d (pairBytes s a) (pairBytes s b) (regVal s.fib c) (some (laneBytes s.fib.v[l]))) s := by
  refine performSeq_congr ?_
  rw [run_bind_ok (run_needContext hctx), run_bind_ok (run_rdPair ha), run_bind_ok (run_rdPair hb), run_bind_ok (rd_of_plain hc), run_bind_ok (rdV_of_plain hl)]

end

/-- Settles O44: the two forms run one append, whose faults and writes `run_appendToken` and `run_appendToken_row` give. -/
theorem appendTokens : Obligations.AppendTokens := by
  unfold Obligations.AppendTokens
  intro s area d c a b l hp hctx hc ha hb hl hdepth
  have hclean := recordsClean_of_context hctx
  rw [exec_kvapp hctx hc ha hb, exec_kvappLn hctx hc ha hb hl]
  refine ⟨fun h => ⟨performSeq_stackFault (run_appendToken_full hclean hdepth h) hp, performSeq_stackFault (run_appendToken_full hclean hdepth h) hp⟩,
    fun hroom h => ⟨performSeq_stackFault (run_appendToken_position hclean hdepth hroom h) hp,
      performSeq_stackFault (run_appendToken_position hclean hdepth hroom h) hp⟩,
    fun hroom hpos h => ⟨performSeq_stackFault (run_appendToken_token hclean hdepth hroom hpos h) hp,
      performSeq_stackFault (run_appendToken_token hclean hdepth hroom hpos h) hp⟩,
    fun hroom hpos htok h => performSeq_stackFault (run_appendToken_rowless hclean hdepth hroom hpos htok rfl h) hp,
    fun hroom hpos htok hkv => ⟨fun v u hreach hwrites hpu hdu => ?_, fun w v s0 u hln hlane hrow hreach hwrite hwrites hpu hdu => ?_⟩⟩
  · exact done_of_result (run_appendToken hclean hdepth hroom hpos htok hkv hreach hwrites) hpu hdu
  · exact done_of_result (run_appendToken_row hclean hdepth hroom hpos htok hkv hln hlane hrow hreach hwrite hwrites) hpu hdu

end Sys2Proof
end

