-- ==== Sys2Proof/Proofs/AttentionSteps.lean ====
section
/-!
SUPPORT. Attention on a pair of accumulators: O45.
-/
namespace Sys2Proof
open Machine Safety

theorem run_wrAcc_whole (n : Fin 8) (a : Acc) (s : State) : wrAcc true n a s = .ok ((), newAcc s n a) := rfl

/-! ## The checks that come first -/

section
variable {s : State} {n : Fin 4}

theorem performSeq_attention_unclaimed {m : Nat → M Unit} (hp : s.pair = none) (h : hasAcc s.fib (accLo n) = false) :
    performSeq (needAttention n >>= m) s = .next (trapsWith s 9 (unclaimed (0x40 + 2 * n.val))) :=
  performSeq_fails (run_bind_error (run_bind_error (needAcc_unclaimed h))) hp

theorem run_needAttention {area : Nat} (hctx : inContext s area) (hlo : goodAcc s (accLo n) = true) (hhi : goodAcc s (accHi n) = true) :
    needAttention n s = .ok (area, s) := by
  rw [needAttention, run_bind_ok (needAcc_claimed (hasAcc_of_good hlo)), run_bind_ok (needAcc_claimed (hasAcc_of_good hhi)), run_needContext hctx]

theorem run_rdState (hlo : goodAcc s (accLo n) = true) (hhi : goodAcc s (accHi n) = true) (hv : accValid (accOf s (accHi n)) = true) :
    rdState n s = .ok ((accOf s (accLo n), accOf s (accHi n)), s) := by
  rw [rdState, run_bind_ok (rdAcc_good hlo), run_bind_ok (rdAcc_good hhi), if_pos hv, run_pure]

theorem run_rdState_invalid (hlo : goodAcc s (accLo n) = true) (hhi : goodAcc s (accHi n) = true) (hv : accValid (accOf s (accHi n)) = false) :
    rdState n s = .error (.trap 9 (BitVec.ofNat 64 (0x340 + 2 * n.val)) false none) := by
  rw [rdState, run_bind_ok (rdAcc_good hlo), run_bind_ok (rdAcc_good hhi), if_neg (by simp [hv]), run_fail, tileAddr]
  congr 3
  omega

/-- An instruction that reads a pair whose VALID is 0 (R278, R279). -/
theorem performSeq_state_invalid {area : Nat} {m : Nat → Acc × Acc → M Unit} (hp : s.pair = none) (hctx : inContext s area)
    (hlo : goodAcc s (accLo n) = true) (hhi : goodAcc s (accHi n) = true) (hv : accValid (accOf s (accHi n)) = false) :
    performSeq (needAttention n >>= fun area => rdState n >>= m area) s = .next (trapsWith s 9 (BitVec.ofNat 64 (0x340 + 2 * n.val))) :=
  performSeq_fails ((run_bind_ok (run_needAttention hctx hlo hhi)).trans (run_bind_error (run_rdState_invalid hlo hhi hv))) hp

end

/-! ## The pair that `atbeg` leaves (R277) -/

theorem rotate_nil (p : Nat) (l : List Lane) : rotate p l [] = l := by
  rw [rotate]; simp

theorem getElem?_pairsOf : ∀ (l : List Byte) (i : Nat), 2 * i + 2 ≤ l.length → (pairsOf l)[i]? = some ((l.drop (2 * i)).take 2)
  | [], _, h | [_], _, h => by simp at h
  | a :: b :: l, 0, _ => rfl
  | a :: b :: l, i + 1, h => by
    rw [pairsOf, List.getElem?_cons_succ, getElem?_pairsOf l i (by simp at h; omega)]
    rfl

/-- Element i of a row of BF16 values. -/
theorem nth_widenRow {l : List Byte} {i : Nat} (h : 2 * i + 2 ≤ l.length) :
    nth (widenRow l) i 0 = BitVec.ofNat 32 (natOf ((l.drop (2 * i)).take 2) * 65536) := by
  rw [nth, widenRow, List.getElem?_map, getElem?_pairsOf l i h]
  rfl

theorem pairBytes_length (s : State) (k : Fin 15) : (pairBytes s k).length = 128 := by
  rw [pairBytes, List.length_append, laneBytes_length, laneBytes_length]

/-- A BF16 value in the high half of a slot. -/
theorem slotWord_bf16 {v : Nat} (h : v < 65536) : slotWord (BitVec.ofNat 32 (v * 65536)) 0 = BitVec.ofNat 64 (v * 2 ^ 48) := by
  rw [slotWord, BitVec.toNat_ofNat, Nat.mod_eq_of_lt (by omega)]
  refine congrArg w64 ?_
  rw [show (0 : Lane).toNat = 0 from rfl]
  omega

theorem beginLo_widenRow {l : List Byte} (hl : l.length = 128) (i : Fin 64) :
    (beginLo (widenRow l))[i] = BitVec.ofNat 64 (natOf ((l.drop (2 * i.val)).take 2) * 2 ^ 48) := by
  have hlt : natOf ((l.drop (2 * i.val)).take 2) < 2 ^ 16 := natOf_lt_two_pow (n := 16) (by simp; omega)
  rw [beginLo, vecOf_lane, nth_widenRow (by omega), slotWord_bf16 hlt]

theorem beginHi_slots (fp len first qp : Nat) : (beginHi fp len first qp [])[0] = 0xFF800000
    ∧ (beginHi fp len first qp [])[1] = BitVec.ofNat 64 ((if qp < first then 0 else Nat.min len (qp - first + 1)) * 2 ^ 32 + fp)
    ∧ (beginHi fp len first qp [])[2] = BitVec.ofNat 64 (2 ^ 63 + fp * 2 ^ 48 + len * 2 ^ 24 + qp)
    ∧ ∀ i : Fin 64, 3 ≤ i.val → (beginHi fp len first qp [])[i] = 0 := by
  refine ⟨?_, ?_, ?_, fun i hi => ?_⟩
  · rw [beginHi, vecOf_get]
    rfl
  · rw [beginHi, vecOf_get, if_neg (by simp), if_pos rfl, runWord]
    refine congrArg w64 ?_
    rw [Nat.zero_mul, Nat.zero_mul, Nat.zero_add, Nat.add_zero]
  · rw [beginHi, vecOf_get, if_neg (by simp), if_neg (by simp), if_pos rfl]
    rfl
  · rw [beginHi, vecOf_lane, if_neg (by omega), if_neg (by omega), if_neg (by omega)]
    split
    · rfl
    · rw [nth, List.getElem?_nil]
      rfl

section
variable {s : State} {area : Nat} {a : Fin 15} {b : SrcB} {n : Fin 4} (hp : s.pair = none) (hctx : inContext s area)
  (hlo : goodAcc s (accLo n) = true) (hhi : goodAcc s (accHi n) = true) (ha : plainPair s a = true) (hb : plainB s.fib b = true)
include hp hctx hlo hhi ha hb

theorem exec_atbeg_empty (hd : s.fib.fdepth = 0) : exec (.atbeg a b n) s = .next (stackTrap s 4) := by
  refine performSeq_stackFault ?_ hp
  rw [run_bind_ok (run_needAttention hctx hlo hhi), run_bind_ok (run_rdPair ha), run_bind_ok (rdB_of_plain hb)]
  exact run_bind_error (run_topFrame_empty hd)

theorem exec_atbeg_position (hd : s.fib.fdepth ≠ 0) (hq : 2 ^ 24 ≤ (valB s.fib b).toNat) : exec (.atbeg a b n) s = .next (stackTrap s 2) := by
  refine performSeq_stackFault ?_ hp
  rw [run_bind_ok (run_needAttention hctx hlo hhi), run_bind_ok (run_rdPair ha), run_bind_ok (rdB_of_plain hb),
    run_bind_ok (run_topFrame hctx.2.2 hd), if_pos hq]

theorem exec_atbeg (hd : s.fib.fdepth ≠ 0) (hq : (valB s.fib b).toNat < 2 ^ 24) (hrope : s.fib.rope = 0) :
    exec (.atbeg a b n) s = .next (goOn (newAcc (newAcc s (accLo n) (beginLo (widenRow (pairBytes s a)))) (accHi n)
      (beginHi s.fib.fp.toNat (frLen s area s.fib.fp.toNat) (frFirst s area s.fib.fp.toNat) (valB s.fib b).toNat []))) := by
  have hfreqs : readFreqs s = .ok ([], s) := by rw [readFreqs, run_bind_ok (run_theFib s), if_pos hrope, run_pure]
  refine done_of_unit ?_ hp
  rw [run_bind_ok (run_needAttention hctx hlo hhi), run_bind_ok (run_rdPair ha), run_bind_ok (rdB_of_plain hb),
    run_bind_ok (run_topFrame hctx.2.2 hd), if_neg (Nat.not_le.2 hq), run_bind_ok hfreqs, run_bind_ok (run_get s), rotate_nil,
    run_bind_ok (run_wrAcc_whole _ _ s), run_wrAcc_whole]

end

/-! ## Advancing to a run that holds keys (R278) -/

section
variable {s : State} {b own : Nat}

theorem nextRun_of_advancesTo {r t : Run} (h : advancesTo s b own r t) : nextRun s b own r = t := by
  obtain ⟨phase, limit, index, frame⟩ := t
  rw [nextRun]
  rcases h with ⟨h4, harg, hphase, g, start, len, heq, hframe, hindex, hlimit⟩ | ⟨h4, harg, ht⟩ | ⟨h4, hup, hphase, hframe, hindex, hlimit⟩ | ⟨h4, hup, hphase, hframe, hindex, hlimit⟩
  · rw [if_pos h4]
    dsimp only at hphase hframe hindex hlimit ⊢
    rw [if_pos harg, heq, hphase, hframe, hindex, hlimit]
  · rw [if_pos h4]
    dsimp only
    rw [if_neg (Nat.not_lt.2 harg), ht]
  · rw [if_neg (Nat.not_lt.2 h4)]
    dsimp only at hphase hframe hindex hlimit ⊢
    rw [if_neg hup, hphase, hframe, hindex, hlimit]
  · rw [if_neg (Nat.not_lt.2 h4)]
    dsimp only at hphase hframe hindex hlimit ⊢
    rw [if_pos hup, hphase, hframe, hindex, hlimit]

theorem nextRun_frame_lt {r : Run} (h : r.frame < 256) : (nextRun s b own r).frame < 256 := by
  rw [nextRun]
  dsimp only
  split
  · split
    · exact frArg_lt _
    · exact h
  · generalize (if r.phase = 4 then own else r.frame) = done
    split
    · exact Nat.zero_lt_succ 255
    · exact frParent_lt

/-- The frame of the run that the advances lead to is one that a byte can name, and the reads on the way pass. -/
theorem run_advanceRun (hclean : recordsClean s b) (hown : own < 256) {run : Run} :
    ∀ (moves fuel : Nat) (r : Run), moves ≤ fuel → r.frame < 256 → advancesIn s b own moves r run →
      advanceRun b own fuel r s = .ok (run, s) ∧ run.frame < 256
  | 0, fuel, r, _, hr, h => by
    obtain ⟨rfl, hstop⟩ := h
    refine ⟨?_, hr⟩
    cases fuel with
    | zero => rfl
    | succ fuel =>
      rw [advanceRun, if_neg fun hmove => hstop.elim (absurd hmove.1) (absurd hmove.2 <| Nat.not_lt.2 ·)]
      rfl
  | moves + 1, 0, _, hle, _, _ => absurd hle (by omega)
  | moves + 1, fuel + 1, r, hle, hr, h => by
    obtain ⟨hdone, hphase, t, hto, hin⟩ := h
    have hreads : runReads own r < 256 := by rw [runReads]; split <;> assumption
    obtain rfl := nextRun_of_advancesTo hto
    obtain ⟨hrest, hframe⟩ := run_advanceRun hclean hown moves fuel _ (Nat.le_of_succ_le_succ hle) (nextRun_frame_lt hr) hin
    refine ⟨?_, hframe⟩
    rw [advanceRun, if_pos ⟨hdone, hphase⟩, run_bind_ok (run_readRecordOf hclean hreads), run_bind_ok (run_get s), hrest]

theorem accOwn_lt (w : Acc) : accOwn w < 256 := Nat.lt_trans (Nat.mod_lt _ (by decide : (0 : Nat) < 2 ^ 7)) (by decide)
theorem runFrom_frame_lt (w : Word) : (runFrom w).frame < 256 := Nat.lt_trans (Nat.mod_lt _ (by decide : (0 : Nat) < 2 ^ 7)) (by decide)

theorem accOwn_eq_extractLsb' (w : Acc) : accOwn w = (w[2].extractLsb' 48 7).toNat := by
  rw [accOwn, bitsOf_eq_extractLsb']

end

/-! ## `atstep` (R278) -/

/-- A claimed and sound accumulator that is written leaves what the result needs. -/
theorem newAcc_open (s : State) (n : Fin 8) (x : Acc) (r : SReg) : openS (newAcc s n x).fib r = openS s.fib r := by
  have h : (newAcc s n x).fib = cleanReg s.fib (0x200 + n.val) := rfl
  rw [h, cleanReg_frame]
  rfl

/-- What `atstep` does once a run holds keys. -/
def stepTail (area : Nat) (d : SReg) (n : Fin 4) (a b : Acc) (run : Run) : M Unit := do
  if run.phase ≥ 6 then
    wrAcc true (accHi n) (b.set 1 (runWord run))
    result d 0
  else
    let e := min run.limit (16 * (run.index / 16 + 1))
    readRecordOf area run.frame
    let t ← get
    let slot := frSlot0 t area run.frame
    let x ← kvTokens (frKvh t area run.frame) (slot + e)
    let ks ← readKeys x (accFreqs b) (e - run.index) (slot + run.index)
    let q := a.toList.map slotHi
    let r := foldKeys q (a.toList.map slotLo) (slotLo b[0]) (slotHi b[0]) ks
    let p := putSums a b r ⟨run.phase, run.limit, e, run.frame⟩
    wrAcc true (accLo n) p.1
    wrAcc true (accHi n) p.2
    result d (w64 (e - run.index))

section
variable {s : State} {area : Nat} {r : SReg} {n : Fin 4} (hp : s.pair = none) (hr : openS s.fib r = true)

theorem exec_atstep_advanced (hctx : inContext s area) (hlo : goodAcc s (accLo n) = true) (hhi : goodAcc s (accHi n) = true)
    (hv : accValid (accOf s (accHi n)) = true) {run : Run}
    (hrun : advanceRun area (accOwn (accOf s (accHi n))) 256 (runFrom (accOf s (accHi n))[1]) s = .ok (run, s)) :
    exec (.atstep r n) s = performSeq (stepTail area r n (accOf s (accLo n)) (accOf s (accHi n)) run) s := by
  refine performSeq_congr ?_
  rw [run_bind_ok (run_needAttention hctx hlo hhi), run_bind_ok (run_rdState hlo hhi hv)]
  exact run_bind_ok hrun

include hp hr

theorem performSeq_stepTail_ended {a b : Acc} {run : Run} (h : 6 ≤ run.phase) :
    performSeq (stepTail area r n a b run) s = .next (doneS (newAcc s (accHi n) (b.set 1 (runWord run))) r 0) := by
  refine done_of_result ?_ hp ((newAcc_open ..).trans hr)
  rw [stepTail, if_pos h, run_bind_ok (run_wrAcc_whole _ _ s)]

theorem performSeq_stepTail_keys {a b : Acc} {run : Run} {ks : List (List Lane × List Lane)} (hclean : recordsClean s area) (hframe : run.frame < 256)
    (h : run.phase < 6) (hkv : handleReason s (frKvh s area run.frame) (· == 1)
      (fun bound => decide (frSlot0 s area run.frame + Nat.min run.limit (16 * (run.index / 16 + 1)) ≤ bound)) = 0)
    (hks : readKeys (kvOf s (frKvh s area run.frame)) (accFreqs b) (Nat.min run.limit (16 * (run.index / 16 + 1)) - run.index)
      (frSlot0 s area run.frame + run.index) s = .ok (ks, s)) :
    let p := putSums a b (foldKeys (a.toList.map slotHi) (a.toList.map slotLo) (slotLo b[0]) (slotHi b[0]) ks)
      ⟨run.phase, run.limit, Nat.min run.limit (16 * (run.index / 16 + 1)), run.frame⟩
    performSeq (stepTail area r n a b run) s = .next (doneS (newAcc (newAcc s (accLo n) p.1) (accHi n) p.2) r
      (BitVec.ofNat 64 (Nat.min run.limit (16 * (run.index / 16 + 1)) - run.index))) := by
  intro p
  refine done_of_result ?_ hp ((newAcc_open ..).trans ((newAcc_open ..).trans hr))
  rw [stepTail, if_neg (Nat.not_le.2 h)]
  refine (run_bind_ok (run_readRecordOf hclean hframe)).trans ((run_bind_ok (run_get s)).trans ((run_bind_ok (run_kvTokens hkv)).trans ?_))
  exact (run_bind_ok hks).trans ((run_bind_ok (run_wrAcc_whole _ _ s)).trans ((run_bind_ok (run_wrAcc_whole _ _ _)).trans rfl))

end

/-! ## `atend` (R279) -/

theorem openV_putV (f : Fib) (d e : Fin 16) (v : VReg) : openV (putV f d v) e = openV f e := by
  rw [putV, cleanReg_frame]
  rfl

theorem run_resultV {s : State} {d : Fin 16} (v : VReg) (hp : s.pair = none) (hd : openV s.fib d = true) :
    resultV d v s = .ok ((), { s with fib := putV s.fib d v }) :=
  resultV_plain v hp (by simpa [openV] using hd)

/-- Element i of o divided by l, 0 where l is 0. -/
def quotientOf (a b : Acc) (h : Fin 2) (i : Nat) : Lane :=
  if (slotHi b[0]).toNat % 2 ^ 31 = 0 then (0 : Lane) else divRne (slotLo a[Fin.ofNat 64 (32 * h.val + i)]) (slotHi b[0])

theorem exec_atend {s : State} {area : Nat} {d : Fin 15} {n : Fin 4} {h : Fin 2} (hp : s.pair = none) (hctx : inContext s area)
    (hlo : goodAcc s (accLo n) = true) (hhi : goodAcc s (accHi n) = true) (hv : accValid (accOf s (accHi n)) = true)
    (hd : openV s.fib (Fin.castLE (by omega) d) = true) (hd1 : openV s.fib ⟨d.val + 1, by omega⟩ = true) :
    exec (.atend d n h) s = .next (goOn { s with fib := (putV
      (putV s.fib (Fin.castLE (by omega) d) (vecOf fun i : Fin 16 => quotientOf (accOf s (accLo n)) (accOf s (accHi n)) h i.val))
      ⟨d.val + 1, by omega⟩ (vecOf fun i : Fin 16 => quotientOf (accOf s (accLo n)) (accOf s (accHi n)) h (16 + i.val))) }) := by
  refine done_of_unit ?_ hp
  rw [run_bind_ok (run_needAttention hctx hlo hhi), run_bind_ok (run_rdState hlo hhi hv)]
  exact (run_bind_ok (run_resultV _ hp hd)).trans (run_resultV _ hp ((openV_putV ..).trans hd1))

/-- Settles O45: the claims of the pair and its VALID come first; `advanceRun` makes the advances one by one, and what is left is one write of
each accumulator or vector register. -/
theorem attention : Obligations.Attention := by
  unfold Obligations.Attention
  refine ⟨fun s a d b r n h hp hacc => ?_, fun s area a d b r n h hp hctx hlo hhi ha hb hr => ⟨fun hd => ?_, fun hd hq => ?_, fun hd hq hrope => ?_,
    fun hv => ?_, fun hv => ⟨fun moves run hmoves hin => ?_, fun hd hd1 => ?_⟩⟩⟩
  · have htrap : unclaimed (0x40 + 2 * n.val) = BitVec.ofNat 64 (0x140 + 2 * n.val) := congrArg (BitVec.ofNat 64) (by omega)
    rw [← htrap]
    exact ⟨performSeq_attention_unclaimed hp hacc, performSeq_attention_unclaimed hp hacc, performSeq_attention_unclaimed hp hacc⟩
  · exact exec_atbeg_empty hp hctx hlo hhi ha hb hd
  · exact exec_atbeg_position hp hctx hlo hhi ha hb hd hq
  · exact ⟨_, _, exec_atbeg hp hctx hlo hhi ha hb hd hq hrope, beginLo_widenRow (pairBytes_length s a), beginHi_slots _ _ _ _⟩
  · exact ⟨performSeq_state_invalid hp hctx hlo hhi hv, performSeq_state_invalid hp hctx hlo hhi hv⟩
  · have hclean := recordsClean_of_context hctx
    rw [← accOwn_eq_extractLsb'] at hin
    obtain ⟨hrun, hframe⟩ := run_advanceRun hclean (accOwn_lt _) moves 256 _ hmoves (runFrom_frame_lt _) hin
    have hexec := exec_atstep_advanced (r := r) hctx hlo hhi hv hrun
    exact ⟨fun hend => hexec.trans (performSeq_stepTail_ended hp hr hend),
      fun hphase _ hkv ks hks => hexec.trans (performSeq_stepTail_keys hp hr hclean hframe hphase hkv hks)⟩
  · exact exec_atend hp hctx hlo hhi hv hd hd1

end Sys2Proof
end

