-- ==== Sys2Proof/Proofs/SamplingRules.lean ====
section
/-!
SUPPORT. The sampling instructions: O47.
-/
namespace Sys2Proof
open Machine Safety

/-! ## `rngx` (R289) -/

theorem toNat_xor_shift (y : Word) (n : Nat) : (y ^^^ (y >>> n)).toNat = y.toNat ^^^ (y.toNat / 2 ^ n) := by
  rw [BitVec.toNat_xor, BitVec.toNat_ushiftRight, Nat.shiftRight_eq_div_pow]

theorem toNat_mul_const (x : Word) (k : Nat) : (x * BitVec.ofNat 64 k).toNat = x.toNat * k % 2 ^ 64 := by
  rw [BitVec.toNat_mul, BitVec.toNat_ofNat, Nat.mul_mod_mod]

/-- One round of the generator, with its product left open. -/
theorem toNat_mix {y : Word} {x : Nat} (n k : Nat) (h : y.toNat = x) : ((y ^^^ (y >>> n)) * BitVec.ofNat 64 k).toNat = (x ^^^ (x / 2 ^ n)) * k % 2 ^ 64 := by
  rw [toNat_mul_const, toNat_xor_shift, h]

theorem toNat_weyl (a b : Word) (k : Nat) : (a ^^^ ((b + 1) * BitVec.ofNat 64 k)).toNat = (a.toNat ^^^ ((b.toNat + 1) * k % 2 ^ 64)) % 2 ^ 64 := by
  have hprod : ((b + 1) * BitVec.ofNat 64 k).toNat = (b.toNat + 1) * k % 2 ^ 64 := by
    rw [toNat_mul_const, BitVec.toNat_add, Nat.mod_mul_mod, show (1 : Word).toNat = 1 from rfl]
  rw [← Nat.mod_eq_of_lt (BitVec.isLt _), BitVec.toNat_xor, hprod]

/-- The generator with its three constants left open. -/
def mixWith (k l m : Nat) (a b : Word) : Word :=
  let x := a ^^^ ((b + 1) * BitVec.ofNat 64 k)
  let y := (x ^^^ (x >>> 30)) * BitVec.ofNat 64 l
  let z := (y ^^^ (y >>> 27)) * BitVec.ofNat 64 m
  z ^^^ (z >>> 31)

theorem rngMix_eq_mixWith (a b : Word) : rngMix a b = mixWith 0x9E3779B97F4A7C15 0xBF58476D1CE4E5B9 0x94D049BB133111EB a b := rfl

theorem mixWith_eq (k l m : Nat) (a b : Word) :
    let x := (a.toNat ^^^ ((b.toNat + 1) * k % 2 ^ 64)) % 2 ^ 64
    let y := (x ^^^ (x / 2 ^ 30)) * l % 2 ^ 64
    let z := (y ^^^ (y / 2 ^ 27)) * m % 2 ^ 64
    mixWith k l m a b = BitVec.ofNat 64 (z ^^^ (z / 2 ^ 31)) := by
  intro x y z
  have hz := toNat_mix 27 m (toNat_mix 30 l (toNat_weyl a b k))
  have hzlt : z < 2 ^ 64 := Nat.mod_lt _ (Nat.two_pow_pos 64)
  have hlt : z ^^^ (z / 2 ^ 31) < 2 ^ 64 := Nat.xor_lt_two_pow hzlt (Nat.lt_of_le_of_lt (Nat.div_le_self ..) hzlt)
  refine BitVec.eq_of_toNat_eq ?_
  rw [mixWith, toNat_xor_shift, hz, BitVec.toNat_ofNat, Nat.mod_eq_of_lt hlt]

theorem exec_rngx {s : State} {d a : SReg} {b : SrcB} (hp : s.pair = none) (ha : plainS s.fib a = true) (hb : plainB s.fib b = true)
    (hd : openS s.fib d = true) : exec (.rngx d a b) s = .next (doneS s d (rngMix (regVal s.fib a) (valB s.fib b))) := by
  refine done_of_result ?_ hp hd
  rw [run_bind_ok (rd_of_plain ha), run_bind_ok (rdB_of_plain hb)]

/-! ## How many lanes pass in a row (R292) -/

section
variable {α : Type} {p : α → Bool}

theorem takeWhile_length_spec (l : List α) : (l.takeWhile p).length ≤ l.length ∧ (∀ (i : Nat) (h : i < l.length), i < (l.takeWhile p).length → p l[i] = true)
    ∧ ∀ h : (l.takeWhile p).length < l.length, p l[(l.takeWhile p).length] = false := by
  induction l with
  | nil => simp
  | cons a l ih =>
    obtain ⟨hle, hpass, hstop⟩ := ih
    cases ha : p a with
    | false => simp [ha]
    | true =>
      rw [List.takeWhile_cons_of_pos ha, List.length_cons]
      refine ⟨Nat.succ_le_succ hle, fun i h hi => ?_, fun h => hstop (Nat.lt_of_succ_lt_succ h)⟩
      cases i with
      | zero => exact ha
      | succ i => exact hpass i (Nat.lt_of_succ_lt_succ h) (Nat.lt_of_succ_lt_succ hi)

theorem takeWhile_length_eq (l : List α) (n : Nat) (hn : n ≤ l.length) (hpass : ∀ (i : Nat) (h : i < n), p l[i] = true)
    (hstop : ∀ h : n < l.length, p l[n] = false) : (l.takeWhile p).length = n := by
  obtain ⟨hle, hpass', hstop'⟩ := takeWhile_length_spec (p := p) l
  rcases Nat.lt_trichotomy (l.takeWhile p).length n with h | h | h
  · exact absurd (hpass _ h) (by simp [hstop' (by omega)])
  · exact h
  · exact absurd (hpass' n (by omega) h) (by simp [hstop (by omega)])

end

/-- `leading` is the number of the first n + 1 lanes that pass in a row. -/
theorem leading_spec (n : Fin 16) (ok : Fin 16 → Bool) : leading (n.val + 1) ok ≤ n.val + 1 ∧ (∀ i : Fin 16, i.val < leading (n.val + 1) ok → ok i = true)
    ∧ ∀ i : Fin 16, i.val = leading (n.val + 1) ok → leading (n.val + 1) ok ≤ n.val → ok i = false := by
  obtain ⟨hle, hpass, hstop⟩ := takeWhile_length_spec (p := ok) ((List.finRange 16).take (n.val + 1))
  have hlen : ((List.finRange 16).take (n.val + 1)).length = n.val + 1 := by rw [List.length_take, List.length_finRange]; omega
  have hget : ∀ (i : Nat) (h : i < ((List.finRange 16).take (n.val + 1)).length), ((List.finRange 16).take (n.val + 1))[i] = ⟨i, by omega⟩ := fun i h => by
    rw [List.getElem_take, List.getElem_finRange]; rfl
  refine ⟨hle.trans_eq hlen, fun i hi => ?_, fun i hi hn => ?_⟩
  · have := hpass i.val (Nat.lt_of_lt_of_le hi hle) hi
    rwa [hget] at this
  · have hlt : leading (n.val + 1) ok < ((List.finRange 16).take (n.val + 1)).length := by omega
    have hfail := hstop hlt
    exact (congrArg ok ((Fin.ext hi).trans (hget _ hlt).symm)).trans hfail

section
variable {s : State} {n : Fin 16} {d : SReg} {a b c : Fin 16} (hp : s.pair = none) (ha : plainV s.fib a = true) (hb : plainV s.fib b = true)
  (hd : openS s.fib d = true)
include hp ha hb hd

theorem exec_vaccptP (hc : plainV s.fib c = true) : exec (.vaccptP n d a b c) s = .next (doneS s d
    (BitVec.ofNat 64 (leading (n.val + 1) fun i => ltVal (prodF s.fib.v[c][i] s.fib.v[b][i]) (f32Val s.fib.v[a][i])))) := by
  refine done_of_result ?_ hp hd
  rw [run_bind_ok (rdV_of_plain ha), run_bind_ok (rdV_of_plain hb), run_bind_ok (rdV_of_plain hc)]
  rfl

theorem exec_vaccptE : exec (.vaccptE n d a b) s = .next (doneS s d
    (BitVec.ofNat 64 (leading (n.val + 1) fun i => s.fib.v[a][i] == s.fib.v[b][i]))) := by
  refine done_of_result ?_ hp hd
  rw [run_bind_ok (rdV_of_plain ha), run_bind_ok (rdV_of_plain hb)]
  rfl

end

/-! ## The K best (R290) -/

/-- The order of R290: by value descending, -0 equal to +0, then by id. -/
def ranked (e f : Lane × Lane) : Prop :=
  f32Key false f.1 < f32Key false e.1 ∨ (f32Key false f.1 = f32Key false e.1 ∧ e.2.toNat ≤ f.2.toNat)

theorem ranked_trans {e f g : Lane × Lane} (h : ranked e f) (k : ranked f g) : ranked e g := by
  unfold ranked at *
  omega

theorem ranked_of_ranksBefore {e f : Lane × Lane} (h : ranksBefore e f = true) : ranked e f := by
  simp only [ranksBefore, Bool.or_eq_true, Bool.and_eq_true, decide_eq_true_eq, beq_iff_eq] at h
  unfold ranked
  omega

theorem ranked_of_not_ranksBefore {e f : Lane × Lane} (h : ranksBefore e f = false) : ranked f e := by
  simp only [ranksBefore, Bool.or_eq_false_iff, Bool.and_eq_false_iff, decide_eq_false_iff_not, beq_eq_false_iff_ne] at h
  unfold ranked
  omega

theorem insertRank_perm (e : Lane × Lane) : ∀ l, (insertRank e l).Perm (e :: l)
  | [] => .refl _
  | f :: l => by
    rw [insertRank]
    split
    · exact .refl _
    · exact ((insertRank_perm e l).cons f).trans (.swap e f l)

theorem insertRank_ranked (e : Lane × Lane) : ∀ {l : List (Lane × Lane)}, l.Pairwise ranked → (insertRank e l).Pairwise ranked
  | [], _ => List.pairwise_singleton ranked e
  | f :: l, h => by
    obtain ⟨hf, hl⟩ := List.pairwise_cons.1 h
    rw [insertRank]
    split
    · next hbefore =>
      have hef := ranked_of_ranksBefore hbefore
      exact List.pairwise_cons.2 ⟨List.forall_mem_cons.2 ⟨hef, fun g hg => ranked_trans hef (hf g hg)⟩, h⟩
    · next hnot =>
      refine List.pairwise_cons.2 ⟨fun g hg => ?_, insertRank_ranked e hl⟩
      rcases List.mem_cons.1 ((insertRank_perm e l).mem_iff.1 hg) with rfl | hg
      · exact ranked_of_not_ranksBefore (Bool.eq_false_iff.2 hnot)
      · exact hf g hg

/-- Candidates put into their rank one by one. -/
theorem foldl_insertRank : ∀ (cand l : List (Lane × Lane)), l.Pairwise ranked →
    (cand.foldl (fun l e => insertRank e l) l).Perm (cand ++ l) ∧ (cand.foldl (fun l e => insertRank e l) l).Pairwise ranked
  | [], _, h => ⟨.refl _, h⟩
  | e :: cand, l, h => by
    obtain ⟨hperm, hranked⟩ := foldl_insertRank cand _ (insertRank_ranked e h)
    exact ⟨hperm.trans (((insertRank_perm e l).append_left cand).trans List.perm_middle), hranked⟩

theorem filter_lt_range (n : Nat) {k : Nat} (h : k ≤ n) : (List.range n).filter (fun j => decide (j < k)) = List.range k := by
  have hsplit : List.range n = List.range k ++ (List.range (n - k)).map (k + ·) := by rw [← List.range_add, Nat.add_sub_cancel' h]
  rw [hsplit, List.filter_append, List.filter_eq_self.2 fun j hj => decide_eq_true (List.mem_range.1 hj), List.filter_eq_nil_iff.2, List.append_nil]
  intro j hj
  obtain ⟨i, -, rfl⟩ := List.mem_map.1 hj
  simp

/-- The first k of n indexed elements. -/
theorem map_finRange_lt {α : Type} {n k : Nat} (h : k ≤ n) {f : Fin n → α} {g : Nat → α} (hfg : ∀ i, f i = g i.val) :
    ((List.finRange n).filter fun j => decide (j.val < k)).map f = (List.range k).map g := by
  have hrange := congrArg (List.filter fun j => decide (j < k)) (List.map_coe_finRange_eq_range (n := n))
  rw [List.filter_map, filter_lt_range n h] at hrange
  rw [← hrange, List.map_map]
  exact List.map_congr_left fun i _ => hfg i

/-- The kept entries and the new candidates (R290). -/
def candidates (k : Nat) (old new : VReg) (base cnt : Nat) : List (Lane × Lane) :=
  (((List.range k).map fun j => (old[Fin.ofNat 16 j], old[Fin.ofNat 16 (8 + j)]))
    ++ (List.range cnt).map fun i => (new[Fin.ofNat 16 i], BitVec.ofNat 32 (base + i))).filter fun e => decide (e.2 ≠ 0xFFFFFFFF ∧ isNan e.1 = false)

theorem kept_eq (e : Lane × Lane) : kept e = decide (e.2 ≠ 0xFFFFFFFF ∧ isNan e.1 = false) := by
  rw [Bool.eq_iff_iff, decide_eq_true_iff, kept, Bool.and_eq_true, bne_iff_ne, Bool.not_eq_true']
  rfl

theorem merged_candidates {k cnt : Nat} (hk : k ≤ 8) (hc : cnt ≤ 16) (old new : VReg) (base : Word) :
    (((List.finRange 8).filter fun j => j.val < k).map fun j => (old[(⟨j.val, by omega⟩ : Fin 16)], old[(⟨8 + j.val, by omega⟩ : Fin 16)])).filter kept
      ++ (((List.finRange 16).filter fun i => i.val < cnt).map fun i => (new[i], base.setWidth 32 + BitVec.ofNat 32 i.val)).filter kept
      = candidates k old new base.toNat cnt := by
  have hid : ∀ i : Nat, base.setWidth 32 + BitVec.ofNat 32 i = BitVec.ofNat 32 (base.toNat + i) := fun i => by
    rw [BitVec.ofNat_add]; rfl
  rw [map_finRange_lt hk (g := fun j => (old[Fin.ofNat 16 j], old[Fin.ofNat 16 (8 + j)])), map_finRange_lt hc
    (g := fun i => (new[Fin.ofNat 16 i], BitVec.ofNat 32 (base.toNat + i))), ← List.filter_append, candidates]
  · exact List.filter_congr fun e _ => kept_eq e
  · exact fun i => by simp only [hid, Fin.ofNat_val_eq_self]
  · intro i
    have h1 : (Fin.ofNat 16 i.val) = ⟨i.val, by omega⟩ := Fin.ext (Nat.mod_eq_of_lt (by omega))
    have h2 : (Fin.ofNat 16 (8 + i.val)) = ⟨8 + i.val, by omega⟩ := Fin.ext (Nat.mod_eq_of_lt (by omega))
    simp only [h1, h2]

theorem nth_take {α : Type} (l : List α) (k i : Nat) (d : α) : nth (l.take k) i d = if i < k then nth l i d else d := by
  rw [nth, List.getElem?_take]
  split <;> rfl

/-- The merged list of `vtopk`. -/
theorem topMerge_spec {k cnt : Nat} (hk : k ≤ 8) (hc : cnt ≤ 16) (old new : VReg) (base : Word) : ∃ l : List (Lane × Lane),
    l.Perm (candidates k old new base.toNat cnt) ∧ l.Pairwise ranked
    ∧ ∀ j : Fin 8, ((topMerge k old new (base.setWidth 32) cnt)[j.val], (topMerge k old new (base.setWidth 32) cnt)[8 + j.val])
        = if j.val < k then nth l j.val (0xFF800000, 0xFFFFFFFF) else (0xFF800000, 0xFFFFFFFF) := by
  obtain ⟨hperm, hranked⟩ := foldl_insertRank (candidates k old new base.toNat cnt) [] .nil
  refine ⟨_, by rwa [List.append_nil] at hperm, hranked, fun j => ?_⟩
  unfold topMerge
  dsimp only
  rw [merged_candidates hk hc, vecOf_get, vecOf_get]
  dsimp only
  rw [if_pos j.isLt, if_neg (by omega), Nat.add_sub_cancel_left, ← nth_take]
  rfl

theorem exec_vtopk {s : State} {k : Fin 8} {d : Fin 12} {a : Fin 16} {b : SrcB} {c : SReg} (hp : s.pair = none) (ha : plainV s.fib a = true)
    (hb : plainB s.fib b = true) (hc : plainS s.fib c = true) (hd : plainV s.fib (lowV d) = true) : exec (.vtopk k d a b c) s =
    .next (doneV s (lowV d) (topMerge (k.val + 1) s.fib.v[lowV d] s.fib.v[a] ((valB s.fib b).setWidth 32) (min (regVal s.fib c).toNat 16))) := by
  refine done_of_resultV ?_ hp (Bool.and_eq_true_iff.1 hd).1
  rw [run_bind_ok (rdV_of_plain ha), run_bind_ok (rdB_of_plain hb), run_bind_ok (rd_of_plain hc)]
  exact run_bind_ok (rdV_of_plain hd)

/-! ## The token drawn (R291) -/

/-- Token j of the list in a vector register: its value and its id. -/
def tokenVal (a : VReg) (j : Nat) : Lane := a[Fin.ofNat 16 j]
def tokenId (a : VReg) (j : Nat) : Lane := a[Fin.ofNat 16 (8 + j)]

/-- The list of eight tokens. -/
theorem token_lists (a : VReg) : (List.finRange 8).map (fun j => a[(⟨8 + j.val, by omega⟩ : Fin 16)]) = (List.range 8).map (tokenId a)
    ∧ (List.finRange 8).map (fun j => a[(⟨j.val, by omega⟩ : Fin 16)]) = (List.range 8).map (tokenVal a) := ⟨rfl, rfl⟩

theorem nth_map_range {α : Type} (f : Nat → α) {n j : Nat} (h : j < n) (d : α) : nth ((List.range n).map f) j d = f j := by
  rw [nth, List.getElem?_map, List.getElem?_range h]
  rfl

theorem nth_tokenId {a : VReg} {i j n : Nat} (h : i = j) (hj : j < n) (hn : n ≤ 8) : nth ((List.range 8).map (tokenId a)) i 0 = tokenId a j := by
  rw [h, nth_map_range _ (Nat.lt_of_lt_of_le hj hn)]

theorem sampleToken_none {a : VReg} {t : Lane} {c : Word} (h : tokenId a 0 = 0xFFFFFFFF) : sampleToken a t c = 0xFFFFFFFF := by
  obtain ⟨hids, -⟩ := token_lists a
  unfold sampleToken
  dsimp only
  rw [hids, if_pos]
  · rfl
  · exact takeWhile_length_eq _ 0 (Nat.zero_le _) (fun i h => absurd h (Nat.not_lt_zero i)) fun _ => by
      rw [List.getElem_map, List.getElem_range, h]; rfl

/-- n tokens stand before the first empty id. -/
theorem tokens_length {a : VReg} {n : Nat} (hn : n ≤ 8) (hids : ∀ j, j < n → tokenId a j ≠ 0xFFFFFFFF) (hstop : n < 8 → tokenId a n = 0xFFFFFFFF) :
    (((List.range 8).map (tokenId a)).takeWhile (· != noId)).length = n := by
  refine takeWhile_length_eq _ n (by simpa using hn) (fun i h => ?_) fun h => ?_
  · rw [List.getElem_map, List.getElem_range, bne_iff_ne]
    exact hids i h
  · rw [List.getElem_map, List.getElem_range, hstop (by simpa using h)]
    rfl

/-- The token of lowest index, where the temperature or the first value asks for no draw. -/
theorem sampleToken_greedy {a : VReg} {t : Lane} {c : Word} (hid : tokenId a 0 ≠ 0xFFFFFFFF)
    (h : (isNan t || isInfF t || !ltF 0 t || isInfF (tokenVal a 0)) = true) : sampleToken a t c = tokenId a 0 := by
  obtain ⟨hidl, hvall⟩ := token_lists a
  have hsome : (((List.range 8).map (tokenId a)).takeWhile (· != noId)).length ≠ 0 := by
    rw [List.range_succ_eq_map, List.map_cons, List.takeWhile_cons_of_pos (p := (· != noId)) (bne_iff_ne.2 hid)]
    exact Nat.succ_ne_zero _
  unfold sampleToken
  dsimp only
  rw [hidl, hvall, if_neg hsome, nth_map_range _ (by decide), nth_map_range _ (by decide), if_pos h]

/-- The weights and their sums from token i on. -/
theorem cumulate_map {v0 t : Lane} {val cum : Nat → Lane} : ∀ (n i : Nat) (x : Lane), cum i = f32Add .rne x (rnexp (divRne (f32Sub .rne (val i) v0) t)) →
    (∀ j, cum (j + 1) = f32Add .rne (cum j) (rnexp (divRne (f32Sub .rne (val (j + 1)) v0) t))) →
    cumulate v0 t ((List.range' i n).map val) x = (List.range' i n).map fun j => (rnexp (divRne (f32Sub .rne (val j) v0) t), cum j)
  | 0, _, _, _, _ => rfl
  | n + 1, i, x, hi, hnext => by
    rw [List.range'_succ, List.map_cons, List.map_cons, cumulate, ← hi, cumulate_map n (i + 1) (cum i) (hnext i) hnext]

theorem getLastD_filter_range {q : Nat → Bool} {j : Nat} (hj : q j = true) : ∀ n, j < n → (∀ i, j < i → i < n → q i = false) →
    ((List.range n).filter q).getLastD 0 = j
  | 0, h, _ => absurd h (Nat.not_lt_zero j)
  | n + 1, h, hlast => by
    rw [List.range_succ, List.filter_append]
    rcases Nat.lt_or_eq_of_le (Nat.le_of_lt_succ h) with h | rfl
    · rw [List.filter_cons_of_neg (by simp [hlast n h (Nat.lt_succ_self n)]), List.filter_nil, List.append_nil]
      exact getLastD_filter_range hj n h fun i hi hin => hlast i hi (Nat.lt_succ_of_lt hin)
    · rw [List.filter_cons_of_pos hj, List.filter_nil, List.getLastD_concat]

section
variable {p cum : Nat → Lane} {u : Lane} {n j : Nat} (hj : j < n)
include hj

/-- The first token whose cumulative weight exceeds the scaled random word. -/
theorem drawIndex_first (hlt : ltF u (cum j) = true) (hbefore : ∀ i, i < j → ltF u (cum i) = false) :
    drawIndex ((List.range n).map fun j => (p j, cum j)) u = j := by
  have hfind : ((List.range n).map fun j => (p j, cum j)).findIdx? (fun e => ltF u e.2) = some j := by
    rw [List.findIdx?_eq_some_iff_getElem]
    refine ⟨by simpa using hj, ?_, fun i hi => ?_⟩
    · rw [List.getElem_map, List.getElem_range]; exact hlt
    · rw [List.getElem_map, List.getElem_range, hbefore i hi]; exact Bool.false_ne_true
  rw [drawIndex, hfind]

/-- No cumulative weight exceeds it: the last token of nonzero weight. -/
theorem drawIndex_last (hnone : ∀ i, i < n → ltF u (cum i) = false) (hp : isZeroF (p j) = false) (hzero : ∀ i, j < i → i < n → isZeroF (p i) = true) :
    drawIndex ((List.range n).map fun j => (p j, cum j)) u = j := by
  have hfind : ((List.range n).map fun j => (p j, cum j)).findIdx? (fun e => ltF u e.2) = none := by
    rw [List.findIdx?_eq_none_iff]
    intro e he
    obtain ⟨i, hi, rfl⟩ := List.mem_map.1 he
    exact hnone i (List.mem_range.1 hi)
  have hfilter : (List.range n).filter (fun j => !isZeroF (nth ((List.range n).map fun j => (p j, cum j)) j (0, 0)).1)
      = (List.range n).filter fun j => !isZeroF (p j) := List.filter_congr fun i hi => by rw [nth_map_range _ (List.mem_range.1 hi)]
  rw [drawIndex, hfind]
  dsimp only
  rw [List.length_map, List.length_range, hfilter]
  exact getLastD_filter_range (by simp [hp]) n hj fun i hi hin => by simp [hzero i hi hin]

end

/-- A draw from n tokens, with their cumulative weights. -/
theorem sampleToken_drawn {a : VReg} {t : Lane} {c : Word} {n : Nat} (hn : n ≤ 8) (hpos : 0 < n) (hids : ∀ j, j < n → tokenId a j ≠ 0xFFFFFFFF)
    (hstop : n < 8 → tokenId a n = 0xFFFFFFFF) (h : (isNan t || isInfF t || !ltF 0 t || isInfF (tokenVal a 0)) = false) {cum : Nat → Lane}
    (h0 : cum 0 = f32Add .rne 0 (rnexp (divRne (f32Sub .rne (tokenVal a 0) (tokenVal a 0)) t)))
    (hnext : ∀ j, cum (j + 1) = f32Add .rne (cum j) (rnexp (divRne (f32Sub .rne (tokenVal a (j + 1)) (tokenVal a 0)) t))) :
    sampleToken a t c = nth ((List.range 8).map (tokenId a)) (drawIndex
      ((List.range n).map fun j => (rnexp (divRne (f32Sub .rne (tokenVal a j) (tokenVal a 0)) t), cum j))
      (roundVal .rne (mulVal (.fin false (bitsOf c 40 24) (-24)) (f32Val (cum (n - 1)))))) 0 := by
  obtain ⟨hidl, hvall⟩ := token_lists a
  have htake : ((List.range 8).map (tokenVal a)).take n = (List.range' 0 n).map (tokenVal a) := by
    rw [← List.map_take, List.take_range, Nat.min_eq_left hn, List.range_eq_range']
  have htotal : (((List.range n).map fun j => (rnexp (divRne (f32Sub .rne (tokenVal a j) (tokenVal a 0)) t), cum j)).map (·.2)).getLastD 0 = cum (n - 1) := by
    obtain ⟨m, rfl⟩ : ∃ m, n = m + 1 := ⟨n - 1, by omega⟩
    rw [List.map_map, List.range_succ, List.map_append, List.map_cons, List.map_nil, List.getLastD_concat]
    rfl
  unfold sampleToken
  dsimp only
  rw [hidl, hvall, tokens_length hn hids hstop, if_neg (by omega), nth_map_range (tokenVal a) (by decide), if_neg (Bool.eq_false_iff.1 h), htake,
    cumulate_map n 0 0 h0 hnext, ← List.range_eq_range', htotal]

/-- When the temperature and the first value ask for no draw. -/
theorem greedy_iff (t v : Lane) : (isNan t || isInfF t || !ltF 0 t || isInfF v) = true ↔
    isNan t = true ∨ t = 0x7F800000 ∨ t.msb = true ∨ t = 0 ∨ v = 0x7F800000 ∨ v = 0xFF800000 := by
  have hinf : ∀ x : Lane, isInfF x = true ↔ x = 0x7F800000 ∨ x = 0xFF800000 := fun x => by
    rw [isInfF, beq_iff_eq, ← BitVec.toNat_inj, ← BitVec.toNat_inj]
    have := x.isLt
    have hpos : (0x7F800000 : Lane).toNat = 0x7F800000 := rfl
    have hneg : (0xFF800000 : Lane).toNat = 0xFF800000 := rfl
    omega
  have hlt : isNan t = false → (ltF 0 t = false ↔ t.msb = true ∨ t = 0) := fun hnan => by
    have hzero : isNan 0 = false := by decide
    have hkey : f32Key false 0 = 0 := by decide
    have hmsb : t.msb = true ↔ 2 ^ 31 ≤ t.toNat := by rw [BitVec.msb_eq_decide, decide_eq_true_iff]
    rw [ltF, hnan, hzero, hkey, Bool.not_false, Bool.true_and, Bool.true_and, decide_eq_false_iff_not, f32Key, ← BitVec.toNat_inj (y := 0)]
    have := t.isLt
    cases hm : t.msb with
    | false =>
      have hlow : ¬ 2 ^ 31 ≤ t.toNat := fun h => absurd (hmsb.2 h) (by simp [hm])
      have hz : (0 : Lane).toNat = 0 := rfl
      simp only [Bool.false_eq_true, if_false, false_or]
      omega
    | true =>
      simp only [if_true, true_or, iff_true, Bool.false_eq_true, if_false]
      omega
  cases hnan : isNan t with
  | true => simp
  | false =>
    rw [Bool.false_or, Bool.or_eq_true, Bool.or_eq_true, Bool.not_eq_true', hlt hnan, hinf, hinf]
    have hneg : t = 0xFF800000 → t.msb = true := fun h => by rw [h]; rfl
    constructor
    · rintro (((h | h) | h | h) | h)
      · exact .inr (.inl h)
      · exact .inr (.inr (.inl (hneg h)))
      · exact .inr (.inr (.inl h))
      · exact .inr (.inr (.inr (.inl h)))
      · exact .inr (.inr (.inr (.inr h)))
    · rintro (h | h | h | h | h)
      · exact absurd h Bool.false_ne_true
      · exact .inl (.inl (.inl h))
      · exact .inl (.inr (.inl h))
      · exact .inl (.inr (.inr h))
      · exact .inr h

section
variable {s : State} {d : SReg} {a : Fin 16} {b : SrcB} {c : SReg} (hp : s.pair = none) (ha : plainV s.fib a = true) (hb : plainB s.fib b = true)
  (hc : plainS s.fib c = true) (hd : openS s.fib d = true)
include hp ha hb hc hd

theorem exec_vsamp {r : Lane} (hr : sampleToken s.fib.v[a] ((valB s.fib b).setWidth 32) (regVal s.fib c) = r) :
    exec (.vsamp d a b c) s = .next (doneS s d (r.zeroExtend 64)) := by
  refine done_of_result ?_ hp hd
  rw [run_bind_ok (rdV_of_plain ha), run_bind_ok (rdB_of_plain hb), run_bind_ok (rd_of_plain hc), hr]

end

/-! ## `vaccpt.ln` (R293) -/

section
variable {s : State} {area : Nat} {d : Fin 12} {a : SReg} (hp : s.pair = none) (hctx : inContext s area) (ha : plainS s.fib a = true)
  (hdepth : s.fib.fdepth ≠ 0)
include hp hctx ha hdepth

theorem exec_vaccptLn_beyond (h : frLen s area s.fib.fp.toNat ≤ (regVal s.fib a).toNat) : exec (.vaccptLn d a) s = .next (stackTrap s 6) := by
  refine performSeq_stackFault ?_ hp
  rw [run_bind_ok (run_needContext hctx), run_bind_ok (rd_of_plain ha), run_bind_ok (run_topFrame hctx.2.2 hdepth), run_bind_ok (run_get s), if_pos h]

variable (hin : (regVal s.fib a).toNat < frLen s area s.fib.fp.toNat)
include hin

theorem exec_vaccptLn_laneless (h : frLaneh s area s.fib.fp.toNat = 0) : exec (.vaccptLn d a) s = .next (stackTrap s 7) := by
  refine performSeq_stackFault ?_ hp
  rw [run_bind_ok (run_needContext hctx), run_bind_ok (rd_of_plain ha), run_bind_ok (run_topFrame hctx.2.2 hdepth), run_bind_ok (run_get s),
    if_neg (Nat.not_le.2 hin), if_pos h]

theorem exec_vaccptLn {bs : List Byte} (hd : openV s.fib (lowV d) = true) (h : frLaneh s area s.fib.fp.toNat ≠ 0)
    (hlane : handleReason s (frLaneh s area s.fib.fp.toNat) (· == 2)
      (fun bound => decide (64 * (frSlot0 s area s.fib.fp.toNat + (regVal s.fib a).toNat + 1) ≤ bound * 65536)) = 0)
    (hread : tokenRead (laneOf s (frLaneh s area s.fib.fp.toNat)) (64 * (frSlot0 s area s.fib.fp.toNat + (regVal s.fib a).toNat)) 64 s = .ok (bs, s)) :
    exec (.vaccptLn d a) s = .next (doneV s (lowV d) (lanesOf bs)) := by
  refine done_of_resultV ?_ hp hd
  rw [run_bind_ok (run_needContext hctx), run_bind_ok (rd_of_plain ha), run_bind_ok (run_topFrame hctx.2.2 hdepth), run_bind_ok (run_get s),
    if_neg (Nat.not_le.2 hin), if_neg h]
  exact (run_bind_ok (run_laneTokens hlane)).trans ((run_bind_ok hread).trans rfl)

end

/-- Settles O47: each instruction reads plain operands and completes with one function of them; the lists of `vtopk` and the sums of `vsamp`
are described by induction on the tokens. -/
theorem sampling : Obligations.Sampling := by
  unfold Obligations.Sampling
  refine ⟨⟨fun s d a b hp ha hb hd => ?_, fun s n d a b c hp ha hb hc hd => ⟨⟨_, exec_vaccptP hp ha hb hd hc, ?_⟩, ⟨_, exec_vaccptE hp ha hb hd, ?_⟩⟩⟩,
    fun s k d a b c hp ha hb hc hd => ?_, fun s d a b c hp ha hb hc hd => ?_, fun s area d a hp hctx ha hdepth hd => ?_⟩
  · exact (exec_rngx hp ha hb hd).trans (congrArg (fun v => Host.Outcome.next (doneS s d v)) ((rngMix_eq_mixWith _ _).trans (mixWith_eq _ _ _ _ _)))
  · obtain ⟨hle, hpass, hstop⟩ := leading_spec n fun i => ltVal (prodF s.fib.v[c][i] s.fib.v[b][i]) (f32Val s.fib.v[a][i])
    exact ⟨hle, hpass, fun i hi hn => Bool.eq_false_iff.1 (hstop i hi hn)⟩
  · obtain ⟨hle, hpass, hstop⟩ := leading_spec n fun i => s.fib.v[a][i] == s.fib.v[b][i]
    exact ⟨hle, fun i hi => beq_iff_eq.1 (hpass i hi), fun i hi hn => beq_eq_false_iff_ne.1 (hstop i hi hn)⟩
  · obtain ⟨l, hperm, hranked, hlanes⟩ := topMerge_spec (k := k.val + 1) (by omega) (Nat.min_le_right (regVal s.fib c).toNat 16) s.fib.v[lowV d] s.fib.v[a] (valB s.fib b)
    exact ⟨l, _, hperm, hranked, hlanes, exec_vtopk hp ha hb hc hd⟩
  · have hexec := fun {r : Lane} => exec_vsamp (r := r) hp ha hb hc hd
    refine ⟨fun hid => hexec (sampleToken_none hid), fun hid hgreedy => hexec ?_, fun n hn hpos hids hstop hnan hinf hmsb hzero hv1 hv2 cum h0 hnext => ?_⟩
    · exact sampleToken_greedy hid ((greedy_iff _ _).2 hgreedy)
    · have hdraw := sampleToken_drawn (c := regVal s.fib c) hn hpos hids hstop (Bool.eq_false_iff.2 fun h => by
        rcases (greedy_iff _ _).1 h with h | h | h | h | h | h
        · exact absurd h (by simp [hnan])
        · exact hinf h
        · exact absurd h (by simp [hmsb])
        · exact hzero h
        · exact hv1 h
        · exact hv2 h) h0 hnext
      rw [bitsOf_eq_extractLsb'] at hdraw
      exact ⟨fun j hj hlt hbefore => hexec (hdraw.trans (nth_tokenId (drawIndex_first hj hlt hbefore) hj hn)), fun j hj hnone hp hlast =>
        hexec (hdraw.trans (nth_tokenId (drawIndex_last hj hnone (beq_eq_false_iff_ne.2 hp) fun i hi hin => beq_iff_eq.2 (hlast i hi hin)) hj hn))⟩
  · exact ⟨exec_vaccptLn_beyond hp hctx ha hdepth, exec_vaccptLn_laneless hp hctx ha hdepth,
      fun bs hin hh hlane hread => exec_vaccptLn hp hctx ha hdepth hin hd hh hlane hread⟩

end Sys2Proof
end

