-- ==== Sys2Proof/Proofs/EngineInstructions.lean ====
section
/-!
SUPPORT. Placing an engine command, and the queries of a chain: O34.
-/
namespace Sys2Proof
open Machine Safety

/-! ## Fields of a record made of fields -/

section
variable {n o m v : Nat} {l : List Byte}

theorem fieldAt_skip (h : n ≤ o) : fieldAt (bytesOf n v ++ l) o m = fieldAt l (o - n) m := by
  rw [fieldAt, fieldAt, List.drop_append, List.drop_eq_nil_of_le (by rwa [bytesOf_length]), bytesOf_length, List.nil_append]

theorem fieldAt_head : fieldAt (bytesOf n v ++ l) 0 n = v % 256 ^ n := by
  rw [fieldAt, List.drop_zero, List.take_left' (bytesOf_length n v), natOf_bytesOf]

theorem fieldAt_last : fieldAt (bytesOf n v) 0 n = v % 256 ^ n := by
  rw [← List.append_nil (bytesOf n v), fieldAt_head]

theorem fieldAt_lt (b : List Byte) : fieldAt b o n < 256 ^ n := by
  have := natOf_lt_two_pow (n := 8 * n) (l := (b.drop o).take n) (by simp)
  rwa [Nat.pow_mul] at this

end

/-! ## The checks (R203, R209, R211) -/

theorem serves_iff {eng kind : Nat} (hk : 1 ≤ kind ∧ kind ≤ 12) : serves eng kind = true ↔ engineServes eng kind := by
  rw [serves, engineServes]
  split
  · simp only [Bool.or_eq_true, beq_iff_eq, decide_eq_true_eq]
    omega
  · split
    · simp only [Bool.or_eq_true, beq_iff_eq]
      omega
    · simp only [Bool.or_eq_true, Bool.and_eq_true, beq_iff_eq, decide_eq_true_eq]
      omega

/-- A record whose class byte is not zero, or whose CTR names no counter word of the cluster (R203, log 38). -/
theorem engRecOk_fields {s : State} {kind : Nat} {b : List Byte}
    (h : fieldAt b 2 1 ≠ 0 ∨ fieldAt b 0x30 4 % 8 ≠ 0 ∨ fieldAt b 0x30 4 ≥ 25165824) : engRecOk s kind (engRecOf b) = false := by
  refine Bool.eq_false_iff.2 fun hok => ?_
  simp only [engRecOk, Bool.and_eq_true, beq_iff_eq] at hok
  obtain ⟨⟨⟨⟨⟨⟨⟨hcls, -⟩, -⟩, -⟩, -⟩, hctr⟩, -⟩, -⟩ := hok
  simp only [ctrOk, Bool.and_eq_true, beq_iff_eq, decide_eq_true_eq] at hctr
  obtain ⟨⟨⟨halign, hlt⟩, -⟩, -⟩ := hctr
  rcases h with h | h | h
  · exact h hcls
  · exact h halign
  · exact absurd hlt (Nat.not_lt.2 h)

/-- The twelve engine instructions are one (R209). -/
theorem exec_engineInstr (s : State) (k : Fin 12) (sc : Scope) (d : SReg) (m : CRef) (v : Fin 16) :
    exec (engineInstr k sc d m v) s = performSeq (placeEngine s.fib (k.val + 1) sc d m v) s := by
  match k with
  | 0 | 1 | 2 | 3 | 4 | 5 | 6 | 7 | 8 | 9 | 10 | 11 => rfl

/-- What an engine instruction does that has passed its checks (R202, R210). -/
def placeTail (f : Fib) (kind : Nat) (sc : Scope) (d : SReg) (r : EngRec) (c : Chain) (hdr : Seg) : M Unit := do
  needTurn (.chain c.loc)
  release f (placeScope sc)
  afterOwn c.loc
  change fun t => placeCommand (newCommand t kind r c hdr (fillRecord t kind (scopeCode sc) r c.tail)) (selfAdder t) t
  result d c.tail

section
variable {s : State} {k : Fin 12} {sc : Scope} {d : SReg} {m : CRef} {v : Fin 16} (ha : plainS s.fib m.a = true)
include ha

theorem exec_engine_foreign {a : Nat} {t : State} (hp : s.pair = none)
    (hr : resolve m.sg (offC s.fib m) 64 64 (rightRd + rightWr + rightCtr) accStore s = .ok ([(a, 64)], t))
    (h : isSpad a = false ∨ homeOf a ≠ t.focus.1) : exec (engineInstr k sc d m v) s = .next (trapsWith s 6 (offC s.fib m)) := by
  rw [exec_engineInstr]
  refine performSeq_inTurn_traps ?_ hp
  rw [run_bind_ok (rdRef_of_plain ha)]
  refine run_bind_error ?_
  rw [readHeader, run_bind_ok hr, run_bind_ok (run_get t)]
  exact congrFun (if_pos h) t

variable {c : Chain} (hc : readHeader m.sg (offC s.fib m) s = .ok (c, s))
include hc

theorem chainKey_eq : chainKey m s = .chain c.loc := by
  rw [chainKey, run_bind_ok (rdRef_of_plain ha), hc]

theorem exec_engine_unserved (hp : s.pair = none) (h : ¬ engineServes c.eng (k.val + 1)) :
    exec (engineInstr k sc d m v) s = .next (trapsWith s 6 (offC s.fib m)) := by
  rw [exec_engineInstr]
  refine performSeq_inTurn_traps ?_ hp
  have hserves : serves c.eng (k.val + 1) = false := Bool.eq_false_iff.2 fun hs => h ((serves_iff ⟨by omega, by omega⟩).1 hs)
  rw [run_bind_ok (rdRef_of_plain ha), run_bind_ok hc, if_pos hserves]
  rfl

variable (hs : ¬ serves c.eng (k.val + 1) = false) (hv : plainV s.fib v = true)
include hs hv

theorem exec_engine_record (hp : s.pair = none) (h : engRecOk s (k.val + 1) (engRecOf (recordIn s v)) = false) :
    exec (engineInstr k sc d m v) s = .next (trapsWith s 6 (offC s.fib m)) := by
  rw [exec_engineInstr]
  refine performSeq_inTurn_traps ?_ hp
  rw [run_bind_ok (rdRef_of_plain ha), run_bind_ok hc, if_neg hs, run_bind_ok (rdV_of_plain hv), run_bind_ok (run_get s)]
  exact congrFun (if_pos h) s

variable (hok : ¬ engRecOk s (k.val + 1) (engRecOf (recordIn s v)) = false)
include hok

theorem exec_engine_range (hp : s.pair = none) {cause : Nat} {a : Word}
    (h : (engRanges s (k.val + 1) (engRecOf (recordIn s v)) s.fib.seg[m.sg]).findSome? (rangeFault s) = some (cause, a)) :
    exec (engineInstr k sc d m v) s = .next (trapsWith s cause a) := by
  rw [exec_engineInstr]
  refine performSeq_inTurn_traps ?_ hp
  rw [run_bind_ok (rdRef_of_plain ha), run_bind_ok hc, if_neg hs, run_bind_ok (rdV_of_plain hv), run_bind_ok (run_get s)]
  refine (congrFun (if_neg hok) s).trans ?_
  rw [recordIn] at h
  rw [h]
  rfl

variable (hrange : (engRanges s (k.val + 1) (engRecOf (recordIn s v)) s.fib.seg[m.sg]).findSome? (rangeFault s) = none)
include hrange

theorem exec_engine_guarded (hp : s.pair = none) (h : guardedReceiver s (k.val + 1) (engRecOf (recordIn s v)) = true) :
    exec (engineInstr k sc d m v) s = .next (trapsWith s 6 (offC s.fib m)) := by
  rw [exec_engineInstr]
  refine performSeq_inTurn_traps ?_ hp
  rw [run_bind_ok (rdRef_of_plain ha), run_bind_ok hc, if_neg hs, run_bind_ok (rdV_of_plain hv), run_bind_ok (run_get s)]
  refine (congrFun (if_neg hok) s).trans ?_
  rw [recordIn] at hrange h
  rw [hrange]
  dsimp only
  rw [if_pos h]
  rfl

variable (hg : guardedReceiver s (k.val + 1) (engRecOf (recordIn s v)) = false)
include hg

/-- The ring is full, or 128 commands of the core are in flight (R202). -/
theorem exec_engine_full (hp : s.pair = none) (h : (c.tail - c.seq).toNat ≥ 2 ^ c.log ∨ inFlight s s.focus.1 ≥ 128) :
    exec (engineInstr k sc d m v) s = .next (waitsFor s (.chain c.loc) .room) := by
  rw [exec_engineInstr, ← chainKey_eq ha hc]
  refine waits_inTurn ?_ hp
  rw [run_bind_ok (rdRef_of_plain ha), run_bind_ok hc, if_neg hs, run_bind_ok (rdV_of_plain hv), run_bind_ok (run_get s)]
  refine (congrFun (if_neg hok) s).trans ?_
  rw [recordIn] at hrange hg
  rw [hrange]
  dsimp only
  rw [if_neg (Bool.eq_false_iff.1 hg), if_pos h]
  rfl

theorem exec_engine_placing (h : ¬ ((c.tail - c.seq).toNat ≥ 2 ^ c.log ∨ inFlight s s.focus.1 ≥ 128)) :
    exec (engineInstr k sc d m v) s =
      performSeq (inTurn (chainKey m) (placeTail s.fib (k.val + 1) sc d (engRecOf (recordIn s v)) c s.fib.seg[m.sg])) s := by
  rw [exec_engineInstr]
  refine performSeq_inTurn_congr ?_
  rw [run_bind_ok (rdRef_of_plain ha), run_bind_ok hc, if_neg hs, run_bind_ok (rdV_of_plain hv), run_bind_ok (run_get s)]
  refine (congrFun (if_neg hok) s).trans ?_
  rw [recordIn] at hrange hg
  rw [hrange]
  dsimp only
  rw [if_neg (Bool.eq_false_iff.1 hg), if_neg h]
  rfl

end

/-! ## Placement (R202, R210) -/

section
variable {s : State} {kind : Nat} {sc : Scope} {d : SReg} {r : EngRec} {c : Chain} {hdr : Seg} {key : State → TurnKey}

theorem performSeq_placeTail_behind (hp : s.pair = none) (h : othersAhead s s.focus.1 (.chain c.loc) (fibIndex s.fib) = true) :
    performSeq (inTurn key (placeTail s.fib kind sc d r c hdr)) s = .next (waitsFor s (key s) .room) :=
  waits_inTurn (run_bind_error (if_pos h)) hp

variable (h : othersAhead s s.focus.1 (.chain c.loc) (fibIndex s.fib) = false)
include h

theorem run_needTurn_first : needTurn (.chain c.loc) s = .ok ((), s) := if_neg (by simp [h])

theorem performSeq_placeTail_publishes (hp : s.pair = none) (hpub : publishes s (placeScope sc) = none) :
    performSeq (inTurn key (placeTail s.fib kind sc d r c hdr)) s = .next (waitsFor { (publishFrom s (placeScope sc)).2 with fib := s.fib } (key s)
      (.publish (placeScope sc) (publishFrom s (placeScope sc)).1)) := by
  refine waits_inTurn_publish ?_ hp
  rw [placeTail, run_bind_ok (run_needTurn_first h)]
  exact run_bind_error ((run_release s.fib _ s).trans (by rw [hpub]))

theorem performSeq_placeTail {t : State} (hpub : publishes s (placeScope sc) = some t) :
    let w := correctRead (flushMsgs t t.focus.1 (homeOf c.loc)) c.loc 8
    let u := placed w (newCommand w kind r c hdr (fillRecord w kind (scopeCode sc) r c.tail))
    u.pair = none → openS u.fib d = true → performSeq (inTurn key (placeTail s.fib kind sc d r c hdr)) s = .next (doneS u d c.tail) := by
  intro w u hp hd
  refine done_inTurn ?_ hp hd
  rw [placeTail, run_bind_ok (run_needTurn_first h)]
  have hrelease : release s.fib (placeScope sc) s = .ok ((), t) := (run_release s.fib _ s).trans (by rw [hpub])
  exact (run_bind_ok hrelease).trans rfl

end

/-- The fields of the record of a new command that R203 names. -/
theorem fillRecord_fields (s : State) {kind sc : Nat} (hk : kind < 256) (hsc : sc < 256) (b : List Byte) (t : Word) :
    let x := fillRecord s kind sc (engRecOf b) t
    fieldAt x 0 1 = kind ∧ fieldAt x 1 1 = fieldAt b 1 1 ∧ fieldAt x 3 1 = sc ∧ fieldAt x 4 4 = fieldAt b 4 4 ∧ fieldAt x 0x28 8 = fieldAt b 0x28 8
      ∧ fieldAt x 0x30 4 = fieldAt b 0x30 4 ∧ fieldAt x 0x34 4 = fieldAt b 0x34 4 ∧ fieldAt x 0x38 8 = t.toNat % 2 ^ 23 * 2 ^ 32 := by
  intro x
  have hfield : ∀ o n, fieldAt b o n % 256 ^ n = fieldAt b o n := fun o n => Nat.mod_eq_of_lt (fieldAt_lt b)
  simp only [x, fillRecord, List.append_assoc]
  refine ⟨?_, ?_, ?_, ?_, ?_, ?_, ?_, ?_⟩
  · exact fieldAt_head.trans (Nat.mod_eq_of_lt hk)
  · exact ((fieldAt_skip (by decide)).trans fieldAt_head).trans (hfield 1 1)
  · simp (disch := decide) only [fieldAt_skip, Nat.reduceSub, fieldAt_head]
    exact Nat.mod_eq_of_lt hsc
  · simp (disch := decide) only [fieldAt_skip, Nat.reduceSub, fieldAt_head]
    exact hfield 4 4
  · simp (disch := decide) only [fieldAt_skip, Nat.reduceSub, fieldAt_head]
    exact hfield 0x28 8
  · simp (disch := decide) only [fieldAt_skip, Nat.reduceSub, fieldAt_head]
    exact hfield 0x30 4
  · simp (disch := decide) only [fieldAt_skip, Nat.reduceSub, fieldAt_head]
    exact hfield 0x34 4
  · simp (disch := decide) only [fieldAt_skip, Nat.reduceSub, fieldAt_last]
    exact Nat.mod_eq_of_lt (by omega)

/-! ## The queries (R220) -/

theorem exec_equery {s : State} {d : SReg} (hp : s.pair = none) (hd : openS s.fib d = true) :
    exec (.equery d) s = .next (doneS s d (BitVec.ofNat 64 (s.cmds.countP fun e => e.g == s.focus.1))) := by
  refine done_of_result ?_ hp hd
  rw [run_bind_ok (run_get s), inFlight, ← List.countP_eq_length_filter]
  rfl

theorem exec_equerySt {s : State} {d b : SReg} {m : CRef} {c : Chain} (hp : s.pair = none) (ha : plainS s.fib m.a = true) (hb : plainS s.fib b = true)
    (hd : openS s.fib d = true) (hc : readHeader m.sg (offC s.fib m) s = .ok (c, s)) :
    let t := (regVal s.fib b).toNat
    let a := c.ring + 64 * (t % 2 ^ c.log) + 0x38
    (coreBytes s s.focus.1 false a 8).all (fun x => !x.2) = true →
    let w := BitVec.ofNat 64 (natOf ((coreBytes s s.focus.1 false a 8).map (·.1)))
    exec (.equerySt d m b) s = .next (doneS (correctRead s a 8) d
      (if (w.extractLsb' 32 23).toNat = t % 2 ^ 23 ∧ t < c.tail.toNat then w else BitVec.allOnes 64)) := by
  intro t a hsound w
  have hhome := correctRead_home s a 8
  have hany : ¬ (coreBytes s s.focus.1 false a 8).any (·.2) = true := by
    simpa using hsound
  refine done_of_result ?_ (hhome.pair.trans hp) (hhome.fib ▸ hd)
  have hquery : queryStatus m b s = .ok (if (w.extractLsb' 32 23).toNat = t % 2 ^ 23 ∧ t < c.tail.toNat then w else BitVec.allOnes 64, correctRead s a 8) := by
    rw [queryStatus, run_bind_ok (rdRef_of_plain ha), run_bind_ok hc, run_bind_ok (rd_of_plain hb), run_bind_ok (run_get s)]
    refine (run_bind_ok (run_change _ s)).trans ((congrFun (if_neg hany) _).trans ?_)
    rw [← bitsOf_eq_extractLsb']
    by_cases hhit : bitsOf w 32 23 = t % 2 ^ 23 ∧ t < c.tail.toNat
    · rw [if_pos hhit]
      exact congrFun (if_neg fun h => h.elim (· hhit.1) (Nat.not_le.2 hhit.2 ·)) _
    · rw [if_neg hhit]
      exact congrFun (if_pos ((not_and_or.1 hhit).imp_right Nat.not_lt.1)) _
  exact run_bind_ok hquery

/-- Settles O34: the checks come in the order of R210; `placeTail` is what is left, a turn, a release and one placement. -/
theorem engineInstructions : Obligations.EngineInstructions := by
  unfold Obligations.EngineInstructions
  refine ⟨fun s k sc d m v hp ha => ⟨fun a t hr h => exec_engine_foreign ha hp hr h, fun c hc hv => ⟨exec_engine_unserved ha hc hp, fun hserves => ?_⟩⟩,
    fun s d hp hd => exec_equery hp hd, fun s d b m c hp ha hb hd hc => exec_equerySt hp ha hb hd hc⟩
  have hs : ¬ serves c.eng (k.val + 1) = false := fun h => Bool.eq_false_iff.1 h ((serves_iff ⟨by omega, by omega⟩).2 hserves)
  refine ⟨fun h => exec_engine_record ha hc hs hv hp (engRecOk_fields h), exec_engine_record ha hc hs hv hp,
    fun hok cause a => exec_engine_range ha hc hs hv (by simp [hok]) hp, fun hok hranges => ?_⟩
  have hok : ¬ engRecOk s (k.val + 1) (engRecOf (recordIn s v)) = false := by simp [hok]
  have hrange := List.findSome?_eq_none_iff.2 hranges
  refine ⟨exec_engine_guarded ha hc hs hv hok hrange hp, fun hg => ⟨fun hfull => ?_, fun hroom hpub => ?_, fun hroom t hpub => ?_⟩⟩
  · by_cases h : (c.tail - c.seq).toNat ≥ 2 ^ c.log ∨ inFlight s s.focus.1 ≥ 128
    · exact exec_engine_full ha hc hs hv hok hrange hg hp h
    · rw [exec_engine_placing ha hc hs hv hok hrange hg h, performSeq_placeTail_behind hp (hfull.elim (fun k => absurd (.inl k) h)
        fun k => k.elim (fun k => absurd (.inr k) h) id), chainKey_eq ha hc]
  · rw [exec_engine_placing ha hc hs hv hok hrange hg fun h => hroom (h.imp_right .inl),
      performSeq_placeTail_publishes (Bool.eq_false_iff.2 fun h => hroom (.inr (.inr h))) hp hpub, chainKey_eq ha hc]
    rfl
  · have hturn := Bool.eq_false_iff.2 fun h => hroom (.inr (.inr h))
    have hexec := exec_engine_placing (sc := sc) (d := d) ha hc hs hv hok hrange hg fun h => hroom (h.imp_right .inl)
    obtain ⟨h0, h1, h3, h4, h28, h30, h34, h38⟩ := fillRecord_fields (correctRead (flushMsgs t t.focus.1 (homeOf c.loc)) c.loc 8)
      (show k.val + 1 < 256 by omega) (show scopeCode sc < 256 by cases sc <;> decide) (recordIn s v) c.tail
    exact ⟨newCommand _ (k.val + 1) (engRecOf (recordIn s v)) c s.fib.seg[m.sg] _, rfl, rfl, rfl, rfl, rfl, rfl, rfl, rfl, rfl, rfl,
      h0, h1, h3, h4, h28, h30, h34, h38, fun hp hd => hexec.trans (performSeq_placeTail hturn hpub hp hd)⟩

end Sys2Proof
end

