-- ==== Sys2Proof/Proofs/GroupEvents.lean ====
section
/-!
SUPPORT. The arbiter, levelling, core moves, proxies, drains and sampler requests: O53.
-/
namespace Sys2Proof
open Machine Safety

/-! ## The arbiter (R306) -/

/-- What the arbiter of core g leaves: nothing but that core changes, no slot its fibre, no bound slot its owner, and slots 0 and 15 not at
all. -/
structure Handed (g : Nat) (s t : State) : Prop where
  cores : t = { s with cores := t.cores }
  others : ∀ h, h ≠ g → getCore t h = getCore s h
  arbiter : (getCore t g).arbiter = (getCore s g).arbiter
  slots : ∀ k : Fin 16, (getCore t g).slots[k].bound = (getCore s g).slots[k].bound ∧ (getCore t g).slots[k].ctx = (getCore s g).slots[k].ctx
    ∧ ((getCore s g).slots[k].bound = true → (getCore t g).slots[k].owner = (getCore s g).slots[k].owner)
  first : (getCore t g).slots[(0 : Fin 16)] = (getCore s g).slots[(0 : Fin 16)]
  last : (getCore t g).slots[(15 : Fin 16)] = (getCore s g).slots[(15 : Fin 16)]

section
variable {g : Nat} {s t u : State}

theorem Handed.refl (s : State) : Handed g s s := ⟨rfl, fun _ _ => rfl, rfl, fun _ => ⟨rfl, rfl, fun _ => rfl⟩, rfl, rfl⟩

theorem Handed.trans (h : Handed g s t) (k : Handed g t u) : Handed g s u where
  cores := k.cores.trans (congrArg (fun x : State => { x with cores := u.cores }) h.cores)
  others n hn := (k.others n hn).trans (h.others n hn)
  arbiter := k.arbiter.trans h.arbiter
  slots i := by
    obtain ⟨hb, hc, ho⟩ := h.slots i
    obtain ⟨kb, kc, ko⟩ := k.slots i
    exact ⟨kb.trans hb, kc.trans hc, fun hbound => (ko (hb.trans hbound)).trans (ho hbound)⟩
  first := k.first.trans h.first
  last := k.last.trans h.last

theorem Handed.foldl {α : Type} {f : State → α → State} : ∀ (l : List α), (∀ t, ∀ a ∈ l, Handed g t (f t a)) → ∀ s, Handed g s (l.foldl f s)
  | [], _, s => .refl s
  | a :: l, h, s => (h s a (.head l)).trans (Handed.foldl l (fun t b hb => h t b (.tail a hb)) (f s a))

/-- A change of the core that leaves its slots and the cycle of its arbiter. -/
theorem Handed.of_core {c : Core} (ha : c.arbiter = (getCore s g).arbiter) (hs : c.slots = (getCore s g).slots) : Handed g s (setCore s g c) where
  cores := rfl
  others n hn := getCore_setCore_ne s c hn
  arbiter := by rw [getCore_setCore_same, ha]
  slots i := by rw [getCore_setCore_same, hs]; exact ⟨rfl, rfl, fun _ => rfl⟩
  first := by rw [getCore_setCore_same, hs]
  last := by rw [getCore_setCore_same, hs]

theorem Handed.credit (cr : List (Nat × Int × Nat)) : Handed g s (setCore s g { getCore s g with credit := cr }) := .of_core rfl rfl

theorem ownSlot_keeps (sl : Slot) (h : BitVec 12) : (ownSlot sl h).bound = sl.bound ∧ (ownSlot sl h).ctx = sl.ctx
    ∧ (sl.bound = true → (ownSlot sl h).owner = sl.owner) := by
  rw [ownSlot]
  split
  · exact ⟨rfl, rfl, fun _ => rfl⟩
  · next hfree => exact ⟨rfl, rfl, fun hbound => absurd hbound hfree⟩

theorem Handed.setOwner {k : Fin 16} (hk : 1 ≤ k.val ∧ k.val ≤ 14) (h : Nat) : Handed g s (setOwner s g k h) where
  cores := rfl
  others n hn := getCore_setCore_ne s _ hn
  arbiter := by rw [Machine.setOwner, getCore_setCore_same]
  slots i := by
    rw [Machine.setOwner, getCore_setCore_same]
    dsimp only
    by_cases hi : k = i
    · subst hi
      have hset : ((getCore s g).slots.set k (ownSlot (getCore s g).slots[k] (BitVec.ofNat 12 h)))[k] = ownSlot (getCore s g).slots[k] (BitVec.ofNat 12 h) :=
        Vector.getElem_set_self _
      rw [hset]
      exact ownSlot_keeps _ _
    · have hset : ((getCore s g).slots.set k (ownSlot (getCore s g).slots[k] (BitVec.ofNat 12 h)))[i] = (getCore s g).slots[i] :=
        Vector.getElem_set_ne _ _ fun e => hi (Fin.ext e)
      rw [hset]
      exact ⟨rfl, rfl, fun _ => rfl⟩
  first := by
    rw [Machine.setOwner, getCore_setCore_same]
    exact Vector.getElem_set_ne k.isLt (by decide : (0 : Nat) < 16) (by omega)
  last := by
    rw [Machine.setOwner, getCore_setCore_same]
    exact Vector.getElem_set_ne k.isLt (by decide : (15 : Nat) < 16) (by omega)

theorem userSlots_range {k : Fin 16} (h : k ∈ userSlots s g) : 1 ≤ k.val ∧ k.val ≤ 14 := by
  have hk := (List.mem_filter.1 h).2
  simp only [Bool.or_eq_true, Bool.and_eq_true, decide_eq_true_eq, beq_iff_eq] at hk
  omega

theorem handed_takeSome {h : Nat} {p : State → Fin 16 → Bool} {ks : List (Fin 16)} (hks : ∀ k ∈ ks, 1 ≤ k.val ∧ k.val ≤ 14) (s : State) :
    Handed g s (takeSome g h p s ks) := by
  refine Handed.foldl ks (fun t k hk => ?_) s
  split
  · exact .setOwner (hks k hk) h
  · exact .refl t

theorem handed_takeUrgent (qs : List Nat) (s : State) : Handed g s (takeUrgent s g qs) := by
  refine Handed.foldl _ (fun t h _ => ?_) s
  exact (handed_takeSome (fun k hk => userSlots_range hk) t).trans (handed_takeSome (fun k hk => userSlots_range hk) _)

theorem handed_handOut (qs : List Nat) (s : State) : Handed g s (handOut s g qs) := by
  refine Handed.foldl _ (fun t k hk => ?_) s
  have hown : ∀ h, Handed g t (setOwner t g k h) := fun h => .setOwner (userSlots_range hk) h
  dsimp only
  split
  · exact .refl t
  · split
    · exact hown _
    · split
      · exact hown _
      · exact .refl t

theorem handed_moveOne (qs : List Nat) (s : State) : Handed g s (moveOne s g qs) := by
  unfold moveOne
  extract_lets c low to_ neg from_
  clear_value to_ from_
  split
  · split
    · next hfind => exact .setOwner (userSlots_range (List.mem_reverse.1 (List.mem_of_find?_eq_some hfind))) _
    · exact .refl s
  · exact .refl s

theorem arbitrate_waits (h : (getCore s g).rot ≠ 0 ∨ (getCore s g).arbiter = cycOf s g) : arbitrate s g = s := if_pos h

theorem arbitrate_acts (h1 : (getCore s g).rot = 0) (h2 : (getCore s g).arbiter ≠ cycOf s g) :
    Handed g (setCore s g { getCore s g with arbiter := cycOf s g }) (arbitrate s g) := by
  unfold arbitrate
  rw [if_neg (by rintro (h | h); exacts [h h1, h2 h])]
  extract_lets c0 t qs s1 low u e tot c cr s2
  have hurgent : Handed g t s1 := handed_takeUrgent qs t
  have hcredit : Handed g s1 s2 := .credit cr
  clear_value s2 s1
  exact ((hurgent.trans hcredit).trans (handed_handOut qs s2)).trans (handed_moveOne qs _)

/-- One act of the arbiter. -/
theorem arbitrate_spec (h1 : (getCore s g).rot = 0) (h2 : (getCore s g).arbiter ≠ cycOf s g) :
    arbitrate s g = { s with cores := (arbitrate s g).cores } ∧ (∀ h, h ≠ g → getCore (arbitrate s g) h = getCore s h)
      ∧ (getCore (arbitrate s g) g).arbiter = cycOf s g
      ∧ (∀ k : Fin 16, (getCore (arbitrate s g) g).slots[k].bound = (getCore s g).slots[k].bound
        ∧ (getCore (arbitrate s g) g).slots[k].ctx = (getCore s g).slots[k].ctx
        ∧ ((getCore s g).slots[k].bound = true → (getCore (arbitrate s g) g).slots[k].owner = (getCore s g).slots[k].owner))
      ∧ (getCore (arbitrate s g) g).slots[(0 : Fin 16)] = (getCore s g).slots[(0 : Fin 16)]
      ∧ (getCore (arbitrate s g) g).slots[(15 : Fin 16)] = (getCore s g).slots[(15 : Fin 16)] := by
  obtain ⟨hcores, hothers, harbiter, hslots, hfirst, hlast⟩ := arbitrate_acts h1 h2
  simp only [getCore_setCore_same] at harbiter hslots hfirst hlast
  exact ⟨hcores, fun h hn => (hothers h hn).trans (getCore_setCore_ne s _ hn), harbiter, hslots, hfirst, hlast⟩

end

/-! ## Load levelling (R316) -/

section
variable {s t : State} {c g h j k : Nat}

theorem shortest_congr {l : List Nat} (hlen : ∀ g, (getCore t g).level = (getCore s g).level) : shortest t l = shortest s l := by
  induction l with
  | nil => rfl
  | cons g l ih => simp only [shortest, ih, hlen]

theorem shortest_mem {j : Nat} : ∀ {l : List Nat}, shortest s l = some j → j ∈ l
  | g :: l, h => by
    rw [shortest] at h
    split at h
    · exact Option.some.inj h ▸ .head l
    · next i hi =>
      split at h
      · exact Option.some.inj h ▸ .head l
      · obtain rfl := Option.some.inj h
        exact .tail g (shortest_mem hi)

theorem neighbours_ne (h : j ∈ neighbours s c) : j ≠ c := by
  obtain ⟨hj, -⟩ := List.mem_filter.1 h
  obtain ⟨i, hi, rfl⟩ := List.mem_map.1 hj
  have hnear := (List.mem_filter.1 hi).2
  simp only [Bool.and_eq_true, Bool.or_eq_true, decide_eq_true_eq, beq_iff_eq, bne_iff_ne] at hnear
  omega

theorem markBalanced_level (s : State) (c g : Nat) : (getCore (markBalanced s c) g).level = (getCore s g).level := by
  by_cases h : g = c
  · subst h; rw [markBalanced, getCore_setCore_same]
  · rw [markBalanced, getCore_setCore_ne s _ h]

theorem markBalanced_kept (s : State) (c g : Nat) : (getCore (markBalanced s c) g).kept = (getCore s g).kept := by
  by_cases h : g = c
  · subst h; rw [markBalanced, getCore_setCore_same]
  · rw [markBalanced, getCore_setCore_ne s _ h]

theorem balanceDue_mark_same (s : State) (c : Nat) : balanceDue (markBalanced s c) c = false := by
  rw [balanceDue, cycOf, markBalanced, getCore_setCore_same]
  simp [cycOf]

theorem balanceDue_mark_ne (h : g ≠ c) : balanceDue (markBalanced s c) g = balanceDue s g := by
  rw [balanceDue, balanceDue, cycOf, cycOf, markBalanced, getCore_setCore_ne s _ h]

theorem shortest_mark (s : State) (c g : Nat) : shortest (markBalanced s c) (neighbours (markBalanced s c) g) = shortest s (neighbours s g) :=
  shortest_congr (markBalanced_level s c)

/-- The number of entries that move from core c to core j (R316, R317). -/
def movedCount (s : State) (c j : Nat) : Nat :=
  min (min (((getCore s c).level.length - (getCore s j).level.length) / 2) (64 - (getCore s j).level.length)) ((getCore s c).level.length - (getCore s c).kept)

/-- The n newest entries of core c stand in core j's list. -/
def entriesMoved (s : State) (c j n : Nat) : State :=
  let l := (getCore s c).level
  let s1 := setCore s c { getCore s c with level := l.take (l.length - n) }
  setCore s1 j { getCore s1 j with level := (getCore s j).level ++ l.drop (l.length - n) }

theorem moveEntries_eq (s : State) (c j : Nat) : moveEntries s c j = if movedCount s c j = 0 then s else entriesMoved s c j (movedCount s c j) := rfl

theorem moveEntries_spec (h : j ≠ c) :
    (getCore (moveEntries s c j) c).level = (getCore s c).level.take ((getCore s c).level.length - movedCount s c j)
      ∧ (getCore (moveEntries s c j) j).level = (getCore s j).level ++ (getCore s c).level.drop ((getCore s c).level.length - movedCount s c j)
      ∧ (getCore (moveEntries s c j) c).balanced = (getCore s c).balanced
      ∧ (∀ i, i ≠ c → i ≠ j → getCore (moveEntries s c j) i = getCore s i) ∧ moveEntries s c j = { s with cores := (moveEntries s c j).cores } := by
  rw [moveEntries_eq]
  split
  · next hzero =>
    rw [hzero, Nat.sub_zero, List.take_length, List.drop_length, List.append_nil]
    exact ⟨rfl, rfl, rfl, fun _ _ _ => rfl, rfl⟩
  · unfold entriesMoved
    refine ⟨?_, ?_, ?_, fun i hc hj => ?_, rfl⟩
    · rw [getCore_setCore_ne _ _ h.symm, getCore_setCore_same]
    · rw [getCore_setCore_same]
    · rw [getCore_setCore_ne _ _ h.symm, getCore_setCore_same]
    · rw [getCore_setCore_ne _ _ hj, getCore_setCore_ne _ _ hc]

theorem balanceChain_moves {fuel : Nat} (h : shortest s (neighbours s c) = some j) (hdue : balanceDue s j = false) :
    balanceChain (fuel + 1) s c = moveEntries s c j := by
  rw [balanceChain, h]
  dsimp only
  rw [if_neg (by simp [hdue])]

theorem balanceChain_after {fuel : Nat} (h : shortest s (neighbours s c) = some j) (hdue : balanceDue s j = true) :
    balanceChain (fuel + 1) s c = if (getCore (balanceChain fuel (markBalanced s j) j) c).level.length = (getCore s c).level.length
      then balanceChain fuel (balanceChain fuel (markBalanced s j) j) c else balanceChain fuel (markBalanced s j) j := by
  rw [balanceChain, h]
  dsimp only
  rw [if_pos hdue]

theorem levelBalance_idle (h : cycOf s g % 4096 ≠ 0 ∨ (getCore s g).balanced = cycOf s g) : levelBalance s g = s := by
  refine if_neg ?_
  simp only [balanceDue, Bool.and_eq_true, beq_iff_eq, bne_iff_ne]
  rintro ⟨h1, h2⟩
  exact h.elim (· h1) h2

theorem balanceDue_iff : balanceDue s g = true ↔ cycOf s g % 4096 = 0 ∧ (getCore s g).balanced ≠ cycOf s g := by
  rw [balanceDue, Bool.and_eq_true, beq_iff_eq, bne_iff_ne]

/-- No neighbour's own move is due. -/
theorem levelBalance_moves (hdue : balanceDue s g = true) (hidle : ∀ i ∈ neighbours s g, balanceDue s i = false)
    (hj : shortest s (neighbours s g) = some j) : levelBalance s g = moveEntries (markBalanced s g) g j := by
  have hmem := shortest_mem hj
  exact (if_pos hdue).trans (balanceChain_moves (fuel := 399) ((shortest_mark s g g).trans hj)
    ((balanceDue_mark_ne (neighbours_ne hmem)).trans (hidle j hmem)))

/-- The neighbour's own move is due and comes first. -/
theorem levelBalance_after (hdue : balanceDue s g = true) (hj : shortest s (neighbours s g) = some j) (hjdue : balanceDue s j = true)
    (hjg : j ≠ g) (hk : shortest s (neighbours s j) = some k) (hkdue : k = g ∨ balanceDue s k = false) :
    levelBalance s g = if (getCore (moveEntries (markBalanced (markBalanced s g) j) j k) g).level.length = (getCore s g).level.length
      then balanceChain 399 (moveEntries (markBalanced (markBalanced s g) j) j k) g else moveEntries (markBalanced (markBalanced s g) j) j k := by
  have hkj : k ≠ j := neighbours_ne (shortest_mem hk)
  have hfirst : balanceChain 399 (markBalanced (markBalanced s g) j) j = moveEntries (markBalanced (markBalanced s g) j) j k := by
    refine balanceChain_moves (fuel := 398) ((shortest_mark _ j j).trans ((shortest_mark s g j).trans hk)) ?_
    rw [balanceDue_mark_ne hkj]
    rcases Decidable.em (k = g) with rfl | hkg
    · exact balanceDue_mark_same s k
    · exact (balanceDue_mark_ne hkg).trans (hkdue.resolve_left hkg)
  refine (if_pos hdue).trans ((balanceChain_after (fuel := 399) ((shortest_mark s g g).trans hj) ((balanceDue_mark_ne hjg).trans hjdue)).trans ?_)
  rw [hfirst, markBalanced_level]

end

/-! ## Moves between stages (R335) -/

section
variable {s : State} {g k dst : Nat} {x : Kern}

theorem coreMove_unmarked (h : (getCore s g).mark = none) : coreMove s g = s := by rw [coreMove, h]

variable (hm : (getCore s g).mark = some (k, dst)) (hx : kernOf s k = some x)
include hm hx

theorem coreMove_early (h : moveReady s g k = false) : coreMove s g = s := by
  rw [coreMove, hm]
  dsimp only
  rw [hx]
  exact if_pos h

theorem coreMove_ready (h : moveReady s g k = true) : coreMove s g = match stageTable s x dst g with
    | .bytes tab u =>
      let s1 := freeAllOn u k g
      let grps := x.groups.map fun r => if r.stage = dst ∨ r.members.contains g = true then regroup s1 x r (movedMembers r g dst) else r
      let s2 := setKern (setCore s1 g { getCore s1 g with mark := none, kept := (getCore s1 g).level.length }) { x with groups := grps }
      (createSet x.segs tab k g dst (min (recNat tab 0 4) 7) s2).getD s2
    | .notYet t => onlyAsked s t
    | .refused t => t := by
  rw [coreMove, hm]
  dsimp only
  rw [hx]
  exact if_neg (by simp [h])

end

/-! ## Proxies (R347) -/

section
variable {s : State} {g e : Nat} {p : Proxy}

/-- The wake of entry e of core g that is on its way. -/
def proxyWake (s : State) (g e : Nat) : Option (Waiter × Option Word) := s.fired.find? fun f => f.1 == .proxy g e

theorem passProxy_eq (he : p.entry = e) : passProxy s g p =
    let q := { p with pg := p.pg + 1 }
    let s1 := removeWaiter { s with fired := s.fired.filter fun f => f.1 != .proxy g e } (.proxy g e)
    let t := beginRelease s1 g 2 (arrPlace s1 p.arr) p.inc (fibreAdder g p.fibre) false
    if p.last < p.pg + 1 then spendProxy t g q (some q.pg) else setProxyState (replaceProxy t g q) g e (some q.pg) 1 := by
  subst he
  rfl

variable (he : e < 16) (hfind : (getCore s g).proxies.find? (fun p => p.entry == e) = some p)
include he hfind

theorem proxyArrive_eq : proxyArrive s (16 * g + e) = match proxyWake s g e with
    | some (_, none) => spendProxy s g p none
    | some (_, some _) => passProxy s g p
    | none =>
      if !pathClear (clearPath s g p.arr) g p.arr then s else match readCounter (clearPath s g p.arr) p.arr with
        | (none, t) => spendProxy t g p none
        | (some x, t) => if reached x (proxyThr p) then passProxy t g p
          else if t.enrol.any fun f => f.who == .proxy g e then t else enrolWaiter t (.proxy g e) p.arr (proxyThr p) := by
  have hentry : p.entry = e := by simpa using List.find?_some hfind
  subst hentry
  rw [proxyArrive, show (16 * g + p.entry) / 16 = g by omega, show (16 * g + p.entry) % 16 = p.entry by omega, hfind]
  rfl

theorem proxyArrive_spent {w : Waiter} (h : proxyWake s g e = some (w, none)) : proxyArrive s (16 * g + e) = spendProxy s g p none := by
  rw [proxyArrive_eq he hfind, h]

theorem proxyArrive_woken {w : Waiter} {v : Word} (h : proxyWake s g e = some (w, some v)) : proxyArrive s (16 * g + e) = passProxy s g p := by
  rw [proxyArrive_eq he hfind, h]

variable (hw : proxyWake s g e = none)
include hw

theorem proxyArrive_blocked (h : pathClear (clearPath s g p.arr) g p.arr = false) : proxyArrive s (16 * g + e) = s := by
  rw [proxyArrive_eq he hfind, hw]
  dsimp only
  rw [if_pos (by rw [h]; rfl)]

variable (hclear : pathClear (clearPath s g p.arr) g p.arr = true) (hlatent : (clearPath s g p.arr).latent = [])
include hclear hlatent

theorem proxyArrive_tests : proxyArrive s (16 * g + e) = match (if isToxic (clearPath s g p.arr) p.arr
      then (none, poisonEvent (clearPath s g p.arr) p.arr) else (some (readWord (clearPath s g p.arr) p.arr), clearPath s g p.arr)) with
    | (none, t) => spendProxy t g p none
    | (some x, t) => if reached x (proxyThr p) then passProxy t g p
      else if t.enrol.any fun f => f.who == .proxy g e then t else enrolWaiter t (.proxy g e) p.arr (proxyThr p) := by
  have hclean : correctRead (clearPath s g p.arr) p.arr 8 = clearPath s g p.arr := correctRead_clean fun w hw => by simp [hlatent] at hw
  rw [proxyArrive_eq he hfind, hw]
  dsimp only
  rw [if_neg (by simp [hclear]), readCounter, hclean]

theorem proxyArrive_poisoned (h : isToxic (clearPath s g p.arr) p.arr = true) :
    proxyArrive s (16 * g + e) = spendProxy (poisonEvent (clearPath s g p.arr) p.arr) g p none := by
  rw [proxyArrive_tests he hfind hw hclear hlatent, if_pos h]

variable (hsound : isToxic (clearPath s g p.arr) p.arr = false)
include hsound

theorem proxyArrive_reached (h : reached (readWord (clearPath s g p.arr) p.arr) (proxyThr p) = true) :
    proxyArrive s (16 * g + e) = passProxy (clearPath s g p.arr) g p := by
  rw [proxyArrive_tests he hfind hw hclear hlatent, if_neg (by simp [hsound])]
  exact if_pos h

theorem proxyArrive_early (h : reached (readWord (clearPath s g p.arr) p.arr) (proxyThr p) = false) :
    proxyArrive s (16 * g + e) = if (clearPath s g p.arr).enrol.any (fun f => f.who == .proxy g e) then clearPath s g p.arr
      else enrolWaiter (clearPath s g p.arr) (.proxy g e) p.arr (proxyThr p) := by
  rw [proxyArrive_tests he hfind hw hclear hlatent, if_neg (by simp [hsound])]
  exact if_neg (by simp [h])

end

/-! ## Drains (R350) -/

section
variable {s : State} {k stage : Nat} {mod : Bool}

theorem holdStart_holds (h1 : anyDrain s k stage = true) (h2 : ∃ gs ∈ drainSets s k stage mod, idleAnd s k gs = true)
    (h3 : s.holds.contains (k, stage, mod) = false) : holdStart s k stage mod = { s with holds := s.holds ++ [(k, stage, mod)] } :=
  if_pos (by rw [h1, h3, List.any_eq_true.2 h2]; rfl)

theorem holdStart_waits (h : anyDrain s k stage = false ∨ ∀ gs ∈ drainSets s k stage mod, idleAnd s k gs = false) : holdStart s k stage mod = s := by
  refine if_neg ?_
  simp only [Bool.and_eq_true, List.any_eq_true]
  rintro ⟨⟨h1, gs, hgs, hidle⟩, -⟩
  rcases h with h | h
  · exact Bool.false_ne_true (h.symm.trans h1)
  · exact Bool.false_ne_true ((h gs hgs).symm.trans hidle)

theorem drainRelease_unheld (h : s.holds.contains (k, stage, mod) = false) : drainRelease s k stage mod = s := if_neg (by rw [h]; exact Bool.false_ne_true)

theorem drainRelease_flight (h : inFlightTo s (drainCores s k stage) = true) : drainRelease s k stage mod = s := if_neg (by simp [h])

theorem drainRelease_releases {gs : List Nat} (h1 : s.holds.contains (k, stage, mod) = true) (h2 : inFlightTo s (drainCores s k stage) = false)
    (h3 : drainSets s k stage mod = [gs]) (h4 : idleAnd s k gs = true) :
    let order := ((s.rises.filter fun r => r.1 == (k, stage, true)).map (·.2)).filter fun g => gs.contains g
    let t := releaseSet s k mod gs (order.getLastD 0)
    drainRelease s k stage mod = { t with holds := t.holds.filter fun h => h != (k, stage, mod) } := by
  intro order t
  have hset : (drainSets s k stage mod).foldl (fun t gs => if idleAnd s k gs then releaseSet t k mod gs
      ((((s.rises.filter fun r => r.1 == (k, stage, true)).map (·.2)).filter fun g => gs.contains g).getLastD 0) else t) s = t := by
    rw [h3]
    exact if_pos h4
  rw [drainRelease, if_pos (by rw [h1, h2]; rfl)]
  dsimp only
  rw [hset]

end

/-! ## Sampler requests (R285) -/

section
variable {s : State} {g : Nat}

/-- No request fibre of core g is left, nor a release of one (R286). -/
def requestFree (s : State) (g : Nat) : Prop := look (getCore s g).fibres 4095 = none ∧ ∀ r ∈ s.rels, r.g ≠ g ∨ r.who ≠ fibreAdder g 4095

theorem requestFree_iff : requestFree s g ↔
    (look (getCore s g).fibres 4095).isNone = true ∧ (!s.rels.any (fun r => r.g == g && r.who == fibreAdder g 4095)) = true := by
  rw [requestFree, Option.isNone_iff_eq_none, Bool.not_eq_true', List.any_eq_false]
  refine and_congr_right fun _ => forall₂_congr fun r _ => ?_
  rw [Bool.and_eq_true, beq_iff_eq, beq_iff_eq, not_and_or]

theorem samplerStart_starts {x : Kern} {h : Word} {loc : Nat} (hx : sampKernel s g = some x) (hr : reservedOf s x.id g = some (h, loc))
    (hreq : (getCore s g).request = none) (hfree : requestFree s g) (hblock : sampBlockOk s g = true) (hsound : isToxic s (spadLoc g 0x1FF00) = false)
    (hgo : reached (readWord s (spadLoc g 0x1FF00)) (readWord s (spadLoc g 0x1FF08) + 1) = true) :
    samplerStart s g = startRequest s g (readWord s (spadLoc g 0x1FF08)).toNat x h loc := by
  obtain ⟨hfib, hrels⟩ := requestFree_iff.1 hfree
  rw [samplerStart, hx]
  dsimp only [Option.bind]
  rw [hr, hreq]
  exact if_pos (by rw [hfib, hrels, hblock, hsound, hgo]; rfl)

theorem samplerStart_waits (h : sampKernel s g = none ∨ (getCore s g).request ≠ none ∨ ¬ requestFree s g
    ∨ reached (readWord s (spadLoc g 0x1FF00)) (readWord s (spadLoc g 0x1FF08) + 1) = false) : samplerStart s g = s := by
  unfold samplerStart
  extract_lets c n
  split
  · next x hk loc hbind hreq =>
    refine if_neg ?_
    simp only [Bool.and_eq_true]
    rintro ⟨⟨⟨⟨hfib, hrels⟩, -⟩, -⟩, hgo⟩
    rcases h with h | h | h | h
    · rw [h] at hbind
      cases hbind
    · exact h hreq
    · exact h (requestFree_iff.2 ⟨hfib, hrels⟩)
    · exact Bool.false_ne_true (h.symm.trans hgo)
  · rfl

end

/-- Settles O53: each event is one function of the model, described case by case; the arbiter's folds keep `Handed`. -/
theorem groupEvents : Obligations.GroupEvents := by
  unfold Obligations.GroupEvents
  refine ⟨fun s g => ⟨fun h => ?_, fun h1 h2 => ?_, fun h => ?_, fun h1 h2 hidle j hj => ?_, fun j k hdue hj hjdue hjg hk hkdue => ?_, fun h => ?_,
      fun k dst x hm hx => ?_⟩, fun s g e p he hfind => ?_, fun s k stage mod => ⟨fun h1 h2 h3 => ?_, fun h => ?_, fun h => ?_, fun h => ?_,
      fun gs h1 h2 h3 h4 => ?_⟩, fun s g x h loc => ⟨fun hx hr hreq hfree hblock hsound hgo => ?_, fun h => ?_⟩⟩
  · exact congrArg Host.Outcome.next (arbitrate_waits h)
  · exact ⟨_, rfl, arbitrate_spec h1 h2⟩
  · exact congrArg Host.Outcome.next (levelBalance_idle h)
  · have hmove := levelBalance_moves (balanceDue_iff.2 ⟨h1, h2⟩) hidle hj
    obtain ⟨hlevel, htail, hbalanced, hothers, hcores⟩ := moveEntries_spec (s := markBalanced s g) (neighbours_ne (shortest_mem hj))
    rw [movedCount, markBalanced_level, markBalanced_level, markBalanced_kept] at hlevel htail
    refine ⟨_, congrArg Host.Outcome.next hmove, hlevel, htail, hbalanced.trans ?_, fun i hg hij => (hothers i hg hij).trans (getCore_setCore_ne s _ hg), hcores⟩
    rw [markBalanced, getCore_setCore_same]
  · have hafter := levelBalance_after hdue hj hjdue hjg hk hkdue
    exact ⟨fun h => congrArg Host.Outcome.next (hafter.trans (if_neg h)),
      fun i hlen hi hidue => congrArg Host.Outcome.next (hafter.trans ((if_pos hlen).trans (balanceChain_moves (fuel := 398) hi hidue)))⟩
  · exact congrArg Host.Outcome.next (coreMove_unmarked h)
  · refine ⟨fun h => congrArg Host.Outcome.next (coreMove_early hm hx h), fun t h ht => ?_, fun t h ht => ?_, fun tab s1 h ht => ?_⟩
    · exact congrArg Host.Outcome.next ((coreMove_ready hm hx h).trans (by rw [ht]; rfl))
    · exact congrArg Host.Outcome.next ((coreMove_ready hm hx h).trans (by rw [ht]))
    · intro t grps u v hv
      refine congrArg Host.Outcome.next ((coreMove_ready hm hx h).trans ?_)
      rw [ht]
      exact congrArg (fun o => o.getD u) hv
  · have hentry : p.entry = e := by simpa using List.find?_some hfind
    refine ⟨fun w hw => congrArg Host.Outcome.next (proxyArrive_spent he hfind hw),
      fun w v hw => congrArg Host.Outcome.next ((proxyArrive_woken he hfind hw).trans (passProxy_eq hentry)), fun hw =>
      ⟨fun h => congrArg Host.Outcome.next (proxyArrive_blocked he hfind hw h), fun hclear hlatent =>
        ⟨fun h => congrArg Host.Outcome.next (proxyArrive_poisoned he hfind hw hclear hlatent h),
        fun hsound h => congrArg Host.Outcome.next ((proxyArrive_reached he hfind hw hclear hlatent hsound h).trans (passProxy_eq hentry)),
        fun hsound h => congrArg Host.Outcome.next (proxyArrive_early he hfind hw hclear hlatent hsound h)⟩⟩⟩
  · exact congrArg Host.Outcome.next (holdStart_holds h1 h2 h3)
  · exact congrArg Host.Outcome.next (holdStart_waits h)
  · exact congrArg Host.Outcome.next (drainRelease_unheld h)
  · exact congrArg Host.Outcome.next (drainRelease_flight h)
  · exact congrArg Host.Outcome.next (drainRelease_releases h1 h2 h3 h4)
  · exact congrArg Host.Outcome.next (samplerStart_starts hx hr hreq hfree hblock hsound hgo)
  · exact congrArg Host.Outcome.next (samplerStart_waits h)

end Sys2Proof
end

