-- ==== Sys2Proof/Proofs/QueueEventRules.lean ====
section
/-!
SUPPORT. A queue opens, wakes, binds, unbinds, closes, and its records are read: O51.
-/
namespace Sys2Proof
open Machine Safety

/-! ## NOTIFY as the scheduler finds it (R102, R303) -/

section
variable {s : State} {a : Nat} (hlatent : s.latent = [])
include hlatent

theorem readCounter_sound (h : isToxic s a = false) : readCounter s a = (some (readWord s a), s) := by
  have hclean : correctRead s a 8 = s := correctRead_clean fun w hw => by simp [hlatent] at hw
  rw [readCounter, hclean, if_neg (by simp [h])]

theorem readCounter_toxic (h : isToxic s a = true) : readCounter s a = (none, poisonEvent s a) := by
  have hclean : correctRead s a 8 = s := correctRead_clean fun w hw => by simp [hlatent] at hw
  rw [readCounter, hclean, if_pos h]

variable {q : Nat} (hq : qNotify s q = some a)
include hq

theorem seenAtOpen_sound (h : isToxic s a = false) : seenAtOpen s q = (readWord s a, s) := by
  rw [seenAtOpen, hq]
  dsimp only
  rw [readCounter_sound hlatent h]

theorem testNotify_sound (h : isToxic s a = false) : testNotify s q = (reached (readWord s a) (qSeen s q + 1), s) := by
  rw [testNotify, hq]
  dsimp only
  rw [readCounter_sound hlatent h]

theorem testNotify_toxic (h : isToxic s a = true) : testNotify s q = (false, poisonEvent s a) := by
  rw [testNotify, hq]
  dsimp only
  rw [readCounter_toxic hlatent h]

end

/-! ## Open and close (R296, R303) -/

section
variable {s : State} {q : Word}

theorem openQueue_number (h : 65536 ≤ q.toNat) : openQueue s q = s := if_neg fun k => absurd k.1 (Nat.not_lt.2 h)

theorem openQueue_opens (h1 : q.toNat < 65536) (h2 : qState s q.toNat = 0) (h3 : descOk s q.toNat = true) : openQueue s q =
    watchNotify (setQueue (writeWord (setQState (seenAtOpen s q.toNat).2 q.toNat 1) (qLoc q.toNat + 0x20) (seenAtOpen s q.toNat).1) { q := q.toNat }) q.toNat :=
  if_pos ⟨h1, h2, h3⟩

theorem openQueue_ignored (h : qState s q.toNat ≠ 0 ∨ descOk s q.toNat = false) : openQueue s q = s := by
  refine if_neg fun k => ?_
  obtain ⟨-, h2, h3⟩ := k
  exact h.elim (· h2) fun h => Bool.false_ne_true (h.symm.trans h3)

theorem closeQueue_number (h : 65536 ≤ q.toNat) : closeQueue s q = s := if_pos h

variable (hq : q.toNat < 65536)
include hq

theorem closeQueue_unbound (h : qState s q.toNat = 1 ∨ qState s q.toNat = 2) : closeQueue s q =
    { setQState { s with enrol := s.enrol.filter fun e => e.who != .notify q.toNat } q.toNat 0 with
      pending := s.pending.filter fun p => p != q.toNat, fired := s.fired.filter fun e => e.1 != .notify q.toNat } :=
  (if_neg (Nat.not_le.2 hq)).trans (if_pos h)

theorem closeQueue_bound (h : qState s q.toNat = 3 ∨ qState s q.toNat = 4) :
    closeQueue s q = setQueue s { queueOf s q.toNat with close := true } :=
  (if_neg (Nat.not_le.2 hq)).trans ((if_neg (by omega)).trans (if_pos h))

theorem closeQueue_closed (h : qState s q.toNat = 0) : closeQueue s q = s :=
  (if_neg (Nat.not_le.2 hq)).trans ((if_neg (by omega)).trans (if_neg (by omega)))

end

/-! ## Waking and binding (R303) -/

section
variable {s : State} {q h : Nat}

theorem wakeQueue_free (hd : qState s q = 1) (hf : freeSlotNo s = some h) : wakeQueue s q = bindQueue s q h := by
  rw [wakeQueue, if_neg (not_not.2 hd), hf]

section
variable {r : Nat} (hd : qState s q = 1) (hf : freeSlotNo s = none) (hr : oldestIdle s = some r)
include hd hf hr

theorem wakeQueue_unbinds (hu : freeSlotNo (retestQueue (startUnbind s r) r) = some h) :
    wakeQueue s q = bindQueue (retestQueue (startUnbind s r) r) q h := by
  rw [wakeQueue, if_neg (not_not.2 hd), hf]
  dsimp only
  rw [hr]
  dsimp only
  rw [hu]

theorem wakeQueue_behind (hu : freeSlotNo (retestQueue (startUnbind s r) r) = none) :
    wakeQueue s q = enqueuePending (retestQueue (startUnbind s r) r) q := by
  rw [wakeQueue, if_neg (not_not.2 hd), hf]
  dsimp only
  rw [hr]
  dsimp only
  rw [hu]

end

theorem wakeQueue_pends (hd : qState s q = 1) (hf : freeSlotNo s = none) (hr : oldestIdle s = none) : wakeQueue s q = enqueuePending s q := by
  rw [wakeQueue, if_neg (not_not.2 hd), hf]
  dsimp only
  rw [hr]

theorem notifyWakes_value {v : Word} (hw : s.fired.find? (fun e => e.1 == .notify q) = some (.notify q, some v)) :
    notifyWakes s q = wakeQueue { s with fired := s.fired.filter fun e => e.1 != .notify q } q := by
  rw [notifyWakes, hw]

theorem notifyWakes_none (hw : s.fired.find? (fun e => e.1 == .notify q) = some (.notify q, none)) (hd : qState s q = 1) :
    notifyWakes s q = watchNotify { s with fired := s.fired.filter fun e => e.1 != .notify q } q := by
  rw [notifyWakes, hw]
  exact if_pos hd

theorem slotFreed_binds {r : List Nat} (hp : s.pending = q :: r) (hf : freeSlotNo s = some h) : slotFreed s q = bindQueue s q h := by
  rw [slotFreed, hp, hf]
  exact if_pos rfl

theorem slotFreed_waits (h : s.pending = [] ∨ freeSlotNo s = none) : slotFreed s q = s := by
  rw [slotFreed]
  split
  · next hp hf => exact (h.elim (fun h => by simp [h] at hp) fun h => by simp [h] at hf)
  · rfl

end

/-! ## Unbinding (R303, R304) -/

section
variable {s : State} {q h : Nat} (hslot : slotOfQueue s q = some h)

theorem chooseUnbind_stays (hnot : qState s q ≠ 3 ∨ queueIdle s q = false ∨ ((queueOf s q).close = false ∧ s.pending = [])) : chooseUnbind s q = s := by
  refine if_neg ?_
  rintro ⟨hbound, hidle, hwhy⟩
  rcases hnot with hnot | hnot | ⟨hopen, hnone⟩
  · exact hnot hbound
  · exact Bool.false_ne_true (hnot.symm.trans hidle)
  · exact hwhy.elim (fun h => Bool.false_ne_true (hopen.symm.trans h)) fun h => h.1 hnone

include hslot

theorem chooseUnbind_starts (hbound : qState s q = 3) (hidle : queueIdle s q = true)
    (hwhy : (queueOf s q).close = true ∨ (s.pending ≠ [] ∧ freeSlotNo s = none ∧ oldestIdle s = some q)) :
    chooseUnbind s q = setSlotWord (setQState s q 4) h 2 q := by
  have hcond : (queueOf s q).close = true ∨ (s.pending ≠ [] ∧ (freeSlotNo s).isNone = true ∧ oldestIdle s = some q) :=
    hwhy.imp_right fun ⟨h1, h2, h3⟩ => ⟨h1, by rw [h2]; rfl, h3⟩
  refine (if_pos ⟨hbound, hidle, hcond⟩).trans ?_
  rw [startUnbind, hslot]

theorem retestQueue_reached (hr : (testNotify s q).1 = true) : retestQueue s q = setSlotWord (setQState (testNotify s q).2 q 3) h 1 q := by
  rw [retestQueue, hslot]
  exact if_pos hr

/-- Slot h has no queue any more. -/
def slotCleared (u : State) (h : Nat) : State := { setSlotWord u h 0 0 with hslots := strike u.hslots h }

theorem retestQueue_unbinds (hr : (testNotify s q).1 = false) : retestQueue s q =
    if (queueOf s q).close then { setQState (slotCleared (testNotify s q).2 h) q 0 with queues := (slotCleared (testNotify s q).2 h).queues.filter fun x => x.q != q }
    else watchNotify (setQState (slotCleared (testNotify s q).2 h) q 1) q := by
  rw [retestQueue, hslot]
  exact if_neg (by simp [hr])

end

/-! ## Reading records (R301) -/

section
variable {s : State} {q h k : Nat}

theorem readRecord_waits (hnot : qState s q ≠ 3 ∨ freeKern s = none) : readRecord s q = s := by
  rw [readRecord]
  split
  · next hk => exact if_pos (hnot.resolve_right (by simp [hk]))
  · rfl

/-- The record that the scheduler reads once it has tested NOTIFY. -/
def nextRecord (u : State) (q : Nat) : Got (List Byte) :=
  readClean (ask0 (qTenant u q) (.ring q)) 0 u (qRing u q + 128 * ((qSeen u q).toNat % 2 ^ qLog u q)) 128

variable (hslot : slotOfQueue s q = some h) (hk : freeKern s = some k) (hbound : qState s q = 3)
include hslot hk hbound

theorem readRecord_early (hr : (testNotify s q).1 = false) : readRecord s q = (testNotify s q).2 := by
  rw [readRecord, hslot, hk]
  exact (if_neg (not_not.2 hbound)).trans (if_pos hr)

section
variable (hr : (testNotify s q).1 = true) {b : List Byte} {t : State}
include hr

theorem readRecord_bytes (ht : nextRecord (testNotify s q).2 q = .bytes b t) : readRecord s q = takenOne (postKernel t k q h b) q := by
  rw [nextRecord] at ht
  rw [readRecord, hslot, hk]
  dsimp only
  rw [if_neg (not_not.2 hbound), if_neg (by simp [hr]), ht]

theorem readRecord_refused (ht : nextRecord (testNotify s q).2 q = .refused t) :
    readRecord s q = bumpIo (takenOne (dropFail t (.ring q)) q) 0 0x48 1 := by
  rw [nextRecord] at ht
  rw [readRecord, hslot, hk]
  dsimp only
  rw [if_neg (not_not.2 hbound), if_neg (by simp [hr]), ht]

theorem readRecord_asks (ht : nextRecord (testNotify s q).2 q = .notYet t) : readRecord s q = onlyAsked (testNotify s q).2 t := by
  rw [nextRecord] at ht
  rw [readRecord, hslot, hk]
  dsimp only
  rw [if_neg (not_not.2 hbound), if_neg (by simp [hr]), ht]

end

end

/-- Settles O51: each event is one function of the model, described case by case. -/
theorem queueEvents : Obligations.QueueEvents := by
  unfold Obligations.QueueEvents
  refine ⟨fun s q => ⟨fun h => ⟨?_, ?_⟩, fun hq => ⟨fun h2 h3 => ?_, fun a hn hlatent => seenAtOpen_sound hlatent hn, fun h => ?_, fun h => ?_, fun h => ?_,
      fun h => ?_⟩⟩, fun s q h v hw hd => ⟨fun hf => ?_, fun r hf hr => ⟨fun hu => ?_, fun hu => ?_⟩, fun hf hr => ?_⟩, fun s q hw hd => ?_,
    fun s q h r => ⟨fun hp hf => ?_, fun hnot => ?_⟩, fun s q h hslot => ⟨fun hbound hidle hwhy => ?_, fun hnot => ?_, fun hnot => ?_, fun hun hr => ?_,
      fun hun hr => ⟨fun hc => ?_, fun hc => ?_⟩⟩, fun s q a hn hlatent => ⟨testNotify_sound hlatent hn, testNotify_toxic hlatent hn⟩,
    fun s q h k b hslot => ⟨fun hbound hr hk => ⟨fun t ht => ?_, fun t ht => ?_, fun t ht => ?_⟩, fun hbound hr hk => ?_, fun hnot => ?_⟩⟩
  · exact congrArg Host.Outcome.next (openQueue_number h)
  · exact congrArg Host.Outcome.next (closeQueue_number h)
  · exact congrArg Host.Outcome.next (openQueue_opens hq h2 h3)
  · exact congrArg Host.Outcome.next (openQueue_ignored h)
  · exact congrArg Host.Outcome.next (closeQueue_unbound hq h)
  · exact congrArg Host.Outcome.next (closeQueue_bound hq h)
  · exact congrArg Host.Outcome.next (closeQueue_closed hq h)
  · exact congrArg Host.Outcome.next ((notifyWakes_value hw).trans (wakeQueue_free hd hf))
  · exact congrArg Host.Outcome.next ((notifyWakes_value hw).trans (wakeQueue_unbinds hd hf hr hu))
  · exact congrArg Host.Outcome.next ((notifyWakes_value hw).trans (wakeQueue_behind hd hf hr hu))
  · exact congrArg Host.Outcome.next ((notifyWakes_value hw).trans (wakeQueue_pends hd hf hr))
  · exact congrArg Host.Outcome.next (notifyWakes_none hw hd)
  · exact congrArg Host.Outcome.next (slotFreed_binds hp hf)
  · exact congrArg Host.Outcome.next (slotFreed_waits hnot)
  · exact congrArg Host.Outcome.next (chooseUnbind_starts hslot hbound hidle hwhy)
  · exact congrArg Host.Outcome.next (chooseUnbind_stays hnot)
  · exact congrArg Host.Outcome.next (if_neg hnot)
  · exact congrArg Host.Outcome.next ((if_pos hun).trans (retestQueue_reached hslot hr))
  · exact congrArg Host.Outcome.next ((if_pos hun).trans ((retestQueue_unbinds hslot hr).trans (if_neg (by simp [hc]))))
  · exact congrArg Host.Outcome.next ((if_pos hun).trans ((retestQueue_unbinds hslot hr).trans (if_pos hc)))
  · exact congrArg Host.Outcome.next (readRecord_bytes hslot hk hbound hr ht)
  · exact congrArg Host.Outcome.next (readRecord_asks hslot hk hbound hr ht)
  · exact congrArg Host.Outcome.next (readRecord_refused hslot hk hbound hr ht)
  · exact congrArg Host.Outcome.next (readRecord_early hslot hk hbound hr)
  · exact congrArg Host.Outcome.next (readRecord_waits hnot)

end Sys2Proof
end

