-- ==== Sys2Proof/Proofs/KernelEventRules.lean ====
section
/-!
SUPPORT. A kernel is admitted, gated, placed, populated, swept and killed: O52.
-/
namespace Sys2Proof
open Machine Safety

theorem turn_come {s : State} {k : Nat} {x : Kern} (hst : kernState s k = 1) (hturn : itsTurn s x = true) :
    ¬ (kernState s k ≠ 1 ∨ itsTurn s x = false) := by simp [hst, hturn]

theorem tables_good {tabs : List (List Byte)} (hok : ∀ tab ∈ tabs, fibreTableOk tab = true) : ¬ tabs.any (fun b => !fibreTableOk b) = true := by
  rw [List.any_eq_true]
  rintro ⟨tab, hmem, hbad⟩
  rw [hok tab hmem] at hbad
  exact Bool.false_ne_true hbad

section
variable {s : State} {k : Nat} {x : Kern} (hx : kernOf s k = some x)
include hx

theorem kernOf_id : x.id = k := by simpa using List.find?_some hx

/-! ## Admission (R322-R324) -/

theorem admitKernel_waits (h : kernState s k ≠ 1 ∨ itsTurn s x = false) : admitKernel s k = s := by
  rw [admitKernel, hx]
  exact if_pos h

section
variable (hst : kernState s k = 1) (hturn : itsTurn s x = true)
include hst hturn

theorem admitKernel_bad (h : admitBad s k = true) : admitKernel s k = refuseKernel s k := by
  rw [admitKernel, hx]
  dsimp only
  rw [if_neg (turn_come hst hturn), if_pos h]

variable (hgood : admitBad s k = false) {u : State}
include hgood

theorem admitKernel_refused (h : readTables (ask0 (kernTenant s k) (.tables x.num)) k (kernStages s k) s [] = .refused u) :
    admitKernel s k = refuseKernel (dropFail u (.tables x.num)) k := by
  rw [admitKernel, hx]
  dsimp only
  rw [if_neg (turn_come hst hturn), if_neg (by simp [hgood]), h]

theorem admitKernel_asks (h : readTables (ask0 (kernTenant s k) (.tables x.num)) k (kernStages s k) s [] = .notYet u) :
    admitKernel s k = { s with cores := u.cores } := by
  rw [admitKernel, hx]
  dsimp only
  rw [if_neg (turn_come hst hturn), if_neg (by simp [hgood]), h]
  rfl

variable {tabs : List (List Byte)} (hread : readTables (ask0 (kernTenant s k) (.tables x.num)) k (kernStages s k) s [] = .bytes tabs u)
include hread

theorem admitKernel_tables (h : ∃ tab ∈ tabs, fibreTableOk tab = false) : admitKernel s k = refuseKernel u k := by
  have hany : tabs.any (fun b => !fibreTableOk b) = true := by
    obtain ⟨tab, hmem, hbad⟩ := h
    exact List.any_eq_true.2 ⟨tab, hmem, by rw [hbad]; rfl⟩
  rw [admitKernel, hx]
  dsimp only
  rw [if_neg (turn_come hst hturn), if_neg (by simp [hgood]), hread]
  exact if_pos hany

variable (hok : ∀ tab ∈ tabs, fibreTableOk tab = true)
include hok

theorem admitKernel_ungated (hgate : counterRef u (w64 (lrecNat u k 0x34 6)) = none) : admitKernel s k = admitNow u x := by
  rw [admitKernel, hx]
  dsimp only
  rw [if_neg (turn_come hst hturn), if_neg (by simp [hgood]), hread]
  dsimp only
  rw [if_neg (tables_good hok), hgate]

variable {a : Nat} (hgate : counterRef u (w64 (lrecNat u k 0x34 6)) = some a) (hlatent : u.latent = [])
include hgate hlatent

theorem admitKernel_poisoned (h : isToxic u a = true) : admitKernel s k = refuseKernel (poisonEvent u a) k := by
  rw [admitKernel, hx]
  dsimp only
  rw [if_neg (turn_come hst hturn), if_neg (by simp [hgood]), hread]
  dsimp only
  rw [if_neg (tables_good hok), hgate]
  dsimp only
  rw [readCounter_toxic hlatent h]

theorem admitKernel_gated (h : isToxic u a = false) : admitKernel s k =
    if reached (readWord u a) (w64 (lrecNat u k 0x20 8)) then admitNow u x
    else enrolWaiter (setKernState u k 2) (.gate k) a (w64 (lrecNat u k 0x20 8)) := by
  rw [admitKernel, hx]
  dsimp only
  rw [if_neg (turn_come hst hturn), if_neg (by simp [hgood]), hread]
  dsimp only
  rw [if_neg (tables_good hok), hgate]
  dsimp only
  rw [readCounter_sound hlatent h]

end

/-! ## The gate (R307) -/

theorem gateKernel_late {v : Option Word} (hw : s.fired.find? (fun e => e.1 == .gate k) = some (.gate k, v)) (h : kernState s k ≠ 2) :
    gateKernel s k = { s with fired := s.fired.filter fun e => e.1 != .gate k } := by
  rw [gateKernel, hx, hw]
  exact if_pos h

theorem gateKernel_woken {v : Option Word} (hw : s.fired.find? (fun e => e.1 == .gate k) = some (.gate k, v)) (h : kernState s k = 2) :
    gateKernel s k = if v = none then refuseKernel { s with fired := s.fired.filter fun e => e.1 != .gate k } k
      else admitNow { s with fired := s.fired.filter fun e => e.1 != .gate k } x := by
  rw [gateKernel, hx, hw]
  dsimp only
  rw [if_neg (not_not.2 h)]
  cases v with
  | none => rw [if_pos rfl]
  | some v => rw [if_neg (by simp)]

theorem gateKernel_asleep (hw : s.fired.find? (fun e => e.1 == .gate k) = none) : gateKernel s k = s := by
  rw [gateKernel, hx, hw]

/-! ## Placement (R325) -/

theorem placeKernelEvent_places {a b : List Kern} {p : List (StageEntry × List Nat)} (horder : tryOrder s = a ++ x :: b)
    (hbefore : ∀ y ∈ a, findPlacement s y = none) (hp : findPlacement s x = some p) : placeKernelEvent s k = placeKernel s x p := by
  have hfind : (tryOrder s).find? (fun y => (findPlacement s y).isSome) = some x := by
    rw [horder, List.find?_append, List.find?_eq_none.2 fun y hy => by rw [hbefore y hy]; exact Bool.false_ne_true,
      List.find?_cons_of_pos (by rw [hp]; rfl)]
    rfl
  rw [placeKernelEvent, hfind]
  dsimp only
  rw [if_pos (kernOf_id hx), hp]

omit hx in
theorem placeKernelEvent_waits (h : ∀ y ∈ tryOrder s, findPlacement s y = none) : placeKernelEvent s k = s := by
  have hfind : (tryOrder s).find? (fun y => (findPlacement s y).isSome) = none :=
    List.find?_eq_none.2 fun y hy => by rw [h y hy]; exact Bool.false_ne_true
  rw [placeKernelEvent, hfind]

/-! ## Population (R327) -/

theorem populate_elsewhere (h : kernState s k ≠ 4) : populate s k = s := by
  rw [populate, hx]
  exact if_pos h

section
variable (hst : kernState s k = 4) (hpark : x.park = none) {t : State}
include hst hpark

theorem populate_refused (h : gatherPop x (popCores x) s [] = .refused t) : populate s k = failPopulation t x := by
  rw [populate, hx]
  dsimp only
  rw [if_neg (not_not.2 hst), hpark]
  dsimp only
  rw [h]

theorem populate_asks (h : gatherPop x (popCores x) s [] = .notYet t) : populate s k = { s with cores := t.cores } := by
  rw [populate, hx]
  dsimp only
  rw [if_neg (not_not.2 hst), hpark]
  dsimp only
  rw [h]
  rfl

variable {fill : CoreFill} {fills : List CoreFill} (h : gatherPop x (popCores x) s [] = .bytes (fill :: fills) t)
include h

theorem populate_fills {u : State} (hmade : createAll k (fill :: fills) ((fill :: fills).foldl fillCore t) = some u) :
    populate s k = setKern (setKernState u k 5) { x with segs := fill.segs } := by
  rw [populate, hx]
  dsimp only
  rw [if_neg (not_not.2 hst), hpark]
  dsimp only
  rw [h]
  dsimp only
  rw [hmade]

theorem populate_fails (hmade : createAll k (fill :: fills) ((fill :: fills).foldl fillCore t) = none) :
    populate s k = failPopulation ((fill :: fills).foldl fillCore t) x := by
  rw [populate, hx]
  dsimp only
  rw [if_neg (not_not.2 hst), hpark]
  dsimp only
  rw [h]
  dsimp only
  rw [hmade]

end

/-! ## Sweeps (R336) -/

/-- The counts that a sweep keeps for the next one. -/
def sweptCounts (s : State) (k : Nat) (x : Kern) : State := writeNat (writeNat s (kernLoc k + 0x90) 8 x.sent) (kernLoc k + 0x98) 8 x.rcvd
/-- The counts are those of the sweep before. -/
def sameCounts (s : State) (k : Nat) (x : Kern) : Prop := readNat s (kernLoc k + 0x90) 8 = x.sent ∧ readNat s (kernLoc k + 0x98) 8 = x.rcvd

theorem sweep_elsewhere (h5 : kernState s k ≠ 5) (h6 : kernState s k ≠ 6) : sweep s k = s := by
  rw [sweep, hx]
  exact if_pos ⟨h5, h6⟩

theorem sweep_resident (h : kernState s k = 5 ∨ kernState s k = 6) : sweep s k =
    if quietKernel s x then
      if kernState s k = 5 then setKernState (sweptCounts s k x) k 6
      else if readNat s (kernLoc k + 0x90) 8 == x.sent && readNat s (kernLoc k + 0x98) 8 == x.rcvd then completeKernel (sweptCounts s k x) x false
      else setKernState (sweptCounts s k x) k 5
    else setKernState (sweptCounts s k x) k 5 := by
  rw [sweep, hx]
  exact if_neg (by omega)

theorem sweep_running (h : kernState s k = 5) : sweep s k = setKernState (sweptCounts s k x) k (if quietKernel s x then 6 else 5) := by
  rw [sweep_resident hx (.inl h), if_pos h]
  split <;> rfl

theorem sweep_completes (h : kernState s k = 6) (hq : quietKernel s x = true) (hsame : sameCounts s k x) :
    sweep s k = completeKernel (sweptCounts s k x) x false := by
  rw [sweep_resident hx (.inr h), if_pos hq, if_neg (by omega), if_pos (by rw [hsame.1, hsame.2, beq_self_eq_true, beq_self_eq_true]; rfl)]

theorem sweep_restarts (h : kernState s k = 6) (hnot : quietKernel s x = false ∨ ¬ sameCounts s k x) :
    sweep s k = setKernState (sweptCounts s k x) k 5 := by
  rw [sweep_resident hx (.inr h), if_neg (show ¬ kernState s k = 5 by omega)]
  split
  · next hq =>
    refine if_neg fun hsame => ?_
    rw [Bool.and_eq_true, beq_iff_eq, beq_iff_eq] at hsame
    exact hnot.elim (fun h => Bool.false_ne_true (h.symm.trans hq)) (· hsame)
  · rfl

/-! ## A kill (R338) -/

/-- The entry of kernel k with KILL set. -/
def killSet (s : State) (k : Nat) : State := writeNat s (kernLoc k + 0xA8) 1 (readNat s (kernLoc k + 0xA8) 1 ||| 2)

theorem killKernel_early (h1 : 1 ≤ kernState s k) (h3 : kernState s k ≤ 3) : killKernel s k = refuseKernel (dropGate (killSet s k) k) k := by
  rw [killKernel, hx]
  exact if_pos (by omega)

theorem killKernel_over (h : kernState s k = 0 ∨ 7 ≤ kernState s k) : killKernel s k = s := by
  rw [killKernel, hx]
  exact (if_neg (by omega)).trans (if_neg (by omega))

variable (h4 : 4 ≤ kernState s k) (h6 : kernState s k ≤ 6)
include h4 h6

theorem killKernel_completes (h : hasReply (killSet s k) x = false) : killKernel s k = completeKernel (killSet s k) x true := by
  rw [killKernel, hx]
  exact (if_neg (by omega)).trans ((if_pos (by omega)).trans (if_neg (by simp only [killSet] at h; simp [h])))

theorem killKernel_stops (h : hasReply (killSet s k) x = true) :
    killKernel s k = (kernCores x).foldl (fun u g => stopOn u k g) (setKern (killSet s k) { x with killed := true }) := by
  rw [killKernel, hx]
  exact (if_neg (by omega)).trans ((if_pos (by omega)).trans (if_pos h))

end

/-- Settles O52: each event is one function of the model, described case by case. -/
theorem kernelEvents : Obligations.KernelEvents := by
  unfold Obligations.KernelEvents
  refine ⟨fun s k x hx => ⟨fun h => ?_, fun hst hturn => ⟨fun h => ?_, fun u hgood h => ?_, fun u hgood h => ?_, fun tabs u hgood hread => ⟨fun h => ?_,
      fun hok => ⟨fun hgate => ?_, fun a hgate hlatent => ⟨fun h => ?_, fun h => ?_⟩⟩⟩⟩, fun v hw h => ?_, fun v hw h => ?_, fun hw => ?_,
    fun a b p horder hbefore hp => ?_, fun h => ?_, fun h => ?_, fun hst hpark => ⟨fun t h => ?_, fun t h => ?_, fun fill fills t h =>
      ⟨fun u hmade => ?_, fun hmade => ?_⟩⟩, ⟨fun h5 h6 => ?_, fun h => ?_, fun h hq hsame => ?_, fun h hnot => ?_⟩, fun hk => ?_⟩, fun s v h => ?_⟩
  · exact congrArg Host.Outcome.next (admitKernel_waits hx h)
  · exact congrArg Host.Outcome.next (admitKernel_bad hx hst hturn h)
  · exact congrArg Host.Outcome.next (admitKernel_refused hx hst hturn hgood h)
  · exact congrArg Host.Outcome.next (admitKernel_asks hx hst hturn hgood h)
  · exact congrArg Host.Outcome.next (admitKernel_tables hx hst hturn hgood hread h)
  · exact congrArg Host.Outcome.next (admitKernel_ungated hx hst hturn hgood hread hok hgate)
  · exact congrArg Host.Outcome.next (admitKernel_poisoned hx hst hturn hgood hread hok hgate hlatent h)
  · exact congrArg Host.Outcome.next (admitKernel_gated hx hst hturn hgood hread hok hgate hlatent h)
  · exact congrArg Host.Outcome.next (gateKernel_late hx hw h)
  · exact congrArg Host.Outcome.next (gateKernel_woken hx hw h)
  · exact congrArg Host.Outcome.next (gateKernel_asleep hx hw)
  · exact congrArg Host.Outcome.next (placeKernelEvent_places hx horder hbefore hp)
  · exact congrArg Host.Outcome.next (placeKernelEvent_waits h)
  · exact congrArg Host.Outcome.next (populate_elsewhere hx h)
  · exact congrArg Host.Outcome.next (populate_refused hx hst hpark h)
  · exact congrArg Host.Outcome.next (populate_asks hx hst hpark h)
  · exact congrArg Host.Outcome.next (populate_fills hx hst hpark h hmade)
  · exact congrArg Host.Outcome.next (populate_fails hx hst hpark h hmade)
  · exact congrArg Host.Outcome.next (sweep_elsewhere hx h5 h6)
  · exact congrArg Host.Outcome.next (sweep_running hx h)
  · exact congrArg Host.Outcome.next (sweep_completes hx h hq hsame)
  · exact congrArg Host.Outcome.next (sweep_restarts hx h hnot)
  · have hnum : (BitVec.ofNat 64 k).toNat = k := (BitVec.toNat_ofNat ..).trans (Nat.mod_eq_of_lt (by omega))
    have hstore : killStore s (BitVec.ofNat 64 k) = killKernel s k := by rw [killStore, hnum, if_pos hk]
    exact ⟨fun h1 h3 => congrArg Host.Outcome.next (hstore.trans (killKernel_early hx h1 h3)),
      fun h => congrArg Host.Outcome.next (hstore.trans (killKernel_over hx h)),
      fun h4 h6 h => congrArg Host.Outcome.next (hstore.trans (killKernel_completes hx h4 h6 h)),
      fun h4 h6 h => congrArg Host.Outcome.next (hstore.trans (killKernel_stops hx h4 h6 h))⟩
  · refine congrArg Host.Outcome.next ?_
    show killStore s v = s
    rw [killStore]
    split
    · next hlt => rw [killKernel, h.resolve_left (Nat.not_le.2 hlt)]
    · rfl

end Sys2Proof
end
